-- ==== Sys2Proof/Word.lean ====
section
/-!
DEFINITION. The word types of the machine and the names of its rows (R3, R8, R43, R44).
-/

namespace Sys2Proof

/-- One byte, the smallest addressable unit (R3). -/
abbrev Byte := BitVec 8

/-- A doubleword: an X, E or M register, a row word, a pointer (R8, R44). -/
abbrev Word := BitVec 64

/-- A 5-bit register field (R152). -/
abbrev Reg := BitVec 5

/-- A row of the package: row `row` (0-255) of core `core` (0-319) (R17, R44). -/
structure RowId where
  core : Nat
  row : Nat
  deriving DecidableEq, Repr

end Sys2Proof
end

