-- ==== Sys2Proof/Config.lean ====
section
/-!
DEFINITION. What the spec leaves open, as constants without a body: nothing can evaluate them, so what is proved holds
for every value they may have.
-/

namespace Sys2Proof

/-- A value the spec leaves undefined; the step applies it to a fresh number each time (DESIGN CHOICE, log entry 5). -/
opaque Config.freeValue : Nat → Word

/-- Which neighbour `vfp.exp2f` returns for the input bits `x` of type `ty`: true the upper one.
R222 leaves the rule open and says that it depends on `x` and `ty` alone (DESIGN CHOICE, log entry 11). -/
opaque Config.exp2fUp : (ty : Nat) → (x : Nat) → Bool

/-- A row-image record of the start image (R170, R391): core, row, START, AUTORES and PRI of its FLAGS, the 512 words, and the
numbers of the empty ones. -/
structure StartRow where
  core : Nat
  row : Nat
  start : Bool
  autores : Bool
  pri : Nat
  words : List Word
  empty : List Nat
  deriving DecidableEq, Repr

/-- The sections of the start image: address and bytes. R391 says that they are fixed in each part and not visible (DESIGN
CHOICE, log entry 18). -/
opaque Config.startSections : List (Nat × List Byte)

/-- The row-image records of the start image (DESIGN CHOICE, log entry 18). -/
opaque Config.startRows : List StartRow

/-- A channel record of the start image (R172): core, channel, GATE, HOLD, AUTORES and PRIV of its FLAGS, PRI, ENTRY and POOL. -/
structure StartChan where
  core : Nat
  chan : Nat
  gate : Bool
  hold : Bool
  autores : Bool
  priv : Bool
  pri : Nat
  entry : Word
  pool0 : Word
  pool1 : Word
  pool2 : Word
  pool3 : Word
  deriving DecidableEq, Repr

/-- The channel records of the start image (DESIGN CHOICE, log entry 18). -/
opaque Config.startChans : List StartChan

end Sys2Proof
end

