-- ==== Sys2Proof/Syntax.lean ====
section
/-!
DEFINITION. The instructions and the steps of the device: one constructor per row of the opcode table.
The first 235 have an instruction word (R147-R157).
The last 95 are steps of the device without one (spec/95_what_each_step_holds.md).
The arguments of a device step say which instance of it happens and what the world outside supplies:
a power reading, a packet's bytes, the part that fails (DESIGN CHOICE, log entries 1 and 17).
Field names: `sz` size (0 w, 1 d), `tb`, `ta`, `t` trap bits (R153), `d` `a` `b` `c` register fields,
`dp` the pair D = 2 x dp, `mk` mask field (R150), `ty` element type, `mo` access mode (R157).
-/

namespace Sys2Proof

/-- Who makes an access from outside the package (R56, R361, R373). -/
inductive Agent where
  /-- The host, through the link of die `die` (R361). -/
  | host (die : Nat)
  /-- The peer behind Flisen port `port` (R373). -/
  | peer (port : Nat)
  deriving DecidableEq, Repr

/-- What an access of another agent to a row does (R56). -/
inductive OutOp where
  /-- Read `n` bytes. -/
  | read (n : Nat)
  /-- Write these bytes. -/
  | write (bytes : List Byte)
  deriving DecidableEq, Repr

/-- The two halves of a long-latency producer's completion (R54, R98, R234). -/
inductive FillStep where
  /-- One 16-byte part of the access is performed at its target. -/
  | perform (part : Nat)
  /-- One destination word is written and set full. -/
  | deliver (word : Nat)
  deriving DecidableEq, Repr

/-- The windows through which the host reaches the part (R361, R362). -/
inductive HostBar where
  | bar0 | bar2 | bar4 | cxlMem
  deriving DecidableEq, Repr

/-- What a Flisen access does (R373). -/
inductive PeerOp where
  | load (n : Nat)
  | store (bytes : List Byte)
  /-- An `fe` load, or an `fe.take` load, of `n` bytes (R53). -/
  | feLoad (n : Nat) (take : Bool)
  /-- An `fe.set` store (R53). -/
  | feStore (bytes : List Byte)
  /-- An atomic with AMO function code `fn` (R155) of width 4 or 8 bytes, and its issuer's rounding mode (R45, R245). -/
  | atomic (fn : Nat) (double : Bool) (operand expected : Word) (rm : BitVec 2)
  /-- The issuer of a decrement retries its step 2: the home reads ACTION anew and sends the packet (R246). -/
  | fireAgain
  /-- A packet of whole doublewords for a channel (R373). -/
  | packet (words : List Word)
  /-- A store to a notify page or word (R373). -/
  | notify (v : Word)
  deriving DecidableEq, Repr

/-- One window of the package Damper (R382): the power measured, the refill scale it chooses in 1/256, and the clusters
of the highest draw. -/
structure DamperReading where
  watts : Nat
  scale : Nat
  draw : List Nat
  deriving DecidableEq, Repr

/-- How a start stage ends (R389, R393). -/
inductive StageResult where
  | ok
  | failed
  deriving DecidableEq, Repr

/-- A part that can fail alone (R369). -/
inductive PartKind where
  | core | slice | linkGroup | gddr
  deriving DecidableEq, Repr

/-- What a scrub finds, and the unit it finds it in (R348, R395). -/
inductive ScrubHit where
  | corrected (unit : Nat)
  | uncorrectable (unit : Nat)
  deriving DecidableEq, Repr

/-- Where a soft error strikes (R394). -/
inductive ErrSite where
  /-- A row-store word. -/
  | rowWord (r : RowId) (word : Nat)
  /-- A word of device memory. -/
  | gddr (pa : Nat)
  /-- A word of a core's shadow array. -/
  | shadowWord (r : RowId) (word : Nat)
  /-- Line `i` of the lines that the slices hold. -/
  | l2Line (i : Nat)
  /-- A core's accumulator SRAM. -/
  | accumulator (core : Nat)
  /-- A link of die `die`, at one of its ports. -/
  | link (die port : Nat)
  deriving DecidableEq, Repr

/-- One constructor per row of the opcode table. -/
inductive Instr where
  /-- `alu.add.sz`: D := A + B (R195). -/
  | aluAdd (sz tb ta : Bool) (b a d : Reg)
  /-- `alu.sub.sz`: D := A - B (R195). -/
  | aluSub (sz tb ta : Bool) (b a d : Reg)
  /-- `alu.mul.sz`: D := low half of A × B (R195). -/
  | aluMul (sz tb ta : Bool) (b a d : Reg)
  /-- `alu.mulh.sz`: D := high half of the signed product (R195). -/
  | aluMulh (sz tb ta : Bool) (b a d : Reg)
  /-- `alu.mulhu.sz`: D := high half of the unsigned product (R195). -/
  | aluMulhu (sz tb ta : Bool) (b a d : Reg)
  /-- `alu.div.sz`: Signed division truncating toward zero, with the special cases of R197 (R197). -/
  | aluDiv (sz tb ta : Bool) (b a d : Reg)
  /-- `alu.divu.sz`: Unsigned division (R197). -/
  | aluDivu (sz tb ta : Bool) (b a d : Reg)
  /-- `alu.rem.sz`: Signed remainder, with the sign of the dividend (R197). -/
  | aluRem (sz tb ta : Bool) (b a d : Reg)
  /-- `alu.remu.sz`: Unsigned remainder (R197). -/
  | aluRemu (sz tb ta : Bool) (b a d : Reg)
  /-- `alu.and.sz`: D := A and B (R195). -/
  | aluAnd (sz tb ta : Bool) (b a d : Reg)
  /-- `alu.or.sz`: D := A or B (R195). -/
  | aluOr (sz tb ta : Bool) (b a d : Reg)
  /-- `alu.xor.sz`: D := A xor B (R195). -/
  | aluXor (sz tb ta : Bool) (b a d : Reg)
  /-- `alu.andn.sz`: D := A and not B (R195). -/
  | aluAndn (sz tb ta : Bool) (b a d : Reg)
  /-- `alu.shl.sz`: D := A shifted left by B mod n (R195). -/
  | aluShl (sz tb ta : Bool) (b a d : Reg)
  /-- `alu.shr.sz`: D := A shifted right with zeros (R195). -/
  | aluShr (sz tb ta : Bool) (b a d : Reg)
  /-- `alu.sra.sz`: D := A shifted right arithmetically (R195). -/
  | aluSra (sz tb ta : Bool) (b a d : Reg)
  /-- `alu.min.sz`: D := signed minimum of A and B (R195). -/
  | aluMin (sz tb ta : Bool) (b a d : Reg)
  /-- `alu.max.sz`: D := signed maximum of A and B (R195). -/
  | aluMax (sz tb ta : Bool) (b a d : Reg)
  /-- `alu.minu.sz`: D := unsigned minimum of A and B (R195). -/
  | aluMinu (sz tb ta : Bool) (b a d : Reg)
  /-- `alu.maxu.sz`: D := unsigned maximum of A and B (R195). -/
  | aluMaxu (sz tb ta : Bool) (b a d : Reg)
  /-- `alu.rot.sz`: D := A rotated right by B mod n (R195). -/
  | aluRot (sz tb ta : Bool) (b a d : Reg)
  /-- `alu.clz.sz`: D := count of leading zeros of A (R195). -/
  | aluClz (sz tb ta : Bool) (a d : Reg)
  /-- `alu.ctz.sz`: D := count of trailing zeros of A (R195). -/
  | aluCtz (sz tb ta : Bool) (a d : Reg)
  /-- `alu.popc.sz`: D := count of set bits of A (R195). -/
  | aluPopc (sz tb ta : Bool) (a d : Reg)
  /-- `alu.eq.sz`: D := 1 when A = B, else 0 (R195). -/
  | aluEq (sz tb ta : Bool) (b a d : Reg)
  /-- `alu.ne.sz`: D := 1 when A ≠ B, else 0 (R195). -/
  | aluNe (sz tb ta : Bool) (b a d : Reg)
  /-- `alu.lt.sz`: D := 1 when A < B signed, else 0 (R195). -/
  | aluLt (sz tb ta : Bool) (b a d : Reg)
  /-- `alu.ltu.sz`: D := 1 when A < B unsigned, else 0 (R195). -/
  | aluLtu (sz tb ta : Bool) (b a d : Reg)
  /-- `alu.le.sz`: D := 1 when A ≤ B signed, else 0 (R195). -/
  | aluLe (sz tb ta : Bool) (b a d : Reg)
  /-- `alu.leu.sz`: D := 1 when A ≤ B unsigned, else 0 (R195). -/
  | aluLeu (sz tb ta : Bool) (b a d : Reg)
  /-- `alu.sel.sz`: D := A when D ≠ 0, else B (R195). -/
  | aluSel (sz tb ta : Bool) (b a d : Reg)
  /-- `alu.ext.sz`: D := the bit field of A that B describes (R196). -/
  | aluExt (sz tb ta : Bool) (b a d : Reg)
  /-- `alui`: D := A + sign-extended I15 (R198). -/
  | alui (imm : BitVec 15) (ta : Bool) (a d : Reg)
  /-- `andi`: D := A and sign-extended I15 (R198). -/
  | andi (imm : BitVec 15) (ta : Bool) (a d : Reg)
  /-- `ori`: D := A or sign-extended I15 (R198). -/
  | ori (imm : BitVec 15) (ta : Bool) (a d : Reg)
  /-- `xori`: D := A xor sign-extended I15 (R198). -/
  | xori (imm : BitVec 15) (ta : Bool) (a d : Reg)
  /-- `shi.shl.sz`: Shift left by an immediate amount (R199). -/
  | shiShl (sz : Bool) (amt : BitVec 6) (ta : Bool) (a d : Reg)
  /-- `shi.shr.sz`: Logical shift right by an immediate amount (R199). -/
  | shiShr (sz : Bool) (amt : BitVec 6) (ta : Bool) (a d : Reg)
  /-- `shi.sra.sz`: Arithmetic shift right by an immediate amount (R199). -/
  | shiSra (sz : Bool) (amt : BitVec 6) (ta : Bool) (a d : Reg)
  /-- `shi.rot.sz`: Rotate right by an immediate amount (R199). -/
  | shiRot (sz : Bool) (amt : BitVec 6) (ta : Bool) (a d : Reg)
  /-- `cmpi.eq`: D := 1 when A equals imm12 (R200). -/
  | cmpiEq (imm : BitVec 12) (ta : Bool) (a d : Reg)
  /-- `cmpi.ne`: D := 1 when A differs from imm12 (R200). -/
  | cmpiNe (imm : BitVec 12) (ta : Bool) (a d : Reg)
  /-- `cmpi.lt`: D := 1 when A < imm12, signed (R200). -/
  | cmpiLt (imm : BitVec 12) (ta : Bool) (a d : Reg)
  /-- `cmpi.ltu`: D := 1 when A < imm12, unsigned (R200). -/
  | cmpiLtu (imm : BitVec 12) (ta : Bool) (a d : Reg)
  /-- `cmpi.le`: D := 1 when A ≤ imm12, signed (R200). -/
  | cmpiLe (imm : BitVec 12) (ta : Bool) (a d : Reg)
  /-- `cmpi.leu`: D := 1 when A ≤ imm12, unsigned (R200). -/
  | cmpiLeu (imm : BitVec 12) (ta : Bool) (a d : Reg)
  /-- `cmpi.gt`: D := 1 when A > imm12, signed (R200). -/
  | cmpiGt (imm : BitVec 12) (ta : Bool) (a d : Reg)
  /-- `cmpi.gtu`: D := 1 when A > imm12, unsigned (R200). -/
  | cmpiGtu (imm : BitVec 12) (ta : Bool) (a d : Reg)
  /-- `ldi`: D := sign-extended I21 (R201). -/
  | ldi (imm : BitVec 21) (d : Reg)
  /-- `ldx`: D[41:21] := I21, with the upper bits sign-filled and D[20:0] kept (R201). -/
  | ldx (imm : BitVec 21) (d : Reg)
  /-- `ext.c0`: E[20:0] := I21 (R202). -/
  | extC0 (imm : BitVec 21) (e : BitVec 3)
  /-- `ext.c1`: E[41:21] := I21 (R202). -/
  | extC1 (imm : BitVec 21) (e : BitVec 3)
  /-- `ext.c2`: E[62:42] := I21 and E[63] := I21[20] (R202). -/
  | extC2 (imm : BitVec 21) (e : BitVec 3)
  /-- `ext.x`: E := the X register named by I21[4:0] (R202). -/
  | extX (x : Reg) (e : BitVec 3)
  /-- `br`: Branch PC-relative, with the link in D (R203). -/
  | br (imm : BitVec 21) (d : Reg)
  /-- `bc.eq`: Branch when A = B (R203). -/
  | bcEq (imm : BitVec 12) (ta : Bool) (b a : Reg)
  /-- `bc.ne`: Branch when A ≠ B (R203). -/
  | bcNe (imm : BitVec 12) (ta : Bool) (b a : Reg)
  /-- `bc.lt`: Branch when A < B, signed (R203). -/
  | bcLt (imm : BitVec 12) (ta : Bool) (b a : Reg)
  /-- `bc.ltu`: Branch when A < B, unsigned (R203). -/
  | bcLtu (imm : BitVec 12) (ta : Bool) (b a : Reg)
  /-- `bc.ge`: Branch when A ≥ B, signed (R203). -/
  | bcGe (imm : BitVec 12) (ta : Bool) (b a : Reg)
  /-- `bc.geu`: Branch when A ≥ B, unsigned (R203). -/
  | bcGeu (imm : BitVec 12) (ta : Bool) (b a : Reg)
  /-- `jmp`: Jump to A + imm, with the link in D (R203). -/
  | jmp (imm : BitVec 14) (ta : Bool) (a d : Reg)
  /-- `jmp.ret`: Jump as jmp, marked as a return for fetch (R203). -/
  | jmpRet (imm : BitVec 14) (ta : Bool) (a d : Reg)
  /-- `ld.sz.mo`: Scalar load of SZ in mode MO, own-row or remote (R236). -/
  | ld (off : BitVec 10) (mo : BitVec 2) (sz : BitVec 3) (ta : Bool) (a d : Reg)
  /-- `st.sz.mo`: Scalar store of SZ in mode MO through the store FIFO (R238). -/
  | st (off : BitVec 10) (mo : BitVec 2) (sz : BitVec 3) (ta : Bool) (a d : Reg)
  /-- `vld.sz.mo`: Vector load of 128, 64 or 32 bytes (R239). -/
  | vld (off : BitVec 10) (mo : BitVec 2) (sz : BitVec 3) (ta : Bool) (a d : Reg)
  /-- `vst.sz.mo`: Vector store of 128, 64 or 32 bytes (R239). -/
  | vst (off : BitVec 10) (mo : BitVec 2) (sz : BitVec 3) (ta : Bool) (a d : Reg)
  /-- `vmem.gather.ty`: Indexed load of active lanes into V (R241). -/
  | vmemGather (ty : BitVec 3) (t : Bool) (mk : BitVec 3) (b a d : Reg)
  /-- `vmem.scatter.ty`: Indexed store of active lanes, in steps of 16 lanes (R242). -/
  | vmemScatter (ty : BitVec 3) (t : Bool) (mk : BitVec 3) (b a d : Reg)
  /-- `vmem.lds.ty`: Strided load of active lanes (R241). -/
  | vmemLds (ty : BitVec 3) (t : Bool) (mk : BitVec 3) (b a d : Reg)
  /-- `vmem.sts.ty`: Strided store of active lanes (R242). -/
  | vmemSts (ty : BitVec 3) (t : Bool) (mk : BitVec 3) (b a d : Reg)
  /-- `vmem.scatred.add.ty`: Update-only add of lanes into the reduction cache (R243). -/
  | vmemScatredAdd (ty : BitVec 3) (t : Bool) (mk : BitVec 3) (b a d : Reg)
  /-- `vmem.scatred.fadd.ty`: Update-only floating add into the reduction cache (R243). -/
  | vmemScatredFadd (ty : BitVec 3) (t : Bool) (mk : BitVec 3) (b a d : Reg)
  /-- `vmem.scatred.min.ty`: Update-only signed minimum (R243). -/
  | vmemScatredMin (ty : BitVec 3) (t : Bool) (mk : BitVec 3) (b a d : Reg)
  /-- `vmem.scatred.max.ty`: Update-only signed maximum (R243). -/
  | vmemScatredMax (ty : BitVec 3) (t : Bool) (mk : BitVec 3) (b a d : Reg)
  /-- `vmem.scatred.minu.ty`: Update-only unsigned minimum (R243). -/
  | vmemScatredMinu (ty : BitVec 3) (t : Bool) (mk : BitVec 3) (b a d : Reg)
  /-- `vmem.scatred.maxu.ty`: Update-only unsigned maximum (R243). -/
  | vmemScatredMaxu (ty : BitVec 3) (t : Bool) (mk : BitVec 3) (b a d : Reg)
  /-- `vmem.scatred.or.ty`: Update-only bitwise or (R243). -/
  | vmemScatredOr (ty : BitVec 3) (t : Bool) (mk : BitVec 3) (b a d : Reg)
  /-- `amo.add.sz.scope`: Atomic add at the home; the old value goes to D (R245). -/
  | amoAdd (post : Bool) (scope : BitVec 2) (sz tb ta : Bool) (b a d : Reg)
  /-- `amo.and.sz.scope`: Atomic and (R245). -/
  | amoAnd (post : Bool) (scope : BitVec 2) (sz tb ta : Bool) (b a d : Reg)
  /-- `amo.or.sz.scope`: Atomic or (R245). -/
  | amoOr (post : Bool) (scope : BitVec 2) (sz tb ta : Bool) (b a d : Reg)
  /-- `amo.xor.sz.scope`: Atomic xor (R245). -/
  | amoXor (post : Bool) (scope : BitVec 2) (sz tb ta : Bool) (b a d : Reg)
  /-- `amo.min.sz.scope`: Atomic signed minimum (R245). -/
  | amoMin (post : Bool) (scope : BitVec 2) (sz tb ta : Bool) (b a d : Reg)
  /-- `amo.max.sz.scope`: Atomic signed maximum (R245). -/
  | amoMax (post : Bool) (scope : BitVec 2) (sz tb ta : Bool) (b a d : Reg)
  /-- `amo.minu.sz.scope`: Atomic unsigned minimum (R245). -/
  | amoMinu (post : Bool) (scope : BitVec 2) (sz tb ta : Bool) (b a d : Reg)
  /-- `amo.maxu.sz.scope`: Atomic unsigned maximum (R245). -/
  | amoMaxu (post : Bool) (scope : BitVec 2) (sz tb ta : Bool) (b a d : Reg)
  /-- `amo.swap.sz.scope`: Atomic swap (R245). -/
  | amoSwap (post : Bool) (scope : BitVec 2) (sz tb ta : Bool) (b a d : Reg)
  /-- `amo.cas.sz.scope`: Atomic compare-and-swap against E0 (R245). -/
  | amoCas (post : Bool) (scope : BitVec 2) (sz tb ta : Bool) (b a d : Reg)
  /-- `amo.dec.fire.d.scope`: Decrements a counter cell and sends its packet when the count goes from 1 to 0 (R246). -/
  | amoDecFire (scope : BitVec 2) (tb ta : Bool) (a d : Reg)
  /-- `amo.fadd.sz.scope`: Atomic floating add, rounded with the issuer's mode (R245). -/
  | amoFadd (post : Bool) (scope : BitVec 2) (sz tb ta : Bool) (b a d : Reg)
  /-- `sync.fence.die`: Waits until earlier stores are performed die-locally (R93). -/
  | syncFenceDie (tb ta : Bool)
  /-- `sync.fence.dev`: Waits until earlier accesses within the package are performed (R93). -/
  | syncFenceDev (tb ta : Bool)
  /-- `sync.fence.sys`: As fence.dev, and also host and peer accesses (R93). -/
  | syncFenceSys (tb ta : Bool)
  /-- `sync.fence.cp`: Waits for earlier engine transfers and range instructions (R93). -/
  | syncFenceCp (tb ta : Bool)
  /-- `sync.fence.u`: Merges every update-only line of the core (R93). -/
  | syncFenceU (tb ta : Bool)
  /-- `sync.rel`: Device-scope release: drains, takes a date and writes the sync object with value, floor and signature (R118). -/
  | syncRel (tb ta : Bool) (b a : Reg)
  /-- `sync.acq`: Reads a sync object and invalidates possibly stale guest lines by passes (R120). -/
  | syncAcq (tb ta : Bool) (a d : Reg)
  /-- `sync.cln.range`: Writes back dirty lines of a range, page by page (R249). -/
  | syncClnRange (tb ta : Bool) (b a : Reg)
  /-- `sync.inv.range`: Discards and invalidates the lines of a range (R249). -/
  | syncInvRange (tb ta : Bool) (b a : Reg)
  /-- `sync.fln.range`: Writes back and invalidates the lines of a range (R249). -/
  | syncFlnRange (tb ta : Bool) (b a : Reg)
  /-- `sync.fe.clr`: Sets the words of a row range empty (R250). -/
  | syncFeClr (tb ta : Bool) (b a : Reg)
  /-- `sync.fe.set`: Sets the words of a row range full (R250). -/
  | syncFeSet (tb ta : Bool) (b a : Reg)
  /-- `valu.add.ty`: Lane-wise integer add (R218). -/
  | valuAdd (ty : BitVec 3) (t : Bool) (mk : BitVec 3) (b a d : Reg)
  /-- `valu.sub.ty`: Lane-wise integer subtract (R218). -/
  | valuSub (ty : BitVec 3) (t : Bool) (mk : BitVec 3) (b a d : Reg)
  /-- `valu.mul.ty`: Lane-wise integer multiply, low bits (R218). -/
  | valuMul (ty : BitVec 3) (t : Bool) (mk : BitVec 3) (b a d : Reg)
  /-- `valu.mulh.ty`: Lane-wise signed multiply, high bits (R218). -/
  | valuMulh (ty : BitVec 3) (t : Bool) (mk : BitVec 3) (b a d : Reg)
  /-- `valu.and.ty`: Lane-wise and (R218). -/
  | valuAnd (ty : BitVec 3) (t : Bool) (mk : BitVec 3) (b a d : Reg)
  /-- `valu.or.ty`: Lane-wise or (R218). -/
  | valuOr (ty : BitVec 3) (t : Bool) (mk : BitVec 3) (b a d : Reg)
  /-- `valu.xor.ty`: Lane-wise xor (R218). -/
  | valuXor (ty : BitVec 3) (t : Bool) (mk : BitVec 3) (b a d : Reg)
  /-- `valu.shl.ty`: Lane-wise shift left (R218). -/
  | valuShl (ty : BitVec 3) (t : Bool) (mk : BitVec 3) (b a d : Reg)
  /-- `valu.shr.ty`: Lane-wise logical shift right (R218). -/
  | valuShr (ty : BitVec 3) (t : Bool) (mk : BitVec 3) (b a d : Reg)
  /-- `valu.sra.ty`: Lane-wise arithmetic shift right (R218). -/
  | valuSra (ty : BitVec 3) (t : Bool) (mk : BitVec 3) (b a d : Reg)
  /-- `valu.min.ty`: Lane-wise signed minimum (R218). -/
  | valuMin (ty : BitVec 3) (t : Bool) (mk : BitVec 3) (b a d : Reg)
  /-- `valu.max.ty`: Lane-wise signed maximum (R218). -/
  | valuMax (ty : BitVec 3) (t : Bool) (mk : BitVec 3) (b a d : Reg)
  /-- `valu.minu.ty`: Lane-wise unsigned minimum (R218). -/
  | valuMinu (ty : BitVec 3) (t : Bool) (mk : BitVec 3) (b a d : Reg)
  /-- `valu.maxu.ty`: Lane-wise unsigned maximum (R218). -/
  | valuMaxu (ty : BitVec 3) (t : Bool) (mk : BitVec 3) (b a d : Reg)
  /-- `valu.cmp.cond.ty`: Lane-wise integer compare into a mask register (R219). -/
  | valuCmp (ty : BitVec 3) (t : Bool) (mk : BitVec 3) (b a : Reg) (cond : BitVec 2) (m : BitVec 3)
  /-- `valu.sel.ty`: Lane-wise select by mask (R218). -/
  | valuSel (ty : BitVec 3) (t : Bool) (mk : BitVec 3) (b a d : Reg)
  /-- `vfp.add.ty`: Lane-wise floating add (R220). -/
  | vfpAdd (ty : BitVec 3) (t : Bool) (mk : BitVec 3) (b a d : Reg)
  /-- `vfp.sub.ty`: Lane-wise floating subtract (R220). -/
  | vfpSub (ty : BitVec 3) (t : Bool) (mk : BitVec 3) (b a d : Reg)
  /-- `vfp.mul.ty`: Lane-wise floating multiply (R220). -/
  | vfpMul (ty : BitVec 3) (t : Bool) (mk : BitVec 3) (b a d : Reg)
  /-- `vfp.div.ty`: Lane-wise floating divide (R220). -/
  | vfpDiv (ty : BitVec 3) (t : Bool) (mk : BitVec 3) (b a d : Reg)
  /-- `vfp.min.ty`: Lane-wise floating minimum (R220). -/
  | vfpMin (ty : BitVec 3) (t : Bool) (mk : BitVec 3) (b a d : Reg)
  /-- `vfp.max.ty`: Lane-wise floating maximum (R220). -/
  | vfpMax (ty : BitVec 3) (t : Bool) (mk : BitVec 3) (b a d : Reg)
  /-- `vfp.rnd.ty`: Lane-wise round to an integral value (R220). -/
  | vfpRnd (ty : BitVec 3) (t : Bool) (mk : BitVec 3) (a d : Reg)
  /-- `vfp.exp2f.ty`: Lane-wise faithful 2^(x − rne(x)) (R222). -/
  | vfpExp2f (ty : BitVec 3) (t : Bool) (mk : BitVec 3) (a d : Reg)
  /-- `vfp.scale.ty`: Lane-wise A × 2^B (R223). -/
  | vfpScale (ty : BitVec 3) (t : Bool) (mk : BitVec 3) (b a d : Reg)
  /-- `vfp.getexp.ty`: Lane-wise floor(log2 |A|) (R223). -/
  | vfpGetexp (ty : BitVec 3) (t : Bool) (mk : BitVec 3) (a d : Reg)
  /-- `vfp.rcp.ty`: Lane-wise reciprocal (R220). -/
  | vfpRcp (ty : BitVec 3) (t : Bool) (mk : BitVec 3) (a d : Reg)
  /-- `vfp.rsq.ty`: Lane-wise reciprocal square root (R220). -/
  | vfpRsq (ty : BitVec 3) (t : Bool) (mk : BitVec 3) (a d : Reg)
  /-- `vfp.sqrt.ty`: Lane-wise square root (R220). -/
  | vfpSqrt (ty : BitVec 3) (t : Bool) (mk : BitVec 3) (a d : Reg)
  /-- `vfp.cvt.dt.st`: Lane-wise conversion from the source type to the destination type (R221). -/
  | vfpCvt (ty : BitVec 3) (t : Bool) (mk sty : BitVec 3) (a d : Reg)
  /-- `vfp.cmp.cond.ty`: Lane-wise floating compare into a mask register (R219). -/
  | vfpCmp (ty : BitVec 3) (t : Bool) (mk : BitVec 3) (b a : Reg) (cond : BitVec 2) (m : BitVec 3)
  /-- `vfp.cls.ty`: Lane-wise class mask (R220). -/
  | vfpCls (ty : BitVec 3) (t : Bool) (mk : BitVec 3) (a d : Reg)
  /-- `vfma.fma.ty`: Lane-wise A × B + C with one rounding (R224). -/
  | vfmaFma (ty mk : BitVec 2) (c b a d : Reg)
  /-- `vfma.fms.ty`: Lane-wise A × B − C (R224). -/
  | vfmaFms (ty mk : BitVec 2) (c b a d : Reg)
  /-- `vfma.fnma.ty`: Lane-wise −(A × B) + C (R224). -/
  | vfmaFnma (ty mk : BitVec 2) (c b a d : Reg)
  /-- `vfma.fnms.ty`: Lane-wise −(A × B) − C (R224). -/
  | vfmaFnms (ty mk : BitVec 2) (c b a d : Reg)
  /-- `mask.and`: Mask and (R225). -/
  | maskAnd (tb ta : Bool) (b a d : Reg)
  /-- `mask.or`: Mask or (R225). -/
  | maskOr (tb ta : Bool) (b a d : Reg)
  /-- `mask.xor`: Mask xor (R225). -/
  | maskXor (tb ta : Bool) (b a d : Reg)
  /-- `mask.andn`: Mask A and not B (R225). -/
  | maskAndn (tb ta : Bool) (b a d : Reg)
  /-- `mask.not`: Mask not (R225). -/
  | maskNot (tb ta : Bool) (a d : Reg)
  /-- `mask.pop`: X := number of set bits of a mask (R225). -/
  | maskPop (tb ta : Bool) (a d : Reg)
  /-- `mask.first`: X := index of the lowest set bit, or 64 (R225). -/
  | maskFirst (tb ta : Bool) (a d : Reg)
  /-- `mask.fromx`: M := X (R225). -/
  | maskFromx (tb ta : Bool) (a d : Reg)
  /-- `mask.tox`: X := M (R225). -/
  | maskTox (tb ta : Bool) (a d : Reg)
  /-- `mask.all`: M := all ones (R225). -/
  | maskAll (tb ta : Bool) (d : Reg)
  /-- `mask.lanes`: M := the low min(X, 64) bits set (R225). -/
  | maskLanes (tb ta : Bool) (a d : Reg)
  /-- `fpu.add.fmt`: Scalar floating add (R206). -/
  | fpuAdd (fmt tb ta : Bool) (b a d : Reg)
  /-- `fpu.sub.fmt`: Scalar floating subtract (R206). -/
  | fpuSub (fmt tb ta : Bool) (b a d : Reg)
  /-- `fpu.mul.fmt`: Scalar floating multiply (R206). -/
  | fpuMul (fmt tb ta : Bool) (b a d : Reg)
  /-- `fpu.div.fmt`: Scalar floating divide (R206). -/
  | fpuDiv (fmt tb ta : Bool) (b a d : Reg)
  /-- `fpu.sqrt.fmt`: Scalar square root (R206). -/
  | fpuSqrt (fmt tb ta : Bool) (a d : Reg)
  /-- `fpu.min.fmt`: Scalar floating minimum (R208). -/
  | fpuMin (fmt tb ta : Bool) (b a d : Reg)
  /-- `fpu.max.fmt`: Scalar floating maximum (R208). -/
  | fpuMax (fmt tb ta : Bool) (b a d : Reg)
  /-- `fpu.fma.fmt`: Scalar A × B + D with one rounding (R206). -/
  | fpuFma (fmt tb ta : Bool) (b a d : Reg)
  /-- `fpu.rnd.fmt`: Scalar round to an integral value (R206). -/
  | fpuRnd (fmt tb ta : Bool) (a d : Reg)
  /-- `fpu.cvt.fmt.conv`: Scalar conversion of the kind conv (R207). -/
  | fpuCvt (conv : BitVec 3) (fmt tb ta : Bool) (a d : Reg)
  /-- `fpu.eq.fmt`: D := 1 when A = B (R208). -/
  | fpuEq (fmt tb ta : Bool) (b a d : Reg)
  /-- `fpu.lt.fmt`: D := 1 when A < B (R208). -/
  | fpuLt (fmt tb ta : Bool) (b a d : Reg)
  /-- `fpu.le.fmt`: D := 1 when A ≤ B (R208). -/
  | fpuLe (fmt tb ta : Bool) (b a d : Reg)
  /-- `fpu.cls.fmt`: D := class mask of A (R208). -/
  | fpuCls (fmt tb ta : Bool) (a d : Reg)
  /-- `fpu.sgnj.fmt`: A with the sign of B (R206). -/
  | fpuSgnj (fmt tb ta : Bool) (b a d : Reg)
  /-- `fpu.abs.fmt`: A with sign 0 (R206). -/
  | fpuAbs (fmt tb ta : Bool) (a d : Reg)
  /-- `row.yield`: Ends the quantum when another row of equal or higher class is READY (R255). -/
  | rowYield (tb ta : Bool)
  /-- `row.wait`: Waits with WHY 6 when scratch word +0x60 equals X[A] (R256). -/
  | rowWait (tb ta : Bool) (a : Reg)
  /-- `row.stop`: Stops the row with WHY 3 (R255). -/
  | rowStop (tb ta : Bool)
  /-- `row.rowid`: D := the VA of the row through window 0 (R255). -/
  | rowRowid (tb ta : Bool) (d : Reg)
  /-- `row.send`: Sends the packet at X[A] to an inbox, with its status in D (R257). -/
  | rowSend (tb ta : Bool) (a d : Reg)
  /-- `row.spawn`: Sends a 32-byte packet built from X[A] and X[B] (R258). -/
  | rowSpawn (tb ta : Bool) (b a d : Reg)
  /-- `row.done`: Decrements the successor cells and completes the task, STOPPED with WHY 9 (R260). -/
  | rowDone (tb ta : Bool)
  /-- `row.budget`: D := BUDGET and BUDGET := X[A] (R255). -/
  | rowBudget (tb ta : Bool) (a d : Reg)
  /-- `row.bar.init`: Initialises a barrier of the own core with a count (R262). -/
  | rowBarInit (tb ta : Bool) (b a : Reg)
  /-- `row.bar.arrive`: Arrives at a barrier; the phase to wait for is filled into D (R262). -/
  | rowBarArrive (tb ta : Bool) (a d : Reg)
  /-- `row.bar.wait`: Waits with WHY 7 until the barrier's phase equals X[B][0] (R262). -/
  | rowBarWait (tb ta : Bool) (b a : Reg)
  /-- `row.bar.sync`: Arrives, then waits for the new phase (R262). -/
  | rowBarSync (tb ta : Bool) (a d : Reg)
  /-- `row.dq.push`: Pushes a range at the bottom of the own deque (R266). -/
  | rowDqPush (tb ta : Bool) (b a d : Reg)
  /-- `row.dq.pop`: Pops the bottom entry, or steals when POPSTEAL is set (R266). -/
  | rowDqPop (tb ta : Bool) (dp : BitVec 4)
  /-- `row.dq.split`: Keeps the lower half of a range and pushes the upper half (R266). -/
  | rowDqSplit (tb ta : Bool) (b a d : Reg)
  /-- `row.dq.steal`: Steals half of a victim's top entry, trying one victim per step (R267). -/
  | rowDqSteal (tb ta : Bool) (dp : BitVec 4)
  /-- `row.dq.len`: D := deque count (R266). -/
  | rowDqLen (tb ta : Bool) (d : Reg)
  /-- `engine.cp.lin`: Hands a linear copy to the cluster copy engine, piece by piece (R269). -/
  | engineCpLin (tb ta : Bool) (b a d : Reg)
  /-- `engine.cp.dist`: Hands a distributor transfer with a pattern word (R270). -/
  | engineCpDist (e : BitVec 3) (tb ta : Bool) (b a d : Reg)
  /-- `engine.cp.stat`: D := snapshot of the copy queues (R271). -/
  | engineCpStat (tb ta : Bool) (d : Reg)
  /-- `engine.mx.gang`: Joins the cluster's matrix gang with an almanac, and waits for its status (R288). -/
  | engineMxGang (tb ta : Bool) (a d : Reg)
  /-- `engine.mx.stat`: D := snapshot of the sequencer (R291). -/
  | engineMxStat (tb ta : Bool) (d : Reg)
  /-- `engine.mx.abort`: Ends the cluster's gang with ABORTED; D := snapshot (R293). -/
  | engineMxAbort (tb ta : Bool) (d : Reg)
  /-- `engine.edge.run`: Joins an edge run and receives batches or the final status (R305). -/
  | engineEdgeRun (ta : Bool) (a d : Reg)
  /-- `engine.edge.ret`: Returns a batch's results to the engine and goes back to edge.run step 2 (R311). -/
  | engineEdgeRet (ta : Bool)
  /-- `engine.edge.stat`: Writes the engine snapshot and CNT1 to a register pair (R317). -/
  | engineEdgeStat (ta : Bool) (dp : BitVec 4)
  /-- `sys.nop`: Does nothing (R209). -/
  | sysNop
  /-- `sys.trap`: Faults with cause TRAP and a code (R210). -/
  | sysTrap (code : BitVec 12)
  /-- `sys.bkpt`: Faults with cause BKPT and a code (R210). -/
  | sysBkpt (code : BitVec 12)
  /-- `sys.uret`: Ends the upcall being served, clears SERVING and stops the row (R342). -/
  | sysUret
  /-- `sys.halt`: Completes as fence.sys and stops the row; privileged (R210). -/
  | sysHalt
  /-- `sys.sysr`: D := the system register F12 (R211). -/
  | sysSysr (num : BitVec 12) (d : Reg)
  /-- `sys.sysw`: Writes X[D] to the system register F12 (R211). -/
  | sysSysw (num : BitVec 12) (d : Reg)
  /-- `sys.shoot`: Translation shootdown for an ASID and range, waiting for completion (R213). -/
  | sysShoot (dp : BitVec 4)
  /-- `sys.gang`: Gang-stops or releases a partition, with status in D (R214). -/
  | sysGang (d : Reg)
  /-- `sys.swap`: Exchanges a gang-stopped partition with the shadow arrays (R214). -/
  | sysSwap (d : Reg)
  /-- `vxf.bcast.ty`: Each active lane := X[A] (R226). -/
  | vxfBcast (ty : BitVec 3) (t : Bool) (mk : BitVec 3) (a d : Reg)
  /-- `vxf.ext.ty`: X := one lane of V (R226). -/
  | vxfExt (ty : BitVec 3) (t : Bool) (b a d : Reg)
  /-- `vxf.ins.ty`: One lane of V := X (R226). -/
  | vxfIns (ty : BitVec 3) (t : Bool) (b a d : Reg)
  /-- `vxf.perm.ty`: Lane permutation by index lanes (R226). -/
  | vxfPerm (ty : BitVec 3) (t : Bool) (mk : BitVec 3) (b a d : Reg)
  /-- `vxf.red.add.ty`: Tree sum of the active lanes into X (R227). -/
  | vxfRedAdd (ty : BitVec 3) (t : Bool) (mk : BitVec 3) (a d : Reg)
  /-- `vxf.red.min.ty`: Tree minimum of the active lanes into X (R227). -/
  | vxfRedMin (ty : BitVec 3) (t : Bool) (mk : BitVec 3) (a d : Reg)
  /-- `vxf.red.max.ty`: Tree maximum of the active lanes into X (R227). -/
  | vxfRedMax (ty : BitVec 3) (t : Bool) (mk : BitVec 3) (a d : Reg)
  /-- `vxf.iota.ty`: Each active lane j := j (R226). -/
  | vxfIota (ty : BitVec 3) (t : Bool) (mk : BitVec 3) (d : Reg)
  /-- `vxf.abs.ty`: Lane-wise absolute value (R226). -/
  | vxfAbs (ty : BitVec 3) (t : Bool) (mk : BitVec 3) (a d : Reg)
  /-- `vxf.neg.ty`: Lane-wise negation (R226). -/
  | vxfNeg (ty : BitVec 3) (t : Bool) (mk : BitVec 3) (a d : Reg)
  /-- `vxf.sgnj.ty`: Lane-wise sign transfer (R226). -/
  | vxfSgnj (ty : BitVec 3) (t : Bool) (mk : BitVec 3) (b a d : Reg)
  /-- `vxf.shfdn.ty`: Shifts lanes down by X[B] (R226). -/
  | vxfShfdn (ty : BitVec 3) (t : Bool) (mk : BitVec 3) (b a d : Reg)
  /-- `h.mov`: D := A (R215). -/
  | hMov (a d : Reg)
  /-- `h.add`: D := D + A (R215). -/
  | hAdd (a d : Reg)
  /-- `h.addi5`: D := D + imm5 (R215). -/
  | hAddi5 (imm : BitVec 5) (d : Reg)
  /-- `h.sub`: D := D − A (R215). -/
  | hSub (a d : Reg)
  /-- `h.and`: D := D and A (R215). -/
  | hAnd (a d : Reg)
  /-- `h.or`: D := D or A (R215). -/
  | hOr (a d : Reg)
  /-- `h.xor`: D := D xor A (R215). -/
  | hXor (a d : Reg)
  /-- `h.shli`: D := D << n (R215). -/
  | hShli (imm : BitVec 5) (d : Reg)
  /-- `h.shri`: D := D >> n, logical (R215). -/
  | hShri (imm : BitVec 5) (d : Reg)
  /-- `h.ld64`: D := 8-byte load at A (R215). -/
  | hLd64 (a d : Reg)
  /-- `h.ld32`: D := sign-extended 4-byte load at A (R215). -/
  | hLd32 (a d : Reg)
  /-- `h.st64`: 8-byte store of D at A (R215). -/
  | hSt64 (a d : Reg)
  /-- `h.st32`: 4-byte store of D at A (R215). -/
  | hSt32 (a d : Reg)
  /-- `h.beqz`: Branch when D = 0 (R215). -/
  | hBeqz (imm : BitVec 5) (d : Reg)
  /-- `h.bnez`: Branch when D ≠ 0 (R215). -/
  | hBnez (imm : BitVec 5) (d : Reg)
  /-- `h.lt`: D := 1 when D < A signed (R215). -/
  | hLt (a d : Reg)
  /-- `h.ldi5`: D := sign-extended imm5 (R215). -/
  | hLdi5 (imm : BitVec 5) (d : Reg)
  /-- `h.vfadd.f32`: V[D] := V[D] + V[A], 32 f32 lanes (R215). -/
  | hVfaddF32 (ign14 : Bool) (a : BitVec 4) (ign9 : Bool) (d : BitVec 4)
  /-- `h.vfmul.f32`: V[D] := V[D] × V[A], 32 f32 lanes (R215). -/
  | hVfmulF32 (ign14 : Bool) (a : BitVec 4) (ign9 : Bool) (d : BitVec 4)
  /-- `h.nop`: Does nothing (R215). -/
  | hNop
  /-- `h.yield`: Acts as row.yield (R215). -/
  | hYield
  /-- `h.ret`: PC := X1 (R215). -/
  | hRet
  /-- Step ILLEGAL_INSTRUCTION (R158): A row issues a halfword or word that defines no instruction (majors 0x00, 0x1E, 0x1F, OP16 0 or 15, and the like), raises ILL and goes FAULTED with WHY 4. -/
  | illegalInstruction (w : BitVec 32)
  /-- Step START_STAGE (R389): A start stage finishes, and the attempt moves on to the next stage or ends with a cause code. -/
  | startStage (res : StageResult)
  /-- Step STORE_PERFORM (R70): A store FIFO entry leaves the FIFO and is performed, once the remote loads it waits on have been performed. -/
  | storePerform (core : Nat)
  /-- Step FILL (R54): Data for a long-latency producer arrives; the destination word is written, set full, and wakes a row waiting on it. -/
  | fill (id : Nat) (k : FillStep)
  /-- Step ATOMIC_PERFORM (R245): An atomic is performed at the home of its location, after merging update-only copies of its line. -/
  | atomicPerform (id : Nat)
  /-- Step DISPATCH (R138): The oldest eligible packet is copied into the lowest free pool row, and that row is started at the channel's ENTRY. -/
  | dispatch (core : Nat)
  /-- Step SELECTION (R334): The bank picks the oldest row of the highest class in its READY set to open in the slot that is not running. -/
  | selection (core bank : Nat)
  /-- Step OPENING_COMPLETE (R331): A row finishes opening into a slot and becomes OPEN, or RUNNING when no row holds the running position. -/
  | openingComplete (core bank : Nat)
  /-- Step CLOSING_COMPLETE (R331): A row finishes writing back its dirty sectors and leaves the slot, rejoining the READY set when it is still READY. -/
  | closingComplete (core bank : Nat)
  /-- Step UPCALL_DELIVERY (R341): The oldest queued faulted row's record is placed in the stopped upcall row, and that row starts at ENTRY with SERVING set. -/
  | upcallDelivery (core : Nat)
  /-- Step NONE (R47): A store to CTL with CMD 0 writes AUTORES and PRI, and PRIV when the storer is privileged, and issues no command. -/
  | ctlNone (r : RowId) (v : Word) (priv : Bool)
  /-- Step KINDLE (R48): CTL command 1 makes a STOPPED row READY, and it continues at PC from RSTEP; in every other state it is ignored and sets CMDERR. -/
  | kindle (r : RowId)
  /-- Step STOP (R48): CTL command 2 stops the row and abandons any blocked instruction; FVA, FCAUSE and RSTEP are kept. -/
  | stop (r : RowId)
  /-- Step REDIRECT (R48): CTL command 3 sets PC to NPC and RSTEP to 0, and wakes a WAITING row. -/
  | redirect (r : RowId)
  /-- Step STEP (R48): CTL command 4 runs a STOPPED row until one instruction retires, then stops it with WHY 2. -/
  | stepOne (r : RowId)
  /-- Step RESUME (R48): CTL command 5 makes a FAULTED row READY, and it retries the faulting instruction from RSTEP. -/
  | resume (r : RowId)
  /-- Step SKIP (R48): CTL command 6 makes a FAULTED row READY with PC after the faulting instruction, and sets full the destinations that instruction had emptied. -/
  | skip (r : RowId)
  /-- Step OUTSIDE_ACCESS (R56): An access from another agent to a row is applied at the bank at the row's next boundary, in the bank's one order. -/
  | outsideAccess (who : Agent) (pa : Nat) (op : OutOp)
  /-- Step REMOTE_FE_PERFORM (R234): A remote fe or fe.take request waiting at its target bank is performed once its words are full. -/
  | remoteFePerform (id : Nat)
  /-- Step DATE_BROADCAST (R114): A slice's copy of DATE is updated by the broadcast from the Calendar. -/
  | dateBroadcast (slice date : Nat)
  /-- Step ACQUIRE_PASS_OWN (R121): A slice waits until its DATE reaches the object's date, then invalidates the guest lines of the ASID that hit the signature or are older than the floor allows. -/
  | acquirePassOwn (id slice : Nat)
  /-- Step ACQUIRE_PASS_OTHER (R122): A slice invalidates guest lines of the ASID by home for a foreign or host identity, and die 0 also invalidates G = 1 peer guest lines. -/
  | acquirePassOther (id slice : Nat)
  /-- Step FROST_SWEEP (R124): When a slice's DATE reaches a trigger date, the slice removes every guest line aged 64 or more. -/
  | frostSweep (slice : Nat)
  /-- Step INBOX_ENTRY (R326): A packet held for want of room, for example by a counter cell's home, enters the die inbox when room appears. -/
  | inboxEntry (i : Nat)
  /-- Step STOKER_BIND (R327): The Stoker binds an inbox packet to a core, choosing the lowest-scoring candidate core when CORE is 0x1FF. -/
  | stokerBind (die i : Nat)
  /-- Step RUN_QUEUE_ENTRY (R138): A bound packet leaves the die inbox into its core's run queue when there is room, and takes the channel's class. -/
  | runQueueEntry (die i : Nat)
  /-- Step HOST_QUEUE_WRITE (R370): A packet dispatched to the host-queue channel is written to the host ring, the produced count is updated and MSI-X vector 0 is sent. -/
  | hostQueueWrite (die : Nat)
  /-- Step QUANTUM_EXPIRY (R333): The 256-cycle quantum expires, and the running position ends when a row of equal or higher class is READY. -/
  | quantumExpiry (core bank : Nat)
  /-- Step BUDGET (R45): BUDGET steps from 1 to 0 and raises the BUDGET trap at the next boundary. -/
  | budget (core bank n : Nat)
  /-- Step FLUE_REQUEST (R343): A page-fault request arrives at a Flue router, where it merges into a matching entry or takes a free one and goes on toward the root. -/
  | flueRequest (i : Nat) (hop : Option Nat)
  /-- Step FLUE_RECORD (R343): The Flue root sends a numbered record for a new key to the memory manager that SY.MMQ names, or to the host queue. -/
  | flueRecord (die i : Nat)
  /-- Step FLUERES (R344): A privileged write of SY.FLUERES completes as fence.dev and broadcasts a resolution or refusal of the page down both Flue trees. -/
  | flueres (v : Word)
  /-- Step FLUE_RESOLUTION (R344): A resolution reaches a core and clears FLUE in its faulted rows for the page; rows with AUTORES set retry, and refused rows are queued again. -/
  | flueResolution (i core : Nat)
  /-- Step HALT (R350): The halt tree's stop reaches a core, which stops its rows, ends gangs and edge runs, drains its FIFO, merges and writes its halt record. -/
  | halt (core : Nat)
  /-- Step HALT_REPORT (R350): Every core of the partition has finished its halt, the halt is reported, and sys.gang's step 2 ends. -/
  | haltReport (part : Nat)
  /-- Step GANG_RELEASE (R133): A gang release makes the partition's rows stopped with WHY 8 READY, after any log replay has ended. -/
  | gangRelease (part : Nat)
  /-- Step SWAP_EXCHANGE (R352): The exchange of a cluster's row stores and per-core structures with the shadow arrays completes. -/
  | swapExchange (part : Nat)
  /-- Step ARRIVAL_LOG (R354): An arrival aimed at a swapped-out partition is appended to that partition's arrival log. -/
  | arrivalLog (part : Nat)
  /-- Step LOG_REPLAY (R355): When the partition is swapped in, the logged arrivals are applied in entry order. -/
  | logReplay (part : Nat)
  /-- Step COPY_PIECE (R269): The copy engine performs a piece that a cp.lin handed over, filling destination row-store words. -/
  | copyPiece (cluster i part : Nat)
  /-- Step DISTRIBUTOR_BLOCK (R76): A distributor performs the part of a block within one page between GDDR and a row store, bypassing L2. -/
  | distributorBlock (die i part : Nat)
  /-- Step GANG_BARRIER (R290): All eight places have joined; they compare their almanac pointers and get MISMATCH or go on to the prefetch. -/
  | gangBarrier (cl : Nat)
  /-- Step PREFETCH (R290): The first LOAD_B tile is fetched, its est is computed and a permit is requested. -/
  | prefetch (cl : Nat)
  /-- Step PERMIT_GRANT (R380): The cluster Damper grants the waiting request with the lowest est once BAL covers it, and debits BAL. -/
  | permitGrant (cl : Nat)
  /-- Step LOAD_B (R280): The named place fetches a B tile into its latch. -/
  | loadB (core : Nat)
  /-- Step MAC (R281): Each place multiplies its A rows by its latched tile into the column block's accumulators. -/
  | mac (core : Nat)
  /-- Step ROTATE (R282): Once all eight places reach it, the ring moves every latch to the next place and discards tiles that reach 8 hops. -/
  | rotate (cl : Nat)
  /-- Step DRAIN (R283): A place converts its accumulator rows and writes them as fills into its own row store. -/
  | drain (core : Nat)
  /-- Step GROUP (R284): Sets the group size GM; a group of size 0 is skipped. -/
  | group (core : Nat)
  /-- Step END (R285): A place completes the almanac; when all eight have reached END, DONE is filled at each place and the permit is returned. -/
  | endStep (core : Nat)
  /-- Step RING_WATCHDOG (R295): After 2^22 cycles in which the ring has not moved, the gang ends with WATCHDOG. -/
  | ringWatchdog (cl n : Nat)
  /-- Step EDGE_RUN_START (R307): All cores of the run have joined; the leader checks the pointers, prepares the counters and begins level 0. -/
  | edgeRunStart (core : Nat)
  /-- Step CHUNK_TAKE (R308): An edge engine takes its next chunk from its deque or steals one, applying the push-to-pull test where R314 applies it. -/
  | chunkTake (core : Nat)
  /-- Step BATCH (R309): The engine forms a batch of up to 32 lanes in the edge row's V0, V1, V2 and M1 and fills D with 1. -/
  | batch (core n : Nat)
  /-- Step BATCH_APPLY (R312): The engine applies a returned batch's candidates, activations and finishes in lane order. -/
  | batchApply (core : Nat)
  /-- Step LEVEL_END (R313): The leader merges, swaps the frontiers, updates the counters and either ends the run with DONE or starts the next level. -/
  | levelEnd (core : Nat)
  /-- Step MID_LEVEL_SWITCH (R315): Push gives way to pull at a chunk boundary: caches are merged, the push entries are discarded and a pull phase begins. -/
  | midLevelSwitch (core : Nat)
  /-- Step BARRIER_ARRIVAL (R262): An arrival message reaches the barrier's core, counts, and may complete the phase and wake its waiters. -/
  | barrierArrival (i : Nat)
  /-- Step SY_CLK (R377): A write of SY.CLK sets a new frequency target through the mailbox, or sets ERR when the target is out of range. -/
  | syClk (cl : Nat) (v : Word) (priv : Bool)
  /-- Step CLOCK_TRANSITION (R378): A frequency transition completes, and the mailbox takes any waiting target. -/
  | clockTransition (cl : Nat)
  /-- Step SY_CBUDGET (R379): A write of SY.CBUDGET sets CAP, STEER and CRATE; writing CRATE also resets RATE, and zero fields keep their values. -/
  | syCbudget (cl : Nat) (v : Word) (priv : Bool)
  /-- Step REFILL (R380): Each microsecond a cluster's balance is refilled by RATE times the package scale, up to CAP. -/
  | refill (cl : Nat)
  /-- Step DAMPER_WINDOW (R382): Every 10 µs the package Damper measures power, sets Hi and Lo, and adjusts the refill scale and FMAX. -/
  | damperWindow (w : DamperReading)
  /-- Step SY_SLOPE (R383): A write of SY.SLOPE sets FLOOR, DOWN and UP; fields written as 0 keep their values. -/
  | sySlope (v : Word) (priv : Bool)
  /-- Step CAP_MESSAGE (R385): A write of SY.CAPMSG with a newer SEQ and a nonzero lease sets CAPNOW and restarts the lease. -/
  | capMessage (v : Word) (priv : Bool)
  /-- Step LEASE_EXPIRY (R385): The cap lease runs out, and CAPNOW becomes SAFECAP. -/
  | leaseExpiry
  /-- Step THAW_SEND (R387): A write of SY.THAWTX sends the Thaw image to one peer or to every routed peer, and may apply it locally. -/
  | thawSend (v : Word) (priv : Bool)
  /-- Step THAW_MESSAGE (R388): A newer Thaw message is received and holds unprivileged row activation for the device's slot times STEP. -/
  | thawMessage (img : List Byte)
  /-- Step THAW_HOLD_END (R388): The Thaw hold time expires, and unprivileged rows may be selected again. -/
  | thawHoldEnd
  /-- Step TAIL (R367): A write of TAIL to an inbox queue's notify page starts admission up to that index, or records OVERRUN. -/
  | tail (q : Nat) (v : Word)
  /-- Step NOTIFY_WORD_STORE (R366): A store to the notify word at NADDR notifies a queue with NKIND 1. -/
  | notifyWordStore (q : Nat) (v : Word)
  /-- Step INBOX_CONTROL_WRITE (R366): A write to an inbox queue's control page sets LOGN, NKIND, EN, PART, QBASE, NADDR, or HEAD while EN is 0. -/
  | inboxControlWrite (q off : Nat) (v : Word)
  /-- Step ADMIT (R367): The packet at HEAD is read once its LAP matches, and is entered into the inbox or dropped as BADPKT; HEAD then advances. -/
  | admission (q : Nat) (late : Bool)
  /-- Step HOST_WRITE (R372): A host write through a BAR or CXL.mem is performed physically, after every slice copy of the line is written back and invalidated. -/
  | hostWrite (link : Nat) (bar : HostBar) (off : Nat) (bytes : List Byte)
  /-- Step HOST_READ (R372): A host read is performed physically, after dirty copies on the home die are written back. -/
  | hostRead (link : Nat) (bar : HostBar) (off n : Nat)
  /-- Step CXL_SNOOP (R372): A CXL.cache snoop is sent to every slice of the link's die through the back-tags. -/
  | cxlSnoop (die pa : Nat) (inval : Bool)
  /-- Step DIRECTORY_MERGE (R371): Two sibling directory entries that have been quiet for 4,096 cycles merge into their parent. -/
  | directoryMerge (die i : Nat)
  /-- Step PEER_ACCESS (R373): A Flisen load, store, atomic, packet or notify from a peer is performed physically with the receiving port's ASID and privilege. -/
  | peerAccess (port pa : Nat) (op : PeerOp)
  /-- Step ROUTE_FAILURE (R374): Every port of a peer route has failed; accesses in flight end with HOMELOST and the route reads VALID 0. -/
  | routeFailure (peer : Nat)
  /-- Step PART_FAILURE (R369): A core, slice, link lane group or GDDR channel fails, and the tasks that depend on it are orphaned. -/
  | partFailure (k : PartKind) (n : Nat)
  /-- Step DIE_FAILURE (R375): A die is lost: the survivor drops its guest lines and ends accesses to the lost die with HOMELOST. -/
  | dieFailure (die : Nat)
  /-- Step POWER_ON (R389): Power-on begins a start of up to three attempts. -/
  | powerOn
  /-- Step PERST (R389): A PERST# deassertion on die 0's link begins a start. -/
  | perst
  /-- Step SY_RESET (R390): An accepted write of SY.RESET with KEY 0xA5 and GO 1 resets the package as power-on does. -/
  | syReset (v : Word) (priv : Bool)
  /-- Step STAGE_TIME_LIMIT (R389): A start stage runs past 500 ms, and the attempt ends with cause 7. -/
  | stageTimeLimit
  /-- Step SCRUB (R348): Scrubbing finds an error in a word; it is counted and faults no row. -/
  | scrub (die : Nat) (k : Nat) (hit : ScrubHit)
  /-- Step SY_SERR (R395): A store to a soft-error counter writes CORR and UNC together, and an error counted in the same cycle is applied after it. -/
  | sySerr (k : Nat) (v : Word) (priv : Bool)
  /-- Step DEQUE_CLEAR (R265): Writing CLEAR to the deque control word sets TOP to BOTTOM. -/
  | dequeClear (core : Nat)
  /-- Step BSTATE_WRITE (R261): A store to BSTATE replaces it as one event and wakes every waiter whose phase it matches. -/
  | bstateWrite (core b : Nat) (v : Word)
  /-- Step SY_CLBIND (R132): A privileged write of SY.CLBIND binds or unbinds a cluster when its conditions hold, merging the cluster's reduction caches first; otherwise it sets ERR. -/
  | syClbind (cl : Nat) (v : Word) (priv : Bool)
  /-- Step SYSREG_WRITE (R211): A write to a system register that has no row of its own, under its Access column. -/
  | sysregWrite (num : Nat) (v : Word) (priv : Bool) (core : Nat)
  /-- Step SOFT_ERROR (R394): A corrected or uncorrectable error strikes a protected structure, such as a row-store word, whose poisoning or counting follows. -/
  | softError (site : ErrSite) (corrected : Bool)
  /-- Step TEMPERATURE_SENSOR (R380): A cluster's temperature sensor crosses 100 °C, and the cluster becomes withheld or stops being withheld. -/
  | temperatureSensor (cl : Nat) (hot : Bool)
  /-- Step BACK_INVALIDATE_COMPLETION (R371): The host completes a back-invalidate of a directory region, and the waiting device access may be performed. -/
  | backInvalidateCompletion (die i : Nat)
  /-- Step PERFORMANCE_AT_TARGET (R70): A store that left the FIFO toward a target that is not die-local (another die's home or core, host memory, a peer) is performed and acknowledged there. -/
  | performanceAtTarget (i : Nat)
  deriving DecidableEq, Repr

end Sys2Proof
end

