-- ==== Sys2Proof/WellFormed.lean ====
section
/-!
DEFINITION. The checks a field of an instruction word can need: register classes (R152), element types (R156) and
assigned system-register numbers (R211, R212). `Instr.wf` (Decode.lean) says which instruction needs which.
-/

namespace Sys2Proof

/-- V registers are 0-15 (R152). -/
def isV (r : Reg) : Bool := decide (r.toNat < 16)

/-- M registers are 0-7 (R152). -/
def isM (r : Reg) : Bool := decide (r.toNat < 8)

/-- A pair's register is even (R156). -/
def isEven (r : Reg) : Bool := !r.getLsbD 0

/-- TY codes 3 f32, 4 f16, 5 bf16, 6 f64 (R220). -/
def isFloat (ty : BitVec 3) : Bool := decide (3 ≤ ty.toNat) && decide (ty.toNat ≤ 6)

/-- The numbers that R212, R363, R377-R388, R390-R395, R341-R353 and R132 assign to a system register. -/
def sysAssigned (n : Nat) : Bool :=
  [0, 1, 0x100, 0x101, 0x102, 0x200, 0x201, 0x202, 0x204, 0x205, 0x206, 0x207, 0x220, 0x221, 0x380, 0x381, 0x382,
    0x383, 0x386, 0x387, 0x400, 0x401, 0x5C0, 0x5C1, 0x5C2].contains n ||
  [(0x140, 0x180), (0x180, 0x1C0), (0x210, 0x220), (0x300, 0x328), (0x340, 0x368), (0x410, 0x416), (0x500, 0x540),
    (0x540, 0x580), (0x580, 0x5C0), (0x5D0, 0x5F8)].any fun (lo, hi) => decide (lo ≤ n) && decide (n < hi)

end Sys2Proof
end

