-- ==== Sys2Proof/Decode.lean ====
section
/-!
DEFINITION. Instruction words: which are well formed, how one is read and how one is written (R147-R158).
Decoding reads the fields the format gives, then accepts the result only when it is well formed and writes back to
the very word read: so every field that must be zero is checked in one place (R152, R156, R158).
-/

namespace Sys2Proof

/-! ## Fields -/

/-- A one-bit field. -/
abbrev bit (b : Bool) : BitVec 1 := BitVec.ofBool b

/-- The D field, bits [10:6]. -/
abbrev fD (w : BitVec 32) : Reg := w.extractLsb' 6 5
/-- The A field, bits [15:11]. -/
abbrev fA (w : BitVec 32) : Reg := w.extractLsb' 11 5
/-- The B field, bits [20:16]. -/
abbrev fB (w : BitVec 32) : Reg := w.extractLsb' 16 5
/-- The C field, bits [25:21]. -/
abbrev fC (w : BitVec 32) : Reg := w.extractLsb' 21 5

/-! ## The formats (R149, R151) -/

/-- Format WA. -/
def wa (q : BitVec 5) (fn : BitVec 4) (tb ta : Bool) (b a d : Reg) (op : BitVec 5) : BitVec 32 :=
  q ++ fn ++ bit tb ++ bit ta ++ b ++ a ++ d ++ op ++ 1#1
/-- Format WI. -/
def wi (i : BitVec 15) (ta : Bool) (a d : Reg) (op : BitVec 5) : BitVec 32 := i ++ bit ta ++ a ++ d ++ op ++ 1#1
/-- Format WL. -/
def wl (i : BitVec 21) (d : Reg) (op : BitVec 5) : BitVec 32 := i ++ d ++ op ++ 1#1
/-- Format WC. -/
def wc (i : BitVec 12) (ta : Bool) (c : BitVec 3) (b a : Reg) (op : BitVec 5) : BitVec 32 :=
  i ++ bit ta ++ c ++ b ++ a ++ op ++ 1#1
/-- Format WV. -/
def wv (ty : BitVec 3) (fn : BitVec 4) (t : Bool) (mk : BitVec 3) (b a d : Reg) (op : BitVec 5) : BitVec 32 :=
  ty ++ fn ++ bit t ++ mk ++ b ++ a ++ d ++ op ++ 1#1
/-- Format WF. -/
def wfm (ty mk va : BitVec 2) (c b a d : Reg) (op : BitVec 5) : BitVec 32 :=
  ty ++ mk ++ va ++ c ++ b ++ a ++ d ++ op ++ 1#1
/-- Format WM. -/
def wm (o : BitVec 10) (mo : BitVec 2) (sz : BitVec 3) (ta : Bool) (a d : Reg) (op : BitVec 5) : BitVec 32 :=
  o ++ mo ++ sz ++ bit ta ++ a ++ d ++ op ++ 1#1
/-- Format WS. -/
def ws (z : BitVec 4) (f : BitVec 12) (fn d op : BitVec 5) : BitVec 32 := z ++ f ++ fn ++ d ++ op ++ 1#1
/-- The 16-bit format (R151). -/
def h16 (k : Bool) (a d : Reg) (op : BitVec 4) : BitVec 16 := bit k ++ a ++ d ++ op ++ 0#1

/-! ## Well-formed instructions (R152, R156-R158) -/

/-- The instruction word is one that R147 to R157 define: register classes, pairs, and the values R156, R157 and the
instruction chapters call illegal.
A trap bit that governs no source of the instruction is accepted and has no effect, but where R304 says 0: DESIGN CHOICE, log
entry 109.
A device step has no word and is well formed. -/
def Instr.wf : Instr → Bool
  | .aluAdd _ _ _ _ _ _ => true
  | .aluSub _ _ _ _ _ _ => true
  | .aluMul _ _ _ _ _ _ => true
  | .aluMulh _ _ _ _ _ _ => true
  | .aluMulhu _ _ _ _ _ _ => true
  | .aluDiv _ _ _ _ _ _ => true
  | .aluDivu _ _ _ _ _ _ => true
  | .aluRem _ _ _ _ _ _ => true
  | .aluRemu _ _ _ _ _ _ => true
  | .aluAnd _ _ _ _ _ _ => true
  | .aluOr _ _ _ _ _ _ => true
  | .aluXor _ _ _ _ _ _ => true
  | .aluAndn _ _ _ _ _ _ => true
  | .aluShl _ _ _ _ _ _ => true
  | .aluShr _ _ _ _ _ _ => true
  | .aluSra _ _ _ _ _ _ => true
  | .aluMin _ _ _ _ _ _ => true
  | .aluMax _ _ _ _ _ _ => true
  | .aluMinu _ _ _ _ _ _ => true
  | .aluMaxu _ _ _ _ _ _ => true
  | .aluRot _ _ _ _ _ _ => true
  | .aluClz _ _ _ _ _ => true
  | .aluCtz _ _ _ _ _ => true
  | .aluPopc _ _ _ _ _ => true
  | .aluEq _ _ _ _ _ _ => true
  | .aluNe _ _ _ _ _ _ => true
  | .aluLt _ _ _ _ _ _ => true
  | .aluLtu _ _ _ _ _ _ => true
  | .aluLe _ _ _ _ _ _ => true
  | .aluLeu _ _ _ _ _ _ => true
  | .aluSel _ _ _ _ _ _ => true
  | .aluExt _ _ _ _ _ _ => true
  | .alui _ _ _ _ => true
  | .andi _ _ _ _ => true
  | .ori _ _ _ _ => true
  | .xori _ _ _ _ => true
  | .shiShl sz amt _ _ _ => (sz || decide (amt.toNat < 32))
  | .shiShr sz amt _ _ _ => (sz || decide (amt.toNat < 32))
  | .shiSra sz amt _ _ _ => (sz || decide (amt.toNat < 32))
  | .shiRot sz amt _ _ _ => (sz || decide (amt.toNat < 32))
  | .cmpiEq _ _ _ _ => true
  | .cmpiNe _ _ _ _ => true
  | .cmpiLt _ _ _ _ => true
  | .cmpiLtu _ _ _ _ => true
  | .cmpiLe _ _ _ _ => true
  | .cmpiLeu _ _ _ _ => true
  | .cmpiGt _ _ _ _ => true
  | .cmpiGtu _ _ _ _ => true
  | .ldi _ _ => true
  | .ldx _ _ => true
  | .extC0 _ _ => true
  | .extC1 _ _ => true
  | .extC2 _ _ => true
  | .extX _ _ => true
  | .br _ _ => true
  | .bcEq _ _ _ _ => true
  | .bcNe _ _ _ _ => true
  | .bcLt _ _ _ _ => true
  | .bcLtu _ _ _ _ => true
  | .bcGe _ _ _ _ => true
  | .bcGeu _ _ _ _ => true
  | .jmp _ _ _ _ => true
  | .jmpRet _ _ _ _ => true
  | .ld _ mo sz _ _ d => (sz != 7 || isEven d) && !((mo == 1 || mo == 2) && d == 0)
  | .st _ mo sz _ _ d => decide (sz.toNat ≤ 4) && mo != 3 && (sz != 4 || isEven d)
  | .vld _ _ sz _ _ d => decide (sz.toNat ≤ 2) && isV d
  | .vst _ mo sz _ _ d => decide (sz.toNat ≤ 2) && mo != 3 && isV d
  | .vmemGather ty _ _ b _ d => ty != 7 && isV d && isV b
  | .vmemScatter ty _ _ b _ d => ty != 7 && isV d && isV b
  | .vmemLds ty _ _ _ _ d => ty != 7 && isV d
  | .vmemSts ty _ _ _ _ d => ty != 7 && isV d
  | .vmemScatredAdd ty _ _ b _ d => (ty == 0 || ty == 2) && isV d && isV b
  | .vmemScatredFadd ty _ _ b _ d => (ty == 3 || ty == 6) && isV d && isV b
  | .vmemScatredMin ty _ _ b _ d => (ty == 0 || ty == 2) && isV d && isV b
  | .vmemScatredMax ty _ _ b _ d => (ty == 0 || ty == 2) && isV d && isV b
  | .vmemScatredMinu ty _ _ b _ d => (ty == 0 || ty == 2) && isV d && isV b
  | .vmemScatredMaxu ty _ _ b _ d => (ty == 0 || ty == 2) && isV d && isV b
  | .vmemScatredOr ty _ _ b _ d => (ty == 0 || ty == 2) && isV d && isV b
  | .amoAdd post scope _ _ _ _ _ d => scope != 3 && (post == (d == 0))
  | .amoAnd post scope _ _ _ _ _ d => scope != 3 && (post == (d == 0))
  | .amoOr post scope _ _ _ _ _ d => scope != 3 && (post == (d == 0))
  | .amoXor post scope _ _ _ _ _ d => scope != 3 && (post == (d == 0))
  | .amoMin post scope _ _ _ _ _ d => scope != 3 && (post == (d == 0))
  | .amoMax post scope _ _ _ _ _ d => scope != 3 && (post == (d == 0))
  | .amoMinu post scope _ _ _ _ _ d => scope != 3 && (post == (d == 0))
  | .amoMaxu post scope _ _ _ _ _ d => scope != 3 && (post == (d == 0))
  | .amoSwap post scope _ _ _ _ _ d => scope != 3 && (post == (d == 0))
  | .amoCas post scope _ _ _ _ _ d => scope != 3 && (post == (d == 0))
  | .amoDecFire scope _ _ _ d => scope != 3 && d != 0
  | .amoFadd post scope _ _ _ _ _ d => scope != 3 && (post == (d == 0))
  | .syncFenceDie _ _ => true
  | .syncFenceDev _ _ => true
  | .syncFenceSys _ _ => true
  | .syncFenceCp _ _ => true
  | .syncFenceU _ _ => true
  | .syncRel _ _ _ _ => true
  | .syncAcq _ _ _ _ => true
  | .syncClnRange _ _ _ _ => true
  | .syncInvRange _ _ _ _ => true
  | .syncFlnRange _ _ _ _ => true
  | .syncFeClr _ _ _ _ => true
  | .syncFeSet _ _ _ _ => true
  | .valuAdd ty _ _ b a d => decide (ty.toNat ≤ 2) && isV a && isV b && isV d
  | .valuSub ty _ _ b a d => decide (ty.toNat ≤ 2) && isV a && isV b && isV d
  | .valuMul ty _ _ b a d => decide (ty.toNat ≤ 2) && isV a && isV b && isV d
  | .valuMulh ty _ _ b a d => decide (ty.toNat ≤ 2) && isV a && isV b && isV d
  | .valuAnd ty _ _ b a d => decide (ty.toNat ≤ 2) && isV a && isV b && isV d
  | .valuOr ty _ _ b a d => decide (ty.toNat ≤ 2) && isV a && isV b && isV d
  | .valuXor ty _ _ b a d => decide (ty.toNat ≤ 2) && isV a && isV b && isV d
  | .valuShl ty _ _ b a d => decide (ty.toNat ≤ 2) && isV a && isV b && isV d
  | .valuShr ty _ _ b a d => decide (ty.toNat ≤ 2) && isV a && isV b && isV d
  | .valuSra ty _ _ b a d => decide (ty.toNat ≤ 2) && isV a && isV b && isV d
  | .valuMin ty _ _ b a d => decide (ty.toNat ≤ 2) && isV a && isV b && isV d
  | .valuMax ty _ _ b a d => decide (ty.toNat ≤ 2) && isV a && isV b && isV d
  | .valuMinu ty _ _ b a d => decide (ty.toNat ≤ 2) && isV a && isV b && isV d
  | .valuMaxu ty _ _ b a d => decide (ty.toNat ≤ 2) && isV a && isV b && isV d
  | .valuCmp ty _ _ b a _ _ => decide (ty.toNat ≤ 2) && isV a && isV b
  | .valuSel ty _ mk b a d => decide (ty.toNat ≤ 2) && isV a && isV b && isV d && mk != 0
  | .vfpAdd ty _ _ b a d => isFloat ty && isV a && isV b && isV d
  | .vfpSub ty _ _ b a d => isFloat ty && isV a && isV b && isV d
  | .vfpMul ty _ _ b a d => isFloat ty && isV a && isV b && isV d
  | .vfpDiv ty _ _ b a d => isFloat ty && isV a && isV b && isV d
  | .vfpMin ty _ _ b a d => isFloat ty && isV a && isV b && isV d
  | .vfpMax ty _ _ b a d => isFloat ty && isV a && isV b && isV d
  | .vfpRnd ty _ _ a d => isFloat ty && isV a && isV d
  | .vfpExp2f ty _ _ a d => isFloat ty && isV a && isV d
  | .vfpScale ty _ _ b a d => isFloat ty && isV a && isV b && isV d
  | .vfpGetexp ty _ _ a d => isFloat ty && isV a && isV d
  | .vfpRcp ty _ _ a d => isFloat ty && isV a && isV d
  | .vfpRsq ty _ _ a d => isFloat ty && isV a && isV d
  | .vfpSqrt ty _ _ a d => isFloat ty && isV a && isV d
  | .vfpCvt ty _ _ sty a d => ty != 7 && sty != 7 && !(decide (ty.toNat ≤ 2) && decide (sty.toNat ≤ 2)) && isV a && isV d
  | .vfpCmp ty _ _ b a _ _ => isFloat ty && isV a && isV b
  | .vfpCls ty _ _ a d => isFloat ty && isV a && isV d
  | .vfmaFma _ _ c b a d => isV d && isV a && isV b && isV c
  | .vfmaFms _ _ c b a d => isV d && isV a && isV b && isV c
  | .vfmaFnma _ _ c b a d => isV d && isV a && isV b && isV c
  | .vfmaFnms _ _ c b a d => isV d && isV a && isV b && isV c
  | .maskAnd _ _ b a d => isM d && isM a && isM b
  | .maskOr _ _ b a d => isM d && isM a && isM b
  | .maskXor _ _ b a d => isM d && isM a && isM b
  | .maskAndn _ _ b a d => isM d && isM a && isM b
  | .maskNot _ _ a d => isM d && isM a
  | .maskPop _ _ a _ => isM a
  | .maskFirst _ _ a _ => isM a
  | .maskFromx _ _ _ d => isM d
  | .maskTox _ _ a _ => isM a
  | .maskAll _ _ d => isM d
  | .maskLanes _ _ _ d => isM d
  | .fpuAdd _ _ _ _ _ _ => true
  | .fpuSub _ _ _ _ _ _ => true
  | .fpuMul _ _ _ _ _ _ => true
  | .fpuDiv _ _ _ _ _ _ => true
  | .fpuSqrt _ _ _ _ _ => true
  | .fpuMin _ _ _ _ _ _ => true
  | .fpuMax _ _ _ _ _ _ => true
  | .fpuFma _ _ _ _ _ _ => true
  | .fpuRnd _ _ _ _ _ => true
  | .fpuCvt conv _ _ _ _ _ => decide (conv.toNat ≤ 4)
  | .fpuEq _ _ _ _ _ _ => true
  | .fpuLt _ _ _ _ _ _ => true
  | .fpuLe _ _ _ _ _ _ => true
  | .fpuCls _ _ _ _ _ => true
  | .fpuSgnj _ _ _ _ _ _ => true
  | .fpuAbs _ _ _ _ _ => true
  | .rowYield _ _ => true
  | .rowWait _ _ _ => true
  | .rowStop _ _ => true
  | .rowRowid _ _ _ => true
  | .rowSend _ _ _ _ => true
  | .rowSpawn _ _ _ _ _ => true
  | .rowDone _ _ => true
  | .rowBudget _ _ _ _ => true
  | .rowBarInit _ _ _ _ => true
  | .rowBarArrive _ _ _ _ => true
  | .rowBarWait _ _ _ _ => true
  | .rowBarSync _ _ _ d => d != 0
  | .rowDqPush _ _ _ _ _ => true
  | .rowDqPop _ _ dp => dp != 0
  | .rowDqSplit _ _ _ _ _ => true
  | .rowDqSteal _ _ dp => dp != 0
  | .rowDqLen _ _ _ => true
  | .engineCpLin _ _ _ _ _ => true
  | .engineCpDist _ _ _ _ _ _ => true
  | .engineCpStat _ _ _ => true
  | .engineMxGang _ _ _ d => d != 0
  | .engineMxStat _ _ _ => true
  | .engineMxAbort _ _ _ => true
  | .engineEdgeRun _ _ d => d != 0
  | .engineEdgeRet _ => true
  | .engineEdgeStat _ dp => dp != 0
  | .sysNop => true
  | .sysTrap _ => true
  | .sysBkpt _ => true
  | .sysUret => true
  | .sysHalt => true
  | .sysSysr num _ => sysAssigned num.toNat
  | .sysSysw num _ => sysAssigned num.toNat
  | .sysShoot dp => dp != 0
  | .sysGang _ => true
  | .sysSwap _ => true
  | .vxfBcast ty _ _ _ d => ty != 7 && isV d
  | .vxfExt ty _ _ a _ => ty != 7 && isV a
  | .vxfIns ty _ _ _ d => ty != 7 && isV d
  | .vxfPerm ty _ _ b a d => ty != 7 && isV d && isV a && isV b
  | .vxfRedAdd ty _ _ a _ => ty != 7 && isV a
  | .vxfRedMin ty _ _ a _ => ty != 7 && isV a
  | .vxfRedMax ty _ _ a _ => ty != 7 && isV a
  | .vxfIota ty _ _ d => ty != 7 && isV d
  | .vxfAbs ty _ _ a d => ty != 7 && isV d && isV a
  | .vxfNeg ty _ _ a d => ty != 7 && isV d && isV a
  | .vxfSgnj ty _ _ b a d => ty != 7 && isV d && isV a && isV b
  | .vxfShfdn ty _ _ _ a d => ty != 7 && isV d && isV a
  | .hMov _ _ => true
  | .hAdd _ _ => true
  | .hAddi5 _ _ => true
  | .hSub _ _ => true
  | .hAnd _ _ => true
  | .hOr _ _ => true
  | .hXor _ _ => true
  | .hShli _ _ => true
  | .hShri _ _ => true
  | .hLd64 _ _ => true
  | .hLd32 _ _ => true
  | .hSt64 _ _ => true
  | .hSt32 _ _ => true
  | .hBeqz _ _ => true
  | .hBnez _ _ => true
  | .hLt _ _ => true
  | .hLdi5 _ _ => true
  | .hVfaddF32 _ _ _ _ => true
  | .hVfmulF32 _ _ _ _ => true
  | .hNop => true
  | .hYield => true
  | .hRet => true
  | .ctlNone _ _ _ => true
  | .kindle _ => true
  | .stop _ => true
  | .redirect _ => true
  | .stepOne _ => true
  | .resume _ => true
  | .skip _ => true
  | .outsideAccess _ _ _ => true
  | .storePerform _ => true
  | .fill _ _ => true
  | .remoteFePerform _ => true
  | .atomicPerform _ => true
  | .dateBroadcast _ _ => true
  | .acquirePassOwn _ _ => true
  | .acquirePassOther _ _ => true
  | .frostSweep _ => true
  | .inboxEntry _ => true
  | .stokerBind _ _ => true
  | .runQueueEntry _ _ => true
  | .dispatch _ => true
  | .hostQueueWrite _ => true
  | .selection _ _ => true
  | .openingComplete _ _ => true
  | .closingComplete _ _ => true
  | .quantumExpiry _ _ => true
  | .budget _ _ _ => true
  | .upcallDelivery _ => true
  | .flueRequest _ _ => true
  | .flueRecord _ _ => true
  | .flueres _ => true
  | .flueResolution _ _ => true
  | .halt _ => true
  | .haltReport _ => true
  | .gangRelease _ => true
  | .swapExchange _ => true
  | .arrivalLog _ => true
  | .logReplay _ => true
  | .copyPiece _ _ _ => true
  | .distributorBlock _ _ _ => true
  | .gangBarrier _ => true
  | .prefetch _ => true
  | .permitGrant _ => true
  | .loadB _ => true
  | .mac _ => true
  | .rotate _ => true
  | .drain _ => true
  | .group _ => true
  | .endStep _ => true
  | .ringWatchdog _ _ => true
  | .edgeRunStart _ => true
  | .chunkTake _ => true
  | .batch _ _ => true
  | .batchApply _ => true
  | .levelEnd _ => true
  | .midLevelSwitch _ => true
  | .barrierArrival _ => true
  | .syClk _ _ _ => true
  | .clockTransition _ => true
  | .syCbudget _ _ _ => true
  | .refill _ => true
  | .damperWindow _ => true
  | .sySlope _ _ => true
  | .capMessage _ _ => true
  | .leaseExpiry => true
  | .thawSend _ _ => true
  | .thawMessage _ => true
  | .thawHoldEnd => true
  | .tail _ _ => true
  | .notifyWordStore _ _ => true
  | .inboxControlWrite _ _ _ => true
  | .admission _ _ => true
  | .hostWrite _ _ _ _ => true
  | .hostRead _ _ _ _ => true
  | .cxlSnoop _ _ _ => true
  | .directoryMerge _ _ => true
  | .peerAccess _ _ _ => true
  | .routeFailure _ => true
  | .partFailure _ _ => true
  | .dieFailure _ => true
  | .powerOn => true
  | .perst => true
  | .syReset _ _ => true
  | .startStage _ => true
  | .stageTimeLimit => true
  | .scrub _ _ _ => true
  | .sySerr _ _ _ => true
  | .dequeClear _ => true
  | .bstateWrite _ _ _ => true
  | .syClbind _ _ _ => true
  | .sysregWrite _ _ _ _ => true
  | .illegalInstruction _ => true
  | .softError _ _ => true
  | .temperatureSensor _ _ => true
  | .backInvalidateCompletion _ _ => true
  | .performanceAtTarget _ => true

/-! ## Reading an instruction word (R147, R149, R151, R154-R156) -/

/-- Major 0x01, ALU (R155, R156). -/
def rawAlu (w : BitVec 32) : Option Instr :=
  match (w.extractLsb' 31 1 ++ w.extractLsb' 23 4) with
  | 0#5 => some (.aluAdd (w.getLsbD 27) (w.getLsbD 22) (w.getLsbD 21) (fB w) (fA w) (fD w))
  | 1#5 => some (.aluSub (w.getLsbD 27) (w.getLsbD 22) (w.getLsbD 21) (fB w) (fA w) (fD w))
  | 2#5 => some (.aluMul (w.getLsbD 27) (w.getLsbD 22) (w.getLsbD 21) (fB w) (fA w) (fD w))
  | 3#5 => some (.aluMulh (w.getLsbD 27) (w.getLsbD 22) (w.getLsbD 21) (fB w) (fA w) (fD w))
  | 4#5 => some (.aluMulhu (w.getLsbD 27) (w.getLsbD 22) (w.getLsbD 21) (fB w) (fA w) (fD w))
  | 5#5 => some (.aluDiv (w.getLsbD 27) (w.getLsbD 22) (w.getLsbD 21) (fB w) (fA w) (fD w))
  | 6#5 => some (.aluDivu (w.getLsbD 27) (w.getLsbD 22) (w.getLsbD 21) (fB w) (fA w) (fD w))
  | 7#5 => some (.aluRem (w.getLsbD 27) (w.getLsbD 22) (w.getLsbD 21) (fB w) (fA w) (fD w))
  | 8#5 => some (.aluRemu (w.getLsbD 27) (w.getLsbD 22) (w.getLsbD 21) (fB w) (fA w) (fD w))
  | 9#5 => some (.aluAnd (w.getLsbD 27) (w.getLsbD 22) (w.getLsbD 21) (fB w) (fA w) (fD w))
  | 10#5 => some (.aluOr (w.getLsbD 27) (w.getLsbD 22) (w.getLsbD 21) (fB w) (fA w) (fD w))
  | 11#5 => some (.aluXor (w.getLsbD 27) (w.getLsbD 22) (w.getLsbD 21) (fB w) (fA w) (fD w))
  | 12#5 => some (.aluAndn (w.getLsbD 27) (w.getLsbD 22) (w.getLsbD 21) (fB w) (fA w) (fD w))
  | 13#5 => some (.aluShl (w.getLsbD 27) (w.getLsbD 22) (w.getLsbD 21) (fB w) (fA w) (fD w))
  | 14#5 => some (.aluShr (w.getLsbD 27) (w.getLsbD 22) (w.getLsbD 21) (fB w) (fA w) (fD w))
  | 15#5 => some (.aluSra (w.getLsbD 27) (w.getLsbD 22) (w.getLsbD 21) (fB w) (fA w) (fD w))
  | 16#5 => some (.aluMin (w.getLsbD 27) (w.getLsbD 22) (w.getLsbD 21) (fB w) (fA w) (fD w))
  | 17#5 => some (.aluMax (w.getLsbD 27) (w.getLsbD 22) (w.getLsbD 21) (fB w) (fA w) (fD w))
  | 18#5 => some (.aluMinu (w.getLsbD 27) (w.getLsbD 22) (w.getLsbD 21) (fB w) (fA w) (fD w))
  | 19#5 => some (.aluMaxu (w.getLsbD 27) (w.getLsbD 22) (w.getLsbD 21) (fB w) (fA w) (fD w))
  | 20#5 => some (.aluRot (w.getLsbD 27) (w.getLsbD 22) (w.getLsbD 21) (fB w) (fA w) (fD w))
  | 21#5 => some (.aluClz (w.getLsbD 27) (w.getLsbD 22) (w.getLsbD 21) (fA w) (fD w))
  | 22#5 => some (.aluCtz (w.getLsbD 27) (w.getLsbD 22) (w.getLsbD 21) (fA w) (fD w))
  | 23#5 => some (.aluPopc (w.getLsbD 27) (w.getLsbD 22) (w.getLsbD 21) (fA w) (fD w))
  | 24#5 => some (.aluEq (w.getLsbD 27) (w.getLsbD 22) (w.getLsbD 21) (fB w) (fA w) (fD w))
  | 25#5 => some (.aluNe (w.getLsbD 27) (w.getLsbD 22) (w.getLsbD 21) (fB w) (fA w) (fD w))
  | 26#5 => some (.aluLt (w.getLsbD 27) (w.getLsbD 22) (w.getLsbD 21) (fB w) (fA w) (fD w))
  | 27#5 => some (.aluLtu (w.getLsbD 27) (w.getLsbD 22) (w.getLsbD 21) (fB w) (fA w) (fD w))
  | 28#5 => some (.aluLe (w.getLsbD 27) (w.getLsbD 22) (w.getLsbD 21) (fB w) (fA w) (fD w))
  | 29#5 => some (.aluLeu (w.getLsbD 27) (w.getLsbD 22) (w.getLsbD 21) (fB w) (fA w) (fD w))
  | 30#5 => some (.aluSel (w.getLsbD 27) (w.getLsbD 22) (w.getLsbD 21) (fB w) (fA w) (fD w))
  | 31#5 => some (.aluExt (w.getLsbD 27) (w.getLsbD 22) (w.getLsbD 21) (fB w) (fA w) (fD w))
  | _ => none

/-- Major 0x06, SHI (R155, R156). -/
def rawShi (w : BitVec 32) : Option Instr :=
  match (w.extractLsb' 17 2) with
  | 0#2 => some (.shiShl (w.getLsbD 25) (w.extractLsb' 19 6) (w.getLsbD 16) (fA w) (fD w))
  | 1#2 => some (.shiShr (w.getLsbD 25) (w.extractLsb' 19 6) (w.getLsbD 16) (fA w) (fD w))
  | 2#2 => some (.shiSra (w.getLsbD 25) (w.extractLsb' 19 6) (w.getLsbD 16) (fA w) (fD w))
  | 3#2 => some (.shiRot (w.getLsbD 25) (w.extractLsb' 19 6) (w.getLsbD 16) (fA w) (fD w))

/-- Major 0x07, CMPI (R155, R156). -/
def rawCmpi (w : BitVec 32) : Option Instr :=
  match (w.extractLsb' 17 3) with
  | 0#3 => some (.cmpiEq (w.extractLsb' 20 12) (w.getLsbD 16) (fA w) (fD w))
  | 1#3 => some (.cmpiNe (w.extractLsb' 20 12) (w.getLsbD 16) (fA w) (fD w))
  | 2#3 => some (.cmpiLt (w.extractLsb' 20 12) (w.getLsbD 16) (fA w) (fD w))
  | 3#3 => some (.cmpiLtu (w.extractLsb' 20 12) (w.getLsbD 16) (fA w) (fD w))
  | 4#3 => some (.cmpiLe (w.extractLsb' 20 12) (w.getLsbD 16) (fA w) (fD w))
  | 5#3 => some (.cmpiLeu (w.extractLsb' 20 12) (w.getLsbD 16) (fA w) (fD w))
  | 6#3 => some (.cmpiGt (w.extractLsb' 20 12) (w.getLsbD 16) (fA w) (fD w))
  | 7#3 => some (.cmpiGtu (w.extractLsb' 20 12) (w.getLsbD 16) (fA w) (fD w))

/-- Major 0x0A, EXT (R155, R156). -/
def rawExt (w : BitVec 32) : Option Instr :=
  match (w.extractLsb' 9 2) with
  | 0#2 => some (.extC0 (w.extractLsb' 11 21) (w.extractLsb' 6 3))
  | 1#2 => some (.extC1 (w.extractLsb' 11 21) (w.extractLsb' 6 3))
  | 2#2 => some (.extC2 (w.extractLsb' 11 21) (w.extractLsb' 6 3))
  | 3#2 => some (.extX (fA w) (w.extractLsb' 6 3))

/-- Major 0x0C, BC (R155, R156). -/
def rawBc (w : BitVec 32) : Option Instr :=
  match (w.extractLsb' 16 3) with
  | 0#3 => some (.bcEq (w.extractLsb' 20 12) (w.getLsbD 19) (fA w) (fD w))
  | 1#3 => some (.bcNe (w.extractLsb' 20 12) (w.getLsbD 19) (fA w) (fD w))
  | 2#3 => some (.bcLt (w.extractLsb' 20 12) (w.getLsbD 19) (fA w) (fD w))
  | 3#3 => some (.bcLtu (w.extractLsb' 20 12) (w.getLsbD 19) (fA w) (fD w))
  | 4#3 => some (.bcGe (w.extractLsb' 20 12) (w.getLsbD 19) (fA w) (fD w))
  | 5#3 => some (.bcGeu (w.extractLsb' 20 12) (w.getLsbD 19) (fA w) (fD w))
  | _ => none

/-- Major 0x0D, JMP (R155, R156). -/
def rawJmp (w : BitVec 32) : Option Instr :=
  match (w.extractLsb' 17 1) with
  | 0#1 => some (.jmp (w.extractLsb' 18 14) (w.getLsbD 16) (fA w) (fD w))
  | 1#1 => some (.jmpRet (w.extractLsb' 18 14) (w.getLsbD 16) (fA w) (fD w))

/-- Major 0x12, VMEM (R155, R156). -/
def rawVmem (w : BitVec 32) : Option Instr :=
  match (w.extractLsb' 25 4) with
  | 0#4 => some (.vmemGather (w.extractLsb' 29 3) (w.getLsbD 24) (w.extractLsb' 21 3) (fB w) (fA w) (fD w))
  | 1#4 => some (.vmemScatter (w.extractLsb' 29 3) (w.getLsbD 24) (w.extractLsb' 21 3) (fB w) (fA w) (fD w))
  | 2#4 => some (.vmemLds (w.extractLsb' 29 3) (w.getLsbD 24) (w.extractLsb' 21 3) (fB w) (fA w) (fD w))
  | 3#4 => some (.vmemSts (w.extractLsb' 29 3) (w.getLsbD 24) (w.extractLsb' 21 3) (fB w) (fA w) (fD w))
  | 8#4 => some (.vmemScatredAdd (w.extractLsb' 29 3) (w.getLsbD 24) (w.extractLsb' 21 3) (fB w) (fA w) (fD w))
  | 9#4 => some (.vmemScatredFadd (w.extractLsb' 29 3) (w.getLsbD 24) (w.extractLsb' 21 3) (fB w) (fA w) (fD w))
  | 10#4 => some (.vmemScatredMin (w.extractLsb' 29 3) (w.getLsbD 24) (w.extractLsb' 21 3) (fB w) (fA w) (fD w))
  | 11#4 => some (.vmemScatredMax (w.extractLsb' 29 3) (w.getLsbD 24) (w.extractLsb' 21 3) (fB w) (fA w) (fD w))
  | 12#4 => some (.vmemScatredMinu (w.extractLsb' 29 3) (w.getLsbD 24) (w.extractLsb' 21 3) (fB w) (fA w) (fD w))
  | 13#4 => some (.vmemScatredMaxu (w.extractLsb' 29 3) (w.getLsbD 24) (w.extractLsb' 21 3) (fB w) (fA w) (fD w))
  | 14#4 => some (.vmemScatredOr (w.extractLsb' 29 3) (w.getLsbD 24) (w.extractLsb' 21 3) (fB w) (fA w) (fD w))
  | _ => none

/-- Major 0x13, AMO (R155, R156). -/
def rawAmo (w : BitVec 32) : Option Instr :=
  match (w.extractLsb' 23 4) with
  | 0#4 => some (.amoAdd (w.getLsbD 30) (w.extractLsb' 28 2) (w.getLsbD 27) (w.getLsbD 22) (w.getLsbD 21) (fB w) (fA w) (fD w))
  | 1#4 => some (.amoAnd (w.getLsbD 30) (w.extractLsb' 28 2) (w.getLsbD 27) (w.getLsbD 22) (w.getLsbD 21) (fB w) (fA w) (fD w))
  | 2#4 => some (.amoOr (w.getLsbD 30) (w.extractLsb' 28 2) (w.getLsbD 27) (w.getLsbD 22) (w.getLsbD 21) (fB w) (fA w) (fD w))
  | 3#4 => some (.amoXor (w.getLsbD 30) (w.extractLsb' 28 2) (w.getLsbD 27) (w.getLsbD 22) (w.getLsbD 21) (fB w) (fA w) (fD w))
  | 4#4 => some (.amoMin (w.getLsbD 30) (w.extractLsb' 28 2) (w.getLsbD 27) (w.getLsbD 22) (w.getLsbD 21) (fB w) (fA w) (fD w))
  | 5#4 => some (.amoMax (w.getLsbD 30) (w.extractLsb' 28 2) (w.getLsbD 27) (w.getLsbD 22) (w.getLsbD 21) (fB w) (fA w) (fD w))
  | 6#4 => some (.amoMinu (w.getLsbD 30) (w.extractLsb' 28 2) (w.getLsbD 27) (w.getLsbD 22) (w.getLsbD 21) (fB w) (fA w) (fD w))
  | 7#4 => some (.amoMaxu (w.getLsbD 30) (w.extractLsb' 28 2) (w.getLsbD 27) (w.getLsbD 22) (w.getLsbD 21) (fB w) (fA w) (fD w))
  | 8#4 => some (.amoSwap (w.getLsbD 30) (w.extractLsb' 28 2) (w.getLsbD 27) (w.getLsbD 22) (w.getLsbD 21) (fB w) (fA w) (fD w))
  | 9#4 => some (.amoCas (w.getLsbD 30) (w.extractLsb' 28 2) (w.getLsbD 27) (w.getLsbD 22) (w.getLsbD 21) (fB w) (fA w) (fD w))
  | 10#4 => some (.amoDecFire (w.extractLsb' 28 2) (w.getLsbD 22) (w.getLsbD 21) (fA w) (fD w))
  | 11#4 => some (.amoFadd (w.getLsbD 30) (w.extractLsb' 28 2) (w.getLsbD 27) (w.getLsbD 22) (w.getLsbD 21) (fB w) (fA w) (fD w))
  | _ => none

/-- Major 0x14, SYNC (R155, R156). -/
def rawSync (w : BitVec 32) : Option Instr :=
  match (w.extractLsb' 23 4) with
  | 0#4 => some (.syncFenceDie (w.getLsbD 22) (w.getLsbD 21))
  | 1#4 => some (.syncFenceDev (w.getLsbD 22) (w.getLsbD 21))
  | 2#4 => some (.syncFenceSys (w.getLsbD 22) (w.getLsbD 21))
  | 3#4 => some (.syncFenceCp (w.getLsbD 22) (w.getLsbD 21))
  | 4#4 => some (.syncFenceU (w.getLsbD 22) (w.getLsbD 21))
  | 5#4 => some (.syncRel (w.getLsbD 22) (w.getLsbD 21) (fB w) (fA w))
  | 6#4 => some (.syncAcq (w.getLsbD 22) (w.getLsbD 21) (fA w) (fD w))
  | 7#4 => some (.syncClnRange (w.getLsbD 22) (w.getLsbD 21) (fB w) (fA w))
  | 8#4 => some (.syncInvRange (w.getLsbD 22) (w.getLsbD 21) (fB w) (fA w))
  | 9#4 => some (.syncFlnRange (w.getLsbD 22) (w.getLsbD 21) (fB w) (fA w))
  | 10#4 => some (.syncFeClr (w.getLsbD 22) (w.getLsbD 21) (fB w) (fA w))
  | 11#4 => some (.syncFeSet (w.getLsbD 22) (w.getLsbD 21) (fB w) (fA w))
  | _ => none

/-- Major 0x15, VALU (R155, R156). -/
def rawValu (w : BitVec 32) : Option Instr :=
  match (w.extractLsb' 25 4) with
  | 0#4 => some (.valuAdd (w.extractLsb' 29 3) (w.getLsbD 24) (w.extractLsb' 21 3) (fB w) (fA w) (fD w))
  | 1#4 => some (.valuSub (w.extractLsb' 29 3) (w.getLsbD 24) (w.extractLsb' 21 3) (fB w) (fA w) (fD w))
  | 2#4 => some (.valuMul (w.extractLsb' 29 3) (w.getLsbD 24) (w.extractLsb' 21 3) (fB w) (fA w) (fD w))
  | 3#4 => some (.valuMulh (w.extractLsb' 29 3) (w.getLsbD 24) (w.extractLsb' 21 3) (fB w) (fA w) (fD w))
  | 4#4 => some (.valuAnd (w.extractLsb' 29 3) (w.getLsbD 24) (w.extractLsb' 21 3) (fB w) (fA w) (fD w))
  | 5#4 => some (.valuOr (w.extractLsb' 29 3) (w.getLsbD 24) (w.extractLsb' 21 3) (fB w) (fA w) (fD w))
  | 6#4 => some (.valuXor (w.extractLsb' 29 3) (w.getLsbD 24) (w.extractLsb' 21 3) (fB w) (fA w) (fD w))
  | 7#4 => some (.valuShl (w.extractLsb' 29 3) (w.getLsbD 24) (w.extractLsb' 21 3) (fB w) (fA w) (fD w))
  | 8#4 => some (.valuShr (w.extractLsb' 29 3) (w.getLsbD 24) (w.extractLsb' 21 3) (fB w) (fA w) (fD w))
  | 9#4 => some (.valuSra (w.extractLsb' 29 3) (w.getLsbD 24) (w.extractLsb' 21 3) (fB w) (fA w) (fD w))
  | 10#4 => some (.valuMin (w.extractLsb' 29 3) (w.getLsbD 24) (w.extractLsb' 21 3) (fB w) (fA w) (fD w))
  | 11#4 => some (.valuMax (w.extractLsb' 29 3) (w.getLsbD 24) (w.extractLsb' 21 3) (fB w) (fA w) (fD w))
  | 12#4 => some (.valuMinu (w.extractLsb' 29 3) (w.getLsbD 24) (w.extractLsb' 21 3) (fB w) (fA w) (fD w))
  | 13#4 => some (.valuMaxu (w.extractLsb' 29 3) (w.getLsbD 24) (w.extractLsb' 21 3) (fB w) (fA w) (fD w))
  | 14#4 => some (.valuCmp (w.extractLsb' 29 3) (w.getLsbD 24) (w.extractLsb' 21 3) (fB w) (fA w) (w.extractLsb' 9 2) (w.extractLsb' 6 3))
  | 15#4 => some (.valuSel (w.extractLsb' 29 3) (w.getLsbD 24) (w.extractLsb' 21 3) (fB w) (fA w) (fD w))
  | _ => none

/-- Major 0x16, VFP (R155, R156). -/
def rawVfp (w : BitVec 32) : Option Instr :=
  match (w.extractLsb' 25 4) with
  | 0#4 => some (.vfpAdd (w.extractLsb' 29 3) (w.getLsbD 24) (w.extractLsb' 21 3) (fB w) (fA w) (fD w))
  | 1#4 => some (.vfpSub (w.extractLsb' 29 3) (w.getLsbD 24) (w.extractLsb' 21 3) (fB w) (fA w) (fD w))
  | 2#4 => some (.vfpMul (w.extractLsb' 29 3) (w.getLsbD 24) (w.extractLsb' 21 3) (fB w) (fA w) (fD w))
  | 3#4 => some (.vfpDiv (w.extractLsb' 29 3) (w.getLsbD 24) (w.extractLsb' 21 3) (fB w) (fA w) (fD w))
  | 4#4 => some (.vfpMin (w.extractLsb' 29 3) (w.getLsbD 24) (w.extractLsb' 21 3) (fB w) (fA w) (fD w))
  | 5#4 => some (.vfpMax (w.extractLsb' 29 3) (w.getLsbD 24) (w.extractLsb' 21 3) (fB w) (fA w) (fD w))
  | 6#4 => some (.vfpRnd (w.extractLsb' 29 3) (w.getLsbD 24) (w.extractLsb' 21 3) (fA w) (fD w))
  | 7#4 => some (.vfpExp2f (w.extractLsb' 29 3) (w.getLsbD 24) (w.extractLsb' 21 3) (fA w) (fD w))
  | 8#4 => some (.vfpScale (w.extractLsb' 29 3) (w.getLsbD 24) (w.extractLsb' 21 3) (fB w) (fA w) (fD w))
  | 9#4 => some (.vfpGetexp (w.extractLsb' 29 3) (w.getLsbD 24) (w.extractLsb' 21 3) (fA w) (fD w))
  | 10#4 => some (.vfpRcp (w.extractLsb' 29 3) (w.getLsbD 24) (w.extractLsb' 21 3) (fA w) (fD w))
  | 11#4 => some (.vfpRsq (w.extractLsb' 29 3) (w.getLsbD 24) (w.extractLsb' 21 3) (fA w) (fD w))
  | 12#4 => some (.vfpSqrt (w.extractLsb' 29 3) (w.getLsbD 24) (w.extractLsb' 21 3) (fA w) (fD w))
  | 13#4 => some (.vfpCvt (w.extractLsb' 29 3) (w.getLsbD 24) (w.extractLsb' 21 3) (w.extractLsb' 16 3) (fA w) (fD w))
  | 14#4 => some (.vfpCmp (w.extractLsb' 29 3) (w.getLsbD 24) (w.extractLsb' 21 3) (fB w) (fA w) (w.extractLsb' 9 2) (w.extractLsb' 6 3))
  | 15#4 => some (.vfpCls (w.extractLsb' 29 3) (w.getLsbD 24) (w.extractLsb' 21 3) (fA w) (fD w))
  | _ => none

/-- Major 0x17, VFMA (R155, R156). -/
def rawVfma (w : BitVec 32) : Option Instr :=
  match (w.extractLsb' 26 2) with
  | 0#2 => some (.vfmaFma (w.extractLsb' 30 2) (w.extractLsb' 28 2) (fC w) (fB w) (fA w) (fD w))
  | 1#2 => some (.vfmaFms (w.extractLsb' 30 2) (w.extractLsb' 28 2) (fC w) (fB w) (fA w) (fD w))
  | 2#2 => some (.vfmaFnma (w.extractLsb' 30 2) (w.extractLsb' 28 2) (fC w) (fB w) (fA w) (fD w))
  | 3#2 => some (.vfmaFnms (w.extractLsb' 30 2) (w.extractLsb' 28 2) (fC w) (fB w) (fA w) (fD w))

/-- Major 0x18, MASK (R155, R156). -/
def rawMask (w : BitVec 32) : Option Instr :=
  match (w.extractLsb' 23 4) with
  | 0#4 => some (.maskAnd (w.getLsbD 22) (w.getLsbD 21) (fB w) (fA w) (fD w))
  | 1#4 => some (.maskOr (w.getLsbD 22) (w.getLsbD 21) (fB w) (fA w) (fD w))
  | 2#4 => some (.maskXor (w.getLsbD 22) (w.getLsbD 21) (fB w) (fA w) (fD w))
  | 3#4 => some (.maskAndn (w.getLsbD 22) (w.getLsbD 21) (fB w) (fA w) (fD w))
  | 4#4 => some (.maskNot (w.getLsbD 22) (w.getLsbD 21) (fA w) (fD w))
  | 5#4 => some (.maskPop (w.getLsbD 22) (w.getLsbD 21) (fA w) (fD w))
  | 6#4 => some (.maskFirst (w.getLsbD 22) (w.getLsbD 21) (fA w) (fD w))
  | 7#4 => some (.maskFromx (w.getLsbD 22) (w.getLsbD 21) (fA w) (fD w))
  | 8#4 => some (.maskTox (w.getLsbD 22) (w.getLsbD 21) (fA w) (fD w))
  | 9#4 => some (.maskAll (w.getLsbD 22) (w.getLsbD 21) (fD w))
  | 10#4 => some (.maskLanes (w.getLsbD 22) (w.getLsbD 21) (fA w) (fD w))
  | _ => none

/-- Major 0x19, FPU (R155, R156). -/
def rawFpu (w : BitVec 32) : Option Instr :=
  match (w.extractLsb' 23 4) with
  | 0#4 => some (.fpuAdd (w.getLsbD 27) (w.getLsbD 22) (w.getLsbD 21) (fB w) (fA w) (fD w))
  | 1#4 => some (.fpuSub (w.getLsbD 27) (w.getLsbD 22) (w.getLsbD 21) (fB w) (fA w) (fD w))
  | 2#4 => some (.fpuMul (w.getLsbD 27) (w.getLsbD 22) (w.getLsbD 21) (fB w) (fA w) (fD w))
  | 3#4 => some (.fpuDiv (w.getLsbD 27) (w.getLsbD 22) (w.getLsbD 21) (fB w) (fA w) (fD w))
  | 4#4 => some (.fpuSqrt (w.getLsbD 27) (w.getLsbD 22) (w.getLsbD 21) (fA w) (fD w))
  | 5#4 => some (.fpuMin (w.getLsbD 27) (w.getLsbD 22) (w.getLsbD 21) (fB w) (fA w) (fD w))
  | 6#4 => some (.fpuMax (w.getLsbD 27) (w.getLsbD 22) (w.getLsbD 21) (fB w) (fA w) (fD w))
  | 7#4 => some (.fpuFma (w.getLsbD 27) (w.getLsbD 22) (w.getLsbD 21) (fB w) (fA w) (fD w))
  | 8#4 => some (.fpuRnd (w.getLsbD 27) (w.getLsbD 22) (w.getLsbD 21) (fA w) (fD w))
  | 9#4 => some (.fpuCvt (w.extractLsb' 28 3) (w.getLsbD 27) (w.getLsbD 22) (w.getLsbD 21) (fA w) (fD w))
  | 10#4 => some (.fpuEq (w.getLsbD 27) (w.getLsbD 22) (w.getLsbD 21) (fB w) (fA w) (fD w))
  | 11#4 => some (.fpuLt (w.getLsbD 27) (w.getLsbD 22) (w.getLsbD 21) (fB w) (fA w) (fD w))
  | 12#4 => some (.fpuLe (w.getLsbD 27) (w.getLsbD 22) (w.getLsbD 21) (fB w) (fA w) (fD w))
  | 13#4 => some (.fpuCls (w.getLsbD 27) (w.getLsbD 22) (w.getLsbD 21) (fA w) (fD w))
  | 14#4 => some (.fpuSgnj (w.getLsbD 27) (w.getLsbD 22) (w.getLsbD 21) (fB w) (fA w) (fD w))
  | 15#4 => some (.fpuAbs (w.getLsbD 27) (w.getLsbD 22) (w.getLsbD 21) (fA w) (fD w))
  | _ => none

/-- Major 0x1A, ROW (R155, R156). -/
def rawRow (w : BitVec 32) : Option Instr :=
  match (w.extractLsb' 31 1 ++ w.extractLsb' 23 4) with
  | 0#5 => some (.rowYield (w.getLsbD 22) (w.getLsbD 21))
  | 1#5 => some (.rowWait (w.getLsbD 22) (w.getLsbD 21) (fA w))
  | 2#5 => some (.rowStop (w.getLsbD 22) (w.getLsbD 21))
  | 3#5 => some (.rowRowid (w.getLsbD 22) (w.getLsbD 21) (fD w))
  | 4#5 => some (.rowSend (w.getLsbD 22) (w.getLsbD 21) (fA w) (fD w))
  | 5#5 => some (.rowSpawn (w.getLsbD 22) (w.getLsbD 21) (fB w) (fA w) (fD w))
  | 6#5 => some (.rowDone (w.getLsbD 22) (w.getLsbD 21))
  | 7#5 => some (.rowBudget (w.getLsbD 22) (w.getLsbD 21) (fA w) (fD w))
  | 16#5 => some (.rowBarInit (w.getLsbD 22) (w.getLsbD 21) (fB w) (fA w))
  | 17#5 => some (.rowBarArrive (w.getLsbD 22) (w.getLsbD 21) (fA w) (fD w))
  | 18#5 => some (.rowBarWait (w.getLsbD 22) (w.getLsbD 21) (fB w) (fA w))
  | 19#5 => some (.rowBarSync (w.getLsbD 22) (w.getLsbD 21) (fA w) (fD w))
  | 20#5 => some (.rowDqPush (w.getLsbD 22) (w.getLsbD 21) (fB w) (fA w) (fD w))
  | 21#5 => some (.rowDqPop (w.getLsbD 22) (w.getLsbD 21) (w.extractLsb' 7 4))
  | 22#5 => some (.rowDqSplit (w.getLsbD 22) (w.getLsbD 21) (fB w) (fA w) (fD w))
  | 23#5 => some (.rowDqSteal (w.getLsbD 22) (w.getLsbD 21) (w.extractLsb' 7 4))
  | 24#5 => some (.rowDqLen (w.getLsbD 22) (w.getLsbD 21) (fD w))
  | _ => none

/-- Major 0x1B, ENGINE (R155, R156). -/
def rawEngine (w : BitVec 32) : Option Instr :=
  match (w.extractLsb' 23 4) with
  | 0#4 => some (.engineCpLin (w.getLsbD 22) (w.getLsbD 21) (fB w) (fA w) (fD w))
  | 1#4 => some (.engineCpDist (w.extractLsb' 27 3) (w.getLsbD 22) (w.getLsbD 21) (fB w) (fA w) (fD w))
  | 2#4 => some (.engineCpStat (w.getLsbD 22) (w.getLsbD 21) (fD w))
  | 3#4 => some (.engineMxGang (w.getLsbD 22) (w.getLsbD 21) (fA w) (fD w))
  | 4#4 => some (.engineMxStat (w.getLsbD 22) (w.getLsbD 21) (fD w))
  | 5#4 => some (.engineMxAbort (w.getLsbD 22) (w.getLsbD 21) (fD w))
  | 6#4 => some (.engineEdgeRun (w.getLsbD 21) (fA w) (fD w))
  | 7#4 => some (.engineEdgeRet (w.getLsbD 21))
  | 8#4 => some (.engineEdgeStat (w.getLsbD 21) (w.extractLsb' 7 4))
  | _ => none

/-- Major 0x1C, SYS (R155, R156). -/
def rawSys (w : BitVec 32) : Option Instr :=
  match (w.extractLsb' 11 5) with
  | 0#5 => some (.sysNop)
  | 1#5 => some (.sysTrap (w.extractLsb' 16 12))
  | 2#5 => some (.sysBkpt (w.extractLsb' 16 12))
  | 3#5 => some (.sysUret)
  | 4#5 => some (.sysHalt)
  | 5#5 => some (.sysSysr (w.extractLsb' 16 12) (fD w))
  | 6#5 => some (.sysSysw (w.extractLsb' 16 12) (fD w))
  | 7#5 => some (.sysShoot (w.extractLsb' 7 4))
  | 8#5 => some (.sysGang (fD w))
  | 9#5 => some (.sysSwap (fD w))
  | _ => none

/-- Major 0x1D, VXF (R155, R156). -/
def rawVxf (w : BitVec 32) : Option Instr :=
  match (w.extractLsb' 25 4) with
  | 0#4 => some (.vxfBcast (w.extractLsb' 29 3) (w.getLsbD 24) (w.extractLsb' 21 3) (fA w) (fD w))
  | 1#4 => some (.vxfExt (w.extractLsb' 29 3) (w.getLsbD 24) (fB w) (fA w) (fD w))
  | 2#4 => some (.vxfIns (w.extractLsb' 29 3) (w.getLsbD 24) (fB w) (fA w) (fD w))
  | 3#4 => some (.vxfPerm (w.extractLsb' 29 3) (w.getLsbD 24) (w.extractLsb' 21 3) (fB w) (fA w) (fD w))
  | 4#4 => some (.vxfRedAdd (w.extractLsb' 29 3) (w.getLsbD 24) (w.extractLsb' 21 3) (fA w) (fD w))
  | 5#4 => some (.vxfRedMin (w.extractLsb' 29 3) (w.getLsbD 24) (w.extractLsb' 21 3) (fA w) (fD w))
  | 6#4 => some (.vxfRedMax (w.extractLsb' 29 3) (w.getLsbD 24) (w.extractLsb' 21 3) (fA w) (fD w))
  | 7#4 => some (.vxfIota (w.extractLsb' 29 3) (w.getLsbD 24) (w.extractLsb' 21 3) (fD w))
  | 8#4 => some (.vxfAbs (w.extractLsb' 29 3) (w.getLsbD 24) (w.extractLsb' 21 3) (fA w) (fD w))
  | 9#4 => some (.vxfNeg (w.extractLsb' 29 3) (w.getLsbD 24) (w.extractLsb' 21 3) (fA w) (fD w))
  | 10#4 => some (.vxfSgnj (w.extractLsb' 29 3) (w.getLsbD 24) (w.extractLsb' 21 3) (fB w) (fA w) (fD w))
  | 11#4 => some (.vxfShfdn (w.extractLsb' 29 3) (w.getLsbD 24) (w.extractLsb' 21 3) (fB w) (fA w) (fD w))
  | _ => none

/-- The instruction whose fields a 32-bit word holds, before the checks of R158. -/
def raw32 (w : BitVec 32) : Option Instr :=
  match w.extractLsb' 1 5 with
  | 0x01#5 => rawAlu w
  | 0x02#5 => some (.alui (w.extractLsb' 17 15) (w.getLsbD 16) (fA w) (fD w))
  | 0x03#5 => some (.andi (w.extractLsb' 17 15) (w.getLsbD 16) (fA w) (fD w))
  | 0x04#5 => some (.ori (w.extractLsb' 17 15) (w.getLsbD 16) (fA w) (fD w))
  | 0x05#5 => some (.xori (w.extractLsb' 17 15) (w.getLsbD 16) (fA w) (fD w))
  | 0x06#5 => rawShi w
  | 0x07#5 => rawCmpi w
  | 0x08#5 => some (.ldi (w.extractLsb' 11 21) (fD w))
  | 0x09#5 => some (.ldx (w.extractLsb' 11 21) (fD w))
  | 0x0A#5 => rawExt w
  | 0x0B#5 => some (.br (w.extractLsb' 11 21) (fD w))
  | 0x0C#5 => rawBc w
  | 0x0D#5 => rawJmp w
  | 0x0E#5 => some (.ld (w.extractLsb' 22 10) (w.extractLsb' 20 2) (w.extractLsb' 17 3) (w.getLsbD 16) (fA w) (fD w))
  | 0x0F#5 => some (.st (w.extractLsb' 22 10) (w.extractLsb' 20 2) (w.extractLsb' 17 3) (w.getLsbD 16) (fA w) (fD w))
  | 0x10#5 => some (.vld (w.extractLsb' 22 10) (w.extractLsb' 20 2) (w.extractLsb' 17 3) (w.getLsbD 16) (fA w) (fD w))
  | 0x11#5 => some (.vst (w.extractLsb' 22 10) (w.extractLsb' 20 2) (w.extractLsb' 17 3) (w.getLsbD 16) (fA w) (fD w))
  | 0x12#5 => rawVmem w
  | 0x13#5 => rawAmo w
  | 0x14#5 => rawSync w
  | 0x15#5 => rawValu w
  | 0x16#5 => rawVfp w
  | 0x17#5 => rawVfma w
  | 0x18#5 => rawMask w
  | 0x19#5 => rawFpu w
  | 0x1A#5 => rawRow w
  | 0x1B#5 => rawEngine w
  | 0x1C#5 => rawSys w
  | 0x1D#5 => rawVxf w
  | _ => none

/-- The instruction whose fields a 16-bit word holds, before the checks of R158 (R151). -/
def raw16 (w : BitVec 16) : Option Instr :=
  match w.extractLsb' 15 1 ++ w.extractLsb' 1 4 with
  | 1#5 => some (.hMov (w.extractLsb' 10 5) (w.extractLsb' 5 5))
  | 2#5 => some (.hAdd (w.extractLsb' 10 5) (w.extractLsb' 5 5))
  | 3#5 => some (.hAddi5 (w.extractLsb' 10 5) (w.extractLsb' 5 5))
  | 4#5 => some (.hSub (w.extractLsb' 10 5) (w.extractLsb' 5 5))
  | 5#5 => some (.hAnd (w.extractLsb' 10 5) (w.extractLsb' 5 5))
  | 6#5 => some (.hOr (w.extractLsb' 10 5) (w.extractLsb' 5 5))
  | 7#5 => some (.hShli (w.extractLsb' 10 5) (w.extractLsb' 5 5))
  | 8#5 => some (.hLd64 (w.extractLsb' 10 5) (w.extractLsb' 5 5))
  | 9#5 => some (.hSt64 (w.extractLsb' 10 5) (w.extractLsb' 5 5))
  | 10#5 => some (.hBeqz (w.extractLsb' 10 5) (w.extractLsb' 5 5))
  | 11#5 => some (.hLt (w.extractLsb' 10 5) (w.extractLsb' 5 5))
  | 12#5 => some (.hLdi5 (w.extractLsb' 10 5) (w.extractLsb' 5 5))
  | 13#5 => some (.hVfaddF32 (w.getLsbD 14) (w.extractLsb' 10 4) (w.getLsbD 9) (w.extractLsb' 5 4))
  | 14#5 => (match w.extractLsb' 5 5 with
    | 0#5 => some .hNop
    | 1#5 => some .hYield
    | 2#5 => some .hRet
    | _ => none)
  | 22#5 => some (.hXor (w.extractLsb' 10 5) (w.extractLsb' 5 5))
  | 23#5 => some (.hShri (w.extractLsb' 10 5) (w.extractLsb' 5 5))
  | 24#5 => some (.hLd32 (w.extractLsb' 10 5) (w.extractLsb' 5 5))
  | 25#5 => some (.hSt32 (w.extractLsb' 10 5) (w.extractLsb' 5 5))
  | 26#5 => some (.hBnez (w.extractLsb' 10 5) (w.extractLsb' 5 5))
  | 29#5 => some (.hVfmulF32 (w.getLsbD 14) (w.extractLsb' 10 4) (w.getLsbD 9) (w.extractLsb' 5 4))
  | _ => none

/-! ## The encoder, from the same tables (R149, R151, R154-R157) -/

/-- The word of an instruction: 32 bits, or 16 bits in the low half. A device step has no word (0). -/
def Instr.word : Instr → BitVec 32
  | .aluAdd sz tb ta b a d => wa (0#4 ++ bit sz) 0#4 tb ta b a d 0x01#5
  | .aluSub sz tb ta b a d => wa (0#4 ++ bit sz) 1#4 tb ta b a d 0x01#5
  | .aluMul sz tb ta b a d => wa (0#4 ++ bit sz) 2#4 tb ta b a d 0x01#5
  | .aluMulh sz tb ta b a d => wa (0#4 ++ bit sz) 3#4 tb ta b a d 0x01#5
  | .aluMulhu sz tb ta b a d => wa (0#4 ++ bit sz) 4#4 tb ta b a d 0x01#5
  | .aluDiv sz tb ta b a d => wa (0#4 ++ bit sz) 5#4 tb ta b a d 0x01#5
  | .aluDivu sz tb ta b a d => wa (0#4 ++ bit sz) 6#4 tb ta b a d 0x01#5
  | .aluRem sz tb ta b a d => wa (0#4 ++ bit sz) 7#4 tb ta b a d 0x01#5
  | .aluRemu sz tb ta b a d => wa (0#4 ++ bit sz) 8#4 tb ta b a d 0x01#5
  | .aluAnd sz tb ta b a d => wa (0#4 ++ bit sz) 9#4 tb ta b a d 0x01#5
  | .aluOr sz tb ta b a d => wa (0#4 ++ bit sz) 10#4 tb ta b a d 0x01#5
  | .aluXor sz tb ta b a d => wa (0#4 ++ bit sz) 11#4 tb ta b a d 0x01#5
  | .aluAndn sz tb ta b a d => wa (0#4 ++ bit sz) 12#4 tb ta b a d 0x01#5
  | .aluShl sz tb ta b a d => wa (0#4 ++ bit sz) 13#4 tb ta b a d 0x01#5
  | .aluShr sz tb ta b a d => wa (0#4 ++ bit sz) 14#4 tb ta b a d 0x01#5
  | .aluSra sz tb ta b a d => wa (0#4 ++ bit sz) 15#4 tb ta b a d 0x01#5
  | .aluMin sz tb ta b a d => wa (8#4 ++ bit sz) 0#4 tb ta b a d 0x01#5
  | .aluMax sz tb ta b a d => wa (8#4 ++ bit sz) 1#4 tb ta b a d 0x01#5
  | .aluMinu sz tb ta b a d => wa (8#4 ++ bit sz) 2#4 tb ta b a d 0x01#5
  | .aluMaxu sz tb ta b a d => wa (8#4 ++ bit sz) 3#4 tb ta b a d 0x01#5
  | .aluRot sz tb ta b a d => wa (8#4 ++ bit sz) 4#4 tb ta b a d 0x01#5
  | .aluClz sz tb ta a d => wa (8#4 ++ bit sz) 5#4 tb ta 0#5 a d 0x01#5
  | .aluCtz sz tb ta a d => wa (8#4 ++ bit sz) 6#4 tb ta 0#5 a d 0x01#5
  | .aluPopc sz tb ta a d => wa (8#4 ++ bit sz) 7#4 tb ta 0#5 a d 0x01#5
  | .aluEq sz tb ta b a d => wa (8#4 ++ bit sz) 8#4 tb ta b a d 0x01#5
  | .aluNe sz tb ta b a d => wa (8#4 ++ bit sz) 9#4 tb ta b a d 0x01#5
  | .aluLt sz tb ta b a d => wa (8#4 ++ bit sz) 10#4 tb ta b a d 0x01#5
  | .aluLtu sz tb ta b a d => wa (8#4 ++ bit sz) 11#4 tb ta b a d 0x01#5
  | .aluLe sz tb ta b a d => wa (8#4 ++ bit sz) 12#4 tb ta b a d 0x01#5
  | .aluLeu sz tb ta b a d => wa (8#4 ++ bit sz) 13#4 tb ta b a d 0x01#5
  | .aluSel sz tb ta b a d => wa (8#4 ++ bit sz) 14#4 tb ta b a d 0x01#5
  | .aluExt sz tb ta b a d => wa (8#4 ++ bit sz) 15#4 tb ta b a d 0x01#5
  | .alui imm ta a d => wi imm ta a d 0x02#5
  | .andi imm ta a d => wi imm ta a d 0x03#5
  | .ori imm ta a d => wi imm ta a d 0x04#5
  | .xori imm ta a d => wi imm ta a d 0x05#5
  | .shiShl sz amt ta a d => wi (0#6 ++ bit sz ++ amt ++ 0#2) ta a d 0x06#5
  | .shiShr sz amt ta a d => wi (0#6 ++ bit sz ++ amt ++ 1#2) ta a d 0x06#5
  | .shiSra sz amt ta a d => wi (0#6 ++ bit sz ++ amt ++ 2#2) ta a d 0x06#5
  | .shiRot sz amt ta a d => wi (0#6 ++ bit sz ++ amt ++ 3#2) ta a d 0x06#5
  | .cmpiEq imm ta a d => wi (imm ++ 0#3) ta a d 0x07#5
  | .cmpiNe imm ta a d => wi (imm ++ 1#3) ta a d 0x07#5
  | .cmpiLt imm ta a d => wi (imm ++ 2#3) ta a d 0x07#5
  | .cmpiLtu imm ta a d => wi (imm ++ 3#3) ta a d 0x07#5
  | .cmpiLe imm ta a d => wi (imm ++ 4#3) ta a d 0x07#5
  | .cmpiLeu imm ta a d => wi (imm ++ 5#3) ta a d 0x07#5
  | .cmpiGt imm ta a d => wi (imm ++ 6#3) ta a d 0x07#5
  | .cmpiGtu imm ta a d => wi (imm ++ 7#3) ta a d 0x07#5
  | .ldi imm d => wl imm d 0x08#5
  | .ldx imm d => wl imm d 0x09#5
  | .extC0 imm e => wl imm (0#2 ++ e) 0x0A#5
  | .extC1 imm e => wl imm (1#2 ++ e) 0x0A#5
  | .extC2 imm e => wl imm (2#2 ++ e) 0x0A#5
  | .extX x e => wl (0#16 ++ x) (3#2 ++ e) 0x0A#5
  | .br imm d => wl imm d 0x0B#5
  | .bcEq imm ta b a => wc imm ta 0#3 b a 0x0C#5
  | .bcNe imm ta b a => wc imm ta 1#3 b a 0x0C#5
  | .bcLt imm ta b a => wc imm ta 2#3 b a 0x0C#5
  | .bcLtu imm ta b a => wc imm ta 3#3 b a 0x0C#5
  | .bcGe imm ta b a => wc imm ta 4#3 b a 0x0C#5
  | .bcGeu imm ta b a => wc imm ta 5#3 b a 0x0C#5
  | .jmp imm ta a d => wi (imm ++ 0#1) ta a d 0x0D#5
  | .jmpRet imm ta a d => wi (imm ++ 1#1) ta a d 0x0D#5
  | .ld off mo sz ta a d => wm off mo sz ta a d 0x0E#5
  | .st off mo sz ta a d => wm off mo sz ta a d 0x0F#5
  | .vld off mo sz ta a d => wm off mo sz ta a d 0x10#5
  | .vst off mo sz ta a d => wm off mo sz ta a d 0x11#5
  | .vmemGather ty t mk b a d => wv ty 0#4 t mk b a d 0x12#5
  | .vmemScatter ty t mk b a d => wv ty 1#4 t mk b a d 0x12#5
  | .vmemLds ty t mk b a d => wv ty 2#4 t mk b a d 0x12#5
  | .vmemSts ty t mk b a d => wv ty 3#4 t mk b a d 0x12#5
  | .vmemScatredAdd ty t mk b a d => wv ty 8#4 t mk b a d 0x12#5
  | .vmemScatredFadd ty t mk b a d => wv ty 9#4 t mk b a d 0x12#5
  | .vmemScatredMin ty t mk b a d => wv ty 10#4 t mk b a d 0x12#5
  | .vmemScatredMax ty t mk b a d => wv ty 11#4 t mk b a d 0x12#5
  | .vmemScatredMinu ty t mk b a d => wv ty 12#4 t mk b a d 0x12#5
  | .vmemScatredMaxu ty t mk b a d => wv ty 13#4 t mk b a d 0x12#5
  | .vmemScatredOr ty t mk b a d => wv ty 14#4 t mk b a d 0x12#5
  | .amoAdd post scope sz tb ta b a d => wa (0#1 ++ bit post ++ scope ++ bit sz) 0#4 tb ta b a d 0x13#5
  | .amoAnd post scope sz tb ta b a d => wa (0#1 ++ bit post ++ scope ++ bit sz) 1#4 tb ta b a d 0x13#5
  | .amoOr post scope sz tb ta b a d => wa (0#1 ++ bit post ++ scope ++ bit sz) 2#4 tb ta b a d 0x13#5
  | .amoXor post scope sz tb ta b a d => wa (0#1 ++ bit post ++ scope ++ bit sz) 3#4 tb ta b a d 0x13#5
  | .amoMin post scope sz tb ta b a d => wa (0#1 ++ bit post ++ scope ++ bit sz) 4#4 tb ta b a d 0x13#5
  | .amoMax post scope sz tb ta b a d => wa (0#1 ++ bit post ++ scope ++ bit sz) 5#4 tb ta b a d 0x13#5
  | .amoMinu post scope sz tb ta b a d => wa (0#1 ++ bit post ++ scope ++ bit sz) 6#4 tb ta b a d 0x13#5
  | .amoMaxu post scope sz tb ta b a d => wa (0#1 ++ bit post ++ scope ++ bit sz) 7#4 tb ta b a d 0x13#5
  | .amoSwap post scope sz tb ta b a d => wa (0#1 ++ bit post ++ scope ++ bit sz) 8#4 tb ta b a d 0x13#5
  | .amoCas post scope sz tb ta b a d => wa (0#1 ++ bit post ++ scope ++ bit sz) 9#4 tb ta b a d 0x13#5
  | .amoDecFire scope tb ta a d => wa (0#2 ++ scope ++ 1#1) 10#4 tb ta 0#5 a d 0x13#5
  | .amoFadd post scope sz tb ta b a d => wa (0#1 ++ bit post ++ scope ++ bit sz) 11#4 tb ta b a d 0x13#5
  | .syncFenceDie tb ta => wa 0#5 0#4 tb ta 0#5 0#5 0#5 0x14#5
  | .syncFenceDev tb ta => wa 0#5 1#4 tb ta 0#5 0#5 0#5 0x14#5
  | .syncFenceSys tb ta => wa 0#5 2#4 tb ta 0#5 0#5 0#5 0x14#5
  | .syncFenceCp tb ta => wa 0#5 3#4 tb ta 0#5 0#5 0#5 0x14#5
  | .syncFenceU tb ta => wa 0#5 4#4 tb ta 0#5 0#5 0#5 0x14#5
  | .syncRel tb ta b a => wa 0#5 5#4 tb ta b a 0#5 0x14#5
  | .syncAcq tb ta a d => wa 0#5 6#4 tb ta 0#5 a d 0x14#5
  | .syncClnRange tb ta b a => wa 0#5 7#4 tb ta b a 0#5 0x14#5
  | .syncInvRange tb ta b a => wa 0#5 8#4 tb ta b a 0#5 0x14#5
  | .syncFlnRange tb ta b a => wa 0#5 9#4 tb ta b a 0#5 0x14#5
  | .syncFeClr tb ta b a => wa 0#5 10#4 tb ta b a 0#5 0x14#5
  | .syncFeSet tb ta b a => wa 0#5 11#4 tb ta b a 0#5 0x14#5
  | .valuAdd ty t mk b a d => wv ty 0#4 t mk b a d 0x15#5
  | .valuSub ty t mk b a d => wv ty 1#4 t mk b a d 0x15#5
  | .valuMul ty t mk b a d => wv ty 2#4 t mk b a d 0x15#5
  | .valuMulh ty t mk b a d => wv ty 3#4 t mk b a d 0x15#5
  | .valuAnd ty t mk b a d => wv ty 4#4 t mk b a d 0x15#5
  | .valuOr ty t mk b a d => wv ty 5#4 t mk b a d 0x15#5
  | .valuXor ty t mk b a d => wv ty 6#4 t mk b a d 0x15#5
  | .valuShl ty t mk b a d => wv ty 7#4 t mk b a d 0x15#5
  | .valuShr ty t mk b a d => wv ty 8#4 t mk b a d 0x15#5
  | .valuSra ty t mk b a d => wv ty 9#4 t mk b a d 0x15#5
  | .valuMin ty t mk b a d => wv ty 10#4 t mk b a d 0x15#5
  | .valuMax ty t mk b a d => wv ty 11#4 t mk b a d 0x15#5
  | .valuMinu ty t mk b a d => wv ty 12#4 t mk b a d 0x15#5
  | .valuMaxu ty t mk b a d => wv ty 13#4 t mk b a d 0x15#5
  | .valuCmp ty t mk b a cond m => wv ty 14#4 t mk b a (cond ++ m) 0x15#5
  | .valuSel ty t mk b a d => wv ty 15#4 t mk b a d 0x15#5
  | .vfpAdd ty t mk b a d => wv ty 0#4 t mk b a d 0x16#5
  | .vfpSub ty t mk b a d => wv ty 1#4 t mk b a d 0x16#5
  | .vfpMul ty t mk b a d => wv ty 2#4 t mk b a d 0x16#5
  | .vfpDiv ty t mk b a d => wv ty 3#4 t mk b a d 0x16#5
  | .vfpMin ty t mk b a d => wv ty 4#4 t mk b a d 0x16#5
  | .vfpMax ty t mk b a d => wv ty 5#4 t mk b a d 0x16#5
  | .vfpRnd ty t mk a d => wv ty 6#4 t mk 0#5 a d 0x16#5
  | .vfpExp2f ty t mk a d => wv ty 7#4 t mk 0#5 a d 0x16#5
  | .vfpScale ty t mk b a d => wv ty 8#4 t mk b a d 0x16#5
  | .vfpGetexp ty t mk a d => wv ty 9#4 t mk 0#5 a d 0x16#5
  | .vfpRcp ty t mk a d => wv ty 10#4 t mk 0#5 a d 0x16#5
  | .vfpRsq ty t mk a d => wv ty 11#4 t mk 0#5 a d 0x16#5
  | .vfpSqrt ty t mk a d => wv ty 12#4 t mk 0#5 a d 0x16#5
  | .vfpCvt ty t mk sty a d => wv ty 13#4 t mk (0#2 ++ sty) a d 0x16#5
  | .vfpCmp ty t mk b a cond m => wv ty 14#4 t mk b a (cond ++ m) 0x16#5
  | .vfpCls ty t mk a d => wv ty 15#4 t mk 0#5 a d 0x16#5
  | .vfmaFma ty mk c b a d => wfm ty mk 0#2 c b a d 0x17#5
  | .vfmaFms ty mk c b a d => wfm ty mk 1#2 c b a d 0x17#5
  | .vfmaFnma ty mk c b a d => wfm ty mk 2#2 c b a d 0x17#5
  | .vfmaFnms ty mk c b a d => wfm ty mk 3#2 c b a d 0x17#5
  | .maskAnd tb ta b a d => wa 0#5 0#4 tb ta b a d 0x18#5
  | .maskOr tb ta b a d => wa 0#5 1#4 tb ta b a d 0x18#5
  | .maskXor tb ta b a d => wa 0#5 2#4 tb ta b a d 0x18#5
  | .maskAndn tb ta b a d => wa 0#5 3#4 tb ta b a d 0x18#5
  | .maskNot tb ta a d => wa 0#5 4#4 tb ta 0#5 a d 0x18#5
  | .maskPop tb ta a d => wa 0#5 5#4 tb ta 0#5 a d 0x18#5
  | .maskFirst tb ta a d => wa 0#5 6#4 tb ta 0#5 a d 0x18#5
  | .maskFromx tb ta a d => wa 0#5 7#4 tb ta 0#5 a d 0x18#5
  | .maskTox tb ta a d => wa 0#5 8#4 tb ta 0#5 a d 0x18#5
  | .maskAll tb ta d => wa 0#5 9#4 tb ta 0#5 0#5 d 0x18#5
  | .maskLanes tb ta a d => wa 0#5 10#4 tb ta 0#5 a d 0x18#5
  | .fpuAdd fmt tb ta b a d => wa (0#4 ++ bit fmt) 0#4 tb ta b a d 0x19#5
  | .fpuSub fmt tb ta b a d => wa (0#4 ++ bit fmt) 1#4 tb ta b a d 0x19#5
  | .fpuMul fmt tb ta b a d => wa (0#4 ++ bit fmt) 2#4 tb ta b a d 0x19#5
  | .fpuDiv fmt tb ta b a d => wa (0#4 ++ bit fmt) 3#4 tb ta b a d 0x19#5
  | .fpuSqrt fmt tb ta a d => wa (0#4 ++ bit fmt) 4#4 tb ta 0#5 a d 0x19#5
  | .fpuMin fmt tb ta b a d => wa (0#4 ++ bit fmt) 5#4 tb ta b a d 0x19#5
  | .fpuMax fmt tb ta b a d => wa (0#4 ++ bit fmt) 6#4 tb ta b a d 0x19#5
  | .fpuFma fmt tb ta b a d => wa (0#4 ++ bit fmt) 7#4 tb ta b a d 0x19#5
  | .fpuRnd fmt tb ta a d => wa (0#4 ++ bit fmt) 8#4 tb ta 0#5 a d 0x19#5
  | .fpuCvt conv fmt tb ta a d => wa (0#1 ++ conv ++ bit fmt) 9#4 tb ta 0#5 a d 0x19#5
  | .fpuEq fmt tb ta b a d => wa (0#4 ++ bit fmt) 10#4 tb ta b a d 0x19#5
  | .fpuLt fmt tb ta b a d => wa (0#4 ++ bit fmt) 11#4 tb ta b a d 0x19#5
  | .fpuLe fmt tb ta b a d => wa (0#4 ++ bit fmt) 12#4 tb ta b a d 0x19#5
  | .fpuCls fmt tb ta a d => wa (0#4 ++ bit fmt) 13#4 tb ta 0#5 a d 0x19#5
  | .fpuSgnj fmt tb ta b a d => wa (0#4 ++ bit fmt) 14#4 tb ta b a d 0x19#5
  | .fpuAbs fmt tb ta a d => wa (0#4 ++ bit fmt) 15#4 tb ta 0#5 a d 0x19#5
  | .rowYield tb ta => wa 0#5 0#4 tb ta 0#5 0#5 0#5 0x1A#5
  | .rowWait tb ta a => wa 0#5 1#4 tb ta 0#5 a 0#5 0x1A#5
  | .rowStop tb ta => wa 0#5 2#4 tb ta 0#5 0#5 0#5 0x1A#5
  | .rowRowid tb ta d => wa 0#5 3#4 tb ta 0#5 0#5 d 0x1A#5
  | .rowSend tb ta a d => wa 0#5 4#4 tb ta 0#5 a d 0x1A#5
  | .rowSpawn tb ta b a d => wa 0#5 5#4 tb ta b a d 0x1A#5
  | .rowDone tb ta => wa 0#5 6#4 tb ta 0#5 0#5 0#5 0x1A#5
  | .rowBudget tb ta a d => wa 0#5 7#4 tb ta 0#5 a d 0x1A#5
  | .rowBarInit tb ta b a => wa 16#5 0#4 tb ta b a 0#5 0x1A#5
  | .rowBarArrive tb ta a d => wa 16#5 1#4 tb ta 0#5 a d 0x1A#5
  | .rowBarWait tb ta b a => wa 16#5 2#4 tb ta b a 0#5 0x1A#5
  | .rowBarSync tb ta a d => wa 16#5 3#4 tb ta 0#5 a d 0x1A#5
  | .rowDqPush tb ta b a d => wa 16#5 4#4 tb ta b a d 0x1A#5
  | .rowDqPop tb ta dp => wa 16#5 5#4 tb ta 0#5 0#5 (dp ++ 0#1) 0x1A#5
  | .rowDqSplit tb ta b a d => wa 16#5 6#4 tb ta b a d 0x1A#5
  | .rowDqSteal tb ta dp => wa 16#5 7#4 tb ta 0#5 0#5 (dp ++ 0#1) 0x1A#5
  | .rowDqLen tb ta d => wa 16#5 8#4 tb ta 0#5 0#5 d 0x1A#5
  | .engineCpLin tb ta b a d => wa 0#5 0#4 tb ta b a d 0x1B#5
  | .engineCpDist e tb ta b a d => wa (0#2 ++ e) 1#4 tb ta b a d 0x1B#5
  | .engineCpStat tb ta d => wa 0#5 2#4 tb ta 0#5 0#5 d 0x1B#5
  | .engineMxGang tb ta a d => wa 0#5 3#4 tb ta 0#5 a d 0x1B#5
  | .engineMxStat tb ta d => wa 0#5 4#4 tb ta 0#5 0#5 d 0x1B#5
  | .engineMxAbort tb ta d => wa 0#5 5#4 tb ta 0#5 0#5 d 0x1B#5
  | .engineEdgeRun ta a d => wa 0#5 6#4 false ta 0#5 a d 0x1B#5
  | .engineEdgeRet ta => wa 0#5 7#4 false ta 0#5 0#5 0#5 0x1B#5
  | .engineEdgeStat ta dp => wa 0#5 8#4 false ta 0#5 0#5 (dp ++ 0#1) 0x1B#5
  | .sysNop => ws 0#4 0#12 0#5 0#5 0x1C#5
  | .sysTrap code => ws 0#4 code 1#5 0#5 0x1C#5
  | .sysBkpt code => ws 0#4 code 2#5 0#5 0x1C#5
  | .sysUret => ws 0#4 0#12 3#5 0#5 0x1C#5
  | .sysHalt => ws 0#4 0#12 4#5 0#5 0x1C#5
  | .sysSysr num d => ws 0#4 num 5#5 d 0x1C#5
  | .sysSysw num d => ws 0#4 num 6#5 d 0x1C#5
  | .sysShoot dp => ws 0#4 0#12 7#5 (dp ++ 0#1) 0x1C#5
  | .sysGang d => ws 0#4 0#12 8#5 d 0x1C#5
  | .sysSwap d => ws 0#4 0#12 9#5 d 0x1C#5
  | .vxfBcast ty t mk a d => wv ty 0#4 t mk 0#5 a d 0x1D#5
  | .vxfExt ty t b a d => wv ty 1#4 t 0#3 b a d 0x1D#5
  | .vxfIns ty t b a d => wv ty 2#4 t 0#3 b a d 0x1D#5
  | .vxfPerm ty t mk b a d => wv ty 3#4 t mk b a d 0x1D#5
  | .vxfRedAdd ty t mk a d => wv ty 4#4 t mk 0#5 a d 0x1D#5
  | .vxfRedMin ty t mk a d => wv ty 5#4 t mk 0#5 a d 0x1D#5
  | .vxfRedMax ty t mk a d => wv ty 6#4 t mk 0#5 a d 0x1D#5
  | .vxfIota ty t mk d => wv ty 7#4 t mk 0#5 0#5 d 0x1D#5
  | .vxfAbs ty t mk a d => wv ty 8#4 t mk 0#5 a d 0x1D#5
  | .vxfNeg ty t mk a d => wv ty 9#4 t mk 0#5 a d 0x1D#5
  | .vxfSgnj ty t mk b a d => wv ty 10#4 t mk b a d 0x1D#5
  | .vxfShfdn ty t mk b a d => wv ty 11#4 t mk b a d 0x1D#5
  | .hMov a d => (h16 false a d 1#4).setWidth 32
  | .hAdd a d => (h16 false a d 2#4).setWidth 32
  | .hAddi5 imm d => (h16 false imm d 3#4).setWidth 32
  | .hSub a d => (h16 false a d 4#4).setWidth 32
  | .hAnd a d => (h16 false a d 5#4).setWidth 32
  | .hOr a d => (h16 false a d 6#4).setWidth 32
  | .hXor a d => (h16 true a d 6#4).setWidth 32
  | .hShli imm d => (h16 false imm d 7#4).setWidth 32
  | .hShri imm d => (h16 true imm d 7#4).setWidth 32
  | .hLd64 a d => (h16 false a d 8#4).setWidth 32
  | .hLd32 a d => (h16 true a d 8#4).setWidth 32
  | .hSt64 a d => (h16 false a d 9#4).setWidth 32
  | .hSt32 a d => (h16 true a d 9#4).setWidth 32
  | .hBeqz imm d => (h16 false imm d 10#4).setWidth 32
  | .hBnez imm d => (h16 true imm d 10#4).setWidth 32
  | .hLt a d => (h16 false a d 11#4).setWidth 32
  | .hLdi5 imm d => (h16 false imm d 12#4).setWidth 32
  | .hVfaddF32 ign14 a ign9 d => (h16 false (bit ign14 ++ a) (bit ign9 ++ d) 13#4).setWidth 32
  | .hVfmulF32 ign14 a ign9 d => (h16 true (bit ign14 ++ a) (bit ign9 ++ d) 13#4).setWidth 32
  | .hNop => (h16 false 0#5 0#5 14#4).setWidth 32
  | .hYield => (h16 false 0#5 1#5 14#4).setWidth 32
  | .hRet => (h16 false 0#5 2#5 14#4).setWidth 32
  | .ctlNone _ _ _ => 0
  | .kindle _ => 0
  | .stop _ => 0
  | .redirect _ => 0
  | .stepOne _ => 0
  | .resume _ => 0
  | .skip _ => 0
  | .outsideAccess _ _ _ => 0
  | .storePerform _ => 0
  | .fill _ _ => 0
  | .remoteFePerform _ => 0
  | .atomicPerform _ => 0
  | .dateBroadcast _ _ => 0
  | .acquirePassOwn _ _ => 0
  | .acquirePassOther _ _ => 0
  | .frostSweep _ => 0
  | .inboxEntry _ => 0
  | .stokerBind _ _ => 0
  | .runQueueEntry _ _ => 0
  | .dispatch _ => 0
  | .hostQueueWrite _ => 0
  | .selection _ _ => 0
  | .openingComplete _ _ => 0
  | .closingComplete _ _ => 0
  | .quantumExpiry _ _ => 0
  | .budget _ _ _ => 0
  | .upcallDelivery _ => 0
  | .flueRequest _ _ => 0
  | .flueRecord _ _ => 0
  | .flueres _ => 0
  | .flueResolution _ _ => 0
  | .halt _ => 0
  | .haltReport _ => 0
  | .gangRelease _ => 0
  | .swapExchange _ => 0
  | .arrivalLog _ => 0
  | .logReplay _ => 0
  | .copyPiece _ _ _ => 0
  | .distributorBlock _ _ _ => 0
  | .gangBarrier _ => 0
  | .prefetch _ => 0
  | .permitGrant _ => 0
  | .loadB _ => 0
  | .mac _ => 0
  | .rotate _ => 0
  | .drain _ => 0
  | .group _ => 0
  | .endStep _ => 0
  | .ringWatchdog _ _ => 0
  | .edgeRunStart _ => 0
  | .chunkTake _ => 0
  | .batch _ _ => 0
  | .batchApply _ => 0
  | .levelEnd _ => 0
  | .midLevelSwitch _ => 0
  | .barrierArrival _ => 0
  | .syClk _ _ _ => 0
  | .clockTransition _ => 0
  | .syCbudget _ _ _ => 0
  | .refill _ => 0
  | .damperWindow _ => 0
  | .sySlope _ _ => 0
  | .capMessage _ _ => 0
  | .leaseExpiry => 0
  | .thawSend _ _ => 0
  | .thawMessage _ => 0
  | .thawHoldEnd => 0
  | .tail _ _ => 0
  | .notifyWordStore _ _ => 0
  | .inboxControlWrite _ _ _ => 0
  | .admission _ _ => 0
  | .hostWrite _ _ _ _ => 0
  | .hostRead _ _ _ _ => 0
  | .cxlSnoop _ _ _ => 0
  | .directoryMerge _ _ => 0
  | .peerAccess _ _ _ => 0
  | .routeFailure _ => 0
  | .partFailure _ _ => 0
  | .dieFailure _ => 0
  | .powerOn => 0
  | .perst => 0
  | .syReset _ _ => 0
  | .startStage _ => 0
  | .stageTimeLimit => 0
  | .scrub _ _ _ => 0
  | .sySerr _ _ _ => 0
  | .dequeClear _ => 0
  | .bstateWrite _ _ _ => 0
  | .syClbind _ _ _ => 0
  | .sysregWrite _ _ _ _ => 0
  | .illegalInstruction _ => 0
  | .softError _ _ => 0
  | .temperatureSensor _ _ => 0
  | .backInvalidateCompletion _ _ => 0
  | .performanceAtTarget _ => 0

/-! ## Decoding bytes (R147, R158) -/

/-- Little-endian bytes of a number (R3). -/
def leBytes : Nat → Nat → List Byte
  | 0, _ => []
  | n + 1, v => BitVec.ofNat 8 v :: leBytes n (v / 256)

/-- The number that little-endian bytes hold (R3). -/
def leNat : List Byte → Nat
  | [] => 0
  | b :: bs => b.toNat + 256 * leNat bs

/-- The instruction that a 32-bit word defines, if any (R158). -/
def decode32 (w : BitVec 32) : Option Instr :=
  (raw32 w).filter fun i => i.wf && (i.word == w)

/-- The instruction that a 16-bit word defines, if any (R158). -/
def decode16 (h : BitVec 16) : Option Instr :=
  (raw16 h).filter fun i => i.wf && (i.word == h.setWidth 32)

/-- The instruction at the head of a list of bytes and the bytes after it (R147); none for a word that defines no
instruction (R158) and where the bytes end inside it. -/
def decode : List Byte → Option (Instr × List Byte)
  | b0 :: b1 :: rest =>
    if b0.getLsbD 0 then
      match rest with
      | b2 :: b3 :: tl => (decode32 (BitVec.ofNat 32 (leNat [b0, b1, b2, b3]))).map (·, tl)
      | _ => none
    else (decode16 (BitVec.ofNat 16 (leNat [b0, b1]))).map (·, rest)
  | _ => none

/-- The instruction has an instruction word; the steps of the device have none. -/
def Instr.hasWord (i : Instr) : Bool := i.word != 0

/-- The length of an instruction in bytes, from bit 0 of its word (R147). -/
def Instr.size (i : Instr) : Nat := if i.word.getLsbD 0 then 4 else 2

/-- The bytes of an instruction (R3, R147). -/
def encode (i : Instr) : List Byte := leBytes i.size i.word.toNat

/-- What the decoder reads from an instruction whose bits are `w`; the bits above `nbits` are 0. -/
def decodeTableWord (nbits w : Nat) : Option Instr := (decode (leBytes 4 (w % 2 ^ nbits))).map (·.1)

end Sys2Proof
end

