-- ==== Sys2Proof/Machine/Flags.lean ====
section
/-!
DEFINITION. Numbers: the formats of R179, one rounding (R180), the sticky flags (R182), NaNs (R183), and every scalar
computation on them that the instructions, the matrix slice and the reduction caches share (R205-R208, R220-R224).
An exact finite value is `(-1)^s x m x 2^e`; every operation computes exactly and rounds once.
-/

namespace Sys2Proof.Machine

/-- The sticky flags NV DZ OF UF NX, bits [4:0] of FLAGS (R182). -/
abbrev FFlags := BitVec 5

/-- NV (R182). -/
def flNV : FFlags := 16#5
/-- DZ (R182). -/
def flDZ : FFlags := 8#5
/-- OF (R182). -/
def flOF : FFlags := 4#5
/-- UF (R182). -/
def flUF : FFlags := 2#5
/-- NX (R182). -/
def flNX : FFlags := 1#5

/-- A result's bits and the flags raised with it. -/
abbrev FRes := Nat × FFlags

/-- Rounding directions, FLAGS.RM codes 0 RNE, 1 RZ, 2 RU, 3 RD (R45, R180). -/
inductive RMode where
  | rne | rz | ru | rd
  deriving DecidableEq, Repr

/-- A number format (R179): `maxCode` is the code (exponent and fraction together) of its largest finite number. -/
structure Fmt where
  /-- Width in bits. -/
  w : Nat
  /-- Fraction bits. -/
  fb : Nat
  /-- Exponent bias. -/
  bias : Nat
  /-- Exponent and fraction bits of the largest finite number. -/
  maxCode : Nat
  deriving DecidableEq, Repr

/-- An IEEE 754 binary interchange format (R179). -/
def ieee (w fb bias : Nat) : Fmt := ⟨w, fb, bias, (2 ^ (w - 1 - fb) - 1) * 2 ^ fb - 1⟩

/-- FP64. -/
def f64 : Fmt := ieee 64 52 1023
/-- FP32. -/
def f32 : Fmt := ieee 32 23 127
/-- FP16. -/
def f16 : Fmt := ieee 16 10 15
/-- BF16. -/
def bf16 : Fmt := ieee 16 7 127
/-- E5M2. -/
def e5m2 : Fmt := ieee 8 2 15
/-- E4M3: exponent field 15 with fraction 0-6 is finite, and there is no infinity (R179). -/
def e4m3 : Fmt := ⟨8, 3, 7, 126⟩
/-- The element of a CX8 block (E5M3): every code is finite (R179, R187). -/
def e5m3 : Fmt := ⟨9, 3, 15, 255⟩

/-- What a number's bits mean. -/
inductive FVal where
  | nan (signalling : Bool)
  | inf (s : Bool)
  | num (s : Bool) (m : Nat) (e : Int)
  deriving DecidableEq, Repr

/-- The sign bit of a value of format `f`. -/
def fsign (f : Fmt) (x : Nat) : Bool := x.testBit (f.w - 1)

/-- The bits below the sign. -/
def fmag (f : Fmt) (x : Nat) : Nat := x % 2 ^ (f.w - 1)

/-- The value of a finite code. -/
def codeVal (f : Fmt) (s : Bool) (c : Nat) : FVal :=
  if c / 2 ^ f.fb = 0 then .num s c (1 - f.bias - f.fb)
  else .num s (c % 2 ^ f.fb + 2 ^ f.fb) (Int.ofNat (c / 2 ^ f.fb) - f.bias - f.fb)

/-- Decode a number (R179, R181). -/
def unpack (f : Fmt) (x : Nat) : FVal :=
  let c := fmag f x
  if c ≤ f.maxCode then codeVal f (fsign f x) c
  else if f.w = 8 && f.fb = 3 then .nan false
  else if c % 2 ^ f.fb = 0 then .inf (fsign f x)
  else .nan (!c.testBit (f.fb - 1))

/-- The sign bit in place. -/
def signBit (f : Fmt) (s : Bool) : Nat := if s then 2 ^ (f.w - 1) else 0

/-- The canonical quiet NaN (R183). -/
def cnan (f : Fmt) : Nat :=
  if f.w = 8 && f.fb = 3 then 0x7F else f.maxCode + 1 + 2 ^ (f.fb - 1)

/-- Infinity of a sign. -/
def infBits (f : Fmt) (s : Bool) : Nat := signBit f s + f.maxCode + 1

/-- The largest finite number of a sign. -/
def maxBits (f : Fmt) (s : Bool) : Nat := signBit f s + f.maxCode

/-- Rounding up in magnitude: `r` of `2^n` parts remain, `st` says that the exact value lies above them,
`odd` that the kept part is odd (R180). -/
def roundUp (md : RMode) (s odd : Bool) (r n : Nat) (st : Bool) : Bool :=
  match md with
  | .rz => false
  | .ru => !s && (decide (r ≠ 0) || st)
  | .rd => s && (decide (r ≠ 0) || st)
  | .rne => decide (2 * r > 2 ^ n) || (decide (2 * r = 2 ^ n) && (st || odd))

/-- `m x 2^e` (plus a little when `st`) cut to a multiple of `2^l`: the multiple after rounding, and whether it is
inexact. -/
def roundAt (md : RMode) (s : Bool) (m : Nat) (e : Int) (st : Bool) (l : Int) : Nat × Bool :=
  if l ≤ e then
    let q := m * 2 ^ (e - l).toNat
    (q + (roundUp md s (q % 2 = 1) 0 1 st).toNat, st)
  else
    let n := (l - e).toNat
    let q := m / 2 ^ n
    let r := m % 2 ^ n
    (q + (roundUp md s (q % 2 = 1) r n st).toNat, decide (r ≠ 0) || st)

/-- The code, unbounded above, of `q x 2^l`, where `q` has at most one bit more than the format's precision. -/
def codeOf (f : Fmt) (q : Nat) (l : Int) : Nat :=
  if q < 2 ^ f.fb then q else (l + f.fb + f.bias - 1).toNat * 2 ^ f.fb + q

/-- Round a nonzero exact value to a code and the flags OF, UF, NX; the code may exceed `maxCode` (R180, R182).
Tininess is judged after rounding with an unbounded exponent range. DEDUCED, log entry 42. -/
def roundCode (f : Fmt) (md : RMode) (s : Bool) (m : Nat) (e : Int) (st : Bool) : Nat × FFlags :=
  let top : Int := e + (Nat.log2 m : Nat)
  let emin : Int := 1 - f.bias
  let l := if top < emin then emin - f.fb else top - f.fb
  let (q, nx) := roundAt md s m e st l
  let tiny := decide (top < emin) &&
    !(decide (top = emin - 1) && decide ((roundAt md s m e st (top - f.fb)).1 = 2 ^ (f.fb + 1)))
  let c := codeOf f q l
  let ovf := decide (c > f.maxCode)
  (c, (if ovf then flOF else 0) ||| (if tiny && nx then flUF else 0) ||| (if nx || ovf then flNX else 0))

/-- `round(x, fmt, mode)` of an exact value that is not a NaN (R162, R180); an exact zero keeps its sign. -/
def roundNum (f : Fmt) (md : RMode) (s : Bool) (m : Nat) (e : Int) (st : Bool) : FRes :=
  if m = 0 then (signBit f s, 0)
  else
    let (c, fl) := roundCode f md s m e st
    if c > f.maxCode then
      let toInf := match md with
        | .rne => true
        | .rz => false
        | .ru => !s
        | .rd => s
      (if toInf then infBits f s else maxBits f s, fl)
    else (signBit f s + c, fl)

/-- The canonical NaN with NV when `nv` (R183). -/
def nanRes (f : Fmt) (nv : Bool) : FRes := (cnan f, if nv then flNV else 0)

/-- A signalling NaN. -/
def FVal.isS : FVal → Bool
  | .nan b => b
  | _ => false

/-- A NaN. -/
def FVal.isNaN : FVal → Bool
  | .nan _ => true
  | _ => false

/-- The sign of a value that is not a NaN. -/
def FVal.neg : FVal → FVal
  | .nan b => .nan b
  | .inf s => .inf (!s)
  | .num s m e => .num (!s) m e

/-- Round a value that is not a NaN; a NaN becomes canonical, with NV when signalling (R183). -/
def roundVal (f : Fmt) (md : RMode) : FVal → FRes
  | .nan sg => nanRes f sg
  | .inf s => (infBits f s, 0)
  | .num s m e => roundNum f md s m e false

/-- The signed integer `v` at exponent `e`, for a nonzero or same-signed sum. -/
def ofInt (v : Int) (e : Int) : FVal := .num (decide (v < 0)) v.natAbs e

/-- Integer significand of a finite value at exponent `l ≤ e`. -/
def atExp (s : Bool) (m : Nat) (e l : Int) : Int :=
  let v : Int := Int.ofNat (m * 2 ^ (e - l).toNat)
  if s then -v else v

/-- The exact sum of two finite values; an exact zero of opposite signs is +0, or -0 under RD (R180). -/
def sumNum (md : RMode) (s1 : Bool) (m1 : Nat) (e1 : Int) (s2 : Bool) (m2 : Nat) (e2 : Int) : FVal :=
  let l := if e1 ≤ e2 then e1 else e2
  let v := atExp s1 m1 e1 l + atExp s2 m2 e2 l
  if v = 0 then .num (if s1 = s2 then s1 else decide (md = .rd)) 0 0 else ofInt v l

/-- A + B exactly; the flag is an invalid sum of infinities (R182). -/
def sumVal (md : RMode) : FVal → FVal → FVal × Bool
  | .nan _, _ => (.nan false, false)
  | _, .nan _ => (.nan false, false)
  | .inf s1, .inf s2 => if s1 = s2 then (.inf s1, false) else (.nan false, true)
  | .inf s, .num _ _ _ => (.inf s, false)
  | .num _ _ _, .inf s => (.inf s, false)
  | .num s1 m1 e1, .num s2 m2 e2 => (sumNum md s1 m1 e1 s2 m2 e2, false)

/-- A x B exactly; the flag is 0 x infinity (R182). -/
def mulVal : FVal → FVal → FVal × Bool
  | .nan _, _ => (.nan false, false)
  | _, .nan _ => (.nan false, false)
  | .inf s1, .inf s2 => (.inf (s1 != s2), false)
  | .inf s1, .num s2 m _ => if m = 0 then (.nan false, true) else (.inf (s1 != s2), false)
  | .num s1 m _, .inf s2 => if m = 0 then (.nan false, true) else (.inf (s1 != s2), false)
  | .num s1 m1 e1, .num s2 m2 e2 => (.num (s1 != s2) (m1 * m2) (e1 + e2), false)

/-- Flags of an operation whose inputs hold a signalling NaN or that is invalid. -/
def withNV (b : Bool) (r : FRes) : FRes := (r.1, if b then r.2 ||| flNV else r.2)

/-- round(A + B) (R206, R220). -/
def fadd (f : Fmt) (md : RMode) (a b : Nat) : FRes :=
  let x := unpack f a
  let y := unpack f b
  let (v, inv) := sumVal md x y
  withNV (x.isS || y.isS || inv) (roundVal f md v)

/-- round(A - B) (R206, R220). -/
def fsub (f : Fmt) (md : RMode) (a b : Nat) : FRes :=
  let x := unpack f a
  let y := unpack f b
  let (v, inv) := sumVal md x y.neg
  withNV (x.isS || y.isS || inv) (roundVal f md v)

/-- round(A x B) (R206, R220). -/
def fmul (f : Fmt) (md : RMode) (a b : Nat) : FRes :=
  let x := unpack f a
  let y := unpack f b
  let (v, inv) := mulVal x y
  withNV (x.isS || y.isS || inv) (roundVal f md v)

/-- Extra bits kept in a quotient or root before the one rounding. -/
def guardBits : Nat := 128

/-- round(A / B) (R206, R220). -/
def fdiv (f : Fmt) (md : RMode) (a b : Nat) : FRes :=
  let x := unpack f a
  let y := unpack f b
  match x, y with
  | .nan s1, .nan s2 => nanRes f (s1 || s2)
  | .nan s1, _ => nanRes f s1
  | _, .nan s2 => nanRes f s2
  | .inf _, .inf _ => nanRes f true
  | .inf s1, .num s2 _ _ => (infBits f (s1 != s2), 0)
  | .num s1 _ _, .inf s2 => (signBit f (s1 != s2), 0)
  | .num s1 m1 e1, .num s2 m2 e2 =>
    let s := s1 != s2
    if m2 = 0 then (if m1 = 0 then nanRes f true else (infBits f s, flDZ))
    else
      let n := m1 * 2 ^ guardBits
      roundNum f md s (n / m2) (e1 - e2 - guardBits) (decide (n % m2 ≠ 0))

/-- Bits `i`, `i-1`, ... 0 of the integer square root, above the bits already found. -/
def isqrtFrom (x : Nat) : Nat → Nat → Nat
  | 0, r => if (r + 1) * (r + 1) ≤ x then r + 1 else r
  | i + 1, r => if (r + 2 ^ (i + 1)) * (r + 2 ^ (i + 1)) ≤ x then isqrtFrom x i (r + 2 ^ (i + 1)) else isqrtFrom x i r

/-- The integer square root. -/
def isqrt (x : Nat) : Nat := isqrtFrom x (Nat.log2 x / 2) 0

/-- round(sqrt A) (R206, R220). -/
def fsqrt (f : Fmt) (md : RMode) (a : Nat) : FRes :=
  match unpack f a with
  | .nan sg => nanRes f sg
  | .inf s => if s then nanRes f true else (infBits f false, 0)
  | .num s m e =>
    if m = 0 then (signBit f s, 0)
    else if s then nanRes f true
    else
      let m' := if e % 2 = 0 then m else 2 * m
      let e' := if e % 2 = 0 then e else e - 1
      let n := m' * 2 ^ (2 * guardBits)
      let r := isqrt n
      roundNum f md false r (e' / 2 - guardBits) (decide (r * r ≠ n))

/-- round(1 / A) (R220). -/
def frcp (f : Fmt) (md : RMode) (a : Nat) : FRes := fdiv f md (f.bias * 2 ^ f.fb) a

/-- round(1 / sqrt A) (R220). -/
def frsq (f : Fmt) (md : RMode) (a : Nat) : FRes :=
  match unpack f a with
  | .nan sg => nanRes f sg
  | .inf s => if s then nanRes f true else (0, 0)
  | .num s m e =>
    if m = 0 then (infBits f s, flDZ)
    else if s then nanRes f true
    else
      let m' := if e % 2 = 0 then m else 2 * m
      let e' := if e % 2 = 0 then e else e - 1
      let r := isqrt (2 ^ (2 * guardBits) / m')
      roundNum f md false r (-(e' / 2) - guardBits) (decide (r * r * m' ≠ 2 ^ (2 * guardBits)))

/-- round(±(A x B) ± C) with one rounding: `np` negates the product, `nc` the addend (R206, R224). -/
def ffma (f : Fmt) (md : RMode) (np nc : Bool) (a b c : Nat) : FRes :=
  let x := unpack f a
  let y := unpack f b
  let z := unpack f c
  let (p, inv) := mulVal x y
  let (v, inv2) := sumVal md (if np then p.neg else p) (if nc then z.neg else z)
  withNV (x.isS || y.isS || z.isS || inv || inv2) (roundVal f md v)

/-- A finite value rounded to an integer in mode `md`, and whether that is inexact. -/
def toIntegral (md : RMode) (s : Bool) (m : Nat) (e : Int) : Nat × Bool := roundAt md s m e false 0

/-- A rounded to an integral value; no NX (R206, R220). -/
def frnd (f : Fmt) (md : RMode) (a : Nat) : FRes :=
  match unpack f a with
  | .nan sg => nanRes f sg
  | .inf s => (infBits f s, 0)
  | .num s m e => if 0 ≤ e then (a % 2 ^ f.w, 0) else ((roundNum f md s (toIntegral md s m e).1 0 false).1, 0)

/-- Is `x < y`, for values that are not NaNs and with -0 = +0? -/
def ltVal : FVal → FVal → Bool
  | .num s1 m1 e1, .num s2 m2 e2 =>
    let l := if e1 ≤ e2 then e1 else e2
    decide (atExp s1 m1 e1 l < atExp s2 m2 e2 l)
  | .inf s1, .inf s2 => s1 && !s2
  | .inf s1, .num _ _ _ => s1
  | .num _ _ _, .inf s2 => !s2
  | _, _ => false

/-- Are two values that are not NaNs equal, with -0 = +0? -/
def eqVal (x y : FVal) : Bool := !x.isNaN && !y.isNaN && !ltVal x y && !ltVal y x

/-- min (`mx` false) or max of R208: -0 is ordered below +0. -/
def fminmax (f : Fmt) (mx : Bool) (a b : Nat) : FRes :=
  let x := unpack f a
  let y := unpack f b
  let aLess := ltVal x y || (eqVal x y && fsign f a && !fsign f b)
  let r := if x.isNaN && y.isNaN then cnan f
    else if x.isNaN then b % 2 ^ f.w
    else if y.isNaN then a % 2 ^ f.w
    else if aLess != mx then a % 2 ^ f.w else b % 2 ^ f.w
  withNV (x.isS || y.isS) (r, 0)

/-- Comparison conditions of R208 and R219. -/
inductive FCond where
  | eq | lt | le | un
  deriving DecidableEq, Repr

/-- A comparison and its flags (R208, R219). -/
def fcmp (f : Fmt) (c : FCond) (a b : Nat) : Bool × FFlags :=
  let x := unpack f a
  let y := unpack f b
  let nan := x.isNaN || y.isNaN
  let nv := x.isS || y.isS || (nan && (c = .lt || c = .le))
  let r := match c with
    | .eq => eqVal x y
    | .lt => !nan && ltVal x y
    | .le => !nan && !ltVal y x
    | .un => nan
  (r, if nv then flNV else 0)

/-- The class mask of R208. -/
def fclass (f : Fmt) (a : Nat) : Nat :=
  match unpack f a with
  | .inf s => if s then 1 else 2 ^ 7
  | .nan sg => if sg then 2 ^ 8 else 2 ^ 9
  | .num s m _ =>
    if m = 0 then (if s then 2 ^ 3 else 2 ^ 4)
    else if m < 2 ^ f.fb then (if s then 2 ^ 2 else 2 ^ 5)
    else (if s then 2 ^ 1 else 2 ^ 6)

/-- The class mask as an instruction gives it: NV for a signalling NaN (R182, R208). -/
def fcls (f : Fmt) (a : Nat) : FRes := withNV (unpack f a).isS (fclass f a, 0)

/-- Conversion between float formats (R186, R207, R221). -/
def fcvt (dst src : Fmt) (md : RMode) (a : Nat) : FRes := roundVal dst md (unpack src a)

/-- Saturate an integer to `lo..hi`; NV when it saturates, else NX when inexact (R207, R221). -/
def satInt (v lo hi : Int) (nx : Bool) : Int × FFlags :=
  if v < lo then (lo, flNV) else if v > hi then (hi, flNV) else (v, if nx then flNX else 0)

/-- Conversion to an integer in `lo..hi` (R207, R221). -/
def toInt (f : Fmt) (md : RMode) (lo hi : Int) (a : Nat) : Int × FFlags :=
  match unpack f a with
  | .nan _ => (0, flNV)
  | .inf s => (if s then lo else hi, flNV)
  | .num s m e =>
    let (q, nx) := toIntegral md s m e
    satInt (if s then -(Int.ofNat q) else q) lo hi nx

/-- Conversion from an integer (R207, R221). -/
def fromInt (f : Fmt) (md : RMode) (v : Int) : FRes := roundNum f md (decide (v < 0)) v.natAbs 0 false

/-- The clamp on a scale exponent: beyond it every format overflows or rounds to zero alike. -/
def scaleClamp : Int := 5000

/-- round(A x 2^B), B integral in the same format (R223). DEDUCED, log entry 10. -/
def fscale (f : Fmt) (md : RMode) (a b : Nat) : FRes :=
  match unpack f a, unpack f b with
  | .nan s1, .nan s2 => nanRes f (s1 || s2)
  | _, .nan s2 => nanRes f s2
  | .nan s1, .inf _ => nanRes f s1
  | .nan s1, .num _ m2 e2 => nanRes f (s1 || decide (e2 < 0 ∧ m2 % 2 ^ (-e2).toNat ≠ 0))
  | .num s1 m1 _, .inf s2 =>
    if s2 then (signBit f s1, 0) else if m1 = 0 then nanRes f true else (infBits f s1, 0)
  | .inf s1, .inf s2 => if s2 then nanRes f true else (infBits f s1, 0)
  | x, .num s2 m2 e2 =>
    if e2 < 0 && m2 % 2 ^ (-e2).toNat != 0 then nanRes f true
    else match x with
      | .num s1 m1 e1 =>
        let n : Int := if 0 ≤ e2 then Int.ofNat (m2 * 2 ^ e2.toNat) else Int.ofNat (m2 / 2 ^ (-e2).toNat)
        let k := if s2 then -n else n
        roundNum f md s1 m1 (e1 + max (-scaleClamp) (min scaleClamp k)) false
      | .inf s1 => (infBits f s1, 0)
      | .nan s1 => nanRes f s1

/-- floor(log2 |A|) as a value of the format (R223). -/
def fgetexp (f : Fmt) (a : Nat) : FRes :=
  match unpack f a with
  | .nan sg => nanRes f sg
  | .inf _ => (infBits f false, 0)
  | .num _ m e => if m = 0 then (infBits f true, flDZ) else fromInt f .rne (e + (Nat.log2 m : Nat))

/-- Fixed-point places of the exponential. -/
def fixBits : Nat := 320

/-- floor(ln 2 x 2^320). -/
def ln2Fix : Int := 0xb17217f7d1cf79abc9e3b39803f2f6af40f343267298b62d8a0d175b8baafa2be7b876206debac98

/-- sum of `t^k / k!` for k up to `n`, by Horner's rule, in fixed point: `h` steps are left. -/
def expHorner (t : Int) : Nat → Int → Int
  | 0, acc => acc
  | h + 1, acc => expHorner t h (2 ^ fixBits + t * acc / 2 ^ fixBits / (h + 1))

/-- `2^p` in fixed point, for `-1/2 ≤ p ≤ 1/2` in fixed point. -/
def exp2Fix (p : Int) : Int := expHorner (p * ln2Fix / 2 ^ fixBits) 64 (2 ^ fixBits)

/-- The value of the format just below `2^p`, `p` in fixed point and not an integer; `neg` says that p is below 0
even where its fixed-point value is 0. -/
def exp2Lower (f : Fmt) (p : Int) (neg : Bool) : Nat :=
  let v := if p = 0 then (if neg then 2 ^ fixBits - 1 else 2 ^ fixBits) else (exp2Fix p).toNat
  if v ≥ 2 ^ fixBits then f.bias * 2 ^ f.fb + (v - 2 ^ fixBits) / 2 ^ (fixBits - f.fb)
  else (f.bias - 1) * 2 ^ f.fb + (2 * v - 2 ^ fixBits) / 2 ^ (fixBits - f.fb)

/-- `2^(x - rne x)`: exact for integral x, else one of the two neighbours, the choice a free value (R222). -/
def fexp2f (ty : Nat) (f : Fmt) (a : Nat) : FRes :=
  match unpack f a with
  | .nan sg => nanRes f sg
  | .inf _ => (f.bias * 2 ^ f.fb, 0)
  | .num s m e =>
    if 0 ≤ e || m % 2 ^ (-e).toNat = 0 then (f.bias * 2 ^ f.fb, 0)
    else
      let r : Int := Int.ofNat (roundAt .rne s m e false 0).1
      let d : Int := Int.ofNat m - r * 2 ^ (-e).toNat
      let q := if s then -d else d
      let lo := exp2Lower f (q * 2 ^ fixBits / 2 ^ (-e).toNat + (if q < 0 && q.natAbs * 2 ^ fixBits < 2 ^ (-e).toNat then 1 else 0))
        (decide (q < 0))
      (if Config.exp2fUp ty (a % 2 ^ f.w) then lo + 1 else lo, flNX)

/-- The format of a TY code (R216): 0 i32, 1 i16, 2 i64, 3 f32, 4 f16, 5 bf16, 6 f64; the integers have none. -/
def fmtOf : Nat → Fmt
  | 4 => f16
  | 5 => bf16
  | 6 => f64
  | _ => f32

/-- The lane width of a TY code in bytes (R162). -/
def laneBytes : Nat → Nat
  | 1 => 2
  | 2 => 8
  | 4 => 2
  | 5 => 2
  | 6 => 8
  | _ => 4

/-- lanes(ty) (R162). -/
def laneCount (ty : Nat) : Nat := 128 / laneBytes ty

end Sys2Proof.Machine
end

