-- ==== Sys2Proof/Machine/Maps.lean ====
section
/-!
DEFINITION. Sparse maps with one canonical form, and the list and bit helpers the machine uses.
A map lists its entries by strictly rising key, and never lists the default value; so equal maps are equal lists.
-/

namespace Sys2Proof.Machine

/-- A sparse map from Nat; what an unlisted key holds is the reader's default. -/
abbrev SMap (α : Type) := List (Nat × α)

/-- The value at key `k`. -/
def smGet {α : Type} (dflt : α) : SMap α → Nat → α
  | [], _ => dflt
  | (j, v) :: m, k => if j = k then v else smGet dflt m k

/-- The map without key `k`. -/
def smErase {α : Type} : SMap α → Nat → SMap α
  | [], _ => []
  | (j, v) :: m, k => if j = k then smErase m k else (j, v) :: smErase m k

/-- The map with `v` at key `k`, in order. -/
def smPut {α : Type} : SMap α → Nat → α → SMap α
  | [], k, v => [(k, v)]
  | (j, u) :: m, k, v =>
    if j = k then (k, v) :: m else if k < j then (k, v) :: (j, u) :: m else (j, u) :: smPut m k v

/-- Write `v` at key `k`: the default removes the entry. -/
def smSet {α : Type} [DecidableEq α] (dflt : α) (m : SMap α) (k : Nat) (v : α) : SMap α :=
  if v = dflt then smErase m k else smPut m k v

/-- Keys rise strictly and no entry is the default: the canonical form. -/
def smWf {α : Type} [DecidableEq α] (dflt : α) : SMap α → Bool
  | [] => true
  | [(_, v)] => decide (v ≠ dflt)
  | (j, v) :: (k, u) :: m => decide (v ≠ dflt) && decide (j < k) && smWf dflt ((k, u) :: m)

/-- Entries of a map with keys from `lo` up to `hi`, shifted to start at 0. -/
def smTake {α : Type} (m : SMap α) (lo hi : Nat) : SMap α :=
  (m.filter fun x => decide (lo ≤ x.1) && decide (x.1 < hi)).map fun x => (x.1 - lo, x.2)

/-- The map with the entries from `lo` up to `hi` replaced by those of `n`, shifted to start at `lo`. -/
def smGive {α : Type} [DecidableEq α] (dflt : α) (m : SMap α) (lo hi : Nat) : SMap α → SMap α
  | [] => m.filter fun x => decide (x.1 < lo) || decide (hi ≤ x.1)
  | (k, v) :: n => if k + lo < hi then smSet dflt (smGive dflt m lo hi n) (k + lo) v else smGive dflt m lo hi n

/-- Insert a number into a strictly rising list. -/
def insSorted : List Nat → Nat → List Nat
  | [], k => [k]
  | j :: l, k => if j = k then j :: l else if k < j then k :: j :: l else j :: insSorted l k

/-- Replace element `i` of a list by its image. -/
def modNth {α : Type} (f : α → α) : List α → Nat → List α
  | [], _ => []
  | x :: l, 0 => f x :: l
  | x :: l, i + 1 => x :: modNth f l i

/-- The position of the first element that satisfies `p`. -/
def findPos {α : Type} (p : α → Bool) : List α → Option Nat
  | [] => none
  | x :: l => if p x then some 0 else (findPos p l).map (· + 1)

/-- Remove element `i` of a list. -/
def dropNth {α : Type} : List α → Nat → List α
  | [], _ => []
  | _ :: l, 0 => l
  | x :: l, i + 1 => x :: dropNth l i

/-- Bits [hi:lo] of a number. -/
def bitsOf (v hi lo : Nat) : Nat := v / 2 ^ lo % 2 ^ (hi - lo + 1)

/-- Bits [hi:lo] of a word, as a number. -/
def Wbits (v : Word) (hi lo : Nat) : Nat := bitsOf v.toNat hi lo

/-- The word of a number. -/
abbrev wNat (n : Nat) : Word := BitVec.ofNat 64 n

/-- The word of an integer. -/
abbrev wInt (i : Int) : Word := BitVec.ofInt 64 i

/-- sign_extend(v, n) of R162, as a word. -/
def signExt (n v : Nat) : Word :=
  let m := v % 2 ^ n
  if n = 0 then 0 else if m < 2 ^ (n - 1) then wNat m else wInt (Int.ofNat m - 2 ^ n)

/-- An n-bit pattern read as a signed number. -/
def sInt (n v : Nat) : Int :=
  let m := v % 2 ^ n
  if n = 0 then 0 else if m < 2 ^ (n - 1) then Int.ofNat m else Int.ofNat m - 2 ^ n

/-- The low n bits of an integer. -/
def uNat (n : Nat) (i : Int) : Nat := (i % (2 ^ n : Int)).toNat

/-- Round a number down to a multiple. -/
def alignDown (v n : Nat) : Nat := v - v % n

end Sys2Proof.Machine
end

