-- ==== Sys2Proof/Machine/State.lean ====
section
/-!
DEFINITION. The state of the package: everything the spec gives the machine, as plain data (INVENTORY.md, State).
Sparse maps (Maps.lean) hold what is indexed by number; their default is the reset value.
-/

namespace Sys2Proof.Machine

/-! ## Outcomes -/

/-- Reasons a step stops with a fault. No rule of the spec stops the machine: every trap of a row is a next state. -/
inductive Fault where
  /-- Raised by nobody: kept so that the type has a name to report (safe). -/
  | none
  deriving DecidableEq, Repr

/-- Reasons a step refuses. -/
inductive Refusal where
  /-- Raised by an arm of `exec` whose instruction has no meaning yet (safe). -/
  | notModelled (mnemonic : String)
  deriving DecidableEq, Repr

/-! ## Parts of accesses -/

/-- One part of an access: at most 16 bytes of one location, translated (R38, R88). -/
structure Part where
  /-- Pointer of its first byte. -/
  va : Word
  /-- Physical address. -/
  pa : Nat
  /-- Bytes. -/
  n : Nat
  /-- Offset of its first byte in the access. -/
  pos : Nat
  /-- ASID it was translated in. -/
  asid : Nat
  /-- CA of its leaf (R33). -/
  ca : Nat
  /-- G of its leaf (R34). -/
  g : Bool
  /-- TAG of its leaf (R29). -/
  tag : Bool
  /-- Pages that its translation covers: 1, 16 with CONTIG, or those of an 8 MiB or 16 GiB leaf (R213). -/
  span : Nat
  /-- MTAG that its granules are checked against: that of the pointer the instruction was given (R42). -/
  mtag : Nat
  deriving DecidableEq, Repr

/-! ## Rows (R43-R54) -/

/-- STATE of a row (R46). -/
inductive RStat where
  | stopped | ready | waiting | faulted
  deriving DecidableEq, Repr

/-- A dated release whose object is still to be written: its access number, the 256 bytes, their parts (R118); and the
signature and SFLOOR that the date replaced, which the row has again where the object cannot be written (R125). -/
structure Rel where
  id : Nat
  obj : List Byte
  parts : List Part
  sig : List Byte
  floor : Nat
  deriving DecidableEq, Repr

/-- A row's control block (R45, R46) and the state the rules imply for it. -/
structure Row where
  pc : Word := 0
  npc : Word := 0
  flags : Word := 0
  fva : Word := 0
  fcause : Word := 0
  rstep : Nat := 0
  retired : Word := 0
  budget : Word := 0
  task : Word := 0
  sfloor : Nat := 0
  scratch0 : Word := 0
  scratch1 : Word := 0
  scratch2 : Word := 0
  scratch3 : Word := 0
  /-- CTL fields (R46); OPEN is read off the slots. -/
  st : RStat := .stopped
  why : Nat := 0
  waitw : Nat := 0
  autores : Bool := false
  priv : Bool := false
  pri : Nat := 0
  cmderr : Bool := false
  /-- Running under STEP (R48). -/
  stepping : Bool := false
  /-- Destination words the instruction at PC has marked empty, of any row, by address / 8 (R48, SKIP). -/
  marked : List Nat := []
  /-- Length that SKIP uses after an instruction-fetch fault (R148). -/
  fetchLen : Option Nat := none
  /-- Barrier of the own core and the phase awaited with WHY 7 (R261, R262). -/
  await : Option (Nat × Bool) := none
  /-- A BUDGET trap is due at the next boundary (R45). -/
  due : Bool := false
  /-- A page-fault resolution came while the partition was gang-stopped: it acts at the release (R344). -/
  resolved : Bool := false
  /-- Working value of a multi-part instruction between its steps: a date, a token, a status. -/
  work : Word := 0
  /-- The counter cell of its `amo.dec.fire` (R246). -/
  cell : Word := 0
  /-- Its store found the FIFO full and has not retired: the row is at no boundary (R56, R70). -/
  stalled : Bool := false
  /-- Stores of the row itself to its CTL, applied while it was at no boundary: the value, the privilege and the length of
  the instruction at PC; they act at its next boundary (R58). -/
  pend : List (Word × Bool × Nat) := []
  /-- Its task has been orphaned: it does not run on by itself (R369). -/
  orphan : Bool := false
  /-- Its `sync.rel` has taken its date; the row issues nothing until the object is written (R118, R119). -/
  rel : Option Rel := none
  /-- It has executed `sys.halt`, which the boot controller waits for in stage 5 of a start (R391). -/
  halted : Bool := false
  deriving DecidableEq, Repr

/-! ## Accesses in flight (R54, R70, R90, R233) -/

/-- What an entry of the store FIFO does at its bank or home (R70, R238, R250). -/
inductive StKind where
  | plain | feSet
  /-- `sync.fe.clr`, `sync.fe.set`: only the bits change. -/
  | bitsClr | bitsSet
  deriving DecidableEq, Repr

/-- An entry of a store FIFO (R70), with the partition of its row. -/
structure StEnt where
  id : Nat
  row : RowId
  owner : Nat
  priv : Bool
  part : Part
  kind : StKind
  /-- `nt` store: not allocated (R236, R238). -/
  nt : Bool
  bytes : List Byte
  /-- Remote loads of the row outstanding when it entered, by request number (R70, R91). -/
  after : List Nat
  deriving DecidableEq, Repr

/-- Where loaded bytes go (R236, R239, R241). -/
inductive Put where
  /-- X register `r` of `n` bytes, sign-extended or not. -/
  | x (r n : Nat) (sg : Bool)
  /-- The pair X[r], X[r+1]. -/
  | pair (r : Nat)
  /-- V register `r`, its first bytes. -/
  | v (r : Nat)
  /-- The lanes of V register `r` with their lane numbers, `w` bytes each, in the order of the access. -/
  | lanes (r w : Nat) (js : List Nat)
  /-- Nowhere. -/
  | none
  deriving DecidableEq, Repr

/-- What a request does at its target. -/
inductive ReqKind where
  /-- A load: `fe` 0 plain, 1 fe, 2 fe.take; `nt` (R236). -/
  | load (fe : Nat) (nt : Bool)
  /-- An atomic (R245): function (R155), operand, expected value, rounding mode, posted, scope. -/
  | atomic (fn : Nat) (b e : Word) (rm : RMode) (posted : Bool) (scope : Nat)
  /-- The send of a packet (R257): its words and the cores' die it goes to; `fence` 0 die, 1 dev (R259). -/
  | send (pkt : List Word) (fence : Nat)
  /-- An arrival message to a barrier (R262, R264). -/
  | arrive (core bar : Nat)
  deriving DecidableEq, Repr

/-- A long-latency producer in flight (R54, R233). -/
structure Req where
  id : Nat
  row : RowId
  priv : Bool
  part : Nat
  kind : ReqKind
  /-- Parts not yet performed. -/
  todo : List Part
  /-- Bytes of the access that have been read. -/
  buf : SMap Byte
  put : Put
  /-- Destination words still to be filled, as words of the row (R44). -/
  words : List Nat
  /-- Parts that stand in an arrival log (R354). -/
  logged : Nat := 0
  /-- A replay has applied its arrival: it waits at the bank (R53, R355). -/
  atBank : Bool := false
  /-- It has met an uncorrectable error in GDDR: its retry walks the tables afresh (R345, R347). -/
  cold : Bool := false
  deriving DecidableEq, Repr

/-- A store that has left its FIFO toward a target that is not die-local (R70). -/
structure Flight where
  id : Nat
  ent : StEnt
  deriving DecidableEq, Repr

/-! ## Caches (R62-R72) -/

/-- How a line is held (R68). -/
inductive Form where
  | raw | d1 | d2 | d4
  deriving DecidableEq, Repr

/-- A line of L2 (R63). Its slice follows from its identity (R62, R64). -/
structure Line where
  die : Nat
  /-- Identified by physical address (G = 1), else by (ASID, L). -/
  phys : Bool
  asid : Nat
  /-- L, or PA[51:7] when `phys`. -/
  line : Nat
  /-- Physical back-tag PA[51:7] (R67). -/
  pl : Nat
  dirty : Bool
  /-- Date stamp of a guest line; none for a home line (R66, R115). -/
  stamp : Option Nat
  form : Form
  /-- The memory tags of its four granules, when its page has TAG = 1 (R63). -/
  tags : Option (List Nat)
  /-- The 128 bytes. -/
  data : List Byte
  deriving DecidableEq, Repr

/-- A translation held by a slice's translation cache (R37, R64). -/
structure Tlb where
  die : Nat
  slice : Nat
  asid : Nat
  /-- VA[55:12] of the page. -/
  vpn : Nat
  /-- The leaf entry and its level. -/
  leaf : Word
  level : Nat
  deriving DecidableEq, Repr

/-- Instruction bytes a fetch unit holds (R108, R349): one aligned 16-byte part of a core's code. -/
structure IBuf where
  core : Nat
  asid : Nat
  /-- VA[55:4]. -/
  va16 : Nat
  /-- Physical address of the part. -/
  pa : Nat
  bytes : List Byte
  deriving DecidableEq, Repr

/-- A line of a reduction cache (R71): elements by number with their partial values. -/
structure RedLine where
  asid : Nat
  line : Nat
  /-- Home of its page: physical address of the line, CA and G of the leaf. -/
  pa : Nat
  ca : Nat
  g : Bool
  tag : Bool
  /-- Operation (VMEM FN 8-14, R243). -/
  op : Nat
  sz : Nat
  /-- Touched elements and partial values. -/
  elems : SMap (Option Nat)
  deriving DecidableEq, Repr

/-! ## Core structures -/

/-- A channel (R137). -/
structure Chan where
  entry : Word := 0
  cfg : Nat := 0
  hold : Bool := false
  ready : Bool := false
  pool0 : Word := 0
  pool1 : Word := 0
  pool2 : Word := 0
  pool3 : Word := 0
  deriving DecidableEq, Repr

/-- A named barrier (R261). -/
structure Bar where
  valid : Bool := false
  ph : Bool := false
  arrived : Nat := 0
  expect : Nat := 0
  deriving DecidableEq, Repr

/-- A deque entry (R265). -/
structure DqEnt where
  hi : Nat := 0
  lo : Nat := 0
  tag : Nat := 0
  deriving DecidableEq, Repr

/-- A packet on its way to a row: 64-bit words, the partition of its sender, its class (R135-R138). -/
structure Packet where
  words : List Word
  part : Nat
  /-- Core it is bound to (R327). -/
  core : Option Nat
  /-- Core that sent it; none for the host, peers and cells (R327). -/
  sender : Option Nat
  /-- Class taken at entry to the run queue (R138). -/
  cls : Nat
  /-- Sent by Yelfa itself: the partition condition of R136 does not apply. -/
  own : Bool
  /-- A replay has taken it out of an arrival log; it waits for room in the run queue (R355). -/
  replayed : Bool
  /-- The row that sent it and the access number of its send (R107). -/
  birth : Option (RowId × Nat) := none
  deriving DecidableEq, Repr

/-- State of an executor's slot (R331). -/
inductive SlotSt where
  | empty | opening | opn | running | closing
  deriving DecidableEq, Repr

/-- A slot: the row (ROW[7:0]) in it, whether it has issued an instruction since it opened, and its age before it
opened (R330, R331). Its dirty sectors set only how long CLOSING takes. -/
structure Slot where
  st : SlotSt := .empty
  row : Nat := 0
  issued : Bool := false
  age : Nat := 0
  /-- The row left the READY state while the slot was OPENING: it closes without issuing (R331, R337). -/
  quit : Bool := false
  /-- Order in which the slots of the bank began to open, and the class of the row at the last selection (R331, R336). -/
  seq : Nat := 0
  cls : Nat := 0
  /-- Class above which another row displaces it: for a running row that was lowered, the class it had, until its quantum
  expires (R336). -/
  keep : Nat := 0
  deriving DecidableEq, Repr

/-- A bank's scheduler (R330-R334): READY rows with their ages, the classes they had at the last selection or on joining
later (R336), two slots, cycles of the quantum, and the number of events that ask for a selection. -/
structure Bank where
  ready : SMap (Option Nat) := []
  classes : SMap Nat := []
  nextAge : Nat := 1
  slot0 : Slot := {}
  slot1 : Slot := {}
  quantum : Nat := 0
  due : Nat := 0
  deriving DecidableEq, Repr

/-- A row that waits for delivery (R339-R342): the row, its FVA and FCAUSE at the fault. -/
structure FaultRec where
  row : Nat
  fva : Word
  fcause : Word
  deriving DecidableEq, Repr

/-- A core's deque and its control block (R265). -/
structure Deque where
  ents : SMap DqEnt := []
  top : Nat := 0
  bottom : Nat := 0
  victim : Bool := false
  popsteal : Bool := false
  deriving DecidableEq, Repr

/-! ## The matrix array (R275-R297) -/

/-- STATE of a matrix sequencer (R292). -/
inductive MxSt where
  | idle | joining | prefetch | permit | running | held | finishing
  deriving DecidableEq, Repr

/-- A fault held by an engine until the row's instruction ends with it (R294, R318). -/
structure EngFault where
  cause : Nat
  fva : Word
  acc : Nat
  sub : Nat
  deriving DecidableEq, Repr

/-- A core's operand latch (R275): a tile of `rows` rows of 128 elements, decoded when the MAC reads them; its format
(codes of R18), TAG and HOPS. Elements hold the bits of their format; a CX8 element the bits of an E5M3 number. -/
structure Latch where
  fmt : Nat
  rows : Nat
  tag : Nat
  hops : Nat
  elems : List Nat
  deriving DecidableEq, Repr

/-- The matrix sequencer of a core (R275, R288-R296). -/
structure MxSeq where
  st : MxSt := .idle
  /-- The state it is held from. -/
  back : MxSt := .idle
  row : Nat := 0
  d : Nat := 0
  almanac : Word := 0
  /-- NSTEP and MACS, once the header has been read. -/
  hdr : Option (Nat × Nat) := none
  step : Nat := 0
  skipg : Nat := 0
  est : Nat := 0
  last : Nat := 0
  gm : Nat := 512
  /-- MAC steps performed. -/
  macs : Nat := 0
  /-- The fault held, until a retry; raised by the row. -/
  held : Option EngFault := none
  raised : Bool := false
  /-- The step being performed, result or tile rows of it done, elements fetched so far and their format. -/
  cur : Option (Word × Word) := none
  sub : Nat := 0
  elems : List Nat := []
  fmt : Nat := 0
  /-- Bytes read so far of the row of A or of the tile in hand (R297). -/
  part : List Byte := []
  /-- The page of the tile in hand, checked and translated, from the byte at which it was begun, and the access number of its
  translation (R74, R280). -/
  page : Option Part := none
  pageId : Nat := 0
  /-- A block of the tile in hand was malformed (R187, R191). -/
  bad : Bool := false
  /-- First 128 bytes of the row fetched last, and the popcount so far (R290). -/
  prev : List Byte := []
  pop : Nat := 0
  /-- The prefetched tile and its step. -/
  tile : Option (Nat × Latch) := none
  /-- Row and word of the words a running DRAIN has marked empty and not written (R289). -/
  todo : List (Nat × Nat) := []
  /-- Target parts of the result rows that a running DRAIN has still to write, and the access number of their
  translation. -/
  tgt : List (List Part) := []
  born : Nat := 0
  /-- Access number of the row's instruction that started it (R234). -/
  since : Nat := 0
  /-- Its step could not go on when last tried (R295). -/
  stuck : Bool := false
  deriving DecidableEq, Repr

/-! ## The edge engine (R298-R320) -/

/-- STATE of an edge engine (R317). -/
inductive EdgeSt where
  | idle | joining | starting | running | body | levelEnd | held
  deriving DecidableEq, Repr

/-- The edge engine of a core (R304-R319); the last fields are used by the engine of CORE0, the leader. -/
structure EdgeEng where
  st : EdgeSt := .idle
  /-- The state it is held from. -/
  back : EdgeSt := .idle
  row : Nat := 0
  d : Nat := 0
  runpc : Word := 0
  desc : Word := 0
  /-- The words of the descriptor, as read at the join; CURF and NXTF swapped level by level. -/
  words : List Word := []
  last : Nat := 0
  level : Nat := 0
  pull : Bool := false
  visited : Nat := 0
  cnt1 : Word := 0
  held : Option EngFault := none
  raised : Bool := false
  /-- The chunk in hand, and whether its permit has been granted or none is needed (R316). -/
  chunk : Option Nat := none
  granted : Bool := false
  /-- Where the lanes of the chunk go on: vertex, and its next edge once begun (R309). -/
  vert : Nat := 0
  edge : Option Nat := none
  /-- Sources and destinations of the batch with the row, or returned by it. -/
  lanes : List (Nat × Nat) := []
  /-- V3, M2 and M3 of a returned batch, the accesses of it done, and the flags raised so far (R312). -/
  res : Option (List Nat × Nat × Nat) := none
  done : Nat := 0
  fl : FFlags := 0
  /-- Lines the run has written from this core (R320). -/
  lines : List Nat := []
  /-- A status that ends the run, not yet reported; its row skipped the fault (R318). -/
  ending : Option Nat := none
  skipped : Bool := false
  /-- NF' and MF' (R312), a switch to pull signalled (R315), and the record of the phase (R300). -/
  nf1 : Nat := 0
  mf1 : Nat := 0
  switch : Bool := false
  phase : Nat := 0
  /-- Access number of the row's instruction that started it (R234). -/
  since : Nat := 0
  deriving DecidableEq, Repr

/-! ## Cores, clusters, dies, partitions, package -/

/-- What a core holds beside its rows. -/
structure Core where
  fifo : List StEnt := []
  red : List RedLine := []
  /-- Statistics CYCLES ... FEWAITS by number (R81). -/
  stats : SMap Word := []
  chans : SMap Chan := []
  bars : SMap Bar := []
  dq : Deque := {}
  runq : List Packet := []
  serving : Bool := false
  /-- Fault queue: rows of the core, oldest first (R341). -/
  faultq : List Nat := []
  recSeq : Nat := 0
  sent : Word := 0
  received : Word := 0
  banks : SMap Bank := []
  mxflags : BitVec 6 := 0
  mx : MxSeq := {}
  latch : Option Latch := none
  /-- Accumulator words by row x 1024 + column (R275); an unlisted one is 0, or, after a gang has ended otherwise than
  with DONE, the free value of `accFree` plus its index (R289). -/
  acc : SMap Nat := []
  accFree : Option Nat := none
  /-- Accumulator words, by index, with an uncorrectable error that no gang has met (R296). -/
  accBad : List Nat := []
  edge : EdgeEng := {}
  failed : Bool := false
  deriving DecidableEq, Repr

/-- Order of arrivals at a barrier by cluster (R381): clusters of the present phase in order of first arrival, the last
arriver of the latest phases and how often in a row. -/
structure Steer where
  core : Nat
  bar : Nat
  phase : List Nat
  last : Nat
  runLen : Nat
  deriving DecidableEq, Repr

/-- What the shadow arrays and shadow copies of one core hold (R352). -/
structure ShadowCore where
  rows : SMap Row := []
  /-- Bytes by row x 4096 + offset. -/
  bytes : SMap Byte := []
  /-- Empty and poisoned words, by row x 512 + word. -/
  empt : List Nat := []
  poison : List Nat := []
  chans : SMap Chan := []
  bars : SMap Bar := []
  dq : Deque := {}
  runq : List Packet := []
  serving : Bool := false
  stats : SMap Word := []
  /-- What steering has noted of its barriers (R381). -/
  steer : List Steer := []
  deriving DecidableEq, Repr

/-- A piece handed to a copy engine (R73, R269). -/
structure CopyPiece where
  id : Nat
  row : RowId
  priv : Bool
  part : Nat
  /-- Source and destination of byte 0, translated; `n` bytes in all. -/
  src : Part
  dst : Part
  n : Nat
  /-- Aligned parts of the destination still to write: offset and length (R98). -/
  todo : List (Nat × Nat)
  /-- FIFO entries of the row older than the instruction (R73). -/
  after : List Nat
  /-- It has met an uncorrectable error in GDDR: its retry walks the tables afresh (R345, R347). -/
  cold : Bool := false
  /-- Words, by address / 8, that a later status has filled: its fills of them come before and leave nothing (R234). -/
  skip : List Nat := []
  /-- Aligned parts of the source still to read: offset and length (R98). -/
  unread : List (Nat × Nat) := []
  /-- Parts that have been read: offset and bytes. -/
  got : List (Nat × List Byte) := []
  deriving DecidableEq, Repr

/-- A piece handed to a distributor (R76, R77): toward the row store, or from it when `out`. -/
structure DistPiece where
  id : Nat
  row : RowId
  priv : Bool
  part : Nat
  out : Bool
  /-- Memory address and row-store address of byte 0. -/
  mem : Part
  rs : Part
  n : Nat
  todo : List (Nat × Nat)
  after : List Nat
  cold : Bool := false
  skip : List Nat := []
  deriving DecidableEq, Repr

/-- SY.CLK (R377). -/
structure Clk where
  freq : Nat := 15
  fmax : Nat := 25
  busy : Bool := false
  err : Bool := false
  /-- Waiting target (R378). -/
  pend : Option Nat := none
  deriving DecidableEq, Repr

/-- SY.CBUDGET (R379). -/
structure Budget where
  bal : Int := 4096
  steer : Bool := false
  cap : Nat := 4095
  rate : Nat := 16
  crate : Nat := 16
  deriving DecidableEq, Repr

/-- A permit request (R290, R316, R380): units, est, the core for an edge chunk or none for the gang, age. -/
structure Permit where
  units : Nat
  est : Nat
  core : Option Nat
  id : Nat
  /-- Microseconds it has waited (R380). -/
  us : Nat := 0
  deriving DecidableEq, Repr

/-- What a cluster holds (8 cores). -/
structure Cluster where
  /-- SY.CLBIND (R132). -/
  valid : Bool := false
  part : Nat := 0
  berr : Bool := false
  svalid : Bool := false
  spart : Nat := 0
  copyq : List CopyPiece := []
  reqs : List Permit := []
  /-- The gang's permit has been granted (R292). -/
  permit : Bool := false
  /-- Cycles in which the ring has not moved (R295). -/
  dog : Nat := 0
  clk : Clk := {}
  bud : Budget := {}
  hot : Bool := false
  /-- Ember load drawn, in 1/100 W (R384). -/
  ember : Nat := 0
  deriving DecidableEq, Repr

/-- A soft-error counter (R395). -/
structure Serr where
  corr : Nat := 0
  unc : Nat := 0
  last : Nat := 0
  deriving DecidableEq, Repr

/-- What a die holds. -/
structure Die where
  /-- Die inbox: packets in arrival order (R326, R327). -/
  inbox : List Packet := []
  hostq : Word := 0
  hostqb : Word := 0
  /-- Produced count P (R370) and MSI-X messages sent. -/
  produced : Nat := 0
  msix : Nat := 0
  /-- SY.GUESTINV (R123). -/
  frost : Nat := 0
  acq : Nat := 0
  serr : SMap Serr := []
  hostpath : Word := 0
  distq : List DistPiece := []
  /-- Records the Flue root has sent (R343). -/
  flueSeq : Nat := 0
  /-- Host-presence directory: base address and size of each region, oldest first (R371). -/
  dir : List (Nat × Nat) := []
  /-- Regions being back-invalidated (R371). -/
  inval : List (Nat × Nat) := []
  /-- The link has trained as CXL (R15, R361). -/
  cxl : Bool := false
  failed : Bool := false
  deriving DecidableEq, Repr

/-- What comes back to a row beside the fill of a word: flags of an atomic, the outcome of a counter cell's packet
(R245-R247, R354). -/
inductive Reply where
  | flags (fl : FFlags)
  | fire (id st : Nat)
  deriving DecidableEq, Repr

/-- A read or an atomic of the host or a peer that is in an arrival log, or that a replay has put at a bank (R354, R355):
the ASID, privilege and core of its path, its bytes, and the function and operands of an atomic; function 16 is a peer's retry
of a counter cell's packet (R246). -/
structure OutReq where
  asid : Nat
  priv : Bool
  core : Nat
  pa : Nat
  n : Nat
  amo : Option (Nat × Word × Word)
  /-- 1 an `fe` load, 2 `fe.take`; rounding mode of the issuer of an atomic (R53, R245). -/
  fe : Nat := 0
  rm : RMode := .rne
  deriving DecidableEq, Repr

/-- Who makes an access that is one event with other work: a row's instruction, its gang or its edge run, by its partition
and the number that tells this instruction or engine from others (R354). -/
structure Asker where
  row : RowId
  part : Nat
  kind : Nat
  num : Nat
  deriving DecidableEq, Repr

/-- An entry of an arrival log (R354). -/
inductive Logged where
  | store (e : StEnt)
  /-- A load, `fe` load or atomic: the request it belongs to, its part, an atomic's operands. -/
  | req (id : Nat) (p : Part) (ops : List Byte)
  /-- A fill of the bytes `ks` of a word. -/
  | fill (row : RowId) (word : Nat) (v : Word) (ks : List Nat)
  | packet (p : Packet)
  /-- An arrival message of a row for a barrier of a core. -/
  | arrival (row : RowId) (core bar : Nat)
  /-- Engine words for a row, and the row of the piece with its partition; the piece's number and the part written (R349). -/
  | piece (row : RowId) (off : Nat) (bytes : List Byte) (issuer : RowId) (owner : Nat) (id : Nat) (p : Part)
  /-- Engine words for the control page of a core (R20, R354), with the piece's number and the part. -/
  | page (core off : Nat) (bytes : List Byte) (priv : Bool) (id : Nat) (p : Part)
  /-- The read of chunk `off` of engine piece `id`. -/
  | read (id off : Nat)
  | reply (row : RowId) (v : Reply)
  /-- A read or an atomic of the host or a peer. -/
  | outside (q : OutReq)
  /-- A read, or an atomic with its function, operand and rounding mode, of an engine or of an instruction's own event, and the
  access number that was next when it was logged. -/
  | ask (who : Asker) (p : Part) (amo : Option (Nat × Word × RMode)) (id : Nat)
  | resolution (asid page : Nat) (refuse : Bool) (core : Nat)
  deriving DecidableEq, Repr

/-- What a replayed `ask` has read: the bytes before an atomic, and its flags (R354, R355). Without bytes it says that the
message of an atomic has been counted as sent, and that the asker performs it (R351). -/
structure Answer where
  who : Asker
  pa : Nat
  amo : Bool
  bytes : List Byte
  fl : FFlags
  deriving DecidableEq, Repr

/-- What the package holds for a partition (R26, R139, R341, R350-R356). -/
structure Partn where
  root : Word := 0
  rowva : Word := 0
  upcall : Word := 0
  arrlog : Word := 0
  haltbase : Word := 0
  /-- The halt has been sent; cores that have taken it; all have finished (R350). -/
  stopping : Bool := false
  /-- Cores that have taken the halt, and those that have finished it. -/
  taken : List Nat := []
  halted : List Nat := []
  stopped : Bool := false
  /-- Exchange under way (R352). -/
  swapping : Bool := false
  /-- Release waiting for the replay (R355). -/
  releasing : Bool := false
  log : List Logged := []
  /-- Bytes of the ring in use, and where the next entry goes (R353). -/
  logUsed : Nat := 0
  logTail : Nat := 0
  fullSent : Bool := false
  deriving DecidableEq, Repr

/-- A pass of `sync.acq` (R120-R122): its slices done. -/
structure Pass where
  id : Nat
  row : RowId
  die : Nat
  asid : Nat
  /-- Own identity: object's date, floor and signature; else the home whose lines go (R112, R122). -/
  own : Bool
  date : Nat
  floor : Nat
  sig : List Byte
  ident : Nat
  done : List Nat
  deriving DecidableEq, Repr

/-- A Frost pass (R124): its trigger date and the slices that have swept. -/
structure Frost where
  trigger : Nat
  done : List Nat
  deriving DecidableEq, Repr

/-- A request at a Flue router (R343): `port` is the child it came from. -/
structure FlueReq where
  die : Nat
  router : Nat
  port : Nat
  /-- The core that raised it. -/
  core : Nat
  asid : Nat
  page : Nat
  write : Bool
  memerr : Bool
  deriving DecidableEq, Repr

/-- An entry of a Flue router (R343): child cores recorded below it; at the root, whether the record was sent. -/
structure FlueEnt where
  die : Nat
  router : Nat
  asid : Nat
  page : Nat
  write : Bool
  memerr : Bool
  cores : List Nat
  sent : Bool
  deriving DecidableEq, Repr

/-- A resolution on its way to cores (R344). -/
structure FlueRes where
  asid : Nat
  page : Nat
  refuse : Bool
  cores : List Nat
  deriving DecidableEq, Repr

/-- A packet held for want of room or of a bound cluster (R136, R326, R342): the die that holds it. -/
structure Held where
  die : Nat
  pkt : Packet
  deriving DecidableEq, Repr

/-- An inbox queue (R364-R367). -/
structure InQ where
  logn : Nat := 0
  nkind : Bool := false
  en : Bool := false
  part : Nat := 0
  qbase : Word := 0
  naddr : Word := 0
  head : Nat := 0
  code : Nat := 0
  index : Nat := 0
  /-- Notify value in progress, newer values waiting, LAP re-reads made at HEAD. -/
  cur : Option Nat := none
  pend : List Nat := []
  tries : Nat := 0
  /-- The packet of HEAD, read and judged, that waits for inbox room. -/
  ready : Option Packet := none
  deriving DecidableEq, Repr

/-- A start under way (R389-R393): attempt 1-3, stage 1-6; none when the device is up. -/
structure Boot where
  attempt : Nat
  stage : Nat
  /-- Why a stage has failed in minimal mode: the start goes no further (R392); 0 while none has. -/
  cause : Nat := 0
  deriving DecidableEq, Repr

/-- Package registers and controllers. -/
structure Pkg where
  /-- The Calendar (R113). -/
  date : Nat := 0
  /-- Slices whose copy of DATE trails, with the date they hold (R114). -/
  lag : SMap (Option Nat) := []
  frost : Option Frost := none
  supq : Word := 0
  mmq : Word := 0
  devidx : Word := 0
  flport : SMap Word := []
  flridx : Word := 0
  flroute : SMap Word := []
  /-- Peers all of whose ports have failed (R374). -/
  peerLost : List Nat := []
  slopeFloor : Nat := 400
  slopeDown : Nat := 250
  slopeUp : Nat := 400
  safecap : Nat := 800
  capmsg : Word := 0
  capnow : Nat := 800
  /-- A cap message is in force, and its lease remaining in windows of 10 microseconds (R385, R386). -/
  capOn : Bool := false
  lease : Nat := 0
  /-- Hi and Lo of the window, in hundredths of a watt (R382). -/
  hi : Nat := 80000
  lo : Nat := 0
  /-- Ember load now drawn, in 1/100 W (R384, R386). -/
  ember : Nat := 0
  pmeas : Nat := 0
  /-- Refill scale s, in 1/256 (R382). -/
  scale : Nat := 256
  /-- SY.THAWST (R388): last SEQ, slot, hold remaining in microseconds while a hold is on. -/
  thawSeq : Nat := 0
  thawSlot : Nat := 0
  thawHold : Option Nat := none
  /-- Thaw messages sent to peers: index and image, in order (R387). -/
  thawOut : List (Nat × List Byte) := []
  boot : Option Boot := some ⟨1, 1, 0⟩
  bootcause : Word := 0
  minimal : Bool := false
  queues : SMap InQ := []
  deriving DecidableEq, Repr

/-- A shootdown that has been broadcast (R213, R349): what it covers, and the first access number after the broadcast. -/
structure Shoot where
  asid : Nat
  /-- The whole context, else pages `lo` to `hi` - 1. -/
  all : Bool
  lo : Nat
  hi : Nat
  id : Nat
  deriving DecidableEq, Repr

/-- What stage 5 of a start finds outside the rows, which it leaves as it was: memory, and poisoned words (R391). -/
structure StartSave where
  mem : SMap Byte := []
  poison : List Nat := []
  deriving DecidableEq, Repr

/-- A turn: which agent of the package moves next (DESIGN CHOICE, log entry 1). -/
inductive Turn where
  /-- The row issues its next instruction. -/
  | run (r : RowId)
  /-- A step of the device. -/
  | dev (i : Instr)
  /-- A slice evicts line `i` (R63, R66). -/
  | evict (i : Nat)
  /-- A slice's translation cache takes the translation of a page, or drops entry `i` (R37). -/
  | cacheTrans (die slice asid vpn : Nat)
  | dropTrans (i : Nat)
  /-- A fetch unit takes a 16-byte part of code, or drops entry `i` (R108). -/
  | prefetch (core : Nat) (pc : Word)
  | dropPrefetch (i : Nat)
  /-- A slice chooses the form of line `i` (R68). -/
  | compress (i : Nat) (f : Form)
  /-- The broadcast of a new DATE to a slice is late (R114). -/
  | lagSlice (slice : Nat)
  /-- The host or a peer changes its own memory. -/
  | outside (pa : Nat) (bytes : List Byte)
  /-- A link trains as CXL or as PCI Express (R361). -/
  | train (die : Nat) (cxl : Bool)
  /-- The access `i` of the host or a peer that waits at a bank is tried again (R355). -/
  | outWait (i : Nat)
  /-- A peer refuses access `id` of a row: its offset is a hole there, or a path or row of the peer's forbids it (R374). -/
  | peerRefuse (id : Nat) (hole : Bool)
  /-- The next access of an instruction or engine that reaches a peer within its own event is refused there (R374). -/
  | peerRefuseNext (hole : Bool)
  /-- One bank's executor spends cycles without issuing (R45, R333). -/
  | idle
  deriving DecidableEq, Repr

/-- The whole package, with the memories it reaches. -/
structure State where
  /-- Every byte by canonical physical address: device memory, tag window, row stores (window 0, from offset 0x80),
  host memory, peer memory. An unlisted byte reads 0 (DESIGN CHOICE, log entry 3). -/
  mem : SMap Byte := []
  /-- Empty words, by physical address / 8 (R51). -/
  empt : List Nat := []
  /-- Poisoned words, by physical address / 8 (R347, R348). -/
  poison : List Nat := []
  /-- Control blocks, by core x 256 + row. -/
  rows : SMap Row := []
  cores : SMap Core := []
  clusters : SMap Cluster := []
  dies : SMap Die := []
  parts : SMap Partn := []
  pkg : Pkg := {}
  shadow : SMap ShadowCore := []
  l2 : List Line := []
  tlb : List Tlb := []
  ibuf : List IBuf := []
  reqs : List Req := []
  flights : List Flight := []
  held : List Held := []
  passes : List Pass := []
  flue : List FlueEnt := []
  flueReqs : List FlueReq := []
  flueRes : List FlueRes := []
  steer : List Steer := []
  /-- Shootdowns that have been broadcast and not been found complete (R213, R349). -/
  shoots : List Shoot := []
  /-- Accesses of the host and peers that wait at a bank after a replay (R355). -/
  outs : List OutReq := []
  /-- What replayed reads and atomics of engines and instructions have read, until these take it (R354, R355). -/
  answers : List Answer := []
  /-- A peer refuses the next access that reaches one within an event of its own: true for a hole (R374). -/
  peerNo : Option Bool := none
  /-- What the start code found, while stage 5 of a start runs (R391). -/
  startSave : StartSave := {}
  /-- The model's own fields (DESIGN CHOICE, log entries 1, 5). -/
  agenda : List Turn := []
  cur : RowId := ⟨0, 0⟩
  nextId : Nat := 0
  freeCtr : Nat := 0
  hostReply : Option (List Byte) := none
  deriving DecidableEq, Repr

/-- The package right after reset: every field at its reset value, the first start attempt before its first stage
(R389, DESIGN CHOICE, log entry 2); state without a reset value in the spec is DESIGN CHOICE, log entry 4. -/
def State.reset : State := {}

end Sys2Proof.Machine
end

