-- ==== Sys2Proof/Machine/Ops.lean ====
section
/-!
DEFINITION. Named operations over the state: reading and writing the records of rows, cores, clusters, dies and
partitions, the words of a row with their full/empty bits (R43-R54), the READY sets and slots (R330-R337), retiring,
blocking, and taking and leaving an exception (R133, R338-R343).
-/

namespace Sys2Proof.Machine

/-! ## Records -/

/-- Has the row's `sync.rel` taken its date, its object still unwritten (R118, R119)? -/
def relDated (w : Row) : Bool := w.rel.isSome

/-- Key of a row's control block. -/
def rkey (r : RowId) : Nat := 256 * r.core + r.row

/-- A row's control block. -/
def getRow (s : State) (r : RowId) : Row := smGet {} s.rows (rkey r)

/-- Write a row's control block. -/
def setRow (s : State) (r : RowId) (v : Row) : State := { s with rows := smSet {} s.rows (rkey r) v }

/-- Change a row's control block. -/
def modRow (s : State) (r : RowId) (f : Row → Row) : State := setRow s r (f (getRow s r))

/-- A core. -/
def getCore (s : State) (n : Nat) : Core := smGet {} s.cores n

/-- Change a core. -/
def modCore (s : State) (n : Nat) (f : Core → Core) : State :=
  { s with cores := smSet {} s.cores n (f (getCore s n)) }

/-- A cluster, 0-39. -/
def getCl (s : State) (c : Nat) : Cluster := smGet {} s.clusters c

/-- Change a cluster. -/
def modCl (s : State) (c : Nat) (f : Cluster → Cluster) : State :=
  { s with clusters := smSet {} s.clusters c (f (getCl s c)) }

/-- A die. -/
def getDie (s : State) (d : Nat) : Die := smGet {} s.dies d

/-- Change a die. -/
def modDie (s : State) (d : Nat) (f : Die → Die) : State := { s with dies := smSet {} s.dies d (f (getDie s d)) }

/-- A partition's record. -/
def getPart (s : State) (p : Nat) : Partn := smGet {} s.parts p

/-- Change a partition's record. -/
def modPart (s : State) (p : Nat) (f : Partn → Partn) : State :=
  { s with parts := smSet {} s.parts p (f (getPart s p)) }

/-- Change the package record. -/
def modPkg (s : State) (f : Pkg → Pkg) : State := { s with pkg := f s.pkg }

/-- A bank of a core. -/
def getBank (s : State) (core b : Nat) : Bank := smGet {} (getCore s core).banks b

/-- Change a bank. -/
def modBank (s : State) (core b : Nat) (f : Bank → Bank) : State :=
  modCore s core fun c => { c with banks := smSet {} c.banks b (f (smGet {} c.banks b)) }

/-- The cluster of a core, 0-39 (R130). -/
def clOf (core : Nat) : Nat := core / 8

/-- The die of a core (R14). -/
def dieOf (core : Nat) : Nat := core / 160

/-- The partition a core is bound to (R131, R132). -/
def partOf (s : State) (core : Nat) : Option Nat :=
  let c := getCl s (clOf core)
  if c.valid then some c.part else none

/-- The ASID of a partition's context (R26). -/
def asidOfPart (s : State) (p : Nat) : Nat := Wbits (getPart s p).root 63 52

/-- The ASID of a core's rows (R45). -/
def asidOf (s : State) (core : Nat) : Nat :=
  match partOf s core with
  | some p => asidOfPart s p
  | none => 0

/-- Is the partition that a core is bound to gang-stopped, or has the core taken its halt? (R133, R350) -/
def coreHalted (s : State) (core : Nat) : Bool :=
  match partOf s core with
  | some p => (getPart s p).stopped || (getPart s p).taken.contains core
  | none => false

/-- Is the core there: not in minimal mode, or in cluster 0 of die 0 (R14)? -/
def corePresent (s : State) (core : Nat) : Bool := decide (core < 320) && (!s.pkg.minimal || decide (core < 8))

/-- Add to a statistics counter of a core (R81). -/
def bump (s : State) (core k n : Nat) : State :=
  modCore s core fun c => { c with stats := smSet 0 c.stats k (smGet 0 c.stats k + wNat n) }

/-- A fresh request number, in issue order. -/
def fresh (s : State) : Nat × State := (s.nextId, { s with nextId := s.nextId + 1 })

/-- A free value, used where the spec leaves a value undefined (DESIGN CHOICE, log entry 5). -/
def freeWord (s : State) : Word × State := (Config.freeValue s.freeCtr, { s with freeCtr := s.freeCtr + 1 })

/-! ## Bytes of physical memory -/

/-- The byte at a canonical physical address. -/
def memByte (s : State) (pa : Nat) : Byte := smGet 0 s.mem pa

/-- Write one byte. -/
def memSet (s : State) (pa : Nat) (b : Byte) : State := { s with mem := smSet 0 s.mem pa b }

/-- `n` bytes from `pa` upward. -/
def memRead (s : State) (pa : Nat) : Nat → List Byte
  | 0 => []
  | n + 1 => memByte s pa :: memRead s (pa + 1) n

/-- Write bytes from `pa` upward. -/
def memWrite (s : State) (pa : Nat) : List Byte → State
  | [] => s
  | b :: bs => memWrite (memSet s pa b) (pa + 1) bs

/-- The words that `n` bytes from `pa` touch, by address / 8. -/
def wordKeys (pa n : Nat) : List Nat := if n = 0 then [] else List.range' (pa / 8) ((pa + n - 1) / 8 - pa / 8 + 1)

/-- The words that `n` bytes from `pa` cover whole. -/
def wholeKeys (pa n : Nat) : List Nat := (wordKeys pa n).filter fun k => decide (pa ≤ 8 * k) && decide (8 * k + 8 ≤ pa + n)

/-- Remove poison from words. -/
def unpoison (s : State) (ks : List Nat) : State := { s with poison := s.poison.filter fun k => !ks.contains k }

/-! ## The row store (R17, R43, R44) -/

/-- Base of core 0's aperture. -/
def rowBase : Nat := 0x4000000000000

/-- Canonical physical address of a byte of a row, through window 0 (R44). -/
def rowPa (r : RowId) (off : Nat) : Nat := rowBase + 0x1000000 * r.core + 0x1000 * r.row + off

/-- Key of word `w` of a row. -/
def rowWord (r : RowId) (w : Nat) : Nat := rowPa r 0 / 8 + w

/-- The row that a canonical row-store address lies in. -/
def rowAt (pa : Nat) : RowId := ⟨(pa - rowBase) / 0x1000000, (pa - rowBase) % 0x1000000 / 0x1000⟩

/-- VA of byte 0 of a row that lies at a base: `row.rowid` forms it so (R255). -/
def rowVaAt (base : Nat) (r : RowId) : Word := wNat (alignDown base 0x1000000 + 0x1000000 * r.core + 0x1000 * r.row)

/-- VA of byte 0 of a row through window 0, in partition `p`. -/
def rowVaIn (s : State) (p : Nat) (r : RowId) : Word := rowVaAt (getPart s p).rowva.toNat r

/-- VA of byte 0 of a row through window 0, as `row.rowid` forms it (R255). -/
def rowVa (s : State) (r : RowId) : Word :=
  match partOf s r.core with
  | some p => rowVaIn s p r
  | none => rowVaAt 0 r

/-- Is a word of a row empty? Words 0-31 and X0 are always full (R50, R51). -/
def isEmpty (s : State) (r : RowId) (w : Nat) : Bool := decide (32 < w) && s.empt.contains (rowWord r w)

/-- Is a word of a row poisoned? -/
def isPoison (s : State) (r : RowId) (w : Nat) : Bool := s.poison.contains (rowWord r w)

/-- Set a word empty; words 0-32 stay full (R51). -/
def setEmpty (s : State) (r : RowId) (w : Nat) : State :=
  if 32 < w then { s with empt := insSorted s.empt (rowWord r w) } else s

/-- Set words empty. -/
def setEmpties (s : State) (r : RowId) : List Nat → State
  | [] => s
  | w :: ws => setEmpties (setEmpty s r w) r ws

/-- STATE code (R46). -/
def RStat.code : RStat → Nat
  | .stopped => 0
  | .ready => 1
  | .waiting => 2
  | .faulted => 3

/-- Which slot of its bank a row is in, if any: 0 or 1 (R331). -/
def slotOf (s : State) (r : RowId) : Option Nat :=
  let b := getBank s r.core (r.row % 4)
  if b.slot0.st ≠ .empty ∧ b.slot0.row = r.row then some 0
  else if b.slot1.st ≠ .empty ∧ b.slot1.row = r.row then some 1
  else none

/-- CTL.OPEN (R46). -/
def isOpen (s : State) (r : RowId) : Bool := (slotOf s r).isSome

/-- The value CTL reads as; CMD reads 0 (R46). -/
def ctlWord (s : State) (r : RowId) : Word :=
  let w := getRow s r
  wNat (2 ^ 32 * w.waitw + 2 ^ 24 * w.why + 2 ^ 10 * w.autores.toNat + 2 ^ 9 * w.priv.toNat +
    2 ^ 8 * (isOpen s r).toNat + w.pri * 2 ^ 6 + w.st.code * 2 ^ 4 + w.cmderr.toNat * 2 ^ 3)

/-- The CTX word of a row (R45): that of the partition its core is bound to; 0 where it is bound to none, of which R45 says
nothing: DESIGN CHOICE, log entry 115. -/
def ctxWord (s : State) (r : RowId) : Word :=
  match partOf s r.core with
  | some p => wNat (asidOfPart s p + 2 ^ 16 * p)
  | none => 0

/-- Word `k` of a control block, 0-15 (R45). -/
def ctlBlock (s : State) (r : RowId) (k : Nat) : Word :=
  let w := getRow s r
  match k with
  | 0 => ctlWord s r
  | 1 => w.pc
  | 2 => w.npc
  | 3 => w.flags
  | 4 => w.fva
  | 5 => w.fcause
  | 6 => wNat w.rstep
  | 7 => w.retired
  | 8 => w.budget
  | 9 => w.task
  | 10 => wNat w.sfloor
  | 11 => ctxWord s r
  | 12 => w.scratch0
  | 13 => w.scratch1
  | 14 => w.scratch2
  | 15 => w.scratch3
  | _ => 0

/-- A byte of a row as a load reads it (R43, R45, R50). -/
def rowByte (s : State) (r : RowId) (off : Nat) : Byte :=
  if off < 0x80 then BitVec.ofNat 8 ((ctlBlock s r (off / 8)).toNat / 256 ^ (off % 8))
  else if 0x100 ≤ off ∧ off < 0x108 then 0
  else memByte s (rowPa r off)

/-- `n` bytes of a row. -/
def rowBytes (s : State) (r : RowId) (off : Nat) : Nat → List Byte
  | 0 => []
  | n + 1 => rowByte s r off :: rowBytes s r (off + 1) n

/-- A word of a row. -/
def getW (s : State) (r : RowId) (w : Nat) : Word := wNat (leNat (rowBytes s r (8 * w) 8))

/-- Write a control-block word as a store does (R45); CTL has its own operation. -/
def putCtlBlock (s : State) (r : RowId) (k : Nat) (v : Word) : State :=
  modRow s r fun w => match k with
    | 1 => { w with pc := v &&& ~~~1#64 }
    | 2 => { w with npc := v &&& ~~~1#64 }
    | 3 => { w with flags := v &&& 0x7F#64 }
    | 4 => { w with fva := v }
    | 5 => { w with fcause := v &&& 0x0FFF3FFF#64 }
    | 6 => { w with rstep := v.toNat % 2 ^ 32 }
    | 7 => { w with retired := v }
    | 8 => { w with budget := v }
    | 9 => { w with task := v &&& 0xFFFFFFFF000000BF#64 }
    | 10 => { w with sfloor := v.toNat % 2 ^ 32 }
    | 12 => { w with scratch0 := v }
    | 13 => { w with scratch1 := v }
    | 14 => { w with scratch2 := v }
    | 15 => { w with scratch3 := v }
    | _ => w

/-- Write one byte of a control block: the rest of its word keeps its value. -/
def putCtlByte (s : State) (r : RowId) (off : Nat) (b : Byte) : State :=
  let old := (ctlBlock s r (off / 8)).toNat
  let sh := 256 ^ (off % 8)
  putCtlBlock s r (off / 8) (wNat (old - old / sh % 256 * sh + b.toNat * sh))

/-- Write bytes of a row, but for CTL, as stores do: X0 discards (R45, R50). -/
def putRowBytes (s : State) (r : RowId) (off : Nat) : List Byte → State
  | [] => s
  | b :: bs =>
    let s' := if off < 0x80 then putCtlByte s r off b
      else if 0x100 ≤ off ∧ off < 0x108 then s else memSet s (rowPa r off) b
    putRowBytes s' r (off + 1) bs

/-- Write a word of a row. -/
def putW (s : State) (r : RowId) (w : Nat) (v : Word) : State :=
  unpoison (putRowBytes s r (8 * w) (leBytes 8 v.toNat)) [rowWord r w]

/-! ## READY sets and slots (R330-R337) -/

/-- A row joins its bank's READY set with a new age, when it is READY, not open, and its task not orphaned (R330, R369). -/
def joinReady (s : State) (r : RowId) : State :=
  if (getRow s r).st = .ready && !(getRow s r).orphan && !isOpen s r then
    modBank s r.core (r.row % 4) fun b =>
      if (smGet none b.ready r.row).isSome then b
      else { b with ready := smPut b.ready r.row (some b.nextAge), classes := smSet 0 b.classes r.row (getRow s r).pri,
                    nextAge := b.nextAge + 1, due := b.due + 1 }
  else s

/-- A row leaves its bank's READY set. -/
def leaveReady (s : State) (r : RowId) : State :=
  modBank s r.core (r.row % 4) fun b => { b with ready := smErase b.ready r.row }

/-- Write slot `k` of a bank. -/
def Bank.setSlot (b : Bank) (k : Nat) (v : Slot) : Bank :=
  if k = 0 then { b with slot0 := v } else { b with slot1 := v }

/-- Slot `k` of a bank. -/
def Bank.slot (b : Bank) (k : Nat) : Slot := if k = 0 then b.slot0 else b.slot1

/-- The slot that holds the running row, if any (R331). -/
def Bank.runSlot (b : Bank) : Option Nat :=
  if b.slot0.st = .running then some 0 else if b.slot1.st = .running then some 1 else none

/-- An open row closes: the running position passes to the other slot when that is OPEN, and a new quantum begins
(R332). A row that is OPENING closes when its open ends, without issuing (R331, R337). A row that has left READY takes a new
age when it comes back, also where its first instruction blocked or faulted (R330, R337). -/
def closeRow (s : State) (r : RowId) : State :=
  match slotOf s r with
  | none => s
  | some k =>
    modBank s r.core (r.row % 4) fun b =>
      let sl := b.slot k
      match sl.st with
      | .running =>
        let o := b.slot (1 - k)
        let b1 := b.setSlot k { sl with st := .closing, quit := decide ((getRow s r).st ≠ .ready) }
        if o.st = .opn then { b1.setSlot (1 - k) { o with st := .running } with quantum := 0 } else { b1 with quantum := 0 }
      | .opn => b.setSlot k { sl with st := .closing, quit := true }
      | .opening => b.setSlot k { sl with quit := true }
      | _ => b

/-- A row that is not READY any more leaves the READY set and its slot. -/
def leave (s : State) (r : RowId) : State := closeRow (leaveReady s r) r

/-- A row goes READY (R133): WHY and WAITW 0; it joins the READY set unless it is still open. -/
def makeReady (s : State) (r : RowId) : State :=
  joinReady (modRow s r fun w => { w with st := .ready, why := 0, waitw := 0, await := none }) r

/-- A row goes STOPPED with a reason. -/
def makeStopped (s : State) (r : RowId) (why : Nat) : State :=
  leave (modRow s r fun w => { w with st := .stopped, why := why, waitw := 0, await := none, stepping := false, stalled := false }) r

/-- A row that waits is woken: it goes READY, or, while its partition is gang-stopped, at the release (R133). -/
def wake (s : State) (r : RowId) : State :=
  if coreHalted s r.core then modRow s r fun w => { w with resolved := true } else makeReady s r

/-- Set a word full, and wake the row when it waits on that word (R52, R54). -/
def setFull (s : State) (r : RowId) (w : Nat) : State :=
  let s1 : State := { s with empt := s.empt.filter fun k => k ≠ rowWord r w }
  let x := getRow s1 r
  if x.st = .waiting ∧ x.why = 5 ∧ x.waitw = w then wake s1 r else s1

/-- Set words full, lowest first. -/
def setFulls (s : State) (r : RowId) : List Nat → State
  | [] => s
  | w :: ws => setFulls (setFull s r w) r ws

/-- Set words full that are named by address / 8. -/
def setKeys (s : State) : List Nat → State
  | [] => s
  | k :: ks => let r := rowAt (8 * k); setKeys (setFull s r (k - rowWord r 0)) ks

/-- A fill: the word's bytes are written and the word set full (R53, R54). -/
def fillWord (s : State) (r : RowId) (w : Nat) (v : Word) : State := setFull (putW s r w v) r w

/-! ## Ending a gang (R289, R380) -/

/-- The cores of a cluster, place by place (R275). -/
def coresOf (cl : Nat) : List Nat := List.range' (cl * 8) 8

/-- Are all sequencers of a cluster IDLE? -/
def gangIdle (s : State) (cl : Nat) : Bool := (coresOf cl).all fun n => (getCore s n).mx.st == .idle

/-- MAC steps not yet performed: those of MACS that some place has still to perform (R380). DESIGN CHOICE, log entry 36. -/
def macsLeft (s : State) (cl : Nat) : Nat :=
  (coresOf cl).foldl (fun n c =>
    let m := (getCore s c).mx
    match m.hdr with
    | some h => max n (h.2 - m.macs)
    | none => n) 0

/-- The partition that a core's rows belong to now. -/
def partIx (s : State) (core : Nat) : Nat := (partOf s core).getD 0

/-- The pieces of a row's older copies and distributor transfers leave a word that a later status has filled (R234). -/
def skipPieces (s : State) (r : RowId) (since w : Nat) : State :=
  let k := partIx s r.core
  let s1 := modCl s (clOf r.core) fun c => { c with copyq := c.copyq.map fun p =>
    if p.row = r ∧ p.part = k ∧ p.id < since then { p with skip := insSorted p.skip (rowWord r w) } else p }
  let dist := fun (t : State) (d : Nat) => modDie t d fun x => { x with distq := x.distq.map fun p =>
    if p.row = r ∧ p.part = k ∧ p.id < since then { p with skip := insSorted p.skip (rowWord r w) } else p }
  dist (dist s1 0) 1

/-- An engine fills the status word of the row's instruction of access number `since`: fills that older producers still owe
the word come before it, and so leave nothing; while a later one owes it, the word stays as that one has marked it (R234).
DEDUCED, log entry 72. -/
def statusFill (s : State) (r : RowId) (since w : Nat) (v : Word) : State :=
  let mine := fun (q : Req) => q.row == r && q.part == partIx s r.core
  let yields := fun (q : Req) =>
    if mine q && decide (q.id < since) then { q with words := q.words.filter fun x => x ≠ w } else q
  let t : State := skipPieces { s with reqs := s.reqs.map yields } r since w
  if s.reqs.any (fun q => mine q && decide (since < q.id) && q.words.contains w) then putW t r w v else fillWord t r w v

/-- One place of a gang that ends with status `st`: words a DRAIN left empty are set full, an empty D receives the
status (every D, when the gang is DONE: R292), the sequencer is IDLE and the latch empty. -/
def endPlace (st : Nat) (s : State) (core : Nat) : State :=
  let m := (getCore s core).mx
  if m.st = .idle then s
  else
    let r : RowId := ⟨core, m.row⟩
    let s1 := m.todo.foldl (fun t x => setFull t ⟨core, x.1⟩ x.2) s
    let s2 := if st = 0 ∨ isEmpty s1 r (32 + m.d) = true then statusFill s1 r m.since (32 + m.d) (wNat st) else s1
    modCore s2 core fun c =>
      { c with latch := none, mx := { c.mx with
          st := .idle, last := st, held := none, raised := false, cur := none, sub := 0, elems := [], part := [], tile := none,
          page := none, bad := false, todo := [], tgt := [], stuck := false } }

/-- Accumulators become undefined: free values (R289, DESIGN CHOICE, log entry 14). -/
def freeAcc (s : State) (core : Nat) : State :=
  { modCore s core (fun c => { c with acc := [], accFree := some s.freeCtr }) with freeCtr := s.freeCtr + 65536 }

/-- End a cluster's gang with a status: DONE keeps the accumulators and credits nothing; any other status leaves them
undefined and credits the MAC steps not performed (R289, R380). -/
def endGang (s : State) (cl st : Nat) : State :=
  let c := getCl s cl
  let est := (getCore s (cl * 8)).mx.est
  let credit := if c.permit && st != 0 then (macsLeft s cl * (64 + est) + 63) / 64 else 0
  let s1 := (coresOf cl).foldl (endPlace st) { s with answers := s.answers.filter fun a => !(a.who.kind == 1 && clOf a.who.row.core == cl) }
  let s2 := if st = 0 then s1 else (coresOf cl).foldl freeAcc s1
  modCl s2 cl fun c =>
    { c with permit := false, dog := 0, reqs := c.reqs.filter (fun q => q.core.isSome),
             bud := { c.bud with bal := c.bud.bal + Int.ofNat credit } }

/-- SKIP of a held fault that the row has raised: the gang ends with ABORTED, or the edge run is to end with ABORTED
(R294, R318). -/
def skipEngines (s : State) (r : RowId) : State :=
  let c := getCore s r.core
  if (getRow s r).rstep ≠ 2 then s
  else
    let s1 := if c.mx.st = .held ∧ c.mx.row = r.row ∧ c.mx.raised then endGang s (clOf r.core) 5 else s
    if c.edge.st = .held ∧ c.edge.row = r.row ∧ c.edge.raised then
      modCore s1 r.core fun c => { c with edge := { c.edge with ending := some 7, skipped := true } }
    else s1

/-! ## Commands (R47, R48) -/

/-- A command that takes effect clears CMDERR, one that is ignored sets it; a row that a command moves may run on (R369). -/
def cmdDone (s : State) (r : RowId) : State := modRow s r fun w => { w with cmderr := false, orphan := false }

/-- A command is ignored. -/
def cmdIgnored (s : State) (r : RowId) : State := modRow s r fun w => { w with cmderr := true }

/-- KINDLE (R48). -/
def cmdKindle (s : State) (r : RowId) : State :=
  if (getRow s r).st = .stopped ∧ coreHalted s r.core = false then makeReady (cmdDone s r) r else cmdIgnored s r

/-- A row that is stopped while FAULTED has not retried the fault of an engine: its step stays held, and a later KINDLE
raises the fault anew (R294, R318). -/
def unraise (s : State) (r : RowId) : State :=
  if (getRow s r).st = .faulted then
    modCore s r.core fun c =>
      { c with mx := if c.mx.st = .held ∧ c.mx.row = r.row then { c.mx with raised := false } else c.mx,
               edge := if c.edge.st = .held ∧ c.edge.row = r.row then { c.edge with raised := false } else c.edge }
  else s

/-- STOP (R48). -/
def cmdStop (s : State) (r : RowId) : State :=
  let s1 := unraise (cmdDone s r) r
  match (getRow s r).st with
  | .stopped => modRow s1 r fun w => { w with waitw := 0 }
  | _ => makeStopped s1 r 1

/-- REDIRECT (R48). -/
def cmdRedirect (s : State) (r : RowId) : State :=
  let s1 := modRow (cmdDone s r) r fun w =>
    { w with pc := w.npc, rstep := 0, waitw := 0, marked := [], fetchLen := none, work := 0 }
  match (getRow s r).st with
  | .waiting => wake s1 r
  | _ => joinReady s1 r

/-- STEP (R48). -/
def cmdStep (s : State) (r : RowId) : State :=
  if (getRow s r).st = .stopped ∧ coreHalted s r.core = false then
    makeReady (modRow (cmdDone s r) r fun w => { w with stepping := true }) r
  else cmdIgnored s r

/-- RESUME (R48). -/
def cmdResume (s : State) (r : RowId) : State :=
  if (getRow s r).st = .faulted ∧ coreHalted s r.core = false then makeReady (cmdDone s r) r else cmdIgnored s r

/-- SKIP (R48, R148): PC moves by `len`, and the words the instruction had marked empty are set full. -/
def cmdSkip (s : State) (r : RowId) (len : Nat) : State :=
  let w := getRow s r
  if w.st = .faulted ∧ coreHalted s r.core = false then
    let n := w.fetchLen.getD len
    makeReady (setKeys (modRow (cmdDone (skipEngines s r) r) r fun w =>
      { w with pc := (w.pc + wNat n) &&& ~~~1#64, rstep := 0, marked := [], fetchLen := none, work := 0 }) w.marked) r
  else cmdIgnored s r

/-- A store to CTL (R47): AUTORES and PRI, then PRIV when the storer is privileged, then the command; `len` is the
length of the instruction at PC, for SKIP. -/
def storeCtl (s : State) (r : RowId) (v : Word) (priv : Bool) (len : Nat) : State :=
  let s1 := modRow s r fun w =>
    { w with autores := v.getLsbD 10, pri := Wbits v 7 6, priv := if priv then v.getLsbD 9 else w.priv }
  match Wbits v 2 0 with
  | 0 => s1
  | 1 => cmdKindle s1 r
  | 2 => cmdStop s1 r
  | 3 => cmdRedirect s1 r
  | 4 => cmdStep s1 r
  | 5 => cmdResume s1 r
  | 6 => cmdSkip s1 r len
  | _ => cmdIgnored s1 r

/-- The commands that the row's own stores left while it was at no boundary take effect, one by one (R58). -/
def actPend (s : State) (r : RowId) : State :=
  if (getRow s r).pend = [] then s
  else ((getRow s r).pend).foldl (fun t x => storeCtl t r x.1 x.2.1 x.2.2) (modRow s r fun w => { w with pend := [] })

/-- A store by another agent to a scratch word wakes a row that waits with WHY 6 (R133, R256). -/
def scratchWake (s : State) (r : RowId) (off n : Nat) : State :=
  let w := getRow s r
  if w.st = .waiting ∧ w.why = 6 ∧ off < 0x80 ∧ 0x60 < off + n then wake s r else s

/-! ## Packets and records (R135, R340, R342) -/

/-- Header word 0 of a packet (R135). -/
def header (seq core chan nsucc lenm1 : Nat) : Word :=
  wNat (2 ^ 32 * (seq % 2 ^ 32) + 2 ^ 16 * (core % 2 ^ 9) + 2 ^ 8 * (chan % 2 ^ 6) + nsucc % 8 * 2 ^ 3 + lenm1 % 8)

/-- Is a queue-naming register (SY.SUPQ, SY.MMQ) enabled, and its core and channel (R342). -/
def qEn (v : Word) : Bool := v.getLsbD 15
/-- CORE of SY.SUPQ or SY.MMQ. -/
def qCore (v : Word) : Nat := Wbits v 14 6
/-- CHAN of SY.SUPQ or SY.MMQ. -/
def qChan (v : Word) : Nat := Wbits v 5 0

/-- A packet sent by Yelfa itself, bound to the core its header names (R136, R326). -/
def ownPacket (ws : List Word) (core : Nat) : Packet := ⟨ws, 0, some core, none, 0, true, false, none⟩

/-- The eight words of a fault record (R340). -/
def faultRecord (s : State) (r : RowId) : List Word :=
  let w := getRow s r
  [w.fcause, w.fva, rowVa s r, w.pc, wNat w.rstep, w.task, wNat (getCore s r.core).recSeq, 0]

/-- Number the next record of a core (R340). -/
def nextRec (s : State) (core : Nat) : State :=
  modCore s core fun c => { c with recSeq := (c.recSeq + 1) % 2 ^ 32 }

/-- Send a record of 8 words to the supervisor queue: a 96-byte packet held by the die until it enters the inbox; with
EN = 0 nothing is sent and no number is taken (R340, R342). -/
def sendSupervisor (s : State) (core : Nat) (rec : List Word) : State :=
  let q := s.pkg.supq
  if qEn q then
    let seq := (getCore s core).recSeq
    let pkt := ownPacket (header seq (qCore q) (qChan q) 0 2 :: 0 :: rec ++ [0, 0]) (qCore q)
    nextRec { s with held := s.held ++ [⟨dieOf core, pkt⟩] } core
  else s

/-! ## The host-presence directory (R371) -/

/-- Does a region of the directory hold a physical address? -/
def inRegion (pa : Nat) (e : Nat × Nat) : Bool := decide (e.1 ≤ pa) && decide (pa < e.1 + e.2)

/-- May the host hold the line of an address of device memory: a region of its home die has it, or is being
back-invalidated (R371)? -/
def hostHolds (s : State) (pa : Nat) : Bool :=
  let d := getDie s (pa / 0x1000 % 2)
  d.dir.any (inRegion pa) || d.inval.any (inRegion pa)

/-- Back-invalidation of one half of a directory entry: the region to invalidate, and what the entry keeps (R371). DESIGN
CHOICE, log entry 71. -/
def dirSplit (base size pa : Nat) : (Nat × Nat) × Option (Nat × Nat) :=
  if size ≤ 128 then ((base, size), none)
  else if pa < base + size / 2 then ((base, size / 2), some (base + size / 2, size / 2))
  else ((base + size / 2, size / 2), some (base, size / 2))

/-- Before a device access to an address of device memory: it waits while the host may hold the line, and the directory
starts the back-invalidation of the half that holds it (R371). True when the access may go on. -/
def dirStart (s : State) (pa : Nat) : Bool × State :=
  let d := pa / 0x1000 % 2
  let die := getDie s d
  if die.inval.any (inRegion pa) then (false, s)
  else match findPos (inRegion pa) die.dir with
    | none => (true, s)
    | some i =>
      match die.dir[i]? with
      | none => (true, s)
      | some e =>
        let (gone, kept) := dirSplit e.1 e.2 pa
        (false, modDie s d fun x =>
          { x with inval := x.inval ++ [gone],
                   dir := match kept with
                     | some k => modNth (fun _ => k) x.dir i
                     | none => dropNth x.dir i })

/-! ## Taking an exception (R133, R338-R343, R347) -/

/-- A fault found by a check or an instruction. Cause 0 is no fault: a walk waits for the host to give up the line of a table
entry, whose address `fva` then holds (R371). -/
structure Trap where
  /-- Place in the order of R39; 0 for causes that no check of R39 raises. -/
  chk : Nat
  cause : Nat
  sub : Nat
  acc : Nat
  fva : Word
  code : Nat
  deriving DecidableEq, Repr

/-- A fault with no check, access class or code. DEDUCED, log entry 9. -/
def Trap.plain (cause : Nat) (fva : Word) : Trap := ⟨0, cause, 0, 0, fva, 0⟩

/-- Causes (R339). -/
def cILL : Nat := 1
/-- EMPTY. -/
def cEMPTY : Nat := 2
/-- ALIGN. -/
def cALIGN : Nat := 3
/-- ADDR. -/
def cADDR : Nat := 4
/-- PAGE. -/
def cPAGE : Nat := 5
/-- PERM. -/
def cPERM : Nat := 6
/-- TAG. -/
def cTAG : Nat := 7
/-- BUDGET. -/
def cBUDGET : Nat := 8
/-- BKPT. -/
def cBKPT : Nat := 9
/-- TRAP. -/
def cTRAP : Nat := 10
/-- PACKET. -/
def cPACKET : Nat := 11
/-- MEMERR. -/
def cMEMERR : Nat := 12
/-- HOMELOST. -/
def cHOMELOST : Nat := 13
/-- LOGFULL. -/
def cLOGFULL : Nat := 14

/-- Does a fault send a Flue request: PAGE not present, and MEMERR of GDDR (R343, R347)? -/
def Trap.flue (t : Trap) : Bool := (t.cause == cPAGE && t.sub == 0) || (t.cause == cMEMERR && t.sub == 1)

/-- FCAUSE of a fault (R338). -/
def Trap.word (t : Trap) : Word :=
  wNat (2 ^ 16 * t.code + 2 ^ 11 * t.sub + 2 ^ 10 * t.flue.toNat + 2 ^ 8 * t.acc + t.cause)

/-- Is the cause delivered to the supervisor (R339)? -/
def toSupervisor (s : State) (r : RowId) (cause : Nat) : Bool :=
  decide (cause ≥ cMEMERR) || (getRow s r).priv ||
  ((getCore s r.core).serving &&
    (match partOf s r.core with
      | some p => decide (Wbits (getPart s p).upcall 7 0 = r.row)
      | none => false))

/-- Queue a row for an upcall, once (R341). -/
def queueFault (s : State) (r : RowId) : State :=
  modCore s r.core fun c => if c.faultq.contains r.row then c else { c with faultq := c.faultq ++ [r.row] }

/-- Deliver the fault of a row: to its core's fault queue or to the supervisor queue (R339). -/
def deliver (s : State) (r : RowId) (cause : Nat) : State :=
  if toSupervisor s r cause then sendSupervisor s r.core (faultRecord s r) else queueFault s r

/-- Send a page-fault request up the Flue from the row's tile (R343). -/
def sendFlue (s : State) (r : RowId) (t : Trap) : State :=
  let req : FlueReq :=
    { die := dieOf r.core, router := r.core % 160, port := r.core, core := r.core, asid := asidOf s r.core,
      page := Wbits t.fva 55 12, write := t.acc == 1 || t.acc == 3, memerr := t.cause == cMEMERR }
  { s with flueReqs := s.flueReqs ++ [req] }

/-- Does a check wait rather than fail? -/
def Trap.waits (t : Trap) : Bool := t.cause == 0

/-- The back-invalidation that a waiting walk starts (R371). -/
def walkWaits (s : State) (t : Trap) : State := if t.waits then (dirStart s t.fva.toNat).2 else s

/-- A fault is taken: the row goes FAULTED with WHY 4, PC stays on the instruction, FVA, FCAUSE and RSTEP are written, the
row closes, and the fault is delivered (R133, R338, R339, R343, R347). DEDUCED, log entry 64. -/
def fault (s : State) (r : RowId) (t : Trap) (rstep : Nat) : State :=
  let s1 := leave (modRow s r fun w =>
    { w with st := .faulted, why := 4, waitw := 0, fva := t.fva, fcause := t.word, rstep := rstep, stepping := false,
             due := w.due && t.cause != cBUDGET, await := none, stalled := false }) r
  let s2 := if t.flue then sendFlue s1 r t else s1
  actPend (if t.cause = cMEMERR ∧ t.sub = 1 then s2 else deliver s2 r t.cause) r

/-- TAKING AN EXCEPTION: the fault is taken; a check that waits leaves the row on its instruction. -/
def raise (s : State) (r : RowId) (t : Trap) (rstep : Nat) : State := if t.waits then walkWaits s t else fault s r t rstep

/-- LEAVING AN EXCEPTION by resolution of a page fault: FLUE := 0, and READY when `go` (R344). -/
def flueClear (s : State) (r : RowId) (go : Bool) : State :=
  let s1 := modRow s r fun w => { w with fcause := w.fcause &&& ~~~(0x400#64) }
  if go then makeReady s1 r else s1

/-- Refusal of a page fault: FLUE := 0, REFUSED := 1, and a new delivery (R344, R347). -/
def flueRefuse (s : State) (r : RowId) : State :=
  let s1 := modRow s r fun w => { w with fcause := (w.fcause &&& ~~~(0x400#64)) ||| 0x2000#64 }
  deliver s1 r (Wbits (getRow s1 r).fcause 7 0)

/-! ## Retiring and blocking (R52, R193) -/

/-- The row's instruction retires and PC becomes `next`; a row under STEP stops with WHY 2 (R45, R48). DEDUCED, log entry 28. -/
def retireTo (s : State) (r : RowId) (next : Word) : State :=
  let s1 := bump (modRow s r fun w =>
    { w with pc := next &&& ~~~1#64, rstep := 0, retired := w.retired + 1, marked := [], fetchLen := none, work := 0,
             stalled := false }) r.core 1 1
  let w := getRow s1 r
  actPend (if w.stepping then
      (if w.st = .ready then makeStopped s1 r 2 else modRow s1 r fun w => { w with stepping := false })
    else s1) r

/-- Retire to the instruction `n` bytes on. -/
def retire (s : State) (r : RowId) (n : Nat) : State := retireTo s r ((getRow s r).pc + wNat n)

/-- OR flags into FLAGS (R184). -/
def orFlags (s : State) (r : RowId) (fl : FFlags) : State :=
  if fl = 0 then s else modRow s r fun w => { w with flags := w.flags ||| fl.setWidth 64 }

/-- block(w) of R162: WAITING with WHY 5 on word `w`, and the row closes (R52). -/
def block (s : State) (r : RowId) (w : Nat) : State :=
  actPend (bump (leave (modRow s r fun x => { x with st := .waiting, why := 5, waitw := w, stalled := false }) r) r.core 9 1) r

/-- The row goes WAITING for another reason after its instruction has retired, and closes (R133). -/
def waitFor (s : State) (r : RowId) (why : Nat) (aw : Option (Nat × Bool)) : State :=
  if (getRow s r).st = .ready then
    leave (modRow s r fun x => { x with st := .waiting, why := why, waitw := 0, await := aw }) r
  else s

/-- Rounding mode of its code in FLAGS (R45). -/
def rmCode : Nat → RMode
  | 0 => .rne
  | 1 => .rz
  | 2 => .ru
  | _ => .rd

/-- mode(): the rounding mode of a row (R45, R162). -/
def rmOf (s : State) (r : RowId) : RMode := rmCode (Wbits (getRow s r).flags 6 5)

end Sys2Proof.Machine
end

