-- ==== Sys2Proof/Machine/Xlate.lean ====
section
/-!
DEFINITION. The physical map (R12-R23), slices (R62), the table walk and translation (R24-R37), and the checks of a
whole access (R38-R42).
-/

namespace Sys2Proof.Machine

/-! ## The physical map -/

/-- What a physical address names (R12-R17). -/
inductive Region where
  | gddr
  | tagw
  /-- Byte `off` of a row, through window `win`. -/
  | row (r : RowId) (win off : Nat)
  /-- Byte `off` of a core's control page. -/
  | ctl (core off : Nat)
  | host
  /-- Peer device memory. -/
  | peerMem (idx : Nat)
  /-- Byte `off` of one of a peer's core apertures. -/
  | peerAp (idx off : Nat)
  /-- System register number. -/
  | sys (num : Nat)
  /-- Byte `off` of the notify page, or of the control page, of an inbox queue (R361). -/
  | queue (q : Nat) (ctl : Bool) (off : Nat)
  | hole
  deriving DecidableEq, Repr

/-- Offsets inside a core aperture (R17). -/
def apertureRegion (core off : Nat) : Region :=
  if off < 0x800000 then .row ⟨core, off / 0x1000 % 256⟩ (off / 0x100000) (off % 0x1000)
  else if off < 0x810000 then .ctl core (off - 0x800000)
  else .hole

/-- The region of a physical address, with the holes of minimal mode (R12-R17, R361, R397). Rows reach the queue pages of
the register range as the host does: DEDUCED, log entry 74. -/
def region (s : State) (pa : Nat) : Region :=
  if pa < 0x3000000000 then (if s.pkg.minimal && pa / 0x1000 % 2 == 1 then .hole else .gddr)
  else if 0x2000000000000 ≤ pa ∧ pa < 0x20000C0000000 then
    (if s.pkg.minimal && (pa - 0x2000000000000) * 64 / 0x1000 % 2 == 1 then .hole else .tagw)
  else if rowBase ≤ pa ∧ pa < rowBase + 320 * 0x1000000 then
    let core := (pa - rowBase) / 0x1000000
    if corePresent s core then apertureRegion core ((pa - rowBase) % 0x1000000) else .hole
  else if 0x8000000000000 ≤ pa ∧ pa < 0xC000000000000 then .host
  else if 0xC000000000000 ≤ pa ∧ pa < 0xD000000000000 then
    let idx := pa / 2 ^ 40 % 256
    let off := pa % 2 ^ 40
    if off < 0x3000000000 then .peerMem idx
    else if 0x8000000000 ≤ off ∧ off < 0x8000000000 + 320 * 0x1000000 then
      let o := (off - 0x8000000000) % 0x1000000
      if o < 0x810000 then .peerAp idx o else .hole
    else .hole
  else if 0xF000000000000 ≤ pa ∧ pa < 0xF000000000000 + 0x8000 then
    let k := (pa - 0xF000000000000) / 8
    if sysAssigned k then .sys k else .hole
  else if 0xF000001000000 ≤ pa ∧ pa < 0xF000001000000 + 256 * 0x2000 then
    let o := pa - 0xF000001000000
    .queue (o / 0x2000) (decide (0x1000 ≤ o % 0x2000)) (o % 0x1000)
  else .hole

/-- The home die of an address that has one (R14). -/
def homeDie (s : State) (pa : Nat) : Option Nat :=
  match region s pa with
  | .gddr => some (pa / 0x1000 % 2)
  | .tagw => some ((pa - 0x2000000000000) * 64 / 0x1000 % 2)
  | .row r _ _ => some (dieOf r.core)
  | .ctl c _ => some (dieOf c)
  | _ => none

/-- The canonical address of a byte: row-store bytes through window 0 (R18). A row store of a peer is reached at the address that
the access names, so its windows are places of their own here: DESIGN CHOICE, log entry 114. -/
def canonPa (s : State) (pa : Nat) : Nat :=
  match region s pa with
  | .row r _ off => rowPa r off
  | _ => pa

/-- Is a peer routed (R16)? -/
def routed (s : State) (idx : Nat) : Bool :=
  (smGet 0 s.pkg.flroute idx).getLsbD 16 && idx != s.pkg.devidx.toNat % 256

/-! ## Slices (R62) -/

/-- The VA-hashed slice number of a line L = VA[55:7]. -/
def vaSlice (l : Nat) : Nat :=
  (Nat.xor (Nat.xor (bitsOf l 15 0) (bitsOf l 31 16)) (Nat.xor (bitsOf l 47 32) (bitsOf l 48 48))) % 160

/-- The PA-hashed slice number of a line PA[51:7]. -/
def paSlice (p : Nat) : Nat := (Nat.xor (Nat.xor (bitsOf p 15 0) (bitsOf p 31 16)) (bitsOf p 44 32)) % 160

/-! ## Translation -/

/-- Who an access is made for: its core, context and privilege (R26, R42). -/
structure Ctx where
  core : Nat
  row : Nat
  part : Option Nat
  asid : Nat
  priv : Bool
  deriving DecidableEq, Repr

/-- The context of a row (R45). -/
def ctxOf (s : State) (r : RowId) : Ctx := ⟨r.core, r.row, partOf s r.core, asidOf s r.core, (getRow s r).priv⟩

/-- The row a context belongs to. -/
def Ctx.rid (c : Ctx) : RowId := ⟨c.core, c.row⟩

/-- The line identified by physical address on a die, if a slice holds it (R64). -/
def findPhys (s : State) (die pl : Nat) : Option Nat :=
  findPos (fun x => x.die == die && x.phys && x.line == pl) s.l2

/-- Bytes of a cached line. -/
def lineBytes (x : Line) (off n : Nat) : List Byte := (x.data.drop off).take n

/-- The 8-byte load of a table entry, where a G = 1 access is performed (R37); none when GDDR has an uncorrectable error
there (R347). -/
def readEntry (s : State) (pa : Nat) : Option Word :=
  match findPhys s (pa / 0x1000 % 2) (pa / 128) with
  | some i =>
    match s.l2[i]? with
    | some x => some (wNat (leNat (lineBytes x (pa % 128) 8)))
    | none => some 0
  | none => if s.poison.contains (pa / 8) then none else some (wNat (leNat (memRead s pa 8)))

/-- Is a node, of 16 KiB at an aligned address, entirely in device memory (R31)? In minimal mode a node's absent pages do
not count against it: DESIGN CHOICE, log entry 76. -/
def nodeOk (base : Nat) : Bool := decide (0x4000 + base ≤ 0x3000000000)

/-- Is a leaf entry valid at its level (R31)? -/
def leafOk (e : Word) (level : Nat) : Bool :=
  Wbits e 9 8 != 3 &&
  (match level with
    | 1 => Wbits e 33 12 == 0
    | 2 => Wbits e 22 12 == 0
    | _ => true) &&
  (!e.getLsbD 7 || decide (0x1000 + 0x1000 * Wbits e 51 12 ≤ 0x3000000000))

/-- The error of a walk that reads an uncorrectable entry; 0-2 are the SUB codes of PAGE (R338, R347). -/
def walkMemerr : Nat := 3

/-- The error of a walk that reads a node of a failed die (R375). -/
def walkLost : Nat := 4

/-- The error of a walk that waits for the host to give up the line of the entry at `pa` (R371). -/
def walkWait (pa : Nat) : Nat := 8 + pa

/-- The walk from a node at `base`, level by level; on failure its SUB, `walkMemerr` or `walkLost` (R27-R31, R347,
R375). -/
def walkFrom (s : State) (vpn : Nat) : (fuel level base : Nat) → Except Nat (Word × Nat)
  | 0, _, _ => .error 1
  | fuel + 1, level, base =>
    if !nodeOk base then .error 1
    else if (getDie s ((base + bitsOf vpn (43 - 11 * level) (33 - 11 * level) * 8) / 0x1000 % 2)).failed then .error walkLost
    else
      match readEntry s (base + bitsOf vpn (43 - 11 * level) (33 - 11 * level) * 8) with
      | none => .error walkMemerr
      | some e =>
        if !e.getLsbD 0 then .error 0
        else if e.getLsbD 1 then (if level != 0 && leafOk e level then .ok (e, level) else .error 1)
        else walkFrom s vpn fuel (level + 1) (0x4000 * Wbits e 51 14)

/-- The leaf that identity mode stands for (R26). -/
def identLeaf (vpn : Nat) : Word := wNat (0x1000 * vpn + 0x5F)

/-- The walk of a page for a partition: the leaf entry and its level, or SUB (R26, R31). -/
def walk (s : State) (part : Option Nat) (vpn : Nat) : Except Nat (Word × Nat) :=
  match part with
  | none => .error 2
  | some p =>
    let root := (getPart s p).root
    if !root.getLsbD 0 then .error 2
    else if root.getLsbD 1 then (if vpn < 2 ^ 40 then .ok (identLeaf vpn, 3) else .error 1)
    else walkFrom s vpn 4 0 (0x4000 * Wbits root 51 14)

/-- The physical page that a leaf gives for page `vpn`; `src` is the page whose entry it is (R29, R36). DEDUCED, log entry
19. A negative distance that would lead below page 0 gives page 0, and one that leads to page 2^40 or above gives an address of 2^52
or more, which is a hole: DESIGN CHOICE, log entry 77. -/
def leafPage (e : Word) (level vpn src : Nat) : Nat :=
  let pfn := Wbits e 51 12
  match level with
  | 1 => pfn + vpn % 2 ^ 22
  | 2 => pfn + vpn % 2 ^ 11
  | _ => pfn + vpn - src

/-- Does the walk of page `vpn` find a 4 KiB leaf with CONTIG = 1 (R36)? -/
def walkContig (s : State) (part : Option Nat) (vpn : Nat) : Bool :=
  match walk s part vpn with
  | .ok (e, l) => l == 3 && e.getLsbD 52
  | .error _ => false

/-- Is a page in a 64 KiB group some entry of which has CONTIG = 1 (R36)? -/
def groupContig (s : State) (part : Option Nat) (vpn : Nat) : Bool :=
  (List.range 16).any fun k => walkContig s part (vpn / 16 * 16 + k)

/-- Does a translation-cache entry translate page `vpn` (R36, R37)? In a group with CONTIG = 1 any of its entries does. -/
def tlbCovers (s : State) (part : Option Nat) (t : Tlb) (vpn : Nat) : Bool :=
  match t.level with
  | 1 => t.vpn / 2 ^ 22 == vpn / 2 ^ 22
  | 2 => t.vpn / 2 ^ 11 == vpn / 2 ^ 11
  | _ => t.vpn == vpn || (t.vpn / 16 == vpn / 16 && (t.leaf.getLsbD 52 || groupContig s part vpn))

/-- A translated page. -/
structure Xl where
  /-- Physical address of the page. -/
  page : Nat
  leaf : Word
  /-- Pages that the translation covers (R213). -/
  span : Nat
  deriving DecidableEq, Repr

/-- Pages that a leaf translates as one: of a large leaf, or of a group with CONTIG = 1 (R27, R36). DEDUCED, log entry 49. -/
def leafSpan (e : Word) (level : Nat) : Nat :=
  match level with
  | 1 => 2 ^ 22
  | 2 => 2 ^ 11
  | _ => if e.getLsbD 52 then 16 else 1

/-- The translation-cache entry of a slice that translates page `vpn` (R37, R64). -/
def tlbFind (s : State) (c : Ctx) (slice vpn : Nat) : Option Nat :=
  findPos (fun t => t.die == dieOf c.core && t.slice == slice && t.asid == c.asid && tlbCovers s c.part t vpn) s.tlb

/-- Translate page `vpn` for a context at a slice: through the slice's translation cache when it holds an entry, else
by a walk (R37, R64). Identity mode and disabled translation use no cache. -/
def translate (s : State) (c : Ctx) (slice vpn : Nat) : Except Nat Xl :=
  let plain := match walk s c.part vpn with
    | .ok (e, l) => Except.ok ⟨0x1000 * leafPage e l vpn vpn, e, leafSpan e l⟩
    | .error sub => .error sub
  match c.part with
  | none => plain
  | some p =>
    let root := (getPart s p).root
    if !root.getLsbD 0 || root.getLsbD 1 then plain
    else
      match tlbFind s c slice vpn with
      | some i =>
        (match s.tlb[i]? with
          | some t => .ok ⟨0x1000 * leafPage t.leaf t.level vpn t.vpn, t.leaf, if t.level = 3 ∧ t.vpn ≠ vpn then 16 else leafSpan t.leaf t.level⟩
          | none => plain)
      | none => plain

/-- The address of the first table entry on a walk's way whose line the host may hold (R371). -/
def heldFrom (s : State) (vpn : Nat) : (fuel level base : Nat) → Option Nat
  | 0, _, _ => none
  | fuel + 1, level, base =>
    let pa := base + bitsOf vpn (43 - 11 * level) (33 - 11 * level) * 8
    if !nodeOk base || (getDie s (pa / 0x1000 % 2)).failed then none
    else if hostHolds s pa then some pa
    else
      match readEntry s pa with
      | none => none
      | some e => if e.getLsbD 0 && !e.getLsbD 1 then heldFrom s vpn fuel (level + 1) (0x4000 * Wbits e 51 14) else none

/-- The table entry that a walk of a page for a partition waits for, if any (R371). -/
def walkHeld (s : State) (part : Option Nat) (vpn : Nat) : Option Nat :=
  match part with
  | none => none
  | some p =>
    let root := (getPart s p).root
    if !root.getLsbD 0 || root.getLsbD 1 then none else heldFrom s vpn 4 0 (0x4000 * Wbits root 51 14)

/-- Translate a page for an access: as `translate`, but a walk waits while the host may hold the line of an entry (R371). -/
def translateWait (s : State) (c : Ctx) (slice vpn : Nat) : Except Nat Xl :=
  match (if (tlbFind s c slice vpn).isSome then none else walkHeld s c.part vpn) with
  | some pa => .error (walkWait pa)
  | none => translate s c slice vpn

/-! ## Pointers (R24) -/

/-- The pointer of byte `i` of an access at `p`. -/
def bytePtr (p : Word) (i : Nat) : Word := wNat (2 ^ 56 * Wbits p 63 56 + (Wbits p 55 0 + i) % 2 ^ 56)

/-- The byte of `n ≥ 1` bytes at `p` that fails R24 and has the lowest address: a byte past 2^56 has wrapped to VA 0. DEDUCED, log entry 68. -/
def canonFail (p : Word) (n : Nat) : Option Nat :=
  let v := Wbits p 55 0
  if (v + n - 1) / 2 ^ 56 ≠ 0 then some (2 ^ 56 - v)
  else if Wbits p 63 60 ≠ (if v < 2 ^ 55 then 0 else 15) then some 0
  else if v < 2 ^ 55 ∧ 2 ^ 55 < v + n then some (2 ^ 55 - v)
  else none

/-- The bytes of an access of `n` bytes at `p` that satisfy R24: from the first number up to the second. -/
def canonGood (p : Word) (n : Nat) : Nat × Nat :=
  let v := Wbits p 55 0
  match Wbits p 63 60 with
  | 0 => if v < 2 ^ 55 then (0, min n (2 ^ 55 - v)) else (0, 0)
  | 15 => (2 ^ 55 - v, min n (2 ^ 56 - v))
  | _ => (0, 0)

/-- The segments of `n` bytes at `p` within 4 KiB pages: first byte and length, from byte `i` on. -/
def segsFrom (p : Word) (n : Nat) : (fuel i : Nat) → List (Nat × Nat)
  | 0, _ => []
  | fuel + 1, i =>
    if n ≤ i then [] else
      let len := min (n - i) (0x1000 - (Wbits p 55 0 + i) % 0x1000)
      (i, len) :: segsFrom p n fuel (i + len)

/-- The page segments of the bytes of an access from `lo` up to `hi`. -/
def segs (p : Word) (lo hi : Nat) : List (Nat × Nat) := segsFrom p hi (hi / 0x1000 + 2) lo

/-! ## Checking a whole access (R38-R42) -/

/-- What kind of access is checked. -/
structure Acc where
  rd : Bool := false
  wr : Bool := false
  /-- Instruction fetch. -/
  ex : Bool := false
  /-- ACC of R338: 0 read, 1 write, 2 fetch, 3 read-modify-write. -/
  code : Nat := 0
  /-- A scalar load or store of 1 to 8 bytes, the only form some ranges accept (R20, R22). -/
  scalar : Bool := false
  atomic : Bool := false
  /-- `sync.fe.clr`, `sync.fe.set` (R250). -/
  bits : Bool := false
  /-- An engine access (R42, R61). -/
  engine : Bool := false
  /-- Range maintenance, which skips what is not cached (R79, R249). -/
  maint : Bool := false
  /-- A sync object (R111). -/
  obj : Bool := false
  /-- A copy piece whose pointers and length are multiples of 8: it may reach a control page (R20). -/
  ctlOk : Bool := false
  /-- The memory part of a distributor block, and its row-store part (R76). -/
  dist : Bool := false
  distRow : Bool := false
  /-- MTAG of the base pointer, where that is not the pointer of the access (R42). -/
  mtag : Option Nat := none
  deriving DecidableEq, Repr

/-- A plain scalar load. -/
def accLoad : Acc := { rd := true, scalar := true }
/-- An atomic. -/
def accAmo : Acc := { rd := true, wr := true, code := 3, atomic := true }
/-- A plain scalar store. -/
def accStore : Acc := { wr := true, code := 1, scalar := true }

/-- Does a store that touches offset `off` of a row break the rule of CTL: it must be exactly its aligned 8 bytes and no
read-modify-write (R47)? -/
def ctlAlign (a : Acc) (p : Word) (n off : Nat) : Bool :=
  a.wr && !a.engine && decide (off < 8) && !(n == 8 && p.toNat % 8 == 0 && a.code != 3)

/-- Does an access break the rule of a control page, a register or a queue page: an aligned scalar load or store of 8
bytes (R20, R397)? -/
def exact8 (a : Acc) (p : Word) (n : Nat) : Bool := a.scalar && !a.atomic && n == 8 && p.toNat % 8 == 0

/-- Check 1 for a target range: R20 (control page), R22 (tag window), R47 (CTL), R397 (system registers). DEDUCED, log entry 8.
A fetch of the matrix sequencer and a load or store of an edge engine to the tag window fail it too: DESIGN CHOICE, log
entry 101. -/
def rangeAlign (a : Acc) (p : Word) (n : Nat) (rg : Region) : Bool :=
  let ctlPage := !exact8 a p n && !a.ctlOk && !a.dist && !a.distRow
  if a.ex || a.maint || a.obj then false
  else if a.bits then (match rg with
    | .row _ _ _ => false
    | _ => true)
  else match rg with
    | .ctl _ _ => ctlPage
    | .sys _ => !exact8 a p n
    | .queue _ _ _ => !exact8 a p n
    | .tagw => !a.atomic && !(a.scalar && decide (n ≤ 8))
    | .row _ _ off => ctlAlign a p n off
    | .peerAp _ off => if off < 0x800000 then ctlAlign a p n (off % 0x1000) else ctlPage
    | _ => false

/-- Does a part of a distributor block lie where R76 does not allow it? The registers fail check 1 before (R397): DEDUCED, log
entry 8. -/
def distFail (a : Acc) (rg : Region) : Bool :=
  match rg with
  | .hole => false
  | .sys _ => false
  | .queue _ _ _ => false
  | .gddr => a.distRow
  | .row _ _ _ => a.dist
  | _ => a.dist || a.distRow

/-- The swapped-out partition, or the one being replayed, that an access of context `asid` at a core is aimed at
(R354, R355). -/
def aimedAsid (s : State) (core asid : Nat) : Option Nat :=
  let c := getCl s (clOf core)
  if c.svalid && asidOfPart s c.spart == asid then some c.spart
  else if c.valid && !(getPart s c.part).log.isEmpty && asidOfPart s c.part == asid then some c.part
  else none

/-- PRIV of the row at `r` that an access of context `asid` is aimed at: of the shadow array for a swapped-out partition
(R55, R354). -/
def privAt (s : State) (asid : Nat) (r : RowId) : Bool :=
  let c := getCl s (clOf r.core)
  if c.svalid && asidOfPart s c.spart == asid then
    (smGet {} (smGet {} s.shadow r.core : ShadowCore).rows r.row : Row).priv
  else (getRow s r).priv

/-- The offset in a segment of the lowest byte that an engine may not write (R61). -/
def engineFail (off len : Nat) : Option Nat :=
  if off < 0x80 then some 0
  else if off < 0x108 ∧ 0x100 < off + len then some (max off 0x100 - off)
  else none

/-- A refusal at check 4: the offset in the segment of the lowest failing byte (R32, R33, R55, R61, R111, R245). A page
absent in minimal mode is still a page of device memory for R32. DEDUCED, log entry 66. -/
def permFail (s : State) (c : Ctx) (a : Acc) (leaf : Word) (pa : Nat) (rg : Region) (len : Nat) : Option Nat :=
  if (!c.priv && !leaf.getLsbD 5) || (a.rd && !leaf.getLsbD 2) || (a.wr && !leaf.getLsbD 3) || (a.ex && !leaf.getLsbD 4) ||
    distFail a rg
  then some 0
  else match rg with
    | .row r _ off =>
      if a.ex || a.obj then some 0
      else if a.wr && !a.maint && !c.priv && privAt s c.asid r then some 0
      else if a.wr && a.engine then engineFail off len
      else none
    | .tagw => if a.ex || a.atomic || a.obj then some 0 else none
    | .ctl _ _ => if a.ex || a.obj then some 0 else none
    | .sys _ => if a.ex || a.obj then some 0 else none
    | .queue _ _ _ => if a.ex || a.obj then some 0 else none
    | .peerMem _ => if a.ex then some 0 else none
    | .peerAp _ off =>
      if a.ex || a.obj then some 0
      else if a.wr && a.engine && decide (off < 0x800000) then engineFail (off % 0x1000) len
      else none
    | .hole => if a.ex && decide (0x3000000000 ≤ pa) then some 0 else none
    | .host => if (a.atomic || a.obj) && !(getDie s (dieOf c.core)).cxl then some 0 else none
    | _ => none

/-- The memory tag of the granule at `pa` in the side band (R22). -/
def sideTag (s : State) (pa : Nat) : Nat :=
  let b := (memByte s (0x2000000000000 + pa / 64)).toNat
  if pa / 32 % 2 = 0 then b % 16 else b / 16

/-- The tags of the four granules of line `pl` in the side band (R63). -/
def lineTags (s : State) (pl : Nat) : List Nat := (List.range 4).map fun k => sideTag s (128 * pl + 32 * k)

/-- The memory tag of the granule at `pa`, of a copy of its line that holds tags, else of the side band (R22, R63). -/
def tagOf (s : State) (pa : Nat) : Nat :=
  match s.l2.find? fun x => x.pl == pa / 128 && x.tags.isSome with
  | some x => (x.tags.getD []).getD (pa / 32 % 4) 0
  | none => sideTag s pa

/-- A store to the tag window: the side band, and every copy of the lines it describes (R23). -/
def tagWrite (s : State) (pa : Nat) (bs : List Byte) : State :=
  let t := memWrite s pa bs
  { t with l2 := t.l2.map fun x => if x.tags.isSome then { x with tags := some (lineTags t x.pl) } else x }

/-- The lowest byte of a segment in a granule whose tag differs, looking at each granule. -/
def tagFail (s : State) (mtag pa : Nat) : (fuel i len : Nat) → Option Nat
  | 0, _, _ => none
  | fuel + 1, i, len =>
    if len ≤ i then none
    else if tagOf s (pa + i) ≠ mtag then some i
    else tagFail s mtag pa fuel (i + (32 - (pa + i) % 32)) len

/-- One page segment of an access, with its translation. -/
structure Seg where
  i : Nat
  len : Nat
  xl : Except Nat Xl

/-- The physical address of a segment's first byte. -/
def segPa (p : Word) (i : Nat) (x : Xl) : Nat := x.page + (Wbits p 55 0 + i) % 0x1000

/-- Trap `cause` at the lowest segment for which `f` names a failing byte. -/
def firstFail (p : Word) (chk cause code : Nat) (f : Nat → Nat → Xl → Option Nat) : List Seg → Option Trap
  | [] => none
  | g :: gs =>
    match g.xl with
    | .ok x =>
      match f g.i g.len x with
      | some k => some ⟨chk, cause, 0, code, bytePtr p (g.i + k), 0⟩
      | none => firstFail p chk cause code f gs
    | .error _ => firstFail p chk cause code f gs

/-- Translate the segments of an access, each at the VA-hashed slice of its first byte (R64), also where it goes on into
another line and so another slice: DESIGN CHOICE, log entry 78. -/
def xlSegs (s : State) (c : Ctx) (p : Word) (lo hi : Nat) : List Seg :=
  (segs p lo hi).map fun (i, len) =>
    let va := (Wbits p 55 0 + i) % 2 ^ 56
    ⟨i, len, translateWait s c (vaSlice (va / 128)) (va / 0x1000)⟩

/-- Bytes of a physical address range that lie in one region: 8 among the registers, 64 in the tag window, else a page. -/
def grain (pa : Nat) : Nat :=
  if pa < 0x2000000000000 then 0x1000
  else if pa < 0x4000000000000 then 64
  else if pa < 0xF000000000000 then 0x1000
  else 8

/-- Cut a segment where its region may change (R38). -/
def cutFrom (p : Word) (x : Xl) (hi : Nat) : (fuel i : Nat) → List Seg
  | 0, _ => []
  | fuel + 1, i =>
    if hi ≤ i then [] else
      let pa := segPa p i x
      let len := min (hi - i) (grain pa - pa % grain pa)
      ⟨i, len, .ok x⟩ :: cutFrom p x hi fuel (i + len)

/-- The segments of an access, each in one region. -/
def cutSegs (p : Word) : List Seg → List Seg
  | [] => []
  | g :: gs =>
    (match g.xl with
      | .ok x => cutFrom p x (g.i + g.len) (g.len / 8 + 2) g.i
      | .error _ => [g]) ++ cutSegs p gs

/-- The fault of a walk that ends with error `sub`: PAGE, MEMERR of an uncorrectable entry (R347), HOMELOST of one on a failed
die (R375), or the wait for the host (R371). DEDUCED, log entry 79. -/
def walkTrap (p : Word) (i code sub : Nat) : Trap :=
  if sub = walkMemerr then ⟨3, cMEMERR, 1, code, bytePtr p i, 0⟩
  else if sub = walkLost then ⟨3, cHOMELOST, 0, code, p, 0⟩
  else if walkWait 0 ≤ sub then ⟨3, 0, 0, code, wNat (sub - walkWait 0), 0⟩
  else ⟨3, cPAGE, sub, code, bytePtr p i, 0⟩

/-- The walk failure of the lowest segment (check 3). -/
def pageFail (p : Word) (code : Nat) : List Seg → Option Trap
  | [] => none
  | g :: gs =>
    match g.xl with
    | .ok _ => pageFail p code gs
    | .error sub => some (walkTrap p g.i code sub)

/-- Is a window of index `i` a hole: the device's own index, or a peer that is not routed (R16)? The window of a peer all of
whose ports have failed is not: its accesses end later with HOMELOST (R374). -/
def unrouted (s : State) (i : Nat) : Bool := i == s.pkg.devidx.toNat % 256 || (!routed s i && !s.pkg.peerLost.contains i)

/-- Is a target a hole or an unrouted peer (check 5; R13, R16)? A lost peer or die ends later with HOMELOST. -/
def holeFail (s : State) (rg : Region) : Bool :=
  match rg with
  | .hole => true
  | .peerMem i => unrouted s i
  | .peerAp i _ => unrouted s i
  | _ => false

/-- Is a target on a failed die or behind a failed route (R374, R375)? -/
def lostFail (s : State) (pa : Nat) : Bool :=
  match region s pa with
  | .peerMem i => s.pkg.peerLost.contains i
  | .peerAp i _ => s.pkg.peerLost.contains i
  | _ =>
    match homeDie s pa with
    | some d => (getDie s d).failed
    | none => false

/-- The 16-byte parts of a segment, checked against MTAG `mt`. -/
def partsFrom (p : Word) (x : Xl) (asid mt i len : Nat) : (fuel k : Nat) → List Part
  | 0, _ => []
  | fuel + 1, k =>
    if len ≤ k then [] else
      let pa := segPa p i x + k
      let n := min (len - k) (16 - pa % 16)
      ⟨bytePtr p (i + k), pa, n, i + k, asid, Wbits x.leaf 9 8, x.leaf.getLsbD 6, x.leaf.getLsbD 7,
        x.span, mt⟩ ::
        partsFrom p x asid mt i len fuel (k + n)

/-- The parts of the segments whose translation succeeded. -/
def allParts (p : Word) (asid mt : Nat) : List Seg → List Part
  | [] => []
  | g :: gs =>
    (match g.xl with
      | .ok x => partsFrom p x asid mt g.i g.len (g.len / 16 + 2) 0
      | .error _ => []) ++ allParts p asid mt gs

/-- The MTAG that an access at `p` is checked against: its own, or that of the base pointer (R42). -/
def accTag (a : Acc) (p : Word) : Nat := a.mtag.getD (Wbits p 59 56)

/-- Check a whole access of `n ≥ 1` bytes at `p` (R38, R39); `align` is the instruction's own rule of check 1.
The parts of the access, translated, or the fault that decides. -/
def check (s : State) (c : Ctx) (a : Acc) (p : Word) (n : Nat) (align : Bool) : Except Trap (List Part) :=
  let cf := canonFail p n
  let pg := xlSegs s c p (canonGood p n).1 (canonGood p n).2
  let sg := cutSegs p pg
  let rgAt := fun (i : Nat) (x : Xl) => region s (segPa p i x)
  let badRange := sg.any fun g => match g.xl with
    | .ok x => rangeAlign a p n (rgAt g.i x)
    | .error _ => false
  if align || badRange then .error ⟨1, cALIGN, 0, a.code, p, 0⟩
  else match cf with
    | some k => .error ⟨2, cADDR, 0, a.code, bytePtr p k, 0⟩
    | none =>
      match pageFail p a.code sg with
      | some t => .error t
      | none =>
        match firstFail p 4 cPERM a.code (fun i len x => permFail s c a x.leaf (segPa p i x) (rgAt i x) len) sg with
        | some t => .error t
        | none =>
          match firstFail p 5 cADDR a.code (fun i _ x => if holeFail s (rgAt i x) then some 0 else none) sg with
          | some t => .error t
          | none =>
            match firstFail p 6 cTAG a.code (fun i len x =>
              if x.leaf.getLsbD 7 then tagFail s (accTag a p) (segPa p i x) (len / 32 + 2) 0 len else none) sg with
            | some t => .error t
            | none =>
              if sg.any fun g => match g.xl with
                | .ok x => lostFail s (segPa p g.i x)
                | .error _ => false
              then .error ⟨7, cHOMELOST, 0, a.code, p, 0⟩
              else .ok (allParts p c.asid (accTag a p) pg)

/-- Of the faults of several lanes in lane order, the one of the earliest check, lowest lane (R39, R240). -/
def laneFault : List Trap → Option Trap
  | [] => none
  | t :: ts =>
    match laneFault ts with
    | none => some t
    | some u => if u.chk < t.chk then some u else some t

end Sys2Proof.Machine
end

