-- ==== Sys2Proof/Machine/L2.lean ====
section
/-!
DEFINITION. The L2 slices: home and guest lines, filling, writing, evicting, write-back and invalidation (R62-R69, R79,
R371, R372), compression (R68), and the copies of DATE the slices hold (R114).
-/

namespace Sys2Proof.Machine

/-- The slice, 0-319, that holds a line (R62, R64). -/
def Line.slice (x : Line) : Nat := 160 * x.die + (if x.phys then paSlice x.line else vaSlice x.line)

/-- The DATE a slice holds: the Calendar's, unless its broadcast is late (R114). -/
def sliceDate (s : State) (slice : Nat) : Nat := (smGet none s.pkg.lag slice).getD s.pkg.date

/-- Halves of a frame that a form takes (R68). -/
def Form.halves : Form → Nat
  | .raw => 2
  | _ => 1

/-- Word `k` of a line. -/
def lineWord (d : List Byte) (k : Nat) : Nat := leNat ((d.drop (8 * k)).take 8)

/-- Does every word of a line lie within `b` bytes of word 0, as a signed delta (R68)? -/
def deltaFits (d : List Byte) (b : Nat) : Bool :=
  (List.range 16).all fun k =>
    let v := sInt 64 (2 ^ 64 + lineWord d k - lineWord d 0)
    decide (-(2 ^ (8 * b - 1) : Int) ≤ v) && decide (v < 2 ^ (8 * b - 1))

/-- May a line be held in a form (R68)? -/
def formOk (f : Form) (d : List Byte) : Bool :=
  match f with
  | .raw => true
  | .d1 => deltaFits d 1
  | .d2 => deltaFits d 2
  | .d4 => deltaFits d 4

/-- Halves that a slice's lines take. -/
def halvesUsed (s : State) (slice : Nat) : Nat :=
  s.l2.foldl (fun n x => if x.slice = slice then n + x.form.halves else n) 0

/-- The form of the fewest halves that a line fits: the choice a slice makes when it fills or writes a line (R68,
DESIGN CHOICE, log entry 80). -/
def bestForm (d : List Byte) : Form :=
  if !deltaFits d 4 then .raw else if deltaFits d 1 then .d1 else if deltaFits d 2 then .d2 else .d4

/-- The GDDR channel of a byte within its die (R78). -/
def channelOf (pa : Nat) : Nat := Nat.xor (Nat.xor (bitsOf pa 11 8) (bitsOf pa 17 14)) (bitsOf pa 23 20)

/-- Count an uncorrectable error of a die's structure `k`, raised by unit `unit` (R395). -/
def countUnc (s : State) (die k unit : Nat) : State :=
  modDie s die fun d =>
    let e : Serr := smGet {} d.serr k
    { d with serr := smSet {} d.serr k { e with unc := min (e.unc + 1) 0xFFFF, last := unit } }

/-- An uncorrectable error in GDDR that a write-back meets is counted, and no row hears of it (R347, R395). -/
def meetError (s : State) (pl : Nat) : State :=
  if (wordKeys (128 * pl) 128).any s.poison.contains then countUnc s (pl / 32 % 2) 4 (channelOf (128 * pl)) else s

/-- Write a dirty line back to memory (R66). -/
def writeBack (s : State) (x : Line) : State :=
  if x.dirty then
    let s1 := meetError s x.pl
    unpoison (memWrite s1 (128 * x.pl) x.data) (wordKeys (128 * x.pl) 128)
  else s

/-- Evict line `i`: a dirty line is written back first (R66). -/
def evictAt (s : State) (i : Nat) : State :=
  match s.l2[i]? with
  | some x => let s1 := writeBack s x; { s1 with l2 := dropNth s1.l2 i }
  | none => s

/-- Make room for `need` halves in a slice by evicting its oldest lines (R63, R68). The spec leaves the choice of the line to the
slice, and a turn may evict any line before: DESIGN CHOICE, log entry 116. -/
def makeRoom (s : State) (slice need : Nat) : (fuel : Nat) → State
  | 0 => s
  | fuel + 1 =>
    if halvesUsed s slice + need ≤ 8192 then s
    else match findPos (fun x => x.slice == slice) s.l2 with
      | some i => makeRoom (evictAt s i) slice need fuel
      | none => s

/-- Clean every dirty copy that satisfies `p`; the copies stay valid. Several dirty copies of one line are written back in
the order they are held: DESIGN CHOICE, log entry 81 (R35). -/
def cleanWhere (s : State) (p : Line → Bool) : State :=
  let s1 := s.l2.foldl (fun t x => if p x then writeBack t x else t) s
  { s1 with l2 := s1.l2.map fun x => if p x then { x with dirty := false } else x }

/-- Invalidate every copy that satisfies `p`, dirty or not. -/
def dropWhere (s : State) (p : Line → Bool) : State := { s with l2 := s.l2.filter fun x => !p x }

/-- Write back the dirty copies that satisfy `p` and invalidate all of them. -/
def flushWhere (s : State) (p : Line → Bool) : State := dropWhere (cleanWhere s p) p

/-- How an access to cacheable memory is served (R65). -/
inductive Route where
  /-- At the home or target, past every cache. -/
  | direct
  /-- At a line of die `die` identified by physical address or by (ASID, L). -/
  | home (die : Nat) (phys : Bool)
  /-- At a guest line of die `die`; the home copy is on die `hd` for the other die's memory, none for a peer. -/
  | guest (die : Nat) (phys : Bool) (hd : Option Nat)
  deriving DecidableEq, Repr

/-- The route of a part for a requester on `die` (R33, R64, R65). DEDUCED, log entry 23. -/
def routeOf (s : State) (die : Nat) (p : Part) : Route :=
  match region s p.pa with
  | .gddr =>
    let hd := p.pa / 0x1000 % 2
    if p.ca = 1 then .direct
    else if p.g then .home hd true
    else if hd = die then .home die false
    else .guest die false (some hd)
  | .host => if p.ca = 1 || !(getDie s die).cxl then .direct else .home die p.g
  | .peerMem _ => if p.ca = 1 then .direct else if p.g then .guest 0 true none else .guest die false none
  | _ => .direct

/-- Line number L of a part's pointer (R62). -/
def lineL (p : Part) : Nat := Wbits p.va 55 7

/-- Find the line of a part on a die. -/
def findLine (s : State) (die : Nat) (phys : Bool) (p : Part) : Option Nat :=
  findPos (fun x => x.die == die && x.phys == phys &&
    (if phys then x.line == p.pa / 128 else x.asid == p.asid && x.line == lineL p)) s.l2

/-- Result of performing a read. -/
inductive Rd where
  | ok (bytes : List Byte)
  /-- It must wait: for an acknowledgement (R89), for the host (R371), or for a full word (R53). -/
  | wait
  /-- It fails: uncorrectable data of a row store (0) or of GDDR (1), with the offset of its lowest byte (R347, R348), or a
  peer refuses it, for permission (2) or for a hole (3) (R374). -/
  | memerr (sub i : Nat)
  deriving DecidableEq, Repr

/-- The offset of the lowest poisoned byte of `n` bytes at `pa`. -/
def poisonAt (s : State) (pa n : Nat) : Option Nat :=
  match (wordKeys pa n).filter fun k => s.poison.contains k with
  | [] => none
  | k :: _ => some (8 * k - pa)

/-- Does an access of a requester on `die` go to a peer: not when a guest line serves a read of it (R65)? -/
def reachesPeer (s : State) (die : Nat) (p : Part) (home : Bool) : Bool :=
  match region s p.pa with
  | .peerAp _ _ => true
  | .peerMem _ =>
    home || (match routeOf s die p with
      | .guest d ph _ => (findLine s d ph p).isNone
      | _ => true)
  | _ => false

/-- The refusal that awaits an access within an event of its own: true for a hole (R374). DESIGN CHOICE, log entry 99. -/
def peerSays (s : State) (die : Nat) (p : Part) (home : Bool) : Option Bool :=
  if reachesPeer s die p home then s.peerNo else none

/-- The fault of a peer's refusal, at the access's pointer (R374). -/
def refusalTrap (va : Word) (hole : Bool) (acc : Nat) : Trap := ⟨0, if hole then cADDR else cPERM, 0, acc, va, 0⟩

/-- Read memory itself; poisoned GDDR words answer MEMERR (R347). -/
def gddrRead (s : State) (pa n : Nat) : Rd :=
  match poisonAt s pa n with
  | some i => .memerr 1 i
  | none => .ok (memRead s pa n)

/-- Write memory itself; words written whole lose their poison. -/
def gddrWrite (s : State) (pa : Nat) (bs : List Byte) : State := unpoison (memWrite s pa bs) (wholeKeys pa bs.length)

/-- The 128 bytes that fill a line: of the home copy when `hd` names a die that holds one, else of memory; none when
memory has an uncorrectable error there, since such a line is not installed (R66, R347). -/
def fillData (s : State) (hd : Option Nat) (p : Part) : Option (List Byte) :=
  let base := alignDown p.pa 128
  let fromMem := if (poisonAt s base 128).isSome then none else some (memRead s base 128)
  match hd with
  | some d =>
    (match findLine s d false p with
      | some i => (s.l2[i]?).map (·.data)
      | none => fromMem)
  | none => fromMem

/-- Install a line (R63, R66, R115): a guest line takes the DATE its slice holds. The fill request and the installation
are one event, so the stamp is the DATE at installation: DESIGN CHOICE, log entry 82. -/
def install (s : State) (die : Nat) (phys guest dirty : Bool) (p : Part) (data : List Byte) : State :=
  let x : Line :=
    ⟨die, phys, if phys then 0 else p.asid, if phys then p.pa / 128 else lineL p, p.pa / 128, dirty, none, bestForm data,
      if p.tag then some (lineTags s (p.pa / 128)) else none, data⟩
  let s1 := makeRoom s x.slice x.form.halves 8192
  { s1 with l2 := s1.l2 ++ [if guest then { x with stamp := some (sliceDate s1 x.slice % 256) } else x] }

/-- Overwrite bytes of a list. -/
def patch (d : List Byte) (off : Nat) (bs : List Byte) : List Byte := d.take off ++ bs ++ d.drop (off + bs.length)

/-- Write bytes into line `i`; the slice chooses its form anew, and a line that takes a second half evicts others where
none is free (R68). -/
def writeLine (s : State) (i off : Nat) (bs : List Byte) (dirty : Bool) : State :=
  match s.l2[i]? with
  | none => s
  | some x =>
    let d := patch x.data off bs
    let y := { x with data := d, form := bestForm d, dirty := dirty }
    if y.form.halves ≤ x.form.halves then { s with l2 := modNth (fun _ => y) s.l2 i }
    else
      let s2 := makeRoom { s with l2 := dropNth s.l2 i } x.slice 2 8192
      { s2 with l2 := s2.l2 ++ [y] }

/-- Host memory under CXL: before a write, and before a read of a line the other die holds dirty, the other copies are
written back, and for a write invalidated (R64, R65). -/
def hostCoherent (s : State) (die : Nat) (wr : Bool) (p : Part) : State :=
  match region s p.pa with
  | .host =>
    let other := fun (x : Line) => x.pl == p.pa / 128 && x.die != die
    if wr then flushWhere s other else cleanWhere s other
  | _ => s

/-- What a device access to memory finds at the host-presence directory (R371). -/
def dirGuard (s : State) (pa : Nat) : Bool × State :=
  match region s pa with
  | .gddr => dirStart s pa
  | _ => (true, s)

/-- The die of the slice that forwards a store of a part for a row of `die`: G = 1 peer memory goes through die 0 (R64). -/
def forwardDie (s : State) (die : Nat) (p : Part) : Nat :=
  match routeOf s die p with
  | .guest d true _ => d
  | _ => die

/-- Has the slice on `die` that would fill a line stores of it on their way to the home (R89)? -/
def flightOnLine (s : State) (die pl : Nat) : Bool :=
  s.flights.any fun f => forwardDie s (dieOf f.ent.row.core) f.ent.part == die && f.ent.part.pa / 128 == pl

/-- Copies of a line, under any identity, on any die. DEDUCED, log entry 26. -/
def samePl (pl : Nat) (x : Line) : Bool := x.pl == pl

/-- Read a part at its home or target past every cache: copies of its line are written back and invalidated first (R33,
R65). -/
def directRead (s : State) (p : Part) : Rd × State :=
  let s1 := flushWhere s (samePl (p.pa / 128))
  match region s p.pa with
  | .gddr => (gddrRead s1 p.pa p.n, s1)
  | _ => (.ok (memRead s1 p.pa p.n), s1)

/-- Write a part at its home or target past every cache (R33, R65). -/
def directWrite (s : State) (p : Part) (bs : List Byte) : State :=
  let s1 := flushWhere s (samePl (p.pa / 128))
  match region s p.pa with
  | .gddr => gddrWrite s1 p.pa bs
  | _ => memWrite s1 p.pa bs

/-- Read a part of cacheable memory for a requester on `die`; `nt` does not allocate (R33, R65, R66, R236). -/
def cacheRead (s : State) (die : Nat) (nt : Bool) (p : Part) : Rd × State :=
  let (go, s) := dirGuard s p.pa
  if !go then (.wait, s)
  else
    let off := p.pa % 128
    let alloc := p.ca == 0 && !nt
    match routeOf s die p with
    | .direct => directRead s p
    | .home d ph =>
      match findLine s d ph p with
      | some i => (.ok (match s.l2[i]? with
          | some x => lineBytes x off p.n
          | none => []), s)
      | none =>
        let s1 := hostCoherent s die false p
        match gddrRead s1 p.pa p.n with
        | .ok bs =>
          match alloc, fillData s1 none p with
          | true, some dat => (.ok bs, install s1 d ph false false p dat)
          | _, _ => (.ok bs, s1)
        | r => (r, s1)
    | .guest d ph hd =>
      match findLine s d ph p with
      | some i => (.ok (match s.l2[i]? with
          | some x => lineBytes x off p.n
          | none => []), s)
      | none =>
        if flightOnLine s d (p.pa / 128) then (.wait, s)
        else
          match fillData s hd p with
          | some dat =>
            (.ok ((dat.drop off).take p.n), if alloc then install s d ph true false p dat else s)
          | none => (gddrRead s p.pa p.n, s)

/-- The guest copy of the requester's die takes a write-through store (R66, R94). -/
def guestUpdate (s : State) (die : Nat) (p : Part) (bs : List Byte) : State :=
  match routeOf s die p with
  | .guest d ph _ =>
    match findLine s d ph p with
    | some i => writeLine s i (p.pa % 128) bs false
    | none => s
  | _ => s

/-- Write a part at a line of die `d`, allocating when `alloc`, else at memory (R33, R66). -/
def lineWrite (s : State) (d : Nat) (ph alloc : Bool) (p : Part) (bs : List Byte) : State :=
  match findLine s d ph p with
  | some i => writeLine s i (p.pa % 128) bs true
  | none =>
    match alloc, fillData s none p with
    | true, some dat => install s d ph false true p (patch dat (p.pa % 128) bs)
    | _, _ => gddrWrite s p.pa bs

/-! ## Notify words (R366, R367) -/

/-- Notify value `t` is taken up: OVERRUN, or it is the one in progress (R367). DEDUCED, log entry 54. -/
def InQ.take (x : InQ) (t : Nat) : InQ :=
  if 2 ^ x.logn < (2 ^ 32 + t - x.head) % 2 ^ 32 then { x with code := 3, index := t }
  else { x with cur := if t = x.head then none else some t, tries := 0 }

/-- At an index boundary the newer values are taken up, in the order of the notify writes (R367). -/
def InQ.boundary (x : InQ) : InQ :=
  let y := x.pend.foldl InQ.take { x with pend := [], tries := 0 }
  { y with cur := if y.cur = some y.head then none else y.cur }

/-- Change an inbox queue. -/
def modQ (s : State) (q : Nat) (f : InQ → InQ) : State :=
  { s with pkg := { s.pkg with queues := smSet {} s.pkg.queues q (f (smGet {} s.pkg.queues q)) } }

/-- A notify write of queue `q`: ignored while EN = 0; it waits for an index boundary of the value in progress. -/
def notify (s : State) (q t : Nat) : State :=
  modQ s q fun x =>
    if !x.en then x
    else if x.cur.isNone then x.take (t % 2 ^ 32)
    else { x with pend := x.pend ++ [t % 2 ^ 32] }

/-- A store to `n` bytes at `pa` notifies the queues with NKIND = 1 whose notify word it touches; `rd` reads the word. DEDUCED, log entry 55. -/
def noteStore (s : State) (pa n : Nat) (rd : State → Nat → Nat) : State :=
  s.pkg.queues.foldl (fun t (q, x) =>
    let a := x.naddr.toNat / 8
    if x.en && x.nkind && (wordKeys pa n).contains a then notify t q (rd t (8 * a)) else t) s

/-- Bits [31:0] of a word of memory itself. -/
def memWord32 (s : State) (pa : Nat) : Nat := leNat (memRead s pa 4)

/-- Bits [31:0] of the word at `pa` in the line that a store of part `p` was written to, else in memory. -/
def homeWord32 (die : Nat) (p : Part) (s : State) (pa : Nat) : Nat :=
  let ln := match routeOf s die p with
    | .home d ph => findLine s d ph p
    | .guest _ _ (some hd) => findLine s hd false p
    | _ => none
  match ln with
  | some i => (match s.l2[i]? with
    | some x => leNat (lineBytes x (pa % 128) 4)
    | none => 0)
  | none => memWord32 s pa

/-- Write a part of cacheable memory at its home. False: it waits for the host (R371). -/
def homePut (s : State) (die : Nat) (nt : Bool) (p : Part) (bs : List Byte) : Bool × State :=
  let (go, s) := dirGuard s p.pa
  if !go then (false, s)
  else
    let alloc := p.ca == 0 && !nt
    match routeOf s die p with
    | .direct => (true, directWrite s p bs)
    | .home d ph => (true, lineWrite (hostCoherent s die true p) d ph alloc p bs)
    | .guest _ _ (some hd) => (true, lineWrite s hd false alloc p bs)
    | .guest _ _ none => (true, memWrite s p.pa bs)

/-- Write a part of cacheable memory at its home (R66, R90), a notify word with what it sets off (R366). False: it waits
for the host (R371). -/
def homeWrite (s : State) (die : Nat) (nt : Bool) (p : Part) (bs : List Byte) : Bool × State :=
  let (ok, t) := homePut s die nt p bs
  (ok, if ok then noteStore t p.pa bs.length (homeWord32 die p) else t)

/-- A read that comes from outside the device, or reads physically at the home: dirty copies on the home die are
written back first and every copy stays valid; the line is then as the last write-back left it in GDDR; with no dirty copy the
PA-hashed slice answers when it holds the line, else GDDR (R35, R90, R362, R372). -/
def outsideRead (s : State) (pa n : Nat) : Rd × State :=
  let copy := fun (x : Line) => x.pl == pa / 128 && x.die == pa / 0x1000 % 2
  let s1 := cleanWhere s copy
  if s.l2.any fun x => copy x && x.dirty then (gddrRead s1 pa n, s1)
  else match (findPhys s1 (pa / 0x1000 % 2) (pa / 128)).bind fun i => s1.l2[i]? with
    | some x => (.ok (lineBytes x (pa % 128) n), s1)
    | none => (gddrRead s1 pa n, s1)

/-- A write from outside the device: every copy on both dies is written back and invalidated first (R372). -/
def outsideWrite (s : State) (pa : Nat) (bs : List Byte) : State :=
  noteStore (gddrWrite (flushWhere s (samePl (pa / 128))) pa bs) pa bs.length memWord32

/-- A physical access at the home as a G = 1 access with CA = 00 (R351, R364). -/
def physPart (pa n : Nat) : Part := ⟨wNat pa, pa, n, 0, 0, 0, true, false, 1, 0⟩

/-- A slice chooses the form of a line, where the line allows it and there is room (R68). -/
def compressAt (s : State) (i : Nat) (f : Form) : State :=
  match s.l2[i]? with
  | none => s
  | some x =>
    if formOk f x.data && decide (halvesUsed s x.slice + f.halves ≤ 8192 + x.form.halves) then
      { s with l2 := modNth (fun y => { y with form := f }) s.l2 i }
    else s

/-- SY.L2FILL of a slice (R69). -/
def l2fill (s : State) (slice : Nat) : Word :=
  let mine := s.l2.filter fun x => x.slice == slice
  let raw := (mine.filter fun x => x.form == .raw).length
  let cmp := mine.length - raw
  wNat (2 ^ 32 * (8192 - cmp - 2 * raw) + 2 ^ 16 * cmp + raw)

end Sys2Proof.Machine
end

