-- ==== Sys2Proof/Machine/Red.lean ====
section
/-!
DEFINITION. Read-modify-write at the home of a location (R94, R245) and the reduction caches: updating, evicting and
merging update-only lines (R71, R72, R104, R105).
-/

namespace Sys2Proof.Machine

/-- The back-invalidations that an access needs, completed at once: used where the access is one event with others. Every
entry that holds the line keeps its other half, and no region of the line is left in progress. DEDUCED, log entry 46. -/
def dirForce (s : State) (pa : Nat) : State :=
  let inR := fun (e : Nat × Nat) => decide (e.1 ≤ pa) && decide (pa < e.1 + e.2)
  if (dirGuard s pa).1 then s
  else modDie s (pa / 0x1000 % 2) fun x =>
    { x with dir := x.dir.flatMap fun e => if inR e then (dirSplit e.1 e.2 pa).2.toList else [e],
             inval := x.inval.filter fun e => !inR e }

/-- Stores of a part's location that a die's slice has forwarded and that are on their way: they are performed at the home
before what that die does there next, so that its copy and the home see one order (R88). DESIGN CHOICE, log entry 83. -/
def landFlight (s : State) (f : Flight) : State :=
  (homeWrite (dirForce { s with flights := s.flights.filter fun g => g.id ≠ f.id } f.ent.part.pa) (dieOf f.ent.row.core)
    f.ent.nt f.ent.part f.ent.bytes).2

/-- Land the forwarded stores of a location, oldest first. -/
def landFlights (s : State) (die : Nat) (p : Part) : State :=
  let d := forwardDie s die p
  (s.flights.filter fun f =>
    forwardDie s (dieOf f.ent.row.core) f.ent.part == d && f.ent.part.pa / 16 == p.pa / 16).foldl landFlight s

/-- Read a part at its home, without allocating (R94, R110). -/
def homeRead (s : State) (die : Nat) (p : Part) : Rd × State :=
  let s := dirForce s p.pa
  let fromLine := fun (d : Nat) (ph : Bool) (s : State) =>
    match findLine s d ph p with
    | some i => (match s.l2[i]? with
      | some x => Rd.ok (lineBytes x (p.pa % 128) p.n)
      | none => .ok [])
    | none => gddrRead s p.pa p.n
  match routeOf s die p with
  | .direct => directRead s p
  | .home d ph => let s1 := hostCoherent s die true p; (fromLine d ph s1, s1)
  | .guest _ _ (some hd) => (fromLine hd false s, s)
  | .guest _ _ none => (.ok (memRead s p.pa p.n), s)

/-- Write a part at its home, past every guest copy, after the stores that its die has forwarded to the location (R88,
R303). -/
def homeOnly (s : State) (die : Nat) (p : Part) (bs : List Byte) : State :=
  (homeWrite (dirForce (landFlights s die p) p.pa) die false p bs).2

/-- Write a part at its home and update the die's own guest copy (R66, R94). -/
def homeStore (s : State) (die : Nat) (p : Part) (bs : List Byte) : State := guestUpdate (homeOnly s die p bs) die p bs

/-- The float format of an element of 4 or 8 bytes. -/
def fmtOfSize (n : Nat) : Fmt := if n = 8 then f64 else f32

/-- The new value of an atomic of function `fn` (R155) on `n` bytes, and its flags (R245). -/
def amoNew (fn n : Nat) (rm : RMode) (old b e : Nat) : Nat × FFlags :=
  let m := 2 ^ (8 * n)
  let so := sInt (8 * n) old
  let sb := sInt (8 * n) b
  match fn with
  | 0 => ((old + b) % m, 0)
  | 1 => (Nat.land old b, 0)
  | 2 => (Nat.lor old b, 0)
  | 3 => (Nat.xor old b, 0)
  | 4 => (if so ≤ sb then old else b, 0)
  | 5 => (if sb ≤ so then old else b, 0)
  | 6 => (if old ≤ b then old else b, 0)
  | 7 => (if b ≤ old then old else b, 0)
  | 8 => (b, 0)
  | 9 => (if old = e then b else old, 0)
  | 10 => ((old + m - 1) % m, 0)
  | _ => fadd (fmtOfSize n) rm old b

/-- The AMO function of a `scatred` operation FN 8-14 (R243). -/
def redAmo (op : Nat) : Nat :=
  match op with
  | 8 => 0
  | 9 => 11
  | 10 => 4
  | 11 => 5
  | 12 => 6
  | 13 => 7
  | _ => 2

/-! ## Merging (R72) -/

/-- Combine one touched element into its home, rounding with RNE; the flags raised (R72, R105). Where the home has an
uncorrectable error the update is lost and nothing else happens, since a merge never faults (R318): DESIGN CHOICE, log
entry 84. -/
def mergeElem (s : State) (die : Nat) (x : RedLine) (k v : Nat) : FFlags × State :=
  let off := k * x.sz
  let p : Part := ⟨wNat (128 * x.line + off), x.pa + off, x.sz, 0, x.asid, x.ca, x.g, x.tag, 1, 0⟩
  match homeRead (landFlights s die p) die p with
  | (.ok bs, s1) =>
    let (r, fl) := amoNew (redAmo x.op) x.sz .rne (leNat bs) v 0
    (fl, homeStore s1 die p (leBytes x.sz r))
  | (_, s1) => (0, s1)

/-- Merge the elements of a line. DESIGN CHOICE, log entry 12. -/
def mergeElems (s : State) (die : Nat) (x : RedLine) : List (Nat × Option Nat) → FFlags × State
  | [] => (0, s)
  | (k, v) :: es =>
    let (f1, s1) := match v with
      | some n => mergeElem s die x k n
      | none => (0, s)
    let (f2, s2) := mergeElems s1 die x es
    (f1 ||| f2, s2)

/-- OR flags into SY.MXFLAGS of a core (R191). -/
def orMx (s : State) (core : Nat) (fl : FFlags) : State :=
  if fl = 0 then s else modCore s core fun c => { c with mxflags := c.mxflags ||| fl.setWidth 6 }

/-- Flags of a merge: to the row that caused it, else to SY.MXFLAGS of the core that held the line (R72). A merge that an atomic
of a peer forces has no row here, and its flags go to SY.MXFLAGS too: DESIGN CHOICE, log entry 102. -/
def mergeFlags (s : State) (core : Nat) (who : Option RowId) (fl : FFlags) : State :=
  match who with
  | some r => orFlags s r fl
  | none => orMx s core fl

/-- Merge line `i` of a core's reduction cache and free it; the flags raised (R72). -/
def mergeOne (s : State) (core i : Nat) : FFlags × State :=
  match (getCore s core).red[i]? with
  | none => (0, s)
  | some x =>
    let s1 := modCore s core fun c => { c with red := dropNth c.red i }
    let (fl, s2) := mergeElems s1 (dieOf core) x x.elems
    (fl, bump (bump s2 core 4 x.elems.length) core 5 1)

/-- Merge line `i` for a row, or for none. -/
def mergeAt (s : State) (core i : Nat) (who : Option RowId) : State :=
  let (fl, t) := mergeOne s core i
  mergeFlags t core who fl

/-- Merge the lines of a core that satisfy `p`, oldest first, in one event: DESIGN CHOICE, log entry 12; the flags raised. -/
def mergeMany (s : State) (core : Nat) (p : RedLine → Bool) : (fuel : Nat) → FFlags × State
  | 0 => (0, s)
  | fuel + 1 =>
    match findPos p (getCore s core).red with
    | some i =>
      let (f1, s1) := mergeOne s core i
      let (f2, s2) := mergeMany s1 core p fuel
      (f1 ||| f2, s2)
    | none => (0, s)

/-- Merge the lines of a core that satisfy `p`, for a row, or for none. -/
def mergeWhere (s : State) (core : Nat) (who : Option RowId) (p : RedLine → Bool) (fuel : Nat) : State :=
  let (fl, t) := mergeMany s core p fuel
  mergeFlags t core who fl

/-- merge_reductions(core) of R162: every line of the core. -/
def mergeCore (s : State) (core : Nat) (who : Option RowId) : State := mergeWhere s core who (fun _ => true) 33

/-- Merge the lines that satisfy `p` in each of these cores. -/
def mergeCores (s : State) (who : Option RowId) (p : RedLine → Bool) : List Nat → State
  | [] => s
  | n :: ns => mergeCores (mergeWhere s n who p 33) who p ns

/-- The cores whose record is not at reset: no other core holds an update-only line. -/
def liveCores (s : State) : List Nat := s.cores.map (·.1)

/-- Before an atomic: every update-only copy of its line in every core is merged (R72, R94). -/
def mergeLine (s : State) (pa : Nat) (who : Option RowId) : State :=
  mergeCores s who (fun x => x.pa / 128 == pa / 128) (liveCores s)

/-- Merge the update-only copies of a line in each of these cores; the flags raised, for the row whose atomic forces it. -/
def mergeCopies (s : State) (pa : Nat) : List Nat → FFlags × State
  | [] => (0, s)
  | n :: ns =>
    let (f1, s1) := mergeMany s n (fun x => x.pa / 128 == pa / 128) 33
    let (f2, s2) := mergeCopies s1 pa ns
    (f1 ||| f2, s2)

/-! ## Updating (R71) -/

/-- The line of a reduction cache for an address in a context. -/
def redFind (c : Core) (asid line : Nat) : Option Nat := findPos (fun x => x.asid == asid && x.line == line) c.red

/-- Make room for a new line by evicting the oldest (R71, R72): the spec names no choice, DESIGN CHOICE, log entry 85. -/
def redRoom (s : State) (core : Nat) (who : Option RowId) : State :=
  if (getCore s core).red.length < 32 then s else bump (mergeAt s core 0 who) core 6 1

/-- Combine an update into an element: first stored, then combined in arrival order; fadd rounds with `rm` (R71). -/
def redCombine (op sz : Nat) (rm : RMode) (old : Option Nat) (v : Nat) : Nat × FFlags :=
  match old with
  | none => (v, 0)
  | some u => amoNew (redAmo op) sz rm u v 0

/-- One update of a core's reduction cache at part `p`, for the row `who`; the flags of the combine (R71, R104). -/
def redUpdate (s : State) (core : Nat) (who : Option RowId) (op sz : Nat) (rm : RMode) (p : Part) (v : Nat) : FFlags × State :=
  let line := Wbits p.va 55 7
  let s1 := match redFind (getCore s core) p.asid line with
    | some i =>
      match (getCore s core).red[i]? with
      | some x => if x.op = op && x.sz = sz then s else mergeAt s core i who
      | none => s
    | none => s
  let s2 := match redFind (getCore s1 core) p.asid line with
    | some _ => s1
    | none =>
      let t := redRoom s1 core who
      modCore t core fun c => { c with red := c.red ++ [⟨p.asid, line, alignDown p.pa 128, p.ca, p.g, p.tag, op, sz, []⟩] }
  match redFind (getCore s2 core) p.asid line with
  | none => (0, s2)
  | some i =>
    let k := p.pa % 128 / sz
    match (getCore s2 core).red[i]? with
    | none => (0, s2)
    | some x =>
      let (r, fl) := redCombine op sz rm (smGet none x.elems k) v
      (fl, modCore s2 core fun c => { c with red := modNth (fun y => { y with elems := smPut y.elems k (some r) }) c.red i })

end Sys2Proof.Machine
end

