-- ==== Sys2Proof/Machine/Power.lean ====
section
/-!
DEFINITION. The Damper: clocks and their mailbox (R376-R378), cluster budgets (R379-R381), the package Damper's window
(R382-R384), caps (R385, R386) and Thaw (R387, R388). Durations are not modelled: the step that ends one may come at any
time (DESIGN CHOICE, log entry 6).
-/

namespace Sys2Proof.Machine

/-! ## Clocks -/

/-- The mailbox takes a target: clamped to FMAX; a target equal to the current frequency completes at once (R378). -/
def Clk.take (k : Clk) (f : Nat) : Clk :=
  let t := min f k.fmax
  if t = k.freq then { k with pend := none } else { k with freq := t, busy := true, pend := none }

/-- A write of SY.CLK (R377). -/
def clkWrite (s : State) (cl : Nat) (v : Word) (priv : Bool) : State :=
  if !priv then s
  else
    let f := Wbits v 7 0
    modCl s cl fun c =>
      if 10 ≤ f ∧ f ≤ 25 then
        let k := { c.clk with err := false }
        { c with clk := if k.busy then { k with pend := some f } else k.take f }
      else { c with clk := { c.clk with err := true } }

/-- A transition completes, and the mailbox takes the waiting target (R378). -/
def clkDone (s : State) (cl : Nat) : State :=
  modCl s cl fun c =>
    if c.clk.busy then
      let k := { c.clk with busy := false }
      { c with clk := match k.pend with
          | some f => k.take f
          | none => k }
    else c

/-- The value SY.CLK reads as (R377). -/
def clkWord (k : Clk) : Word :=
  wNat (2 ^ 40 * k.err.toNat + 2 ^ 32 * k.fmax + 2 ^ 24 * k.pend.isSome.toNat + 2 ^ 16 * k.pend.getD 0 +
    2 ^ 8 * k.busy.toNat + k.freq)

/-! ## Budgets and permits -/

/-- A write of SY.CBUDGET (R379, R381). -/
def budgetWrite (s : State) (cl : Nat) (v : Word) (priv : Bool) : State :=
  if !priv then s
  else modCl s cl fun c =>
    let b := c.bud
    let cap := Wbits v 27 16
    let cr := Wbits v 7 0
    let st := v.getLsbD 31
    let crate := if cr = 0 then b.crate else cr
    { c with bud := { b with steer := st, cap := if cap = 0 then b.cap else cap, crate := crate,
                             rate := if cr ≠ 0 || !st then crate else b.rate } }

/-- The value SY.CBUDGET reads as (R379). -/
def budgetWord (b : Budget) : Word :=
  wNat (2 ^ 32 * uNat 32 b.bal + 2 ^ 31 * b.steer.toNat + 2 ^ 16 * (b.cap % 2 ^ 12) + 2 ^ 8 * (b.rate % 2 ^ 8) +
    b.crate % 2 ^ 8)

/-- Each microsecond: the balance is refilled, and waiting requests grow older (R380). DESIGN CHOICE, log entry 47. -/
def refillAt (s : State) (cl : Nat) : State :=
  modCl s cl fun c =>
    { c with bud := { c.bud with bal := min (Int.ofNat c.bud.cap) (c.bud.bal + Int.ofNat (c.bud.rate * s.pkg.scale / 256)) },
             reqs := c.reqs.map fun q => { q with us := q.us + 1 } }

/-- Is request `a` taken before `b`: one that has waited 64 microseconds first, then the lowest est, then the oldest
(R290, R380)? -/
def Permit.before (a b : Permit) : Bool :=
  let la := decide (64 ≤ a.us)
  let lb := decide (64 ≤ b.us)
  if la != lb then la
  else if la then decide (a.id < b.id)
  else decide (a.est < b.est) || (a.est == b.est && decide (a.id < b.id))

/-- The request that is granted next. -/
def firstPermit : List Permit → Option Permit
  | [] => none
  | q :: qs =>
    match firstPermit qs with
    | none => some q
    | some r => if r.before q then some r else some q

/-- Grant the first waiting request when BAL covers it, and debit BAL (R380). -/
def grantPermit (s : State) (cl : Nat) : Option Permit × State :=
  let c := getCl s cl
  match firstPermit c.reqs with
  | none => (none, s)
  | some q =>
    if c.bud.bal < Int.ofNat (min q.units c.bud.cap) then (none, s)
    else (some q, modCl s cl fun c =>
      { c with reqs := c.reqs.filter fun x => x.id ≠ q.id, bud := { c.bud with bal := c.bud.bal - Int.ofNat q.units } })

/-- Is a cluster withheld (R328, R380)? -/
def withheld (s : State) (cl : Nat) : Bool := decide ((getCl s cl).bud.bal < 0) || (getCl s cl).hot

/-! ## The package Damper -/

/-- The clusters of the package. -/
def allClusters : List Nat := List.range 40

/-- Give each idle cluster that is present up to 40 W of Ember load until `w` is given, in 1/100 W; what is given (R384, R392). -/
def giveEmber (s : State) (w : Nat) : List Nat → Nat × State
  | [] => (0, s)
  | c :: cs =>
    let n := if gangIdle s c && corePresent s (8 * c) then min 4000 w else 0
    let (m, t) := giveEmber (modCl s c fun x => { x with ember := n }) (w - n) cs
    (n + m, t)

/-- A gang joins on a cluster: its Ember load stops (R384, R386). -/
def stopEmber (s : State) (cl : Nat) : State :=
  modPkg (modCl s cl fun c => { c with ember := 0 }) fun q => { q with ember := q.ember - (getCl s cl).ember }

/-- Lower or raise FMAX by one step (R382). -/
def stepFmax (up : Bool) (k : Clk) : Clk :=
  { k with fmax := if up then min 25 (k.fmax + 1) else max 10 (k.fmax - 1) }

/-- One window of 10 microseconds: measure, act on the bounds set before, set the bounds for the next (R382-R384). The Ember load
of the window makes up what the power lacks to Lo, and the bounds for the next follow the power so held. The lease of a cap and the
hold of a Thaw message grow shorter (R386, R388). DEDUCED, log entry 113. -/
def damperStep (s : State) (w : DamperReading) : State :=
  let k := s.pkg
  let p := 100 * w.watts
  let s1 :=
    if p > k.hi then
      if k.scale = 0 then
        allClusters.foldl (fun t c => if w.draw.contains c then modCl t c fun x => { x with clk := stepFmax false x.clk } else t) s
      else s
    else if p < k.hi then
      allClusters.foldl (fun t c => modCl t c fun x => { x with clk := stepFmax true x.clk }) s
    else s
  let load := p - k.ember
  let (em, s2) := giveEmber s1 (if k.lo > 100 * k.slopeFloor then k.lo - load else 0) allClusters
  let held := load + em
  modPkg s2 fun q => { q with
    pmeas := w.watts % 2 ^ 16, scale := min 256 w.scale, ember := em, lease := q.lease - 1,
    thawHold := q.thawHold.map fun n => n - 10,
    hi := min (max (100 * q.capnow) (held - q.slopeDown)) (held + q.slopeUp),
    lo := held - q.slopeDown }

/-- A write of SY.SLOPE: fields written as 0 keep their values (R383). -/
def slopeWrite (s : State) (v : Word) (priv : Bool) : State :=
  if !priv then s
  else modPkg s fun q =>
    let keep := fun (n old : Nat) => if n = 0 then old else n
    { q with slopeFloor := keep (Wbits v 47 32) q.slopeFloor, slopeDown := keep (Wbits v 31 16) q.slopeDown,
             slopeUp := keep (Wbits v 15 0) q.slopeUp }

/-- Is a sequence number newer than the last accepted one (R385)? -/
def newerSeq (seq last : Nat) : Bool :=
  let d := (2 ^ 32 + seq - last) % 2 ^ 32
  decide (1 ≤ d) && decide (d < 2 ^ 31)

/-- A write of SY.CAPMSG (R385). -/
def capWrite (s : State) (v : Word) (priv : Bool) : State :=
  if priv && newerSeq (Wbits v 63 32) (Wbits s.pkg.capmsg 63 32) && Wbits v 31 16 != 0 then
    modPkg s fun q => { q with capmsg := v, capnow := min (Wbits v 15 0) 1600, capOn := true, lease := 100 * Wbits v 31 16 }
  else s

/-- The lease runs out, its windows being over: the safe cap applies (R385). -/
def leaseEnd (s : State) : State :=
  if s.pkg.capOn && s.pkg.lease == 0 then modPkg s fun q => { q with capOn := false, lease := 0, capnow := q.safecap } else s

/-- A write of SY.SAFECAP; while no message is in force CAPNOW is SAFECAP (R385). -/
def safecapWrite (s : State) (v : Word) (priv : Bool) : State :=
  if !priv then s
  else modPkg s fun q => { q with safecap := Wbits v 15 0, capnow := if q.capOn then q.capnow else Wbits v 15 0 }

/-- SY.PSTAT (R386). -/
def pstatWord (q : Pkg) : Word :=
  wNat (2 ^ 48 * (q.ember / 100 % 2 ^ 16) + 2 ^ 32 * q.pmeas + 2 ^ 16 * q.capnow + (if q.capOn then (q.lease + 99) / 100 else 0))

/-! ## Thaw -/

/-- A Thaw message is received: a newer one with STEP nonzero holds unprivileged activation for the device's slot
(R388). -/
def thawReceive (s : State) (img : List Byte) : State :=
  let seq := leNat (img.take 4)
  let stp := leNat ((img.drop 8).take 2)
  let slot := (img.getD (0x10 + s.pkg.devidx.toNat % 256) 0).toNat
  if newerSeq seq s.pkg.thawSeq && stp != 0 then
    modPkg s fun q => { q with
      thawSeq := seq, thawSlot := slot,
      thawHold := if slot = 0xFF ∨ slot = 0 then none else some ((slot * stp + 999) / 1000) }
  else s

/-- The 272 bytes of a Thaw image, read at their homes as plain loads (R387). One that cannot be read whole, for an
uncorrectable error or for an empty word of a row store, is none: DESIGN CHOICE, log entry 100. -/
def thawImage (s : State) (die base : Nat) : Option (List Byte) × State :=
  (List.range 17).foldl (fun (acc : Option (List Byte) × State) i =>
    match homeRead acc.2 die (physPart (base + 16 * i) 16) with
    | (.ok bs, t) => (acc.1.map fun xs => xs ++ bs, t)
    | (_, t) => (none, t)) (some [], s)

/-- The peers that a Thaw message goes to: every routed one, or PEER where it is routed (R387). -/
def thawPeers (s : State) (v : Word) : List Nat :=
  (if v.getLsbD 8 then List.range 256 else [Wbits v 7 0]).filter (routed s)

/-- A write of SY.THAWTX: the image goes to one peer or to every routed peer; it is applied locally with ALL, or when
PEER is the device's own index (R387). -/
def thawWrite (s : State) (die : Nat) (v : Word) (priv : Bool) : State :=
  if !priv then s
  else
    match thawImage s die (0x1000 * Wbits v 51 12) with
    | (some img, s1) =>
      let s2 := modPkg s1 fun q => { q with thawOut := q.thawOut ++ (thawPeers s1 v).map fun i => (i, img) }
      if v.getLsbD 8 || Wbits v 7 0 == s.pkg.devidx.toNat % 256 then thawReceive s2 img else s2
    | (none, s1) => s1

/-- The hold ends, in its last window (R388). -/
def thawEnd (s : State) : State :=
  match s.pkg.thawHold with
  | some n => if n ≤ 10 then modPkg s fun q => { q with thawHold := none } else s
  | none => s

/-- SY.THAWST (R388). -/
def thawWord (q : Pkg) : Word := wNat (2 ^ 32 * q.thawSeq + 2 ^ 8 * (q.thawHold.getD 0 % 2 ^ 24) + q.thawSlot)

end Sys2Proof.Machine
end

