-- ==== Sys2Proof/Machine/Flue.lean ====
section
/-!
DEFINITION. The host queue ring (R370), the Flue and its resolutions (R343-R347), and binding a cluster (R132).
-/

namespace Sys2Proof.Machine

/-! ## The host queue (R370) -/

/-- LOGN of SY.HOSTQ. -/
def hqLogn (d : Die) : Nat := Wbits d.hostq 19 16

/-- Where the memory map holds the byte at a host bus address: in the host range when rows can reach it (R12, R15), else
past the end of the physical space. DESIGN CHOICE, log entry 87. -/
def busPa (a : Nat) : Nat := if a < 2 ^ 50 then 0x8000000000000 + a else 2 ^ 52 + a

/-- Where the memory map holds byte `off` of a die's host ring. -/
def hqPa (d : Die) (off : Nat) : Nat := busPa ((d.hostqb.toNat + off) % 2 ^ 64)

/-- Write host memory past any cached copy of its lines. -/
def hostMemWrite (s : State) (pa : Nat) (bs : List Byte) : State :=
  memWrite (flushWhere s fun x => decide (pa / 128 ≤ x.pl) && decide (x.pl ≤ (pa + bs.length - 1) / 128)) pa bs

/-- The host's consumed count, the word after the produced count (R370). -/
def hqConsumed (s : State) (d : Die) : Nat := leNat (memRead s (hqPa d (2 ^ hqLogn d * 256 + 8)) 8)

/-- May a packet be written to a die's host ring: EN = 1 and room (R370)? -/
def hqRoom (s : State) (die : Nat) : Bool :=
  let d := getDie s die
  d.hostq.getLsbD 15 && decide ((2 ^ 64 + d.produced - hqConsumed s d) % 2 ^ 64 < 2 ^ hqLogn d)

/-- Write a packet to the ring, update the produced count, send MSI-X vector 0 (R370). -/
def hqWrite (s : State) (die : Nat) (ws : List Word) : State :=
  let d := getDie s die
  let s1 := hostMemWrite s (hqPa d (256 * (d.produced % 2 ^ hqLogn d))) (ws.flatMap fun w => leBytes 8 w.toNat)
  let s2 := hostMemWrite s1 (hqPa d (2 ^ hqLogn d * 256)) (leBytes 8 (d.produced + 1))
  modDie s2 die fun x => { x with produced := (x.produced + 1) % 2 ^ 64, msix := x.msix + 1 }

/-! ## The Flue -/

/-- Does a router entry carry the key of a request: ASID, page and class (R343)? A request of MEMERR that meets the entry of
a page fault of its key, or the other way round, is added to it, and the record is that of the first: DESIGN CHOICE, log
entry 86. -/
def flueKey (e : FlueEnt) (q : FlueReq) : Bool :=
  e.die == q.die && e.asid == q.asid && e.page == q.page && e.write == q.write

/-- Request `i` is handled at the router it stands at: it merges, or takes a free entry and goes on to `hop` (toward
the root, router 0, when none), or waits (R343). The tree's shape is open (DESIGN CHOICE, log entry 16). -/
def flueStep (s : State) (i : Nat) (hop : Option Nat) : State :=
  match s.flueReqs[i]? with
  | none => s
  | some q =>
    match findPos (fun e => e.router == q.router && flueKey e q) s.flue with
    | some j =>
      { s with flue := modNth (fun e => { e with cores := insSorted e.cores q.core }) s.flue j,
               flueReqs := dropNth s.flueReqs i }
    | none =>
      if (s.flue.filter fun e => e.die == q.die && e.router == q.router).length < 16 then
        let ent : FlueEnt := ⟨q.die, q.router, q.asid, q.page, q.write, q.memerr, [q.core], false⟩
        let next := match hop with
          | some h => if h < q.router then h else 0
          | none => 0
        { s with flue := s.flue ++ [ent],
                 flueReqs := if q.router = 0 then dropNth s.flueReqs i
                   else modNth (fun x => { x with router := next, port := q.router }) s.flueReqs i }
      else s

/-- The record of a root entry (R343). -/
def flueWords (e : FlueEnt) (seq core chan : Nat) : List Word :=
  [header seq core chan 0 1, 0, wNat (2 ^ 52 * e.asid + 2 ^ 8 * e.page + e.write.toNat),
    wNat (e.die + 2 ^ 8 * e.memerr.toNat), 0, 0, 0, 0]

/-- The root of a die sends the record of its oldest entry that has none yet, to the memory manager that SY.MMQ names or
to the host queue; it waits while that is not enabled or has no room (R343, R370). -/
def flueSend (s : State) (die : Nat) : State :=
  match findPos (fun e => e.die == die && e.router == 0 && !e.sent) s.flue with
  | none => s
  | some j =>
    match s.flue[j]? with
    | none => s
    | some e =>
      let q := s.pkg.mmq
      let ws := flueWords e (getDie s die).flueSeq (qCore q) (qChan q)
      let done := fun (t : State) =>
        modDie { t with flue := modNth (fun x => { x with sent := true }) t.flue j } die fun x =>
          { x with flueSeq := (x.flueSeq + 1) % 2 ^ 32 }
      if !qEn q then s
      else if qCore q = 0x1FF then (if hqRoom s die then done (hqWrite s die ws) else s)
      else done { s with held := s.held ++ [⟨die, ownPacket ws (qCore q)⟩] }

/-- A write of SY.FLUERES that has completed as `fence.dev`: the entries of the page go from every router, and the
resolution is on its way to the cores recorded in them and to those of requests that meet it (R344, R346). -/
def flueBroadcast (s : State) (v : Word) (priv : Bool) : State :=
  if !priv then s
  else
    let asid := Wbits v 63 52
    let page := Wbits v 51 8
    let hitE := fun (e : FlueEnt) => e.asid == asid && e.page == page
    let hitQ := fun (q : FlueReq) => q.asid == asid && q.page == page
    let cores := ((s.flue.filter hitE).flatMap (·.cores) ++ (s.flueReqs.filter hitQ).map (·.core)).foldl insSorted []
    { s with flue := s.flue.filter fun e => !hitE e,
             flueReqs := s.flueReqs.filter fun q => !hitQ q,
             flueRes := if cores.isEmpty then s.flueRes else s.flueRes ++ [⟨asid, page, v.getLsbD 0, cores⟩] }

/-- The rows of a core whose control block is not at reset. -/
def liveRows (s : State) (core : Nat) : List RowId :=
  (s.rows.filter fun x => x.1 / 256 == core).map fun x => ⟨core, x.1 % 256⟩

/-- A resolution acts on one row: FAULTED, FLUE = 1, FVA in the page (R344, R347). -/
def resolveRow (s : State) (page : Nat) (refuse : Bool) (r : RowId) : State :=
  let w := getRow s r
  if w.st = .faulted && w.fcause.getLsbD 10 && Wbits w.fva 55 12 == page then
    if refuse then flueRefuse s r
    else
      let go := w.autores || Wbits w.fcause 7 0 == cMEMERR
      if coreHalted s r.core then modRow (flueClear s r false) r fun x => { x with resolved := go }
      else flueClear s r go
  else s

/-- A resolution reaches a core's rows. -/
def resolveCore (s : State) (page : Nat) (refuse : Bool) (core : Nat) : State :=
  (liveRows s core).foldl (fun t r => resolveRow t page refuse r) s

/-! ## SY.CLBIND (R132) -/

/-- Is a cluster powered (R392)? -/
def powered (s : State) (cl : Nat) : Bool := !s.pkg.minimal || cl == 0

/-- Is a core at rest: every row STOPPED with OPEN = 0 and no task, engines idle, run queue empty (R132)? -/
def coreAtRest (s : State) (n : Nat) : Bool :=
  let c := getCore s n
  (liveRows s n).all (fun r => (getRow s r).st == .stopped && !isOpen s r && !(getRow s r).task.getLsbD 7) &&
  c.banks.all (fun b => b.2.slot0.st == .empty && b.2.slot1.st == .empty) &&
  c.mx.st == .idle && c.edge.st == .idle && c.runq.isEmpty

/-- Is a partition gang-stopped, stopping or in a swap (R132)? That a stop still in progress counts is the model's: DESIGN
CHOICE, log entry 105. -/
def partBusy (s : State) (p : Nat) : Bool :=
  let q := getPart s p
  q.stopping || q.stopped || q.swapping

/-- May a write of SY.CLBIND change a cluster's binding, joining it to `p`, or to no partition (R132)? -/
def bindOk (s : State) (cl : Nat) (p : Option Nat) : Bool :=
  let c := getCl s cl
  (coresOf cl).all (coreAtRest s) && c.copyq.isEmpty &&
  (getDie s (cl / 20)).inbox.all (fun q => match q.core with
    | some n => n / 8 != cl
    | none => true) &&
  (!c.valid || !partBusy s c.part) && (match p with
    | some k => !partBusy s k
    | none => true) && powered s cl

/-- A write of SY.CLBIND (R132): the update-only lines of the cluster's cores are merged under the ASID that made them,
then the binding changes and every row takes the new context. -/
def bindWrite (s : State) (cl : Nat) (v : Word) (priv : Bool) : State :=
  if !priv then s
  else if bindOk s cl (if v.getLsbD 8 then some (Wbits v 5 0) else none) then
    let keeps := (getCl s cl).valid == v.getLsbD 8 && (getCl s cl).part == Wbits v 5 0
    modCl (if keeps then s else (coresOf cl).foldl (fun t n => mergeCore t n none) s) cl fun c =>
      { c with valid := v.getLsbD 8, part := Wbits v 5 0, berr := false }
  else modCl s cl fun c => { c with berr := true }

/-- The value SY.CLBIND reads as (R132). -/
def bindWord (c : Cluster) : Word :=
  wNat (2 ^ 23 * c.svalid.toNat + 2 ^ 16 * c.spart + 2 ^ 9 * c.berr.toNat + 2 ^ 8 * c.valid.toNat + c.part)

end Sys2Proof.Machine
end

