-- ==== Sys2Proof/Machine/Boot.lean ====
section
/-!
DEFINITION. Reset, and the end of a start attempt (R389-R393).
-/

namespace Sys2Proof.Machine

/-- The package after power-on or reset: every row, engine, cache and register at its reset value, every row-store byte
zero; device, host and peer memory keep their bytes, since no rule clears them here (R390, DESIGN CHOICE, log entry 3). A new start
begins. -/
def packageReset (s : State) : State :=
  { State.reset with
    mem := s.mem.filter fun x => decide (x.1 < rowBase) || decide (rowBase + 320 * 0x1000000 ≤ x.1),
    poison := s.poison.filter fun k => decide (8 * k < rowBase),
    agenda := s.agenda, nextId := s.nextId, freeCtr := s.freeCtr, hostReply := s.hostReply }

/-- A write of SY.RESET (R390). -/
def resetWrite (s : State) (v : Word) (priv : Bool) : State :=
  if priv && v.getLsbD 0 && Wbits v 15 8 == 0xA5 then packageReset s else s

/-- BOOTCAUSE with the cause of attempt `a` recorded (R393). -/
def setCause (v : Word) (a cause : Nat) : Word :=
  wNat (2 ^ 10 * (v.toNat / 2 ^ 10) + 2 ^ 8 * a + v.toNat % 2) ||| wNat (cause * 2 ^ (16 + 8 * a))

/-- An attempt ends with a cause code: the next attempt begins after a reset, and after the third the device comes up in
minimal mode (R389, R392). Attempt 4 stands for the bring-up in minimal mode: a stage that fails there leaves the host link in
training, with the cause. -/
def attemptFails (s : State) (a cause : Nat) : State :=
  if a ≤ 3 then
    let bc := setCause s.pkg.bootcause a cause
    let s1 := packageReset s
    modPkg s1 fun q => { q with
      boot := some ⟨a + 1, 1, 0⟩, minimal := decide (a = 3), bootcause := if a = 3 then bc ||| 1 else bc }
  else modPkg s fun q => { q with boot := q.boot.map fun b => { b with cause := cause } }

end Sys2Proof.Machine
end

