-- ==== Sys2Proof/Machine/SysReg.lean ====
section
/-!
DEFINITION. The system registers: what each reads as and what a write does, for a reader or writer that stands at a core
(R211, R212, R397). A write by an unprivileged writer leaves SV fields alone.
-/

namespace Sys2Proof.Machine

/-- SY.CORE of a core (R212). -/
def coreWord (core : Nat) : Word := wNat (2 ^ 20 * (core % 160 / 8) + 2 ^ 16 * dieOf core + core)

/-- A soft-error counter's word (R395). -/
def serrWord (e : Serr) : Word := wNat (2 ^ 32 * e.corr + 2 ^ 16 * e.unc + e.last)

/-- A store to a soft-error counter (R395). -/
def serrWrite (s : State) (die k : Nat) (v : Word) : State :=
  modDie s die fun d =>
    { d with serr := smSet {} d.serr k { (smGet {} d.serr k) with corr := Wbits v 63 32, unc := Wbits v 31 16 } }

/-- May a reader see SY.ROOT or SY.ROWVA of partition `p` (R212)? -/
def mayRead (s : State) (core : Nat) (priv : Bool) (p : Nat) : Bool := priv || partOf s core == some p

/-- The value of system register `n` for a reader at `core` (R211, R212, R397). -/
def sysRead (s : State) (core : Nat) (priv : Bool) (n : Nat) : Word :=
  let die := dieOf core
  let d := getDie s die
  if n = 0 then coreWord core
  else if n = 1 then wNat s.pkg.date
  else if n = 0x100 then l2fill s core
  else if n = 0x101 then wNat (2 ^ 32 * d.frost + d.acq)
  else if n = 0x102 then (getCore s core).mxflags.setWidth 64
  else if 0x140 ≤ n ∧ n < 0x180 then (if mayRead s core priv (n - 0x140) then (getPart s (n - 0x140)).root else 0)
  else if 0x180 ≤ n ∧ n < 0x1C0 then (if mayRead s core priv (n - 0x180) then (getPart s (n - 0x180)).rowva else 0)
  else if n = 0x200 then s.pkg.devidx
  else if n = 0x201 then (getDie s 0).hostpath
  else if n = 0x202 then (getDie s 1).hostpath
  else if n = 0x204 then (getDie s 0).hostq
  else if n = 0x205 then (getDie s 0).hostqb
  else if n = 0x206 then (getDie s 1).hostq
  else if n = 0x207 then (getDie s 1).hostqb
  else if 0x210 ≤ n ∧ n < 0x220 then smGet 0 s.pkg.flport (n - 0x210)
  else if n = 0x220 then s.pkg.flridx
  else if n = 0x221 then smGet 0 s.pkg.flroute s.pkg.flridx.toNat
  else if 0x300 ≤ n ∧ n < 0x328 then clkWord (getCl s (n - 0x300)).clk
  else if 0x340 ≤ n ∧ n < 0x368 then budgetWord (getCl s (n - 0x340)).bud
  else if n = 0x380 then wNat (2 ^ 32 * s.pkg.slopeFloor + 2 ^ 16 * s.pkg.slopeDown + s.pkg.slopeUp)
  else if n = 0x381 then s.pkg.capmsg
  else if n = 0x382 then pstatWord s.pkg
  else if n = 0x383 then wNat s.pkg.safecap
  else if n = 0x387 then thawWord s.pkg
  else if n = 0x400 then s.pkg.bootcause
  else if 0x410 ≤ n ∧ n < 0x416 then serrWord (smGet {} d.serr (n - 0x410))
  else if 0x500 ≤ n ∧ n < 0x540 then (getPart s (n - 0x500)).upcall
  else if 0x540 ≤ n ∧ n < 0x580 then (getPart s (n - 0x540)).arrlog
  else if 0x580 ≤ n ∧ n < 0x5C0 then (getPart s (n - 0x580)).haltbase
  else if n = 0x5C0 then s.pkg.supq
  else if n = 0x5C1 then s.pkg.mmq
  else if 0x5D0 ≤ n ∧ n < 0x5F8 then bindWord (getCl s (n - 0x5D0))
  else 0

/-- Bits of a word that a register keeps. -/
def keep (v : Word) (mask : Nat) : Word := v &&& wNat mask

/-- A write of a register whose row in the opcode table is SYSREG_WRITE (R211). -/
def plainSysWrite (s : State) (core : Nat) (priv : Bool) (n : Nat) (v : Word) : State :=
  let die := dieOf core
  if n = 0x101 then modDie s die fun d => { d with frost := Wbits v 63 32, acq := Wbits v 31 0 }
  else if n = 0x102 then modCore s core fun c => { c with mxflags := v.setWidth 6 }
  else if !priv then s
  else if 0x140 ≤ n ∧ n < 0x180 then modPart s (n - 0x140) fun p => { p with root := keep v 0xFFFFFFFFFFFFC003 }
  else if 0x180 ≤ n ∧ n < 0x1C0 then modPart s (n - 0x180) fun p => { p with rowva := keep v 0xFFFFFFFFFF000000 }
  else if n = 0x200 then modPkg s fun q => { q with devidx := keep v 0xFF }
  else if n = 0x201 ∨ n = 0x202 then modDie s (n - 0x201) fun d => { d with hostpath := keep v 0xFFF0000000000003 }
  else if n = 0x204 ∨ n = 0x206 then modDie s ((n - 0x204) / 2) fun d => { d with hostq := keep v 0xFFFFF }
  else if n = 0x205 ∨ n = 0x207 then modDie s ((n - 0x205) / 2) fun d => { d with hostqb := keep v 0xFFFFFFFFFFFFF000 }
  else if 0x210 ≤ n ∧ n < 0x220 then
    modPkg s fun q => { q with flport := smSet 0 q.flport (n - 0x210) (keep v 0xFFF0000000000003) }
  else if n = 0x220 then modPkg s fun q => { q with flridx := keep v 0xFF }
  else if n = 0x221 then modPkg s fun q => { q with
    flroute := smSet 0 q.flroute q.flridx.toNat (keep v 0x1FFFF),
    peerLost := q.peerLost.filter fun i => i ≠ q.flridx.toNat }
  else if n = 0x383 then safecapWrite s v priv
  else if 0x500 ≤ n ∧ n < 0x540 then modPart s (n - 0x500) fun p => { p with upcall := v }
  else if 0x540 ≤ n ∧ n < 0x580 then modPart s (n - 0x540) fun p => { p with arrlog := v }
  else if 0x580 ≤ n ∧ n < 0x5C0 then modPart s (n - 0x580) fun p => { p with haltbase := keep v 0x000FFFFFFFFFC000 }
  else if n = 0x5C0 then modPkg s fun q => { q with supq := keep v 0xFFFF }
  else if n = 0x5C1 then modPkg s fun q => { q with mmq := keep v 0xFFFF }
  else s

/-- A write of any system register by a writer at `core` (R211, R397). -/
def sysWrite (s : State) (core : Nat) (priv : Bool) (n : Nat) (v : Word) : State :=
  if 0x300 ≤ n ∧ n < 0x328 then clkWrite s (n - 0x300) v priv
  else if 0x340 ≤ n ∧ n < 0x368 then budgetWrite s (n - 0x340) v priv
  else if n = 0x380 then slopeWrite s v priv
  else if n = 0x381 then capWrite s v priv
  else if n = 0x386 then thawWrite s (dieOf core) v priv
  else if n = 0x401 then resetWrite s v priv
  else if 0x410 ≤ n ∧ n < 0x416 then serrWrite s (dieOf core) (n - 0x410) v
  else if n = 0x5C2 then flueBroadcast s v priv
  else if 0x5D0 ≤ n ∧ n < 0x5F8 then bindWrite s (n - 0x5D0) v priv
  else plainSysWrite s core priv n v

/-! ## Inbox queue pages (R365, R366) -/

/-- TAIL: a notify write; it acts on a queue with NKIND = 0 (R365-R367). -/
def tailWrite (s : State) (q : Nat) (v : Word) : State :=
  if q < 256 ∧ (smGet {} s.pkg.queues q : InQ).nkind = false then notify s q (Wbits v 31 0) else s

/-- The state of a queue whose control page is written while EN = 1 is undefined: its fields but PART take free values
(R366, DESIGN CHOICE, log entry 22). -/
def qUndefined (s : State) (q : Nat) : State :=
  let (a, s1) := freeWord s
  let (b, s2) := freeWord s1
  let (c, s3) := freeWord s2
  let (d, s4) := freeWord s3
  modQ s4 q fun x => { x with
    logn := Wbits a 7 0, nkind := a.getLsbD 8, en := a.getLsbD 9, qbase := b, naddr := c, head := Wbits d 31 0,
    code := Wbits a 12 10, index := Wbits d 63 32, cur := if a.getLsbD 13 then some (Wbits a 63 32) else none, pend := [],
    tries := 0, ready := none }

/-- A write to a control page (R366). -/
def controlWrite (s : State) (q off : Nat) (v : Word) : State :=
  if 256 ≤ q then s
  else if (smGet {} s.pkg.queues q : InQ).en then qUndefined s q
  else match off with
    | 0 => modQ s q fun x => { x with
        logn := Wbits v 23 16, nkind := v.getLsbD 9, en := v.getLsbD 8, part := Wbits v 5 0, cur := none, pend := [],
        tries := 0, ready := none }
    | 8 => modQ s q fun x => { x with qbase := v }
    | 16 => modQ s q fun x => { x with naddr := v &&& ~~~7#64 }
    | 24 => modQ s q fun x => { x with head := Wbits v 31 0 }
    | _ => s

/-- A word of a notify page (R365). -/
def notifyPage (x : InQ) (off : Nat) : Word :=
  match off with
  | 8 => wNat x.head
  | 16 => wNat (2 ^ 32 * x.code + x.index)
  | _ => 0

/-- A word of a control page (R366). -/
def controlPage (x : InQ) (off : Nat) : Word :=
  match off with
  | 0 => wNat (2 ^ 16 * x.logn + 2 ^ 9 * x.nkind.toNat + 2 ^ 8 * x.en.toNat + x.part)
  | 8 => x.qbase
  | 16 => x.naddr
  | 24 => wNat x.head
  | _ => 0

/-- The value of a word of a queue page (R365, R366). -/
def queueRead (s : State) (q : Nat) (ctl : Bool) (off : Nat) : Word :=
  let x : InQ := smGet {} s.pkg.queues q
  if ctl then controlPage x off else notifyPage x off

/-- A write of a word of a queue page; reserved words ignore it (R6, R365, R366). -/
def queueWrite (s : State) (q : Nat) (ctl : Bool) (off : Nat) (v : Word) : State :=
  if ctl then controlWrite s q off v else if off = 0 then tailWrite s q v else s

end Sys2Proof.Machine
end

