-- ==== Sys2Proof/Machine/Bank.lean ====
section
/-!
DEFINITION. What an access does at the bank of a core: row words with their full/empty bits and the control block
(R43-R61), the control page (R19, R20, R81, R137, R261, R265), and the arrival log of a partition that is swapped out
(R353-R356).
-/

namespace Sys2Proof.Machine

/-! ## The arrival log -/

/-- Must what belongs to partition `part` go to its log rather than to a core (R354, R355)? -/
def aimedPart (s : State) (core part : Nat) : Bool :=
  let c := getCl s (clOf core)
  (c.svalid && c.spart == part) || (c.valid && c.part == part && !(getPart s part).log.isEmpty)

/-- Bytes an entry takes in the ring: a header of 16 and its data rounded up to 16. -/
def logLen (n : Nat) : Nat := 16 + (n + 15) / 16 * 16

/-- The back-invalidations that the walk of a page needs, completed at once: used where the walk is one event with others.
DEDUCED, log entry 46. -/
def walkForce (s : State) (part : Option Nat) (vpn : Nat) : (fuel : Nat) → State
  | 0 => s
  | fuel + 1 =>
    match walkHeld s part vpn with
    | some pa => walkForce (dirForce s pa) part vpn fuel
    | none => s

/-- Write the bytes of an entry into the ring at the log's pointer, where it is mapped; the header is free
(DESIGN CHOICE, log entry 15). -/
def logBytes (s : State) (p : Nat) (data : List Byte) : State :=
  let a := (getPart s p).arrlog
  let size := 0x10000 * Wbits a 11 0
  let (h0, s1) := freeWord s
  let (h1, s2) := freeWord s1
  let bs := leBytes 8 h0.toNat ++ leBytes 8 h1.toNat ++ data
  (List.range ((bs.length + 15) / 16)).foldl (fun t k =>
    let va := wNat ((0x1000 * Wbits a 63 12 + ((getPart s p).logTail + 16 * k) % size) % 2 ^ 64)
    let t := walkForce t (some p) (Wbits va 55 12) 4
    match translate t ⟨0, 0, some p, asidOfPart s p, true⟩ (vaSlice (Wbits va 55 7)) (Wbits va 55 12) with
    | .ok x =>
      let pa := x.page + va.toNat % 0x1000
      (match region t pa with
        | .gddr => homeStore t (pa / 0x1000 % 2)
            ⟨va, pa, 16, 0, asidOfPart s p, Wbits x.leaf 9 8, x.leaf.getLsbD 6, x.leaf.getLsbD 7, x.span, 0⟩ ((bs.drop (16 * k)).take 16)
        | _ => t)
    | .error _ => t) s2

/-- The data bytes of an entry. -/
def Logged.data : Logged → List Byte
  | .store e => e.bytes
  | .req _ _ ops => ops
  | .fill _ _ v _ => leBytes 8 v.toNat
  | .packet p => p.words.flatMap fun w => leBytes 8 w.toNat
  | .arrival _ _ _ => []
  | .piece _ _ bs _ _ _ _ => bs
  | .page _ _ bs _ _ _ => bs
  | .read _ _ => []
  | .ask _ _ amo _ => match amo with
    | some (_, b, _) => leBytes 8 b.toNat
    | none => []
  | .resolution _ _ _ _ => List.replicate 8 0
  | .reply _ _ => List.replicate 8 0
  | .outside q => match q.amo with
    | some (_, b, e) => leBytes 8 b.toNat ++ leBytes 8 e.toNat
    | none => []

/-- Does an entry fit in the log of partition `p` (R356)? -/
def logFits (s : State) (p : Nat) (e : Logged) : Bool :=
  let q := getPart s p
  Wbits q.arrlog 63 12 != 0 && decide (q.logUsed + logLen e.data.length ≤ 0x10000 * Wbits q.arrlog 11 0)

/-- An arrival waits at a full log: LOGFULL is sent once for this filling, which lasts until an entry fits again (R356). -/
def logFull (s : State) (core p : Nat) : State :=
  let q := getPart s p
  if q.fullSent then s
  else
    let rcd := [wNat cLOGFULL, wNat (0x1000 * Wbits q.arrlog 63 12), 0, 0, 0, 0, wNat (getCore s core).recSeq, 0]
    modPart (sendSupervisor s core rcd) p fun q => { q with fullSent := true }

/-- Append an arrival at `core` to the log of partition `p` (R354). False: it does not fit and waits (R356). -/
def logAdd (s : State) (core p : Nat) (e : Logged) : Bool × State :=
  if logFits s p e then
    let need := logLen e.data.length
    (true, modPart (logBytes s p e.data) p fun q =>
      { q with log := q.log ++ [e], logUsed := q.logUsed + need, fullSent := false,
               logTail := (q.logTail + need) % (0x10000 * Wbits q.arrlog 11 0) })
  else (false, logFull s core p)

/-! ## The control page -/

/-- Word `k` of a channel (R137). -/
def chanWord (c : Chan) (k : Nat) : Word :=
  match k with
  | 0 => c.entry
  | 1 => wNat c.cfg
  | 2 => wNat c.hold.toNat
  | 3 => wNat c.ready.toNat
  | 4 => c.pool0
  | 5 => c.pool1
  | 6 => c.pool2
  | _ => c.pool3

/-- A store to word `k` of a channel: CFG.PRIV belongs to privileged writers (R137). -/
def chanWrite (c : Chan) (k : Nat) (v : Word) (priv : Bool) : Chan :=
  match k with
  | 0 => { c with entry := v &&& ~~~1#64 }
  | 1 => { c with cfg := Wbits v 4 0 + (if priv then v.getLsbD 5 else c.cfg.testBit 5).toNat * 32 }
  | 2 => { c with hold := v.getLsbD 0 }
  | 3 => { c with ready := v.getLsbD 0 }
  | 4 => { c with pool0 := v }
  | 5 => { c with pool1 := v }
  | 6 => { c with pool2 := v }
  | _ => { c with pool3 := v }

/-- BSTATE of a barrier (R261). -/
def barWord (b : Bar) : Word := wNat (2 ^ 33 * b.valid.toNat + 2 ^ 32 * b.ph.toNat + 2 ^ 16 * b.arrived + b.expect)

/-- The rows of a core that wait on barrier `b`. -/
def barWaiters (s : State) (core b : Nat) : List RowId :=
  (liveRows s core).filter fun r =>
    let w := getRow s r
    w.st == .waiting && w.why == 7 && (match w.await with
      | some (k, _) => k == b
      | none => false)

/-- Wake a row that waits on a barrier; a `row.bar.sync` in its step 2 finds its phase reached (R262). -/
def barWakeRow (s : State) (r : RowId) : State :=
  wake (modRow s r fun w => if w.rstep = 2 then { w with work := 1 } else w) r

/-- Wake the waiters of barrier `b` whose phase is PH (R261). -/
def barWake (s : State) (core b : Nat) : State :=
  let ph := (smGet {} (getCore s core).bars b : Bar).ph
  ((barWaiters s core b).filter fun r => (getRow s r).await == some (b, ph)).foldl barWakeRow s

/-- Replace a barrier's state as one event, and wake (R261). -/
def barSet (s : State) (core b : Nat) (v : Bar) : State :=
  barWake (modCore s core fun c => { c with bars := smSet {} c.bars b v }) core b

/-- Replace a barrier's state from outside its phases, with `row.bar.init` or a store: what has been noted of the order of
its arrivals is gone with the phase (R261, R381). -/
def barReplace (s : State) (core b : Nat) (v : Bar) : State :=
  barSet { s with steer := s.steer.filter fun x => !(x.core == core && x.bar == b) } core b v

/-- A store to BSTATE (R261). -/
def barWrite (s : State) (core b : Nat) (v : Word) : State :=
  barReplace s core b ⟨v.getLsbD 33, v.getLsbD 32, Wbits v 31 16, Wbits v 15 0⟩

/-- Number of entries in a deque (R265). -/
def Deque.count (q : Deque) : Nat := (2 ^ 32 + q.bottom - q.top) % 2 ^ 32

/-- A store to the deque's control word: CLEAR sets TOP := BOTTOM (R265). -/
def dqCtlWrite (q : Deque) (v : Word) : Deque :=
  { q with top := if v.getLsbD 2 then q.bottom else q.top, victim := v.getLsbD 1, popsteal := v.getLsbD 0 }

/-- The word at offset `off` of a core's control page (R19); reserved words read 0. -/
def ctlRead (s : State) (core off : Nat) : Word :=
  let c := getCore s core
  if off < 0x1000 then chanWord (smGet {} c.chans (off / 64)) (off % 64 / 8)
  else if off < 0x2000 then
    let b := (off - 0x1000) / 16
    if off % 16 < 8 then barWord (smGet {} c.bars b) else wNat (barWaiters s core b).length
  else if off < 0x2400 then
    let e : DqEnt := smGet {} c.dq.ents ((off - 0x2000) / 16)
    if off % 16 < 8 then wNat (2 ^ 32 * e.hi + e.lo) else wNat e.tag
  else if off < 0x2408 then wNat c.dq.top
  else if off < 0x2410 then wNat c.dq.bottom
  else if off < 0x2418 then wNat (c.dq.victim.toNat * 2 + c.dq.popsteal.toNat)
  else if 0x8000 ≤ off ∧ off < 0x8050 then smGet 0 c.stats ((off - 0x8000) / 8)
  else 0

/-- A store of a word to a core's control page (R19); reserved and read-only words ignore it. -/
def ctlWrite (s : State) (core off : Nat) (v : Word) (priv : Bool) : State :=
  if off < 0x1000 then
    modCore s core fun c =>
      { c with chans := smSet {} c.chans (off / 64) (chanWrite (smGet {} c.chans (off / 64)) (off % 64 / 8) v priv) }
  else if off < 0x2000 then (if off % 16 < 8 then barWrite s core ((off - 0x1000) / 16) v else s)
  else if off < 0x2400 then
    modCore s core fun c =>
      let k := (off - 0x2000) / 16
      let e : DqEnt := smGet {} c.dq.ents k
      let e' := if off % 16 < 8 then { e with hi := Wbits v 63 32, lo := Wbits v 31 0 } else { e with tag := Wbits v 15 0 }
      { c with dq := { c.dq with ents := smSet {} c.dq.ents k e' } }
  else if 0x2410 ≤ off ∧ off < 0x2418 then modCore s core fun c => { c with dq := dqCtlWrite c.dq v }
  else if 0x8000 ≤ off ∧ off < 0x8050 then
    modCore s core fun c => { c with stats := smSet 0 c.stats ((off - 0x8000) / 8) v }
  else s

/-- Words `off`, `off + 8`, ... of a control page. -/
def ctlReads (s : State) (core off : Nat) : Nat → List Byte
  | 0 => []
  | n + 1 => leBytes 8 (ctlRead s core off).toNat ++ ctlReads s core (off + 8) n

/-- Store whole words to a control page in ascending order (R20). -/
def ctlWrites (s : State) (core off : Nat) (priv : Bool) (bs : List Byte) : Nat → State
  | 0 => s
  | n + 1 => ctlWrites (ctlWrite s core off (wNat (leNat (bs.take 8))) priv) core (off + 8) priv (bs.drop 8) n

/-! ## Row words -/

/-- Words of a row that `n` bytes at offset `off` touch. -/
def rowWords (off n : Nat) : List Nat := wordKeys off n

/-- The words of the list that are empty. -/
def emptyOf (s : State) (r : RowId) (ws : List Nat) : List Nat := ws.filter fun w => isEmpty s r w

/-- Is a row at no boundary for an access of `who`: its own store is stalled on the full FIFO (R56)? -/
def rowBusy (s : State) (r : RowId) (who : Option RowId) : Bool := (getRow s r).stalled && who != some r

/-- Length of the instruction at a row's PC, from bit 0 of its first halfword (R147); 4 when it cannot be read: DESIGN CHOICE,
log entry 75. -/
def peekLen (s : State) (r : RowId) : Nat :=
  let pc := (getRow s r).pc
  match translate s (ctxOf s r) (vaSlice (Wbits pc 55 7)) (Wbits pc 55 12) with
  | .ok x =>
    let pa := x.page + pc.toNat % 0x1000
    (match (homeRead s (dieOf r.core) ⟨pc, pa, 1, 0, asidOf s r.core, Wbits x.leaf 9 8, x.leaf.getLsbD 6, x.leaf.getLsbD 7, x.span, 0⟩).1 with
      | .ok (b :: _) => if b.getLsbD 0 then 4 else 2
      | _ => 4)
  | .error _ => 4

/-- Before that read, where a SKIP of the row needs it, the host gives up the lines of the walk and of the instruction (R371). -/
def peekForce (s : State) (r : RowId) : State :=
  let w := getRow s r
  if w.st = .faulted ∧ w.fetchLen = none ∧ coreHalted s r.core = false then
    let t := walkForce s (partOf s r.core) (Wbits w.pc 55 12) 4
    match translate t (ctxOf t r) (vaSlice (Wbits w.pc 55 7)) (Wbits w.pc 55 12) with
    | .ok x => dirForce t (x.page + w.pc.toNat % 0x1000)
    | .error _ => t
  else s

/-- A store of `v` to CTL before its command acts: a SKIP reads the length of the instruction at PC (R47, R48). -/
def ctlForce (s : State) (r : RowId) (v : Word) : State := if Wbits v 2 0 = 6 then peekForce s r else s

/-- After a store that may have written PC or RSTEP: at another instruction, or at the beginning of this one, nothing has
been marked empty yet (R48). -/
def otherInstr (s t : State) (r : RowId) : State :=
  let v := getRow s r
  let w := getRow t r
  if w.pc ≠ v.pc then modRow t r fun w => { w with marked := [], fetchLen := none }
  else if w.rstep ≠ v.rstep ∧ w.rstep ≤ 1 then modRow t r fun w => { w with marked := [] }
  else t

/-- A store to bytes of a row, at its bank: CTL by R47, the other bytes by R45, R50 and R53; poison goes with a word
written whole; `fe.set` sets the words full; a store of another agent to a scratch word wakes (R133). -/
def rowStore (s : State) (r : RowId) (off : Nat) (bs : List Byte) (fe priv : Bool) (who : Option RowId) : State :=
  let n := bs.length
  let v := wNat (leNat (bs.take 8))
  let s1 := if off < 8 then (let t := ctlForce s r v; storeCtl t r v priv (peekLen t r))
    else otherInstr s (putRowBytes s r off bs) r
  let s2 := unpoison s1 (wholeKeys (rowPa r off) n)
  let s3 := if fe then setFulls s2 r (rowWords off n) else s2
  if who = some r then s3 else scratchWake s3 r off n

/-- A store of a row to its own CTL, applied while the row is at no boundary: it acts at the next one (R58). -/
def pendCtl (s : State) (r : RowId) (bs : List Byte) (priv : Bool) : State :=
  let v := wNat (leNat (bs.take 8))
  let t := ctlForce s r v
  modRow t r fun w => { w with pend := w.pend ++ [(v, priv, peekLen t r)] }

/-- `sync.fe.clr` or `sync.fe.set` on bytes of a row, at its bank (R250). -/
def rowBits (s : State) (r : RowId) (off n : Nat) (set : Bool) (who : Option RowId) : State :=
  let s1 := if set then setFulls s r (rowWords off n) else setEmpties s r (rowWords off n)
  if who = some r then s1 else scratchWake s1 r off n

/-- A load of bytes of a row, at its bank: `fe` 1 and 2 wait for full words, 2 empties them (R53); a poisoned word
faults the reader, and is named from its first byte, which may lie before the access (R348). -/
def rowLoad (s : State) (r : RowId) (off n fe : Nat) : Rd × State :=
  match (rowWords off n).filter (fun w => isPoison s r w) with
  | w :: _ => (.memerr 0 ((8 * w + 2 ^ 56 - off) % 2 ^ 56), s)
  | [] =>
    if fe ≠ 0 ∧ emptyOf s r (rowWords off n) ≠ [] then (.wait, s)
    else (.ok (rowBytes s r off n), if fe = 2 then setEmpties s r (rowWords off n) else s)

/-! ## Performing one part -/

/-- Count a message that reaches a core from another core's rows (R351); the host and peers stand for core 320. -/
def received (s : State) (src dst : Nat) : State :=
  if src = dst ∨ 320 ≤ src then s else modCore s dst fun c => { c with received := c.received + 1 }

/-- Count a message that a core's rows send to another core (R351). DESIGN CHOICE, log entry 30. -/
def sentMsg (s : State) (src dst : Nat) : State :=
  if src = dst then s else modCore s src fun c => { c with sent := c.sent + 1 }

/-- Does a part lie in a core aperture, of this device or of a peer (R16, R17)? A peer's is one for R71, R111 and R117 as
well: DEDUCED, log entry 104. -/
def inAperture (s : State) (p : Part) : Bool :=
  match region s p.pa with
  | .row _ _ _ => true
  | .ctl _ _ => true
  | .peerAp _ _ => true
  | _ => false

/-- The core whose aperture a part lies in. -/
def partCore (s : State) (p : Part) : Option Nat :=
  match region s p.pa with
  | .row r _ _ => some r.core
  | .ctl c _ => some c
  | _ => none

/-- Perform a store entry at its point of performance (R70, R90, R238, R250). False: it waits. -/
def applyStore (s : State) (e : StEnt) : Bool × State :=
  let p := e.part
  match region s p.pa with
  | .row r _ off =>
    if rowBusy s r (some e.row) then (false, s)
    else if (getRow s r).stalled && decide (off < 8) && (e.kind == .plain || e.kind == .feSet) then
      (true, pendCtl s r e.bytes e.priv)
    else
      let s1 := received s e.row.core r.core
      (true, match e.kind with
        | .plain => rowStore s1 r off e.bytes false e.priv (some e.row)
        | .feSet => rowStore s1 r off e.bytes true e.priv (some e.row)
        | .bitsClr => rowBits s1 r off p.n false (some e.row)
        | .bitsSet => rowBits s1 r off p.n true (some e.row))
  | .ctl c off => (true, ctlWrites (received s e.row.core c) c off e.priv e.bytes (p.n / 8))
  | .sys k => (true, sysWrite s e.row.core e.priv k (wNat (leNat e.bytes)))
  | .queue q ctl off => (true, queueWrite s q ctl off (wNat (leNat e.bytes)))
  | .tagw => (true, tagWrite s p.pa e.bytes)
  | .peerAp _ _ => (true, memWrite s p.pa e.bytes)
  | _ => homeWrite s (dieOf e.row.core) e.nt p e.bytes

/-- Perform a store entry, or append it to the log of the partition it is aimed at. False: it waits. -/
def performStore (s : State) (e : StEnt) : Bool × State :=
  match partCore s e.part with
  | some c =>
    match aimedAsid s c e.part.asid with
    | some p => logAdd s c p (.store e)
    | none => applyStore s e
  | none => applyStore s e

/-- Perform the read of a part for a row (R65, R90): `fe` as `rowLoad`; the row store, the control page, system
registers, the tag window, a peer's aperture, or cacheable memory. -/
def readPart (s : State) (who : RowId) (priv : Bool) (fe : Nat) (nt : Bool) (p : Part) : Rd × State :=
  match region s p.pa with
  | .row r _ off => if rowBusy s r (some who) then (.wait, s) else rowLoad s r off p.n fe
  | .ctl c off => (.ok (ctlReads s c off (p.n / 8)), s)
  | .sys k => (.ok (leBytes p.n (sysRead s who.core priv k).toNat), s)
  | .queue q ctl off => (.ok (leBytes p.n (queueRead s q ctl off).toNat), s)
  | .tagw => (.ok (memRead s p.pa p.n), s)
  | .peerAp _ _ => (.ok (memRead s p.pa p.n), s)
  | _ => cacheRead s (dieOf who.core) nt p

end Sys2Proof.Machine
end

