-- ==== Sys2Proof/Machine/Lsu.lean ====
section
/-!
DEFINITION. The store FIFO, the accesses in flight and their order (R54, R70, R86-R94, R98-R101, R233, R234), release
signatures (R116, R117), and what fences wait for (R93).
-/

namespace Sys2Proof.Machine

/-! ## Signatures -/

/-- Rotate a 49-bit line number right (R116). -/
def rotr49 (l k : Nat) : Nat := (l % 2 ^ 49) / 2 ^ k + (l % 2 ^ k) * 2 ^ (49 - k)

/-- F(s) of a line (R116). -/
def sigFold (l k : Nat) : Nat :=
  let x := rotr49 l k
  Nat.xor (Nat.xor (Nat.xor (bitsOf x 9 0) (bitsOf x 19 10)) (Nat.xor (bitsOf x 29 20) (bitsOf x 39 30))) (bitsOf x 48 40)

/-- The three indices of a line (R116). -/
def sigIndices (l : Nat) : List Nat := [sigFold l 0, sigFold l 3, sigFold l 7]

/-- Set bit `i` of a row's signature (R43). -/
def sigSet (s : State) (r : RowId) (i : Nat) : State :=
  let pa := rowPa r (0x80 + i / 8)
  memSet s pa (memByte s pa ||| BitVec.ofNat 8 (2 ^ (i % 8)))

/-- insert_sig(row, VA) of R162 for line L. -/
def sigInsert (s : State) (r : RowId) (l : Nat) : State := (sigIndices l).foldl (fun t i => sigSet t r i) s

/-- Does a line hit a signature (R116)? -/
def sigHit (sig : List Byte) (l : Nat) : Bool := (sigIndices l).all fun i => (sig.getD (i / 8) 0).getLsbD (i % 8)

/-- Insert the lines of the parts outside core apertures, a peer's included (R117, `inAperture`). -/
def sigParts (s : State) (r : RowId) : List Part → State
  | [] => s
  | p :: ps => sigParts (if inAperture s p then s else sigInsert s r (lineL p)) r ps

/-! ## Where accesses are performed (R90) -/

/-- Is a target in the package (R93)? -/
def inPackage (s : State) (p : Part) : Bool :=
  match region s p.pa with
  | .host => false
  | .peerMem _ => false
  | .peerAp _ _ => false
  | _ => true

/-- Is the point of performance of an access on the requester's die (R90)? -/
def localLoad (s : State) (die : Nat) (p : Part) : Bool :=
  match region s p.pa with
  | .gddr => (p.ca != 1 && !p.g) || p.pa / 0x1000 % 2 == die
  | .sys _ => true
  | _ => inPackage s p && homeDie s p.pa == some die

/-- Is a store of a part die-local: performed on its row's die, its home included (R66, R70, R90)? A store to a system
register, whose point of performance R90 gives as the target, leaves the FIFO as a die-local one: DESIGN CHOICE, log
entry 90. -/
def localStore (s : State) (die : Nat) (p : Part) : Bool :=
  match region s p.pa with
  | .sys _ => true
  | _ => inPackage s p && homeDie s p.pa == some die

/-! ## What is outstanding -/

/-- Is a request a load? -/
def Req.isLoad (q : Req) : Bool :=
  match q.kind with
  | .load _ _ => true
  | _ => false

/-- Is a request the send of a packet? -/
def Req.isSend (q : Req) : Bool :=
  match q.kind with
  | .send _ _ => true
  | _ => false

/-- Is a request a plain or `nt` load? -/
def Req.isPlain (q : Req) : Bool :=
  match q.kind with
  | .load 0 _ => true
  | _ => false

/-- Is a request a posted atomic? -/
def Req.isPosted (q : Req) : Bool :=
  match q.kind with
  | .atomic _ _ _ _ po _ => po
  | _ => false

/-- Is a request held back by R234: an `fe` or `fe.take` load, a non-posted atomic? -/
def Req.holds (q : Req) : Bool :=
  match q.kind with
  | .load fe _ => fe != 0
  | .atomic _ _ _ _ po _ => !po
  | _ => false

/-- Is a request a load or a non-posted atomic, which later stores of the row follow (R91, R93)? -/
def Req.ordersStores (q : Req) : Bool := q.isLoad || q.holds

/-- Has a request a part that is not yet performed? -/
def Req.pending (q : Req) : Bool := !q.todo.isEmpty || q.logged != 0

/-- Requests of the row `r` of partition `k` older than `bound`. -/
def reqsOf (s : State) (r : RowId) (k bound : Nat) : List Req :=
  s.reqs.filter fun q => q.row == r && q.part == k && decide (q.id < bound)

/-- Store entries of a row older than `bound`, oldest first. -/
def fifoOf (s : State) (r : RowId) (k bound : Nat) : List StEnt :=
  (getCore s r.core).fifo.filter fun e => e.row == r && e.owner == k && decide (e.id < bound)

/-- Forwarded stores of a row older than `bound` that are not performed. -/
def flightsOf (s : State) (r : RowId) (k bound : Nat) : List Flight :=
  s.flights.filter fun f => f.ent.row == r && f.ent.owner == k && decide (f.id < bound)

/-- What `fence.die` waits for (R93). -/
def dieDone (s : State) (r : RowId) (k bound : Nat) : Bool := (fifoOf s r k bound).isEmpty

/-- What `fence.dev` waits for (R93): stores, remote loads returned, atomics, arrivals. -/
def devDone (s : State) (r : RowId) (k bound : Nat) : Bool :=
  dieDone s r k bound && (flightsOf s r k bound).all (fun f => !inPackage s f.ent.part) &&
  (reqsOf s r k bound).all (fun q => q.isSend || (!q.todo.isEmpty && q.todo.all fun p => !inPackage s p))

/-- What `fence.sys` waits for (R93). -/
def sysDone (s : State) (r : RowId) (k bound : Nat) : Bool :=
  dieDone s r k bound && (flightsOf s r k bound).isEmpty && (reqsOf s r k bound).all fun q => q.isSend

/-- What an access of a scope waits for: 0 die, 1 device, 2 system (R93). -/
def scopeDone (s : State) (r : RowId) (k scope bound : Nat) : Bool :=
  match scope with
  | 0 => dieDone s r k bound
  | 1 => devDone s r k bound
  | _ => sysDone s r k bound

/-- Engine pieces that a row has handed over and that are not performed: copy engine, distributors (R271). -/
def linPieces (s : State) (r : RowId) : Nat :=
  (((getCl s (clOf r.core)).copyq).filter fun p => p.row == r && p.part == partIx s r.core).length
/-- Distributor pieces of a row. -/
def distPieces (s : State) (r : RowId) : Nat :=
  (((getDie s 0).distq ++ (getDie s 1).distq).filter fun p => p.row == r && p.part == partIx s r.core).length

/-- What `fence.cp` waits for (R93). -/
def cpDone (s : State) (r : RowId) : Bool := linPieces s r == 0 && distPieces s r == 0

/-- Has the row no load and no non-posted atomic older than `bound` that is not performed (R91, R93)? -/
def loadsDone (s : State) (r : RowId) (k bound : Nat) : Bool :=
  (reqsOf s r k bound).all fun q => !q.ordersStores || !q.pending

/-- Are the row's accesses older than `bound` done that a later store follows: its stores left, its loads performed (R91)? -/
def storeOrder (s : State) (r : RowId) (k bound : Nat) : Bool := dieDone s r k bound && loadsDone s r k bound

/-- The lowest destination word of a load or an atomic; 32, X0, where it has none (R234). -/
def Put.lowest (d : Put) : Nat :=
  match d with
  | .x r _ _ => 32 + r
  | .pair r => 32 + r
  | .v r => 80 + 16 * r
  | _ => 32

/-- The hold of R234: the lowest destination word of the oldest `fe` load, `fe.take` load or non-posted atomic that is
not performed, while that word is empty. A request that stands in an arrival log is not performed: DEDUCED, log entry 88. -/
def holdWord (s : State) (r : RowId) : Option Nat :=
  match (reqsOf s r (partIx s r.core) s.nextId).filter fun q => q.holds && q.pending with
  | [] => none
  | q :: _ => if isEmpty s r q.put.lowest then some q.put.lowest else none

/-- Has the order that the hold gives been lost: another agent has set the held word full (R234)? -/
def holdLost (s : State) (q : Req) : Bool :=
  q.holds && decide (32 < q.put.lowest) && !isEmpty s q.row q.put.lowest && q.part == partIx s q.row.core

/-! ## Stores -/

/-- Count the message that an access of a core's row to another core sends (R351). -/
def sentPart (s : State) (core : Nat) (p : Part) : State :=
  match partCore s p with
  | some c => sentMsg s core c
  | none => s

/-- Free entries of a core's store FIFO (R70). -/
def fifoFree (s : State) (core : Nat) : Nat := 32 - (getCore s core).fifo.length

/-- Put one entry into the row's core FIFO, with the remote loads that are outstanding (R70, R91). -/
def enterFifo (s : State) (r : RowId) (priv : Bool) (kind : StKind) (nt : Bool) (p : Part) (bs : List Byte) : State :=
  let (id, s1) := fresh s
  let k := partIx s r.core
  let after := ((reqsOf s1 r k id).filter fun q => q.ordersStores && q.pending).map (·.id)
  let s2 := sentPart (bump s1 r.core 4 1) r.core p
  modCore s2 r.core fun c => { c with fifo := c.fifo ++ [⟨id, r, k, priv, p, kind, nt, bs, after⟩] }

/-- Put the parts of a store into the FIFO in ascending order (R238). DESIGN CHOICE, log entry 25. -/
def enterParts (s : State) (r : RowId) (priv : Bool) (kind : StKind) (nt : Bool) (bs : List Byte) : List Part → State
  | [] => s
  | p :: ps => enterParts (enterFifo s r priv kind nt p ((bs.drop p.pos).take p.n)) r priv kind nt bs ps

/-- Same location (R88)? -/
def sameLoc (s : State) (p q : Part) : Bool := canonPa s p.pa / 16 == canonPa s q.pa / 16

/-- Are the parts that a plain load has left guest misses, performed at the slice of the row's die but not yet filled from
the home? A store that is not die-local (R90: one to another die's aperture, to a far line with G = 1 or CA 01, to the host
or to a peer) is not ordered after such a fill (R93, R129). DEDUCED, log entry 89. -/
def missOnly (s : State) (q : Req) (e : Part) : Bool :=
  q.isPlain && q.logged == 0 && q.todo.all fun p => !sameLoc s p e && (match routeOf s (dieOf q.row.core) p with
    | .guest d ph (some _) => (findLine s d ph p).isNone
    | _ => false)

/-- The partition that is swapped out, or being replayed, that a part is aimed at, with the core (R354). -/
def aimedPartOf (s : State) (p : Part) : Option (Nat × Nat) :=
  match partCore s p with
  | some c => (aimedAsid s c p.asid).map fun k => (c, k)
  | none => none

/-- Is a packet in an inbox one that row `r` sent before `bound`, bound to a core of partition `x` (R107)? -/
def packetBefore (r : RowId) (bound x : Nat) (p : Packet) : Bool :=
  p.part == x && p.core.isSome && !p.replayed && (match p.birth with
    | some (q, id) => q == r && decide (id < bound)
    | none => false)

/-- Has the row an older access to a partition that is not yet in its log, or a packet that has not yet left the inbox for it?
One sender's arrivals reach a log in the sender's order (R107). -/
def logBefore (s : State) (r : RowId) (k bound x : Nat) : Bool :=
  let aimed := fun (p : Part) => (aimedPartOf s p).map (·.2) == some x
  (fifoOf s r k bound).any (fun e => aimed e.part) || (flightsOf s r k bound).any (fun f => aimed f.ent.part) ||
  (reqsOf s r k bound).any (fun q => !q.atBank && q.todo.any aimed) ||
  (k == x && ((getDie s 0).inbox ++ (getDie s 1).inbox).any (packetBefore r bound x))

/-- Must a store wait for an older access of its row to reach the log of its target's partition (R107)? -/
def entBehind (s : State) (e : StEnt) : Bool :=
  match aimedPartOf s e.part with
  | some (_, x) => logBefore s e.row e.owner e.id x
  | none => false

/-- May the head of a FIFO leave: every remote load it names has been performed (R70); a write to SY.FLUERES is
broadcast after a `fence.dev` (R344); a log takes it in its row's order (R107). -/
def entReady (s : State) (e : StEnt) : Bool :=
  (s.reqs.all fun q => !(e.after.contains q.id) || !q.pending ||
    (!localLoad s (dieOf e.row.core) e.part && missOnly s q e.part)) &&
  (region s e.part.pa != .sys 0x5C2 || devDone s e.row e.owner e.id) && !entBehind s e

/-- The head of a core's FIFO leaves: performed when its target is die-local, else accepted for forwarding, where the
die's guest copy takes it (R66, R70). It stays while it waits. -/
def fifoStep (s : State) (core : Nat) : State :=
  match (getCore s core).fifo with
  | [] => s
  | e :: _ =>
    if !entReady s e then s
    else
      let pop := fun (t : State) => modCore t core fun c => { c with fifo := c.fifo.drop 1 }
      if localStore s (dieOf core) e.part then
        let (ok, t) := performStore s e
        if ok then pop t else t
      else
        let t := guestUpdate s (dieOf core) e.part e.bytes
        pop { t with flights := t.flights ++ [⟨e.id, e⟩] }

/-- Is there an older forwarded store of the same location at the slice that forwarded `f` (R88)? -/
def flightBehind (s : State) (i : Nat) (f : Flight) : Bool :=
  (s.flights.take i).any fun g =>
    forwardDie s (dieOf g.ent.row.core) g.ent.part == forwardDie s (dieOf f.ent.row.core) f.ent.part &&
    sameLoc s g.ent.part f.ent.part

/-- A forwarded store is performed at its target: not before an older one of its slice to the same location (R88). -/
def flightStep (s : State) (i : Nat) : State :=
  match s.flights[i]? with
  | none => s
  | some f =>
    if flightBehind s i f || entBehind s f.ent then s
    else
      let (ok, t) := performStore s f.ent
      if ok then { t with flights := t.flights.filter fun g => g.id ≠ f.id } else t

/-! ## Loads -/

/-- The byte that the youngest of the entries supplies for physical address `pa` (R70). -/
def fwdByte (s : State) (pa : Nat) : List StEnt → Option Byte
  | [] => none
  | e :: es =>
    match fwdByte s pa es with
    | some b => some b
    | none =>
      let base := canonPa s e.part.pa
      if base ≤ pa ∧ pa < base + e.bytes.length then some (e.bytes.getD (pa - base) 0) else none

/-- Is a byte one of an X0, which reads 0 whatever was stored (R50)? -/
def isX0 (s : State) (pa : Nat) : Bool :=
  match region s pa with
  | .row _ _ off => decide (0x100 ≤ off) && decide (off < 0x108)
  | _ => false

/-- Store-to-load forwarding: each byte from the row's own youngest older entry that holds it (R70, R87). DEDUCED, log entry
24. -/
def forward (s : State) (r : RowId) (k bound : Nat) (p : Part) (bs : List Byte) : List Byte :=
  let es := fifoOf s r k bound
  let base := canonPa s p.pa
  bs.zipIdx.map fun (b, i) => if isX0 s (base + i) then b else (fwdByte s (base + i) es).getD b

/-- Must a load of the row wait for its own older accesses to the same location, which the FIFO holds no more (R87, R88)? -/
def ownBefore (s : State) (r : RowId) (k bound : Nat) (p : Part) : Bool :=
  (flightsOf s r k bound).any (fun f => sameLoc s f.ent.part p &&
    (match routeOf s (dieOf r.core) p with
      | .guest d ph _ => (findLine s d ph p).isNone
      | _ => true)) ||
  (reqsOf s r k bound).any fun q => q.isPosted && q.todo.any fun x => sameLoc s x p

/-- Must a part of a load wait for an older load or non-posted atomic of the row (R88, R91, R93)? -/
def loadsBefore (s : State) (r : RowId) (k bound : Nat) (p : Part) : Bool :=
  let die := dieOf r.core
  (reqsOf s r k bound).any fun q => q.ordersStores && q.pending && !holdLost s q &&
    (!q.isLoad || q.logged != 0 || q.todo.any fun x => (localLoad s die x && localLoad s die p) || sameLoc s x p)

/-- Has the row an older remote load or non-posted atomic that is not performed (R91, R93)? -/
def remoteBefore (s : State) (r : RowId) : Bool :=
  (reqsOf s r (partIx s r.core) s.nextId).any fun q => q.ordersStores && q.pending && !holdLost s q

/-- Is an access to the row itself, in every part (R233)? -/
def ownRow (s : State) (r : RowId) (ps : List Part) : Bool :=
  ps.all fun p => match region s p.pa with
    | .row q _ _ => q == r
    | _ => false

/-- Words of the own row that parts touch, lowest first. -/
def ownWords (s : State) (ps : List Part) : List Nat :=
  ps.flatMap fun p => match region s p.pa with
    | .row _ _ off => rowWords off p.n
    | _ => []

/-- The number of a row's instruction as an asker: its place in the row's execution. -/
def rowAsker (s : State) (r : RowId) : Asker :=
  ⟨r, partIx s r.core, 0, 2 ^ 64 * (getRow s r).retired.toNat + (getRow s r).pc.toNat⟩

/-- Hand an access within an event of its own to the log of the partition it is aimed at, once (R354). True when it has just
been logged. -/
def askLog (s : State) (who : Asker) (p : Part) (amo : Option (Nat × Word × RMode)) (core x : Nat) : Bool × State :=
  let same := fun (e : Logged) => match e with
    | .ask w q a _ => w == who && q == p && a == amo
    | _ => false
  if (getPart s x).log.any same then (false, s) else logAdd s core x (.ask who p amo s.nextId)

/-- What a replay has read for an asker at a part (R355). -/
def answerOf (s : State) (who : Asker) (p : Part) (amo : Bool) : Option Answer :=
  s.answers.find? fun a => a.who == who && a.pa == p.pa && a.amo == amo && a.bytes.length == p.n

/-- An answer is kept for its asker. -/
def keepAnswer (s : State) (a : Answer) : State := { s with answers := s.answers ++ [a] }

/-- The asker has done the work that its accesses belong to. -/
def dropAnswers (s : State) (who : Asker) : State := { s with answers := s.answers.filter fun a => a.who != who }

/-- Has the message of an asker's atomic at a part been counted as sent before (R351)? -/
def sentBefore (s : State) (who : Asker) (p : Part) : Bool :=
  s.answers.any fun a => a.who == who && a.pa == p.pa && a.amo && a.bytes.isEmpty

/-- Count the message that an asker's atomic sends, once (R351). -/
def sentOnce (s : State) (who : Asker) (p : Part) : State := if sentBefore s who p then s else sentPart s who.row.core p

/-- An access of a part within an event of its own: an answer that a replay has left; a wait, with the access in the log of the
swapped-out partition that it is aimed at; a peer's refusal; or none of these, and the access is performed (R354, R355, R374). -/
def askFirst (s : State) (who : Asker) (amo : Option (Nat × Word × RMode)) (home : Bool) (p : Part) : Option (Rd × FFlags × State) :=
  match answerOf s who p amo.isSome with
  | some a => some (.ok a.bytes, a.fl, s)
  | none =>
    match aimedPartOf s p with
    | some (c, x) =>
      if who.kind == 0 && logBefore s who.row who.part s.nextId x then some (.wait, 0, s)
      else
        let (new, t) := askLog s who p amo c x
        some (.wait, 0, if new && amo.isSome then sentOnce t who p else t)
    | none => (peerSays s (dieOf who.row.core) p home).map fun h => (.memerr (if h then 3 else 2) 0, 0, { s with peerNo := none })

/-- A read of a part, as a load of the row, within an event of its own. -/
def askRead (s : State) (who : Asker) (priv : Bool) (fe : Nat) (nt : Bool) (p : Part) : Rd × State :=
  match askFirst s who none false p with
  | some (x, _, t) => (x, t)
  | none => readPart s who.row priv fe nt p

/-- Read parts in order, as plain loads of the row with forwarding, each one a request to a slice (R21, R81, R236, R257). -/
def readParts (s : State) (r : RowId) (priv : Bool) (fe : Nat) (nt : Bool) : List Part → Rd × State
  | [] => (.ok [], s)
  | p :: ps =>
    if ownBefore s r (partIx s r.core) s.nextId p then (.wait, s)
    else match askRead s (rowAsker s r) priv fe nt p with
      | (.ok bs, t0) =>
        let t := bump t0 r.core 4 1
        (match readParts t r priv fe nt ps with
          | (.ok cs, u) => (.ok (forward s r (partIx s r.core) s.nextId p bs ++ cs), u)
          | x => x)
      | (.memerr sub i, t) => (.memerr sub (p.pos + i), t)
      | x => x

/-- Requests to slices that the parts of a request make: a packet and an arrival message make none (R81). -/
def sliceReqs (kind : ReqKind) (ps : List Part) : Nat :=
  match kind with
  | .send _ _ => 0
  | .arrive _ _ => 0
  | _ => ps.length

/-- Issue a request: destination words empty, the parts to perform (R54, R233). -/
def issueReq (s : State) (r : RowId) (priv : Bool) (kind : ReqKind) (ps : List Part) (put : Put) (words : List Nat) : State :=
  let (id, s1) := fresh s
  let ws := words.filter fun w => w != 32
  let s2 := setEmpties s1 r ws
  let s3 := bump s2 r.core 4 (sliceReqs kind ps)
  { s3 with reqs := s3.reqs ++ [⟨id, r, priv, partIx s r.core, kind, ps, [], put, ws, 0, false, false⟩] }

/-- Change request `id`. -/
def modReq (s : State) (id : Nat) (f : Req → Req) : State :=
  { s with reqs := s.reqs.map fun q => if q.id = id then f q else q }

/-- Forget a request that has nothing left to do. -/
def settle (s : State) (id : Nat) : State :=
  { s with reqs := s.reqs.filter fun q => q.id != id || q.pending || !q.words.isEmpty }

/-- Take up bytes read for a part. -/
def Req.take (q : Req) (p : Part) (bs : List Byte) : Req :=
  { q with todo := q.todo.filter fun x => x.pos ≠ p.pos,
           buf := bs.zipIdx.foldl (fun m (b, k) => smPut m (p.pos + k) b) q.buf }

/-- What comes back to a row beside fills takes effect: flags are ORed in (R245), the end of a `dec.fire` is told to the row
that awaits it (R246). -/
def replyDo (s : State) (r : RowId) (x : Reply) : State :=
  match x with
  | .flags fl => orFlags s r fl
  | .fire id st =>
    if (getRow s r).work = wNat (id * 4 + 1) then modRow s r fun w => { w with work := wNat (id * 4 + st) } else s

/-- A reply reaches the row `r` of partition `k`: in the row, or in the log of a swapped-out partition (R354). False: it
waits at the log. -/
def reply (s : State) (r : RowId) (k : Nat) (x : Reply) : Bool × State :=
  if aimedPart s r.core k then logAdd s r.core k (.reply r x) else (true, replyDo s r x)

/-- May a fault found at a target be taken by the row `r` of partition `k` now: it is resident, and READY, or WAITING on a word,
with its instruction still to be executed (R133, R347, R375)? DEDUCED, log entry 27. -/
def takesFault (s : State) (r : RowId) (k : Nat) : Bool :=
  !aimedPart s r.core k && !relDated (getRow s r) && ((getRow s r).st == .ready || ((getRow s r).st == .waiting && (getRow s r).why == 5))

/-- Raise a fault found at a target. -/
def faultRow (s : State) (r : RowId) (f : EngFault) : State :=
  raise s r ⟨if f.cause = cHOMELOST then 7 else 0, f.cause, f.sub, f.acc, f.fva, 0⟩ (getRow s r).rstep

/-- A fault found while an access of the row is performed at its target: the access stays outstanding and is retried
later (R347, R348). DEDUCED, log entry 27. -/
def asyncFault (s : State) (r : RowId) (k : Nat) (f : EngFault) : State := if takesFault s r k then faultRow s r f else s

/-- An access of the row ends with a fault, once the row can take it; `drop` forgets the access (R374, R375). -/
def endAccess (s : State) (r : RowId) (k : Nat) (f : EngFault) (drop : State → State) : State :=
  if takesFault s r k then drop (faultRow s r f) else s

/-- The fault of an access that fails at its target, by the code of `Rd`: uncorrectable data at byte `i` (R347, R348), or a
peer's refusal (R374). -/
def memErrTrap (va : Word) (sub i acc : Nat) : Trap :=
  if sub = 2 then refusalTrap va false acc else if sub = 3 then refusalTrap va true acc
  else ⟨0, cMEMERR, sub, acc, bytePtr va i, 0⟩

/-- The same fault, met at the target. -/
def memErrAt (va : Word) (sub i acc : Nat) : EngFault :=
  let t := memErrTrap va sub i acc
  ⟨t.cause, t.fva, t.acc, t.sub⟩

/-- The pointer of the access that a part belongs to (R339). -/
def accessPtr (p : Part) : Word := bytePtr p.va (2 ^ 56 - p.pos)

/-- Request `q` ends with a fault at its part `p` (R374, R375). -/
def endReq (s : State) (q : Req) (p : Part) (acc cause : Nat) : State :=
  let ptr := match q.put with
    | .lanes _ _ _ => p.va
    | _ => accessPtr p
  endAccess s q.row q.part ⟨cause, ptr, acc, 0⟩ fun t => { t with reqs := t.reqs.filter fun x => x.id != q.id }

/-- A request in flight to what has failed ends with HOMELOST (R374, R375). -/
def lostReq (s : State) (q : Req) (p : Part) (acc : Nat) : State := endReq s q p acc cHOMELOST

/-- A store in flight ends with a fault (R374, R375). -/
def endFlight (s : State) (f : Flight) (cause : Nat) : State :=
  endAccess s f.ent.row f.ent.owner ⟨cause, accessPtr f.ent.part, 1, 0⟩ fun t =>
    { t with flights := t.flights.filter fun g => g.id != f.id }

/-- A request has met an uncorrectable error: one of GDDR is not retried through its old translation (R345, R347, R349). -/
def coldReq (s : State) (q : Req) (sub : Nat) : State := if sub = 1 then modReq s q.id fun y => { y with cold := true } else s

/-- A part of an access of row `r` of partition `k` is checked and translated afresh, against the MTAG of the pointer that the
instruction was given (R38, R42, R345). -/
def rewalk (s : State) (r : RowId) (k : Nat) (priv : Bool) (a : Acc) (p : Part) : Except Trap Part :=
  match check s ⟨r.core, r.row, some k, p.asid, priv⟩ { a with mtag := some p.mtag } p.va p.n false with
  | .ok ps => .ok { ps.headD p with pos := p.pos, n := p.n }
  | .error t => .error t

/-- Rewalk parts, up to the first that fails. -/
def rewalks (s : State) (r : RowId) (k : Nat) (priv : Bool) (a : Acc) : List Part → Except Trap (List Part)
  | [] => .ok []
  | p :: ps =>
    match rewalk s r k priv a p, rewalks s r k priv a ps with
    | .ok q, .ok qs => .ok (q :: qs)
    | .error t, _ => .error t
    | _, .error t => .error t

/-- A rewalk has failed: the row takes its fault as one found at the target, or the walk waits (R345, R371). -/
def rewalkFails (s : State) (r : RowId) (k : Nat) (t : Trap) : State :=
  if t.waits then walkWaits s t else asyncFault s r k ⟨t.cause, t.fva, t.acc, t.sub⟩

/-- The retry of a request that has met an uncorrectable error begins with a walk for what is left of it (R345, R349). -/
def retryReq (s : State) (q : Req) (a : Acc) : State :=
  match rewalks s q.row q.part q.priv a q.todo with
  | .ok ps => modReq s q.id fun y => { y with todo := ps, cold := false }
  | .error t => rewalkFails s q.row q.part t

/-- A part of load request `q` is performed at its target (R98, R233). -/
def loadDo (s : State) (q : Req) (p : Part) (fe : Nat) (nt : Bool) : State :=
  if q.cold then retryReq s q { rd := true }
  else if lostFail s p.pa then lostReq s q p 0
  else match readPart s q.row q.priv fe nt p with
    | (.ok bs, t) => settle (modReq t q.id fun y => y.take p (forward s q.row q.part q.id p bs)) q.id
    | (.wait, t) => t
    | (.memerr sub i, t) => asyncFault (coldReq t q sub) q.row q.part (memErrAt p.va sub i 0)

/-- The log that a part of a request goes to: none for a request that a replay has put at its bank (R354, R355). -/
def logOf (s : State) (q : Req) (p : Part) : Option (Nat × Nat) :=
  match aimedPartOf s p with
  | some (c, k) =>
    let x := getCl s (clOf c)
    if q.atBank && !(x.svalid && x.spart == k) then none else some (c, k)
  | none => none

/-- Append part `p` of request `q` to the log of partition `x` at `core`, in the row's order (R107, R354). -/
def logReq (s : State) (q : Req) (p : Part) (core x : Nat) (ops : List Byte) : State :=
  if logBefore s q.row q.part q.id x then s
  else
    let (ok, t) := logAdd s core x (.req q.id p ops)
    if ok then modReq t q.id fun y =>
      { y with todo := y.todo.filter (fun z => z.pos ≠ p.pos), logged := y.logged + 1, atBank := false }
    else t

/-- Part `k` of load request `q` is performed at its target, or appended to a log (R98, R233, R354). -/
def loadPerform (s : State) (q : Req) (p : Part) (fe : Nat) (nt : Bool) : State :=
  if !q.atBank && (loadsBefore s q.row q.part q.id p || ownBefore s q.row q.part q.id p) then s
  else match logOf s q p with
    | some (c, x) => logReq s q p c x []
    | none => loadDo s q p fe nt

/-- Destination bytes of word `w` that a request supplies: position in the access and in the word (R236, R239,
R241). -/
def Put.bytesOf (d : Put) (w : Nat) : List (Nat × Nat) :=
  match d with
  | .x _ n _ => (List.range n).map fun k => (k, k)
  | .pair r => (List.range 8).map fun k => ((w - 32 - r) * 8 + k, k)
  | .v r => (List.range 8).map fun k => ((w - 80 - 16 * r) * 8 + k, k)
  | .lanes r n js =>
    (js.zipIdx.flatMap fun (j, i) => (List.range n).map fun k => (i * n + k, j * n + k)).filterMap fun (src, off) =>
      if off / 8 = w - 80 - 16 * r then .some (src, off % 8) else .none
  | .none => []

/-- The value written to word `w`, from its old value and the bytes read. -/
def Put.value (d : Put) (w : Nat) (old : Word) (buf : SMap Byte) : Word :=
  match d with
  | .x _ n sg =>
    let v := leNat ((List.range n).map fun k => smGet 0 buf k)
    if sg then signExt (8 * n) v else wNat v
  | _ =>
    wNat (leNat ((d.bytesOf w).foldl (fun bs (src, k) => patch bs k [smGet 0 buf src]) (leBytes 8 old.toNat)))

/-- Words of one register: an X, E or M register is one word, a V register 16 (R43). -/
def regOf (w : Nat) : Nat := if w < 80 then w else 80 + (w - 80) / 16

/-- Bytes of word `w` that a request writes: all eight, but for the lanes of a gather (R236, R239, R241). -/
def Put.covers (d : Put) (w : Nat) : List Nat :=
  match d with
  | .lanes _ _ _ => (d.bytesOf w).map (·.2)
  | _ => List.range 8

/-- A word with the bytes at `ks` taken from `v` and the others from `old`. -/
def mixWord (old v : Word) (ks : List Nat) : Word :=
  wNat (leNat ((leBytes 8 old.toNat).zipIdx.map fun (b, k) => if ks.contains k then (leBytes 8 v.toNat).getD k 0 else b))

/-- Does a gang owe its row the status: not while it is held, with the fault in D (R294)? -/
def MxSeq.owes (m : MxSeq) : Bool := m.st != .idle && m.held.isNone

/-- Does an edge run owe its row a status: not while it is held, nor while the row has the batch (R309, R318)? -/
def EdgeEng.owes (e : EdgeEng) : Bool := e.st != .idle && e.st != .body && e.held.isNone

/-- Does a producer of row `r` of partition `k`, of an access number that `old` names, still have a fill to make for a word that
`hit` names (R54, R234): a request, a piece of a copy or of a distributor, a drain, a gang's or an edge run's status? -/
def owes (s : State) (r : RowId) (k : Nat) (old : Nat → Bool) (hit : RowId → Nat → Bool) : Bool :=
  let c := getCore s r.core
  let lands := fun (skip : List Nat) (p : Part) (x : Nat × Nat) => match region s (p.pa + x.1) with
    | .row q _ off => (rowWords off x.2).any fun w => hit q w && !skip.contains (rowWord q w)
    | _ => false
  s.reqs.any (fun q => q.row == r && q.part == k && old q.id && q.words.any (hit r)) ||
  (getCl s (clOf r.core)).copyq.any (fun p => p.row == r && p.part == k && old p.id && p.todo.any (lands p.skip p.dst)) ||
  ((getDie s 0).distq ++ (getDie s 1).distq).any (fun p => !p.out && p.row == r && p.part == k && old p.id && p.todo.any (lands p.skip p.rs)) ||
  (k == partIx s r.core && (
    (c.mx.st != .idle && c.mx.row == r.row && old c.mx.born && c.mx.todo.any fun x => hit ⟨r.core, x.1⟩ x.2) ||
    (c.mx.owes && c.mx.row == r.row && old c.mx.since && hit r (32 + c.mx.d)) ||
    (c.edge.owes && c.edge.row == r.row && old c.edge.since && hit r (32 + c.edge.d))))

/-- Has an older producer of row `r` a fill left for the register of word `w` of row `q` (R234)? DEDUCED, log entry 72. -/
def fillBehind (s : State) (r : RowId) (k bound : Nat) (q : RowId) (w : Nat) : Bool :=
  owes s r k (fun i => decide (i < bound)) fun q' v => q' == q && regOf v == regOf w

/-- Does a producer of row `r` later than number `bound` still owe word `w` of row `q`? -/
def owed (s : State) (r : RowId) (k bound : Nat) (q : RowId) (w : Nat) : Bool :=
  owes s r k (fun i => decide (bound < i)) fun q' v => q' == q && v == w

/-- A fill of a destination word: while a later producer of the row still owes the word, its bytes are written and the
word stays as that producer has marked it (R54, R234). DEDUCED, log entry 72. -/
def fillOwed (s : State) (r : RowId) (k bound w : Nat) (v : Word) : State :=
  if owed s r k bound r w then putW s r w v else fillWord s r w v

/-- Engine words fill a row, as `fillOwed` does: `r` is the row of the engine's instruction; the words of `skip`, by address / 8,
are left as they stand (R54, R234). -/
def fillWords (s : State) (r : RowId) (k bound : Nat) (skip : List Nat) (q : RowId) (w : Nat) (bs : List Byte) : State :=
  let ws := (List.range' w (bs.length / 8)).filter fun v => !skip.contains (rowWord q v)
  let t := ws.foldl (fun t v => putRowBytes t q (8 * v) ((bs.drop (8 * (v - w))).take 8)) s
  setFulls (unpoison t (ws.map (rowWord q))) q (ws.filter fun v => !owed s r k bound q v)

/-- One destination word is filled when its bytes have arrived and no older producer of the row still has a fill for
the register (R54, R234). A fill for a row that is swapped out goes to its log (R354). -/
def deliverStep (s : State) (q : Req) (w : Nat) : State :=
  let arrived := (q.put.bytesOf w).all fun x => q.buf.any fun y => y.1 == x.1
  if !q.words.contains w || !arrived || fillBehind s q.row q.part q.id q.row w then s
  else
    let drop := fun (t : State) => settle (modReq t q.id fun y => { y with words := y.words.filter fun v => v ≠ w }) q.id
    if aimedPart s q.row.core q.part then
      let (ok, t) := logAdd s q.row.core q.part (.fill q.row w (q.put.value w 0 q.buf) (q.put.covers w))
      if ok then drop t else t
    else fillOwed (drop s) q.row q.part q.id w (q.put.value w (getW s q.row w) q.buf)

/-! ## Atomics -/

/-- Read, compute and write an atomic at its home, after the stores that its die has forwarded to the location (R88, R94,
R245): the old value and the flags, those of the merges that it forces included (R72), or a wait, or uncorrectable data, with
nothing performed and nothing merged. The die's own guest copy takes the value that the home then has, after a `cas` that has
failed too (R88, R94). -/
def atomicAt (s : State) (who : RowId) (fn : Nat) (b e : Word) (rm : RMode) (p : Part) : Rd × FFlags × State :=
  let bv := b.toNat % 2 ^ (8 * p.n)
  let ev := e.toNat % 2 ^ (8 * p.n)
  let keeps := fun (old : Nat) => fn == 9 && old != ev
  match region s p.pa with
  | .row r _ off =>
    if rowBusy s r (some who) then (.wait, 0, s)
    else match rowLoad s r off p.n 1 with
      | (.ok bs, s1) =>
        let (v, fl) := amoNew fn p.n rm (leNat bs) bv ev
        let s2 := received s1 who.core r.core
        (.ok bs, fl, if keeps (leNat bs) then s2 else rowStore s2 r off (leBytes p.n v) false false (some who))
      | (x, s1) => (x, 0, s1)
  | .peerAp _ _ =>
    let bs := memRead s p.pa p.n
    let (v, fl) := amoNew fn p.n rm (leNat bs) bv ev
    (.ok bs, fl, if keeps (leNat bs) then s else memWrite s p.pa (leBytes p.n v))
  | _ =>
    let die := dieOf who.core
    let (fm, s0) := mergeCopies s p.pa (liveCores s)
    match homeRead (landFlights s0 die p) die p with
    | (.ok bs, s1) =>
      let (v, fl) := amoNew fn p.n rm (leNat bs) bv ev
      (.ok bs, fm ||| fl, if keeps (leNat bs) then guestUpdate s1 die p bs else homeStore s1 die p (leBytes p.n v))
    | (x, _) => (x, 0, s)

/-! ## Packets (R136, R141, R257) -/

/-- LENM1 + 1 units of 32 bytes: the length of a packet in bytes (R135). -/
def pktLen (h : Word) : Nat := 32 * (Wbits h 2 0 + 1)
/-- NSUCC of a header. -/
def pktSucc (h : Word) : Nat := Wbits h 5 3
/-- CORE of a header. -/
def pktCore (h : Word) : Nat := Wbits h 24 16
/-- CHAN of a header. -/
def pktChan (h : Word) : Nat := Wbits h 13 8
/-- SEQ of a header. -/
def pktSeq (h : Word) : Nat := Wbits h 63 32

/-- Is a packet well formed for a sender's partition (R136)? -/
def wellFormed (s : State) (part : Option Nat) (ws : List Word) : Bool :=
  let h := ws.getD 0 0
  let core := pktCore h
  decide (pktSucc h ≤ 4) && decide (16 + 8 * pktSucc h ≤ pktLen h) &&
  part.isSome && (core == 0x1FF || (decide (core < 320) && partOf s core == part)) &&
  Wbits h 31 25 == 0 && Wbits h 15 14 == 0 && Wbits h 7 7 == 0 &&
  ((ws.drop 2).take (pktSucc h)).all fun x => Wbits x 3 0 == 0

/-- Does a partition hold a core on a die? -/
def partOnDie (s : State) (part die : Nat) : Bool :=
  (List.range 20).any fun c => let x := getCl s (die * 20 + c); x.valid && x.part == part

/-- The die whose inbox takes a packet: of the core it names; else `die`, or the other when the partition holds no core
there (R141, R257). DEDUCED, log entry 52. -/
def pktDie (s : State) (part die core : Nat) : Nat :=
  if core = 0x1FF then (if partOnDie s part die || !partOnDie s part (1 - die) then die else 1 - die) else dieOf core

/-- A packet for the inboxes. -/
def mkPacket (ws : List Word) (part : Nat) (sender : Option Nat) : Packet :=
  let c := pktCore (ws.getD 0 0)
  ⟨ws, part, if c = 0x1FF then none else some c, sender, 0, false, false, none⟩

/-- Packets of a partition in a die's inbox. -/
def inboxCount (s : State) (die part : Nat) : Nat := ((getDie s die).inbox.filter fun p => !p.own && p.part == part).length

/-- Is ACTION of a counter cell well formed (R136, R141)? Its bits [31:15] are reserved. -/
def actionOk (s : State) (part : Option Nat) (a : Word) : Bool :=
  Wbits a 31 15 == 0 && part.isSome &&
  (Wbits a 14 6 == 0x1FF || (decide (Wbits a 14 6 < 320) && partOf s (Wbits a 14 6) == part))

/-- Send the packet of a counter cell at `p` whose ACTION is well formed, for partition `part`: its home holds it until the
inbox has room (R141, R326). USER is the cell's pointer as the access has it, MTAG included: DESIGN CHOICE, log entry 108. A
cell in a peer's memory has no home die here, and its packet is sent on the issuer's die: DESIGN CHOICE, log entry 107. -/
def sendAction (s : State) (part core : Nat) (p : Part) (a : Word) : State :=
  let home := (homeDie s p.pa).getD (dieOf core)
  let ws := [header (Wbits a 63 32) (Wbits a 14 6) (Wbits a 5 0) 0 0, p.va, 0, 0]
  { s with held := s.held ++ [⟨pktDie s part home (Wbits a 14 6), mkPacket ws part none⟩] }

/-- Read the 8 bytes after a counter cell's COUNT, at its home (R141, R246). -/
def readAction (s : State) (who : RowId) (p : Part) : Rd × State :=
  let x := { p with va := bytePtr p.va 8, pa := p.pa + 8, n := 8 }
  match region s x.pa with
  | .row r _ off => rowLoad s r off 8 0
  | .peerAp _ _ => (.ok (memRead s x.pa 8), s)
  | _ => homeRead (landFlights s (dieOf who.core) x) (dieOf who.core) x

/-- Judge ACTION and send its packet for partition `part`; true when it was sent (R246). -/
def fireAction (s : State) (part core : Nat) (p : Part) (a : Word) : Bool × State :=
  if actionOk s (some part) a then (true, sendAction s part core p a) else (false, s)

/-- The status of a `dec.fire` in a row's `work`: request number and 1 waiting, 2 done, 3 refused. -/
def fireStatus (id st : Nat) : Word := wNat (id * 4 + st)

/-- An atomic request has read `bs` and written: its packet is sent, and the flags and the end of a `dec.fire` go to the
row; `s` is the state before, kept where the log of a swapped-out row has no room (R246, R354, R356). -/
def atomicEnd (s t : State) (q : Req) (p : Part) (bs : List Byte) (fl : FFlags) (act : Option Word) : State :=
  let (sent, t1) := match act with
    | some a => fireAction t q.part q.row.core p a
    | none => (true, t)
  let (ok, t2) := if fl = 0 then (true, t1) else reply t1 q.row q.part (.flags fl)
  let (ok2, t3) := match q.kind with
    | .atomic 10 _ _ _ _ _ => reply t2 q.row q.part (.fire q.id (if sent then 2 else 3))
    | _ => (true, t2)
  if ok && ok2 then settle (modReq t3 q.id fun y => y.take p bs) q.id
  else if aimedPart s q.row.core q.part then logFull s q.row.core q.part else s

/-- An atomic request is performed at its target: with a decrement to 0, ACTION is read in the same event (R94, R245,
R246). -/
def atomicDo (s : State) (q : Req) (p : Part) (fn : Nat) (b e : Word) (rm : RMode) : State :=
  if q.cold then retryReq s q accAmo
  else if lostFail s p.pa then lostReq s q p 3
  else match atomicAt s q.row fn b e rm p with
    | (.ok bs, fl, t) =>
      if fn = 10 ∧ leNat bs = 1 then
        match readAction t q.row p with
        | (.ok as, u) => atomicEnd s u q p bs fl (some (wNat (leNat as)))
        | (.wait, _) => s
        | (.memerr sub i, _) => asyncFault (coldReq s q sub) q.row q.part (memErrAt (bytePtr p.va 8) sub i 3)
      else atomicEnd s t q p bs fl none
    | (.wait, _, t) => t
    | (.memerr sub i, _, t) => asyncFault (coldReq t q sub) q.row q.part (memErrAt p.va sub i 3)

/-- Must an atomic wait: for the row's older loads and non-posted atomics, for its older stores and posted atomics to the same
location, and a posted one for the older stores of its scope (R87, R88, R91, R93)? A posted atomic of device scope does not wait for stores to the host or to peers: DEDUCED, log
entry 91. -/
def atomicBehind (s : State) (q : Req) (p : Part) (posted : Bool) (scope : Nat) : Bool :=
  !loadsDone s q.row q.part q.id ||
  (flightsOf s q.row q.part q.id).any (fun f => sameLoc s f.ent.part p) ||
  (reqsOf s q.row q.part q.id).any (fun x => x.isPosted && x.todo.any fun y => sameLoc s y p) ||
  (posted && !(dieDone s q.row q.part q.id && (scope == 0 ||
    (flightsOf s q.row q.part q.id).all fun f => scope == 1 && !inPackage s f.ent.part)))

/-- An atomic request is performed at its target, or appended to a log, after what it waits for (R93, R245, R354). -/
def atomicPerform (s : State) (q : Req) (p : Part) : State :=
  match q.kind with
  | .atomic fn b e rm posted scope =>
    if !q.atBank && atomicBehind s q p posted scope then s
    else match logOf s q p with
      | some (c, x) => logReq s q p c x (leBytes 8 b.toNat ++ leBytes 8 e.toNat)
      | none => atomicDo s q p fn b e rm
  | _ => s

/-- What a send waits for: older accesses by its fence, older sends of the row (R259). -/
def sendReady (s : State) (q : Req) (fence : Nat) : Bool :=
  scopeDone s q.row q.part fence q.id && !(reqsOf s q.row q.part q.id).any fun x => x.isSend && x.pending

/-- A sent packet enters the inbox of its die, or is refused with status 2 when the inbox is full (R257). -/
def sendPerform (s : State) (q : Req) : State :=
  match q.kind with
  | .send ws fence =>
    if !q.pending || !sendReady s q fence then s
    else
      let part := q.part
      let die := pktDie s part (dieOf q.row.core) (pktCore (ws.getD 0 0))
      let full := decide (2048 ≤ inboxCount s die part)
      let t := if full then s else
        modCore (modDie s die fun d => { d with inbox := d.inbox ++ [{ mkPacket ws part (some q.row.core) with birth := some (q.row, q.id) }] }) q.row.core
          fun c => { c with sent := c.sent + 1 }
      settle (modReq t q.id fun y =>
        { y with todo := [], buf := (leBytes 8 (if full then 2 else 0)).zipIdx.map fun (b, k) => (k, b) }) q.id
  | _ => s

/-! ## Shootdown (R213, R349) -/

/-- Does a shootdown cover `n` pages from page `vpn` of context `asid`? -/
def Shoot.covers (x : Shoot) (asid vpn n : Nat) : Bool :=
  asid == x.asid && (x.all || (decide (vpn < x.hi) && decide (x.lo < vpn + n)))

/-- Does it cover the translation of a part: any page of the leaf or group that translated it meets the range? -/
def Shoot.part (x : Shoot) (p : Part) : Bool := x.covers p.asid (alignDown (Wbits p.va 55 12) p.span) p.span

/-- Has a logged arrival been translated before the broadcast, and not been applied yet (R349, R354)? -/
def Shoot.logged (x : Shoot) (e : Logged) : Bool :=
  match e with
  | .store e => decide (e.id < x.id) && x.part e.part
  | .req id p _ => decide (id < x.id) && x.part p
  | .piece _ _ _ _ _ id p => decide (id < x.id) && x.part p
  | .page _ _ _ _ id p => decide (id < x.id) && x.part p
  | .ask _ p _ id => decide (id < x.id) && x.part p
  | _ => false

/-- Has every access translated before the broadcast been performed: stores, requests, engine pieces, targets of a running
DRAIN, the page of a tile in hand, objects of dated releases, and what stands in a log (R349)? What has met an uncorrectable error walks afresh (R345). -/
def shootDone (s : State) (x : Shoot) : Bool :=
  s.cores.all (fun c => (c.2.fifo.all fun e => decide (x.id ≤ e.id) || !x.part e.part) &&
    (decide (x.id ≤ c.2.mx.born) || c.2.mx.tgt.all fun ps => ps.all fun p => !x.part p) &&
    (decide (x.id ≤ c.2.mx.pageId) || c.2.mx.page.all fun p => !x.part p)) &&
  s.flights.all (fun f => decide (x.id ≤ f.id) || !x.part f.ent.part) &&
  s.reqs.all (fun q => decide (x.id ≤ q.id) || q.isSend || q.cold || q.todo.all fun p => !x.part p) &&
  s.clusters.all (fun c => c.2.copyq.all fun p => decide (x.id ≤ p.id) || p.cold || !(x.part p.src || x.part p.dst)) &&
  s.dies.all (fun d => d.2.distq.all fun p => decide (x.id ≤ p.id) || p.cold || !(x.part p.mem || x.part p.rs)) &&
  s.rows.all (fun w => match w.2.rel with
    | some o => decide (x.id ≤ o.id) || o.parts.all fun p => !x.part p
    | none => true) &&
  s.parts.all fun p => p.2.log.all fun e => !x.logged e

/-- Is a shootdown of a context under way? Engines then wait before their next page (R74, R280). -/
def shootPending (s : State) (asid : Nat) : Bool := s.shoots.any fun x => x.asid == asid && !shootDone s x

end Sys2Proof.Machine
end

