-- ==== Sys2Proof/Machine/Operands.lean ====
section
/-!
DEFINITION. Operands: reading source registers with their full/empty bits and trap bits (R52, R153), writing
destinations (R53, R193, R216), lanes and masks (R216, R220), and the holds of R234.
-/

namespace Sys2Proof.Machine

/-- What executing an instruction answers. -/
abbrev Out := Host.Outcome State Fault Refusal

/-! ## Register words (R43, R44) -/

/-- Word of X[r]. -/
def xw (r : Reg) : Nat := 32 + r.toNat
/-- Word of E[e]. -/
def ew (e : Nat) : Nat := 64 + e
/-- Word of M[m]. -/
def mw (m : Nat) : Nat := 72 + m
/-- First word of V[v]. -/
def vw (v : Nat) : Nat := 80 + 16 * v

/-- X[a]. -/
def getX (s : State) (r : RowId) (a : Reg) : Word := getW s r (xw a)
/-- E[e]. -/
def getE (s : State) (r : RowId) (e : Nat) : Word := getW s r (ew e)
/-- M[m]. -/
def getM (s : State) (r : RowId) (m : Nat) : Word := getW s r (mw m)
/-- The 128 bytes of V[v]. -/
def getV (s : State) (r : RowId) (v : Nat) : List Byte := rowBytes s r (8 * vw v) 128

/-- Write X[d] and set it full; X0 discards (R50, R53). -/
def setX (s : State) (r : RowId) (d : Reg) (v : Word) : State := fillWord s r (xw d) v
/-- Write E[e]. -/
def setE (s : State) (r : RowId) (e : Nat) (v : Word) : State := fillWord s r (ew e) v
/-- Write M[m]. -/
def setM (s : State) (r : RowId) (m : Nat) (v : Word) : State := fillWord s r (mw m) v

/-- Write bytes of words of a row from word `w` on and set the words full. -/
def fillBytes (s : State) (r : RowId) (w : Nat) (bs : List Byte) : State :=
  let ws := List.range' w (bs.length / 8)
  setFulls (unpoison (putRowBytes s r (8 * w) bs) (ws.map (rowWord r))) r ws

/-- Write the 128 bytes of V[v] and set its 16 words full (R216). -/
def setV (s : State) (r : RowId) (v : Nat) (bs : List Byte) : State := fillBytes s r (vw v) bs

/-! ## Sources (R52, R153) -/

/-- A source: the words it needs full and its trap bit. -/
structure Src where
  words : List Nat
  trap : Bool
  deriving DecidableEq, Repr

/-- Source X[a]. -/
def srcX (a : Reg) (t : Bool) : Src := ⟨[xw a], t⟩
/-- Source pair X[a], X[a+1]. -/
def srcXX (a : Reg) (t : Bool) : Src := ⟨[xw a, xw a + 1], t⟩
/-- Source E[e]. -/
def srcE (e : Nat) (t : Bool) : Src := ⟨[ew e], t⟩
/-- Source M[m]. -/
def srcM (m : Nat) (t : Bool) : Src := ⟨[mw m], t⟩
/-- Source V[v]: all 16 words, whatever the type (R52). -/
def srcV (v : Nat) (t : Bool) : Src := ⟨List.range' (vw v) 16, t⟩
/-- FLAGS, which an instruction that rounds reads for mode() (R45, R348); it is always full (R51). DEDUCED, log entry 112. -/
def srcF : Src := ⟨[3], false⟩
/-- FLAGS, where the instruction rounds in mode(). -/
def srcRm (md : Bool) : List Src := if md then [srcF] else []
/-- The mask that MK names, if any (R150). -/
def srcMk (mk : Nat) (t : Bool) : List Src := if mk = 0 then [] else [srcM mk t]

/-- The first empty source in field order: its lowest empty word and its trap bit. -/
def firstEmpty (s : State) (r : RowId) : List Src → Option (Nat × Bool)
  | [] => none
  | x :: xs =>
    match emptyOf s r x.words with
    | w :: _ => some (w, x.trap)
    | [] => firstEmpty s r xs

/-- The first poisoned source word. -/
def firstPoison (s : State) (r : RowId) (xs : List Src) : Option Nat :=
  ((xs.flatMap fun x => x.words).filter fun w => isPoison s r w).head?

/-- VA of a word of the row, for FVA (R339). -/
def wordVa (s : State) (r : RowId) (w : Nat) : Word := rowVa s r + wNat (8 * w)

/-- Examine the sources: block on an empty word, or raise EMPTY when its trap bit is set; raise MEMERR on a poisoned
word; else go on with `body` (R52, R153, R348). `k` is the RSTEP of a fault. -/
def gate (s : State) (r : RowId) (k : Nat) (xs : List Src) (body : State) : State :=
  match firstEmpty s r xs with
  | some (w, true) => raise s r (Trap.plain cEMPTY (wordVa s r w)) k
  | some (w, false) => block s r w
  | none =>
    match firstPoison s r xs with
    | some w => raise s r (Trap.plain cMEMERR (wordVa s r w)) k
    | none => body

/-- Run `body`, or raise MEMERR where the instruction reads a poisoned word of its row that is no source (R348). -/
def soundGate (s : State) (r : RowId) (k w : Nat) (body : State) : State :=
  if isPoison s r w then raise s r (Trap.plain cMEMERR (wordVa s r w)) k else body

/-- Are all sources full and sound: `gate` goes on? -/
def ready (s : State) (r : RowId) (xs : List Src) : Bool := (firstEmpty s r xs).isNone && (firstPoison s r xs).isNone

/-- The hold of R234, before the sources of a memory or engine instruction. -/
def holdGate (s : State) (r : RowId) (body : State) : State :=
  match holdWord s r with
  | some w => block s r w
  | none => body

/-- Raise ILL at the instruction's pointer: nothing is performed and RSTEP is 0 (R159). -/
def ill (s : State) (r : RowId) : State := raise s r (Trap.plain cILL (getRow s r).pc) 0

/-- Run `body` when the row is privileged, else raise PERM at the instruction's pointer (R209). -/
def privGate (s : State) (r : RowId) (body : State) : State :=
  if (getRow s r).priv then body else raise s r (Trap.plain cPERM (getRow s r).pc) 0

/-- Keep the row on its instruction with RSTEP `k`: the next step of a multi-part instruction. DEDUCED, log entry 7. -/
def toStep (s : State) (r : RowId) (k : Nat) : State := modRow s r fun w => { w with rstep := k }

/-- Write X[d] and retire an instruction of `n` bytes (R193). -/
def retX (s : State) (r : RowId) (d : Reg) (v : Word) (n : Nat) : State := retire (setX s r d v) r n

/-- Write X[d], OR the flags and retire (R184, R193). -/
def retXF (s : State) (r : RowId) (d : Reg) (v : Word) (fl : FFlags) (n : Nat) : State :=
  retire (orFlags (setX s r d v) r fl) r n

/-! ## Sizes -/

/-- Bits of a scalar size: 32 for w, 64 for d (R194). -/
def szBits (sz : Bool) : Nat := if sz then 64 else 32

/-- An operand of a size. -/
def szOp (sz : Bool) (v : Word) : Nat := v.toNat % 2 ^ szBits sz

/-- A result of a size: the w size is sign-extended from bit 31 (R194). -/
def szRes (sz : Bool) (v : Nat) : Word := if sz then wNat v else signExt 32 v

/-- The float format of an FPU instruction (R205). -/
def fpuFmt (f : Bool) : Fmt := if f then f64 else f32

/-! ## Lanes (R216) -/

/-- Lane `j` of a vector with elements of `w` bytes. -/
def laneGet (w : Nat) (bs : List Byte) (j : Nat) : Nat := leNat ((bs.drop (w * j)).take w)

/-- The mask of an instruction: all ones when MK = 0. -/
def maskOf (s : State) (r : RowId) (mk : Nat) : Nat := if mk = 0 then 2 ^ 64 - 1 else (getM s r mk).toNat

/-- The sources of a masked vector instruction: D first when a mask is named, then its own, then the mask (R153, R216). -/
def vecSrcs (d mk : Nat) (t : Bool) (xs : List Src) : List Src :=
  (if mk = 0 then [] else [srcV d t]) ++ xs ++ srcMk mk t

/-- Lanes `j` from `j0` on: computed where active, else the old bytes; the flags of the active lanes. -/
def lanesFrom (w : Nat) (old : List Byte) (act : Nat → Bool) (f : Nat → FRes) : (n j0 : Nat) → List Byte × FFlags
  | 0, _ => ([], 0)
  | n + 1, j =>
    let (bs, fl) := lanesFrom w old act f n (j + 1)
    if act j then
      let (v, g) := f j
      (leBytes w v ++ bs, g ||| fl)
    else ((old.drop (w * j)).take w ++ bs, fl)

/-- Write V[d] lane by lane under a mask, OR the flags, and retire (R216). -/
def retV (s : State) (r : RowId) (ty mk d : Nat) (f : Nat → FRes) (n : Nat) : State :=
  let w := laneBytes ty
  let m := maskOf s r mk
  let (bs, fl) := lanesFrom w (getV s r d) (fun j => m.testBit j) f (laneCount ty) 0
  retire (orFlags (setV s r d bs) r fl) r n

/-- The value of a lane as a signed integer. -/
def laneInt (w : Nat) (bs : List Byte) (j : Nat) : Int := sInt (8 * w) (laneGet w bs j)

/-- An integer lane result without flags. -/
def pureLane (v : Nat) : FRes := (v, 0)

/-- The mask of lanes for which a condition holds, and the flags of the active lanes (R219). -/
def condMask (act : Nat → Bool) (f : Nat → Bool × FFlags) : (n j0 : Nat) → Nat × FFlags
  | 0, _ => (0, 0)
  | n + 1, j =>
    let (m, fl) := condMask act f n (j + 1)
    if act j then
      let (c, g) := f j
      (m + c.toNat * 2 ^ j, g ||| fl)
    else (m, fl)

/-! ## Memory operands -/

/-- Effective address of format WM (R235). -/
def wmPtr (s : State) (r : RowId) (a : Reg) (off : BitVec 10) (scale : Nat) : Word :=
  getX s r a + signExt 10 off.toNat * wNat scale

/-- Bytes and sign of a scalar size code (R157, R236). -/
def sizeOf (sz : Nat) : Nat × Bool :=
  match sz with
  | 0 => (1, true)
  | 1 => (1, false)
  | 2 => (2, true)
  | 3 => (2, false)
  | 4 => (4, true)
  | 5 => (4, false)
  | 6 => (8, false)
  | _ => (16, false)

end Sys2Proof.Machine
end

