-- ==== Sys2Proof/Machine/Scalar.lean ====
section
/-!
DEFINITION. The scalar majors: ALU, immediates, constants, branches and FPU (R193-R208). Each meaning reads its sources
under R153, writes its destination full, and retires.
-/

namespace Sys2Proof.Machine

/-! ## Shared forms -/

/-- A two-source ALU instruction: the n-bit operands give an n-bit result (R195). -/
def alu2 (s : State) (sz tb ta : Bool) (b a d : Reg) (f : (n x y : Nat) → Nat) : State :=
  let r := s.cur
  gate s r 0 [srcX a ta, srcX b tb]
    (retX s r d (szRes sz (f (szBits sz) (szOp sz (getX s r a)) (szOp sz (getX s r b)))) 4)

/-- A one-source ALU instruction (R195). -/
def alu1 (s : State) (sz ta : Bool) (a d : Reg) (f : (n x : Nat) → Nat) : State :=
  let r := s.cur
  gate s r 0 [srcX a ta] (retX s r d (szRes sz (f (szBits sz) (szOp sz (getX s r a)))) 4)

/-- An instruction with a source X[a] and an immediate (R198-R200). -/
def aluImm (s : State) (ta : Bool) (a d : Reg) (f : Word → Word) : State :=
  let r := s.cur
  gate s r 0 [srcX a ta] (retX s r d (f (getX s r a)) 4)

/-- Signed division (R197). -/
def divS (n x y : Nat) : Nat :=
  if y = 0 then 2 ^ n - 1 else uNat n ((sInt n x).tdiv (sInt n y))

/-- Unsigned division (R197). -/
def divU (n x y : Nat) : Nat := if y = 0 then 2 ^ n - 1 else x / y

/-- Signed remainder (R197). -/
def remS (n x y : Nat) : Nat := if y = 0 then x else uNat n ((sInt n x).tmod (sInt n y))

/-- Unsigned remainder (R197). -/
def remU (x y : Nat) : Nat := if y = 0 then x else x % y

/-- Rotate right within n bits. -/
def rotR (n x k : Nat) : Nat := x / 2 ^ (k % n) + x % 2 ^ (k % n) * 2 ^ (n - k % n)

/-- Arithmetic shift right of an n-bit value. -/
def sraN (n x k : Nat) : Nat := uNat n (sInt n x / 2 ^ (k % n))

/-- Shift left within n bits. -/
def shlN (n x k : Nat) : Nat := x * 2 ^ (k % n) % 2 ^ n

/-- Logical shift right. -/
def shrN (n x k : Nat) : Nat := x / 2 ^ (k % n)

/-- Bits set in an n-bit value. -/
def popN : Nat → Nat → Nat
  | 0, _ => 0
  | n + 1, x => x % 2 + popN n (x / 2)

/-- Trailing zeros of an n-bit value; n for 0. -/
def ctzN : Nat → Nat → Nat
  | 0, _ => 0
  | n + 1, x => if x % 2 = 1 then 0 else 1 + ctzN n (x / 2)

/-- Leading zeros of an n-bit value; n for 0. -/
def clzN (n x : Nat) : Nat := if x = 0 then n else n - 1 - Nat.log2 x

/-- The bit field of x that y describes (R196). -/
def extField (x y : Nat) : Nat := x / 2 ^ (y % 64) % 2 ^ (y / 2 ^ 8 % 64 + 1)

/-! ## ALU (R195-R197) -/

/-- `alu.add`: A + B (R195). -/
def execAluAdd (sz tb ta : Bool) (b a d : Reg) (s : State) : Out :=
  .next (alu2 s sz tb ta b a d fun n x y => (x + y) % 2 ^ n)

/-- `alu.sub`: A - B (R195). -/
def execAluSub (sz tb ta : Bool) (b a d : Reg) (s : State) : Out :=
  .next (alu2 s sz tb ta b a d fun n x y => (x + 2 ^ n - y) % 2 ^ n)

/-- `alu.mul`: A x B (R195). -/
def execAluMul (sz tb ta : Bool) (b a d : Reg) (s : State) : Out :=
  .next (alu2 s sz tb ta b a d fun n x y => x * y % 2 ^ n)

/-- `alu.mulh`: the high half of the signed product (R195). -/
def execAluMulh (sz tb ta : Bool) (b a d : Reg) (s : State) : Out :=
  .next (alu2 s sz tb ta b a d fun n x y => uNat n (sInt n x * sInt n y / 2 ^ n))

/-- `alu.mulhu`: the high half of the unsigned product (R195). -/
def execAluMulhu (sz tb ta : Bool) (b a d : Reg) (s : State) : Out :=
  .next (alu2 s sz tb ta b a d fun n x y => x * y / 2 ^ n)

/-- `alu.div`: signed quotient (R195). -/
def execAluDiv (sz tb ta : Bool) (b a d : Reg) (s : State) : Out :=
  .next (alu2 s sz tb ta b a d fun n x y => divS n x y)

/-- `alu.divu`: unsigned quotient (R195). -/
def execAluDivu (sz tb ta : Bool) (b a d : Reg) (s : State) : Out :=
  .next (alu2 s sz tb ta b a d fun n x y => divU n x y)

/-- `alu.rem`: signed remainder (R195). -/
def execAluRem (sz tb ta : Bool) (b a d : Reg) (s : State) : Out :=
  .next (alu2 s sz tb ta b a d fun n x y => remS n x y)

/-- `alu.remu`: unsigned remainder (R195). -/
def execAluRemu (sz tb ta : Bool) (b a d : Reg) (s : State) : Out :=
  .next (alu2 s sz tb ta b a d fun _ x y => remU x y)

/-- `alu.and`: A and B (R195). -/
def execAluAnd (sz tb ta : Bool) (b a d : Reg) (s : State) : Out :=
  .next (alu2 s sz tb ta b a d fun _ x y => Nat.land x y)

/-- `alu.or`: A or B (R195). -/
def execAluOr (sz tb ta : Bool) (b a d : Reg) (s : State) : Out :=
  .next (alu2 s sz tb ta b a d fun _ x y => Nat.lor x y)

/-- `alu.xor`: A xor B (R195). -/
def execAluXor (sz tb ta : Bool) (b a d : Reg) (s : State) : Out :=
  .next (alu2 s sz tb ta b a d fun _ x y => Nat.xor x y)

/-- `alu.andn`: A and not B (R195). -/
def execAluAndn (sz tb ta : Bool) (b a d : Reg) (s : State) : Out :=
  .next (alu2 s sz tb ta b a d fun n x y => Nat.land x (2 ^ n - 1 - y))

/-- `alu.shl`: A shifted left by B mod n (R195). -/
def execAluShl (sz tb ta : Bool) (b a d : Reg) (s : State) : Out :=
  .next (alu2 s sz tb ta b a d fun n x y => shlN n x y)

/-- `alu.shr`: A shifted right with zeros (R195). -/
def execAluShr (sz tb ta : Bool) (b a d : Reg) (s : State) : Out :=
  .next (alu2 s sz tb ta b a d fun n x y => shrN n x y)

/-- `alu.sra`: A shifted right with copies of its sign (R195). -/
def execAluSra (sz tb ta : Bool) (b a d : Reg) (s : State) : Out :=
  .next (alu2 s sz tb ta b a d fun n x y => sraN n x y)

/-- `alu.min`: signed minimum (R195). -/
def execAluMin (sz tb ta : Bool) (b a d : Reg) (s : State) : Out :=
  .next (alu2 s sz tb ta b a d fun n x y => if sInt n x ≤ sInt n y then x else y)

/-- `alu.max`: signed maximum (R195). -/
def execAluMax (sz tb ta : Bool) (b a d : Reg) (s : State) : Out :=
  .next (alu2 s sz tb ta b a d fun n x y => if sInt n y ≤ sInt n x then x else y)

/-- `alu.minu`: unsigned minimum (R195). -/
def execAluMinu (sz tb ta : Bool) (b a d : Reg) (s : State) : Out :=
  .next (alu2 s sz tb ta b a d fun _ x y => min x y)

/-- `alu.maxu`: unsigned maximum (R195). -/
def execAluMaxu (sz tb ta : Bool) (b a d : Reg) (s : State) : Out :=
  .next (alu2 s sz tb ta b a d fun _ x y => max x y)

/-- `alu.rot`: A rotated right by B mod n (R195). -/
def execAluRot (sz tb ta : Bool) (b a d : Reg) (s : State) : Out :=
  .next (alu2 s sz tb ta b a d fun n x y => rotR n x y)

/-- `alu.clz`: leading zeros of A (R195). -/
def execAluClz (sz _tb ta : Bool) (a d : Reg) (s : State) : Out :=
  .next (alu1 s sz ta a d fun n x => clzN n x)

/-- `alu.ctz`: trailing zeros of A (R195). -/
def execAluCtz (sz _tb ta : Bool) (a d : Reg) (s : State) : Out :=
  .next (alu1 s sz ta a d fun n x => ctzN n x)

/-- `alu.popc`: set bits of A (R195). -/
def execAluPopc (sz _tb ta : Bool) (a d : Reg) (s : State) : Out :=
  .next (alu1 s sz ta a d fun n x => popN n x)

/-- `alu.eq`: 1 when it holds, else 0 (R195). -/
def execAluEq (sz tb ta : Bool) (b a d : Reg) (s : State) : Out :=
  .next (alu2 s sz tb ta b a d fun _ x y => if x = y then 1 else 0)

/-- `alu.ne`: 1 when it holds, else 0 (R195). -/
def execAluNe (sz tb ta : Bool) (b a d : Reg) (s : State) : Out :=
  .next (alu2 s sz tb ta b a d fun _ x y => if x ≠ y then 1 else 0)

/-- `alu.lt`: 1 when it holds, else 0 (R195). -/
def execAluLt (sz tb ta : Bool) (b a d : Reg) (s : State) : Out :=
  .next (alu2 s sz tb ta b a d fun n x y => if sInt n x < sInt n y then 1 else 0)

/-- `alu.ltu`: 1 when it holds, else 0 (R195). -/
def execAluLtu (sz tb ta : Bool) (b a d : Reg) (s : State) : Out :=
  .next (alu2 s sz tb ta b a d fun _ x y => if x < y then 1 else 0)

/-- `alu.le`: 1 when it holds, else 0 (R195). -/
def execAluLe (sz tb ta : Bool) (b a d : Reg) (s : State) : Out :=
  .next (alu2 s sz tb ta b a d fun n x y => if sInt n x ≤ sInt n y then 1 else 0)

/-- `alu.leu`: 1 when it holds, else 0 (R195). -/
def execAluLeu (sz tb ta : Bool) (b a d : Reg) (s : State) : Out :=
  .next (alu2 s sz tb ta b a d fun _ x y => if x ≤ y then 1 else 0)

/-- `alu.sel`: A when D is not 0 in 64 bits, else B; D is read under TA (R195). -/
def execAluSel (sz tb ta : Bool) (b a d : Reg) (s : State) : Out :=
  let r := s.cur
  .next (gate s r 0 [srcX d ta, srcX a ta, srcX b tb]
    (retX s r d (szRes sz (szOp sz (if getX s r d ≠ 0 then getX s r a else getX s r b))) 4))

/-- `alu.ext`: the field of A that B describes (R196). -/
def execAluExt (sz tb ta : Bool) (b a d : Reg) (s : State) : Out :=
  let r := s.cur
  .next (gate s r 0 [srcX a ta, srcX b tb]
    (retX s r d (szRes sz (extField (szOp sz (getX s r a)) (getX s r b).toNat)) 4))

/-! ## Immediates and constants (R198-R202) -/

/-- `alui` (R198). -/
def execAlui (imm : BitVec 15) (ta : Bool) (a d : Reg) (s : State) : Out :=
  .next (aluImm s ta a d fun x => x + signExt 15 imm.toNat)

/-- `andi` (R198). -/
def execAndi (imm : BitVec 15) (ta : Bool) (a d : Reg) (s : State) : Out :=
  .next (aluImm s ta a d fun x => x &&& signExt 15 imm.toNat)

/-- `ori` (R198). -/
def execOri (imm : BitVec 15) (ta : Bool) (a d : Reg) (s : State) : Out :=
  .next (aluImm s ta a d fun x => x ||| signExt 15 imm.toNat)

/-- `xori` (R198). -/
def execXori (imm : BitVec 15) (ta : Bool) (a d : Reg) (s : State) : Out :=
  .next (aluImm s ta a d fun x => x ^^^ signExt 15 imm.toNat)

/-- `shi.shl` (R199). -/
def execShiShl (sz : Bool) (amt : BitVec 6) (ta : Bool) (a d : Reg) (s : State) : Out :=
  .next (alu1 s sz ta a d fun n x => shlN n x amt.toNat)

/-- `shi.shr` (R199). -/
def execShiShr (sz : Bool) (amt : BitVec 6) (ta : Bool) (a d : Reg) (s : State) : Out :=
  .next (alu1 s sz ta a d fun n x => shrN n x amt.toNat)

/-- `shi.sra` (R199). -/
def execShiSra (sz : Bool) (amt : BitVec 6) (ta : Bool) (a d : Reg) (s : State) : Out :=
  .next (alu1 s sz ta a d fun n x => sraN n x amt.toNat)

/-- `shi.rot` (R199). -/
def execShiRot (sz : Bool) (amt : BitVec 6) (ta : Bool) (a d : Reg) (s : State) : Out :=
  .next (alu1 s sz ta a d fun n x => rotR n x amt.toNat)

/-- A comparison of X[a] with a 12-bit immediate (R200). -/
def cmpImm (s : State) (imm : BitVec 12) (ta : Bool) (a d : Reg) (f : Word → Word → Bool) : State :=
  aluImm s ta a d fun x => wNat (f x (signExt 12 imm.toNat)).toNat

/-- `cmpi.eq` (R200). -/
def execCmpiEq (imm : BitVec 12) (ta : Bool) (a d : Reg) (s : State) : Out :=
  .next (cmpImm s imm ta a d fun x y => x == y)

/-- `cmpi.ne` (R200). -/
def execCmpiNe (imm : BitVec 12) (ta : Bool) (a d : Reg) (s : State) : Out :=
  .next (cmpImm s imm ta a d fun x y => x != y)

/-- `cmpi.lt` (R200). -/
def execCmpiLt (imm : BitVec 12) (ta : Bool) (a d : Reg) (s : State) : Out :=
  .next (cmpImm s imm ta a d fun x y => BitVec.slt x y)

/-- `cmpi.ltu` (R200). -/
def execCmpiLtu (imm : BitVec 12) (ta : Bool) (a d : Reg) (s : State) : Out :=
  .next (cmpImm s imm ta a d fun x y => BitVec.ult x y)

/-- `cmpi.le` (R200). -/
def execCmpiLe (imm : BitVec 12) (ta : Bool) (a d : Reg) (s : State) : Out :=
  .next (cmpImm s imm ta a d fun x y => BitVec.sle x y)

/-- `cmpi.leu` (R200). -/
def execCmpiLeu (imm : BitVec 12) (ta : Bool) (a d : Reg) (s : State) : Out :=
  .next (cmpImm s imm ta a d fun x y => BitVec.ule x y)

/-- `cmpi.gt` (R200). -/
def execCmpiGt (imm : BitVec 12) (ta : Bool) (a d : Reg) (s : State) : Out :=
  .next (cmpImm s imm ta a d fun x y => BitVec.slt y x)

/-- `cmpi.gtu` (R200). -/
def execCmpiGtu (imm : BitVec 12) (ta : Bool) (a d : Reg) (s : State) : Out :=
  .next (cmpImm s imm ta a d fun x y => BitVec.ult y x)

/-- `ldi` (R201). -/
def execLdi (imm : BitVec 21) (d : Reg) (s : State) : Out := .next (retX s s.cur d (signExt 21 imm.toNat) 4)

/-- The value `ldx` writes: bits [20:0] kept (R201). -/
def ldxValue (v : Word) (imm : BitVec 21) : Word := (signExt 21 imm.toNat <<< 21) ||| (v &&& 0x1FFFFF#64)

/-- `ldx` (R201). -/
def execLdx (imm : BitVec 21) (d : Reg) (s : State) : Out :=
  let r := s.cur
  .next (gate s r 0 [srcX d false] (retX s r d (ldxValue (getX s r d) imm) 4))

/-- The value of E after chunk `k` is written; chunk 2 also sets bit 63 (R156, R202). -/
def extChunk (v : Word) (k : Nat) (imm : BitVec 21) : Word :=
  let lo := v.toNat % 2 ^ (21 * k)
  let hi := v.toNat / 2 ^ (21 * k + 21)
  if k = 2 then wNat (lo + imm.toNat * 2 ^ 42 + (imm.getLsbD 20).toNat * 2 ^ 63)
  else wNat (lo + imm.toNat * 2 ^ (21 * k) + hi * 2 ^ (21 * k + 21))

/-- Write a chunk of E and retire (R202). -/
def extWrite (s : State) (k : Nat) (imm : BitVec 21) (e : BitVec 3) : State :=
  let r := s.cur
  retire (setE s r e.toNat (extChunk (getE s r e.toNat) k imm)) r 4

/-- `ext.c0` (R202). -/
def execExtC0 (imm : BitVec 21) (e : BitVec 3) (s : State) : Out := .next (extWrite s 0 imm e)

/-- `ext.c1` (R202). -/
def execExtC1 (imm : BitVec 21) (e : BitVec 3) (s : State) : Out := .next (extWrite s 1 imm e)

/-- `ext.c2` (R202). -/
def execExtC2 (imm : BitVec 21) (e : BitVec 3) (s : State) : Out := .next (extWrite s 2 imm e)

/-- `ext.x`: E := X (R202). -/
def execExtX (x : Reg) (e : BitVec 3) (s : State) : Out :=
  let r := s.cur
  .next (gate s r 0 [srcX x false] (retire (setE s r e.toNat (getX s r x)) r 4))

/-! ## Branches (R203, R204) -/

/-- PC of the row. -/
def pcOf (s : State) : Word := (getRow s s.cur).pc

/-- `br`: D := next; PC moves by halfwords (R203). -/
def execBr (imm : BitVec 21) (d : Reg) (s : State) : Out :=
  let r := s.cur
  .next (retireTo (setX s r d (pcOf s + 4#64)) r (pcOf s + signExt 21 imm.toNat * 2#64))

/-- A conditional branch (R203). -/
def branch (s : State) (imm : BitVec 12) (ta : Bool) (b a : Reg) (f : Word → Word → Bool) : State :=
  let r := s.cur
  gate s r 0 [srcX a ta, srcX b ta]
    (if f (getX s r a) (getX s r b) then retireTo s r (pcOf s + signExt 12 imm.toNat * 2#64) else retire s r 4)

/-- `bc.eq` (R203). -/
def execBcEq (imm : BitVec 12) (ta : Bool) (b a : Reg) (s : State) : Out :=
  .next (branch s imm ta b a fun x y => x == y)

/-- `bc.ne` (R203). -/
def execBcNe (imm : BitVec 12) (ta : Bool) (b a : Reg) (s : State) : Out :=
  .next (branch s imm ta b a fun x y => x != y)

/-- `bc.lt` (R203). -/
def execBcLt (imm : BitVec 12) (ta : Bool) (b a : Reg) (s : State) : Out :=
  .next (branch s imm ta b a fun x y => BitVec.slt x y)

/-- `bc.ltu` (R203). -/
def execBcLtu (imm : BitVec 12) (ta : Bool) (b a : Reg) (s : State) : Out :=
  .next (branch s imm ta b a fun x y => BitVec.ult x y)

/-- `bc.ge` (R203). -/
def execBcGe (imm : BitVec 12) (ta : Bool) (b a : Reg) (s : State) : Out :=
  .next (branch s imm ta b a fun x y => BitVec.sle y x)

/-- `bc.geu` (R203). -/
def execBcGeu (imm : BitVec 12) (ta : Bool) (b a : Reg) (s : State) : Out :=
  .next (branch s imm ta b a fun x y => BitVec.ule y x)

/-- A jump: A is read before D is written; bit 0 of the target is ignored (R203). The 14 bits are I15[14:1]. -/
def jump (s : State) (imm : BitVec 14) (ta : Bool) (a d : Reg) : State :=
  let r := s.cur
  gate s r 0 [srcX a ta]
    (retireTo (setX s r d (pcOf s + 4#64)) r (getX s r a + signExt 14 imm.toNat * 2#64))

/-- `jmp` (R203). -/
def execJmp (imm : BitVec 14) (ta : Bool) (a d : Reg) (s : State) : Out := .next (jump s imm ta a d)

/-- `jmp.ret` (R203). -/
def execJmpRet (imm : BitVec 14) (ta : Bool) (a d : Reg) (s : State) : Out := .next (jump s imm ta a d)

/-! ## Scalar floating point (R205-R208) -/

/-- An operand of an FPU format. -/
def fpuOp (f : Bool) (v : Word) : Nat := v.toNat % 2 ^ (fpuFmt f).w

/-- A two-source FPU instruction with a float result; `md` says that it rounds in mode() (R205, R206). -/
def fpu2 (s : State) (md fmt tb ta : Bool) (b a d : Reg) (f : Fmt → RMode → Nat → Nat → FRes) : State :=
  let r := s.cur
  let (v, fl) := f (fpuFmt fmt) (rmOf s r) (fpuOp fmt (getX s r a)) (fpuOp fmt (getX s r b))
  gate s r 0 ([srcX a ta, srcX b tb] ++ srcRm md) (retXF s r d (wNat v) fl 4)

/-- A one-source FPU instruction with a float or integer result. -/
def fpu1 (s : State) (md fmt ta : Bool) (a d : Reg) (f : Fmt → RMode → Nat → FRes) : State :=
  let r := s.cur
  let (v, fl) := f (fpuFmt fmt) (rmOf s r) (fpuOp fmt (getX s r a))
  gate s r 0 ([srcX a ta] ++ srcRm md) (retXF s r d (wNat v) fl 4)

/-- A float comparison (R208). -/
def fpuCmp (s : State) (fmt tb ta : Bool) (b a d : Reg) (c : FCond) : State :=
  let r := s.cur
  let (v, fl) := fcmp (fpuFmt fmt) c (fpuOp fmt (getX s r a)) (fpuOp fmt (getX s r b))
  gate s r 0 [srcX a ta, srcX b tb] (retXF s r d (wNat v.toNat) fl 4)

/-- A with another sign bit (R206). -/
def withSign (f : Fmt) (x : Nat) (sg : Bool) : Nat := fmag f x + signBit f sg

/-- `fpu.add` (R206). -/
def execFpuAdd (fmt tb ta : Bool) (b a d : Reg) (s : State) : Out := .next (fpu2 s true fmt tb ta b a d fadd)

/-- `fpu.sub` (R206). -/
def execFpuSub (fmt tb ta : Bool) (b a d : Reg) (s : State) : Out := .next (fpu2 s true fmt tb ta b a d fsub)

/-- `fpu.mul` (R206). -/
def execFpuMul (fmt tb ta : Bool) (b a d : Reg) (s : State) : Out := .next (fpu2 s true fmt tb ta b a d fmul)

/-- `fpu.div` (R206). -/
def execFpuDiv (fmt tb ta : Bool) (b a d : Reg) (s : State) : Out := .next (fpu2 s true fmt tb ta b a d fdiv)

/-- `fpu.sqrt` (R206). -/
def execFpuSqrt (fmt _tb ta : Bool) (a d : Reg) (s : State) : Out := .next (fpu1 s true fmt ta a d fsqrt)

/-- `fpu.min` (R208). -/
def execFpuMin (fmt tb ta : Bool) (b a d : Reg) (s : State) : Out :=
  .next (fpu2 s false fmt tb ta b a d fun f _ x y => fminmax f false x y)

/-- `fpu.max` (R208). -/
def execFpuMax (fmt tb ta : Bool) (b a d : Reg) (s : State) : Out :=
  .next (fpu2 s false fmt tb ta b a d fun f _ x y => fminmax f true x y)

/-- `fpu.fma`: A x B + D with one rounding; D is read under TA (R206). -/
def execFpuFma (fmt tb ta : Bool) (b a d : Reg) (s : State) : Out :=
  let r := s.cur
  let (v, fl) := ffma (fpuFmt fmt) (rmOf s r) false false (fpuOp fmt (getX s r a)) (fpuOp fmt (getX s r b))
    (fpuOp fmt (getX s r d))
  .next (gate s r 0 [srcX d ta, srcX a ta, srcX b tb, srcF] (retXF s r d (wNat v) fl 4))

/-- `fpu.rnd` (R206). -/
def execFpuRnd (fmt _tb ta : Bool) (a d : Reg) (s : State) : Out := .next (fpu1 s true fmt ta a d frnd)

/-- `fpu.eq` (R208). -/
def execFpuEq (fmt tb ta : Bool) (b a d : Reg) (s : State) : Out := .next (fpuCmp s fmt tb ta b a d .eq)

/-- `fpu.lt` (R208). -/
def execFpuLt (fmt tb ta : Bool) (b a d : Reg) (s : State) : Out := .next (fpuCmp s fmt tb ta b a d .lt)

/-- `fpu.le` (R208). -/
def execFpuLe (fmt tb ta : Bool) (b a d : Reg) (s : State) : Out := .next (fpuCmp s fmt tb ta b a d .le)

/-- `fpu.cls` (R208). -/
def execFpuCls (fmt _tb ta : Bool) (a d : Reg) (s : State) : Out :=
  .next (fpu1 s false fmt ta a d fun f _ x => fcls f x)

/-- `fpu.sgnj`: A with the sign bit of B (R206). -/
def execFpuSgnj (fmt tb ta : Bool) (b a d : Reg) (s : State) : Out :=
  .next (fpu2 s false fmt tb ta b a d fun f _ x y => (withSign f x (fsign f y), 0))

/-- `fpu.abs` (R206). -/
def execFpuAbs (fmt _tb ta : Bool) (a d : Reg) (s : State) : Out :=
  .next (fpu1 s false fmt ta a d fun f _ x => (withSign f x false, 0))

/-- The result of `fpu.cvt` with conversion code `c` (R207). -/
def fpuConv (c : Nat) (fmt : Bool) (md : RMode) (x : Word) : Word × FFlags :=
  let f := fpuFmt fmt
  match c with
  | 0 => let (v, fl) := fcvt f (fpuFmt !fmt) md (fpuOp (!fmt) x); (wNat v, fl)
  | 1 => let (v, fl) := toInt f md (-(2 ^ 63)) (2 ^ 63 - 1) (fpuOp fmt x); (wInt v, fl)
  | 2 => let (v, fl) := toInt f md 0 (2 ^ 64 - 1) (fpuOp fmt x); (wInt v, fl)
  | 3 => let (v, fl) := fromInt f md x.toInt; (wNat v, fl)
  | _ => let (v, fl) := fromInt f md (Int.ofNat x.toNat); (wNat v, fl)

/-- `fpu.cvt` (R207). The widening conversion does not round. -/
def execFpuCvt (conv : BitVec 3) (fmt _tb ta : Bool) (a d : Reg) (s : State) : Out :=
  let r := s.cur
  let (v, fl) := fpuConv conv.toNat fmt (rmOf s r) (getX s r a)
  .next (gate s r 0 ([srcX a ta] ++ srcRm (conv != 0 || !fmt)) (retXF s r d v fl 4))

end Sys2Proof.Machine
end

