-- ==== Sys2Proof/Machine/Vector.lean ====
section
/-!
DEFINITION. The vector majors VALU, VFP, VFMA, MASK and VXF (R216-R228). Lanes, masks and the destination follow R216.
-/

namespace Sys2Proof.Machine

/-! ## VALU (R218, R219) -/

/-- A two-source integer vector instruction: `f` takes the lane width in bits and the lanes of A and B (R218). -/
def valu2 (s : State) (ty : BitVec 3) (t : Bool) (mk : BitVec 3) (b a d : Reg) (f : (n x y : Nat) → Nat) : State :=
  let r := s.cur
  let w := laneBytes ty.toNat
  let va := getV s r a.toNat
  let vb := getV s r b.toNat
  gate s r 0 (vecSrcs d.toNat mk.toNat t [srcV a.toNat t, srcV b.toNat t])
    (retV s r ty.toNat mk.toNat d.toNat (fun j => pureLane (f (8 * w) (laneGet w va j) (laneGet w vb j))) 4)

/-- `valu.add` (R218). -/
def execValuAdd (ty : BitVec 3) (t : Bool) (mk : BitVec 3) (b a d : Reg) (s : State) : Out :=
  .next (valu2 s ty t mk b a d fun n x y => (x + y) % 2 ^ n)

/-- `valu.sub` (R218). -/
def execValuSub (ty : BitVec 3) (t : Bool) (mk : BitVec 3) (b a d : Reg) (s : State) : Out :=
  .next (valu2 s ty t mk b a d fun n x y => (x + 2 ^ n - y) % 2 ^ n)

/-- `valu.mul` (R218). -/
def execValuMul (ty : BitVec 3) (t : Bool) (mk : BitVec 3) (b a d : Reg) (s : State) : Out :=
  .next (valu2 s ty t mk b a d fun n x y => x * y % 2 ^ n)

/-- `valu.mulh` (R218). -/
def execValuMulh (ty : BitVec 3) (t : Bool) (mk : BitVec 3) (b a d : Reg) (s : State) : Out :=
  .next (valu2 s ty t mk b a d fun n x y => uNat n (sInt n x * sInt n y / 2 ^ n))

/-- `valu.and` (R218). -/
def execValuAnd (ty : BitVec 3) (t : Bool) (mk : BitVec 3) (b a d : Reg) (s : State) : Out :=
  .next (valu2 s ty t mk b a d fun _ x y => Nat.land x y)

/-- `valu.or` (R218). -/
def execValuOr (ty : BitVec 3) (t : Bool) (mk : BitVec 3) (b a d : Reg) (s : State) : Out :=
  .next (valu2 s ty t mk b a d fun _ x y => Nat.lor x y)

/-- `valu.xor` (R218). -/
def execValuXor (ty : BitVec 3) (t : Bool) (mk : BitVec 3) (b a d : Reg) (s : State) : Out :=
  .next (valu2 s ty t mk b a d fun _ x y => Nat.xor x y)

/-- `valu.shl` (R218). -/
def execValuShl (ty : BitVec 3) (t : Bool) (mk : BitVec 3) (b a d : Reg) (s : State) : Out :=
  .next (valu2 s ty t mk b a d fun n x y => shlN n x y)

/-- `valu.shr` (R218). -/
def execValuShr (ty : BitVec 3) (t : Bool) (mk : BitVec 3) (b a d : Reg) (s : State) : Out :=
  .next (valu2 s ty t mk b a d fun n x y => shrN n x y)

/-- `valu.sra` (R218). -/
def execValuSra (ty : BitVec 3) (t : Bool) (mk : BitVec 3) (b a d : Reg) (s : State) : Out :=
  .next (valu2 s ty t mk b a d fun n x y => sraN n x y)

/-- `valu.min` (R218). -/
def execValuMin (ty : BitVec 3) (t : Bool) (mk : BitVec 3) (b a d : Reg) (s : State) : Out :=
  .next (valu2 s ty t mk b a d fun n x y => if sInt n x ≤ sInt n y then x else y)

/-- `valu.max` (R218). -/
def execValuMax (ty : BitVec 3) (t : Bool) (mk : BitVec 3) (b a d : Reg) (s : State) : Out :=
  .next (valu2 s ty t mk b a d fun n x y => if sInt n y ≤ sInt n x then x else y)

/-- `valu.minu` (R218). -/
def execValuMinu (ty : BitVec 3) (t : Bool) (mk : BitVec 3) (b a d : Reg) (s : State) : Out :=
  .next (valu2 s ty t mk b a d fun _ x y => min x y)

/-- `valu.maxu` (R218). -/
def execValuMaxu (ty : BitVec 3) (t : Bool) (mk : BitVec 3) (b a d : Reg) (s : State) : Out :=
  .next (valu2 s ty t mk b a d fun _ x y => max x y)

/-- An integer lane condition: 0 eq, 1 ne, 2 lt, 3 ltu (R219). -/
def valuCond (c n x y : Nat) : Bool :=
  match c with
  | 0 => x == y
  | 1 => x != y
  | 2 => decide (sInt n x < sInt n y)
  | _ => decide (x < y)

/-- A comparison into mask `m`: inactive lanes and bits beyond the lanes are 0 (R219). -/
def vecCmp (s : State) (ty : BitVec 3) (t : Bool) (mk : BitVec 3) (b a : Reg) (m : BitVec 3)
    (f : Nat → Nat → Bool × FFlags) : State :=
  let r := s.cur
  let w := laneBytes ty.toNat
  let va := getV s r a.toNat
  let vb := getV s r b.toNat
  let act := maskOf s r mk.toNat
  let (v, fl) := condMask (fun j => act.testBit j) (fun j => f (laneGet w va j) (laneGet w vb j)) (laneCount ty.toNat) 0
  gate s r 0 ([srcV a.toNat t, srcV b.toNat t] ++ srcMk mk.toNat t)
    (retire (orFlags (setM s r m.toNat (wNat v)) r fl) r 4)

/-- `valu.cmp` (R219). -/
def execValuCmp (ty : BitVec 3) (t : Bool) (mk : BitVec 3) (b a : Reg) (cond : BitVec 2) (m : BitVec 3) (s : State) : Out :=
  .next (vecCmp s ty t mk b a m fun x y => (valuCond cond.toNat (8 * laneBytes ty.toNat) x y, 0))

/-- `valu.sel`: lane of A where the mask is 1, else of B; D is not read (R218). -/
def execValuSel (ty : BitVec 3) (t : Bool) (mk : BitVec 3) (b a d : Reg) (s : State) : Out :=
  let r := s.cur
  let w := laneBytes ty.toNat
  let va := getV s r a.toNat
  let vb := getV s r b.toNat
  let m := maskOf s r mk.toNat
  .next (gate s r 0 ([srcV a.toNat t, srcV b.toNat t] ++ srcMk mk.toNat t)
    (retV s r ty.toNat 0 d.toNat (fun j => pureLane (laneGet w (if m.testBit j then va else vb) j)) 4))

/-! ## VFP (R220-R223) -/

/-- A two-source float vector instruction; `md` says that it rounds in mode() (R220). -/
def vfp2 (s : State) (md : Bool) (ty : BitVec 3) (t : Bool) (mk : BitVec 3) (b a d : Reg) (f : Fmt → RMode → Nat → Nat → FRes) : State :=
  let r := s.cur
  let w := laneBytes ty.toNat
  let va := getV s r a.toNat
  let vb := getV s r b.toNat
  gate s r 0 (vecSrcs d.toNat mk.toNat t [srcV a.toNat t, srcV b.toNat t] ++ srcRm md)
    (retV s r ty.toNat mk.toNat d.toNat
      (fun j => f (fmtOf ty.toNat) (rmOf s r) (laneGet w va j) (laneGet w vb j)) 4)

/-- A one-source float vector instruction (R220). -/
def vfp1 (s : State) (md : Bool) (ty : BitVec 3) (t : Bool) (mk : BitVec 3) (a d : Reg) (f : Fmt → RMode → Nat → FRes) : State :=
  let r := s.cur
  let w := laneBytes ty.toNat
  let va := getV s r a.toNat
  gate s r 0 (vecSrcs d.toNat mk.toNat t [srcV a.toNat t] ++ srcRm md)
    (retV s r ty.toNat mk.toNat d.toNat (fun j => f (fmtOf ty.toNat) (rmOf s r) (laneGet w va j)) 4)

/-- `vfp.add` (R220). -/
def execVfpAdd (ty : BitVec 3) (t : Bool) (mk : BitVec 3) (b a d : Reg) (s : State) : Out :=
  .next (vfp2 s true ty t mk b a d fadd)

/-- `vfp.sub` (R220). -/
def execVfpSub (ty : BitVec 3) (t : Bool) (mk : BitVec 3) (b a d : Reg) (s : State) : Out :=
  .next (vfp2 s true ty t mk b a d fsub)

/-- `vfp.mul` (R220). -/
def execVfpMul (ty : BitVec 3) (t : Bool) (mk : BitVec 3) (b a d : Reg) (s : State) : Out :=
  .next (vfp2 s true ty t mk b a d fmul)

/-- `vfp.div` (R220). -/
def execVfpDiv (ty : BitVec 3) (t : Bool) (mk : BitVec 3) (b a d : Reg) (s : State) : Out :=
  .next (vfp2 s true ty t mk b a d fdiv)

/-- `vfp.min` (R220). -/
def execVfpMin (ty : BitVec 3) (t : Bool) (mk : BitVec 3) (b a d : Reg) (s : State) : Out :=
  .next (vfp2 s false ty t mk b a d (fun f _ x y => fminmax f false x y))

/-- `vfp.max` (R220). -/
def execVfpMax (ty : BitVec 3) (t : Bool) (mk : BitVec 3) (b a d : Reg) (s : State) : Out :=
  .next (vfp2 s false ty t mk b a d (fun f _ x y => fminmax f true x y))

/-- `vfp.scale` (R220). -/
def execVfpScale (ty : BitVec 3) (t : Bool) (mk : BitVec 3) (b a d : Reg) (s : State) : Out :=
  .next (vfp2 s true ty t mk b a d fscale)

/-- `vfp.rnd` (R220, R222, R223). -/
def execVfpRnd (ty : BitVec 3) (t : Bool) (mk : BitVec 3) (a d : Reg) (s : State) : Out :=
  .next (vfp1 s true ty t mk a d frnd)

/-- `vfp.exp2f` (R220, R222, R223). -/
def execVfpExp2f (ty : BitVec 3) (t : Bool) (mk : BitVec 3) (a d : Reg) (s : State) : Out :=
  .next (vfp1 s false ty t mk a d (fun f _ x => fexp2f ty.toNat f x))

/-- `vfp.getexp` (R220, R222, R223). -/
def execVfpGetexp (ty : BitVec 3) (t : Bool) (mk : BitVec 3) (a d : Reg) (s : State) : Out :=
  .next (vfp1 s false ty t mk a d (fun f _ x => fgetexp f x))

/-- `vfp.rcp` (R220, R222, R223). -/
def execVfpRcp (ty : BitVec 3) (t : Bool) (mk : BitVec 3) (a d : Reg) (s : State) : Out :=
  .next (vfp1 s true ty t mk a d frcp)

/-- `vfp.rsq` (R220, R222, R223). -/
def execVfpRsq (ty : BitVec 3) (t : Bool) (mk : BitVec 3) (a d : Reg) (s : State) : Out :=
  .next (vfp1 s true ty t mk a d frsq)

/-- `vfp.sqrt` (R220, R222, R223). -/
def execVfpSqrt (ty : BitVec 3) (t : Bool) (mk : BitVec 3) (a d : Reg) (s : State) : Out :=
  .next (vfp1 s true ty t mk a d fsqrt)

/-- `vfp.cls` (R208, R220). -/
def execVfpCls (ty : BitVec 3) (t : Bool) (mk : BitVec 3) (a d : Reg) (s : State) : Out :=
  .next (vfp1 s false ty t mk a d (fun f _ x => fcls f x))

/-- Convert one element from type `st` to type `dt`, at least one of them floating (R221). -/
def cvtLane (dt st : Nat) (md : RMode) (x : Nat) : FRes :=
  let n := 8 * laneBytes dt
  if st < 3 then fromInt (fmtOf dt) md (sInt (8 * laneBytes st) x)
  else if dt < 3 then
    let (v, fl) := toInt (fmtOf st) md (-(2 ^ (n - 1))) (2 ^ (n - 1) - 1) x
    (uNat n v, fl)
  else fcvt (fmtOf dt) (fmtOf st) md x

/-- Does a conversion round in mode(): is it neither to a wider float nor to the same one (R221)? -/
def cvtRounds (dt st : Nat) : Bool := decide (dt < 3) || decide (st < 3) || (dt != st && decide (laneBytes dt ≤ laneBytes st))

/-- `vfp.cvt`: lanes beyond the conversion are zero, whatever the mask (R221). -/
def execVfpCvt (ty : BitVec 3) (t : Bool) (mk sty : BitVec 3) (a d : Reg) (s : State) : Out :=
  let r := s.cur
  let dt := ty.toNat
  let st := sty.toNat
  let va := getV s r a.toNat
  let n := min (laneCount dt) (laneCount st)
  let m := maskOf s r mk.toNat
  let (bs, fl) := lanesFrom (laneBytes dt) (getV s r d.toNat) (fun j => decide (n ≤ j) || m.testBit j)
    (fun j => if j < n then cvtLane dt st (rmOf s r) (laneGet (laneBytes st) va j) else pureLane 0) (laneCount dt) 0
  .next (gate s r 0 (vecSrcs d.toNat mk.toNat t [srcV a.toNat t] ++ srcRm (cvtRounds dt st))
    (retire (orFlags (setV s r d.toNat bs) r fl) r 4))

/-- A float condition code of R219. -/
def vfpCond : Nat → FCond
  | 0 => .eq
  | 1 => .lt
  | 2 => .le
  | _ => .un

/-- `vfp.cmp` (R219). -/
def execVfpCmp (ty : BitVec 3) (t : Bool) (mk : BitVec 3) (b a : Reg) (cond : BitVec 2) (m : BitVec 3) (s : State) : Out :=
  .next (vecCmp s ty t mk b a m fun x y => fcmp (fmtOf ty.toNat) (vfpCond cond.toNat) x y)

/-! ## VFMA (R224) -/

/-- A fused multiply-add over lanes; no source has a trap bit (R224). -/
def vfma (s : State) (ty mk : BitVec 2) (c b a d : Reg) (np nc : Bool) : State :=
  let r := s.cur
  let k := ty.toNat + 3
  let w := laneBytes k
  let va := getV s r a.toNat
  let vb := getV s r b.toNat
  let vc := getV s r c.toNat
  gate s r 0 (vecSrcs d.toNat mk.toNat false [srcV a.toNat false, srcV b.toNat false, srcV c.toNat false] ++ [srcF])
    (retV s r k mk.toNat d.toNat
      (fun j => ffma (fmtOf k) (rmOf s r) np nc (laneGet w va j) (laneGet w vb j) (laneGet w vc j)) 4)

/-- `vfma.fma` (R224). -/
def execVfmaFma (ty mk : BitVec 2) (c b a d : Reg) (s : State) : Out := .next (vfma s ty mk c b a d false false)

/-- `vfma.fms` (R224). -/
def execVfmaFms (ty mk : BitVec 2) (c b a d : Reg) (s : State) : Out := .next (vfma s ty mk c b a d false true)

/-- `vfma.fnma` (R224). -/
def execVfmaFnma (ty mk : BitVec 2) (c b a d : Reg) (s : State) : Out := .next (vfma s ty mk c b a d true false)

/-- `vfma.fnms` (R224). -/
def execVfmaFnms (ty mk : BitVec 2) (c b a d : Reg) (s : State) : Out := .next (vfma s ty mk c b a d true true)

/-! ## MASK (R225) -/

/-- A two-source mask instruction. -/
def mask2 (s : State) (tb ta : Bool) (b a d : Reg) (f : Word → Word → Word) : State :=
  let r := s.cur
  gate s r 0 [srcM a.toNat ta, srcM b.toNat tb]
    (retire (setM s r d.toNat (f (getM s r a.toNat) (getM s r b.toNat))) r 4)

/-- `mask.and` (R225). -/
def execMaskAnd (tb ta : Bool) (b a d : Reg) (s : State) : Out := .next (mask2 s tb ta b a d fun x y => x &&& y)

/-- `mask.or` (R225). -/
def execMaskOr (tb ta : Bool) (b a d : Reg) (s : State) : Out := .next (mask2 s tb ta b a d fun x y => x ||| y)

/-- `mask.xor` (R225). -/
def execMaskXor (tb ta : Bool) (b a d : Reg) (s : State) : Out := .next (mask2 s tb ta b a d fun x y => x ^^^ y)

/-- `mask.andn` (R225). -/
def execMaskAndn (tb ta : Bool) (b a d : Reg) (s : State) : Out := .next (mask2 s tb ta b a d fun x y => x &&& ~~~y)

/-- `mask.not` (R225). -/
def execMaskNot (_tb ta : Bool) (a d : Reg) (s : State) : Out :=
  let r := s.cur
  .next (gate s r 0 [srcM a.toNat ta] (retire (setM s r d.toNat (~~~(getM s r a.toNat))) r 4))

/-- `mask.pop` (R225). -/
def execMaskPop (_tb ta : Bool) (a d : Reg) (s : State) : Out :=
  let r := s.cur
  .next (gate s r 0 [srcM a.toNat ta] (retX s r d (wNat (popN 64 (getM s r a.toNat).toNat)) 4))

/-- `mask.first` (R225). -/
def execMaskFirst (_tb ta : Bool) (a d : Reg) (s : State) : Out :=
  let r := s.cur
  .next (gate s r 0 [srcM a.toNat ta] (retX s r d (wNat (ctzN 64 (getM s r a.toNat).toNat)) 4))

/-- `mask.fromx` (R225). -/
def execMaskFromx (_tb ta : Bool) (a d : Reg) (s : State) : Out :=
  let r := s.cur
  .next (gate s r 0 [srcX a ta] (retire (setM s r d.toNat (getX s r a)) r 4))

/-- `mask.tox` (R225). -/
def execMaskTox (_tb ta : Bool) (a d : Reg) (s : State) : Out :=
  let r := s.cur
  .next (gate s r 0 [srcM a.toNat ta] (retX s r d (getM s r a.toNat) 4))

/-- `mask.all` (R225). -/
def execMaskAll (_tb _ta : Bool) (d : Reg) (s : State) : Out :=
  .next (retire (setM s s.cur d.toNat (~~~0#64)) s.cur 4)

/-- `mask.lanes` (R225). -/
def execMaskLanes (_tb ta : Bool) (a d : Reg) (s : State) : Out :=
  let r := s.cur
  .next (gate s r 0 [srcX a ta] (retire (setM s r d.toNat (wNat (2 ^ min (getX s r a).toNat 64 - 1))) r 4))

/-! ## VXF (R226, R227) -/

/-- A one-source lane instruction of VXF: `f` takes the lane width in bits and the lane. -/
def vxf1 (s : State) (ty : BitVec 3) (t : Bool) (mk : BitVec 3) (a d : Reg) (f : (n x : Nat) → Nat) : State :=
  let r := s.cur
  let w := laneBytes ty.toNat
  let va := getV s r a.toNat
  gate s r 0 (vecSrcs d.toNat mk.toNat t [srcV a.toNat t])
    (retV s r ty.toNat mk.toNat d.toNat (fun j => pureLane (f (8 * w) (laneGet w va j))) 4)

/-- `vxf.bcast` (R226). -/
def execVxfBcast (ty : BitVec 3) (t : Bool) (mk : BitVec 3) (a d : Reg) (s : State) : Out :=
  let r := s.cur
  let v := (getX s r a).toNat % 2 ^ (8 * laneBytes ty.toNat)
  .next (gate s r 0 (vecSrcs d.toNat mk.toNat t [srcX a t]) (retV s r ty.toNat mk.toNat d.toNat (fun _ => pureLane v) 4))

/-- A lane as `vxf.ext` returns it: integers sign-extended, floats zero-extended (R226). -/
def laneWord (ty : BitVec 3) (v : Nat) : Word := if isFloat ty then wNat v else signExt (8 * laneBytes ty.toNat) v

/-- `vxf.ext` (R226). -/
def execVxfExt (ty : BitVec 3) (t : Bool) (b a d : Reg) (s : State) : Out :=
  let r := s.cur
  let j := (getX s r b).toNat % laneCount ty.toNat
  .next (gate s r 0 [srcV a.toNat t, srcX b t]
    (retX s r d (laneWord ty (laneGet (laneBytes ty.toNat) (getV s r a.toNat) j)) 4))

/-- `vxf.ins`: D is read and its other lanes are kept (R226). -/
def execVxfIns (ty : BitVec 3) (t : Bool) (b a d : Reg) (s : State) : Out :=
  let r := s.cur
  let w := laneBytes ty.toNat
  let j := (getX s r b).toNat % laneCount ty.toNat
  let bs := patch (getV s r d.toNat) (w * j) (leBytes w ((getX s r a).toNat % 2 ^ (8 * w)))
  .next (gate s r 0 [srcV d.toNat t, srcX a t, srcX b t] (retire (setV s r d.toNat bs) r 4))

/-- `vxf.perm` (R226). -/
def execVxfPerm (ty : BitVec 3) (t : Bool) (mk : BitVec 3) (b a d : Reg) (s : State) : Out :=
  let r := s.cur
  let w := laneBytes ty.toNat
  let va := getV s r a.toNat
  let vb := getV s r b.toNat
  .next (gate s r 0 (vecSrcs d.toNat mk.toNat t [srcV a.toNat t, srcV b.toNat t])
    (retV s r ty.toNat mk.toNat d.toNat (fun j => pureLane (laneGet w va (laneGet w vb j % laneCount ty.toNat))) 4))

/-- Combine two tree nodes; an absent one gives the other, unrounded (R227). -/
def redComb (f : Nat → Nat → FRes) (x y : Option Nat × FFlags) : Option Nat × FFlags :=
  match x.1, y.1 with
  | some a, some b => let (v, fl) := f a b; (some v, x.2 ||| y.2 ||| fl)
  | some a, none => (some a, x.2 ||| y.2)
  | none, b => (b, x.2 ||| y.2)

/-- The tree of R227: node j combines with node j + h while h is halved. -/
def redTree (f : Nat → Nat → FRes) : (fuel : Nat) → List (Option Nat × FFlags) → Option Nat × FFlags
  | 0, ts => ts.headD (none, 0)
  | fuel + 1, ts =>
    let h := ts.length / 2
    if h = 0 then ts.headD (none, 0)
    else redTree f fuel (List.zipWith (redComb f) (ts.take h) (ts.drop h))

/-- Reduce the active lanes of A into X[d]; `ident` is the identity, `md` says that it rounds in mode() (R227). -/
def vxfRed (s : State) (md : Bool) (ty : BitVec 3) (t : Bool) (mk : BitVec 3) (a d : Reg) (ident : Nat) (f : Nat → Nat → FRes) : State :=
  let r := s.cur
  let va := getV s r a.toNat
  let m := maskOf s r mk.toNat
  let ts := (List.range (laneCount ty.toNat)).map fun j =>
    (if m.testBit j then some (laneGet (laneBytes ty.toNat) va j) else none, (0 : FFlags))
  let (v, fl) := redTree f 7 ts
  gate s r 0 ([srcV a.toNat t] ++ srcMk mk.toNat t ++ srcRm md) (retXF s r d (laneWord ty (v.getD ident)) fl 4)

/-- `vxf.red.add` (R227). -/
def execVxfRedAdd (ty : BitVec 3) (t : Bool) (mk : BitVec 3) (a d : Reg) (s : State) : Out :=
  .next (vxfRed s (isFloat ty) ty t mk a d 0 fun x y =>
    if isFloat ty then fadd (fmtOf ty.toNat) (rmOf s s.cur) x y
    else pureLane ((x + y) % 2 ^ (8 * laneBytes ty.toNat)))

/-- `vxf.red.min` (R227). -/
def execVxfRedMin (ty : BitVec 3) (t : Bool) (mk : BitVec 3) (a d : Reg) (s : State) : Out :=
  let n := 8 * laneBytes ty.toNat
  .next (vxfRed s false ty t mk a d (if isFloat ty then infBits (fmtOf ty.toNat) false else 2 ^ (n - 1) - 1) fun x y =>
    if isFloat ty then fminmax (fmtOf ty.toNat) false x y
    else pureLane (if sInt n x ≤ sInt n y then x else y))

/-- `vxf.red.max` (R227). -/
def execVxfRedMax (ty : BitVec 3) (t : Bool) (mk : BitVec 3) (a d : Reg) (s : State) : Out :=
  let n := 8 * laneBytes ty.toNat
  .next (vxfRed s false ty t mk a d (if isFloat ty then infBits (fmtOf ty.toNat) true else 2 ^ (n - 1)) fun x y =>
    if isFloat ty then fminmax (fmtOf ty.toNat) true x y
    else pureLane (if sInt n y ≤ sInt n x then x else y))

/-- `vxf.iota` (R226). -/
def execVxfIota (ty : BitVec 3) (t : Bool) (mk : BitVec 3) (d : Reg) (s : State) : Out :=
  let r := s.cur
  .next (gate s r 0 (vecSrcs d.toNat mk.toNat t [])
    (retV s r ty.toNat mk.toNat d.toNat
      (fun j => pureLane (if isFloat ty then (fromInt (fmtOf ty.toNat) .rne (Int.ofNat j)).1 else j)) 4))

/-- `vxf.abs` (R226). -/
def execVxfAbs (ty : BitVec 3) (t : Bool) (mk : BitVec 3) (a d : Reg) (s : State) : Out :=
  .next (vxf1 s ty t mk a d fun n x =>
    if isFloat ty then withSign (fmtOf ty.toNat) x false else uNat n (sInt n x).natAbs)

/-- `vxf.neg` (R226). -/
def execVxfNeg (ty : BitVec 3) (t : Bool) (mk : BitVec 3) (a d : Reg) (s : State) : Out :=
  .next (vxf1 s ty t mk a d fun n x =>
    if isFloat ty then withSign (fmtOf ty.toNat) x (!fsign (fmtOf ty.toNat) x) else (2 ^ n - x) % 2 ^ n)

/-- `vxf.sgnj` (R226). -/
def execVxfSgnj (ty : BitVec 3) (t : Bool) (mk : BitVec 3) (b a d : Reg) (s : State) : Out :=
  .next (valu2 s ty t mk b a d fun n x y =>
    if isFloat ty then withSign (fmtOf ty.toNat) x (fsign (fmtOf ty.toNat) y)
    else if 0 ≤ sInt n y then uNat n (sInt n x).natAbs else uNat n (-(Int.ofNat (sInt n x).natAbs)))

/-- `vxf.shfdn` (R226). -/
def execVxfShfdn (ty : BitVec 3) (t : Bool) (mk : BitVec 3) (b a d : Reg) (s : State) : Out :=
  let r := s.cur
  let va := getV s r a.toNat
  let k := (getX s r b).toNat
  .next (gate s r 0 (vecSrcs d.toNat mk.toNat t [srcV a.toNat t, srcX b t])
    (retV s r ty.toNat mk.toNat d.toNat
      (fun j => pureLane (if j + k < laneCount ty.toNat then laneGet (laneBytes ty.toNat) va (j + k) else 0)) 4))

end Sys2Proof.Machine
end

