-- ==== Sys2Proof/Machine/Memory.lean ====
section
/-!
DEFINITION. Loads, stores, gathers, scatters, reductions and atomics (R233-R246). Each first meets the hold of R234, then
its sources (R153), then the checks of the whole access (R38).
-/

namespace Sys2Proof.Machine

/-! ## Loads (R236, R239) -/

/-- Write a value that a load has read to its destination words, lowest first. -/
def putNow (s : State) (r : RowId) (put : Put) (buf : SMap Byte) : List Nat → State
  | [] => s
  | w :: ws => putNow (fillWord s r w (put.value w (getW s r w) buf)) r put buf ws

/-- Bytes by position. -/
def bufOf (bs : List Byte) : SMap Byte := bs.zipIdx.map fun (b, k) => (k, b)

/-- An own-row load, performed in program order and written at retirement; `fe` blocks on the lowest empty word that the
load touches (R233, R236). It waits for older remote loads of the row (R91), and, before it takes a word, for older accesses of the
row to its bytes that the FIFO holds no more (R87, R239). -/
def ownLoad (s : State) (r : RowId) (ps : List Part) (fe : Nat) (put : Put) (words : List Nat) (len : Nat) : State :=
  if remoteBefore s r || ps.any (ownBefore s r (partIx s r.core) s.nextId) then s
  else
    match (if fe = 0 then [] else emptyOf s r (ownWords s ps)) with
    | w :: _ => block s r w
    | [] =>
      match readParts s r (getRow s r).priv fe false ps with
      | (.ok bs, t) => retire (putNow t r put (bufOf bs) words) r len
      | (.wait, t) => t
      | (.memerr sub i, t) => raise t r (memErrTrap ((ps.head?.map (·.va)).getD 0) sub i 0) 0

/-- A load of `n` bytes at `p` with mode `mo` (R157, R236): own-row, or remote. `vec` marks a vector load. -/
def load (s : State) (r : RowId) (p : Word) (n mo : Nat) (vec : Bool) (put : Put) (words : List Nat) (len : Nat) : State :=
  let fe := if mo = 1 then 1 else if mo = 2 then 2 else 0
  let align := fe != 0 && p.toNat % (min n 16) != 0
  match check s (ctxOf s r) { accLoad with scalar := !vec } p n align with
  | .error t => raise s r t 0
  | .ok ps =>
    if ownRow s r ps then ownLoad s r ps fe put words len
    else retire (issueReq s r (getRow s r).priv (.load fe (mo == 3)) ps put words) r len

/-- `ld` (R235, R236). -/
def execLd (off : BitVec 10) (mo : BitVec 2) (sz : BitVec 3) (ta : Bool) (a d : Reg) (s : State) : Out :=
  let r := s.cur
  let (n, sg) := sizeOf sz.toNat
  let put := if n = 16 then Put.pair d.toNat else .x d.toNat n sg
  let words := if n = 16 then [xw d, xw d + 1] else [xw d]
  .next (holdGate s r (gate s r 0 [srcX a ta] (load s r (wmPtr s r a off n) n mo.toNat false put words 4)))

/-- Bytes of a vector access (R157). -/
def vecBytes (sz : Nat) : Nat := 128 / 2 ^ sz

/-- `vld`: the bytes of V[d] that are not loaded become zero and full at retirement (R239). -/
def execVld (off : BitVec 10) (mo : BitVec 2) (sz : BitVec 3) (ta : Bool) (a d : Reg) (s : State) : Out :=
  let r := s.cur
  let n := vecBytes sz.toNat
  let words := List.range' (vw d.toNat) (n / 8)
  let t := load s r (wmPtr s r a off n) n mo.toNat true (.v d.toNat) words 4
  let done := (getRow t r).pc != (getRow s r).pc
  .next (holdGate s r (gate s r 0 [srcX a ta]
    (if done then fillBytes t r (vw d.toNat + n / 8) (List.replicate (128 - n) 0) else t)))

/-! ## Stores (R238, R239) -/

/-- A row whose store finds the FIFO full stalls in its slot (R70). -/
def stall (s : State) (r : RowId) : State := modRow s r fun w => { w with stalled := true }

/-- A store of bytes at `p` with mode `mo`: it retires when its checks have passed and its parts are in the FIFO, which they enter
when there is room for all of them: DESIGN CHOICE, log entry 122. -/
def store (s : State) (r : RowId) (p : Word) (bs : List Byte) (mo : Nat) (vec : Bool) (len : Nat) : State :=
  let n := bs.length
  match check s (ctxOf s r) { accStore with scalar := !vec } p n (mo == 1 && p.toNat % (min n 16) != 0) with
  | .error t => raise s r t 0
  | .ok ps =>
    if fifoFree s r.core < ps.length then stall s r
    else
      let kind := if mo = 1 then StKind.feSet else .plain
      retire (sigParts (enterParts s r (getRow s r).priv kind (mo == 2) bs ps) r ps) r len

/-- `st`: D is read under TA, a pair in the q size (R238). -/
def execSt (off : BitVec 10) (mo : BitVec 2) (sz : BitVec 3) (ta : Bool) (a d : Reg) (s : State) : Out :=
  let r := s.cur
  let n := 2 ^ sz.toNat
  let x := (getX s r d).toNat + (if n = 16 then 2 ^ 64 * (getW s r (xw d + 1)).toNat else 0)
  .next (holdGate s r (gate s r 0 [if n = 16 then srcXX d ta else srcX d ta, srcX a ta]
    (store s r (wmPtr s r a off n) (leBytes n x) mo.toNat false 4)))

/-- `vst` (R239). -/
def execVst (off : BitVec 10) (mo : BitVec 2) (sz : BitVec 3) (ta : Bool) (a d : Reg) (s : State) : Out :=
  let r := s.cur
  let n := vecBytes sz.toNat
  .next (holdGate s r (gate s r 0 [srcV d.toNat ta, srcX a ta]
    (store s r (wmPtr s r a off n) ((getV s r d.toNat).take n) mo.toNat true 4)))

/-! ## Indexed and strided accesses (R240-R242) -/

/-- Address of lane `j`: base plus index times width, or plus j times the stride (R240). -/
def laneAddr (s : State) (r : RowId) (w : Nat) (strided : Bool) (a b : Reg) (j : Nat) : Word :=
  getX s r a + (if strided then wNat j * getX s r b else wInt (laneInt w (getV s r b.toNat) j * w))

/-- The active lanes of an instruction (R216). -/
def activeLanes (s : State) (r : RowId) (ty mk : Nat) : List Nat :=
  (List.range (laneCount ty)).filter fun j => (maskOf s r mk).testBit j

/-- Does the base, or the stride, break the alignment rule (R237)? DEDUCED, log entry 67. -/
def vmemAlign (s : State) (r : RowId) (w : Nat) (strided : Bool) (a b : Reg) : Bool :=
  (getX s r a).toNat % w != 0 || (strided && (getX s r b).toNat % w != 0)

/-- MTAG of the base pointer of a VMEM instruction (R42). -/
def baseTag (s : State) (r : RowId) (a : Reg) : Nat := Wbits (getX s r a) 59 56

/-- Check lanes one by one: the parts of all, or the faults in lane order (R240). -/
def laneChecks (s : State) (r : RowId) (acc : Acc) (w : Nat) (align : Bool) (addr : Nat → Word) :
    List Nat → List Trap × List Part
  | [] => ([], [])
  | j :: js =>
    let (ts, ps) := laneChecks s r acc w align addr js
    match check s (ctxOf s r) acc (addr j) w align with
    | .error t => (t :: ts, ps)
    | .ok xs => (ts, xs ++ ps)

/-- Number the parts of lanes by their place in the access. -/
def numberParts (w : Nat) (ps : List Part) : List Part := ps.zipIdx.map fun (p, i) => { p with pos := i * w }

/-- The sources of a VMEM instruction: D where it is read, A, B, the mask (R153, R240). -/
def vmemSrcs (strided rd : Bool) (t : Bool) (mk b a d : Nat) : List Src :=
  (if rd || mk != 0 then [srcV d t] else []) ++ [⟨[32 + a], t⟩, if strided then ⟨[32 + b], t⟩ else srcV b t] ++ srcMk mk t

/-- Gather and strided load: one step; every word of D with an active lane is marked empty (R241). -/
def gather (s : State) (strided : Bool) (ty t mk : Nat) (b a d : Reg) : State :=
  let r := s.cur
  let w := laneBytes ty
  let js := activeLanes s r ty mk
  let (ts, ps) := laneChecks s r { rd := true, mtag := some (baseTag s r a) } w (vmemAlign s r w strided a b) (laneAddr s r w strided a b) js
  let words := (js.map fun j => vw d.toNat + j * w / 8).foldl insSorted []
  let body := match laneFault ts with
    | some x => raise s r x 0
    | none =>
      if js.isEmpty then retire s r 4
      else retire (issueReq s r (getRow s r).priv (.load 0 false) (numberParts w ps) (.lanes d.toNat w js) words) r 4
  holdGate s r (gate s r 0 (vmemSrcs strided false (t == 1) mk b.toNat a.toNat d.toNat) body)

/-- Enter lanes into the FIFO, one entry each (R242). -/
def enterLanes (s : State) (r : RowId) (v : Nat → List Byte) : List (Nat × Part) → State
  | [] => s
  | (j, p) :: xs => enterLanes (enterFifo s r (getRow s r).priv .plain false p (v j)) r v xs

/-- Scatter and strided store: step k + 1 enters lanes 16k to 16k + 15 when the FIFO can take 16 entries (R242). DEDUCED, log entry 32. -/
def scatter (s : State) (strided : Bool) (ty t mk : Nat) (b a d : Reg) : State :=
  let r := s.cur
  let w := laneBytes ty
  let k := (getRow s r).rstep - 1
  let js := (activeLanes s r ty mk).filter fun j => decide (16 * k ≤ j)
  let addr := laneAddr s r w strided a b
  let acc : Acc := { wr := true, code := 1, mtag := some (baseTag s r a) }
  let (ts, _) := laneChecks s r acc w (vmemAlign s r w strided a b) addr js
  let group := js.filter fun j => decide (j < 16 * k + 16)
  let (_, ps) := laneChecks s r acc w false addr group
  let vd := getV s r d.toNat
  let body := match laneFault ts with
    | some x => raise s r x (getRow s r).rstep
    | none =>
      if fifoFree s r.core < 16 then toStep s r (k + 1)
      else
        let s1 := sigParts (enterLanes s r (fun j => leBytes w (laneGet w vd j)) (group.zip ps)) r ps
        if laneCount ty ≤ 16 * k + 16 then retire s1 r 4 else toStep s1 r (k + 2)
  holdGate s r (gate s r (getRow s r).rstep (vmemSrcs strided true (t == 1) mk b.toNat a.toNat d.toNat) body)

/-- `vmem.gather` (R241, R242). -/
def execVmemGather (ty : BitVec 3) (t : Bool) (mk : BitVec 3) (b a d : Reg) (s : State) : Out :=
  .next (gather s false ty.toNat t.toNat mk.toNat b a d)

/-- `vmem.lds` (R241, R242). -/
def execVmemLds (ty : BitVec 3) (t : Bool) (mk : BitVec 3) (b a d : Reg) (s : State) : Out :=
  .next (gather s true ty.toNat t.toNat mk.toNat b a d)

/-- `vmem.scatter` (R241, R242). -/
def execVmemScatter (ty : BitVec 3) (t : Bool) (mk : BitVec 3) (b a d : Reg) (s : State) : Out :=
  .next (scatter s false ty.toNat t.toNat mk.toNat b a d)

/-- `vmem.sts` (R241, R242). -/
def execVmemSts (ty : BitVec 3) (t : Bool) (mk : BitVec 3) (b a d : Reg) (s : State) : Out :=
  .next (scatter s true ty.toNat t.toNat mk.toNat b a d)

/-! ## Reductions (R243) -/

/-- One lane of a `scatred`: into the reduction cache, or, in a core aperture, a posted die-scope atomic at the bank; the
flags of the combine. -/
def redLane (s : State) (r : RowId) (op w : Nat) (p : Part) (v : Nat) : FFlags × State :=
  if inAperture s p then
    (0, issueReq (sentPart s r.core p) r (getRow s r).priv (.atomic (redAmo op) (wNat v) 0 (rmOf s r) true 0) [p] .none [])
  else redUpdate s r.core (some r) op w (rmOf s r) p v

/-- The lanes of a `scatred` in lane order. -/
def redLanes (s : State) (r : RowId) (op w : Nat) (v : Nat → Nat) : List (Nat × Part) → FFlags × State
  | [] => (0, s)
  | (j, p) :: xs =>
    let (f1, s1) := redLane s r op w p (v j)
    let (f2, s2) := redLanes s1 r op w v xs
    (f1 ||| f2, s2)

/-- `scatred`: one step (R243). -/
def scatred (s : State) (op ty t mk : Nat) (b a d : Reg) : State :=
  let r := s.cur
  let w := laneBytes ty
  let js := activeLanes s r ty mk
  let acc : Acc := { rd := true, wr := true, code := 3, mtag := some (baseTag s r a) }
  let (ts, ps) := laneChecks s r acc w (vmemAlign s r w false a b) (laneAddr s r w false a b) js
  let vd := getV s r d.toNat
  let (fl, s1) := redLanes s r op w (laneGet w vd) (js.zip ps)
  let body := match laneFault ts with
    | some x => raise s r x 0
    | none => retire (orFlags (sigParts s1 r ps) r fl) r 4
  holdGate s r (gate s r 0 (vmemSrcs false true (t == 1) mk b.toNat a.toNat d.toNat ++ srcRm (op == 9)) body)

/-- `vmem.scatred.add` (R243). -/
def execVmemScatredAdd (ty : BitVec 3) (t : Bool) (mk : BitVec 3) (b a d : Reg) (s : State) : Out :=
  .next (scatred s 8 ty.toNat t.toNat mk.toNat b a d)

/-- `vmem.scatred.fadd` (R243). -/
def execVmemScatredFadd (ty : BitVec 3) (t : Bool) (mk : BitVec 3) (b a d : Reg) (s : State) : Out :=
  .next (scatred s 9 ty.toNat t.toNat mk.toNat b a d)

/-- `vmem.scatred.min` (R243). -/
def execVmemScatredMin (ty : BitVec 3) (t : Bool) (mk : BitVec 3) (b a d : Reg) (s : State) : Out :=
  .next (scatred s 10 ty.toNat t.toNat mk.toNat b a d)

/-- `vmem.scatred.max` (R243). -/
def execVmemScatredMax (ty : BitVec 3) (t : Bool) (mk : BitVec 3) (b a d : Reg) (s : State) : Out :=
  .next (scatred s 11 ty.toNat t.toNat mk.toNat b a d)

/-- `vmem.scatred.minu` (R243). -/
def execVmemScatredMinu (ty : BitVec 3) (t : Bool) (mk : BitVec 3) (b a d : Reg) (s : State) : Out :=
  .next (scatred s 12 ty.toNat t.toNat mk.toNat b a d)

/-- `vmem.scatred.maxu` (R243). -/
def execVmemScatredMaxu (ty : BitVec 3) (t : Bool) (mk : BitVec 3) (b a d : Reg) (s : State) : Out :=
  .next (scatred s 13 ty.toNat t.toNat mk.toNat b a d)

/-- `vmem.scatred.or` (R243). -/
def execVmemScatredOr (ty : BitVec 3) (t : Bool) (mk : BitVec 3) (b a d : Reg) (s : State) : Out :=
  .next (scatred s 14 ty.toNat t.toNat mk.toNat b a d)

/-! ## Atomics (R244-R246) -/

/-- The lowest empty word of an access to the row itself: an own-row atomic blocks on it (R251). -/
def ownEmpty (s : State) (r : RowId) (ps : List Part) : Option Nat :=
  if ownRow s r ps then (emptyOf s r (ownWords s ps)).head? else none

/-- Count the message of an atomic to another core (R351). -/
def sentParts (s : State) (core : Nat) (ps : List Part) : State :=
  match ps.head? with
  | some p => sentPart s core p
  | none => s

/-- An atomic of function `fn`: checked, ordered as its scope asks, then issued; D is marked empty unless it is posted
(R245). It stays on the instruction until its order holds. -/
def amo (s : State) (fn : Nat) (post : Bool) (scope : Nat) (sz tb ta : Bool) (b a d : Reg) : State :=
  let r := s.cur
  let n := if sz then 8 else 4
  let p := getX s r a
  let srcs := [srcX a ta, srcX b tb] ++ (if fn = 9 then [srcE 0 ta] else []) ++ srcRm (fn == 11)
  let body := match check s (ctxOf s r) { rd := true, wr := true, code := 3, scalar := true, atomic := true } p n
      (p.toNat % n != 0) with
    | .error t => raise s r t 0
    | .ok ps =>
      if !post && !scopeDone s r (partIx s r.core) scope s.nextId then s
      else match ownEmpty s r ps with
      | some w => block s r w
      | none =>
        let kind := ReqKind.atomic fn (getX s r b) (getE s r 0) (rmOf s r) post scope
        let s2 := issueReq (sentParts s r.core ps) r (getRow s r).priv kind ps (if post then .none else .x d.toNat n true) (if post then [] else [xw d])
        retire (sigParts s2 r ps) r 4
  holdGate s r (gate s r 0 srcs body)

/-- `amo.add` (R245). -/
def execAmoAdd (post : Bool) (scope : BitVec 2) (sz tb ta : Bool) (b a d : Reg) (s : State) : Out :=
  .next (amo s 0 post scope.toNat sz tb ta b a d)

/-- `amo.and` (R245). -/
def execAmoAnd (post : Bool) (scope : BitVec 2) (sz tb ta : Bool) (b a d : Reg) (s : State) : Out :=
  .next (amo s 1 post scope.toNat sz tb ta b a d)

/-- `amo.or` (R245). -/
def execAmoOr (post : Bool) (scope : BitVec 2) (sz tb ta : Bool) (b a d : Reg) (s : State) : Out :=
  .next (amo s 2 post scope.toNat sz tb ta b a d)

/-- `amo.xor` (R245). -/
def execAmoXor (post : Bool) (scope : BitVec 2) (sz tb ta : Bool) (b a d : Reg) (s : State) : Out :=
  .next (amo s 3 post scope.toNat sz tb ta b a d)

/-- `amo.min` (R245). -/
def execAmoMin (post : Bool) (scope : BitVec 2) (sz tb ta : Bool) (b a d : Reg) (s : State) : Out :=
  .next (amo s 4 post scope.toNat sz tb ta b a d)

/-- `amo.max` (R245). -/
def execAmoMax (post : Bool) (scope : BitVec 2) (sz tb ta : Bool) (b a d : Reg) (s : State) : Out :=
  .next (amo s 5 post scope.toNat sz tb ta b a d)

/-- `amo.minu` (R245). -/
def execAmoMinu (post : Bool) (scope : BitVec 2) (sz tb ta : Bool) (b a d : Reg) (s : State) : Out :=
  .next (amo s 6 post scope.toNat sz tb ta b a d)

/-- `amo.maxu` (R245). -/
def execAmoMaxu (post : Bool) (scope : BitVec 2) (sz tb ta : Bool) (b a d : Reg) (s : State) : Out :=
  .next (amo s 7 post scope.toNat sz tb ta b a d)

/-- `amo.swap` (R245). -/
def execAmoSwap (post : Bool) (scope : BitVec 2) (sz tb ta : Bool) (b a d : Reg) (s : State) : Out :=
  .next (amo s 8 post scope.toNat sz tb ta b a d)

/-- `amo.cas` (R245). -/
def execAmoCas (post : Bool) (scope : BitVec 2) (sz tb ta : Bool) (b a d : Reg) (s : State) : Out :=
  .next (amo s 9 post scope.toNat sz tb ta b a d)

/-- `amo.fadd` (R245). -/
def execAmoFadd (post : Bool) (scope : BitVec 2) (sz tb ta : Bool) (b a d : Reg) (s : State) : Out :=
  .next (amo s 11 post scope.toNat sz tb ta b a d)

/-- The access of an `amo.dec.fire` to its cell. -/
def accCell : Acc := { rd := true, wr := true, code := 3, scalar := true, atomic := true }

/-- Step 1 of a decrement of the cell at `p`: it is issued when the order of its scope holds, and the row awaits the
status at RSTEP `k` (R246, R260). -/
def fireIssue (s : State) (r : RowId) (p : Word) (ps : List Part) (scope : Nat) (put : Put) (words : List Nat) (k : Nat) : State :=
  if !scopeDone s r (partIx s r.core) scope s.nextId then s
  else match ownEmpty s r ps with
  | some w => block s r w
  | none =>
    let id := s.nextId
    let s1 := issueReq (sentParts s r.core ps) r (getRow s r).priv (.atomic 10 0 0 .rne false scope) ps put words
    modRow (sigParts s1 r ps) r fun w => { w with rstep := k, work := fireStatus id 1, cell := p, marked := words.map (rowWord r) }

/-- A refused packet: FAULTED with PACKET and RSTEP `k`; a retry sends the packet only (R246). -/
def fireRefuse (s : State) (r : RowId) (p : Word) (k : Nat) : State :=
  modRow (raise s r (Trap.plain cPACKET p) k) r fun w => { w with work := fireStatus 0 0 }

/-- Re-read ACTION of the cell, which a peer may refuse (R374), and send its packet: go on with `go`, or PACKET again (R246). -/
def fireRetry (s : State) (r : RowId) (p : Word) (k : Nat) (go : State → State) : State :=
  match check s (ctxOf s r) accCell p 8 (p.toNat % 16 != 0) with
  | .error t => raise s r t k
  | .ok ps =>
    match ps.head? with
    | none => s
    | some q =>
      match peerSays s (dieOf r.core) q true with
      | some h => raise { s with peerNo := none } r (refusalTrap p h 3) k
      | none =>
        match readAction s r q with
        | (.ok as, t) =>
          let (sent, u) := fireAction (bump t r.core 4 1) (partIx t r.core) r.core q (wNat (leNat as))
          if sent then go u else fireRefuse u r p k
        | (.wait, t) => t
        | (.memerr sub i, t) => raise t r (memErrTrap (bytePtr p 8) sub i 3) k

/-- Step 2 of a decrement: the status is back, or it is awaited (R246). DEDUCED, log entry 48. -/
def fireAwait (s : State) (r : RowId) (p : Word) (k : Nat) (go : State → State) : State :=
  match (getRow s r).work.toNat % 4 with
  | 1 => s
  | 2 => go s
  | 3 => fireRefuse s r p k
  | _ => fireRetry s r p k go

/-- `amo.dec.fire` (R246). -/
def execAmoDecFire (scope : BitVec 2) (_tb ta : Bool) (a d : Reg) (s : State) : Out :=
  let r := s.cur
  let w := getRow s r
  if w.rstep < 2 then
    .next (holdGate s r (gate s r 0 [srcX a ta]
      (match check s (ctxOf s r) accCell (getX s r a) 8 ((getX s r a).toNat % 16 != 0) with
        | .error t => raise s r t 0
        | .ok ps => fireIssue s r (getX s r a) ps scope.toNat (.x d.toNat 8 true) [xw d] 2)))
  else if isEmpty s r (xw d) then .next (block s r (xw d))
  else if w.work = 0 ∧ w.cell = 0 then
    .next (gate s r 2 [srcX a ta] (fireAwait s r (getX s r a) 2 fun t => retire t r 4))
  else .next (fireAwait s r w.cell 2 fun t => retire t r 4)

end Sys2Proof.Machine
end

