-- ==== Sys2Proof/Machine/Sync.lean ====
section
/-!
DEFINITION. Fences, release and acquire, range maintenance and full/empty maintenance (R93, R110-R124, R247-R250).
-/

namespace Sys2Proof.Machine

/-! ## Fences (R93, R248) -/

/-- The core's fetch unit drops what it fetched earlier, so that later fetches follow the row's earlier accesses (R108). DEDUCED, log entry 57. -/
def refetch (s : State) (core : Nat) : State := { s with ibuf := s.ibuf.filter fun b => b.core != core }

/-- A fence issues when its condition holds; until then the row stays on it. -/
def fence (s : State) (cond : Bool) : State :=
  holdGate s s.cur (if cond then retire (refetch s s.cur.core) s.cur 4 else s)

/-- `sync.fence.die`. -/
def execSyncFenceDie (_tb _ta : Bool) (s : State) : Out := .next (fence s (dieDone s s.cur (partIx s s.cur.core) s.nextId))

/-- `sync.fence.dev`. -/
def execSyncFenceDev (_tb _ta : Bool) (s : State) : Out := .next (fence s (devDone s s.cur (partIx s s.cur.core) s.nextId))

/-- `sync.fence.sys`. -/
def execSyncFenceSys (_tb _ta : Bool) (s : State) : Out := .next (fence s (sysDone s s.cur (partIx s s.cur.core) s.nextId))

/-- `sync.fence.cp`. -/
def execSyncFenceCp (_tb _ta : Bool) (s : State) : Out := .next (fence s (cpDone s s.cur))

/-- `sync.fence.u`: the whole core's update-only lines are merged (R248). -/
def execSyncFenceU (_tb _ta : Bool) (s : State) : Out :=
  .next (holdGate s s.cur (retire (mergeCore s s.cur.core (some s.cur)) s.cur 4))

/-! ## The Calendar (R113, R114, R124) -/

/-- The date after `d`: 1 after the last (R113). -/
def nextDate (d : Nat) : Nat := if d + 1 = 2 ^ 32 then 1 else d + 1

/-- Is a date a Frost trigger: bits [5:0] zero, or the date 1 after the last (R124)? -/
def isTrigger (prev d : Nat) : Bool := d % 64 == 0 || decide (d < prev)

/-- Slices of the package that are there. -/
def allSlices : List Nat := List.range 320

/-- May the Calendar issue its next date: no slice trails by 32, and before a trigger the earlier Frost pass is over
(R114, R124)? -/
def dateOk (s : State) : Bool :=
  s.pkg.lag.all (fun x => decide ((2 ^ 32 + s.pkg.date - x.2.getD s.pkg.date) % 2 ^ 32 < 32)) &&
  (!isTrigger s.pkg.date (nextDate s.pkg.date) || s.pkg.frost.isNone)

/-- date_now(): the next date; a trigger date starts a Frost pass (R113, R124). -/
def dateNow (s : State) : Nat × State :=
  let n := nextDate s.pkg.date
  (n, modPkg s fun q => { q with date := n, frost := if isTrigger q.date n then some ⟨n, []⟩ else q.frost })

/-! ## Sync objects (R110-R112) -/

/-- The access to a sync object. -/
def accObj (wr : Bool) : Acc := { rd := !wr, wr := wr, code := wr.toNat, obj := true }

/-- Is an object's target in host or peer memory (R118, scope_of)? -/
def outOfPackage (s : State) (ps : List Part) : Bool := ps.any fun p => !inPackage s p

/-- Read one part of an object at its home, unless a peer refuses it (R110, R374). -/
def objectPart (s : State) (die : Nat) (p : Part) : Rd × State :=
  match peerSays s die p true with
  | some h => (.memerr (if h then 3 else 2) 0, { s with peerNo := none })
  | none => homeRead (landFlights s die p) die p

/-- Read the parts of an object at its home, as one event, after the stores that the die has forwarded there (R88, R110). -/
def readObject (s : State) (die : Nat) : List Part → Rd × State
  | [] => (.ok [], s)
  | p :: ps =>
    match objectPart s die p with
    | (.ok bs, t) =>
      (match readObject t die ps with
        | (.ok cs, u) => (.ok (bs ++ cs), u)
        | x => x)
    | (.memerr sub i, t) => (.memerr sub (p.pos + i), t)
    | x => x

/-- Write the parts of an object at its home, as one event (R110). -/
def writeObject (s : State) (die : Nat) (bs : List Byte) : List Part → State
  | [] => s
  | p :: ps => writeObject (homeStore s die p ((bs.drop p.pos).take p.n)) die bs ps

/-- The object that a release writes (R110, R118). -/
def relObject (s : State) (r : RowId) (v : Word) (date : Nat) : List Byte :=
  leBytes 8 v.toNat ++ leBytes 4 date ++ leBytes 4 (getRow s r).sfloor ++
  leBytes 4 (2 ^ 16 * (s.pkg.devidx.toNat % 256) + dieOf r.core) ++ List.replicate 108 0 ++ rowBytes s r 0x80 128

/-- The first poisoned word of a row's SFLOOR and signature, which `sync.rel` and `sync.acq` read (R348). -/
def sigPoison (s : State) (r : RowId) : Option Nat := ((10 :: List.range' 16 16).filter fun w => isPoison s r w).head?

/-- Run `body`, or raise MEMERR on a poisoned word of SFLOOR or the signature (R348). -/
def sigGate (s : State) (r : RowId) (body : State) : State :=
  match sigPoison s r with
  | some w => raise s r (Trap.plain cMEMERR (wordVa s r w)) 0
  | none => body

/-- The release takes its date, and with it, in one event, the object's value, floor, identity and signature; signature and
floor of the row are replaced. The row is at no boundary until the object is written (R113, R118, R119). -/
def relDate (s : State) (r : RowId) (v : Word) (ps : List Part) : State :=
  let (n, s1) := dateNow s
  let (id, s2) := fresh s1
  modRow (putRowBytes s2 r 0x80 (List.replicate 128 0)) r fun w =>
    { w with sfloor := n, stalled := true, rel := some ⟨id, relObject s r v n, ps, rowBytes s r 0x80 128, w.sfloor⟩ }

/-- The release writes nothing: the row has its signature again, with the lines noted since, and its SFLOOR (R125). -/
def relUndo (s : State) (r : RowId) (x : Rel) : State :=
  modRow (putRowBytes s r 0x80 (List.zipWith (· ||| ·) x.sig (rowBytes s r 0x80 128))) r fun w => { w with rel := none, sfloor := x.floor }

/-- The object of a dated release is written at its home, and the row goes on (R118); at a die that has failed meanwhile, or
at a peer that refuses it, nothing is written and the row faults (R125, R374, R375). -/
def relWrite (s : State) (r : RowId) (x : Rel) : State :=
  let p := (x.parts.head?.map (·.va)).getD 0
  let s1 := modRow s r fun w => { w with rel := none }
  if x.parts.any fun y => lostFail s y.pa then raise (relUndo s r x) r ⟨7, cHOMELOST, 0, 1, p, 0⟩ 0
  else match (x.parts.head?.bind fun y => peerSays s (dieOf r.core) y true) with
    | some h => raise { relUndo s r x with peerNo := none } r (refusalTrap p h 1) 0
    | none => retire (bump (writeObject s1 (dieOf r.core) x.obj x.parts) r.core 4 x.parts.length) r 4

/-- `sync.rel` (R118): merges, waits as `fence.dev` or `fence.sys`, and takes the date; then the object is written. Other
releases may be dated and written between the two (R119). DEDUCED, log entry 92. -/
def execSyncRel (tb ta : Bool) (b a : Reg) (s : State) : Out :=
  let r := s.cur
  let p := getX s r a
  .next (
    match (getRow s r).rel with
    | some x => relWrite s r x
    | none => holdGate s r (gate s r 0 [srcX a ta, srcX b tb]
        (match check s (ctxOf s r) (accObj true) p 256 (p.toNat % 256 != 0) with
          | .error t => raise s r t 0
          | .ok ps =>
            if (getDie s 0).failed && dieOf r.core == 1 then raise s r ⟨7, cHOMELOST, 0, 1, p, 0⟩ 0
            else sigGate s r (
              let s1 := mergeCore s r.core (some r)
              if scopeDone s1 r (partIx s1 r.core) (if outOfPackage s ps then 2 else 1) s1.nextId && dateOk s1 then
                relDate s1 r (getX s r b) ps
              else s1))))

/-- How an acquirer classifies IDENT: own, else the identity whose lines go; 0xFFFFFFFF stands for the host (R112, R120). -/
def identKind (s : State) (ident date : Nat) : Option Nat :=
  let dev := bitsOf ident 23 16
  if bitsOf ident 31 24 = 0 ∧ bitsOf ident 15 1 = 0 then
    if dev = s.pkg.devidx.toNat % 256 then
      let ahead := (2 ^ 32 + date - s.pkg.date) % 2 ^ 32
      if 1 ≤ ahead ∧ ahead < 2 ^ 31 then some 0xFFFFFFFF else none
    else some dev
  else some 0xFFFFFFFF

/-- An ASID that no line has: the die-0 part of a pass of the other die's row (R122). -/
def noAsid : Nat := 2 ^ 12

/-- Step 1 of `sync.acq` after the object is read (R120); a poisoned word of the signature faults the row (R348). -/
def acqStep1 (s : State) (r : RowId) (d : Reg) (o : List Byte) : State :=
  let date := leNat ((o.drop 8).take 4)
  let floor := leNat ((o.drop 12).take 4)
  let ident := leNat ((o.drop 16).take 4)
  let s1 := setX s r d (wNat (leNat (o.take 8)))
  if date = 0 then retire s1 r 4
  else sigGate s r (
    let (id, s2) := fresh s1
    let die := dieOf r.core
    let asid := asidOf s r.core
    let sig := (o.drop 0x80).take 128
    let now := s.pkg.date
    let far := fun (x : Nat) => (2 ^ 32 + now - x) % 2 ^ 32
    let s3 := match identKind s ident date with
      | none =>
        let old := rowBytes s2 r 0x80 128
        let s := modRow (putRowBytes s2 r 0x80 (List.zipWith (· ||| ·) old sig)) r fun w =>
          { w with sfloor := if far floor > far w.sfloor then floor else w.sfloor }
        { s with passes := s.passes ++ [⟨id, r, die, asid, true, date, floor, sig, 0, []⟩] }
      | some who =>
        let s := putRowBytes s2 r 0x80 (List.replicate 128 0xFF#8)
        let mine : Pass := ⟨id, r, die, asid, false, 0, 0, [], who, []⟩
        { s with passes := s.passes ++ (if die = 0 then [mine] else [mine, { mine with die := 0, asid := noAsid }]) }
    modRow s3 r fun w => { w with rstep := 2, work := wNat (id + 1) })

/-- Must the object's read wait for older accesses of the row (R87, R91)? -/
def acqWait (s : State) (r : RowId) (ps : List Part) : Bool :=
  let k := partIx s r.core
  ps.any fun p => loadsBefore s r k s.nextId p || ownBefore s r k s.nextId p ||
    (fifoOf s r k s.nextId).any (fun e => sameLoc s e.part p) ||
    (flightsOf s r k s.nextId).any fun f => sameLoc s f.ent.part p

/-- `sync.acq` (R120): on die 1 it faults where the Calendar's die has failed (R125); step 1 reads the object and starts the passes; step 2 waits for its own passes. -/
def execSyncAcq (_tb ta : Bool) (a d : Reg) (s : State) : Out :=
  let r := s.cur
  let w := getRow s r
  let p := getX s r a
  if w.rstep < 2 then
    .next (holdGate s r (gate s r 0 [srcX a ta]
      (match check s (ctxOf s r) (accObj false) p 256 (p.toNat % 256 != 0) with
        | .error t => raise s r t 0
        | .ok ps =>
          if (getDie s 0).failed && dieOf r.core == 1 then raise s r ⟨7, cHOMELOST, 0, 0, p, 0⟩ 0
          else if acqWait s r ps then s
          else match readObject s (dieOf r.core) ps with
            | (.ok o, t) => acqStep1 (bump t r.core 4 ps.length) r d o
            | (.wait, t) => t
            | (.memerr sub i, t) => raise t r (memErrTrap p sub i 0) 0)))
  else if s.passes.any fun x => wNat (x.id + 1) == w.work then .next s
  else .next (retire (refetch s r.core) r 4)

/-- Remove from a slice the lines that satisfy `p`, and count them in SY.GUESTINV.ACQ of its die (R123). -/
def sliceDrop (s : State) (slice : Nat) (p : Line → Bool) : Nat × State :=
  let hit := fun (x : Line) => x.slice == slice && p x
  ((s.l2.filter hit).length, { s with l2 := s.l2.filter fun x => !hit x })

/-- Age of a guest line at a slice (R115). -/
def lineAge (s : State) (slice : Nat) (x : Line) : Nat := (sliceDate s slice + 256 - x.stamp.getD 0) % 256

/-- Is a line a guest line homed at an identity: a peer, or for the host any (R122)? -/
def homedAt (s : State) (who : Nat) (x : Line) : Bool :=
  x.stamp.isSome && (who == 0xFFFFFFFF ||
    (match region s (128 * x.pl) with
      | .peerMem i => i == who
      | .gddr => true
      | _ => false))

/-- Record that a slice has done its part of pass `i`; the pass ends with its last slice. -/
def passDone (s : State) (id die slice : Nat) : State :=
  let f := fun (x : Pass) => if x.id = id ∧ x.die = die then { x with done := insSorted x.done slice } else x
  { s with passes := (s.passes.map f).filter fun x => x.done.length < 160 }

/-- Count invalidations by acquire passes on a die. -/
def countAcq (s : State) (die n : Nat) : State := modDie s die fun d => { d with acq := (d.acq + n) % 2 ^ 32 }

/-- A slice's part of an own-identity pass: it waits for the object's date, then removes the guest lines of the ASID
that R121 names. -/
def passOwn (s : State) (id slice : Nat) : State :=
  match s.passes.find? fun x => x.id == id && x.own with
  | none => s
  | some x =>
    let q := sliceDate s slice
    if slice / 160 ≠ x.die ∨ x.done.contains slice ∨ 2 ^ 31 ≤ (2 ^ 32 + q - x.date) % 2 ^ 32 then s
    else
      let lim := (2 ^ 32 + q - x.floor) % 2 ^ 32
      let (n, t) := sliceDrop s slice fun y =>
        y.stamp.isSome && !y.phys && y.asid == x.asid &&
          (decide (160 ≤ lim) || sigHit x.sig y.line || decide (lim < lineAge s slice y))
      passDone (countAcq t x.die n) id x.die slice

/-- A slice's part of a foreign or host pass (R122): guest lines of the ASID, and on die 0 the G = 1 guest lines. -/
def passOther (s : State) (id slice : Nat) : State :=
  match s.passes.find? fun x => x.id == id && !x.own && x.die == slice / 160 with
  | none => s
  | some x =>
    if x.done.contains slice then s
    else
      let (n, t) := sliceDrop s slice fun y =>
        (if y.phys then x.die == 0 && homedAt s x.ident y &&
            (x.ident == 0xFFFFFFFF || (match region s (128 * y.pl) with
              | .peerMem _ => true
              | _ => false))
         else y.asid == x.asid && homedAt s x.ident y)
      passDone (countAcq t x.die n) id x.die slice

/-- A slice's part of a Frost pass: the guest lines go whose age was 64 or more when the slice's DATE reached the trigger
(R124). -/
def frostStep (s : State) (slice : Nat) : State :=
  match s.pkg.frost with
  | none => s
  | some f =>
    if 320 ≤ slice ∨ f.done.contains slice ∨ 2 ^ 31 ≤ (2 ^ 32 + sliceDate s slice - f.trigger) % 2 ^ 32 then s
    else
      let since := (2 ^ 32 + sliceDate s slice - f.trigger) % 2 ^ 32
      let (n, t) := sliceDrop s slice fun y => y.stamp.isSome && decide (64 + since ≤ lineAge s slice y)
      let done := insSorted f.done slice
      modPkg (modDie t (slice / 160) fun d => { d with frost := (d.frost + n) % 2 ^ 32 }) fun q =>
        { q with frost := if done.length < 320 then some { f with done := done } else none }

/-- A slice's copy of DATE moves to `date`, one that the Calendar has issued, on its way to the Calendar's (R113, R114). -/
def dateStep (s : State) (slice date : Nat) : State :=
  match smGet none s.pkg.lag slice with
  | none => s
  | some old =>
    let date := date % 2 ^ 32
    let d := (2 ^ 32 + date - old) % 2 ^ 32
    let gap := (2 ^ 32 + s.pkg.date - old) % 2 ^ 32
    if date = 0 ∨ d = 0 ∨ gap < d then s
    else modPkg s fun q => { q with lag := smSet none q.lag slice (if d = gap then none else some date) }

/-- A slice's copy of DATE begins to trail (R114). -/
def lagStep (s : State) (slice : Nat) : State :=
  if slice < 320 ∧ (smGet none s.pkg.lag slice).isNone then
    modPkg s fun q => { q with lag := smPut q.lag slice (some q.date) }
  else s

/-! ## Range maintenance (R79, R80, R249) -/

/-- The three operations on a range. -/
inductive Maint where
  | cln | inv | fln
  deriving DecidableEq, Repr

/-- Bytes of page `k` of a range of `n` bytes at `p`: first byte and length (R249). -/
def rangePage (p : Word) (n k : Nat) : Nat × Nat :=
  let head := 0x1000 - p.toNat % 0x1000
  let i := if k = 0 then 0 else head + 0x1000 * (k - 1)
  (i, min (n - i) (if k = 0 then head else 0x1000))

/-- Act on the cached copies of the lines that a checked piece of a page touches (R79). -/
def maintain (s : State) (m : Maint) (ps : List Part) : State :=
  match ps.head?, ps.getLast? with
  | some p, some q =>
    let skip := match region s p.pa with
      | .row _ _ _ => true
      | .ctl _ _ => true
      | .tagw => true
      | .sys _ => true
      | _ => false
    if skip then s
    else
      let hit := fun (x : Line) =>
        if p.g then x.phys && decide (p.pa / 128 ≤ x.line) && decide (x.line ≤ q.pa / 128)
        else !x.phys && x.asid == p.asid && decide (lineL p ≤ x.line) && decide (x.line ≤ lineL q)
      match m with
      | .cln => cleanWhere s hit
      | .inv => dropWhere s hit
      | .fln => flushWhere s hit
  | _, _ => s

/-- Are the row's earlier stores to the pieces' page performed, with their acknowledgements (R80)? -/
def pageStoresDone (s : State) (r : RowId) (ps : List Part) : Bool :=
  let same := fun (p : Part) => ps.any fun q => q.pa / 0x1000 == p.pa / 0x1000
  let k := partIx s r.core
  !((fifoOf s r k s.nextId).any fun e => same e.part) && !((flightsOf s r k s.nextId).any fun f => same f.ent.part)

/-- A range instruction: one step for each page (R249). All lines of the page are acted on in one event: DESIGN CHOICE, log
entry 12. -/
def rangeOp (s : State) (m : Maint) (tb ta : Bool) (b a : Reg) : State :=
  let r := s.cur
  let w := getRow s r
  let p := getX s r a
  let n := (getX s r b).toNat
  let k := w.rstep - 1
  let i := (rangePage p n k).1
  let len := (rangePage p n k).2
  let acc : Acc := { rd := m == .cln, wr := m != .cln, code := if m = .cln then 0 else 1, maint := true }
  let body :=
    if n = 0 then retire s r 4
    else match canonFail p n with
      | some j => raise s r ⟨2, cADDR, 0, acc.code, bytePtr p j, 0⟩ w.rstep
      | none =>
        if n ≤ i then retire s r 4
        else match check s (ctxOf s r) acc (bytePtr p i) len false with
          | .error t => raise s r t (k + 1)
          | .ok ps =>
            if !pageStoresDone s r ps then toStep s r (k + 1)
            else
              let l0 := Wbits (bytePtr p i) 55 7
              let l1 := Wbits (bytePtr p (i + len - 1)) 55 7
              let asid := asidOf s r.core
              let s1 := mergeWhere s r.core (some r)
                (fun x => x.asid == asid && decide (l0 ≤ x.line) && decide (x.line ≤ l1)) 33
              let s2 := bump (maintain s1 m ps) r.core 4 (l1 - l0 + 1)
              if n ≤ i + len then retire s2 r 4 else toStep s2 r (k + 2)
  holdGate s r (gate s r w.rstep [srcX a ta, srcX b tb] body)

/-- `sync.cln.range` (R249). -/
def execSyncClnRange (tb ta : Bool) (b a : Reg) (s : State) : Out := .next (rangeOp s .cln tb ta b a)

/-- `sync.inv.range` (R249). -/
def execSyncInvRange (tb ta : Bool) (b a : Reg) (s : State) : Out := .next (rangeOp s .inv tb ta b a)

/-- `sync.fln.range` (R249). -/
def execSyncFlnRange (tb ta : Bool) (b a : Reg) (s : State) : Out := .next (rangeOp s .fln tb ta b a)

/-! ## Full/empty maintenance (R250) -/

/-- `sync.fe.clr` and `sync.fe.set` (R250). -/
def feRange (s : State) (set tb ta : Bool) (b a : Reg) : State :=
  let r := s.cur
  let p := getX s r a
  let n := (getX s r b).toNat
  let bad := p.toNat % 8 != 0 || n % 8 != 0 || decide (n < 8) || decide (128 < n) || decide (0x1000 < p.toNat % 0x1000 + n)
  let body := match check s (ctxOf s r) { wr := true, code := 1, bits := true } p (if bad then 1 else n) bad with
    | .error t => raise s r t 0
    | .ok ps =>
      if fifoFree s r.core < ps.length then stall s r
      else retire (enterParts s r (getRow s r).priv (if set then .bitsSet else .bitsClr) false [] ps) r 4
  holdGate s r (gate s r 0 [srcX a ta, srcX b tb] body)

/-- `sync.fe.clr` (R250). -/
def execSyncFeClr (tb ta : Bool) (b a : Reg) (s : State) : Out := .next (feRange s false tb ta b a)

/-- `sync.fe.set` (R250). -/
def execSyncFeSet (tb ta : Bool) (b a : Reg) (s : State) : Out := .next (feRange s true tb ta b a)

end Sys2Proof.Machine
end

