-- ==== Sys2Proof/Machine/Rows.lean ====
section
/-!
DEFINITION. The ROW major: the row itself, packets, task completion, barriers and deques (R253-R268).
-/

namespace Sys2Proof.Machine

/-! ## The row itself (R255, R256) -/

/-- Is another row of the same bank READY, in the set or in a slot, with an equal or higher class, all classes as the last
selection has read them (R255, R331, R332, R336)? -/
def rivalReady (s : State) (r : RowId) : Bool :=
  let b := getBank s r.core (r.row % 4)
  let mine := if b.slot1.st ≠ .empty ∧ b.slot1.row = r.row then b.slot1.cls else b.slot0.cls
  let held := fun (x : Slot) =>
    x.st != .empty && x.row != r.row && (getRow s ⟨r.core, x.row⟩).st == .ready && !(getRow s ⟨r.core, x.row⟩).orphan && decide (mine ≤ x.cls)
  b.ready.any (fun x => x.1 != r.row && decide (mine ≤ smGet 0 b.classes x.1)) || held b.slot0 || held b.slot1

/-- Retire, and give the position up when a rival is READY (R255). -/
def yieldRow (s : State) (n : Nat) : State :=
  let r := s.cur
  let s1 := retire s r n
  if rivalReady s r then closeRow s1 r else s1

/-- `row.yield` (R255). -/
def execRowYield (_tb _ta : Bool) (s : State) : Out := .next (yieldRow s 4)

/-- `row.wait`: compare the first scratch word, word 12, and wait, as one event (R256); poison faults the row (R348). -/
def execRowWait (_tb ta : Bool) (a : Reg) (s : State) : Out :=
  let r := s.cur
  .next (gate s r 0 [srcX a ta]
    (soundGate s r 0 12 (if (getRow s r).scratch0 = getX s r a then waitFor (retire s r 4) r 6 none else retire s r 4)))

/-- `row.stop` (R255). -/
def execRowStop (_tb _ta : Bool) (s : State) : Out := .next (makeStopped (retire s s.cur 4) s.cur 3)

/-- `row.rowid` (R255). -/
def execRowRowid (_tb _ta : Bool) (d : Reg) (s : State) : Out := .next (retX s s.cur d (rowVa s s.cur) 4)

/-- `row.budget` (R255); poison in BUDGET, word 8, faults the row (R348). -/
def execRowBudget (_tb ta : Bool) (a d : Reg) (s : State) : Out :=
  let r := s.cur
  .next (gate s r 0 [srcX a ta] (soundGate s r 0 8
    (retX (modRow s r fun w => { w with budget := getX s r a }) r d (getRow s r).budget 4)))

/-! ## Sending packets (R257-R259) -/

/-- Split bytes into 64-bit words. -/
def wordsOf (bs : List Byte) : Nat → List Word
  | 0 => []
  | n + 1 => wNat (leNat (bs.take 8)) :: wordsOf (bs.drop 8) n

/-- Issue a well-formed packet: D is marked empty and the packet waits for its order (R257, R259). -/
def sendIssue (s : State) (r : RowId) (ws : List Word) (d : Reg) : State :=
  let core := pktCore (ws.getD 0 0)
  let fence := if core ≠ 0x1FF ∧ dieOf core = dieOf r.core then 0 else 1
  retire (issueReq s r (getRow s r).priv (.send ws fence)
    [⟨0, rowPa r 0, 0, 0, asidOf s r.core, 0, false, false, 1, 0⟩] (.x d.toNat 8 false) [xw d]) r 4

/-- `row.send` (R257). -/
def execRowSend (_tb ta : Bool) (a d : Reg) (s : State) : Out :=
  let r := s.cur
  let p := getX s r a
  let priv := (getRow s r).priv
  .next (gate s r 0 [srcX a ta]
    (match check s (ctxOf s r) accLoad p 8 (p.toNat % 32 != 0) with
      | .error t => raise s r t 0
      | .ok hs =>
        if remoteBefore s r then s
        else match readParts s r priv 0 false hs with
          | (.wait, t) => t
          | (.memerr sub i, t) => raise t r (memErrTrap p sub i 0) 0
          | (.ok hb, s1) =>
            let len := pktLen (wNat (leNat hb))
            match check s1 (ctxOf s1 r) { accLoad with scalar := false } p len false with
            | .error t => raise s1 r t 0
            | .ok ps =>
              match readParts s1 r priv 0 false ps with
              | (.wait, t) => t
              | (.memerr sub i, t) => raise t r (memErrTrap p sub i 0) 0
              | (.ok bs, s2) =>
                let ws := wordsOf bs (len / 8)
                if wellFormed s2 (partOf s2 r.core) ws && pktLen (ws.getD 0 0) == len then sendIssue (dropAnswers s2 (rowAsker s r)) r ws d
                else retX (dropAnswers s2 (rowAsker s r)) r d 1 4))

/-- `row.spawn` (R258). -/
def execRowSpawn (tb ta : Bool) (b a d : Reg) (s : State) : Out :=
  let r := s.cur
  let ws := [getX s r a, getX s r b, 0, 0]
  .next (gate s r 0 [srcX a ta, srcX b tb]
    (if wellFormed s (partOf s r.core) ws && Wbits (getX s r a) 2 0 == 0 && pktSucc (getX s r a) == 0 then sendIssue s r ws d
     else retX s r d 1 4))

/-! ## Completing a task (R260) -/

/-- Word of a row at 0xA80: the header of its packet. -/
def pktWord : Nat := 0x150

/-- The end of `row.done` (R260). -/
def doneEnd (s : State) (r : RowId) : State :=
  makeStopped (retire (modRow s r fun w => { w with task := w.task &&& ~~~(0x80#64) }) r 4) r 9

/-- `row.done`, which reads TASK, word 9, and the packet's header and handles (R348): each handle is decremented as `amo.dec.fire` at device scope, two steps a handle (R260). -/
def execRowDone (_tb _ta : Bool) (s : State) : Out :=
  let r := s.cur
  let w := getRow s r
  let k := (w.rstep - 1) / 2
  let st := if w.rstep = 0 then 1 else w.rstep - 2 * k
  let n := if w.task.getLsbD 7 then pktSucc (getW s r pktWord) else 0
  let handle := getW s r (pktWord + 2 + k)
  let next := fun (t : State) => modRow t r fun x => { x with rstep := 2 * k + 3, work := 0 }
  .next (
    match (if isPoison s r 9 then some 9 else if isPoison s r pktWord then some pktWord else if k < n ∧ isPoison s r (pktWord + 2 + k) then some (pktWord + 2 + k) else none) with
    | some x => raise s r (Trap.plain cMEMERR (wordVa s r x)) w.rstep
    | none =>
      if 4 < n then ill s r
      else if n ≤ k then doneEnd s r
      else if st = 1 then
        (match check s (ctxOf s r) accCell handle 8 (handle.toNat % 16 != 0) with
          | .error t => raise s r t (2 * k + 1)
          | .ok ps => fireIssue s r handle ps 1 .none [] (2 * k + 2))
      else fireAwait s r (if w.work = 0 then handle else w.cell) (2 * k + 2) next)

/-! ## Barriers (R261-R264) -/

/-- The region that a pointer translates to; none without a translation, or while its walk waits. -/
def barTarget (s : State) (r : RowId) (p : Word) : Option Region :=
  if (canonFail p 1).isSome then none
  else match translateWait s (ctxOf s r) (vaSlice (Wbits p 55 7)) (Wbits p 55 12) with
    | .ok x => some (region s (x.page + p.toNat % 0x1000))
    | .error _ => none

/-- Check 1 of a barrier pointer: alignment, a barrier range, and the own core where it is required (R261). DEDUCED, log entry 31. -/
def barAlign (s : State) (r : RowId) (own : Bool) (p : Word) : Bool :=
  p.toNat % 16 != 0 ||
  (match barTarget s r p with
    | none => false
    | some .hole => false
    | some (.ctl c off) => !(decide (0x1000 ≤ off) && decide (off < 0x2000)) || (own && c != r.core)
    | some _ => true)

/-- Check a barrier pointer: the core and the barrier number (R261). -/
def barCheck (s : State) (r : RowId) (acc : Acc) (own : Bool) (p : Word) : Except Trap (Nat × Nat × List Part) :=
  match check s (ctxOf s r) { acc with ctlOk := true } p 16 (barAlign s r own p) with
  | .error t => .error t
  | .ok ps =>
    match barTarget s r p with
    | some (.ctl c off) => .ok (c, (off - 0x1000) / 16, ps)
    | _ => .error ⟨1, cALIGN, 0, acc.code, p, 0⟩

/-- `row.bar.init` (R262). -/
def execRowBarInit (tb ta : Bool) (b a : Reg) (s : State) : Out :=
  let r := s.cur
  let c := (getX s r b).toNat
  .next (gate s r 0 [srcX a ta, srcX b tb]
    (if c = 0 ∨ 65535 < c then ill s r
     else match barCheck s r { wr := true, code := 1 } true (getX s r a) with
      | .error t => raise s r t 0
      | .ok (core, k, _) => retire (barReplace s core k ⟨true, false, 0, c⟩) r 4))

/-- An arrival at a barrier: its result (R262). -/
def arrive (s : State) (core k : Nat) : Nat × State :=
  let b : Bar := smGet {} (getCore s core).bars k
  if !b.valid then (2, s)
  else
    let res := (!b.ph).toNat
    if b.expect ≤ b.arrived + 1 then (res, barSet s core k { b with arrived := 0, ph := !b.ph })
    else (res, barSet s core k { b with arrived := b.arrived + 1 })

/-- Note the order in which clusters reach a barrier's phase, for steering (R381). DEDUCED, log entry 59. -/
def noteArrival (s : State) (who : RowId) (core k : Nat) : State :=
  let cl := clOf who.core
  match findPos (fun (x : Steer) => x.core == core && x.bar == k) s.steer with
  | some i => { s with steer := modNth (fun x => { x with phase := if x.phase.contains cl then x.phase else x.phase ++ [cl] }) s.steer i }
  | none => { s with steer := s.steer ++ [⟨core, k, [cl], 0, 0⟩] }

/-- Do the clusters of a phase all steer, in one partition (R381)? -/
def steers (s : State) (cls : List Nat) : Bool :=
  cls.all fun c =>
    let x := getCl s c
    x.bud.steer && x.valid && x.part == (getCl s (cls.headD 0)).part

/-- Move refill rate from cluster `a` to cluster `b`, within the bounds of R381 and of the 8 bits that R379 gives RATE: a
move that would take RATE past 255 is not made, DESIGN CHOICE, log entry 93. -/
def moveRate (s : State) (a b : Nat) : State :=
  let x := (getCl s a).bud
  let y := (getCl s b).bud
  let m := x.crate / 8
  if a = b ∨ 2 * x.rate < x.crate + 2 * m ∨ 3 * y.crate < 2 * (y.rate + m) ∨ 255 < y.rate + m then s
  else
    modCl (modCl s a fun c => { c with bud := { c.bud with rate := c.bud.rate - m } }) b
      fun c => { c with bud := { c.bud with rate := c.bud.rate + m } }

/-- A phase of a barrier ends with an arrival from cluster `cl`: after four phases in a row that ended so, rate moves and
counting starts again (R381). -/
def steerPhase (s : State) (core k cl : Nat) : State :=
  match findPos (fun (x : Steer) => x.core == core && x.bar == k) s.steer with
  | none => s
  | some i =>
    match s.steer[i]? with
    | none => s
    | some x =>
      let run := if !steers s x.phase then 0 else if x.last = cl then x.runLen + 1 else 1
      let t : State := { s with steer := modNth (fun y => { y with phase := [], last := cl, runLen := run % 4 }) s.steer i }
      if run = 4 then moveRate t (x.phase.headD cl) cl else t

/-- An arrival of row `who` at a barrier: its result, with what steering takes from it (R262, R381). -/
def arriveBy (s : State) (who : RowId) (core k : Nat) : Nat × State :=
  let b : Bar := smGet {} (getCore s core).bars k
  if !b.valid then (2, s)
  else
    let (res, t) := arrive (noteArrival s who core k) core k
    (res, if b.expect ≤ b.arrived + 1 then steerPhase t core k (clOf who.core) else t)

/-- `row.bar.arrive`: the arrival travels as a message; D is marked empty unless it is X0 (R262). -/
def execRowBarArrive (_tb ta : Bool) (a d : Reg) (s : State) : Out :=
  let r := s.cur
  .next (gate s r 0 [srcX a ta]
    (match barCheck s r { rd := true, wr := true, code := 3 } false (getX s r a) with
      | .error t => raise s r t 0
      | .ok (core, k, ps) =>
        let s1 := sentMsg s r.core core
        retire (issueReq s1 r (getRow s r).priv (.arrive core k) (ps.take 1) (.x d.toNat 8 false) [xw d]) r 4))

/-- `row.bar.wait`: bits [63:1] of the phase are ignored (R262). -/
def execRowBarWait (tb ta : Bool) (b a : Reg) (s : State) : Out :=
  let r := s.cur
  let ph := (getX s r b).getLsbD 0
  .next (gate s r 0 [srcX a ta, srcX b tb]
    (match barCheck s r { rd := true } true (getX s r a) with
      | .error t => raise s r t 0
      | .ok (core, k, _) =>
        let x : Bar := smGet {} (getCore s core).bars k
        if x.valid && x.ph != ph then waitFor (retire s r 4) r 7 (some (k, ph)) else retire s r 4))

/-- `row.bar.sync`: step 1 arrives, after the row's earlier stores; step 2 waits on the phase in D (R262, R263). -/
def execRowBarSync (_tb ta : Bool) (a d : Reg) (s : State) : Out :=
  let r := s.cur
  let w := getRow s r
  let p := if w.rstep = 2 ∧ a = d then w.cell else getX s r a
  .next (gate s r w.rstep [srcX a ta]
    (match barCheck s r { rd := true, wr := true, code := 3 } true p with
      | .error t => raise s r t w.rstep
      | .ok (core, k, _) =>
        if w.rstep < 2 then
          if !storeOrder s r (partIx s r.core) s.nextId then s
          else
            let (res, s1) := arriveBy s r core k
            modRow (setX s1 r d (wNat res)) r fun x => { x with rstep := 2, work := 0, cell := p }
        else
          let x : Bar := smGet {} (getCore s core).bars k
          let v := getX s r d
          soundGate s r 2 (xw d)
            (if w.work = 0 ∧ v.getLsbD 1 = false ∧ x.valid = true ∧ x.ph ≠ v.getLsbD 0 then
              waitFor s r 7 (some (k, v.getLsbD 0))
            else retire s r 4)))

/-! ## Deques (R265-R268) -/

/-- Change a core's deque. -/
def modDq (s : State) (core : Nat) (f : Deque → Deque) : State := modCore s core fun c => { c with dq := f c.dq }

/-- Entry `i` of a deque. -/
def Deque.ent (q : Deque) (i : Nat) : DqEnt := smGet {} q.ents (i % 64)

/-- Push an entry at the bottom (R266). -/
def Deque.push (q : Deque) (lo hi tag : Nat) : Deque :=
  { q with ents := smSet {} q.ents (q.bottom % 64) ⟨hi, lo, tag⟩, bottom := (q.bottom + 1) % 2 ^ 32 }

/-- `row.dq.push` (R266): after the row's earlier stores (R268). -/
def execRowDqPush (tb ta : Bool) (b a d : Reg) (s : State) : Out :=
  let r := s.cur
  let lo := Wbits (getX s r a) 31 0
  let hi := Wbits (getX s r a) 63 32
  .next (gate s r 0 [srcX a ta, srcX b tb]
    (if hi ≤ lo then retX s r d 2 4
     else if (getCore s r.core).dq.count = 64 then retX s r d 1 4
     else if !storeOrder s r (partIx s r.core) s.nextId then s
     else retX (modDq s r.core fun q => q.push lo hi (Wbits (getX s r b) 15 0)) r d 0 4))

/-- Write the pair of a pop or a steal and retire (R265). -/
def givePair (s : State) (r : RowId) (dp : BitVec 4) (hi lo src core tag : Nat) : State :=
  let d : Reg := (dp.setWidth 5) <<< 1
  retire (setX (setX s r d (wNat (2 ^ 32 * hi + lo))) r (d + 1) (wNat (2 ^ 32 * core + 2 ^ 16 * src + tag))) r 4

/-- The victim of step `j` (1-159) of a steal by core `t` (R267). -/
def victim (t j : Nat) : Nat :=
  let die := t / 160
  let i := t % 160
  let c := i / 8
  let q := i % 8
  if j ≤ 7 then 160 * die + c * 8 + (q + j) % 8
  else 160 * die + ((c + 1 + (j - 8) / 8) % 20) * 8 + (j - 8) % 8

/-- Step `j` of a steal: take from the victim, or go to the next, or give none after the last (R267). -/
def stealStep (s : State) (r : RowId) (dp : BitVec 4) (j : Nat) : State :=
  let v := victim r.core j
  let q := (getCore s v).dq
  if j ≤ 159 ∧ partOf s v = partOf s r.core ∧ (partOf s r.core).isSome ∧ q.victim = true ∧ q.count ≠ 0 then
    let e := q.ent q.top
    let n := e.hi - e.lo
    let k := (n + 1) / 2
    let s1 := modDq s v fun q =>
      if k = n then { q with top := (q.top + 1) % 2 ^ 32 }
      else { q with ents := smSet {} q.ents (q.top % 64) { e with hi := e.hi - k } }
    givePair s1 r dp e.hi (e.hi - k) 1 v e.tag
  else if 159 ≤ j then givePair s r dp 0 0 2 0 0
  else toStep s r (j + 1)

/-- `row.dq.pop` (R266). -/
def execRowDqPop (_tb _ta : Bool) (dp : BitVec 4) (s : State) : Out :=
  let r := s.cur
  let w := getRow s r
  let q := (getCore s r.core).dq
  .next (
    if w.rstep ≠ 0 then stealStep s r dp w.rstep
    else if q.count ≠ 0 then
      let b := (2 ^ 32 + q.bottom - 1) % 2 ^ 32
      let e := q.ent b
      givePair (modDq s r.core fun q => { q with bottom := b }) r dp e.hi e.lo 0 r.core e.tag
    else if q.popsteal then stealStep s r dp 1
    else givePair s r dp 0 0 2 0 0)

/-- `row.dq.split` (R266). -/
def execRowDqSplit (tb ta : Bool) (b a d : Reg) (s : State) : Out :=
  let r := s.cur
  let lo := Wbits (getX s r a) 31 0
  let hi := Wbits (getX s r a) 63 32
  .next (gate s r 0 [srcX a ta, srcX b tb]
    (if lo + 1 < hi ∧ (getCore s r.core).dq.count < 64 then
      if !storeOrder s r (partIx s r.core) s.nextId then s
      else
        let m := lo + (hi - lo) / 2
        retX (modDq s r.core fun q => q.push m hi (Wbits (getX s r b) 15 0)) r d (wNat (2 ^ 32 * m + lo)) 4
     else retX s r d (getX s r a) 4))

/-- `row.dq.steal` (R267). -/
def execRowDqSteal (_tb _ta : Bool) (dp : BitVec 4) (s : State) : Out :=
  .next (stealStep s s.cur dp (max 1 (getRow s s.cur).rstep))

/-- `row.dq.len` (R266). -/
def execRowDqLen (_tb _ta : Bool) (d : Reg) (s : State) : Out :=
  .next (retX s s.cur d (wNat (getCore s s.cur.core).dq.count) 4)

end Sys2Proof.Machine
end

