-- ==== Sys2Proof/Machine/Copy.lean ====
section
/-!
DEFINITION. Copies: `engine.cp.lin`, `engine.cp.dist`, `engine.cp.stat`, the copy engines and the distributors (R73-R77,
R269-R272).
-/

namespace Sys2Proof.Machine

/-- First byte of piece `k` of a transfer cut at 4 KiB boundaries of two addresses (R269). -/
def cutStart (a b : Word) (k : Nat) : Nat :=
  let ra := 0x1000 - a.toNat % 0x1000
  let rb := 0x1000 - b.toNat % 0x1000
  let lo := min ra rb
  let hi := max ra rb
  if k = 0 then 0
  else if lo = hi then lo + 0x1000 * (k - 1)
  else if k % 2 = 1 then lo + 0x1000 * ((k - 1) / 2)
  else hi + 0x1000 * ((k - 2) / 2)

/-- The aligned parts of `unit` bytes that `n` bytes at an address lie in: offset and length (R98). -/
def chunks (unit pa n : Nat) : (fuel off : Nat) → List (Nat × Nat)
  | 0, _ => []
  | fuel + 1, off =>
    if n ≤ off then [] else
      let len := min (n - off) (unit - (pa + off) % unit)
      (off, len) :: chunks unit pa n fuel (off + len)

/-- Does a part, by offset and length, share a byte with the `len` bytes at `off`? -/
def overlaps (off len : Nat) (x : Nat × Nat) : Bool := decide (x.1 < off + len) && decide (off < x.1 + x.2)

/-- The byte at an offset of a piece, from the parts read. -/
def gotByte (got : List (Nat × List Byte)) (i : Nat) : Byte :=
  match got.find? fun x => overlaps i 1 (x.1, x.2.length) with
  | some x => x.2.getD (i - x.1) 0
  | none => 0

/-- Does a part lie in a control page, whose words are moved one by one in ascending order (R20)? -/
def onPage (s : State) (p : Part) : Bool :=
  match region s p.pa with
  | .ctl _ _ => true
  | .peerAp _ off => decide (0x800000 ≤ off)
  | _ => false

/-- One part for a whole piece within a page. -/
def spanOf (ps : List Part) (n : Nat) : Part :=
  match ps with
  | p :: _ => { p with n := n, pos := 0 }
  | [] => ⟨0, 0, n, 0, 0, 0, false, false, 1, 0⟩

/-- A sub-part of a piece. -/
def subPart (p : Part) (off n : Nat) : Part := { p with va := bytePtr p.va off, pa := p.pa + off, n := n, pos := 0 }

/-- The row-store words that `n` bytes at a part cover, by address / 8: what a copy by row `r` marks empty (R48, R54). -/
def copyWords (s : State) (p : Part) (n : Nat) : List Nat :=
  match region s p.pa with
  | .row q _ off => ((rowWords off n).filter fun w => decide (32 < w)).map (rowWord q)
  | _ => []

/-- Mark the row-store words that `n` bytes at a part cover empty, and note them for SKIP (R48, R54, R269). The words of a
swapped-out partition are marked through its log (R354). False: the row waits, for the log or for the target row's
boundary (R56). -/
def markEmpty (s : State) (r : RowId) (p : Part) (n : Nat) : Bool × State :=
  match aimedPartOf s p, region s p.pa with
  | some (c, x), .row _ _ _ => logAdd s c x (.store ⟨s.nextId, r, partIx s r.core, false, { p with n := n }, .bitsClr, false, [], []⟩)
  | some _, _ => (true, s)
  | none, .row q _ off =>
    if rowBusy s q none then (false, s)
    else (true, modRow (setEmpties s q (rowWords off n)) r fun w => { w with marked := w.marked ++ copyWords s p n })
  | none, _ => (true, s)

/-- Identifiers of the row's store entries in the FIFO (R73). -/
def fifoIds (s : State) (r : RowId) : List Nat := (fifoOf s r (partIx s r.core) s.nextId).map (·.id)

/-- `engine.cp.lin`: step k + 1 checks piece k, waits for shootdowns and for room, marks its destination and hands it to the
cluster's copy engine (R269).
The rule of an aperture's destination comes before the checks: DEDUCED, log entry 73. Where only the source pointer breaks the rule of
a control page as destination, a fault of the source itself comes first: DESIGN CHOICE, log entry 117. -/
def execEngineCpLin (tb ta : Bool) (b a d : Reg) (s : State) : Out :=
  let r := s.cur
  let w := getRow s r
  let k := w.rstep - 1
  let src := getX s r a
  let dst := getX s r d
  let n := (getX s r b).toNat
  let i := cutStart src dst k
  let len := min n (cutStart src dst (k + 1)) - i
  let all8 := src.toNat % 8 == 0 && dst.toNat % 8 == 0 && n % 8 == 0
  let dst8 := match barTarget s r (bytePtr dst i) with
    | some (.row _ _ _) => dst.toNat % 8 != 0 || n % 8 != 0
    | some (.ctl _ _) => dst.toNat % 8 != 0 || n % 8 != 0
    | _ => false
  .next (holdGate s r (gate s r w.rstep [srcX d ta, srcX a ta, srcX b tb]
    (if 2 ^ 32 ≤ n then ill s r
     else if n ≤ i then retire s r 4
     else if dst8 then raise s r ⟨1, cALIGN, 0, 1, bytePtr dst i, 0⟩ (k + 1)
     else match check s (ctxOf s r) { rd := true, engine := true, ctlOk := all8 } (bytePtr src i) len false with
      | .error t => raise s r t (k + 1)
      | .ok ss =>
        match check s (ctxOf s r) { wr := true, code := 1, engine := true, ctlOk := all8 } (bytePtr dst i) len false with
        | .error t => raise s r t (k + 1)
        | .ok ds =>
          let sp := spanOf ss len
          let dp := spanOf ds len
          if shootPending s (asidOf s r.core) || decide (64 ≤ (getCl s (clOf r.core)).copyq.length) then toStep s r (k + 1)
          else
            let (ok, s0) := markEmpty s r dp len
            if !ok then toStep s0 r (k + 1)
            else
              let (id, s1) := fresh s0
              let cuts := fun (p : Part) => chunks (if onPage s p then 8 else 16) p.pa len (len / 8 + 2) 0
              let piece : CopyPiece := ⟨id, r, w.priv, partIx s r.core, sp, dp, len, cuts dp, fifoIds s r, false, [], cuts sp, []⟩
              let s2 := modCl s1 (clOf r.core) fun c => { c with copyq := c.copyq ++ [piece] }
              if n ≤ i + len then retire s2 r 4 else toStep s2 r (k + 2))))

/-! ## The distributor (R75, R76, R270) -/

/-- Is a pattern word legal (R75)? -/
def patternOk (e : Word) : Bool :=
  let cc := Wbits e 30 22
  Wbits e 63 32 == 0 && decide (1 ≤ cc) && decide (cc ≤ 320) && decide (Wbits e 3 0 ≤ 6) &&
  decide (Wbits e 12 4 + (cc - 1) * Wbits e 21 13 ≤ 319)

/-- Block size B. -/
def blockSize (e : Word) : Nat := 64 * 2 ^ Wbits e 3 0

/-- Memory and row-store address of block `j` (R76). -/
def blockAddr (e mv dv : Word) (j : Nat) : Word × Word :=
  let cc := Wbits e 30 22
  (mv + wNat (j * blockSize e), dv + wNat (0x1000000 * (j % cc * Wbits e 21 13) + j / cc * blockSize e))

/-- Number of pieces of a block: the parts within one page on both sides. -/
def blockCuts (e mv dv : Word) (j : Nat) : List Nat :=
  let (m, d) := blockAddr e mv dv j
  (List.range 4).filter fun k => decide (k = 0 ∨ cutStart m d k < blockSize e)

/-- Block and piece of step `k`, from block `j` on. -/
def pieceAt (e mv dv : Word) : (fuel j k : Nat) → Nat × Nat
  | 0, j, k => (j, k)
  | fuel + 1, j, k =>
    let n := (blockCuts e mv dv j).length
    if k < n then (j, k) else pieceAt e mv dv fuel (j + 1) (k - n)

/-- The memory part of a block, checked against the MTAG of MV (R42). -/
def distMem (out : Bool) (mv : Word) : Acc :=
  { rd := !out, wr := out, code := out.toNat, engine := true, dist := true, mtag := some (Wbits mv 59 56) }

/-- The row-store part of a block, checked against the MTAG of DV (R42). -/
def distRs (out : Bool) (dv : Word) : Acc :=
  { rd := out, wr := !out, code := (!out).toNat, engine := true, distRow := true, mtag := some (Wbits dv 59 56) }

/-- Check piece `c` of block `j`, its memory part and its row-store part (R76). -/
def distCheck (s : State) (r : RowId) (e mv dv : Word) (j c : Nat) : Except Trap (List Part × List Part) :=
  let (m, v) := blockAddr e mv dv j
  let out := e.getLsbD 31
  let i := cutStart m v c
  let len := min (blockSize e) (cutStart m v (c + 1)) - i
  match check s (ctxOf s r) (distMem out mv) (bytePtr m i) len false with
  | .error t => .error t
  | .ok ms =>
    match check s (ctxOf s r) (distRs out dv) (bytePtr v i) len false with
    | .error t => .error t
    | .ok vs => .ok (ms, vs)

/-- What R397, R76 and R61 refuse in a part of `n` bytes of a distributor block, by the region that its pointer translates to. The
tag window and holes have faults of their own. -/
def distTarget (s : State) (r : RowId) (a : Acc) (p : Word) (n : Nat) : Option Trap :=
  match barTarget s r p with
  | none => none
  | some .tagw => none
  | some rg =>
    if rangeAlign a p n rg then some ⟨1, cALIGN, 0, a.code, p, 0⟩
    else if distFail a rg then some ⟨4, cPERM, 0, a.code, p, 0⟩
    else match rg with
      | .row _ _ off => if a.wr then (engineFail off n).map fun k => ⟨4, cPERM, 0, a.code, bytePtr p k, 0⟩ else none
      | _ => none

/-- The fault of R397, R76 or R61 that a piece of block `j` after piece `c` raises: it leaves the whole block unperformed. -/
def blockFail (s : State) (r : RowId) (e mv dv : Word) (j c : Nat) : Option Trap :=
  let (m, v) := blockAddr e mv dv j
  let out := e.getLsbD 31
  ((blockCuts e mv dv j).filter fun k => decide (c < k)).findSome? fun k =>
    let i := cutStart m v k
    let n := min (blockSize e) (cutStart m v (k + 1)) - i
    match distTarget s r (distMem out mv) (bytePtr m i) n with
    | some t => some t
    | none => distTarget s r (distRs out dv) (bytePtr v i) n

/-- `engine.cp.dist`: a fault sets RSTEP to the step of the piece in turn, also where a later piece of its block is
refused (R61, R76, R270, R397). DEDUCED, log entry 94. -/
def execEngineCpDist (ex : BitVec 3) (tb ta : Bool) (b a d : Reg) (s : State) : Out :=
  let r := s.cur
  let w := getRow s r
  let e := getE s r ex.toNat
  let mv := getX s r a
  let dv := getX s r d
  let n := (getX s r b).toNat
  let size := blockSize e
  let out := e.getLsbD 31
  let k := w.rstep - 1
  let (j, c) := pieceAt e mv dv (k + 1) 0 k
  let (m, v) := blockAddr e mv dv j
  let i := cutStart m v c
  let len := min size (cutStart m v (c + 1)) - i
  let last := decide (n ≤ (j + 1) * size) && decide (size ≤ i + len)
  .next (holdGate s r (gate s r w.rstep [srcX d ta, srcX a ta, srcX b tb, srcE ex.toNat ta]
    (if 2 ^ 32 ≤ n ∨ patternOk e = false then ill s r
     else if dv.toNat % 64 ≠ 0 ∨ mv.toNat % 64 ≠ 0 ∨ n % size ≠ 0 then
      raise s r ⟨1, cALIGN, 0, 0, if dv.toNat % 64 = 0 ∧ mv.toNat % 64 ≠ 0 then mv else dv, 0⟩ (k + 1)
     else if n ≤ j * size then retire s r 4
     else match distCheck s r e mv dv j c, blockFail s r e mv dv j c with
      | .error t, _ => raise s r t (k + 1)
      | .ok _, some t => raise s r t (k + 1)
      | .ok (ms, vs), none =>
        let mp := spanOf ms len
        let vp := spanOf vs len
        if shootPending s (asidOf s r.core) then toStep s r (k + 1)
        else
          let (ok, s0) := if out then (true, s) else markEmpty s r vp len
          if !ok then toStep s0 r (k + 1)
          else
            let (id, s1) := fresh s0
            let piece : DistPiece := ⟨id, r, w.priv, partIx s r.core, out, mp, vp, len,
              chunks 16 mp.pa len (len / 16 + 2) 0, fifoIds s r, false, []⟩
            let s2 := modDie s1 (mp.pa / 0x1000 % 2) fun x => { x with distq := x.distq ++ [piece] }
            if last then retire s2 r 4 else toStep s2 r (k + 2))))

/-- `engine.cp.stat` (R271). -/
def execEngineCpStat (_tb _ta : Bool) (d : Reg) (s : State) : Out :=
  let r := s.cur
  let sat := fun (n : Nat) => min n 65535
  let v := 2 ^ 32 * (64 - (getCl s (clOf r.core)).copyq.length) + 2 ^ 16 * sat (distPieces s r) + sat (linPieces s r)
  .next (holdGate s r (retX s r d (wNat v) 4))

/-! ## Moving one part of a piece -/

/-- Have the row's older store entries left the FIFO (R73, R77)? -/
def olderLeft (s : State) (r : RowId) (after : List Nat) : Bool :=
  (getCore s r.core).fifo.all fun e => !after.contains e.id

/-- Must an engine wait at a part: its row is at no boundary (R56)? -/
def engineBusy (s : State) (p : Part) : Bool :=
  match region s p.pa with
  | .row q _ _ => rowBusy s q none
  | _ => false

/-- Must an engine's fill of a part wait for older producers of its row (R234)? -/
def pieceBehind (s : State) (r : RowId) (k id : Nat) (p : Part) : Bool :=
  match region s p.pa with
  | .row q _ off => (rowWords off p.n).any (fillBehind s r k id q)
  | _ => false

/-- Write bytes of piece `id` of a row's engine to a part: row-store words are filled and set full (R54), in the order of the
row's producers (R234), a control page takes words (R20), memory is written as a store of the row's die, with its line in the
signature (R96, R117); a swapped-out partition's part goes to its log (R272, R354); words of `skip` are left as they stand (R234).
False: it waits. -/
def engineWrite (s : State) (r : RowId) (k id : Nat) (priv : Bool) (skip : List Nat) (p : Part) (bs : List Byte) : Bool × State :=
  if pieceBehind s r k id p then (false, s)
  else match aimedPartOf s p, region s p.pa with
  | some (c, x), .row q _ off => logAdd s c x (.piece q off bs r k id p)
  | some (c, x), .ctl core off => logAdd s c x (.page core off bs priv id p)
  | some _, _ => (false, s)
  | none, .row q _ off => if rowBusy s q none then (false, s) else (true, fillWords s r k id skip q (off / 8) bs)
  | none, .ctl c off => (true, ctlWrites s c off priv bs (p.n / 8))
  | none, .peerAp _ _ => (true, memWrite s p.pa bs)
  | none, .tagw => (true, tagWrite s p.pa bs)
  | none, _ =>
    let (ok, t) := homeWrite (landFlights s (dieOf r.core) p) (dieOf r.core) false p bs
    (ok, if ok then sigInsert (guestUpdate t (dieOf r.core) p bs) r (lineL p) else t)

/-- Read the bytes of an aligned part as a plain load. -/
def engineRead (s : State) (r : RowId) (priv : Bool) (p : Part) : Rd × State :=
  if engineBusy s p then (.wait, s) else readPart s r priv 0 false p

/-- Append the read at offset `off` of a piece to the log of the partition it is aimed at, once (R354). DEDUCED, log entry 29. -/
def logRead (s : State) (core x id off : Nat) : State :=
  if (getPart s x).log.contains (.read id off) then s else (logAdd s core x (.read id off)).2

/-- An access of a piece meets a failed die or route: its row gets HOMELOST, and the piece ends (R374, R375). -/
def lostPiece (s : State) (r : RowId) (k : Nat) (p : Part) (acc : Nat) (drop : State → State) : State :=
  endAccess s r k ⟨cHOMELOST, p.va, acc, 0⟩ drop

/-- The read side of a piece's access, for a fresh walk. -/
def pieceRd : Acc := { rd := true, engine := true, ctlOk := true }
/-- The write side. -/
def pieceWr : Acc := { wr := true, code := 1, engine := true, ctlOk := true }

/-- A copy piece that has met an uncorrectable error in GDDR is checked and walked afresh before it goes on (R345). -/
def copyAgain (s : State) (cl i : Nat) (x : CopyPiece) : State :=
  match rewalk s x.row x.part x.priv pieceRd x.src, rewalk s x.row x.part x.priv pieceWr x.dst with
  | .error t, _ => rewalkFails s x.row x.part t
  | .ok _, .error t => rewalkFails s x.row x.part t
  | .ok src, .ok dst => modCl s cl fun c => { c with copyq := modNth (fun y => { y with src := src, dst := dst, cold := false }) c.copyq i }

/-- A distributor's piece likewise; it goes to the distributor of the die that its memory part now lies on (R76). -/
def distAgain (s : State) (die i : Nat) (x : DistPiece) : State :=
  match rewalk s x.row x.part x.priv (distMem x.out x.mem.va) x.mem, rewalk s x.row x.part x.priv (distRs x.out x.rs.va) x.rs with
  | .error t, _ => rewalkFails s x.row x.part t
  | .ok _, .error t => rewalkFails s x.row x.part t
  | .ok m, .ok v =>
    let t := modDie s die fun d => { d with distq := dropNth d.distq i }
    modDie t (m.pa / 0x1000 % 2) fun d => { d with distq := d.distq ++ [{ x with mem := m, rs := v, cold := false }] }

/-- A copy engine reads the part of a piece's source at offset `o`, at one instant (R73, R98). The read of a swapped-out
partition's bytes goes to its log, and is made at its replay, `now` (R354). -/
def copyRead (s : State) (cl i : Nat) (x : CopyPiece) (o n : Nat) (now : Bool) : State :=
  let src := subPart x.src o n
  if x.cold then copyAgain s cl i x
  else if lostFail s src.pa then lostPiece s x.row x.part x.src 0 fun t => modCl t cl fun c => { c with copyq := dropNth c.copyq i }
  else match (if now = true then none else aimedPartOf s src) with
  | some (c, y) => logRead s c y x.id o
  | none =>
    match engineRead s x.row x.priv src with
    | (.ok bs, t) =>
      bump (modCl t cl fun c => { c with copyq := modNth (fun y =>
        { y with unread := x.unread.filter fun z => z.1 ≠ o, got := x.got ++ [(o, bs)] }) c.copyq i }) x.row.core 4 1
    | (.wait, t) => t
    | (.memerr sub j, t) =>
      let u := if sub = 1 then modCl t cl fun c => { c with copyq := modNth (fun y => { y with cold := true }) c.copyq i } else t
      asyncFault u x.row x.part (memErrAt x.src.va sub (o + j) 0)

/-- A copy engine writes the part of a piece's destination at offset `off`, at one instant, from the bytes read (R73, R98); the
piece leaves the engine with its last part. -/
def copyWrite (s : State) (cl i : Nat) (x : CopyPiece) (off len : Nat) : State :=
  let dst := subPart x.dst off len
  let left := x.todo.filter fun y => y.1 ≠ off
  let cut := fun (todo : List (Nat × Nat)) (t : State) => modCl t cl fun c =>
    { c with copyq := if todo.isEmpty then dropNth c.copyq i else modNth (fun y => { y with todo := todo }) c.copyq i }
  if x.cold then copyAgain s cl i x
  else if lostFail s dst.pa then lostPiece s x.row x.part x.dst 1 (cut [])
  else
    let (ok, u) := engineWrite s x.row x.part x.id x.priv x.skip dst ((List.range len).map fun j => gotByte x.got (off + j))
    if ok then bump (bump (cut left u) x.row.core 7 len) x.row.core 4 1 else u

/-- A copy engine goes on with part `k` of the destination of piece `i`: it reads the parts of the source that the bytes come from,
then writes it (R73); the parts of a control page in ascending order (R20). -/
def copyStep (s : State) (cl i k : Nat) : State :=
  match (getCl s cl).copyq[i]? with
  | none => s
  | some x =>
    match x.todo[k]? with
    | none => s
    | some (off, len) =>
      if !olderLeft s x.row x.after ||
        (decide (k ≠ 0) && (onPage s (subPart x.src off len) || onPage s (subPart x.dst off len))) then s
      else match x.unread.find? (overlaps off len) with
      | some (o, n) => copyRead s cl i x o n false
      | none => copyWrite s cl i x off len

/-- A distributor moves chunk `k` of piece `i`: memory is GDDR itself, past every L2 copy; either way after the row's older
stores have left the FIFO (R77, R103). -/
def distStep (s : State) (die i k : Nat) (now : Bool) : State :=
  match (getDie s die).distq[i]? with
  | none => s
  | some x =>
    match x.todo[k]? with
    | none => s
    | some (off, len) =>
      let m := subPart x.mem off len
      let v := subPart x.rs off len
      let core := ((partCore s v).getD 0)
      let cut := fun (todo : List (Nat × Nat)) (q : List DistPiece) =>
        if todo.isEmpty then dropNth q i else modNth (fun y => { y with todo := todo }) q i
      let shorten := fun (todo : List (Nat × Nat)) (t : State) => modDie t die fun d => { d with distq := cut todo d.distq }
      let done := fun (t : State) => bump (shorten (x.todo.filter fun y => y.1 ≠ off) t) core 8 len
      if !olderLeft s x.row x.after then s
      else if x.cold then distAgain s die i x
      else if lostFail s m.pa then lostPiece s x.row x.part x.mem x.out.toNat (shorten [])
      else if lostFail s v.pa then lostPiece s x.row x.part x.rs (!x.out).toNat (shorten [])
      else if x.out then
        match (if now = true then none else aimedPartOf s v) with
        | some (c, y) => logRead s c y x.id off
        | none =>
          match engineRead s x.row x.priv v with
          | (.ok bs, t) => done (sigInsert (noteStore (gddrWrite (dirForce t m.pa) m.pa bs) m.pa len memWord32) x.row (lineL m))
          | (.wait, t) => t
          | (.memerr sub j, t) => asyncFault t x.row x.part (memErrAt x.rs.va sub (off + j) 0)
      else
        match gddrRead s m.pa len with
        | .ok bs =>
          let (ok, t) := engineWrite (dirForce s m.pa) x.row x.part x.id x.priv x.skip v bs
          if ok then done t else t
        | .wait => s
        | .memerr sub j =>
          asyncFault (modDie s die fun d => { d with distq := modNth (fun y => { y with cold := true }) d.distq i }) x.row x.part
            (memErrAt x.mem.va sub (off + j) 0)

end Sys2Proof.Machine
end

