-- ==== Sys2Proof/Machine/Cx8.lean ====
section
/-!
DEFINITION. The numbers of the matrix slice: CX8 blocks (R187, R188), group sums (R189) and the conversions of a drain
(R190).
-/

namespace Sys2Proof.Machine

/-! ## CX8 blocks -/

/-- The bits of a 16-bit unit, bit 15 first. -/
def unitBits (u : Nat) : List Bool := (List.range 16).map fun i => u.testBit (15 - i)

/-- The bits of a token area, unit by unit. -/
def areaBits : List Byte → List Bool
  | a :: b :: bs => unitBits (a.toNat + 256 * b.toNat) ++ areaBits bs
  | _ => []

/-- Take `n` bits, most significant first. -/
def takeBits : (n acc : Nat) → List Bool → Option (Nat × List Bool)
  | 0, acc, l => some (acc, l)
  | _ + 1, _, [] => none
  | n + 1, acc, b :: l => takeBits n (2 * acc + b.toNat) l

/-- Count the zero bits before the first 1. -/
def leadZeros : List Bool → Nat × List Bool
  | false :: l => let (n, r) := leadZeros l; (n + 1, r)
  | l => (0, l)

/-- One order-k token: its delta (R187). -/
def readToken (k : Nat) (l : List Bool) : Option (Nat × List Bool) :=
  let (z, r) := leadZeros l
  match takeBits (z + k + 1) 0 r with
  | some (v, r') => some (v - 2 ^ k, r')
  | none => none

/-- `n` tokens. -/
def readTokens (k : Nat) : Nat → List Bool → Option (List Nat × List Bool)
  | 0, l => some ([], l)
  | n + 1, l =>
    match readToken k l with
    | some (d, r) =>
      (match readTokens k n r with
        | some (ds, r') => some (d :: ds, r')
        | none => none)
    | none => none

/-- LEN of a block's header, in bytes (R187). -/
def cx8Bytes (bs : List Byte) : Nat := 2 * bitsOf (leNat (bs.take 2)) 8 1

/-- Nibble `i` of a block. -/
def nibble (bs : List Byte) (i : Nat) : Nat := (bs.getD (2 + i / 2) 0).toNat / (if i % 2 = 0 then 1 else 16) % 16

/-- An element as an E5M3 number: sign, exponent field and mantissa; it saturates above field 31 (R187). -/
def cx8Elem (base d nib : Nat) : Nat :=
  let e := base + d
  256 * (nib / 8) + (if 31 < e then 255 else e * 8 + nib % 8)

/-- The 32 elements of a block of `cx8Bytes` bytes, and whether it is malformed: then every element is +0 (R187). -/
def cx8Decode (bs : List Byte) : List Nat × Bool :=
  let h := leNat (bs.take 2)
  let len := bitsOf h 8 1
  let k := bitsOf h 10 9
  let area := areaBits (bs.drop 18)
  let good := match readTokens k 32 area with
    | some (ds, rest) =>
      if h % 2 = 0 ∧ (ds.all fun d => decide (d ≤ 31)) = true ∧ len = 9 + (area.length - rest.length + 15) / 16 then some ds
      else none
    | none => none
  match good with
  | some ds => (ds.zipIdx.map fun (d, i) => cx8Elem (bitsOf h 15 11) d (nibble bs i), false)
  | none => (List.replicate 32 0, true)

/-- An order-k token (R187). -/
def mkToken (k d : Nat) : List Bool :=
  let v := d + 2 ^ k
  let q := Nat.log2 v
  List.replicate (q - k) false ++ (List.range (q + 1)).map fun i => v.testBit (q - i)

/-- The tokens of a block. -/
def mkTokens (k : Nat) (ds : List Nat) : List Bool := ds.flatMap (mkToken k)

/-- The order with the fewest token bits, the lower on a tie (R188). -/
def bestOrder (ds : List Nat) : Nat :=
  [1, 2, 3].foldl (fun b k => if (mkTokens k ds).length < (mkTokens b ds).length then k else b) 0

/-- Bits packed into units of two bytes, bit 15 first, padded with zeros. -/
def packUnits : (fuel : Nat) → List Bool → List Byte
  | 0, _ => []
  | _ + 1, [] => []
  | n + 1, l =>
    let u := (l.take 16 ++ List.replicate (16 - l.length) false).foldl (fun a b => 2 * a + b.toNat) 0
    leBytes 2 u ++ packUnits n (l.drop 16)

/-- Encode 32 E5M3 numbers (R188). -/
def cx8Encode (cs : List Nat) : List Byte :=
  let es := cs.map fun c => c % 256 / 8
  let base := es.foldl min 31
  let ds := es.map fun e => e - base
  let k := bestOrder ds
  let bits := mkTokens k ds
  let len := 9 + (bits.length + 15) / 16
  let nib := fun (i : Nat) => let c := cs.getD i 0; c / 256 % 2 * 8 + c % 8
  leBytes 2 (2 ^ 11 * base + 2 ^ 9 * k + len * 2) ++
    ((List.range 16).map fun i => BitVec.ofNat 8 (nib (2 * i) + 16 * nib (2 * i + 1))) ++ packUnits 32 bits

/-! ## Group sums (R189) -/

/-- Formats by window code (R18): 1 BF16, 2 F16, 3 E4M3, 4 E5M2, 5 CX8 elements. -/
def winFmt (k : Nat) : Fmt :=
  match k with
  | 1 => bf16
  | 2 => f16
  | 3 => e4m3
  | 4 => e5m2
  | _ => e5m3

/-- Is a window code one of the integer formats I8, N8? -/
def winInt (k : Nat) : Bool := k == 6 || k == 7

/-- Bytes of an element of a window code. -/
def winSize (k : Nat) : Nat := if k = 1 ∨ k = 2 then 2 else 1

/-- May operands of two window codes be paired (R276)? -/
def pairOk (a b : Nat) : Bool :=
  (a == b && (a == 1 || a == 2)) || (decide (3 ≤ a) && decide (a ≤ 5) && decide (3 ≤ b) && decide (b ≤ 5)) ||
  (winInt a && winInt b)

/-- Is a value an infinity of a sign? -/
def FVal.isInf (x : FVal) (s : Bool) : Bool :=
  match x with
  | .inf t => t == s
  | _ => false

/-- The exact sum of finite values. -/
def sumAll : List FVal → FVal
  | [] => .num false 0 0
  | [x] => x
  | x :: xs => (sumVal .rne x (sumAll xs)).1

/-- One floating group: the accumulator plus the exact products, rounded once (R189). An accumulator that holds a signalling NaN
raises no NV here: DESIGN CHOICE, log entry 111. -/
def groupSum (acc : Nat) (fa fb : Fmt) (ps : List (Nat × Nat)) : FRes :=
  let vs := ps.map fun (a, b) => (unpack fa a, unpack fb b)
  let prods := vs.map fun (x, y) => mulVal x y
  let all := unpack f32 acc :: prods.map (·.1)
  let badProd := prods.any fun p => p.2
  let pos := all.any fun v => v.isInf false
  let neg := all.any fun v => v.isInf true
  let nan := all.any fun v => v.isNaN
  let nv := badProd || (pos && neg) || vs.any fun (x, y) => x.isS || y.isS
  withNV nv
    (if nan || (pos && neg) then (cnan f32, 0)
     else if pos then (infBits f32 false, 0)
     else if neg then (infBits f32 true, 0)
     else roundVal f32 .rne (sumAll all))

/-- The value of an integer operand: I8 signed, N8 unsigned. -/
def intOp (k v : Nat) : Int := if k = 6 then sInt 8 v else Int.ofNat (v % 256)

/-- One integer group: it saturates to 32 bits with OF, and so with NX (R182, R189). -/
def groupInt (acc ka kb : Nat) (ps : List (Nat × Nat)) : FRes :=
  let v := ps.foldl (fun t (a, b) => t + intOp ka a * intOp kb b) (sInt 32 acc)
  if v < -(2 ^ 31) then (2 ^ 31, flOF ||| flNX)
  else if 2 ^ 31 - 1 < v then (2 ^ 31 - 1, flOF ||| flNX)
  else (uNat 32 v, 0)

/-- The groups of one output element in increasing K order: 4 wide for 16-bit formats, else 8 (R189). -/
def macGroups (ka kb : Nat) : (fuel acc : Nat) → List (Nat × Nat) → FRes
  | 0, acc, _ => (acc, 0)
  | _ + 1, acc, [] => (acc, 0)
  | n + 1, acc, ps =>
    let g := if winSize ka = 2 then 4 else 8
    let (v, f1) := if winInt ka then groupInt acc ka kb (ps.take g) else groupSum acc (winFmt ka) (winFmt kb) (ps.take g)
    let (r, f2) := macGroups ka kb n v (ps.drop g)
    (r, f1 ||| f2)

/-! ## Drains (R190) -/

/-- Formats of a drain: 0 FP32, 1 BF16, 2 F16, 3 E4M3, 4 E5M2, 5 CX8, 6 I8, 7 N8 (R279). -/
def drainSize (f : Nat) : Nat :=
  match f with
  | 0 => 4
  | 1 => 2
  | 2 => 2
  | _ => 1

/-- The accumulator as an exact value. -/
def accVal (isrc : Bool) (v : Nat) : FVal := if isrc then ofInt (sInt 32 v) 0 else unpack f32 v

/-- Round into a format without infinities: overflow and infinities give the largest finite number (R190). -/
def drainSat (f : Fmt) (nan : FRes) : FVal → FRes
  | .nan sg => withNV sg nan
  | .inf s => (maxBits f s, flNV)
  | .num s m e =>
    if m = 0 then (signBit f s, 0)
    else
      let (c, fl) := roundCode f .rne s m e false
      (signBit f s + min c f.maxCode, fl)

/-- Convert one accumulator (R190). A CX8 element is given as its E5M3 number. An accumulator that holds a signalling NaN raises
NV (R182, R188): DESIGN CHOICE, log entry 111. -/
def drainElem (f : Nat) (isrc : Bool) (v : Nat) : FRes :=
  let x := accVal isrc v
  match f with
  | 0 => roundVal f32 .rne x
  | 1 => roundVal bf16 .rne x
  | 2 => roundVal f16 .rne x
  | 3 => drainSat e4m3 (0x7F, 0) x
  | 4 => roundVal e5m2 .rne x
  | 5 => drainSat e5m3 (0, flNV) x
  | _ =>
    let lo : Int := if f = 6 then -128 else 0
    let hi : Int := if f = 6 then 127 else 255
    let (r, fl) := if isrc then satInt (sInt 32 v) lo hi false else toInt f32 .rne lo hi v
    (uNat 8 r, fl)

/-- Blocks of 32 elements, encoded one after another. -/
def cx8Blocks : (fuel : Nat) → List Nat → List Byte
  | 0, _ => []
  | _ + 1, [] => []
  | n + 1, cs => cx8Encode (cs.take 32) ++ cx8Blocks n (cs.drop 32)

/-- Size of a drained row in bytes (R283). -/
def drainRowSize (f nc : Nat) : Nat := if f = 5 then 8 * ((50 * nc + 255) / 256) else nc * drainSize f

/-- The bytes of a drained row and its flags (R283). -/
def drainRow (f : Nat) (isrc : Bool) (accs : List Nat) : List Byte × FFlags :=
  let rs := accs.map (drainElem f isrc)
  let fl := rs.foldl (fun a r => a ||| r.2) 0
  if f = 5 then
    let bs := cx8Blocks 32 (rs.map (·.1))
    (bs ++ List.replicate (drainRowSize f accs.length - bs.length) 0, fl)
  else (rs.flatMap fun r => leBytes (drainSize f) r.1, fl)

end Sys2Proof.Machine
end

