-- ==== Sys2Proof/Machine/Matrix.lean ====
section
/-!
DEFINITION. The joint matrix array: `engine.mx.gang`, `engine.mx.stat`, `engine.mx.abort` and the steps of a gang
(R275-R297). A step that takes many rows of operands or results performs them part by part, so that other agents may
come between (R297).
-/

namespace Sys2Proof.Machine

/-! ## Engine accesses (R42, R65, R280, R303) -/

/-- What an engine's access answers. -/
inductive Got (α : Type) where
  | ok (a : α)
  | wait
  | fault (f : EngFault)

/-- The fault that a trap gives an engine. -/
def Trap.held (t : Trap) : EngFault := ⟨t.cause, t.fva, t.acc, t.sub⟩

/-- The trap a held fault raises. -/
def EngFault.trap (f : EngFault) : Trap := ⟨0, f.cause, f.sub, f.acc, f.fva, 0⟩

/-- Read parts in ascending order as plain loads at the slices, within an event of the engine's (R354, R374). -/
def engParts (s : State) (who : Asker) (acc : Nat) (va : Word) : List Part → Got (List Byte) × State
  | [] => (.ok [], s)
  | p :: ps =>
    if engineBusy s p then (.wait, s)
    else match askRead s who (getRow s who.row).priv 0 false p with
      | (.ok bs, t) =>
        (match engParts (bump t who.row.core 4 1) who acc va ps with
          | (.ok cs, u) => (.ok (bs ++ cs), u)
          | x => x)
      | (.wait, t) => (.wait, t)
      | (.memerr sub i, t) => (.fault (memErrTrap (bytePtr va p.pos) sub i acc).held, t)

/-! ## The sequencer -/

/-- A core's sequencer. -/
def getMx (s : State) (core : Nat) : MxSeq := (getCore s core).mx

/-- Change a core's sequencer. -/
def modMx (s : State) (core : Nat) (f : MxSeq → MxSeq) : State := modCore s core fun c => { c with mx := f c.mx }

/-- The row that joined at a core. -/
def mxRow (s : State) (core : Nat) : RowId := ⟨core, (getMx s core).row⟩

/-- The gang of a core's row as an asker (R354). -/
def mxAsker (s : State) (core : Nat) : Asker := ⟨mxRow s core, partIx s core, 1, (getMx s core).since⟩

/-- Check and read `n` bytes at `va` for a core's sequencer, against the MTAG of the pointer `base` that it was given (R42). -/
def engRead (s : State) (core : Nat) (base va : Word) (n : Nat) : Got (List Byte) × State :=
  match check s (ctxOf s (mxRow s core)) { rd := true, engine := true, mtag := some (Wbits base 59 56) } va n false with
  | .error t => if t.waits then (.wait, walkWaits s t) else (.fault t.held, s)
  | .ok ps =>
    match engParts s (mxAsker s core) 0 va ps with
    | (.ok bs, t) => (.ok bs, dropAnswers t (mxAsker s core))
    | x => x

/-- STATE code (R292). -/
def MxSt.code : MxSt → Nat
  | .idle => 0
  | .joining => 1
  | .prefetch => 2
  | .permit => 3
  | .running => 4
  | .held => 5
  | .finishing => 6

/-- May a sequencer perform a step in state `st`: in it, or held from it with a retry allowed (R294)? -/
def MxSeq.active (m : MxSeq) (st : MxSt) : Bool := m.st == st || (m.st == .held && m.held.isNone && m.back == st)

/-- Hold a sequencer's step on a fault, with nothing of it performed, and fill D with 8 (R294). -/
def holdMx (s : State) (core : Nat) (f : EngFault) : State :=
  let m := getMx s core
  let s1 := modMx s core fun m =>
    { m with back := if m.st = .held then m.back else m.st, st := .held, held := some f, raised := false, sub := 0,
             elems := [], part := [], page := none, bad := false, prev := [], pop := 0, stuck := false }
  statusFill s1 ⟨core, m.row⟩ m.since (32 + m.d) 8

/-- A step is done: go to the next. -/
def advance (s : State) (core : Nat) : State :=
  modMx s core fun m =>
    { m with st := .running, step := m.step + 1, cur := none, sub := 0, elems := [], part := [], page := none, bad := false, tgt := [],
             stuck := false }

/-- A place cannot go on with its step for now (R295). -/
def stickMx (s : State) (core : Nat) : State := modMx s core fun m => { m with stuck := true }

/-- `engine.mx.stat` (R291). -/
def mxStat (s : State) (core : Nat) : Word :=
  let m := getMx s core
  wNat (2 ^ 44 * (m.step % 2 ^ 20) + 2 ^ 32 * min m.skipg 4095 + 2 ^ 24 * m.est + 2 ^ 16 * m.last + core % 8 * 16 + m.st.code)

/-! ## Almanacs (R278, R279) -/

/-- KT: rows of K in a full tile (R275). -/
def ktOf (fmt : Nat) : Nat := if winSize fmt = 2 then 64 else 128

/-- Is a step malformed: another KIND, a reserved bit, a field outside its limits, an END out of place (R279, R283)? -/
def stepBad (i nstep : Nat) (w0 w1 : Word) : Bool :=
  let zero := fun (hi lo : Nat) => Wbits w0 hi lo == 0
  match Wbits w0 3 0 with
  | 1 => !(zero 63 47 && zero 39 32 && zero 15 15 && zero 11 11 && zero 7 7 && !zero 31 16 &&
      (zero 10 8 || decide (Wbits w0 46 40 < ktOf (Wbits w0 10 8))))
  | 2 => !(zero 63 56 && zero 39 39 && zero 15 5 && w1 == 0)
  | 3 => !(zero 63 4 && w1 == 0)
  | 4 =>
    let nc := Wbits w0 28 18
    !(zero 63 48 && zero 31 29 && Wbits w0 47 32 % 8 == 0 && nc % 32 == 0 && decide (32 ≤ nc) &&
      Wbits w0 17 8 % 32 == 0 && decide (Wbits w0 17 8 + nc ≤ 1024) &&
      decide (drainRowSize (Wbits w0 6 4) nc ≤ Wbits w0 47 32))
  | 5 => !(zero 63 26 && zero 15 4 && decide (Wbits w0 25 16 ≤ 512) && w1 == 0)
  | 15 => !(zero 63 4 && w1 == 0 && i + 1 == nstep)
  | _ => true

/-- What reaching a step answers. -/
inductive StepGot where
  | step (w0 w1 : Word)
  | bad
  | wait
  | fault (f : EngFault)

/-- Read the header: NSTEP and MACS. -/
def readHdr (s : State) (core : Nat) : Got (Nat × Nat) × State :=
  match engRead s core (getMx s core).almanac (getMx s core).almanac 8 with
  | (.ok bs, t) => (.ok (leNat (bs.take 4), leNat (bs.drop 4)), t)
  | (.wait, t) => (.wait, t)
  | (.fault f, t) => (.fault f, t)

/-- Read step `i` of an almanac of `nstep` steps. -/
def readStep (s : State) (core nstep i : Nat) : StepGot × State :=
  if nstep = 0 ∨ 2 ^ 20 < nstep ∨ nstep ≤ i then (.bad, s)
  else match engRead s core (getMx s core).almanac ((getMx s core).almanac + wNat (0x20 + 16 * i)) 16 with
    | (.ok bs, t) =>
      let w0 := wNat (leNat (bs.take 8))
      let w1 := wNat (leNat (bs.drop 8))
      (if stepBad i nstep w0 w1 then .bad else .step w0 w1, t)
    | (.wait, t) => (.wait, t)
    | (.fault f, t) => (.fault f, t)

/-- The step a place stands at: read when it is reached, then kept until it is done; a read that succeeds at a retry ends
HELD (R292). -/
def reachStep (s : State) (core : Nat) : StepGot × State :=
  let m := getMx s core
  match m.cur with
  | some (w0, w1) => (.step w0 w1, s)
  | none =>
    match readStep s core (m.hdr.getD (0, 0)).1 m.step with
    | (.step w0 w1, t) => (.step w0 w1, modMx t core fun m =>
        { m with cur := some (w0, w1), st := if m.st = .held then m.back else m.st })
    | x => x

/-- Perform `act` when the place is RUNNING at a step of kind `kind` in a group that is not skipped; a malformed step ends
the gang, a fault holds the place (R279, R284, R294). -/
def atStep (s : State) (core kind : Nat) (act : State → Word → Word → State) : State :=
  if !(getMx s core).active .running then s
  else match reachStep s core with
    | (.step w0 w1, t) =>
      if Wbits w0 3 0 = kind ∧ ((getMx t core).gm ≠ 0 ∨ kind = 5 ∨ kind = 15) then act t w0 w1 else t
    | (.bad, t) => endGang t (clOf core) 3
    | (.wait, t) => stickMx t core
    | (.fault f, t) => holdMx t core f

/-! ## Starting (R287-R290, R293) -/

/-- `engine.mx.gang` (R288). A held step whose fault has been raised is retried, also where another agent sets D full meanwhile. -/
def execEngineMxGang (_tb ta : Bool) (a d : Reg) (s : State) : Out :=
  let r := s.cur
  let w := getRow s r
  let m := getMx s r.core
  let p := getX s r a
  let mine := decide (m.st = .held) && decide (m.row = r.row)
  .next (
    if w.rstep = 2 then
      let s0 := if mine && (m.raised || m.held.isNone) then
          modRow (setEmpty (modMx s r.core fun m => { m with held := none, raised := false }) r (xw d)) r fun w =>
            { w with marked := [rowWord r (xw d)] }
        else s
      if isEmpty s0 r (xw d) then block s0 r (xw d)
      else soundGate s0 r 2 (xw d) (
        if getX s0 r d = 8 then
          match (if mine then m.held else none) with
          | some f => raise (modMx s0 r.core fun m => { m with raised := true }) r f.trap 2
          | none => retX s0 r d (wNat m.last) 4
        else retire s0 r 4)
    else holdGate s r (gate s r 0 [srcX a ta]
      (if p.toNat % 64 ≠ 0 then raise s r ⟨1, cALIGN, 0, 0, p, 0⟩ 0
       else match check s (ctxOf s r) { rd := true } p 32 false with
        | .error t => raise s r t 0
        | .ok _ =>
          if !dieDone s r (partIx s r.core) s.nextId then s
          else if m.st ≠ .idle then retX s r d 1 4
          else
            let s1 := modMx (setEmpty (fresh s).2 r (xw d)) r.core fun m =>
              { st := .joining, row := r.row, d := d.toNat, almanac := p, last := m.last, since := s.nextId }
            let s2 := stopEmber s1 (clOf r.core)
            modRow s2 r fun w => { w with rstep := 2, marked := [rowWord r (xw d)] })))

/-- `engine.mx.stat` (R291). -/
def execEngineMxStat (_tb _ta : Bool) (d : Reg) (s : State) : Out :=
  let r := s.cur
  .next (holdGate s r (retX s r d (mxStat s r.core) 4))

/-- `engine.mx.abort` (R293). -/
def execEngineMxAbort (_tb _ta : Bool) (d : Reg) (s : State) : Out :=
  let r := s.cur
  let cl := clOf r.core
  .next (holdGate s r (
    let v := mxStat s r.core
    retX (if gangIdle s cl then s else endGang s cl 5) r d v 4))

/-- GANG_BARRIER: all eight places have joined; they compare their pointers (R290). DEDUCED, log entry 37. -/
def execGangBarrier (cl : Nat) (s : State) : Out :=
  let cs := coresOf cl
  let p := (getMx s (cl * 8)).almanac
  .next (
    if cl < 40 ∧ (cs.all fun n => (getMx s n).st == .joining) = true then
      if cs.all fun n => (getMx s n).almanac == p then
        cs.foldl (fun t n => modMx t n fun m => { m with st := .prefetch }) s
      else endGang s cl 2
    else s)

/-! ## Tiles (R277, R280) -/

/-- Elements of `w` bytes. -/
def elemsOf (w n : Nat) (bs : List Byte) : List Nat := (List.range n).map fun j => laneGet w bs j

/-- Bytes that `n` CX8 blocks take, as far as the bytes read so far tell (R187). -/
def blocksNeed : (n : Nat) → List Byte → Nat
  | 0, _ => 0
  | n + 1, bs =>
    let len := if bs.length < 2 then 2 else cx8Bytes bs
    if bs.length < max 2 len then max 2 len else len + blocksNeed n (bs.drop len)

/-- Elements of `n` CX8 blocks, and whether one was malformed (R187). -/
def blocksDecode : (n : Nat) → List Byte → List Nat × Bool
  | 0, _ => ([], false)
  | n + 1, bs =>
    let len := cx8Bytes bs
    let (es, bad) := cx8Decode (bs.take (max 2 len))
    let (es', bad') := blocksDecode n (bs.drop len)
    (es ++ es', bad || bad')

/-- Bytes that a row of `kb` elements takes, as far as the bytes read so far tell (R277). -/
def rowNeed (fmt kb : Nat) (bs : List Byte) : Nat := if fmt = 5 then blocksNeed ((kb + 31) / 32) bs else kb * winSize fmt

/-- The `kb` elements of a row, and whether a block was malformed (R187, R277). -/
def rowDecode (fmt kb : Nat) (bs : List Byte) : List Nat × Bool :=
  if fmt = 5 then
    let (es, bad) := blocksDecode ((kb + 31) / 32) bs
    (es.take kb, bad)
  else (elemsOf (winSize fmt) kb bs, false)

/-- The format of a tile: BFMT, or the window of a source in a core aperture; none when there is no such window (R279). DEDUCED, log entry 39. -/
def tileFmt (s : State) (core : Nat) (w0 w1 : Word) : Option Nat :=
  if Wbits w0 10 8 ≠ 0 then some (Wbits w0 10 8)
  else match barTarget s (mxRow s core) w1 with
    | some (.row _ win _) => some win
    | _ => none

/-- Set BADBLK (R191). -/
def orBadBlk (s : State) (core : Nat) (b : Bool) : State :=
  if b then modCore s core fun c => { c with mxflags := c.mxflags ||| 32#6 } else s

/-- Bits of two byte lists that differ. DESIGN CHOICE, log entry 35. -/
def diffBits (a b : List Byte) : Nat :=
  (a.zip b).foldl (fun n (x, y) => n + ((List.range 8).filter fun i => (x ^^^ y).getLsbD i).length) 0

/-- A row of a tile has been read whole: it is decoded, and its first 128 bytes count for the estimate (R277, R290). A malformed
block is noted until the tile is complete, since a held step has performed nothing (R294). -/
def tileRow (s : State) (core fmt : Nat) (bs : List Byte) : State :=
  let (es, bad) := rowDecode fmt 128 bs
  let raw := (bs ++ List.replicate 128 0).take 128
  modMx s core fun m =>
    { m with sub := m.sub + 1, elems := m.elems ++ es, part := [], prev := raw, bad := m.bad || bad,
             pop := (if m.sub = 0 then 0 else m.pop) +
               (if decide (m.sub ≠ 0) && decide (m.sub < 16) then diffBits m.prev raw else 0) }

/-- Is the source of a LOAD_B with BFMT 0 outside the row windows of a core aperture (R279, R280)? -/
def tileOut (s : State) (core : Nat) (w0 va : Word) : Bool :=
  Wbits w0 10 8 == 0 && (match barTarget s (mxRow s core) va with
    | some (.row _ _ _) => false
    | _ => true)

/-- Pointer of the next byte of a tile to be read: byte `part` of row `sub`. -/
def tileVa (m : MxSeq) (w0 w1 : Word) : Word := w1 + wNat (m.sub * Wbits w0 31 16 + m.part.length)

/-- The bytes of `n` bytes at `a` that lie in page `vpn`, where they are not more than a page: pointer and length. -/
def inPage (vpn : Nat) (a : Word) (n : Nat) : List (Word × Nat) :=
  let o := a.toNat % 0x1000
  if Wbits a 55 12 = vpn then [(a, min n (0x1000 - o))]
  else if Wbits (bytePtr a (n - 1)) 55 12 = vpn then [(bytePtr a (0x1000 - o), n - (0x1000 - o))]
  else []

/-- The bytes still to be read of a tile of format `fmt` that lie in page `vpn`, row by row; of a CX8 stream those of the row in
hand that are known so far: DESIGN CHOICE, log entry 119. -/
def tileSegs (m : MxSeq) (fmt : Nat) (w0 w1 : Word) (vpn : Nat) : List (Word × Nat) :=
  inPage vpn (tileVa m w0 w1) (rowNeed fmt 128 m.part - m.part.length) ++
  if fmt = 5 then []
  else (List.range' (m.sub + 1) (Wbits w0 46 40 - m.sub)).flatMap fun i =>
    inPage vpn (w1 + wNat (i * Wbits w0 31 16)) (rowNeed fmt 128 [])

/-- The faults of a list of checks. -/
def trapsOf : List (Except Trap (List Part)) → List Trap
  | [] => []
  | .error t :: xs => t :: trapsOf xs
  | .ok _ :: xs => trapsOf xs

/-- The parts of checks that all succeeded. -/
def okParts : List (Except Trap (List Part)) → List (List Part)
  | [] => []
  | .error _ :: xs => okParts xs
  | .ok ps :: xs => ps :: okParts xs

/-- Check all bytes of a tile in the page of the next byte, and translate the page: the byte's part (R38-R42, R74, R280). -/
def tilePage (s : State) (core fmt : Nat) (w0 w1 : Word) : Except Trap Part :=
  let m := getMx s core
  let a : Acc := { rd := true, engine := true, mtag := some (Wbits w1 59 56) }
  let cs := (tileSegs m fmt w0 w1 (Wbits (tileVa m w0 w1) 55 12)).map fun x => check s (ctxOf s (mxRow s core)) a x.1 x.2 false
  match laneFault (trapsOf cs) with
  | some t => .error t
  | none => .ok (spanOf ((okParts cs).headD []) 1)

/-- The part of up to `n` bytes at `va`, in a page that has been translated. -/
def pagePart (p : Part) (va : Word) (n : Nat) : Part :=
  { p with va := va, pa := alignDown p.pa 0x1000 + va.toNat % 0x1000, n := min n (16 - va.toNat % 16), pos := 0 }

/-- Read the next part of the row in hand of a tile, of up to 16 bytes, through the translated page `p`; `done` takes the whole tile
(R280, R290, R297). DESIGN CHOICE, log entry 40. A CX8 stream at an odd address is read as it stands there: DESIGN CHOICE, log
entry 110. -/
def tileRead (s : State) (core fmt : Nat) (w0 w1 : Word) (p : Part) (done : State → Latch → State) : State :=
  let m := getMx s core
  let va := tileVa m w0 w1
  match engParts s (mxAsker s core) 0 va [pagePart p va (rowNeed fmt 128 m.part - m.part.length)] with
  | (.fault f, t) => holdMx t core f
  | (.wait, t) => stickMx (modMx t core fun m => { m with fmt := fmt, page := some p }) core
  | (.ok bs, t) =>
    let got := m.part ++ bs
    let t1 := modMx (dropAnswers t (mxAsker s core)) core fun m => { m with fmt := fmt, part := got, page := some p, stuck := false }
    let t2 := if got.length < rowNeed fmt 128 got then t1 else tileRow t1 core fmt got
    if rowNeed fmt 128 got ≤ got.length ∧ m.sub = Wbits w0 46 40 then
      done (orBadBlk t2 core (getMx t2 core).bad) ⟨fmt, m.sub + 1, Wbits w0 14 12, 0, (getMx t2 core).elems⟩
    else modMx t2 core fun m => if Wbits (tileVa m w0 w1) 55 12 = Wbits va 55 12 then m else { m with page := none }

/-- Go on with the tile of a LOAD_B: with the page in hand; or with a new one, which is checked whole before a byte of it is read,
once no shootdown of the context is pending (R74, R279, R280). -/
def tileStep (s : State) (core : Nat) (w0 w1 : Word) (done : State → Latch → State) : State :=
  let m := getMx s core
  let cl := clOf core
  let va := tileVa m w0 w1
  match m.page with
  | some p => tileRead s core m.fmt w0 w1 p done
  | none =>
    if shootPending s (asidOf s core) then stickMx s core
    else match check s (ctxOf s (mxRow s core)) { rd := true, engine := true, mtag := some (Wbits w1 59 56) } va 1 false with
    | .error t => if t.waits then stickMx (walkWaits s t) core else holdMx s core t.held
    | .ok _ =>
      match (if m.sub = 0 ∧ m.part = [] then tileFmt s core w0 w1 else some m.fmt) with
      | none => endGang s cl 3
      | some fmt =>
        if tileOut s core w0 va then endGang s cl 3
        else if fmt = 0 then endGang s cl 4
        else if ktOf fmt ≤ Wbits w0 46 40 then endGang s cl 3
        else match tilePage s core fmt w0 w1 with
          | .error t => if t.waits then stickMx (walkWaits s t) core else holdMx s core t.held
          | .ok p =>
            let (id, s1) := fresh s
            tileRead (modMx s1 core fun m => { m with pageId := id }) core fmt w0 w1 p done

/-! ## The prefetch and the permit (R290, R380) -/

/-- The first LOAD_B that is performed: not one of a zero-size group, nor one after a step that ends the gang. DESIGN CHOICE, log entry 34. -/
def scanLoad (s : State) (core nstep : Nat) : (fuel i : Nat) → (skip : Bool) → Got (Option (Nat × Word × Word)) × State
  | 0, _, _ => (.ok none, s)
  | fuel + 1, i, skip =>
    match readStep s core nstep i with
    | (.step w0 w1, t) =>
      (match Wbits w0 3 0 with
        | 1 => if skip then scanLoad t core nstep fuel (i + 1) skip else (.ok (some (i, w0, w1)), t)
        | 5 => scanLoad t core nstep fuel (i + 1) (Wbits w0 25 16 == 0)
        | 15 => (.ok none, t)
        | _ => scanLoad t core nstep fuel (i + 1) skip)
    | (.bad, t) => (.ok none, t)
    | (.wait, t) => (.wait, t)
    | (.fault f, t) => (.fault f, t)

/-- est of a tile (R290). -/
def estOf (kb pop : Nat) : Nat :=
  let p := min kb 16 - 1
  if p = 0 then 0 else 255 * pop / (1024 * p)

/-- The estimate is known: every place waits for the permit, which is requested (R290). -/
def askPermit (s : State) (cl est : Nat) : State :=
  let macs := ((getMx s (cl * 8)).hdr.getD (0, 0)).2
  let s1 := (coresOf cl).foldl (fun t n => modMx t n fun m =>
    { m with st := .permit, est := est, step := 0, cur := none, sub := 0, elems := [], part := [], page := none, bad := false, prev := [],
             pop := 0, stuck := false }) s
  let (id, s2) := fresh s1
  modCl s2 cl fun c => { c with reqs := c.reqs ++ [⟨(macs * (64 + est) + 63) / 64, est, none, id, 0⟩] }

/-- Place 0 reads the header and looks for the first LOAD_B, whose place goes on alone (R290, R292). -/
def prefetchScan (s : State) (cl : Nat) : State :=
  let lead := cl * 8
  match readHdr s lead with
  | (.fault f, t) => holdMx t lead f
  | (.wait, t) => t
  | (.ok h, t) =>
    match scanLoad t lead h.1 (h.1 % 2 ^ 21 + 1) 0 false with
    | (.fault f, u) => holdMx u lead f
    | (.wait, u) => u
    | (.ok x, u) =>
      let u1 := (coresOf cl).foldl (fun v n => modMx v n fun m => { m with hdr := some h }) u
      match x with
      | none => askPermit u1 cl 0
      | some (i, w0, w1) =>
        let q := lead + Wbits w0 6 4
        (coresOf cl).foldl (fun v n => modMx v n fun m =>
          if n = q then { m with st := .prefetch, step := i, cur := some (w0, w1) } else { m with st := .permit }) u1

/-- PREFETCH: the first LOAD_B's place fetches its tile, row by row; then the estimate and the request (R290). -/
def execPrefetch (cl : Nat) (s : State) : Out :=
  let lead := cl * 8
  let place := (coresOf cl).filter fun n => (getMx s n).active .prefetch && (getMx s n).cur.isSome
  .next (
    if cl < 40 then
      match place with
      | n :: _ =>
        (match (getMx s n).cur with
          | some (w0, w1) =>
            tileStep s n w0 w1 fun t l =>
              askPermit (modMx t n fun m => { m with tile := some (m.step, l) }) cl (estOf l.rows (getMx t n).pop)
          | none => s)
      | [] => if (getMx s lead).active .prefetch then prefetchScan s cl else s
    else s)

/-- PERMIT_GRANT: the cluster Damper grants the first request; a gang starts at step 0 on all eight places, an edge engine
may form the batches of its chunk (R290, R316, R380). -/
def execPermitGrant (cl : Nat) (s : State) : Out :=
  .next (
    if cl < 40 then
      match grantPermit s cl with
      | (some q, t) =>
        (match q.core with
          | some n => modCore t n fun c => { c with edge := { c.edge with granted := true } }
          | none =>
            modCl ((coresOf cl).foldl (fun u n => modMx u n fun m => { m with st := .running, step := 0 }) t) cl fun c =>
              { c with permit := true })
      | (none, t) => t
    else s)

/-! ## Steps (R280-R285) -/

/-- MR(q): result rows of a place (R275). -/
def mrOf (gm q : Nat) : Nat := min 64 (gm - 64 * q)

/-- LOAD_B (R280). -/
def execLoadB (core : Nat) (s : State) : Out :=
  .next (atStep s core 1 fun t w0 w1 =>
    let m := getMx t core
    if Wbits w0 6 4 ≠ core % 8 then advance t core
    else
      let take := fun (u : State) (l : Latch) =>
        advance (modCore u core fun c => { c with latch := some l, mx := { c.mx with tile := none } }) core
      match m.tile with
      | some (i, l) => if i = m.step then take t l else tileStep t core w0 w1 take
      | none => tileStep t core w0 w1 take)

/-- Bytes of the core's own row store at an RSA (R278); the offset wraps within the window. DEDUCED, log entry 38. -/
def rsaBytes (s : State) (core rsa : Nat) : Nat → List Byte
  | 0 => []
  | n + 1 => rowByte s ⟨core, rsa / 0x1000 % 256⟩ (rsa % 0x1000) :: rsaBytes s core (rsa + 1) n

/-- Is one of `n` bytes at an RSA in a poisoned word (R296)? -/
def rsaPoison (s : State) (core rsa n : Nat) : Bool :=
  (List.range n).any fun k =>
    let a := rsa + k
    isPoison s ⟨core, a / 0x1000 % 256⟩ (a % 0x1000 / 8)

/-- Accumulator word `i` of a core (R275). -/
def accGet (c : Core) (i : Nat) : Nat :=
  smGet (match c.accFree with
    | some b => (Config.freeValue (b + i)).toNat % 2 ^ 32
    | none => 0) c.acc i

/-- Write accumulator words from index `i` on. -/
def accPut (m : SMap Nat) (i : Nat) : List Nat → SMap Nat
  | [] => m
  | v :: vs => accPut (smPut m i v) (i + 1) vs

/-- One result row of a MAC: the 128 columns of the latch's block (R281). -/
def macRow (c : Core) (l : Latch) (fa i : Nat) (z : Bool) (as : List Nat) : List Nat × FFlags :=
  let rs := (List.range 128).map fun n =>
    let acc := if z then 0 else accGet c (1024 * i + 128 * l.tag + n)
    macGroups fa l.fmt 128 acc (as.zipIdx.map fun (a, k) => (a, l.elems.getD (128 * k + n) 0))
  (rs.map (·.1), rs.foldl (fun f r => f ||| r.2) 0)

/-- Read the next 16-byte part of a row of A at the row's bank (R297), at an odd address too (log entry 110). -/
def aPart (s : State) (core rsa need : Nat) : State :=
  let m := getMx s core
  let q := (rsa + m.part.length) % 2 ^ 20
  let n := min (need - m.part.length) (16 - q % 16)
  if rowBusy s ⟨core, q / 0x1000 % 256⟩ none then stickMx s core
  else if rsaPoison s core q n then endGang s (clOf core) 9
  else modMx s core fun m => { m with part := m.part ++ rsaBytes s core q n, stuck := false }

/-- Does one of `n` accumulator words from index `i` on have an uncorrectable error that no gang has met (R296)? -/
def accError (c : Core) (i n : Nat) : Bool := c.accBad.any fun k => decide (i ≤ k) && decide (k < i + n)

/-- MAC: one result row at a time, its row of A part by part (R276, R281, R297); it ends with MEMERR where it reads an accumulator
word with an uncorrectable error, and writes such a word sound (R296). -/
def execMac (core : Nat) (s : State) : Out :=
  let cl := clOf core
  .next (atStep s core 2 fun t w0 _ =>
    let m := getMx t core
    let mr := mrOf m.gm (core % 8)
    let finish := fun (u : State) => advance (modMx u core fun m => { m with macs := m.macs + 1 }) core
    if (m.hdr.getD (0, 0)).2 ≤ m.macs then endGang t cl 3
    else match (getCore t core).latch with
      | none => finish t
      | some l =>
        if mr = 0 then finish t
        else
          let fa := Wbits w0 38 36
          if fa = 0 ∨ pairOk fa l.fmt = false then endGang t cl 4
          else
            let rsa := (Wbits w0 35 16 + m.sub * Wbits w0 55 40) % 2 ^ 20
            let need := rowNeed fa l.rows m.part
            if m.part.length < need then aPart t core rsa need
            else
              let (as, bad) := rowDecode fa l.rows m.part
              let i := 1024 * m.sub + 128 * l.tag
              let (vs, fl) := macRow (getCore t core) l fa m.sub (w0.getLsbD 4) as
              if !w0.getLsbD 4 && accError (getCore t core) i 128 then endGang t cl 9
              else
                let u := orBadBlk (orMx (modCore t core fun c =>
                  { c with acc := accPut c.acc i vs, accBad := c.accBad.filter fun k => !(decide (i ≤ k) && decide (k < i + 128)) })
                  core fl) core bad
                if m.sub + 1 = mr then finish u else modMx u core fun m => { m with sub := m.sub + 1, part := [] })

/-- Reach the step at a place that is RUNNING, for the ring. -/
def reachRing (s : State) (core : Nat) : State :=
  if !(getMx s core).active .running then s
  else match reachStep s core with
    | (.step _ _, t) => t
    | (.bad, t) => endGang t (clOf core) 3
    | (.wait, t) => t
    | (.fault f, t) => holdMx t core f

/-- Does a place stand at a ROTATE of a group that is not skipped? -/
def atRotate (m : MxSeq) : Bool :=
  m.active .running && decide (m.gm ≠ 0) && (match m.cur with
    | some (w0, _) => Wbits w0 3 0 == 3
    | none => false)

/-- Do all eight places stand at the same ROTATE, so that the ring can move (R282)? -/
def ringReady (s : State) (cl : Nat) : Bool :=
  (coresOf cl).all fun n => atRotate (getMx s n) && (getMx s n).step == (getMx s (cl * 8)).step

/-- The latches after one ring step: place q takes that of place q - 1, one hop further, unless it has made 8 (R282). -/
def ringMove (s : State) (cl : Nat) : State :=
  let old := fun (q : Nat) => (getCore s (cl * 8 + (q + 7) % 8)).latch
  (List.range 8).foldl (fun t q =>
    modCore t (cl * 8 + q) fun c => { c with latch := match old q with
      | some l => if l.hops + 1 = 8 then none else some { l with hops := l.hops + 1 }
      | none => none }) s

/-- ROTATE: the ring moves once all eight places have reached the same ROTATE (R282). -/
def execRotate (cl : Nat) (s : State) : Out :=
  .next (
    if cl < 40 then
      let t := (coresOf cl).foldl reachRing s
      if ringReady t cl then
        modCl ((coresOf cl).foldl advance (ringMove t cl)) cl fun c => { c with dog := 0 }
      else t
    else s)

/-- The parts of row `i` of a drain's target, checked as stores (R283). -/
def drainParts (s : State) (core : Nat) (w0 w1 : Word) (i : Nat) : Except Trap (List Part) :=
  let va := w1 + wNat (0x1000000 * (core % 8) + i * Wbits w0 47 32)
  check s (ctxOf s (mxRow s core)) { wr := true, code := 1, engine := true, mtag := some (Wbits w1 59 56) } va
    (drainRowSize (Wbits w0 6 4) (Wbits w0 28 18)) false

/-- Rows and words that a part touches in the own aperture. -/
def partWords (s : State) (p : Part) : List (Nat × Nat) :=
  match region s p.pa with
  | .row q _ off => (rowWords off p.n).map fun w => (q.row, w)
  | _ => []

/-- A drain begins: the whole target is checked, must lie in the own aperture, and is marked empty (R283), at a boundary of
its rows (R56); its parts are requests to slices (R81, log entry 97). -/
def drainBegin (s : State) (core : Nat) (w0 w1 : Word) : State :=
  let mr := mrOf (getMx s core).gm (core % 8)
  let busy := fun (p : Part) => engineBusy s p
  let cs := (List.range mr).map (drainParts s core w0 w1)
  match laneFault (trapsOf cs) with
  | some t => if t.waits then stickMx (walkWaits s t) core else holdMx s core t.held
  | none =>
    let tg := okParts cs
    let own := tg.all fun ps => ps.all fun p => match region s p.pa with
      | .row q _ _ => q.core == core
      | _ => false
    if !own then endGang s (clOf core) 3
    else if mr = 0 then advance s core
    else if tg.any fun ps => ps.any busy then stickMx s core
    else
      let ws := tg.flatMap fun ps => ps.flatMap (partWords s)
      let (id, s1) := fresh s
      modMx (bump (ws.foldl (fun t x => setEmpty t ⟨core, x.1⟩ x.2) s1) core 4 (tg.map List.length).sum) core fun m =>
        { m with st := .running, tgt := tg, todo := ws, born := id, stuck := false }

/-- Write the bytes of one drained row to its parts as fills, in the order of the row's producers (R54, R234, R283). -/
def drainWrite (s : State) (core : Nat) (bs : List Byte) : List Part → State
  | [] => s
  | p :: ps =>
    let s1 := match region s p.pa with
      | .row q _ off =>
        setFulls (unpoison (putRowBytes s q off ((bs.drop p.pos).take p.n)) (wholeKeys (rowPa q off) p.n)) q
          ((rowWords off p.n).filter fun w => !owed s (mxRow s core) (partIx s core) (getMx s core).born q w)
      | _ => s
    drainWrite s1 core bs ps

/-- Must a drained row wait for the rows it lies in (R56), or for older fills of their registers (R234)? -/
def drainBehind (s : State) (core : Nat) (ps : List Part) : Bool :=
  ps.any fun p => engineBusy s p || pieceBehind s (mxRow s core) (partIx s core) (getMx s core).since p

/-- DRAIN: the target is checked and marked empty, then written one result row at a time (R283). All parts of a result row are
written in one event: DESIGN CHOICE, log entry 103. -/
def execDrain (core : Nat) (s : State) : Out :=
  .next (atStep s core 4 fun t w0 w1 =>
    let m := getMx t core
    match m.tgt with
    | [] => if shootPending t (asidOf t core) then stickMx t core else drainBegin t core w0 w1
    | ps :: rest =>
      if drainBehind t core ps then stickMx t core
      else if accError (getCore t core) (1024 * m.sub + Wbits w0 17 8) (Wbits w0 28 18) then endGang t (clOf core) 9
      else
      let c := getCore t core
      let accs := (List.range (Wbits w0 28 18)).map fun n => accGet c (1024 * m.sub + Wbits w0 17 8 + n)
      let (bs, fl) := drainRow (Wbits w0 6 4) (w0.getLsbD 7) accs
      let done := ps.flatMap (partWords t)
      let u := modMx (orMx (drainWrite t core bs ps) core fl) core fun m =>
        { m with tgt := rest, sub := m.sub + 1, todo := m.todo.filter fun x => !done.contains x }
      if rest.isEmpty then advance u core else u)

/-- GROUP sets GM; in a group of size 0 the steps up to the next GROUP or END are passed one by one (R284). -/
def execGroup (core : Nat) (s : State) : Out :=
  .next (
    if !(getMx s core).active .running then s
    else match reachStep s core with
      | (.step w0 _, t) =>
        let k := Wbits w0 3 0
        let gm := Wbits w0 25 16
        if k = 5 then
          advance (modMx t core fun m => { m with gm := gm, skipg := if gm = 0 then m.skipg + 1 else m.skipg }) core
        else if k ≠ 15 ∧ (getMx t core).gm = 0 then advance t core
        else t
      | (.bad, t) => endGang t (clOf core) 3
      | (.wait, t) => stickMx t core
      | (.fault f, t) => holdMx t core f)

/-- END: the place is FINISHING; when all eight are, D := 0 at each place and the gang is over (R285, R292). -/
def execEndStep (core : Nat) (s : State) : Out :=
  .next (atStep s core 15 fun t _ _ =>
    let u := modMx t core fun m => { m with st := .finishing, cur := none, stuck := false }
    if (coresOf (clOf core)).all fun n => (getMx u n).st == .finishing then endGang u (clOf core) 0 else u)

/-- RING_WATCHDOG: `n` more cycles in which some RUNNING place cannot advance; none is counted while a place is HELD,
JOINING, in PREFETCH or in PERMIT; a place at a ROTATE can advance once all eight stand there (R282, R295). -/
def execRingWatchdog (cl n : Nat) (s : State) : Out :=
  let ms := (coresOf cl).map (getMx s)
  let off := ms.any fun m => m.st == .held || m.st == .joining || m.st == .prefetch || m.st == .permit
  let cannot := ms.any fun m => m.st == .running && ((atRotate m && !ringReady s cl) || m.stuck)
  .next (
    if cl < 40 ∧ off = false then
      if cannot then
        (if 2 ^ 22 ≤ (getCl s cl).dog + n then endGang s cl 7 else modCl s cl fun c => { c with dog := c.dog + n })
      else modCl s cl fun c => { c with dog := 0 }
    else s)

end Sys2Proof.Machine
end

