-- ==== Sys2Proof/Machine/Edge.lean ====
section
/-!
DEFINITION. Edge programs: `engine.edge.run`, `engine.edge.ret`, `engine.edge.stat` and the steps of a run (R298-R322).
An engine's access that faults is held with nothing of it performed; a step of many accesses checks them before it
performs the first, or notes how many it has performed.
-/

namespace Sys2Proof.Machine

/-! ## Engines and descriptors -/

/-- A core's edge engine. -/
def getEdge (s : State) (core : Nat) : EdgeEng := (getCore s core).edge

/-- Change a core's edge engine. -/
def modEdge (s : State) (core : Nat) (f : EdgeEng → EdgeEng) : State := modCore s core fun c => { c with edge := f c.edge }

/-- The edge row of a core. -/
def edgeRow (s : State) (core : Nat) : RowId := ⟨core, (getEdge s core).row⟩

/-- STATE code (R317). -/
def EdgeSt.code : EdgeSt → Nat
  | .idle => 0
  | .joining => 1
  | .starting => 2
  | .running => 3
  | .body => 4
  | .levelEnd => 5
  | .held => 6

/-- May an engine work in state `st`: in it, or held from it with a retry allowed (R318)? -/
def EdgeEng.active (e : EdgeEng) (st : EdgeSt) : Bool := e.st == st || (e.st == .held && e.held.isNone && e.back == st)

/-- Word `k` of a descriptor (R298). -/
def dWord (ws : List Word) (k : Nat) : Word := ws.getD k 0
/-- NV. -/
def dNv (ws : List Word) : Nat := Wbits (dWord ws 0) 31 0
/-- CHUNK. -/
def dChunk (ws : List Word) : Nat := Wbits (dWord ws 0) 47 32
/-- OP: 0 min, 1 max, 2 or, 3 add. -/
def dOp (ws : List Word) : Nat := Wbits (dWord ws 0) 49 48
/-- TY: f32 when set. -/
def dF32 (ws : List Word) : Bool := (dWord ws 0).getLsbD 50
/-- MODE: 0 auto, 1 push, 2 pull. -/
def dMode (ws : List Word) : Nat := Wbits (dWord ws 0) 52 51
/-- CORE0, the leader. -/
def dCore0 (ws : List Word) : Nat := Wbits (dWord ws 1) 8 0
/-- NCORE. -/
def dNcore (ws : List Word) : Nat := Wbits (dWord ws 1) 17 9
/-- ALPHA. -/
def dAlpha (ws : List Word) : Nat := Wbits (dWord ws 1) 47 32
/-- BETA. -/
def dBeta (ws : List Word) : Nat := Wbits (dWord ws 1) 63 48
/-- The cores of a run (R299). -/
def runCores (ws : List Word) : List Nat := List.range' (dCore0 ws) (dNcore ws)
/-- Bytes of a bitmap (R302). -/
def mapBytes (ws : List Word) : Nat := 8 * ((dNv ws + 63) / 64)

/-- Is a descriptor valid for a row on `core` (R301)? -/
def descOk (s : State) (core : Nat) (ws : List Word) : Bool :=
  let c0 := dCore0 ws
  let nc := dNcore ws
  Wbits (dWord ws 0) 63 53 == 0 && Wbits (dWord ws 1) 31 18 == 0 && dMode ws != 3 && dChunk ws != 0 &&
  decide (1 ≤ dNv ws) && decide (dNv ws ≤ 2 ^ 31) && decide (1 ≤ nc) && decide (c0 + nc ≤ 320) &&
  decide (c0 ≤ core) && decide (core < c0 + nc) &&
  (runCores ws).all (fun n => partOf s n == partOf s core) &&
  [3, 4, 6, 7, 9, 10, 11, 12, 13].all (fun k => dWord ws k != 0) &&
  [3, 4, 5, 6, 7, 8, 9, 10].all (fun k => (dWord ws k).toNat % 4 == 0) &&
  [11, 12, 13].all (fun k => (dWord ws k).toNat % 8 == 0)

/-! ## Accesses (R303, R318) -/

/-- Why an engine's work stops short. -/
inductive Stop where
  | wait
  | fault (f : EngFault)
  /-- BADGRAPH (R302). -/
  | bad

/-- Work of an engine on the state. -/
abbrev EngM := ExceptT Stop (StateM State)

/-- An engine access as work. -/
def ofGot {α : Type} (f : State → Got α × State) : EngM α := fun s =>
  match f s with
  | (.ok a, t) => (.ok a, t)
  | (.wait, t) => (.error .wait, t)
  | (.fault e, t) => (.error (.fault e), t)

/-- A question about the state as work. -/
def asks {α : Type} (f : State → α) : EngM α := fun s => (.ok (f s), s)

/-- A change of the state as work. -/
def act (f : State → State) : EngM Unit := fun s => (.ok (), f s)

/-- The run of a core's row as an asker (R354). -/
def edgeAsker (s : State) (core : Nat) : Asker := ⟨edgeRow s core, partIx s core, 2, (getEdge s core).since⟩

/-- Read a part at its home, within an event of the engine's (R303, R354, R374). -/
def homePart (s : State) (who : Asker) (p : Part) : Rd × State :=
  match askFirst s who none true p with
  | some (x, _, t) => (x, t)
  | none =>
    match region s p.pa with
    | .row q _ off => rowLoad s q off p.n 0
    | .ctl c off => (.ok (ctlReads s c off (p.n / 8)), s)
    | .peerAp _ _ => (.ok (memRead s p.pa p.n), s)
    | _ => homeRead (landFlights s (dieOf who.row.core) p) (dieOf who.row.core) p

/-- Read parts at their homes, never through a guest copy (R303). -/
def homeParts (s : State) (who : Asker) (va : Word) : List Part → Got (List Byte) × State
  | [] => (.ok [], s)
  | p :: ps =>
    match homePart s who p with
    | (.ok bs, t) =>
      (match homeParts t who va ps with
        | (.ok cs, u) => (.ok (bs ++ cs), u)
        | y => y)
    | (.wait, t) => (.wait, t)
    | (.memerr sub i, t) => (.fault (memErrTrap (bytePtr va p.pos) sub i 0).held, t)

/-- Check `n` bytes at offset `off` from the pointer `base` for the engine of a core, while no shootdown of the context is
pending (R42, R74); a row at no boundary waits (R56). -/
def eCheck (core : Nat) (a : Acc) (base : Word) (off n : Nat) : EngM (List Part) := fun s =>
  if shootPending s (asidOf s core) then (.error .wait, s)
  else match check s (ctxOf s (edgeRow s core)) { a with engine := true, mtag := some (Wbits base 59 56) } (base + wNat off) n false with
  | .error t => if t.waits then (.error .wait, walkWaits s t) else (.error (.fault t.held), s)
  | .ok ps => if ps.any (engineBusy s) then (.error .wait, s) else (.ok ps, bump s core 4 ps.length)

/-- Load access class. -/
def accRd : Acc := { rd := true }
/-- Store access class. -/
def accWr : Acc := { wr := true, code := 1 }
/-- Read-modify-write access class. -/
def accRmw : Acc := { rd := true, wr := true, code := 3 }

/-- Read `n` bytes at offset `off` of a graph array, as a load at the VA-hashed slices (R303). -/
def eGraph (core : Nat) (base : Word) (off n : Nat) : EngM (List Byte) := do
  let ps ← eCheck core accRd base off n
  ofGot fun s => engParts s (edgeAsker s core) 0 (base + wNat off) ps

/-- Read `n` bytes at the home (R303). -/
def eHome (core : Nat) (base : Word) (off n : Nat) : EngM (List Byte) := do
  let ps ← eCheck core accRd base off n
  ofGot fun s => homeParts s (edgeAsker s core) (base + wNat off) ps

/-- Keep all of an engine's work or none of it where an access faults (R318). -/
def whole (m : EngM Unit) : EngM Unit := fun s =>
  match m s with
  | (.ok a, t) => (.ok a, t)
  | (.error .wait, t) => (.error .wait, t)
  | (.error e, _) => (.error e, s)

/-- The lines of parts outside core apertures that are written: into the edge row's signature now, and into those of the
run's rows at its end (R96, R117, R320). -/
def noteLines (s : State) (core : Nat) (ps : List Part) : State :=
  let s := sigParts s (edgeRow s core) ps
  let ls := (ps.filter fun p => !inAperture s p).map lineL
  modEdge s core fun e => { e with lines := ls.foldl insSorted e.lines }

/-- Write bytes to a part at its home, past every guest copy (R303), or into the log of the partition that it is aimed at
(R354). False: it waits. -/
def edgePut (s : State) (r : RowId) (p : Part) (b : List Byte) : Bool × State :=
  match aimedPartOf s p with
  | some (c, x) =>
    let (ok, t) := logAdd s c x (.store ⟨s.nextId, r, partIx s r.core, (getRow s r).priv, p, .plain, false, b, []⟩)
    (ok, if ok then sentPart t r.core p else t)
  | none =>
    (true, match region s p.pa with
      | .row q _ off => rowStore (received (sentMsg s r.core q.core) r.core q.core) q off b false (getRow s r).priv (some r)
      | .peerAp _ _ => memWrite s p.pa b
      | _ => homeOnly s (dieOf r.core) p b)

/-- Write bytes to parts. False: one waits. -/
def homeSave (s : State) (r : RowId) (bs : List Byte) : List Part → Bool × State
  | [] => (true, s)
  | p :: ps =>
    match edgePut s r p ((bs.drop p.pos).take p.n) with
    | (true, t) => homeSave t r bs ps
    | x => x

/-- Write checked parts for a core's engine; a peer may refuse them (R374). -/
def eSave (core : Nat) (ps : List Part) (bs : List Byte) : EngM Unit := fun s =>
  match ps.findSome? fun p => (peerSays s (dieOf core) p true).map fun h => (p, h) with
  | some (p, h) => (.error (.fault (refusalTrap p.va h 1).held), { s with peerNo := none })
  | none =>
    match homeSave s (edgeRow s core) bs ps with
    | (true, t) => (.ok (), noteLines t core ps)
    | (false, t) => (.error .wait, t)

/-- The 32-bit entry `i` of a graph array. -/
def eU32 (core : Nat) (base : Word) (i : Nat) : EngM Nat := do
  let bs ← eGraph core base (4 * i) 4
  return leNat bs

/-- Bit `v` of a bitmap, at its home. -/
def eBit (core : Nat) (base : Word) (v : Nat) : EngM Bool := do
  let bs ← eHome core base (v / 8) 1
  return (leNat bs).testBit (v % 8)

/-- First and end entry of vertex `v` in an offset array; a falling offset is BADGRAPH (R302). -/
def ePair (core : Nat) (base : Word) (v : Nat) : EngM (Nat × Nat) := do
  let bs ← eGraph core base (4 * v) 8
  let lo := leNat (bs.take 4)
  let hi := leNat (bs.drop 4)
  if hi < lo then throw .bad else return (lo, hi)

/-- Sum of the degrees in offset array `off` over the vertices from `v` on whose bit in `map` is `want`; their number. -/
def eDegrees (core : Nat) (off map : Word) (want : Bool) : (n v : Nat) → EngM (Nat × Nat)
  | 0, _ => return (0, 0)
  | n + 1, v => do
    let b ← eBit core map v
    if b = want then
      let (lo, hi) ← ePair core off v
      let (k, d) ← eDegrees core off map want n (v + 1)
      return (k + 1, d + (hi - lo))
    else eDegrees core off map want n (v + 1)

/-- Hold an engine on a fault and fill D with 8 (R318). -/
def holdEdge (s : State) (core : Nat) (f : EngFault) : State :=
  let e := getEdge s core
  let s1 := modEdge s core fun e =>
    { e with back := if e.st = .held then e.back else e.st, st := .held, held := some f, raised := false }
  statusFill s1 ⟨core, e.row⟩ e.since (32 + e.d) 8

/-- The retry has succeeded: back to the state held from. -/
def unhold (s : State) (core : Nat) : State := modEdge s core fun e => if e.st = .held then { e with st := e.back } else e

/-! ## The end of a run (R306, R320) -/

/-- End a run on cores `cs` with a final status: every line written inserted into every edge
row's signature; guest lines that hit the union of their bits invalidated on the run's dies; the status filled into
each D, but for a row that skipped its fault. The flags of a batch that is not applied whole go with it: DESIGN CHOICE, log entry
120. -/
def finishRun (s1 : State) (cs : List Nat) (asid status : Nat) : State :=
  let lines := cs.flatMap fun n => (getEdge s1 n).lines
  let bits := lines.flatMap sigIndices
  let s2 := cs.foldl (fun t n => lines.foldl (fun u l => sigInsert u (edgeRow t n) l) t) s1
  let dies := cs.map dieOf
  let s3 := flushWhere s2 fun x =>
    x.stamp.isSome && !x.phys && x.asid == asid && dies.contains x.die && (sigIndices x.line).all fun i => bits.contains i
  let ours := fun (a : Answer) => a.who.kind == 2 && cs.contains a.who.row.core
  cs.foldl (fun t n =>
    let e := getEdge t n
    let t1 := if e.skipped then t else statusFill t ⟨n, e.row⟩ e.since (32 + e.d) (wNat status)
    let t2 := modCl t1 (clOf n) fun c => { c with reqs := c.reqs.filter fun q => q.core != some n }
    modEdge t2 n fun e => { st := .idle, last := status, level := e.level, pull := e.pull, visited := e.visited, cnt1 := e.cnt1 })
    { s3 with answers := s3.answers.filter fun a => !ours a }

/-- End a run with its update-only lines merged first (R72, R320). -/
def endRunOn (s : State) (cs : List Nat) (asid status : Nat) : State :=
  finishRun (mergeCores s none (fun _ => true) cs) cs asid status

/-- End the run that a core's engine takes part in. -/
def endRun (s : State) (core status : Nat) : State :=
  let e := getEdge s core
  let cs := (runCores e.words).filter fun n => let x := getEdge s n; x.st != .idle && x.desc == e.desc
  endRunOn s cs (asidOf s core) status

/-- Do an engine's work: a fault is held, a wait leaves it for later, BADGRAPH ends the run (R302, R318). -/
def engDo (s : State) (core : Nat) (m : EngM Unit) : State :=
  match m s with
  | (.ok _, t) => unhold (dropAnswers t (edgeAsker s core)) core
  | (.error .wait, t) => t
  | (.error (.fault f), t) => holdEdge t core f
  | (.error .bad, t) => endRun t core 5

/-! ## Instructions (R304-R311, R317) -/

/-- `engine.edge.run` (R305). DEDUCED, log entry 41. DEDUCED, log entry 65. -/
def execEngineEdgeRun (ta : Bool) (a d : Reg) (s : State) : Out :=
  let r := s.cur
  let w := getRow s r
  let e := getEdge s r.core
  let p := getX s r a
  let mine := decide (e.st = .held) && decide (e.row = r.row)
  .next (
    if w.rstep = 2 then
      let s0 := if mine && (e.raised || e.held.isNone) then
          modRow (setEmpty (modEdge s r.core fun e => { e with held := none, raised := false }) r (xw d)) r fun w =>
            { w with marked := [rowWord r (xw d)] }
        else s
      if isEmpty s0 r (xw d) then block s0 r (xw d)
      else soundGate s0 r 2 (xw d) (
        if getX s0 r d = 1 then retireTo s0 r (dWord e.words 2)
        else
          match (if mine && getX s0 r d == 8 then e.held else none) with
          | some f => raise (modEdge s0 r.core fun e => { e with raised := true }) r f.trap 2
          | none => retire s0 r 4)
    else holdGate s r (gate s r 0 [srcX a ta]
      (if p.toNat % 128 ≠ 0 then raise s r ⟨1, cALIGN, 0, 0, p, 0⟩ 0
       else match check s (ctxOf s r) { rd := true, wr := true, code := 3, engine := true } p 128 false with
        | .error t => raise s r t 0
        | .ok ps =>
          if !devDone s r (partIx s r.core) s.nextId then s
          else if e.st ≠ .idle then retX s r d 2 4
          else match homeParts s (rowAsker s r) p ps with
            | (.wait, t) => t
            | (.fault f, t) => raise t r f.trap 0
            | (.ok bs, t0) =>
              let t := bump (dropAnswers t0 (rowAsker s r)) r.core 4 ps.length
              let ws := (List.range 16).map fun k => wNat (leNat ((bs.drop (8 * k)).take 8))
              if !descOk t r.core ws then retX t r d 4 4
              else
                let t1 := modEdge (setEmpty (fresh t).2 r (xw d)) r.core fun e =>
                  { st := .joining, row := r.row, d := d.toNat, runpc := w.pc, desc := p, words := ws, last := e.last,
                    level := e.level, pull := e.pull, visited := e.visited, cnt1 := e.cnt1, since := t.nextId }
                modRow t1 r fun w => { w with rstep := 2, marked := [rowWord r (xw d)] })))

/-- Lanes of 4 bytes of a register. -/
def lanes32 (bs : List Byte) : List Nat := (List.range 32).map fun j => laneGet 4 bs j

/-- `engine.edge.ret` (R311). DEDUCED, log entry 50. -/
def execEngineEdgeRet (_ta : Bool) (s : State) : Out :=
  let r := s.cur
  let e := getEdge s r.core
  .next (
    if e.st ≠ .body ∨ e.row ≠ r.row then ill s r
    else holdGate s r (gate s r 0 [srcV 3 false, srcM 2 false, srcM 3 false] (soundGate s r 0 (mw 1) (
      let m1 := getM s r 1
      let s1 := modEdge (fresh s).2 r.core fun e =>
        { e with st := .running, done := 0, fl := 0, since := s.nextId,
                 res := some (lanes32 (getV s r 3), (getM s r 2 &&& m1).toNat, (getM s r 3 &&& m1).toNat) }
      modRow (retireTo (setEmpty s1 r (32 + e.d)) r e.runpc) r fun w => { w with rstep := 2, marked := [rowWord r (32 + e.d)] }))))

/-- `engine.edge.stat` (R317). -/
def execEngineEdgeStat (_ta : Bool) (dp : BitVec 4) (s : State) : Out :=
  let r := s.cur
  let d : Reg := (dp.setWidth 5) <<< 1
  let e := getEdge s r.core
  let v := 2 ^ 32 * (e.visited % 2 ^ 32) + 2 ^ 24 * e.last + 2 ^ 16 * (e.level % 256) + e.pull.toNat * 16 + e.st.code
  .next (holdGate s r (retX (setX s r d (wNat v)) r (d + 1) e.cnt1 4))

/-! ## Atomics (R300, R312) -/

/-- OR flags into the flags of the batch. -/
def noteFl (s : State) (core : Nat) (fl : FFlags) : State := modEdge s core fun e => { e with fl := e.fl ||| fl }

/-- Flags that an engine's atomic raises: with those of the batch that is being applied; outside a batch to the edge row at once
(R72, R312). -/
def edgeFlags (s : State) (core : Nat) (fl : FFlags) : State :=
  if (getEdge s core).res.isSome then noteFl s core fl else orFlags s (edgeRow s core) fl

/-- An atomic of an engine at the home of checked parts: the old value. It is counted as sent when it is performed, or goes to a
log (R351, R354). Once performed it stands as an answer until the engine's work is done, so that it is not performed again where
a later access waits. -/
def eAtomic (core fn : Nat) (v : Word) (ps : List Part) : EngM Nat := fun s =>
  let r := edgeRow s core
  let ask := some (fn, v, rmOf s r)
  match ps with
  | [] => (.ok 0, s)
  | p :: _ =>
    match (match askFirst s (edgeAsker s core) ask true p with
      | some x => x
      | none =>
        (match atomicAt s r fn v 0 (rmOf s r) p with
          | (.ok bs, fl, t) => (.ok bs, fl, keepAnswer (sentOnce t (edgeAsker s core) p) ⟨edgeAsker s core, p.pa, true, bs, fl⟩)
          | x => x)) with
    | (.ok bs, fl, t) => (.ok (leNat bs), noteLines (edgeFlags t core fl) core [p])
    | (.wait, _, t) => (.error .wait, t)
    | (.memerr sub i, _, t) => (.error (.fault (memErrTrap p.va sub i 3).held), t)

/-- Write a word of the descriptor's counters with a device-scope atomic (R300). -/
def eSwap (core : Nat) (v : Word) (ps : List Part) : EngM Unit := do
  let _ ← eAtomic core 8 v ps

/-- Take `n` from the 32-bit counter at offset `off` of the descriptor with a device-scope atomic (R300). -/
def eTake (core : Nat) (n : Nat) (ps : List Part) : EngM Unit := do
  let _ ← eAtomic core 0 (wNat (2 ^ 32 - n % 2 ^ 32)) ps

/-! ## Counters and phases (R300, R308, R313-R315) -/

/-- CNT0 of MU and MFR. -/
def cnt0Word (mu mfr : Nat) : Word := wNat (2 ^ 32 * (mu % 2 ^ 32) + mfr % 2 ^ 32)

/-- CNT1 of NF, LEVEL, NSW and HIST. -/
def cnt1Word (nf level nsw hist : Nat) : Word :=
  wNat (2 ^ 32 * (nf % 2 ^ 32) + 2 ^ 24 * (level % 256) + 2 ^ 16 * min nsw 255 + hist % 2 ^ 16)

/-- CNT0 at the descriptor's home: MU and MFR. -/
def eCnt0 (core : Nat) (desc : Word) : EngM (Nat × Nat) := do
  let bs ← eHome core desc 0x70 8
  let v := wNat (leNat bs)
  return (Wbits v 63 32, Wbits v 31 0)

/-- A phase starts: the deques get their chunks, the record goes into HIST, a change of mode counts in NSW (R308, R315). -/
def startPhase (s : State) (ws : List Word) (pull mid : Bool) : State :=
  let cs := runCores ws
  let n := dNcore ws
  let c := (dNv ws + dChunk ws - 1) / dChunk ws
  let rcd := pull.toNat * 2 + mid.toNat
  cs.zipIdx.foldl (fun t (core, i) =>
    let lo := i * c / n
    let hi := (i + 1) * c / n
    let t1 := modCore t core fun x =>
      let q := { x.dq with top := x.dq.bottom }
      { x with dq := if lo < hi then q.push lo hi (0xED00 + rcd) else q }
    modEdge t1 core fun e => { e with st := .running, pull := pull, phase := rcd, chunk := none, granted := false, edge := none,
                                      switch := false }) s

/-- CNT1 with the record of a new phase; `change` says that the mode changes (R300). -/
def cnt1Phase (v : Word) (rcd : Nat) (change : Bool) : Word :=
  cnt1Word (Wbits v 63 32) (Wbits v 31 24) (Wbits v 23 16 + change.toNat) (Wbits v 15 0 * 4 + rcd)

/-- Keep CNT1 as last written, in every engine of the run (R317). -/
def noteCnt1 (s : State) (ws : List Word) (v : Word) : State :=
  (runCores ws).foldl (fun t n => modEdge t n fun e => { e with cnt1 := v }) s

/-- The mode of a level's first phase: pull? (R314) -/
def chooseMode (ws : List Word) (wasPull : Bool) (nf mf mu : Nat) : Bool :=
  match dMode ws with
  | 1 => false
  | 2 => true
  | _ => if wasPull then !(dBeta ws != 0 && decide (nf * dBeta ws < dNv ws)) else decide (mu < mf * dAlpha ws)

/-- Clear a bitmap whose parts have been checked: bits at or above NV keep their value (R302). -/
def eClear (core : Nat) (ws : List Word) (base : Word) (ps : List Part) : EngM Unit := do
  let n := mapBytes ws
  let bs ← eHome core base (n - 8) 8
  let used := dNv ws - 8 * (n - 8)
  eSave core ps (List.replicate (n - 8) 0 ++ leBytes 8 (leNat bs / 2 ^ used * 2 ^ used))

/-- A run begins on its cores: no lane is visited yet, level 0 (R317). -/
def runBegin (s : State) (ws : List Word) : State :=
  (runCores ws).foldl (fun t n => modEdge t n fun e => { e with visited := 0, level := 0 }) s

/-- The leader prepares the run, in the order of R307, and begins level 0. -/
def prepareRun (core : Nat) (ws : List Word) (desc : Word) : EngM Unit := do
  let np ← eCheck core accRmw (dWord ws 12) 0 (mapBytes ws)
  eClear core ws (dWord ws 12) np
  let (nf, mfr) ← eDegrees core (dWord ws 3) (dWord ws 11) true (dNv ws) 0
  let (_, mu) ← eDegrees core (dWord ws 6) (dWord ws 13) false (dNv ws) 0
  let pull := chooseMode ws false nf mfr mu
  let v := cnt1Word nf 0 0 (pull.toNat * 2)
  let c0 ← eCheck core accAmo desc 0x70 8
  eSwap core (cnt0Word mu mfr) c0
  let c1 ← eCheck core accAmo desc 0x78 8
  eSwap core v c1
  act fun s => startPhase (noteCnt1 (runBegin s ws) ws v) ws pull false

/-- EDGE_RUN_START: all cores have joined; the leader compares the pointers, then prepares the run (R307). -/
def execEdgeRunStart (core : Nat) (s : State) : Out :=
  let e := getEdge s core
  let cs := runCores e.words
  .next (
    if !e.words.isEmpty && dCore0 e.words == core && cs.all fun n => (getEdge s n).st == .joining then
      if cs.all fun n => (getEdge s n).desc == e.desc then
        cs.foldl (fun t n => modEdge t n fun e => { e with st := .starting }) s
      else finishRun s cs (asidOf s core) 3
    else if dCore0 e.words == core && e.active .starting then engDo s core (prepareRun core e.words e.desc)
    else s)

/-! ## Chunks (R308, R314, R316) -/

/-- The chunk at the bottom of a deque, and the deque without it; entries with another tag are discarded. -/
def takeOwn (tag : Nat) : (fuel : Nat) → Deque → Option Nat × Deque
  | 0, q => (none, q)
  | fuel + 1, q =>
    if q.count = 0 then (none, q)
    else
      let b := (2 ^ 32 + q.bottom - 1) % 2 ^ 32
      let e := q.ent b
      if e.tag ≠ tag then takeOwn tag fuel { q with bottom := b }
      else if e.hi ≤ e.lo + 1 then (some e.lo, { q with bottom := b })
      else (some e.lo, { q with ents := smSet {} q.ents (b % 64) { e with lo := e.lo + 1 } })

/-- Steal from the top of a deque: the upper half of its entry (R267, R308). -/
def takeTop (tag : Nat) : (fuel : Nat) → Deque → Option (Nat × Nat) × Deque
  | 0, q => (none, q)
  | fuel + 1, q =>
    if q.count = 0 then (none, q)
    else
      let e := q.ent q.top
      let n := e.hi - e.lo
      let k := (n + 1) / 2
      if e.tag ≠ tag then takeTop tag fuel { q with top := (q.top + 1) % 2 ^ 32 }
      else if k = n then (some (e.lo, e.hi), { q with top := (q.top + 1) % 2 ^ 32 })
      else (some (e.hi - k, e.hi), { q with ents := smSet {} q.ents (q.top % 64) { e with hi := e.hi - k } })

/-- Steal from the first victim of the run that has a chunk, in the order of R267. -/
def stealChunk (s : State) (core tag : Nat) : List Nat → Option (Nat × Nat) × State
  | [] => (none, s)
  | v :: vs =>
    match takeTop tag 65 (getCore s v).dq with
    | (some x, q) => (some x, modCore s v fun c => { c with dq := q })
    | (none, q) => stealChunk (modCore s v fun c => { c with dq := q }) core tag vs

/-- The next chunk of an engine, taken from its deque or stolen, and the state without it (R308). -/
def nextChunk (s : State) (core tag : Nat) (cs : List Nat) : Option Nat × State :=
  match takeOwn tag 65 (getCore s core).dq with
  | (some c, q) => (some c, modCore s core fun x => { x with dq := q })
  | (none, q) =>
    let s1 := modCore s core fun x => { x with dq := q }
    match stealChunk s1 core tag (((List.range' 1 159).map (victim core)).filter cs.contains) with
    | (some (lo, hi), t) =>
      (some lo, if lo + 1 < hi then modCore t core fun x => { x with dq := x.dq.push (lo + 1) hi tag } else t)
    | (none, t) => (none, t)

/-- First vertex and number of vertices of chunk `c` (R308). -/
def chunkSpan (ws : List Word) (c : Nat) : Nat × Nat :=
  (c * dChunk ws, min (dNv ws) ((c + 1) * dChunk ws) - c * dChunk ws)

/-- Does the push-to-pull test apply to a take, and hold (R314)? -/
def eTest (core : Nat) (e : EdgeEng) : EngM Bool := do
  if dMode e.words = 0 ∧ dOp e.words ≠ 3 ∧ e.pull = false then
    let (mu, mfr) ← eCnt0 core e.desc
    return decide (mu < mfr * dAlpha e.words)
  else return false

/-- Take MFR down by the out-edges of a chunk that push takes (R300). -/
def eTakeMfr (core : Nat) (e : EdgeEng) (n : Nat) : EngM Unit := do
  let ps ← eCheck core accAmo e.desc 0x70 4
  eTake core n ps

/-- Take the next chunk, `c`: the push-to-pull test first where it applies, then the chunk's contribution leaves MFR, the
deques give it up and the permit is requested (R308, R314, R316). -/
def takeChunk (core : Nat) (e : EdgeEng) (c : Nat) : EngM Unit := do
  let ws := e.words
  if ← eTest core e then act fun s => modEdge s (dCore0 ws) fun x => { x with switch := true }
  else
    let (v, n) := chunkSpan ws c
    let (_, es) ← if e.pull then eDegrees core (dWord ws 6) (dWord ws 13) false n v
      else eDegrees core (dWord ws 3) (dWord ws 11) true n v
    if e.pull then pure () else eTakeMfr core e es
    act fun s =>
      let s0 := (nextChunk s core (0xED00 + e.phase) (runCores ws)).2
      let s1 := modEdge s0 core fun x => { x with chunk := some c, granted := decide (es = 0), vert := v, edge := none }
      if es = 0 then s1
      else
        let (id, s2) := fresh s1
        modCl s2 (clOf core) fun x => { x with reqs := x.reqs ++ [⟨(es + 31) / 32, 128, some core, id, 0⟩] }

/-- Is an engine of a run free to take a chunk: RUNNING, no chunk in hand, no batch out? -/
def EdgeEng.free (e : EdgeEng) : Bool := e.active .running && e.chunk.isNone && e.res.isNone

/-- Does a core of the run have an ending to report? -/
def endingOf (s : State) (ws : List Word) : Option Nat :=
  ((runCores ws).filterMap fun n => (getEdge s n).ending).head?

/-- CHUNK_TAKE (R308). -/
def execChunkTake (core : Nat) (s : State) : Out :=
  let e := getEdge s core
  .next (
    if e.free && !(getEdge s (dCore0 e.words)).switch && (endingOf s e.words).isNone then
      match nextChunk s core (0xED00 + e.phase) (runCores e.words) with
      | (none, t) => t
      | (some c, _) => engDo s core (takeChunk core e c)
    else s)

/-! ## Batches (R309) -/

/-- A lane: source, destination, edge value. -/
structure Lane where
  src : Nat
  dst : Nat
  val : Nat

/-- Collect up to `n` lanes from vertex `v`, edge `ed`, below vertex `stop`; where the chunk goes on (R309). -/
def eLanes (core : Nat) (ws : List Word) (pull : Bool) (stop : Nat) :
    (fuel : Nat) → (n v : Nat) → (ed : Option Nat) → (fresh : Bool) → EngM (List Lane × Nat × Option Nat)
  | 0, _, v, ed, _ => return ([], v, ed)
  | fuel + 1, n, v, ed, fresh => do
    if n = 0 ∨ stop ≤ v then return ([], v, ed)
    else
      let skip ← if pull then (if ed.isNone || fresh then eBit core (dWord ws 13) v else pure false)
        else (if ed.isNone then (do let b ← eBit core (dWord ws 11) v; return !b) else pure false)
      if skip then eLanes core ws pull stop fuel n (v + 1) none false
      else
        let (lo, hi) ← ePair core (dWord ws (if pull then 6 else 3)) v
        let k := ed.getD lo
        if hi ≤ k then eLanes core ws pull stop fuel n (v + 1) none false
        else
          let o ← eU32 core (dWord ws (if pull then 7 else 4)) k
          if dNv ws ≤ o then throw .bad
          else
            let vp := dWord ws (if pull then 8 else 5)
            let use ← if pull then eBit core (dWord ws 11) o else pure true
            if use then
              let x ← if vp = 0 then pure 0 else eU32 core vp k
              let (ls, w) ← eLanes core ws pull stop fuel (n - 1) v (some (k + 1)) false
              return (⟨if pull then o else v, if pull then v else o, x⟩ :: ls, w)
            else eLanes core ws pull stop fuel n v (some (k + 1)) false

/-- A vertex value, at its home. -/
def eValue (core : Nat) (base : Word) (v : Nat) : EngM Nat := do
  let bs ← eHome core base (4 * v) 4
  return leNat bs

/-- The values of lanes in V0, V1 and V2. -/
def eLaneVals (core : Nat) (ws : List Word) : List Lane → EngM (List (Nat × Nat × Nat))
  | [] => return []
  | l :: ls => do
    let a ← eValue core (dWord ws 9) l.src
    let b ← eValue core (dWord ws 10) l.dst
    let r ← eLaneVals core ws ls
    return (a, l.val, b) :: r

/-- 128 bytes of lanes, the rest 0. -/
def laneBytes32 (vs : List Nat) : List Byte := (List.range 32).flatMap fun j => leBytes 4 (vs.getD j 0)

/-- Must a batch wait for older fills of its registers, V0, V1, V2 and M1 (R234)? -/
def batchBehind (s : State) (core : Nat) : Bool :=
  let r := edgeRow s core
  [vw 0, vw 1, vw 2, mw 1].any (fillBehind s r (partIx s core) s.nextId r)

/-- Form and deliver a batch; without lanes the chunk is complete (R309). A batch has 32 lanes, fewer only when the chunk has
no more, as R325 counts them; a smaller `n` than that forms none: DEDUCED, log entry 96. -/
def formBatch (core : Nat) (e : EdgeEng) (c n : Nat) : EngM Unit := do
  let ws := e.words
  let (v0, k) := chunkSpan ws c
  let (ls, v, ed) ← eLanes core ws e.pull (v0 + k) (2 ^ 34) 32 e.vert e.edge true
  let vals ← eLaneVals core ws ls
  if ← asks fun s => !ls.isEmpty && batchBehind s core then throw .wait
  act fun s =>
    if ls.isEmpty then modEdge s core fun x => { x with chunk := none, granted := false, edge := none }
    else if n < ls.length then s
    else
      let r := edgeRow s core
      let s1 := setV s r 0 (laneBytes32 (vals.map fun x => x.1))
      let s2 := setV s1 r 1 (laneBytes32 (vals.map fun x => x.2.1))
      let s3 := setV s2 r 2 (laneBytes32 (vals.map fun x => x.2.2))
      let s4 := setM s3 r 1 (wNat (2 ^ ls.length - 1))
      let s5 := modEdge s4 core fun x =>
        { x with st := .body, back := .body, vert := v, edge := ed, lanes := ls.map fun l => (l.src, l.dst),
                 visited := (x.visited + ls.length) % 2 ^ 32 }
      statusFill s5 r e.since (32 + e.d) 1

/-- BATCH: the next 1 to 32 lanes of the chunk in hand, once its permit is granted (R309, R316). -/
def execBatch (core n : Nat) (s : State) : Out :=
  let e := getEdge s core
  .next (
    match e.chunk with
    | some c =>
      if e.active .running && e.granted && e.res.isNone && decide (1 ≤ n) && decide (n ≤ 32) && (endingOf s e.words).isNone then
        engDo s core (formBatch core e c n)
      else s
    | none => s)

/-! ## Applying a batch (R312) -/

/-- One access of the application of a batch. -/
inductive EdgeAct where
  /-- Combine a value into DSTV through the reduction cache. -/
  | red (d v : Nat)
  /-- Combine values into DSTV with a plain store at the home. -/
  | comb (d : Nat) (vs : List Nat)
  /-- Set NXTF[d], FIN[d]. -/
  | nxt (d : Nat)
  | fin (d : Nat)

/-- The accesses of a returned batch in push: lane by lane. -/
def pushActs (v3 : List Nat) (m2 m3 : Nat) (lanes : List (Nat × Nat)) : List EdgeAct :=
  lanes.zipIdx.flatMap fun (l, j) =>
    (if m2.testBit j then [.red l.2 (v3.getD j 0), .nxt l.2] else []) ++ (if m3.testBit j then [.fin l.2] else [])

/-- The destinations of lanes, in order. -/
def destsOf (lanes : List (Nat × Nat)) : List Nat :=
  lanes.foldl (fun ds l => if ds.contains l.2 then ds else ds ++ [l.2]) []

/-- The accesses of a returned batch in pull: destination by destination. -/
def pullActs (v3 : List Nat) (m2 m3 : Nat) (lanes : List (Nat × Nat)) : List EdgeAct :=
  (destsOf lanes).flatMap fun d =>
    let js := (lanes.zipIdx.filter fun x => x.1.2 == d).map fun x => x.2
    let vs := (js.filter fun j => m2.testBit j).map fun j => v3.getD j 0
    (if vs.isEmpty then [] else [.comb d vs, .nxt d]) ++ (if js.any fun j => m3.testBit j then [.fin d] else [])

/-- The `scatred` operation of a run (R312). -/
def edgeRed (ws : List Word) : Nat :=
  match dOp ws with
  | 0 => 10
  | 1 => 11
  | 2 => 14
  | _ => if dF32 ws then 9 else 8

/-- Set a bit of a bitmap; a bit that was 0 gives `count` the degree of the vertex: both or neither (R312, R318). -/
def eSetBit (core : Nat) (map off : Word) (d : Nat) (count : Nat → EngM Unit) : EngM Unit := do
  let ps ← eCheck core accAmo map (d / 64 * 8) 8
  let was ← match ← asks fun s => ps.head?.bind fun p => answerOf s (edgeAsker s core) p true with
    | some a => pure ((leNat a.bytes).testBit (d % 64))
    | none => eBit core map d
  let (lo, hi) ← if was then pure (0, 0) else ePair core off d
  whole do
    let old ← eAtomic core 2 (wNat (2 ^ (d % 64))) ps
    if old.testBit (d % 64) then pure () else count (hi - lo)

/-- mode() of the edge row, where function `fn` of R245 rounds; a poisoned FLAGS word is a fault of the access (R318, R348). -/
def eMode (core fn : Nat) : EngM RMode := fun s =>
  let r := edgeRow s core
  if fn = 11 ∧ isPoison s r 3 then (.error (.fault (Trap.plain cMEMERR (wordVa s r 3)).held), s) else (.ok (rmOf s r), s)

/-- Perform one access of a batch (R312). -/
def applyAct (core : Nat) (e : EdgeEng) : EdgeAct → EngM Unit
  | .red d v => do
    let ps ← eCheck core accRmw (dWord e.words 10) (4 * d) 4
    let rm ← eMode core (redAmo (edgeRed e.words))
    match ps with
    | [] => pure ()
    | p :: _ => fun s =>
      let r := edgeRow s core
      if inAperture s p then
        (do let _ ← eAtomic core (redAmo (edgeRed e.words)) (wNat v) [p]) s
      else
        let (fl, t) := redUpdate s core (some r) (edgeRed e.words) 4 rm p v
        (.ok (), noteLines (noteFl t core fl) core [p])
  | .comb d vs => do
    let ps ← eCheck core accRmw (dWord e.words 10) (4 * d) 4
    let rm ← eMode core (redAmo (edgeRed e.words))
    let old ← eValue core (dWord e.words 10) d
    fun s =>
      let (v, fl) := vs.foldl (fun (x : Nat × FFlags) b =>
        let (y, g) := amoNew (redAmo (edgeRed e.words)) 4 rm x.1 b 0
        (y, x.2 ||| g)) (old, 0)
      eSave core ps (leBytes 4 v) (noteFl s core fl)
  | .nxt d => eSetBit core (dWord e.words 12) (dWord e.words 3) d fun n =>
      act fun s => modEdge s (dCore0 e.words) fun x => { x with nf1 := x.nf1 + 1, mf1 := x.mf1 + n }
  | .fin d => do
    let cp ← eCheck core accAmo e.desc 0x74 4
    eSetBit core (dWord e.words 13) (dWord e.words 6) d fun n => eTake core n cp

/-- BATCH_APPLY: the next access of a returned batch; after the last, the flags go to the edge row (R312). -/
def execBatchApply (core : Nat) (s : State) : Out :=
  let e := getEdge s core
  .next (
    match e.res with
    | some (v3, m2, m3) =>
      if e.active .running && (endingOf s e.words).isNone then
        let acts := if e.pull then pullActs v3 m2 m3 e.lanes else pushActs v3 m2 m3 e.lanes
        match acts[e.done]? with
        | none => modEdge (orFlags s (edgeRow s core) e.fl) core fun x =>
            { x with res := none, lanes := [], done := 0, fl := 0 }
        | some a => engDo s core (do
            applyAct core e a
            act fun t => modEdge t core fun x => { x with done := x.done + 1 })
      else s
    | none => s)

/-! ## Levels (R313-R315) -/

/-- Have all engines of the run finished their chunks? -/
def allFree (s : State) (ws : List Word) : Bool := (runCores ws).all fun n => (getEdge s n).free

/-- The mode of the level that follows (R314). -/
def levelPull (e : EdgeEng) (mu : Nat) : Bool := chooseMode e.words e.pull e.nf1 e.mf1 mu

/-- CNT1 for the level that follows: NF' as NF, the level counted, the first phase recorded unless the run is done (R313). -/
def levelCnt1 (e : EdgeEng) (pull : Bool) : Word :=
  let base := cnt1Word e.nf1 (Wbits e.cnt1 31 24 + 1) (Wbits e.cnt1 23 16) (Wbits e.cnt1 15 0)
  if e.nf1 = 0 then base else cnt1Phase base (pull.toNat * 2) (pull != e.pull)

/-- The engines of the run go on to the next level, or the run ends DONE (R313). -/
def levelTurn (s : State) (core : Nat) (e : EdgeEng) (pull : Bool) : State :=
  let s1 := (runCores e.words).foldl (fun t n => modEdge t n fun x =>
    { x with words := (x.words.set 11 (dWord x.words 12)).set 12 (dWord x.words 11),
             level := (Wbits e.cnt1 31 24 + 1) % 256, nf1 := 0, mf1 := 0 })
    (noteCnt1 s e.words (levelCnt1 e pull))
  if e.nf1 = 0 then endRun s1 core 0 else startPhase s1 e.words pull false

/-- CURF and NXTF as they stand in the descriptor after the level: swapped. -/
def levelMaps (e : EdgeEng) : List Byte := leBytes 8 (dWord e.words 12).toNat ++ leBytes 8 (dWord e.words 11).toNat

/-- The leader ends the level, in the order of R313: merges, CURF and NXTF swapped in the descriptor, the new NXTF cleared, the
counters updated; then DONE when no vertex is left, else the next level's first phase. What comes before a held access has been
done, and is done again at the retry. -/
def endLevel (core : Nat) (e : EdgeEng) : EngM Unit := do
  act fun s => mergeCores s none (fun _ => true) (runCores e.words)
  let dp ← eCheck core accWr e.desc 0x58 16
  eSave core dp (levelMaps e)
  let np ← eCheck core accRmw (dWord e.words 11) 0 (mapBytes e.words)
  eClear core e.words (dWord e.words 11) np
  let c0 ← eCheck core accAmo e.desc 0x70 8
  let c ← eCnt0 core e.desc
  eSwap core (cnt0Word c.1 e.mf1) c0
  let c1 ← eCheck core accAmo e.desc 0x78 8
  eSwap core (levelCnt1 e (levelPull e c.1)) c1
  act fun s => levelTurn s core e (levelPull e c.1)

/-- LEVEL_END: a run that is to end ends; else, when every engine has finished and no chunk is left, the level ends: first
every engine is in LEVELEND, then the leader does its work (R308, R313). -/
def execLevelEnd (core : Nat) (s : State) : Out :=
  let e := getEdge s core
  .next (
    if e.words.isEmpty || dCore0 e.words != core then s
    else match endingOf s e.words with
      | some st => endRun s core st
      | none =>
        if e.active .levelEnd then engDo s core (endLevel core e)
        else if allFree s e.words && !e.switch && (runCores e.words).all fun n => (getCore s n).dq.count == 0 then
          (runCores e.words).foldl (fun t n => modEdge t n fun x => { x with st := .levelEnd }) s
        else s)

/-- What is left of the push entries in a core's deque is discarded (R315). -/
def dropPush (s : State) (core : Nat) : State := modCore s core fun x => { x with dq := { x.dq with top := x.dq.bottom } }

/-- The switch to pull in the middle of a level: merges and the push entries first, then CNT1 and the pull phase (R315). -/
def midSwitch (core : Nat) (e : EdgeEng) : EngM Unit := do
  act fun s => (runCores e.words).foldl dropPush (mergeCores s none (fun _ => true) (runCores e.words))
  let cp ← eCheck core accAmo e.desc 0x78 8
  let c1 := cnt1Phase e.cnt1 3 true
  eSwap core c1 cp
  act fun s => startPhase (noteCnt1 s e.words c1) e.words true true

/-- MID_LEVEL_SWITCH: a switch has been signalled and every engine has finished its chunk (R315). -/
def execMidLevelSwitch (core : Nat) (s : State) : Out :=
  let e := getEdge s core
  .next (
    if !e.words.isEmpty && dCore0 e.words == core && e.switch && allFree s e.words && (endingOf s e.words).isNone then
      engDo s core (midSwitch core e)
    else s)

end Sys2Proof.Machine
end

