-- ==== Sys2Proof/Machine/Sched.lean ====
section
/-!
DEFINITION. From admission to issue: commands at a row's boundary (R48, R58), the inboxes and the Stoker (R326-R328), run
queues and dispatch (R138, R140), the host queue (R370), the bank scheduler (R330-R337), BUDGET (R45), upcalls (R341) and
barrier arrivals (R262).
-/

namespace Sys2Proof.Machine

/-! ## Commands (R47, R48, R58) -/

/-- Apply a command at the row's boundary: not while its store is stalled on the full FIFO (R56, R58). -/
def atBoundary (s : State) (r : RowId) (f : State → State) : Out :=
  .next (if rowBusy s r none || !corePresent s r.core || !decide (r.row < 256) then s else f s)

/-- NONE: AUTORES and PRI, and PRIV from a privileged storer (R47). -/
def execCtlNone (r : RowId) (v : Word) (priv : Bool) (s : State) : Out :=
  atBoundary s r fun t => storeCtl t r (v &&& ~~~7#64) priv 4

/-- KINDLE (R48). -/
def execKindle (r : RowId) (s : State) : Out := atBoundary s r fun t => cmdKindle t r
/-- STOP (R48). -/
def execStop (r : RowId) (s : State) : Out := atBoundary s r fun t => cmdStop t r
/-- REDIRECT (R48). -/
def execRedirect (r : RowId) (s : State) : Out := atBoundary s r fun t => cmdRedirect t r
/-- STEP (R48). -/
def execStepOne (r : RowId) (s : State) : Out := atBoundary s r fun t => cmdStep t r
/-- RESUME (R48). -/
def execResume (r : RowId) (s : State) : Out := atBoundary s r fun t => cmdResume t r
/-- SKIP (R48, R148). -/
def execSkip (r : RowId) (s : State) : Out :=
  atBoundary s r fun t => cmdSkip (peekForce t r) r (peekLen (peekForce t r) r)

/-! ## The bank scheduler (R330-R337) -/

/-- Class of row `k` of a core. -/
def classOf (s : State) (core k : Nat) : Nat := (getRow s ⟨core, k⟩).pri

/-- Change slot `k` of a bank. -/
def modSlot (s : State) (core bank k : Nat) (f : Slot → Slot) : State :=
  modBank s core bank fun b => b.setSlot k (f (b.slot k))

/-- The row that a selection picks: of the READY rows that are not held, the oldest of the highest class (R334, R388). -/
def pickRow (s : State) (core : Nat) (b : Bank) : Option (Nat × Nat) :=
  let held := s.pkg.thawHold.isSome
  let ok := b.ready.filterMap fun (k, a) =>
    if held && !(getRow s ⟨core, k⟩).priv then none else some (k, a.getD 0)
  ok.foldl (fun (best : Option (Nat × Nat)) x =>
    match best with
    | none => some x
    | some y =>
      let cx := classOf s core x.1
      let cy := classOf s core y.1
      if cy < cx ∨ (cx = cy ∧ x.2 < y.2) then some x else best) none

/-- The slot that a selection may fill: not the running one; an EMPTY one, else, when an event asks for a selection, one
whose row has a lower class than `c` and is not running (R334). A selection is a turn of its own, so it may come later than
the event: DESIGN CHOICE, log entry 62. -/
def freeSlot (s : State) (core : Nat) (b : Bank) (c : Nat) : Option Nat :=
  let cand := [0, 1].filter fun k => b.runSlot != some k
  match cand.filter fun k => (b.slot k).st == .empty with
  | k :: _ => some k
  | [] =>
    if b.due ≠ 0 then
      (cand.filter fun k => ((b.slot k).st == .opening || (b.slot k).st == .opn) && decide (classOf s core (b.slot k).row < c)).head?
    else none

/-- A slot with its class read anew; a running row that was lowered is not displaced for that until its quantum expires (R336). -/
def Slot.reread (x : Slot) (c : Nat) : Slot := { x with cls := c, keep := if x.st = .running then max x.keep c else c }

/-- The classes of the READY rows and of the rows in the slots are read at a selection (R330, R336). -/
def readClasses (s : State) (core : Nat) (b : Bank) : Bank :=
  { b with classes := b.ready.foldl (fun m x => smSet 0 m x.1 (classOf s core x.1)) [],
           slot0 := b.slot0.reread (classOf s core b.slot0.row), slot1 := b.slot1.reread (classOf s core b.slot1.row) }

/-- Does a displaced row go back to the READY set? -/
def goesBack (s : State) (core : Nat) (x : Slot) : Bool :=
  x.st != .empty && (getRow s ⟨core, x.row⟩).st == .ready && !(getRow s ⟨core, x.row⟩).orphan

/-- SELECTION (R334): the picked row goes to OPENING; a row of lower class that stood there is closed without running and
keeps its age, and its return to the set asks for another selection. A selection uses up one of the events that ask for it. -/
def execSelection (core bank : Nat) (s : State) : Out :=
  let b := getBank s core bank
  .next (
    match pickRow s core b with
    | none => s
    | some (k, age) =>
      let c := classOf s core k
      match freeSlot s core b c with
      | none => modBank s core bank fun b => if b.due = 0 then b else { readClasses s core b with due := b.due - 1 }
      | some j =>
        let old := b.slot j
        let back := goesBack s core old
        let s1 := modBank s core bank fun b =>
          let ready := smErase b.ready k
          { readClasses s core { b with ready := if back then smPut ready old.row (some old.age) else ready } with
            nextAge := b.nextAge + 1, due := b.due - 1 + back.toNat }
        modSlot s1 core bank j fun _ => ⟨.opening, k, false, age, false, b.nextAge, c, c⟩)

/-- The running position passes to an OPEN row of a higher class, as read at the last selection, at the running row's
boundary (R332, R336). -/
def preempt (s : State) (core bank : Nat) : State :=
  let b := getBank s core bank
  match b.runSlot with
  | none => s
  | some k =>
    let o := b.slot (1 - k)
    let r : RowId := ⟨core, (b.slot k).row⟩
    if o.st = .opn ∧ (b.slot k).keep < o.cls ∧ (getRow s r).stalled = false then closeRow s r else s

/-- The slot of a bank that began to open first (R331). -/
def openingSlot (b : Bank) : Option Nat :=
  match b.slot0.st == .opening, b.slot1.st == .opening with
  | true, true => some (if b.slot0.seq ≤ b.slot1.seq then 0 else 1)
  | true, false => some 0
  | false, true => some 1
  | false, false => none

/-- OPENING_COMPLETE (R331): the row is OPEN, or RUNNING when no row holds the position; a row that has left READY during
the open closes without issuing (R337). DESIGN CHOICE, log entry 62. -/
def execOpeningComplete (core bank : Nat) (s : State) : Out :=
  let b := getBank s core bank
  .next (
    match openingSlot b with
    | none => s
    | some k =>
      if (b.slot k).quit || (getRow s ⟨core, (b.slot k).row⟩).st != .ready then
        modSlot s core bank k fun x => { x with st := .closing }
      else
        let t := bump s core 2 1
        if b.runSlot.isSome then preempt (modSlot t core bank k fun x => { x with st := .opn }) core bank
        else modBank (modSlot t core bank k fun x => { x with st := .running }) core bank fun b => { b with quantum := 0 })

/-- Slot `k` of a bank is EMPTY; a row still READY rejoins the set, with the age it had when it issued nothing and never left
READY (R330, R331, R337). -/
def closeDone (s : State) (core bank k : Nat) : State :=
  let x := (getBank s core bank).slot k
  let r : RowId := ⟨core, x.row⟩
  let s1 := modBank s core bank fun b => { b.setSlot k {} with due := b.due + 1 }
  if (getRow s r).st ≠ .ready ∨ (getRow s r).orphan = true then s1
  else if x.issued || x.quit then joinReady s1 r
  else modBank s1 core bank fun b =>
    { b with ready := smPut b.ready x.row (some x.age), classes := smSet 0 b.classes x.row (classOf s core x.row), due := b.due + 1 }

/-- CLOSING_COMPLETE (R331): of two slots that are CLOSING, a free value says which has written back its sectors first.
DESIGN CHOICE, log entry 62. -/
def execClosingComplete (core bank : Nat) (s : State) : Out :=
  let b := getBank s core bank
  .next (
    match b.slot0.st == .closing, b.slot1.st == .closing with
    | true, true => let (f, t) := freeWord s; closeDone t core bank (f.toNat % 2)
    | true, false => closeDone s core bank 0
    | false, true => closeDone s core bank 1
    | false, false => s)

/-- The 256th cycle of a quantum: a selection reads the classes, and that of the running row counts (R333, R334, R336). -/
def quantumEvent (s : State) (core bank k : Nat) : State :=
  modBank s core bank fun b =>
    let t := readClasses s core b
    { t.setSlot k { t.slot k with keep := (t.slot k).cls } with due := b.due + 1 }

/-- `n` cycles of the running position of slot `k`: at the 256th of a quantum a new one begins, unless a row of equal or higher
class is READY; the position then ends at the row's next boundary (R332, R333). -/
def quantumCycles (s : State) (core bank k n : Nat) : State :=
  let q := (getBank s core bank).quantum
  let put := fun (t : State) (v : Nat) => modBank t core bank fun b => { b with quantum := v }
  if 256 ≤ q ∨ q + n < 256 then put s (q + n)
  else
    let t := quantumEvent s core bank k
    put t (if rivalReady t ⟨core, ((getBank s core bank).slot k).row⟩ then q + n else (q + n) % 256)

/-- The quantum of a bank has expired while a rival was READY: the position ends at a boundary while one of equal or higher
class is READY, else the row goes on in a new quantum; a row stalled on the full FIFO keeps its position (R332, R333). -/
def expire (s : State) (core bank : Nat) : State :=
  let b := getBank s core bank
  match b.runSlot with
  | none => s
  | some k =>
    let r : RowId := ⟨core, (b.slot k).row⟩
    if b.quantum < 256 ∨ (getRow s r).stalled = true then s
    else if rivalReady s r then closeRow s r
    else modBank s core bank fun b => { b with quantum := b.quantum % 256 }

/-- QUANTUM_EXPIRY (R333). -/
def execQuantumExpiry (core bank : Nat) (s : State) : Out := .next (expire s core bank)

/-- `n` cycles of a bank: CYCLES follows bank 0, FIFOSTALL the cycles of a store that waits for the FIFO, and the quantum
and the row's BUDGET count those in the running position; a step to 0 makes a BUDGET trap due (R45, R70, R81, R333).
DESIGN CHOICE, log entry 97. -/
def charge (s : State) (core bank n : Nat) : State :=
  let s0 := if bank = 0 then bump s core 0 n else s
  let b := getBank s0 core bank
  match b.runSlot with
  | none => s0
  | some k =>
    let r : RowId := ⟨core, (b.slot k).row⟩
    let w := getRow s0 r
    let s1 := quantumCycles (if w.stalled && !relDated w then bump s0 core 3 n else s0) core bank k n
    modRow s1 r fun w =>
      let v := w.budget.toNat
      if v = 0 then w else if n < v then { w with budget := wNat (v - n) } else { w with budget := 0, due := true }

/-- The cycles of a step of `n` cycles in which the position of a bank stays as it is: where its quantum expires while a rival
is READY, the step ends with that cycle (R333). DESIGN CHOICE, log entry 97. -/
def stepCycles (s : State) (core bank n : Nat) : Nat :=
  let b := getBank s core bank
  match b.runSlot with
  | none => n
  | some k =>
    let r : RowId := ⟨core, (b.slot k).row⟩
    if !(getRow s r).stalled && rivalReady (quantumEvent s core bank k) r then min n (256 - b.quantum) else n

/-- Raise a due BUDGET trap at a boundary (R45, R339). -/
def budgetTrap (s : State) (r : RowId) : State :=
  let w := getRow s r
  raise s r (Trap.plain cBUDGET w.pc) w.rstep

/-- BUDGET (R45): cycles pass in the running position of a bank; the trap comes at the next boundary, and so does the end of
an expired quantum (R333). -/
def execBudget (core bank n : Nat) (s : State) : Out :=
  let t := charge s core bank (stepCycles s core bank n)
  .next (
    match (getBank t core bank).runSlot with
    | none => t
    | some k =>
      let r : RowId := ⟨core, ((getBank t core bank).slot k).row⟩
      if (getRow t r).due && !(getRow t r).stalled then budgetTrap t r else expire t core bank)

/-! ## Inboxes and the Stoker (R326-R328) -/

/-- The die whose inbox takes a held packet. DEDUCED, log entry 53. -/
def heldDie (h : Held) : Nat :=
  match h.pkt.core with
  | some c => dieOf c
  | none => h.die

/-- The partition that a held packet counts for: a record of Yelfa's own takes that of the core it names (R136). -/
def heldPart (s : State) (h : Held) : Option Nat :=
  if h.pkt.own then (match h.pkt.core with
    | some c => partOf s c
    | none => none)
  else some h.pkt.part

/-- Put a packet into an inbox: at its end, but one that a replay has taken out of a log before the others (R138, R355). -/
def inboxPut (d : Die) (p : Packet) : Die :=
  { d with inbox := if p.replayed then d.inbox.filter (·.replayed) ++ [p] ++ d.inbox.filter fun x => !x.replayed else d.inbox ++ [p] }

/-- INBOX_ENTRY: a held packet enters the inbox when there is room, ahead of later packets held for it; a record whose
core is bound to no partition waits (R136, R326). -/
def execInboxEntry (i : Nat) (s : State) : Out :=
  .next (
    match s.held[i]? with
    | none => s
    | some h =>
      match heldPart s h with
      | none => s
      | some p =>
        let earlier := (s.held.take i).any fun x => heldDie x == heldDie h && heldPart s x == some p
        if earlier || decide (2048 ≤ inboxCount s (heldDie h) p) then s
        else
          modDie { s with held := dropNth s.held i } (heldDie h) fun d => inboxPut d { h.pkt with part := p, own := false })

/-- Channel `c` of a core. -/
def chanOf (s : State) (core c : Nat) : Chan := smGet {} (getCore s core).chans c

/-- CFG.VALID, bit 2. -/
def Chan.valid (c : Chan) : Bool := c.cfg.testBit 2
/-- CFG.GATE, bit 3. -/
def Chan.gate (c : Chan) : Bool := c.cfg.testBit 3

/-- Score of a candidate core for a packet (R327). -/
def score (s : State) (p : Packet) (core : Nat) : Nat :=
  (getCore s core).runq.length + (match p.sender with
    | some n => if clOf n = clOf core then 0 else 8
    | none => 0)

/-- The candidate with the lowest score, the lowest number among equals (R327). -/
def stokerChoice (s : State) (die : Nat) (p : Packet) : Option Nat :=
  let chan := pktChan (p.words.getD 0 0)
  let cand := (List.range' (160 * die) 160).filter fun n =>
    partOf s n == some p.part && (chanOf s n chan).valid && !withheld s (clOf n) && !(getCore s n).failed
  cand.foldl (fun (b : Option Nat) n =>
    match b with
    | none => some n
    | some m => if score s p n < score s p m then some n else b) none

/-- Is there an earlier unbound packet of the same source and channel in the inbox (R368)? -/
def boundBehind (s : State) (die i : Nat) (p : Packet) : Bool :=
  ((getDie s die).inbox.take i).any fun x => x.core.isNone && x.sender == p.sender && x.part == p.part &&
    pktChan (x.words.getD 0 0) == pktChan (p.words.getD 0 0)

/-- STOKER_BIND (R327): packets of one source and channel in their order (R368). -/
def execStokerBind (die i : Nat) (s : State) : Out :=
  .next (
    match (getDie s die).inbox[i]? with
    | none => s
    | some p =>
      match p.core with
      | some _ => s
      | none =>
        match (if boundBehind s die i p then none else stokerChoice s die p) with
        | none => s
        | some n => modDie s die fun d => { d with inbox := modNth (fun x => { x with core := some n }) d.inbox i })

/-- Put a packet into a core's run queue, with its channel's class (R138). -/
def enterRunq (s : State) (core : Nat) (p : Packet) : State :=
  let cls := (chanOf s core (pktChan (p.words.getD 0 0))).cfg % 4
  modCore s core fun c => { c with runq := c.runq ++ [{ p with cls := cls }] }

/-- Count a packet that reaches a core from a core's row (R351). -/
def receivedPkt (s : State) (core : Nat) (p : Packet) : State :=
  if p.sender.isSome then modCore s core fun c => { c with received := c.received + 1 } else s

/-- The die that a notice about something on `die` goes to: the survivor when `die` has failed (R375). -/
def noticeDie (s : State) (die : Nat) : Nat := if (getDie s die).failed then 1 - die else die

/-- Send an orphan notice to the host queue of a die (R369). DEDUCED, log entry 61. -/
def orphan (s : State) (die seq kind num : Nat) (task va : Word) : State :=
  let q := (getDie s die).hostq
  let core := Wbits q 14 6
  let ws := [header seq core (Wbits q 5 0) 0 0, wNat (2 ^ 63 + 2 ^ 8 * kind + num % 2 ^ 8), task, va]
  { s with held := s.held ++ [⟨die, ownPacket ws core⟩] }

/-- The notice of a packet that waits: TASK as its dispatch would have written it, and no row. -/
def orphanPacket (s : State) (die kind num : Nat) (p : Packet) : State :=
  let h := p.words.getD 0 0
  orphan s die (pktSeq h) kind num (wNat (2 ^ 32 * pktSeq h + 0x80 + pktChan h)) 0

/-- Has the row that sent a packet an older access to the packet's partition that is not yet in its log (R107)? -/
def sendBehind (s : State) (p : Packet) : Bool :=
  match p.birth with
  | some (r, id) => logBefore s r p.part id p.part
  | none => false

/-- RUN_QUEUE_ENTRY: the first packet of a core in the inbox enters its run queue when there is room and the cluster is not
withheld (R138, R328); one for a swapped-out partition goes to its log, unless a replay has taken it out (R354, R355); one
for a core that has failed is orphaned (R369). -/
def execRunQueueEntry (die i : Nat) (s : State) : Out :=
  .next (
    match (getDie s die).inbox[i]? with
    | none => s
    | some p =>
      match p.core with
      | none => s
      | some n =>
        let first := !((getDie s die).inbox.take i).any fun x => x.core == some n
        let pop := fun (t : State) => modDie t die fun d => { d with inbox := dropNth d.inbox i }
        if (getCore s n).failed then orphanPacket (pop s) (noticeDie s die) 1 (n % 160) p
        else if !first || withheld s (clOf n) then s
        else if aimedPart s n p.part && !p.replayed then
          if sendBehind s p then s else
          let (ok, t) := logAdd s n p.part (.packet p)
          if ok then pop t else t
        else if 32 ≤ (getCore s n).runq.length then s
        else enterRunq (receivedPkt (pop s) n p) n { p with replayed := false })

/-! ## Dispatch (R138, R140, R370) -/

/-- The lowest free row of a channel's pool: STOPPED, closed, with no task (R138). -/
def freeRow (s : State) (core : Nat) (c : Chan) : Option Nat :=
  (List.range 256).find? fun k =>
    let pool := if k < 64 then c.pool0 else if k < 128 then c.pool1 else if k < 192 then c.pool2 else c.pool3
    let r : RowId := ⟨core, k⟩
    pool.getLsbD (k % 64) && (getRow s r).st == .stopped && !isOpen s r && !(getRow s r).task.getLsbD 7

/-- Is a channel of a core the host queue of its die (R370)? DEDUCED, log entry 70. -/
def isHostq (s : State) (core c : Nat) : Bool :=
  let q := (getDie s (dieOf core)).hostq
  Wbits q 14 6 == core && Wbits q 5 0 == c

/-- May the packet of channel `c` go: to a row, or to the host ring (R138, R370)? -/
def chanReady (s : State) (core c : Nat) : Bool :=
  let ch := chanOf s core c
  ch.valid && !ch.hold && (!ch.gate || ch.ready) &&
  (if isHostq s core c then hqRoom s (dieOf core) else (freeRow s core ch).isSome)

/-- The oldest eligible packet of a run queue: the first of its channel whose channel is ready (R138). -/
def eligible (s : State) (core : Nat) : (seen : List Nat) → (i : Nat) → List Packet → Option (Nat × Packet)
  | _, _, [] => none
  | seen, i, p :: ps =>
    let c := pktChan (p.words.getD 0 0)
    if !seen.contains c && chanReady s core c then some (i, p) else eligible s core (c :: seen) (i + 1) ps

/-- The packet that a core dispatches next; none while its partition is gang-stopped (R350) or the core has failed. -/
def nextPacket (s : State) (core : Nat) : Option (Nat × Packet) :=
  if coreHalted s core || (getCore s core).failed then none else eligible s core [] 0 (getCore s core).runq

/-- Remove packet `i` from a run queue; a gated channel's READY is cleared. -/
def popRunq (s : State) (core i c : Nat) : State :=
  modCore s core fun x =>
    let ch : Chan := smGet {} x.chans c
    { x with runq := dropNth x.runq i, chans := if ch.gate then smSet {} x.chans c { ch with ready := false } else x.chans }

/-- Write the control block of a dispatched row (R138). DEDUCED, log entry 69. A BUDGET trap that was still due when the row's last
task ended is gone: DESIGN CHOICE, log entry 121. -/
def startTask (s : State) (r : RowId) (p : Packet) (ch : Chan) : State :=
  let h := p.words.getD 0 0
  modRow s r fun w =>
    { w with pc := ch.entry &&& ~~~1#64, rstep := 0, marked := [], fetchLen := none, work := 0, due := false,
             task := wNat (2 ^ 32 * pktSeq h + 0x80 + pktChan h), pri := p.cls, autores := ch.cfg.testBit 4,
             priv := ch.cfg.testBit 5, cmderr := false, orphan := false }

/-- DISPATCH: the oldest eligible packet goes into the lowest free row of its channel's pool, as one event (R138). -/
def execDispatch (core : Nat) (s : State) : Out :=
  .next (
    match nextPacket s core with
    | none => s
    | some (i, p) =>
      let c := pktChan (p.words.getD 0 0)
      let ch := chanOf s core c
      if isHostq s core c then s
      else match freeRow s core ch with
        | none => s
        | some k =>
          let r : RowId := ⟨core, k⟩
          let len := pktLen (p.words.getD 0 0)
          let s1 := popRunq s core i c
          let s2 := fillBytes s1 r pktWord (p.words.flatMap fun w => leBytes 8 w.toNat)
          let s3 := setX (setX s2 r 1 (rowVa s2 r + 0xA80)) r 2 (wNat len)
          makeReady (startTask s3 r p ch) r)

/-- HOST_QUEUE_WRITE: the oldest eligible packet, of the host-queue channel, goes to the host ring (R370). -/
def execHostQueueWrite (die : Nat) (s : State) : Out :=
  let core := Wbits (getDie s die).hostq 14 6
  .next (
    if dieOf core ≠ die then s
    else match nextPacket s core with
      | none => s
      | some (i, p) =>
        let c := pktChan (p.words.getD 0 0)
        if isHostq s core c then hqWrite (popRunq s core i c) die p.words else s)

/-! ## Upcalls (R341) -/

/-- May the record of the oldest queued faulted row be delivered: nothing is served, and the upcall row is free (R341)? -/
def upcallReady (s : State) (core p : Nat) : Bool :=
  let v := (getPart s p).upcall
  let u : RowId := ⟨core, Wbits v 7 0⟩
  !(getCore s core).serving && (getRow s u).st == .stopped && !isOpen s u && !coreHalted s core && Wbits v 63 8 != 0

/-- UPCALL_DELIVERY: the record of the oldest queued faulted row is placed in the upcall row, which starts at ENTRY; a row
that has left FAULTED is discarded (R341). -/
def execUpcallDelivery (core : Nat) (s : State) : Out :=
  .next (
    match (getCore s core).faultq, partOf s core with
    | f :: rest, some p =>
      let v := (getPart s p).upcall
      let u : RowId := ⟨core, Wbits v 7 0⟩
      if !upcallReady s core p then s
      else
        let s1 := modCore s core fun c => { c with faultq := rest }
        if (getRow s ⟨core, f⟩).st ≠ .faulted then s1
        else
          let rcd := faultRecord s1 ⟨core, f⟩
          let s2 := fillBytes (nextRec s1 core) u pktWord (rcd.flatMap fun w => leBytes 8 w.toNat)
          let s3 := setX (setX s2 u 1 (rowVa s2 u + 0xA80)) u 2 64
          let s4 := modRow s3 u fun w =>
            { w with pc := wNat (256 * Wbits v 63 8), rstep := 0, marked := [], fetchLen := none, work := 0, cmderr := false,
                     orphan := false }
          makeReady (modCore s4 core fun c => { c with serving := true }) u
    | _, _ => s)

/-! ## Barriers and deques (R261-R265) -/

/-- The reply to an arrival message carries `res` to D (R262). -/
def arrivalReply (s : State) (id res : Nat) : State :=
  settle (modReq s id fun y => { y with todo := [], logged := 0, buf := (leBytes 8 res).zipIdx.map fun (b, k) => (k, b) }) id

/-- An arrival message acts at the barrier, and its reply carries the result to D (R262). -/
def arrivalDo (s : State) (q : Req) (core bar : Nat) : State :=
  let (res, t) := arriveBy (received s q.row.core core) q.row core bar
  arrivalReply t q.id res

/-- BARRIER_ARRIVAL: the arrival message of request `i` reaches the barrier's core, after the row's earlier accesses; one for
a swapped-out partition goes to its log, and D takes 3 (R262, R264, R354). -/
def arrivalStep (s : State) (q : Req) (core bar : Nat) : State :=
  let before := storeOrder s q.row q.part q.id && (dieOf core == dieOf q.row.core || devDone s q.row q.part q.id)
  if q.todo.isEmpty || !before then s
  else if aimedPart s core q.part && logBefore s q.row q.part q.id q.part then s
  else if aimedPart s core q.part then
    let (ok, t) := logAdd s core q.part (.arrival q.row core bar)
    if ok then arrivalReply t q.id 3 else t
  else arrivalDo s q core bar

/-- BARRIER_ARRIVAL (R262). -/
def execBarrierArrival (i : Nat) (s : State) : Out :=
  .next (
    match s.reqs.find? fun q => q.id == i with
    | none => s
    | some q =>
      match q.kind with
      | .arrive core bar => arrivalStep s q core bar
      | _ => s)

/-- BSTATE_WRITE (R261). -/
def execBstateWrite (core b : Nat) (v : Word) (s : State) : Out :=
  .next (if corePresent s core && decide (b < 256) then barWrite s core b v else s)

/-- DEQUE_CLEAR (R265): CLEAR leaves VICTIM and POPSTEAL as they are. -/
def execDequeClear (core : Nat) (s : State) : Out :=
  .next (if corePresent s core then modDq s core fun q => { q with top := q.bottom } else s)

end Sys2Proof.Machine
end

