-- ==== Sys2Proof/Machine/Outside.lean ====
section
/-!
DEFINITION. What reaches the package from outside: the host through its BARs and CXL (R361-R363, R371, R372), peers over
Flisen (R373, R374), and the inbox queues (R364-R368). A read, or a refusal, leaves its answer in `hostReply`
(DESIGN CHOICE, log entry 17).
-/

namespace Sys2Proof.Machine

/-- The stand-in for an agent that is no row. -/
def outsider : RowId := ⟨320, 0⟩

/-- The path an outside access comes by: ASID, privilege, EN, and the core that R397 gives it. -/
structure Path where
  en : Bool
  asid : Nat
  priv : Bool
  core : Nat
  deriving DecidableEq, Repr

/-- Decode SY.HOSTPATH or SY.FLPORT (R363). -/
def pathOf (v : Word) (die : Nat) : Path := ⟨v.getLsbD 0, Wbits v 63 52, v.getLsbD 1, 160 * die⟩

/-- The path of a die's host link. -/
def hostPathOf (s : State) (die : Nat) : Path := pathOf (getDie s die).hostpath die

/-- The path of a Flisen port: ports 0-7 on die 0, 8-15 on die 1. -/
def portPathOf (s : State) (port : Nat) : Path := pathOf (smGet 0 s.pkg.flport port) (port / 8)

/-- The path of an agent. -/
def agentPath (s : State) : Agent → Path
  | .host d => hostPathOf s d
  | .peer n => portPathOf s n

/-- Is a die's host link up (R361, R375, R389)? -/
def linkUp (s : State) (die : Nat) : Bool :=
  s.pkg.boot.isNone && decide (die < 2) && !(getDie s die).failed && !(s.pkg.minimal && die == 1)

/-- Does an agent reach the device now: a host by a link that is up, a peer by a port of a die that is present and works (R361,
R375, R392)? -/
def agentUp (s : State) : Agent → Bool
  | .host d => linkUp s d
  | .peer n => decide (n < 16) && s.pkg.boot.isNone && !(getDie s (n / 8)).failed && !(s.pkg.minimal && decide (8 ≤ n))

/-- Answer an outside access. -/
def answer (s : State) (bs : Option (List Byte)) : State := { s with hostReply := bs }

/-- The aligned 16-byte pieces of `n` bytes at `pa`: address, offset and length. -/
def outPieces (pa n : Nat) : List (Nat × Nat × Nat) := (chunks 16 pa n (n / 16 + 2) 0).map fun (off, len) => (pa + off, off, len)

/-! ## Physical accesses -/

/-- What an outside access does. -/
inductive OutAct where
  | read | write | rmw
  deriving DecidableEq, Repr

/-- May the path touch a piece at `x` of an access of `n` bytes at `pa` (R20, R47, R55, R361, R374, R375)? A control page
takes one aligned word, and CTL a store of exactly its 8 bytes. DEDUCED, log entry 56. -/
def pieceOk (s : State) (p : Path) (act : OutAct) (pa n x : Nat) : Bool :=
  let word := n == 8 && pa % 8 == 0 && act != .rmw
  !lostFail s x && (match region s x with
    | .gddr => true
    | .row r _ off => act == .read || (!(!p.priv && privAt s p.asid r) && (decide (8 ≤ off) || word))
    | .ctl _ _ => word
    | _ => false)

/-- Is the access of `n` bytes at `pa` accepted? -/
def outOk (s : State) (p : Path) (act : OutAct) (pa n : Nat) : Bool :=
  p.en && n != 0 && (outPieces pa n).all fun x => pieceOk s p act pa n x.1

/-- The core of a row-store or control-page address. -/
def outCore (s : State) (pa : Nat) : Option Nat :=
  match region s pa with
  | .row r _ _ => some r.core
  | .ctl c _ => some c
  | _ => none

/-- The core and the swapped-out or replaying partition that an outside access at `pa` is aimed at (R354). -/
def outAimed (s : State) (p : Path) (pa : Nat) : Option (Nat × Nat) :=
  (outCore s pa).bind fun c => (aimedAsid s c p.asid).map fun k => (c, k)

/-- Must a piece wait: its row is at no boundary (R56)? -/
def pieceWaits (s : State) (x : Nat × Nat × Nat) : Bool :=
  match region s x.1 with
  | .row r _ _ => rowBusy s r none
  | _ => false

/-- The store entry that an outside store leaves in an arrival log. -/
def outEntry (p : Path) (pa : Nat) (bs : List Byte) (fe : Bool) : StEnt :=
  ⟨0, outsider, 0, p.priv, ⟨0, pa, bs.length, 0, p.asid, 0, true, false, 1, 0⟩, if fe then .feSet else .plain, false, bs, []⟩

/-- Write one piece: at the bank, the control page, or memory past every cached copy (R53, R56, R362, R372). -/
def outWritePiece (s : State) (p : Path) (pa : Nat) (bs : List Byte) (fe : Bool) : State :=
  match region s pa with
  | .row r _ off => rowStore s r off bs fe p.priv (some outsider)
  | .ctl c off => ctlWrites s c off p.priv bs (bs.length / 8)
  | _ => outsideWrite s pa bs

/-- Append the pieces of a store to the log of partition `k` at a core. False: one does not fit. -/
def logPieces (s : State) (p : Path) (core k : Nat) (bs : List Byte) (fe : Bool) : List (Nat × Nat × Nat) → Bool × State
  | [] => (true, s)
  | x :: xs =>
    match logAdd s core k (.store (outEntry p x.1 ((bs.drop x.2.1).take x.2.2) fe)) with
    | (true, t) => logPieces t p core k bs fe xs
    | (false, t) => (false, t)

/-- A store from outside, plain or `fe.set`, performed or logged (R354); with one piece that must wait nothing is performed. Its
16-byte pieces are performed in one event in ascending order: DESIGN CHOICE, log entry 118. -/
def outWrite (s : State) (p : Path) (pa : Nat) (bs : List Byte) (fe : Bool) : State :=
  let xs := outPieces pa bs.length
  match outAimed s p pa with
  | some (c, k) =>
    (match logPieces s p c k bs fe xs with
      | (true, t) => answer t none
      | (false, _) => logFull s c k)
  | none =>
    if xs.any (pieceWaits s) then s
    else answer (xs.foldl (fun t x => outWritePiece t p x.1 ((bs.drop x.2.1).take x.2.2) fe) s) none

/-- Read pieces in order, in one event (log entry 118), with `fe` as in `rowLoad` (R53, R362, R372); none when one has an
uncorrectable error. -/
def outReads (s : State) (fe : Nat) : List (Nat × Nat × Nat) → Option (List Byte) × State
  | [] => (some [], s)
  | x :: xs =>
    let (rd, t) : Rd × State := match region s x.1 with
      | .row r _ off => rowLoad s r off x.2.2 fe
      | .ctl c off => (.ok (ctlReads s c off (x.2.2 / 8)), s)
      | _ => outsideRead s x.1 x.2.2
    match rd with
    | .ok bs =>
      let (o, u) := outReads t fe xs
      (o.map (bs ++ ·), u)
    | _ => (none, t)

/-- The partition whose ASID a path carries. DEDUCED, log entry 51. -/
def asidPart (s : State) (asid : Nat) : Option Nat :=
  (List.range 64).find? fun k => (getPart s k).root.getLsbD 0 && asidOfPart s k == asid

/-- Read the 8 bytes after a counter cell's COUNT (R141, R246). -/
def outAction (s : State) (pa : Nat) : Rd × State :=
  match region s pa with
  | .row r _ off => rowLoad s r (off + 8) 8 0
  | _ => outsideRead s (pa + 8) 8

/-- The packet of a counter cell that a peer's decrement brings to 0, when ACTION is well formed; false: it is refused (R141,
R246). The access has no VA here, and USER is the cell's physical address: DESIGN CHOICE, log entry 106. -/
def outFire (s : State) (q : OutReq) (a : Word) : Bool × State :=
  match asidPart s q.asid with
  | some k =>
    if actionOk s (some k) a then
      let home := (homeDie s q.pa).getD (dieOf q.core)
      let ws := [header (Wbits a 63 32) (Wbits a 14 6) (Wbits a 5 0) 0 0, wNat q.pa, 0, 0]
      (true, { s with held := s.held ++ [⟨pktDie s k home (Wbits a 14 6), mkPacket ws k none⟩] })
    else (false, s)
  | none => (false, s)

/-- The home reads ACTION and sends the packet; the answer is `bs` and the status, 1 for a refused packet (R246). -/
def outSend (s : State) (q : OutReq) (bs : List Byte) : State :=
  match outAction s q.pa with
  | (.ok as, t) => let (sent, u) := outFire t q (wNat (leNat as)); answer u (some (bs ++ leBytes 8 (!sent).toNat))
  | (_, t) => answer t none

/-- The end of a peer's atomic that has read `bs`: the new value, in the issuer's rounding mode, unless a CAS failed; the answer;
for a decrement the packet at 0, and the status that the home returns (R245, R246). -/
def outAmoEnd (s : State) (q : OutReq) (fn : Nat) (b e : Word) (bs : List Byte) (put : State → List Byte → State) : State :=
  let m := 2 ^ (8 * q.n)
  let t := if fn == 9 && leNat bs != e.toNat % m then s
    else put s (leBytes q.n (amoNew fn q.n q.rm (leNat bs) (b.toNat % m) (e.toNat % m)).1)
  if fn = 10 then
    (if leNat bs = 1 then
      (match outAction t q.pa with
        | (.ok _, _) => outSend t q bs
        | (_, _) => answer s none)
    else answer t (some (bs ++ leBytes 8 0)))
  else answer t (some bs)

/-- An atomic from a peer, at the bank or past every cached copy, after merging update-only copies (R72, R245, R372), whose
flags go as log entry 102 says; false: it waits for a full word. -/
def outAmo (s : State) (q : OutReq) (fn : Nat) (b e : Word) : Bool × State :=
  match region s q.pa with
  | .row r _ off =>
    (match rowLoad s r off q.n 1 with
      | (.ok bs, t) => (true, outAmoEnd t q fn b e bs fun u v => rowStore u r off v false q.priv (some outsider))
      | (.wait, t) => (false, t)
      | (.memerr _ _, t) => (true, answer t none))
  | .gddr =>
    let t := flushWhere (mergeLine s q.pa none) (samePl (q.pa / 128))
    (match gddrRead t q.pa q.n with
      | .ok bs => (true, outAmoEnd t q fn b e bs fun u v => outsideWrite u q.pa v)
      | _ => (true, answer t none))
  | _ => (true, answer s none)

/-- Does an `fe` access wait at its bank: has a piece an empty word (R53)? -/
def outEmpty (s : State) (fe : Nat) (x : Nat × Nat × Nat) : Bool :=
  match region s x.1 with
  | .row r _ off => fe != 0 && !(emptyOf s r (rowWords off x.2.2)).isEmpty
  | _ => false

/-- An outside read or atomic is performed; false: it waits (R53, R56). -/
def outDo (s : State) (q : OutReq) : Bool × State :=
  let xs := outPieces q.pa q.n
  if xs.any (pieceWaits s) || xs.any (outEmpty s q.fe) then (false, s)
  else match q.amo with
    | some (16, _, _) => (true, outSend s q [])
    | some (fn, b, e) => outAmo s q fn b e
    | none => let (o, t) := outReads s q.fe xs; (true, answer t o)

/-- A read or an atomic from outside: performed, or appended to the log of the partition it is aimed at (R354). -/
def outReq (s : State) (p : Path) (pa n : Nat) (amo : Option (Nat × Word × Word)) (fe : Nat) (rm : RMode) : State :=
  let q : OutReq := ⟨p.asid, p.priv, p.core, pa, n, amo, fe, rm⟩
  match outAimed s p pa with
  | some (c, k) => (logAdd s c k (.outside q)).2
  | none => (outDo s q).2

/-- An outside access that a replay has put at a bank is tried again (R355). -/
def outWaitAt (s : State) (i : Nat) : State :=
  match s.outs[i]? with
  | none => s
  | some q =>
    let (ok, t) := outDo s q
    if ok then { t with outs := dropNth t.outs i } else t

/-- OUTSIDE_ACCESS: an access of the host or a peer to a row, at the row's next boundary (R55-R58). -/
def execOutsideAccess (who : Agent) (pa : Nat) (op : OutOp) (s : State) : Out :=
  let p := agentPath s who
  let inRow := match region s pa with
    | .row _ _ _ => true
    | _ => false
  .next (
    if !agentUp s who then s
    else if !inRow then answer s none
    else match op with
      | .read n => if outOk s p .read pa n && decide (n ≤ 16) then outReq s p pa n none 0 .rne else answer s none
      | .write bs => if outOk s p .write pa bs.length && decide (bs.length ≤ 16) then outWrite s p pa bs false else answer s none)

/-! ## Inbox queues (R364-R368) -/

/-- The die whose inbox takes a queue's packets that name no core: that of the ring's home. -/
def qDie (x : InQ) : Nat := x.qbase.toNat / 0x1000 % 2

/-- LAP of an index (R364). -/
def lapOf (x : InQ) (i : Nat) : Nat := Nat.xor (i / 2 ^ x.logn % 2) 1

/-- Physical address of the slot of index `i`. -/
def slotPa (x : InQ) (i : Nat) : Nat := x.qbase.toNat + 256 * (i % 2 ^ x.logn)

/-- Read `n` 32-byte units of a slot at the ring's home. -/
def slotRead (s : State) (x : InQ) : (n off : Nat) → List Byte × State
  | 0, _ => ([], s)
  | n + 1, off =>
    let rd := fun (t : State) (o : Nat) =>
      match homeRead t (qDie x) (physPart (slotPa x x.head + o) 16) with
      | (.ok bs, u) => (bs, u)
      | (_, u) => (List.replicate 16 0, u)
    let (a, t) := rd s off
    let (b, u) := rd t (off + 16)
    let (c, v) := slotRead u x n (off + 32)
    (a ++ b ++ c, v)

/-- TAIL (R367). -/
def execTail (q : Nat) (v : Word) (s : State) : Out := .next (tailWrite s q v)

/-- NOTIFY_WORD_STORE: the word at NADDR of a queue with NKIND = 1 is written from outside, which notifies the queue
(R366, R373). -/
def execNotifyWordStore (q : Nat) (v : Word) (s : State) : Out :=
  let x : InQ := smGet {} s.pkg.queues q
  let pa := alignDown x.naddr.toNat 8
  .next (if q < 256 && x.nkind && region s pa == .gddr then outsideWrite s pa (leBytes 8 v.toNat) else s)

/-- INBOX_CONTROL_WRITE (R366). -/
def execInboxControlWrite (q off : Nat) (v : Word) (s : State) : Out := .next (controlWrite s q off v)

/-- Admission goes on to the next index. -/
def qAdvance (x : InQ) : InQ := InQ.boundary { x with head := (x.head + 1) % 2 ^ 32, tries := 0, ready := none }

/-- Admission stops with TORN at HEAD, which is not consumed; newer values are taken up. -/
def qTorn (x : InQ) : InQ := InQ.boundary { x with code := 1, index := x.head, cur := none, tries := 0 }

/-- The packet of HEAD, read and judged, enters the inbox, or waits for room (R326, R367). -/
def qEnter (s : State) (q : Nat) (x : InQ) (pkt : Packet) : State :=
  let die := pktDie s x.part (qDie x) (pktCore (pkt.words.getD 0 0))
  if 2048 ≤ inboxCount s die pkt.part then modQ s q fun y => { y with ready := some pkt }
  else modQ (modDie s die fun d => { d with inbox := d.inbox ++ [pkt] }) q qAdvance

/-- ADMIT: one read of the header at HEAD. A LAP that differs is read again, up to 64 times or 10 microseconds (`late`);
a packet is then read whole, once, and enters the inbox, waits for room, or is dropped as BADPKT (R367). -/
def execAdmission (q : Nat) (late : Bool) (s : State) : Out :=
  let x : InQ := smGet {} s.pkg.queues q
  .next (
    match x.ready, x.cur with
    | some pkt, _ => qEnter s q x pkt
    | none, none => s
    | none, some _ =>
      let (hb, s1) := slotRead s x 1 0
      let h := wNat (leNat (hb.take 8))
      if Wbits h 6 6 ≠ lapOf x x.head then
        (if x.tries = 64 ∨ late = true then modQ s1 q qTorn else modQ s1 q fun y => { y with tries := y.tries + 1 })
      else
        let len := pktLen h
        let (bs, s2) := slotRead s1 x (len / 32) 0
        let ws := wordsOf bs (len / 8)
        if !wellFormed s2 (some x.part) ws then
          modQ s2 q fun y => qAdvance { y with code := 2, index := y.head }
        else qEnter s2 q x (mkPacket ws x.part none))

/-! ## The host (R361-R363) -/

/-- Physical address of an offset of BAR0 (R361). -/
def bar0Pa (off : Nat) : Nat := 0xF000000000000 + off

/-- A write through BAR0: 8 bytes, aligned (R361, R365, R366, R397). -/
def bar0Write (s : State) (p : Path) (off : Nat) (bs : List Byte) : State :=
  let v := wNat (leNat bs)
  if bs.length ≠ 8 ∨ off % 8 ≠ 0 then s
  else match region s (bar0Pa off) with
    | .sys k => sysWrite s p.core p.priv k v
    | .queue q ctl o => queueWrite s q ctl o v
    | _ => s

/-- A read through BAR0. -/
def bar0Read (s : State) (p : Path) (off n : Nat) : Option (List Byte) :=
  if n ≠ 8 ∨ off % 8 ≠ 0 then none
  else match region s (bar0Pa off) with
    | .sys k => some (leBytes 8 (sysRead s p.core p.priv k).toNat)
    | .queue q ctl o => some (leBytes 8 (queueRead s q ctl o).toNat)
    | _ => none

/-- Physical address of an offset in a window, when the window maps it (R361). -/
def barPa (bar : HostBar) (off n : Nat) : Option Nat :=
  match bar with
  | .bar0 => none
  | .bar2 => if off + n ≤ 0x3000000000 then some off else none
  | .bar4 => if off + n ≤ 320 * 0x1000000 then some (rowBase + off) else none
  | .cxlMem => if off + n ≤ 0x3000000000 then some off else none

/-- HOST_WRITE: refused accesses are dropped (R361-R363, R372). -/
def execHostWrite (link : Nat) (bar : HostBar) (off : Nat) (bytes : List Byte) (s : State) : Out :=
  let p := hostPathOf s link
  .next (
    if !linkUp s link || (bar == .cxlMem && !(getDie s link).cxl) then s
    else if bar = .bar0 then answer (bar0Write s p off bytes) none
    else match barPa bar off bytes.length with
      | some pa => if outOk s p .write pa bytes.length then outWrite s p pa bytes false else answer s none
      | none => answer s none)

/-- The region of a line that is to be entered in the directory of its home die: 64 KiB, unless one holds it. -/
def dirEnter (s : State) (pa : Nat) : State :=
  let d := pa / 0x1000 % 2
  let die := getDie s d
  if die.dir.any fun e => decide (e.1 ≤ pa) && decide (pa < e.1 + e.2) then s
  else
    let e := (alignDown pa 0x10000, 0x10000)
    modDie s d fun x =>
      if x.dir.length < 16384 then { x with dir := x.dir ++ [e] }
      else { x with dir := x.dir.drop 1 ++ [e], inval := x.inval ++ x.dir.take 1 }

/-- Is a region that holds `pa` being back-invalidated? -/
def invalidating (s : State) (pa : Nat) : Bool :=
  (getDie s (pa / 0x1000 % 2)).inval.any fun e => decide (e.1 ≤ pa) && decide (pa < e.1 + e.2)

/-- HOST_READ: a read through CXL.mem enters the regions of its lines in the directory (R361-R363, R371, R372). -/
def execHostRead (link : Nat) (bar : HostBar) (off n : Nat) (s : State) : Out :=
  let p := hostPathOf s link
  .next (
    if !linkUp s link || (bar == .cxlMem && !(getDie s link).cxl) then s
    else if bar = .bar0 then answer s (bar0Read s p off n)
    else match barPa bar off n with
      | some pa =>
        let xs := outPieces pa n
        if !outOk s p .read pa n then answer s none
        else if bar = .cxlMem then
          (if xs.any fun x => invalidating s x.1 then s else outReq (xs.foldl (fun t x => dirEnter t x.1) s) p pa n none 0 .rne)
        else outReq s p pa n none 0 .rne
      | none => answer s none)

/-- CXL_SNOOP: it reaches the host-memory copies of the link's die; a dirty one is written back, and an invalidating snoop
removes them (R372). -/
def execCxlSnoop (die pa : Nat) (inval : Bool) (s : State) : Out :=
  let hit := fun (x : Line) => x.die == die && x.pl == pa / 128 && region s pa == .host
  .next (if !linkUp s die || !(getDie s die).cxl then s else if inval then flushWhere s hit else cleanWhere s hit)

/-- DIRECTORY_MERGE: two quiet sibling regions become their parent (R371). -/
def execDirectoryMerge (die i : Nat) (s : State) : Out :=
  .next (
    match (getDie s die).dir[i]? with
    | none => s
    | some (a, n) =>
      let sib := if a / n % 2 = 0 then a + n else a - n
      if n < 0x10000 ∧ (getDie s die).dir.contains (sib, n) then
        modDie s die fun x =>
          { x with dir := (modNth (fun _ => (min a sib, 2 * n)) x.dir i).filter fun e => e != (sib, n) }
      else s)

/-- BACK_INVALIDATE_COMPLETION (R371). -/
def execBackInvalidateCompletion (die i : Nat) (s : State) : Out :=
  .next (modDie s die fun x => { x with inval := dropNth x.inval i })

/-! ## Peers (R373, R374) -/

/-- Before a peer's access the host gives up the lines of its pieces (R371). DEDUCED, log entry 46. -/
def peerForce (s : State) (pa n : Nat) : State := (outPieces pa n).foldl (fun t x => dirForce t x.1) s

/-- PEER_ACCESS: refused with EN = 0, by R55, or where the address is a hole here; the refusal is taken by the issuing
row on the peer (R373, R374). -/
def execPeerAccess (port pa : Nat) (op : PeerOp) (s : State) : Out :=
  let p := portPathOf s port
  .next (
    if !agentUp s (.peer port) then s
    else match op with
      | .load n => if outOk s p .read pa n then outReq (peerForce s pa n) p pa n none 0 .rne else answer s none
      | .feLoad n take =>
        if outOk s p .read pa n then outReq (peerForce s pa n) p pa n none (1 + take.toNat) .rne else answer s none
      | .store bs => if outOk s p .write pa bs.length then outWrite (peerForce s pa bs.length) p pa bs false else answer s none
      | .feStore bs => if outOk s p .write pa bs.length then outWrite (peerForce s pa bs.length) p pa bs true else answer s none
      | .notify v =>
        if outOk s p .write pa 8 && region s pa == .gddr then outWrite (peerForce s pa 8) p pa (leBytes 8 v.toNat) false
        else answer s none
      | .atomic fn dbl b e rm =>
        let n := if dbl then 8 else 4
        if !outOk s p .rmw pa n || pa % n != 0 || decide (11 < fn) then answer s none
        else outReq (peerForce s pa n) p pa n (some (fn, b, e)) 0 (rmCode rm.toNat)
      | .fireAgain =>
        if !outOk s p .rmw pa 8 || pa % 8 != 0 then answer s none
        else outReq (peerForce s pa 16) p pa 8 (some (16, 0, 0)) 0 .rne
      | .packet ws =>
        if !p.en then answer s none
        else if !(wellFormed s (asidPart s p.asid) ws && pktLen (ws.getD 0 0) == 8 * ws.length) then
          answer s (some (leBytes 8 1))
        else
          let k := (asidPart s p.asid).getD 0
          let die := pktDie s k (port / 8) (pktCore (ws.getD 0 0))
          if 2048 ≤ inboxCount s die k then answer s (some (leBytes 8 2))
          else answer (modDie s die fun d => { d with inbox := d.inbox ++ [mkPacket ws k none] }) (some (leBytes 8 0)))

end Sys2Proof.Machine
end

