-- ==== Sys2Proof/Machine/Start.lean ====
section
/-!
DEFINITION. The stages of a start attempt, and the start code that the fifth runs (R389, R391).
-/

namespace Sys2Proof.Machine

/-! ## The start image, loaded as a privileged loader does (R171, R172, R391) -/

/-- The row-image records of the start image (R391). -/
def startRows : List StartRow := Config.startRows

/-- The row of a record. -/
def imageId (x : StartRow) : RowId := ⟨x.core, x.row⟩

/-- Does the loader's check pass: every record names a core of the partition, and every row named is STOPPED, not open and runs no
task (R171, R172)? Where it fails, nothing is loaded. -/
def loadOk (s : State) : Bool :=
  (startRows.all fun x => decide (x.core < 8) && decide (x.row < 256) &&
    (let w := getRow s (imageId x); w.st == .stopped && !isOpen s (imageId x) && !w.task.getLsbD 7)) &&
  Config.startChans.all fun x => decide (x.core < 8) && decide (x.chan < 64)

/-- Store words of a row from word `w` on with `st.fe.set`, but for TASK and CTX (R171). -/
def imageWords (s : State) (r : RowId) (w : Nat) : List Word → State
  | [] => s
  | v :: vs => imageWords (if w = 9 ∨ w = 11 then s else rowStore s r (8 * w) (leBytes 8 v.toNat) true true none) r (w + 1) vs

/-- Write a row-image record: its words, the empty ones, TASK, and CTL with CMD 0 (R170, R171). -/
def imageRow (s : State) (x : StartRow) : State :=
  let r := imageId x
  let s1 := imageWords (rowStore s r 72 (leBytes 8 0x80) false true none) r 1 ((x.words.take 512).drop 1)
  let s2 := setEmpties s1 r (x.empty.filter fun w => decide (w < 512))
  let s3 := rowStore s2 r 72 (leBytes 8 (x.words.getD 9 0).toNat) true true none
  rowStore s3 r 0 (leBytes 8 (x.pri % 4 * 64 + 2 ^ 9 + x.autores.toNat * 2 ^ 10)) false true none

/-- Write a channel record: CFG with VALID 0, ENTRY, the pool, HOLD, READY 0, and CFG with VALID 1 (R172). -/
def imageChan (s : State) (x : StartChan) : State :=
  let cfg := wNat (x.pri % 4 + 4 + x.gate.toNat * 8 + x.autores.toNat * 16 + x.priv.toNat * 32)
  [(1, 0#64), (0, x.entry), (4, x.pool0), (5, x.pool1), (6, x.pool2), (7, x.pool3), (2, wNat x.hold.toNat), (3, 0), (1, cfg)].foldl
    (fun t w => ctlWrite t x.core (64 * x.chan + 8 * w.1) w.2 true) s

/-- Load a section of the start image, within one page of die 0 below 16 MiB (R391). -/
def imageSection (s : State) (x : Nat × List Byte) : State :=
  if x.1 < 0x1000000 ∧ x.1 / 0x1000 % 2 = 0 ∧ x.1 % 0x1000 + x.2.length ≤ 0x1000 then gddrWrite s x.1 x.2 else s

/-- Load the start image, and kindle its START rows (R171, R391). -/
def loadImage (s : State) : State :=
  if loadOk s then
    let s1 := Config.startChans.foldl imageChan (startRows.foldl imageRow (Config.startSections.foldl imageSection s))
    (startRows.filter (·.start)).foldl (fun t x => cmdKindle t (imageId x)) s1
  else s

/-- The beginning of stage 5: cluster 0 of die 0 is bound to partition 0, which is in identity mode with its apertures at their
physical addresses, and the image is loaded (R391). What memory held before is noted. -/
def startBegin (s : State) : State :=
  let s1 := modPart (modCl s 0 fun c => { c with valid := true, part := 0 }) 0 fun p => { p with root := 3, rowva := wNat rowBase }
  loadImage { s1 with startSave := ⟨s.mem.filter fun x => decide (x.1 < rowBase), s.poison⟩ }

/-- Has a started row executed `sys.halt` (R210, R391)? -/
def startHalted (s : State) (x : StartRow) : Bool := (getRow s (imageId x)).halted

/-- Is a started row FAULTED, or stopped in any other way (R391)? -/
def startBroken (s : State) (x : StartRow) : Bool :=
  let w := getRow s (imageId x)
  w.st == .faulted || (w.st == .stopped && !w.halted)

/-- The end of stage 5, whether it succeeds or fails: cluster 0 of die 0 and partition 0 are at their reset state, the first 16 MiB
of die 0's memory are zero, the rest of the device's memory is as stage 5 found it, and nothing else that the start code did is left
but the soft-error counters (R391). -/
def clearStart (s : State) : State :=
  let first := fun (pa : Nat) => decide (pa < 0x1000000) && pa / 0x1000 % 2 == 0
  let rows := fun (pa : Nat) => decide (rowBase ≤ pa) && decide (pa < rowBase + 320 * 0x1000000)
  let r := State.reset
  { r with
    mem := (smGive 0 s.mem 0 rowBase s.startSave.mem).filter fun x => !(first x.1 || rows x.1),
    poison := (s.startSave.poison.foldl insSorted s.poison).filter fun k => decide (8 * k < rowBase) && !first (8 * k),
    dies := s.dies.foldl (fun m d => smSet {} m d.1 { serr := d.2.serr, cxl := d.2.cxl, failed := d.2.failed }) [],
    pkg := { r.pkg with boot := s.pkg.boot, bootcause := s.pkg.bootcause, minimal := s.pkg.minimal },
    agenda := s.agenda, nextId := s.nextId, freeCtr := s.freeCtr, hostReply := s.hostReply }

/-! ## The stages (R389) -/

/-- Stage 3: every row-store word is zero and full, so every row is STOPPED and in no set, and no L2 line is left (R389). -/
def clearRows (s : State) : State :=
  s.cores.foldl (fun t c => modCore t c.1 fun x => { x with banks := [] }) { s with
    rows := [], mem := s.mem.filter fun x => decide (x.1 < rowBase) || decide (rowBase + 320 * 0x1000000 ≤ x.1),
    empt := [], poison := s.poison.filter (fun k => decide (8 * k < rowBase)), l2 := [] }

/-- What a successful stage leaves (R389, R391): the next stage begins, the fifth with the start code. -/
def stageDone (s : State) (a st : Nat) : State :=
  let next := fun (t : State) => modPkg t fun q => { q with
    boot := if st < 6 then some ⟨a, st + 1, 0⟩ else none,
    bootcause := if st = 6 ∧ a ≤ 3 then setCause q.bootcause a 0 else q.bootcause }
  match st with
  | 3 => next (clearRows s)
  | 4 => next (startBegin s)
  | 5 => next (clearStart s)
  | _ => next s

/-- A stage fails with a cause code (R389, R391). -/
def stageFails (s : State) (b : Boot) (cause : Nat) : State :=
  attemptFails (if b.stage = 5 then clearStart s else s) b.attempt cause

/-- A start stage finishes or fails (R389): the fifth as its started rows say, and not before they do (R391). -/
def stageStep (s : State) (res : StageResult) : State :=
  match s.pkg.boot with
  | none => s
  | some b =>
    let started := startRows.filter (·.start)
    if b.cause ≠ 0 then s
    else if b.stage = 5 then
      (if started.any (startBroken s) then stageFails s b 5 else if started.all (startHalted s) then stageDone s b.attempt 5 else s)
    else match res with
      | .ok => stageDone s b.attempt b.stage
      | .failed => stageFails s b b.stage

/-- A stage runs past its limit: cause 7 (R389, R393). -/
def stageLate (s : State) : State :=
  match s.pkg.boot with
  | none => s
  | some b => if b.cause ≠ 0 then s else stageFails s b 7

end Sys2Proof.Machine
end

