-- ==== Sys2Proof/Machine/System.lean ====
section
/-!
DEFINITION. The SYS major and the 16-bit forms (R209-R215), with what a shootdown covers (R349) and when a gang stop, a
release or a swap may begin (R214, R352).
-/

namespace Sys2Proof.Machine

/-! ## Traps and control (R210) -/

/-- `sys.nop`. -/
def execSysNop (s : State) : Out := .next (retire s s.cur 4)

/-- `sys.trap`: FAULTED with TRAP and the code (R210). -/
def execSysTrap (code : BitVec 12) (s : State) : Out :=
  .next (raise s s.cur ⟨0, cTRAP, 0, 0, pcOf s, code.toNat⟩ 0)

/-- `sys.bkpt`: FAULTED with BKPT and the code (R210). -/
def execSysBkpt (code : BitVec 12) (s : State) : Out :=
  .next (raise s s.cur ⟨0, cBKPT, 0, 0, pcOf s, code.toNat⟩ 0)

/-- Is a row its core's upcall row (R341)? -/
def isUpcallRow (s : State) (r : RowId) : Bool :=
  match partOf s r.core with
  | some p => Wbits (getPart s p).upcall 7 0 == r.row
  | none => false

/-- RETURN FROM AN UPCALL, `sys.uret`: ILL in a row that is not serving; else it retires, SERVING := 0, and the row is
STOPPED with WHY 3 (R210, R342). -/
def execSysUret (s : State) : Out :=
  let r := s.cur
  .next (if (getCore s r.core).serving && isUpcallRow s r then
      makeStopped (modCore (retire s r 4) r.core fun c => { c with serving := false }) r 3
    else ill s r)

/-- `sys.halt`: privileged; completes as `fence.sys`, then STOPPED with WHY 3 (R210). -/
def execSysHalt (s : State) : Out :=
  let r := s.cur
  .next (privGate s r (
    if sysDone s r (partIx s r.core) s.nextId then modRow (makeStopped (retire s r 4) r 3) r fun w => { w with halted := true }
    else s))

/-! ## System registers (R211) -/

/-- Has the row a store to system register `n` in the FIFO or on its way (R87, R397)? -/
def sysBehind (s : State) (r : RowId) (n : Nat) : Bool :=
  let at' := fun (p : Part) => region s p.pa == .sys n
  (fifoOf s r (partIx s r.core) s.nextId).any (fun e => at' e.part) ||
  (flightsOf s r (partIx s r.core) s.nextId).any fun f => at' f.ent.part

/-- `sys.sysr`: ordered as a load, after the row's own stores to the register. -/
def execSysSysr (num : BitVec 12) (d : Reg) (s : State) : Out :=
  let r := s.cur
  .next (if remoteBefore s r || sysBehind s r num.toNat then s else retX s r d (sysRead s r.core (getRow s r).priv num.toNat) 4)

/-- Is a write of SY.RESET one that resets (R390)? -/
def resets (n : Nat) (v : Word) (priv : Bool) : Bool := n == 0x401 && priv && v.getLsbD 0 && Wbits v 15 8 == 0xA5

/-- `sys.sysw`: ordered as a store and performed after the row's earlier stores; SY.FLUERES completes as `fence.dev`
first (R211, R344). A write that resets the package leaves no row to retire. -/
def execSysSysw (num : BitVec 12) (d : Reg) (s : State) : Out :=
  let r := s.cur
  let n := num.toNat
  let v := getX s r d
  let priv := (getRow s r).priv
  .next (gate s r 0 [srcX d false]
    (if !storeOrder s r (partIx s r.core) s.nextId || !(flightsOf s r (partIx s r.core) s.nextId).isEmpty ||
        (n == 0x5C2 && !devDone s r (partIx s r.core) s.nextId) then s
     else if resets n v priv then sysWrite s r.core priv n v
     else retire (sysWrite s r.core priv n v) r 4))

/-! ## Shootdown (R213, R349) -/

/-- The pages that one translation-cache entry translates: first and number. DEDUCED, log entry 49. -/
def tlbSpan (t : Tlb) : Nat × Nat :=
  match t.level with
  | 1 => (alignDown t.vpn (2 ^ 22), 2 ^ 22)
  | 2 => (alignDown t.vpn (2 ^ 11), 2 ^ 11)
  | _ => if t.leaf.getLsbD 52 then (alignDown t.vpn 16, 16) else (t.vpn, 1)

/-- Does a shootdown cover a held translation: its pages meet the range (R213)? -/
def Shoot.tlb (x : Shoot) (t : Tlb) : Bool :=
  let (b, n) := tlbSpan t
  x.covers t.asid b n

/-- Virtually tagged lines and fetched instructions of the range go (R213, R349). -/
def shootFlush (s : State) (x : Shoot) : State :=
  let s1 := flushWhere s fun y => !y.phys && x.covers y.asid (y.line / 32) 1
  { s1 with ibuf := s1.ibuf.filter fun b => !x.covers b.asid (b.va16 / 256) 1 }

/-- Step 1: update-only lines merged in every core, then translations, virtually tagged lines and fetched instructions
go (R213, R349). -/
def shootStart (s : State) (r : RowId) (x : Shoot) : State :=
  let s1 := shootFlush (mergeCores s (some r) (fun y => x.covers y.asid (y.line / 32) 1) (liveCores s)) x
  { s1 with tlb := s1.tlb.filter fun t => !x.tlb t, shoots := s1.shoots ++ [x] }

/-- The shootdown of the row's step 2, by its broadcast number. -/
def shootOf (s : State) (id : Nat) : Option Shoot := s.shoots.find? fun x => x.id == id

/-- Step 2 ends: lines that older accesses have brought back meanwhile go too (R349). -/
def shootEnd (s : State) (x : Shoot) : State := { shootFlush s x with shoots := s.shoots.filter fun y => y.id != x.id }

/-- `sys.shoot` (R213). -/
def execSysShoot (dp : BitVec 4) (s : State) : Out :=
  let r := s.cur
  let d : Reg := (dp.setWidth 5) <<< 1
  let w := getRow s r
  let v := getX s r d
  let y := getX s r (d + 1)
  let n := Wbits y 39 0
  let base := v &&& ~~~(0xFFF#64)
  let x : Shoot := ⟨Wbits y 63 52, v.getLsbD 0, Wbits v 55 12, Wbits v 55 12 + n, s.nextId⟩
  .next (privGate s r (gate s r w.rstep [srcXX d false]
    (if Wbits v 11 1 ≠ 0 ∨ Wbits y 51 40 ≠ 0 ∨ (n = 0 ∧ v.getLsbD 0 = false) then ill s r
     else
      match (if v.getLsbD 0 then none else canonFail base (0x1000 * n)) with
      | some j => raise s r ⟨2, cADDR, 0, 0, bytePtr base j, 0⟩ 0
      | none =>
        if w.rstep < 2 then
          modRow { shootStart s r x with nextId := s.nextId + 1 } r fun q => { q with rstep := 2, work := wNat (s.nextId + 1) }
        else match shootOf s (w.work.toNat - 1) with
          | none => retire s r 4
          | some y => if shootDone s y then retire (shootEnd s y) r 4 else s)))

/-! ## Gang stop and swap (R214, R350, R352) -/

/-- Clusters bound to a partition. -/
def boundClusters (s : State) (p : Nat) : List Nat := allClusters.filter fun c => (getCl s c).valid && (getCl s c).part == p

/-- Clusters whose shadow holds a partition. -/
def shadowClusters (s : State) (p : Nat) : List Nat := allClusters.filter fun c => (getCl s c).svalid && (getCl s c).spart == p

/-- Finish with a status in X[d] (R214). -/
def retStatus (s : State) (r : RowId) (d : Reg) (v : Nat) : State := retX s r d (wNat v) 4

/-- Begin the wait of step 2. -/
def beginWait (s : State) (r : RowId) (p : Nat) (f : Partn → Partn) : State :=
  modRow (modPart s p f) r fun w => { w with rstep := 2 }

/-- `sys.gang`: OP 0 stops, 1 releases (R214). DEDUCED, log entry 33. -/
def execSysGang (d : Reg) (s : State) : Out :=
  let r := s.cur
  let v := getX s r d
  let op := Wbits v 9 8
  let p := Wbits v 5 0
  let q := getPart s p
  .next (privGate s r (gate s r (getRow s r).rstep [srcX d false]
    (if (getRow s r).rstep = 2 then
      (if op = 0 then (if q.stopped then retStatus s r d 0 else s)
       else (if q.releasing then s else retStatus s r d 0))
     else if Wbits v 63 10 ≠ 0 ∨ Wbits v 7 6 ≠ 0 ∨ 2 ≤ op then retStatus s r d 4
     else if (boundClusters s p).isEmpty then retStatus s r d 1
     else if partOf s r.core = some p then retStatus s r d 3
     else if op = 0 then
      (if q.stopped || q.stopping then retStatus s r d 2
       else beginWait s r p fun x => { x with stopping := true, taken := [], halted := [] })
     else if q.stopped && !q.swapping && !q.releasing then beginWait s r p fun x => { x with releasing := true }
     else retStatus s r d 2)))

/-- The clusters that a swap of `p` exchanges, when its state is right: it is resident and gang-stopped with one context, or none,
in all its shadows, or swapped out on all its clusters, whatever is resident there (R352). -/
def swapClusters (s : State) (p : Nat) : Option (List Nat) :=
  let here := boundClusters s p
  let away := shadowClusters s p
  let idle := !(getPart s p).swapping && !(getPart s p).releasing
  let other := fun (c : Nat) => let x := getCl s c; if x.svalid then some x.spart else none
  if here.isEmpty then (if !away.isEmpty && idle then some away else none)
  else if away.isEmpty && (getPart s p).stopped && idle && here.all (fun c => other c == other (here.headD 0)) then some here
  else none

/-- `sys.swap` (R214, R352). -/
def execSysSwap (d : Reg) (s : State) : Out :=
  let r := s.cur
  let v := getX s r d
  let p := Wbits v 5 0
  .next (privGate s r (gate s r (getRow s r).rstep [srcX d false]
    (if (getRow s r).rstep = 2 then (if (getPart s p).swapping then s else retStatus s r d 0)
     else if Wbits v 63 6 ≠ 0 then retStatus s r d 4
     else if (boundClusters s p).isEmpty && (shadowClusters s p).isEmpty then retStatus s r d 1
     else if partOf s r.core = some p then retStatus s r d 3
     else match swapClusters s p with
      | none => retStatus s r d 2
      | some _ => beginWait s r p fun x => { x with swapping := true })))

/-! ## Sixteen-bit forms (R215): every source blocks -/

/-- D := f(D, A) (R215). -/
def half2 (s : State) (a d : Reg) (f : Word → Word → Word) : State :=
  let r := s.cur
  gate s r 0 [srcX d false, srcX a false] (retX s r d (f (getX s r d) (getX s r a)) 2)

/-- D := f(D) (R215). -/
def half1 (s : State) (d : Reg) (f : Word → Word) : State :=
  let r := s.cur
  gate s r 0 [srcX d false] (retX s r d (f (getX s r d)) 2)

/-- `h.mov` (R215). -/
def execHMov (a d : Reg) (s : State) : Out :=
  let r := s.cur
  .next (gate s r 0 [srcX a false] (retX s r d (getX s r a) 2))

/-- `h.add`. -/
def execHAdd (a d : Reg) (s : State) : Out := .next (half2 s a d fun x y => x + y)
/-- `h.sub`. -/
def execHSub (a d : Reg) (s : State) : Out := .next (half2 s a d fun x y => x - y)
/-- `h.and`. -/
def execHAnd (a d : Reg) (s : State) : Out := .next (half2 s a d fun x y => x &&& y)
/-- `h.or`. -/
def execHOr (a d : Reg) (s : State) : Out := .next (half2 s a d fun x y => x ||| y)
/-- `h.xor`. -/
def execHXor (a d : Reg) (s : State) : Out := .next (half2 s a d fun x y => x ^^^ y)
/-- `h.lt`. -/
def execHLt (a d : Reg) (s : State) : Out := .next (half2 s a d fun x y => wNat (BitVec.slt x y).toNat)
/-- `h.addi5`. -/
def execHAddi5 (imm : BitVec 5) (d : Reg) (s : State) : Out := .next (half1 s d fun x => x + signExt 5 imm.toNat)
/-- `h.shli`. -/
def execHShli (imm : BitVec 5) (d : Reg) (s : State) : Out := .next (half1 s d fun x => x <<< imm.toNat)
/-- `h.shri`. -/
def execHShri (imm : BitVec 5) (d : Reg) (s : State) : Out := .next (half1 s d fun x => x >>> imm.toNat)
/-- `h.ldi5`. -/
def execHLdi5 (imm : BitVec 5) (d : Reg) (s : State) : Out := .next (retX s s.cur d (signExt 5 imm.toNat) 2)

/-- A 16-bit load in plain mode. -/
def halfLoad (s : State) (n : Nat) (a d : Reg) : State :=
  let r := s.cur
  holdGate s r (gate s r 0 [srcX a false] (load s r (getX s r a) n 0 false (.x d.toNat n true) [xw d] 2))

/-- A 16-bit store in plain mode; D is read first. -/
def halfStore (s : State) (n : Nat) (a d : Reg) : State :=
  let r := s.cur
  holdGate s r (gate s r 0 [srcX d false, srcX a false] (store s r (getX s r a) (leBytes n (getX s r d).toNat) 0 false 2))

/-- `h.ld64`. -/
def execHLd64 (a d : Reg) (s : State) : Out := .next (halfLoad s 8 a d)
/-- `h.ld32`: sign-extended. -/
def execHLd32 (a d : Reg) (s : State) : Out := .next (halfLoad s 4 a d)
/-- `h.st64`. -/
def execHSt64 (a d : Reg) (s : State) : Out := .next (halfStore s 8 a d)
/-- `h.st32`. -/
def execHSt32 (a d : Reg) (s : State) : Out := .next (halfStore s 4 a d)

/-- A 16-bit branch on D. -/
def halfBranch (s : State) (imm : BitVec 5) (d : Reg) (f : Word → Bool) : State :=
  let r := s.cur
  gate s r 0 [srcX d false]
    (if f (getX s r d) then retireTo s r (pcOf s + signExt 5 imm.toNat * 2#64) else retire s r 2)

/-- `h.beqz`. -/
def execHBeqz (imm : BitVec 5) (d : Reg) (s : State) : Out := .next (halfBranch s imm d fun x => x == 0)
/-- `h.bnez`. -/
def execHBnez (imm : BitVec 5) (d : Reg) (s : State) : Out := .next (halfBranch s imm d fun x => x != 0)

/-- An f32 vector operation V[d] := V[d] op V[a], 32 lanes, unmasked. -/
def halfVec (s : State) (a d : BitVec 4) (f : Fmt → RMode → Nat → Nat → FRes) : State :=
  let r := s.cur
  let va := getV s r a.toNat
  let vd := getV s r d.toNat
  gate s r 0 [srcV d.toNat false, srcV a.toNat false, srcF]
    (retV s r 3 0 d.toNat (fun j => f f32 (rmOf s r) (laneGet 4 vd j) (laneGet 4 va j)) 2)

/-- `h.vfadd.f32`: bits [9] and [14] are ignored (R215). -/
def execHVfaddF32 (_i14 : Bool) (a : BitVec 4) (_i9 : Bool) (d : BitVec 4) (s : State) : Out := .next (halfVec s a d fadd)
/-- `h.vfmul.f32`. -/
def execHVfmulF32 (_i14 : Bool) (a : BitVec 4) (_i9 : Bool) (d : BitVec 4) (s : State) : Out := .next (halfVec s a d fmul)
/-- `h.nop`. -/
def execHNop (s : State) : Out := .next (retire s s.cur 2)
/-- `h.yield`. -/
def execHYield (s : State) : Out := .next (yieldRow s 2)

/-- `h.ret`: PC := X1 (R215). -/
def execHRet (s : State) : Out :=
  let r := s.cur
  .next (gate s r 0 [srcX 1 false] (retireTo s r (getX s r 1)))

end Sys2Proof.Machine
end

