-- ==== Sys2Proof/Machine/Events.lean ====
section
/-!
DEFINITION. Device steps that have no instruction word: performing accesses (R54, R70, R233-R245), dates and passes
(R113-R124), the Flue (R343-R347), gang stop, swap and arrival log (R350-R356), copies (R73-R77), the Damper
(R376-R388), start and reset (R389-R393), errors (R394, R395) and failures (R369, R374, R375).
A step whose condition does not hold has no effect (DESIGN CHOICE, log entry 13).
-/

namespace Sys2Proof.Machine

/-! ## Performing accesses -/

/-- Request number `id`. -/
def reqById (s : State) (id : Nat) : Option Req := s.reqs.find? fun q => q.id == id

/-- STORE_PERFORM (R70). -/
def execStorePerform (core : Nat) (s : State) : Out := .next (fifoStep s core)

/-- PERFORMANCE_AT_TARGET (R70). -/
def execPerformanceAtTarget (i : Nat) (s : State) : Out :=
  .next (
    match s.flights[i]? with
    | none => s
    | some f => if lostFail s f.ent.part.pa then endFlight s f cHOMELOST else flightStep s i)

/-- FILL: one part of a load is performed, in any order, a packet is sent, or one destination word is filled (R54, R98, R233,
R257). -/
def execFill (id : Nat) (k : FillStep) (s : State) : Out :=
  .next (
    match reqById s id with
    | none => s
    | some q =>
      match k with
      | .deliver w => deliverStep s q w
      | .perform i =>
        match q.kind with
        | .load fe nt => (match q.todo[i]? with
          | some p => loadPerform s q p fe nt
          | none => s)
        | .send _ _ => sendPerform s q
        | _ => s)

/-- REMOTE_FE_PERFORM: an `fe` or `fe.take` load is performed once its words are full (R234). -/
def execRemoteFePerform (id : Nat) (s : State) : Out :=
  .next (
    match reqById s id with
    | none => s
    | some q =>
      match q.kind, q.todo with
      | .load (k + 1) nt, p :: _ => loadPerform s q p (k + 1) nt
      | _, _ => s)

/-- ATOMIC_PERFORM (R245). -/
def execAtomicPerform (id : Nat) (s : State) : Out :=
  .next (
    match reqById s id with
    | none => s
    | some q =>
      match q.todo with
      | p :: _ => atomicPerform s q p
      | [] => s)

/-- COPY_PIECE: part `k` of a piece at a cluster's copy engine (R73, R269). -/
def execCopyPiece (cluster i k : Nat) (s : State) : Out := .next (copyStep s cluster i k)

/-- DISTRIBUTOR_BLOCK: part `k` of a piece at a die's distributor (R76, R77). -/
def execDistributorBlock (die i k : Nat) (s : State) : Out := .next (distStep s die i k false)

/-! ## Dates and passes -/

/-- DATE_BROADCAST (R114). -/
def execDateBroadcast (slice date : Nat) (s : State) : Out := .next (dateStep s slice date)
/-- ACQUIRE_PASS_OWN (R121). -/
def execAcquirePassOwn (id slice : Nat) (s : State) : Out := .next (passOwn s id slice)
/-- ACQUIRE_PASS_OTHER (R122). -/
def execAcquirePassOther (id slice : Nat) (s : State) : Out := .next (passOther s id slice)
/-- FROST_SWEEP (R124). -/
def execFrostSweep (slice : Nat) (s : State) : Out := .next (frostStep s slice)

/-! ## The Flue -/

/-- FLUE_REQUEST (R343). -/
def execFlueRequest (i : Nat) (hop : Option Nat) (s : State) : Out := .next (flueStep s i hop)

/-- FLUE_RECORD: the oldest unsent entry at a die's root, `i` being the die's place in the package (R343). -/
def execFlueRecord (die _i : Nat) (s : State) : Out := .next (flueSend s die)

/-- FLUERES: the broadcast of an accepted write (R344). -/
def execFlueres (v : Word) (s : State) : Out := .next (flueBroadcast s v true)

/-- A resolution acts at a core: in the rows of the resident partition of its ASID, or in the log of a swapped-out one
(R344, R354). False: it waits at the log. -/
def resolveAt (s : State) (x : FlueRes) (core : Nat) : Bool × State :=
  match aimedAsid s core x.asid with
  | some p => logAdd s core p (.resolution x.asid x.page x.refuse core)
  | none => (true, if asidOf s core = x.asid then resolveCore s x.page x.refuse core else s)

/-- Can the record of a faulted row be delivered at a core now (R341)? -/
def upcallDue (s : State) (core : Nat) : Bool :=
  !(getCore s core).faultq.isEmpty && (match partOf s core with
    | some p => upcallReady s core p
    | none => false)

/-- FLUE_RESOLUTION: resolution `i` reaches a core (R344); an upcall that can be delivered there comes first (R341, R360).
DESIGN CHOICE, log entry 98. -/
def execFlueResolution (i core : Nat) (s : State) : Out :=
  .next (
    match s.flueRes[i]? with
    | none => s
    | some x =>
      if !x.cores.contains core || upcallDue s core then s
      else
        let (ok, t) := resolveAt s x core
        if ok then
          let left := x.cores.filter fun c => c ≠ core
          { t with flueRes := if left.isEmpty then dropNth t.flueRes i else modNth (fun y => { y with cores := left }) t.flueRes i }
        else t)

/-! ## Gang stop (R350, R351) -/

/-- Cores of the clusters bound to a partition. -/
def boundCores (s : State) (p : Nat) : List Nat := (boundClusters s p).flatMap coresOf

/-- Rows of a core that hold or await a slot of time: READY or WAITING. -/
def activeRows (s : State) (core : Nat) : List RowId :=
  (liveRows s core).filter fun r => (getRow s r).st == .ready || (getRow s r).st == .waiting

/-- A core's gang and run end with GANGSTOP, its reductions are merged, and its waiting permit requests go (R296, R319, R350,
R380). -/
def haltUnits (s : State) (core : Nat) : State :=
  let cl := clOf core
  let s2 := if gangIdle s cl then s else endGang s cl 6
  let s3 := mergeCore s2 core none
  let s4 := if (getCore s3 core).edge.st = .idle then s3 else endRun s3 core 6
  modCl s4 cl fun c => { c with reqs := c.reqs.filter fun q => q.core ≠ some core }

/-- A core takes the halt: its rows stop with WHY 8, and its engines as `haltUnits` says (R350). -/
def takeHalt (s : State) (part core : Nat) : State :=
  modPart (haltUnits ((activeRows s core).foldl (fun t r => makeStopped t r 8) s) core) part
    fun p => { p with taken := insSorted p.taken core }

/-- Has a core nothing of the rows of partition `k` left to perform: FIFO and engine pieces (R107, R272)? -/
def coreDrained (s : State) (k core : Nat) : Bool :=
  ((getCore s core).fifo.all fun e => e.owner != k) &&
  ((getCl s (clOf core)).copyq.all fun p => p.row.core != core || p.part != k) &&
  ((getDie s 0).distq ++ (getDie s 1).distq).all fun p => p.row.core != core || p.part != k

/-- The 32 bytes of a halt record (R351); the skew of the halt is a free value of 6 bits. DESIGN CHOICE, log entry 45. -/
def haltBytes (s : State) (core : Nat) : List Byte × State :=
  let (f, t) := freeWord s
  let c := getCore s core
  let n := ((liveRows s core).filter fun r => (getRow s r).st == .stopped && (getRow s r).why == 8).length
  (leBytes 8 (smGet 0 c.stats 1).toNat ++ leBytes 8 c.sent.toNat ++ leBytes 8 c.received.toNat ++
    leBytes 8 (2 ^ 16 * (n % 2 ^ 9) + f.toNat % 64), t)

/-- Is a halt area there: named, and wholly in device memory that is present (R351)? -/
def haltArea (s : State) (base : Nat) : Bool :=
  base != 0 && (List.range 4).all fun k => region s (base + 0x1000 * k) == .gddr

/-- A core writes its halt record at its home and has finished its halt (R350, R351). -/
def finishHalt (s : State) (part core : Nat) : State :=
  let base := (getPart s part).haltbase.toNat
  let s1 := mergeCore s core none
  let s2 := if haltArea s base then
      (let (bs, t) := haltBytes s1 core
       let pa := base + 32 * core
       homeStore (homeStore t (dieOf core) (physPart pa 16) (bs.take 16)) (dieOf core) (physPart (pa + 16) 16) (bs.drop 16))
    else s1
  modPart s2 part fun p => { p with halted := insSorted p.halted core }

/-- HALT: a core of a stopping partition takes the halt once none of its rows stands in a stalled store, and finishes it
when what it handed over has been performed (R350). -/
def execHalt (core : Nat) (s : State) : Out :=
  .next (
    match partOf s core with
    | none => s
    | some p =>
      let q := getPart s p
      if !q.stopping || q.halted.contains core then s
      else if q.taken.contains core then (if coreDrained s p core then finishHalt s p core else s)
      else if (liveRows s core).any fun r => (getRow s r).stalled then s
      else takeHalt s p core)

/-- HALT_REPORT (R350). -/
def execHaltReport (part : Nat) (s : State) : Out :=
  let q := getPart s part
  .next (
    if q.stopping && (boundCores s part).all fun c => q.halted.contains c then
      modPart s part fun p => { p with stopping := false, stopped := true }
    else s)

/-- A row at a gang release: stopped by the halt, READY since it was swapped out so, or with a resolution or a wake-up that came
during the stop (R133, R344, R352). -/
def releaseRow (s : State) (r : RowId) : State :=
  let w := getRow s r
  if w.st = .stopped ∧ w.why = 8 then makeReady s r
  else if w.st = .ready then joinReady s r
  else if w.resolved = true then
    (let t := modRow s r fun x => { x with resolved := false }
     if w.st = .faulted ∨ w.st = .waiting then makeReady t r else t)
  else s

/-- GANG_RELEASE: after the replay has ended (R133, R355). -/
def execGangRelease (part : Nat) (s : State) : Out :=
  let q := getPart s part
  .next (
    if q.releasing && q.log.isEmpty then
      let s1 := modPart s part fun p =>
        { p with releasing := false, stopped := false, taken := [], halted := [], fullSent := false }
      (boundCores s1 part).foldl (fun t c => (liveRows t c).foldl releaseRow t) s1
    else s)

/-! ## Swap (R352) -/

/-- The numbers of a list from `lo` up to `hi`, shifted to start at 0. -/
def nsTake (l : List Nat) (lo hi : Nat) : List Nat :=
  (l.filter fun k => decide (lo ≤ k) && decide (k < hi)).map fun k => k - lo

/-- The list with its numbers from `lo` up to `hi` replaced. -/
def nsGive (l : List Nat) (lo hi : Nat) (n : List Nat) : List Nat :=
  (l.filter fun k => decide (k < lo)) ++ (n.map fun k => k + lo) ++ l.filter fun k => decide (hi ≤ k)

/-- Exchange one core's rows and per-core structures with its shadow; its accumulators become undefined (R352). DEDUCED, log entry 58. -/
def swapCore (s : State) (core : Nat) : State :=
  let x : ShadowCore := smGet {} s.shadow core
  let c := getCore s core
  let lo := rowPa ⟨core, 0⟩ 0
  let hi := lo + 0x100000
  let away : ShadowCore :=
    { rows := smTake s.rows (256 * core) (256 * core + 256), bytes := smTake s.mem lo hi,
      empt := nsTake s.empt (lo / 8) (hi / 8), poison := nsTake s.poison (lo / 8) (hi / 8), chans := c.chans,
      bars := c.bars, dq := c.dq, runq := c.runq, serving := c.serving, stats := c.stats,
      steer := s.steer.filter fun y => y.core == core }
  let t : State :=
    { s with rows := smGive {} s.rows (256 * core) (256 * core + 256) x.rows, mem := smGive 0 s.mem lo hi x.bytes,
             empt := nsGive s.empt (lo / 8) (hi / 8) x.empt, poison := nsGive s.poison (lo / 8) (hi / 8) x.poison,
             shadow := smSet {} s.shadow core away, steer := (s.steer.filter fun y => y.core != core) ++ x.steer }
  freeAcc (modCore t core fun c =>
    { c with chans := x.chans, bars := x.bars, dq := x.dq, runq := x.runq, serving := x.serving, stats := x.stats }) core

/-- Exchange the bindings of a cluster: the shadow's partition becomes resident, or none (R352). -/
def swapBind (s : State) (cl : Nat) : State :=
  modCl s cl fun c =>
    { c with valid := c.svalid, part := if c.svalid then c.spart else 0, svalid := c.valid,
             spart := if c.valid then c.part else 0 }

/-- A core whose resident partition goes out while it runs: its engines end as at a halt, its slots and READY sets are emptied,
and its rows keep their STATE (R352). DEDUCED, log entry 95. -/
def parkCore (s : State) (core : Nat) : State :=
  (List.range 4).foldl (fun t b => modBank t core b fun x => { nextAge := x.nextAge }) (haltUnits s core)

/-- The READY rows of a cluster that has become that of a running partition join their sets. -/
def rejoin (s : State) (cl : Nat) : State :=
  ((coresOf cl).flatMap (liveRows s)).foldl (fun t r => if (getRow t r).st = .ready then joinReady t r else t) s

/-- Exchange the contexts of one cluster; a partition that has left its last cluster counts as gang-stopped (R352). -/
def swapCluster (s : State) (cl : Nat) : State :=
  let c := getCl s cl
  let runs := c.valid && !(getPart s c.part).stopped
  let s1 := if runs then (coresOf cl).foldl parkCore s else s
  let s2 := swapBind ((coresOf cl).foldl swapCore s1) cl
  let s3 := if runs && (boundClusters s2 c.part).isEmpty then modPart s2 c.part fun p => { p with stopped := true, stopping := false } else s2
  if c.svalid && !(getPart s3 c.spart).stopped then rejoin s3 cl else s3

/-- May a cluster's contexts be exchanged: none of the rows that go out stands in a stalled store, and what the rows of a partition
that goes out while it runs have handed over has been performed (R107, R117, R272)? -/
def swapDrained (s : State) (cl : Nat) : Bool :=
  let c := getCl s cl
  ((coresOf cl).all fun n => (liveRows s n).all fun r => !(getRow s r).stalled) &&
  (!c.valid || (getPart s c.part).stopped || (coresOf cl).all (coreDrained s c.part))

/-- SWAP_EXCHANGE: the exchange that `sys.swap` began completes, at a boundary of the rows that go out (R352). -/
def execSwapExchange (part : Nat) (s : State) : Out :=
  .next (
    if (getPart s part).swapping then
      let s1 := modPart s part fun p => { p with swapping := false }
      match swapClusters s1 part with
      | none => s1
      | some cs =>
        if cs.all (swapDrained s) then cs.foldl swapCluster s1 else s
    else s)

/-! ## The arrival log (R354-R356) -/

/-- The first arrival aimed at a swapped-out partition that is ready to be logged, as a step of its own. -/
def logNext (s : State) (part : Nat) : Option State :=
  let aimed := fun (p : Part) => match aimedPartOf s p with
    | some (_, k) => k == part
    | none => false
  let away := fun (r : RowId) (k : Nat) => k == part && aimedPart s r.core k
  match (s.cores.find? fun c => match c.2.fifo with
      | e :: _ => entReady s e && aimed e.part
      | [] => false) with
  | some c => some (fifoStep s c.1)
  | none =>
    match findPos (fun (f : Flight) => aimed f.ent.part) s.flights with
    | some i => some (flightStep s i)
    | none =>
      match s.reqs.find? fun q => q.todo.any aimed with
      | some q =>
        (match q.kind, q.todo.find? aimed with
          | .load fe nt, some p => some (loadPerform s q p fe nt)
          | .atomic _ _ _ _ _ _, some p => some (atomicPerform s q p)
          | .arrive core bar, _ => some (arrivalStep s q core bar)
          | _, _ => none)
      | none =>
        match s.reqs.find? fun q => away q.row q.part && q.todo.isEmpty && q.logged == 0 && !q.words.isEmpty with
        | some q => some (deliverStep s q (q.words.headD 0))
        | none => none

/-- ARRIVAL_LOG (R354, R356). -/
def execArrivalLog (part : Nat) (s : State) : Out := .next ((logNext s part).getD s)

/-- Apply a logged request: one that must wait stands at its bank from then on (R53, R355). -/
def replayReq (s : State) (q : Req) (p : Part) : State :=
  let t := match q.kind with
    | .load fe nt => loadDo s q p fe nt
    | .atomic fn b e rm _ _ => atomicDo s q p fn b e rm
    | _ => s
  let done := match reqById t q.id with
    | none => true
    | some y => y.buf.any fun x => x.1 == p.pos
  settle (modReq t q.id fun y =>
    { y with logged := y.logged - 1, todo := if done then y.todo else y.todo ++ [p], atBank := true }) q.id

/-- Apply the logged read at offset `off` of engine piece `id`; one that must wait arrives anew. -/
def replayRead (s : State) (id off : Nat) : State :=
  match s.clusters.findSome? fun c => (findPos (fun (p : CopyPiece) => p.id == id) c.2.copyq).map fun i => (c.1, i) with
  | some (cl, i) =>
    match (getCl s cl).copyq[i]? with
    | none => s
    | some x =>
      match x.unread.find? fun y => y.1 == off with
      | some (o, n) => copyRead s cl i x o n true
      | none => s
  | none =>
    match s.dies.findSome? fun d => (findPos (fun (p : DistPiece) => p.id == id) d.2.distq).map fun i =>
        (d.1, i, (d.2.distq[i]?.bind fun p => findPos (fun (y : Nat × Nat) => y.1 == off) p.todo)) with
    | some (die, i, some k) => distStep s die i k true
    | _ => s

/-- Apply a logged packet: into the run queue, or, when that is full, to the head of the inbox, where it waits; the die holds it
while the inbox is full or earlier ones are held for it (R138, R326, R355). One for a core that has failed is orphaned (R369). -/
def replayPacket (s : State) (n : Nat) (p : Packet) : State :=
  let die := dieOf n
  let waits := fun (x : Packet) => x.replayed && x.core == some n
  let ahead := s.held.any fun h => h.pkt.replayed && heldDie h == die && h.pkt.part == p.part
  if (getCore s n).failed then orphanPacket s (noticeDie s die) 1 (n % 160) p
  else if (getCore s n).runq.length < 32 ∧ (((getDie s die).inbox.any waits) || s.held.any fun h => waits h.pkt) = false then
    enterRunq (receivedPkt s n p) n p
  else if ahead = true ∨ 2048 ≤ inboxCount s die p.part then { s with held := s.held ++ [⟨die, { p with replayed := true }⟩] }
  else modDie s die fun d => inboxPut d { p with replayed := true }

/-- Apply the logged read or atomic of an engine or an instruction: its answer waits for the asker. One that must wait for a full
word, or meets an error, is made by the asker itself, now that the partition is resident; its message has been counted (R351, R353,
R355). -/
def replayAsk (s : State) (who : Asker) (p : Part) (amo : Option (Nat × Word × RMode)) : State :=
  match (match amo with
    | some (fn, b, rm) => atomicAt s who.row fn b 0 rm p
    | none => let (x, t) := readPart s who.row true 0 false p; (x, 0, t)) with
  | (.ok bs, fl, t) => keepAnswer t ⟨who, p.pa, amo.isSome, bs, fl⟩
  | _ => if amo.isSome && !sentBefore s who p then keepAnswer s ⟨who, p.pa, true, [], 0⟩ else s

/-- Apply a logged arrival as its arrival would have been (R355). False: it waits. -/
def replay (s : State) (e : Logged) : Bool × State :=
  match e with
  | .store x => applyStore s x
  | .req id p _ => (true, match reqById s id with
    | none => s
    | some q => replayReq s q p)
  | .fill r w v ks => (true, fillOwed s r (partIx s r.core) 0 w (mixWord (getW s r w) v ks))
  | .packet p => (true, match p.core with
    | none => s
    | some n => replayPacket s n p)
  | .arrival row core bar => (true, (arriveBy (received s row.core core) row core bar).2)
  | .piece r off bs who k _ _ => (true, fillWords s who k 0 [] r (off / 8) bs)
  | .page core off bs priv _ _ => (true, ctlWrites s core off priv bs (bs.length / 8))
  | .read id off => (true, replayRead s id off)
  | .ask who p amo _ => (true, replayAsk s who p amo)
  | .reply r x => (true, replyDo s r x)
  | .outside q =>
    let (ok, t) := outDo s q
    (true, if ok then t else { t with outs := t.outs ++ [q] })
  | .resolution _ page refuse core => (true, resolveCore s page refuse core)

/-- LOG_REPLAY: the head entry of a resident partition's log is applied (R355). -/
def execLogReplay (part : Nat) (s : State) : Out :=
  let q := getPart s part
  .next (
    match q.log with
    | [] => s
    | e :: _ =>
      if (boundClusters s part).isEmpty || q.swapping then s
      else
        let (ok, t) := replay s e
        if ok then
          modPart t part fun p =>
            { p with log := p.log.drop 1, logUsed := p.logUsed - logLen e.data.length, fullSent := false }
        else t)

/-! ## The Damper -/

/-- SY_CLK (R377). -/
def execSyClk (cl : Nat) (v : Word) (priv : Bool) (s : State) : Out := .next (if cl < 40 then clkWrite s cl v priv else s)
/-- CLOCK_TRANSITION (R378). -/
def execClockTransition (cl : Nat) (s : State) : Out := .next (clkDone s cl)
/-- SY_CBUDGET (R379). -/
def execSyCbudget (cl : Nat) (v : Word) (priv : Bool) (s : State) : Out := .next (if cl < 40 then budgetWrite s cl v priv else s)
/-- REFILL (R380). -/
def execRefill (cl : Nat) (s : State) : Out := .next (if cl < 40 then refillAt s cl else s)
/-- DAMPER_WINDOW (R382-R384). -/
def execDamperWindow (w : DamperReading) (s : State) : Out := .next (damperStep s w)
/-- SY_SLOPE (R383). -/
def execSySlope (v : Word) (priv : Bool) (s : State) : Out := .next (slopeWrite s v priv)
/-- CAP_MESSAGE (R385). -/
def execCapMessage (v : Word) (priv : Bool) (s : State) : Out := .next (capWrite s v priv)
/-- LEASE_EXPIRY (R385). -/
def execLeaseExpiry (s : State) : Out := .next (leaseEnd s)
/-- THAW_SEND (R387). -/
def execThawSend (v : Word) (priv : Bool) (s : State) : Out := .next (thawWrite s 0 v priv)
/-- THAW_MESSAGE (R388). -/
def execThawMessage (img : List Byte) (s : State) : Out := .next (thawReceive s img)
/-- THAW_HOLD_END (R388). -/
def execThawHoldEnd (s : State) : Out := .next (thawEnd s)
/-- TEMPERATURE_SENSOR (R380). -/
def execTemperatureSensor (cl : Nat) (hot : Bool) (s : State) : Out :=
  .next (if cl < 40 then modCl s cl fun c => { c with hot := hot } else s)

/-! ## System registers (R132, R211, R395) -/

/-- SY_CLBIND (R132). -/
def execSyClbind (cl : Nat) (v : Word) (priv : Bool) (s : State) : Out := .next (if cl < 40 then bindWrite s cl v priv else s)

/-- SY_SERR: a store to counter `k` from a core of die 0 (R395). DESIGN CHOICE, log entry 63. -/
def execSySerr (k : Nat) (v : Word) (_priv : Bool) (s : State) : Out := .next (if k < 6 then serrWrite s 0 k v else s)

/-- SYSREG_WRITE (R211). -/
def execSysregWrite (num : Nat) (v : Word) (priv : Bool) (core : Nat) (s : State) : Out :=
  .next (if sysAssigned num && decide (core < 320) then plainSysWrite s core priv num v else s)

/-- ILLEGAL_INSTRUCTION (R158). -/
def execIllegalInstruction (_w : BitVec 32) (s : State) : Out := .next (ill s s.cur)

/-! ## Start and reset (R389-R393) -/

/-- POWER_ON: every piece of state at its reset value; host and peer memory, which lie outside, and the model's own fields
go on (DESIGN CHOICE, log entries 1, 3). -/
def execPowerOn (s : State) : Out :=
  .next { State.reset with mem := s.mem.filter fun x => decide (0x8000000000000 ≤ x.1), agenda := s.agenda,
                           nextId := s.nextId, freeCtr := s.freeCtr, hostReply := s.hostReply }

/-- PERST: as a reset (R389). -/
def execPerst (s : State) : Out := .next (packageReset s)
/-- SY_RESET (R390). -/
def execSyReset (v : Word) (priv : Bool) (s : State) : Out := .next (resetWrite s v priv)
/-- START_STAGE (R389). -/
def execStartStage (res : StageResult) (s : State) : Out := .next (stageStep s res)
/-- STAGE_TIME_LIMIT (R389). -/
def execStageTimeLimit (s : State) : Out := .next (stageLate s)

/-! ## Errors (R347, R348, R394, R395) -/

/-- Count an error in counter `k` of a die, from unit `u` (R395). -/
def countErr (s : State) (die k : Nat) (corrected : Bool) (u : Nat) : State :=
  modDie s die fun d =>
    let e : Serr := smGet {} d.serr k
    let e' : Serr := ⟨if corrected then min (2 ^ 32 - 1) (e.corr + 1) else e.corr,
      if corrected then e.unc else min (2 ^ 16 - 1) (e.unc + 1), u % 2 ^ 16⟩
    { d with serr := smSet {} d.serr k e' }

/-- Poison words, by address / 8. DESIGN CHOICE, log entry 43. -/
def poisonWords (s : State) (ks : List Nat) : State := { s with poison := ks.foldl insSorted s.poison }

/-- An uncorrectable error in a line of L2: a dirty line's data is lost to MEMERR, a clean one is fetched again (R394). -/
def lineError (s : State) (i : Nat) : State :=
  match s.l2[i]? with
  | none => s
  | some x =>
    let t : State := { s with l2 := dropNth s.l2 i }
    if x.dirty then poisonWords t (wordKeys (128 * x.pl) 128) else t

/-- An uncorrectable error in accumulator SRAM ends a running gang with MEMERR; where none runs, one word of it, by a free value,
ends the gang that reads it first (R296). DESIGN CHOICE, log entry 123. -/
def accHit (s : State) (core : Nat) : State :=
  if gangIdle s (clOf core) then
    let (f, t) := freeWord s
    modCore t core fun c => { c with accBad := insSorted c.accBad (f.toNat % 65536) }
  else endGang s (clOf core) 9

/-- SOFT_ERROR: a corrected error is only counted (R394). -/
def execSoftError (site : ErrSite) (corrected : Bool) (s : State) : Out :=
  let go := fun (die k u : Nat) (f : State → State) => countErr (if corrected then s else f s) die k corrected u
  .next (
    match site with
    | .rowWord r w =>
      if corePresent s r.core && decide (r.row < 256) && decide (w < 512) then
        go (dieOf r.core) 0 (r.core % 160) fun t => poisonWords t [rowWord r w]
      else s
    | .gddr pa =>
      if region s pa == .gddr then go (pa / 0x1000 % 2) 4 (channelOf pa) fun t => poisonWords t [pa / 8] else s
    | .shadowWord r w =>
      if corePresent s r.core && decide (r.row < 256) && decide (w < 512) then
        go (dieOf r.core) 1 (r.core % 160) fun t =>
          let x : ShadowCore := smGet {} t.shadow r.core
          { t with shadow := smSet {} t.shadow r.core { x with poison := insSorted x.poison (512 * r.row + w) } }
      else s
    | .l2Line i =>
      (match s.l2[i]? with
        | some x => go x.die 2 (x.slice % 160) fun t => lineError t i
        | none => s)
    | .accumulator core =>
      if corePresent s core then
        go (dieOf core) 3 (core % 160) fun t => accHit t core
      else s
    | .link die port => if die < 2 then countErr s die 5 corrected port else s)

/-- SCRUB: an error in a structure is counted, with its unit (R348, R394, R395). -/
def execScrub (die k : Nat) (hit : ScrubHit) (s : State) : Out :=
  .next (
    if 2 ≤ die ∨ 6 ≤ k then s
    else match hit with
      | .uncorrectable u => countErr s die k false u
      | .corrected u => countErr s die k true u)

/-! ## Failures (R369, R374, R375) -/

/-- A row that runs a task is orphaned: the notice is sent, and the row does not run on by itself (R369). DEDUCED, log
entry 61. -/
def orphanRow (s : State) (kind num : Nat) (r : RowId) : State :=
  let w := getRow s r
  if w.task.getLsbD 7 && !w.orphan then
    leave (modRow (orphan s (noticeDie s (dieOf r.core)) (Wbits w.task 63 32) kind num w.task (rowVa s r)) r fun x =>
      { x with orphan := true }) r
  else s

/-- Rows whose gang or edge run has a place on a core. -/
def gangMates (s : State) (core : Nat) : List RowId :=
  ((coresOf (clOf core)).filter fun c => (getCore s c).mx.st != .idle && (getCore s core).mx.st != .idle).map
    (fun c => ⟨c, (getCore s c).mx.row⟩) ++
  (s.cores.filter fun c => c.2.edge.st != .idle && (runCores c.2.edge.words).contains core).map fun c => ⟨c.1, c.2.edge.row⟩

/-- What the shadow of a failed core holds is orphaned: the tasks of its rows, and its run queue (R369). -/
def orphanShadow (s : State) (kind num core : Nat) : State :=
  let x : ShadowCore := smGet {} s.shadow core
  let away := noticeDie s (dieOf core)
  let p := (getCl s (clOf core)).spart
  let live := fun (w : Row) => w.task.getLsbD 7 && !w.orphan
  let s1 := (x.rows.filter fun w => live w.2).foldl (fun t w =>
    orphan t away (Wbits w.2.task 63 32) kind num w.2.task (rowVaIn t p ⟨core, w.1⟩)) s
  let s2 := x.runq.foldl (fun t q => orphanPacket t away kind num q) s1
  if x = {} then s2
  else { s2 with shadow := smSet {} s2.shadow core { x with rows := x.rows.map fun w => (w.1, { w.2 with orphan := w.2.orphan || live w.2 }), runq := [] } }

/-- Everything that a failed core was to run is orphaned: its tasks, its run queue, those of its shadow, and inbox packets bound
to it; so are the tasks whose gang or edge run has a place there (R369). -/
def orphanCore (s : State) (kind num core : Nat) : State :=
  let s0 := orphanShadow (modCore s core fun c => { c with failed := true }) kind num core
  let s1 := (liveRows s0 core ++ gangMates s0 core).foldl (fun t r => orphanRow t kind num r) s0
  let away := noticeDie s0 (dieOf core)
  let s2 := (getCore s core).runq.foldl (fun t p => orphanPacket t away kind num p) s1
  let d := dieOf core
  let s3 := ((getDie s d).inbox.filter fun p => p.core == some core).foldl (fun t p => orphanPacket t away kind num p) s2
  modCore (modDie s3 d fun x => { x with inbox := x.inbox.filter fun p => p.core != some core }) core fun c => { c with runq := [] }

/-- Is a Flisen port the only one that may carry messages to a peer? A message whose port fails is resent on another (R373). -/
def onlyPort (s : State) (peer n : Nat) : Bool := decide (n < 16) && (smGet 0 s.pkg.flroute peer).toNat % 2 ^ 16 == 2 ^ n

/-- The tile, by its number in the package, whose slice or core serves an access (R62, R64). -/
def tileOf (s : State) (die : Nat) (p : Part) : Option Nat :=
  match partCore s p, routeOf s die p with
  | some c, _ => some c
  | none, .home d ph => some (160 * d + (if ph then paSlice (p.pa / 128) else vaSlice (lineL p)))
  | none, .guest d ph _ => some (160 * d + (if ph then paSlice (p.pa / 128) else vaSlice (lineL p)))
  | none, .direct => none

/-- Does an access pass the die-to-die link: to a tile of the other die, or past a guest slice that does not hold the line (R66)? -/
def crosses (s : State) (die : Nat) (p : Part) : Bool :=
  (match tileOf s die p with
    | some t => t / 160 != die
    | none => false) ||
  (match routeOf s die p, homeDie s p.pa with
    | .guest d ph _, some h => h != die && (findLine s d ph p).isNone
    | _, _ => false)

/-- Does an access of a core use a failed slice, link lane group or channel (R62, R64, R78)? Link groups 0-15 are the Flisen
ports, 16 and 17 the host links, 18 the die-to-die link, and 32 + t the mesh group of tile t, which what its core sends and what
it serves passes (R394). DESIGN CHOICE, log entry 60. -/
def usesPart (s : State) (k : PartKind) (n core : Nat) (p : Part) : Bool :=
  let die := dieOf core
  match k with
  | .core => false
  | .slice => (partCore s p).isNone && tileOf s die p == some n
  | .linkGroup =>
    if 32 ≤ n then tileOf s die p != some core && (core + 32 == n || (tileOf s die p).map (· + 32) == some n)
    else if n = 18 then crosses s die p
    else
      (match region s p.pa with
        | .host => n == 16 + die
        | .peerMem i => onlyPort s i n
        | .peerAp i _ => onlyPort s i n
        | _ => false)
  | .gddr => (region s p.pa == .gddr) && p.pa / 0x1000 % 2 * 16 + channelOf p.pa == n

/-- Code and number within its die of a failed part (R369). -/
def partNotice (k : PartKind) (n : Nat) : Nat × Nat :=
  match k with
  | .core => (1, n % 160)
  | .slice => (2, n % 160)
  | .linkGroup => (3, if n < 16 then n % 8 else if n < 18 then 8 else if n < 32 then 9 else 16 + (n - 32) % 160)
  | .gddr => (4, n % 16)

/-- Does a piece use a failed part? -/
def copyUses (s : State) (k : PartKind) (n : Nat) (p : CopyPiece) : Bool :=
  let u := usesPart s k n p.row.core
  p.unread.any (fun x => u (subPart p.src x.1 x.2)) || p.todo.any fun x => u (subPart p.dst x.1 x.2)
/-- Does a distributor's piece? -/
def distUses (s : State) (k : PartKind) (n : Nat) (p : DistPiece) : Bool :=
  p.todo.any fun x => let u := usesPart s k n p.row.core; u (subPart p.mem x.1 x.2) || u (subPart p.rs x.1 x.2)

/-- Does a store on its way use a failed part? -/
def entUses (s : State) (k : PartKind) (n : Nat) (e : StEnt) : Bool := usesPart s k n e.row.core e.part

/-- Does a request use a failed part? -/
def reqUses (s : State) (k : PartKind) (n : Nat) (q : Req) : Bool := q.todo.any (usesPart s k n q.row.core)

/-- Rows, with their partitions, that have an access outstanding through a failed part, each once: requests, stores, engine pieces
(R369). -/
def dependents (s : State) (k : PartKind) (n : Nat) : List (RowId × Nat) :=
  ((s.reqs.filter (reqUses s k n)).map (fun q => (q.row, q.part)) ++
    ((s.flights.map (·.ent)).filter (entUses s k n)).map (fun e => (e.row, e.owner)) ++
    (s.cores.flatMap fun c => c.2.fifo.filter (entUses s k n)).map (fun e => (e.row, e.owner)) ++
    (s.clusters.flatMap fun c => c.2.copyq.filter (copyUses s k n)).map (fun p => (p.row, p.part)) ++
    (s.dies.flatMap fun d => d.2.distq.filter (distUses s k n)).map (fun p => (p.row, p.part))).eraseDups

/-- The accesses of a row of a partition through a failed part are lost (R369). -/
def loseOf (s : State) (k : PartKind) (n : Nat) (x : RowId × Nat) : State :=
  let r := x.1
  let s1 : State := { s with
    reqs := s.reqs.filter fun q => !(q.row == r && q.part == x.2 && reqUses s k n q),
    flights := s.flights.filter fun f => !(f.ent.row == r && f.ent.owner == x.2 && entUses s k n f.ent) }
  let s2 := modCore s1 r.core fun c => { c with fifo := c.fifo.filter fun e => !(e.row == r && e.owner == x.2 && entUses s k n e) }
  let s3 := modCl s2 (clOf r.core) fun c =>
    { c with copyq := c.copyq.filter fun p => !(p.row == r && p.part == x.2 && copyUses s k n p) }
  let dist := fun (t : State) (d : Nat) =>
    modDie t d fun y => { y with distq := y.distq.filter fun p => !(p.row == r && p.part == x.2 && distUses s k n p) }
  dist (dist s3 0) 1

/-- The row of partition `p` at `r` in a core's shadow, when its partition is swapped out (R352). -/
def shadowRow (s : State) (r : RowId) (p : Nat) : Option Row :=
  let c := getCl s (clOf r.core)
  if c.svalid && c.spart == p then some (smGet {} (smGet {} s.shadow r.core : ShadowCore).rows r.row) else none

/-- The task of row `r` of partition `p` is orphaned where it stands: in the core, or in its shadow (R352, R369). -/
def orphanAt (s : State) (kind num : Nat) (x : RowId × Nat) : State :=
  let r := x.1
  if partOf s r.core = some x.2 then orphanRow s kind num r
  else match shadowRow s r x.2 with
    | none => s
    | some w =>
      if w.task.getLsbD 7 && !w.orphan then
        let t := orphan s (noticeDie s (dieOf r.core)) (Wbits w.task 63 32) kind num w.task (rowVaIn s x.2 r)
        let y : ShadowCore := smGet {} t.shadow r.core
        { t with shadow := smSet {} t.shadow r.core { y with rows := smSet {} y.rows r.row { w with orphan := true } } }
      else s

/-- Does row `r` of partition `p` run a task (R369)? -/
def runsTask (s : State) (x : RowId × Nat) : Bool :=
  if partOf s x.1.core = some x.2 then (getRow s x.1).task.getLsbD 7
  else (shadowRow s x.1 x.2).any fun w => w.task.getLsbD 7

/-- PART_FAILURE: the tasks that depend on the part are orphaned, and their accesses through it are lost (R369). DESIGN CHOICE, log entry 60. -/
def execPartFailure (k : PartKind) (n : Nat) (s : State) : Out :=
  let (code, num) := partNotice k n
  .next (
    match k with
    | .core => if corePresent s n then orphanCore s code num n else s
    | _ => ((dependents s k n).filter (runsTask s)).foldl (fun t x => orphanAt (loseOf t k n x) code num x) s)

/-- Accesses in flight that end with HOMELOST in their rows (R374, R375). -/
def loseAccesses (s : State) (lost : Part → Bool) : State :=
  let rs := (s.reqs.filter fun q => q.todo.any lost).foldl (fun t q =>
    match q.todo.find? lost with
    | some p => lostReq t q p (if q.isLoad then 0 else 3)
    | none => t) s
  (s.flights.filter fun f => lost f.ent.part).foldl (fun t f => endFlight t f cHOMELOST) rs

/-- Is a part in the memory or an aperture of a peer? -/
def atPeer (s : State) (p : Part) : Bool :=
  match region s p.pa with
  | .peerMem _ => true
  | .peerAp _ _ => true
  | _ => false

/-- A peer refuses access `id` of a row: PERM, or ADDR where its own state makes the offset a hole (R374). DESIGN CHOICE, log
entry 99. -/
def peerRefuseAt (s : State) (id : Nat) (hole : Bool) : State :=
  let cause := if hole then cADDR else cPERM
  match s.reqs.find? (fun q => q.id == id), s.flights.find? (fun f => f.id == id) with
  | some q, _ => (match q.todo.find? (atPeer s) with
    | some p => endReq s q p (if q.isLoad then 0 else 3) cause
    | none => s)
  | none, some f => if atPeer s f.ent.part then endFlight s f cause else s
  | none, none =>
    match s.clusters.findSome? fun c => (c.2.copyq.find? fun p => p.id == id).map fun p => (c.1, p) with
    | none => s
    | some (cl, p) =>
      let drop := fun (t : State) => modCl t cl fun c => { c with copyq := c.copyq.filter fun y => y.id != id }
      if atPeer s p.src then endAccess s p.row p.part ⟨cause, p.src.va, 0, 0⟩ drop
      else if atPeer s p.dst then endAccess s p.row p.part ⟨cause, p.dst.va, 1, 0⟩ drop
      else s

/-- ROUTE_FAILURE (R374). -/
def execRouteFailure (peer : Nat) (s : State) : Out :=
  let s1 := modPkg s fun q =>
    { q with peerLost := insSorted q.peerLost peer,
             flroute := smSet 0 q.flroute peer (smGet 0 q.flroute peer &&& ~~~(0x10000#64)) }
  .next (
    if !routed s peer then s
    else loseAccesses s1 fun p => match region s p.pa with
      | .peerMem i => i == peer
      | .peerAp i _ => i == peer
      | _ => false)

/-- DIE_FAILURE: guest lines homed on the die go, its rows and packets are orphaned to the survivor's host queue, and
accesses in flight to it end with HOMELOST (R375). -/
def execDieFailure (die : Nat) (s : State) : Out :=
  .next (
    if 2 ≤ die ∨ (getDie s die).failed = true then s
    else
      let homed := fun (x : Line) => x.stamp.isSome && region s (128 * x.pl) == .gddr && x.pl / 32 % 2 == die
      let s1 := dropWhere s fun x => x.die == die || homed x
      let held : List Nat := s.cores.map (fun x => x.1) ++ s.rows.map (fun x => x.1 / 256) ++ s.shadow.map fun x => x.1
      let cores := held.eraseDups.filter fun c => dieOf c == die
      let s2 := modDie s1 die fun d => { d with failed := true }
      let s3 := cores.foldl (fun t c => orphanCore t 1 (c % 160) c) s2
      let s4 := (getDie s3 die).inbox.foldl (fun t p => orphanPacket t (1 - die) 1 0 p) s3
      let s5 := modDie s4 die fun d => { d with inbox := [], distq := d.distq.filter fun p => dieOf p.row.core ≠ die }
      let s6 := (List.range' (20 * die) 20).foldl (fun t c => modCl t c fun x => { x with copyq := [] }) s5
      let s7 : State := { s6 with reqs := s6.reqs.filter fun q => dieOf q.row.core ≠ die,
                                  flights := s6.flights.filter fun f => dieOf f.ent.row.core ≠ die }
      loseAccesses s7 fun p => homeDie s7 p.pa == some die)

end Sys2Proof.Machine
end

