-- ==== Sys2Proof/Machine/Dispatch.lean ====
section
/-!
DEFINITION. The meaning of every instruction and device step: one arm per constructor of `Instr`.
-/

namespace Sys2Proof.Machine

/-- Execute one instruction of row `s.cur`, or one step of the device. -/
def exec (i : Instr) (s : State) : Host.Outcome State Fault Refusal :=
  match i with
  | .aluAdd sz tb ta b a d => Sys2Proof.Machine.execAluAdd sz tb ta b a d s
  | .aluSub sz tb ta b a d => Sys2Proof.Machine.execAluSub sz tb ta b a d s
  | .aluMul sz tb ta b a d => Sys2Proof.Machine.execAluMul sz tb ta b a d s
  | .aluMulh sz tb ta b a d => Sys2Proof.Machine.execAluMulh sz tb ta b a d s
  | .aluMulhu sz tb ta b a d => Sys2Proof.Machine.execAluMulhu sz tb ta b a d s
  | .aluDiv sz tb ta b a d => Sys2Proof.Machine.execAluDiv sz tb ta b a d s
  | .aluDivu sz tb ta b a d => Sys2Proof.Machine.execAluDivu sz tb ta b a d s
  | .aluRem sz tb ta b a d => Sys2Proof.Machine.execAluRem sz tb ta b a d s
  | .aluRemu sz tb ta b a d => Sys2Proof.Machine.execAluRemu sz tb ta b a d s
  | .aluAnd sz tb ta b a d => Sys2Proof.Machine.execAluAnd sz tb ta b a d s
  | .aluOr sz tb ta b a d => Sys2Proof.Machine.execAluOr sz tb ta b a d s
  | .aluXor sz tb ta b a d => Sys2Proof.Machine.execAluXor sz tb ta b a d s
  | .aluAndn sz tb ta b a d => Sys2Proof.Machine.execAluAndn sz tb ta b a d s
  | .aluShl sz tb ta b a d => Sys2Proof.Machine.execAluShl sz tb ta b a d s
  | .aluShr sz tb ta b a d => Sys2Proof.Machine.execAluShr sz tb ta b a d s
  | .aluSra sz tb ta b a d => Sys2Proof.Machine.execAluSra sz tb ta b a d s
  | .aluMin sz tb ta b a d => Sys2Proof.Machine.execAluMin sz tb ta b a d s
  | .aluMax sz tb ta b a d => Sys2Proof.Machine.execAluMax sz tb ta b a d s
  | .aluMinu sz tb ta b a d => Sys2Proof.Machine.execAluMinu sz tb ta b a d s
  | .aluMaxu sz tb ta b a d => Sys2Proof.Machine.execAluMaxu sz tb ta b a d s
  | .aluRot sz tb ta b a d => Sys2Proof.Machine.execAluRot sz tb ta b a d s
  | .aluClz sz tb ta a d => Sys2Proof.Machine.execAluClz sz tb ta a d s
  | .aluCtz sz tb ta a d => Sys2Proof.Machine.execAluCtz sz tb ta a d s
  | .aluPopc sz tb ta a d => Sys2Proof.Machine.execAluPopc sz tb ta a d s
  | .aluEq sz tb ta b a d => Sys2Proof.Machine.execAluEq sz tb ta b a d s
  | .aluNe sz tb ta b a d => Sys2Proof.Machine.execAluNe sz tb ta b a d s
  | .aluLt sz tb ta b a d => Sys2Proof.Machine.execAluLt sz tb ta b a d s
  | .aluLtu sz tb ta b a d => Sys2Proof.Machine.execAluLtu sz tb ta b a d s
  | .aluLe sz tb ta b a d => Sys2Proof.Machine.execAluLe sz tb ta b a d s
  | .aluLeu sz tb ta b a d => Sys2Proof.Machine.execAluLeu sz tb ta b a d s
  | .aluSel sz tb ta b a d => Sys2Proof.Machine.execAluSel sz tb ta b a d s
  | .aluExt sz tb ta b a d => Sys2Proof.Machine.execAluExt sz tb ta b a d s
  | .alui imm ta a d => Sys2Proof.Machine.execAlui imm ta a d s
  | .andi imm ta a d => Sys2Proof.Machine.execAndi imm ta a d s
  | .ori imm ta a d => Sys2Proof.Machine.execOri imm ta a d s
  | .xori imm ta a d => Sys2Proof.Machine.execXori imm ta a d s
  | .shiShl sz amt ta a d => Sys2Proof.Machine.execShiShl sz amt ta a d s
  | .shiShr sz amt ta a d => Sys2Proof.Machine.execShiShr sz amt ta a d s
  | .shiSra sz amt ta a d => Sys2Proof.Machine.execShiSra sz amt ta a d s
  | .shiRot sz amt ta a d => Sys2Proof.Machine.execShiRot sz amt ta a d s
  | .cmpiEq imm ta a d => Sys2Proof.Machine.execCmpiEq imm ta a d s
  | .cmpiNe imm ta a d => Sys2Proof.Machine.execCmpiNe imm ta a d s
  | .cmpiLt imm ta a d => Sys2Proof.Machine.execCmpiLt imm ta a d s
  | .cmpiLtu imm ta a d => Sys2Proof.Machine.execCmpiLtu imm ta a d s
  | .cmpiLe imm ta a d => Sys2Proof.Machine.execCmpiLe imm ta a d s
  | .cmpiLeu imm ta a d => Sys2Proof.Machine.execCmpiLeu imm ta a d s
  | .cmpiGt imm ta a d => Sys2Proof.Machine.execCmpiGt imm ta a d s
  | .cmpiGtu imm ta a d => Sys2Proof.Machine.execCmpiGtu imm ta a d s
  | .ldi imm d => Sys2Proof.Machine.execLdi imm d s
  | .ldx imm d => Sys2Proof.Machine.execLdx imm d s
  | .extC0 imm e => Sys2Proof.Machine.execExtC0 imm e s
  | .extC1 imm e => Sys2Proof.Machine.execExtC1 imm e s
  | .extC2 imm e => Sys2Proof.Machine.execExtC2 imm e s
  | .extX x e => Sys2Proof.Machine.execExtX x e s
  | .br imm d => Sys2Proof.Machine.execBr imm d s
  | .bcEq imm ta b a => Sys2Proof.Machine.execBcEq imm ta b a s
  | .bcNe imm ta b a => Sys2Proof.Machine.execBcNe imm ta b a s
  | .bcLt imm ta b a => Sys2Proof.Machine.execBcLt imm ta b a s
  | .bcLtu imm ta b a => Sys2Proof.Machine.execBcLtu imm ta b a s
  | .bcGe imm ta b a => Sys2Proof.Machine.execBcGe imm ta b a s
  | .bcGeu imm ta b a => Sys2Proof.Machine.execBcGeu imm ta b a s
  | .jmp imm ta a d => Sys2Proof.Machine.execJmp imm ta a d s
  | .jmpRet imm ta a d => Sys2Proof.Machine.execJmpRet imm ta a d s
  | .ld off mo sz ta a d => Sys2Proof.Machine.execLd off mo sz ta a d s
  | .st off mo sz ta a d => Sys2Proof.Machine.execSt off mo sz ta a d s
  | .vld off mo sz ta a d => Sys2Proof.Machine.execVld off mo sz ta a d s
  | .vst off mo sz ta a d => Sys2Proof.Machine.execVst off mo sz ta a d s
  | .vmemGather ty t mk b a d => Sys2Proof.Machine.execVmemGather ty t mk b a d s
  | .vmemScatter ty t mk b a d => Sys2Proof.Machine.execVmemScatter ty t mk b a d s
  | .vmemLds ty t mk b a d => Sys2Proof.Machine.execVmemLds ty t mk b a d s
  | .vmemSts ty t mk b a d => Sys2Proof.Machine.execVmemSts ty t mk b a d s
  | .vmemScatredAdd ty t mk b a d => Sys2Proof.Machine.execVmemScatredAdd ty t mk b a d s
  | .vmemScatredFadd ty t mk b a d => Sys2Proof.Machine.execVmemScatredFadd ty t mk b a d s
  | .vmemScatredMin ty t mk b a d => Sys2Proof.Machine.execVmemScatredMin ty t mk b a d s
  | .vmemScatredMax ty t mk b a d => Sys2Proof.Machine.execVmemScatredMax ty t mk b a d s
  | .vmemScatredMinu ty t mk b a d => Sys2Proof.Machine.execVmemScatredMinu ty t mk b a d s
  | .vmemScatredMaxu ty t mk b a d => Sys2Proof.Machine.execVmemScatredMaxu ty t mk b a d s
  | .vmemScatredOr ty t mk b a d => Sys2Proof.Machine.execVmemScatredOr ty t mk b a d s
  | .amoAdd post scope sz tb ta b a d => Sys2Proof.Machine.execAmoAdd post scope sz tb ta b a d s
  | .amoAnd post scope sz tb ta b a d => Sys2Proof.Machine.execAmoAnd post scope sz tb ta b a d s
  | .amoOr post scope sz tb ta b a d => Sys2Proof.Machine.execAmoOr post scope sz tb ta b a d s
  | .amoXor post scope sz tb ta b a d => Sys2Proof.Machine.execAmoXor post scope sz tb ta b a d s
  | .amoMin post scope sz tb ta b a d => Sys2Proof.Machine.execAmoMin post scope sz tb ta b a d s
  | .amoMax post scope sz tb ta b a d => Sys2Proof.Machine.execAmoMax post scope sz tb ta b a d s
  | .amoMinu post scope sz tb ta b a d => Sys2Proof.Machine.execAmoMinu post scope sz tb ta b a d s
  | .amoMaxu post scope sz tb ta b a d => Sys2Proof.Machine.execAmoMaxu post scope sz tb ta b a d s
  | .amoSwap post scope sz tb ta b a d => Sys2Proof.Machine.execAmoSwap post scope sz tb ta b a d s
  | .amoCas post scope sz tb ta b a d => Sys2Proof.Machine.execAmoCas post scope sz tb ta b a d s
  | .amoDecFire scope tb ta a d => Sys2Proof.Machine.execAmoDecFire scope tb ta a d s
  | .amoFadd post scope sz tb ta b a d => Sys2Proof.Machine.execAmoFadd post scope sz tb ta b a d s
  | .syncFenceDie tb ta => Sys2Proof.Machine.execSyncFenceDie tb ta s
  | .syncFenceDev tb ta => Sys2Proof.Machine.execSyncFenceDev tb ta s
  | .syncFenceSys tb ta => Sys2Proof.Machine.execSyncFenceSys tb ta s
  | .syncFenceCp tb ta => Sys2Proof.Machine.execSyncFenceCp tb ta s
  | .syncFenceU tb ta => Sys2Proof.Machine.execSyncFenceU tb ta s
  | .syncRel tb ta b a => Sys2Proof.Machine.execSyncRel tb ta b a s
  | .syncAcq tb ta a d => Sys2Proof.Machine.execSyncAcq tb ta a d s
  | .syncClnRange tb ta b a => Sys2Proof.Machine.execSyncClnRange tb ta b a s
  | .syncInvRange tb ta b a => Sys2Proof.Machine.execSyncInvRange tb ta b a s
  | .syncFlnRange tb ta b a => Sys2Proof.Machine.execSyncFlnRange tb ta b a s
  | .syncFeClr tb ta b a => Sys2Proof.Machine.execSyncFeClr tb ta b a s
  | .syncFeSet tb ta b a => Sys2Proof.Machine.execSyncFeSet tb ta b a s
  | .valuAdd ty t mk b a d => Sys2Proof.Machine.execValuAdd ty t mk b a d s
  | .valuSub ty t mk b a d => Sys2Proof.Machine.execValuSub ty t mk b a d s
  | .valuMul ty t mk b a d => Sys2Proof.Machine.execValuMul ty t mk b a d s
  | .valuMulh ty t mk b a d => Sys2Proof.Machine.execValuMulh ty t mk b a d s
  | .valuAnd ty t mk b a d => Sys2Proof.Machine.execValuAnd ty t mk b a d s
  | .valuOr ty t mk b a d => Sys2Proof.Machine.execValuOr ty t mk b a d s
  | .valuXor ty t mk b a d => Sys2Proof.Machine.execValuXor ty t mk b a d s
  | .valuShl ty t mk b a d => Sys2Proof.Machine.execValuShl ty t mk b a d s
  | .valuShr ty t mk b a d => Sys2Proof.Machine.execValuShr ty t mk b a d s
  | .valuSra ty t mk b a d => Sys2Proof.Machine.execValuSra ty t mk b a d s
  | .valuMin ty t mk b a d => Sys2Proof.Machine.execValuMin ty t mk b a d s
  | .valuMax ty t mk b a d => Sys2Proof.Machine.execValuMax ty t mk b a d s
  | .valuMinu ty t mk b a d => Sys2Proof.Machine.execValuMinu ty t mk b a d s
  | .valuMaxu ty t mk b a d => Sys2Proof.Machine.execValuMaxu ty t mk b a d s
  | .valuCmp ty t mk b a cond m => Sys2Proof.Machine.execValuCmp ty t mk b a cond m s
  | .valuSel ty t mk b a d => Sys2Proof.Machine.execValuSel ty t mk b a d s
  | .vfpAdd ty t mk b a d => Sys2Proof.Machine.execVfpAdd ty t mk b a d s
  | .vfpSub ty t mk b a d => Sys2Proof.Machine.execVfpSub ty t mk b a d s
  | .vfpMul ty t mk b a d => Sys2Proof.Machine.execVfpMul ty t mk b a d s
  | .vfpDiv ty t mk b a d => Sys2Proof.Machine.execVfpDiv ty t mk b a d s
  | .vfpMin ty t mk b a d => Sys2Proof.Machine.execVfpMin ty t mk b a d s
  | .vfpMax ty t mk b a d => Sys2Proof.Machine.execVfpMax ty t mk b a d s
  | .vfpRnd ty t mk a d => Sys2Proof.Machine.execVfpRnd ty t mk a d s
  | .vfpExp2f ty t mk a d => Sys2Proof.Machine.execVfpExp2f ty t mk a d s
  | .vfpScale ty t mk b a d => Sys2Proof.Machine.execVfpScale ty t mk b a d s
  | .vfpGetexp ty t mk a d => Sys2Proof.Machine.execVfpGetexp ty t mk a d s
  | .vfpRcp ty t mk a d => Sys2Proof.Machine.execVfpRcp ty t mk a d s
  | .vfpRsq ty t mk a d => Sys2Proof.Machine.execVfpRsq ty t mk a d s
  | .vfpSqrt ty t mk a d => Sys2Proof.Machine.execVfpSqrt ty t mk a d s
  | .vfpCvt ty t mk sty a d => Sys2Proof.Machine.execVfpCvt ty t mk sty a d s
  | .vfpCmp ty t mk b a cond m => Sys2Proof.Machine.execVfpCmp ty t mk b a cond m s
  | .vfpCls ty t mk a d => Sys2Proof.Machine.execVfpCls ty t mk a d s
  | .vfmaFma ty mk c b a d => Sys2Proof.Machine.execVfmaFma ty mk c b a d s
  | .vfmaFms ty mk c b a d => Sys2Proof.Machine.execVfmaFms ty mk c b a d s
  | .vfmaFnma ty mk c b a d => Sys2Proof.Machine.execVfmaFnma ty mk c b a d s
  | .vfmaFnms ty mk c b a d => Sys2Proof.Machine.execVfmaFnms ty mk c b a d s
  | .maskAnd tb ta b a d => Sys2Proof.Machine.execMaskAnd tb ta b a d s
  | .maskOr tb ta b a d => Sys2Proof.Machine.execMaskOr tb ta b a d s
  | .maskXor tb ta b a d => Sys2Proof.Machine.execMaskXor tb ta b a d s
  | .maskAndn tb ta b a d => Sys2Proof.Machine.execMaskAndn tb ta b a d s
  | .maskNot tb ta a d => Sys2Proof.Machine.execMaskNot tb ta a d s
  | .maskPop tb ta a d => Sys2Proof.Machine.execMaskPop tb ta a d s
  | .maskFirst tb ta a d => Sys2Proof.Machine.execMaskFirst tb ta a d s
  | .maskFromx tb ta a d => Sys2Proof.Machine.execMaskFromx tb ta a d s
  | .maskTox tb ta a d => Sys2Proof.Machine.execMaskTox tb ta a d s
  | .maskAll tb ta d => Sys2Proof.Machine.execMaskAll tb ta d s
  | .maskLanes tb ta a d => Sys2Proof.Machine.execMaskLanes tb ta a d s
  | .fpuAdd fmt tb ta b a d => Sys2Proof.Machine.execFpuAdd fmt tb ta b a d s
  | .fpuSub fmt tb ta b a d => Sys2Proof.Machine.execFpuSub fmt tb ta b a d s
  | .fpuMul fmt tb ta b a d => Sys2Proof.Machine.execFpuMul fmt tb ta b a d s
  | .fpuDiv fmt tb ta b a d => Sys2Proof.Machine.execFpuDiv fmt tb ta b a d s
  | .fpuSqrt fmt tb ta a d => Sys2Proof.Machine.execFpuSqrt fmt tb ta a d s
  | .fpuMin fmt tb ta b a d => Sys2Proof.Machine.execFpuMin fmt tb ta b a d s
  | .fpuMax fmt tb ta b a d => Sys2Proof.Machine.execFpuMax fmt tb ta b a d s
  | .fpuFma fmt tb ta b a d => Sys2Proof.Machine.execFpuFma fmt tb ta b a d s
  | .fpuRnd fmt tb ta a d => Sys2Proof.Machine.execFpuRnd fmt tb ta a d s
  | .fpuCvt conv fmt tb ta a d => Sys2Proof.Machine.execFpuCvt conv fmt tb ta a d s
  | .fpuEq fmt tb ta b a d => Sys2Proof.Machine.execFpuEq fmt tb ta b a d s
  | .fpuLt fmt tb ta b a d => Sys2Proof.Machine.execFpuLt fmt tb ta b a d s
  | .fpuLe fmt tb ta b a d => Sys2Proof.Machine.execFpuLe fmt tb ta b a d s
  | .fpuCls fmt tb ta a d => Sys2Proof.Machine.execFpuCls fmt tb ta a d s
  | .fpuSgnj fmt tb ta b a d => Sys2Proof.Machine.execFpuSgnj fmt tb ta b a d s
  | .fpuAbs fmt tb ta a d => Sys2Proof.Machine.execFpuAbs fmt tb ta a d s
  | .rowYield tb ta => Sys2Proof.Machine.execRowYield tb ta s
  | .rowWait tb ta a => Sys2Proof.Machine.execRowWait tb ta a s
  | .rowStop tb ta => Sys2Proof.Machine.execRowStop tb ta s
  | .rowRowid tb ta d => Sys2Proof.Machine.execRowRowid tb ta d s
  | .rowSend tb ta a d => Sys2Proof.Machine.execRowSend tb ta a d s
  | .rowSpawn tb ta b a d => Sys2Proof.Machine.execRowSpawn tb ta b a d s
  | .rowDone tb ta => Sys2Proof.Machine.execRowDone tb ta s
  | .rowBudget tb ta a d => Sys2Proof.Machine.execRowBudget tb ta a d s
  | .rowBarInit tb ta b a => Sys2Proof.Machine.execRowBarInit tb ta b a s
  | .rowBarArrive tb ta a d => Sys2Proof.Machine.execRowBarArrive tb ta a d s
  | .rowBarWait tb ta b a => Sys2Proof.Machine.execRowBarWait tb ta b a s
  | .rowBarSync tb ta a d => Sys2Proof.Machine.execRowBarSync tb ta a d s
  | .rowDqPush tb ta b a d => Sys2Proof.Machine.execRowDqPush tb ta b a d s
  | .rowDqPop tb ta dp => Sys2Proof.Machine.execRowDqPop tb ta dp s
  | .rowDqSplit tb ta b a d => Sys2Proof.Machine.execRowDqSplit tb ta b a d s
  | .rowDqSteal tb ta dp => Sys2Proof.Machine.execRowDqSteal tb ta dp s
  | .rowDqLen tb ta d => Sys2Proof.Machine.execRowDqLen tb ta d s
  | .engineCpLin tb ta b a d => Sys2Proof.Machine.execEngineCpLin tb ta b a d s
  | .engineCpDist e tb ta b a d => Sys2Proof.Machine.execEngineCpDist e tb ta b a d s
  | .engineCpStat tb ta d => Sys2Proof.Machine.execEngineCpStat tb ta d s
  | .engineMxGang tb ta a d => Sys2Proof.Machine.execEngineMxGang tb ta a d s
  | .engineMxStat tb ta d => Sys2Proof.Machine.execEngineMxStat tb ta d s
  | .engineMxAbort tb ta d => Sys2Proof.Machine.execEngineMxAbort tb ta d s
  | .engineEdgeRun ta a d => Sys2Proof.Machine.execEngineEdgeRun ta a d s
  | .engineEdgeRet ta => Sys2Proof.Machine.execEngineEdgeRet ta s
  | .engineEdgeStat ta dp => Sys2Proof.Machine.execEngineEdgeStat ta dp s
  | .sysNop => Sys2Proof.Machine.execSysNop s
  | .sysTrap code => Sys2Proof.Machine.execSysTrap code s
  | .sysBkpt code => Sys2Proof.Machine.execSysBkpt code s
  | .sysUret => Sys2Proof.Machine.execSysUret s
  | .sysHalt => Sys2Proof.Machine.execSysHalt s
  | .sysSysr num d => Sys2Proof.Machine.execSysSysr num d s
  | .sysSysw num d => Sys2Proof.Machine.execSysSysw num d s
  | .sysShoot dp => Sys2Proof.Machine.execSysShoot dp s
  | .sysGang d => Sys2Proof.Machine.execSysGang d s
  | .sysSwap d => Sys2Proof.Machine.execSysSwap d s
  | .vxfBcast ty t mk a d => Sys2Proof.Machine.execVxfBcast ty t mk a d s
  | .vxfExt ty t b a d => Sys2Proof.Machine.execVxfExt ty t b a d s
  | .vxfIns ty t b a d => Sys2Proof.Machine.execVxfIns ty t b a d s
  | .vxfPerm ty t mk b a d => Sys2Proof.Machine.execVxfPerm ty t mk b a d s
  | .vxfRedAdd ty t mk a d => Sys2Proof.Machine.execVxfRedAdd ty t mk a d s
  | .vxfRedMin ty t mk a d => Sys2Proof.Machine.execVxfRedMin ty t mk a d s
  | .vxfRedMax ty t mk a d => Sys2Proof.Machine.execVxfRedMax ty t mk a d s
  | .vxfIota ty t mk d => Sys2Proof.Machine.execVxfIota ty t mk d s
  | .vxfAbs ty t mk a d => Sys2Proof.Machine.execVxfAbs ty t mk a d s
  | .vxfNeg ty t mk a d => Sys2Proof.Machine.execVxfNeg ty t mk a d s
  | .vxfSgnj ty t mk b a d => Sys2Proof.Machine.execVxfSgnj ty t mk b a d s
  | .vxfShfdn ty t mk b a d => Sys2Proof.Machine.execVxfShfdn ty t mk b a d s
  | .hMov a d => Sys2Proof.Machine.execHMov a d s
  | .hAdd a d => Sys2Proof.Machine.execHAdd a d s
  | .hAddi5 imm d => Sys2Proof.Machine.execHAddi5 imm d s
  | .hSub a d => Sys2Proof.Machine.execHSub a d s
  | .hAnd a d => Sys2Proof.Machine.execHAnd a d s
  | .hOr a d => Sys2Proof.Machine.execHOr a d s
  | .hXor a d => Sys2Proof.Machine.execHXor a d s
  | .hShli imm d => Sys2Proof.Machine.execHShli imm d s
  | .hShri imm d => Sys2Proof.Machine.execHShri imm d s
  | .hLd64 a d => Sys2Proof.Machine.execHLd64 a d s
  | .hLd32 a d => Sys2Proof.Machine.execHLd32 a d s
  | .hSt64 a d => Sys2Proof.Machine.execHSt64 a d s
  | .hSt32 a d => Sys2Proof.Machine.execHSt32 a d s
  | .hBeqz imm d => Sys2Proof.Machine.execHBeqz imm d s
  | .hBnez imm d => Sys2Proof.Machine.execHBnez imm d s
  | .hLt a d => Sys2Proof.Machine.execHLt a d s
  | .hLdi5 imm d => Sys2Proof.Machine.execHLdi5 imm d s
  | .hVfaddF32 ign14 a ign9 d => Sys2Proof.Machine.execHVfaddF32 ign14 a ign9 d s
  | .hVfmulF32 ign14 a ign9 d => Sys2Proof.Machine.execHVfmulF32 ign14 a ign9 d s
  | .hNop => Sys2Proof.Machine.execHNop s
  | .hYield => Sys2Proof.Machine.execHYield s
  | .hRet => Sys2Proof.Machine.execHRet s
  | .illegalInstruction w => Sys2Proof.Machine.execIllegalInstruction w s
  | .startStage res => Sys2Proof.Machine.execStartStage res s
  | .storePerform core => Sys2Proof.Machine.execStorePerform core s
  | .fill id k => Sys2Proof.Machine.execFill id k s
  | .atomicPerform id => Sys2Proof.Machine.execAtomicPerform id s
  | .dispatch core => Sys2Proof.Machine.execDispatch core s
  | .selection core bank => Sys2Proof.Machine.execSelection core bank s
  | .openingComplete core bank => Sys2Proof.Machine.execOpeningComplete core bank s
  | .closingComplete core bank => Sys2Proof.Machine.execClosingComplete core bank s
  | .upcallDelivery core => Sys2Proof.Machine.execUpcallDelivery core s
  | .ctlNone r v priv => Sys2Proof.Machine.execCtlNone r v priv s
  | .kindle r => Sys2Proof.Machine.execKindle r s
  | .stop r => Sys2Proof.Machine.execStop r s
  | .redirect r => Sys2Proof.Machine.execRedirect r s
  | .stepOne r => Sys2Proof.Machine.execStepOne r s
  | .resume r => Sys2Proof.Machine.execResume r s
  | .skip r => Sys2Proof.Machine.execSkip r s
  | .outsideAccess who pa op => Sys2Proof.Machine.execOutsideAccess who pa op s
  | .remoteFePerform id => Sys2Proof.Machine.execRemoteFePerform id s
  | .dateBroadcast slice date => Sys2Proof.Machine.execDateBroadcast slice date s
  | .acquirePassOwn id slice => Sys2Proof.Machine.execAcquirePassOwn id slice s
  | .acquirePassOther id slice => Sys2Proof.Machine.execAcquirePassOther id slice s
  | .frostSweep slice => Sys2Proof.Machine.execFrostSweep slice s
  | .inboxEntry i0 => Sys2Proof.Machine.execInboxEntry i0 s
  | .stokerBind die i0 => Sys2Proof.Machine.execStokerBind die i0 s
  | .runQueueEntry die i0 => Sys2Proof.Machine.execRunQueueEntry die i0 s
  | .hostQueueWrite die => Sys2Proof.Machine.execHostQueueWrite die s
  | .quantumExpiry core bank => Sys2Proof.Machine.execQuantumExpiry core bank s
  | .budget core bank n => Sys2Proof.Machine.execBudget core bank n s
  | .flueRequest i0 hop => Sys2Proof.Machine.execFlueRequest i0 hop s
  | .flueRecord die i0 => Sys2Proof.Machine.execFlueRecord die i0 s
  | .flueres v => Sys2Proof.Machine.execFlueres v s
  | .flueResolution i0 core => Sys2Proof.Machine.execFlueResolution i0 core s
  | .halt core => Sys2Proof.Machine.execHalt core s
  | .haltReport part => Sys2Proof.Machine.execHaltReport part s
  | .gangRelease part => Sys2Proof.Machine.execGangRelease part s
  | .swapExchange part => Sys2Proof.Machine.execSwapExchange part s
  | .arrivalLog part => Sys2Proof.Machine.execArrivalLog part s
  | .logReplay part => Sys2Proof.Machine.execLogReplay part s
  | .copyPiece cluster i0 part => Sys2Proof.Machine.execCopyPiece cluster i0 part s
  | .distributorBlock die i0 part => Sys2Proof.Machine.execDistributorBlock die i0 part s
  | .gangBarrier cl => Sys2Proof.Machine.execGangBarrier cl s
  | .prefetch cl => Sys2Proof.Machine.execPrefetch cl s
  | .permitGrant cl => Sys2Proof.Machine.execPermitGrant cl s
  | .loadB core => Sys2Proof.Machine.execLoadB core s
  | .mac core => Sys2Proof.Machine.execMac core s
  | .rotate cl => Sys2Proof.Machine.execRotate cl s
  | .drain core => Sys2Proof.Machine.execDrain core s
  | .group core => Sys2Proof.Machine.execGroup core s
  | .endStep core => Sys2Proof.Machine.execEndStep core s
  | .ringWatchdog cl n => Sys2Proof.Machine.execRingWatchdog cl n s
  | .edgeRunStart core => Sys2Proof.Machine.execEdgeRunStart core s
  | .chunkTake core => Sys2Proof.Machine.execChunkTake core s
  | .batch core n => Sys2Proof.Machine.execBatch core n s
  | .batchApply core => Sys2Proof.Machine.execBatchApply core s
  | .levelEnd core => Sys2Proof.Machine.execLevelEnd core s
  | .midLevelSwitch core => Sys2Proof.Machine.execMidLevelSwitch core s
  | .barrierArrival i0 => Sys2Proof.Machine.execBarrierArrival i0 s
  | .syClk cl v priv => Sys2Proof.Machine.execSyClk cl v priv s
  | .clockTransition cl => Sys2Proof.Machine.execClockTransition cl s
  | .syCbudget cl v priv => Sys2Proof.Machine.execSyCbudget cl v priv s
  | .refill cl => Sys2Proof.Machine.execRefill cl s
  | .damperWindow w => Sys2Proof.Machine.execDamperWindow w s
  | .sySlope v priv => Sys2Proof.Machine.execSySlope v priv s
  | .capMessage v priv => Sys2Proof.Machine.execCapMessage v priv s
  | .leaseExpiry => Sys2Proof.Machine.execLeaseExpiry s
  | .thawSend v priv => Sys2Proof.Machine.execThawSend v priv s
  | .thawMessage img => Sys2Proof.Machine.execThawMessage img s
  | .thawHoldEnd => Sys2Proof.Machine.execThawHoldEnd s
  | .tail q v => Sys2Proof.Machine.execTail q v s
  | .notifyWordStore q v => Sys2Proof.Machine.execNotifyWordStore q v s
  | .inboxControlWrite q off v => Sys2Proof.Machine.execInboxControlWrite q off v s
  | .admission q late => Sys2Proof.Machine.execAdmission q late s
  | .hostWrite link bar off bytes => Sys2Proof.Machine.execHostWrite link bar off bytes s
  | .hostRead link bar off n => Sys2Proof.Machine.execHostRead link bar off n s
  | .cxlSnoop die pa inval => Sys2Proof.Machine.execCxlSnoop die pa inval s
  | .directoryMerge die i0 => Sys2Proof.Machine.execDirectoryMerge die i0 s
  | .peerAccess port pa op => Sys2Proof.Machine.execPeerAccess port pa op s
  | .routeFailure peer => Sys2Proof.Machine.execRouteFailure peer s
  | .partFailure k n => Sys2Proof.Machine.execPartFailure k n s
  | .dieFailure die => Sys2Proof.Machine.execDieFailure die s
  | .powerOn => Sys2Proof.Machine.execPowerOn s
  | .perst => Sys2Proof.Machine.execPerst s
  | .syReset v priv => Sys2Proof.Machine.execSyReset v priv s
  | .stageTimeLimit => Sys2Proof.Machine.execStageTimeLimit s
  | .scrub die k unc => Sys2Proof.Machine.execScrub die k unc s
  | .sySerr k v priv => Sys2Proof.Machine.execSySerr k v priv s
  | .dequeClear core => Sys2Proof.Machine.execDequeClear core s
  | .bstateWrite core b v => Sys2Proof.Machine.execBstateWrite core b v s
  | .syClbind cl v priv => Sys2Proof.Machine.execSyClbind cl v priv s
  | .sysregWrite num v priv core => Sys2Proof.Machine.execSysregWrite num v priv core s
  | .softError site corrected => Sys2Proof.Machine.execSoftError site corrected s
  | .temperatureSensor cl hot => Sys2Proof.Machine.execTemperatureSensor cl hot s
  | .backInvalidateCompletion die i0 => Sys2Proof.Machine.execBackInvalidateCompletion die i0 s
  | .performanceAtTarget i0 => Sys2Proof.Machine.execPerformanceAtTarget i0 s

end Sys2Proof.Machine
end

