-- ==== Sys2Proof/Machine/Fetch.lean ====
section
/-!
DEFINITION. Fetching an instruction (R108, R147, R148), what stands before it at a row's boundary (R45, R332), the turns of
the environment (DESIGN CHOICE, log entry 1), and where `State.withFetchWord` places code (DESIGN CHOICE, log entry 2).
-/

namespace Sys2Proof.Machine

/-! ## Fetching -/

/-- What a fetch gives. -/
inductive Fetched where
  /-- The bytes of the instruction. -/
  | got (bytes : List Byte)
  | wait
  /-- A fault, and the length by which SKIP advances (R148). -/
  | bad (t : Trap) (len : Nat)
  deriving DecidableEq, Repr

/-- The bytes that a core's fetch unit holds for a part of code, if any (R108). -/
def fetchHeld (s : State) (core : Nat) (p : Part) : Option (List Byte) :=
  (s.ibuf.find? fun b => b.core == core && b.asid == p.asid && b.va16 == Wbits p.va 55 4).map fun b =>
    (b.bytes.drop (p.pa % 16)).take p.n

/-- Read the parts of an instruction: from the fetch unit, else as loads at the VA-hashed slice, past every FIFO (R81,
R108). -/
def fetchParts (s : State) (r : RowId) (priv : Bool) : List Part → Rd × State
  | [] => (.ok [], s)
  | p :: ps =>
    match (match fetchHeld s r.core p with
      | some bs => (Rd.ok bs, s)
      | none => readPart (bump s r.core 4 1) r priv 0 false p) with
    | (.ok bs, t) =>
      (match fetchParts t r priv ps with
        | (.ok cs, u) => (.ok (bs ++ cs), u)
        | x => x)
    | (.memerr sub i, t) => (.memerr sub (p.pos + i), t)
    | x => x

/-- Check and read `n` bytes of code at PC; SKIP after a fault advances by `len`. -/
def fetchN (s : State) (r : RowId) (n len : Nat) : Fetched × State :=
  let pc := (getRow s r).pc
  match check s (ctxOf s r) { ex := true, code := 2 } pc n false with
  | .error t => if t.waits then (.wait, walkWaits s t) else (.bad t len, s)
  | .ok ps =>
    match fetchParts s r (getRow s r).priv ps with
    | (.ok bs, t) => (.got bs, t)
    | (.wait, t) => (.wait, t)
    | (.memerr sub i, t) => (.bad (memErrTrap pc sub i 2) len, t)

/-- Fetch the instruction at PC: its first halfword, whose bit 0 gives the length, then the whole of it (R147, R148). -/
def fetch (s : State) (r : RowId) : Fetched × State :=
  match fetchN s r 2 2 with
  | (.got bs, t) => if (bs.headD 0).getLsbD 0 then fetchN t r 4 4 else (.got bs, t)
  | x => x

/-! ## A row's turn -/

/-- Is the row in the running position of its bank? -/
def inPosition (s : State) (r : RowId) : Bool :=
  let b := getBank s r.core (r.row % 4)
  match b.runSlot with
  | some k => (b.slot k).row == r.row
  | none => false

/-- Do the rows of a core run: the device is up, or its start code runs, on cores 0-7 (R389, R391)? -/
def bootRuns (s : State) (core : Nat) : Bool :=
  match s.pkg.boot with
  | none => true
  | some b => b.stage == 5 && b.cause == 0 && decide (core < 8)

/-- May the row issue: its core and die work, it is READY and holds the running position (R133, R331)? -/
def canRun (s : State) (r : RowId) : Bool :=
  bootRuns s r.core && corePresent s r.core && decide (r.row < 256) && !(getCore s r.core).failed &&
  !(getDie s (dieOf r.core)).failed && (getRow s r).st == .ready && inPosition s r

/-- The instruction that bytes hold: one that they do not define raises ILL (R158). -/
def decoded (bs : List Byte) : Instr × Nat :=
  match decode bs with
  | some (i, _) => (i, i.size)
  | none => (.illegalInstruction (BitVec.ofNat 32 (leNat bs)), bs.length)

/-- The row has the issue position for one cycle: BUDGET and the quantum count it. -/
def startIssue (s : State) (r : RowId) : State := charge { s with cur := r } r.core (r.row % 4) 1

/-- Mark the slot of a row as having issued (R330). -/
def markIssued (s : State) (r : RowId) : State :=
  match slotOf s r with
  | none => s
  | some k => modBank s r.core (r.row % 4) fun b => b.setSlot k { b.slot k with issued := true }

/-- Has the row issued between two states: its instruction has retired, gone on to another step, or taken the date of a release?
A fetch that waits, and an instruction that waits to issue (R56), issue nothing (R330). -/
def hasIssued (s t : State) (r : RowId) : Bool :=
  (getRow t r).retired != (getRow s r).retired || (getRow t r).rstep != (getRow s r).rstep ||
  (relDated (getRow t r) && !relDated (getRow s r))

/-- What a step adds after an execution: the slot of the row is marked when the row has issued (R330). -/
def afterExec (s : State) (r : RowId) (o : Host.Outcome State Fault Refusal) : Host.Outcome State Fault Refusal :=
  match o with
  | .next t => .next (if hasIssued s t r then markIssued t r else t)
  | x => x

/-- What ends the running position before an issue: an OPEN row of higher class, and the quantum (R332, R333). -/
def yieldPosition (s : State) (core bank : Nat) : State := expire (preempt s core bank) core bank

/-- What comes before execution: the position is held, a BUDGET trap that is due is raised, else the instruction is
fetched. The instruction to execute, and the state to execute it in. A row whose release has been dated writes its object
instead (R118). -/
def issue (s : State) (r : RowId) : Option Instr × State :=
  if !canRun s r then (none, s)
  else
    let w := getRow s r
    let s1 := yieldPosition s r.core (r.row % 4)
    if !inPosition s1 r then (none, s1)
    else if w.due && !w.stalled then (none, budgetTrap s1 r)
    else match w.rel with
    | some x => (none, relWrite (startIssue s1 r) r x)
    | none =>
      match fetch (startIssue s1 r) r with
      | (.wait, t) => (none, t)
      | (.bad t len, u) => (none, raise (modRow u r fun x => { x with fetchLen := some len }) r t w.rstep)
      | (.got bs, u) =>
        let (i, n) := decoded bs
        (some i, modRow u r fun x => { x with fetchLen := some n })

/-! ## The canonical turn -/

/-- The first row in a running position that may issue. -/
def firstRunning (s : State) : Option RowId :=
  s.cores.findSome? fun (n, c) => c.banks.findSome? fun (_, b) =>
    match b.runSlot with
    | some k => let r : RowId := ⟨n, (b.slot k).row⟩; if canRun s r then some r else none
    | none => none

/-- The turn taken when the agenda is empty: the first running row issues; else the start goes on; else nothing. -/
def canonical (s : State) : Turn :=
  match firstRunning s with
  | some r => .run r
  | none => if s.pkg.boot.isSome then .dev (.startStage .ok) else .idle

/-! ## Turns of the environment -/

/-- Does an instruction belong to a row: then it comes by the row's turn only? -/
def ofRow (i : Instr) : Bool :=
  i.hasWord || (match i with
    | .illegalInstruction _ => true
    | _ => false)

/-- A translation cache takes the translation of a page in an ASID (R37, R64). DESIGN CHOICE, log entry 20. -/
def cacheTransAt (s : State) (die slice asid vpn : Nat) : State :=
  match (List.range 64).find? fun k =>
      (getPart s k).root.getLsbD 0 && !(getPart s k).root.getLsbD 1 && asidOfPart s k == asid with
  | none => s
  | some p =>
    match walkHeld s (some p) vpn with
    | some pa => (dirStart s pa).2
    | none =>
      match walk s (some p) vpn with
      | .ok (e, l) => { s with tlb := s.tlb ++ [⟨die, slice, asid, vpn, e, l⟩] }
      | .error _ => s

/-- A fetch unit takes the aligned 16 bytes of code at a pointer, as they stand at the slice (R108). -/
def prefetchAt (s : State) (core : Nat) (pc : Word) : State :=
  let va := pc &&& ~~~15#64
  let asid := asidOf s core
  let t : State := { s with ibuf := s.ibuf.filter fun b => !(b.core == core && b.asid == asid && b.va16 == Wbits va 55 4) }
  match check s ⟨core, 0, partOf s core, asid, true⟩ { ex := true, code := 2 } va 16 false with
  | .error x => walkWaits s x
  | .ok ps =>
    match fetchParts t ⟨core, 0⟩ true ps with
    | (.ok bs, u) => { u with ibuf := u.ibuf ++ [⟨core, asid, Wbits va 55 4, (ps.map (·.pa)).headD 0, bs⟩] }
    | _ => s

/-- The host or a peer changes memory of its own; host memory that only the bus reaches lies from 2^52 on (R370). A guest copy of a
peer's line stays as it is, and so may be stale (R65); a line of host memory that a slice holds is not changed (R372). -/
def outsideAt (s : State) (pa : Nat) (bs : List Byte) : State :=
  let own := fun (a : Nat) => decide (2 ^ 52 ≤ a) || (match region s a with
    | .host => s.l2.all fun x => x.pl != a / 128
    | .peerMem _ => true
    | .peerAp _ _ => true
    | _ => false)
  if own pa && own (pa + bs.length - 1) && decide (pa % 128 + bs.length ≤ 128) then memWrite s pa bs else s

/-- The effect of a turn that is neither a row's nor a device step's. DESIGN CHOICE, log entry 21. -/
def envTurn (s : State) : Turn → State
  | .run _ => s
  | .dev _ => s
  | .evict i => evictAt s i
  | .cacheTrans die slice asid vpn => cacheTransAt s die slice asid vpn
  | .dropTrans i => { s with tlb := dropNth s.tlb i }
  | .prefetch core pc => prefetchAt s core pc
  | .dropPrefetch i => { s with ibuf := dropNth s.ibuf i }
  | .compress i f => compressAt s i f
  | .lagSlice slice => lagStep s slice
  | .outside pa bs => outsideAt s pa bs
  | .outWait i => outWaitAt s i
  | .peerRefuse id hole => peerRefuseAt s id hole
  | .peerRefuseNext hole => { s with peerNo := some hole }
  | .train die cxl => if s.pkg.boot.isSome && decide (die < 2) then modDie s die fun d => { d with cxl := cxl } else s
  | .idle => s

/-! ## Placing code -/

/-- Where `State.withFetchWord` places code: device memory of die 0. -/
def codePa : Nat := 0x100000

/-- `s` up, with cluster 0 bound to partition 0 in identity mode, `bs` at `codePa` past every cached copy, and privileged
row 0 of core 0 in the running position with PC there. -/
def placeCode (s : State) (bs : List Byte) : State :=
  let s1 : State := { s with agenda := [.run ⟨0, 0⟩], ibuf := [] }
  let s2 := modPkg s1 fun q => { q with boot := none }
  let s3 := modPart s2 0 fun p => { p with root := 3, stopped := false, taken := [] }
  let s4 := modCl s3 0 fun c => { c with valid := true, part := 0 }
  let s5 := modDie s4 0 fun d => { d with failed := false, dir := [], inval := [] }
  let s6 := modCore s5 0 fun c => { c with failed := false }
  let s7 := modBank s6 0 0 fun b => { b with slot0 := { st := .running, cls := (getRow s6 ⟨0, 0⟩).pri, keep := (getRow s6 ⟨0, 0⟩).pri }, slot1 := {}, ready := smErase b.ready 0, quantum := 0 }
  let s8 := modRow s7 ⟨0, 0⟩ fun w =>
    { w with pc := wNat codePa, rstep := 0, st := .ready, why := 0, priv := true, due := false, stalled := false, orphan := false, rel := none }
  gddrWrite (dropWhere s8 fun x => x.pl == codePa / 128) codePa bs

end Sys2Proof.Machine
end

