-- ==== Sys2Proof/Machine/Step.lean ====
section
/-!
DEFINITION. One step of the package: the turn that the agenda names, or the canonical one (DESIGN CHOICE, log entry 1).
-/

namespace Sys2Proof.Machine

/-- The turn taken: the agenda's head, else the canonical turn. -/
def nextTurn (s : State) : Turn := s.agenda.headD (canonical s)

/-- A row's turn: what stands before the instruction, and its execution. -/
def runRow (s : State) (r : RowId) : Host.Outcome State Fault Refusal :=
  match issue s r with
  | (none, t) => .next t
  | (some i, t) => afterExec t r (exec i t)

/-- One step. -/
def step (s : State) : Host.Outcome State Fault Refusal :=
  let t : State := { s with agenda := s.agenda.drop 1 }
  match nextTurn s with
  | .run r => runRow t r
  | .dev i => if ofRow i then .next t else exec i t
  | e => .next (envTurn t e)

/-- `s` with the instruction word `w` where the next step fetches, and row 0 of core 0 about to run it. -/
def State.withFetchWord (s : State) (nbits w : Nat) : State := placeCode s (leBytes 4 (w % 2 ^ nbits))

end Sys2Proof.Machine
end

