-- ==== Sys2Proof/Safety.lean ====
section
/-!
DEFINITION. What counts as a safe state in the terms that statements use: sparse maps in canonical form, hard-wired words,
and the ranges of R43-R51; and the shapes that an instruction's effect takes in statements: what it wrote, and that it
wrote nothing else.
-/

namespace Sys2Proof.Machine

/-- The memory keeps its canonical form: addresses strictly rising, no listed byte equal to what an unlisted one reads. -/
def Memory.wf (s : State) : Bool := smWf 0 s.mem

/-- A word number never held empty: the control block, the signature words and X0 (R50, R51). -/
def alwaysFull (w : Nat) : Bool := decide (w ≤ 32)

/-- A control block as R45, R46, R49 and R133 allow it: WHY fits STATE, WAITW is 0 but in a wait on an empty word, bit 0
of PC and NPC is 0, and the reserved bits of FLAGS read 0. -/
def RowOk (w : Row) : Prop :=
  (match w.st with
    | .stopped => w.why ∈ [0, 1, 2, 3, 8, 9]
    | .ready => w.why = 0
    | .waiting => w.why ∈ [5, 6, 7]
    | .faulted => w.why = 4) ∧
  (w.waitw = 0 ∨ (w.st = .waiting ∧ w.why = 5)) ∧
  w.pc.getLsbD 0 = false ∧ w.npc.getLsbD 0 = false ∧ w.flags.toNat < 128

/-- Every control block, resident or in a shadow array, is one that the rules allow. -/
def RowsOk (s : State) : Prop :=
  (∀ k, RowOk (smGet {} s.rows k)) ∧ ∀ c k, RowOk (smGet {} (smGet {} s.shadow c).rows k)

/-! ## The shapes of effects -/

/-- The row `s.cur` executes: it is READY, not under STEP, and no command that it has stored to its own CTL waits for this
boundary (R45, R48, R58). -/
abbrev Going (s : State) : Prop :=
  (getRow s s.cur).st = .ready ∧ (getRow s s.cur).stepping = false ∧ (getRow s s.cur).pend = []

/-- `t` is `s` but for the words `W` of row `s.cur`, which are full and sound; what they hold is said beside it. -/
structure Wrote (s t : State) (W : List Nat) : Prop where
  /-- The other words of the row hold what they held. -/
  words : ∀ w, 16 ≤ w → w ∉ W → getW t s.cur w = getW s s.cur w
  /-- The words written are full and carry no poison. -/
  full : ∀ w ∈ W, isEmpty t s.cur w = false ∧ isPoison t s.cur w = false
  /-- Every byte of memory outside the words is as before. -/
  bytes : ∀ a, (∀ w ∈ W, a / 8 ≠ rowWord s.cur w) → memByte t a = memByte s a
  /-- Every other full/empty bit is as before. -/
  empties : ∀ k, (∀ w ∈ W, k ≠ rowWord s.cur w) → (k ∈ t.empt ↔ k ∈ s.empt)
  /-- Every other poison bit is as before. -/
  poisons : ∀ k, (∀ w ∈ W, k ≠ rowWord s.cur w) → (k ∈ t.poison ↔ k ∈ s.poison)
  /-- Everything but memory, full/empty bits and poison is as before. -/
  rest : t = { s with mem := t.mem, empt := t.empt, poison := t.poison }

/-- The control block of a row whose instruction has retired with PC `next` and flags `fl` (R45, R184). -/
def retiredRow (w : Row) (fl : FFlags) (next : Word) : Row :=
  { w with pc := next &&& ~~~1#64, rstep := 0, retired := w.retired + 1, flags := w.flags ||| fl.setWidth 64,
           marked := [], fetchLen := none, work := 0, stalled := false }

/-- The instruction of row `s.cur` has retired: it wrote the words `W` of the row, added the flags `fl`, PC is `next`,
RETIRED and the core's count of retired instructions have risen by one, and nothing else has changed: no control word
but these, no other row, word, byte, full/empty bit, core, cluster, die, partition, request or queue. -/
structure Done (s t : State) (W : List Nat) (fl : FFlags) (next : Word) : Prop where
  row : getRow t s.cur = retiredRow (getRow s s.cur) fl next
  rows : ∀ q, rkey q ≠ rkey s.cur → getRow t q = getRow s q
  words : ∀ w, 16 ≤ w → w ∉ W → getW t s.cur w = getW s s.cur w
  full : ∀ w ∈ W, isEmpty t s.cur w = false ∧ isPoison t s.cur w = false
  bytes : ∀ a, (∀ w ∈ W, a / 8 ≠ rowWord s.cur w) → memByte t a = memByte s a
  empties : ∀ k, (∀ w ∈ W, k ≠ rowWord s.cur w) → (k ∈ t.empt ↔ k ∈ s.empt)
  poisons : ∀ k, (∀ w ∈ W, k ≠ rowWord s.cur w) → (k ∈ t.poison ↔ k ∈ s.poison)
  cores : ∀ c, getCore t c = { getCore s c with stats := (getCore t c).stats }
  stats : ∀ c k, smGet 0 (getCore t c).stats k =
    smGet 0 (getCore s c).stats k + (if c = s.cur.core ∧ k = 1 then 1 else 0)
  rest : t = { s with mem := t.mem, empt := t.empt, poison := t.poison, rows := t.rows, cores := t.cores }

/-- What a register holds after `v` is written to it: X0 reads zero (R50). -/
def xval (d : Reg) (v : Word) : Word := if d = 0 then 0 else v

/-- The flags of the active lanes among those listed, together (R216). -/
def laneFlags (act : Nat → Bool) (f : Nat → FRes) : List Nat → FFlags
  | [] => 0
  | j :: js => if act j then (f j).2 ||| laneFlags act f js else laneFlags act f js

end Sys2Proof.Machine
end

