-- ==== Sys2Proof/Certificates/Slice0/Obligations.lean ====
section
/-!
DEFINITION. The statements for the provers. Each says what a family of instructions or steps does, with what it leaves
alone; the shapes they share come first.
-/

namespace Sys2Proof.Claims

open Sys2Proof.Machine

/-! ## Shapes -/

/-- Row `s.cur` runs, and the sources `xs` of its instruction are full and sound (R52, R153, R348). -/
abbrev Can (s : State) (xs : List Src) : Prop := Going s ∧ ready s s.cur xs = true

/-- PC of the instruction after one of `n` bytes. -/
def after (s : State) (n : Nat) : Word := (getRow s s.cur).pc + wNat n

/-- `i` completes: it answers a next state in which X[d] holds `v` (X0: zero), the flags `fl` are added, PC is `next`, and
nothing else has changed. -/
def WritesX (s : State) (i : Instr) (d : Reg) (v : Word) (fl : FFlags) (next : Word) : Prop :=
  ∃ t, exec i s = .next t ∧ Done s t [xw d] fl next ∧ getX t s.cur d = xval d v

/-- `i` completes and leaves every word of the row as it was; PC is `next`. -/
def OnlyMoves (s : State) (i : Instr) (next : Word) : Prop := ∃ t, exec i s = .next t ∧ Done s t [] 0 next

/-! ## ALU (R195-R197) -/

/-- An operation on n-bit operands at a size: n is 32 or 64, and a 32-bit result is sign-extended (R194). -/
def sized (sz : Bool) (f : (n : Nat) → BitVec n → BitVec n → BitVec n) (x y : Word) : Word :=
  if sz then f 64 x y else (f 32 (x.setWidth 32) (y.setWidth 32)).signExtend 64

/-- A two-source ALU instruction with operation `f`. -/
def Alu2 (c : Bool → Bool → Bool → Reg → Reg → Reg → Instr) (f : (n : Nat) → BitVec n → BitVec n → BitVec n) : Prop :=
  ∀ (s : State) (sz tb ta : Bool) (b a d : Reg), Can s [srcX a ta, srcX b tb] →
    WritesX s (c sz tb ta b a d) d (sized sz f (getX s s.cur a) (getX s s.cur b)) 0 (after s 4)

/-- A one-source ALU instruction with operation `f`; TB is ignored. -/
def Alu1 (c : Bool → Bool → Bool → Reg → Reg → Instr) (f : (n : Nat) → BitVec n → BitVec n) : Prop :=
  ∀ (s : State) (sz tb ta : Bool) (a d : Reg), Can s [srcX a ta] →
    WritesX s (c sz tb ta a d) d (sized sz (fun n x _ => f n x) (getX s s.cur a) 0) 0 (after s 4)

/-- 1 when a comparison holds, else 0. -/
def flag {n : Nat} (c : Bool) : BitVec n := if c then 1 else 0

/-- The number of leading bits of `x` that are 0. -/
def leading {n : Nat} (x : BitVec n) : Nat := ((List.range n).takeWhile fun k => !x.getLsbD (n - 1 - k)).length

/-- The number of trailing bits of `x` that are 0. -/
def trailing {n : Nat} (x : BitVec n) : Nat := ((List.range n).takeWhile fun k => !x.getLsbD k).length

/-- The number of bits of `x` that are 1. -/
def ones {n : Nat} (x : BitVec n) : Nat := (List.range n).countP fun k => x.getLsbD k

/-- Bit `j` of the field of `x` that `y` describes, for n-bit `x` (R196). -/
def fieldBit {n : Nat} (x : BitVec n) (y : Word) (j : Nat) : Bool :=
  decide (j ≤ Wbits y 13 8) && x.getLsbD (Wbits y 5 0 + j)

/-! ## Immediates, constants and branches (R198-R204) -/

/-- An instruction with a 15-bit immediate. -/
def Imm15 (c : BitVec 15 → Bool → Reg → Reg → Instr) (f : Word → Word → Word) : Prop :=
  ∀ (s : State) (imm : BitVec 15) (ta : Bool) (a d : Reg), Can s [srcX a ta] →
    WritesX s (c imm ta a d) d (f (getX s s.cur a) (imm.signExtend 64)) 0 (after s 4)

/-- A shift by an immediate amount. -/
def Shift6 (c : Bool → BitVec 6 → Bool → Reg → Reg → Instr) (f : (n : Nat) → BitVec n → Nat → BitVec n) : Prop :=
  ∀ (s : State) (sz : Bool) (amt : BitVec 6) (ta : Bool) (a d : Reg), Can s [srcX a ta] →
    WritesX s (c sz amt ta a d) d (sized sz (fun n x _ => f n x (amt.toNat % n)) (getX s s.cur a) 0) 0 (after s 4)

/-- A comparison with a 12-bit immediate. -/
def Cmp12 (c : BitVec 12 → Bool → Reg → Reg → Instr) (f : Word → Word → Bool) : Prop :=
  ∀ (s : State) (imm : BitVec 12) (ta : Bool) (a d : Reg), Can s [srcX a ta] →
    WritesX s (c imm ta a d) d (flag (f (getX s s.cur a) (imm.signExtend 64))) 0 (after s 4)

/-- `i` completes: E[e] holds `v`, PC is `next`, and nothing else has changed. -/
def WritesE (s : State) (i : Instr) (e : Nat) (v : Word) (next : Word) : Prop :=
  ∃ t, exec i s = .next t ∧ Done s t [ew e] 0 next ∧ getE t s.cur e = v

/-- A conditional branch on `f` (R203). -/
def Branch (c : BitVec 12 → Bool → Reg → Reg → Instr) (f : Word → Word → Bool) : Prop :=
  ∀ (s : State) (imm : BitVec 12) (ta : Bool) (b a : Reg), Can s [srcX a ta, srcX b ta] →
    OnlyMoves s (c imm ta b a)
      (if f (getX s s.cur a) (getX s s.cur b) then (getRow s s.cur).pc + imm.signExtend 64 * 2#64 else after s 4)

/-! ## Floating point, scalar (R205-R208) -/

/-- FLAGS as a source, of an instruction that rounds in the row's mode: `md` says whether it does (R45, R348). -/
def modeSrc (md : Bool) : List Src := if md then [⟨[3], false⟩] else []

/-- A two-source FPU instruction: `f` on the operands in the format, rounded in the row's mode where `md` holds; X[D] gets the
result zero-extended, FLAGS its flags. -/
def Fpu2 (c : Bool → Bool → Bool → Reg → Reg → Reg → Instr) (md : Bool) (f : Fmt → RMode → Nat → Nat → FRes) : Prop :=
  ∀ (s : State) (fmt tb ta : Bool) (b a d : Reg), Can s ([srcX a ta, srcX b tb] ++ modeSrc md) →
    let y := f (fpuFmt fmt) (rmOf s s.cur) (fpuOp fmt (getX s s.cur a)) (fpuOp fmt (getX s s.cur b))
    WritesX s (c fmt tb ta b a d) d (wNat y.1) y.2 (after s 4)

/-- A one-source FPU instruction; TB is ignored. -/
def Fpu1 (c : Bool → Bool → Bool → Reg → Reg → Instr) (md : Bool) (f : Fmt → RMode → Nat → FRes) : Prop :=
  ∀ (s : State) (fmt tb ta : Bool) (a d : Reg), Can s ([srcX a ta] ++ modeSrc md) →
    let y := f (fpuFmt fmt) (rmOf s s.cur) (fpuOp fmt (getX s s.cur a))
    WritesX s (c fmt tb ta a d) d (wNat y.1) y.2 (after s 4)

/-- A value with its sign bit replaced: bits below the top are those of `x`. -/
def signed (f : Fmt) (x : Nat) (sg : Bool) : Nat := x % 2 ^ (f.w - 1) + (if sg then 2 ^ (f.w - 1) else 0)

/-! ## Vectors (R216-R227) -/

/-- Lane `j` of V[v] of row `r`. -/
def laneAt (s : State) (r : RowId) (ty v j : Nat) : Nat := laneGet (laneBytes ty) (getV s r v) j

/-- Lane `j` of V[v] of the row that executes. -/
def lane (s : State) (ty v j : Nat) : Nat := laneAt s s.cur ty v j

/-- Is lane `j` active under MK (R216)? -/
def active (s : State) (mk : Nat) (j : Nat) : Bool := mk == 0 || (getM s s.cur mk).getLsbD j

/-- `i` completes: the active lanes of V[d] hold the values of `f` and the others keep theirs, the flags of the active
lanes are added, PC is `next`, and nothing else has changed. -/
def WritesV (s : State) (i : Instr) (ty mk d : Nat) (f : Nat → FRes) (next : Word) : Prop :=
  ∃ t, exec i s = .next t ∧
    Done s t (List.range' (vw d) 16) (laneFlags (active s mk) f (List.range (laneCount ty))) next ∧
    ∀ j < laneCount ty, laneAt t s.cur ty d j = if active s mk j then (f j).1 % 256 ^ laneBytes ty else lane s ty d j

/-- `i` completes: bit `k` of M[m] is `bit k`, the flags `fl` are added, and nothing else has changed. -/
def WritesM (s : State) (i : Instr) (m : Nat) (bit : Nat → Bool) (fl : FFlags) (next : Word) : Prop :=
  ∃ t, exec i s = .next t ∧ Done s t [mw m] fl next ∧ ∀ k < 64, (getM t s.cur m).getLsbD k = bit k

/-- The sources of a masked vector instruction: D when it is masked, the vectors, the mask (R216). -/
def maskedSrcs (d mk : Nat) (t : Bool) (xs : List Src) : List Src :=
  (if mk = 0 then [] else [srcV d t]) ++ xs ++ (if mk = 0 then [] else [srcM mk t])

/-- An integer lane operation of two vectors. -/
def Valu2 (c : BitVec 3 → Bool → BitVec 3 → Reg → Reg → Reg → Instr) (f : (n : Nat) → BitVec n → BitVec n → BitVec n) : Prop :=
  ∀ (s : State) (ty : BitVec 3) (t : Bool) (mk : BitVec 3) (b a d : Reg),
    Can s (maskedSrcs d.toNat mk.toNat t [srcV a.toNat t, srcV b.toNat t]) →
    WritesV s (c ty t mk b a d) ty.toNat mk.toNat d.toNat
      (fun j => ((f (8 * laneBytes ty.toNat) (BitVec.ofNat _ (lane s ty.toNat a.toNat j))
        (BitVec.ofNat _ (lane s ty.toNat b.toNat j))).toNat, 0)) (after s 4)

/-- A float lane operation of two vectors. -/
def Vfp2 (c : BitVec 3 → Bool → BitVec 3 → Reg → Reg → Reg → Instr) (md : Bool) (f : Fmt → RMode → Nat → Nat → FRes) : Prop :=
  ∀ (s : State) (ty : BitVec 3) (t : Bool) (mk : BitVec 3) (b a d : Reg),
    Can s (maskedSrcs d.toNat mk.toNat t [srcV a.toNat t, srcV b.toNat t] ++ modeSrc md) →
    WritesV s (c ty t mk b a d) ty.toNat mk.toNat d.toNat
      (fun j => f (fmtOf ty.toNat) (rmOf s s.cur) (lane s ty.toNat a.toNat j) (lane s ty.toNat b.toNat j)) (after s 4)

/-- A float lane operation of one vector. -/
def Vfp1 (c : BitVec 3 → Bool → BitVec 3 → Reg → Reg → Instr) (md : Bool) (f : Fmt → RMode → Nat → FRes) : Prop :=
  ∀ (s : State) (ty : BitVec 3) (t : Bool) (mk : BitVec 3) (a d : Reg),
    Can s (maskedSrcs d.toNat mk.toNat t [srcV a.toNat t] ++ modeSrc md) →
    WritesV s (c ty t mk a d) ty.toNat mk.toNat d.toNat
      (fun j => f (fmtOf ty.toNat) (rmOf s s.cur) (lane s ty.toNat a.toNat j)) (after s 4)

/-- A fused multiply-add over lanes; `np` negates the product, `nc` the addend; its TY code counts from f32. -/
def Vfma (c : BitVec 2 → BitVec 2 → Reg → Reg → Reg → Reg → Instr) (np nc : Bool) : Prop :=
  ∀ (s : State) (ty mk : BitVec 2) (x b a d : Reg),
    Can s (maskedSrcs d.toNat mk.toNat false [srcV a.toNat false, srcV b.toNat false, srcV x.toNat false] ++ modeSrc true) →
    WritesV s (c ty mk x b a d) (ty.toNat + 3) mk.toNat d.toNat
      (fun j => ffma (fmtOf (ty.toNat + 3)) (rmOf s s.cur) np nc (lane s (ty.toNat + 3) a.toNat j)
        (lane s (ty.toNat + 3) b.toNat j) (lane s (ty.toNat + 3) x.toNat j)) (after s 4)

/-- An operation on two masks. -/
def Mask2 (c : Bool → Bool → Reg → Reg → Reg → Instr) (f : Bool → Bool → Bool) : Prop :=
  ∀ (s : State) (tb ta : Bool) (b a d : Reg), Can s [srcM a.toNat ta, srcM b.toNat tb] →
    WritesM s (c tb ta b a d) d.toNat
      (fun k => f ((getM s s.cur a.toNat).getLsbD k) ((getM s s.cur b.toNat).getLsbD k)) 0 (after s 4)

/-- A lane operation of one vector, integer or float. -/
def Vxf1 (c : BitVec 3 → Bool → BitVec 3 → Reg → Reg → Instr) (f : (ty n x : Nat) → Nat) : Prop :=
  ∀ (s : State) (ty : BitVec 3) (t : Bool) (mk : BitVec 3) (a d : Reg),
    Can s (maskedSrcs d.toNat mk.toNat t [srcV a.toNat t]) →
    WritesV s (c ty t mk a d) ty.toNat mk.toNat d.toNat
      (fun j => (f ty.toNat (8 * laneBytes ty.toNat) (lane s ty.toNat a.toNat j), 0)) (after s 4)

/-- The value of an n-bit pattern as a signed integer. -/
def sval (n x : Nat) : Int := (BitVec.ofNat n x).toInt

/-- The n-bit pattern of an integer. -/
def pat (n : Nat) (i : Int) : Nat := (BitVec.ofInt n i).toNat

/-- Level by level, the value at node `j` of the reduction tree of R227 over `h` nodes of lanes: the active lanes below it
combined, an absent one giving the other. -/
def treeAt (f : Nat → Nat → FRes) (x : Nat → Option Nat) : (levels h j : Nat) → Option Nat × FFlags
  | 0, _, j => (x j, 0)
  | k + 1, h, j =>
    let p := treeAt f x k (2 * h) j
    let q := treeAt f x k (2 * h) (j + h)
    match p.1, q.1 with
    | some u, some v => (some (f u v).1, p.2 ||| q.2 ||| (f u v).2)
    | some u, none => (some u, p.2 ||| q.2)
    | none, v => (v, p.2 ||| q.2)

/-- A reduction of the active lanes into X[D] (R227): the tree over all lanes, halving at each level; `ident` when no
lane is active. Integers are sign-extended, floats zero-extended. -/
def Reduce (c : BitVec 3 → Bool → BitVec 3 → Reg → Reg → Instr) (md : BitVec 3 → Bool) (f : State → BitVec 3 → Nat → Nat → FRes)
    (ident : BitVec 3 → Nat) : Prop :=
  ∀ (s : State) (ty : BitVec 3) (t : Bool) (mk : BitVec 3) (a d : Reg),
    Can s ([srcV a.toNat t] ++ (if mk = 0 then [] else [srcM mk.toNat t]) ++ modeSrc (md ty)) →
    let y := treeAt (f s ty) (fun j => if active s mk.toNat j then some (lane s ty.toNat a.toNat j) else none)
      (Nat.log2 (laneCount ty.toNat)) 1 0
    WritesX s (c ty t mk a d) d (laneWord ty (y.1.getD (ident ty))) y.2 (after s 4)

/-! ## Exceptions, waits and stops (R52, R133, R338-R343) -/

/-- The row has left the READY rows of its bank, and its slot, when it held the running position, is closing (R133, R332). -/
structure Closed (s t : State) : Prop where
  ready : smGet none (getBank t s.cur.core (s.cur.row % 4)).ready s.cur.row = none
  closing : ∀ k < 2, slotOf s s.cur = some k → ((getBank s s.cur.core (s.cur.row % 4)).slot k).st = .running →
    ((getBank t s.cur.core (s.cur.row % 4)).slot k).st = .closing

/-- The row has stopped running with control block `w`; memory, the other rows and everything else but its core's slots
and counters are as before. -/
structure Parked (s t : State) (w : Row) : Prop where
  row : getRow t s.cur = w
  rows : ∀ q, rkey q ≠ rkey s.cur → getRow t q = getRow s q
  closed : Closed s t
  cores : ∀ c, getCore t c = { getCore s c with banks := (getCore t c).banks, stats := (getCore t c).stats }
  rest : t = { s with rows := t.rows, cores := t.cores }

/-- The control block of a row that has taken fault `x` with RSTEP `k` (R133, R338): FAULTED with WHY 4, PC kept, FVA,
FCAUSE and RSTEP written. -/
def faultedRow (w : Row) (x : Trap) (k : Nat) : Row :=
  { w with st := .faulted, why := 4, waitw := 0, fva := x.fva, rstep := k, stepping := false, await := none,
           stalled := false, due := w.due && x.cause != 8,
           fcause := wNat (2 ^ 16 * x.code + 2 ^ 11 * x.sub + (if x.flue then 2 ^ 10 else 0) + 2 ^ 8 * x.acc + x.cause) }

/-- Does a fault of the row go to the supervisor (R339): MEMERR, HOMELOST and LOGFULL, and any fault of a privileged row
or of its core's upcall row while the core serves an upcall? -/
def supervised (s : State) (x : Trap) : Bool :=
  decide (12 ≤ x.cause) || (getRow s s.cur).priv ||
  ((getCore s s.cur.core).serving && (match partOf s s.cur.core with
    | some p => Wbits (getPart s p).upcall 7 0 == s.cur.row
    | none => false))

/-- The packet that carries a fault record to the queue named in SY.SUPQ (R340): a header, then the record. -/
def recordPacket (s : State) (w : Row) : Packet :=
  let q := s.pkg.supq
  let n := (getCore s s.cur.core).recSeq
  ⟨[wNat (2 ^ 32 * n + 2 ^ 16 * Wbits q 14 6 + 2 ^ 8 * Wbits q 5 0 + 2), 0,
    w.fcause, w.fva, rowVa s s.cur, w.pc, wNat w.rstep, w.task, wNat n, 0, 0, 0], 0, some (Wbits q 14 6), none, 0, true, false, none⟩

/-- The row has taken exception `x` with RSTEP `k`: its control block, its place in the bank, and the delivery: to the
supervisor queue as a numbered record when SY.SUPQ is enabled, else once into the core's fault queue; a page fault that is
not present also goes up the Flue, and an uncorrected error of device memory goes only there (R338-R343, R347). Nothing
else has changed. -/
structure Raised (s t : State) (x : Trap) (k : Nat) : Prop where
  row : getRow t s.cur = faultedRow (getRow s s.cur) x k
  rows : ∀ q, rkey q ≠ rkey s.cur → getRow t q = getRow s q
  closed : Closed s t
  held : t.held = s.held ++ (if (x.cause = 12 ∧ x.sub = 1) ∨ supervised s x = false ∨ s.pkg.supq.getLsbD 15 = false then []
    else [⟨dieOf s.cur.core, recordPacket s (faultedRow (getRow s s.cur) x k)⟩])
  queue : (getCore t s.cur.core).faultq =
    if (x.cause = 12 ∧ x.sub = 1) ∨ supervised s x ∨ s.cur.row ∈ (getCore s s.cur.core).faultq then
      (getCore s s.cur.core).faultq
    else (getCore s s.cur.core).faultq ++ [s.cur.row]
  flue : t.flueReqs = s.flueReqs ++ (if x.flue then
    [{ die := dieOf s.cur.core, router := s.cur.core % 160, port := s.cur.core, core := s.cur.core,
       asid := asidOf s s.cur.core, page := Wbits x.fva 55 12, write := x.acc == 1 || x.acc == 3,
       memerr := x.cause == 12 }] else [])
  cores : ∀ c, getCore t c = { getCore s c with
    banks := (getCore t c).banks, faultq := (getCore t c).faultq, recSeq := (getCore t c).recSeq }
  rest : t = { s with rows := t.rows, cores := t.cores, held := t.held, flueReqs := t.flueReqs }

/-- `i` completes by taking exception `x` with RSTEP `k`. -/
def Raises (s : State) (i : Instr) (x : Trap) (k : Nat) : Prop := ∃ t, exec i s = .next t ∧ Raised s t x k

/-- `i` completes as the failed check `x` says: by taking its exception with RSTEP `k`; or, where a walk waits for the host to
give up the line of a table entry, with the row still on its instruction, and nothing but that back-invalidation begun (R371). -/
def Fails (s : State) (i : Instr) (x : Trap) (k : Nat) : Prop :=
  (x.waits = false → Raises s i x k) ∧ (x.waits = true → exec i s = .next (dirStart s x.fva.toNat).2)

/-- `i` leaves the row WAITING with WHY 5 on word `w`, on the same instruction (R52). -/
def Blocks (s : State) (i : Instr) (w : Nat) : Prop :=
  ∃ t, exec i s = .next t ∧ Parked s t { getRow s s.cur with st := .waiting, why := 5, waitw := w }

/-- The sources, in field order, of the register instructions: those that touch no memory, queue or special register
(R153, R193, R216). None for the others. -/
def plainSrcs : Instr → Option (List Src)
  | .aluAdd _ tb ta b a _ | .aluSub _ tb ta b a _ | .aluMul _ tb ta b a _ | .aluMulh _ tb ta b a _
  | .aluMulhu _ tb ta b a _ | .aluDiv _ tb ta b a _ | .aluDivu _ tb ta b a _ | .aluRem _ tb ta b a _
  | .aluRemu _ tb ta b a _ | .aluAnd _ tb ta b a _ | .aluOr _ tb ta b a _ | .aluXor _ tb ta b a _
  | .aluAndn _ tb ta b a _ | .aluShl _ tb ta b a _ | .aluShr _ tb ta b a _ | .aluSra _ tb ta b a _
  | .aluMin _ tb ta b a _ | .aluMax _ tb ta b a _ | .aluMinu _ tb ta b a _ | .aluMaxu _ tb ta b a _
  | .aluRot _ tb ta b a _ | .aluEq _ tb ta b a _ | .aluNe _ tb ta b a _ | .aluLt _ tb ta b a _
  | .aluLtu _ tb ta b a _ | .aluLe _ tb ta b a _ | .aluLeu _ tb ta b a _ | .aluExt _ tb ta b a _
  | .fpuMin _ tb ta b a _ | .fpuMax _ tb ta b a _ | .fpuEq _ tb ta b a _ | .fpuLt _ tb ta b a _
  | .fpuLe _ tb ta b a _ | .fpuSgnj _ tb ta b a _ => some [srcX a ta, srcX b tb]
  | .fpuAdd _ tb ta b a _ | .fpuSub _ tb ta b a _ | .fpuMul _ tb ta b a _ | .fpuDiv _ tb ta b a _ =>
    some ([srcX a ta, srcX b tb] ++ modeSrc true)
  | .aluSel _ tb ta b a d => some [srcX d ta, srcX a ta, srcX b tb]
  | .fpuFma _ tb ta b a d => some ([srcX d ta, srcX a ta, srcX b tb] ++ modeSrc true)
  | .fpuSqrt _ _ ta a _ | .fpuRnd _ _ ta a _ => some ([srcX a ta] ++ modeSrc true)
  | .fpuCvt k fmt _ ta a _ => some ([srcX a ta] ++ modeSrc (k.toNat != 0 || !fmt))
  | .aluClz _ _ ta a _ | .aluCtz _ _ ta a _ | .aluPopc _ _ ta a _ | .alui _ ta a _ | .andi _ ta a _ | .ori _ ta a _
  | .xori _ ta a _ | .shiShl _ _ ta a _ | .shiShr _ _ ta a _ | .shiSra _ _ ta a _ | .shiRot _ _ ta a _
  | .cmpiEq _ ta a _ | .cmpiNe _ ta a _ | .cmpiLt _ ta a _ | .cmpiLtu _ ta a _ | .cmpiLe _ ta a _ | .cmpiLeu _ ta a _
  | .cmpiGt _ ta a _ | .cmpiGtu _ ta a _ | .jmp _ ta a _ | .jmpRet _ ta a _
  | .fpuCls _ _ ta a _ | .fpuAbs _ _ ta a _ | .maskFromx _ ta a _ | .maskLanes _ ta a _ =>
    some [srcX a ta]
  | .ldi _ _ | .extC0 _ _ | .extC1 _ _ | .extC2 _ _ | .br _ _ | .maskAll _ _ _ | .sysNop | .hNop | .hLdi5 _ _ => some []
  | .ldx _ d | .hAddi5 _ d | .hShli _ d | .hShri _ d | .hBeqz _ d | .hBnez _ d => some [srcX d false]
  | .extX x _ => some [srcX x false]
  | .bcEq _ ta b a | .bcNe _ ta b a | .bcLt _ ta b a | .bcLtu _ ta b a | .bcGe _ ta b a | .bcGeu _ ta b a =>
    some [srcX a ta, srcX b ta]
  | .valuAdd _ t mk b a d | .valuSub _ t mk b a d | .valuMul _ t mk b a d | .valuMulh _ t mk b a d
  | .valuAnd _ t mk b a d | .valuOr _ t mk b a d | .valuXor _ t mk b a d | .valuShl _ t mk b a d
  | .valuShr _ t mk b a d | .valuSra _ t mk b a d | .valuMin _ t mk b a d | .valuMax _ t mk b a d
  | .valuMinu _ t mk b a d | .valuMaxu _ t mk b a d | .vfpMin _ t mk b a d | .vfpMax _ t mk b a d
  | .vxfPerm _ t mk b a d | .vxfSgnj _ t mk b a d =>
    some (maskedSrcs d.toNat mk.toNat t [srcV a.toNat t, srcV b.toNat t])
  | .vfpAdd _ t mk b a d | .vfpSub _ t mk b a d | .vfpMul _ t mk b a d | .vfpDiv _ t mk b a d | .vfpScale _ t mk b a d =>
    some (maskedSrcs d.toNat mk.toNat t [srcV a.toNat t, srcV b.toNat t] ++ modeSrc true)
  | .valuCmp _ t mk b a _ _ | .vfpCmp _ t mk b a _ _ | .valuSel _ t mk b a _ =>
    some ([srcV a.toNat t, srcV b.toNat t] ++ (if mk = 0 then [] else [srcM mk.toNat t]))
  | .vfpRnd _ t mk a d | .vfpRcp _ t mk a d | .vfpRsq _ t mk a d | .vfpSqrt _ t mk a d =>
    some (maskedSrcs d.toNat mk.toNat t [srcV a.toNat t] ++ modeSrc true)
  | .vfpCvt ty t mk sty a d =>
    let exact := 3 ≤ ty.toNat ∧ 3 ≤ sty.toNat ∧ (ty = sty ∨ laneBytes sty.toNat < laneBytes ty.toNat)
    some (maskedSrcs d.toNat mk.toNat t [srcV a.toNat t] ++ modeSrc (!decide exact))
  | .vfpExp2f _ t mk a d | .vfpGetexp _ t mk a d | .vfpCls _ t mk a d | .vxfAbs _ t mk a d | .vxfNeg _ t mk a d =>
    some (maskedSrcs d.toNat mk.toNat t [srcV a.toNat t])
  | .vfmaFma _ mk c b a d | .vfmaFms _ mk c b a d | .vfmaFnma _ mk c b a d | .vfmaFnms _ mk c b a d =>
    some (maskedSrcs d.toNat mk.toNat false [srcV a.toNat false, srcV b.toNat false, srcV c.toNat false] ++ modeSrc true)
  | .maskAnd tb ta b a _ | .maskOr tb ta b a _ | .maskXor tb ta b a _ | .maskAndn tb ta b a _ =>
    some [srcM a.toNat ta, srcM b.toNat tb]
  | .maskNot _ ta a _ | .maskPop _ ta a _ | .maskFirst _ ta a _ | .maskTox _ ta a _ => some [srcM a.toNat ta]
  | .vxfBcast _ t mk a d => some (maskedSrcs d.toNat mk.toNat t [srcX a t])
  | .vxfExt _ t b a _ => some [srcV a.toNat t, srcX b t]
  | .vxfIns _ t b a d => some [srcV d.toNat t, srcX a t, srcX b t]
  | .vxfShfdn _ t mk b a d => some (maskedSrcs d.toNat mk.toNat t [srcV a.toNat t, srcX b t])
  | .vxfIota _ t mk d => some (maskedSrcs d.toNat mk.toNat t [])
  | .vxfRedAdd ty t mk a _ => some ([srcV a.toNat t] ++ (if mk = 0 then [] else [srcM mk.toNat t]) ++ modeSrc (isFloat ty))
  | .vxfRedMin _ t mk a _ | .vxfRedMax _ t mk a _ =>
    some ([srcV a.toNat t] ++ (if mk = 0 then [] else [srcM mk.toNat t]))
  | .hMov a _ => some [srcX a false]
  | .hAdd a d | .hSub a d | .hAnd a d | .hOr a d | .hXor a d | .hLt a d => some [srcX d false, srcX a false]
  | .hVfaddF32 _ a _ d | .hVfmulF32 _ a _ d => some ([srcV d.toNat false, srcV a.toNat false] ++ modeSrc true)
  | .hRet => some [srcX 1 false]
  | _ => none

/-- A 16-bit operation on D and A. -/
def Half2 (c : Reg → Reg → Instr) (f : Word → Word → Word) : Prop :=
  ∀ (s : State) (a d : Reg), Can s [srcX d false, srcX a false] →
    WritesX s (c a d) d (f (getX s s.cur d) (getX s s.cur a)) 0 (after s 2)

/-- A 16-bit operation on D and a 5-bit immediate. -/
def Half1 (c : BitVec 5 → Reg → Instr) (f : Word → BitVec 5 → Word) : Prop :=
  ∀ (s : State) (imm : BitVec 5) (d : Reg), Can s [srcX d false] →
    WritesX s (c imm d) d (f (getX s s.cur d) imm) 0 (after s 2)

/-- System register `n` holds what a privileged writer writes, in the bits of `mask` (R212, R26, R139, R340-R355, R363-R371). -/
abbrev RegisterMask (n mask : Nat) : Prop :=
  0x140 ≤ n ∧ n < 0x180 ∧ mask = 0xFFFFFFFFFFFFC003 ∨ 0x180 ≤ n ∧ n < 0x1C0 ∧ mask = 0xFFFFFFFFFF000000 ∨
  n = 0x200 ∧ mask = 0xFF ∨ (n = 0x201 ∨ n = 0x202) ∧ mask = 0xFFF0000000000003 ∨
  (n = 0x204 ∨ n = 0x206) ∧ mask = 0xFFFFF ∨ (n = 0x205 ∨ n = 0x207) ∧ mask = 0xFFFFFFFFFFFFF000 ∨
  0x210 ≤ n ∧ n < 0x220 ∧ mask = 0xFFF0000000000003 ∨ n = 0x220 ∧ mask = 0xFF ∨ n = 0x221 ∧ mask = 0x1FFFF ∨
  0x500 ≤ n ∧ n < 0x580 ∧ mask = 2 ^ 64 - 1 ∨ 0x580 ≤ n ∧ n < 0x5C0 ∧ mask = 0x000FFFFFFFFFC000 ∨
  (n = 0x5C0 ∨ n = 0x5C1) ∧ mask = 0xFFFF
/-! ## Memory instructions (R233-R250) -/

/-- Row `s.cur` may issue a memory or engine instruction: no earlier access of its holds it (R234), and its sources `xs`
are full and sound. -/
abbrev Issues (s : State) (xs : List Src) : Prop := Can s xs ∧ holdWord s s.cur = none

/-- Effective address of a load or store of `n` bytes: the offset counts accesses (R235). -/
def ea (s : State) (a : Reg) (off : BitVec 10) (n : Nat) : Word := getX s s.cur a + off.signExtend 64 * wNat n

/-- The row's signature holds the lines of the parts `ps` that lie outside core apertures, a peer's included, beside what it held, and no other
byte of memory has changed (R116, R117). -/
structure Signed (s t : State) (ps : List Part) : Prop where
  bytes : ∀ a, (a < rowPa s.cur 0x80 ∨ rowPa s.cur 0x100 ≤ a) → memByte t a = memByte s a
  bits : ∀ i < 1024, (memByte t (rowPa s.cur (0x80 + i / 8))).getLsbD (i % 8) =
    ((memByte s (rowPa s.cur (0x80 + i / 8))).getLsbD (i % 8) ||
      ps.any fun p => !inAperture s p && decide (i ∈ sigIndices (lineL p)))

/-- Messages that the row's core counts for parts in other cores' apertures (R351). -/
def messages (s : State) (ps : List Part) : Word :=
  wNat (ps.countP fun p => match partCore s p with
    | some c => c != s.cur.core
    | none => false)

/-- Requests to slices that it counts for a request: one a part, but none for a packet or an arrival message (R21, R81). -/
def requests (q : Req) : Word :=
  match q.kind with
  | .send _ _ | .arrive _ _ => 0
  | _ => wNat q.todo.length

/-- The instruction of row `s.cur` has issued request `q`, its words empty, and control block `w` stands; `sig` are the
parts that enter the signature, `msg` the messages that the core counts as sent. Nothing else has changed. -/
structure Issued (s t : State) (q : Req) (sig : List Part) (msg : Word) (w : Row) : Prop where
  reqs : t.reqs = s.reqs ++ [q]
  nextId : t.nextId = s.nextId + 1
  row : getRow t s.cur = w
  rows : ∀ r, rkey r ≠ rkey s.cur → getRow t r = getRow s r
  empties : ∀ k, k ∈ t.empt ↔ k ∈ s.empt ∨ ∃ x ∈ q.words, k = rowWord s.cur x
  signed : Signed s t sig
  others : ∀ c, c ≠ s.cur.core → getCore t c = getCore s c
  core : getCore t s.cur.core = { getCore s s.cur.core with
    stats := (getCore t s.cur.core).stats, sent := (getCore s s.cur.core).sent + msg }
  stats : ∀ k, smGet 0 (getCore t s.cur.core).stats k = smGet 0 (getCore s s.cur.core).stats k +
    (if k = 1 then w.retired - (getRow s s.cur).retired else if k = 4 then requests q else 0)
  rest : t = { s with mem := t.mem, empt := t.empt, rows := t.rows, cores := t.cores, reqs := t.reqs, nextId := t.nextId }

/-- The request that row `s.cur` makes next. -/
def newReq (s : State) (kind : ReqKind) (todo : List Part) (put : Put) (words : List Nat) : Req :=
  ⟨s.nextId, s.cur, (getRow s s.cur).priv, partIx s s.cur.core, kind, todo, [], put, words, 0, false, false⟩

/-- The entries that a store puts into the FIFO, one for each part with its bytes, each after the row's loads and
non-posted atomics that are outstanding (R70, R91). -/
def entries (s : State) (kind : StKind) (nt : Bool) : (k : Nat) → List (Part × List Byte) → List StEnt
  | _, [] => []
  | k, (p, bs) :: xs =>
    ⟨s.nextId + k, s.cur, partIx s s.cur.core, (getRow s s.cur).priv, p, kind, nt, bs,
      ((reqsOf s s.cur (partIx s s.cur.core) (s.nextId + k)).filter fun q => q.ordersStores && q.pending).map (·.id)⟩ ::
      entries s kind nt (k + 1) xs

/-- The parts of an access with the bytes that a store of `bs` puts there. -/
def sliced (bs : List Byte) (ps : List Part) : List (Part × List Byte) := ps.map fun p => (p, (bs.drop p.pos).take p.n)

/-- The instruction of row `s.cur` has put the entries `es`, for the parts `ps`, into its core's store FIFO, `sig` has
entered its signature, and control block `w` stands. No other byte of memory, and nothing else, has changed: the stores
are performed later. -/
structure Queued (s t : State) (es : List StEnt) (ps sig : List Part) (w : Row) : Prop where
  fifo : (getCore t s.cur.core).fifo = (getCore s s.cur.core).fifo ++ es
  nextId : t.nextId = s.nextId + es.length
  row : getRow t s.cur = w
  rows : ∀ r, rkey r ≠ rkey s.cur → getRow t r = getRow s r
  signed : Signed s t sig
  others : ∀ c, c ≠ s.cur.core → getCore t c = getCore s c
  core : getCore t s.cur.core = { getCore s s.cur.core with
    fifo := (getCore t s.cur.core).fifo, stats := (getCore t s.cur.core).stats,
    sent := (getCore s s.cur.core).sent + messages s ps }
  stats : ∀ k, smGet 0 (getCore t s.cur.core).stats k = smGet 0 (getCore s s.cur.core).stats k +
    (if k = 1 then w.retired - (getRow s s.cur).retired else if k = 4 then wNat ps.length else 0)
  rest : t = { s with mem := t.mem, rows := t.rows, cores := t.cores, nextId := t.nextId }

/-- Free entries of the core's store FIFO of 32 (R70). -/
def room (s : State) : Nat := 32 - (getCore s s.cur.core).fifo.length

/-- The destination words that a load marks empty: all but X0, which is never empty (R50, R54). -/
def markable (ws : List Nat) : List Nat := ws.filter fun w => w != 32

/-- Bytes and sign extension of a load size code (R157, R236). -/
def loadSize (sz : BitVec 3) : Nat × Bool :=
  ([(1, true), (1, false), (2, true), (2, false), (4, true), (4, false), (8, false), (16, false)][sz.toNat]?).getD (16, false)

/-- The load mode 1 `fe`, 2 `fe.take`, else plain. -/
def feMode (mo : BitVec 2) : Nat := if mo = 1 then 1 else if mo = 2 then 2 else 0

/-- The number in `n` bytes of a list from byte `i` on. -/
def number (bs : List Byte) (i n : Nat) : Nat := leNat ((List.range n).map fun k => bs.getD (i + k) 0)

/-- The value that a load of `n` bytes puts into X[d]. -/
def loaded (n : Nat) (sg : Bool) (bs : List Byte) : Word :=
  if sg then (BitVec.ofNat (8 * n) (number bs 0 n)).signExtend 64 else wNat (number bs 0 n)

/-- Addresses of lanes: base plus index times width, or plus lane number times the stride (R240). -/
def laneVa (s : State) (w : Nat) (strided : Bool) (a b : Reg) (j : Nat) : Word :=
  getX s s.cur a + (if strided then wNat j * getX s s.cur b
    else (BitVec.ofNat (8 * w) (laneGet w (getV s s.cur b.toNat) j)).signExtend 64 * wNat w)

/-- The lanes that an instruction accesses, lowest first (R216). -/
def lanesOf (s : State) (ty mk : Nat) : List Nat := (List.range (laneCount ty)).filter fun j => active s mk j

/-- Does the base, or the stride, break the alignment rule (R237)? -/
def laneMisaligned (s : State) (w : Nat) (strided : Bool) (a b : Reg) : Bool :=
  (getX s s.cur a).toNat % w != 0 || (strided && (getX s s.cur b).toNat % w != 0)

/-- The sources of an indexed instruction: D where it is read, the base, the indices or the stride, the mask. -/
def vmemSources (strided rd t : Bool) (mk : Nat) (b a d : Reg) : List Src :=
  (if rd || mk != 0 then [srcV d.toNat t] else []) ++ [srcX a t, if strided then srcX b t else srcV b.toNat t] ++
    (if mk = 0 then [] else [srcM mk t])

/-- The access class of an indexed instruction: its tag is that of the base pointer (R42). -/
def laneAcc (s : State) (a : Reg) (acc : Acc) : Acc := { acc with mtag := some (Wbits (getX s s.cur a) 59 56) }

/-- Parts of lanes, numbered by their place in the access. -/
def numbered (w : Nat) (ps : List Part) : List Part := ps.zipIdx.map fun (p, i) => { p with pos := i * w }

/-- The sources, in field order, of the memory instructions that begin with the hold of R234 and then look at their
sources. None for the others. -/
def memSrcs : Instr → Option (List Src)
  | .ld _ _ _ ta a _ | .vld _ _ _ ta a _ => some [srcX a ta]
  | .st _ _ sz ta a d => some [if sz = 4 then srcXX d ta else srcX d ta, srcX a ta]
  | .vst _ _ _ ta a d => some [srcV d.toNat ta, srcX a ta]
  | .vmemGather _ t mk b a d => some (vmemSources false false t mk.toNat b a d)
  | .vmemLds _ t mk b a d => some (vmemSources true false t mk.toNat b a d)
  | .vmemScatredFadd _ t mk b a d => some (vmemSources false true t mk.toNat b a d ++ modeSrc true)
  | .vmemScatter _ t mk b a d | .vmemScatredAdd _ t mk b a d
  | .vmemScatredMin _ t mk b a d | .vmemScatredMax _ t mk b a d | .vmemScatredMinu _ t mk b a d
  | .vmemScatredMaxu _ t mk b a d | .vmemScatredOr _ t mk b a d => some (vmemSources false true t mk.toNat b a d)
  | .vmemSts _ t mk b a d => some (vmemSources true true t mk.toNat b a d)
  | .amoAdd _ _ _ tb ta b a _ | .amoAnd _ _ _ tb ta b a _ | .amoOr _ _ _ tb ta b a _ | .amoXor _ _ _ tb ta b a _
  | .amoMin _ _ _ tb ta b a _ | .amoMax _ _ _ tb ta b a _ | .amoMinu _ _ _ tb ta b a _ | .amoMaxu _ _ _ tb ta b a _
  | .amoSwap _ _ _ tb ta b a _ => some [srcX a ta, srcX b tb]
  | .amoFadd _ _ _ tb ta b a _ => some ([srcX a ta, srcX b tb] ++ modeSrc true)
  | .amoCas _ _ _ tb ta b a _ => some [srcX a ta, srcX b tb, srcE 0 ta]
  | .syncRel tb ta b a | .syncFeClr tb ta b a | .syncFeSet tb ta b a => some [srcX a ta, srcX b tb]
  | .syncFenceDie _ _ | .syncFenceDev _ _ | .syncFenceSys _ _ | .syncFenceCp _ _ | .syncFenceU _ _
  | .engineCpStat _ _ _ | .engineMxStat _ _ _ | .engineMxAbort _ _ _ | .engineEdgeStat _ _ => some []
  | .hLd64 a _ | .hLd32 a _ => some [srcX a false]
  | .hSt64 a d | .hSt32 a d => some [srcX d false, srcX a false]
  | _ => none

/-- The access that a scalar or vector load, a store or an atomic makes: its class, address, length, and whether it breaks
the instruction's own alignment rule (R237, R244). -/
def accessOf (s : State) : Instr → Option (Acc × Word × Nat × Bool)
  | .ld off mo sz _ a _ =>
    let n := (loadSize sz).1
    let p := ea s a off n
    some ({ rd := true, scalar := true }, p, n, feMode mo != 0 && p.toNat % min n 16 != 0)
  | .vld off mo sz _ a _ =>
    let n := 128 / 2 ^ sz.toNat
    let p := ea s a off n
    some ({ rd := true }, p, n, feMode mo != 0 && p.toNat % min n 16 != 0)
  | .st off mo sz _ a _ =>
    let n := 2 ^ sz.toNat
    let p := ea s a off n
    some ({ wr := true, code := 1, scalar := true }, p, n, mo == 1 && p.toNat % min n 16 != 0)
  | .vst off mo sz _ a _ =>
    let n := 128 / 2 ^ sz.toNat
    let p := ea s a off n
    some ({ wr := true, code := 1 }, p, n, mo == 1 && p.toNat % min n 16 != 0)
  | .hLd64 a _ => some ({ rd := true, scalar := true }, getX s s.cur a, 8, false)
  | .hLd32 a _ => some ({ rd := true, scalar := true }, getX s s.cur a, 4, false)
  | .hSt64 a _ => some ({ wr := true, code := 1, scalar := true }, getX s s.cur a, 8, false)
  | .hSt32 a _ => some ({ wr := true, code := 1, scalar := true }, getX s s.cur a, 4, false)
  | .amoAdd _ _ sz _ _ _ a _ | .amoAnd _ _ sz _ _ _ a _ | .amoOr _ _ sz _ _ _ a _ | .amoXor _ _ sz _ _ _ a _
  | .amoMin _ _ sz _ _ _ a _ | .amoMax _ _ sz _ _ _ a _ | .amoMinu _ _ sz _ _ _ a _ | .amoMaxu _ _ sz _ _ _ a _
  | .amoSwap _ _ sz _ _ _ a _ | .amoCas _ _ sz _ _ _ a _ | .amoFadd _ _ sz _ _ _ a _ =>
    let n := if sz then 8 else 4
    let p := getX s s.cur a
    some ({ rd := true, wr := true, code := 3, scalar := true, atomic := true }, p, n, p.toNat % n != 0)
  | .syncRel _ _ _ a => some ({ wr := true, code := 1, obj := true }, getX s s.cur a, 256, (getX s s.cur a).toNat % 256 != 0)
  | _ => none

/-- A load of `n` bytes in mode `fe`, of class `acc`, from `p` to the words `words`: issued as one request when the access is not to
the row itself in every part. -/
def IssuesLoad (s t : State) (fe : Nat) (nt : Bool) (ps : List Part) (put : Put) (words : List Nat) (next : Word) : Prop :=
  Issued s t (newReq s (.load fe nt) ps put words) [] 0 (retiredRow (getRow s s.cur) 0 next)

/-- The bytes of V[d] above the first `n` have become 0 in `t`, full and sound; nothing else differs from `u` (R239). -/
def ZeroesTail (u t : State) (d n : Nat) : Prop :=
  Wrote u t (List.range' (vw d + n / 8) ((128 - n) / 8)) ∧ ∀ j < 128 - n, (getV t u.cur d).getD (n + j) 0 = 0

/-- An atomic of function `fn` (R245): at the rounding mode of the row, with operand B and E0. One on the row itself blocks on
the lowest empty word that it touches (R251). -/
def Atomic (c : Bool → BitVec 2 → Bool → Bool → Bool → Reg → Reg → Reg → Instr) (fn : Nat) : Prop :=
  ∀ (s : State) (post : Bool) (scope : BitVec 2) (sz tb ta : Bool) (b a d : Reg),
    Issues s ([srcX a ta, srcX b tb] ++ (if fn = 9 then [srcE 0 ta] else []) ++ modeSrc (fn == 11)) →
    let n := if sz then 8 else 4
    ∀ ps, check s (ctxOf s s.cur) { rd := true, wr := true, code := 3, scalar := true, atomic := true } (getX s s.cur a) n
        ((getX s s.cur a).toNat % n != 0) = .ok ps →
      post || scopeDone s s.cur (partIx s s.cur.core) scope.toNat s.nextId →
      (∀ w ws, ownRow s s.cur ps = true → emptyOf s s.cur (ownWords s ps) = w :: ws → Blocks s (c post scope sz tb ta b a d) w) ∧
      (ownRow s s.cur ps = false ∨ emptyOf s s.cur (ownWords s ps) = [] →
      ∃ t, exec (c post scope sz tb ta b a d) s = .next t ∧
        Issued s t (newReq s (.atomic fn (getX s s.cur b) (getE s s.cur 0) (rmOf s s.cur) post scope.toNat) ps
          (if post then .none else .x d.toNat n true) (if post then [] else markable [xw d])) ps (messages s (ps.take 1))
          (retiredRow (getRow s s.cur) 0 (after s 4)))

/-- A scatter of the lanes of one group of 16, from lane 16k: the last group retires, an earlier one goes on to the next at
RSTEP k + 2 (R242). -/
def Scatter (c : BitVec 3 → Bool → BitVec 3 → Reg → Reg → Reg → Instr) (strided : Bool) : Prop :=
  ∀ (s : State) (ty : BitVec 3) (t : Bool) (mk : BitVec 3) (b a d : Reg),
    Issues s (vmemSources strided true t mk.toNat b a d) →
    let w := laneBytes ty.toNat
    let k := (getRow s s.cur).rstep - 1
    let left := (lanesOf s ty.toNat mk.toNat).filter fun j => decide (16 * k ≤ j)
    let group := left.filter fun j => decide (j < 16 * k + 16)
    ∀ xs : Nat → List Part,
      (∀ j ∈ left, check s (ctxOf s s.cur) (laneAcc s a { wr := true, code := 1 }) (laneVa s w strided a b j) w
        (laneMisaligned s w strided a b) = .ok (xs j)) →
      16 ≤ room s →
      let ps := group.flatMap xs
      let es := group.flatMap fun j => (xs j).map fun p => (p, leBytes w (lane s ty.toNat d.toNat j))
      ∃ u, exec (c ty t mk b a d) s = .next u ∧
        Queued s u (entries s .plain false 0 es) ps ps
          (if laneCount ty.toNat ≤ 16 * k + 16 then retiredRow (getRow s s.cur) 0 (after s 4)
           else { getRow s s.cur with rstep := k + 2 })

/-- A gather or strided load: one request for all active lanes, whose words of D are empty; with no active lane, nothing but
the PC moves (R241). -/
def Gather (c : BitVec 3 → Bool → BitVec 3 → Reg → Reg → Reg → Instr) (strided : Bool) : Prop :=
  ∀ (s : State) (ty : BitVec 3) (t : Bool) (mk : BitVec 3) (b a d : Reg),
    Issues s (vmemSources strided false t mk.toNat b a d) →
    let w := laneBytes ty.toNat
    let js := lanesOf s ty.toNat mk.toNat
    ∀ xs : Nat → List Part,
      (∀ j ∈ js, check s (ctxOf s s.cur) (laneAcc s a { rd := true }) (laneVa s w strided a b j) w
        (laneMisaligned s w strided a b) = .ok (xs j)) →
      (js = [] → OnlyMoves s (c ty t mk b a d) (after s 4)) ∧
      (js ≠ [] → ∃ u words, exec (c ty t mk b a d) s = .next u ∧
        (∀ x, x ∈ words ↔ ∃ j ∈ js, x = vw d.toNat + j * w / 8) ∧
        IssuesLoad s u 0 false (numbered w (js.flatMap xs)) (.lanes d.toNat w js) words (after s 4))

/-- An update-only reduction of operation `op` (VMEM FN): every active lane in order updates the core's reduction cache, or
its target's bank; the flags of the combines are added and the lines enter the signature (R243). -/
def Reduction (c : BitVec 3 → Bool → BitVec 3 → Reg → Reg → Reg → Instr) (op : Nat) : Prop :=
  ∀ (s : State) (ty : BitVec 3) (t : Bool) (mk : BitVec 3) (b a d : Reg),
    Issues s (vmemSources false true t mk.toNat b a d ++ modeSrc (op == 9)) →
    let w := laneBytes ty.toNat
    let js := lanesOf s ty.toNat mk.toNat
    ∀ xs : Nat → Part,
      (∀ j ∈ js, check s (ctxOf s s.cur) (laneAcc s a { rd := true, wr := true, code := 3 }) (laneVa s w false a b j) w
        (laneMisaligned s w false a b) = .ok [xs j]) →
      let y := redLanes s s.cur op w (fun j => lane s ty.toNat d.toNat j) (js.map fun j => (j, xs j))
      ∃ u, exec (c ty t mk b a d) s = .next u ∧
        Queued y.2 u [] [] (js.map xs) (retiredRow (getRow y.2 s.cur) y.1 ((getRow y.2 s.cur).pc + wNat 4))
/-! ## Device steps -/

/-- Step `i` answers a next state of which `P` holds. -/
def Step (s : State) (i : Instr) (P : State → Prop) : Prop := ∃ t, exec i s = .next t ∧ P t

/-- All control blocks but that of `r` are as before. -/
def OtherRows (s t : State) (r : RowId) : Prop := ∀ q, rkey q ≠ rkey r → getRow t q = getRow s q

/-- Cores are as before but for their counters. -/
def CountersOnly (s t : State) : Prop := ∀ c, getCore t c = { getCore s c with stats := (getCore t c).stats }

/-- A row as a wake leaves it: READY when it waited on word `w` with WHY 5, or READY at the release when its core is halted (`h`);
else as before (R52, R54, R133). -/
def woken (h : Bool) (x : Row) (w : Nat) : Row :=
  if x.st = .waiting ∧ x.why = 5 ∧ x.waitw = w then
    (if h then { x with resolved := true } else { x with st := .ready, why := 0, waitw := 0, await := none })
  else x

/-- Word `w` of row `r` has been filled with `v`: it is full and sound, the row is woken when it waited on it, and every
other byte, full/empty bit and control block is as before (R53, R54). -/
structure Filled (s t : State) (r : RowId) (w : Nat) (v : Word) : Prop where
  value : getW t r w = v
  full : isEmpty t r w = false ∧ isPoison t r w = false
  row : getRow t r = woken (coreHalted s r.core) (getRow s r) w
  rows : OtherRows s t r
  bytes : ∀ a, a / 8 ≠ rowWord r w → memByte t a = memByte s a
  empties : ∀ k, k ≠ rowWord r w → (k ∈ t.empt ↔ k ∈ s.empt)
  cores : ∀ c, getCore t c = { getCore s c with banks := (getCore t c).banks }

/-- The bytes `bs` stand at offset `off` of row `r`; every other byte is as before. -/
def StoredInRow (s t : State) (r : RowId) (off : Nat) (bs : List Byte) : Prop :=
  (∀ k < bs.length, memByte t (rowPa r (off + k)) = bs.getD k 0) ∧
  ∀ a, (a < rowPa r off ∨ rowPa r off + bs.length ≤ a) → memByte t a = memByte s a
/-! ## Accesses from outside -/

/-- `t` answers an outside access with `o` and is otherwise `s`. -/
def Answered (s t : State) (o : Option (List Byte)) : Prop := t = { s with hostReply := o }

/-- The bytes `bs` from outside stand at `pa`: no copy of a line they touch remains, and every byte outside those lines is as
before; where no such line was held, every other byte is as before (R372). -/
def WrittenFromOutside (s t : State) (pa : Nat) (bs : List Byte) : Prop :=
  (∀ k < bs.length, memByte t (pa + k) = bs.getD k 0) ∧
  (∀ l ∈ t.l2, l ∈ s.l2 ∧ ∀ k < bs.length, l.pl ≠ (pa + k) / 128) ∧
  ((∀ l ∈ s.l2, ∀ k < bs.length, l.pl ≠ (pa + k) / 128) →
    t.l2 = s.l2 ∧ ∀ a, (a < pa ∨ pa + bs.length ≤ a) → memByte t a = memByte s a)

/-- What an access from outside reads: the copy of the PA-hashed slice of the line's home die, else memory (R90, R362). -/
def seenOutside (s : State) (pa n : Nat) : List Byte :=
  match (findPhys s (pa / 0x1000 % 2) (pa / 128)).bind fun i => s.l2[i]? with
  | some x => lineBytes x (pa % 128) n
  | none => memRead s pa n

/-- What it reads where dirty copies of the line on its home die have been written back between `s` and `t`: the line as the last
write-back left it; else what the home held all along (R35, R372). -/
def seenAfter (s t : State) (pa n : Nat) : List Byte :=
  if s.l2.any fun l => l.pl == pa / 128 && l.die == pa / 0x1000 % 2 && l.dirty then memRead t pa n else seenOutside t pa n

/-- Up to 16 bytes at `pa` within one aligned 16-byte part were read from outside: dirty copies of their line on its home die
have been written back, every copy stays, and the answer is what the home then reads (R90, R362, R372). -/
def ReadFromOutside (s t : State) (pa n : Nat) : Prop :=
  t.hostReply = some (seenAfter s t pa n) ∧ t.l2.length = s.l2.length ∧
  (∀ l ∈ t.l2, l.pl = pa / 128 → l.die = pa / 0x1000 % 2 → l.dirty = false) ∧
  ((∀ l ∈ s.l2, l.pl = pa / 128 → l.die = pa / 0x1000 % 2 → l.dirty = false) →
    t.l2 = s.l2 ∧ Answered s t (some (seenOutside s pa n)))

/-- A peer's decrement has brought the cell at `pa` to 0, or asks for the packet again: the home reads ACTION, sends the packet and
answers `bs` and status 0; it refuses a malformed one with status 1 (R141, R246). USER is the cell's physical address, which is the
model's choice (log entry 106). -/
def FiredForPeer (s t : State) (p : Path) (pa : Nat) (bs : List Byte) : Prop :=
  let a := wNat (leNat (memRead s (pa + 8) 8))
  let k := (asidPart s p.asid).getD 0
  if actionOk s (asidPart s p.asid) a then
    t.hostReply = some (bs ++ leBytes 8 0) ∧ t.held = s.held ++ [⟨pktDie s k ((homeDie s pa).getD (dieOf p.core)) (Wbits a 14 6),
      mkPacket [header (Wbits a 63 32) (Wbits a 14 6) (Wbits a 5 0) 0 0, wNat pa, 0, 0] k none⟩]
  else t.hostReply = some (bs ++ leBytes 8 1) ∧ t.held = s.held

/-- `n` bytes at `pa` lie within one aligned 16-byte part. -/
abbrev onePart (pa n : Nat) : Prop := 1 ≤ n ∧ pa % 16 + n ≤ 16

/-! ## Swap -/

/-- What core `n` holds and what its shadow holds have changed places: the rows with their control blocks, bytes and full/empty
bits, the barriers with the arrivals of their phases, the deque, the channels, the run queue, SERVING and the statistics; its
accumulators are undefined (R352). -/
structure Exchanged (s t : State) (n : Nat) : Prop where
  rows : ∀ k < 256, getRow t ⟨n, k⟩ = smGet {} (smGet {} s.shadow n).rows k ∧
    smGet {} (smGet {} t.shadow n).rows k = getRow s ⟨n, k⟩
  bytes : ∀ a < 0x100000, memByte t (rowPa ⟨n, 0⟩ 0 + a) = smGet 0 (smGet {} s.shadow n).bytes a ∧
    smGet 0 (smGet {} t.shadow n).bytes a = memByte s (rowPa ⟨n, 0⟩ 0 + a)
  empties : ∀ a < 0x20000, (rowWord ⟨n, 0⟩ 0 + a ∈ t.empt ↔ a ∈ (smGet {} s.shadow n).empt) ∧
    (a ∈ (smGet {} t.shadow n).empt ↔ rowWord ⟨n, 0⟩ 0 + a ∈ s.empt)
  here : ∃ f, getCore t n = let x : ShadowCore := smGet {} s.shadow n
    { getCore s n with chans := x.chans, bars := x.bars, dq := x.dq, runq := x.runq, serving := x.serving, stats := x.stats,
                       acc := [], accFree := some f }
  away : let y : ShadowCore := smGet {} t.shadow n
    y.chans = (getCore s n).chans ∧ y.bars = (getCore s n).bars ∧ y.dq = (getCore s n).dq ∧
    y.runq = (getCore s n).runq ∧ y.serving = (getCore s n).serving ∧ y.stats = (getCore s n).stats
  steers : (smGet {} t.shadow n).steer = s.steer.filter (fun y => y.core == n) ∧
    ∀ y, y.core = n → (y ∈ t.steer ↔ y ∈ (smGet {} s.shadow n).steer)
/-! ## Gangs and runs -/

/-- The gang of cluster `cl` has ended with status `st`: every place is IDLE, those that took part report the status and have
an empty latch, and an empty D has received it (R289). -/
def GangEnded (s t : State) (cl st : Nat) : Prop :=
  (∀ n, n / 8 = cl → (getMx t n).st = .idle ∧
    ((getMx s n).st ≠ .idle → (getMx t n).last = st ∧ (getCore t n).latch = none)) ∧
  ((∀ n, n / 8 = cl → (getMx s n).row < 256 ∧ (getMx s n).d < 32 ∧ (getMx s n).todo = []) →
    ∀ n, n / 8 = cl → (getMx s n).st ≠ .idle → (getMx s n).d ≠ 0 →
      st = 0 ∨ isEmpty s (mxRow s n) (32 + (getMx s n).d) = true →
      getX t (mxRow s n) (BitVec.ofNat 5 (getMx s n).d) = wNat st ∧
      ((∀ q ∈ t.reqs, q.row = mxRow s n → 32 + (getMx s n).d ∉ q.words) → isEmpty t (mxRow s n) (32 + (getMx s n).d) = false)) ∧
  (st ≠ 0 → ∀ n, n / 8 = cl → (getCore t n).acc = [] ∧ (getCore t n).accFree ≠ none)

/-- A place stands at a step of kind `kind` with words `w0`, `w1`, which reading it left in `t`, in a group of rows (R279,
R284). -/
def AtStep (s : State) (core kind : Nat) (w0 w1 : Word) (t : State) : Prop :=
  (getMx s core).active .running = true ∧ reachStep s core = (.step w0 w1, t) ∧ Wbits w0 3 0 = kind ∧
  ((getMx t core).gm ≠ 0 ∨ kind = 5 ∨ kind = 15)

/-- A place has gone on to its next step. -/
def MovedOn (t u : State) (core : Nat) : Prop :=
  (getMx u core).step = (getMx t core).step + 1 ∧ (getMx u core).st = .running ∧ (getMx u core).cur = none

/-- A phase of a run begins: every engine is RUNNING in its mode without a chunk, and its deque holds its share of the
chunks under the phase's tag (R308, R315). -/
def PhaseBegins (t : State) (ws : List Word) (pull mid : Bool) : Prop :=
  let chunks := (dNv ws + dChunk ws - 1) / dChunk ws
  let rcd := pull.toNat * 2 + mid.toNat
  ∀ i < dNcore ws,
    let n := dCore0 ws + i
    let lo := i * chunks / dNcore ws
    let hi := (i + 1) * chunks / dNcore ws
    let e := getEdge t n
    let q := (getCore t n).dq
    e.st = .running ∧ e.pull = pull ∧ e.phase = rcd ∧ e.chunk = none ∧ e.granted = false ∧ e.switch = false ∧
    (lo < hi → q.bottom = (q.top + 1) % 2 ^ 32 ∧ q.ent q.top = ⟨hi, lo, 0xED00 + rcd⟩) ∧ (hi ≤ lo → q.top = q.bottom)

/-- A core's edge engine is held on fault `f`, and its row's D holds 8 (R318). -/
def EdgeHeld (t : State) (core : Nat) (f : EngFault) : Prop :=
  (getEdge t core).st = .held ∧ (getEdge t core).held = some f ∧ (getEdge t core).raised = false ∧
  ((getEdge t core).d ≠ 0 → (getEdge t core).d < 32 →
    getX t (edgeRow t core) (BitVec.ofNat 5 (getEdge t core).d) = 8 ∧
    ((∀ q ∈ t.reqs, q.row = edgeRow t core → 32 + (getEdge t core).d ∉ q.words) →
      isEmpty t (edgeRow t core) (32 + (getEdge t core).d) = false))
end Sys2Proof.Claims

open Sys2Proof Sys2Proof.Machine Sys2Proof.Claims

/-! # Scalar instructions -/

/-- R195, R197: the arithmetic of the ALU, in both sizes; a division by zero gives all ones, a remainder by zero the
dividend, and no division traps. -/
def Sys2Proof.Claims.AluArithmetic : Prop :=
  Alu2 .aluAdd (fun _ x y => x + y) ∧ Alu2 .aluSub (fun _ x y => x - y) ∧ Alu2 .aluMul (fun _ x y => x * y) ∧
  Alu2 .aluMulh (fun n x y => (x.signExtend (2 * n) * y.signExtend (2 * n)).extractLsb' n n) ∧
  Alu2 .aluMulhu (fun n x y => (x.setWidth (2 * n) * y.setWidth (2 * n)).extractLsb' n n) ∧
  Alu2 .aluDiv (fun n x y => if y = 0 then BitVec.allOnes n else x.sdiv y) ∧
  Alu2 .aluDivu (fun n x y => if y = 0 then BitVec.allOnes n else x.udiv y) ∧
  Alu2 .aluRem (fun _ x y => if y = 0 then x else x.srem y) ∧
  Alu2 .aluRemu (fun _ x y => if y = 0 then x else x.umod y)

/-- R195: the bitwise operations, shifts, rotation, minima, maxima and comparisons of the ALU, in both sizes. -/
def Sys2Proof.Claims.AluLogic : Prop :=
  Alu2 .aluAnd (fun _ x y => x &&& y) ∧ Alu2 .aluOr (fun _ x y => x ||| y) ∧ Alu2 .aluXor (fun _ x y => x ^^^ y) ∧
  Alu2 .aluAndn (fun _ x y => x &&& ~~~y) ∧ Alu2 .aluShl (fun n x y => x <<< (y.toNat % n)) ∧
  Alu2 .aluShr (fun n x y => x >>> (y.toNat % n)) ∧ Alu2 .aluSra (fun n x y => x.sshiftRight (y.toNat % n)) ∧
  Alu2 .aluRot (fun n x y => x.rotateRight (y.toNat % n)) ∧
  Alu2 .aluMin (fun _ x y => if x.sle y then x else y) ∧ Alu2 .aluMax (fun _ x y => if x.sle y then y else x) ∧
  Alu2 .aluMinu (fun _ x y => if x.ule y then x else y) ∧ Alu2 .aluMaxu (fun _ x y => if x.ule y then y else x) ∧
  Alu2 .aluEq (fun _ x y => flag (x == y)) ∧ Alu2 .aluNe (fun _ x y => flag (x != y)) ∧
  Alu2 .aluLt (fun _ x y => flag (x.slt y)) ∧ Alu2 .aluLtu (fun _ x y => flag (x.ult y)) ∧
  Alu2 .aluLe (fun _ x y => flag (x.sle y)) ∧ Alu2 .aluLeu (fun _ x y => flag (x.ule y))

/-- R195, R196: bit counts, select and field extraction. `alu.sel` tests all 64 bits of D in both sizes; a field's bits
above the operand are 0, and in the w size the result is sign-extended. -/
def Sys2Proof.Claims.AluCountSelectExtract : Prop :=
  Alu1 .aluClz (fun n x => BitVec.ofNat n (leading x)) ∧ Alu1 .aluCtz (fun n x => BitVec.ofNat n (trailing x)) ∧
  Alu1 .aluPopc (fun n x => BitVec.ofNat n (ones x)) ∧
  (∀ (s : State) (sz tb ta : Bool) (b a d : Reg), Can s [srcX d ta, srcX a ta, srcX b tb] →
    WritesX s (.aluSel sz tb ta b a d) d
      (sized sz (fun _ x y => if getX s s.cur d = 0 then y else x) (getX s s.cur a) (getX s s.cur b)) 0 (after s 4)) ∧
  ∀ (s : State) (sz tb ta : Bool) (b a d : Reg), Can s [srcX a ta, srcX b tb] →
    ∃ v : Word, WritesX s (.aluExt sz tb ta b a d) d v 0 (after s 4) ∧
      ∀ j < 64, v.getLsbD j = if sz then fieldBit (getX s s.cur a) (getX s s.cur b) j
        else fieldBit ((getX s s.cur a).setWidth 32) (getX s s.cur b) (min j 31)

/-- R198-R200: the instructions with an immediate: arithmetic and logic with a sign-extended 15-bit immediate, shifts by
an amount taken modulo the size, and comparisons of 64 bits with a sign-extended 12-bit immediate. -/
def Sys2Proof.Claims.ImmediateResults : Prop :=
  Imm15 .alui (fun x y => x + y) ∧ Imm15 .andi (fun x y => x &&& y) ∧ Imm15 .ori (fun x y => x ||| y) ∧
  Imm15 .xori (fun x y => x ^^^ y) ∧
  Shift6 .shiShl (fun _ x k => x <<< k) ∧ Shift6 .shiShr (fun _ x k => x >>> k) ∧
  Shift6 .shiSra (fun _ x k => x.sshiftRight k) ∧ Shift6 .shiRot (fun _ x k => x.rotateRight k) ∧
  Cmp12 .cmpiEq (fun x y => x == y) ∧ Cmp12 .cmpiNe (fun x y => x != y) ∧ Cmp12 .cmpiLt (fun x y => x.slt y) ∧
  Cmp12 .cmpiLtu (fun x y => x.ult y) ∧ Cmp12 .cmpiLe (fun x y => x.sle y) ∧ Cmp12 .cmpiLeu (fun x y => x.ule y) ∧
  Cmp12 .cmpiGt (fun x y => y.slt x) ∧ Cmp12 .cmpiGtu (fun x y => y.ult x)

/-- R201, R202: constants. `ldi` sign-extends its 21 bits; `ldx` puts its immediate above bits 20-0 of D, sign-extended
to bit 63; a chunk of E takes 21 bits, chunk 2 also bit 63, and the other bits of E stay; `ext.x` copies a register. -/
def Sys2Proof.Claims.ConstantResults : Prop :=
  (∀ (s : State) (imm : BitVec 21) (d : Reg), Going s → WritesX s (.ldi imm d) d (imm.signExtend 64) 0 (after s 4)) ∧
  (∀ (s : State) (imm : BitVec 21) (d : Reg), Can s [srcX d false] →
    WritesX s (.ldx imm d) d ((imm.signExtend 43) ++ (getX s s.cur d).extractLsb' 0 21) 0 (after s 4)) ∧
  (∀ (s : State) (imm : BitVec 21) (e : BitVec 3), Going s →
    WritesE s (.extC0 imm e) e.toNat ((getE s s.cur e.toNat).extractLsb' 21 43 ++ imm) (after s 4) ∧
    WritesE s (.extC1 imm e) e.toNat
      ((getE s s.cur e.toNat).extractLsb' 42 22 ++ (imm ++ (getE s s.cur e.toNat).extractLsb' 0 21)) (after s 4) ∧
    WritesE s (.extC2 imm e) e.toNat (imm.signExtend 22 ++ (getE s s.cur e.toNat).extractLsb' 0 42) (after s 4)) ∧
  ∀ (s : State) (x : Reg) (e : BitVec 3), Can s [srcX x false] →
    WritesE s (.extX x e) e.toNat (getX s s.cur x) (after s 4)

/-- R203, R204: branches. The offset counts halfwords from the branch's own PC; the link is the next instruction; `jmp`
reads A before D is written and its target's bit 0 is ignored; a branch not taken goes on. -/
def Obligations.BranchResults : Prop :=
  (∀ (s : State) (imm : BitVec 21) (d : Reg), Going s →
    WritesX s (.br imm d) d (after s 4) 0 ((getRow s s.cur).pc + imm.signExtend 64 * 2#64)) ∧
  Branch .bcEq (fun x y => x == y) ∧ Branch .bcNe (fun x y => x != y) ∧ Branch .bcLt (fun x y => x.slt y) ∧
  Branch .bcLtu (fun x y => x.ult y) ∧ Branch .bcGe (fun x y => y.sle x) ∧ Branch .bcGeu (fun x y => y.ule x) ∧
  ∀ (s : State) (imm : BitVec 14) (ta : Bool) (a d : Reg), Can s [srcX a ta] →
    WritesX s (.jmp imm ta a d) d (after s 4) 0 (getX s s.cur a + imm.signExtend 64 * 2#64) ∧
    WritesX s (.jmpRet imm ta a d) d (after s 4) 0 (getX s s.cur a + imm.signExtend 64 * 2#64)

/-- R195-R197: the register forms of the integer instructions. -/
def Obligations.AluResults : Prop := AluArithmetic ∧ AluLogic ∧ AluCountSelectExtract

/-- R198-R202: the immediate forms, and constants. -/
def Obligations.ImmediateAndConstantResults : Prop := ImmediateResults ∧ ConstantResults

/-! # Floating point and vectors -/

/-- R205-R208: scalar floating point. Arithmetic, rounding, minimum and maximum, comparisons, classification, sign
operations and conversions, each in either format with the row's rounding mode, X[D] zero-extended and the flags added. Where
UF begins (log entry 42) is the model's choice. -/
def Obligations.FpuResults : Prop :=
  Fpu2 .fpuAdd true fadd ∧ Fpu2 .fpuSub true fsub ∧ Fpu2 .fpuMul true fmul ∧ Fpu2 .fpuDiv true fdiv ∧ Fpu1 .fpuSqrt true fsqrt ∧
  Fpu2 .fpuMin false (fun f _ x y => fminmax f false x y) ∧ Fpu2 .fpuMax false (fun f _ x y => fminmax f true x y) ∧
  Fpu1 .fpuRnd true frnd ∧
  Fpu2 .fpuEq false (fun f _ x y => ((fcmp f .eq x y).1.toNat, (fcmp f .eq x y).2)) ∧
  Fpu2 .fpuLt false (fun f _ x y => ((fcmp f .lt x y).1.toNat, (fcmp f .lt x y).2)) ∧
  Fpu2 .fpuLe false (fun f _ x y => ((fcmp f .le x y).1.toNat, (fcmp f .le x y).2)) ∧
  Fpu1 .fpuCls false (fun f _ x => (fclass f x, if (unpack f x).isS then flNV else 0)) ∧
  Fpu2 .fpuSgnj false (fun f _ x y => (signed f x (y.testBit (f.w - 1)), 0)) ∧
  Fpu1 .fpuAbs false (fun f _ x => (signed f x false, 0)) ∧
  (∀ (s : State) (fmt tb ta : Bool) (b a d : Reg), Can s ([srcX d ta, srcX a ta, srcX b tb] ++ modeSrc true) →
    let y := ffma (fpuFmt fmt) (rmOf s s.cur) false false (fpuOp fmt (getX s s.cur a)) (fpuOp fmt (getX s s.cur b))
      (fpuOp fmt (getX s s.cur d))
    WritesX s (.fpuFma fmt tb ta b a d) d (wNat y.1) y.2 (after s 4)) ∧
  ∀ (s : State) (k : BitVec 3) (fmt tb ta : Bool) (a d : Reg),
    Can s ([srcX a ta] ++ modeSrc (k.toNat != 0 || !fmt)) → k.toNat ≤ 4 →
    let x := getX s s.cur a
    let y : Word × FFlags := match k.toNat with
      | 0 => let r := fcvt (fpuFmt fmt) (fpuFmt !fmt) (rmOf s s.cur) (fpuOp (!fmt) x); (wNat r.1, r.2)
      | 1 => let r := toInt (fpuFmt fmt) (rmOf s s.cur) (-(2 ^ 63)) (2 ^ 63 - 1) (fpuOp fmt x); (wInt r.1, r.2)
      | 2 => let r := toInt (fpuFmt fmt) (rmOf s s.cur) 0 (2 ^ 64 - 1) (fpuOp fmt x); (wInt r.1, r.2)
      | 3 => let r := fromInt (fpuFmt fmt) (rmOf s s.cur) x.toInt; (wNat r.1, r.2)
      | _ => let r := fromInt (fpuFmt fmt) (rmOf s s.cur) x.toNat; (wNat r.1, r.2)
    WritesX s (.fpuCvt k fmt tb ta a d) d y.1 y.2 (after s 4)

/-- R218, R219: integer vectors, lane by lane under the mask; a comparison writes 0 for inactive lanes and above the last
lane; `valu.sel` takes the lane of A where the mask is 1, else of B, and does not read D. -/
def Obligations.ValuResults : Prop :=
  Valu2 .valuAdd (fun _ x y => x + y) ∧ Valu2 .valuSub (fun _ x y => x - y) ∧ Valu2 .valuMul (fun _ x y => x * y) ∧
  Valu2 .valuMulh (fun n x y => (x.signExtend (2 * n) * y.signExtend (2 * n)).extractLsb' n n) ∧
  Valu2 .valuAnd (fun _ x y => x &&& y) ∧ Valu2 .valuOr (fun _ x y => x ||| y) ∧ Valu2 .valuXor (fun _ x y => x ^^^ y) ∧
  Valu2 .valuShl (fun n x y => x <<< (y.toNat % n)) ∧ Valu2 .valuShr (fun n x y => x >>> (y.toNat % n)) ∧
  Valu2 .valuSra (fun n x y => x.sshiftRight (y.toNat % n)) ∧
  Valu2 .valuMin (fun _ x y => if x.sle y then x else y) ∧ Valu2 .valuMax (fun _ x y => if x.sle y then y else x) ∧
  Valu2 .valuMinu (fun _ x y => if x.ule y then x else y) ∧ Valu2 .valuMaxu (fun _ x y => if x.ule y then y else x) ∧
  (∀ (s : State) (ty : BitVec 3) (t : Bool) (mk : BitVec 3) (b a : Reg) (cond : BitVec 2) (m : BitVec 3),
    Can s ([srcV a.toNat t, srcV b.toNat t] ++ (if mk = 0 then [] else [srcM mk.toNat t])) →
    WritesM s (.valuCmp ty t mk b a cond m) m.toNat (fun k =>
      let x := BitVec.ofNat (8 * laneBytes ty.toNat) (lane s ty.toNat a.toNat k)
      let y := BitVec.ofNat (8 * laneBytes ty.toNat) (lane s ty.toNat b.toNat k)
      decide (k < laneCount ty.toNat) && active s mk.toNat k &&
      (match cond.toNat with
        | 0 => x == y
        | 1 => x != y
        | 2 => x.slt y
        | _ => x.ult y)) 0 (after s 4)) ∧
  ∀ (s : State) (ty : BitVec 3) (t : Bool) (mk : BitVec 3) (b a d : Reg),
    Can s ([srcV a.toNat t, srcV b.toNat t] ++ (if mk = 0 then [] else [srcM mk.toNat t])) →
    WritesV s (.valuSel ty t mk b a d) ty.toNat 0 d.toNat
      (fun j => (lane s ty.toNat (if active s mk.toNat j then a else b).toNat j, 0)) (after s 4)

/-- R219-R224: float vectors and fused multiply-adds, lane by lane under the mask, with the flags of the active lanes. A
conversion writes zero to the lanes beyond those it converts, whatever the mask. NV of `vfp.scale` of a NaN by a B that is not
integral (log entry 10) and where UF begins (log entry 42) are the model's choices. -/
def Obligations.VfpResults : Prop :=
  Vfp2 .vfpAdd true fadd ∧ Vfp2 .vfpSub true fsub ∧ Vfp2 .vfpMul true fmul ∧ Vfp2 .vfpDiv true fdiv ∧
  Vfp2 .vfpMin false (fun f _ x y => fminmax f false x y) ∧ Vfp2 .vfpMax false (fun f _ x y => fminmax f true x y) ∧
  Vfp2 .vfpScale true fscale ∧ Vfp1 .vfpRnd true frnd ∧ Vfp1 .vfpGetexp false (fun f _ x => fgetexp f x) ∧
  Vfp1 .vfpRcp true frcp ∧ Vfp1 .vfpRsq true frsq ∧ Vfp1 .vfpSqrt true fsqrt ∧
  Vfp1 .vfpCls false (fun f _ x => (fclass f x, if (unpack f x).isS then flNV else 0)) ∧
  (∀ (s : State) (ty : BitVec 3) (t : Bool) (mk : BitVec 3) (a d : Reg),
    Can s (maskedSrcs d.toNat mk.toNat t [srcV a.toNat t]) →
    WritesV s (.vfpExp2f ty t mk a d) ty.toNat mk.toNat d.toNat
      (fun j => fexp2f ty.toNat (fmtOf ty.toNat) (lane s ty.toNat a.toNat j)) (after s 4)) ∧
  Vfma .vfmaFma false false ∧ Vfma .vfmaFms false true ∧ Vfma .vfmaFnma true false ∧ Vfma .vfmaFnms true true ∧
  (∀ (s : State) (ty : BitVec 3) (t : Bool) (mk : BitVec 3) (b a : Reg) (cond : BitVec 2) (m : BitVec 3),
    Can s ([srcV a.toNat t, srcV b.toNat t] ++ (if mk = 0 then [] else [srcM mk.toNat t])) →
    let c : FCond := match cond.toNat with
      | 0 => .eq
      | 1 => .lt
      | 2 => .le
      | _ => .un
    let f := fun k => fcmp (fmtOf ty.toNat) c (lane s ty.toNat a.toNat k) (lane s ty.toNat b.toNat k)
    WritesM s (.vfpCmp ty t mk b a cond m) m.toNat
      (fun k => decide (k < laneCount ty.toNat) && active s mk.toNat k && (f k).1)
      (laneFlags (active s mk.toNat) (fun k => (0, (f k).2)) (List.range (laneCount ty.toNat))) (after s 4)) ∧
  ∀ (s : State) (ty : BitVec 3) (t : Bool) (mk sty : BitVec 3) (a d : Reg),
    let exact := 3 ≤ ty.toNat ∧ 3 ≤ sty.toNat ∧ (ty = sty ∨ laneBytes sty.toNat < laneBytes ty.toNat)
    Can s (maskedSrcs d.toNat mk.toNat t [srcV a.toNat t] ++ modeSrc (!decide exact)) →
    let n := min (laneCount ty.toNat) (laneCount sty.toNat)
    let f := fun j => cvtLane ty.toNat sty.toNat (rmOf s s.cur) (lane s sty.toNat a.toNat j)
    ∃ u, exec (.vfpCvt ty t mk sty a d) s = .next u ∧
      Done s u (List.range' (vw d.toNat) 16) (laneFlags (active s mk.toNat) f (List.range n)) (after s 4) ∧
      (∀ j < n, laneAt u s.cur ty.toNat d.toNat j =
        if active s mk.toNat j then (f j).1 % 256 ^ laneBytes ty.toNat else lane s ty.toNat d.toNat j) ∧
      ∀ j < laneCount ty.toNat, n ≤ j → laneAt u s.cur ty.toNat d.toNat j = 0

/-- R225: masks. Logic bit by bit on 64 bits, population and first set bit (64 when none), and the moves between masks
and X registers. -/
def Obligations.MaskResults : Prop :=
  Mask2 .maskAnd (fun x y => x && y) ∧ Mask2 .maskOr (fun x y => x || y) ∧ Mask2 .maskXor (fun x y => x != y) ∧
  Mask2 .maskAndn (fun x y => x && !y) ∧
  (∀ (s : State) (tb ta : Bool) (a d : Reg), Can s [srcM a.toNat ta] →
    WritesM s (.maskNot tb ta a d) d.toNat (fun k => !(getM s s.cur a.toNat).getLsbD k) 0 (after s 4) ∧
    WritesX s (.maskPop tb ta a d) d (wNat (ones (getM s s.cur a.toNat))) 0 (after s 4) ∧
    WritesX s (.maskFirst tb ta a d) d (wNat (trailing (getM s s.cur a.toNat))) 0 (after s 4) ∧
    WritesX s (.maskTox tb ta a d) d (getM s s.cur a.toNat) 0 (after s 4)) ∧
  (∀ (s : State) (tb ta : Bool) (a d : Reg), Can s [srcX a ta] →
    WritesM s (.maskFromx tb ta a d) d.toNat (fun k => (getX s s.cur a).getLsbD k) 0 (after s 4) ∧
    WritesM s (.maskLanes tb ta a d) d.toNat (fun k => decide (k < (getX s s.cur a).toNat)) 0 (after s 4)) ∧
  ∀ (s : State) (tb ta : Bool) (d : Reg), Going s →
    WritesM s (.maskAll tb ta d) d.toNat (fun _ => true) 0 (after s 4)

/-- R226, R227: moves between lanes and registers, permutations, shifts of lanes, lane numbers, signs, and reductions. -/
def Obligations.VxfResults : Prop :=
  (∀ (s : State) (ty : BitVec 3) (t : Bool) (mk : BitVec 3) (a d : Reg),
    Can s (maskedSrcs d.toNat mk.toNat t [srcX a t]) →
    WritesV s (.vxfBcast ty t mk a d) ty.toNat mk.toNat d.toNat
      (fun _ => ((getX s s.cur a).toNat % 256 ^ laneBytes ty.toNat, 0)) (after s 4)) ∧
  (∀ (s : State) (ty : BitVec 3) (t : Bool) (b a d : Reg), Can s [srcV a.toNat t, srcX b t] →
    let x := lane s ty.toNat a.toNat ((getX s s.cur b).toNat % laneCount ty.toNat)
    WritesX s (.vxfExt ty t b a d) d
      (if isFloat ty then wNat x else (BitVec.ofNat (8 * laneBytes ty.toNat) x).signExtend 64) 0 (after s 4)) ∧
  (∀ (s : State) (ty : BitVec 3) (t : Bool) (b a d : Reg), Can s [srcV d.toNat t, srcX a t, srcX b t] →
    WritesV s (.vxfIns ty t b a d) ty.toNat 0 d.toNat (fun j =>
      if j = (getX s s.cur b).toNat % laneCount ty.toNat then ((getX s s.cur a).toNat % 256 ^ laneBytes ty.toNat, 0)
      else (lane s ty.toNat d.toNat j, 0)) (after s 4)) ∧
  (∀ (s : State) (ty : BitVec 3) (t : Bool) (mk : BitVec 3) (b a d : Reg),
    Can s (maskedSrcs d.toNat mk.toNat t [srcV a.toNat t, srcV b.toNat t]) →
    WritesV s (.vxfPerm ty t mk b a d) ty.toNat mk.toNat d.toNat (fun j =>
      (lane s ty.toNat a.toNat (lane s ty.toNat b.toNat j % laneCount ty.toNat), 0)) (after s 4)) ∧
  (∀ (s : State) (ty : BitVec 3) (t : Bool) (mk : BitVec 3) (b a d : Reg),
    Can s (maskedSrcs d.toNat mk.toNat t [srcV a.toNat t, srcX b t]) →
    WritesV s (.vxfShfdn ty t mk b a d) ty.toNat mk.toNat d.toNat (fun j =>
      (if j + (getX s s.cur b).toNat < laneCount ty.toNat then lane s ty.toNat a.toNat (j + (getX s s.cur b).toNat) else 0,
        0)) (after s 4)) ∧
  (∀ (s : State) (ty : BitVec 3) (t : Bool) (mk : BitVec 3) (d : Reg), Can s (maskedSrcs d.toNat mk.toNat t []) →
    WritesV s (.vxfIota ty t mk d) ty.toNat mk.toNat d.toNat
      (fun j => (if isFloat ty then (fromInt (fmtOf ty.toNat) .rne j).1 else j, 0)) (after s 4)) ∧
  Vxf1 .vxfAbs (fun ty n x =>
    if 3 ≤ ty ∧ ty ≤ 6 then signed (fmtOf ty) x false else pat n (sval n x).natAbs) ∧
  Vxf1 .vxfNeg (fun ty n x =>
    if 3 ≤ ty ∧ ty ≤ 6 then signed (fmtOf ty) x (!x.testBit (n - 1)) else pat n (-sval n x)) ∧
  (∀ (s : State) (ty : BitVec 3) (t : Bool) (mk : BitVec 3) (b a d : Reg),
    Can s (maskedSrcs d.toNat mk.toNat t [srcV a.toNat t, srcV b.toNat t]) →
    WritesV s (.vxfSgnj ty t mk b a d) ty.toNat mk.toNat d.toNat (fun j =>
      let n := 8 * laneBytes ty.toNat
      let x := lane s ty.toNat a.toNat j
      let y := lane s ty.toNat b.toNat j
      (if isFloat ty then signed (fmtOf ty.toNat) x (y.testBit (n - 1))
       else pat n (if sval n y < 0 then -((sval n x).natAbs : Int) else (sval n x).natAbs), 0)) (after s 4)) ∧
  Reduce .vxfRedAdd isFloat (fun s ty x y => if isFloat ty then fadd (fmtOf ty.toNat) (rmOf s s.cur) x y
    else ((x + y) % 256 ^ laneBytes ty.toNat, 0)) (fun _ => 0) ∧
  Reduce .vxfRedMin (fun _ => false) (fun _ ty x y => if isFloat ty then fminmax (fmtOf ty.toNat) false x y
      else (if sval (8 * laneBytes ty.toNat) x ≤ sval (8 * laneBytes ty.toNat) y then x else y, 0))
    (fun ty => if isFloat ty then infBits (fmtOf ty.toNat) false else 2 ^ (8 * laneBytes ty.toNat - 1) - 1) ∧
  Reduce .vxfRedMax (fun _ => false) (fun _ ty x y => if isFloat ty then fminmax (fmtOf ty.toNat) true x y
      else (if sval (8 * laneBytes ty.toNat) y ≤ sval (8 * laneBytes ty.toNat) x then x else y, 0))
    (fun ty => if isFloat ty then infBits (fmtOf ty.toNat) true else 2 ^ (8 * laneBytes ty.toNat - 1))

/-! # Sixteen-bit forms, traps, privilege and system registers -/

/-- R215: the 16-bit register forms, with the next instruction two bytes on; their branches count halfwords; `h.ret` goes
to X1; the vector forms act on 32 unmasked f32 lanes and ignore bits 9 and 14. -/
def Obligations.HalfwordResults : Prop :=
  (∀ (s : State) (a d : Reg), Can s [srcX a false] → WritesX s (.hMov a d) d (getX s s.cur a) 0 (after s 2)) ∧
  Half2 .hAdd (fun x y => x + y) ∧ Half2 .hSub (fun x y => x - y) ∧ Half2 .hAnd (fun x y => x &&& y) ∧
  Half2 .hOr (fun x y => x ||| y) ∧ Half2 .hXor (fun x y => x ^^^ y) ∧ Half2 .hLt (fun x y => flag (x.slt y)) ∧
  Half1 .hAddi5 (fun x k => x + k.signExtend 64) ∧ Half1 .hShli (fun x k => x <<< k.toNat) ∧
  Half1 .hShri (fun x k => x >>> k.toNat) ∧
  (∀ (s : State) (imm : BitVec 5) (d : Reg), Going s → WritesX s (.hLdi5 imm d) d (imm.signExtend 64) 0 (after s 2)) ∧
  (∀ (s : State) (imm : BitVec 5) (d : Reg), Can s [srcX d false] →
    let dest := (getRow s s.cur).pc + imm.signExtend 64 * 2#64
    OnlyMoves s (.hBeqz imm d) (if getX s s.cur d = 0 then dest else after s 2) ∧
    OnlyMoves s (.hBnez imm d) (if getX s s.cur d = 0 then after s 2 else dest)) ∧
  (∀ (s : State) (i14 i9 : Bool) (a d : BitVec 4), Can s ([srcV d.toNat false, srcV a.toNat false] ++ modeSrc true) →
    WritesV s (.hVfaddF32 i14 a i9 d) 3 0 d.toNat
      (fun j => fadd f32 (rmOf s s.cur) (lane s 3 d.toNat j) (lane s 3 a.toNat j)) (after s 2) ∧
    WritesV s (.hVfmulF32 i14 a i9 d) 3 0 d.toNat
      (fun j => fmul f32 (rmOf s s.cur) (lane s 3 d.toNat j) (lane s 3 a.toNat j)) (after s 2)) ∧
  (∀ s : State, Going s → OnlyMoves s .hNop (after s 2) ∧ OnlyMoves s .sysNop (after s 4)) ∧
  ∀ s : State, Can s [srcX 1 false] → OnlyMoves s .hRet (getX s s.cur 1)

/-- R210, R338: `sys.trap` and `sys.bkpt` fault with causes 10 and 9 and their code, FVA at the instruction; nothing is
retired. R158: a word that defines no instruction faults with cause 1. -/
def Sys2Proof.Claims.SoftwareTraps : Prop :=
  ∀ s : State, Going s →
    (∀ code : BitVec 12, Raises s (.sysTrap code) ⟨0, 10, 0, 0, (getRow s s.cur).pc, code.toNat⟩ 0 ∧
      Raises s (.sysBkpt code) ⟨0, 9, 0, 0, (getRow s s.cur).pc, code.toNat⟩ 0) ∧
    ∀ w : BitVec 32, Raises s (.illegalInstruction w) ⟨0, 1, 0, 0, (getRow s s.cur).pc, 0⟩ 0

/-- R209: `sys.halt`, `sys.shoot`, `sys.gang` and `sys.swap` in an unprivileged row raise PERM at the instruction, before
anything else is looked at. -/
def Sys2Proof.Claims.PrivilegedInstructionsTrap : Prop :=
  ∀ s : State, Going s → (getRow s s.cur).priv = false →
    ∀ i : Instr, (i = .sysHalt ∨ (∃ d, i = .sysShoot d) ∨ (∃ d, i = .sysGang d) ∨ ∃ d, i = .sysSwap d) →
      Raises s i ⟨0, 6, 0, 0, (getRow s s.cur).pc, 0⟩ 0

/-- R158, R209, R210, R338: the instructions that trap, and the privileged ones in an unprivileged row. That FCAUSE.ACC is 0 for
these causes is the model's choice (log entry 9). -/
def Obligations.TrapsAndPrivilege : Prop := SoftwareTraps ∧ PrivilegedInstructionsTrap

/-- R52, R153, R193, R216: a register instruction with an empty source performs nothing. Without the source's trap bit the
row waits on that word, the lowest empty word of the first empty source in field order; with it EMPTY is raised, FVA the
word's address. -/
def Sys2Proof.Claims.EmptySourceBlocksOrTraps : Prop :=
  ∀ (s : State) (i : Instr) (xs : List Src), Going s → plainSrcs i = some xs →
    ∀ (w : Nat) (trap : Bool), firstEmpty s s.cur xs = some (w, trap) →
      if trap then Raises s i ⟨0, 2, 0, 0, rowVa s s.cur + wNat (8 * w), 0⟩ 0 else Blocks s i w

/-- R348: a register instruction whose sources are full but one of whose source words is poisoned raises MEMERR with SUB 0
at that word, and performs nothing. -/
def Sys2Proof.Claims.PoisonedSourceTraps : Prop :=
  ∀ (s : State) (i : Instr) (xs : List Src), Going s → plainSrcs i = some xs → firstEmpty s s.cur xs = none →
    ∀ w : Nat, firstPoison s s.cur xs = some w → Raises s i ⟨0, 12, 0, 0, rowVa s s.cur + wNat (8 * w), 0⟩ 0

/-- R52, R153, R348: a register instruction with an empty or a poisoned source. That FCAUSE.ACC is 0 for EMPTY and for the
MEMERR of a source is the model's choice (log entry 9). -/
def Obligations.SourcesBlockOrTrap : Prop := EmptySourceBlocksOrTraps ∧ PoisonedSourceTraps

/-- R48: under STEP a register instruction whose sources are full and sound retires, and the row is then STOPPED with
WHY 2 and no longer under STEP. -/
def Sys2Proof.Claims.StepStopsAfterOne : Prop :=
  ∀ (s : State) (i : Instr) (xs : List Src), (getRow s s.cur).st = .ready → (getRow s s.cur).stepping = true →
    (getRow s s.cur).pend = [] →
    plainSrcs i = some xs → ready s s.cur xs = true →
    ∃ t, exec i s = .next t ∧ Closed s t ∧ (getRow t s.cur).st = .stopped ∧ (getRow t s.cur).why = 2 ∧
      (getRow t s.cur).stepping = false ∧ (getRow t s.cur).retired = (getRow s s.cur).retired + 1

/-- R210, R342: `sys.uret` in the serving row retires, clears SERVING and stops the row with WHY 3; in any other row it
raises ILL. `sys.halt` in a privileged row retires and stops the row with WHY 3 once all its accesses are performed,
and marks it as having executed `sys.halt`, which the boot controller waits for (R391); until then it waits. `row.stop` (R255)
retires and stops the row with WHY 3. -/
def Sys2Proof.Claims.StoppingInstructions : Prop :=
  ∀ s : State, Going s →
    let w := { retiredRow (getRow s s.cur) 0 (after s 4) with st := .stopped, why := 3, waitw := 0, await := none }
    (∀ tb ta, ∃ t, exec (.rowStop tb ta) s = .next t ∧ Parked s t w) ∧
    ((getRow s s.cur).priv = true → sysDone s s.cur (partIx s s.cur.core) s.nextId = true → ∃ t, exec .sysHalt s = .next t ∧
      Parked s t { w with halted := true }) ∧
    ((getRow s s.cur).priv = true → sysDone s s.cur (partIx s s.cur.core) s.nextId = false → exec .sysHalt s = .next s) ∧
    (∀ p, partOf s s.cur.core = some p → Wbits (getPart s p).upcall 7 0 = s.cur.row →
      (getCore s s.cur.core).serving = true →
      ∃ t, exec .sysUret s = .next t ∧
        Parked (modCore s s.cur.core fun c => { c with serving := false }) t w) ∧
    ((getCore s s.cur.core).serving = false → Raises s .sysUret ⟨0, 1, 0, 0, (getRow s s.cur).pc, 0⟩ 0)

/-- The system registers that hold what a privileged row writes, with the bits they keep (R212, R26, R139, R363-R371,
R340-R355). -/
def Sys2Proof.Claims.SystemRegisterWrites : Prop :=
  ∀ (s : State) (num : BitVec 12) (d : Reg) (mask : Nat), Can s [srcX d false] →
    storeOrder s s.cur (partIx s s.cur.core) s.nextId = true →
    flightsOf s s.cur (partIx s s.cur.core) s.nextId = [] →
    RegisterMask num.toNat mask →
    ((getRow s s.cur).priv = true → ∃ t, exec (.sysSysw num d) s = .next t ∧
      sysRead t s.cur.core true num.toNat = getX s s.cur d &&& wNat mask ∧
      getRow t s.cur = retiredRow (getRow s s.cur) 0 (after s 4) ∧ t.mem = s.mem ∧
      ∀ k : Nat, k ≠ num.toNat → ¬ (num.toNat = 0x220 ∧ k = 0x221) → sysRead t s.cur.core true k = sysRead s s.cur.core true k) ∧
    ((getRow s s.cur).priv = false → OnlyMoves s (.sysSysw num d) (after s 4))

/-- R211, R212: `sys.sysr` sets D to the register's value; SY.CORE names the reading row's core, SY.DATE the date, and an
unprivileged row reads 0 from SY.ROOT and SY.ROWVA of a partition not its own. It waits for the row's own stores to the
register. -/
def Sys2Proof.Claims.SystemRegisterReads : Prop :=
  ∀ (s : State) (d : Reg), Going s → remoteBefore s s.cur = false →
    (∀ num : BitVec 12, sysBehind s s.cur num.toNat = true → exec (.sysSysr num d) s = .next s) ∧
    (∀ num : BitVec 12, sysBehind s s.cur num.toNat = false → WritesX s (.sysSysr num d) d (sysRead s s.cur.core (getRow s s.cur).priv num.toNat) 0 (after s 4)) ∧
    (sysBehind s s.cur 0 = false → WritesX s (.sysSysr 0 d) d
      (wNat (2 ^ 20 * (s.cur.core % 160 / 8) + 2 ^ 16 * (s.cur.core / 160) + s.cur.core)) 0 (after s 4)) ∧
    (sysBehind s s.cur 1 = false → WritesX s (.sysSysr 1 d) d (wNat s.pkg.date) 0 (after s 4)) ∧
    ∀ p < 64, (getRow s s.cur).priv = false → partOf s s.cur.core ≠ some p →
      (sysBehind s s.cur (0x140 + p) = false → WritesX s (.sysSysr (BitVec.ofNat 12 (0x140 + p)) d) d 0 0 (after s 4)) ∧
      (sysBehind s s.cur (0x180 + p) = false → WritesX s (.sysSysr (BitVec.ofNat 12 (0x180 + p)) d) d 0 0 (after s 4))

/-- R211, R212: system registers: writes with the bits kept, and reads. -/
def Obligations.SystemRegisters : Prop := SystemRegisterWrites ∧ SystemRegisterReads

/-- R133, R210, R255, R342: when a row stops. That the ILL of `sys.uret` has FCAUSE.ACC 0 is the model's choice (log entry 9).
What a row in single step stops after is said of register instructions only. -/
def Obligations.RowsStop : Prop := StepStopsAfterOne ∧ StoppingInstructions

/-! # Loads, stores, indexed accesses and atomics -/

/-- R234: while a word that an earlier `fe` load or non-posted atomic of the row has still to fill is empty, a memory
instruction waits on that word, before its own sources are looked at. -/
def Sys2Proof.Claims.EarlierFillHoldsMemory : Prop :=
  ∀ (s : State) (i : Instr) (xs : List Src) (w : Nat), Going s → memSrcs i = some xs →
    (getRow s s.cur).rel = none → holdWord s s.cur = some w → Blocks s i w

/-- R52, R153, R348: then an empty source blocks or raises EMPTY, and a poisoned one raises MEMERR, with no access made. -/
def Sys2Proof.Claims.MemorySourcesBlockOrTrap : Prop :=
  ∀ (s : State) (i : Instr) (xs : List Src), Going s → memSrcs i = some xs → holdWord s s.cur = none →
    (getRow s s.cur).rel = none → (getRow s s.cur).rstep = 0 →
    (∀ (w : Nat) (trap : Bool), firstEmpty s s.cur xs = some (w, trap) →
      if trap then Raises s i ⟨0, 2, 0, 0, rowVa s s.cur + wNat (8 * w), 0⟩ 0 else Blocks s i w) ∧
    (firstEmpty s s.cur xs = none → ∀ w : Nat, firstPoison s s.cur xs = some w →
      Raises s i ⟨0, 12, 0, 0, rowVa s s.cur + wNat (8 * w), 0⟩ 0)

/-- R52, R153, R234, R348: what comes before a memory instruction's access: the hold of an earlier fill, then its sources. -/
def Sys2Proof.Claims.MemoryHoldsAndSources : Prop := EarlierFillHoldsMemory ∧ MemorySourcesBlockOrTrap

/-- R38, R39, R237, R244: a load, store, atomic or release whose access fails a check takes that fault and nothing is
performed; the check looks at alignment before anything else. Where the check's walk waits for the host, the instruction waits. -/
def Sys2Proof.Claims.AccessFaults : Prop :=
  ∀ (s : State) (i : Instr) (xs : List Src) (acc : Acc) (p : Word) (n : Nat) (bad : Bool),
    memSrcs i = some xs → Issues s xs → (getRow s s.cur).rel = none → accessOf s i = some (acc, p, n, bad) →
    (∀ x, check s (ctxOf s s.cur) acc p n bad = .error x → Fails s i x 0) ∧
    (bad = true → Raises s i ⟨1, 3, 0, acc.code, p, 0⟩ 0)

/-- R54, R233, R236, R239: a load that is not to the row itself in every part is one request: its destination words are empty,
the instruction retires, and no byte of memory changes; `vld` also zeroes the bytes of D that it does not load. That L2REQ
counts one request for each part is the model's choice (log entries 25, 97). -/
def Obligations.RemoteLoadsIssue : Prop :=
  (∀ (s : State) (off : BitVec 10) (mo : BitVec 2) (sz : BitVec 3) (ta : Bool) (a d : Reg), Issues s [srcX a ta] →
    let n := (loadSize sz).1
    let p := ea s a off n
    ∀ ps, check s (ctxOf s s.cur) { rd := true, scalar := true } p n (feMode mo != 0 && p.toNat % min n 16 != 0) = .ok ps →
      ownRow s s.cur ps = false →
      ∃ t, exec (.ld off mo sz ta a d) s = .next t ∧
        IssuesLoad s t (feMode mo) (mo == 3) ps (if n = 16 then .pair d.toNat else .x d.toNat n (loadSize sz).2)
          (markable (if n = 16 then [xw d, xw d + 1] else [xw d])) (after s 4)) ∧
  (∀ (s : State) (off : BitVec 10) (mo : BitVec 2) (sz : BitVec 3) (ta : Bool) (a d : Reg), Issues s [srcX a ta] →
    sz.toNat ≤ 4 →
    let n := 128 / 2 ^ sz.toNat
    let p := ea s a off n
    ∀ ps, check s (ctxOf s s.cur) { rd := true } p n (feMode mo != 0 && p.toNat % min n 16 != 0) = .ok ps →
      ownRow s s.cur ps = false →
      ∃ u t, exec (.vld off mo sz ta a d) s = .next t ∧ ZeroesTail u t d.toNat n ∧
        IssuesLoad s u (feMode mo) (mo == 3) ps (.v d.toNat) (List.range' (vw d.toNat) (n / 8)) (after s 4)) ∧
  ∀ (s : State) (a d : Reg), Issues s [srcX a false] →
    ∀ n ps, check s (ctxOf s s.cur) { rd := true, scalar := true } (getX s s.cur a) n false = .ok ps →
      ownRow s s.cur ps = false → (n = 8 ∨ n = 4) →
      ∃ t, exec (if n = 8 then .hLd64 a d else .hLd32 a d) s = .next t ∧
        IssuesLoad s t 0 false ps (.x d.toNat n true) (markable [xw d]) (after s 2)

/-- R53, R87, R91, R233, R236, R239: a load of the row itself is performed in program order and written at retirement: once the
row's older remote loads, and its older accesses to these bytes that have left the FIFO, are performed; `fe` and `fe.take` block on the lowest empty word they touch. `u` is the state after
the read, which `fe.take` leaves with the words read empty. -/
def Sys2Proof.Claims.OwnRowLoads : Prop :=
  ∀ (s : State) (i : Instr) (n fe len : Nat) (acc : Acc) (p : Word) (bad : Bool) (ps : List Part),
    (∃ xs, memSrcs i = some xs ∧ Issues s xs) → accessOf s i = some (acc, p, n, bad) →
    check s (ctxOf s s.cur) acc p n bad = .ok ps → ownRow s s.cur ps = true →
    ∀ a d : Reg, ∀ put : List Byte → Word, ∀ wide : Bool,
    (i = .hLd64 a d ∧ fe = 0 ∧ len = 2 ∧ put = loaded 8 true ∧ wide = false) ∨
    (i = .hLd32 a d ∧ fe = 0 ∧ len = 2 ∧ put = loaded 4 true ∧ wide = false) ∨
    (∃ off mo sz ta, i = .ld off mo sz ta a d ∧ fe = feMode mo ∧ len = 4 ∧ put = loaded n (loadSize sz).2 ∧
      wide = decide (n = 16)) →
    let waits := remoteBefore s s.cur || ps.any (ownBefore s s.cur (partIx s s.cur.core) s.nextId)
    (waits = true → exec i s = .next s) ∧
    (waits = false →
      (∀ w ws, fe ≠ 0 → emptyOf s s.cur (ownWords s ps) = w :: ws → Blocks s i w) ∧
      (fe = 0 ∨ emptyOf s s.cur (ownWords s ps) = [] →
        ∀ bs u, readParts s s.cur (getRow s s.cur).priv fe false ps = (.ok bs, u) →
          ∃ t, exec i s = .next t ∧ Done u t (if wide then [xw d + 1, xw d] else [xw d]) 0 (after s len) ∧
            (wide = false → getX t s.cur d = xval d (put bs)) ∧
            (wide = true → getX t s.cur d = xval d (wNat (number bs 0 8)) ∧
              getW t s.cur (xw d + 1) = wNat (number bs 8 8))))

/-- R53, R87, R233, R239: a vector load of the row itself: once the same older accesses are performed, the bytes loaded, then
zeroes; `fe` and `fe.take` block on the lowest empty word they touch. -/
def Sys2Proof.Claims.OwnRowVectorLoads : Prop :=
  ∀ (s : State) (off : BitVec 10) (mo : BitVec 2) (sz : BitVec 3) (ta : Bool) (a d : Reg), Issues s [srcX a ta] →
    sz.toNat ≤ 4 →
    let n := 128 / 2 ^ sz.toNat
    let p := ea s a off n
    ∀ ps, check s (ctxOf s s.cur) { rd := true } p n (feMode mo != 0 && p.toNat % min n 16 != 0) = .ok ps →
      ownRow s s.cur ps = true →
      let waits := remoteBefore s s.cur || ps.any (ownBefore s s.cur (partIx s s.cur.core) s.nextId)
      (waits = true → exec (.vld off mo sz ta a d) s = .next s) ∧
      (waits = false → ∀ w ws, feMode mo ≠ 0 → emptyOf s s.cur (ownWords s ps) = w :: ws →
        Blocks s (.vld off mo sz ta a d) w) ∧
      (waits = false → feMode mo = 0 ∨ emptyOf s s.cur (ownWords s ps) = [] →
      ∀ bs u, readParts s s.cur (getRow s s.cur).priv (feMode mo) false ps = (.ok bs, u) →
        ∃ v t, exec (.vld off mo sz ta a d) s = .next t ∧ Done u v (List.range' (vw d.toNat) (n / 8)) 0 (after s 4) ∧
          ZeroesTail v t d.toNat n ∧ ∀ j < n, (getV t s.cur d.toNat).getD j 0 = bs.getD j 0)

/-- R53, R91, R233, R236, R239: loads of the row itself, scalar and vector. -/
def Obligations.OwnRowAccesses : Prop := OwnRowLoads ∧ OwnRowVectorLoads

/-- R50, R70, R87: a row reads its own stores: each byte of a load comes from the youngest of its older store entries that hold
that byte, else from where the load is performed; a byte of X0 comes from there, whatever was stored to it. -/
def Obligations.LoadsSeeOwnStores : Prop :=
  ∀ (s : State) (r : RowId) (part bound : Nat) (p : Part) (bs : List Byte),
    (forward s r part bound p bs).length = bs.length ∧
    ∀ k < bs.length, ∀ es : List StEnt, fifoOf s r part bound = es →
      let at_ := canonPa s p.pa + k
      let zero := ∃ q win off, region s at_ = .row q win off ∧ 0x100 ≤ off ∧ off < 0x108
      (zero → (forward s r part bound p bs).getD k 0 = bs.getD k 0) ∧
      let holds := fun e : StEnt => canonPa s e.part.pa ≤ at_ ∧ at_ < canonPa s e.part.pa + e.bytes.length
      (∀ older e younger, es = older ++ e :: younger → holds e → (∀ f ∈ younger, ¬ holds f) → ¬ zero →
        (forward s r part bound p bs).getD k 0 = e.bytes.getD (at_ - canonPa s e.part.pa) 0) ∧
      ((∀ e ∈ es, ¬ holds e) → (forward s r part bound p bs).getD k 0 = bs.getD k 0)

/-- R70, R117, R238, R239, R250: a store, and full/empty maintenance, retires when its parts are in the store FIFO; a store's
lines outside core apertures enter the signature; no other byte of memory changes. -/
def Sys2Proof.Claims.StoresEnterFifo : Prop :=
  (∀ (s : State) (off : BitVec 10) (mo : BitVec 2) (sz : BitVec 3) (ta : Bool) (a d : Reg),
    let n := 2 ^ sz.toNat
    let p := ea s a off n
    let bs := leBytes n ((getX s s.cur d).toNat + (if n = 16 then 2 ^ 64 * (getW s s.cur (xw d + 1)).toNat else 0))
    Issues s [if n = 16 then srcXX d ta else srcX d ta, srcX a ta] →
    ∀ ps, check s (ctxOf s s.cur) { wr := true, code := 1, scalar := true } p n (mo == 1 && p.toNat % min n 16 != 0) = .ok ps →
      ps.length ≤ room s →
      ∃ t, exec (.st off mo sz ta a d) s = .next t ∧
        Queued s t (entries s (if mo = 1 then .feSet else .plain) (mo == 2) 0 (sliced bs ps)) ps ps
          (retiredRow (getRow s s.cur) 0 (after s 4))) ∧
  (∀ (s : State) (off : BitVec 10) (mo : BitVec 2) (sz : BitVec 3) (ta : Bool) (a d : Reg),
    let n := 128 / 2 ^ sz.toNat
    let p := ea s a off n
    let bs := (getV s s.cur d.toNat).take n
    Issues s [srcV d.toNat ta, srcX a ta] →
    ∀ ps, check s (ctxOf s s.cur) { wr := true, code := 1 } p n (mo == 1 && p.toNat % min n 16 != 0) = .ok ps →
      ps.length ≤ room s →
      ∃ t, exec (.vst off mo sz ta a d) s = .next t ∧
        Queued s t (entries s (if mo = 1 then .feSet else .plain) (mo == 2) 0 (sliced bs ps)) ps ps
          (retiredRow (getRow s s.cur) 0 (after s 4))) ∧
  (∀ (s : State) (n : Nat) (a d : Reg), (n = 8 ∨ n = 4) → Issues s [srcX d false, srcX a false] →
    ∀ ps, check s (ctxOf s s.cur) { wr := true, code := 1, scalar := true } (getX s s.cur a) n false = .ok ps →
      ps.length ≤ room s →
      ∃ t, exec (if n = 8 then .hSt64 a d else .hSt32 a d) s = .next t ∧
        Queued s t (entries s .plain false 0 (sliced (leBytes n (getX s s.cur d).toNat) ps)) ps ps
          (retiredRow (getRow s s.cur) 0 (after s 2))) ∧
  ∀ (s : State) (set tb ta : Bool) (b a : Reg), Issues s [srcX a ta, srcX b tb] →
    let p := getX s s.cur a
    let n := (getX s s.cur b).toNat
    p.toNat % 8 = 0 → n % 8 = 0 → 8 ≤ n → n ≤ 128 → p.toNat % 0x1000 + n ≤ 0x1000 →
    ∀ ps, check s (ctxOf s s.cur) { wr := true, code := 1, bits := true } p n false = .ok ps →
      ps.length ≤ room s →
      ∃ t, exec (if set then .syncFeSet tb ta b a else .syncFeClr tb ta b a) s = .next t ∧
        Queued s t (entries s (if set then .bitsSet else .bitsClr) false 0 (sliced [] ps)) ps []
          (retiredRow (getRow s s.cur) 0 (after s 4))

/-- R70, R81: a store that finds too little room in the FIFO stays on its instruction in its slot; no entry is made. The cycles
that it stays so are counted as stalls of the core. -/
def Sys2Proof.Claims.FullFifoStalls : Prop :=
  ∀ (s : State) (i : Instr) (acc : Acc) (p : Word) (n : Nat) (bad : Bool) (ps : List Part),
    (∃ xs, memSrcs i = some xs ∧ Issues s xs) → accessOf s i = some (acc, p, n, bad) →
    (acc = { wr := true, code := 1, scalar := true } ∨ acc = { wr := true, code := 1 }) →
    check s (ctxOf s s.cur) acc p n bad = .ok ps → room s < ps.length →
    ∃ t, exec i s = .next t ∧ getRow t s.cur = { getRow s s.cur with stalled := true } ∧
      (∀ r, rkey r ≠ rkey s.cur → getRow t r = getRow s r) ∧ t = { s with rows := t.rows }

/-- R81: cycles that pass in the running position count as stalls while its row stands on a store that found the FIFO full. -/
def Sys2Proof.Claims.StallsCount : Prop :=
  ∀ (s : State) (core bank k n : Nat), (getBank s core bank).runSlot = some k →
    let r : RowId := ⟨core, ((getBank s core bank).slot k).row⟩
    let stat := fun (u : State) (j : Nat) => smGet 0 (getCore u core).stats j
    stat (charge s core bank n) 3 = stat s 3 + (if (getRow s r).stalled = true ∧ (getRow s r).rel = none then wNat n else 0)

/-- R70, R117, R238, R239, R250: stores enter the FIFO, or stall when it has too little room. That L2REQ and SENT count one
message for each part, and what FIFOSTALL counts, are the model's choices (log entries 25, 30, 97). -/
def Obligations.StoresQueueOrStall : Prop := StoresEnterFifo ∧ FullFifoStalls ∧ StallsCount

/-- R240-R242: gathers and strided loads, scatters and strided stores. That L2REQ and SENT count one message for each part (log
entries 25, 30, 97), and that RSTEP is k + 2 between the groups of lanes (log entry 7), are the model's choices. -/
def Obligations.IndexedAccesses : Prop :=
  Gather .vmemGather false ∧ Gather .vmemLds true ∧ Scatter .vmemScatter false ∧ Scatter .vmemSts true

/-- R243: the update-only reductions. -/
def Sys2Proof.Claims.UpdateOnlyReductions : Prop :=
  Reduction .vmemScatredAdd 8 ∧ Reduction .vmemScatredFadd 9 ∧ Reduction .vmemScatredMin 10 ∧
  Reduction .vmemScatredMax 11 ∧ Reduction .vmemScatredMinu 12 ∧ Reduction .vmemScatredMaxu 13 ∧
  Reduction .vmemScatredOr 14

/-- R71, R104: an update of an element is combined into the core's update-only line: the first is stored as it is, a later
one of the same operation and size is combined with the value held. Memory is unchanged. -/
def Sys2Proof.Claims.ReductionCacheCombines : Prop :=
  ∀ (s : State) (core : Nat) (who : Option RowId) (op sz : Nat) (rm : RMode) (p : Part) (v : Nat),
    let line := Wbits p.va 55 7
    let k := p.pa % 128 / sz
    (∀ i x, redFind (getCore s core) p.asid line = some i → (getCore s core).red[i]? = some x → x.op = op → x.sz = sz →
      let y := match smGet none x.elems k with
        | none => (v, 0)
        | some u => amoNew (redAmo op) sz rm u v 0
      (redUpdate s core who op sz rm p v).1 = y.2 ∧
      redUpdate s core who op sz rm p v = (y.2, modCore s core fun c =>
        { c with red := modNth (fun z => { z with elems := smPut z.elems k (some y.1) }) c.red i })) ∧
    (redFind (getCore s core) p.asid line = none → (getCore s core).red.length < 32 →
      redUpdate s core who op sz rm p v = (0, modCore s core fun c =>
        { c with red := c.red ++ [⟨p.asid, line, p.pa / 128 * 128, p.ca, p.g, p.tag, op, sz, [(k, some v)]⟩] }))

/-- R71, R104, R243: the update-only reductions, and what one update does to the core's reduction cache. -/
def Obligations.UpdateOnlyCopies : Prop := UpdateOnlyReductions ∧ ReductionCacheCombines

/-- R93, R245: an atomic issues once its scope's order holds (a posted one at once): one request, D empty unless it is
posted, its line in the signature. -/
def Sys2Proof.Claims.AtomicsIssue : Prop :=
  Atomic .amoAdd 0 ∧ Atomic .amoAnd 1 ∧ Atomic .amoOr 2 ∧ Atomic .amoXor 3 ∧ Atomic .amoMin 4 ∧ Atomic .amoMax 5 ∧
  Atomic .amoMinu 6 ∧ Atomic .amoMaxu 7 ∧ Atomic .amoSwap 8 ∧ Atomic .amoCas 9 ∧ Atomic .amoFadd 11

/-- R94, R245: an atomic on bytes of a row reads, computes and writes as one event: the value returned is the old one, and
the bytes hold the function of it; other bytes are unchanged. Addition and the logic wrap within the size. -/
def Sys2Proof.Claims.AtomicsReadModifyWrite : Prop :=
  ∀ (s : State) (who r : RowId) (win off fn : Nat) (b e : Word) (rm : RMode) (p : Part), region s p.pa = .row r win off →
    0x108 ≤ off → off + p.n ≤ 0x1000 → (p.n = 4 ∨ p.n = 8) → rowBusy s r (some who) = false →
    (∀ w ∈ rowWords off p.n, isEmpty s r w = false ∧ isPoison s r w = false) →
    let old := leNat (rowBytes s r off p.n)
    let new := amoNew fn p.n rm old (b.toNat % 2 ^ (8 * p.n)) (e.toNat % 2 ^ (8 * p.n))
    (atomicAt s who fn b e rm p).1 = .ok (rowBytes s r off p.n) ∧ (atomicAt s who fn b e rm p).2.1 = new.2 ∧
    leNat (rowBytes (atomicAt s who fn b e rm p).2.2 r off p.n) = new.1 % 2 ^ (8 * p.n) ∧
    (∀ a, (a < rowPa r off ∨ rowPa r off + p.n ≤ a) → memByte (atomicAt s who fn b e rm p).2.2 a = memByte s a) ∧
    (fn = 0 → new.1 = (old + b.toNat % 2 ^ (8 * p.n)) % 2 ^ (8 * p.n)) ∧ (fn = 8 → new.1 = b.toNat % 2 ^ (8 * p.n)) ∧
    (fn = 9 → new.1 = if old = e.toNat % 2 ^ (8 * p.n) then b.toNat % 2 ^ (8 * p.n) else old) ∧
    (fn = 10 → new.1 = (old + 2 ^ (8 * p.n) - 1) % 2 ^ (8 * p.n))

/-- R246, R251: `amo.dec.fire` issues the decrement of its cell when its scope's order holds and awaits the status at RSTEP 2;
on an empty word of the row itself it blocks. It retires when the status says that it is done; when its packet was refused, it
raises PACKET with RSTEP 2. The counts of L2REQ and SENT (log entries 25, 30, 97), ACC 0 of PACKET (log entry 9), and the count
of RSTEP (log entry 7) are the model's choices. -/
def Obligations.DecrementAndFire : Prop :=
  ∀ (s : State) (scope : BitVec 2) (tb ta : Bool) (a d : Reg), Going s →
    let i := Instr.amoDecFire scope tb ta a d
    ((getRow s s.cur).rstep < 2 → Issues s [srcX a ta] →
      scopeDone s s.cur (partIx s s.cur.core) scope.toNat s.nextId = true →
      ∀ ps, check s (ctxOf s s.cur) { rd := true, wr := true, code := 3, scalar := true, atomic := true } (getX s s.cur a) 8
          ((getX s s.cur a).toNat % 16 != 0) = .ok ps →
        (∀ w ws, ownRow s s.cur ps = true → emptyOf s s.cur (ownWords s ps) = w :: ws → Blocks s i w) ∧
        (ownRow s s.cur ps = false ∨ emptyOf s s.cur (ownWords s ps) = [] → ∃ t, exec i s = .next t ∧
          Issued s t (newReq s (.atomic 10 0 0 .rne false scope.toNat) ps (.x d.toNat 8 true) (markable [xw d])) ps
            (messages s (ps.take 1)) { getRow s s.cur with
              rstep := 2, work := wNat (s.nextId * 4 + 1), cell := getX s s.cur a, marked := [rowWord s.cur (xw d)] })) ∧
    ((getRow s s.cur).rstep = 2 → isEmpty s s.cur (xw d) = false → (getRow s s.cur).work.toNat % 4 = 2 → OnlyMoves s i (after s 4)) ∧
    ((getRow s s.cur).rstep = 2 → isEmpty s s.cur (xw d) = false → (getRow s s.cur).work.toNat % 4 = 3 →
      ∃ t, exec i s = .next (modRow t s.cur fun w => { w with work := 0 }) ∧
        Raised s t ⟨0, 11, 0, 0, (getRow s s.cur).cell, 0⟩ 2)

/-- R38-R42, R52, R233, R234: what stops a memory instruction before it issues. That the hold of R234 lasts until the older fill
is made (log entry 88), and that EMPTY has ACC 0 (log entry 9), are the model's choices. -/
def Obligations.MemoryInstructionsMayStop : Prop := MemoryHoldsAndSources ∧ AccessFaults

/-- R155, R243-R245: atomics, their issue and what they compute. That L2REQ and SENT count one message for each part is the
model's choice (log entries 25, 30, 97). -/
def Obligations.Atomics : Prop := AtomicsIssue ∧ AtomicsReadModifyWrite

/-! # Fences, release and acquire, range maintenance -/

/-- R93, R108, R248: a fence retires, changing nothing else but that the core's fetched code goes, when what it waits for is
over; until then it stays. `fence.u` merges every update-only line of the core. -/
def Sys2Proof.Claims.Fences : Prop :=
  ∀ (s : State) (tb ta : Bool), Issues s [] →
    let dropped : State := { s with ibuf := s.ibuf.filter fun b => b.core != s.cur.core }
    let fence := fun (i : Instr) (cond : Bool) =>
      (cond = true → ∃ t, exec i s = .next t ∧ Done dropped t [] 0 (after s 4)) ∧ (cond = false → exec i s = .next s)
    fence (.syncFenceDie tb ta) (dieDone s s.cur (partIx s s.cur.core) s.nextId) ∧
    fence (.syncFenceDev tb ta) (devDone s s.cur (partIx s s.cur.core) s.nextId) ∧
    fence (.syncFenceSys tb ta) (sysDone s s.cur (partIx s s.cur.core) s.nextId) ∧ fence (.syncFenceCp tb ta) (cpDone s s.cur) ∧
    ∃ t, exec (.syncFenceU tb ta) s = .next t ∧
      Done (mergeCore s s.cur.core (some s.cur)) t [] 0
        ((getRow (mergeCore s s.cur.core (some s.cur)) s.cur).pc + wNat 4) ∧
      ((getCore s s.cur.core).red.length ≤ 33 → (getCore t s.cur.core).red = [])

/-- R93: what a fence waits for grows with its scope: when `fence.sys` may retire so may `fence.dev`, and then `fence.die`. -/
def Sys2Proof.Claims.FenceScopesNest : Prop :=
  ∀ (s : State) (r : RowId) (k bound : Nat),
    (sysDone s r k bound = true → devDone s r k bound = true) ∧
    (devDone s r k bound = true → dieDone s r k bound = true) ∧
    (dieDone s r k bound = true ↔ ∀ e ∈ (getCore s r.core).fifo, e.row = r → e.owner = k → bound ≤ e.id)

/-- R93, R108, R248: fences, and how their scopes nest. That a fence drops the fetched code of the whole core is the model's
choice (log entry 57). -/
def Obligations.FencesWaitByScope : Prop := Fences ∧ FenceScopesNest

/-- R110, R113, R118, R119: `sync.rel` first merges its core's update-only lines. Once the row's accesses are done to its scope
and the Calendar may go on, it takes the next date, and with it, in one event, the object as it is to be written: the value, the
old floor and the signature of that moment; the signature is empty from then on and the floor is the date. At the next step the
object is written at its home and the row goes on; where its home has failed meanwhile, or a peer refuses it, nothing is written,
the row has its signature and its floor again, and it takes HOMELOST, PERM or ADDR at the pointer (R125, R374, R375). Between the two the row is at no boundary, and other
releases may be dated and written: that they are two steps is the model's choice (log entry 92). -/
def Sys2Proof.Claims.Releases : Prop :=
  (∀ (s : State) (tb ta : Bool) (b a : Reg), Issues s [srcX a ta, srcX b tb] → (getRow s s.cur).rel = none →
    ((getDie s 0).failed && dieOf s.cur.core == 1) = false →
    (∀ w, w = 10 ∨ (16 ≤ w ∧ w < 32) → isPoison s s.cur w = false) →
    ∀ ps, check s (ctxOf s s.cur) { wr := true, code := 1, obj := true } (getX s s.cur a) 256
        ((getX s s.cur a).toNat % 256 != 0) = .ok ps →
      let i := Instr.syncRel tb ta b a
      let m := mergeCore s s.cur.core (some s.cur)
      let n := nextDate m.pkg.date
      let go := scopeDone m s.cur (partIx m s.cur.core) (if outOfPackage s ps then 2 else 1) m.nextId && dateOk m
      (go = false → exec i s = .next m) ∧
      (go = true → ∃ t, exec i s = .next t ∧
        getRow t s.cur = { getRow m s.cur with
          sfloor := n, stalled := true,
          rel := some ⟨m.nextId, relObject m s.cur (getX m s.cur b) n, ps, rowBytes m s.cur 0x80 128, (getRow m s.cur).sfloor⟩ } ∧
        (∀ q, rkey q ≠ rkey s.cur → getRow t q = getRow m q) ∧
        (∀ k < 128, memByte t (rowPa s.cur (0x80 + k)) = 0) ∧
        (∀ x, (x < rowPa s.cur 0x80 ∨ rowPa s.cur 0x100 ≤ x) → memByte t x = memByte m x) ∧
        t = { m with mem := t.mem, rows := t.rows, nextId := m.nextId + 1, pkg := { m.pkg with
          date := n, frost := if n % 64 = 0 ∨ n < m.pkg.date then some ⟨n, []⟩ else m.pkg.frost } })) ∧
  ∀ (s : State) (tb ta : Bool) (b a : Reg) (x : Rel), (getRow s s.cur).st = .ready → (getRow s s.cur).stepping = false →
    (getRow s s.cur).pend = [] → (getRow s s.cur).rel = some x →
    let i := Instr.syncRel tb ta b a
    let u := modRow s s.cur fun y => { y with rel := none }
    let p := (x.parts.head?.map (·.va)).getD 0
    let refused := x.parts.head?.bind fun y => peerSays s (dieOf s.cur.core) y true
    let lost := x.parts.any fun y => lostFail s y.pa
    let back := fun (y : State) => y = { s with mem := y.mem, rows := y.rows } ∧
      getRow y s.cur = { getRow s s.cur with rel := none, sfloor := x.floor } ∧
      (∀ q, rkey q ≠ rkey s.cur → getRow y q = getRow s q) ∧
      (∀ j, (j < rowPa s.cur 0x80 ∨ rowPa s.cur 0x100 ≤ j) → memByte y j = memByte s j) ∧
      (x.sig.length = 128 → ∀ k < 128,
        memByte y (rowPa s.cur (0x80 + k)) = x.sig.getD k 0 ||| memByte s (rowPa s.cur (0x80 + k)))
    (lost = true → ∃ y t, exec i s = .next t ∧ back y ∧ Raised y t ⟨7, 13, 0, 1, p, 0⟩ 0) ∧
    (lost = false → ∀ hole, refused = some hole → ∃ y t, exec i s = .next t ∧ back y ∧
      Raised { y with peerNo := none } t ⟨0, if hole then 4 else 6, 0, 1, p, 0⟩ 0) ∧
    (lost = false → refused = none →
      let v := bump (writeObject u (dieOf s.cur.core) x.obj x.parts) s.cur.core 4 x.parts.length
      ∃ t, exec i s = .next t ∧ Done v t [] 0 ((getRow v s.cur).pc + wNat 4))

/-- R110, R113: the 256 bytes of a sync object: value, date, the releaser's floor, identity, zeroes, signature; and the date
after a date: it counts up and 1 follows the last. -/
def Sys2Proof.Claims.SyncObjectLayout : Prop :=
  (∀ (s : State) (r : RowId) (v : Word) (date : Nat), date < 2 ^ 32 → (getRow s r).sfloor < 2 ^ 32 → r.core < 320 →
    let o := relObject s r v date
    let field := fun (off n : Nat) => leNat ((o.drop off).take n)
    o.length = 256 ∧ field 0 8 = v.toNat ∧ field 8 4 = date ∧ field 12 4 = (getRow s r).sfloor ∧
    field 16 4 = 2 ^ 16 * (s.pkg.devidx.toNat % 256) + r.core / 160 ∧ field 20 108 = 0 ∧ o.drop 128 = rowBytes s r 0x80 128) ∧
  ∀ d < 2 ^ 32, nextDate d = if d = 2 ^ 32 - 1 then 1 else d + 1

/-- R110, R113, R118: release, the object it writes, and the date after a date. -/
def Obligations.ReleasesWriteObjects : Prop := Releases ∧ SyncObjectLayout

/-- R120: `sync.acq`. Step 1 reads the object at its home; an object never released gives D its value and retires; else D gets
the value, a pass begins, and the row stays at step 2: for the releaser's own device over the slices of the row's die, with the
object's signature added to its own and the older floor kept; for another identity over the lines that it homes, on the die of
the row and for a row of die 1 on die 0 too (R122), with every bit of the signature set. Step 2 retires when its passes are
over, and waits until then. That step 2 drops the fetched code of the whole core (log entry 57), and the count of RSTEP (log
entry 7), are the model's choices. -/
def Obligations.Acquires : Prop :=
  ∀ (s : State) (tb ta : Bool) (a d : Reg), Going s →
    (Issues s [srcX a ta] → (getRow s s.cur).rstep < 2 →
      ((getDie s 0).failed && dieOf s.cur.core == 1) = false →
      ∀ ps, check s (ctxOf s s.cur) { rd := true, obj := true } (getX s s.cur a) 256 ((getX s s.cur a).toNat % 256 != 0) = .ok ps →
      (acqWait s s.cur ps = true → exec (.syncAcq tb ta a d) s = .next s) ∧
      (acqWait s s.cur ps = false → ∀ o x, readObject s (dieOf s.cur.core) ps = (.ok o, x) →
        let u := bump x s.cur.core 4 ps.length
        let v : Word := wNat (leNat (o.take 8))
        let date := leNat ((o.drop 8).take 4)
        let floor := leNat ((o.drop 12).take 4)
        let old := (getRow u s.cur).sfloor
        (date = 0 → ∃ t, exec (.syncAcq tb ta a d) s = .next t ∧
          Done u t [xw d] 0 ((getRow u s.cur).pc + wNat 4) ∧ getX t s.cur d = xval d v) ∧
        (date ≠ 0 → (∀ w, w = 10 ∨ (16 ≤ w ∧ w < 32) → isPoison (setX u s.cur d v) s.cur w = false) →
          ∃ t, exec (.syncAcq tb ta a d) s = .next t ∧ getX t s.cur d = xval d v ∧
          (getRow t s.cur).rstep = 2 ∧ (getRow t s.cur).work = wNat (u.nextId + 1) ∧ t.nextId = u.nextId + 1 ∧
          (∀ q, rkey q ≠ rkey s.cur → getRow t q = getRow u q) ∧
          t = { u with mem := t.mem, empt := t.empt, poison := t.poison, rows := t.rows, passes := t.passes, nextId := t.nextId } ∧
          (identKind u (leNat ((o.drop 16).take 4)) date = none →
            (getRow t s.cur).sfloor = (if (2 ^ 32 + u.pkg.date - floor) % 2 ^ 32 > (2 ^ 32 + u.pkg.date - old) % 2 ^ 32
              then floor else old) ∧
            (∀ k < 128, memByte t (rowPa s.cur (0x80 + k)) =
              memByte u (rowPa s.cur (0x80 + k)) ||| ((o.drop 128).take 128).getD k 0) ∧
            t.passes = u.passes ++ [⟨u.nextId, s.cur, dieOf s.cur.core, asidOf u s.cur.core, true, date, floor,
              (o.drop 128).take 128, 0, []⟩]) ∧
          (∀ who, identKind u (leNat ((o.drop 16).take 4)) date = some who →
            (∀ k < 128, memByte t (rowPa s.cur (0x80 + k)) = 0xFF#8) ∧ (getRow t s.cur).sfloor = old ∧
            let pass : Pass := ⟨u.nextId, s.cur, dieOf s.cur.core, asidOf u s.cur.core, false, 0, 0, [], who, []⟩
            t.passes = u.passes ++ pass ::
              (if dieOf s.cur.core = 0 then [] else [{ pass with die := 0, asid := noAsid }]))))) ∧
    (2 ≤ (getRow s s.cur).rstep →
      ((∃ p ∈ s.passes, wNat (p.id + 1) = (getRow s s.cur).work) → exec (.syncAcq tb ta a d) s = .next s) ∧
      ((∀ p ∈ s.passes, wNat (p.id + 1) ≠ (getRow s s.cur).work) → ∃ t, exec (.syncAcq tb ta a d) s = .next t ∧
        Done { s with ibuf := s.ibuf.filter fun b => b.core != s.cur.core } t [] 0 (after s 4)))

/-- R79, R80, R249: a range instruction on no bytes only moves on; else each step checks one page, waits on its step, doing
nothing, for the row's own stores to it, merges and maintains the lines of the page, and the last page retires. -/
def Sys2Proof.Claims.RangeMaintenance : Prop :=
  ∀ (s : State) (m : Maint) (tb ta : Bool) (b a : Reg), Issues s [srcX a ta, srcX b tb] →
    let i := match m with
      | .cln => Instr.syncClnRange tb ta b a
      | .inv => .syncInvRange tb ta b a
      | .fln => .syncFlnRange tb ta b a
    let p := getX s s.cur a
    let n := (getX s s.cur b).toNat
    let k := (getRow s s.cur).rstep - 1
    let off := (rangePage p n k).1
    let len := (rangePage p n k).2
    (n = 0 → OnlyMoves s i (after s 4)) ∧
    (n ≠ 0 → canonFail p n = none → off < n →
      ∀ ps, check s (ctxOf s s.cur) { rd := m == .cln, wr := m != .cln, code := if m = .cln then 0 else 1, maint := true }
          (bytePtr p off) len false = .ok ps →
        (pageStoresDone s s.cur ps = false → exec i s = .next (modRow s s.cur fun w => { w with rstep := k + 1 })) ∧
        (pageStoresDone s s.cur ps = true →
        let asid := asidOf s s.cur.core
        let first := Wbits (bytePtr p off) 55 7
        let last := Wbits (bytePtr p (off + len - 1)) 55 7
        let u := bump (maintain (mergeWhere s s.cur.core (some s.cur) (fun x => x.asid == asid &&
          decide (first ≤ x.line) && decide (x.line ≤ last)) 33) m ps) s.cur.core 4 (last - first + 1)
        ∃ t, exec i s = .next t ∧
          (n ≤ off + len → Done u t [] 0 ((getRow u s.cur).pc + wNat 4)) ∧
          (off + len < n → getRow t s.cur = { getRow u s.cur with rstep := k + 2 } ∧ t = { u with rows := t.rows } ∧
            ∀ q, rkey q ≠ rkey s.cur → getRow t q = getRow u q)))

/-- R79: after maintenance of lines `first` to `last` of an ASID, no copy of theirs is dirty; after an invalidation or a
flush there is none; copies of other lines are as before. -/
def Sys2Proof.Claims.MaintenanceReachesEveryCopy : Prop :=
  ∀ (s : State) (m : Maint) (p q : Part), p.g = false → (region s p.pa = .gddr ∨ region s p.pa = .host) →
    let hit := fun x : Line => !x.phys && x.asid == p.asid && decide (lineL p ≤ x.line) && decide (x.line ≤ lineL q)
    let t := maintain s m [p, q]
    (m = .cln → ∀ x ∈ t.l2, hit x = true → x.dirty = false) ∧
    (m ≠ .cln → ∀ x ∈ t.l2, hit x = false) ∧
    (∀ x, hit x = false → (x ∈ t.l2 ↔ x ∈ s.l2)) ∧ (m = .inv → t.mem = s.mem)

/-- R79, R80, R249: range maintenance, and that it reaches every copy of its lines. The count of RSTEP is the model's choice
(log entry 7). -/
def Obligations.RangesReachEveryCopy : Prop := RangeMaintenance ∧ MaintenanceReachesEveryCopy
/-! # Rows, packets, barriers and deques -/

/-- R255, R256, R332: `row.yield` retires, and gives the running position up when another row of its bank is READY with an
equal or higher class; `row.wait` waits with WHY 6 when the first scratch word equals A, else goes on; `row.rowid` gives the
row's address through window 0; `row.budget` exchanges BUDGET with A; poison in BUDGET faults the row
(R348). -/
def Obligations.RowInstructions : Prop :=
  ∀ s : State, Going s →
    (∀ (i : Instr) (n : Nat), (∃ tb ta, i = .rowYield tb ta ∧ n = 4) ∨ (i = .hYield ∧ n = 2) →
      (rivalReady s s.cur = false → OnlyMoves s i (after s n)) ∧
      (rivalReady s s.cur = true → ∃ t, exec i s = .next t ∧ getRow t s.cur = retiredRow (getRow s s.cur) 0 (after s n) ∧
        (∀ k < 2, slotOf s s.cur = some k → ((getBank s s.cur.core (s.cur.row % 4)).slot k).st = .running →
          ((getBank t s.cur.core (s.cur.row % 4)).slot k).st = .closing ∧
          (((getBank s s.cur.core (s.cur.row % 4)).slot (1 - k)).st = .opn →
            ((getBank t s.cur.core (s.cur.row % 4)).slot (1 - k)).st = .running)) ∧
        (∀ q, rkey q ≠ rkey s.cur → getRow t q = getRow s q) ∧
        (∀ c, getCore t c = { getCore s c with banks := (getCore t c).banks, stats := (getCore t c).stats }) ∧
        t = { s with rows := t.rows, cores := t.cores })) ∧
    (∀ (tb ta : Bool) (a : Reg), ready s s.cur [srcX a ta] = true → isPoison s s.cur 12 = false →
      ((getRow s s.cur).scratch0 = getX s s.cur a → ∃ t, exec (.rowWait tb ta a) s = .next t ∧
        Parked s t { retiredRow (getRow s s.cur) 0 (after s 4) with st := .waiting, why := 6, waitw := 0, await := none }) ∧
      ((getRow s s.cur).scratch0 ≠ getX s s.cur a → OnlyMoves s (.rowWait tb ta a) (after s 4))) ∧
    (∀ (tb ta : Bool) (d : Reg) (p : Nat), partOf s s.cur.core = some p →
      WritesX s (.rowRowid tb ta d) d
        (wNat ((getPart s p).rowva.toNat / 2 ^ 24 * 2 ^ 24 + 2 ^ 24 * s.cur.core + 2 ^ 12 * s.cur.row)) 0 (after s 4)) ∧
    ∀ (tb ta : Bool) (a d : Reg), ready s s.cur [srcX a ta] = true →
      (isPoison s s.cur 8 = false → ∃ t, exec (.rowBudget tb ta a d) s = .next t ∧
        Done (modRow s s.cur fun w => { w with budget := getX s s.cur a }) t [xw d] 0 (after s 4) ∧
        getX t s.cur d = xval d (getRow s s.cur).budget) ∧
      (isPoison s s.cur 8 = true → Raises s (.rowBudget tb ta a d) ⟨0, 12, 0, 0, rowVa s s.cur + wNat 64, 0⟩ 0)

/-- R257-R259: `row.send` reads the packet at A and `row.spawn` makes one of A and B; a well-formed one is issued, D empty
until the status is back; a packet to a core of the row's own die waits only for the row's own stores, another for its
accesses to device scope; an ill-formed packet gives D status 1. -/
def Obligations.PacketsAreSent : Prop :=
  (∀ (s : State) (tb ta : Bool) (b a d : Reg), Can s [srcX a ta, srcX b tb] →
    let h := getX s s.cur a
    let ws := [h, getX s s.cur b, 0, 0]
    let ok := wellFormed s (partOf s s.cur.core) ws && Wbits h 2 0 == 0 && Wbits h 5 3 == 0
    let fence := if Wbits h 24 16 ≠ 0x1FF ∧ Wbits h 24 16 / 160 = s.cur.core / 160 then 0 else 1
    (ok = true → ∃ t, exec (.rowSpawn tb ta b a d) s = .next t ∧
      Issued s t (newReq s (.send ws fence) [⟨0, rowPa s.cur 0, 0, 0, asidOf s s.cur.core, 0, false, false, 1, 0⟩] (.x d.toNat 8 false)
        (markable [xw d])) [] 0 (retiredRow (getRow s s.cur) 0 (after s 4))) ∧
    (ok = false → WritesX s (.rowSpawn tb ta b a d) d 1 0 (after s 4))) ∧
  ∀ (s : State) (tb ta : Bool) (a d : Reg), Can s [srcX a ta] → remoteBefore s s.cur = false →
    let p := getX s s.cur a
    let priv := (getRow s s.cur).priv
    ∀ hs hb u ps bs x, check s (ctxOf s s.cur) { rd := true, scalar := true } p 8 (p.toNat % 32 != 0) = .ok hs →
      readParts s s.cur priv 0 false hs = (.ok hb, u) →
      let len := 32 * (Wbits (wNat (leNat hb)) 2 0 + 1)
      check u (ctxOf u s.cur) { rd := true } p len false = .ok ps →
      readParts u s.cur priv 0 false ps = (.ok bs, x) →
      let v := dropAnswers x (rowAsker s s.cur)
      let ws := wordsOf bs (len / 8)
      let ok := wellFormed x (partOf x s.cur.core) ws && decide (32 * (Wbits (ws.getD 0 0) 2 0 + 1) = len)
      let core := Wbits (ws.getD 0 0) 24 16
      let fence := if core ≠ 0x1FF ∧ core / 160 = s.cur.core / 160 then 0 else 1
      let next := (getRow v s.cur).pc + wNat 4
      (ok = true → ∃ t, exec (.rowSend tb ta a d) s = .next t ∧
        Issued v t (newReq v (.send ws fence) [⟨0, rowPa s.cur 0, 0, 0, asidOf v s.cur.core, 0, false, false, 1, 0⟩] (.x d.toNat 8 false)
          (markable [xw d])) [] 0 (retiredRow (getRow v s.cur) 0 next)) ∧
      (ok = false → ∃ t, exec (.rowSend tb ta a d) s = .next t ∧ Done v t [xw d] 0 next ∧ getX t s.cur d = xval d 1)

/-- R260: `row.done` decrements the counter cell of each handle of the row's task in turn, as `amo.dec.fire` at device scope;
after the last (at once, in a row that runs no task) TASK is no longer valid and the row stops with WHY 9. The counts of L2REQ
and SENT (log entries 25, 30, 97), and of RSTEP (log entry 7), are the model's choices. -/
def Obligations.TasksComplete : Prop :=
  ∀ (s : State) (tb ta : Bool), Going s → isPoison s s.cur 9 = false → isPoison s s.cur 0x150 = false →
    let w := getRow s s.cur
    let n := if w.task.getLsbD 7 then Wbits (getW s s.cur 0x150) 5 3 else 0
    let k := (w.rstep - 1) / 2
    let handle := getW s s.cur (0x152 + k)
    n ≤ 4 →
    (n ≤ k → ∃ t, exec (.rowDone tb ta) s = .next t ∧
      Parked s t { retiredRow { w with task := w.task &&& ~~~0x80#64 } 0 (after s 4) with
        st := .stopped, why := 9, waitw := 0, await := none }) ∧
    (k < n → w.rstep = 0 ∨ w.rstep = 2 * k + 1 → isPoison s s.cur (0x152 + k) = false →
      scopeDone s s.cur (partIx s s.cur.core) 1 s.nextId = true →
      ∀ ps, check s (ctxOf s s.cur) { rd := true, wr := true, code := 3, scalar := true, atomic := true } handle 8
          (handle.toNat % 16 != 0) = .ok ps →
        ownRow s s.cur ps = false ∨ emptyOf s s.cur (ownWords s ps) = [] →
        ∃ t, exec (.rowDone tb ta) s = .next t ∧ Issued s t (newReq s (.atomic 10 0 0 .rne false 1) ps .none []) ps
          (messages s (ps.take 1))
          { w with rstep := 2 * k + 2, work := wNat (s.nextId * 4 + 1), cell := handle, marked := [] }) ∧
    (k < n → w.rstep = 2 * k + 2 → isPoison s s.cur (0x152 + k) = false → w.work.toNat % 4 = 2 →
      exec (.rowDone tb ta) s = .next (modRow s s.cur fun x => { x with rstep := 2 * k + 3, work := 0 }))

/-- R261-R263: `row.bar.init` sets the own core's barrier as one event, and with the phase goes what was noted of its arrivals; `row.bar.arrive` sends an arrival; `row.bar.wait`
waits with WHY 7 while the phase has not come; `row.bar.sync` arrives, puts the result into D, and goes on when its phase has
come. -/
def Sys2Proof.Claims.BarrierInstructions : Prop :=
  (∀ (s : State) (tb ta : Bool) (b a : Reg), Can s [srcX a ta, srcX b tb] →
    let c := (getX s s.cur b).toNat
    (c = 0 ∨ 65535 < c → Raises s (.rowBarInit tb ta b a) ⟨0, 1, 0, 0, (getRow s s.cur).pc, 0⟩ 0) ∧
    (1 ≤ c → c ≤ 65535 → ∀ core k ps, barCheck s s.cur { wr := true, code := 1 } true (getX s s.cur a) = .ok (core, k, ps) →
      ∃ t, exec (.rowBarInit tb ta b a) s = .next t ∧
        Done (barReplace s core k ⟨true, false, 0, c⟩) t [] 0 (after s 4) ∧
        (∀ y ∈ t.steer, ¬ (y.core = core ∧ y.bar = k)) ∧
        smGet {} (getCore t core).bars k = (⟨true, false, 0, c⟩ : Bar))) ∧
  (∀ (s : State) (tb ta : Bool) (a d : Reg), Can s [srcX a ta] →
    ∀ core k ps, barCheck s s.cur { rd := true, wr := true, code := 3 } false (getX s s.cur a) = .ok (core, k, ps) →
      ∃ t, exec (.rowBarArrive tb ta a d) s = .next t ∧
        Issued s t (newReq s (.arrive core k) (ps.take 1) (.x d.toNat 8 false) (markable [xw d])) []
          (if s.cur.core = core then 0 else 1) (retiredRow (getRow s s.cur) 0 (after s 4))) ∧
  (∀ (s : State) (tb ta : Bool) (b a : Reg), Can s [srcX a ta, srcX b tb] →
    ∀ core k ps, barCheck s s.cur { rd := true } true (getX s s.cur a) = .ok (core, k, ps) →
      let x : Bar := smGet {} (getCore s core).bars k
      let ph := (getX s s.cur b).getLsbD 0
      (x.valid = true → x.ph ≠ ph → ∃ t, exec (.rowBarWait tb ta b a) s = .next t ∧
        Parked s t { retiredRow (getRow s s.cur) 0 (after s 4) with st := .waiting, why := 7, waitw := 0, await := some (k, ph) }) ∧
      (x.valid = false ∨ x.ph = ph → OnlyMoves s (.rowBarWait tb ta b a) (after s 4))) ∧
  ∀ (s : State) (tb ta : Bool) (a d : Reg), Can s [srcX a ta] →
    let w := getRow s s.cur
    let p := if w.rstep = 2 ∧ a = d then w.cell else getX s s.cur a
    ∀ core k ps, barCheck s s.cur { rd := true, wr := true, code := 3 } true p = .ok (core, k, ps) →
      (w.rstep < 2 → storeOrder s s.cur (partIx s s.cur.core) s.nextId = false → exec (.rowBarSync tb ta a d) s = .next s) ∧
      (w.rstep < 2 → storeOrder s s.cur (partIx s s.cur.core) s.nextId = true → ∃ t, exec (.rowBarSync tb ta a d) s = .next t ∧
        getX t s.cur d = xval d (wNat (arriveBy s s.cur core k).1) ∧
        getRow t s.cur = { getRow (arriveBy s s.cur core k).2 s.cur with rstep := 2, work := 0, cell := p } ∧
        ∀ c, getCore t c = getCore (arriveBy s s.cur core k).2 c) ∧
      (w.rstep = 2 → isPoison s s.cur (xw d) = false →
        let x : Bar := smGet {} (getCore s core).bars k
        let v := getX s s.cur d
        (w.work = 0 → v.getLsbD 1 = false → x.valid = true → x.ph ≠ v.getLsbD 0 → ∃ t, exec (.rowBarSync tb ta a d) s = .next t ∧
          Parked s t { w with st := .waiting, why := 7, waitw := 0, await := some (k, v.getLsbD 0) }) ∧
        (w.work ≠ 0 ∨ v.getLsbD 1 = true ∨ x.valid = false ∨ x.ph = v.getLsbD 0 →
          OnlyMoves s (.rowBarSync tb ta a d) (after s 4)))

/-- R261, R262: an arrival at a valid barrier answers the phase in force after the present one; the last of the phase
restarts the count, turns the phase over and wakes the rows that wait for it, in a gang-stopped partition at the release; an arrival at an invalid barrier answers 2 and
does nothing. -/
def Sys2Proof.Claims.BarrierArrivals : Prop :=
  (∀ (s : State) (core k : Nat),
    let b : Bar := smGet {} (getCore s core).bars k
    let after : Bar := if b.expect ≤ b.arrived + 1 then { b with arrived := 0, ph := !b.ph } else { b with arrived := b.arrived + 1 }
    (b.valid = false → arrive s core k = (2, s)) ∧
    (b.valid = true → (arrive s core k).1 = (if b.ph then 0 else 1) ∧
      smGet {} (getCore (arrive s core k).2 core).bars k = after)) ∧
  ∀ (s : State) (core k : Nat) (v : Bar) (q : RowId), q.core = core → q.row < 256 →
    let w := getRow s q
    let t := barSet s core k v
    (w.st = .waiting → w.why = 7 → w.await = some (k, v.ph) →
      (coreHalted s core = false → (getRow t q).st = .ready ∧ (getRow t q).why = 0 ∧ (getRow t q).pc = w.pc) ∧
      (coreHalted s core = true → getRow t q = { w with resolved := true, work := if w.rstep = 2 then 1 else w.work })) ∧
    (w.st ≠ .waiting ∨ w.why ≠ 7 ∨ w.await ≠ some (k, v.ph) → getRow t q = w)

/-- R265-R268: the deque instructions. A push or a split waits on its instruction, doing nothing, for the row's earlier stores;
a pop takes the bottom entry; a steal goes over the victims of its partition in order and takes the upper half of the first top
entry it finds; D receives the range, and D + 1 the core, the source and the tag. The count of RSTEP between the steps of a
steal is the model's choice (log entry 7). -/
def Obligations.DequeInstructions : Prop :=
  ∀ s : State, Going s →
    let r := s.cur
    let q := (getCore s r.core).dq
    let setDq := fun (core : Nat) (v : Deque) => modCore s core fun c => { c with dq := v }
    let pair := fun (base : State) (i : Instr) (dp : BitVec 4) (hi lo src core tag : Nat) =>
      let d : Reg := 2 * dp.setWidth 5
      ∃ t, exec i s = .next t ∧ Done base t [xw (d + 1), xw d] 0 (after s 4) ∧
        getX t r d = xval d (wNat (2 ^ 32 * hi + lo)) ∧ getX t r (d + 1) = wNat (2 ^ 32 * core + 2 ^ 16 * src + tag)
    (∀ (tb ta : Bool) (b a d : Reg), ready s r [srcX a ta, srcX b tb] = true →
      let lo := Wbits (getX s r a) 31 0
      let hi := Wbits (getX s r a) 63 32
      let tag := Wbits (getX s r b) 15 0
      (hi ≤ lo → WritesX s (.rowDqPush tb ta b a d) d 2 0 (after s 4)) ∧
      (lo < hi → q.count = 64 → WritesX s (.rowDqPush tb ta b a d) d 1 0 (after s 4)) ∧
      (lo < hi → q.count ≠ 64 → storeOrder s r (partIx s r.core) s.nextId = true → ∃ t, exec (.rowDqPush tb ta b a d) s = .next t ∧
        Done (setDq r.core { q with ents := smSet {} q.ents (q.bottom % 64) ⟨hi, lo, tag⟩, bottom := (q.bottom + 1) % 2 ^ 32 })
          t [xw d] 0 (after s 4) ∧ getX t r d = 0) ∧
      (lo < hi → q.count ≠ 64 → storeOrder s r (partIx s r.core) s.nextId = false → exec (.rowDqPush tb ta b a d) s = .next s) ∧
      (lo + 1 < hi → q.count < 64 → storeOrder s r (partIx s r.core) s.nextId = false →
        exec (.rowDqSplit tb ta b a d) s = .next s) ∧
      (¬ (lo + 1 < hi ∧ q.count < 64) → WritesX s (.rowDqSplit tb ta b a d) d (getX s r a) 0 (after s 4)) ∧
      (lo + 1 < hi → q.count < 64 → storeOrder s r (partIx s r.core) s.nextId = true →
        let m := lo + (hi - lo) / 2
        ∃ t, exec (.rowDqSplit tb ta b a d) s = .next t ∧
          Done (setDq r.core { q with ents := smSet {} q.ents (q.bottom % 64) ⟨hi, m, tag⟩, bottom := (q.bottom + 1) % 2 ^ 32 })
            t [xw d] 0 (after s 4) ∧ getX t r d = xval d (wNat (2 ^ 32 * m + lo)))) ∧
    (∀ (tb ta : Bool) (dp : BitVec 4), (getRow s r).rstep = 0 →
      let b := (2 ^ 32 + q.bottom - 1) % 2 ^ 32
      let e : DqEnt := smGet {} q.ents (b % 64)
      (q.count ≠ 0 → pair (setDq r.core { q with bottom := b }) (.rowDqPop tb ta dp) dp e.hi e.lo 0 r.core e.tag) ∧
      (q.count = 0 → q.popsteal = false → pair s (.rowDqPop tb ta dp) dp 0 0 2 0 0)) ∧
    (∀ (i : Instr) (dp : BitVec 4), (∃ tb ta, i = .rowDqSteal tb ta dp ∨
        (i = .rowDqPop tb ta dp ∧ ((getRow s r).rstep ≠ 0 ∨ (q.count = 0 ∧ q.popsteal = true)))) →
      let j := max 1 (getRow s r).rstep
      let v := victim r.core j
      let x := (getCore s v).dq
      let e : DqEnt := smGet {} x.ents (x.top % 64)
      let take := (e.hi - e.lo + 1) / 2
      let may := j ≤ 159 ∧ partOf s v = partOf s r.core ∧ (partOf s r.core).isSome ∧ x.victim = true ∧ x.count ≠ 0
      (may → pair (setDq v (if take = e.hi - e.lo then { x with top := (x.top + 1) % 2 ^ 32 }
          else { x with ents := smSet {} x.ents (x.top % 64) { e with hi := e.hi - take } })) i dp e.hi (e.hi - take) 1 v e.tag) ∧
      (¬ may → j < 159 → exec i s = .next (modRow s r fun w => { w with rstep := j + 1 })) ∧
      (¬ may → 159 ≤ j → pair s i dp 0 0 2 0 0)) ∧
    ∀ (tb ta : Bool) (d : Reg), WritesX s (.rowDqLen tb ta d) d (wNat ((2 ^ 32 + q.bottom - q.top) % 2 ^ 32)) 0 (after s 4)

/-- R261-R264: barriers, their instructions and their arrivals. That a count out of range raises ILL before the pointer ALIGN
(log entry 31), the counts of messages (log entries 25, 30, 97), the count of RSTEP (log entry 7), and ACC 0 of ILL (log entry
9), are the model's choices. -/
def Obligations.Barriers : Prop := BarrierInstructions ∧ BarrierArrivals

/-! # Copies, engines and the privileged instructions -/

/-- R73-R77, R269, R270: the copy instructions. No bytes: nothing moves. A destination in a core aperture with a pointer or
length that is no multiple of 8 raises ALIGN. Else each step checks one piece on both sides, marks the row-store words it will
write empty, and hands it to the cluster's copy engine, or to the distributor of the memory's die; the last piece retires. A
full copy engine, or a shootdown of the row's ASID under way, makes the row stay. A distributor block with a piece that may not
be there raises ALIGN or PERM before any piece of it is handed over. That the destination's ALIGN comes before the checks of the
source, with the piece's FVA (log entry 73), RSTEP in a block that fails (log entry 94), the count of RSTEP (log entry 7), and
ACC 0 of ILL (log entry 9), are the model's choices. -/
def Obligations.CopiesAreHandedOver : Prop :=
  (∀ (s : State) (tb ta : Bool) (b a d : Reg), Issues s [srcX d ta, srcX a ta, srcX b tb] →
    let w := getRow s s.cur
    let cl := s.cur.core / 8
    let src := getX s s.cur a
    let dst := getX s s.cur d
    let n := (getX s s.cur b).toNat
    let k := w.rstep - 1
    let i := cutStart src dst k
    let len := min n (cutStart src dst (k + 1)) - i
    let all8 := src.toNat % 8 == 0 && dst.toNat % 8 == 0 && n % 8 == 0
    let odd := match barTarget s s.cur (bytePtr dst i) with
      | some (.row _ _ _) => dst.toNat % 8 != 0 || n % 8 != 0
      | some (.ctl _ _) => dst.toNat % 8 != 0 || n % 8 != 0
      | _ => false
    (2 ^ 32 ≤ n → Raises s (.engineCpLin tb ta b a d) ⟨0, 1, 0, 0, w.pc, 0⟩ 0) ∧
    (n < 2 ^ 32 → n ≤ i → OnlyMoves s (.engineCpLin tb ta b a d) (after s 4)) ∧
    (n < 2 ^ 32 → i < n → odd = true → Raises s (.engineCpLin tb ta b a d) ⟨1, cALIGN, 0, 1, bytePtr dst i, 0⟩ (k + 1)) ∧
    (n < 2 ^ 32 → i < n → odd = false → ∀ ss ds,
      check s (ctxOf s s.cur) { rd := true, engine := true, ctlOk := all8 } (bytePtr src i) len false = .ok ss →
      check s (ctxOf s s.cur) { wr := true, code := 1, engine := true, ctlOk := all8 } (bytePtr dst i) len false = .ok ds →
      let dp := spanOf ds len
      let stays := fun (u : State) => exec (.engineCpLin tb ta b a d) s = .next (modRow u s.cur fun x => { x with rstep := k + 1 })
      (shootPending s (asidOf s s.cur.core) = true ∨ 64 ≤ (getCl s cl).copyq.length → stays s) ∧
      (shootPending s (asidOf s s.cur.core) = false → (getCl s cl).copyq.length < 64 →
        ((markEmpty s s.cur dp len).1 = false → stays (markEmpty s s.cur dp len).2) ∧
        ((markEmpty s s.cur dp len).1 = true →
          let u := (markEmpty s s.cur dp len).2
          ∃ t piece, exec (.engineCpLin tb ta b a d) s = .next t ∧ (getCl t cl).copyq = (getCl s cl).copyq ++ [piece] ∧
            piece.id = s.nextId ∧ piece.row = s.cur ∧ piece.n = len ∧ piece.src = spanOf ss len ∧ piece.dst = dp ∧ piece.skip = [] ∧
            piece.after = (fifoOf s s.cur (partIx s s.cur.core) s.nextId).map (·.id) ∧
            getRow t s.cur = (if n ≤ i + len then retiredRow (getRow u s.cur) 0 (after s 4) else { getRow u s.cur with rstep := k + 2 }) ∧
            (∀ q, rkey q ≠ rkey s.cur → getRow t q = getRow s q) ∧ (∀ c, c ≠ cl → getCl t c = getCl s c) ∧
            t = { u with rows := t.rows, cores := t.cores, clusters := t.clusters, nextId := s.nextId + 1 })))) ∧
  ∀ (s : State) (ex : BitVec 3) (tb ta : Bool) (b a d : Reg),
    Issues s [srcX d ta, srcX a ta, srcX b tb, srcE ex.toNat ta] →
    let w := getRow s s.cur
    let e := getE s s.cur ex.toNat
    let mv := getX s s.cur a
    let dv := getX s s.cur d
    let n := (getX s s.cur b).toNat
    let size := 64 * 2 ^ Wbits e 3 0
    let out := e.getLsbD 31
    let k := w.rstep - 1
    let y := pieceAt e mv dv (k + 1) 0 k
    let m := (blockAddr e mv dv y.1).1
    let v := (blockAddr e mv dv y.1).2
    let i := cutStart m v y.2
    let len := min size (cutStart m v (y.2 + 1)) - i
    (2 ^ 32 ≤ n ∨ patternOk e = false → Raises s (.engineCpDist ex tb ta b a d) ⟨0, 1, 0, 0, w.pc, 0⟩ 0) ∧
    (n < 2 ^ 32 → patternOk e = true → dv.toNat % 64 = 0 → mv.toNat % 64 = 0 → n % size = 0 →
      (n ≤ y.1 * size → OnlyMoves s (.engineCpDist ex tb ta b a d) (after s 4)) ∧
      (y.1 * size < n → ∀ ms vs,
        check s (ctxOf s s.cur)
          { rd := !out, wr := out, code := out.toNat, engine := true, dist := true, mtag := some (Wbits mv 59 56) } (bytePtr m i) len false = .ok ms →
        check s (ctxOf s s.cur)
          { rd := out, wr := !out, code := (!out).toNat, engine := true, distRow := true, mtag := some (Wbits dv 59 56) } (bytePtr v i) len false = .ok vs →
        let stays := fun (u : State) => exec (.engineCpDist ex tb ta b a d) s = .next (modRow u s.cur fun x => { x with rstep := k + 1 })
        let vp := spanOf vs len
        let mark := if out then (true, s) else markEmpty s s.cur vp len
        (∀ x, blockFail s s.cur e mv dv y.1 y.2 = some x → Raises s (.engineCpDist ex tb ta b a d) x (k + 1)) ∧
        (blockFail s s.cur e mv dv y.1 y.2 = none →
        (shootPending s (asidOf s s.cur.core) = true → stays s) ∧
        (shootPending s (asidOf s s.cur.core) = false → (mark.1 = false → stays mark.2) ∧ (mark.1 = true →
        let die := (spanOf ms len).pa / 0x1000 % 2
        let u := mark.2
        ∃ t piece, exec (.engineCpDist ex tb ta b a d) s = .next t ∧
          (getDie t die).distq = (getDie s die).distq ++ [piece] ∧ piece.id = s.nextId ∧ piece.row = s.cur ∧ piece.out = out ∧
          piece.n = len ∧ piece.mem = spanOf ms len ∧ piece.rs = vp ∧ piece.skip = [] ∧
          getRow t s.cur = (if n ≤ (y.1 + 1) * size ∧ size ≤ i + len then retiredRow (getRow u s.cur) 0 (after s 4)
            else { getRow u s.cur with rstep := k + 2 }) ∧
          (∀ q, rkey q ≠ rkey s.cur → getRow t q = getRow s q) ∧ (∀ x, x ≠ die → getDie t x = getDie s x) ∧
          t = { u with rows := t.rows, cores := t.cores, dies := t.dies, nextId := s.nextId + 1 })))))

/-- R271, R288, R291, R293, R304, R305, R311, R317: the engine instructions: joining leaves D empty and the row at step 2; the
instruction retires when a final status is in D; an engine that is not idle answers its code; the status instructions read the
engine's words; `engine.mx.abort` ends the cluster's gang with status 5. ACC 0 of ILL and of the ALIGN of `engine.edge.run` (log
entries 9, 65), and that an engine keeps the words of its descriptor from the join (log entry 41), are the model's choices. -/
def Obligations.EngineInstructions : Prop :=
  ∀ s : State, Going s →
    let r := s.cur
    let core := r.core
    let w := getRow s r
    (∀ (tb ta : Bool) (a d : Reg), Issues s [srcX a ta] → w.rstep ≠ 2 →
      let p := getX s r a
      (p.toNat % 64 ≠ 0 → Raises s (.engineMxGang tb ta a d) ⟨1, 3, 0, 0, p, 0⟩ 0) ∧
      (p.toNat % 64 = 0 → ∀ ps, check s (ctxOf s r) { rd := true } p 32 false = .ok ps →
        (dieDone s r (partIx s core) s.nextId = false → exec (.engineMxGang tb ta a d) s = .next s) ∧
        (dieDone s r (partIx s core) s.nextId = true → (getMx s core).st ≠ .idle → WritesX s (.engineMxGang tb ta a d) d 1 0 (after s 4)) ∧
        (dieDone s r (partIx s core) s.nextId = true → (getMx s core).st = .idle → ∃ t, exec (.engineMxGang tb ta a d) s = .next t ∧
          getMx t core = { st := .joining, row := r.row, d := d.toNat, almanac := p, last := (getMx s core).last, since := s.nextId } ∧
          getRow t r = { w with rstep := 2, marked := [rowWord r (xw d)] } ∧ (d ≠ 0 → isEmpty t r (xw d) = true) ∧ t.mem = s.mem))) ∧
    (∀ (tb ta : Bool) (a d : Reg), w.rstep = 2 → isEmpty s r (xw d) = false → isPoison s r (xw d) = false → getX s r d ≠ 8 →
      ¬ ((getMx s core).st = .held ∧ (getMx s core).row = r.row ∧
        ((getMx s core).raised = true ∨ (getMx s core).held = none)) →
      OnlyMoves s (.engineMxGang tb ta a d) (after s 4)) ∧
    (∀ (ta : Bool) (a d : Reg), Issues s [srcX a ta] → w.rstep ≠ 2 →
      let p := getX s r a
      (p.toNat % 128 ≠ 0 → Raises s (.engineEdgeRun ta a d) ⟨1, 3, 0, 0, p, 0⟩ 0) ∧
      (p.toNat % 128 = 0 →
        ∀ ps, check s (ctxOf s r) { rd := true, wr := true, code := 3, engine := true } p 128 false = .ok ps →
        devDone s r (partIx s core) s.nextId = true →
        ((getEdge s core).st ≠ .idle → WritesX s (.engineEdgeRun ta a d) d 2 0 (after s 4)) ∧
        ((getEdge s core).st = .idle → ∀ bs x, homeParts s (rowAsker s r) p ps = (.ok bs, x) →
          let u := bump (dropAnswers x (rowAsker s r)) core 4 ps.length
          let ws := (List.range 16).map fun k => wNat (leNat ((bs.drop (8 * k)).take 8))
          (descOk u core ws = false → ∃ t, exec (.engineEdgeRun ta a d) s = .next t ∧
            Done u t [xw d] 0 ((getRow u r).pc + wNat 4) ∧ getX t r d = xval d 4) ∧
          (descOk u core ws = true → ∃ t, exec (.engineEdgeRun ta a d) s = .next t ∧
            getEdge t core = { ({} : EdgeEng) with
              st := .joining, row := r.row, d := d.toNat, runpc := w.pc, desc := p, words := ws, last := (getEdge u core).last,
              level := (getEdge u core).level, pull := (getEdge u core).pull, visited := (getEdge u core).visited,
              cnt1 := (getEdge u core).cnt1, since := u.nextId } ∧
            getRow t r = { getRow u r with rstep := 2, marked := [rowWord r (xw d)] } ∧ (d ≠ 0 → isEmpty t r (xw d) = true) ∧
            t.mem = u.mem)))) ∧
    (∀ (ta : Bool) (a d : Reg), w.rstep = 2 → isEmpty s r (xw d) = false → isPoison s r (xw d) = false →
      ¬ ((getEdge s core).st = .held ∧ (getEdge s core).row = r.row) →
      (getX s r d = 1 → OnlyMoves s (.engineEdgeRun ta a d) (dWord (getEdge s core).words 2)) ∧
      (getX s r d ≠ 1 → OnlyMoves s (.engineEdgeRun ta a d) (after s 4))) ∧
    (∀ ta : Bool, ((getEdge s core).st ≠ .body ∨ (getEdge s core).row ≠ r.row → Raises s (.engineEdgeRet ta) ⟨0, 1, 0, 0, w.pc, 0⟩ 0) ∧
      ((getEdge s core).st = .body → (getEdge s core).row = r.row → Issues s [srcV 3 false, srcM 2 false, srcM 3 false] →
        isPoison s r (mw 1) = false →
        ∃ t, exec (.engineEdgeRet ta) s = .next t ∧
          (getEdge t core).st = .running ∧ (getEdge t core).res = some ((List.range 32).map (lane s 3 3),
            (getM s r 2 &&& getM s r 1).toNat, (getM s r 3 &&& getM s r 1).toNat) ∧
          getRow t r = { retiredRow w 0 (getEdge s core).runpc with rstep := 2, marked := [rowWord r (32 + (getEdge s core).d)] } ∧
          t.mem = s.mem)) ∧
    (holdWord s r = none →
      (∀ (tb ta : Bool) (d : Reg),
        WritesX s (.engineCpStat tb ta d) d (wNat (2 ^ 32 * (64 - (getCl s (core / 8)).copyq.length) +
          2 ^ 16 * min (distPieces s r) 65535 + min (linPieces s r) 65535)) 0 (after s 4) ∧
        WritesX s (.engineMxStat tb ta d) d (mxStat s core) 0 (after s 4) ∧
        let u := if gangIdle s (core / 8) then s else endGang s (core / 8) 5
        ∃ t, exec (.engineMxAbort tb ta d) s = .next t ∧ Done u t [xw d] 0 ((getRow u r).pc + wNat 4) ∧
          getX t r d = xval d (mxStat s core) ∧ ∀ c, c / 8 = core / 8 → (getMx t c).st = .idle) ∧
      ∀ (ta : Bool) (dp : BitVec 4),
        let e := getEdge s core
        let d : Reg := 2 * dp.setWidth 5
        ∃ t, exec (.engineEdgeStat ta dp) s = .next t ∧ Done s t [xw (d + 1), xw d] 0 (after s 4) ∧
          getX t r d = xval d (wNat (2 ^ 32 * (e.visited % 2 ^ 32) + 2 ^ 24 * e.last + 2 ^ 16 * (e.level % 256) +
            2 ^ 4 * e.pull.toNat + e.st.code)) ∧ getX t r (d + 1) = e.cnt1)

/-- R213, R214, R349-R352: the privileged instructions that take time. `sys.shoot` merges the update-only lines that it covers
in every core, drops the translations, lines and fetched code it covers, and then waits for the accesses translated before; a
range that is not canonical raises ADDR at its lowest bad byte; `sys.gang` and `sys.swap` answer 4, 1, 3 or 2 when they may not
begin, else wait at step 2 and answer 0. The order of the answers 4, 1, 3, 2 (log entry 33), what a swap may exchange (log entry
95), the count of RSTEP (log entry 7), and ACC 0 of ADDR (log entry 9), are the model's choices. -/
def Obligations.PrivilegedOperations : Prop :=
  ∀ s : State, Going s → (getRow s s.cur).priv = true →
    let r := s.cur
    let w := getRow s r
    (∀ dp : BitVec 4,
      let d : Reg := 2 * dp.setWidth 5
      let v := getX s r d
      let y := getX s r (d + 1)
      let n := Wbits y 39 0
      let x : Shoot := ⟨Wbits y 63 52, v.getLsbD 0, Wbits v 55 12, Wbits v 55 12 + n, s.nextId⟩
      ready s r [srcXX d false] = true →
      (Wbits v 11 1 ≠ 0 ∨ Wbits y 51 40 ≠ 0 ∨ (n = 0 ∧ v.getLsbD 0 = false) →
        Raises s (.sysShoot dp) ⟨0, 1, 0, 0, w.pc, 0⟩ 0) ∧
      (Wbits v 11 1 = 0 → Wbits y 51 40 = 0 → v.getLsbD 0 = false → n ≠ 0 →
        ∀ j, canonFail (v &&& ~~~0xFFF#64) (0x1000 * n) = some j →
        Raises s (.sysShoot dp) ⟨2, 4, 0, 0, bytePtr (v &&& ~~~0xFFF#64) j, 0⟩ 0) ∧
      (Wbits v 11 1 = 0 → Wbits y 51 40 = 0 → (v.getLsbD 0 = true ∨
          (n ≠ 0 ∧ canonFail (v &&& ~~~0xFFF#64) (0x1000 * n) = none)) →
        (w.rstep < 2 → ∃ t, exec (.sysShoot dp) s = .next t ∧ (getRow t r).rstep = 2 ∧
          (getRow t r).work = wNat (s.nextId + 1) ∧ (∀ e ∈ t.tlb, x.tlb e = false) ∧
          (∀ c, (getCore s c).red.length ≤ 33 → ∀ u ∈ (getCore t c).red, x.covers u.asid (u.line / 32) 1 = false) ∧
          t.shoots = s.shoots ++ [x] ∧ (∀ l ∈ t.l2, l.phys = true ∨ x.covers l.asid (l.line / 32) 1 = false) ∧
          ∀ b ∈ t.ibuf, x.covers b.asid (b.va16 / 256) 1 = false) ∧
        (∀ z, 2 ≤ w.rstep → (s.shoots.find? fun k => k.id == w.work.toNat - 1) = some z →
          (shootDone s z = false → exec (.sysShoot dp) s = .next s) ∧
          (shootDone s z = true → ∃ t, exec (.sysShoot dp) s = .next t ∧
            getRow t r = retiredRow w 0 (after s 4) ∧ (∀ k ∈ t.shoots, k.id ≠ z.id) ∧
            (∀ l ∈ t.l2, l.phys = true ∨ z.covers l.asid (l.line / 32) 1 = false) ∧
            ∀ b ∈ t.ibuf, z.covers b.asid (b.va16 / 256) 1 = false)))) ∧
    (∀ d : Reg, ready s r [srcX d false] = true →
      let v := getX s r d
      let p := Wbits v 5 0
      let q := getPart s p
      let answers := fun (i : Instr) (k : Word) => WritesX s i d k 0 (after s 4)
      (w.rstep ≠ 2 →
        (Wbits v 63 10 ≠ 0 ∨ Wbits v 7 6 ≠ 0 ∨ 2 ≤ Wbits v 9 8 → answers (.sysGang d) 4) ∧
        (Wbits v 63 10 = 0 → Wbits v 7 6 = 0 → Wbits v 9 8 < 2 →
          (boundClusters s p = [] → answers (.sysGang d) 1) ∧
          (boundClusters s p ≠ [] → partOf s r.core = some p → answers (.sysGang d) 3) ∧
          (boundClusters s p ≠ [] → partOf s r.core ≠ some p →
            (Wbits v 9 8 = 0 → q.stopped = true ∨ q.stopping = true → answers (.sysGang d) 2) ∧
            (Wbits v 9 8 = 0 → q.stopped = false → q.stopping = false → exec (.sysGang d) s =
              .next (modRow (modPart s p fun x => { x with stopping := true, taken := [], halted := [] }) r
                fun x => { x with rstep := 2 })) ∧
            (Wbits v 9 8 = 1 → q.stopped = true → q.swapping = false → q.releasing = false → exec (.sysGang d) s =
              .next (modRow (modPart s p fun x => { x with releasing := true }) r fun x => { x with rstep := 2 })) ∧
            (Wbits v 9 8 = 1 → q.stopped = false ∨ q.swapping = true ∨ q.releasing = true → answers (.sysGang d) 2))) ∧
        (Wbits v 63 6 ≠ 0 → answers (.sysSwap d) 4) ∧
        (Wbits v 63 6 = 0 →
          (boundClusters s p = [] → shadowClusters s p = [] → answers (.sysSwap d) 1) ∧
          (boundClusters s p ≠ [] ∨ shadowClusters s p ≠ [] → partOf s r.core = some p → answers (.sysSwap d) 3) ∧
          (boundClusters s p ≠ [] ∨ shadowClusters s p ≠ [] → partOf s r.core ≠ some p →
            (swapClusters s p = none → answers (.sysSwap d) 2) ∧
            (swapClusters s p ≠ none → exec (.sysSwap d) s =
              .next (modRow (modPart s p fun x => { x with swapping := true }) r fun x => { x with rstep := 2 }))))) ∧
      (w.rstep = 2 →
        (Wbits v 9 8 = 0 → q.stopped = true → answers (.sysGang d) 0) ∧
        (Wbits v 9 8 = 0 → q.stopped = false → exec (.sysGang d) s = .next s) ∧
        (Wbits v 9 8 ≠ 0 → q.releasing = false → answers (.sysGang d) 0) ∧
        (Wbits v 9 8 ≠ 0 → q.releasing = true → exec (.sysGang d) s = .next s) ∧
        (q.swapping = false → answers (.sysSwap d) 0) ∧ (q.swapping = true → exec (.sysSwap d) s = .next s)))
/-! # Performing accesses -/

/-- R53, R55, R56, R70, R88, R90, R238, R250: the head of a store FIFO, once the loads it follows are performed. For a row of
the same die its bytes are written at the bank, `fe.set` and full/empty maintenance acting on the words' bits; an entry for
another die is on its way instead, and a store on its way is performed at its target, after older ones of its die to the same
location. -/
def Obligations.StoresArePerformed : Prop :=
  (∀ (s : State) (core : Nat) (e : StEnt) (es : List StEnt) (r : RowId) (win off : Nat),
    (getCore s core).fifo = e :: es → entReady s e = true → region s e.part.pa = .row r win off →
    0x108 ≤ off → off + e.bytes.length ≤ 0x1000 → aimedAsid s r.core e.part.asid = none → rowBusy s r (some e.row) = false →
    dieOf r.core = dieOf core →
    Step s (.storePerform core) fun t => (getCore t core).fifo = es ∧
      (e.kind = .plain → StoredInRow s t r off e.bytes ∧ t.empt = s.empt ∧ t.rows = s.rows) ∧
      (e.kind = .feSet → StoredInRow s t r off e.bytes ∧ ∀ w ∈ rowWords off e.bytes.length, isEmpty t r w = false) ∧
      (e.kind = .bitsSet → t.mem = s.mem ∧ ∀ w ∈ rowWords off e.part.n, isEmpty t r w = false) ∧
      (e.kind = .bitsClr → t.mem = s.mem ∧ ∀ w ∈ rowWords off e.part.n, 32 < w → isEmpty t r w = true)) ∧
  (∀ (s : State) (core : Nat) (e : StEnt) (es : List StEnt), (getCore s core).fifo = e :: es → entReady s e = false →
    exec (.storePerform core) s = .next s) ∧
  (∀ (s : State) (core : Nat) (e : StEnt) (es : List StEnt) (r : RowId) (win off : Nat),
    (getCore s core).fifo = e :: es → entReady s e = true → region s e.part.pa = .row r win off → dieOf r.core ≠ dieOf core →
    Step s (.storePerform core) fun t => (getCore t core).fifo = es ∧ t.flights = s.flights ++ [⟨e.id, e⟩] ∧ t.mem = s.mem) ∧
  ∀ (s : State) (i : Nat) (f : Flight) (r : RowId) (win off : Nat), s.flights[i]? = some f →
    region s f.ent.part.pa = .row r win off → (getDie s (dieOf r.core)).failed = false →
    (∀ g ∈ s.flights.take i, forwardDie s (dieOf g.ent.row.core) g.ent.part = forwardDie s (dieOf f.ent.row.core) f.ent.part →
      sameLoc s g.ent.part f.ent.part = false) →
    0x108 ≤ off → off + f.ent.bytes.length ≤ 0x1000 → aimedAsid s r.core f.ent.part.asid = none →
    rowBusy s r (some f.ent.row) = false → f.ent.kind = .plain →
    Step s (.performanceAtTarget i) fun t => StoredInRow s t r off f.ent.bytes ∧
      (∀ g, g ∈ t.flights ↔ g ∈ s.flights ∧ g.id ≠ f.id)

/-- R54, R98, R233, R234, R245: a request in flight. A part of a load is read where it lies and its bytes kept, an `fe` load
once its words are full; a destination word whose bytes have arrived is filled, in order after earlier producers of the
register, its engines' pieces and statuses among them, and wakes the row that waits on it, but a word that a later producer owes
stays as it was marked; an atomic waits for the row's older loads and for its older stores and posted atomics to the same
location (R88), then reads and writes at its target and keeps the old value. The order of the producers of a register, and that
a word stays empty while a later one owes it, are the model's choices (log entry 72). -/
def Obligations.RequestsArePerformed : Prop :=
  (∀ (s : State) (id : Nat) (q : Req) (w : Nat), reqById s id = some q → w ∈ q.words → 32 < w → w < 512 →
    (∀ x ∈ q.put.bytesOf w, ∃ y ∈ q.buf, y.1 = x.1) →
    aimedPart s q.row.core q.part = false →
    (fillBehind s q.row q.part q.id q.row w = true → exec (.fill id (.deliver w)) s = .next s) ∧
    (fillBehind s q.row q.part q.id q.row w = false → Step s (.fill id (.deliver w)) fun t =>
      (owed s q.row q.part q.id q.row w = false → Filled s t q.row w (q.put.value w (getW s q.row w) q.buf)) ∧
      (owed s q.row q.part q.id q.row w = true → getW t q.row w = q.put.value w (getW s q.row w) q.buf ∧
        t.empt = s.empt ∧ t.rows = s.rows ∧ ∀ a, a / 8 ≠ rowWord q.row w → memByte t a = memByte s a))) ∧
  (∀ (s : State) (r : RowId) (k bound w : Nat),
    ((∃ x ∈ s.reqs, x.row = r ∧ x.part = k ∧ x.id < bound ∧ ∃ v ∈ x.words, regOf v = regOf w) → fillBehind s r k bound r w = true) ∧
    ((∃ x ∈ s.reqs, x.row = r ∧ x.part = k ∧ bound < x.id ∧ w ∈ x.words) → owed s r k bound r w = true) ∧
    ((∀ x ∈ s.reqs, x.part ≠ k ∨ x.row ≠ r) → (getCl s (clOf r.core)).copyq = [] → (∀ d < 2, (getDie s d).distq = []) →
      (getCore s r.core).mx.st = .idle → (getCore s r.core).edge.st = .idle →
      fillBehind s r k bound r w = false ∧ owed s r k bound r w = false)) ∧
  (∀ (s : State) (id i : Nat) (q : Req) (p : Part) (nt : Bool) (bs : List Byte) (u : State),
    reqById s id = some q → q.kind = .load 0 nt → q.cold = false → q.todo[i]? = some p → q.words ≠ [] → loadsBefore s q.row q.part q.id p = false →
    ownBefore s q.row q.part q.id p = false → partCore s p = none → lostFail s p.pa = false →
    readPart s q.row q.priv 0 nt p = (.ok bs, u) →
    Step s (.fill id (.perform i)) fun t =>
      reqById t id = some (q.take p (forward s q.row q.part id p bs)) ∧ t = { u with reqs := t.reqs }) ∧
  (∀ (s : State) (id k : Nat) (q : Req) (p : Part) (ps : List Part) (nt : Bool) (r : RowId) (win off : Nat),
    reqById s id = some q → q.kind = .load (k + 1) nt → q.cold = false → q.todo = p :: ps → q.words ≠ [] → loadsBefore s q.row q.part q.id p = false →
    ownBefore s q.row q.part q.id p = false → region s p.pa = .row r win off → aimedAsid s r.core p.asid = none →
    (getDie s (dieOf r.core)).failed = false → rowBusy s r (some q.row) = false →
    (∀ w ∈ rowWords off p.n, isPoison s r w = false) →
    ((∃ w ∈ rowWords off p.n, isEmpty s r w = true) → exec (.remoteFePerform id) s = .next s) ∧
    ((∀ w ∈ rowWords off p.n, isEmpty s r w = false) → Step s (.remoteFePerform id) fun t =>
      reqById t id = some (q.take p (forward s q.row q.part id p (rowBytes s r off p.n))) ∧ t.mem = s.mem ∧
      ∀ w ∈ rowWords off p.n, 32 < w → isEmpty t r w = decide (k = 1))) ∧
  (∀ (s : State) (id fn scope : Nat) (b e : Word) (rm : RMode) (q : Req) (p : Part) (ps : List Part) (bs : List Byte)
    (fl : FFlags) (u : State), reqById s id = some q → q.kind = .atomic fn b e rm false scope → q.todo = p :: ps →
    q.words ≠ [] → fn ≠ 10 → q.cold = false → q.atBank = false → aimedPart s q.row.core q.part = false → partCore s p = none →
    lostFail s p.pa = false →
    (atomicBehind s q p false scope = true → exec (.atomicPerform id) s = .next s) ∧
    (atomicBehind s q p false scope = false → atomicAt s q.row fn b e rm p = (.ok bs, fl, u) →
      Step s (.atomicPerform id) fun t => reqById t id = some (q.take p bs) ∧ t.mem = u.mem ∧ t.l2 = u.l2 ∧
        (getRow t q.row).flags = (getRow u q.row).flags ||| fl.setWidth 64 ∧ OtherRows u t q.row)) ∧
  (∀ (s : State) (q : Req) (p : Part) (posted : Bool) (scope : Nat),
    (loadsDone s q.row q.part q.id = false ∨
      (∃ f ∈ flightsOf s q.row q.part q.id, sameLoc s f.ent.part p = true) ∨
      (∃ x ∈ reqsOf s q.row q.part q.id, x.isPosted = true ∧ ∃ y ∈ x.todo, sameLoc s y p = true) →
      atomicBehind s q p posted scope = true))

/-- R20, R73-R77, R96, R98, R103: once the row's older stores have left, a piece reads the aligned parts of its source one at a time,
then writes an aligned part of its destination, and has that one less; it leaves its engine with its last; the core counts the
bytes. Words of a control
page move in order; the row's older stores hold either engine back. Words of a row fill after those of the row's older
producers, and become full unless a later producer owes them; a word that a later status has filled stays as it is (R54, R234). The
order of the producers of a word is the model's
choice (log entry 72). -/
def Obligations.CopiesMove : Prop :=
  (∀ (s : State) (cl i k off len : Nat) (x : CopyPiece), (getCl s cl).copyq[i]? = some x →
    x.todo[k]? = some (off, len) → olderLeft s x.row x.after = true →
    k = 0 ∨ (onPage s (subPart x.src off len) = false ∧ onPage s (subPart x.dst off len) = false) → x.cold = false →
    (∀ (o n : Nat) (bs : List Byte) (t : State), x.unread.find? (overlaps off len) = some (o, n) →
      lostFail s (x.src.pa + o) = false → aimedPartOf s (subPart x.src o n) = none →
      engineRead s x.row x.priv (subPart x.src o n) = (.ok bs, t) →
      Step s (.copyPiece cl i k) fun v => v.mem = t.mem ∧ v.rows = t.rows ∧ v.empt = t.empt ∧
        (getCl v cl).copyq = modNth (fun y => { y with unread := x.unread.filter fun z => z.1 ≠ o, got := x.got ++ [(o, bs)] })
          (getCl t cl).copyq i) ∧
    ∀ u : State, x.unread.find? (overlaps off len) = none → lostFail s (x.dst.pa + off) = false →
      engineWrite s x.row x.part x.id x.priv x.skip (subPart x.dst off len)
        ((List.range len).map fun j => gotByte x.got (off + j)) = (true, u) →
      let left := x.todo.filter fun y => y.1 ≠ off
      Step s (.copyPiece cl i k) fun v =>
        (getCl v cl).copyq = (if left = [] then dropNth (getCl u cl).copyq i
          else modNth (fun y => { y with todo := left }) (getCl u cl).copyq i) ∧
        smGet 0 (getCore v x.row.core).stats 7 = smGet 0 (getCore u x.row.core).stats 7 + wNat len ∧ v.mem = u.mem ∧
        v.rows = u.rows ∧ v.empt = u.empt) ∧
  (∀ (s : State) (cl i k off len : Nat) (x : CopyPiece), (getCl s cl).copyq[i]? = some x →
    x.todo[k]? = some (off, len) → olderLeft s x.row x.after = false ∨ (k ≠ 0 ∧ (onPage s (subPart x.src off len) = true ∨
      onPage s (subPart x.dst off len) = true)) → exec (.copyPiece cl i k) s = .next s) ∧
  (∀ (s : State) (r : RowId) (k id : Nat) (priv : Bool) (skip : List Nat) (p : Part) (bs : List Byte),
    pieceBehind s r k id p = true → engineWrite s r k id priv skip p bs = (false, s)) ∧
  (∀ (s : State) (r q : RowId) (k id win off : Nat) (priv : Bool) (skip : List Nat) (p : Part) (bs : List Byte),
    pieceBehind s r k id p = false → aimedPartOf s p = none → region s p.pa = .row q win off → rowBusy s q none = false →
    0x108 ≤ off → off + bs.length ≤ 0x1000 → off % 8 = 0 → bs.length % 8 = 0 →
    ∃ t, engineWrite s r k id priv skip p bs = (true, t) ∧
      (∀ a, (a < rowPa q off ∨ rowPa q off + bs.length ≤ a) → memByte t a = memByte s a) ∧
      ∀ w, off / 8 ≤ w → w < (off + bs.length) / 8 →
        (rowWord q w ∉ skip → isEmpty t q w = (isEmpty s q w && owed s r k id q w) ∧
          ∀ j < 8, memByte t (rowPa q (8 * w + j)) = bs.getD (8 * w + j - off) 0) ∧
        (rowWord q w ∈ skip → isEmpty t q w = isEmpty s q w ∧
          ∀ j < 8, memByte t (rowPa q (8 * w + j)) = memByte s (rowPa q (8 * w + j)))) ∧
  (∀ (s : State) (die i k : Nat) (x : DistPiece), (getDie s die).distq[i]? = some x → olderLeft s x.row x.after = false →
    exec (.distributorBlock die i k) s = .next s) ∧
  ∀ (s : State) (die i k off len : Nat) (x : DistPiece) (bs : List Byte) (u : State), (getDie s die).distq[i]? = some x →
    x.todo[k]? = some (off, len) → x.out = false → x.cold = false → olderLeft s x.row x.after = true →
    lostFail s (x.mem.pa + off) = false → lostFail s (x.rs.pa + off) = false → gddrRead s (x.mem.pa + off) len = .ok bs →
    engineWrite (dirForce s (x.mem.pa + off)) x.row x.part x.id x.priv x.skip (subPart x.rs off len) bs = (true, u) →
    let left := x.todo.filter fun y => y.1 ≠ off
    Step s (.distributorBlock die i k) fun v =>
      (getDie v die).distq = (if left = [] then dropNth (getDie u die).distq i
        else modNth (fun y => { y with todo := left }) (getDie u die).distq i) ∧ v.mem = u.mem ∧ v.rows = u.rows ∧ v.empt = u.empt
/-! # Commands, scheduling and dispatch -/

/-- R46-R48, R56, R58, R133, R148: the commands of CTL at a row's boundary. KINDLE and STEP start a STOPPED row, RESUME and SKIP
leave FAULTED, STOP stops any row with WHY 1, REDIRECT takes NPC and ends a wait, in a gang-stopped partition at the release; KINDLE, STEP, RESUME and SKIP in another
state, or in a gang-stopped partition, set CMDERR and do nothing. A store without a command writes AUTORES and PRI, and PRIV
from a privileged storer only. That every command that acts clears the mark of an orphaned row is the model's choice (log entry
61). -/
def Obligations.CommandsAct : Prop :=
  ∀ (s : State) (r : RowId), corePresent s r.core = true → r.row < 256 → (getRow s r).stalled = false →
    let w := getRow s r
    let go : Row := { w with cmderr := false, orphan := false, st := .ready, why := 0, waitw := 0, await := none }
    let ignored := fun (i : Instr) => Step s i fun t => getRow t r = { w with cmderr := true } ∧ OtherRows s t r ∧ t.mem = s.mem
    let acts := fun (i : Instr) (x : Row) => Step s i fun t => getRow t r = x ∧ OtherRows s t r ∧ t.mem = s.mem
    let held := coreHalted s r.core
    (w.st = .stopped → held = false → acts (.kindle r) go ∧ acts (.stepOne r) { go with stepping := true }) ∧
    (w.st ≠ .stopped ∨ held = true → ignored (.kindle r) ∧ ignored (.stepOne r)) ∧
    (w.st = .faulted → held = false → acts (.resume r) go) ∧
    (w.st ≠ .faulted ∨ held = true → ignored (.resume r) ∧ ignored (.skip r)) ∧
    (w.st = .faulted → held = false → w.marked = [] → w.rstep ≠ 2 → acts (.skip r)
      { go with pc := (w.pc + wNat (w.fetchLen.getD (peekLen (peekForce s r) r))) &&& ~~~1#64, rstep := 0, marked := [], fetchLen := none,
                work := 0 }) ∧
    (w.st ≠ .stopped → acts (.stop r)
      { w with cmderr := false, orphan := false, st := .stopped, why := 1, waitw := 0, await := none, stepping := false }) ∧
    (w.st = .stopped → acts (.stop r) { w with cmderr := false, orphan := false, waitw := 0 }) ∧
    (w.st = .waiting → held = false → acts (.redirect r)
      { go with pc := w.npc, rstep := 0, marked := [], fetchLen := none, work := 0 }) ∧
    (w.st = .waiting → held = true → acts (.redirect r)
      { w with cmderr := false, orphan := false, pc := w.npc, rstep := 0, waitw := 0, marked := [], fetchLen := none, work := 0,
               resolved := true }) ∧
    (w.st ≠ .waiting → acts (.redirect r)
      { w with cmderr := false, orphan := false, pc := w.npc, rstep := 0, waitw := 0, marked := [], fetchLen := none, work := 0 }) ∧
    ∀ (v : Word) (priv : Bool), acts (.ctlNone r v priv)
      { w with autores := v.getLsbD 10, pri := Wbits v 7 6, priv := if priv then v.getLsbD 9 else w.priv }

/-- R330-R334, R336, R337, R45: a bank's scheduler. A selection opens the oldest row of the highest class, in an empty slot or
over a waiting row of lower class, which keeps its age; an opening that completes makes the row RUNNING when no row holds the
position, else OPEN, unless its class is higher (a running row that was lowered counts with the class it had, until its quantum ends); one that has left READY closes without issuing; a closing that completes
empties the slot, and a row still READY rejoins with the age it had if it issued nothing, else with a new one; the quantum ends
at 256 cycles when a rival is READY, and the position with it at the row's boundary, else starts again with the cycles left
over; BUDGET counts down and is due at 0. ACC 0 of BUDGET (log entry 9), and the order of the openings (log entry 62), are the
model's choices. -/
def Obligations.BanksSchedule : Prop :=
  ∀ (s : State) (core bank : Nat),
    let b := getBank s core bank
    let now := fun x : Slot => { x with
      cls := classOf s core x.row, keep := if x.st = .running then max x.keep (classOf s core x.row) else classOf s core x.row }
    let x0 := getRow s ⟨core, b.slot0.row⟩
    (∀ k age, pickRow s core b = some (k, age) →
      let new : Slot := ⟨.opening, k, false, age, false, b.nextAge, classOf s core k, classOf s core k⟩
      (∀ x ∈ b.ready, ∀ a, x.2 = some a → (s.pkg.thawHold.isSome = true → (getRow s ⟨core, x.1⟩).priv = true) →
        classOf s core x.1 ≤ classOf s core k ∧ (classOf s core x.1 = classOf s core k → age ≤ a)) ∧
      (b.slot0.st = .empty → Step s (.selection core bank) fun t =>
        (getBank t core bank).slot0 = new ∧ (getBank t core bank).slot1 = now b.slot1 ∧ (getBank t core bank).due = b.due - 1 ∧
        (getBank t core bank).ready = smErase b.ready k ∧ t.rows = s.rows ∧ t.mem = s.mem) ∧
      (b.slot1.st = .running → b.due ≠ 0 → b.slot0.st = .opening ∨ b.slot0.st = .opn → classOf s core b.slot0.row < classOf s core k →
        x0.st = .ready → x0.orphan = false → Step s (.selection core bank) fun t =>
        (getBank t core bank).slot0 = new ∧ (getBank t core bank).slot1 = now b.slot1 ∧
        (getBank t core bank).ready = smPut (smErase b.ready k) b.slot0.row (some b.slot0.age) ∧
        (getBank t core bank).due = b.due ∧ t.rows = s.rows ∧ t.mem = s.mem) ∧
      (b.slot1.st = .running → b.slot0.st = .opening ∨ b.slot0.st = .opn → classOf s core k ≤ classOf s core b.slot0.row →
        Step s (.selection core bank) fun t => (getBank t core bank).slot0.row = b.slot0.row ∧
          (getBank t core bank).slot0.st = b.slot0.st ∧ (getBank t core bank).ready = b.ready)) ∧
    (b.slot0.st = .opening → b.slot1.st ≠ .opening ∨ b.slot0.seq ≤ b.slot1.seq →
      (x0.st ≠ .ready ∨ b.slot0.quit = true → Step s (.openingComplete core bank) fun t =>
        (getBank t core bank).slot0 = { b.slot0 with st := .closing } ∧ (getBank t core bank).slot1 = b.slot1 ∧ t.rows = s.rows) ∧
      (x0.st = .ready → b.slot0.quit = false →
        (b.slot1.st ≠ .running → Step s (.openingComplete core bank) fun t =>
          (getBank t core bank).slot0 = { b.slot0 with st := .running } ∧ (getBank t core bank).slot1 = b.slot1 ∧
          (getBank t core bank).quantum = 0 ∧ t.rows = s.rows) ∧
        (b.slot1.st = .running → b.slot0.cls ≤ b.slot1.keep → Step s (.openingComplete core bank) fun t =>
          (getBank t core bank).slot0 = { b.slot0 with st := .opn } ∧ (getBank t core bank).slot1 = b.slot1 ∧ t.rows = s.rows) ∧
        (b.slot1.st = .running → b.slot1.keep < b.slot0.cls → b.slot1.row % 4 = bank → b.slot0.row ≠ b.slot1.row →
          (getRow s ⟨core, b.slot1.row⟩).stalled = false → Step s (.openingComplete core bank) fun t =>
          (getBank t core bank).slot0 = { b.slot0 with st := .running } ∧ (getBank t core bank).quantum = 0 ∧
          (getBank t core bank).slot1 = { b.slot1 with
            st := .closing, quit := decide ((getRow s ⟨core, b.slot1.row⟩).st ≠ .ready) } ∧ t.rows = s.rows))) ∧
    (b.slot0.st = .closing → b.slot1.st = .closing → Step s (.closingComplete core bank) fun t => t.rows = s.rows ∧
      (((getBank t core bank).slot0 = {} ∧ (getBank t core bank).slot1 = b.slot1) ∨
       ((getBank t core bank).slot1 = {} ∧ (getBank t core bank).slot0 = b.slot0))) ∧
    (b.slot0.st = .closing → b.slot1.st ≠ .closing → Step s (.closingComplete core bank) fun t =>
      (getBank t core bank).slot0 = {} ∧ (getBank t core bank).slot1 = b.slot1 ∧ t.rows = s.rows ∧
      (x0.st ≠ .ready ∨ x0.orphan = true → (getBank t core bank).ready = b.ready) ∧
      (x0.st = .ready → x0.orphan = false →
        (b.slot0.issued = false → b.slot0.quit = false →
          (getBank t core bank).ready = smPut b.ready b.slot0.row (some b.slot0.age)) ∧
        (b.slot0.issued = true ∨ b.slot0.quit = true → b.slot0.row % 4 = bank → b.slot1.row ≠ b.slot0.row →
          smGet none b.ready b.slot0.row = none → (getBank t core bank).ready = smPut b.ready b.slot0.row (some b.nextAge)))) ∧
    ∀ k < 2, b.runSlot = some k → (b.slot k).row % 4 = bank →
      ((b.slot (1 - k)).st = .empty ∨ (b.slot (1 - k)).row ≠ (b.slot k).row) →
      let r : RowId := ⟨core, (b.slot k).row⟩
      let x := getRow s r
      let closed := { b.slot k with st := .closing, quit := decide (x.st ≠ .ready) }
      (b.quantum < 256 ∨ x.stalled = true → exec (.quantumExpiry core bank) s = .next s) ∧
      (256 ≤ b.quantum → x.stalled = false → Step s (.quantumExpiry core bank) fun t => t.rows = s.rows ∧
        (rivalReady s r = true → (getBank t core bank).quantum = 0 ∧ (getBank t core bank).slot k = closed ∧
          ((b.slot (1 - k)).st = .opn → (getBank t core bank).slot (1 - k) = { b.slot (1 - k) with st := .running })) ∧
        (rivalReady s r = false → (getBank t core bank).quantum = b.quantum % 256 ∧
          (getBank t core bank).slot0 = b.slot0 ∧ (getBank t core bank).slot1 = b.slot1)) ∧
      (∀ n,
        let m := stepCycles s core bank n
        let rival := rivalReady (quantumEvent s core bank k) r
        (rival = false ∨ x.stalled = true → m = n) ∧ (rival = true → x.stalled = false → m = min n (256 - b.quantum)) ∧
        (x.due = false → x.budget = 0 ∨ m < x.budget.toNat → Step s (.budget core bank n) fun t =>
          getRow t r = { x with budget := if x.budget = 0 then 0 else x.budget - wNat m } ∧ OtherRows s t r ∧
          (b.quantum + n < 256 → (getBank t core bank).quantum = b.quantum + n) ∧
          (b.quantum < 256 → 256 ≤ b.quantum + n → rival = false →
            (getBank t core bank).quantum = (b.quantum + n) % 256 ∧ (getBank t core bank).runSlot = some k) ∧
          (b.quantum < 256 → 256 ≤ b.quantum + n → rival = true → x.stalled = false →
            ((getBank t core bank).slot k).st = .closing ∧ (getBank t core bank).quantum = 0)) ∧
        (x.budget ≠ 0 → x.budget.toNat ≤ m → x.stalled = false → x.pend = [] →
          Step s (.budget core bank n) fun t => (getRow t r).st = .faulted ∧ (getRow t r).budget = 0 ∧ (getRow t r).due = false ∧
            (getRow t r).fcause = 8 ∧ (getRow t r).fva = x.pc ∧ (getRow t r).pc = x.pc ∧ OtherRows s t r))

/-- R135-R138, R326-R328, R351, R368: packets on their way: from where they are held to the inbox of their die; bound to the
candidate core of the lowest score, those of one source and channel in their order; from the inbox into the run queue with the
channel's class. That held packets keep their order for one inbox and partition only is the model's choice (log entry 53). -/
def Obligations.PacketsTravel : Prop :=
  (∀ (s : State) (i : Nat) (h : Held) (p : Nat), s.held[i]? = some h → heldPart s h = some p →
    (∀ x ∈ s.held.take i, heldDie x = heldDie h → heldPart s x ≠ some p) →
    (2048 ≤ inboxCount s (heldDie h) p → exec (.inboxEntry i) s = .next s) ∧
    (inboxCount s (heldDie h) p < 2048 → Step s (.inboxEntry i) fun t => t.held = dropNth s.held i ∧
      (getDie t (heldDie h)).inbox = (let box := (getDie s (heldDie h)).inbox
        let x := { h.pkt with part := p, own := false }
        if h.pkt.replayed then box.filter (·.replayed) ++ [x] ++ box.filter (fun y => !y.replayed) else box ++ [x]) ∧
      t.rows = s.rows ∧ t.mem = s.mem ∧ t.cores = s.cores)) ∧
  (∀ (s : State) (die i : Nat) (p : Packet), (getDie s die).inbox[i]? = some p → p.core = none →
    (∃ x ∈ (getDie s die).inbox.take i, x.core = none ∧ x.sender = p.sender ∧ x.part = p.part ∧
      Wbits (x.words.getD 0 0) 13 8 = Wbits (p.words.getD 0 0) 13 8) → exec (.stokerBind die i) s = .next s) ∧
  (∀ (s : State) (die i n : Nat) (p : Packet), (getDie s die).inbox[i]? = some p → p.core = none → stokerChoice s die p = some n →
    (∀ x ∈ (getDie s die).inbox.take i, x.core = none → x.sender = p.sender → x.part = p.part →
      Wbits (x.words.getD 0 0) 13 8 ≠ Wbits (p.words.getD 0 0) 13 8) →
    let cand := fun c : Nat => 160 * die ≤ c ∧ c < 160 * die + 160 ∧ partOf s c = some p.part ∧
      (chanOf s c (pktChan (p.words.getD 0 0))).valid = true ∧ withheld s (clOf c) = false ∧
      (getCore s c).failed = false
    cand n ∧ (∀ c, cand c → score s p n ≤ score s p c ∧ (score s p c = score s p n → n ≤ c)) ∧
    Step s (.stokerBind die i) fun t =>
      (getDie t die).inbox = modNth (fun x => { x with core := some n }) (getDie s die).inbox i ∧ t.rows = s.rows ∧ t.cores = s.cores) ∧
  ∀ (s : State) (die i n : Nat) (p : Packet), (getDie s die).inbox[i]? = some p → p.core = some n → (getCore s n).failed = false →
    ((∃ x ∈ (getDie s die).inbox.take i, x.core = some n) ∨ withheld s (clOf n) = true → exec (.runQueueEntry die i) s = .next s) ∧
    ((∀ x ∈ (getDie s die).inbox.take i, x.core ≠ some n) → withheld s (clOf n) = false →
    aimedPart s n p.part = false ∨ p.replayed = true →
    (32 ≤ (getCore s n).runq.length → exec (.runQueueEntry die i) s = .next s) ∧
    ((getCore s n).runq.length < 32 → Step s (.runQueueEntry die i) fun t =>
      (getDie t die).inbox = dropNth (getDie s die).inbox i ∧
      (getCore t n).runq = (getCore s n).runq ++ [{ p with
        cls := (chanOf s n (Wbits (p.words.getD 0 0) 13 8)).cfg % 4, replayed := false }] ∧
      (getCore t n).received = (getCore s n).received + (if p.sender.isSome then 1 else 0) ∧
      t.rows = s.rows ∧ t.mem = s.mem))

/-- R138, R341, R370: dispatch puts the oldest eligible packet into the lowest free row of its channel's pool as one event:
the row's control block, the packet at offset 0xA80, its address in X1 and its length in X2; the host-queue channel's packet
goes to the host ring instead. An upcall puts the fault record of the oldest faulted row there and starts the upcall row at
ENTRY. -/
def Obligations.TasksAndUpcallsStart : Prop :=
  (∀ (s : State) (core i k : Nat) (p : Packet), nextPacket s core = some (i, p) →
    let h := p.words.getD 0 0
    let c := Wbits h 13 8
    let ch := chanOf s core c
    let r : RowId := ⟨core, k⟩
    isHostq s core c = false → freeRow s core ch = some k → p.words.length = 4 * (Wbits h 2 0 + 1) →
    Step s (.dispatch core) fun t =>
      getRow t r = { getRow s r with
        st := .ready, why := 0, waitw := 0, await := none, pc := ch.entry &&& ~~~1#64, rstep := 0, marked := [], fetchLen := none,
        work := 0, due := false, task := wNat (2 ^ 32 * Wbits h 63 32 + 0x80 + c), pri := p.cls, autores := ch.cfg.testBit 4,
        priv := ch.cfg.testBit 5, cmderr := false, orphan := false } ∧
      (∀ j < p.words.length, getW t r (0x150 + j) = p.words.getD j 0 ∧ isEmpty t r (0x150 + j) = false) ∧
      getX t r 1 = rowVa s r + 0xA80#64 ∧ getX t r 2 = wNat (32 * (Wbits h 2 0 + 1)) ∧ OtherRows s t r ∧
      (getCore t core).runq = dropNth (getCore s core).runq i ∧
      (ch.gate = true → (chanOf t core c).ready = false)) ∧
  (∀ (s : State) (die i : Nat) (p : Packet), let core := Wbits (getDie s die).hostq 14 6
    dieOf core = die → nextPacket s core = some (i, p) → isHostq s core (Wbits (p.words.getD 0 0) 13 8) = true →
    let lg := Wbits (getDie s die).hostq 19 16
    let n := (getDie s die).produced
    let bus := fun off : Nat => ((getDie s die).hostqb.toNat + off) % 2 ^ 64
    let pa := fun off : Nat => if bus off < 2 ^ 50 then 0x8000000000000 + bus off else 2 ^ 52 + bus off
    Wbits (getDie s die).hostqb 11 0 = 0 → p.words.length ≤ 32 → (∀ l ∈ s.l2, l.pl ≠ pa (2 ^ lg * 256) / 128) →
    Step s (.hostQueueWrite die) fun t => (getDie t die).produced = (n + 1) % 2 ^ 64 ∧ (getDie t die).msix = (getDie s die).msix + 1 ∧
      (getCore t core).runq = dropNth (getCore s core).runq i ∧
      (∀ j < 8, memByte t (pa (2 ^ lg * 256) + j) = BitVec.ofNat 8 ((n + 1) / 256 ^ j)) ∧
      (∀ j < 8 * p.words.length, memByte t (pa (256 * (n % 2 ^ lg)) + j) =
        BitVec.ofNat 8 ((p.words.getD (j / 8) 0).toNat / 256 ^ (j % 8))) ∧
      ((chanOf s core (Wbits (p.words.getD 0 0) 13 8)).gate = true → (chanOf t core (Wbits (p.words.getD 0 0) 13 8)).ready = false) ∧
      t.rows = s.rows) ∧
  ∀ (s : State) (core f p : Nat) (rest : List Nat), (getCore s core).faultq = f :: rest → partOf s core = some p →
    let v := (getPart s p).upcall
    let u : RowId := ⟨core, Wbits v 7 0⟩
    let x := getRow s ⟨core, f⟩
    (getCore s core).serving = false → (getRow s u).st = .stopped → isOpen s u = false → coreHalted s core = false →
    Wbits v 63 8 ≠ 0 → f < 256 →
    (x.st ≠ .faulted → Step s (.upcallDelivery core) fun t => (getCore t core).faultq = rest ∧ t.rows = s.rows ∧ t.mem = s.mem) ∧
    (x.st = .faulted → Step s (.upcallDelivery core) fun t => (getCore t core).faultq = rest ∧ (getCore t core).serving = true ∧
      getRow t u = { getRow s u with
        st := .ready, why := 0, waitw := 0, await := none, pc := wNat (256 * Wbits v 63 8), rstep := 0, marked := [],
        fetchLen := none, work := 0, cmderr := false, orphan := false } ∧
      (getCore t core).recSeq = ((getCore s core).recSeq + 1) % 2 ^ 32 ∧
      getW t u 0x156 = wNat (getCore s core).recSeq ∧ getW t u 0x157 = 0 ∧
      (∀ j < 8, isEmpty t u (0x150 + j) = false) ∧
      getW t u 0x150 = x.fcause ∧ getW t u 0x151 = x.fva ∧ getW t u 0x152 = rowVa s ⟨core, f⟩ ∧ getW t u 0x153 = x.pc ∧
      getW t u 0x154 = wNat x.rstep ∧ getW t u 0x155 = x.task ∧ getX t u 1 = rowVa s u + 0xA80#64 ∧ getX t u 2 = 64 ∧
      OtherRows s t u)
/-! # Page faults, gang stop and swap -/

/-- R343-R346: a page-fault request merges into an entry of its router that has its key, else takes a free entry and goes on
toward the root, or waits; the root sends one record of an entry to the memory manager and numbers it; a privileged write of
SY.FLUERES removes the page's entries and sends the resolution to the cores recorded in them; at a core it clears FLUE of the
rows that wait for the page, which go READY with AUTORES, at the release in a gang-stopped partition, or refuses them: a refused
fault is delivered anew, to the core's fault queue, or with its new FCAUSE to the supervisor queue. That a resolution waits while
an upcall can be delivered at the core, and that a request of MEMERR merges into an entry of its key, are the model's choices
(log entries 98, 86). -/
def Obligations.PageFaultsAreResolved : Prop :=
  (∀ (s : State) (i : Nat) (hop : Option Nat) (q : FlueReq), s.flueReqs[i]? = some q →
    let same := fun e : FlueEnt => e.router = q.router ∧ e.die = q.die ∧ e.asid = q.asid ∧ e.page = q.page ∧
      e.write = q.write
    ((∃ e ∈ s.flue, same e) → Step s (.flueRequest i hop) fun t => t.flueReqs = dropNth s.flueReqs i ∧
      t.flue.length = s.flue.length ∧ (∃ e ∈ t.flue, same e ∧ q.core ∈ e.cores) ∧ t.rows = s.rows ∧ t.mem = s.mem) ∧
    ((∀ e ∈ s.flue, ¬ same e) →
      let used := (s.flue.filter fun e => e.die == q.die && e.router == q.router).length
      (16 ≤ used → exec (.flueRequest i hop) s = .next s) ∧
      (used < 16 → Step s (.flueRequest i hop) fun t =>
        t.flue = s.flue ++ [⟨q.die, q.router, q.asid, q.page, q.write, q.memerr, [q.core], false⟩] ∧
        (q.router = 0 → t.flueReqs = dropNth s.flueReqs i) ∧
        (q.router ≠ 0 → ∃ n < q.router, t.flueReqs = modNth (fun x => { x with router := n, port := q.router }) s.flueReqs i) ∧
        t.rows = s.rows ∧ t.mem = s.mem))) ∧
  (∀ (s : State) (die i : Nat) (old : List FlueEnt) (e : FlueEnt) (rest : List FlueEnt), s.flue = old ++ e :: rest →
    (∀ x ∈ old, ¬ (x.die = die ∧ x.router = 0 ∧ x.sent = false)) → e.die = die → e.router = 0 → e.sent = false →
    (s.pkg.mmq.getLsbD 15 = false → exec (.flueRecord die i) s = .next s) ∧
    (s.pkg.mmq.getLsbD 15 = true → Wbits s.pkg.mmq 14 6 ≠ 0x1FF → Step s (.flueRecord die i) fun t =>
      t.flue = old ++ { e with sent := true } :: rest ∧ (getDie t die).flueSeq = ((getDie s die).flueSeq + 1) % 2 ^ 32 ∧
      t.rows = s.rows ∧ t.mem = s.mem ∧ ∃ h, t.held = s.held ++ [h] ∧ h.die = die ∧ h.pkt.core = some (Wbits s.pkg.mmq 14 6) ∧
        h.pkt.words = [wNat (2 ^ 32 * ((getDie s die).flueSeq % 2 ^ 32) + 2 ^ 16 * Wbits s.pkg.mmq 14 6 +
            2 ^ 8 * Wbits s.pkg.mmq 5 0 + 1), 0, wNat (2 ^ 52 * e.asid + 2 ^ 8 * e.page + e.write.toNat),
          wNat (die + 2 ^ 8 * e.memerr.toNat), 0, 0, 0, 0]) ∧
    (s.pkg.mmq.getLsbD 15 = true → Wbits s.pkg.mmq 14 6 = 0x1FF →
      (hqRoom s die = false → exec (.flueRecord die i) s = .next s) ∧
      (hqRoom s die = true → Step s (.flueRecord die i) fun t =>
        t.flue = old ++ { e with sent := true } :: rest ∧ (getDie t die).flueSeq = ((getDie s die).flueSeq + 1) % 2 ^ 32 ∧
        (getDie t die).produced = ((getDie s die).produced + 1) % 2 ^ 64 ∧ (getDie t die).msix = (getDie s die).msix + 1 ∧
        t.held = s.held ∧ t.rows = s.rows))) ∧
  (∀ (s : State) (v : Word),
    let asid := Wbits v 63 52
    let page := Wbits v 51 8
    Step s (.flueres v) fun t => (∀ e, e ∈ t.flue ↔ e ∈ s.flue ∧ ¬ (e.asid = asid ∧ e.page = page)) ∧
      (∀ q, q ∈ t.flueReqs ↔ q ∈ s.flueReqs ∧ ¬ (q.asid = asid ∧ q.page = page)) ∧ t.rows = s.rows ∧ t.mem = s.mem ∧
      ∀ c, ((∃ e ∈ s.flue, e.asid = asid ∧ e.page = page ∧ c ∈ e.cores) ∨
          ∃ q ∈ s.flueReqs, q.asid = asid ∧ q.page = page ∧ q.core = c) →
        ∃ x ∈ t.flueRes, x.asid = asid ∧ x.page = page ∧ x.refuse = v.getLsbD 0 ∧ c ∈ x.cores) ∧
  ∀ (s : State) (i core : Nat) (x : FlueRes), s.flueRes[i]? = some x → core ∈ x.cores → aimedAsid s core x.asid = none →
    asidOf s core = x.asid → upcallDue s core = false → Step s (.flueResolution i core) fun t =>
      ∀ k < 256,
        let r : RowId := ⟨core, k⟩
        let w := getRow s r
        let hit := w.st = .faulted ∧ w.fcause.getLsbD 10 = true ∧ Wbits w.fva 55 12 = x.page
        (¬ hit → getRow t r = w) ∧
        (hit → x.refuse = true → getRow t r = { w with fcause := (w.fcause &&& ~~~0x400#64) ||| 0x2000#64 } ∧
          (toSupervisor s r (Wbits w.fcause 7 0) = false → k ∈ (getCore t core).faultq) ∧
          (toSupervisor s r (Wbits w.fcause 7 0) = true → s.pkg.supq.getLsbD 15 = true → Wbits s.pkg.supq 14 6 ≠ 0x1FF →
            ∃ l, t.held = s.held ++ l ∧ ∃ h ∈ l, h.pkt.core = some (Wbits s.pkg.supq 14 6) ∧
              (h.pkt.words.drop 2).take 4 = [(w.fcause &&& ~~~0x400#64) ||| 0x2000#64, w.fva, rowVa s r, w.pc])) ∧
        (hit → x.refuse = false → coreHalted s core = true →
          getRow t r = { w with fcause := w.fcause &&& ~~~0x400#64, resolved := w.autores || Wbits w.fcause 7 0 == 12 }) ∧
        (hit → x.refuse = false → coreHalted s core = false → w.autores = false → Wbits w.fcause 7 0 ≠ 12 →
          getRow t r = { w with fcause := w.fcause &&& ~~~0x400#64 }) ∧
        (hit → x.refuse = false → coreHalted s core = false → w.autores = true ∨ Wbits w.fcause 7 0 = 12 →
          getRow t r = { w with
            fcause := w.fcause &&& ~~~0x400#64, st := .ready, why := 0, waitw := 0, await := none })

/-- R133, R214, R296, R319, R350-R356: a core of a stopping partition takes the halt: its rows stop with WHY 8; when it has
nothing left to perform it has finished; when all cores have, the partition is gang-stopped; a release makes those rows READY
again, and those whose resolution or wake-up came meanwhile. A swap exchanges what a core holds with its shadow, also where the
residents differ or run, once what running rows have handed over has been performed; a store aimed at a
swapped-out partition goes into its log, or waits when it does not fit, and the log is replayed in order. How a running resident
goes out is the model's choice (log entry 95). -/
def Obligations.PartitionsStopAndSwap : Prop :=
  (∀ (s : State) (core p : Nat), partOf s core = some p →
    let q := getPart s p
    (q.stopping = false ∨ core ∈ q.halted → exec (.halt core) s = .next s) ∧
    (q.stopping = true → core ∉ q.halted → core ∉ q.taken → (∀ k, (getRow s ⟨core, k⟩).stalled = false) → Step s (.halt core) fun t =>
      core ∈ (getPart t p).taken ∧
      ∀ k < 256, ((getRow s ⟨core, k⟩).st = .ready ∨ (getRow s ⟨core, k⟩).st = .waiting) →
        (getRow t ⟨core, k⟩).st = .stopped ∧ (getRow t ⟨core, k⟩).why = 8 ∧ (getRow t ⟨core, k⟩).pc = (getRow s ⟨core, k⟩).pc) ∧
    (q.stopping = true → core ∉ q.halted → core ∈ q.taken →
      (coreDrained s p core = false → exec (.halt core) s = .next s) ∧
      (coreDrained s p core = true → Step s (.halt core) fun t => core ∈ (getPart t p).halted))) ∧
  (∀ (s : State) (p : Nat), (getPart s p).stopping = true →
    ((∀ c ∈ boundCores s p, c ∈ (getPart s p).halted) → Step s (.haltReport p) fun t =>
      (getPart t p).stopped = true ∧ (getPart t p).stopping = false ∧ t.rows = s.rows ∧ t.mem = s.mem) ∧
    ((∃ c ∈ boundCores s p, c ∉ (getPart s p).halted) → exec (.haltReport p) s = .next s)) ∧
  (∀ (s : State) (p : Nat), (getPart s p).releasing = true → (getPart s p).log = [] →
    Step s (.gangRelease p) fun t =>
      (getPart t p).stopped = false ∧ (getPart t p).releasing = false ∧ (getPart t p).taken = [] ∧ (getPart t p).halted = [] ∧
      t.mem = s.mem ∧ ∀ c ∈ boundCores s p, ∀ k < 256, (getRow s ⟨c, k⟩).st = .stopped → (getRow s ⟨c, k⟩).why = 8 →
        (getRow t ⟨c, k⟩).st = .ready ∧ (getRow t ⟨c, k⟩).pc = (getRow s ⟨c, k⟩).pc ∧
        (getRow t ⟨c, k⟩).rstep = (getRow s ⟨c, k⟩).rstep) ∧
  (∀ (s : State) (p : Nat), (getPart s p).releasing = true → (getPart s p).log = [] →
    Step s (.gangRelease p) fun t => ∀ c ∈ boundCores s p, ∀ k < 256,
      (getRow s ⟨c, k⟩).st = .faulted ∨ (getRow s ⟨c, k⟩).st = .waiting →
      (getRow t ⟨c, k⟩).st = if (getRow s ⟨c, k⟩).resolved = true then .ready else (getRow s ⟨c, k⟩).st) ∧
  (∀ (s : State) (p : Nat), (getPart s p).releasing = true → (getPart s p).log ≠ [] → exec (.gangRelease p) s = .next s) ∧
  (∀ (s : State) (p k : Nat) (v : Bool), (getPart s p).swapping = true → (getPart s p).stopped = true → (getPart s p).releasing = false →
    let home := boundClusters s p
    let away := shadowClusters s p
    let cs := if home = [] then away else home
    cs ≠ [] → home = [] ∨ away = [] → (v = true → (getPart s k).stopped = true) →
    (∀ c ∈ cs, if home = [] then (getCl s c).valid = v ∧ (v = true → (getCl s c).part = k)
      else (getCl s c).svalid = v ∧ (v = true → (getCl s c).spart = k)) →
    (∀ n, n / 8 ∈ cs → (∀ a ∈ (smGet {} s.shadow n).empt, a < 0x20000) ∧ (∀ y ∈ (smGet {} s.shadow n).steer, y.core = n) ∧
      ∀ k < 256, (getRow s ⟨n, k⟩).stalled = false) →
    Step s (.swapExchange p) fun t => (getPart t p).swapping = false ∧
      (∀ c ∈ cs, (getCl t c).valid = (getCl s c).svalid ∧ (getCl t c).svalid = (getCl s c).valid ∧
        (getCl t c).part = (if (getCl s c).svalid then (getCl s c).spart else 0) ∧
        (getCl t c).spart = (if (getCl s c).valid then (getCl s c).part else 0)) ∧
      (∀ c, c ∉ cs → getCl t c = getCl s c) ∧ (∀ n, n / 8 ∈ cs → Exchanged s t n) ∧
      ∀ n, n / 8 ∉ cs → getCore t n = getCore s n ∧ smGet {} t.shadow n = smGet {} s.shadow n ∧
        ∀ k < 256, getRow t ⟨n, k⟩ = getRow s ⟨n, k⟩) ∧
  (∀ (s : State) (p : Nat), (getPart s p).swapping = true → boundClusters s p = [] → shadowClusters s p ≠ [] →
    (getPart s p).releasing = false → (∀ n, n / 8 ∈ shadowClusters s p → ∀ k < 256, (getRow s ⟨n, k⟩).stalled = false) →
    let runs := fun c : Nat => (getCl s c).valid = true ∧ (getPart s (getCl s c).part).stopped = false
    ((∀ n, n / 8 ∈ shadowClusters s p → runs (n / 8) → coreDrained s (getCl s (n / 8)).part n = true) →
      Step s (.swapExchange p) fun t => (getPart t p).swapping = false ∧ ∀ c ∈ shadowClusters s p,
        (getCl t c).valid = true ∧ (getCl t c).part = p ∧ (getCl t c).svalid = (getCl s c).valid ∧
        (getCl t c).spart = if (getCl s c).valid then (getCl s c).part else 0) ∧
    ((∃ n, n / 8 ∈ shadowClusters s p ∧ runs (n / 8) ∧ coreDrained s (getCl s (n / 8)).part n = false) →
      exec (.swapExchange p) s = .next s)) ∧
  (∀ (s : State) (core : Nat), (∀ a ∈ (smGet {} s.shadow core).empt, a < 0x20000) →
    (∀ y ∈ (smGet {} s.shadow core).steer, y.core = core) →
    Exchanged s (swapCore s core) core ∧ (∀ c, c ≠ core → getCore (swapCore s core) c = getCore s c) ∧
    (∀ y, y.core ≠ core → (y ∈ (swapCore s core).steer ↔ y ∈ s.steer)) ∧
    ∀ c, c ≠ core → ∀ k < 256, getRow (swapCore s core) ⟨c, k⟩ = getRow s ⟨c, k⟩) ∧
  (∀ (s : State) (part core : Nat) (e : StEnt) (es : List StEnt) (rest : SMap Core) (c : Core), s.cores = (core, c) :: rest →
    c.fifo = e :: es → entReady s e = true → aimedPartOf s e.part = some (core, part) → localStore s (dieOf core) e.part = true →
    Step s (.arrivalLog part) fun t =>
      (logFits s part (.store e) = true → (getPart t part).log = (getPart s part).log ++ [.store e] ∧
        (getPart t part).logUsed = (getPart s part).logUsed + logLen e.bytes.length ∧ (getPart t part).fullSent = false ∧
        (getCore t core).fifo = es) ∧
      (logFits s part (.store e) = false → (getPart t part).log = (getPart s part).log ∧ (getPart t part).fullSent = true ∧
        (getCore t core).fifo = e :: es)) ∧
  ∀ (s : State) (p : Nat) (row : RowId) (w : Nat) (v : Word) (ks : List Nat) (rest : List Logged),
    (getPart s p).log = .fill row w v ks :: rest →
    boundClusters s p ≠ [] → (getPart s p).swapping = false → 32 < w →
    owed s row (partIx s row.core) 0 row w = false → Step s (.logReplay p) fun t =>
      (getPart t p).log = rest ∧ (ks = List.range 8 → Filled s t row w v) ∧
      (∀ k < 8, memByte t (8 * rowWord row w + k) =
        if k ∈ ks then BitVec.ofNat 8 (v.toNat / 256 ^ k) else memByte s (8 * rowWord row w + k))
/-! # The Damper -/

/-- R376-R388: clocks and their mailbox, budgets, permits, refill, slope, caps and leases, Thaw. A privileged write only; a
target outside 10-25 sets ERR; a cap message counts when its sequence number is newer and its lease is not 0, and when its
windows are over the safe cap applies. A window gives Ember load, up to 40 W for each idle cluster that is present, for what is
short of Lo, in 1/100 W here; SY.THAWTX sends its image to the routed peers it names. That an image that cannot be read whole is
not sent, that steering moves no RATE past 255, and that the bounds of the next window follow the power with the new Ember load,
are the model's choices (log entries 100, 93, 113). -/
def Obligations.DamperSteps : Prop :=
  (∀ (s : State) (cl : Nat) (v : Word), cl < 40 →
    let f := Wbits v 7 0
    let k := (getCl s cl).clk
    let only := fun t : State => (∀ c, c ≠ cl → getCl t c = getCl s c) ∧ t = { s with clusters := t.clusters }
    exec (.syClk cl v false) s = .next s ∧
    (f < 10 ∨ 25 < f → Step s (.syClk cl v true) fun t => (getCl t cl).clk = { k with err := true } ∧ only t) ∧
    (10 ≤ f → f ≤ 25 → k.busy = true → Step s (.syClk cl v true) fun t =>
      (getCl t cl).clk = { k with err := false, pend := some f } ∧ only t) ∧
    (10 ≤ f → f ≤ 25 → k.busy = false → min f k.fmax ≠ k.freq → Step s (.syClk cl v true) fun t =>
      (getCl t cl).clk = { k with err := false, freq := min f k.fmax, busy := true, pend := none } ∧ only t) ∧
    (k.busy = true → k.pend = none → Step s (.clockTransition cl) fun t => (getCl t cl).clk = { k with busy := false } ∧ only t) ∧
    (∀ g, k.busy = true → k.pend = some g → min g k.fmax ≠ k.freq → Step s (.clockTransition cl) fun t =>
      (getCl t cl).clk = { k with freq := min g k.fmax, busy := true, pend := none } ∧ only t) ∧
    let b := (getCl s cl).bud
    exec (.syCbudget cl v false) s = .next s ∧
    Step s (.syCbudget cl v true) (fun t => only t ∧ (getCl t cl).bud = { b with
      steer := v.getLsbD 31, cap := if Wbits v 27 16 = 0 then b.cap else Wbits v 27 16,
      crate := if f = 0 then b.crate else f,
      rate := if f ≠ 0 then f else if v.getLsbD 31 then b.rate else b.crate }) ∧
    Step s (.refill cl) (fun t => only t ∧
      (getCl t cl).bud = { b with bal := min (b.cap : Int) (b.bal + ((b.rate * s.pkg.scale / 256 : Nat) : Int)) } ∧
      (getCl t cl).reqs = (getCl s cl).reqs.map fun q => { q with us := q.us + 1 }) ∧
    ∀ hot, Step s (.temperatureSensor cl hot) fun t => only t ∧ getCl t cl = { getCl s cl with hot := hot }) ∧
  (∀ (s : State) (cl : Nat) (q : Permit), cl < 40 → firstPermit (getCl s cl).reqs = some q →
    let c := getCl s cl
    (c.bud.bal < (min q.units c.bud.cap : Nat) → exec (.permitGrant cl) s = .next s) ∧
    ((min q.units c.bud.cap : Nat) ≤ c.bud.bal →
      (q.core = none → Step s (.permitGrant cl) fun t => (getCl t cl).bud = { c.bud with bal := c.bud.bal - q.units } ∧
        (getCl t cl).permit = true ∧ (getCl t cl).reqs = (c.reqs.filter fun x => x.id ≠ q.id) ∧
        ∀ n, n / 8 = cl → (getMx t n).st = .running ∧ (getMx t n).step = 0) ∧
      (∀ n, q.core = some n → Step s (.permitGrant cl) fun t => (getCl t cl).bud = { c.bud with bal := c.bud.bal - q.units } ∧
        (getEdge t n).granted = true ∧ (getCl t cl).reqs = c.reqs.filter fun x => x.id ≠ q.id))) ∧
  (∀ (s : State) (v : Word),
    let q := s.pkg
    let only := fun t : State => t = { s with pkg := t.pkg }
    exec (.sySlope v false) s = .next s ∧ exec (.capMessage v false) s = .next s ∧
    Step s (.sySlope v true) (fun t => only t ∧ t.pkg = { q with
      slopeFloor := if Wbits v 47 32 = 0 then q.slopeFloor else Wbits v 47 32,
      slopeDown := if Wbits v 31 16 = 0 then q.slopeDown else Wbits v 31 16,
      slopeUp := if Wbits v 15 0 = 0 then q.slopeUp else Wbits v 15 0 }) ∧
    (let ahead := (2 ^ 32 + Wbits v 63 32 - Wbits q.capmsg 63 32) % 2 ^ 32
     let takes := 1 ≤ ahead ∧ ahead < 2 ^ 31 ∧ Wbits v 31 16 ≠ 0
     (takes → Step s (.capMessage v true) fun t => only t ∧ t.pkg = { q with
        capmsg := v, capnow := min (Wbits v 15 0) 1600, capOn := true, lease := 100 * Wbits v 31 16 }) ∧
     (¬ takes → exec (.capMessage v true) s = .next s)) ∧
    (q.capOn = true → q.lease = 0 → Step s .leaseExpiry fun t =>
      only t ∧ t.pkg = { q with capOn := false, capnow := q.safecap }) ∧
    (q.capOn = false ∨ q.lease ≠ 0 → exec .leaseExpiry s = .next s) ∧
    (∀ n ≤ 10, q.thawHold = some n → Step s .thawHoldEnd (fun t => only t ∧ t.pkg = { q with thawHold := none })) ∧
    (q.thawHold = none ∨ (∃ n > 10, q.thawHold = some n) → exec .thawHoldEnd s = .next s)) ∧
  (∀ (s : State) (img : List Byte),
    let seq := leNat (img.take 4)
    let stp := leNat ((img.drop 8).take 2)
    let slot := (img.getD (0x10 + s.pkg.devidx.toNat % 256) 0).toNat
    let ahead := (2 ^ 32 + seq - s.pkg.thawSeq) % 2 ^ 32
    (1 ≤ ahead → ahead < 2 ^ 31 → stp ≠ 0 → Step s (.thawMessage img) fun t => t = { s with pkg := { s.pkg with
      thawSeq := seq, thawSlot := slot,
      thawHold := if slot = 0xFF ∨ slot = 0 then none else some ((slot * stp + 999) / 1000) } }) ∧
    (ahead = 0 ∨ 2 ^ 31 ≤ ahead ∨ stp = 0 → exec (.thawMessage img) s = .next s)) ∧
  (∀ (s : State) (v : Word),
    exec (.thawSend v false) s = .next s ∧
    let r := thawImage s 0 (2 ^ 12 * Wbits v 51 12)
    Step s (.thawSend v true) fun t => (r.1 = none → t = r.2) ∧ ∀ img, r.1 = some img →
      let u := { r.2 with pkg := { r.2.pkg with thawOut := r.2.pkg.thawOut ++ (thawPeers r.2 v).map fun i => (i, img) } }
      (∀ i, i ∈ thawPeers r.2 v ↔ routed r.2 i = true ∧ if v.getLsbD 8 then i < 256 else i = Wbits v 7 0) ∧
      (v.getLsbD 8 = true ∨ Wbits v 7 0 = s.pkg.devidx.toNat % 256 → t = thawReceive u img) ∧
      (v.getLsbD 8 = false → Wbits v 7 0 ≠ s.pkg.devidx.toNat % 256 → t = u)) ∧
  (∀ (s : State) (a b : Nat), a ≠ b →
    let x := (getCl s a).bud
    let y := (getCl s b).bud
    let m := x.crate / 8
    let moves := x.crate + 2 * m ≤ 2 * x.rate ∧ 2 * (y.rate + m) ≤ 3 * y.crate ∧ y.rate + m ≤ 255
    let t := moveRate s a b
    (moves → (getCl t a).bud = { x with rate := x.rate - m } ∧ (getCl t b).bud = { y with rate := y.rate + m } ∧
      (∀ c, c ≠ a → c ≠ b → getCl t c = getCl s c) ∧ t = { s with clusters := t.clusters }) ∧
    (¬ moves → t = s)) ∧
  ∀ (s : State) (w : DamperReading),
    let q := s.pkg
    let p := 100 * w.watts
    let load := p - q.ember
    let short := if 100 * q.slopeFloor < q.lo then q.lo - load else 0
    let idle := (List.range 40).filter fun c => gangIdle s c && corePresent s (8 * c)
    let held := load + min short (4000 * idle.length)
    Step s (.damperWindow w) fun t =>
      t.pkg.ember = min short (4000 * idle.length) ∧ t.pkg.thawHold = q.thawHold.map (fun n => n - 10) ∧
      (∀ c < 40, (getCl t c).ember ≤ 4000 ∧ (c ∉ idle → (getCl t c).ember = 0)) ∧
      t.pkg.pmeas = w.watts % 2 ^ 16 ∧ t.pkg.scale = min 256 w.scale ∧ t.pkg.lease = q.lease - 1 ∧
      t.pkg.hi = min (max (100 * q.capnow) (held - q.slopeDown)) (held + q.slopeUp) ∧ t.pkg.lo = held - q.slopeDown ∧
      t.pkg.capnow = q.capnow ∧ t.rows = s.rows ∧ t.mem = s.mem ∧ t.cores = s.cores ∧
      ∀ c < 40, (getCl t c).clk.fmax =
        if q.hi < p then (if q.scale = 0 ∧ c ∈ w.draw then max 10 ((getCl s c).clk.fmax - 1) else (getCl s c).clk.fmax)
        else if p < q.hi then min 25 ((getCl s c).clk.fmax + 1) else (getCl s c).clk.fmax
/-! # Inbox queues, the host and peers -/

/-- R364-R368: a notify value further ahead of HEAD than the ring has slots is an OVERRUN and ignored; else it is the one in
progress, or waits while another is. Admission reads the header at HEAD: a LAP of another pass is read again, up to 64 times or
until time is up, and then the queue is TORN at an index it keeps; a malformed packet is dropped as BADPKT; a sound one enters
an inbox with room and HEAD goes on, and without room it is kept, and enters, without another read, when there is room. A
control page is written while EN = 0. That a packet for CORE 0x1FF enters the inbox of the die of its ring, and that PART is
kept and the queue goes on after a control write with EN = 1, are the model's choices (log entries 52, 22). -/
def Obligations.InboxQueues : Prop :=
  ∀ (s : State) (q : Nat), q < 256 →
    let Q := fun (u : State) (k : Nat) => (smGet {} u.pkg.queues k : InQ)
    let x := Q s q
    let only := fun (u t : State) => (∀ k, k ≠ q → Q t k = Q u k) ∧ t = { u with pkg := { u.pkg with queues := t.pkg.queues } }
    let takes := fun (n : Nat) => if 2 ^ x.logn < (2 ^ 32 + n - x.head) % 2 ^ 32 then { x with code := 3, index := n }
      else { x with cur := if n = x.head then none else some n, tries := 0 }
    (∀ (v : Word),
      let n := Wbits v 31 0
      (x.en = false ∨ x.nkind = true → Step s (.tail q v) fun t => Q t q = x ∧ only s t) ∧
      (x.en = true → x.nkind = false → x.cur = none → Step s (.tail q v) fun t => Q t q = takes n ∧ only s t) ∧
      (x.en = true → x.nkind = false → x.cur ≠ none → Step s (.tail q v) fun t =>
        Q t q = { x with pend := x.pend ++ [n] } ∧ only s t) ∧
      let pa := x.naddr.toNat - x.naddr.toNat % 8
      (x.nkind = false → exec (.notifyWordStore q v) s = .next s) ∧
      (x.nkind = true → x.en = true → region s pa = .gddr →
        (s.pkg.queues.filter fun e => e.2.en && e.2.nkind && e.2.naddr.toNat / 8 == pa / 8) = [(q, x)] →
        Step s (.notifyWordStore q v) fun t =>
          Q t q = (if x.cur = none then takes n else { x with pend := x.pend ++ [n] }) ∧
          (∀ k, k ≠ q → Q t k = Q s k) ∧ (∀ k < 8, memByte t (pa + k) = BitVec.ofNat 8 (v.toNat / 2 ^ (8 * k))) ∧
          (∀ l ∈ t.l2, l.pl ≠ pa / 128) ∧ t.rows = s.rows ∧
          ((∀ l ∈ s.l2, l.pl ≠ pa / 128) → ∀ a, a / 8 ≠ pa / 8 → memByte t a = memByte s a))) ∧
    (x.ready = none → x.cur = none → ∀ late, exec (.admission q late) s = .next s) ∧
    (∀ pkt late, x.ready = some pkt → x.pend = [] →
      let next := (x.head + 1) % 2 ^ 32
      let d := pktDie s x.part (x.qbase.toNat / 0x1000 % 2) (Wbits (pkt.words.getD 0 0) 24 16)
      (2048 ≤ inboxCount s d pkt.part → Step s (.admission q late) fun t => Q t q = x ∧ only s t) ∧
      (inboxCount s d pkt.part < 2048 → Step s (.admission q late) fun t =>
        Q t q = { x with head := next, tries := 0, ready := none, cur := if x.cur = some next then none else x.cur } ∧
        (∀ k, k ≠ q → Q t k = Q s k) ∧ getDie t d = { getDie s d with inbox := (getDie s d).inbox ++ [pkt] } ∧
        t = { s with pkg := t.pkg, dies := t.dies })) ∧
    (x.ready = none → x.cur ≠ none → x.pend = [] → ∀ late,
      let a := slotRead s x 1 0
      let h := wNat (leNat (a.1.take 8))
      let len := 32 * (Wbits h 2 0 + 1)
      let b := slotRead a.2 x (Wbits h 2 0 + 1) 0
      let ws := wordsOf b.1 (len / 8)
      let lap := if x.head / 2 ^ x.logn % 2 = 0 then 1 else 0
      let next := (x.head + 1) % 2 ^ 32
      let onward := { x with head := next, tries := 0, cur := if x.cur = some next then none else x.cur }
      (Wbits h 6 6 ≠ lap → x.tries = 64 ∨ late = true → Step s (.admission q late) fun t =>
        Q t q = { x with code := 1, index := x.head, cur := none, tries := 0 } ∧ only a.2 t) ∧
      (Wbits h 6 6 ≠ lap → x.tries ≠ 64 → late = false → Step s (.admission q late) fun t =>
        Q t q = { x with tries := x.tries + 1 } ∧ only a.2 t) ∧
      (Wbits h 6 6 = lap → wellFormed b.2 (some x.part) ws = false → Step s (.admission q late) fun t =>
        Q t q = { onward with code := 2, index := x.head } ∧ only b.2 t) ∧
      (Wbits h 6 6 = lap → wellFormed b.2 (some x.part) ws = true →
        let d := pktDie b.2 x.part (x.qbase.toNat / 0x1000 % 2) (Wbits h 24 16)
        (2048 ≤ inboxCount b.2 d x.part → Step s (.admission q late) fun t =>
          Q t q = { x with ready := some (mkPacket ws x.part none) } ∧ only b.2 t) ∧
        (inboxCount b.2 d x.part < 2048 → Step s (.admission q late) fun t =>
          Q t q = onward ∧ (∀ k, k ≠ q → Q t k = Q b.2 k) ∧
          getDie t d = { getDie b.2 d with inbox := (getDie b.2 d).inbox ++ [mkPacket ws x.part none] } ∧
          t = { b.2 with pkg := t.pkg, dies := t.dies }))) ∧
    ∀ (off : Nat) (v : Word),
      (x.en = true → Step s (.inboxControlWrite q off v) fun t => (Q t q).part = x.part ∧ (∀ k, k ≠ q → Q t k = Q s k) ∧
        t = { s with pkg := { s.pkg with queues := t.pkg.queues }, freeCtr := t.freeCtr }) ∧
      (x.en = false → Step s (.inboxControlWrite q off v) fun t => only s t ∧
        Q t q = (if off = 0 then { x with
            logn := Wbits v 23 16, nkind := v.getLsbD 9, en := v.getLsbD 8, part := Wbits v 5 0, cur := none, pend := [],
            tries := 0, ready := none }
          else if off = 8 then { x with qbase := v }
          else if off = 16 then { x with naddr := v &&& ~~~7#64 }
          else if off = 24 then { x with head := Wbits v 31 0 } else x))

/-- R55-R58, R354, R361-R363, R371, R372, R397: what the host does, with the ASID and privilege of its link's path. A link that is
down carries nothing; with EN = 0, and for a store that R55 refuses, nothing is performed; an access to a row waits for its
boundary, and one aimed at a swapped-out partition goes into its log; device memory is written past every copy and read past the
dirty ones; BAR0 reads and writes registers and queue pages; a CXL read enters the line's region in the directory, and a snoop
writes back, or removes, the link's die's copies. -/
def Obligations.HostAccesses : Prop :=
  (∀ (s : State) (who : Agent) (r : RowId) (win off pa : Nat), region s pa = .row r win off →
    let p := agentPath s who
    (agentUp s who = false → ∀ op, exec (.outsideAccess who pa op) s = .next s) ∧ (agentUp s who = true → lostFail s pa = false →
    (∀ op, p.en = false → Step s (.outsideAccess who pa op) fun t => Answered s t none) ∧
    (∀ bs, onePart pa bs.length → 0x108 ≤ off → off + bs.length ≤ 0x1000 → p.en = true →
      (p.priv = false → (getRow s r).priv = true → aimedAsid s r.core p.asid = none → Step s (.outsideAccess who pa (.write bs)) fun t => Answered s t none) ∧
      (p.priv = true ∨ (getRow s r).priv = false → aimedAsid s r.core p.asid = none →
        ((getRow s r).stalled = true → exec (.outsideAccess who pa (.write bs)) s = .next s) ∧
        ((getRow s r).stalled = false → Step s (.outsideAccess who pa (.write bs)) fun t =>
          StoredInRow s t r off bs ∧ t.empt = s.empt ∧ t.rows = s.rows ∧ t.hostReply = none)) ∧
      (∀ k, p.priv = true ∨ privAt s p.asid r = false → aimedAsid s r.core p.asid = some k →
        logFits s k (.store (outEntry p pa bs false)) = true → Step s (.outsideAccess who pa (.write bs)) fun t =>
          (getPart t k).log = (getPart s k).log ++ [.store (outEntry p pa bs false)] ∧ t.rows = s.rows ∧ t.hostReply = none)) ∧
    (∀ n k, onePart pa n → p.en = true → aimedAsid s r.core p.asid = some k →
      logFits s k (.outside ⟨p.asid, p.priv, p.core, pa, n, none, 0, .rne⟩) = true → Step s (.outsideAccess who pa (.read n)) fun t =>
        (getPart t k).log = (getPart s k).log ++ [.outside ⟨p.asid, p.priv, p.core, pa, n, none, 0, .rne⟩] ∧ t.rows = s.rows ∧
        t.hostReply = s.hostReply) ∧
    ∀ n, onePart pa n → p.en = true → aimedAsid s r.core p.asid = none →
      ((getRow s r).stalled = true → exec (.outsideAccess who pa (.read n)) s = .next s) ∧
      ((getRow s r).stalled = false → (∀ w ∈ rowWords off n, isPoison s r w = false) →
        Step s (.outsideAccess who pa (.read n)) fun t => Answered s t (some (rowBytes s r off n))))) ∧
  (∀ (s : State) (link : Nat) (bar : HostBar) (off : Nat),
    let up := s.pkg.boot = none ∧ link < 2 ∧ (getDie s link).failed = false ∧ ¬ (s.pkg.minimal = true ∧ link = 1)
    let p := hostPathOf s link
    let cxl := bar = .cxlMem → (getDie s link).cxl = true
    (¬ up → (∀ bs, exec (.hostWrite link bar off bs) s = .next s) ∧ ∀ n, exec (.hostRead link bar off n) s = .next s) ∧
    (up → cxl → bar ≠ .bar0 → p.en = false → (∀ bs, Step s (.hostWrite link bar off bs) fun t => Answered s t none) ∧
      ∀ n, Step s (.hostRead link bar off n) fun t => Answered s t none) ∧
    (up → cxl → bar = .bar2 ∨ bar = .cxlMem → p.en = true → ∀ bs, bs ≠ [] → off + bs.length ≤ 0x3000000000 →
      (∀ k < bs.length, region s (off + k) = .gddr ∧ lostFail s (off + k) = false) → Step s (.hostWrite link bar off bs) fun t =>
        WrittenFromOutside s t off bs ∧ t.rows = s.rows ∧ t.hostReply = none) ∧
    (up → bar = .bar2 → p.en = true → ∀ n, onePart off n → off + n ≤ 0x3000000000 → region s off = .gddr → lostFail s off = false →
      (∀ k < n, (off + k) / 8 ∉ s.poison) → Step s (.hostRead link bar off n) fun t => ReadFromOutside s t off n) ∧
    (up → cxl → bar = .cxlMem → p.en = true → ∀ n, onePart off n → off + n ≤ 0x3000000000 → region s off = .gddr → lostFail s off = false →
      (∀ k < n, (off + k) / 8 ∉ s.poison) →
      let d := off / 0x1000 % 2
      (∀ e ∈ (getDie s d).dir ++ (getDie s d).inval, ¬ (e.1 ≤ off ∧ off < e.1 + e.2)) → (getDie s d).dir.length < 16384 →
      Step s (.hostRead link bar off n) fun t => t.hostReply = some (seenAfter s t off n) ∧
        getDie t d = { getDie s d with dir := (getDie s d).dir ++ [(off / 0x10000 * 0x10000, 0x10000)] }) ∧
    (up → bar = .bar4 → off < 320 * 0x1000000 → ∀ r win o, region s (rowBase + off) = .row r win o →
      (∀ bs, bs.length ≤ 16 → off + bs.length ≤ 320 * 0x1000000 →
        exec (.hostWrite link bar off bs) s = exec (.outsideAccess (.host link) (rowBase + off) (.write bs)) s) ∧
      ∀ n ≤ 16, off + n ≤ 320 * 0x1000000 →
        exec (.hostRead link bar off n) s = exec (.outsideAccess (.host link) (rowBase + off) (.read n)) s) ∧
    (up → bar = .bar0 →
      (∀ n, n ≠ 8 ∨ off % 8 ≠ 0 → Step s (.hostRead link bar off n) fun t => Answered s t none) ∧
      (∀ bs, bs.length ≠ 8 ∨ off % 8 ≠ 0 → Step s (.hostWrite link bar off bs) fun t => Answered s t none) ∧
      (∀ k, off = 8 * k → sysAssigned k = true → k < 0x1000 →
        Step s (.hostRead link bar off 8) (fun t => Answered s t (some (leBytes 8 (sysRead s (160 * link) p.priv k).toNat))) ∧
        ∀ v : Word, Step s (.hostWrite link bar off (leBytes 8 v.toNat)) fun t =>
          Answered (sysWrite s (160 * link) p.priv k v) t none) ∧
      ∀ q < 256, let x : InQ := smGet {} s.pkg.queues q
        (∀ v : Word, off = 0x1000000 + 0x2000 * q → ∃ u, exec (.tail q v) s = .next u ∧
          Step s (.hostWrite link bar off (leBytes 8 v.toNat)) fun t => Answered u t none) ∧
        (∀ (v : Word) (o : Nat), o < 0x1000 → o % 8 = 0 → off = 0x1001000 + 0x2000 * q + o →
          ∃ u, exec (.inboxControlWrite q o v) s = .next u ∧
          Step s (.hostWrite link bar off (leBytes 8 v.toNat)) fun t => Answered u t none) ∧
        (off = 0x1000008 + 0x2000 * q → Step s (.hostRead link bar off 8) fun t =>
          Answered s t (some (leBytes 8 (x.head % 2 ^ 64)))) ∧
        (off = 0x1000010 + 0x2000 * q → Step s (.hostRead link bar off 8) fun t =>
          Answered s t (some (leBytes 8 ((2 ^ 32 * x.code + x.index) % 2 ^ 64)))))) ∧
  (∀ (s : State) (die pa : Nat) (inval : Bool),
    let live := s.pkg.boot = none ∧ die < 2 ∧ (getDie s die).failed = false ∧ ¬ (s.pkg.minimal = true ∧ die = 1) ∧
      (getDie s die).cxl = true
    let hit := fun (x : Line) => x.die == die && x.pl == pa / 128 && region s pa == .host
    (¬ live → exec (.cxlSnoop die pa inval) s = .next s) ∧
    (live → Step s (.cxlSnoop die pa inval) fun t => t = { s with mem := t.mem, l2 := t.l2 } ∧
      t.l2 = (if inval then s.l2.filter fun x => !hit x else s.l2.map fun x => if hit x then { x with dirty := false } else x) ∧
      (∀ x, s.l2.filter hit = [x] → x.dirty = true → x.data.length = 128 → ∀ a, memByte t a =
        if 128 * x.pl ≤ a ∧ a < 128 * x.pl + 128 then x.data.getD (a - 128 * x.pl) 0 else memByte s a) ∧
      ((∀ x ∈ s.l2, hit x = true → x.dirty = false) → t.mem = s.mem))) ∧
  ∀ (s : State) (die i a n : Nat), (getDie s die).dir[i]? = some (a, n) → 0 < n →
    let sib := if a / n % 2 = 0 then (a + n, n) else (a - n, n)
    (n < 0x10000 → sib ∈ (getDie s die).dir → Step s (.directoryMerge die i) fun t =>
      (min a sib.1, 2 * n) ∈ (getDie t die).dir ∧ sib ∉ (getDie t die).dir ∧
      (∀ e, e ≠ (a, n) → e ≠ sib → e ≠ (min a sib.1, 2 * n) → (e ∈ (getDie t die).dir ↔ e ∈ (getDie s die).dir)) ∧
      (∀ d, d ≠ die → getDie t d = getDie s d) ∧ t = { s with dies := t.dies }) ∧
    (0x10000 ≤ n ∨ sib ∉ (getDie s die).dir → exec (.directoryMerge die i) s = .next s) ∧
    ∀ j, Step s (.backInvalidateCompletion die j) fun t =>
      getDie t die = { getDie s die with inval := (getDie s die).inval.take j ++ (getDie s die).inval.drop (j + 1) } ∧
      (∀ d, d ≠ die → getDie t d = getDie s d) ∧ t = { s with dies := t.dies }

/-- R373, R374, R53, R245, R246, R257: accesses from a peer are performed with the path of their port, as the host's are, once the
host has given up their lines; with EN = 0 they are refused. An atomic answers with the old value, rounds as its issuer does, and a
CAS that fails writes nothing; a decrement answers a status too, and at 0 the home sends the packet or refuses it. An `fe` load
waits for full words, and empties those that can be empty with `fe.take`; an `fe.set` store sets them full. A packet is answered 0 when it enters an inbox, 1 when it is malformed,
2 when its inbox is full. That its partition is the lowest with the port's ASID, the form of the answers, and that the host's lines
are given up at once, are the model's choices (log entries 51, 17, 46). -/
def Obligations.PeersAccess : Prop :=
  ∀ (s : State) (port pa : Nat), port < 16 → s.pkg.boot = none → (getDie s (port / 8)).failed = false →
    ¬ (s.pkg.minimal = true ∧ 8 ≤ port) →
    let p := portPathOf s port
    (p.en = false → ∀ op, Step s (.peerAccess port pa op) fun t => Answered s t none) ∧
    (p.en = true → region s pa = .gddr → lostFail s pa = false →
      let u := peerForce s pa
      (∀ n, u n = { s with dies := (u n).dies }) ∧
      (∀ n, onePart pa n → (∀ k < n, (pa + k) / 8 ∉ s.poison) → Step s (.peerAccess port pa (.load n)) fun t =>
        ReadFromOutside (u n) t pa n) ∧
      (∀ bs, onePart pa bs.length → Step s (.peerAccess port pa (.store bs)) fun t =>
        WrittenFromOutside s t pa bs ∧ t.rows = s.rows ∧ t.hostReply = none) ∧
      (∀ v : Word, pa % 8 = 0 → Step s (.peerAccess port pa (.notify v)) fun t =>
        WrittenFromOutside s t pa (leBytes 8 v.toNat) ∧ t.rows = s.rows ∧ t.hostReply = none) ∧
      ((∀ l ∈ s.l2, l.pl ≠ pa / 128) → (∀ c, ∀ x ∈ (getCore s c).red, x.pa / 128 ≠ pa / 128) → pa / 8 ∉ s.poison →
        (∀ (fn : Nat) (dbl : Bool) (b e : Word) (rm : BitVec 2), fn < 12 →
          let n := if dbl then 8 else 4
          let old := memRead s pa n
          let new := leBytes n (amoNew fn n (rmCode rm.toNat) (leNat old) (b.toNat % 2 ^ (8 * n)) (e.toNat % 2 ^ (8 * n))).1
          pa % n = 0 →
          (fn = 9 → leNat old ≠ e.toNat % 2 ^ (8 * n) → Step s (.peerAccess port pa (.atomic fn dbl b e rm)) fun t =>
            Answered (u n) t (some old)) ∧
          (fn ≠ 9 ∨ leNat old = e.toNat % 2 ^ (8 * n) → fn ≠ 10 ∨ leNat old ≠ 1 →
            Step s (.peerAccess port pa (.atomic fn dbl b e rm)) fun t =>
              t.hostReply = some (old ++ if fn = 10 then leBytes 8 0 else []) ∧ WrittenFromOutside s t pa new ∧ t.held = s.held) ∧
          (fn = 10 → leNat old = 1 → pa % 16 = 0 → pa / 8 + 1 ∉ s.poison →
            Step s (.peerAccess port pa (.atomic fn dbl b e rm)) fun t =>
              FiredForPeer s t p pa old ∧ WrittenFromOutside s t pa new)) ∧
        (pa % 16 = 0 → pa / 8 + 1 ∉ s.poison → Step s (.peerAccess port pa .fireAgain) fun t =>
          FiredForPeer s t p pa [] ∧ t.mem = s.mem ∧ t.rows = s.rows))) ∧
    (∀ r win o, region s pa = .row r win o →
      (∀ bs, bs.length ≤ 16 → exec (.peerAccess port pa (.store bs)) s = exec (.outsideAccess (.peer port) pa (.write bs)) s) ∧
      (∀ n ≤ 16, exec (.peerAccess port pa (.load n)) s = exec (.outsideAccess (.peer port) pa (.read n)) s) ∧
      (p.en = true → lostFail s pa = false → aimedAsid s r.core p.asid = none → (getRow s r).stalled = false →
        (∀ n take, onePart pa n → (∀ w ∈ rowWords o n, isPoison s r w = false) →
          ((∃ w ∈ rowWords o n, isEmpty s r w = true) → exec (.peerAccess port pa (.feLoad n take)) s = .next s) ∧
          ((∀ w ∈ rowWords o n, isEmpty s r w = false) → Step s (.peerAccess port pa (.feLoad n take)) fun t =>
            t.hostReply = some (rowBytes s r o n) ∧ t.mem = s.mem ∧ t.rows = s.rows ∧
            (take = false → t.empt = s.empt) ∧ (take = true → ∀ w ∈ rowWords o n, isEmpty t r w = decide (32 < w)))) ∧
        ∀ bs, onePart pa bs.length → 0x108 ≤ o → o + bs.length ≤ 0x1000 → p.priv = true ∨ (getRow s r).priv = false →
          Step s (.peerAccess port pa (.feStore bs)) fun t =>
            StoredInRow s t r o bs ∧ t.hostReply = none ∧ ∀ w ∈ rowWords o bs.length, isEmpty t r w = false)) ∧
    (p.en = true → ∀ ws : List Word,
      let h := ws.getD 0 0
      let k := asidPart s p.asid
      let sound := wellFormed s k ws && 4 * (Wbits h 2 0 + 1) == ws.length
      let d := pktDie s (k.getD 0) (port / 8) (Wbits h 24 16)
      (sound = false → Step s (.peerAccess port pa (.packet ws)) fun t => Answered s t (some (leBytes 8 1))) ∧
      (sound = true → 2048 ≤ inboxCount s d (k.getD 0) → Step s (.peerAccess port pa (.packet ws)) fun t =>
        Answered s t (some (leBytes 8 2))) ∧
      (sound = true → inboxCount s d (k.getD 0) < 2048 → Step s (.peerAccess port pa (.packet ws)) fun t =>
        t.hostReply = some (leBytes 8 0) ∧ t = { s with hostReply := t.hostReply, dies := t.dies } ∧
        (∀ x, x ≠ d → getDie t x = getDie s x) ∧
        getDie t d = { getDie s d with inbox := (getDie s d).inbox ++ [mkPacket ws (k.getD 0) none] }))

/-! # The engines' steps -/

/-- R287-R290: a gang begins when all eight places have joined with one pointer, else it ends MISMATCH; the prefetch reads the
header and the first tile; then all places wait for the permit for the work that MACS names. -/
def Sys2Proof.Claims.GangsBegin : Prop :=
  ∀ (s : State) (cl : Nat), cl < 40 →
    let place := fun (t : State) (n : Nat) => getMx t n
    let each := fun (P : Nat → Prop) => ∀ n, n / 8 = cl → P n
    ((∃ n, n / 8 = cl ∧ (place s n).st ≠ .joining) → exec (.gangBarrier cl) s = .next s) ∧
    (each (fun n => (place s n).st = .joining) →
      (each (fun n => (place s n).almanac = (place s (8 * cl)).almanac) → Step s (.gangBarrier cl) fun t =>
        each (fun n => place t n = { place s n with st := .prefetch }) ∧ t = { s with cores := t.cores }) ∧
      ((∃ n, n / 8 = cl ∧ (place s n).almanac ≠ (place s (8 * cl)).almanac) → Step s (.gangBarrier cl) fun t =>
        GangEnded s t cl 2)) ∧
    (each (fun n => ¬ ((place s n).active .prefetch = true ∧ (place s n).cur.isSome = true)) →
      (place s (8 * cl)).active .prefetch = true → ∀ (h : Nat × Nat) (t : State), readHdr s (8 * cl) = (.ok h, t) →
      (∀ f u, scanLoad t (8 * cl) h.1 (h.1 % 2 ^ 21 + 1) 0 false = (.fault f, u) → Step s (.prefetch cl) fun v =>
        (place v (8 * cl)).st = .held ∧ (place v (8 * cl)).held = some f) ∧
      (∀ u, scanLoad t (8 * cl) h.1 (h.1 % 2 ^ 21 + 1) 0 false = (.ok none, u) → Step s (.prefetch cl) fun v =>
        each (fun n => (place v n).st = .permit ∧ (place v n).est = 0 ∧ (place v n).step = 0 ∧ (place v n).hdr = some h) ∧
        ∃ q, (getCl v cl).reqs = (getCl u cl).reqs ++ [q] ∧ q.units = h.2 ∧ q.est = 0 ∧ q.core = none) ∧
      (∀ i w0 w1 u, scanLoad t (8 * cl) h.1 (h.1 % 2 ^ 21 + 1) 0 false = (.ok (some (i, w0, w1)), u) →
        Step s (.prefetch cl) fun v =>
          each (fun n => n ≠ 8 * cl + Wbits w0 6 4 → (place v n).st = .permit ∧ (place v n).hdr = some h) ∧
          let m := place v (8 * cl + Wbits w0 6 4)
          m.st = .prefetch ∧ m.step = i ∧ m.cur = some (w0, w1) ∧ m.hdr = some h))

/-- R42, R74, R275, R277, R279, R280, R290, R294, R297: a tile is read page by page: with no page in hand a pending shootdown leaves
the step stuck, else all bytes still to be read of the page are checked first. A part of up to 16 bytes that completes a row adds
its elements and, for the first 16 rows, its changed bits; the last row completes the tile, and only then a malformed block sets
BADBLK. The estimate follows, or the latch takes the tile. A fault holds the step with
nothing of it performed; BFMT 0 outside a core aperture ends the gang with 3. -/
def Sys2Proof.Claims.TilesLoad : Prop :=
  ∀ (s : State) (core : Nat) (w0 w1 : Word), core < 320 →
    let m := getMx s core
    let va := w1 + wNat (m.sub * Wbits w0 31 16 + m.part.length)
    let acc : Acc := { rd := true, engine := true, mtag := some (Wbits w1 59 56) }
    let fetching := m.active .prefetch = true ∧ ∀ n, n / 8 = core / 8 → n ≠ core → (getMx s n).cur = none
    let loading := m.active .running = true ∧ m.gm ≠ 0 ∧ Wbits w0 6 4 = core % 8 ∧ m.tile = none
    let steps := fun (P : State → Prop) => (fetching → Step s (.prefetch (core / 8)) P) ∧ (loading → Step s (.loadB core) P)
    let fails := fun (x : Trap) =>
      (x.waits = false → steps fun u => (getMx u core).st = .held ∧ (getMx u core).held = some ⟨x.cause, x.fva, x.acc, x.sub⟩ ∧
        (getMx u core).sub = 0 ∧ (getMx u core).part = [] ∧ (getMx u core).page = none ∧
        (getCore u core).latch = (getCore s core).latch ∧ (getCore u core).mxflags = (getCore s core).mxflags) ∧
      (x.waits = true → steps fun u => getMx u core = { m with stuck := true } ∧ u.rows = s.rows ∧ u.mem = s.mem)
    let reads := fun (s0 : State) (fmt : Nat) (p : Part) =>
      ∀ (g : Got (List Byte)) (t : State),
      engParts s0 (mxAsker s0 core) 0 va [pagePart p va (rowNeed fmt 128 m.part - m.part.length)] = (g, t) →
      getMx t core = getMx s0 core →
      let m0 := getMx s0 core
      (g = .wait → steps fun u => getMx u core = { m0 with fmt := fmt, page := some p, stuck := true } ∧ u.rows = t.rows ∧
        u.mem = t.mem) ∧
      (∀ x, g = .fault x → steps fun u => (getMx u core).st = .held ∧ (getMx u core).held = some x) ∧
      ∀ bs, g = .ok bs →
        let got := m.part ++ bs
        let row := rowDecode fmt 128 got
        let raw := (got ++ List.replicate 128 0).take 128
        let pop := (if m.sub = 0 then 0 else m.pop) + if 1 ≤ m.sub ∧ m.sub < 16 then diffBits m.prev raw else 0
        let es := m.elems ++ row.1
        let tile : Latch := ⟨fmt, m.sub + 1, Wbits w0 14 12, 0, es⟩
        let keeps := fun (sub n : Nat) => if Wbits (w1 + wNat (sub * Wbits w0 31 16 + n)) 55 12 = Wbits va 55 12 then some p else none
        let macs := ((getMx t (8 * (core / 8))).hdr.getD (0, 0)).2
        let est := if min (m.sub + 1) 16 - 1 = 0 then 0 else 255 * pop / (1024 * (min (m.sub + 1) 16 - 1))
        let flags := (getCore t core).mxflags ||| (if m.bad || row.2 then 32 else 0)
        (got.length < rowNeed fmt 128 got → steps fun u =>
          getMx u core = { m0 with fmt := fmt, part := got, stuck := false, page := keeps m.sub got.length } ∧
          (getCore u core).latch = (getCore t core).latch ∧ (getCore u core).mxflags = (getCore t core).mxflags) ∧
        (rowNeed fmt 128 got ≤ got.length → m.sub ≠ Wbits w0 46 40 → steps fun u =>
          getMx u core = { m0 with fmt := fmt, sub := m.sub + 1, elems := es, part := [], prev := raw, stuck := false, pop := pop,
                                   bad := m.bad || row.2, page := keeps (m.sub + 1) 0 } ∧
          (getCore u core).latch = (getCore t core).latch ∧ (getCore u core).mxflags = (getCore t core).mxflags) ∧
        (rowNeed fmt 128 got ≤ got.length → m.sub = Wbits w0 46 40 →
          (fetching → Step s (.prefetch (core / 8)) fun u => (getMx u core).tile = some (m.step, tile) ∧
            (getCore u core).mxflags = flags ∧
            (∀ n, n / 8 = core / 8 → (getMx u n).st = .permit ∧ (getMx u n).est = est ∧ (getMx u n).step = 0) ∧
            ∃ q, (getCl u (core / 8)).reqs = (getCl t (core / 8)).reqs ++ [q] ∧ q.units = (macs * (64 + est) + 63) / 64 ∧
              q.core = none) ∧
          (loading → Step s (.loadB core) fun u => (getCore u core).latch = some tile ∧ MovedOn t u core ∧
            (getCore u core).mxflags = flags ∧ (getMx u core).sub = 0))
    m.cur = some (w0, w1) → Wbits w0 3 0 = 1 →
    (∀ p, m.page = some p → reads s m.fmt p) ∧
    (m.page = none →
      (shootPending s (asidOf s core) = true → steps fun u => getMx u core = { m with stuck := true } ∧ u.rows = s.rows ∧
        u.mem = s.mem) ∧
      (shootPending s (asidOf s core) = false →
        (∀ x, check s (ctxOf s (mxRow s core)) acc va 1 false = .error x → fails x) ∧
        (∀ ps fmt, check s (ctxOf s (mxRow s core)) acc va 1 false = .ok ps →
          (if m.sub = 0 ∧ m.part = [] then tileFmt s core w0 w1 = some fmt else m.fmt = fmt) →
          (tileOut s core w0 va = true → steps fun u => GangEnded s u (core / 8) 3) ∧
          (tileOut s core w0 va = false → fmt ≠ 0 → Wbits w0 46 40 < ktOf fmt →
            let cs := (tileSegs m fmt w0 w1 (Wbits va 55 12)).map fun x => check s (ctxOf s (mxRow s core)) acc x.1 x.2 false
            (∀ x, laneFault (trapsOf cs) = some x → fails x) ∧
            (trapsOf cs = [] → reads (modMx (fresh s).2 core fun k => { k with pageId := (fresh s).1 }) fmt
              (spanOf ((okParts cs).headD []) 1))))))

/-- R234, R276, R280-R285, R296: the other steps of a place. A prefetched tile is taken; a MAC reads a row of A by parts, then adds
one result row to the accumulator columns of the latch's block, with flags in SY.MXFLAGS; a DRAIN checks its target, empties it
and writes it row by row, while no shootdown is pending, its rows are at a boundary and are owed no older fill;
GROUP sets the rows, and a group of none passes its steps; END makes the place FINISHING, the last of eight ends the gang DONE. A
malformed step ends it with 3, formats that R276 lacks with 4, an uncorrectable word of A or of an accumulator with 9; a fault is
held. -/
def Sys2Proof.Claims.PlacesStep : Prop :=
  ∀ (s : State) (core : Nat), core < 320 →
    let steps := [Instr.loadB core, .mac core, .drain core, .group core, .endStep core]
    ((getMx s core).active .running = false → ∀ i ∈ steps, exec i s = .next s) ∧
    (∀ t, (getMx s core).active .running = true → reachStep s core = (.bad, t) → ∀ i ∈ steps, Step s i fun u =>
      GangEnded t u (core / 8) 3) ∧
    (∀ f t, (getMx s core).active .running = true → reachStep s core = (.fault f, t) → ∀ i ∈ steps, Step s i fun u =>
      (getMx u core).st = .held ∧ (getMx u core).held = some f ∧
      ((getMx t core).d ≠ 0 → (getMx t core).d < 32 → getX u (mxRow t core) (BitVec.ofNat 5 (getMx t core).d) = 8)) ∧
    (∀ t, (getMx s core).active .running = true → reachStep s core = (.wait, t) → ∀ i ∈ steps, Step s i fun u =>
      getMx u core = { getMx t core with stuck := true } ∧ u.rows = t.rows ∧ u.mem = t.mem) ∧
    ∀ (w0 w1 : Word) (t : State),
      let m := getMx t core
      (AtStep s core 1 w0 w1 t → Wbits w0 6 4 ≠ core % 8 → Step s (.loadB core) fun u => MovedOn t u core ∧
        (getCore u core).latch = (getCore t core).latch) ∧
      (∀ l, AtStep s core 1 w0 w1 t → Wbits w0 6 4 = core % 8 → m.tile = some (m.step, l) → Step s (.loadB core) fun u =>
        MovedOn t u core ∧ (getCore u core).latch = some l ∧ (getMx u core).tile = none) ∧
      (AtStep s core 2 w0 w1 t → m.macs < (m.hdr.getD (0, 0)).2 → (getCore t core).latch = none ∨ m.gm ≤ 64 * (core % 8) →
        Step s (.mac core) fun u => MovedOn t u core ∧ (getMx u core).macs = m.macs + 1 ∧
          (getCore u core).acc = (getCore t core).acc) ∧
      (AtStep s core 2 w0 w1 t → (m.hdr.getD (0, 0)).2 ≤ m.macs → Step s (.mac core) fun u => GangEnded t u (core / 8) 3) ∧
      (∀ l, AtStep s core 2 w0 w1 t → m.macs < (m.hdr.getD (0, 0)).2 → (getCore t core).latch = some l → 64 * (core % 8) < m.gm →
        let fa := Wbits w0 38 36
        let q := (Wbits w0 35 16 + m.sub * Wbits w0 55 40 + m.part.length) % 2 ^ 20
        let need := rowNeed fa l.rows m.part
        let n := min (need - m.part.length) (16 - q % 16)
        let x := rowDecode fa l.rows m.part
        let y := macRow (getCore t core) l fa m.sub (w0.getLsbD 4) x.1
        let c := 1024 * m.sub + 128 * l.tag
        (fa = 0 ∨ pairOk fa l.fmt = false → Step s (.mac core) fun u => GangEnded t u (core / 8) 4) ∧
        (fa ≠ 0 → pairOk fa l.fmt = true → m.part.length < need →
          ((getRow t ⟨core, q / 0x1000⟩).stalled = true → Step s (.mac core) fun u => getMx u core = { m with stuck := true } ∧
            (getCore u core).acc = (getCore t core).acc) ∧
          ((getRow t ⟨core, q / 0x1000⟩).stalled = false →
            (rsaPoison t core q n = true → Step s (.mac core) fun u => GangEnded t u (core / 8) 9) ∧
            (rsaPoison t core q n = false → Step s (.mac core) fun u => (getCore u core).acc = (getCore t core).acc ∧
              getMx u core = { m with part := m.part ++ rsaBytes t core q n, stuck := false }))) ∧
        (fa ≠ 0 → pairOk fa l.fmt = true → need ≤ m.part.length → w0.getLsbD 4 = false → accError (getCore t core) c 128 = true →
          Step s (.mac core) fun u => GangEnded t u (core / 8) 9) ∧
        (fa ≠ 0 → pairOk fa l.fmt = true → need ≤ m.part.length → w0.getLsbD 4 = true ∨ accError (getCore t core) c 128 = false →
          Step s (.mac core) fun u => accError (getCore u core) c 128 = false ∧
          (∀ i, accGet (getCore u core) i =
            if c ≤ i ∧ i < c + 128 then y.1.getD (i - c) 0 else accGet (getCore t core) i) ∧
          (getCore u core).mxflags = (getCore t core).mxflags ||| y.2.setWidth 6 ||| (if x.2 then 32 else 0) ∧
          (m.sub + 1 = min 64 (m.gm - 64 * (core % 8)) → MovedOn t u core ∧ (getMx u core).macs = m.macs + 1) ∧
          (m.sub + 1 ≠ min 64 (m.gm - 64 * (core % 8)) → getMx u core = { m with sub := m.sub + 1, part := [] }))) ∧
      (AtStep s core 4 w0 w1 t → m.tgt = [] →
        let cs := (List.range (min 64 (m.gm - 64 * (core % 8)))).map (drainParts t core w0 w1)
        let own := ∀ ps ∈ okParts cs, ∀ p ∈ ps, ∃ r win off, region t p.pa = .row r win off ∧ r.core = core
        (shootPending t (asidOf t core) = true → Step s (.drain core) fun u => getMx u core = { m with stuck := true } ∧
          u.mem = t.mem ∧ u.empt = t.empt) ∧
        (∀ x, shootPending t (asidOf t core) = false → laneFault (trapsOf cs) = some x → Step s (.drain core) fun u =>
          u.mem = t.mem ∧ if x.waits then getMx u core = { m with stuck := true } ∧ u.empt = t.empt
            else (getMx u core).st = .held ∧ (getMx u core).held = some x.held) ∧
        (shootPending t (asidOf t core) = false → trapsOf cs = [] → (¬ own → Step s (.drain core) fun u => GangEnded t u (core / 8) 3) ∧
        (own → m.gm ≤ 64 * (core % 8) → Step s (.drain core) fun u => MovedOn t u core) ∧
        (own → 64 * (core % 8) < m.gm → (∀ ps ∈ okParts cs, ∀ p ∈ ps, engineBusy t p = false) → Step s (.drain core) fun u =>
          (getMx u core).tgt = okParts cs ∧ u.mem = t.mem ∧
          ∀ ps ∈ okParts cs, ∀ p ∈ ps, ∀ x ∈ partWords t p, 32 < x.2 → isEmpty u ⟨core, x.1⟩ x.2 = true))) ∧
      (∀ p rest r win off, AtStep s core 4 w0 w1 t → m.tgt = [p] :: rest → region t p.pa = .row r win off →
        let accs := (List.range (Wbits w0 28 18)).map fun n => accGet (getCore t core) (1024 * m.sub + Wbits w0 17 8 + n)
        let y := drainRow (Wbits w0 6 4) (w0.getLsbD 7) accs
        let bs := (y.1.drop p.pos).take p.n
        let waits := engineBusy t p = true ∨ pieceBehind t (mxRow t core) (partIx t core) m.since p = true
        (waits → Step s (.drain core) fun u => getMx u core = { m with stuck := true } ∧ u.mem = t.mem ∧ u.empt = t.empt) ∧
        let bad := accError (getCore t core) (1024 * m.sub + Wbits w0 17 8) (Wbits w0 28 18)
        (¬ waits → bad = true → Step s (.drain core) fun u => GangEnded t u (core / 8) 9) ∧
        (0x108 ≤ off → off + p.n ≤ 0x1000 → bs.length = p.n → ¬ waits → bad = false → Step s (.drain core) fun u =>
          StoredInRow t u r off bs ∧
          (∀ w ∈ rowWords off p.n, owed t (mxRow t core) (partIx t core) m.born r w = false → isEmpty u r w = false) ∧
          (getCore u core).mxflags = (getCore t core).mxflags ||| y.2.setWidth 6 ∧
          (rest = [] → MovedOn t u core) ∧ (rest ≠ [] → (getMx u core).tgt = rest ∧ (getMx u core).sub = m.sub + 1))) ∧
      (AtStep s core 5 w0 w1 t → Step s (.group core) fun u => MovedOn t u core ∧ (getMx u core).gm = Wbits w0 25 16 ∧
        (getMx u core).skipg = m.skipg + if Wbits w0 25 16 = 0 then 1 else 0) ∧
      ((getMx s core).active .running = true → reachStep s core = (.step w0 w1, t) → m.gm = 0 → Wbits w0 3 0 ≠ 5 →
        Wbits w0 3 0 ≠ 15 → Step s (.group core) fun u => MovedOn t u core ∧ (getMx u core).gm = 0) ∧
      (AtStep s core 15 w0 w1 t →
        ((∃ n, n / 8 = core / 8 ∧ n ≠ core ∧ (getMx t n).st ≠ .finishing) → Step s (.endStep core) fun u =>
          (getMx u core).st = .finishing ∧ ∀ n, n ≠ core → getMx u n = getMx t n) ∧
        ((∀ n, n / 8 = core / 8 → n ≠ core → (getMx t n).st = .finishing) → Step s (.endStep core) fun u =>
          GangEnded t u (core / 8) 0))

/-- R282, R295: the ring moves once all eight places stand at the same ROTATE, and a latch that has made eight hops is empty; the
watchdog counts cycles in which a RUNNING place cannot go on (one at a ROTATE can, once all eight are there), ending the gang at
2^22 with 7. -/
def Sys2Proof.Claims.TheRingTurns : Prop :=
  ∀ (s : State) (cl : Nat), cl < 40 →
    let each := fun (P : Nat → Prop) => ∀ n, n / 8 = cl → P n
    (∀ k, each (fun n => atRotate (getMx s n) = true ∧ (getMx s n).step = k) → Step s (.rotate cl) fun t =>
      each (fun n => MovedOn s t n) ∧ (getCl t cl).dog = 0 ∧
      ∀ q < 8, (getCore t (8 * cl + q)).latch = match (getCore s (8 * cl + (q + 7) % 8)).latch with
        | some l => if l.hops = 7 then none else some { l with hops := l.hops + 1 }
        | none => none) ∧
    (each (fun n => (getMx s n).active .running = false ∨ (getMx s n).cur ≠ none) →
      (∃ n, n / 8 = cl ∧ (atRotate (getMx s n) = false ∨ (getMx s n).step ≠ (getMx s (8 * cl)).step)) →
      exec (.rotate cl) s = .next s) ∧
    ∀ n,
      let off := ∃ k, k / 8 = cl ∧ (getMx s k).st ∈ [.held, .joining, .prefetch, .permit]
      let turns := each fun k => atRotate (getMx s k) = true ∧ (getMx s k).step = (getMx s (8 * cl)).step
      let cannot := ∃ k, k / 8 = cl ∧ (getMx s k).st = .running ∧
        ((atRotate (getMx s k) = true ∧ ¬ turns) ∨ (getMx s k).stuck = true)
      (off → exec (.ringWatchdog cl n) s = .next s) ∧
      (¬ off → ¬ cannot → Step s (.ringWatchdog cl n) fun t => getCl t cl = { getCl s cl with dog := 0 } ∧ t.cores = s.cores) ∧
      (¬ off → cannot → (getCl s cl).dog + n < 2 ^ 22 → Step s (.ringWatchdog cl n) fun t =>
        getCl t cl = { getCl s cl with dog := (getCl s cl).dog + n } ∧ t.cores = s.cores) ∧
      (¬ off → cannot → 2 ^ 22 ≤ (getCl s cl).dog + n → Step s (.ringWatchdog cl n) fun t => GangEnded s t cl 7)

/-- R276-R295: a gang of the matrix array, from its barrier to its end. That place 0 scans for the prefetch and takes its fault
(log entry 34), that the latches are empty at a gang's end (37), that a tile and a row of A are read by parts of 16 bytes, a drained
row written whole (40, 103, 110), that of a CX8 tile only bytes known to belong to it are checked (119), and that an access to a row waits for its boundary (29), are the model's choices. -/
def Obligations.MatrixSteps : Prop := GangsBegin ∧ TilesLoad ∧ PlacesStep ∧ TheRingTurns

/-- R300-R318: a run of an edge program. Its cores compare their pointers and the leader prepares the run; an engine takes a
chunk, from its own deque or stolen, and asks for its permit; a batch of 32 lanes, or of those that the chunk has left, is delivered
into V0-V2 and M1 of the row, D becoming 1, once no older fill of them is owed; a returned batch is applied access by access; the
leader ends a level, or the run, or switches it to pull. A fault is held and D becomes 8. That a batch has all 32 lanes that the
chunk has left, and that a run keeps the descriptor's words as its cores joined with them, are the model's choices (log entries 96,
41). -/
def Obligations.EdgeSteps : Prop :=
  ∀ (s : State) (core : Nat),
    let e := getEdge s core
    let ws := e.words
    let cs := runCores ws
    let leads := ws ≠ [] ∧ dCore0 ws = core
    let going := ∀ n ∈ cs, (getEdge s n).ending = none
    (leads → (∀ n ∈ cs, (getEdge s n).st = .joining) →
      ((∀ n ∈ cs, (getEdge s n).desc = e.desc) → Step s (.edgeRunStart core) fun t =>
        (∀ n ∈ cs, getEdge t n = { getEdge s n with st := .starting }) ∧ t = { s with cores := t.cores }) ∧
      ((∃ n ∈ cs, (getEdge s n).desc ≠ e.desc) → Step s (.edgeRunStart core) fun t =>
        (∀ n ∈ cs, (getEdge t n).st = .idle ∧ (getEdge t n).last = 3) ∧ ∀ n, (getCore t n).red = (getCore s n).red)) ∧
    (leads → core ∈ cs → e.active .starting = true →
      (∀ u, prepareRun core ws e.desc s = (.ok (), u) → Step s (.edgeRunStart core) fun t =>
        (∃ pull, PhaseBegins t ws pull false ∧ (dMode ws = 1 → pull = false) ∧ (dMode ws = 2 → pull = true)) ∧
        ∀ n ∈ cs, (getEdge t n).visited = 0 ∧ (getEdge t n).level = 0) ∧
      (∀ f u, prepareRun core ws e.desc s = (.error (.fault f), u) → Step s (.edgeRunStart core) fun t => EdgeHeld t core f)) ∧
    (e.free = true → (getEdge s (dCore0 ws)).switch = false → going →
      ((nextChunk s core (0xED00 + e.phase) cs).1 = none →
        exec (.chunkTake core) s = .next (nextChunk s core (0xED00 + e.phase) cs).2) ∧
      (∀ c u, (nextChunk s core (0xED00 + e.phase) cs).1 = some c → eTest core e s = (.ok true, u) →
        Step s (.chunkTake core) fun t => (getEdge t (dCore0 ws)).switch = true) ∧
      (∀ c k es u0 u1 u2, (nextChunk s core (0xED00 + e.phase) cs).1 = some c → eTest core e s = (.ok false, u0) →
        (if e.pull then eDegrees core (dWord ws 6) (dWord ws 13) false (chunkSpan ws c).2 (chunkSpan ws c).1
          else eDegrees core (dWord ws 3) (dWord ws 11) true (chunkSpan ws c).2 (chunkSpan ws c).1) u0 = (.ok (k, es), u1) →
        (if e.pull then (pure () : EngM Unit) else eTakeMfr core e es) u1 = (.ok (), u2) →
        Step s (.chunkTake core) fun t =>
          (getEdge t core).chunk = some c ∧ (getEdge t core).granted = decide (es = 0) ∧ (getEdge t core).vert = c * dChunk ws ∧
          (getEdge t core).edge = none ∧
          (∀ n, (getCore t n).dq = (getCore (nextChunk u2 core (0xED00 + e.phase) cs).2 n).dq) ∧
          (es ≠ 0 → ∃ q, (getCl t (core / 8)).reqs = (getCl u2 (core / 8)).reqs ++ [q] ∧ q.units = (es + 31) / 32 ∧
            q.core = some core ∧ q.est = 128)) ∧
      ∀ tag, let q := (getCore s core).dq
        let b := (2 ^ 32 + q.bottom - 1) % 2 ^ 32
        q.count ≠ 0 → (q.ent b).tag = tag → (nextChunk s core tag cs).1 = some (q.ent b).lo ∧
          ((q.ent b).lo + 1 < (q.ent b).hi → ((getCore (nextChunk s core tag cs).2 core).dq.ent b) =
            { q.ent b with lo := (q.ent b).lo + 1 }) ∧
          ((q.ent b).hi ≤ (q.ent b).lo + 1 → (getCore (nextChunk s core tag cs).2 core).dq = { q with bottom := b })) ∧
    (∀ c n, e.chunk = some c → e.active .running = true → e.granted = true → e.res = none → 1 ≤ n → n ≤ 32 → going →
      (∀ f u, formBatch core e c n s = (.error (.fault f), u) → Step s (.batch core n) fun t => EdgeHeld t core f) ∧
      ∀ ls v ed vals u1 u2,
        eLanes core ws e.pull ((chunkSpan ws c).1 + (chunkSpan ws c).2) (2 ^ 34) 32 e.vert e.edge true s = (.ok (ls, v, ed), u1) →
        eLaneVals core ws ls u1 = (.ok vals, u2) →
        ls.length ≤ 32 ∧ (∀ l ∈ ls, (if e.pull then l.src else l.dst) < dNv ws) ∧
        (ls = [] → Step s (.batch core n) fun t => (getEdge t core).chunk = none ∧ (getEdge t core).granted = false) ∧
        (ls ≠ [] → batchBehind u2 core = true → exec (.batch core n) s = .next u2) ∧
        (n < ls.length → batchBehind u2 core = false → Step s (.batch core n) fun t => getEdge t core = (if (getEdge u2 core).st = .held then
          { getEdge u2 core with st := (getEdge u2 core).back } else getEdge u2 core) ∧ t.mem = u2.mem ∧ t.rows = u2.rows) ∧
        (ls ≠ [] → ls.length ≤ n → batchBehind u2 core = false → e.d ≠ 0 → e.d < 32 → Step s (.batch core n) fun t =>
          let r := edgeRow u2 core
          (∀ j < 32, laneAt t r 3 0 j = ((vals.map (·.1)).getD j 0) % 2 ^ 32 ∧
            laneAt t r 3 1 j = ((vals.map (·.2.1)).getD j 0) % 2 ^ 32 ∧ laneAt t r 3 2 j = ((vals.map (·.2.2)).getD j 0) % 2 ^ 32) ∧
          getM t r 1 = wNat (2 ^ ls.length - 1) ∧ getX t r (BitVec.ofNat 5 e.d) = 1 ∧
          (getEdge t core).st = .body ∧ (getEdge t core).lanes = ls.map (fun l => (l.src, l.dst)) ∧
          (getEdge t core).vert = v ∧ (getEdge t core).edge = ed ∧
          (getEdge t core).visited = ((getEdge u2 core).visited + ls.length) % 2 ^ 32)) ∧
    (∀ v3 m2 m3, e.res = some (v3, m2, m3) → e.active .running = true → going →
      let acts := if e.pull then pullActs v3 m2 m3 e.lanes else pushActs v3 m2 m3 e.lanes
      (acts[e.done]? = none → Step s (.batchApply core) fun t =>
        (getEdge t core) = { e with res := none, lanes := [], done := 0, fl := 0 } ∧
        (getRow t (edgeRow s core)).flags = (getRow s (edgeRow s core)).flags ||| e.fl.setWidth 64) ∧
      (∀ a u, acts[e.done]? = some a → applyAct core e a s = (.ok (), u) → Step s (.batchApply core) fun t =>
        (getEdge t core).done = (getEdge u core).done + 1 ∧ t.mem = u.mem ∧ t.rows = u.rows ∧ t.l2 = u.l2 ∧
        ∀ n, (getCore t n).red = (getCore u n).red) ∧
      (∀ d v p s1, acts[e.done]? = some (.red d v) → eCheck core accRmw (dWord ws 10) (4 * d) 4 s = (.ok [p], s1) →
        (redAmo (edgeRed ws) = 11 → isPoison s1 (edgeRow s1 core) 3 = false) → inAperture s1 p = false → Step s (.batchApply core) fun t =>
          ∀ n, (getCore t n).red = (getCore (redUpdate s1 core (some (edgeRow s1 core)) (edgeRed ws) 4 (rmOf s1 (edgeRow s1 core)) p v).2 n).red) ∧
      ∀ d lo hi ps old u0 u1 u2 u3, acts[e.done]? = some (.nxt d) →
        eCheck core accAmo (dWord ws 12) (d / 64 * 8) 8 s = (.ok ps, u0) → (∀ a ∈ u0.answers, a.who ≠ edgeAsker u0 core) →
        eBit core (dWord ws 12) d u0 = (.ok false, u1) → ePair core (dWord ws 3) d u1 = (.ok (lo, hi), u2) →
        eAtomic core 2 (wNat (2 ^ (d % 64))) ps u2 = (.ok old, u3) →
        let l := getEdge u3 (dCore0 ws)
        Step s (.batchApply core) fun t => (getEdge t (dCore0 ws)).nf1 = l.nf1 + (if old.testBit (d % 64) then 0 else 1) ∧
          (getEdge t (dCore0 ws)).mf1 = l.mf1 + (if old.testBit (d % 64) then 0 else hi - lo)) ∧
    (leads →
      (∀ st, endingOf s ws = some st → e.st ≠ .idle → core ∈ cs → Step s (.levelEnd core) fun t =>
        (getEdge t core).st = .idle ∧ (getEdge t core).last = st) ∧
      (going → e.active .levelEnd = false → (∀ n ∈ cs, (getEdge s n).free = true ∧ (getCore s n).dq.count = 0) → e.switch = false →
        Step s (.levelEnd core) fun t => (∀ n ∈ cs, getEdge t n = { getEdge s n with st := .levelEnd }) ∧ t = { s with cores := t.cores }) ∧
      (∀ u, going → e.active .levelEnd = true → core ∈ cs → endLevel core e s = (.ok (), u) → e.nf1 ≠ 0 →
        Step s (.levelEnd core) fun t => (∃ pull, PhaseBegins t ws pull false) ∧
          ∀ n ∈ cs, (getEdge t n).level = (Wbits e.cnt1 31 24 + 1) % 256 ∧ (getEdge t n).nf1 = 0 ∧ (getEdge t n).mf1 = 0) ∧
      (∀ u, going → e.active .levelEnd = true → core ∈ cs → endLevel core e s = (.ok (), u) → e.nf1 = 0 →
        Step s (.levelEnd core) fun t => (getEdge t core).st = .idle ∧ (getEdge t core).last = 0) ∧
      (∀ f u, going → e.active .levelEnd = true → endLevel core e s = (.error (.fault f), u) →
        Step s (.levelEnd core) fun t => EdgeHeld t core f) ∧
      (∀ u, going → e.switch = true → (∀ n ∈ cs, (getEdge s n).free = true) → core ∈ cs → midSwitch core e s = (.ok (), u) →
        Step s (.midLevelSwitch core) fun t => PhaseBegins t ws true true ∧
          ∀ n ∈ cs, (getEdge t n).cnt1 = cnt1Phase e.cnt1 3 true) ∧
      (∀ f u, going → e.switch = true → (∀ n ∈ cs, (getEdge s n).free = true) → midSwitch core e s = (.error (.fault f), u) →
        Step s (.midLevelSwitch core) fun t => EdgeHeld t core f))

/-! # Dates, passes, errors and failures -/

/-- R113-R124, R262, R264, R354: a slice's date moves on towards the Calendar's; an own-identity pass waits at a slice until its date has
reached the object's, and removes the guest lines of the ASID that the signature names or that are too old; a foreign or host
pass removes those homed there; a Frost pass removes lines whose age was 64 or more when the
slice's date reached the trigger; what goes is counted. An arrival message acts at
its barrier after the row's earlier accesses and carries the result back; one for a swapped-out partition goes into its log, after
the row's older accesses to that partition, with result 3. -/
def Obligations.DatesAndPasses : Prop :=
  let kept := fun (s t : State) (slice : Nat) (gone : Line → Bool) => t.l2 = s.l2.filter fun x => !(x.slice == slice && gone x)
  let count := fun (s : State) (slice : Nat) (gone : Line → Bool) => s.l2.countP fun x => x.slice == slice && gone x
  let finish := fun (s t : State) (id slice : Nat) => ∀ y, y ∈ t.passes ↔ ∃ x ∈ s.passes, y.done.length < 160 ∧
    y = if x.id = id ∧ x.die = slice / 160 then { x with done := insSorted x.done slice } else x
  (∀ (s : State) (slice date : Nat),
    (smGet none s.pkg.lag slice = none → exec (.dateBroadcast slice date) s = .next s) ∧
    ∀ old, smGet none s.pkg.lag slice = some old →
      let d := (2 ^ 32 + date % 2 ^ 32 - old) % 2 ^ 32
      let gap := (2 ^ 32 + s.pkg.date - old) % 2 ^ 32
      (date % 2 ^ 32 = 0 ∨ d = 0 ∨ gap < d → exec (.dateBroadcast slice date) s = .next s) ∧
      (date % 2 ^ 32 ≠ 0 → d ≠ 0 → d ≤ gap → Step s (.dateBroadcast slice date) fun t =>
        sliceDate t slice = (if d = gap then s.pkg.date else date % 2 ^ 32) ∧ (∀ k, k ≠ slice → sliceDate t k = sliceDate s k) ∧
        t = { s with pkg := { s.pkg with lag := t.pkg.lag } })) ∧
  (∀ (s : State) (id slice : Nat) (x : Pass),
    (s.passes.find? fun y => y.id == id && y.own) = some x →
    let q := sliceDate s slice
    let lim := (2 ^ 32 + q - x.floor) % 2 ^ 32
    let gone := fun y : Line => y.stamp.isSome && !y.phys && y.asid == x.asid &&
      (decide (160 ≤ lim) || sigHit x.sig y.line || decide (lim < lineAge s slice y))
    (slice / 160 ≠ x.die ∨ x.done.contains slice = true ∨ 2 ^ 31 ≤ (2 ^ 32 + q - x.date) % 2 ^ 32 →
      exec (.acquirePassOwn id slice) s = .next s) ∧
    (slice / 160 = x.die → x.done.contains slice = false → (2 ^ 32 + q - x.date) % 2 ^ 32 < 2 ^ 31 →
      Step s (.acquirePassOwn id slice) fun t => kept s t slice gone ∧ finish s t id slice ∧
        getDie t x.die = { getDie s x.die with acq := ((getDie s x.die).acq + count s slice gone) % 2 ^ 32 } ∧
        t = { s with l2 := t.l2, passes := t.passes, dies := t.dies })) ∧
  (∀ (s : State) (id slice : Nat) (x : Pass),
    (s.passes.find? fun y => y.id == id && !y.own && y.die == slice / 160) = some x →
    let gone := fun y : Line => y.stamp.isSome && (x.ident == 0xFFFFFFFF || region s (128 * y.pl) == .peerMem x.ident ||
        (!y.phys && region s (128 * y.pl) == .gddr)) && (if y.phys then x.die == 0 else y.asid == x.asid)
    (x.done.contains slice = true → exec (.acquirePassOther id slice) s = .next s) ∧
    (x.done.contains slice = false → Step s (.acquirePassOther id slice) fun t => kept s t slice gone ∧ finish s t id slice ∧
      getDie t x.die = { getDie s x.die with acq := ((getDie s x.die).acq + count s slice gone) % 2 ^ 32 } ∧
      t = { s with l2 := t.l2, passes := t.passes, dies := t.dies })) ∧
  (∀ (s : State) (slice : Nat) (f : Frost), s.pkg.frost = some f →
    let gone := fun y : Line => y.stamp.isSome && decide (64 + (2 ^ 32 + sliceDate s slice - f.trigger) % 2 ^ 32 ≤ lineAge s slice y)
    (320 ≤ slice ∨ f.done.contains slice = true ∨ 2 ^ 31 ≤ (2 ^ 32 + sliceDate s slice - f.trigger) % 2 ^ 32 →
      exec (.frostSweep slice) s = .next s) ∧
    (slice < 320 → f.done.contains slice = false → (2 ^ 32 + sliceDate s slice - f.trigger) % 2 ^ 32 < 2 ^ 31 →
      Step s (.frostSweep slice) fun t => kept s t slice gone ∧
        (getDie t (slice / 160)).frost = ((getDie s (slice / 160)).frost + count s slice gone) % 2 ^ 32 ∧
        t.pkg = { s.pkg with
          frost := if (insSorted f.done slice).length < 320 then some { f with done := insSorted f.done slice } else none } ∧
        t = { s with l2 := t.l2, dies := t.dies, pkg := t.pkg })) ∧
  ∀ (s : State) (id core k : Nat) (q : Req), (s.reqs.find? fun x => x.id == id) = some q → q.kind = .arrive core k →
    let first := storeOrder s q.row q.part q.id && (dieOf core == dieOf q.row.core || devDone s q.row q.part q.id)
    let a := arriveBy (received s q.row.core core) q.row core k
    (q.todo = [] ∨ first = false → exec (.barrierArrival id) s = .next s) ∧
    (q.todo ≠ [] → first = true → aimedPart s core q.part = false → Step s (.barrierArrival id) fun t =>
      (∀ c, getCore t c = getCore a.2 c) ∧ t.rows = a.2.rows ∧ t.mem = s.mem ∧
      (q.words ≠ [] → ∃ x, reqById t id = some x ∧ x.todo = [] ∧ ∀ b < 8, smGet 0 x.buf b = (leBytes 8 a.1).getD b 0)) ∧
    (q.todo ≠ [] → first = true → aimedPart s core q.part = true → logBefore s q.row q.part q.id q.part = true →
      exec (.barrierArrival id) s = .next s) ∧
    (q.todo ≠ [] → first = true → aimedPart s core q.part = true → logBefore s q.row q.part q.id q.part = false → logFits s q.part (.arrival q.row core k) = true →
      Step s (.barrierArrival id) fun t => (getPart t q.part).log = (getPart s q.part).log ++ [.arrival q.row core k] ∧
        t.rows = s.rows ∧
        (q.words ≠ [] → ∃ x, reqById t id = some x ∧ x.todo = [] ∧ ∀ b < 8, smGet 0 x.buf b = (leBytes 8 3).getD b 0))

/-- R347, R348, R394, R395: an error is counted, saturating, with its unit, the core, slice, channel or link port; a corrected one
does nothing else. An uncorrectable one poisons the word, loses a cache line, dirty data being lost, or ends the gang with status 9; an error in an accumulator of an idle cluster stands in
one word of it. Which word it is in is a free value (log entry 123). -/
def Sys2Proof.Claims.ErrorsCounted : Prop :=
  let serr := fun (s : State) (d k : Nat) => (smGet {} (getDie s d).serr k : Serr)
  let counted := fun (s t : State) (d k : Nat) (corr : Bool) (u : Nat) =>
    (serr t d k).last = u % 2 ^ 16 ∧
    (serr t d k).corr = (if corr then min (2 ^ 32 - 1) ((serr s d k).corr + 1) else (serr s d k).corr) ∧
    (serr t d k).unc = (if corr then (serr s d k).unc else min (2 ^ 16 - 1) ((serr s d k).unc + 1)) ∧
    (∀ e j, (e, j) ≠ (d, k) → serr t e j = serr s e j)
  let onlyDies := fun (s t : State) => t = { s with dies := t.dies }
  (∀ (s : State) (die k : Nat), die < 2 → k < 6 →
    ∀ u, Step s (.scrub die k (.uncorrectable u)) (fun t => counted s t die k false u ∧ onlyDies s t) ∧
      Step s (.scrub die k (.corrected u)) fun t => counted s t die k true u ∧ onlyDies s t) ∧
  (∀ (s : State) (k : Nat) (v : Word) (priv : Bool), k < 6 → Step s (.sySerr k v priv) fun t =>
    serr t 0 k = { serr s 0 k with corr := Wbits v 63 32, unc := Wbits v 31 16 } ∧
    (∀ e j, (e, j) ≠ (0, k) → serr t e j = serr s e j) ∧ onlyDies s t) ∧
  ∀ (s : State),
    (∀ r w, corePresent s r.core = true → r.row < 256 → w < 512 →
      Step s (.softError (.rowWord r w) true) (fun t => counted s t (dieOf r.core) 0 true (r.core % 160) ∧ onlyDies s t) ∧
      Step s (.softError (.rowWord r w) false) (fun t => counted s t (dieOf r.core) 0 false (r.core % 160) ∧ isPoison t r w = true ∧
        (∀ k, k ≠ rowWord r w → (k ∈ t.poison ↔ k ∈ s.poison)) ∧ t = { s with dies := t.dies, poison := t.poison }) ∧
      Step s (.softError (.shadowWord r w) true) (fun t => counted s t (dieOf r.core) 1 true (r.core % 160) ∧ onlyDies s t) ∧
      Step s (.softError (.shadowWord r w) false) (fun t => counted s t (dieOf r.core) 1 false (r.core % 160) ∧
        512 * r.row + w ∈ (smGet {} t.shadow r.core : ShadowCore).poison ∧ t = { s with dies := t.dies, shadow := t.shadow })) ∧
    (∀ pa, region s pa = .gddr →
      Step s (.softError (.gddr pa) true) (fun t => counted s t (pa / 0x1000 % 2) 4 true (channelOf pa) ∧ onlyDies s t) ∧
      Step s (.softError (.gddr pa) false) (fun t => counted s t (pa / 0x1000 % 2) 4 false (channelOf pa) ∧
        (∀ k, k ∈ t.poison ↔ k = pa / 8 ∨ k ∈ s.poison) ∧ t = { s with dies := t.dies, poison := t.poison })) ∧
    (∀ i x, s.l2[i]? = some x →
      Step s (.softError (.l2Line i) true) (fun t => counted s t x.die 2 true (x.slice % 160) ∧ onlyDies s t) ∧
      Step s (.softError (.l2Line i) false) (fun t => counted s t x.die 2 false (x.slice % 160) ∧ t.l2 = s.l2.take i ++ s.l2.drop (i + 1) ∧
        (∀ k, k ∈ t.poison ↔ (x.dirty = true ∧ k / 16 = x.pl) ∨ k ∈ s.poison) ∧ t.mem = s.mem)) ∧
    (∀ core, corePresent s core = true →
      Step s (.softError (.accumulator core) true) (fun t => counted s t (dieOf core) 3 true (core % 160) ∧ onlyDies s t) ∧
      Step s (.softError (.accumulator core) false) (fun t => counted s t (dieOf core) 3 false (core % 160) ∧
        (gangIdle s (core / 8) = false → GangEnded s t (core / 8) 9) ∧
        (gangIdle s (core / 8) = true → (∃ i < 65536, (getCore t core).accBad = insSorted (getCore s core).accBad i) ∧
          (∀ c, getCore t c = { getCore s c with accBad := (getCore t c).accBad }) ∧
          (∀ c, c ≠ core → getCore t c = getCore s c) ∧
          t = { s with dies := t.dies, cores := t.cores, freeCtr := s.freeCtr + 1 }))) ∧
    ∀ die < 2, ∀ port c, Step s (.softError (.link die port) c) fun t => counted s t die 5 c port ∧ onlyDies s t

/-- R369, R374, R375: a failed core's tasks, those of its shadow, those of gangs and runs that have a place there, and its waiting
and bound packets are orphaned, each with one notice to the host queue of its die, or of the surviving one; a task that depends on another failed
part likewise, in its core or in its core's shadow, and its accesses through the part are lost. An orphaned row keeps its STATE. When every port to a peer has failed the
route is gone and accesses in flight end with HOMELOST; when a die fails, its lines and rows' accesses go, its packets are orphaned
at the survivor, and the survivor's accesses to it end with HOMELOST. -/
def Sys2Proof.Claims.PartsFail : Prop :=
  let notice := fun (s : State) (die seq kind num : Nat) (task va : Word) =>
    let q := (getDie s die).hostq
    (⟨die, ⟨[header seq (Wbits q 14 6) (Wbits q 5 0) 0 0, wNat (2 ^ 63 + 2 ^ 8 * kind + num), task, va], 0,
      some (Wbits q 14 6), none, 0, true, false, none⟩⟩ : Held)
  let rowNotice := fun (s : State) (die kind num : Nat) (r : RowId) =>
    notice s die (Wbits (getRow s r).task 63 32) kind num (getRow s r).task (rowVa s r)
  let packetNotice := fun (s : State) (die kind num : Nat) (p : Packet) =>
    let seq := Wbits (p.words.getD 0 0) 63 32
    notice s die seq kind num (wNat (2 ^ 32 * seq + 0x80 + Wbits (p.words.getD 0 0) 13 8)) 0
  let tasked := fun (s : State) (r : RowId) => (getRow s r).task.getLsbD 7 = true ∧ (getRow s r).orphan = false
  let away := fun (s : State) (c : Nat) => (smGet {} s.shadow c : ShadowCore)
  let shadowLost := fun (s t : State) (d num c : Nat) => (away t c).runq = [] ∧
    (∀ w ∈ (away s c).rows, w.2.task.getLsbD 7 = true → w.2.orphan = false →
      notice s d (Wbits w.2.task 63 32) 1 num w.2.task (rowVaIn s (getCl s (c / 8)).spart ⟨c, w.1⟩) ∈ t.held) ∧
    (∀ w ∈ (away t c).rows, w.2.task.getLsbD 7 = true → w.2.orphan = true) ∧
    ∀ p ∈ (away s c).runq, packetNotice s d 1 num p ∈ t.held
  let lostRow := fun (s t : State) (q : Req) (p : Part) =>
    let ptr := match q.put with
      | .lanes _ _ _ => p.va
      | _ => accessPtr p
    getRow t q.row = { faultedRow (getRow s q.row) ⟨7, 13, 0, if q.isLoad then 0 else 3, ptr, 0⟩ (getRow s q.row).rstep with
      orphan := (getRow t q.row).orphan } ∧ ∀ x ∈ t.reqs, x.id ≠ q.id
  let ends := fun (s : State) (lost : Part → Bool) (q : Req) (p : Part) =>
    (s.reqs.filter fun x => rkey x.row == rkey q.row && x.todo.any lost) = [q] ∧ q.row.row < 256 ∧
    (∀ f ∈ s.flights, rkey f.ent.row = rkey q.row → lost f.ent.part = false) ∧ q.todo.find? lost = some p ∧
    (getRow s q.row).rel = none ∧
    ((getRow s q.row).st = .ready ∨ ((getRow s q.row).st = .waiting ∧ (getRow s q.row).why = 5)) ∧ (getRow s q.row).pend = [] ∧
    aimedPart s q.row.core q.part = false
  (∀ (s : State) (n : Nat), corePresent s n = true → Step s (.partFailure .core n) fun t =>
    let d := noticeDie s (n / 160)
    (∀ c, getCore t c = { getCore s c with banks := (getCore t c).banks, failed := (getCore s c).failed || c == n,
                                           runq := if c = n then [] else (getCore s c).runq }) ∧
    (∀ r, getRow t r = { getRow s r with orphan := (getRow t r).orphan }) ∧
    (∀ r ∈ liveRows s n, tasked s r → (getRow t r).orphan = true ∧ rowNotice s d 1 (n % 160) r ∈ t.held) ∧
    ((∀ r ∈ gangMates s n, r.row < 256) → ∀ r ∈ gangMates s n, tasked s r → (getRow t r).orphan = true ∧
      rowNotice s (noticeDie s (dieOf r.core)) 1 (n % 160) r ∈ t.held) ∧
    (∀ p ∈ (getCore s n).runq, packetNotice s d 1 (n % 160) p ∈ t.held) ∧
    (∀ p ∈ (getDie s (n / 160)).inbox, p.core = some n → packetNotice s d 1 (n % 160) p ∈ t.held) ∧
    (getDie t (n / 160)).inbox = (getDie s (n / 160)).inbox.filter (fun p => p.core != some n) ∧
    shadowLost s t d (n % 160) n ∧ (∀ c, c ≠ n → away t c = away s c) ∧
    (∀ h ∈ s.held, h ∈ t.held) ∧ t.mem = s.mem) ∧
  (∀ (s : State) (k : PartKind) (n : Nat), k ≠ .core → Step s (.partFailure k n) fun t =>
    let x := partNotice k n
    let gone := fun (r : RowId) (p : Nat) => runsTask s (r, p) = true
    (∀ y ∈ dependents s k n, (∀ z ∈ dependents s k n, z.1.row < 256) →
      (partOf s y.1.core = some y.2 → tasked s y.1 → (getRow t y.1).orphan = true ∧
        rowNotice s (noticeDie s (dieOf y.1.core)) x.1 (x.2 % 2 ^ 8) y.1 ∈ t.held) ∧
      ∀ w, partOf s y.1.core ≠ some y.2 → shadowRow s y.1 y.2 = some w → w.task.getLsbD 7 = true → w.orphan = false →
        shadowRow t y.1 y.2 = some { w with orphan := true } ∧
        notice s (noticeDie s (dieOf y.1.core)) (Wbits w.task 63 32) x.1 (x.2 % 2 ^ 8) w.task (rowVaIn s y.2 y.1) ∈ t.held) ∧
    (∀ r, getRow t r = { getRow s r with orphan := (getRow t r).orphan }) ∧
    (∀ q, q ∈ t.reqs ↔ q ∈ s.reqs ∧ ¬ (gone q.row q.part ∧ reqUses s k n q = true)) ∧
    (∀ f, f ∈ t.flights ↔ f ∈ s.flights ∧ ¬ (gone f.ent.row f.ent.owner ∧ entUses s k n f.ent = true)) ∧
    (∀ e, e ∈ (getCore t e.row.core).fifo ↔ e ∈ (getCore s e.row.core).fifo ∧ ¬ (gone e.row e.owner ∧ entUses s k n e = true)) ∧
    (∀ p, p ∈ (getCl t (p.row.core / 8)).copyq ↔ p ∈ (getCl s (p.row.core / 8)).copyq ∧ ¬ (gone p.row p.part ∧ copyUses s k n p = true)) ∧
    (∀ d < 2, ∀ p, p ∈ (getDie t d).distq ↔ p ∈ (getDie s d).distq ∧ ¬ (gone p.row p.part ∧ distUses s k n p = true)) ∧
    t = { s with held := t.held, rows := t.rows, reqs := t.reqs, flights := t.flights, cores := t.cores, clusters := t.clusters,
                 dies := t.dies, shadow := t.shadow }) ∧
  (∀ (s : State) (peer : Nat),
    (routed s peer = false → exec (.routeFailure peer) s = .next s) ∧
    (routed s peer = true → Step s (.routeFailure peer) fun t =>
      smGet 0 t.pkg.flroute peer = smGet 0 s.pkg.flroute peer &&& ~~~0x10000#64 ∧
      (∀ k, k ≠ peer → smGet 0 t.pkg.flroute k = smGet 0 s.pkg.flroute k) ∧ (∀ k, k ∈ t.pkg.peerLost ↔ k = peer ∨ k ∈ s.pkg.peerLost) ∧
      let lost := fun (p : Part) => match region s p.pa with
        | .peerMem i => i == peer
        | .peerAp i _ => i == peer
        | _ => false
      ∀ q p, ends s lost q p → lostRow s t q p)) ∧
  ∀ (s : State) (die : Nat),
    (2 ≤ die ∨ (getDie s die).failed = true → exec (.dieFailure die) s = .next s) ∧
    (die < 2 → (getDie s die).failed = false → Step s (.dieFailure die) fun t =>
      (getDie t die).failed = true ∧ (getDie t die).inbox = [] ∧
      (∀ x, x ∈ t.l2 ↔ x ∈ s.l2 ∧ x.die ≠ die ∧
        ¬ (x.stamp.isSome = true ∧ region s (128 * x.pl) = .gddr ∧ x.pl / 32 % 2 = die)) ∧
      (∀ q ∈ t.reqs, dieOf q.row.core ≠ die) ∧ (∀ f ∈ t.flights, dieOf f.ent.row.core ≠ die) ∧
      (∀ c, c / 160 = die → ∀ r ∈ liveRows s c, tasked s r → (getRow t r).orphan = true ∧
        ((∀ n, ∀ y ∈ gangMates s n, y.row < 256) → ∃ j < 160, rowNotice s (1 - die) 1 j r ∈ t.held)) ∧
      (∀ c, c / 160 = die → shadowLost s t (1 - die) (c % 160) c) ∧
      (∀ p ∈ (getDie s die).inbox, ∃ j < 160, packetNotice s (1 - die) 1 j p ∈ t.held) ∧
      ∀ q p, dieOf q.row.core ≠ die → ends s (fun y => homeDie s y.pa == some die) q p → lostRow s t q p)

/-- R369, R374, R375, R394, R395: errors are counted and contained; failures orphan and end what depends on the part. That a poisoned
line poisons its words of memory (log entry 43), which parts an access uses (60), and the order and place of the notices (61), are
the model's choices. -/
def Obligations.ErrorsAndFailures : Prop := ErrorsCounted ∧ PartsFail

/-! # Start, reset and device registers -/

/-- R389-R393: power-on and reset bring every register to its reset value and begin a start of six stages; stage 3 zeroes row
stores and empties L2; stage 5 binds cluster 0 of die 0 in identity mode, loads the start image, if the loader's check passes, and
kindles its START rows, ends as they halt or break, and leaves, failed or not, the first 16 MiB of die 0 zero, other device memory as
the stage found it and the rest at reset; a failed or late stage records
its cause and begins the next attempt after a reset, and after the third the device comes up in minimal mode, where a stage that
fails leaves the host link in training. That device memory keeps its bytes over a reset and reads 0 after power-on, and that the
start image is one the model does not know, are the model's choices (log entries 3, 18). -/
def Obligations.StartAndReset : Prop :=
  let cause := fun (v : Word) (a c : Nat) => (v &&& ~~~0x3FE#64) ||| wNat (2 ^ 8 * a) ||| wNat (c * 2 ^ (16 + 8 * a))
  let inRows := fun a : Nat => rowBase ≤ a ∧ a < rowBase + 320 * 0x1000000
  let first := fun a : Nat => a < 0x1000000 ∧ a / 0x1000 % 2 = 0
  let kept := fun (z : Prop) (s t : State) =>
    (∀ a, (inRows a ∨ (z ∧ first a) → memByte t a = 0) ∧ (¬ inRows a → ¬ (z ∧ first a) →
      (z ∧ a < rowBase → memByte t a = smGet 0 s.startSave.mem a) ∧ (¬ (z ∧ a < rowBase) → memByte t a = memByte s a))) ∧
    (∀ k, k ∈ t.poison ↔ (k ∈ s.poison ∨ (z ∧ k ∈ s.startSave.poison)) ∧ 8 * k < rowBase ∧ ¬ (z ∧ first (8 * k)))
  let cleared := fun (s t : State) => kept True s t ∧
    (∀ d, (s.dies.filter fun x => x.1 == d).length ≤ 1 → getDie t d =
      { ({} : Die) with serr := (getDie s d).serr, cxl := (getDie s d).cxl, failed := (getDie s d).failed }) ∧
    t = { State.reset with
      mem := t.mem, poison := t.poison, dies := t.dies, agenda := s.agenda, nextId := s.nextId, freeCtr := s.freeCtr,
      hostReply := s.hostReply,
      pkg := { State.reset.pkg with boot := t.pkg.boot, bootcause := t.pkg.bootcause, minimal := s.pkg.minimal } }
  let fresh := fun (s t : State) (q : Pkg) => t = { State.reset with
    mem := t.mem, poison := t.poison, pkg := q, agenda := s.agenda, nextId := s.nextId, freeCtr := s.freeCtr, hostReply := s.hostReply }
  (∀ s : State, Step s .powerOn fun t => t = { State.reset with
      mem := t.mem, agenda := s.agenda, nextId := s.nextId, freeCtr := s.freeCtr, hostReply := s.hostReply } ∧
    ∀ a, memByte t a = if a < 0x8000000000000 then 0 else memByte s a) ∧
  (∀ s : State, Step s .perst fun t => kept False s t ∧ fresh s t State.reset.pkg) ∧
  (∀ (s : State) (v : Word) (priv : Bool),
    (priv = true → v.getLsbD 0 = true → Wbits v 15 8 = 0xA5 → exec (.syReset v priv) s = exec .perst s) ∧
    (priv = false ∨ v.getLsbD 0 = false ∨ Wbits v 15 8 ≠ 0xA5 → exec (.syReset v priv) s = .next s)) ∧
  (∀ s : State, s.pkg.boot = none → (∀ res, exec (.startStage res) s = .next s) ∧ exec .stageTimeLimit s = .next s) ∧
  (∀ (s : State) (a st c : Nat), s.pkg.boot = some ⟨a, st, c⟩ → c ≠ 0 →
    (∀ res, exec (.startStage res) s = .next s) ∧ exec .stageTimeLimit s = .next s) ∧
  ∀ (s : State) (a st : Nat), s.pkg.boot = some ⟨a, st, 0⟩ →
    let fails := fun (i : Instr) (c : Nat) =>
      (a ≤ 3 → Step s i fun t => kept (st = 5) s t ∧ fresh s t { State.reset.pkg with
        boot := some ⟨a + 1, 1, 0⟩, minimal := decide (a = 3),
        bootcause := cause s.pkg.bootcause a c ||| (if a = 3 then 1 else 0) }) ∧
      (3 < a → Step s i fun t => t.pkg.boot = some ⟨a, st, c⟩ ∧ t.pkg.bootcause = s.pkg.bootcause ∧
        (st ≠ 5 → t = { s with pkg := t.pkg } ∧ t.pkg = { s.pkg with boot := t.pkg.boot }) ∧ (st = 5 → cleared s t))
    let ends := fun (t : State) => t.pkg.boot = (if st < 6 then some ⟨a, st + 1, 0⟩ else none) ∧
      t.pkg.bootcause = (if st = 6 ∧ a ≤ 3 then cause s.pkg.bootcause a 0 else s.pkg.bootcause) ∧
      (st ≠ 5 → t.pkg = { s.pkg with boot := t.pkg.boot, bootcause := t.pkg.bootcause })
    fails .stageTimeLimit 7 ∧ (st ≠ 5 → fails (.startStage .failed) st) ∧
    (st ≠ 5 → Step s (.startStage .ok) fun t => ends t ∧
      (st ≠ 3 → st ≠ 4 → t = { s with pkg := t.pkg }) ∧
      (st = 3 → (∀ b, memByte t b = if inRows b then 0 else memByte s b) ∧ t.rows = [] ∧ t.empt = [] ∧ t.l2 = [] ∧
        (∀ k, k ∈ t.poison ↔ k ∈ s.poison ∧ 8 * k < rowBase) ∧ (∀ n, getCore t n = { getCore s n with banks := [] }) ∧
        t = { s with pkg := t.pkg, mem := t.mem, rows := t.rows, empt := t.empt, poison := t.poison, l2 := t.l2, cores := t.cores }) ∧
      (st = 4 → (getCl t 0).valid = true ∧ (getCl t 0).part = 0 ∧ (getPart t 0).root = 3 ∧ (getPart t 0).rowva = wNat rowBase ∧
        t.startSave.mem = s.mem.filter (fun x => decide (x.1 < rowBase)) ∧ t.startSave.poison = s.poison ∧
        (∀ b, ¬ inRows b → ¬ first b → memByte t b = memByte s b) ∧
        (∀ r, r.row < 256 → (∀ x ∈ startRows, imageId x ≠ r) → getRow t r = getRow s r) ∧
        (let s1 := modPart (modCl s 0 fun c => { c with valid := true, part := 0 }) 0 fun p => { p with root := 3, rowva := wNat rowBase }
         if loadOk { s1 with startSave := t.startSave } then
           (∀ c n, (∀ x ∈ Config.startChans, x.core ≠ c ∨ x.chan ≠ n) →
             (smGet {} (getCore t c).chans n : Chan) = smGet {} (getCore s c).chans n) ∧
           (∀ x ∈ Config.startChans, (∀ y ∈ Config.startChans, y.core = x.core → y.chan = x.chan → y = x) →
             (smGet {} (getCore t x.core).chans x.chan : Chan) =
               ⟨x.entry &&& ~~~1#64, x.pri % 4 + 4 + 8 * x.gate.toNat + 16 * x.autores.toNat + 32 * x.priv.toNat, x.hold, false,
                x.pool0, x.pool1, x.pool2, x.pool3⟩) ∧
           ((getPart s 0).stopped = false → (getPart s 0).taken = [] → ∀ x ∈ startRows, x.start = true →
             (getRow t (imageId x)).st = .ready)
         else (∀ b, memByte t b = memByte s b) ∧ t.rows = s.rows ∧ t.cores = s.cores))) ∧
    ∀ res, st = 5 →
      let started := startRows.filter (·.start)
      ((∃ x ∈ started, startBroken s x = true) → fails (.startStage res) 5) ∧
      ((∀ x ∈ started, startHalted s x = true) → Step s (.startStage res) fun t => ends t ∧ cleared s t) ∧
      ((∀ x ∈ started, startBroken s x = false) → (∃ x ∈ started, startHalted s x = false) →
        exec (.startStage res) s = .next s)

/-- R132, R211, R261, R265, R363-R371, R385: stores to device registers. CLEAR empties a deque; BSTATE takes its fields and acts as
a barrier's phase does; SY.CLBIND binds a cluster at rest, merging its update-only lines first where VALID or PART changes, else
reports BERR; the other system registers keep what a privileged writer writes, and ignore others but for the two counter
registers. -/
def Obligations.DeviceRegisters : Prop :=
  (∀ (s : State) (core : Nat), corePresent s core = true →
    (Step s (.dequeClear core) fun t => t = { s with cores := t.cores } ∧ (∀ c, c ≠ core → getCore t c = getCore s c) ∧
      getCore t core = { getCore s core with dq := { (getCore s core).dq with top := (getCore s core).dq.bottom } }) ∧
    ∀ (b : Nat) (v : Word), b < 256 →
      let x : Bar := ⟨v.getLsbD 33, v.getLsbD 32, Wbits v 31 16, Wbits v 15 0⟩
      Step s (.bstateWrite core b v) fun t => t = barSet s core b x ∧ (smGet {} (getCore t core).bars b : Bar) = x ∧
        t.mem = s.mem) ∧
  (∀ (s : State) (cl : Nat) (v : Word), cl < 40 →
    let join := if v.getLsbD 8 then some (Wbits v 5 0) else none
    exec (.syClbind cl v false) s = .next s ∧
    (bindOk s cl join = false → Step s (.syClbind cl v true) fun t =>
      getCl t cl = { getCl s cl with berr := true } ∧ (∀ c, c ≠ cl → getCl t c = getCl s c) ∧ t = { s with clusters := t.clusters }) ∧
    (bindOk s cl join = true → Step s (.syClbind cl v true) fun t =>
      let keeps := (getCl s cl).valid = v.getLsbD 8 ∧ (getCl s cl).part = Wbits v 5 0
      (getCl t cl).valid = v.getLsbD 8 ∧ (getCl t cl).part = Wbits v 5 0 ∧ (getCl t cl).berr = false ∧
      (¬ keeps → ∀ n, n / 8 = cl → (getCore s n).red.length ≤ 32 → (getCore t n).red = []) ∧
      (keeps ∨ (∀ n, n / 8 = cl → (getCore s n).red = []) → t = { s with clusters := t.clusters } ∧
        (∀ c, c ≠ cl → getCl t c = getCl s c) ∧
        getCl t cl = { getCl s cl with valid := v.getLsbD 8, part := Wbits v 5 0, berr := false }))) ∧
  ∀ (s : State) (num : Nat) (v : Word) (core : Nat), core < 320 → sysAssigned num = true →
    (∀ mask, RegisterMask num mask → Step s (.sysregWrite num v true core) fun t =>
      sysRead t core true num = v &&& wNat mask ∧ t.mem = s.mem ∧ t.rows = s.rows ∧
      ∀ k, k ≠ num → ¬ (num = 0x220 ∧ k = 0x221) → sysRead t core true k = sysRead s core true k) ∧
    (num = 0x383 → Step s (.sysregWrite num v true core) fun t => t.pkg = { s.pkg with
      safecap := Wbits v 15 0, capnow := if s.pkg.capOn then s.pkg.capnow else Wbits v 15 0 } ∧ t = { s with pkg := t.pkg }) ∧
    (num ≠ 0x101 → num ≠ 0x102 → ¬ (0x410 ≤ num ∧ num ≤ 0x415) → exec (.sysregWrite num v false core) s = .next s) ∧
    ∀ priv, (num = 0x101 → Step s (.sysregWrite num v priv core) fun t => t = { s with dies := t.dies } ∧
        getDie t (core / 160) = { getDie s (core / 160) with frost := Wbits v 63 32, acq := Wbits v 31 0 }) ∧
      (num = 0x102 → Step s (.sysregWrite num v priv core) fun t => t = { s with cores := t.cores } ∧
        getCore t core = { getCore s core with mxflags := v.setWidth 6 })

/-! # Words, steps and invariants -/

/-- R147-R158: every well-formed instruction decodes from its own bytes, whatever follows, and every word that decodes is
well formed and the very word that its instruction encodes to: reserved fields are zero and no word has two meanings. -/
def Obligations.DecodeAndEncodeAgree : Prop :=
  (∀ (i : Instr) (rest : List Byte), i.hasWord = true → i.wf = true → decode (encode i ++ rest) = some (i, rest)) ∧
  ∀ (bs rest : List Byte) (i : Instr), decode bs = some (i, rest) → i.wf = true ∧ i.hasWord = true ∧ bs = encode i ++ rest

/-- R147-R156: words written out from the encoding tables decode to what they stand for; a word with a reserved field that
is not zero, a register outside its class or an unassigned system register, and a halfword of zeros, decode to nothing. -/
def Obligations.DecodesWrittenWords : Prop :=
  decodeTableWord 32 0x00041943 = some (.aluAdd false false false 4 3 5) ∧
  decodeTableWord 32 0xFFFE1045 = some (.alui 0x7FFF false 2 1) ∧
  decodeTableWord 32 0x0046115D = some (.ld 1 0 3 false 2 5) ∧
  decodeTableWord 32 0x00423999 = some (.bcLt 4 false 7 6) ∧
  decodeTableWord 32 0x03004269 = some (.syncAcq false false 8 9) ∧
  decodeTableWord 32 0x818020F5 = some (.rowBarSync false false 4 3) ∧
  decodeTableWord 32 0x602248E5 = some (.vmemGather 3 false 1 2 9 3) ∧
  decodeTableWord 32 0x00012979 = some (.sysSysr 1 5) ∧
  decodeTableWord 16 0x1064 = some (.hAdd 4 3) ∧ decodeTableWord 16 0x005C = some .hRet ∧
  decodeTableWord 32 0x00000079 = none ∧ decodeTableWord 32 0x60324CE5 = none ∧ decodeTableWord 32 0x0FFF2979 = none ∧
  decodeTableWord 16 0x0000 = none

/-- R45, R108, R147, R148, R158, R330-R333: a step of a row that may run first gives the position up where a rival or the quantum
takes it, raises a BUDGET trap that is due, writes the object of a release that it has dated (R118), and else fetches the instruction at its PC and executes it, the row holding how long it
is; its slot is marked once it has retired, gone on to another step or dated a release; bytes that decode to nothing raise ILL there. A fetch that
faults raises its fault, SKIP then advancing by the length known. A device step is executed as it stands. -/
def Obligations.StepRunsDecodedInstruction : Prop :=
  (∀ (s : State) (r : RowId),
    let s0 : State := { s with agenda := s.agenda.drop 1 }
    let y := yieldPosition s0 r.core (r.row % 4)
    let marked := fun v t : State =>
      if (getRow t r).retired ≠ (getRow v r).retired ∨ (getRow t r).rstep ≠ (getRow v r).rstep ∨
        ((getRow t r).rel ≠ none ∧ (getRow v r).rel = none) then markIssued t r else t
    nextTurn s = .run r →
    (canRun s0 r = false → step s = .next s0) ∧
    (canRun s0 r = true → (inPosition y r = false → step s = .next y) ∧
      (inPosition y r = true →
        ((getRow s0 r).due = true → (getRow s0 r).stalled = false → step s = .next (budgetTrap y r)) ∧
        (∀ x, (getRow s0 r).due = false ∨ (getRow s0 r).stalled = true → (getRow s0 r).rel = some x →
          step s = .next (relWrite (startIssue y r) r x)) ∧
        ((getRow s0 r).due = false ∨ (getRow s0 r).stalled = true → (getRow s0 r).rel = none →
          (∀ u, fetch (startIssue y r) r = (.wait, u) → step s = .next u) ∧
          (∀ x len u, fetch (startIssue y r) r = (.bad x len, u) →
            step s = .next (raise (modRow u r fun w => { w with fetchLen := some len }) r x (getRow s0 r).rstep)) ∧
          ∀ bs u, fetch (startIssue y r) r = (.got bs, u) →
            (∀ i rest t, decode bs = some (i, rest) → let v := modRow u r fun w => { w with fetchLen := some i.size }
              exec i v = .next t → step s = .next (marked v t)) ∧
            let v := modRow u r fun w => { w with fetchLen := some bs.length }
            (decode bs = none → step s = .next (marked v (raise v v.cur ⟨0, 1, 0, 0, (getRow v v.cur).pc, 0⟩ 0)))))) ∧
    ∀ t : State, let x := markIssued t r
      x = { t with cores := x.cores } ∧ ∀ c, getCore x c = { getCore t c with banks := (getCore x c).banks }) ∧
  (∀ (s t u : State) (r : RowId) (b0 b1 b2 b3 : Byte) (p p' : Part),
    let pc := (getRow s r).pc
    let priv := (getRow s r).priv
    check s (ctxOf s r) { ex := true, code := 2 } pc 2 false = .ok [p] → fetchHeld s r.core p = none →
    readPart (bump s r.core 4 1) r priv 0 false p = (.ok [b0, b1], t) →
    (b0.getLsbD 0 = false → fetch s r = (.got [b0, b1], t)) ∧
    (b0.getLsbD 0 = true → getRow t r = getRow s r → check t (ctxOf t r) { ex := true, code := 2 } pc 4 false = .ok [p'] →
      fetchHeld t r.core p' = none → readPart (bump t r.core 4 1) r priv 0 false p' = (.ok [b0, b1, b2, b3], u) →
      fetch s r = (.got [b0, b1, b2, b3], u))) ∧
  ∀ (s : State) (i : Instr), nextTurn s = .dev i → ofRow i = false → step s = exec i { s with agenda := s.agenda.drop 1 }

/-- Every instruction answers a next state in every state: no path of any meaning ends in a fault or a refusal; an
exception is a next state (R338), and so is a wait. That a device step whose condition does not hold, or an instruction that
waits, leaves the state as it is, is the model's choice (log entries 1, 13). -/
def Obligations.EveryInstructionAnswers : Prop := ∀ (i : Instr) (s : State), ∃ t, exec i s = .next t

/-- Every step keeps the canonical form of memory: addresses strictly rising, no listed byte equal to what an unlisted one
reads (the model's own form, log entry 3). -/
def Obligations.StepKeepsMemoryForm : Prop :=
  ∀ s t : State, step s = .next t → Memory.wf s = true → Memory.wf t = true

/-- R45, R46, R49, R133: every step keeps the control blocks legal, resident and shadow ones: WHY fits STATE, WAITW is 0 but
in a wait on an empty word, bit 0 of PC and NPC is 0, and the reserved bits of FLAGS read 0. -/
def Obligations.StepKeepsControlBlocks : Prop := ∀ s t : State, step s = .next t → RowsOk s → RowsOk t

/-- R43-R46, R51, R113, R376-R385, R389: the package at reset. Every row is STOPPED with WHY 0 and zero registers, all words
full; DATE is 0, clocks stand at 15, the start is at its first attempt; both invariants hold. -/
def Obligations.ResetState : Prop :=
  Memory.wf State.reset = true ∧ RowsOk State.reset ∧
  (∀ r : RowId, (getRow State.reset r).st = .stopped ∧ (getRow State.reset r).why = 0 ∧ (getRow State.reset r).pc = 0 ∧
    (∀ d : Reg, getX State.reset r d = 0) ∧ ∀ w, isEmpty State.reset r w = false) ∧
  State.reset.pkg.date = 0 ∧ State.reset.pkg.safecap = 800 ∧ State.reset.pkg.slopeFloor = 400 ∧
  State.reset.pkg.slopeDown = 250 ∧ State.reset.pkg.slopeUp = 400 ∧ State.reset.pkg.boot = some ⟨1, 1, 0⟩ ∧
  ∀ c, (getCl State.reset c).valid = false ∧ (getCl State.reset c).clk.freq = 15
end

