-- ==== Sys2Proof/Laws/Maps.lean ====
section
/-!
SUPPORT. Laws of the sparse maps: what a key holds after a write or an erase, whatever the map; and that the
canonical form is kept.
-/

namespace Sys2Proof.Machine

/-! ## Reading after writing -/

/-- What a key holds after an erase. -/
@[simp] theorem smGet_smErase {α : Type} (d : α) (m : SMap α) (k j : Nat) :
    smGet d (smErase m k) j = if j = k then d else smGet d m j := by
  induction m with
  | nil => simp [smErase, smGet]
  | cons e m ih =>
    obtain ⟨i, v⟩ := e
    simp only [smErase, smGet]
    by_cases h : i = k
    · subst h
      by_cases hj : j = i
      · subst hj; simp [ih]
      · simp [ih, hj, Ne.symm hj]
    · by_cases hj : i = j
      · subst hj; simp [h, smGet]
      · simp [h, smGet, hj, ih]

/-- What a key holds after a value is put. -/
@[simp] theorem smGet_smPut {α : Type} (d : α) (m : SMap α) (k j : Nat) (v : α) :
    smGet d (smPut m k v) j = if j = k then v else smGet d m j := by
  induction m with
  | nil => simp [smPut, smGet, eq_comm]
  | cons e m ih =>
    obtain ⟨i, u⟩ := e
    simp only [smPut]
    split
    · subst_vars
      by_cases hj : j = i
      · subst hj; simp [smGet]
      · simp [smGet, hj, Ne.symm hj]
    · split
      · simp only [smGet]
        by_cases hj : j = k
        · subst hj; simp
        · simp [hj, Ne.symm hj]
      · rename_i hik hlt
        simp only [smGet, ih]
        by_cases hj : i = j
        · subst hj; simp [hik]
        · simp [hj]

/-- A property that every key's value has is kept by a change of the entries that keeps it. -/
theorem smGet_map {α : Type} (d : α) (P : α → Prop) (f : α → α) (hd : P d) (hf : ∀ v, P v → P (f v)) (m : SMap α) (k : Nat)
    (h : P (smGet d m k)) : P (smGet d (m.map fun e => (e.1, f e.2)) k) := by
  induction m with
  | nil => exact hd
  | cons e m ih =>
    simp only [List.map_cons, smGet] at *
    split at h <;> rename_i c
    · rw [if_pos c]; exact hf _ h
    · rw [if_neg c]; exact ih h

/-- What a key holds after a write. -/
@[simp] theorem smGet_smSet {α : Type} [DecidableEq α] (d : α) (m : SMap α) (k j : Nat) (v : α) :
    smGet d (smSet d m k v) j = if j = k then v else smGet d m j := by
  unfold smSet
  split
  · subst_vars; simp
  · simp

/-! ## The canonical form -/

/-- The canonical form, as a statement about all entries and all pairs of entries. -/
theorem smWf_iff {α : Type} [DecidableEq α] (d : α) (m : SMap α) :
    smWf d m = true ↔ (∀ e ∈ m, e.2 ≠ d) ∧ m.Pairwise (fun x y => x.1 < y.1) := by
  induction m with
  | nil => simp [smWf]
  | cons e m ih =>
    cases m with
    | nil => simp [smWf]
    | cons e' m =>
      obtain ⟨i, u⟩ := e
      obtain ⟨j, v⟩ := e'
      simp only [smWf, Bool.and_eq_true, decide_eq_true_eq, ih]
      constructor
      · rintro ⟨⟨hu, hij⟩, hall, hp⟩
        refine ⟨?_, ?_⟩
        · intro x hx
          rcases List.mem_cons.mp hx with rfl | hx
          · exact hu
          · exact hall x hx
        · rw [List.pairwise_cons]
          refine ⟨?_, hp⟩
          intro y hy
          rcases List.mem_cons.mp hy with rfl | hy
          · exact hij
          · exact Nat.lt_trans hij (List.rel_of_pairwise_cons hp hy)
      · rintro ⟨hall, hp⟩
        rw [List.pairwise_cons] at hp
        exact ⟨⟨hall (i, u) (by simp), hp.1 (j, v) (by simp)⟩, fun x hx => hall x (List.mem_cons_of_mem _ hx), hp.2⟩

/-- Keeping some of the entries keeps the form. -/
theorem smWf_filter {α : Type} [DecidableEq α] (d : α) (m : SMap α) (p : Nat × α → Bool) (h : smWf d m = true) :
    smWf d (m.filter p) = true := by
  rw [smWf_iff] at *
  exact ⟨fun e he => h.1 e (List.mem_filter.mp he).1, h.2.filter p⟩

/-- Keeping the entries of some keys. -/
theorem smGet_filter {α : Type} (d : α) (m : SMap α) (p : Nat → Bool) (k : Nat) :
    smGet d (m.filter fun e => p e.1) k = if p k = true then smGet d m k else d := by
  induction m with
  | nil => simp [smGet]
  | cons e m ih =>
    obtain ⟨i, v⟩ := e
    by_cases h : p i = true <;> by_cases hk : i = k <;> simp_all [smGet]

/-- An erase keeps some of the entries. -/
theorem smErase_eq_filter {α : Type} (m : SMap α) (k : Nat) : smErase m k = m.filter fun e => e.1 ≠ k := by
  induction m with
  | nil => rfl
  | cons e m ih =>
    obtain ⟨i, v⟩ := e
    by_cases h : i = k <;> simp [smErase, h, ih]

/-- An erase keeps the form. -/
theorem smWf_smErase {α : Type} [DecidableEq α] (d : α) (m : SMap α) (k : Nat) (h : smWf d m = true) :
    smWf d (smErase m k) = true := by
  rw [smErase_eq_filter]; exact smWf_filter d m _ h

/-- The keys after a put. -/
theorem mem_smPut {α : Type} (m : SMap α) (k : Nat) (v : α) (e : Nat × α) (h : e ∈ smPut m k v) :
    e = (k, v) ∨ e ∈ m := by
  induction m with
  | nil => simpa [smPut] using h
  | cons x m ih =>
    obtain ⟨i, u⟩ := x
    simp only [smPut] at h
    split at h
    · rcases List.mem_cons.mp h with h | h
      · exact .inl h
      · exact .inr (List.mem_cons_of_mem _ h)
    · split at h
      · rcases List.mem_cons.mp h with h | h
        · exact .inl h
        · exact .inr h
      · rcases List.mem_cons.mp h with h | h
        · exact .inr (h ▸ List.mem_cons_self)
        · rcases ih h with h | h
          · exact .inl h
          · exact .inr (List.mem_cons_of_mem _ h)

/-- A put of a value other than the default keeps the form. -/
theorem smWf_smPut {α : Type} [DecidableEq α] (d : α) (m : SMap α) (k : Nat) (v : α) (hv : v ≠ d)
    (h : smWf d m = true) : smWf d (smPut m k v) = true := by
  rw [smWf_iff] at *
  refine ⟨?_, ?_⟩
  · intro e he
    rcases mem_smPut m k v e he with rfl | he
    · exact hv
    · exact h.1 e he
  · obtain ⟨-, hp⟩ := h
    induction m with
    | nil => simp [smPut]
    | cons x m ih =>
      obtain ⟨i, u⟩ := x
      rw [List.pairwise_cons] at hp
      simp only [smPut]
      split
      · subst_vars; rw [List.pairwise_cons]; exact hp
      · split
        · rename_i hik hlt
          rw [List.pairwise_cons, List.pairwise_cons]
          refine ⟨?_, hp⟩
          intro y hy
          rcases List.mem_cons.mp hy with rfl | hy
          · exact hlt
          · exact Nat.lt_trans hlt (hp.1 y hy)
        · rename_i hik hlt
          rw [List.pairwise_cons]
          refine ⟨?_, ih hp.2⟩
          intro y hy
          rcases mem_smPut m k v y hy with rfl | hy
          · simp only; omega
          · exact hp.1 y hy

/-- A write keeps the form. -/
theorem smWf_smSet {α : Type} [DecidableEq α] (d : α) (m : SMap α) (k : Nat) (v : α) (h : smWf d m = true) :
    smWf d (smSet d m k v) = true := by
  unfold smSet
  split
  · exact smWf_smErase d m k h
  · exact smWf_smPut d m k v (by assumption) h

/-! ## Sets of numbers -/

/-- What a sorted insertion adds. -/
@[simp] theorem mem_insSorted (l : List Nat) (k j : Nat) : j ∈ insSorted l k ↔ j = k ∨ j ∈ l := by
  induction l with
  | nil => simp [insSorted]
  | cons i l ih =>
    simp only [insSorted]
    split
    · subst_vars; simp
    · split
      · simp
      · simp only [List.mem_cons, ih]
        constructor
        · rintro (h | h | h) <;> simp [h]
        · rintro (h | h | h) <;> simp [h]

end Sys2Proof.Machine
end

