-- ==== Sys2Proof/Laws/State.lean ====
section
/-!
SUPPORT. One lemma per field of the state per update of a record: what the update leaves alone; and what each record
reads after an update.
-/

namespace Sys2Proof.Machine

/-! ## `setRow` -/

@[simp] theorem setRow_mem (s : State) (r : RowId) (v : Row) : (setRow s r v).mem = s.mem := rfl
@[simp] theorem setRow_empt (s : State) (r : RowId) (v : Row) : (setRow s r v).empt = s.empt := rfl
@[simp] theorem setRow_poison (s : State) (r : RowId) (v : Row) : (setRow s r v).poison = s.poison := rfl
@[simp] theorem setRow_cores (s : State) (r : RowId) (v : Row) : (setRow s r v).cores = s.cores := rfl
@[simp] theorem setRow_clusters (s : State) (r : RowId) (v : Row) : (setRow s r v).clusters = s.clusters := rfl
@[simp] theorem setRow_dies (s : State) (r : RowId) (v : Row) : (setRow s r v).dies = s.dies := rfl
@[simp] theorem setRow_parts (s : State) (r : RowId) (v : Row) : (setRow s r v).parts = s.parts := rfl
@[simp] theorem setRow_pkg (s : State) (r : RowId) (v : Row) : (setRow s r v).pkg = s.pkg := rfl
@[simp] theorem setRow_shadow (s : State) (r : RowId) (v : Row) : (setRow s r v).shadow = s.shadow := rfl
@[simp] theorem setRow_l2 (s : State) (r : RowId) (v : Row) : (setRow s r v).l2 = s.l2 := rfl
@[simp] theorem setRow_tlb (s : State) (r : RowId) (v : Row) : (setRow s r v).tlb = s.tlb := rfl
@[simp] theorem setRow_ibuf (s : State) (r : RowId) (v : Row) : (setRow s r v).ibuf = s.ibuf := rfl
@[simp] theorem setRow_reqs (s : State) (r : RowId) (v : Row) : (setRow s r v).reqs = s.reqs := rfl
@[simp] theorem setRow_flights (s : State) (r : RowId) (v : Row) : (setRow s r v).flights = s.flights := rfl
@[simp] theorem setRow_held (s : State) (r : RowId) (v : Row) : (setRow s r v).held = s.held := rfl
@[simp] theorem setRow_passes (s : State) (r : RowId) (v : Row) : (setRow s r v).passes = s.passes := rfl
@[simp] theorem setRow_flue (s : State) (r : RowId) (v : Row) : (setRow s r v).flue = s.flue := rfl
@[simp] theorem setRow_flueReqs (s : State) (r : RowId) (v : Row) : (setRow s r v).flueReqs = s.flueReqs := rfl
@[simp] theorem setRow_flueRes (s : State) (r : RowId) (v : Row) : (setRow s r v).flueRes = s.flueRes := rfl
@[simp] theorem setRow_steer (s : State) (r : RowId) (v : Row) : (setRow s r v).steer = s.steer := rfl
@[simp] theorem setRow_shoots (s : State) (r : RowId) (v : Row) : (setRow s r v).shoots = s.shoots := rfl
@[simp] theorem setRow_outs (s : State) (r : RowId) (v : Row) : (setRow s r v).outs = s.outs := rfl
@[simp] theorem setRow_answers (s : State) (r : RowId) (v : Row) : (setRow s r v).answers = s.answers := rfl
@[simp] theorem setRow_peerNo (s : State) (r : RowId) (v : Row) : (setRow s r v).peerNo = s.peerNo := rfl
@[simp] theorem setRow_startSave (s : State) (r : RowId) (v : Row) : (setRow s r v).startSave = s.startSave := rfl
@[simp] theorem setRow_agenda (s : State) (r : RowId) (v : Row) : (setRow s r v).agenda = s.agenda := rfl
@[simp] theorem setRow_cur (s : State) (r : RowId) (v : Row) : (setRow s r v).cur = s.cur := rfl
@[simp] theorem setRow_nextId (s : State) (r : RowId) (v : Row) : (setRow s r v).nextId = s.nextId := rfl
@[simp] theorem setRow_freeCtr (s : State) (r : RowId) (v : Row) : (setRow s r v).freeCtr = s.freeCtr := rfl
@[simp] theorem setRow_hostReply (s : State) (r : RowId) (v : Row) : (setRow s r v).hostReply = s.hostReply := rfl

/-! ## `modRow` -/

@[simp] theorem modRow_mem (s : State) (r : RowId) (f : Row → Row) : (modRow s r f).mem = s.mem := rfl
@[simp] theorem modRow_empt (s : State) (r : RowId) (f : Row → Row) : (modRow s r f).empt = s.empt := rfl
@[simp] theorem modRow_poison (s : State) (r : RowId) (f : Row → Row) : (modRow s r f).poison = s.poison := rfl
@[simp] theorem modRow_cores (s : State) (r : RowId) (f : Row → Row) : (modRow s r f).cores = s.cores := rfl
@[simp] theorem modRow_clusters (s : State) (r : RowId) (f : Row → Row) : (modRow s r f).clusters = s.clusters := rfl
@[simp] theorem modRow_dies (s : State) (r : RowId) (f : Row → Row) : (modRow s r f).dies = s.dies := rfl
@[simp] theorem modRow_parts (s : State) (r : RowId) (f : Row → Row) : (modRow s r f).parts = s.parts := rfl
@[simp] theorem modRow_pkg (s : State) (r : RowId) (f : Row → Row) : (modRow s r f).pkg = s.pkg := rfl
@[simp] theorem modRow_shadow (s : State) (r : RowId) (f : Row → Row) : (modRow s r f).shadow = s.shadow := rfl
@[simp] theorem modRow_l2 (s : State) (r : RowId) (f : Row → Row) : (modRow s r f).l2 = s.l2 := rfl
@[simp] theorem modRow_tlb (s : State) (r : RowId) (f : Row → Row) : (modRow s r f).tlb = s.tlb := rfl
@[simp] theorem modRow_ibuf (s : State) (r : RowId) (f : Row → Row) : (modRow s r f).ibuf = s.ibuf := rfl
@[simp] theorem modRow_reqs (s : State) (r : RowId) (f : Row → Row) : (modRow s r f).reqs = s.reqs := rfl
@[simp] theorem modRow_flights (s : State) (r : RowId) (f : Row → Row) : (modRow s r f).flights = s.flights := rfl
@[simp] theorem modRow_held (s : State) (r : RowId) (f : Row → Row) : (modRow s r f).held = s.held := rfl
@[simp] theorem modRow_passes (s : State) (r : RowId) (f : Row → Row) : (modRow s r f).passes = s.passes := rfl
@[simp] theorem modRow_flue (s : State) (r : RowId) (f : Row → Row) : (modRow s r f).flue = s.flue := rfl
@[simp] theorem modRow_flueReqs (s : State) (r : RowId) (f : Row → Row) : (modRow s r f).flueReqs = s.flueReqs := rfl
@[simp] theorem modRow_flueRes (s : State) (r : RowId) (f : Row → Row) : (modRow s r f).flueRes = s.flueRes := rfl
@[simp] theorem modRow_steer (s : State) (r : RowId) (f : Row → Row) : (modRow s r f).steer = s.steer := rfl
@[simp] theorem modRow_shoots (s : State) (r : RowId) (f : Row → Row) : (modRow s r f).shoots = s.shoots := rfl
@[simp] theorem modRow_outs (s : State) (r : RowId) (f : Row → Row) : (modRow s r f).outs = s.outs := rfl
@[simp] theorem modRow_answers (s : State) (r : RowId) (f : Row → Row) : (modRow s r f).answers = s.answers := rfl
@[simp] theorem modRow_peerNo (s : State) (r : RowId) (f : Row → Row) : (modRow s r f).peerNo = s.peerNo := rfl
@[simp] theorem modRow_startSave (s : State) (r : RowId) (f : Row → Row) : (modRow s r f).startSave = s.startSave := rfl
@[simp] theorem modRow_agenda (s : State) (r : RowId) (f : Row → Row) : (modRow s r f).agenda = s.agenda := rfl
@[simp] theorem modRow_cur (s : State) (r : RowId) (f : Row → Row) : (modRow s r f).cur = s.cur := rfl
@[simp] theorem modRow_nextId (s : State) (r : RowId) (f : Row → Row) : (modRow s r f).nextId = s.nextId := rfl
@[simp] theorem modRow_freeCtr (s : State) (r : RowId) (f : Row → Row) : (modRow s r f).freeCtr = s.freeCtr := rfl
@[simp] theorem modRow_hostReply (s : State) (r : RowId) (f : Row → Row) : (modRow s r f).hostReply = s.hostReply := rfl

/-! ## `modCore` -/

@[simp] theorem modCore_mem (s : State) (n : Nat) (f : Core → Core) : (modCore s n f).mem = s.mem := rfl
@[simp] theorem modCore_empt (s : State) (n : Nat) (f : Core → Core) : (modCore s n f).empt = s.empt := rfl
@[simp] theorem modCore_poison (s : State) (n : Nat) (f : Core → Core) : (modCore s n f).poison = s.poison := rfl
@[simp] theorem modCore_rows (s : State) (n : Nat) (f : Core → Core) : (modCore s n f).rows = s.rows := rfl
@[simp] theorem modCore_clusters (s : State) (n : Nat) (f : Core → Core) : (modCore s n f).clusters = s.clusters := rfl
@[simp] theorem modCore_dies (s : State) (n : Nat) (f : Core → Core) : (modCore s n f).dies = s.dies := rfl
@[simp] theorem modCore_parts (s : State) (n : Nat) (f : Core → Core) : (modCore s n f).parts = s.parts := rfl
@[simp] theorem modCore_pkg (s : State) (n : Nat) (f : Core → Core) : (modCore s n f).pkg = s.pkg := rfl
@[simp] theorem modCore_shadow (s : State) (n : Nat) (f : Core → Core) : (modCore s n f).shadow = s.shadow := rfl
@[simp] theorem modCore_l2 (s : State) (n : Nat) (f : Core → Core) : (modCore s n f).l2 = s.l2 := rfl
@[simp] theorem modCore_tlb (s : State) (n : Nat) (f : Core → Core) : (modCore s n f).tlb = s.tlb := rfl
@[simp] theorem modCore_ibuf (s : State) (n : Nat) (f : Core → Core) : (modCore s n f).ibuf = s.ibuf := rfl
@[simp] theorem modCore_reqs (s : State) (n : Nat) (f : Core → Core) : (modCore s n f).reqs = s.reqs := rfl
@[simp] theorem modCore_flights (s : State) (n : Nat) (f : Core → Core) : (modCore s n f).flights = s.flights := rfl
@[simp] theorem modCore_held (s : State) (n : Nat) (f : Core → Core) : (modCore s n f).held = s.held := rfl
@[simp] theorem modCore_passes (s : State) (n : Nat) (f : Core → Core) : (modCore s n f).passes = s.passes := rfl
@[simp] theorem modCore_flue (s : State) (n : Nat) (f : Core → Core) : (modCore s n f).flue = s.flue := rfl
@[simp] theorem modCore_flueReqs (s : State) (n : Nat) (f : Core → Core) : (modCore s n f).flueReqs = s.flueReqs := rfl
@[simp] theorem modCore_flueRes (s : State) (n : Nat) (f : Core → Core) : (modCore s n f).flueRes = s.flueRes := rfl
@[simp] theorem modCore_steer (s : State) (n : Nat) (f : Core → Core) : (modCore s n f).steer = s.steer := rfl
@[simp] theorem modCore_shoots (s : State) (n : Nat) (f : Core → Core) : (modCore s n f).shoots = s.shoots := rfl
@[simp] theorem modCore_outs (s : State) (n : Nat) (f : Core → Core) : (modCore s n f).outs = s.outs := rfl
@[simp] theorem modCore_answers (s : State) (n : Nat) (f : Core → Core) : (modCore s n f).answers = s.answers := rfl
@[simp] theorem modCore_peerNo (s : State) (n : Nat) (f : Core → Core) : (modCore s n f).peerNo = s.peerNo := rfl
@[simp] theorem modCore_startSave (s : State) (n : Nat) (f : Core → Core) : (modCore s n f).startSave = s.startSave := rfl
@[simp] theorem modCore_agenda (s : State) (n : Nat) (f : Core → Core) : (modCore s n f).agenda = s.agenda := rfl
@[simp] theorem modCore_cur (s : State) (n : Nat) (f : Core → Core) : (modCore s n f).cur = s.cur := rfl
@[simp] theorem modCore_nextId (s : State) (n : Nat) (f : Core → Core) : (modCore s n f).nextId = s.nextId := rfl
@[simp] theorem modCore_freeCtr (s : State) (n : Nat) (f : Core → Core) : (modCore s n f).freeCtr = s.freeCtr := rfl
@[simp] theorem modCore_hostReply (s : State) (n : Nat) (f : Core → Core) : (modCore s n f).hostReply = s.hostReply := rfl

/-! ## `modCl` -/

@[simp] theorem modCl_mem (s : State) (n : Nat) (f : Cluster → Cluster) : (modCl s n f).mem = s.mem := rfl
@[simp] theorem modCl_empt (s : State) (n : Nat) (f : Cluster → Cluster) : (modCl s n f).empt = s.empt := rfl
@[simp] theorem modCl_poison (s : State) (n : Nat) (f : Cluster → Cluster) : (modCl s n f).poison = s.poison := rfl
@[simp] theorem modCl_rows (s : State) (n : Nat) (f : Cluster → Cluster) : (modCl s n f).rows = s.rows := rfl
@[simp] theorem modCl_cores (s : State) (n : Nat) (f : Cluster → Cluster) : (modCl s n f).cores = s.cores := rfl
@[simp] theorem modCl_dies (s : State) (n : Nat) (f : Cluster → Cluster) : (modCl s n f).dies = s.dies := rfl
@[simp] theorem modCl_parts (s : State) (n : Nat) (f : Cluster → Cluster) : (modCl s n f).parts = s.parts := rfl
@[simp] theorem modCl_pkg (s : State) (n : Nat) (f : Cluster → Cluster) : (modCl s n f).pkg = s.pkg := rfl
@[simp] theorem modCl_shadow (s : State) (n : Nat) (f : Cluster → Cluster) : (modCl s n f).shadow = s.shadow := rfl
@[simp] theorem modCl_l2 (s : State) (n : Nat) (f : Cluster → Cluster) : (modCl s n f).l2 = s.l2 := rfl
@[simp] theorem modCl_tlb (s : State) (n : Nat) (f : Cluster → Cluster) : (modCl s n f).tlb = s.tlb := rfl
@[simp] theorem modCl_ibuf (s : State) (n : Nat) (f : Cluster → Cluster) : (modCl s n f).ibuf = s.ibuf := rfl
@[simp] theorem modCl_reqs (s : State) (n : Nat) (f : Cluster → Cluster) : (modCl s n f).reqs = s.reqs := rfl
@[simp] theorem modCl_flights (s : State) (n : Nat) (f : Cluster → Cluster) : (modCl s n f).flights = s.flights := rfl
@[simp] theorem modCl_held (s : State) (n : Nat) (f : Cluster → Cluster) : (modCl s n f).held = s.held := rfl
@[simp] theorem modCl_passes (s : State) (n : Nat) (f : Cluster → Cluster) : (modCl s n f).passes = s.passes := rfl
@[simp] theorem modCl_flue (s : State) (n : Nat) (f : Cluster → Cluster) : (modCl s n f).flue = s.flue := rfl
@[simp] theorem modCl_flueReqs (s : State) (n : Nat) (f : Cluster → Cluster) : (modCl s n f).flueReqs = s.flueReqs := rfl
@[simp] theorem modCl_flueRes (s : State) (n : Nat) (f : Cluster → Cluster) : (modCl s n f).flueRes = s.flueRes := rfl
@[simp] theorem modCl_steer (s : State) (n : Nat) (f : Cluster → Cluster) : (modCl s n f).steer = s.steer := rfl
@[simp] theorem modCl_shoots (s : State) (n : Nat) (f : Cluster → Cluster) : (modCl s n f).shoots = s.shoots := rfl
@[simp] theorem modCl_outs (s : State) (n : Nat) (f : Cluster → Cluster) : (modCl s n f).outs = s.outs := rfl
@[simp] theorem modCl_answers (s : State) (n : Nat) (f : Cluster → Cluster) : (modCl s n f).answers = s.answers := rfl
@[simp] theorem modCl_peerNo (s : State) (n : Nat) (f : Cluster → Cluster) : (modCl s n f).peerNo = s.peerNo := rfl
@[simp] theorem modCl_startSave (s : State) (n : Nat) (f : Cluster → Cluster) : (modCl s n f).startSave = s.startSave := rfl
@[simp] theorem modCl_agenda (s : State) (n : Nat) (f : Cluster → Cluster) : (modCl s n f).agenda = s.agenda := rfl
@[simp] theorem modCl_cur (s : State) (n : Nat) (f : Cluster → Cluster) : (modCl s n f).cur = s.cur := rfl
@[simp] theorem modCl_nextId (s : State) (n : Nat) (f : Cluster → Cluster) : (modCl s n f).nextId = s.nextId := rfl
@[simp] theorem modCl_freeCtr (s : State) (n : Nat) (f : Cluster → Cluster) : (modCl s n f).freeCtr = s.freeCtr := rfl
@[simp] theorem modCl_hostReply (s : State) (n : Nat) (f : Cluster → Cluster) : (modCl s n f).hostReply = s.hostReply := rfl

/-! ## `modDie` -/

@[simp] theorem modDie_mem (s : State) (n : Nat) (f : Die → Die) : (modDie s n f).mem = s.mem := rfl
@[simp] theorem modDie_empt (s : State) (n : Nat) (f : Die → Die) : (modDie s n f).empt = s.empt := rfl
@[simp] theorem modDie_poison (s : State) (n : Nat) (f : Die → Die) : (modDie s n f).poison = s.poison := rfl
@[simp] theorem modDie_rows (s : State) (n : Nat) (f : Die → Die) : (modDie s n f).rows = s.rows := rfl
@[simp] theorem modDie_cores (s : State) (n : Nat) (f : Die → Die) : (modDie s n f).cores = s.cores := rfl
@[simp] theorem modDie_clusters (s : State) (n : Nat) (f : Die → Die) : (modDie s n f).clusters = s.clusters := rfl
@[simp] theorem modDie_parts (s : State) (n : Nat) (f : Die → Die) : (modDie s n f).parts = s.parts := rfl
@[simp] theorem modDie_pkg (s : State) (n : Nat) (f : Die → Die) : (modDie s n f).pkg = s.pkg := rfl
@[simp] theorem modDie_shadow (s : State) (n : Nat) (f : Die → Die) : (modDie s n f).shadow = s.shadow := rfl
@[simp] theorem modDie_l2 (s : State) (n : Nat) (f : Die → Die) : (modDie s n f).l2 = s.l2 := rfl
@[simp] theorem modDie_tlb (s : State) (n : Nat) (f : Die → Die) : (modDie s n f).tlb = s.tlb := rfl
@[simp] theorem modDie_ibuf (s : State) (n : Nat) (f : Die → Die) : (modDie s n f).ibuf = s.ibuf := rfl
@[simp] theorem modDie_reqs (s : State) (n : Nat) (f : Die → Die) : (modDie s n f).reqs = s.reqs := rfl
@[simp] theorem modDie_flights (s : State) (n : Nat) (f : Die → Die) : (modDie s n f).flights = s.flights := rfl
@[simp] theorem modDie_held (s : State) (n : Nat) (f : Die → Die) : (modDie s n f).held = s.held := rfl
@[simp] theorem modDie_passes (s : State) (n : Nat) (f : Die → Die) : (modDie s n f).passes = s.passes := rfl
@[simp] theorem modDie_flue (s : State) (n : Nat) (f : Die → Die) : (modDie s n f).flue = s.flue := rfl
@[simp] theorem modDie_flueReqs (s : State) (n : Nat) (f : Die → Die) : (modDie s n f).flueReqs = s.flueReqs := rfl
@[simp] theorem modDie_flueRes (s : State) (n : Nat) (f : Die → Die) : (modDie s n f).flueRes = s.flueRes := rfl
@[simp] theorem modDie_steer (s : State) (n : Nat) (f : Die → Die) : (modDie s n f).steer = s.steer := rfl
@[simp] theorem modDie_shoots (s : State) (n : Nat) (f : Die → Die) : (modDie s n f).shoots = s.shoots := rfl
@[simp] theorem modDie_outs (s : State) (n : Nat) (f : Die → Die) : (modDie s n f).outs = s.outs := rfl
@[simp] theorem modDie_answers (s : State) (n : Nat) (f : Die → Die) : (modDie s n f).answers = s.answers := rfl
@[simp] theorem modDie_peerNo (s : State) (n : Nat) (f : Die → Die) : (modDie s n f).peerNo = s.peerNo := rfl
@[simp] theorem modDie_startSave (s : State) (n : Nat) (f : Die → Die) : (modDie s n f).startSave = s.startSave := rfl
@[simp] theorem modDie_agenda (s : State) (n : Nat) (f : Die → Die) : (modDie s n f).agenda = s.agenda := rfl
@[simp] theorem modDie_cur (s : State) (n : Nat) (f : Die → Die) : (modDie s n f).cur = s.cur := rfl
@[simp] theorem modDie_nextId (s : State) (n : Nat) (f : Die → Die) : (modDie s n f).nextId = s.nextId := rfl
@[simp] theorem modDie_freeCtr (s : State) (n : Nat) (f : Die → Die) : (modDie s n f).freeCtr = s.freeCtr := rfl
@[simp] theorem modDie_hostReply (s : State) (n : Nat) (f : Die → Die) : (modDie s n f).hostReply = s.hostReply := rfl

/-! ## `modPart` -/

@[simp] theorem modPart_mem (s : State) (n : Nat) (f : Partn → Partn) : (modPart s n f).mem = s.mem := rfl
@[simp] theorem modPart_empt (s : State) (n : Nat) (f : Partn → Partn) : (modPart s n f).empt = s.empt := rfl
@[simp] theorem modPart_poison (s : State) (n : Nat) (f : Partn → Partn) : (modPart s n f).poison = s.poison := rfl
@[simp] theorem modPart_rows (s : State) (n : Nat) (f : Partn → Partn) : (modPart s n f).rows = s.rows := rfl
@[simp] theorem modPart_cores (s : State) (n : Nat) (f : Partn → Partn) : (modPart s n f).cores = s.cores := rfl
@[simp] theorem modPart_clusters (s : State) (n : Nat) (f : Partn → Partn) : (modPart s n f).clusters = s.clusters := rfl
@[simp] theorem modPart_dies (s : State) (n : Nat) (f : Partn → Partn) : (modPart s n f).dies = s.dies := rfl
@[simp] theorem modPart_pkg (s : State) (n : Nat) (f : Partn → Partn) : (modPart s n f).pkg = s.pkg := rfl
@[simp] theorem modPart_shadow (s : State) (n : Nat) (f : Partn → Partn) : (modPart s n f).shadow = s.shadow := rfl
@[simp] theorem modPart_l2 (s : State) (n : Nat) (f : Partn → Partn) : (modPart s n f).l2 = s.l2 := rfl
@[simp] theorem modPart_tlb (s : State) (n : Nat) (f : Partn → Partn) : (modPart s n f).tlb = s.tlb := rfl
@[simp] theorem modPart_ibuf (s : State) (n : Nat) (f : Partn → Partn) : (modPart s n f).ibuf = s.ibuf := rfl
@[simp] theorem modPart_reqs (s : State) (n : Nat) (f : Partn → Partn) : (modPart s n f).reqs = s.reqs := rfl
@[simp] theorem modPart_flights (s : State) (n : Nat) (f : Partn → Partn) : (modPart s n f).flights = s.flights := rfl
@[simp] theorem modPart_held (s : State) (n : Nat) (f : Partn → Partn) : (modPart s n f).held = s.held := rfl
@[simp] theorem modPart_passes (s : State) (n : Nat) (f : Partn → Partn) : (modPart s n f).passes = s.passes := rfl
@[simp] theorem modPart_flue (s : State) (n : Nat) (f : Partn → Partn) : (modPart s n f).flue = s.flue := rfl
@[simp] theorem modPart_flueReqs (s : State) (n : Nat) (f : Partn → Partn) : (modPart s n f).flueReqs = s.flueReqs := rfl
@[simp] theorem modPart_flueRes (s : State) (n : Nat) (f : Partn → Partn) : (modPart s n f).flueRes = s.flueRes := rfl
@[simp] theorem modPart_steer (s : State) (n : Nat) (f : Partn → Partn) : (modPart s n f).steer = s.steer := rfl
@[simp] theorem modPart_shoots (s : State) (n : Nat) (f : Partn → Partn) : (modPart s n f).shoots = s.shoots := rfl
@[simp] theorem modPart_outs (s : State) (n : Nat) (f : Partn → Partn) : (modPart s n f).outs = s.outs := rfl
@[simp] theorem modPart_answers (s : State) (n : Nat) (f : Partn → Partn) : (modPart s n f).answers = s.answers := rfl
@[simp] theorem modPart_peerNo (s : State) (n : Nat) (f : Partn → Partn) : (modPart s n f).peerNo = s.peerNo := rfl
@[simp] theorem modPart_startSave (s : State) (n : Nat) (f : Partn → Partn) : (modPart s n f).startSave = s.startSave := rfl
@[simp] theorem modPart_agenda (s : State) (n : Nat) (f : Partn → Partn) : (modPart s n f).agenda = s.agenda := rfl
@[simp] theorem modPart_cur (s : State) (n : Nat) (f : Partn → Partn) : (modPart s n f).cur = s.cur := rfl
@[simp] theorem modPart_nextId (s : State) (n : Nat) (f : Partn → Partn) : (modPart s n f).nextId = s.nextId := rfl
@[simp] theorem modPart_freeCtr (s : State) (n : Nat) (f : Partn → Partn) : (modPart s n f).freeCtr = s.freeCtr := rfl
@[simp] theorem modPart_hostReply (s : State) (n : Nat) (f : Partn → Partn) : (modPart s n f).hostReply = s.hostReply := rfl

/-! ## `modPkg` -/

@[simp] theorem modPkg_mem (s : State) (f : Pkg → Pkg) : (modPkg s f).mem = s.mem := rfl
@[simp] theorem modPkg_empt (s : State) (f : Pkg → Pkg) : (modPkg s f).empt = s.empt := rfl
@[simp] theorem modPkg_poison (s : State) (f : Pkg → Pkg) : (modPkg s f).poison = s.poison := rfl
@[simp] theorem modPkg_rows (s : State) (f : Pkg → Pkg) : (modPkg s f).rows = s.rows := rfl
@[simp] theorem modPkg_cores (s : State) (f : Pkg → Pkg) : (modPkg s f).cores = s.cores := rfl
@[simp] theorem modPkg_clusters (s : State) (f : Pkg → Pkg) : (modPkg s f).clusters = s.clusters := rfl
@[simp] theorem modPkg_dies (s : State) (f : Pkg → Pkg) : (modPkg s f).dies = s.dies := rfl
@[simp] theorem modPkg_parts (s : State) (f : Pkg → Pkg) : (modPkg s f).parts = s.parts := rfl
@[simp] theorem modPkg_shadow (s : State) (f : Pkg → Pkg) : (modPkg s f).shadow = s.shadow := rfl
@[simp] theorem modPkg_l2 (s : State) (f : Pkg → Pkg) : (modPkg s f).l2 = s.l2 := rfl
@[simp] theorem modPkg_tlb (s : State) (f : Pkg → Pkg) : (modPkg s f).tlb = s.tlb := rfl
@[simp] theorem modPkg_ibuf (s : State) (f : Pkg → Pkg) : (modPkg s f).ibuf = s.ibuf := rfl
@[simp] theorem modPkg_reqs (s : State) (f : Pkg → Pkg) : (modPkg s f).reqs = s.reqs := rfl
@[simp] theorem modPkg_flights (s : State) (f : Pkg → Pkg) : (modPkg s f).flights = s.flights := rfl
@[simp] theorem modPkg_held (s : State) (f : Pkg → Pkg) : (modPkg s f).held = s.held := rfl
@[simp] theorem modPkg_passes (s : State) (f : Pkg → Pkg) : (modPkg s f).passes = s.passes := rfl
@[simp] theorem modPkg_flue (s : State) (f : Pkg → Pkg) : (modPkg s f).flue = s.flue := rfl
@[simp] theorem modPkg_flueReqs (s : State) (f : Pkg → Pkg) : (modPkg s f).flueReqs = s.flueReqs := rfl
@[simp] theorem modPkg_flueRes (s : State) (f : Pkg → Pkg) : (modPkg s f).flueRes = s.flueRes := rfl
@[simp] theorem modPkg_steer (s : State) (f : Pkg → Pkg) : (modPkg s f).steer = s.steer := rfl
@[simp] theorem modPkg_shoots (s : State) (f : Pkg → Pkg) : (modPkg s f).shoots = s.shoots := rfl
@[simp] theorem modPkg_outs (s : State) (f : Pkg → Pkg) : (modPkg s f).outs = s.outs := rfl
@[simp] theorem modPkg_answers (s : State) (f : Pkg → Pkg) : (modPkg s f).answers = s.answers := rfl
@[simp] theorem modPkg_peerNo (s : State) (f : Pkg → Pkg) : (modPkg s f).peerNo = s.peerNo := rfl
@[simp] theorem modPkg_startSave (s : State) (f : Pkg → Pkg) : (modPkg s f).startSave = s.startSave := rfl
@[simp] theorem modPkg_agenda (s : State) (f : Pkg → Pkg) : (modPkg s f).agenda = s.agenda := rfl
@[simp] theorem modPkg_cur (s : State) (f : Pkg → Pkg) : (modPkg s f).cur = s.cur := rfl
@[simp] theorem modPkg_nextId (s : State) (f : Pkg → Pkg) : (modPkg s f).nextId = s.nextId := rfl
@[simp] theorem modPkg_freeCtr (s : State) (f : Pkg → Pkg) : (modPkg s f).freeCtr = s.freeCtr := rfl
@[simp] theorem modPkg_hostReply (s : State) (f : Pkg → Pkg) : (modPkg s f).hostReply = s.hostReply := rfl

/-! ## `memSet` -/

@[simp] theorem memSet_empt (s : State) (pa : Nat) (b : Byte) : (memSet s pa b).empt = s.empt := rfl
@[simp] theorem memSet_poison (s : State) (pa : Nat) (b : Byte) : (memSet s pa b).poison = s.poison := rfl
@[simp] theorem memSet_rows (s : State) (pa : Nat) (b : Byte) : (memSet s pa b).rows = s.rows := rfl
@[simp] theorem memSet_cores (s : State) (pa : Nat) (b : Byte) : (memSet s pa b).cores = s.cores := rfl
@[simp] theorem memSet_clusters (s : State) (pa : Nat) (b : Byte) : (memSet s pa b).clusters = s.clusters := rfl
@[simp] theorem memSet_dies (s : State) (pa : Nat) (b : Byte) : (memSet s pa b).dies = s.dies := rfl
@[simp] theorem memSet_parts (s : State) (pa : Nat) (b : Byte) : (memSet s pa b).parts = s.parts := rfl
@[simp] theorem memSet_pkg (s : State) (pa : Nat) (b : Byte) : (memSet s pa b).pkg = s.pkg := rfl
@[simp] theorem memSet_shadow (s : State) (pa : Nat) (b : Byte) : (memSet s pa b).shadow = s.shadow := rfl
@[simp] theorem memSet_l2 (s : State) (pa : Nat) (b : Byte) : (memSet s pa b).l2 = s.l2 := rfl
@[simp] theorem memSet_tlb (s : State) (pa : Nat) (b : Byte) : (memSet s pa b).tlb = s.tlb := rfl
@[simp] theorem memSet_ibuf (s : State) (pa : Nat) (b : Byte) : (memSet s pa b).ibuf = s.ibuf := rfl
@[simp] theorem memSet_reqs (s : State) (pa : Nat) (b : Byte) : (memSet s pa b).reqs = s.reqs := rfl
@[simp] theorem memSet_flights (s : State) (pa : Nat) (b : Byte) : (memSet s pa b).flights = s.flights := rfl
@[simp] theorem memSet_held (s : State) (pa : Nat) (b : Byte) : (memSet s pa b).held = s.held := rfl
@[simp] theorem memSet_passes (s : State) (pa : Nat) (b : Byte) : (memSet s pa b).passes = s.passes := rfl
@[simp] theorem memSet_flue (s : State) (pa : Nat) (b : Byte) : (memSet s pa b).flue = s.flue := rfl
@[simp] theorem memSet_flueReqs (s : State) (pa : Nat) (b : Byte) : (memSet s pa b).flueReqs = s.flueReqs := rfl
@[simp] theorem memSet_flueRes (s : State) (pa : Nat) (b : Byte) : (memSet s pa b).flueRes = s.flueRes := rfl
@[simp] theorem memSet_steer (s : State) (pa : Nat) (b : Byte) : (memSet s pa b).steer = s.steer := rfl
@[simp] theorem memSet_shoots (s : State) (pa : Nat) (b : Byte) : (memSet s pa b).shoots = s.shoots := rfl
@[simp] theorem memSet_outs (s : State) (pa : Nat) (b : Byte) : (memSet s pa b).outs = s.outs := rfl
@[simp] theorem memSet_answers (s : State) (pa : Nat) (b : Byte) : (memSet s pa b).answers = s.answers := rfl
@[simp] theorem memSet_peerNo (s : State) (pa : Nat) (b : Byte) : (memSet s pa b).peerNo = s.peerNo := rfl
@[simp] theorem memSet_startSave (s : State) (pa : Nat) (b : Byte) : (memSet s pa b).startSave = s.startSave := rfl
@[simp] theorem memSet_agenda (s : State) (pa : Nat) (b : Byte) : (memSet s pa b).agenda = s.agenda := rfl
@[simp] theorem memSet_cur (s : State) (pa : Nat) (b : Byte) : (memSet s pa b).cur = s.cur := rfl
@[simp] theorem memSet_nextId (s : State) (pa : Nat) (b : Byte) : (memSet s pa b).nextId = s.nextId := rfl
@[simp] theorem memSet_freeCtr (s : State) (pa : Nat) (b : Byte) : (memSet s pa b).freeCtr = s.freeCtr := rfl
@[simp] theorem memSet_hostReply (s : State) (pa : Nat) (b : Byte) : (memSet s pa b).hostReply = s.hostReply := rfl

/-! ## `fresh` and `freeWord` -/

@[simp] theorem fresh_mem (s : State) : (fresh s).2.mem = s.mem := rfl
@[simp] theorem fresh_empt (s : State) : (fresh s).2.empt = s.empt := rfl
@[simp] theorem fresh_poison (s : State) : (fresh s).2.poison = s.poison := rfl
@[simp] theorem fresh_rows (s : State) : (fresh s).2.rows = s.rows := rfl
@[simp] theorem fresh_cores (s : State) : (fresh s).2.cores = s.cores := rfl
@[simp] theorem fresh_clusters (s : State) : (fresh s).2.clusters = s.clusters := rfl
@[simp] theorem fresh_dies (s : State) : (fresh s).2.dies = s.dies := rfl
@[simp] theorem fresh_parts (s : State) : (fresh s).2.parts = s.parts := rfl
@[simp] theorem fresh_pkg (s : State) : (fresh s).2.pkg = s.pkg := rfl
@[simp] theorem fresh_shadow (s : State) : (fresh s).2.shadow = s.shadow := rfl
@[simp] theorem fresh_l2 (s : State) : (fresh s).2.l2 = s.l2 := rfl
@[simp] theorem fresh_tlb (s : State) : (fresh s).2.tlb = s.tlb := rfl
@[simp] theorem fresh_ibuf (s : State) : (fresh s).2.ibuf = s.ibuf := rfl
@[simp] theorem fresh_reqs (s : State) : (fresh s).2.reqs = s.reqs := rfl
@[simp] theorem fresh_flights (s : State) : (fresh s).2.flights = s.flights := rfl
@[simp] theorem fresh_held (s : State) : (fresh s).2.held = s.held := rfl
@[simp] theorem fresh_passes (s : State) : (fresh s).2.passes = s.passes := rfl
@[simp] theorem fresh_flue (s : State) : (fresh s).2.flue = s.flue := rfl
@[simp] theorem fresh_flueReqs (s : State) : (fresh s).2.flueReqs = s.flueReqs := rfl
@[simp] theorem fresh_flueRes (s : State) : (fresh s).2.flueRes = s.flueRes := rfl
@[simp] theorem fresh_steer (s : State) : (fresh s).2.steer = s.steer := rfl
@[simp] theorem fresh_shoots (s : State) : (fresh s).2.shoots = s.shoots := rfl
@[simp] theorem fresh_outs (s : State) : (fresh s).2.outs = s.outs := rfl
@[simp] theorem fresh_answers (s : State) : (fresh s).2.answers = s.answers := rfl
@[simp] theorem fresh_peerNo (s : State) : (fresh s).2.peerNo = s.peerNo := rfl
@[simp] theorem fresh_startSave (s : State) : (fresh s).2.startSave = s.startSave := rfl
@[simp] theorem fresh_agenda (s : State) : (fresh s).2.agenda = s.agenda := rfl
@[simp] theorem fresh_cur (s : State) : (fresh s).2.cur = s.cur := rfl
@[simp] theorem fresh_freeCtr (s : State) : (fresh s).2.freeCtr = s.freeCtr := rfl
@[simp] theorem fresh_hostReply (s : State) : (fresh s).2.hostReply = s.hostReply := rfl

@[simp] theorem freeWord_mem (s : State) : (freeWord s).2.mem = s.mem := rfl
@[simp] theorem freeWord_empt (s : State) : (freeWord s).2.empt = s.empt := rfl
@[simp] theorem freeWord_poison (s : State) : (freeWord s).2.poison = s.poison := rfl
@[simp] theorem freeWord_rows (s : State) : (freeWord s).2.rows = s.rows := rfl
@[simp] theorem freeWord_cores (s : State) : (freeWord s).2.cores = s.cores := rfl
@[simp] theorem freeWord_clusters (s : State) : (freeWord s).2.clusters = s.clusters := rfl
@[simp] theorem freeWord_dies (s : State) : (freeWord s).2.dies = s.dies := rfl
@[simp] theorem freeWord_parts (s : State) : (freeWord s).2.parts = s.parts := rfl
@[simp] theorem freeWord_pkg (s : State) : (freeWord s).2.pkg = s.pkg := rfl
@[simp] theorem freeWord_shadow (s : State) : (freeWord s).2.shadow = s.shadow := rfl
@[simp] theorem freeWord_l2 (s : State) : (freeWord s).2.l2 = s.l2 := rfl
@[simp] theorem freeWord_tlb (s : State) : (freeWord s).2.tlb = s.tlb := rfl
@[simp] theorem freeWord_ibuf (s : State) : (freeWord s).2.ibuf = s.ibuf := rfl
@[simp] theorem freeWord_reqs (s : State) : (freeWord s).2.reqs = s.reqs := rfl
@[simp] theorem freeWord_flights (s : State) : (freeWord s).2.flights = s.flights := rfl
@[simp] theorem freeWord_held (s : State) : (freeWord s).2.held = s.held := rfl
@[simp] theorem freeWord_passes (s : State) : (freeWord s).2.passes = s.passes := rfl
@[simp] theorem freeWord_flue (s : State) : (freeWord s).2.flue = s.flue := rfl
@[simp] theorem freeWord_flueReqs (s : State) : (freeWord s).2.flueReqs = s.flueReqs := rfl
@[simp] theorem freeWord_flueRes (s : State) : (freeWord s).2.flueRes = s.flueRes := rfl
@[simp] theorem freeWord_steer (s : State) : (freeWord s).2.steer = s.steer := rfl
@[simp] theorem freeWord_shoots (s : State) : (freeWord s).2.shoots = s.shoots := rfl
@[simp] theorem freeWord_outs (s : State) : (freeWord s).2.outs = s.outs := rfl
@[simp] theorem freeWord_answers (s : State) : (freeWord s).2.answers = s.answers := rfl
@[simp] theorem freeWord_peerNo (s : State) : (freeWord s).2.peerNo = s.peerNo := rfl
@[simp] theorem freeWord_startSave (s : State) : (freeWord s).2.startSave = s.startSave := rfl
@[simp] theorem freeWord_agenda (s : State) : (freeWord s).2.agenda = s.agenda := rfl
@[simp] theorem freeWord_cur (s : State) : (freeWord s).2.cur = s.cur := rfl
@[simp] theorem freeWord_nextId (s : State) : (freeWord s).2.nextId = s.nextId := rfl
@[simp] theorem freeWord_hostReply (s : State) : (freeWord s).2.hostReply = s.hostReply := rfl

/-! ## Reading a record after an update -/

/-- Row numbers below 256 name rows one to one. -/
theorem rkey_inj {q r : RowId} (hq : q.row < 256) (hr : r.row < 256) : rkey q = rkey r ↔ q = r := by
  obtain ⟨a, b⟩ := q
  obtain ⟨c, d⟩ := r
  simp only [rkey, RowId.mk.injEq] at *
  omega

@[simp] theorem getRow_setRow_self (s : State) (r : RowId) (v : Row) : getRow (setRow s r v) r = v := by
  simp [getRow, setRow]
@[simp] theorem getRow_modRow_self (s : State) (r : RowId) (f : Row → Row) : getRow (modRow s r f) r = f (getRow s r) := by
  simp [modRow]
theorem getRow_setRow (s : State) (r q : RowId) (v : Row) :
    getRow (setRow s r v) q = if rkey q = rkey r then v else getRow s q := by
  simp [getRow, setRow]
theorem getRow_modRow (s : State) (r q : RowId) (f : Row → Row) :
    getRow (modRow s r f) q = if rkey q = rkey r then f (getRow s r) else getRow s q := by
  simp [modRow, getRow_setRow]
@[simp] theorem getCore_modCore_self (s : State) (n : Nat) (f : Core → Core) : getCore (modCore s n f) n = f (getCore s n) := by
  simp [getCore, modCore]
theorem getCore_modCore (s : State) (n m : Nat) (f : Core → Core) :
    getCore (modCore s n f) m = if m = n then f (getCore s n) else getCore s m := by
  simp [getCore, modCore]
@[simp] theorem getCl_modCl_self (s : State) (n : Nat) (f : Cluster → Cluster) : getCl (modCl s n f) n = f (getCl s n) := by
  simp [getCl, modCl]
theorem getCl_modCl (s : State) (n m : Nat) (f : Cluster → Cluster) :
    getCl (modCl s n f) m = if m = n then f (getCl s n) else getCl s m := by
  simp [getCl, modCl]
@[simp] theorem getDie_modDie_self (s : State) (n : Nat) (f : Die → Die) : getDie (modDie s n f) n = f (getDie s n) := by
  simp [getDie, modDie]
theorem getDie_modDie (s : State) (n m : Nat) (f : Die → Die) :
    getDie (modDie s n f) m = if m = n then f (getDie s n) else getDie s m := by
  simp [getDie, modDie]
@[simp] theorem getPart_modPart_self (s : State) (n : Nat) (f : Partn → Partn) : getPart (modPart s n f) n = f (getPart s n) := by
  simp [getPart, modPart]
theorem getPart_modPart (s : State) (n m : Nat) (f : Partn → Partn) :
    getPart (modPart s n f) m = if m = n then f (getPart s n) else getPart s m := by
  simp [getPart, modPart]
@[simp] theorem memByte_memSet (s : State) (pa qa : Nat) (b : Byte) :
    memByte (memSet s pa b) qa = if qa = pa then b else memByte s qa := by
  simp [memByte, memSet]

/-! ## A record is not changed by updates of the others -/

@[simp] theorem getRow_modCore (s : State) (n : Nat) (f : Core → Core) (k : RowId) : getRow (modCore s n f) k = getRow s k := rfl
@[simp] theorem getRow_modCl (s : State) (n : Nat) (f : Cluster → Cluster) (k : RowId) : getRow (modCl s n f) k = getRow s k := rfl
@[simp] theorem getRow_modDie (s : State) (n : Nat) (f : Die → Die) (k : RowId) : getRow (modDie s n f) k = getRow s k := rfl
@[simp] theorem getRow_modPart (s : State) (n : Nat) (f : Partn → Partn) (k : RowId) : getRow (modPart s n f) k = getRow s k := rfl
@[simp] theorem getRow_modPkg (s : State) (f : Pkg → Pkg) (k : RowId) : getRow (modPkg s f) k = getRow s k := rfl
@[simp] theorem getRow_memSet (s : State) (pa : Nat) (b : Byte) (k : RowId) : getRow (memSet s pa b) k = getRow s k := rfl

@[simp] theorem getCore_setRow (s : State) (r : RowId) (v : Row) (k : Nat) : getCore (setRow s r v) k = getCore s k := rfl
@[simp] theorem getCore_modRow (s : State) (r : RowId) (f : Row → Row) (k : Nat) : getCore (modRow s r f) k = getCore s k := rfl
@[simp] theorem getCore_modCl (s : State) (n : Nat) (f : Cluster → Cluster) (k : Nat) : getCore (modCl s n f) k = getCore s k := rfl
@[simp] theorem getCore_modDie (s : State) (n : Nat) (f : Die → Die) (k : Nat) : getCore (modDie s n f) k = getCore s k := rfl
@[simp] theorem getCore_modPart (s : State) (n : Nat) (f : Partn → Partn) (k : Nat) : getCore (modPart s n f) k = getCore s k := rfl
@[simp] theorem getCore_modPkg (s : State) (f : Pkg → Pkg) (k : Nat) : getCore (modPkg s f) k = getCore s k := rfl
@[simp] theorem getCore_memSet (s : State) (pa : Nat) (b : Byte) (k : Nat) : getCore (memSet s pa b) k = getCore s k := rfl

@[simp] theorem getCl_setRow (s : State) (r : RowId) (v : Row) (k : Nat) : getCl (setRow s r v) k = getCl s k := rfl
@[simp] theorem getCl_modRow (s : State) (r : RowId) (f : Row → Row) (k : Nat) : getCl (modRow s r f) k = getCl s k := rfl
@[simp] theorem getCl_modCore (s : State) (n : Nat) (f : Core → Core) (k : Nat) : getCl (modCore s n f) k = getCl s k := rfl
@[simp] theorem getCl_modDie (s : State) (n : Nat) (f : Die → Die) (k : Nat) : getCl (modDie s n f) k = getCl s k := rfl
@[simp] theorem getCl_modPart (s : State) (n : Nat) (f : Partn → Partn) (k : Nat) : getCl (modPart s n f) k = getCl s k := rfl
@[simp] theorem getCl_modPkg (s : State) (f : Pkg → Pkg) (k : Nat) : getCl (modPkg s f) k = getCl s k := rfl
@[simp] theorem getCl_memSet (s : State) (pa : Nat) (b : Byte) (k : Nat) : getCl (memSet s pa b) k = getCl s k := rfl

@[simp] theorem getDie_setRow (s : State) (r : RowId) (v : Row) (k : Nat) : getDie (setRow s r v) k = getDie s k := rfl
@[simp] theorem getDie_modRow (s : State) (r : RowId) (f : Row → Row) (k : Nat) : getDie (modRow s r f) k = getDie s k := rfl
@[simp] theorem getDie_modCore (s : State) (n : Nat) (f : Core → Core) (k : Nat) : getDie (modCore s n f) k = getDie s k := rfl
@[simp] theorem getDie_modCl (s : State) (n : Nat) (f : Cluster → Cluster) (k : Nat) : getDie (modCl s n f) k = getDie s k := rfl
@[simp] theorem getDie_modPart (s : State) (n : Nat) (f : Partn → Partn) (k : Nat) : getDie (modPart s n f) k = getDie s k := rfl
@[simp] theorem getDie_modPkg (s : State) (f : Pkg → Pkg) (k : Nat) : getDie (modPkg s f) k = getDie s k := rfl
@[simp] theorem getDie_memSet (s : State) (pa : Nat) (b : Byte) (k : Nat) : getDie (memSet s pa b) k = getDie s k := rfl

@[simp] theorem getPart_setRow (s : State) (r : RowId) (v : Row) (k : Nat) : getPart (setRow s r v) k = getPart s k := rfl
@[simp] theorem getPart_modRow (s : State) (r : RowId) (f : Row → Row) (k : Nat) : getPart (modRow s r f) k = getPart s k := rfl
@[simp] theorem getPart_modCore (s : State) (n : Nat) (f : Core → Core) (k : Nat) : getPart (modCore s n f) k = getPart s k := rfl
@[simp] theorem getPart_modCl (s : State) (n : Nat) (f : Cluster → Cluster) (k : Nat) : getPart (modCl s n f) k = getPart s k := rfl
@[simp] theorem getPart_modDie (s : State) (n : Nat) (f : Die → Die) (k : Nat) : getPart (modDie s n f) k = getPart s k := rfl
@[simp] theorem getPart_modPkg (s : State) (f : Pkg → Pkg) (k : Nat) : getPart (modPkg s f) k = getPart s k := rfl
@[simp] theorem getPart_memSet (s : State) (pa : Nat) (b : Byte) (k : Nat) : getPart (memSet s pa b) k = getPart s k := rfl

@[simp] theorem memByte_setRow (s : State) (r : RowId) (v : Row) (k : Nat) : memByte (setRow s r v) k = memByte s k := rfl
@[simp] theorem memByte_modRow (s : State) (r : RowId) (f : Row → Row) (k : Nat) : memByte (modRow s r f) k = memByte s k := rfl
@[simp] theorem memByte_modCore (s : State) (n : Nat) (f : Core → Core) (k : Nat) : memByte (modCore s n f) k = memByte s k := rfl
@[simp] theorem memByte_modCl (s : State) (n : Nat) (f : Cluster → Cluster) (k : Nat) : memByte (modCl s n f) k = memByte s k := rfl
@[simp] theorem memByte_modDie (s : State) (n : Nat) (f : Die → Die) (k : Nat) : memByte (modDie s n f) k = memByte s k := rfl
@[simp] theorem memByte_modPart (s : State) (n : Nat) (f : Partn → Partn) (k : Nat) : memByte (modPart s n f) k = memByte s k := rfl
@[simp] theorem memByte_modPkg (s : State) (f : Pkg → Pkg) (k : Nat) : memByte (modPkg s f) k = memByte s k := rfl

@[simp] theorem partOf_setRow (s : State) (r : RowId) (v : Row) (k : Nat) : partOf (setRow s r v) k = partOf s k := rfl
@[simp] theorem partOf_modRow (s : State) (r : RowId) (f : Row → Row) (k : Nat) : partOf (modRow s r f) k = partOf s k := rfl
@[simp] theorem partOf_modCore (s : State) (n : Nat) (f : Core → Core) (k : Nat) : partOf (modCore s n f) k = partOf s k := rfl
@[simp] theorem partOf_modDie (s : State) (n : Nat) (f : Die → Die) (k : Nat) : partOf (modDie s n f) k = partOf s k := rfl
@[simp] theorem partOf_modPart (s : State) (n : Nat) (f : Partn → Partn) (k : Nat) : partOf (modPart s n f) k = partOf s k := rfl
@[simp] theorem partOf_modPkg (s : State) (f : Pkg → Pkg) (k : Nat) : partOf (modPkg s f) k = partOf s k := rfl
@[simp] theorem partOf_memSet (s : State) (pa : Nat) (b : Byte) (k : Nat) : partOf (memSet s pa b) k = partOf s k := rfl

end Sys2Proof.Machine
end

