-- ==== Sys2Proof/Laws/Words.lean ====
section
/-!
SUPPORT. The words of a row: what reads give after fills, full/empty changes and retirement, and what these leave alone.
-/

namespace Sys2Proof.Machine

/-! ## Bytes and words -/

theorem leBytes_length (n v : Nat) : (leBytes n v).length = n := by
  induction n generalizing v with
  | zero => rfl
  | succ n ih => simp [leBytes, ih]

theorem leNat_leBytes (n v : Nat) : leNat (leBytes n v) = v % 256 ^ n := by
  induction n generalizing v with
  | zero => simp [leBytes, leNat, Nat.mod_one]
  | succ n ih =>
    simp only [leBytes, leNat, ih, BitVec.toNat_ofNat]
    rw [pow_succ (256 : ℕ), mul_comm (256 ^ n) 256, Nat.mod_mul]

theorem leNat_lt (bs : List Byte) : leNat bs < 256 ^ bs.length := by
  induction bs with
  | nil => simp [leNat]
  | cons b bs ih =>
    simp only [leNat, List.length_cons, pow_succ]
    have := b.isLt
    omega

theorem leBytes_leNat (bs : List Byte) : leBytes bs.length (leNat bs) = bs := by
  induction bs with
  | nil => rfl
  | cons b bs ih =>
    have h := b.isLt
    simp only [List.length_cons, leBytes, leNat]
    rw [Nat.add_mul_div_left _ _ (by decide), Nat.div_eq_of_lt (show b.toNat < 256 from h), zero_add, ih]
    congr 1
    apply BitVec.eq_of_toNat_eq
    simp only [BitVec.toNat_ofNat]
    rw [Nat.add_mul_mod_self_left, Nat.mod_eq_of_lt h]

theorem leBytes_getElem (n v k : Nat) (h : k < (leBytes n v).length) :
    (leBytes n v)[k] = BitVec.ofNat 8 (v / 256 ^ k) := by
  induction n generalizing v k with
  | zero => simp [leBytes] at h
  | succ n ih =>
    cases k with
    | zero => simp [leBytes]
    | succ k =>
      simp only [leBytes, List.getElem_cons_succ]
      rw [ih, Nat.div_div_eq_div_mul, pow_succ']

/-- Bytes written to a row above its control words, at every address. -/
theorem memByte_putRowBytes (s : State) (r : RowId) (bs : List Byte) (off : Nat) (h : 0x80 ≤ off) (a : Nat) :
    memByte (putRowBytes s r off bs) a =
      if rowPa r off ≤ a ∧ a < rowPa r off + bs.length ∧ ¬ (rowPa r 0x100 ≤ a ∧ a < rowPa r 0x108) then
        bs.getD (a - rowPa r off) 0 else memByte s a := by
  induction bs generalizing s off with
  | nil => simp [putRowBytes]; omega
  | cons b bs ih =>
    simp only [putRowBytes]
    rw [if_neg (by omega), ih _ _ (by omega)]
    have e1 : rowPa r (off + 1) = rowPa r off + 1 := by simp [rowPa]; omega
    have e2 : rowPa r 0x100 + off = rowPa r off + 0x100 := by simp [rowPa]; omega
    have e3 : rowPa r 0x108 = rowPa r 0x100 + 8 := by simp [rowPa]
    rw [e1, e3]
    by_cases ho : 0x100 ≤ off ∧ off < 0x108
    · rw [if_pos ho]
      by_cases hc : rowPa r off + 1 ≤ a ∧ a < rowPa r off + 1 + bs.length ∧ ¬ (rowPa r 0x100 ≤ a ∧ a < rowPa r 0x100 + 8)
      · have hl : (b :: bs).length = bs.length + 1 := rfl
        rw [if_pos hc, if_pos (by omega)]
        have : a - rowPa r off = (a - (rowPa r off + 1)) + 1 := by omega
        rw [this]; rfl
      · have hl : (b :: bs).length = bs.length + 1 := rfl
        rw [if_neg hc, if_neg (by omega)]
    · rw [if_neg ho]
      have hl : (b :: bs).length = bs.length + 1 := rfl
      by_cases hc : rowPa r off + 1 ≤ a ∧ a < rowPa r off + 1 + bs.length ∧ ¬ (rowPa r 0x100 ≤ a ∧ a < rowPa r 0x100 + 8)
      · rw [if_pos hc, if_pos (by omega)]
        have : a - rowPa r off = (a - (rowPa r off + 1)) + 1 := by omega
        rw [this]; rfl
      · rw [if_neg hc, memByte_memSet]
        by_cases ha : a = rowPa r off
        · rw [if_pos ha, if_pos (by omega), ha]; simp
        · rw [if_neg ha, if_neg (by omega)]

theorem rowByte_high (s : State) (r : RowId) (off : Nat) (h : 0x80 ≤ off) :
    rowByte s r off = if 0x100 ≤ off ∧ off < 0x108 then 0 else memByte s (rowPa r off) := by
  unfold rowByte; rw [if_neg (by omega)]

theorem rowBytes_length (s : State) (r : RowId) (off n : Nat) : (rowBytes s r off n).length = n := by
  induction n generalizing off with
  | zero => rfl
  | succ n ih => simp [rowBytes, ih]

theorem rowBytes_getElem (s : State) (r : RowId) (off n k : Nat) (h : k < (rowBytes s r off n).length) :
    (rowBytes s r off n)[k] = rowByte s r (off + k) := by
  induction n generalizing off k with
  | zero => simp [rowBytes] at h
  | succ n ih =>
    cases k with
    | zero => simp [rowBytes]
    | succ k =>
      simp only [rowBytes, List.getElem_cons_succ]
      rw [ih, add_assoc, add_comm 1 k]

/-- Bytes of a row read alike when its memory does, above the control words. -/
theorem rowBytes_congr {s t : State} (r : RowId) (off n : Nat) (h : 0x80 ≤ off)
    (he : ∀ k < n, memByte t (rowPa r (off + k)) = memByte s (rowPa r (off + k))) :
    rowBytes t r off n = rowBytes s r off n := by
  apply List.ext_getElem
  · simp [rowBytes_length]
  · intro k h1 h2
    rw [rowBytes_getElem, rowBytes_getElem, rowByte_high _ _ _ (by omega), rowByte_high _ _ _ (by omega)]
    rw [rowBytes_length] at h1
    rw [he k h1]

theorem getW_congr {s t : State} (r : RowId) (w : Nat) (h : 16 ≤ w)
    (he : ∀ k < 8, memByte t (rowPa r (8 * w + k)) = memByte s (rowPa r (8 * w + k))) : getW t r w = getW s r w := by
  unfold getW; rw [rowBytes_congr r (8 * w) 8 (by omega) he]

/-- X0 reads as zero in every state (R50). -/
@[simp] theorem getW_zero (s : State) (r : RowId) : getW s r 32 = 0 := by
  simp [getW, rowBytes, rowByte, leNat]

/-- Bytes written to a row read back, but in X0. -/
theorem rowBytes_put (s : State) (r : RowId) (bs : List Byte) (off : Nat) (h : 0x108 ≤ off) :
    rowBytes (putRowBytes s r off bs) r off bs.length = bs := by
  apply List.ext_getElem
  · simp [rowBytes_length]
  · intro k h1 h2
    rw [rowBytes_getElem, rowByte_high _ _ _ (by omega), if_neg (by omega), memByte_putRowBytes _ _ _ _ (by omega)]
    have e : rowPa r (off + k) = rowPa r off + k := by simp [rowPa]; omega
    have e2 : rowPa r 0x108 ≤ rowPa r off := by simp [rowPa]; omega
    rw [e, if_pos (by omega)]
    simp [h2]

/-! ## Word keys -/

theorem rowWord_inj (r : RowId) (v w : Nat) : rowWord r v = rowWord r w ↔ v = w := by simp [rowWord]

theorem rowPa_div (r : RowId) (w k : Nat) (h : k < 8) : rowPa r (8 * w + k) / 8 = rowWord r w := by
  have : rowPa r (8 * w + k) = 8 * (rowPa r 0 / 8 + w) + k := by simp [rowPa, rowBase]; omega
  rw [this, rowWord]; omega

theorem rowPa_mul (r : RowId) (w : Nat) : rowPa r (8 * w) = 8 * rowWord r w := by
  simp [rowPa, rowWord, rowBase]; omega

/-! ## Wrote: building effects -/

theorem Wrote.refl (s : State) : Wrote s s [] :=
  ⟨fun _ _ _ => rfl, fun _ h => absurd h (by simp), fun _ _ => rfl, fun _ _ => Iff.rfl, fun _ _ => Iff.rfl, rfl⟩

theorem Wrote.cur {s t : State} {W : List Nat} (h : Wrote s t W) : t.cur = s.cur := (congrArg State.cur h.rest).trans rfl
theorem Wrote.getRow {s t : State} {W : List Nat} (h : Wrote s t W) (q : RowId) : getRow t q = getRow s q :=
  (congrArg (fun x => Machine.getRow x q) h.rest).trans rfl
theorem Wrote.getCore {s t : State} {W : List Nat} (h : Wrote s t W) (c : Nat) : getCore t c = getCore s c :=
  (congrArg (fun x => Machine.getCore x c) h.rest).trans rfl

/-- Setting a word full, in a row that does not wait. -/
theorem setFull_eq (s : State) (r : RowId) (w : Nat) (h : (getRow s r).st ≠ .waiting) :
    setFull s r w = { s with empt := s.empt.filter fun k => k ≠ rowWord r w } := by
  unfold setFull
  rw [if_neg]
  rintro ⟨h1, -⟩
  exact h h1

theorem setFulls_eq (s : State) (r : RowId) (ws : List Nat) (h : (getRow s r).st ≠ .waiting) :
    setFulls s r ws = { s with empt := s.empt.filter fun k => decide (∀ w ∈ ws, k ≠ rowWord r w) } := by
  induction ws generalizing s with
  | nil => simp only [setFulls, List.not_mem_nil, false_implies, implies_true, decide_true, List.filter_true]
  | cons w ws ih =>
    rw [setFulls, setFull_eq s r w h, ih]
    · simp only [List.filter_filter, List.mem_cons, forall_eq_or_imp, Bool.decide_and]
      congr 1
      apply List.filter_congr
      intro x _
      rw [Bool.and_comm]
    · exact h

/-- What putRowBytes leaves alone, above the control words. -/
theorem putRowBytes_rest (s : State) (r : RowId) (bs : List Byte) (off : Nat) (h : 0x80 ≤ off) :
    putRowBytes s r off bs = { s with mem := (putRowBytes s r off bs).mem } := by
  induction bs generalizing s off with
  | nil => rfl
  | cons b bs ih =>
    simp only [putRowBytes]
    rw [if_neg (by omega)]
    split
    · exact ih s (off + 1) (by omega)
    · exact ih (memSet s (rowPa r off) b) (off + 1) (by omega)

/-- Filling whole words of the row. -/
theorem wrote_fillBytes {s t : State} {W : List Nat} (h : Wrote s t W) (hs : (Machine.getRow s s.cur).st ≠ .waiting)
    (w n : Nat) (hw : 16 ≤ w) (bs : List Byte) (hn : bs.length = 8 * n) :
    Wrote s (fillBytes t s.cur w bs) (List.range' w n ++ W) := by
  have hd : bs.length / 8 = n := by omega
  have hm : ∀ k, k ∈ List.range' w n ↔ w ≤ k ∧ k < w + n := by
    intro k; rw [List.mem_range'_1]
  have hput := putRowBytes_rest t s.cur bs (8 * w) (by omega)
  have hrow : Machine.getRow (unpoison (putRowBytes t s.cur (8 * w) bs) ((List.range' w n).map (rowWord s.cur))) s.cur =
      Machine.getRow s s.cur := by
    rw [← h.getRow]; exact (congrArg (fun x => Machine.getRow x s.cur) hput).trans rfl
  have he : fillBytes t s.cur w bs = { unpoison (putRowBytes t s.cur (8 * w) bs) ((List.range' w n).map (rowWord s.cur)) with
      empt := (putRowBytes t s.cur (8 * w) bs).empt.filter fun k => decide (∀ v ∈ List.range' w n, k ≠ rowWord s.cur v) } := by
    rw [fillBytes, hd]
    exact setFulls_eq _ _ _ (by rw [hrow]; exact hs)
  have hemp : (putRowBytes t s.cur (8 * w) bs).empt = t.empt := (congrArg State.empt hput).trans rfl
  have hpoi : (putRowBytes t s.cur (8 * w) bs).poison = t.poison := (congrArg State.poison hput).trans rfl
  have hbyte : ∀ a, memByte (fillBytes t s.cur w bs) a = memByte (putRowBytes t s.cur (8 * w) bs) a := by
    intro a; rw [he]; rfl
  have hpa : rowPa s.cur (8 * w) = 8 * rowWord s.cur w := rowPa_mul s.cur w
  have hbytes : ∀ a, (∀ v ∈ List.range' w n, a / 8 ≠ rowWord s.cur v) → memByte (fillBytes t s.cur w bs) a = memByte t a := by
    intro a ha
    rw [hbyte, memByte_putRowBytes _ _ _ _ (by omega), if_neg]
    rintro ⟨h1, h2, -⟩
    have := ha (w + (a / 8 - rowWord s.cur w)) (by rw [hm]; omega)
    simp only [rowWord] at *
    omega
  refine ⟨?_, ?_, ?_, ?_, ?_, ?_⟩
  · intro v hv hvn
    rw [List.mem_append, not_or] at hvn
    rw [← h.words v hv hvn.2]
    apply getW_congr _ _ hv
    intro k hk
    apply hbytes
    intro u hu e
    rw [rowPa_div _ _ _ hk, rowWord_inj] at e
    exact hvn.1 (e ▸ hu)
  · intro v hv
    by_cases hvr : v ∈ List.range' w n
    · refine ⟨?_, ?_⟩
      · rw [he]; simp [isEmpty]
        intro _ _ 
        exact ⟨v, ((hm v).1 hvr).1, ((hm v).1 hvr).2, rfl⟩
      · rw [he]; simp [isPoison, unpoison]
        intro _
        exact ⟨v, ((hm v).1 hvr).1, ((hm v).1 hvr).2, rfl⟩
    · have hvW : v ∈ W := by rcases List.mem_append.mp hv with h1 | h1; exacts [absurd h1 hvr, h1]
      obtain ⟨g1, g2⟩ := h.full v hvW
      simp only [isEmpty, isPoison] at g1 g2 ⊢
      refine ⟨?_, ?_⟩
      · rw [he]; simp [hemp] at g1 ⊢; intro a b; exact absurd b (g1 a)
      · rw [he]; simp [hpoi, unpoison] at g2 ⊢; intro b; exact absurd b g2
  · intro a ha
    rw [hbytes a fun v hv => ha v (List.mem_append_left _ hv)]
    exact h.bytes a fun v hv => ha v (List.mem_append_right _ hv)
  · intro k hk
    rw [← h.empties k fun v hv => hk v (List.mem_append_right _ hv), he]
    simp only [List.mem_filter, hemp, decide_eq_true_eq]
    exact ⟨fun x => x.1, fun x => ⟨x, fun v hv => hk v (List.mem_append_left _ hv)⟩⟩
  · intro k hk
    rw [← h.poisons k fun v hv => hk v (List.mem_append_right _ hv), he]
    simp only [unpoison, List.mem_filter, hpoi]
    refine ⟨fun x => x.1, fun x => ⟨x, ?_⟩⟩
    simp
    intro v h1 h2 e
    exact hk v (List.mem_append_left _ ((hm v).2 ⟨h1, h2⟩)) e.symm
  · rw [he]
    have h1 := h.rest
    have h2 := congrArg (fun x => { x with mem := (putRowBytes t s.cur (8 * w) bs).mem }) h1
    rw [hput]
    exact congrArg (fun x : State => { x with
      mem := (putRowBytes t s.cur (8 * w) bs).mem,
      empt := t.empt.filter fun k => decide (∀ v ∈ List.range' w n, k ≠ rowWord s.cur v),
      poison := (unpoison t ((List.range' w n).map (rowWord s.cur))).poison }) h1

theorem fillWord_eq (s : State) (r : RowId) (w : Nat) (v : Word) :
    fillWord s r w v = fillBytes s r w (leBytes 8 v.toNat) := by
  simp [fillWord, fillBytes, putW, leBytes_length, setFulls]

theorem wrote_fillWord {s t : State} {W : List Nat} (h : Wrote s t W) (hs : (Machine.getRow s s.cur).st ≠ .waiting)
    (w : Nat) (hw : 16 ≤ w) (v : Word) : Wrote s (fillWord t s.cur w v) (w :: W) := by
  rw [fillWord_eq]
  exact wrote_fillBytes h hs w 1 hw _ (by simp [leBytes_length])

theorem wrote_words_memByte {s t : State} {W : List Nat} (h : Wrote s t W) (w : Nat) (hw : w ∉ W) (k : Nat) (hk : k < 8) :
    memByte t (rowPa s.cur (8 * w + k)) = memByte s (rowPa s.cur (8 * w + k)) := by
  apply h.bytes
  intro v hv e
  rw [rowPa_div _ _ _ hk, rowWord_inj] at e
  exact hw (e ▸ hv)

/-- The bytes of a row after a fill of whole words. -/
theorem rowBytes_fillBytes (s : State) (r : RowId) (hs : (Machine.getRow s r).st ≠ .waiting) (w : Nat) (hw : 33 ≤ w)
    (bs : List Byte) : rowBytes (fillBytes s r w bs) r (8 * w) bs.length = bs := by
  have hput := putRowBytes_rest s r bs (8 * w) (by omega)
  have hm : ∀ a, memByte (fillBytes s r w bs) a = memByte (putRowBytes s r (8 * w) bs) a := by
    intro a
    rw [fillBytes, setFulls_eq]
    · rfl
    · have : Machine.getRow (unpoison (putRowBytes s r (8 * w) bs) ((List.range' w (bs.length / 8)).map (rowWord r))) r =
        Machine.getRow s r := (congrArg (fun x => Machine.getRow x r) hput).trans rfl
      rw [this]; exact hs
  rw [rowBytes_congr (s := putRowBytes s r (8 * w) bs) r (8 * w) _ (by omega) fun k _ => hm _]
  exact rowBytes_put s r bs (8 * w) (by omega)

/-- A word reads back after a fill; X0 reads zero. -/
theorem getW_fillWord (s : State) (r : RowId) (hs : (Machine.getRow s r).st ≠ .waiting) (w : Nat) (hw : 33 ≤ w) (v : Word) :
    getW (fillWord s r w v) r w = v := by
  have h := rowBytes_fillBytes s r hs w hw (leBytes 8 v.toNat)
  rw [leBytes_length] at h
  rw [fillWord_eq, getW, h, leNat_leBytes]
  apply BitVec.eq_of_toNat_eq
  have := v.isLt
  simp only [wNat, BitVec.toNat_ofNat]
  omega

theorem getX_setX (s : State) (r : RowId) (hs : (Machine.getRow s r).st ≠ .waiting) (d : Reg) (v : Word) :
    getX (setX s r d v) r d = xval d v := by
  unfold getX setX xval
  split
  · subst_vars; exact getW_zero _ _
  · rename_i h
    refine getW_fillWord s r hs (xw d) ?_ v
    have : d.toNat ≠ 0 := fun h0 => h (BitVec.eq_of_toNat_eq h0)
    unfold xw; omega

theorem getE_setE (s : State) (r : RowId) (hs : (Machine.getRow s r).st ≠ .waiting) (e : Nat) (v : Word) :
    getE (setE s r e v) r e = v := getW_fillWord s r hs (ew e) (by unfold ew; omega) v

theorem getM_setM (s : State) (r : RowId) (hs : (Machine.getRow s r).st ≠ .waiting) (m : Nat) (v : Word) :
    getM (setM s r m v) r m = v := getW_fillWord s r hs (mw m) (by unfold mw; omega) v

theorem getV_setV (s : State) (r : RowId) (hs : (Machine.getRow s r).st ≠ .waiting) (v : Nat) (bs : List Byte)
    (hb : bs.length = 128) : getV (setV s r v bs) r v = bs := by
  unfold getV setV
  rw [← hb]
  exact rowBytes_fillBytes s r hs (vw v) (by unfold vw; omega) bs

/-! ## Retirement -/

/-- Words read alike in states whose memory is the same. -/
theorem getW_mem {s t : State} (h : t.mem = s.mem) (r : RowId) (w : Nat) (hw : 16 ≤ w) : getW t r w = getW s r w :=
  getW_congr r w hw fun k _ => by unfold memByte; rw [h]

theorem getX_mem {s t : State} (h : t.mem = s.mem) (r : RowId) (a : Reg) : getX t r a = getX s r a :=
  getW_mem h r _ (by unfold xw; omega)
theorem getE_mem {s t : State} (h : t.mem = s.mem) (r : RowId) (e : Nat) : getE t r e = getE s r e :=
  getW_mem h r _ (by unfold ew; omega)
theorem getM_mem {s t : State} (h : t.mem = s.mem) (r : RowId) (m : Nat) : getM t r m = getM s r m :=
  getW_mem h r _ (by unfold mw; omega)
theorem getV_mem {s t : State} (h : t.mem = s.mem) (r : RowId) (v : Nat) : getV t r v = getV s r v :=
  rowBytes_congr r _ _ (by unfold vw; omega) fun k _ => by unfold memByte; rw [h]

/-- What a core's counters are after `bump`. -/
theorem stats_bump (s : State) (core k n c j : Nat) :
    smGet 0 (getCore (bump s core k n) c).stats j =
      smGet 0 (getCore s c).stats j + (if c = core ∧ j = k then wNat n else 0) := by
  unfold bump
  rw [getCore_modCore]
  by_cases hc : c = core
  · subst hc
    rw [if_pos rfl]
    simp only [smGet_smSet, true_and]
    split
    · subst_vars; rfl
    · simp
  · rw [if_neg hc, if_neg (fun h => hc h.1)]; simp

/-- Without a command that waits for the boundary nothing acts there. -/
theorem actPend_nil (s : State) (r : RowId) (h : (getRow s r).pend = []) : actPend s r = s := by
  unfold actPend; rw [if_pos h]

/-- Retirement of a row that is not under STEP, after the flags. -/
theorem retireTo_eq (s : State) (r : RowId) (next : Word) (h : (getRow s r).stepping = false) (hp : (getRow s r).pend = []) :
    retireTo s r next = bump (modRow s r fun w => retiredRow w 0 next) r.core 1 1 := by
  have e : (fun w : Row => retiredRow w 0 next) = fun w => { w with
      pc := next &&& ~~~1#64, rstep := 0, retired := w.retired + 1, marked := [], fetchLen := none, work := 0,
      stalled := false } := by funext w; simp [retiredRow]
  unfold retireTo
  rw [← e]
  have h2 : (getRow (bump (modRow s r fun w => retiredRow w 0 next) r.core 1 1) r).stepping = false := by
    simp [bump, retiredRow, h]
  simp only [h2, Bool.false_eq_true, if_false]
  exact actPend_nil _ _ (by simp [bump, retiredRow, hp])

theorem orFlags_rest (s : State) (r : RowId) (fl : FFlags) : orFlags s r fl = { s with rows := (orFlags s r fl).rows } := by
  unfold orFlags; split <;> rfl

theorem getRow_orFlags (s : State) (r q : RowId) (fl : FFlags) : getRow (orFlags s r fl) q =
    if rkey q = rkey r then { getRow s r with flags := (getRow s r).flags ||| fl.setWidth 64 } else getRow s q := by
  unfold orFlags
  split
  · subst_vars
    split
    · rename_i h; unfold getRow; rw [h]; simp
    · rfl
  · rw [getRow_modRow]

/-- Flags added and the instruction retired: everything that does. -/
theorem retireTo_getRow (s : State) (r q : RowId) (fl : FFlags) (next : Word) (h : (getRow s r).stepping = false)
    (hp : (getRow s r).pend = []) :
    getRow (retireTo (orFlags s r fl) r next) q =
      if rkey q = rkey r then retiredRow (getRow s r) fl next else getRow s q := by
  rw [retireTo_eq _ _ _ (by rw [getRow_orFlags, if_pos rfl]; exact h) (by rw [getRow_orFlags, if_pos rfl]; exact hp)]
  unfold bump
  rw [getRow_modCore, getRow_modRow]
  by_cases hq : rkey q = rkey r
  · rw [if_pos hq, if_pos hq, getRow_orFlags, if_pos rfl]; simp [retiredRow]
  · rw [if_neg hq, if_neg hq, getRow_orFlags, if_neg hq]

theorem retireTo_rest (s : State) (r : RowId) (fl : FFlags) (next : Word) (h : (getRow s r).stepping = false)
    (hp : (getRow s r).pend = []) :
    retireTo (orFlags s r fl) r next = { s with rows := (retireTo (orFlags s r fl) r next).rows,
                                                cores := (bump s r.core 1 1).cores } := by
  rw [retireTo_eq _ _ _ (by rw [getRow_orFlags, if_pos rfl]; exact h) (by rw [getRow_orFlags, if_pos rfl]; exact hp)]
  unfold orFlags; split <;> rfl

theorem rest_trans {s t u : State} (h1 : t = { s with mem := t.mem, empt := t.empt, poison := t.poison })
    (h2 : u = { t with rows := u.rows, cores := u.cores }) :
    u = { s with mem := u.mem, empt := u.empt, poison := u.poison, rows := u.rows, cores := u.cores } := by
  cases s; cases t; cases u
  simp only [State.mk.injEq] at *
  simp_all

/-- An instruction that wrote words and retires is done. -/
theorem done_retire {s t : State} {W : List Nat} (h : Wrote s t W) (hg : Going s) (fl : FFlags) (next : Word) :
    Done s (retireTo (orFlags t s.cur fl) s.cur next) W fl next := by
  have hst : (getRow t s.cur).stepping = false := by rw [h.getRow]; exact hg.2.1
  have hpe : (getRow t s.cur).pend = [] := by rw [h.getRow]; exact hg.2.2
  have hr := retireTo_rest t s.cur fl next hst hpe
  have hm : (retireTo (orFlags t s.cur fl) s.cur next).mem = t.mem := (congrArg State.mem hr).trans rfl
  have he : (retireTo (orFlags t s.cur fl) s.cur next).empt = t.empt := (congrArg State.empt hr).trans rfl
  have hp : (retireTo (orFlags t s.cur fl) s.cur next).poison = t.poison := (congrArg State.poison hr).trans rfl
  have hc : ∀ c, getCore (retireTo (orFlags t s.cur fl) s.cur next) c = getCore (bump t s.cur.core 1 1) c := by
    intro c; exact (congrArg (fun x => getCore x c) hr).trans rfl
  refine ⟨?_, ?_, ?_, ?_, ?_, ?_, ?_, ?_, ?_, ?_⟩
  · rw [retireTo_getRow _ _ _ _ _ hst hpe, if_pos rfl, h.getRow]
  · intro q hq; rw [retireTo_getRow _ _ _ _ _ hst hpe, if_neg hq, h.getRow]
  · intro w hw hn; rw [getW_mem hm _ _ hw]; exact h.words w hw hn
  · intro w hw; obtain ⟨g1, g2⟩ := h.full w hw
    unfold isEmpty isPoison at *; rw [he, hp]; exact ⟨g1, g2⟩
  · intro a ha; unfold memByte; rw [hm]; exact h.bytes a ha
  · intro k hk; rw [he]; exact h.empties k hk
  · intro k hk; rw [hp]; exact h.poisons k hk
  · intro c
    rw [hc, ← h.getCore c]
    unfold bump
    rw [getCore_modCore]
    split
    · subst_vars; rfl
    · rfl
  · intro c k; rw [hc, stats_bump, h.getCore]; rfl
  · refine rest_trans h.rest (hr.trans ?_)
    rw [← (congrArg State.cores hr).trans rfl]

/-- Retirement with no flags. -/
theorem done_retire0 {s t : State} {W : List Nat} (h : Wrote s t W) (hg : Going s) (next : Word) :
    Done s (retireTo t s.cur next) W 0 next := done_retire h hg 0 next

/-- What the words of a row read after retirement. -/
theorem retireTo_mem (s : State) (r : RowId) (fl : FFlags) (next : Word) (h : (getRow s r).stepping = false)
    (hp : (getRow s r).pend = []) : (retireTo (orFlags s r fl) r next).mem = s.mem :=
  (congrArg State.mem (retireTo_rest s r fl next h hp)).trans rfl

/-- An instruction that writes X[d] and adds flags. -/
theorem retXF_done (s : State) (hg : Going s) (d : Reg) (v : Word) (fl : FFlags) (n : Nat) :
    Done s (retXF s s.cur d v fl n) [xw d] fl ((getRow s s.cur).pc + wNat n) ∧
      getX (retXF s s.cur d v fl n) s.cur d = xval d v := by
  have hw : (getRow s s.cur).st ≠ .waiting := by rw [hg.1]; decide
  have h := wrote_fillWord (Wrote.refl s) hw (xw d) (by unfold xw; omega) v
  have hst : (getRow (setX s s.cur d v) s.cur).stepping = false := by
    have := h.getRow s.cur; unfold setX; rw [this]; exact hg.2.1
  have hpe : (getRow (setX s s.cur d v) s.cur).pend = [] := by
    have := h.getRow s.cur; unfold setX; rw [this]; exact hg.2.2
  have hp : (getRow (orFlags (setX s s.cur d v) s.cur fl) s.cur).pc = (getRow s s.cur).pc := by
    rw [getRow_orFlags, if_pos rfl, ← h.getRow]; rfl
  unfold retXF retire
  rw [hp]
  exact ⟨done_retire h hg fl _, (getX_mem (retireTo_mem _ _ _ _ hst hpe) _ _).trans (getX_setX s _ hw d v)⟩

end Sys2Proof.Machine
end

