-- ==== Sys2Proof/Laws/Operands.lean ====
section
/-!
SUPPORT. One lemma for each shared form of an instruction: sources examined, a destination written, flags added, retired.
-/

namespace Sys2Proof.Machine

/-- Sources that are full and sound let the instruction go on (R52, R153). -/
theorem gate_ready {s : State} {r : RowId} {xs : List Src} (h : ready s r xs = true) (k : Nat) (body : State) :
    gate s r k xs body = body := by
  unfold ready at h
  rw [Bool.and_eq_true, Option.isNone_iff_eq_none, Option.isNone_iff_eq_none] at h
  unfold gate
  rw [h.1, h.2]

/-- An empty source without its trap bit: the row blocks on it (R52). -/
theorem gate_block {s : State} {r : RowId} {xs : List Src} {w : Nat} (h : firstEmpty s r xs = some (w, false)) (k : Nat)
    (body : State) : gate s r k xs body = block s r w := by unfold gate; rw [h]

/-- An empty source with its trap bit: EMPTY (R52, R153). -/
theorem gate_trap {s : State} {r : RowId} {xs : List Src} {w : Nat} (h : firstEmpty s r xs = some (w, true)) (k : Nat)
    (body : State) : gate s r k xs body = raise s r (Trap.plain cEMPTY (wordVa s r w)) k := by unfold gate; rw [h]

/-- A full but poisoned source: MEMERR (R348). -/
theorem gate_poison {s : State} {r : RowId} {xs : List Src} {w : Nat} (he : firstEmpty s r xs = none)
    (h : firstPoison s r xs = some w) (k : Nat) (body : State) :
    gate s r k xs body = raise s r (Trap.plain cMEMERR (wordVa s r w)) k := by unfold gate; rw [he, h]

theorem going_st {s : State} (hg : Going s) : (getRow s s.cur).st ≠ .waiting := by rw [hg.1]; decide

/-- Retirement after a write of whole words, with flags. -/
theorem retire_done {s t : State} {W : List Nat} (hg : Going s) (h : Wrote s t W) (fl : FFlags) (n : Nat) :
    Done s (retire (orFlags t s.cur fl) s.cur n) W fl ((getRow s s.cur).pc + wNat n) := by
  have hp : (getRow (orFlags t s.cur fl) s.cur).pc = (getRow s s.cur).pc := by
    rw [getRow_orFlags, if_pos rfl]; show (getRow t s.cur).pc = _; rw [h.getRow]
  unfold retire; rw [hp]
  exact done_retire h hg fl _

theorem retire_done0 {s t : State} {W : List Nat} (hg : Going s) (h : Wrote s t W) (n : Nat) :
    Done s (retire t s.cur n) W 0 ((getRow s s.cur).pc + wNat n) := retire_done hg h 0 n

/-- Memory is that of the writes. -/
theorem retire_mem {s t : State} {W : List Nat} (hg : Going s) (h : Wrote s t W) (fl : FFlags) (n : Nat) :
    (retire (orFlags t s.cur fl) s.cur n).mem = t.mem :=
  retireTo_mem t s.cur fl _ (by rw [h.getRow]; exact hg.2.1) (by rw [h.getRow]; exact hg.2.2)

theorem wrote_setX {s : State} (hg : Going s) (d : Reg) (v : Word) : Wrote s (setX s s.cur d v) [xw d] :=
  wrote_fillWord (Wrote.refl s) (going_st hg) _ (by unfold xw; omega) v
theorem wrote_setE {s : State} (hg : Going s) (e : Nat) (v : Word) : Wrote s (setE s s.cur e v) [ew e] :=
  wrote_fillWord (Wrote.refl s) (going_st hg) _ (by unfold ew; omega) v
theorem wrote_setM {s : State} (hg : Going s) (m : Nat) (v : Word) : Wrote s (setM s s.cur m v) [mw m] :=
  wrote_fillWord (Wrote.refl s) (going_st hg) _ (by unfold mw; omega) v
theorem wrote_setV {s : State} (hg : Going s) (v : Nat) (bs : List Byte) (hb : bs.length = 128) :
    Wrote s (setV s s.cur v bs) (List.range' (vw v) 16) := by
  have := wrote_fillBytes (Wrote.refl s) (going_st hg) (vw v) 16 (by unfold vw; omega) bs (by omega)
  simpa [setV] using this

/-- X[d] written and retired: done, with the value (R193). -/
theorem retX_done (s : State) (hg : Going s) (d : Reg) (v : Word) (n : Nat) :
    Done s (retX s s.cur d v n) [xw d] 0 ((getRow s s.cur).pc + wNat n) ∧
      getX (retX s s.cur d v n) s.cur d = xval d v := retXF_done s hg d v 0 n

/-- E[e] written and retired. -/
theorem retE_done (s : State) (hg : Going s) (e : Nat) (v : Word) (n : Nat) :
    Done s (retire (setE s s.cur e v) s.cur n) [ew e] 0 ((getRow s s.cur).pc + wNat n) ∧
      getE (retire (setE s s.cur e v) s.cur n) s.cur e = v :=
  ⟨retire_done0 hg (wrote_setE hg e v) n,
   (getE_mem (retire_mem hg (wrote_setE hg e v) 0 n) _ _).trans (getE_setE s _ (going_st hg) e v)⟩

/-- M[m] written, flags added, retired. -/
theorem retM_done (s : State) (hg : Going s) (m : Nat) (v : Word) (fl : FFlags) (n : Nat) :
    Done s (retire (orFlags (setM s s.cur m v) s.cur fl) s.cur n) [mw m] fl ((getRow s s.cur).pc + wNat n) ∧
      getM (retire (orFlags (setM s s.cur m v) s.cur fl) s.cur n) s.cur m = v :=
  ⟨retire_done hg (wrote_setM hg m v) fl n,
   (getM_mem (retire_mem hg (wrote_setM hg m v) fl n) _ _).trans (getM_setM s _ (going_st hg) m v)⟩

/-- V[v] written, flags added, retired. -/
theorem retVec_done (s : State) (hg : Going s) (v : Nat) (bs : List Byte) (hb : bs.length = 128) (fl : FFlags) (n : Nat) :
    Done s (retire (orFlags (setV s s.cur v bs) s.cur fl) s.cur n) (List.range' (vw v) 16) fl
        ((getRow s s.cur).pc + wNat n) ∧
      getV (retire (orFlags (setV s s.cur v bs) s.cur fl) s.cur n) s.cur v = bs :=
  ⟨retire_done hg (wrote_setV hg v bs hb) fl n,
   (getV_mem (retire_mem hg (wrote_setV hg v bs hb) fl n) _ _).trans (getV_setV s _ (going_st hg) v bs hb)⟩

/-! ## Lanes -/

theorem lanesFrom_length (w : Nat) (old : List Byte) (act : Nat → Bool) (f : Nat → FRes) (n j : Nat)
    (ho : w * (j + n) ≤ old.length) : (lanesFrom w old act f n j).1.length = w * n := by
  induction n generalizing j with
  | zero => rfl
  | succ n ih =>
    have h2 := ih (j + 1) (by rw [show j + 1 + n = j + (n + 1) by omega]; exact ho)
    simp only [lanesFrom]
    have h3 : w * (j + (n + 1)) = w * j + w + w * n := by ring
    split
    · simp only [List.length_append, leBytes_length, h2]; ring
    · simp only [List.length_append, List.length_take, List.length_drop, h2]
      have : w ≤ old.length - w * j := by omega
      rw [Nat.min_eq_left this]; ring

/-- Lane `i` of the lanes computed from `j` on. -/
theorem lanesFrom_lane (w : Nat) (old : List Byte) (act : Nat → Bool) (f : Nat → FRes) (n j i : Nat) (hi : i < n)
    (ho : w * (j + n) ≤ old.length) :
    laneGet w (lanesFrom w old act f n j).1 i =
      if act (j + i) then (f (j + i)).1 % 256 ^ w else laneGet w old (j + i) := by
  induction n generalizing j i with
  | zero => omega
  | succ n ih =>
    have h1 : w * (j + 1 + n) ≤ old.length := by rw [show j + 1 + n = j + (n + 1) by omega]; exact ho
    have h3 : w * (j + (n + 1)) = w * j + w + w * n := by ring
    simp only [lanesFrom]
    cases i with
    | zero =>
      unfold laneGet
      simp only [Nat.mul_zero, List.drop_zero, Nat.add_zero]
      split
      · rw [List.take_append_of_le_length (by simp [leBytes_length]), List.take_of_length_le (by simp [leBytes_length]),
          leNat_leBytes]
      · rw [List.take_append_of_le_length (by simp; omega), List.take_of_length_le (by simp)]
    | succ i =>
      have h2 := ih (j + 1) i (by omega) h1
      have e : w * (i + 1) = w * i + w := by ring
      rw [show j + (i + 1) = j + 1 + i by omega, ← h2]
      unfold laneGet
      split
      · dsimp only
        rw [List.drop_append, List.drop_of_length_le (by simp [leBytes_length, e]), leBytes_length, e]
        simp
      · dsimp only
        have hl : ((old.drop (w * j)).take w).length = w := by simp; omega
        rw [List.drop_append, List.drop_of_length_le (by rw [hl]; omega), hl, e]
        simp

/-- The flags of the lanes computed: those of the active lanes. -/
theorem lanesFrom_flags (w : Nat) (old : List Byte) (act : Nat → Bool) (f : Nat → FRes) (n j : Nat) :
    (lanesFrom w old act f n j).2 = laneFlags act f (List.range' j n) := by
  induction n generalizing j with
  | zero => rfl
  | succ n ih =>
    simp only [lanesFrom, List.range'_succ, laneFlags, ih]
    split <;> rfl

theorem laneBytes_cases (ty : Nat) : laneBytes ty = 2 ∨ laneBytes ty = 4 ∨ laneBytes ty = 8 := by
  unfold laneBytes; split <;> simp

theorem lanes_bytes (ty : Nat) : laneBytes ty * laneCount ty = 128 := by
  unfold laneCount; rcases laneBytes_cases ty with h | h | h <;> rw [h]

theorem getV_length (s : State) (r : RowId) (v : Nat) : (getV s r v).length = 128 := rowBytes_length _ _ _ _

/-- V[d] written lane by lane under a mask (R216): the words, the flags and every lane. -/
theorem retV_done (s : State) (hg : Going s) (ty mk d : Nat) (f : Nat → FRes) (n : Nat) :
    Done s (retV s s.cur ty mk d f n) (List.range' (vw d) 16)
        (laneFlags (fun j => (maskOf s s.cur mk).testBit j) f (List.range' 0 (laneCount ty)))
        ((getRow s s.cur).pc + wNat n) ∧
      ∀ j < laneCount ty, laneGet (laneBytes ty) (getV (retV s s.cur ty mk d f n) s.cur d) j =
        if (maskOf s s.cur mk).testBit j then (f j).1 % 256 ^ laneBytes ty
        else laneGet (laneBytes ty) (getV s s.cur d) j := by
  have hb := lanes_bytes ty
  have hl := lanesFrom_length (laneBytes ty) (getV s s.cur d) (fun j => (maskOf s s.cur mk).testBit j) f (laneCount ty) 0
    (by rw [getV_length, Nat.zero_add, hb])
  rw [hb] at hl
  have h := retVec_done s hg d _ hl
    (lanesFrom (laneBytes ty) (getV s s.cur d) (fun j => (maskOf s s.cur mk).testBit j) f (laneCount ty) 0).2 n
  rw [lanesFrom_flags] at h
  unfold retV
  dsimp only
  rw [lanesFrom_flags]
  refine ⟨h.1, fun j hj => ?_⟩
  rw [h.2, lanesFrom_lane _ _ _ _ _ _ _ hj (by rw [getV_length, Nat.zero_add, hb]), Nat.zero_add]

/-- The bits of a comparison's mask: those of the active lanes for which it holds. -/
theorem condMask_bit (act : Nat → Bool) (f : Nat → Bool × FFlags) (n j k : Nat) :
    (condMask act f n j).1.testBit k = (decide (j ≤ k) && decide (k < j + n) && act k && (f k).1) ∧
      2 ^ j ∣ (condMask act f n j).1 := by
  induction n generalizing j with
  | zero =>
    simp [condMask]
  | succ n ih =>
    obtain ⟨h1, h2⟩ := ih (j + 1)
    obtain ⟨q, hq⟩ := h2
    have hp : (condMask act f n (j + 1)).1 = 2 * q * 2 ^ j := by rw [hq, pow_succ]; ring
    have hd : 2 ^ j ∣ (condMask act f n (j + 1)).1 := ⟨2 * q, by rw [hp]; ring⟩
    simp only [condMask]
    by_cases ha : act j
    · simp only [ha, if_true]
      refine ⟨?_, (Nat.dvd_add_right hd).2 ⟨_, Nat.mul_comm _ _⟩⟩
      have e : (condMask act f n (j + 1)).1 + (f j).1.toNat * 2 ^ j = (2 * q + (f j).1.toNat) * 2 ^ j := by rw [hp]; ring
      rw [e, Nat.testBit_mul_two_pow]
      rw [hp, Nat.testBit_mul_two_pow] at h1
      by_cases hk : k = j
      · subst hk
        have hk2 : ¬ k + 1 ≤ k := by omega
        simp only [hk2, decide_false, Bool.false_and] at h1
        simp only [Nat.sub_self, Nat.testBit_zero]
        cases (f k).1 <;> simp [ha]
      · have hb : (2 * q + (f j).1.toNat).testBit (k - j) = (2 * q).testBit (k - j) ∨ k < j := by
          rcases Nat.lt_or_ge k j with h | h
          · exact .inr h
          · left
            obtain ⟨m, hm⟩ : ∃ m, k - j = m + 1 := ⟨k - j - 1, by omega⟩
            rw [hm, Nat.testBit_succ, Nat.testBit_succ]
            cases (f j).1 <;> simp
            congr 1; omega
        rcases hb with hb | hb
        · rw [hb, h1]
          have : (j + 1 ≤ k ↔ j ≤ k) := by omega
          have h3 : (k < j + 1 + n ↔ k < j + (n + 1)) := by omega
          simp [this, h3]
        · have h4 : ¬ j ≤ k := by omega
          simp [h4]
    · simp only [ha, Bool.false_eq_true, if_false]
      refine ⟨?_, hd⟩
      rw [h1]
      by_cases hk : k = j
      · subst hk; simp [ha]
      · have : (j + 1 ≤ k ↔ j ≤ k) := by omega
        have h3 : (k < j + 1 + n ↔ k < j + (n + 1)) := by omega
        simp [this, h3]

/-- The flags of a comparison are those of the active lanes. -/
theorem condMask_flags (act : Nat → Bool) (f : Nat → Bool × FFlags) (n j : Nat) :
    (condMask act f n j).2 = laneFlags act (fun k => (0, (f k).2)) (List.range' j n) := by
  induction n generalizing j with
  | zero => rfl
  | succ n ih =>
    simp only [condMask, List.range'_succ, laneFlags, ih]
    split <;> rfl

end Sys2Proof.Machine
end

