-- ==== Sys2Proof/Laws/Alu.lean ====
section
/-!
SUPPORT. The integer operations of the ALU and of vector lanes, as operations on bit vectors (R195-R199, R218).
-/

namespace Sys2Proof.Machine

/-- Sign extension of a field. -/
theorem signExt_eq {n : Nat} (x : BitVec n) (h0 : 0 < n) (h : n ≤ 64) : signExt n x.toNat = x.signExtend 64 := by
  unfold signExt
  dsimp only
  rw [Nat.mod_eq_of_lt x.isLt, if_neg (by omega)]
  have hx := x.isLt
  have hp : 2 ^ n ≤ 2 ^ 64 := Nat.pow_le_pow_right (by decide) h
  have hm : x.msb = decide (2 ^ (n - 1) ≤ x.toNat) := BitVec.msb_eq_decide x
  split
  · rename_i hlt
    apply BitVec.eq_of_toNat_eq
    rw [BitVec.toNat_signExtend, hm, decide_eq_false (by omega)]
    simp
  · rename_i hge
    apply BitVec.eq_of_toInt_eq
    rw [BitVec.toInt_signExtend_of_le h]
    rw [wInt, BitVec.toInt_ofInt, BitVec.toInt_eq_msb_cond, hm, decide_eq_true (by omega), if_pos rfl]
    have e : (2 : Nat) ^ n = 2 * 2 ^ (n - 1) := by
      rw [← Nat.pow_succ']; congr 1; omega
    have hc : ((2 : Int) ^ n) = ((2 ^ n : Nat) : Int) := by norm_cast
    rw [hc]
    generalize hq : (2 : Nat) ^ n = q at *
    generalize hq1 : (2 : Nat) ^ (n - 1) = q1 at *
    apply Int.bmod_eq_of_le
    · simp only [Int.ofNat_eq_natCast]; norm_num at *; omega
    · simp only [Int.ofNat_eq_natCast]; norm_num at *; omega

theorem sInt_eq {n : Nat} (x : BitVec n) (h0 : 0 < n) : sInt n x.toNat = x.toInt := by
  unfold sInt
  dsimp only
  rw [Nat.mod_eq_of_lt x.isLt, if_neg (by omega), BitVec.toInt_eq_msb_cond, BitVec.msb_eq_decide]
  have e : (2 : Nat) ^ n = 2 * 2 ^ (n - 1) := by rw [← Nat.pow_succ']; congr 1; omega
  split
  · rw [decide_eq_false (by omega)]; simp
  · rw [decide_eq_true (by omega)]; simp

theorem uNat_eq (n : Nat) (i : Int) : uNat n i = (BitVec.ofInt n i).toNat := by
  unfold uNat
  rw [BitVec.toNat_ofInt]
  norm_cast

/-- A size's result from the operation on its operands (R194). -/
theorem szRes_eq (sz : Bool) (F : (n x y : Nat) → Nat) (f : (n : Nat) → BitVec n → BitVec n → BitVec n)
    (h : ∀ n, (n = 32 ∨ n = 64) → ∀ x y : BitVec n, F n x.toNat y.toNat = (f n x y).toNat) (x y : Word) :
    szRes sz (F (szBits sz) (szOp sz x) (szOp sz y)) =
      if sz then f 64 x y else (f 32 (x.setWidth 32) (y.setWidth 32)).signExtend 64 := by
  cases sz
  · simp only [szRes, szBits, szOp, Bool.false_eq_true, if_false]
    rw [← BitVec.toNat_setWidth, ← BitVec.toNat_setWidth, h 32 (.inl rfl), signExt_eq _ (by decide) (by decide)]
  · simp only [szRes, szBits, szOp, if_true]
    rw [Nat.mod_eq_of_lt x.isLt, Nat.mod_eq_of_lt y.isLt, h 64 (.inr rfl)]
    simp

section
variable {n : Nat}

theorem add_eq (x y : BitVec n) : (x.toNat + y.toNat) % 2 ^ n = (x + y).toNat := by simp
theorem sub_eq (x y : BitVec n) : (x.toNat + 2 ^ n - y.toNat) % 2 ^ n = (x - y).toNat := by
  rw [BitVec.toNat_sub]; congr 1; have := y.isLt; omega
theorem mul_eq (x y : BitVec n) : x.toNat * y.toNat % 2 ^ n = (x * y).toNat := by simp
theorem and_eq (x y : BitVec n) : Nat.land x.toNat y.toNat = (x &&& y).toNat := (BitVec.toNat_and ..).symm
theorem or_eq (x y : BitVec n) : Nat.lor x.toNat y.toNat = (x ||| y).toNat := (BitVec.toNat_or ..).symm
theorem xor_eq (x y : BitVec n) : Nat.xor x.toNat y.toNat = (x ^^^ y).toNat := (BitVec.toNat_xor ..).symm
theorem andn_eq (x y : BitVec n) : Nat.land x.toNat (2 ^ n - 1 - y.toNat) = (x &&& ~~~y).toNat := by
  rw [BitVec.toNat_and, BitVec.toNat_not]; rfl
theorem mulhu_eq (x y : BitVec n) : x.toNat * y.toNat / 2 ^ n =
    ((x.setWidth (2 * n) * y.setWidth (2 * n)).extractLsb' n n).toNat := by
  have hx := x.isLt
  have hy := y.isLt
  have h2 : (2 : Nat) ^ (2 * n) = 2 ^ n * 2 ^ n := by rw [two_mul, pow_add]
  have hxy : x.toNat * y.toNat < 2 ^ n * 2 ^ n := Nat.mul_lt_mul'' hx hy
  have hle : (2 : Nat) ^ n ≤ 2 ^ (2 * n) := Nat.pow_le_pow_right (by decide) (by omega)
  simp only [BitVec.extractLsb'_toNat, BitVec.toNat_setWidth, BitVec.toNat_mul, Nat.shiftRight_eq_div_pow]
  rw [Nat.mod_eq_of_lt (lt_of_lt_of_le hx hle), Nat.mod_eq_of_lt (lt_of_lt_of_le hy hle), h2, Nat.mod_eq_of_lt hxy]
  exact (Nat.mod_eq_of_lt (Nat.div_lt_of_lt_mul hxy)).symm

theorem mulh_eq (x y : BitVec n) (h0 : 0 < n) : uNat n (sInt n x.toNat * sInt n y.toNat / 2 ^ n) =
    ((x.signExtend (2 * n) * y.signExtend (2 * n)).extractLsb' n n).toNat := by
  rw [sInt_eq _ h0, sInt_eq _ h0, uNat_eq]
  congr 1
  have hle : n ≤ 2 * n := by omega
  have hb : ∀ z : BitVec n, -(2 ^ (n - 1) : Int) ≤ z.toInt ∧ z.toInt < 2 ^ (n - 1) :=
    fun z => ⟨BitVec.le_toInt z, BitVec.toInt_lt⟩
  generalize hp : x.signExtend (2 * n) * y.signExtend (2 * n) = p
  have hprod : p.toInt = x.toInt * y.toInt := by
    rw [← hp, BitVec.toInt_mul, BitVec.toInt_signExtend_of_le hle, BitVec.toInt_signExtend_of_le hle]
    obtain ⟨a1, a2⟩ := hb x
    obtain ⟨b1, b2⟩ := hb y
    have e : (2 : Int) ^ (2 * n - 1) = 2 * (2 ^ (n - 1) * 2 ^ (n - 1)) := by
      rw [← pow_add, ← pow_succ']; congr 1; omega
    have hpos : (0 : Int) < 2 ^ (n - 1) := by positivity
    have e2 : ((2 ^ (2 * n) : Nat) : Int) = 2 * 2 ^ (2 * n - 1) := by
      push_cast; rw [← pow_succ']; congr 1; omega
    apply Int.bmod_eq_of_le
    · rw [e2]; norm_num; rw [e]; nlinarith
    · rw [e2]
      have : ((2 : Int) * 2 ^ (2 * n - 1) + 1) / 2 = 2 ^ (2 * n - 1) := by omega
      rw [this, e]; nlinarith
  rw [← hprod]
  have hs : (p.sshiftRight n).toInt = p.toInt / 2 ^ n := by
    rw [BitVec.toInt_sshiftRight, Int.shiftRight_eq_div_pow]; norm_cast
  rw [← hs]
  have h1 : BitVec.ofInt n (p.sshiftRight n).toInt = (p.sshiftRight n).setWidth n := by
    apply BitVec.eq_of_toInt_eq
    rw [BitVec.toInt_setWidth, BitVec.toInt_ofInt, BitVec.toInt_eq_toNat_bmod]
    exact Int.bmod_bmod_of_dvd (pow_dvd_pow 2 hle)
  rw [h1]
  apply BitVec.eq_of_getLsbD_eq
  intro i hi
  rw [BitVec.getLsbD_setWidth, BitVec.getLsbD_sshiftRight, BitVec.getLsbD_extractLsb', if_pos (by omega)]
  simp [hi]
  omega

theorem divS_eq (x y : BitVec n) (h0 : 0 < n) : divS n x.toNat y.toNat = (if y = 0 then BitVec.allOnes n else x.sdiv y).toNat := by
  unfold divS
  by_cases h : y = 0
  · subst h; simp
  · have hy : y.toNat ≠ 0 := fun e => h (BitVec.eq_of_toNat_eq (by simpa using e))
    rw [if_neg hy, if_neg h, sInt_eq _ h0, sInt_eq _ h0, uNat_eq]
    congr 1
    apply BitVec.eq_of_toInt_eq
    rw [BitVec.toInt_ofInt, BitVec.toInt_sdiv]

theorem divU_eq (x y : BitVec n) : divU n x.toNat y.toNat = (if y = 0 then BitVec.allOnes n else x.udiv y).toNat := by
  unfold divU
  by_cases h : y = 0
  · subst h; simp
  · have hy : y.toNat ≠ 0 := fun e => h (BitVec.eq_of_toNat_eq (by simpa using e))
    rw [if_neg hy, if_neg h]; simp

theorem remS_eq (x y : BitVec n) (h0 : 0 < n) : remS n x.toNat y.toNat = (if y = 0 then x else x.srem y).toNat := by
  unfold remS
  by_cases h : y = 0
  · subst h; simp
  · have hy : y.toNat ≠ 0 := fun e => h (BitVec.eq_of_toNat_eq (by simpa using e))
    rw [if_neg hy, if_neg h, sInt_eq _ h0, sInt_eq _ h0, uNat_eq]
    congr 1
    apply BitVec.eq_of_toInt_eq
    rw [BitVec.toInt_ofInt, BitVec.toInt_srem]
    have hle := BitVec.le_toInt x
    have hlt := @BitVec.toInt_lt _ x
    have e : ((2 ^ n : Nat) : Int) = 2 * 2 ^ (n - 1) := by
      push_cast; rw [← pow_succ']; congr 1; omega
    have hb : |x.toInt.tmod y.toInt| ≤ |x.toInt| := by
      rw [Int.abs_eq_natAbs, Int.abs_eq_natAbs, Int.natAbs_tmod]
      exact_mod_cast Nat.mod_le _ _
    have hs : 0 ≤ x.toInt → 0 ≤ x.toInt.tmod y.toInt := fun h => Int.tmod_nonneg _ h
    have ha := abs_le.mp hb
    apply Int.bmod_eq_of_le
    · rw [e]
      rcases le_or_gt 0 x.toInt with hx | hx
      · have := hs hx; omega
      · rw [abs_of_neg hx] at ha; omega
    · rw [e]
      rcases le_or_gt 0 x.toInt with hx | hx
      · rw [abs_of_nonneg hx] at ha; omega
      · have : x.toInt.tmod y.toInt ≤ 0 := by
          have := Int.tmod_nonneg (a := -x.toInt) y.toInt (by omega)
          rw [Int.neg_tmod] at this; omega
        have hpos : (0 : Int) < 2 ^ (n - 1) := by positivity
        omega

theorem remU_eq (x y : BitVec n) : remU x.toNat y.toNat = (if y = 0 then x else x.umod y).toNat := by
  unfold remU
  by_cases h : y = 0
  · subst h; simp
  · have hy : y.toNat ≠ 0 := fun e => h (BitVec.eq_of_toNat_eq (by simpa using e))
    rw [if_neg hy, if_neg h]; simp

theorem shl_eq (x : BitVec n) (k : Nat) : shlN n x.toNat k = (x <<< (k % n)).toNat := by
  unfold shlN; rw [BitVec.toNat_shiftLeft, Nat.shiftLeft_eq]
theorem shr_eq (x : BitVec n) (k : Nat) : shrN n x.toNat k = (x >>> (k % n)).toNat := by
  unfold shrN; rw [BitVec.toNat_ushiftRight, Nat.shiftRight_eq_div_pow]
theorem sra_eq (x : BitVec n) (k : Nat) (h0 : 0 < n) : sraN n x.toNat k = (x.sshiftRight (k % n)).toNat := by
  unfold sraN; rw [sInt_eq _ h0, uNat_eq]; congr 1
  apply BitVec.eq_of_toInt_eq
  have hs : (x.sshiftRight (k % n)).toInt = x.toInt / 2 ^ (k % n) := by
    rw [BitVec.toInt_sshiftRight, Int.shiftRight_eq_div_pow]; norm_cast
  rw [BitVec.toInt_ofInt, ← hs, BitVec.toInt_bmod_cancel]

theorem rot_eq (x : BitVec n) (k : Nat) (h0 : 0 < n) : rotR n x.toNat k = (x.rotateRight (k % n)).toNat := by
  have hk : k % n < n := Nat.mod_lt _ h0
  unfold rotR
  rw [BitVec.toNat_rotateRight, Nat.mod_mod]
  generalize k % n = m at *
  have hx := x.isLt
  have e : (2 : Nat) ^ n = 2 ^ m * 2 ^ (n - m) := by rw [← pow_add]; congr 1; omega
  have h1 : x.toNat <<< (n - m) % 2 ^ n = (x.toNat % 2 ^ m) <<< (n - m) := by
    rw [Nat.shiftLeft_eq, Nat.shiftLeft_eq, e, Nat.mul_mod_mul_right]
  rw [h1, Nat.lor_comm, ← Nat.shiftLeft_add_eq_or_of_lt, Nat.shiftLeft_eq, Nat.shiftRight_eq_div_pow, Nat.add_comm]
  rw [Nat.shiftRight_eq_div_pow]
  apply Nat.div_lt_of_lt_mul
  rw [← e]; exact hx

theorem slt_eq (x y : BitVec n) (h0 : 0 < n) : (sInt n x.toNat < sInt n y.toNat) ↔ x.slt y = true := by
  rw [sInt_eq _ h0, sInt_eq _ h0, BitVec.slt_iff_toInt_lt]
theorem sle_eq (x y : BitVec n) (h0 : 0 < n) : (sInt n x.toNat ≤ sInt n y.toNat) ↔ x.sle y = true := by
  rw [sInt_eq _ h0, sInt_eq _ h0, BitVec.sle_iff_toInt_le]

end

end Sys2Proof.Machine
end

