-- ==== Sys2Proof/Laws/Asks.lean ====
section
/-!
SUPPORT. Accesses that are one event with other work (R354, R355, R374): what keeping and dropping an answer changes, and one
lemma for each way in which such an access goes.
-/

namespace Sys2Proof.Machine

/-! ## Answers: everything else of the state is as before -/

@[simp] theorem keepAnswer_answers (s : State) (a : Answer) : (keepAnswer s a).answers = s.answers ++ [a] := rfl
@[simp] theorem keepAnswer_mem (s : State) (a : Answer) : (keepAnswer s a).mem = s.mem := rfl
@[simp] theorem getRow_keepAnswer (s : State) (a : Answer) (r : RowId) : getRow (keepAnswer s a) r = getRow s r := rfl
@[simp] theorem getCore_keepAnswer (s : State) (a : Answer) (n : Nat) : getCore (keepAnswer s a) n = getCore s n := rfl
@[simp] theorem getCl_keepAnswer (s : State) (a : Answer) (n : Nat) : getCl (keepAnswer s a) n = getCl s n := rfl
@[simp] theorem getDie_keepAnswer (s : State) (a : Answer) (n : Nat) : getDie (keepAnswer s a) n = getDie s n := rfl
@[simp] theorem getPart_keepAnswer (s : State) (a : Answer) (p : Nat) : getPart (keepAnswer s a) p = getPart s p := rfl

@[simp] theorem dropAnswers_answers (s : State) (w : Asker) :
    (dropAnswers s w).answers = s.answers.filter fun a => a.who != w := rfl
@[simp] theorem dropAnswers_mem (s : State) (w : Asker) : (dropAnswers s w).mem = s.mem := rfl
@[simp] theorem getRow_dropAnswers (s : State) (w : Asker) (r : RowId) : getRow (dropAnswers s w) r = getRow s r := rfl
@[simp] theorem getCore_dropAnswers (s : State) (w : Asker) (n : Nat) : getCore (dropAnswers s w) n = getCore s n := rfl
@[simp] theorem getCl_dropAnswers (s : State) (w : Asker) (n : Nat) : getCl (dropAnswers s w) n = getCl s n := rfl
@[simp] theorem getDie_dropAnswers (s : State) (w : Asker) (n : Nat) : getDie (dropAnswers s w) n = getDie s n := rfl
@[simp] theorem getPart_dropAnswers (s : State) (w : Asker) (p : Nat) : getPart (dropAnswers s w) p = getPart s p := rfl

/-- An asker whose work is done finds no answer any more. -/
theorem answerOf_dropAnswers (s : State) (w : Asker) (p : Part) (amo : Bool) : answerOf (dropAnswers s w) w p amo = none := by
  simp only [answerOf, dropAnswers_answers, List.find?_eq_none, List.mem_filter]
  rintro a ⟨-, ha⟩ h
  simp_all

/-! ## The ways of such an access -/

/-- Without answers none is found. -/
theorem answerOf_none {s : State} (h : s.answers = []) (w : Asker) (p : Part) (amo : Bool) : answerOf s w p amo = none := by
  simp [answerOf, h]

/-- Without a refusal on its way no peer refuses. -/
theorem peerSays_none {s : State} (h : s.peerNo = none) (die : Nat) (p : Part) (home : Bool) : peerSays s die p home = none := by
  simp [peerSays, h]

/-- No answer, no swapped-out target and no refusal: the access is performed at once. -/
theorem askFirst_now {s : State} {w : Asker} {amo : Option (Nat × Word × RMode)} {p : Part} (ha : answerOf s w p amo.isSome = none)
    (hp : aimedPartOf s p = none) (hn : s.peerNo = none) (home : Bool) : askFirst s w amo home p = none := by
  simp [askFirst, ha, hp, peerSays_none hn]

/-- A replay's answer is taken, and the state stays as it is. -/
theorem askFirst_answer {s : State} {w : Asker} {amo : Option (Nat × Word × RMode)} {p : Part} {a : Answer}
    (ha : answerOf s w p amo.isSome = some a) (home : Bool) : askFirst s w amo home p = some (.ok a.bytes, a.fl, s) := by
  simp [askFirst, ha]

/-- A read that is performed at once is a read of the part. -/
theorem askRead_now {s : State} {w : Asker} {p : Part} (ha : answerOf s w p false = none) (hp : aimedPartOf s p = none)
    (hn : s.peerNo = none) (priv : Bool) (fe : Nat) (nt : Bool) :
    askRead s w priv fe nt p = readPart s w.row priv fe nt p := by
  simp [askRead, askFirst_now (amo := none) ha hp hn]

end Sys2Proof.Machine
end

