-- ==== Sys2Proof/Laws/Kept.lean ====
section
/-!
SUPPORT. What every operation keeps: the canonical form of memory and the rules of R45, R46, R49 and R133 for control
blocks. `Kept s0 t` says that `t` has each of the two if `s0` has it. This file has the operations that write the fields
concerned; the Kept* files beside it have one lemma per operation that the machine builds on them.
-/

namespace Sys2Proof.Machine

set_option linter.all false

/-- `t` keeps what `s0` has of the canonical form of memory and of legal control blocks. -/
def Kept (s0 t : State) : Prop := (Memory.wf s0 = true → Memory.wf t = true) ∧ (RowsOk s0 → RowsOk t)

/-- An outcome whose next state keeps it. -/
def KeptO (s0 : State) (o : Host.Outcome State Fault Refusal) : Prop := ∀ t, o = .next t → Kept s0 t

theorem kept_refl (s : State) : Kept s s := ⟨id, id⟩

theorem keptO_next {s0 t : State} (h : Kept s0 t) : KeptO s0 (.next t) := by
  intro u e; injection e with e; exact e ▸ h

/-- The second part of a pair that has been taken apart. -/
theorem kept_snd {α : Type} {s0 t : State} {p : α × State} {a : α} (e : p = (a, t)) (h : Kept s0 p.2) : Kept s0 t := by
  subst e; exact h

theorem kept_snd2 {α β : Type} {s0 t : State} {p : α × β × State} {a : α} {b : β} (e : p = (a, b, t))
    (h : Kept s0 p.2.2) : Kept s0 t := by
  subst e; exact h

/-- A change of other fields keeps it. -/
theorem kept_congr {s0 s t : State} (hm : t.mem = s.mem) (hr : t.rows = s.rows) (hs : t.shadow = s.shadow)
    (h : Kept s0 s) : Kept s0 t := by
  refine ⟨fun h0 => ?_, fun h0 => ?_⟩
  · have := h.1 h0; simpa only [Memory.wf, hm] using this
  · have := h.2 h0; simpa only [RowsOk, hr, hs] using this

/-- A state written out with other fields changed. -/
theorem kept_mk {s0 s : State} (empt : List Nat) (poison : List Nat) (cores : SMap Core) (clusters : SMap Cluster) (dies : SMap Die) (parts : SMap Partn) (pkg : Pkg) (l2 : List Line) (tlb : List Tlb) (ibuf : List IBuf) (reqs : List Req) (flights : List Flight) (held : List Held) (passes : List Pass) (flue : List FlueEnt) (flueReqs : List FlueReq) (flueRes : List FlueRes) (steer : List Steer) (shoots : List Shoot) (outs : List OutReq) (answers : List Answer) (peerNo : Option Bool) (startSave : StartSave) (agenda : List Turn) (cur : RowId) (nextId : Nat) (freeCtr : Nat) (hostReply : Option (List Byte)) :
    Kept s0 { mem := s.mem, empt := empt, poison := poison, rows := s.rows, cores := cores, clusters := clusters, dies := dies, parts := parts, pkg := pkg, shadow := s.shadow, l2 := l2, tlb := tlb, ibuf := ibuf, reqs := reqs, flights := flights, held := held, passes := passes, flue := flue, flueReqs := flueReqs, flueRes := flueRes, steer := steer, shoots := shoots, outs := outs, answers := answers, peerNo := peerNo, startSave := startSave, agenda := agenda, cur := cur, nextId := nextId, freeCtr := freeCtr, hostReply := hostReply } = Kept s0 s :=
  propext ⟨fun h => kept_congr rfl rfl rfl h, fun h => kept_congr rfl rfl rfl h⟩

theorem kept_ite {s0 a b : State} {c : Prop} [Decidable c] (ha : Kept s0 a) (hb : Kept s0 b) :
    Kept s0 (if c then a else b) := by
  split <;> assumption

/-- A fold over operations that keep it. -/
theorem kept_foldl {α : Type} {s0 : State} (f : State → α → State) (hf : ∀ t x, Kept s0 t → Kept s0 (f t x)) :
    ∀ (l : List α) (s : State), Kept s0 s → Kept s0 (l.foldl f s)
  | [], _, h => h
  | x :: l, s, h => kept_foldl f hf l (f s x) (hf s x h)

/-- The same with a value carried along. -/
theorem kept_foldl_snd {α β : Type} {s0 : State} (f : β × State → α → β × State)
    (hf : ∀ p x, Kept s0 p.2 → Kept s0 (f p x).2) :
    ∀ (l : List α) (p : β × State), Kept s0 p.2 → Kept s0 (l.foldl f p).2
  | [], _, h => h
  | x :: l, p, h => kept_foldl_snd f hf l (f p x) (hf p x h)

/-! ## Operations that write the fields concerned -/

variable {s0 s : State}

theorem rowOk_default : RowOk {} := by simp [RowOk]

theorem setRow_kept (h : Kept s0 s) (r : RowId) (v : Row) (hv : RowsOk s → RowOk v) : Kept s0 (setRow s r v) := by
  refine ⟨fun h0 => h.1 h0, fun h0 => ?_⟩
  have hs := h.2 h0
  refine ⟨fun k => ?_, hs.2⟩
  simp only [setRow, smGet_smSet]
  split
  · exact hv hs
  · exact hs.1 k

theorem modRow_kept (h : Kept s0 s) (r : RowId) (f : Row → Row) (hf : ∀ w, RowOk w → RowOk (f w)) :
    Kept s0 (modRow s r f) :=
  setRow_kept h r _ fun hs => hf _ (hs.1 _)

/-- A change of the current control block of the row. -/
theorem modRow_kept' (h : Kept s0 s) (r : RowId) (f : Row → Row) (hf : RowOk (getRow s r) → RowOk (f (getRow s r))) :
    Kept s0 (modRow s r f) :=
  setRow_kept h r _ fun hs => hf (hs.1 _)

theorem modCore_kept (h : Kept s0 s) (n : Nat) (f : Core → Core) : Kept s0 (modCore s n f) := kept_congr rfl rfl rfl h
theorem modCl_kept (h : Kept s0 s) (n : Nat) (f : Cluster → Cluster) : Kept s0 (modCl s n f) := kept_congr rfl rfl rfl h
theorem modDie_kept (h : Kept s0 s) (n : Nat) (f : Die → Die) : Kept s0 (modDie s n f) := kept_congr rfl rfl rfl h
theorem modPart_kept (h : Kept s0 s) (n : Nat) (f : Partn → Partn) : Kept s0 (modPart s n f) := kept_congr rfl rfl rfl h
theorem modPkg_kept (h : Kept s0 s) (f : Pkg → Pkg) : Kept s0 (modPkg s f) := kept_congr rfl rfl rfl h

theorem memSet_kept (h : Kept s0 s) (pa : Nat) (b : Byte) : Kept s0 (memSet s pa b) :=
  ⟨fun h0 => smWf_smSet 0 s.mem pa b (h.1 h0), fun h0 => h.2 h0⟩

theorem memWrite_kept (h : Kept s0 s) (pa : Nat) (bs : List Byte) : Kept s0 (memWrite s pa bs) := by
  induction bs generalizing s pa with
  | nil => exact h
  | cons b bs ih => exact ih (memSet_kept h pa b) (pa + 1)

/-! ## Parts of sparse maps -/

theorem smGet_smTake {α : Type} (d : α) (m : SMap α) (lo hi k : Nat) :
    smGet d (smTake m lo hi) k = if k + lo < hi then smGet d m (k + lo) else d := by
  unfold smTake
  induction m with
  | nil => simp [smGet]
  | cons e m ih =>
    obtain ⟨j, v⟩ := e
    by_cases hj : lo ≤ j ∧ j < hi
    · simp only [List.filter_cons, hj.1, hj.2, decide_true, Bool.and_self, if_true, List.map_cons, smGet, ih]
      by_cases h : j = k + lo
      · subst h; simp [hj.2]
      · rw [if_neg (by omega), if_neg h]
    · have hf : (decide (lo ≤ j) && decide (j < hi)) = false := by simp; omega
      simp only [List.filter_cons, hf, smGet, Bool.false_eq_true, if_false, ih]
      by_cases h : j = k + lo
      · have hn : ¬ k + lo < hi := by omega
        simp [hn]
      · rw [if_neg h]

theorem smGet_outside {α : Type} (d : α) (m : SMap α) (lo hi k : Nat) :
    smGet d (m.filter fun x => decide (x.1 < lo) || decide (hi ≤ x.1)) k = if lo ≤ k ∧ k < hi then d else smGet d m k := by
  induction m with
  | nil => simp [smGet]
  | cons e m ih =>
    obtain ⟨j, v⟩ := e
    by_cases hj : lo ≤ j ∧ j < hi
    · have hf : (decide (j < lo) || decide (hi ≤ j)) = false := by simp; omega
      simp only [List.filter_cons, hf, smGet]
      rw [if_neg (by simp), ih]
      by_cases h : j = k
      · subst h; simp [hj]
      · simp [h]
    · have hf : (decide (j < lo) || decide (hi ≤ j)) = true := by simp; omega
      simp only [List.filter_cons, hf, if_true, smGet, ih]
      by_cases h : j = k
      · subst h; simp [hj]
      · simp [h]

theorem smGet_smGive {α : Type} [DecidableEq α] (d : α) (m : SMap α) (lo hi : Nat) (n : SMap α) (k : Nat) :
    smGet d (smGive d m lo hi n) k = if lo ≤ k ∧ k < hi then smGet d n (k - lo) else smGet d m k := by
  induction n with
  | nil => simp [smGive, smGet_outside, smGet]
  | cons e n ih =>
    obtain ⟨j, v⟩ := e
    simp only [smGive, smGet]
    split
    · rw [smGet_smSet, ih]
      by_cases h : k = j + lo
      · subst h; rw [if_pos rfl, if_pos ⟨by omega, by omega⟩, if_pos (by omega)]
      · rw [if_neg h]
        split
        · rw [if_neg (by omega)]
        · rfl
    · rw [ih]
      split
      · rw [if_neg (by omega)]
      · rfl

theorem smWf_smGive {α : Type} [DecidableEq α] (d : α) (m : SMap α) (lo hi : Nat) (n : SMap α) (h : smWf d m = true) :
    smWf d (smGive d m lo hi n) = true := by
  induction n with
  | nil => exact smWf_filter d m _ h
  | cons e n ih =>
    simp only [smGive]
    split
    · exact smWf_smSet d _ _ _ ih
    · exact ih

/-- Keeping some bytes, with the same control blocks or none. -/
theorem filter_kept (h : Kept s0 s) (p : Nat × Byte → Bool) {t : State} (hm : t.mem = s.mem.filter p)
    (hr : t.rows = s.rows ∨ t.rows = []) (hs : t.shadow = s.shadow ∨ t.shadow = []) : Kept s0 t := by
  refine ⟨fun h0 => ?_, fun h0 => ⟨fun k => ?_, fun c k => ?_⟩⟩
  · simp only [Memory.wf, hm]; exact smWf_filter 0 s.mem p (h.1 h0)
  · rcases hr with hr | hr <;> rw [hr]
    · exact (h.2 h0).1 k
    · exact rowOk_default
  · rcases hs with hs | hs <;> rw [hs]
    · exact (h.2 h0).2 c k
    · exact rowOk_default

/-! ## Control-block values that the rules allow -/

theorem rowOk_congr {w v : Row} (h : RowOk w) (h1 : v.st = w.st) (h2 : v.why = w.why) (h3 : v.waitw = w.waitw)
    (h4 : v.pc = w.pc) (h5 : v.npc = w.npc) (h6 : v.flags = w.flags) : RowOk v := by
  unfold RowOk at *; rw [h1, h2, h3, h4, h5, h6]; exact h

/-- A control block of another state, with its reason. -/
theorem rowOk_set {w v : Row} (h : RowOk w) (hs : match v.st with
      | .stopped => v.why ∈ [0, 1, 2, 3, 8, 9]
      | .ready => v.why = 0
      | .waiting => v.why ∈ [5, 6, 7]
      | .faulted => v.why = 4)
    (hw : v.waitw = 0 ∨ (v.st = .waiting ∧ v.why = 5)) (h4 : v.pc = w.pc) (h5 : v.npc = w.npc)
    (h6 : v.flags = w.flags) : RowOk v := by
  unfold RowOk at *; rw [h4, h5, h6]; exact ⟨hs, hw, h.2.2⟩

theorem even_mask (v : Word) : (v &&& ~~~1#64).getLsbD 0 = false := by simp

theorem even_256 (n : Nat) : (wNat (256 * n)).getLsbD 0 = false := by
  unfold wNat
  rw [BitVec.getLsbD_ofNat, Nat.testBit_zero]
  simp; omega

theorem flags_mask (v : Word) : (v &&& 0x7F#64).toNat < 128 := by
  rw [BitVec.toNat_and]; exact Nat.lt_of_le_of_lt Nat.and_le_right (by decide)

theorem flags_or {v : Word} (f : FFlags) (h : v.toNat < 128) : (v ||| f.setWidth 64).toNat < 128 := by
  rw [BitVec.toNat_or]
  refine Nat.or_lt_two_pow (n := 7) h ?_
  rw [BitVec.toNat_setWidth]
  exact Nat.lt_of_le_of_lt (Nat.mod_le _ _) (Nat.lt_of_lt_of_le f.isLt (by decide))

end Sys2Proof.Machine
end

