-- ==== Sys2Proof/Laws/KeptOps.lean ====
section
/-! SUPPORT. The operations of Machine/Ops.lean keep canonical memory and legal control blocks (Kept.lean). -/

namespace Sys2Proof.Machine

set_option linter.all false

theorem modBank_kept {s0 : State} (s : State) (core : Nat) (b : Nat) (f : Bank → Bank) (h0 : Kept s0 s) : Kept s0 (modBank s core b f) := by
  unfold modBank
  try dsimp -iota only
  repeat' first
    | with_reducible assumption
    | with_reducible apply modCore_kept
    | with_reducible apply kept_ite
    | (with_reducible apply kept_foldl; intro t x ht)
    | (with_reducible apply kept_foldl_snd; intro t x ht)
    | split
    | simp only [kept_mk]
    | (with_reducible refine kept_snd (by assumption) ?_)
    | (with_reducible refine kept_snd2 (by assumption) ?_)
    | dsimp -iota only
    | dsimp only
    | decide
    | intro t l w ht
    | intro t l ht
    | intro t ht

theorem bump_kept {s0 : State} (s : State) (core : Nat) (k : Nat) (n : Nat) (h0 : Kept s0 s) : Kept s0 (bump s core k n) := by
  unfold bump
  try dsimp -iota only
  repeat' first
    | with_reducible assumption
    | with_reducible apply modCore_kept
    | with_reducible apply kept_ite
    | (with_reducible apply kept_foldl; intro t x ht)
    | (with_reducible apply kept_foldl_snd; intro t x ht)
    | split
    | simp only [kept_mk]
    | (with_reducible refine kept_snd (by assumption) ?_)
    | (with_reducible refine kept_snd2 (by assumption) ?_)
    | dsimp -iota only
    | dsimp only
    | decide
    | intro t l w ht
    | intro t l ht
    | intro t ht

theorem fresh_kept {s0 : State} (s : State) (h0 : Kept s0 s) : Kept s0 (fresh s).2 := by
  unfold fresh
  try dsimp -iota only
  repeat' first
    | with_reducible assumption
    | with_reducible apply kept_ite
    | (with_reducible apply kept_foldl; intro t x ht)
    | (with_reducible apply kept_foldl_snd; intro t x ht)
    | split
    | simp only [kept_mk]
    | (with_reducible refine kept_snd (by assumption) ?_)
    | (with_reducible refine kept_snd2 (by assumption) ?_)
    | dsimp -iota only
    | dsimp only
    | decide
    | intro t l w ht
    | intro t l ht
    | intro t ht

theorem freeWord_kept {s0 : State} (s : State) (h0 : Kept s0 s) : Kept s0 (freeWord s).2 := by
  unfold freeWord
  try dsimp -iota only
  repeat' first
    | with_reducible assumption
    | with_reducible apply kept_ite
    | (with_reducible apply kept_foldl; intro t x ht)
    | (with_reducible apply kept_foldl_snd; intro t x ht)
    | split
    | simp only [kept_mk]
    | (with_reducible refine kept_snd (by assumption) ?_)
    | (with_reducible refine kept_snd2 (by assumption) ?_)
    | dsimp -iota only
    | dsimp only
    | decide
    | intro t l w ht
    | intro t l ht
    | intro t ht

theorem unpoison_kept {s0 : State} (s : State) (ks : List Nat) (h0 : Kept s0 s) : Kept s0 (unpoison s ks) := by
  unfold unpoison
  try dsimp -iota only
  repeat' first
    | with_reducible assumption
    | with_reducible apply kept_ite
    | (with_reducible apply kept_foldl; intro t x ht)
    | (with_reducible apply kept_foldl_snd; intro t x ht)
    | split
    | simp only [kept_mk]
    | (with_reducible refine kept_snd (by assumption) ?_)
    | (with_reducible refine kept_snd2 (by assumption) ?_)
    | dsimp -iota only
    | dsimp only
    | decide
    | intro t l w ht
    | intro t l ht
    | intro t ht

theorem setEmpty_kept {s0 : State} (s : State) (r : RowId) (w : Nat) (h0 : Kept s0 s) : Kept s0 (setEmpty s r w) := by
  unfold setEmpty
  try dsimp -iota only
  repeat' first
    | with_reducible assumption
    | with_reducible apply kept_ite
    | (with_reducible apply kept_foldl; intro t x ht)
    | (with_reducible apply kept_foldl_snd; intro t x ht)
    | split
    | simp only [kept_mk]
    | (with_reducible refine kept_snd (by assumption) ?_)
    | (with_reducible refine kept_snd2 (by assumption) ?_)
    | dsimp -iota only
    | dsimp only
    | decide
    | intro t l w ht
    | intro t l ht
    | intro t ht

theorem setEmpties_kept {s0 : State} (s : State) (r : RowId) (arg2 : List Nat) (h0 : Kept s0 s) : Kept s0 (setEmpties s r arg2) := by
  induction arg2 generalizing s with
  | nil => exact h0
  | cons w ws ih => exact ih _ (setEmpty_kept s r w h0)

theorem putCtlBlock_kept {s0 : State} (s : State) (r : RowId) (k : Nat) (v : Word) (h0 : Kept s0 s) : Kept s0 (putCtlBlock s r k v) := by
  unfold putCtlBlock
  refine modRow_kept h0 _ _ ?_
  intro w hw
  split <;> first
    | with_reducible exact rowOk_congr hw rfl rfl rfl rfl rfl rfl
    | (obtain ⟨h1, h2, h3, h4, h5⟩ := hw
       refine ⟨?_, ?_, ?_, ?_, ?_⟩ <;> (try dsimp only) <;> first
         | with_reducible assumption | with_reducible exact even_mask _ | with_reducible exact flags_mask _)

theorem putCtlByte_kept {s0 : State} (s : State) (r : RowId) (off : Nat) (b : Byte) (h0 : Kept s0 s) : Kept s0 (putCtlByte s r off b) := by
  unfold putCtlByte
  try dsimp -iota only
  repeat' first
    | with_reducible assumption
    | with_reducible apply putCtlBlock_kept
    | with_reducible apply kept_ite
    | (with_reducible apply kept_foldl; intro t x ht)
    | (with_reducible apply kept_foldl_snd; intro t x ht)
    | split
    | simp only [kept_mk]
    | (with_reducible refine kept_snd (by assumption) ?_)
    | (with_reducible refine kept_snd2 (by assumption) ?_)
    | dsimp -iota only
    | dsimp only
    | decide
    | intro t l w ht
    | intro t l ht
    | intro t ht

theorem putRowBytes_kept {s0 : State} (s : State) (r : RowId) (off : Nat) (arg3 : List Byte) (h0 : Kept s0 s) : Kept s0 (putRowBytes s r off arg3) := by
  induction arg3 generalizing s off with
  | nil => exact h0
  | cons b bs ih =>
    unfold putRowBytes
    dsimp only
    refine ih _ _ ?_
    split
    · exact putCtlByte_kept s r off b h0
    · split
      · exact h0
      · exact memSet_kept h0 _ b

theorem putW_kept {s0 : State} (s : State) (r : RowId) (w : Nat) (v : Word) (h0 : Kept s0 s) : Kept s0 (putW s r w v) := by
  unfold putW
  try dsimp -iota only
  repeat' first
    | with_reducible assumption
    | with_reducible apply unpoison_kept
    | with_reducible apply putRowBytes_kept
    | with_reducible apply kept_ite
    | (with_reducible apply kept_foldl; intro t x ht)
    | (with_reducible apply kept_foldl_snd; intro t x ht)
    | split
    | simp only [kept_mk]
    | (with_reducible refine kept_snd (by assumption) ?_)
    | (with_reducible refine kept_snd2 (by assumption) ?_)
    | dsimp -iota only
    | dsimp only
    | decide
    | intro t l w ht
    | intro t l ht
    | intro t ht

theorem joinReady_kept {s0 : State} (s : State) (r : RowId) (h0 : Kept s0 s) : Kept s0 (joinReady s r) := by
  unfold joinReady
  try dsimp -iota only
  repeat' first
    | with_reducible assumption
    | with_reducible apply modBank_kept
    | with_reducible apply kept_ite
    | (with_reducible apply kept_foldl; intro t x ht)
    | (with_reducible apply kept_foldl_snd; intro t x ht)
    | split
    | simp only [kept_mk]
    | (with_reducible refine kept_snd (by assumption) ?_)
    | (with_reducible refine kept_snd2 (by assumption) ?_)
    | dsimp -iota only
    | dsimp only
    | decide
    | intro t l w ht
    | intro t l ht
    | intro t ht

theorem leaveReady_kept {s0 : State} (s : State) (r : RowId) (h0 : Kept s0 s) : Kept s0 (leaveReady s r) := by
  unfold leaveReady
  try dsimp -iota only
  repeat' first
    | with_reducible assumption
    | with_reducible apply modBank_kept
    | with_reducible apply kept_ite
    | (with_reducible apply kept_foldl; intro t x ht)
    | (with_reducible apply kept_foldl_snd; intro t x ht)
    | split
    | simp only [kept_mk]
    | (with_reducible refine kept_snd (by assumption) ?_)
    | (with_reducible refine kept_snd2 (by assumption) ?_)
    | dsimp -iota only
    | dsimp only
    | decide
    | intro t l w ht
    | intro t l ht
    | intro t ht

theorem closeRow_kept {s0 : State} (s : State) (r : RowId) (h0 : Kept s0 s) : Kept s0 (closeRow s r) := by
  unfold closeRow
  try dsimp -iota only
  repeat' first
    | with_reducible assumption
    | with_reducible apply modBank_kept
    | with_reducible apply kept_ite
    | (with_reducible apply kept_foldl; intro t x ht)
    | (with_reducible apply kept_foldl_snd; intro t x ht)
    | split
    | simp only [kept_mk]
    | (with_reducible refine kept_snd (by assumption) ?_)
    | (with_reducible refine kept_snd2 (by assumption) ?_)
    | dsimp -iota only
    | dsimp only
    | decide
    | intro t l w ht
    | intro t l ht
    | intro t ht

theorem leave_kept {s0 : State} (s : State) (r : RowId) (h0 : Kept s0 s) : Kept s0 (leave s r) := by
  unfold leave
  try dsimp -iota only
  repeat' first
    | with_reducible assumption
    | with_reducible apply closeRow_kept
    | with_reducible apply leaveReady_kept
    | with_reducible apply kept_ite
    | (with_reducible apply kept_foldl; intro t x ht)
    | (with_reducible apply kept_foldl_snd; intro t x ht)
    | split
    | simp only [kept_mk]
    | (with_reducible refine kept_snd (by assumption) ?_)
    | (with_reducible refine kept_snd2 (by assumption) ?_)
    | dsimp -iota only
    | dsimp only
    | decide
    | intro t l w ht
    | intro t l ht
    | intro t ht

theorem makeReady_kept {s0 : State} (s : State) (r : RowId) (h0 : Kept s0 s) : Kept s0 (makeReady s r) := by
  unfold makeReady
  try dsimp -iota only
  repeat' first
    | with_reducible assumption
    | with_reducible apply joinReady_kept
    | with_reducible refine modRow_kept ?_ _ _ ?_
    | with_reducible apply kept_ite
    | (with_reducible apply kept_foldl; intro t x ht)
    | (with_reducible apply kept_foldl_snd; intro t x ht)
    | split
    | simp only [kept_mk]
    | (with_reducible refine kept_snd (by assumption) ?_)
    | (with_reducible refine kept_snd2 (by assumption) ?_)
    | dsimp -iota only
    | dsimp only
    | decide
    | (intro w hw; (try dsimp only); (repeat' split); all_goals first | with_reducible assumption | with_reducible exact rowOk_congr hw rfl rfl rfl rfl rfl rfl | (obtain ⟨h1, h2, h3, h4, h5⟩ := hw; refine ⟨?_, ?_, ?_, ?_, ?_⟩ <;> (try dsimp only) <;> first | with_reducible assumption | with_reducible exact even_mask _ | with_reducible exact even_256 _ | with_reducible exact flags_mask _ | with_reducible exact flags_or _ h5 | with_reducible exact .inl rfl | (simp; done)))
    | intro t l w ht
    | intro t l ht
    | intro t ht

theorem makeStopped_kept {s0 : State} (s : State) (r : RowId) (why : Nat) (h0 : Kept s0 s) (hy : why ∈ [0, 1, 2, 3, 8, 9]) : Kept s0 (makeStopped s r why) := by
  unfold makeStopped
  try dsimp -iota only
  repeat' first
    | with_reducible assumption
    | with_reducible apply leave_kept
    | with_reducible refine modRow_kept ?_ _ _ ?_
    | with_reducible apply kept_ite
    | (with_reducible apply kept_foldl; intro t x ht)
    | (with_reducible apply kept_foldl_snd; intro t x ht)
    | split
    | simp only [kept_mk]
    | (with_reducible refine kept_snd (by assumption) ?_)
    | (with_reducible refine kept_snd2 (by assumption) ?_)
    | dsimp -iota only
    | dsimp only
    | decide
    | (intro w hw; (try dsimp only); (repeat' split); all_goals first | with_reducible assumption | with_reducible exact rowOk_congr hw rfl rfl rfl rfl rfl rfl | (obtain ⟨h1, h2, h3, h4, h5⟩ := hw; refine ⟨?_, ?_, ?_, ?_, ?_⟩ <;> (try dsimp only) <;> first | with_reducible assumption | with_reducible exact even_mask _ | with_reducible exact even_256 _ | with_reducible exact flags_mask _ | with_reducible exact flags_or _ h5 | with_reducible exact .inl rfl | (simp; done)))
    | intro t l w ht
    | intro t l ht
    | intro t ht

theorem wake_kept {s0 : State} (s : State) (r : RowId) (h0 : Kept s0 s) : Kept s0 (wake s r) := by
  unfold wake
  try dsimp -iota only
  repeat' first
    | with_reducible assumption
    | with_reducible refine modRow_kept ?_ _ _ ?_
    | with_reducible apply makeReady_kept
    | with_reducible apply kept_ite
    | (with_reducible apply kept_foldl; intro t x ht)
    | (with_reducible apply kept_foldl_snd; intro t x ht)
    | split
    | simp only [kept_mk]
    | (with_reducible refine kept_snd (by assumption) ?_)
    | (with_reducible refine kept_snd2 (by assumption) ?_)
    | dsimp -iota only
    | dsimp only
    | decide
    | (intro w hw; (try dsimp only); (repeat' split); all_goals first | with_reducible assumption | with_reducible exact rowOk_congr hw rfl rfl rfl rfl rfl rfl | (obtain ⟨h1, h2, h3, h4, h5⟩ := hw; refine ⟨?_, ?_, ?_, ?_, ?_⟩ <;> (try dsimp only) <;> first | with_reducible assumption | with_reducible exact even_mask _ | with_reducible exact even_256 _ | with_reducible exact flags_mask _ | with_reducible exact flags_or _ h5 | with_reducible exact .inl rfl | (simp; done)))
    | intro t l w ht
    | intro t l ht
    | intro t ht

theorem setFull_kept {s0 : State} (s : State) (r : RowId) (w : Nat) (h0 : Kept s0 s) : Kept s0 (setFull s r w) := by
  unfold setFull
  try dsimp -iota only
  repeat' first
    | with_reducible assumption
    | with_reducible apply wake_kept
    | with_reducible apply kept_ite
    | (with_reducible apply kept_foldl; intro t x ht)
    | (with_reducible apply kept_foldl_snd; intro t x ht)
    | split
    | simp only [kept_mk]
    | (with_reducible refine kept_snd (by assumption) ?_)
    | (with_reducible refine kept_snd2 (by assumption) ?_)
    | dsimp -iota only
    | dsimp only
    | decide
    | intro t l w ht
    | intro t l ht
    | intro t ht

theorem setFulls_kept {s0 : State} (s : State) (r : RowId) (arg2 : List Nat) (h0 : Kept s0 s) : Kept s0 (setFulls s r arg2) := by
  induction arg2 generalizing s with
  | nil => exact h0
  | cons w ws ih => exact ih _ (setFull_kept s r w h0)

theorem setKeys_kept {s0 : State} (s : State) (arg1 : List Nat) (h0 : Kept s0 s) : Kept s0 (setKeys s arg1) := by
  induction arg1 generalizing s with
  | nil => first | assumption | (unfold setKeys; assumption) | exact fun _ h => h
  | cons x xs ih =>
    unfold setKeys
    try dsimp -iota only
    repeat' first
      | with_reducible assumption
      | with_reducible apply ih
      | with_reducible apply setFull_kept
      | with_reducible apply kept_ite
      | (with_reducible apply kept_foldl; intro t x ht)
      | (with_reducible apply kept_foldl_snd; intro t x ht)
      | split
      | simp only [kept_mk]
      | (with_reducible refine kept_snd (by assumption) ?_)
      | (with_reducible refine kept_snd2 (by assumption) ?_)
      | dsimp -iota only
      | dsimp only
      | decide
      | intro t l w ht
      | intro t l ht
      | intro t ht

theorem fillWord_kept {s0 : State} (s : State) (r : RowId) (w : Nat) (v : Word) (h0 : Kept s0 s) : Kept s0 (fillWord s r w v) := by
  unfold fillWord
  try dsimp -iota only
  repeat' first
    | with_reducible assumption
    | with_reducible apply setFull_kept
    | with_reducible apply putW_kept
    | with_reducible apply kept_ite
    | (with_reducible apply kept_foldl; intro t x ht)
    | (with_reducible apply kept_foldl_snd; intro t x ht)
    | split
    | simp only [kept_mk]
    | (with_reducible refine kept_snd (by assumption) ?_)
    | (with_reducible refine kept_snd2 (by assumption) ?_)
    | dsimp -iota only
    | dsimp only
    | decide
    | intro t l w ht
    | intro t l ht
    | intro t ht

theorem skipPieces_kept {s0 : State} (s : State) (r : RowId) (since : Nat) (w : Nat) (h0 : Kept s0 s) : Kept s0 (skipPieces s r since w) := by
  unfold skipPieces
  try dsimp -iota only
  repeat' first
    | with_reducible assumption
    | with_reducible apply modCl_kept
    | with_reducible apply modDie_kept
    | with_reducible apply kept_ite
    | (with_reducible apply kept_foldl; intro t x ht)
    | (with_reducible apply kept_foldl_snd; intro t x ht)
    | split
    | simp only [kept_mk]
    | (with_reducible refine kept_snd (by assumption) ?_)
    | (with_reducible refine kept_snd2 (by assumption) ?_)
    | dsimp -iota only
    | dsimp only
    | decide
    | intro t l w ht
    | intro t l ht
    | intro t ht

theorem statusFill_kept {s0 : State} (s : State) (r : RowId) (since : Nat) (w : Nat) (v : Word) (h0 : Kept s0 s) : Kept s0 (statusFill s r since w v) := by
  unfold statusFill
  try dsimp -iota only
  repeat' first
    | with_reducible assumption
    | with_reducible apply skipPieces_kept
    | with_reducible apply putW_kept
    | with_reducible apply fillWord_kept
    | with_reducible apply kept_ite
    | (with_reducible apply kept_foldl; intro t x ht)
    | (with_reducible apply kept_foldl_snd; intro t x ht)
    | split
    | simp only [kept_mk]
    | (with_reducible refine kept_snd (by assumption) ?_)
    | (with_reducible refine kept_snd2 (by assumption) ?_)
    | dsimp -iota only
    | dsimp only
    | decide
    | intro t l w ht
    | intro t l ht
    | intro t ht

theorem endPlace_kept {s0 : State} (st : Nat) (s : State) (core : Nat) (h0 : Kept s0 s) : Kept s0 (endPlace st s core) := by
  unfold endPlace
  try dsimp -iota only
  repeat' first
    | with_reducible assumption
    | with_reducible apply setFull_kept
    | with_reducible apply statusFill_kept
    | with_reducible apply modCore_kept
    | with_reducible apply kept_ite
    | (with_reducible apply kept_foldl; intro t x ht)
    | (with_reducible apply kept_foldl_snd; intro t x ht)
    | split
    | simp only [kept_mk]
    | (with_reducible refine kept_snd (by assumption) ?_)
    | (with_reducible refine kept_snd2 (by assumption) ?_)
    | dsimp -iota only
    | dsimp only
    | decide
    | intro t l w ht
    | intro t l ht
    | intro t ht

theorem freeAcc_kept {s0 : State} (s : State) (core : Nat) (h0 : Kept s0 s) : Kept s0 (freeAcc s core) := by
  unfold freeAcc
  try dsimp -iota only
  repeat' first
    | with_reducible assumption
    | with_reducible apply modCore_kept
    | with_reducible apply kept_ite
    | (with_reducible apply kept_foldl; intro t x ht)
    | (with_reducible apply kept_foldl_snd; intro t x ht)
    | split
    | simp only [kept_mk]
    | (with_reducible refine kept_snd (by assumption) ?_)
    | (with_reducible refine kept_snd2 (by assumption) ?_)
    | dsimp -iota only
    | dsimp only
    | decide
    | intro t l w ht
    | intro t l ht
    | intro t ht

theorem endGang_kept {s0 : State} (s : State) (cl : Nat) (st : Nat) (h0 : Kept s0 s) : Kept s0 (endGang s cl st) := by
  unfold endGang
  try dsimp -iota only
  repeat' first
    | with_reducible assumption
    | with_reducible apply endPlace_kept
    | with_reducible apply freeAcc_kept
    | with_reducible apply modCl_kept
    | with_reducible apply kept_ite
    | (with_reducible apply kept_foldl; intro t x ht)
    | (with_reducible apply kept_foldl_snd; intro t x ht)
    | split
    | simp only [kept_mk]
    | (with_reducible refine kept_snd (by assumption) ?_)
    | (with_reducible refine kept_snd2 (by assumption) ?_)
    | dsimp -iota only
    | dsimp only
    | decide
    | intro t l w ht
    | intro t l ht
    | intro t ht

theorem skipEngines_kept {s0 : State} (s : State) (r : RowId) (h0 : Kept s0 s) : Kept s0 (skipEngines s r) := by
  unfold skipEngines
  try dsimp -iota only
  repeat' first
    | with_reducible assumption
    | with_reducible apply endGang_kept
    | with_reducible apply modCore_kept
    | with_reducible apply kept_ite
    | (with_reducible apply kept_foldl; intro t x ht)
    | (with_reducible apply kept_foldl_snd; intro t x ht)
    | split
    | simp only [kept_mk]
    | (with_reducible refine kept_snd (by assumption) ?_)
    | (with_reducible refine kept_snd2 (by assumption) ?_)
    | dsimp -iota only
    | dsimp only
    | decide
    | intro t l w ht
    | intro t l ht
    | intro t ht

theorem cmdDone_kept {s0 : State} (s : State) (r : RowId) (h0 : Kept s0 s) : Kept s0 (cmdDone s r) := by
  unfold cmdDone
  try dsimp -iota only
  repeat' first
    | with_reducible assumption
    | with_reducible refine modRow_kept ?_ _ _ ?_
    | with_reducible apply kept_ite
    | (with_reducible apply kept_foldl; intro t x ht)
    | (with_reducible apply kept_foldl_snd; intro t x ht)
    | split
    | simp only [kept_mk]
    | (with_reducible refine kept_snd (by assumption) ?_)
    | (with_reducible refine kept_snd2 (by assumption) ?_)
    | dsimp -iota only
    | dsimp only
    | decide
    | (intro w hw; (try dsimp only); (repeat' split); all_goals first | with_reducible assumption | with_reducible exact rowOk_congr hw rfl rfl rfl rfl rfl rfl | (obtain ⟨h1, h2, h3, h4, h5⟩ := hw; refine ⟨?_, ?_, ?_, ?_, ?_⟩ <;> (try dsimp only) <;> first | with_reducible assumption | with_reducible exact even_mask _ | with_reducible exact even_256 _ | with_reducible exact flags_mask _ | with_reducible exact flags_or _ h5 | with_reducible exact .inl rfl | (simp; done)))
    | intro t l w ht
    | intro t l ht
    | intro t ht

theorem cmdIgnored_kept {s0 : State} (s : State) (r : RowId) (h0 : Kept s0 s) : Kept s0 (cmdIgnored s r) := by
  unfold cmdIgnored
  try dsimp -iota only
  repeat' first
    | with_reducible assumption
    | with_reducible refine modRow_kept ?_ _ _ ?_
    | with_reducible apply kept_ite
    | (with_reducible apply kept_foldl; intro t x ht)
    | (with_reducible apply kept_foldl_snd; intro t x ht)
    | split
    | simp only [kept_mk]
    | (with_reducible refine kept_snd (by assumption) ?_)
    | (with_reducible refine kept_snd2 (by assumption) ?_)
    | dsimp -iota only
    | dsimp only
    | decide
    | (intro w hw; (try dsimp only); (repeat' split); all_goals first | with_reducible assumption | with_reducible exact rowOk_congr hw rfl rfl rfl rfl rfl rfl | (obtain ⟨h1, h2, h3, h4, h5⟩ := hw; refine ⟨?_, ?_, ?_, ?_, ?_⟩ <;> (try dsimp only) <;> first | with_reducible assumption | with_reducible exact even_mask _ | with_reducible exact even_256 _ | with_reducible exact flags_mask _ | with_reducible exact flags_or _ h5 | with_reducible exact .inl rfl | (simp; done)))
    | intro t l w ht
    | intro t l ht
    | intro t ht

theorem cmdKindle_kept {s0 : State} (s : State) (r : RowId) (h0 : Kept s0 s) : Kept s0 (cmdKindle s r) := by
  unfold cmdKindle
  try dsimp -iota only
  repeat' first
    | with_reducible assumption
    | with_reducible apply makeReady_kept
    | with_reducible apply cmdDone_kept
    | with_reducible apply cmdIgnored_kept
    | with_reducible apply kept_ite
    | (with_reducible apply kept_foldl; intro t x ht)
    | (with_reducible apply kept_foldl_snd; intro t x ht)
    | split
    | simp only [kept_mk]
    | (with_reducible refine kept_snd (by assumption) ?_)
    | (with_reducible refine kept_snd2 (by assumption) ?_)
    | dsimp -iota only
    | dsimp only
    | decide
    | intro t l w ht
    | intro t l ht
    | intro t ht

theorem unraise_kept {s0 : State} (s : State) (r : RowId) (h0 : Kept s0 s) : Kept s0 (unraise s r) := by
  unfold unraise
  try dsimp -iota only
  repeat' first
    | with_reducible assumption
    | with_reducible apply modCore_kept
    | with_reducible apply kept_ite
    | (with_reducible apply kept_foldl; intro t x ht)
    | (with_reducible apply kept_foldl_snd; intro t x ht)
    | split
    | simp only [kept_mk]
    | (with_reducible refine kept_snd (by assumption) ?_)
    | (with_reducible refine kept_snd2 (by assumption) ?_)
    | dsimp -iota only
    | dsimp only
    | decide
    | intro t l w ht
    | intro t l ht
    | intro t ht

theorem cmdStop_kept {s0 : State} (s : State) (r : RowId) (h0 : Kept s0 s) : Kept s0 (cmdStop s r) := by
  unfold cmdStop
  try dsimp -iota only
  repeat' first
    | with_reducible assumption
    | with_reducible apply unraise_kept
    | with_reducible apply cmdDone_kept
    | with_reducible refine modRow_kept ?_ _ _ ?_
    | with_reducible apply makeStopped_kept
    | with_reducible apply kept_ite
    | (with_reducible apply kept_foldl; intro t x ht)
    | (with_reducible apply kept_foldl_snd; intro t x ht)
    | split
    | simp only [kept_mk]
    | (with_reducible refine kept_snd (by assumption) ?_)
    | (with_reducible refine kept_snd2 (by assumption) ?_)
    | dsimp -iota only
    | dsimp only
    | decide
    | (intro w hw; (try dsimp only); (repeat' split); all_goals first | with_reducible assumption | with_reducible exact rowOk_congr hw rfl rfl rfl rfl rfl rfl | (obtain ⟨h1, h2, h3, h4, h5⟩ := hw; refine ⟨?_, ?_, ?_, ?_, ?_⟩ <;> (try dsimp only) <;> first | with_reducible assumption | with_reducible exact even_mask _ | with_reducible exact even_256 _ | with_reducible exact flags_mask _ | with_reducible exact flags_or _ h5 | with_reducible exact .inl rfl | (simp; done)))
    | intro t l w ht
    | intro t l ht
    | intro t ht

theorem cmdRedirect_kept {s0 : State} (s : State) (r : RowId) (h0 : Kept s0 s) : Kept s0 (cmdRedirect s r) := by
  unfold cmdRedirect
  try dsimp -iota only
  repeat' first
    | with_reducible assumption
    | with_reducible refine modRow_kept ?_ _ _ ?_
    | with_reducible apply cmdDone_kept
    | with_reducible apply wake_kept
    | with_reducible apply joinReady_kept
    | with_reducible apply kept_ite
    | (with_reducible apply kept_foldl; intro t x ht)
    | (with_reducible apply kept_foldl_snd; intro t x ht)
    | split
    | simp only [kept_mk]
    | (with_reducible refine kept_snd (by assumption) ?_)
    | (with_reducible refine kept_snd2 (by assumption) ?_)
    | dsimp -iota only
    | dsimp only
    | decide
    | (intro w hw; (try dsimp only); (repeat' split); all_goals first | with_reducible assumption | with_reducible exact rowOk_congr hw rfl rfl rfl rfl rfl rfl | (obtain ⟨h1, h2, h3, h4, h5⟩ := hw; refine ⟨?_, ?_, ?_, ?_, ?_⟩ <;> (try dsimp only) <;> first | with_reducible assumption | with_reducible exact even_mask _ | with_reducible exact even_256 _ | with_reducible exact flags_mask _ | with_reducible exact flags_or _ h5 | with_reducible exact .inl rfl | (simp; done)))
    | intro t l w ht
    | intro t l ht
    | intro t ht

theorem cmdStep_kept {s0 : State} (s : State) (r : RowId) (h0 : Kept s0 s) : Kept s0 (cmdStep s r) := by
  unfold cmdStep
  try dsimp -iota only
  repeat' first
    | with_reducible assumption
    | with_reducible apply makeReady_kept
    | with_reducible refine modRow_kept ?_ _ _ ?_
    | with_reducible apply cmdDone_kept
    | with_reducible apply cmdIgnored_kept
    | with_reducible apply kept_ite
    | (with_reducible apply kept_foldl; intro t x ht)
    | (with_reducible apply kept_foldl_snd; intro t x ht)
    | split
    | simp only [kept_mk]
    | (with_reducible refine kept_snd (by assumption) ?_)
    | (with_reducible refine kept_snd2 (by assumption) ?_)
    | dsimp -iota only
    | dsimp only
    | decide
    | (intro w hw; (try dsimp only); (repeat' split); all_goals first | with_reducible assumption | with_reducible exact rowOk_congr hw rfl rfl rfl rfl rfl rfl | (obtain ⟨h1, h2, h3, h4, h5⟩ := hw; refine ⟨?_, ?_, ?_, ?_, ?_⟩ <;> (try dsimp only) <;> first | with_reducible assumption | with_reducible exact even_mask _ | with_reducible exact even_256 _ | with_reducible exact flags_mask _ | with_reducible exact flags_or _ h5 | with_reducible exact .inl rfl | (simp; done)))
    | intro t l w ht
    | intro t l ht
    | intro t ht

theorem cmdResume_kept {s0 : State} (s : State) (r : RowId) (h0 : Kept s0 s) : Kept s0 (cmdResume s r) := by
  unfold cmdResume
  try dsimp -iota only
  repeat' first
    | with_reducible assumption
    | with_reducible apply makeReady_kept
    | with_reducible apply cmdDone_kept
    | with_reducible apply cmdIgnored_kept
    | with_reducible apply kept_ite
    | (with_reducible apply kept_foldl; intro t x ht)
    | (with_reducible apply kept_foldl_snd; intro t x ht)
    | split
    | simp only [kept_mk]
    | (with_reducible refine kept_snd (by assumption) ?_)
    | (with_reducible refine kept_snd2 (by assumption) ?_)
    | dsimp -iota only
    | dsimp only
    | decide
    | intro t l w ht
    | intro t l ht
    | intro t ht

theorem cmdSkip_kept {s0 : State} (s : State) (r : RowId) (len : Nat) (h0 : Kept s0 s) : Kept s0 (cmdSkip s r len) := by
  unfold cmdSkip
  try dsimp -iota only
  repeat' first
    | with_reducible assumption
    | with_reducible apply makeReady_kept
    | with_reducible apply setKeys_kept
    | with_reducible refine modRow_kept ?_ _ _ ?_
    | with_reducible apply cmdDone_kept
    | with_reducible apply skipEngines_kept
    | with_reducible apply cmdIgnored_kept
    | with_reducible apply kept_ite
    | (with_reducible apply kept_foldl; intro t x ht)
    | (with_reducible apply kept_foldl_snd; intro t x ht)
    | split
    | simp only [kept_mk]
    | (with_reducible refine kept_snd (by assumption) ?_)
    | (with_reducible refine kept_snd2 (by assumption) ?_)
    | dsimp -iota only
    | dsimp only
    | decide
    | (intro w hw; (try dsimp only); (repeat' split); all_goals first | with_reducible assumption | with_reducible exact rowOk_congr hw rfl rfl rfl rfl rfl rfl | (obtain ⟨h1, h2, h3, h4, h5⟩ := hw; refine ⟨?_, ?_, ?_, ?_, ?_⟩ <;> (try dsimp only) <;> first | with_reducible assumption | with_reducible exact even_mask _ | with_reducible exact even_256 _ | with_reducible exact flags_mask _ | with_reducible exact flags_or _ h5 | with_reducible exact .inl rfl | (simp; done)))
    | intro t l w ht
    | intro t l ht
    | intro t ht

theorem storeCtl_kept {s0 : State} (s : State) (r : RowId) (v : Word) (priv : Bool) (len : Nat) (h0 : Kept s0 s) : Kept s0 (storeCtl s r v priv len) := by
  unfold storeCtl
  try dsimp -iota only
  repeat' first
    | with_reducible assumption
    | with_reducible refine modRow_kept ?_ _ _ ?_
    | with_reducible apply cmdKindle_kept
    | with_reducible apply cmdStop_kept
    | with_reducible apply cmdRedirect_kept
    | with_reducible apply cmdStep_kept
    | with_reducible apply cmdResume_kept
    | with_reducible apply cmdSkip_kept
    | with_reducible apply cmdIgnored_kept
    | with_reducible apply kept_ite
    | (with_reducible apply kept_foldl; intro t x ht)
    | (with_reducible apply kept_foldl_snd; intro t x ht)
    | split
    | simp only [kept_mk]
    | (with_reducible refine kept_snd (by assumption) ?_)
    | (with_reducible refine kept_snd2 (by assumption) ?_)
    | dsimp -iota only
    | dsimp only
    | decide
    | (intro w hw; (try dsimp only); (repeat' split); all_goals first | with_reducible assumption | with_reducible exact rowOk_congr hw rfl rfl rfl rfl rfl rfl | (obtain ⟨h1, h2, h3, h4, h5⟩ := hw; refine ⟨?_, ?_, ?_, ?_, ?_⟩ <;> (try dsimp only) <;> first | with_reducible assumption | with_reducible exact even_mask _ | with_reducible exact even_256 _ | with_reducible exact flags_mask _ | with_reducible exact flags_or _ h5 | with_reducible exact .inl rfl | (simp; done)))
    | intro t l w ht
    | intro t l ht
    | intro t ht

theorem actPend_kept {s0 : State} (s : State) (r : RowId) (h0 : Kept s0 s) : Kept s0 (actPend s r) := by
  unfold actPend
  try dsimp -iota only
  repeat' first
    | with_reducible assumption
    | with_reducible apply storeCtl_kept
    | with_reducible refine modRow_kept ?_ _ _ ?_
    | with_reducible apply kept_ite
    | (with_reducible apply kept_foldl; intro t x ht)
    | (with_reducible apply kept_foldl_snd; intro t x ht)
    | split
    | simp only [kept_mk]
    | (with_reducible refine kept_snd (by assumption) ?_)
    | (with_reducible refine kept_snd2 (by assumption) ?_)
    | dsimp -iota only
    | dsimp only
    | decide
    | (intro w hw; (try dsimp only); (repeat' split); all_goals first | with_reducible assumption | with_reducible exact rowOk_congr hw rfl rfl rfl rfl rfl rfl | (obtain ⟨h1, h2, h3, h4, h5⟩ := hw; refine ⟨?_, ?_, ?_, ?_, ?_⟩ <;> (try dsimp only) <;> first | with_reducible assumption | with_reducible exact even_mask _ | with_reducible exact even_256 _ | with_reducible exact flags_mask _ | with_reducible exact flags_or _ h5 | with_reducible exact .inl rfl | (simp; done)))
    | intro t l w ht
    | intro t l ht
    | intro t ht

theorem scratchWake_kept {s0 : State} (s : State) (r : RowId) (off : Nat) (n : Nat) (h0 : Kept s0 s) : Kept s0 (scratchWake s r off n) := by
  unfold scratchWake
  try dsimp -iota only
  repeat' first
    | with_reducible assumption
    | with_reducible apply wake_kept
    | with_reducible apply kept_ite
    | (with_reducible apply kept_foldl; intro t x ht)
    | (with_reducible apply kept_foldl_snd; intro t x ht)
    | split
    | simp only [kept_mk]
    | (with_reducible refine kept_snd (by assumption) ?_)
    | (with_reducible refine kept_snd2 (by assumption) ?_)
    | dsimp -iota only
    | dsimp only
    | decide
    | intro t l w ht
    | intro t l ht
    | intro t ht

theorem nextRec_kept {s0 : State} (s : State) (core : Nat) (h0 : Kept s0 s) : Kept s0 (nextRec s core) := by
  unfold nextRec
  try dsimp -iota only
  repeat' first
    | with_reducible assumption
    | with_reducible apply modCore_kept
    | with_reducible apply kept_ite
    | (with_reducible apply kept_foldl; intro t x ht)
    | (with_reducible apply kept_foldl_snd; intro t x ht)
    | split
    | simp only [kept_mk]
    | (with_reducible refine kept_snd (by assumption) ?_)
    | (with_reducible refine kept_snd2 (by assumption) ?_)
    | dsimp -iota only
    | dsimp only
    | decide
    | intro t l w ht
    | intro t l ht
    | intro t ht

theorem sendSupervisor_kept {s0 : State} (s : State) (core : Nat) (rec : List Word) (h0 : Kept s0 s) : Kept s0 (sendSupervisor s core rec) := by
  unfold sendSupervisor
  try dsimp -iota only
  repeat' first
    | with_reducible assumption
    | with_reducible apply nextRec_kept
    | with_reducible apply kept_ite
    | (with_reducible apply kept_foldl; intro t x ht)
    | (with_reducible apply kept_foldl_snd; intro t x ht)
    | split
    | simp only [kept_mk]
    | (with_reducible refine kept_snd (by assumption) ?_)
    | (with_reducible refine kept_snd2 (by assumption) ?_)
    | dsimp -iota only
    | dsimp only
    | decide
    | intro t l w ht
    | intro t l ht
    | intro t ht

theorem dirStart_kept {s0 : State} (s : State) (pa : Nat) (h0 : Kept s0 s) : Kept s0 (dirStart s pa).2 := by
  unfold dirStart
  try dsimp -iota only
  repeat' first
    | with_reducible assumption
    | with_reducible apply modDie_kept
    | with_reducible apply kept_ite
    | (with_reducible apply kept_foldl; intro t x ht)
    | (with_reducible apply kept_foldl_snd; intro t x ht)
    | split
    | simp only [kept_mk]
    | (with_reducible refine kept_snd (by assumption) ?_)
    | (with_reducible refine kept_snd2 (by assumption) ?_)
    | dsimp -iota only
    | dsimp only
    | decide
    | intro t l w ht
    | intro t l ht
    | intro t ht

theorem queueFault_kept {s0 : State} (s : State) (r : RowId) (h0 : Kept s0 s) : Kept s0 (queueFault s r) := by
  unfold queueFault
  try dsimp -iota only
  repeat' first
    | with_reducible assumption
    | with_reducible apply modCore_kept
    | with_reducible apply kept_ite
    | (with_reducible apply kept_foldl; intro t x ht)
    | (with_reducible apply kept_foldl_snd; intro t x ht)
    | split
    | simp only [kept_mk]
    | (with_reducible refine kept_snd (by assumption) ?_)
    | (with_reducible refine kept_snd2 (by assumption) ?_)
    | dsimp -iota only
    | dsimp only
    | decide
    | intro t l w ht
    | intro t l ht
    | intro t ht

theorem deliver_kept {s0 : State} (s : State) (r : RowId) (cause : Nat) (h0 : Kept s0 s) : Kept s0 (deliver s r cause) := by
  unfold deliver
  try dsimp -iota only
  repeat' first
    | with_reducible assumption
    | with_reducible apply sendSupervisor_kept
    | with_reducible apply queueFault_kept
    | with_reducible apply kept_ite
    | (with_reducible apply kept_foldl; intro t x ht)
    | (with_reducible apply kept_foldl_snd; intro t x ht)
    | split
    | simp only [kept_mk]
    | (with_reducible refine kept_snd (by assumption) ?_)
    | (with_reducible refine kept_snd2 (by assumption) ?_)
    | dsimp -iota only
    | dsimp only
    | decide
    | intro t l w ht
    | intro t l ht
    | intro t ht

theorem sendFlue_kept {s0 : State} (s : State) (r : RowId) (t : Trap) (h0 : Kept s0 s) : Kept s0 (sendFlue s r t) := by
  unfold sendFlue
  try dsimp -iota only
  repeat' first
    | with_reducible assumption
    | with_reducible apply kept_ite
    | (with_reducible apply kept_foldl; intro t x ht)
    | (with_reducible apply kept_foldl_snd; intro t x ht)
    | split
    | simp only [kept_mk]
    | (with_reducible refine kept_snd (by assumption) ?_)
    | (with_reducible refine kept_snd2 (by assumption) ?_)
    | dsimp -iota only
    | dsimp only
    | decide
    | intro t l w ht
    | intro t l ht
    | intro t ht

theorem walkWaits_kept {s0 : State} (s : State) (t : Trap) (h0 : Kept s0 s) : Kept s0 (walkWaits s t) := by
  unfold walkWaits
  try dsimp -iota only
  repeat' first
    | with_reducible assumption
    | with_reducible apply dirStart_kept
    | with_reducible apply kept_ite
    | (with_reducible apply kept_foldl; intro t x ht)
    | (with_reducible apply kept_foldl_snd; intro t x ht)
    | split
    | simp only [kept_mk]
    | (with_reducible refine kept_snd (by assumption) ?_)
    | (with_reducible refine kept_snd2 (by assumption) ?_)
    | dsimp -iota only
    | dsimp only
    | decide
    | intro t l w ht
    | intro t l ht
    | intro t ht

theorem fault_kept {s0 : State} (s : State) (r : RowId) (t : Trap) (rstep : Nat) (h0 : Kept s0 s) : Kept s0 (fault s r t rstep) := by
  unfold fault
  try dsimp -iota only
  repeat' first
    | with_reducible assumption
    | with_reducible apply leave_kept
    | with_reducible refine modRow_kept ?_ _ _ ?_
    | with_reducible apply sendFlue_kept
    | with_reducible apply actPend_kept
    | with_reducible apply deliver_kept
    | with_reducible apply kept_ite
    | (with_reducible apply kept_foldl; intro t x ht)
    | (with_reducible apply kept_foldl_snd; intro t x ht)
    | split
    | simp only [kept_mk]
    | (with_reducible refine kept_snd (by assumption) ?_)
    | (with_reducible refine kept_snd2 (by assumption) ?_)
    | dsimp -iota only
    | dsimp only
    | decide
    | (intro w hw; (try dsimp only); (repeat' split); all_goals first | with_reducible assumption | with_reducible exact rowOk_congr hw rfl rfl rfl rfl rfl rfl | (obtain ⟨h1, h2, h3, h4, h5⟩ := hw; refine ⟨?_, ?_, ?_, ?_, ?_⟩ <;> (try dsimp only) <;> first | with_reducible assumption | with_reducible exact even_mask _ | with_reducible exact even_256 _ | with_reducible exact flags_mask _ | with_reducible exact flags_or _ h5 | with_reducible exact .inl rfl | (simp; done)))
    | intro t l w ht
    | intro t l ht
    | intro t ht

theorem raise_kept {s0 : State} (s : State) (r : RowId) (t : Trap) (rstep : Nat) (h0 : Kept s0 s) : Kept s0 (raise s r t rstep) := by
  unfold raise
  try dsimp -iota only
  repeat' first
    | with_reducible assumption
    | with_reducible apply walkWaits_kept
    | with_reducible apply fault_kept
    | with_reducible apply kept_ite
    | (with_reducible apply kept_foldl; intro t x ht)
    | (with_reducible apply kept_foldl_snd; intro t x ht)
    | split
    | simp only [kept_mk]
    | (with_reducible refine kept_snd (by assumption) ?_)
    | (with_reducible refine kept_snd2 (by assumption) ?_)
    | dsimp -iota only
    | dsimp only
    | decide
    | intro t l w ht
    | intro t l ht
    | intro t ht

theorem flueClear_kept {s0 : State} (s : State) (r : RowId) (go : Bool) (h0 : Kept s0 s) : Kept s0 (flueClear s r go) := by
  unfold flueClear
  try dsimp -iota only
  repeat' first
    | with_reducible assumption
    | with_reducible refine modRow_kept ?_ _ _ ?_
    | with_reducible apply makeReady_kept
    | with_reducible apply kept_ite
    | (with_reducible apply kept_foldl; intro t x ht)
    | (with_reducible apply kept_foldl_snd; intro t x ht)
    | split
    | simp only [kept_mk]
    | (with_reducible refine kept_snd (by assumption) ?_)
    | (with_reducible refine kept_snd2 (by assumption) ?_)
    | dsimp -iota only
    | dsimp only
    | decide
    | (intro w hw; (try dsimp only); (repeat' split); all_goals first | with_reducible assumption | with_reducible exact rowOk_congr hw rfl rfl rfl rfl rfl rfl | (obtain ⟨h1, h2, h3, h4, h5⟩ := hw; refine ⟨?_, ?_, ?_, ?_, ?_⟩ <;> (try dsimp only) <;> first | with_reducible assumption | with_reducible exact even_mask _ | with_reducible exact even_256 _ | with_reducible exact flags_mask _ | with_reducible exact flags_or _ h5 | with_reducible exact .inl rfl | (simp; done)))
    | intro t l w ht
    | intro t l ht
    | intro t ht

theorem flueRefuse_kept {s0 : State} (s : State) (r : RowId) (h0 : Kept s0 s) : Kept s0 (flueRefuse s r) := by
  unfold flueRefuse
  try dsimp -iota only
  repeat' first
    | with_reducible assumption
    | with_reducible refine modRow_kept ?_ _ _ ?_
    | with_reducible apply deliver_kept
    | with_reducible apply kept_ite
    | (with_reducible apply kept_foldl; intro t x ht)
    | (with_reducible apply kept_foldl_snd; intro t x ht)
    | split
    | simp only [kept_mk]
    | (with_reducible refine kept_snd (by assumption) ?_)
    | (with_reducible refine kept_snd2 (by assumption) ?_)
    | dsimp -iota only
    | dsimp only
    | decide
    | (intro w hw; (try dsimp only); (repeat' split); all_goals first | with_reducible assumption | with_reducible exact rowOk_congr hw rfl rfl rfl rfl rfl rfl | (obtain ⟨h1, h2, h3, h4, h5⟩ := hw; refine ⟨?_, ?_, ?_, ?_, ?_⟩ <;> (try dsimp only) <;> first | with_reducible assumption | with_reducible exact even_mask _ | with_reducible exact even_256 _ | with_reducible exact flags_mask _ | with_reducible exact flags_or _ h5 | with_reducible exact .inl rfl | (simp; done)))
    | intro t l w ht
    | intro t l ht
    | intro t ht

theorem retireTo_kept {s0 : State} (s : State) (r : RowId) (next : Word) (h0 : Kept s0 s) : Kept s0 (retireTo s r next) := by
  unfold retireTo
  try dsimp -iota only
  repeat' first
    | with_reducible assumption
    | with_reducible apply bump_kept
    | with_reducible refine modRow_kept ?_ _ _ ?_
    | with_reducible apply actPend_kept
    | with_reducible apply makeStopped_kept
    | with_reducible apply kept_ite
    | (with_reducible apply kept_foldl; intro t x ht)
    | (with_reducible apply kept_foldl_snd; intro t x ht)
    | split
    | simp only [kept_mk]
    | (with_reducible refine kept_snd (by assumption) ?_)
    | (with_reducible refine kept_snd2 (by assumption) ?_)
    | dsimp -iota only
    | dsimp only
    | decide
    | (intro w hw; (try dsimp only); (repeat' split); all_goals first | with_reducible assumption | with_reducible exact rowOk_congr hw rfl rfl rfl rfl rfl rfl | (obtain ⟨h1, h2, h3, h4, h5⟩ := hw; refine ⟨?_, ?_, ?_, ?_, ?_⟩ <;> (try dsimp only) <;> first | with_reducible assumption | with_reducible exact even_mask _ | with_reducible exact even_256 _ | with_reducible exact flags_mask _ | with_reducible exact flags_or _ h5 | with_reducible exact .inl rfl | (simp; done)))
    | intro t l w ht
    | intro t l ht
    | intro t ht

theorem retire_kept {s0 : State} (s : State) (r : RowId) (n : Nat) (h0 : Kept s0 s) : Kept s0 (retire s r n) := by
  unfold retire
  try dsimp -iota only
  repeat' first
    | with_reducible assumption
    | with_reducible apply retireTo_kept
    | with_reducible apply kept_ite
    | (with_reducible apply kept_foldl; intro t x ht)
    | (with_reducible apply kept_foldl_snd; intro t x ht)
    | split
    | simp only [kept_mk]
    | (with_reducible refine kept_snd (by assumption) ?_)
    | (with_reducible refine kept_snd2 (by assumption) ?_)
    | dsimp -iota only
    | dsimp only
    | decide
    | intro t l w ht
    | intro t l ht
    | intro t ht

theorem orFlags_kept {s0 : State} (s : State) (r : RowId) (fl : FFlags) (h0 : Kept s0 s) : Kept s0 (orFlags s r fl) := by
  unfold orFlags
  try dsimp -iota only
  repeat' first
    | with_reducible assumption
    | with_reducible refine modRow_kept ?_ _ _ ?_
    | with_reducible apply kept_ite
    | (with_reducible apply kept_foldl; intro t x ht)
    | (with_reducible apply kept_foldl_snd; intro t x ht)
    | split
    | simp only [kept_mk]
    | (with_reducible refine kept_snd (by assumption) ?_)
    | (with_reducible refine kept_snd2 (by assumption) ?_)
    | dsimp -iota only
    | dsimp only
    | decide
    | (intro w hw; (try dsimp only); (repeat' split); all_goals first | with_reducible assumption | with_reducible exact rowOk_congr hw rfl rfl rfl rfl rfl rfl | (obtain ⟨h1, h2, h3, h4, h5⟩ := hw; refine ⟨?_, ?_, ?_, ?_, ?_⟩ <;> (try dsimp only) <;> first | with_reducible assumption | with_reducible exact even_mask _ | with_reducible exact even_256 _ | with_reducible exact flags_mask _ | with_reducible exact flags_or _ h5 | with_reducible exact .inl rfl | (simp; done)))
    | intro t l w ht
    | intro t l ht
    | intro t ht

theorem block_kept {s0 : State} (s : State) (r : RowId) (w : Nat) (h0 : Kept s0 s) : Kept s0 (block s r w) := by
  unfold block
  try dsimp -iota only
  repeat' first
    | with_reducible assumption
    | with_reducible apply actPend_kept
    | with_reducible apply bump_kept
    | with_reducible apply leave_kept
    | with_reducible refine modRow_kept ?_ _ _ ?_
    | with_reducible apply kept_ite
    | (with_reducible apply kept_foldl; intro t x ht)
    | (with_reducible apply kept_foldl_snd; intro t x ht)
    | split
    | simp only [kept_mk]
    | (with_reducible refine kept_snd (by assumption) ?_)
    | (with_reducible refine kept_snd2 (by assumption) ?_)
    | dsimp -iota only
    | dsimp only
    | decide
    | (intro w hw; (try dsimp only); (repeat' split); all_goals first | with_reducible assumption | with_reducible exact rowOk_congr hw rfl rfl rfl rfl rfl rfl | (obtain ⟨h1, h2, h3, h4, h5⟩ := hw; refine ⟨?_, ?_, ?_, ?_, ?_⟩ <;> (try dsimp only) <;> first | with_reducible assumption | with_reducible exact even_mask _ | with_reducible exact even_256 _ | with_reducible exact flags_mask _ | with_reducible exact flags_or _ h5 | with_reducible exact .inl rfl | (simp; done)))
    | intro t l w ht
    | intro t l ht
    | intro t ht

theorem waitFor_kept {s0 : State} (s : State) (r : RowId) (why : Nat) (aw : Option (Nat × Bool)) (h0 : Kept s0 s) (hy : why ∈ [5, 6, 7]) : Kept s0 (waitFor s r why aw) := by
  unfold waitFor
  try dsimp -iota only
  repeat' first
    | with_reducible assumption
    | with_reducible apply leave_kept
    | with_reducible refine modRow_kept ?_ _ _ ?_
    | with_reducible apply kept_ite
    | (with_reducible apply kept_foldl; intro t x ht)
    | (with_reducible apply kept_foldl_snd; intro t x ht)
    | split
    | simp only [kept_mk]
    | (with_reducible refine kept_snd (by assumption) ?_)
    | (with_reducible refine kept_snd2 (by assumption) ?_)
    | dsimp -iota only
    | dsimp only
    | decide
    | (intro w hw; (try dsimp only); (repeat' split); all_goals first | with_reducible assumption | with_reducible exact rowOk_congr hw rfl rfl rfl rfl rfl rfl | (obtain ⟨h1, h2, h3, h4, h5⟩ := hw; refine ⟨?_, ?_, ?_, ?_, ?_⟩ <;> (try dsimp only) <;> first | with_reducible assumption | with_reducible exact even_mask _ | with_reducible exact even_256 _ | with_reducible exact flags_mask _ | with_reducible exact flags_or _ h5 | with_reducible exact .inl rfl | (simp; done)))
    | intro t l w ht
    | intro t l ht
    | intro t ht

end Sys2Proof.Machine
end

