-- ==== Sys2Proof/Laws/KeptL2.lean ====
section
/-! SUPPORT. The operations of Machine/L2.lean keep canonical memory and legal control blocks (Kept.lean). -/

namespace Sys2Proof.Machine

set_option linter.all false

theorem tagWrite_kept {s0 : State} (s : State) (pa : Nat) (bs : List Byte) (h0 : Kept s0 s) : Kept s0 (tagWrite s pa bs) :=
  kept_congr rfl rfl rfl (memWrite_kept h0 pa bs)

theorem countUnc_kept {s0 : State} (s : State) (die : Nat) (k : Nat) (unit : Nat) (h0 : Kept s0 s) : Kept s0 (countUnc s die k unit) := by
  unfold countUnc
  try dsimp -iota only
  repeat' first
    | with_reducible assumption
    | with_reducible apply modDie_kept
    | with_reducible apply kept_ite
    | (with_reducible apply kept_foldl; intro t x ht)
    | (with_reducible apply kept_foldl_snd; intro t x ht)
    | split
    | simp only [kept_mk]
    | (with_reducible refine kept_snd (by assumption) ?_)
    | (with_reducible refine kept_snd2 (by assumption) ?_)
    | dsimp -iota only
    | dsimp only
    | decide
    | intro t l w ht
    | intro t l ht
    | intro t ht

theorem meetError_kept {s0 : State} (s : State) (pl : Nat) (h0 : Kept s0 s) : Kept s0 (meetError s pl) := by
  unfold meetError
  try dsimp -iota only
  repeat' first
    | with_reducible assumption
    | with_reducible apply countUnc_kept
    | with_reducible apply kept_ite
    | (with_reducible apply kept_foldl; intro t x ht)
    | (with_reducible apply kept_foldl_snd; intro t x ht)
    | split
    | simp only [kept_mk]
    | (with_reducible refine kept_snd (by assumption) ?_)
    | (with_reducible refine kept_snd2 (by assumption) ?_)
    | dsimp -iota only
    | dsimp only
    | decide
    | intro t l w ht
    | intro t l ht
    | intro t ht

theorem writeBack_kept {s0 : State} (s : State) (x : Line) (h0 : Kept s0 s) : Kept s0 (writeBack s x) := by
  unfold writeBack
  try dsimp -iota only
  repeat' first
    | with_reducible assumption
    | with_reducible apply meetError_kept
    | with_reducible apply unpoison_kept
    | with_reducible apply memWrite_kept
    | with_reducible apply kept_ite
    | (with_reducible apply kept_foldl; intro t x ht)
    | (with_reducible apply kept_foldl_snd; intro t x ht)
    | split
    | simp only [kept_mk]
    | (with_reducible refine kept_snd (by assumption) ?_)
    | (with_reducible refine kept_snd2 (by assumption) ?_)
    | dsimp -iota only
    | dsimp only
    | decide
    | intro t l w ht
    | intro t l ht
    | intro t ht

theorem evictAt_kept {s0 : State} (s : State) (i : Nat) (h0 : Kept s0 s) : Kept s0 (evictAt s i) := by
  unfold evictAt
  try dsimp -iota only
  repeat' first
    | with_reducible assumption
    | with_reducible apply writeBack_kept
    | with_reducible apply kept_ite
    | (with_reducible apply kept_foldl; intro t x ht)
    | (with_reducible apply kept_foldl_snd; intro t x ht)
    | split
    | simp only [kept_mk]
    | (with_reducible refine kept_snd (by assumption) ?_)
    | (with_reducible refine kept_snd2 (by assumption) ?_)
    | dsimp -iota only
    | dsimp only
    | decide
    | intro t l w ht
    | intro t l ht
    | intro t ht

theorem makeRoom_kept {s0 : State} (s : State) (slice : Nat) (need : Nat) (fuel : Nat) (h0 : Kept s0 s) : Kept s0 (makeRoom s slice need fuel) := by
  induction fuel generalizing s with
  | zero => exact h0
  | succ n ih =>
    unfold makeRoom
    split
    · exact h0
    · split
      · exact ih _ (evictAt_kept _ _ h0)
      · exact h0

theorem cleanWhere_kept {s0 : State} (s : State) (p : Line → Bool) (h0 : Kept s0 s) : Kept s0 (cleanWhere s p) := by
  unfold cleanWhere
  try dsimp -iota only
  repeat' first
    | with_reducible assumption
    | with_reducible apply writeBack_kept
    | with_reducible apply kept_ite
    | (with_reducible apply kept_foldl; intro t x ht)
    | (with_reducible apply kept_foldl_snd; intro t x ht)
    | split
    | simp only [kept_mk]
    | (with_reducible refine kept_snd (by assumption) ?_)
    | (with_reducible refine kept_snd2 (by assumption) ?_)
    | dsimp -iota only
    | dsimp only
    | decide
    | intro t l w ht
    | intro t l ht
    | intro t ht

theorem dropWhere_kept {s0 : State} (s : State) (p : Line → Bool) (h0 : Kept s0 s) : Kept s0 (dropWhere s p) := by
  unfold dropWhere
  try dsimp -iota only
  repeat' first
    | with_reducible assumption
    | with_reducible apply kept_ite
    | (with_reducible apply kept_foldl; intro t x ht)
    | (with_reducible apply kept_foldl_snd; intro t x ht)
    | split
    | simp only [kept_mk]
    | (with_reducible refine kept_snd (by assumption) ?_)
    | (with_reducible refine kept_snd2 (by assumption) ?_)
    | dsimp -iota only
    | dsimp only
    | decide
    | intro t l w ht
    | intro t l ht
    | intro t ht

theorem flushWhere_kept {s0 : State} (s : State) (p : Line → Bool) (h0 : Kept s0 s) : Kept s0 (flushWhere s p) := by
  unfold flushWhere
  try dsimp -iota only
  repeat' first
    | with_reducible assumption
    | with_reducible apply dropWhere_kept
    | with_reducible apply cleanWhere_kept
    | with_reducible apply kept_ite
    | (with_reducible apply kept_foldl; intro t x ht)
    | (with_reducible apply kept_foldl_snd; intro t x ht)
    | split
    | simp only [kept_mk]
    | (with_reducible refine kept_snd (by assumption) ?_)
    | (with_reducible refine kept_snd2 (by assumption) ?_)
    | dsimp -iota only
    | dsimp only
    | decide
    | intro t l w ht
    | intro t l ht
    | intro t ht

theorem gddrWrite_kept {s0 : State} (s : State) (pa : Nat) (bs : List Byte) (h0 : Kept s0 s) : Kept s0 (gddrWrite s pa bs) := by
  unfold gddrWrite
  try dsimp -iota only
  repeat' first
    | with_reducible assumption
    | with_reducible apply unpoison_kept
    | with_reducible apply memWrite_kept
    | with_reducible apply kept_ite
    | (with_reducible apply kept_foldl; intro t x ht)
    | (with_reducible apply kept_foldl_snd; intro t x ht)
    | split
    | simp only [kept_mk]
    | (with_reducible refine kept_snd (by assumption) ?_)
    | (with_reducible refine kept_snd2 (by assumption) ?_)
    | dsimp -iota only
    | dsimp only
    | decide
    | intro t l w ht
    | intro t l ht
    | intro t ht

theorem install_kept {s0 : State} (s : State) (die : Nat) (phys : Bool) (guest : Bool) (dirty : Bool) (p : Part) (data : List Byte) (h0 : Kept s0 s) : Kept s0 (install s die phys guest dirty p data) := by
  unfold install
  try dsimp -iota only
  repeat' first
    | with_reducible assumption
    | with_reducible apply makeRoom_kept
    | with_reducible apply kept_ite
    | (with_reducible apply kept_foldl; intro t x ht)
    | (with_reducible apply kept_foldl_snd; intro t x ht)
    | split
    | simp only [kept_mk]
    | (with_reducible refine kept_snd (by assumption) ?_)
    | (with_reducible refine kept_snd2 (by assumption) ?_)
    | dsimp -iota only
    | dsimp only
    | decide
    | intro t l w ht
    | intro t l ht
    | intro t ht

theorem writeLine_kept {s0 : State} (s : State) (i : Nat) (off : Nat) (bs : List Byte) (dirty : Bool) (h0 : Kept s0 s) : Kept s0 (writeLine s i off bs dirty) := by
  unfold writeLine
  try dsimp -iota only
  repeat' first
    | with_reducible assumption
    | with_reducible apply makeRoom_kept
    | with_reducible apply kept_ite
    | (with_reducible apply kept_foldl; intro t x ht)
    | (with_reducible apply kept_foldl_snd; intro t x ht)
    | split
    | simp only [kept_mk]
    | (with_reducible refine kept_snd (by assumption) ?_)
    | (with_reducible refine kept_snd2 (by assumption) ?_)
    | dsimp -iota only
    | dsimp only
    | decide
    | intro t l w ht
    | intro t l ht
    | intro t ht

theorem hostCoherent_kept {s0 : State} (s : State) (die : Nat) (wr : Bool) (p : Part) (h0 : Kept s0 s) : Kept s0 (hostCoherent s die wr p) := by
  unfold hostCoherent
  try dsimp -iota only
  repeat' first
    | with_reducible assumption
    | with_reducible apply flushWhere_kept
    | with_reducible apply cleanWhere_kept
    | with_reducible apply kept_ite
    | (with_reducible apply kept_foldl; intro t x ht)
    | (with_reducible apply kept_foldl_snd; intro t x ht)
    | split
    | simp only [kept_mk]
    | (with_reducible refine kept_snd (by assumption) ?_)
    | (with_reducible refine kept_snd2 (by assumption) ?_)
    | dsimp -iota only
    | dsimp only
    | decide
    | intro t l w ht
    | intro t l ht
    | intro t ht

theorem dirGuard_kept {s0 : State} (s : State) (pa : Nat) (h0 : Kept s0 s) : Kept s0 (dirGuard s pa).2 := by
  unfold dirGuard
  try dsimp -iota only
  repeat' first
    | with_reducible assumption
    | with_reducible apply dirStart_kept
    | with_reducible apply kept_ite
    | (with_reducible apply kept_foldl; intro t x ht)
    | (with_reducible apply kept_foldl_snd; intro t x ht)
    | split
    | simp only [kept_mk]
    | (with_reducible refine kept_snd (by assumption) ?_)
    | (with_reducible refine kept_snd2 (by assumption) ?_)
    | dsimp -iota only
    | dsimp only
    | decide
    | intro t l w ht
    | intro t l ht
    | intro t ht

theorem directRead_kept {s0 : State} (s : State) (p : Part) (h0 : Kept s0 s) : Kept s0 (directRead s p).2 := by
  unfold directRead
  try dsimp -iota only
  repeat' first
    | with_reducible assumption
    | with_reducible apply flushWhere_kept
    | with_reducible apply kept_ite
    | (with_reducible apply kept_foldl; intro t x ht)
    | (with_reducible apply kept_foldl_snd; intro t x ht)
    | split
    | simp only [kept_mk]
    | (with_reducible refine kept_snd (by assumption) ?_)
    | (with_reducible refine kept_snd2 (by assumption) ?_)
    | dsimp -iota only
    | dsimp only
    | decide
    | intro t l w ht
    | intro t l ht
    | intro t ht

theorem directWrite_kept {s0 : State} (s : State) (p : Part) (bs : List Byte) (h0 : Kept s0 s) : Kept s0 (directWrite s p bs) := by
  unfold directWrite
  try dsimp -iota only
  repeat' first
    | with_reducible assumption
    | with_reducible apply flushWhere_kept
    | with_reducible apply gddrWrite_kept
    | with_reducible apply memWrite_kept
    | with_reducible apply kept_ite
    | (with_reducible apply kept_foldl; intro t x ht)
    | (with_reducible apply kept_foldl_snd; intro t x ht)
    | split
    | simp only [kept_mk]
    | (with_reducible refine kept_snd (by assumption) ?_)
    | (with_reducible refine kept_snd2 (by assumption) ?_)
    | dsimp -iota only
    | dsimp only
    | decide
    | intro t l w ht
    | intro t l ht
    | intro t ht

theorem cacheRead_kept {s0 : State} (s : State) (die : Nat) (nt : Bool) (p : Part) (h0 : Kept s0 s) : Kept s0 (cacheRead s die nt p).2 := by
  unfold cacheRead
  try dsimp -iota only
  repeat' first
    | with_reducible assumption
    | with_reducible apply dirGuard_kept
    | with_reducible apply directRead_kept
    | with_reducible apply hostCoherent_kept
    | with_reducible apply install_kept
    | with_reducible apply kept_ite
    | (with_reducible apply kept_foldl; intro t x ht)
    | (with_reducible apply kept_foldl_snd; intro t x ht)
    | split
    | simp only [kept_mk]
    | (with_reducible refine kept_snd (by assumption) ?_)
    | (with_reducible refine kept_snd2 (by assumption) ?_)
    | dsimp -iota only
    | dsimp only
    | decide
    | intro t l w ht
    | intro t l ht
    | intro t ht

theorem guestUpdate_kept {s0 : State} (s : State) (die : Nat) (p : Part) (bs : List Byte) (h0 : Kept s0 s) : Kept s0 (guestUpdate s die p bs) := by
  unfold guestUpdate
  try dsimp -iota only
  repeat' first
    | with_reducible assumption
    | with_reducible apply writeLine_kept
    | with_reducible apply kept_ite
    | (with_reducible apply kept_foldl; intro t x ht)
    | (with_reducible apply kept_foldl_snd; intro t x ht)
    | split
    | simp only [kept_mk]
    | (with_reducible refine kept_snd (by assumption) ?_)
    | (with_reducible refine kept_snd2 (by assumption) ?_)
    | dsimp -iota only
    | dsimp only
    | decide
    | intro t l w ht
    | intro t l ht
    | intro t ht

theorem lineWrite_kept {s0 : State} (s : State) (d : Nat) (ph : Bool) (alloc : Bool) (p : Part) (bs : List Byte) (h0 : Kept s0 s) : Kept s0 (lineWrite s d ph alloc p bs) := by
  unfold lineWrite
  try dsimp -iota only
  repeat' first
    | with_reducible assumption
    | with_reducible apply writeLine_kept
    | with_reducible apply install_kept
    | with_reducible apply gddrWrite_kept
    | with_reducible apply kept_ite
    | (with_reducible apply kept_foldl; intro t x ht)
    | (with_reducible apply kept_foldl_snd; intro t x ht)
    | split
    | simp only [kept_mk]
    | (with_reducible refine kept_snd (by assumption) ?_)
    | (with_reducible refine kept_snd2 (by assumption) ?_)
    | dsimp -iota only
    | dsimp only
    | decide
    | intro t l w ht
    | intro t l ht
    | intro t ht

theorem modQ_kept {s0 : State} (s : State) (q : Nat) (f : InQ → InQ) (h0 : Kept s0 s) : Kept s0 (modQ s q f) := by
  unfold modQ
  try dsimp -iota only
  repeat' first
    | with_reducible assumption
    | with_reducible apply kept_ite
    | (with_reducible apply kept_foldl; intro t x ht)
    | (with_reducible apply kept_foldl_snd; intro t x ht)
    | split
    | simp only [kept_mk]
    | (with_reducible refine kept_snd (by assumption) ?_)
    | (with_reducible refine kept_snd2 (by assumption) ?_)
    | dsimp -iota only
    | dsimp only
    | decide
    | intro t l w ht
    | intro t l ht
    | intro t ht

theorem notify_kept {s0 : State} (s : State) (q : Nat) (t : Nat) (h0 : Kept s0 s) : Kept s0 (notify s q t) := by
  unfold notify
  try dsimp -iota only
  repeat' first
    | with_reducible assumption
    | with_reducible apply modQ_kept
    | with_reducible apply kept_ite
    | (with_reducible apply kept_foldl; intro t x ht)
    | (with_reducible apply kept_foldl_snd; intro t x ht)
    | split
    | simp only [kept_mk]
    | (with_reducible refine kept_snd (by assumption) ?_)
    | (with_reducible refine kept_snd2 (by assumption) ?_)
    | dsimp -iota only
    | dsimp only
    | decide
    | intro t l w ht
    | intro t l ht
    | intro t ht

theorem noteStore_kept {s0 : State} (s : State) (pa : Nat) (n : Nat) (rd : State → Nat → Nat) (h0 : Kept s0 s) : Kept s0 (noteStore s pa n rd) := by
  unfold noteStore
  try dsimp -iota only
  repeat' first
    | with_reducible assumption
    | with_reducible apply notify_kept
    | with_reducible apply kept_ite
    | (with_reducible apply kept_foldl; intro t x ht)
    | (with_reducible apply kept_foldl_snd; intro t x ht)
    | split
    | simp only [kept_mk]
    | (with_reducible refine kept_snd (by assumption) ?_)
    | (with_reducible refine kept_snd2 (by assumption) ?_)
    | dsimp -iota only
    | dsimp only
    | decide
    | intro t l w ht
    | intro t l ht
    | intro t ht

theorem homePut_kept {s0 : State} (s : State) (die : Nat) (nt : Bool) (p : Part) (bs : List Byte) (h0 : Kept s0 s) : Kept s0 (homePut s die nt p bs).2 := by
  unfold homePut
  try dsimp -iota only
  repeat' first
    | with_reducible assumption
    | with_reducible apply dirGuard_kept
    | with_reducible apply directWrite_kept
    | with_reducible apply lineWrite_kept
    | with_reducible apply hostCoherent_kept
    | with_reducible apply memWrite_kept
    | with_reducible apply kept_ite
    | (with_reducible apply kept_foldl; intro t x ht)
    | (with_reducible apply kept_foldl_snd; intro t x ht)
    | split
    | simp only [kept_mk]
    | (with_reducible refine kept_snd (by assumption) ?_)
    | (with_reducible refine kept_snd2 (by assumption) ?_)
    | dsimp -iota only
    | dsimp only
    | decide
    | intro t l w ht
    | intro t l ht
    | intro t ht

theorem homeWrite_kept {s0 : State} (s : State) (die : Nat) (nt : Bool) (p : Part) (bs : List Byte) (h0 : Kept s0 s) : Kept s0 (homeWrite s die nt p bs).2 := by
  unfold homeWrite
  try dsimp -iota only
  repeat' first
    | with_reducible assumption
    | with_reducible apply homePut_kept
    | with_reducible apply noteStore_kept
    | with_reducible apply kept_ite
    | (with_reducible apply kept_foldl; intro t x ht)
    | (with_reducible apply kept_foldl_snd; intro t x ht)
    | split
    | simp only [kept_mk]
    | (with_reducible refine kept_snd (by assumption) ?_)
    | (with_reducible refine kept_snd2 (by assumption) ?_)
    | dsimp -iota only
    | dsimp only
    | decide
    | intro t l w ht
    | intro t l ht
    | intro t ht

theorem outsideRead_kept {s0 : State} (s : State) (pa : Nat) (n : Nat) (h0 : Kept s0 s) : Kept s0 (outsideRead s pa n).2 := by
  unfold outsideRead
  try dsimp -iota only
  repeat' first
    | with_reducible assumption
    | with_reducible apply cleanWhere_kept
    | with_reducible apply kept_ite
    | (with_reducible apply kept_foldl; intro t x ht)
    | (with_reducible apply kept_foldl_snd; intro t x ht)
    | split
    | simp only [kept_mk]
    | (with_reducible refine kept_snd (by assumption) ?_)
    | (with_reducible refine kept_snd2 (by assumption) ?_)
    | dsimp -iota only
    | dsimp only
    | decide
    | intro t l w ht
    | intro t l ht
    | intro t ht

theorem outsideWrite_kept {s0 : State} (s : State) (pa : Nat) (bs : List Byte) (h0 : Kept s0 s) : Kept s0 (outsideWrite s pa bs) := by
  unfold outsideWrite
  try dsimp -iota only
  repeat' first
    | with_reducible assumption
    | with_reducible apply noteStore_kept
    | with_reducible apply gddrWrite_kept
    | with_reducible apply flushWhere_kept
    | with_reducible apply kept_ite
    | (with_reducible apply kept_foldl; intro t x ht)
    | (with_reducible apply kept_foldl_snd; intro t x ht)
    | split
    | simp only [kept_mk]
    | (with_reducible refine kept_snd (by assumption) ?_)
    | (with_reducible refine kept_snd2 (by assumption) ?_)
    | dsimp -iota only
    | dsimp only
    | decide
    | intro t l w ht
    | intro t l ht
    | intro t ht

theorem compressAt_kept {s0 : State} (s : State) (i : Nat) (f : Form) (h0 : Kept s0 s) : Kept s0 (compressAt s i f) := by
  unfold compressAt
  try dsimp -iota only
  repeat' first
    | with_reducible assumption
    | with_reducible apply kept_ite
    | (with_reducible apply kept_foldl; intro t x ht)
    | (with_reducible apply kept_foldl_snd; intro t x ht)
    | split
    | simp only [kept_mk]
    | (with_reducible refine kept_snd (by assumption) ?_)
    | (with_reducible refine kept_snd2 (by assumption) ?_)
    | dsimp -iota only
    | dsimp only
    | decide
    | intro t l w ht
    | intro t l ht
    | intro t ht

end Sys2Proof.Machine
end

