-- ==== Sys2Proof/Laws/KeptRed.lean ====
section
/-! SUPPORT. The operations of Machine/Red.lean keep canonical memory and legal control blocks (Kept.lean). -/

namespace Sys2Proof.Machine

set_option linter.all false

theorem dirForce_kept {s0 : State} (s : State) (pa : Nat) (h0 : Kept s0 s) : Kept s0 (dirForce s pa) := by
  unfold dirForce
  try dsimp -iota only
  repeat' first
    | with_reducible assumption
    | with_reducible apply dirGuard_kept
    | with_reducible apply modDie_kept
    | with_reducible apply kept_ite
    | (with_reducible apply kept_foldl; intro t x ht)
    | (with_reducible apply kept_foldl_snd; intro t x ht)
    | split
    | simp only [kept_mk]
    | (with_reducible refine kept_snd (by assumption) ?_)
    | (with_reducible refine kept_snd2 (by assumption) ?_)
    | dsimp -iota only
    | dsimp only
    | decide
    | intro t l w ht
    | intro t l ht
    | intro t ht

theorem landFlight_kept {s0 : State} (s : State) (f : Flight) (h0 : Kept s0 s) : Kept s0 (landFlight s f) := by
  unfold landFlight
  try dsimp -iota only
  repeat' first
    | with_reducible assumption
    | with_reducible apply homeWrite_kept
    | with_reducible apply dirForce_kept
    | with_reducible apply kept_ite
    | (with_reducible apply kept_foldl; intro t x ht)
    | (with_reducible apply kept_foldl_snd; intro t x ht)
    | split
    | simp only [kept_mk]
    | (with_reducible refine kept_snd (by assumption) ?_)
    | (with_reducible refine kept_snd2 (by assumption) ?_)
    | dsimp -iota only
    | dsimp only
    | decide
    | intro t l w ht
    | intro t l ht
    | intro t ht

theorem landFlights_kept {s0 : State} (s : State) (die : Nat) (p : Part) (h0 : Kept s0 s) : Kept s0 (landFlights s die p) := by
  unfold landFlights
  try dsimp -iota only
  repeat' first
    | with_reducible assumption
    | with_reducible apply landFlight_kept
    | with_reducible apply kept_ite
    | (with_reducible apply kept_foldl; intro t x ht)
    | (with_reducible apply kept_foldl_snd; intro t x ht)
    | split
    | simp only [kept_mk]
    | (with_reducible refine kept_snd (by assumption) ?_)
    | (with_reducible refine kept_snd2 (by assumption) ?_)
    | dsimp -iota only
    | dsimp only
    | decide
    | intro t l w ht
    | intro t l ht
    | intro t ht

theorem homeRead_kept {s0 : State} (s : State) (die : Nat) (p : Part) (h0 : Kept s0 s) : Kept s0 (homeRead s die p).2 := by
  unfold homeRead
  try dsimp -iota only
  repeat' first
    | with_reducible assumption
    | with_reducible apply dirForce_kept
    | with_reducible apply directRead_kept
    | with_reducible apply hostCoherent_kept
    | with_reducible apply kept_ite
    | (with_reducible apply kept_foldl; intro t x ht)
    | (with_reducible apply kept_foldl_snd; intro t x ht)
    | split
    | simp only [kept_mk]
    | (with_reducible refine kept_snd (by assumption) ?_)
    | (with_reducible refine kept_snd2 (by assumption) ?_)
    | dsimp -iota only
    | dsimp only
    | decide
    | intro t l w ht
    | intro t l ht
    | intro t ht

theorem homeOnly_kept {s0 : State} (s : State) (die : Nat) (p : Part) (bs : List Byte) (h0 : Kept s0 s) : Kept s0 (homeOnly s die p bs) := by
  unfold homeOnly
  try dsimp -iota only
  repeat' first
    | with_reducible assumption
    | with_reducible apply homeWrite_kept
    | with_reducible apply dirForce_kept
    | with_reducible apply landFlights_kept
    | with_reducible apply kept_ite
    | (with_reducible apply kept_foldl; intro t x ht)
    | (with_reducible apply kept_foldl_snd; intro t x ht)
    | split
    | simp only [kept_mk]
    | (with_reducible refine kept_snd (by assumption) ?_)
    | (with_reducible refine kept_snd2 (by assumption) ?_)
    | dsimp -iota only
    | dsimp only
    | decide
    | intro t l w ht
    | intro t l ht
    | intro t ht

theorem homeStore_kept {s0 : State} (s : State) (die : Nat) (p : Part) (bs : List Byte) (h0 : Kept s0 s) : Kept s0 (homeStore s die p bs) := by
  unfold homeStore
  try dsimp -iota only
  repeat' first
    | with_reducible assumption
    | with_reducible apply guestUpdate_kept
    | with_reducible apply homeOnly_kept
    | with_reducible apply kept_ite
    | (with_reducible apply kept_foldl; intro t x ht)
    | (with_reducible apply kept_foldl_snd; intro t x ht)
    | split
    | simp only [kept_mk]
    | (with_reducible refine kept_snd (by assumption) ?_)
    | (with_reducible refine kept_snd2 (by assumption) ?_)
    | dsimp -iota only
    | dsimp only
    | decide
    | intro t l w ht
    | intro t l ht
    | intro t ht

theorem mergeElem_kept {s0 : State} (s : State) (die : Nat) (x : RedLine) (k : Nat) (v : Nat) (h0 : Kept s0 s) : Kept s0 (mergeElem s die x k v).2 := by
  unfold mergeElem
  try dsimp -iota only
  repeat' first
    | with_reducible assumption
    | with_reducible apply homeRead_kept
    | with_reducible apply landFlights_kept
    | with_reducible apply homeStore_kept
    | with_reducible apply kept_ite
    | (with_reducible apply kept_foldl; intro t x ht)
    | (with_reducible apply kept_foldl_snd; intro t x ht)
    | split
    | simp only [kept_mk]
    | (with_reducible refine kept_snd (by assumption) ?_)
    | (with_reducible refine kept_snd2 (by assumption) ?_)
    | dsimp -iota only
    | dsimp only
    | decide
    | intro t l w ht
    | intro t l ht
    | intro t ht

theorem mergeElems_kept {s0 : State} (s : State) (die : Nat) (x : RedLine) (arg3 : List (Nat × Option Nat)) (h0 : Kept s0 s) : Kept s0 (mergeElems s die x arg3).2 := by
  induction arg3 generalizing s with
  | nil => exact h0
  | cons x xs ih =>
    obtain ⟨k, v⟩ := x
    unfold mergeElems
    dsimp only
    refine ih _ ?_
    split
    · exact mergeElem_kept _ _ _ _ _ h0
    · exact h0

theorem orMx_kept {s0 : State} (s : State) (core : Nat) (fl : FFlags) (h0 : Kept s0 s) : Kept s0 (orMx s core fl) := by
  unfold orMx
  try dsimp -iota only
  repeat' first
    | with_reducible assumption
    | with_reducible apply modCore_kept
    | with_reducible apply kept_ite
    | (with_reducible apply kept_foldl; intro t x ht)
    | (with_reducible apply kept_foldl_snd; intro t x ht)
    | split
    | simp only [kept_mk]
    | (with_reducible refine kept_snd (by assumption) ?_)
    | (with_reducible refine kept_snd2 (by assumption) ?_)
    | dsimp -iota only
    | dsimp only
    | decide
    | intro t l w ht
    | intro t l ht
    | intro t ht

theorem mergeFlags_kept {s0 : State} (s : State) (core : Nat) (who : Option RowId) (fl : FFlags) (h0 : Kept s0 s) : Kept s0 (mergeFlags s core who fl) := by
  unfold mergeFlags
  try dsimp -iota only
  repeat' first
    | with_reducible assumption
    | with_reducible apply orFlags_kept
    | with_reducible apply orMx_kept
    | with_reducible apply kept_ite
    | (with_reducible apply kept_foldl; intro t x ht)
    | (with_reducible apply kept_foldl_snd; intro t x ht)
    | split
    | simp only [kept_mk]
    | (with_reducible refine kept_snd (by assumption) ?_)
    | (with_reducible refine kept_snd2 (by assumption) ?_)
    | dsimp -iota only
    | dsimp only
    | decide
    | intro t l w ht
    | intro t l ht
    | intro t ht

theorem mergeOne_kept {s0 : State} (s : State) (core : Nat) (i : Nat) (h0 : Kept s0 s) : Kept s0 (mergeOne s core i).2 := by
  unfold mergeOne
  try dsimp -iota only
  repeat' first
    | with_reducible assumption
    | with_reducible apply modCore_kept
    | with_reducible apply mergeElems_kept
    | with_reducible apply bump_kept
    | with_reducible apply kept_ite
    | (with_reducible apply kept_foldl; intro t x ht)
    | (with_reducible apply kept_foldl_snd; intro t x ht)
    | split
    | simp only [kept_mk]
    | (with_reducible refine kept_snd (by assumption) ?_)
    | (with_reducible refine kept_snd2 (by assumption) ?_)
    | dsimp -iota only
    | dsimp only
    | decide
    | intro t l w ht
    | intro t l ht
    | intro t ht

theorem mergeAt_kept {s0 : State} (s : State) (core : Nat) (i : Nat) (who : Option RowId) (h0 : Kept s0 s) : Kept s0 (mergeAt s core i who) := by
  unfold mergeAt
  try dsimp -iota only
  repeat' first
    | with_reducible assumption
    | with_reducible apply mergeOne_kept
    | with_reducible apply mergeFlags_kept
    | with_reducible apply kept_ite
    | (with_reducible apply kept_foldl; intro t x ht)
    | (with_reducible apply kept_foldl_snd; intro t x ht)
    | split
    | simp only [kept_mk]
    | (with_reducible refine kept_snd (by assumption) ?_)
    | (with_reducible refine kept_snd2 (by assumption) ?_)
    | dsimp -iota only
    | dsimp only
    | decide
    | intro t l w ht
    | intro t l ht
    | intro t ht

theorem mergeMany_kept {s0 : State} (s : State) (core : Nat) (p : RedLine → Bool) (fuel : Nat) (h0 : Kept s0 s) : Kept s0 (mergeMany s core p fuel).2 := by
  induction fuel generalizing s with
  | zero => first | assumption | (unfold mergeMany; assumption) | exact fun _ h => h
  | succ n ih =>
    unfold mergeMany
    try dsimp -iota only
    repeat' first
      | with_reducible assumption
      | with_reducible apply ih
      | with_reducible apply mergeOne_kept
      | with_reducible apply kept_ite
      | (with_reducible apply kept_foldl; intro t x ht)
      | (with_reducible apply kept_foldl_snd; intro t x ht)
      | split
      | simp only [kept_mk]
      | (with_reducible refine kept_snd (by assumption) ?_)
      | (with_reducible refine kept_snd2 (by assumption) ?_)
      | dsimp -iota only
      | dsimp only
      | decide
      | intro t l w ht
      | intro t l ht
      | intro t ht

theorem mergeWhere_kept {s0 : State} (s : State) (core : Nat) (who : Option RowId) (p : RedLine → Bool) (fuel : Nat) (h0 : Kept s0 s) : Kept s0 (mergeWhere s core who p fuel) := by
  unfold mergeWhere
  try dsimp -iota only
  repeat' first
    | with_reducible assumption
    | with_reducible apply mergeMany_kept
    | with_reducible apply mergeFlags_kept
    | with_reducible apply kept_ite
    | (with_reducible apply kept_foldl; intro t x ht)
    | (with_reducible apply kept_foldl_snd; intro t x ht)
    | split
    | simp only [kept_mk]
    | (with_reducible refine kept_snd (by assumption) ?_)
    | (with_reducible refine kept_snd2 (by assumption) ?_)
    | dsimp -iota only
    | dsimp only
    | decide
    | intro t l w ht
    | intro t l ht
    | intro t ht

theorem mergeCore_kept {s0 : State} (s : State) (core : Nat) (who : Option RowId) (h0 : Kept s0 s) : Kept s0 (mergeCore s core who) := by
  unfold mergeCore
  try dsimp -iota only
  repeat' first
    | with_reducible assumption
    | with_reducible apply mergeWhere_kept
    | with_reducible apply kept_ite
    | (with_reducible apply kept_foldl; intro t x ht)
    | (with_reducible apply kept_foldl_snd; intro t x ht)
    | split
    | simp only [kept_mk]
    | (with_reducible refine kept_snd (by assumption) ?_)
    | (with_reducible refine kept_snd2 (by assumption) ?_)
    | dsimp -iota only
    | dsimp only
    | decide
    | intro t l w ht
    | intro t l ht
    | intro t ht

theorem mergeCores_kept {s0 : State} (s : State) (who : Option RowId) (p : RedLine → Bool) (arg3 : List Nat) (h0 : Kept s0 s) : Kept s0 (mergeCores s who p arg3) := by
  induction arg3 generalizing s with
  | nil => exact h0
  | cons x xs ih => exact ih _ (mergeWhere_kept _ _ _ _ _ h0)

theorem mergeLine_kept {s0 : State} (s : State) (pa : Nat) (who : Option RowId) (h0 : Kept s0 s) : Kept s0 (mergeLine s pa who) := by
  unfold mergeLine
  try dsimp -iota only
  repeat' first
    | with_reducible assumption
    | with_reducible apply mergeCores_kept
    | with_reducible apply kept_ite
    | (with_reducible apply kept_foldl; intro t x ht)
    | (with_reducible apply kept_foldl_snd; intro t x ht)
    | split
    | simp only [kept_mk]
    | (with_reducible refine kept_snd (by assumption) ?_)
    | (with_reducible refine kept_snd2 (by assumption) ?_)
    | dsimp -iota only
    | dsimp only
    | decide
    | intro t l w ht
    | intro t l ht
    | intro t ht

theorem mergeCopies_kept {s0 : State} (s : State) (pa : Nat) (arg2 : List Nat) (h0 : Kept s0 s) : Kept s0 (mergeCopies s pa arg2).2 := by
  induction arg2 generalizing s with
  | nil => first | assumption | (unfold mergeCopies; assumption) | exact fun _ h => h
  | cons x xs ih =>
    unfold mergeCopies
    try dsimp -iota only
    repeat' first
      | with_reducible assumption
      | with_reducible apply ih
      | with_reducible apply mergeMany_kept
      | with_reducible apply kept_ite
      | (with_reducible apply kept_foldl; intro t x ht)
      | (with_reducible apply kept_foldl_snd; intro t x ht)
      | split
      | simp only [kept_mk]
      | (with_reducible refine kept_snd (by assumption) ?_)
      | (with_reducible refine kept_snd2 (by assumption) ?_)
      | dsimp -iota only
      | dsimp only
      | decide
      | intro t l w ht
      | intro t l ht
      | intro t ht

theorem redRoom_kept {s0 : State} (s : State) (core : Nat) (who : Option RowId) (h0 : Kept s0 s) : Kept s0 (redRoom s core who) := by
  unfold redRoom
  try dsimp -iota only
  repeat' first
    | with_reducible assumption
    | with_reducible apply bump_kept
    | with_reducible apply mergeAt_kept
    | with_reducible apply kept_ite
    | (with_reducible apply kept_foldl; intro t x ht)
    | (with_reducible apply kept_foldl_snd; intro t x ht)
    | split
    | simp only [kept_mk]
    | (with_reducible refine kept_snd (by assumption) ?_)
    | (with_reducible refine kept_snd2 (by assumption) ?_)
    | dsimp -iota only
    | dsimp only
    | decide
    | intro t l w ht
    | intro t l ht
    | intro t ht

theorem redUpdate_kept {s0 : State} (s : State) (core : Nat) (who : Option RowId) (op : Nat) (sz : Nat) (rm : RMode) (p : Part) (v : Nat) (h0 : Kept s0 s) : Kept s0 (redUpdate s core who op sz rm p v).2 := by
  unfold redUpdate
  try dsimp -iota only
  repeat' first
    | with_reducible assumption
    | with_reducible apply mergeAt_kept
    | with_reducible apply redRoom_kept
    | with_reducible apply modCore_kept
    | with_reducible apply kept_ite
    | (with_reducible apply kept_foldl; intro t x ht)
    | (with_reducible apply kept_foldl_snd; intro t x ht)
    | split
    | simp only [kept_mk]
    | (with_reducible refine kept_snd (by assumption) ?_)
    | (with_reducible refine kept_snd2 (by assumption) ?_)
    | dsimp -iota only
    | dsimp only
    | decide
    | intro t l w ht
    | intro t l ht
    | intro t ht

end Sys2Proof.Machine
end

