-- ==== Sys2Proof/Laws/KeptPower.lean ====
section
/-! SUPPORT. The operations of Machine/Power.lean keep canonical memory and legal control blocks (Kept.lean). -/

namespace Sys2Proof.Machine

set_option linter.all false

theorem clkWrite_kept {s0 : State} (s : State) (cl : Nat) (v : Word) (priv : Bool) (h0 : Kept s0 s) : Kept s0 (clkWrite s cl v priv) := by
  unfold clkWrite
  try dsimp -iota only
  repeat' first
    | with_reducible assumption
    | with_reducible apply modCl_kept
    | with_reducible apply kept_ite
    | (with_reducible apply kept_foldl; intro t x ht)
    | (with_reducible apply kept_foldl_snd; intro t x ht)
    | split
    | simp only [kept_mk]
    | (with_reducible refine kept_snd (by assumption) ?_)
    | (with_reducible refine kept_snd2 (by assumption) ?_)
    | dsimp -iota only
    | dsimp only
    | decide
    | intro t l w ht
    | intro t l ht
    | intro t ht

theorem clkDone_kept {s0 : State} (s : State) (cl : Nat) (h0 : Kept s0 s) : Kept s0 (clkDone s cl) := by
  unfold clkDone
  try dsimp -iota only
  repeat' first
    | with_reducible assumption
    | with_reducible apply modCl_kept
    | with_reducible apply kept_ite
    | (with_reducible apply kept_foldl; intro t x ht)
    | (with_reducible apply kept_foldl_snd; intro t x ht)
    | split
    | simp only [kept_mk]
    | (with_reducible refine kept_snd (by assumption) ?_)
    | (with_reducible refine kept_snd2 (by assumption) ?_)
    | dsimp -iota only
    | dsimp only
    | decide
    | intro t l w ht
    | intro t l ht
    | intro t ht

theorem budgetWrite_kept {s0 : State} (s : State) (cl : Nat) (v : Word) (priv : Bool) (h0 : Kept s0 s) : Kept s0 (budgetWrite s cl v priv) := by
  unfold budgetWrite
  try dsimp -iota only
  repeat' first
    | with_reducible assumption
    | with_reducible apply modCl_kept
    | with_reducible apply kept_ite
    | (with_reducible apply kept_foldl; intro t x ht)
    | (with_reducible apply kept_foldl_snd; intro t x ht)
    | split
    | simp only [kept_mk]
    | (with_reducible refine kept_snd (by assumption) ?_)
    | (with_reducible refine kept_snd2 (by assumption) ?_)
    | dsimp -iota only
    | dsimp only
    | decide
    | intro t l w ht
    | intro t l ht
    | intro t ht

theorem refillAt_kept {s0 : State} (s : State) (cl : Nat) (h0 : Kept s0 s) : Kept s0 (refillAt s cl) := by
  unfold refillAt
  try dsimp -iota only
  repeat' first
    | with_reducible assumption
    | with_reducible apply modCl_kept
    | with_reducible apply kept_ite
    | (with_reducible apply kept_foldl; intro t x ht)
    | (with_reducible apply kept_foldl_snd; intro t x ht)
    | split
    | simp only [kept_mk]
    | (with_reducible refine kept_snd (by assumption) ?_)
    | (with_reducible refine kept_snd2 (by assumption) ?_)
    | dsimp -iota only
    | dsimp only
    | decide
    | intro t l w ht
    | intro t l ht
    | intro t ht

theorem grantPermit_kept {s0 : State} (s : State) (cl : Nat) (h0 : Kept s0 s) : Kept s0 (grantPermit s cl).2 := by
  unfold grantPermit
  try dsimp -iota only
  repeat' first
    | with_reducible assumption
    | with_reducible apply modCl_kept
    | with_reducible apply kept_ite
    | (with_reducible apply kept_foldl; intro t x ht)
    | (with_reducible apply kept_foldl_snd; intro t x ht)
    | split
    | simp only [kept_mk]
    | (with_reducible refine kept_snd (by assumption) ?_)
    | (with_reducible refine kept_snd2 (by assumption) ?_)
    | dsimp -iota only
    | dsimp only
    | decide
    | intro t l w ht
    | intro t l ht
    | intro t ht

theorem giveEmber_kept {s0 : State} (s : State) (w : Nat) (arg2 : List Nat) (h0 : Kept s0 s) : Kept s0 (giveEmber s w arg2).2 := by
  induction arg2 generalizing s w with
  | nil => exact h0
  | cons c cs ih => exact ih _ _ (modCl_kept h0 _ _)

theorem stopEmber_kept {s0 : State} (s : State) (cl : Nat) (h0 : Kept s0 s) : Kept s0 (stopEmber s cl) :=
  modPkg_kept (modCl_kept h0 _ _) _

theorem damperStep_kept {s0 : State} (s : State) (w : DamperReading) (h0 : Kept s0 s) : Kept s0 (damperStep s w) := by
  unfold damperStep
  try dsimp -iota only
  repeat' first
    | with_reducible assumption
    | with_reducible apply modCl_kept
    | with_reducible apply giveEmber_kept
    | with_reducible apply modPkg_kept
    | with_reducible apply kept_ite
    | (with_reducible apply kept_foldl; intro t x ht)
    | (with_reducible apply kept_foldl_snd; intro t x ht)
    | split
    | simp only [kept_mk]
    | (with_reducible refine kept_snd (by assumption) ?_)
    | (with_reducible refine kept_snd2 (by assumption) ?_)
    | dsimp -iota only
    | dsimp only
    | decide
    | intro t l w ht
    | intro t l ht
    | intro t ht

theorem slopeWrite_kept {s0 : State} (s : State) (v : Word) (priv : Bool) (h0 : Kept s0 s) : Kept s0 (slopeWrite s v priv) := by
  unfold slopeWrite
  try dsimp -iota only
  repeat' first
    | with_reducible assumption
    | with_reducible apply modPkg_kept
    | with_reducible apply kept_ite
    | (with_reducible apply kept_foldl; intro t x ht)
    | (with_reducible apply kept_foldl_snd; intro t x ht)
    | split
    | simp only [kept_mk]
    | (with_reducible refine kept_snd (by assumption) ?_)
    | (with_reducible refine kept_snd2 (by assumption) ?_)
    | dsimp -iota only
    | dsimp only
    | decide
    | intro t l w ht
    | intro t l ht
    | intro t ht

theorem capWrite_kept {s0 : State} (s : State) (v : Word) (priv : Bool) (h0 : Kept s0 s) : Kept s0 (capWrite s v priv) := by
  unfold capWrite
  try dsimp -iota only
  repeat' first
    | with_reducible assumption
    | with_reducible apply modPkg_kept
    | with_reducible apply kept_ite
    | (with_reducible apply kept_foldl; intro t x ht)
    | (with_reducible apply kept_foldl_snd; intro t x ht)
    | split
    | simp only [kept_mk]
    | (with_reducible refine kept_snd (by assumption) ?_)
    | (with_reducible refine kept_snd2 (by assumption) ?_)
    | dsimp -iota only
    | dsimp only
    | decide
    | intro t l w ht
    | intro t l ht
    | intro t ht

theorem leaseEnd_kept {s0 : State} (s : State) (h0 : Kept s0 s) : Kept s0 (leaseEnd s) := by
  unfold leaseEnd
  try dsimp -iota only
  repeat' first
    | with_reducible assumption
    | with_reducible apply modPkg_kept
    | with_reducible apply kept_ite
    | (with_reducible apply kept_foldl; intro t x ht)
    | (with_reducible apply kept_foldl_snd; intro t x ht)
    | split
    | simp only [kept_mk]
    | (with_reducible refine kept_snd (by assumption) ?_)
    | (with_reducible refine kept_snd2 (by assumption) ?_)
    | dsimp -iota only
    | dsimp only
    | decide
    | intro t l w ht
    | intro t l ht
    | intro t ht

theorem safecapWrite_kept {s0 : State} (s : State) (v : Word) (priv : Bool) (h0 : Kept s0 s) : Kept s0 (safecapWrite s v priv) := by
  unfold safecapWrite
  try dsimp -iota only
  repeat' first
    | with_reducible assumption
    | with_reducible apply modPkg_kept
    | with_reducible apply kept_ite
    | (with_reducible apply kept_foldl; intro t x ht)
    | (with_reducible apply kept_foldl_snd; intro t x ht)
    | split
    | simp only [kept_mk]
    | (with_reducible refine kept_snd (by assumption) ?_)
    | (with_reducible refine kept_snd2 (by assumption) ?_)
    | dsimp -iota only
    | dsimp only
    | decide
    | intro t l w ht
    | intro t l ht
    | intro t ht

theorem thawReceive_kept {s0 : State} (s : State) (img : List Byte) (h0 : Kept s0 s) : Kept s0 (thawReceive s img) := by
  unfold thawReceive
  try dsimp -iota only
  repeat' first
    | with_reducible assumption
    | with_reducible apply modPkg_kept
    | with_reducible apply kept_ite
    | (with_reducible apply kept_foldl; intro t x ht)
    | (with_reducible apply kept_foldl_snd; intro t x ht)
    | split
    | simp only [kept_mk]
    | (with_reducible refine kept_snd (by assumption) ?_)
    | (with_reducible refine kept_snd2 (by assumption) ?_)
    | dsimp -iota only
    | dsimp only
    | decide
    | intro t l w ht
    | intro t l ht
    | intro t ht

theorem thawImage_kept {s0 : State} (s : State) (die : Nat) (base : Nat) (h0 : Kept s0 s) : Kept s0 (thawImage s die base).2 := by
  unfold thawImage
  try dsimp -iota only
  repeat' first
    | with_reducible assumption
    | with_reducible apply homeRead_kept
    | with_reducible apply kept_ite
    | (with_reducible apply kept_foldl; intro t x ht)
    | (with_reducible apply kept_foldl_snd; intro t x ht)
    | split
    | simp only [kept_mk]
    | (with_reducible refine kept_snd (by assumption) ?_)
    | (with_reducible refine kept_snd2 (by assumption) ?_)
    | dsimp -iota only
    | dsimp only
    | decide
    | intro t l w ht
    | intro t l ht
    | intro t ht

theorem thawWrite_kept {s0 : State} (s : State) (die : Nat) (v : Word) (priv : Bool) (h0 : Kept s0 s) : Kept s0 (thawWrite s die v priv) := by
  unfold thawWrite
  try dsimp -iota only
  repeat' first
    | with_reducible assumption
    | with_reducible apply thawImage_kept
    | with_reducible apply modPkg_kept
    | with_reducible apply thawReceive_kept
    | with_reducible apply kept_ite
    | (with_reducible apply kept_foldl; intro t x ht)
    | (with_reducible apply kept_foldl_snd; intro t x ht)
    | split
    | simp only [kept_mk]
    | (with_reducible refine kept_snd (by assumption) ?_)
    | (with_reducible refine kept_snd2 (by assumption) ?_)
    | dsimp -iota only
    | dsimp only
    | decide
    | intro t l w ht
    | intro t l ht
    | intro t ht

theorem thawEnd_kept {s0 : State} (s : State) (h0 : Kept s0 s) : Kept s0 (thawEnd s) := by
  unfold thawEnd
  try dsimp -iota only
  repeat' first
    | with_reducible assumption
    | with_reducible apply modPkg_kept
    | with_reducible apply kept_ite
    | (with_reducible apply kept_foldl; intro t x ht)
    | (with_reducible apply kept_foldl_snd; intro t x ht)
    | split
    | simp only [kept_mk]
    | (with_reducible refine kept_snd (by assumption) ?_)
    | (with_reducible refine kept_snd2 (by assumption) ?_)
    | dsimp -iota only
    | dsimp only
    | decide
    | intro t l w ht
    | intro t l ht
    | intro t ht

end Sys2Proof.Machine
end

