-- ==== Sys2Proof/Laws/KeptFlue.lean ====
section
/-! SUPPORT. The operations of Machine/Flue.lean keep canonical memory and legal control blocks (Kept.lean). -/

namespace Sys2Proof.Machine

set_option linter.all false

theorem hostMemWrite_kept {s0 : State} (s : State) (pa : Nat) (bs : List Byte) (h0 : Kept s0 s) : Kept s0 (hostMemWrite s pa bs) := by
  unfold hostMemWrite
  try dsimp -iota only
  repeat' first
    | with_reducible assumption
    | with_reducible apply memWrite_kept
    | with_reducible apply flushWhere_kept
    | with_reducible apply kept_ite
    | (with_reducible apply kept_foldl; intro t x ht)
    | (with_reducible apply kept_foldl_snd; intro t x ht)
    | split
    | simp only [kept_mk]
    | (with_reducible refine kept_snd (by assumption) ?_)
    | (with_reducible refine kept_snd2 (by assumption) ?_)
    | dsimp -iota only
    | dsimp only
    | decide
    | intro t l w ht
    | intro t l ht
    | intro t ht

theorem hqWrite_kept {s0 : State} (s : State) (die : Nat) (ws : List Word) (h0 : Kept s0 s) : Kept s0 (hqWrite s die ws) := by
  unfold hqWrite
  try dsimp -iota only
  repeat' first
    | with_reducible assumption
    | with_reducible apply hostMemWrite_kept
    | with_reducible apply modDie_kept
    | with_reducible apply kept_ite
    | (with_reducible apply kept_foldl; intro t x ht)
    | (with_reducible apply kept_foldl_snd; intro t x ht)
    | split
    | simp only [kept_mk]
    | (with_reducible refine kept_snd (by assumption) ?_)
    | (with_reducible refine kept_snd2 (by assumption) ?_)
    | dsimp -iota only
    | dsimp only
    | decide
    | intro t l w ht
    | intro t l ht
    | intro t ht

theorem flueStep_kept {s0 : State} (s : State) (i : Nat) (hop : Option Nat) (h0 : Kept s0 s) : Kept s0 (flueStep s i hop) := by
  unfold flueStep
  try dsimp -iota only
  repeat' first
    | with_reducible assumption
    | with_reducible apply kept_ite
    | (with_reducible apply kept_foldl; intro t x ht)
    | (with_reducible apply kept_foldl_snd; intro t x ht)
    | split
    | simp only [kept_mk]
    | (with_reducible refine kept_snd (by assumption) ?_)
    | (with_reducible refine kept_snd2 (by assumption) ?_)
    | dsimp -iota only
    | dsimp only
    | decide
    | intro t l w ht
    | intro t l ht
    | intro t ht

theorem flueSend_kept {s0 : State} (s : State) (die : Nat) (h0 : Kept s0 s) : Kept s0 (flueSend s die) := by
  unfold flueSend
  try dsimp -iota only
  repeat' first
    | with_reducible assumption
    | with_reducible apply modDie_kept
    | with_reducible apply hqWrite_kept
    | with_reducible apply kept_ite
    | (with_reducible apply kept_foldl; intro t x ht)
    | (with_reducible apply kept_foldl_snd; intro t x ht)
    | split
    | simp only [kept_mk]
    | (with_reducible refine kept_snd (by assumption) ?_)
    | (with_reducible refine kept_snd2 (by assumption) ?_)
    | dsimp -iota only
    | dsimp only
    | decide
    | intro t l w ht
    | intro t l ht
    | intro t ht

theorem flueBroadcast_kept {s0 : State} (s : State) (v : Word) (priv : Bool) (h0 : Kept s0 s) : Kept s0 (flueBroadcast s v priv) := by
  unfold flueBroadcast
  try dsimp -iota only
  repeat' first
    | with_reducible assumption
    | with_reducible apply kept_ite
    | (with_reducible apply kept_foldl; intro t x ht)
    | (with_reducible apply kept_foldl_snd; intro t x ht)
    | split
    | simp only [kept_mk]
    | (with_reducible refine kept_snd (by assumption) ?_)
    | (with_reducible refine kept_snd2 (by assumption) ?_)
    | dsimp -iota only
    | dsimp only
    | decide
    | intro t l w ht
    | intro t l ht
    | intro t ht

theorem resolveRow_kept {s0 : State} (s : State) (page : Nat) (refuse : Bool) (r : RowId) (h0 : Kept s0 s) : Kept s0 (resolveRow s page refuse r) := by
  unfold resolveRow
  try dsimp -iota only
  repeat' first
    | with_reducible assumption
    | with_reducible apply flueRefuse_kept
    | with_reducible refine modRow_kept ?_ _ _ ?_
    | with_reducible apply flueClear_kept
    | with_reducible apply kept_ite
    | (with_reducible apply kept_foldl; intro t x ht)
    | (with_reducible apply kept_foldl_snd; intro t x ht)
    | split
    | simp only [kept_mk]
    | (with_reducible refine kept_snd (by assumption) ?_)
    | (with_reducible refine kept_snd2 (by assumption) ?_)
    | dsimp -iota only
    | dsimp only
    | decide
    | (intro w hw; (try dsimp only); (repeat' split); all_goals first | with_reducible assumption | with_reducible exact rowOk_congr hw rfl rfl rfl rfl rfl rfl | (obtain ⟨h1, h2, h3, h4, h5⟩ := hw; refine ⟨?_, ?_, ?_, ?_, ?_⟩ <;> (try dsimp only) <;> first | with_reducible assumption | with_reducible exact even_mask _ | with_reducible exact even_256 _ | with_reducible exact flags_mask _ | with_reducible exact flags_or _ h5 | with_reducible exact .inl rfl | (simp; done)))
    | intro t l w ht
    | intro t l ht
    | intro t ht

theorem resolveCore_kept {s0 : State} (s : State) (page : Nat) (refuse : Bool) (core : Nat) (h0 : Kept s0 s) : Kept s0 (resolveCore s page refuse core) := by
  unfold resolveCore
  try dsimp -iota only
  repeat' first
    | with_reducible assumption
    | with_reducible apply resolveRow_kept
    | with_reducible apply kept_ite
    | (with_reducible apply kept_foldl; intro t x ht)
    | (with_reducible apply kept_foldl_snd; intro t x ht)
    | split
    | simp only [kept_mk]
    | (with_reducible refine kept_snd (by assumption) ?_)
    | (with_reducible refine kept_snd2 (by assumption) ?_)
    | dsimp -iota only
    | dsimp only
    | decide
    | intro t l w ht
    | intro t l ht
    | intro t ht

theorem bindWrite_kept {s0 : State} (s : State) (cl : Nat) (v : Word) (priv : Bool) (h0 : Kept s0 s) : Kept s0 (bindWrite s cl v priv) := by
  unfold bindWrite
  try dsimp -iota only
  repeat' first
    | with_reducible assumption
    | with_reducible apply modCl_kept
    | with_reducible apply mergeCore_kept
    | with_reducible apply kept_ite
    | (with_reducible apply kept_foldl; intro t x ht)
    | (with_reducible apply kept_foldl_snd; intro t x ht)
    | split
    | simp only [kept_mk]
    | (with_reducible refine kept_snd (by assumption) ?_)
    | (with_reducible refine kept_snd2 (by assumption) ?_)
    | dsimp -iota only
    | dsimp only
    | decide
    | intro t l w ht
    | intro t l ht
    | intro t ht

end Sys2Proof.Machine
end

