-- ==== Sys2Proof/Laws/KeptBoot.lean ====
section
/-! SUPPORT. The operations of Machine/Boot.lean keep canonical memory and legal control blocks (Kept.lean). -/

namespace Sys2Proof.Machine

set_option linter.all false

theorem packageReset_kept {s0 : State} (s : State) (h0 : Kept s0 s) : Kept s0 (packageReset s) := by
  unfold packageReset
  try dsimp -iota only
  repeat' first
    | with_reducible assumption
    | exact filter_kept h0 _ rfl (.inr rfl) (.inr rfl)
    | with_reducible apply kept_ite
    | (with_reducible apply kept_foldl; intro t x ht)
    | (with_reducible apply kept_foldl_snd; intro t x ht)
    | split
    | simp only [kept_mk]
    | (with_reducible refine kept_snd (by assumption) ?_)
    | (with_reducible refine kept_snd2 (by assumption) ?_)
    | dsimp -iota only
    | dsimp only
    | decide
    | intro t l w ht
    | intro t l ht
    | intro t ht

theorem resetWrite_kept {s0 : State} (s : State) (v : Word) (priv : Bool) (h0 : Kept s0 s) : Kept s0 (resetWrite s v priv) := by
  unfold resetWrite
  try dsimp -iota only
  repeat' first
    | with_reducible assumption
    | with_reducible apply packageReset_kept
    | with_reducible apply kept_ite
    | (with_reducible apply kept_foldl; intro t x ht)
    | (with_reducible apply kept_foldl_snd; intro t x ht)
    | split
    | simp only [kept_mk]
    | (with_reducible refine kept_snd (by assumption) ?_)
    | (with_reducible refine kept_snd2 (by assumption) ?_)
    | dsimp -iota only
    | dsimp only
    | decide
    | intro t l w ht
    | intro t l ht
    | intro t ht

theorem attemptFails_kept {s0 : State} (s : State) (a : Nat) (cause : Nat) (h0 : Kept s0 s) : Kept s0 (attemptFails s a cause) := by
  unfold attemptFails
  try dsimp -iota only
  repeat' first
    | with_reducible assumption
    | with_reducible apply packageReset_kept
    | with_reducible apply modPkg_kept
    | with_reducible apply kept_ite
    | (with_reducible apply kept_foldl; intro t x ht)
    | (with_reducible apply kept_foldl_snd; intro t x ht)
    | split
    | simp only [kept_mk]
    | (with_reducible refine kept_snd (by assumption) ?_)
    | (with_reducible refine kept_snd2 (by assumption) ?_)
    | dsimp -iota only
    | dsimp only
    | decide
    | intro t l w ht
    | intro t l ht
    | intro t ht

end Sys2Proof.Machine
end

