-- ==== Sys2Proof/Laws/KeptSysReg.lean ====
section
/-! SUPPORT. The operations of Machine/SysReg.lean keep canonical memory and legal control blocks (Kept.lean). -/

namespace Sys2Proof.Machine

set_option linter.all false

theorem serrWrite_kept {s0 : State} (s : State) (die : Nat) (k : Nat) (v : Word) (h0 : Kept s0 s) : Kept s0 (serrWrite s die k v) := by
  unfold serrWrite
  try dsimp -iota only
  repeat' first
    | with_reducible assumption
    | with_reducible apply modDie_kept
    | with_reducible apply kept_ite
    | (with_reducible apply kept_foldl; intro t x ht)
    | (with_reducible apply kept_foldl_snd; intro t x ht)
    | split
    | simp only [kept_mk]
    | (with_reducible refine kept_snd (by assumption) ?_)
    | (with_reducible refine kept_snd2 (by assumption) ?_)
    | dsimp -iota only
    | dsimp only
    | decide
    | intro t l w ht
    | intro t l ht
    | intro t ht

theorem plainSysWrite_kept {s0 : State} (s : State) (core : Nat) (priv : Bool) (n : Nat) (v : Word) (h0 : Kept s0 s) : Kept s0 (plainSysWrite s core priv n v) := by
  unfold plainSysWrite
  try dsimp -iota only
  repeat' first
    | with_reducible assumption
    | with_reducible apply modDie_kept
    | with_reducible apply modCore_kept
    | with_reducible apply modPart_kept
    | with_reducible apply modPkg_kept
    | with_reducible apply safecapWrite_kept
    | with_reducible apply kept_ite
    | (with_reducible apply kept_foldl; intro t x ht)
    | (with_reducible apply kept_foldl_snd; intro t x ht)
    | split
    | simp only [kept_mk]
    | (with_reducible refine kept_snd (by assumption) ?_)
    | (with_reducible refine kept_snd2 (by assumption) ?_)
    | dsimp -iota only
    | dsimp only
    | decide
    | intro t l w ht
    | intro t l ht
    | intro t ht

theorem sysWrite_kept {s0 : State} (s : State) (core : Nat) (priv : Bool) (n : Nat) (v : Word) (h0 : Kept s0 s) : Kept s0 (sysWrite s core priv n v) := by
  unfold sysWrite
  try dsimp -iota only
  repeat' first
    | with_reducible assumption
    | with_reducible apply clkWrite_kept
    | with_reducible apply budgetWrite_kept
    | with_reducible apply slopeWrite_kept
    | with_reducible apply capWrite_kept
    | with_reducible apply thawWrite_kept
    | with_reducible apply resetWrite_kept
    | with_reducible apply serrWrite_kept
    | with_reducible apply flueBroadcast_kept
    | with_reducible apply bindWrite_kept
    | with_reducible apply plainSysWrite_kept
    | with_reducible apply kept_ite
    | (with_reducible apply kept_foldl; intro t x ht)
    | (with_reducible apply kept_foldl_snd; intro t x ht)
    | split
    | simp only [kept_mk]
    | (with_reducible refine kept_snd (by assumption) ?_)
    | (with_reducible refine kept_snd2 (by assumption) ?_)
    | dsimp -iota only
    | dsimp only
    | decide
    | intro t l w ht
    | intro t l ht
    | intro t ht

theorem tailWrite_kept {s0 : State} (s : State) (q : Nat) (v : Word) (h0 : Kept s0 s) : Kept s0 (tailWrite s q v) := by
  unfold tailWrite
  try dsimp -iota only
  repeat' first
    | with_reducible assumption
    | with_reducible apply notify_kept
    | with_reducible apply kept_ite
    | (with_reducible apply kept_foldl; intro t x ht)
    | (with_reducible apply kept_foldl_snd; intro t x ht)
    | split
    | simp only [kept_mk]
    | (with_reducible refine kept_snd (by assumption) ?_)
    | (with_reducible refine kept_snd2 (by assumption) ?_)
    | dsimp -iota only
    | dsimp only
    | decide
    | intro t l w ht
    | intro t l ht
    | intro t ht

theorem qUndefined_kept {s0 : State} (s : State) (q : Nat) (h0 : Kept s0 s) : Kept s0 (qUndefined s q) := by
  unfold qUndefined
  try dsimp -iota only
  repeat' first
    | with_reducible assumption
    | with_reducible apply freeWord_kept
    | with_reducible apply modQ_kept
    | with_reducible apply kept_ite
    | (with_reducible apply kept_foldl; intro t x ht)
    | (with_reducible apply kept_foldl_snd; intro t x ht)
    | split
    | simp only [kept_mk]
    | (with_reducible refine kept_snd (by assumption) ?_)
    | (with_reducible refine kept_snd2 (by assumption) ?_)
    | dsimp -iota only
    | dsimp only
    | decide
    | intro t l w ht
    | intro t l ht
    | intro t ht

theorem controlWrite_kept {s0 : State} (s : State) (q : Nat) (off : Nat) (v : Word) (h0 : Kept s0 s) : Kept s0 (controlWrite s q off v) := by
  unfold controlWrite
  try dsimp -iota only
  repeat' first
    | with_reducible assumption
    | with_reducible apply qUndefined_kept
    | with_reducible apply modQ_kept
    | with_reducible apply kept_ite
    | (with_reducible apply kept_foldl; intro t x ht)
    | (with_reducible apply kept_foldl_snd; intro t x ht)
    | split
    | simp only [kept_mk]
    | (with_reducible refine kept_snd (by assumption) ?_)
    | (with_reducible refine kept_snd2 (by assumption) ?_)
    | dsimp -iota only
    | dsimp only
    | decide
    | intro t l w ht
    | intro t l ht
    | intro t ht

theorem queueWrite_kept {s0 : State} (s : State) (q : Nat) (ctl : Bool) (off : Nat) (v : Word) (h0 : Kept s0 s) : Kept s0 (queueWrite s q ctl off v) := by
  unfold queueWrite
  try dsimp -iota only
  repeat' first
    | with_reducible assumption
    | with_reducible apply controlWrite_kept
    | with_reducible apply tailWrite_kept
    | with_reducible apply kept_ite
    | (with_reducible apply kept_foldl; intro t x ht)
    | (with_reducible apply kept_foldl_snd; intro t x ht)
    | split
    | simp only [kept_mk]
    | (with_reducible refine kept_snd (by assumption) ?_)
    | (with_reducible refine kept_snd2 (by assumption) ?_)
    | dsimp -iota only
    | dsimp only
    | decide
    | intro t l w ht
    | intro t l ht
    | intro t ht

end Sys2Proof.Machine
end

