-- ==== Sys2Proof/Laws/KeptBank.lean ====
section
/-! SUPPORT. The operations of Machine/Bank.lean keep canonical memory and legal control blocks (Kept.lean). -/

namespace Sys2Proof.Machine

set_option linter.all false

theorem walkForce_kept {s0 : State} (s : State) (part : Option Nat) (vpn : Nat) (fuel : Nat) (h0 : Kept s0 s) : Kept s0 (walkForce s part vpn fuel) := by
  induction fuel generalizing s with
  | zero => first | assumption | (unfold walkForce; assumption) | exact fun _ h => h
  | succ n ih =>
    unfold walkForce
    try dsimp -iota only
    repeat' first
      | with_reducible assumption
      | with_reducible apply ih
      | with_reducible apply dirForce_kept
      | with_reducible apply kept_ite
      | (with_reducible apply kept_foldl; intro t x ht)
      | (with_reducible apply kept_foldl_snd; intro t x ht)
      | split
      | simp only [kept_mk]
      | (with_reducible refine kept_snd (by assumption) ?_)
      | (with_reducible refine kept_snd2 (by assumption) ?_)
      | dsimp -iota only
      | dsimp only
      | decide
      | intro t l w ht
      | intro t l ht
      | intro t ht

theorem logBytes_kept {s0 : State} (s : State) (p : Nat) (data : List Byte) (h0 : Kept s0 s) : Kept s0 (logBytes s p data) := by
  unfold logBytes
  try dsimp -iota only
  repeat' first
    | with_reducible assumption
    | with_reducible apply freeWord_kept
    | with_reducible apply walkForce_kept
    | with_reducible apply homeStore_kept
    | with_reducible apply kept_ite
    | (with_reducible apply kept_foldl; intro t x ht)
    | (with_reducible apply kept_foldl_snd; intro t x ht)
    | split
    | simp only [kept_mk]
    | (with_reducible refine kept_snd (by assumption) ?_)
    | (with_reducible refine kept_snd2 (by assumption) ?_)
    | dsimp -iota only
    | dsimp only
    | decide
    | intro t l w ht
    | intro t l ht
    | intro t ht

theorem logFull_kept {s0 : State} (s : State) (core : Nat) (p : Nat) (h0 : Kept s0 s) : Kept s0 (logFull s core p) := by
  unfold logFull
  try dsimp -iota only
  repeat' first
    | with_reducible assumption
    | with_reducible apply modPart_kept
    | with_reducible apply sendSupervisor_kept
    | with_reducible apply kept_ite
    | (with_reducible apply kept_foldl; intro t x ht)
    | (with_reducible apply kept_foldl_snd; intro t x ht)
    | split
    | simp only [kept_mk]
    | (with_reducible refine kept_snd (by assumption) ?_)
    | (with_reducible refine kept_snd2 (by assumption) ?_)
    | dsimp -iota only
    | dsimp only
    | decide
    | intro t l w ht
    | intro t l ht
    | intro t ht

theorem logAdd_kept {s0 : State} (s : State) (core : Nat) (p : Nat) (e : Logged) (h0 : Kept s0 s) : Kept s0 (logAdd s core p e).2 := by
  unfold logAdd
  try dsimp -iota only
  repeat' first
    | with_reducible assumption
    | with_reducible apply modPart_kept
    | with_reducible apply logBytes_kept
    | with_reducible apply logFull_kept
    | with_reducible apply kept_ite
    | (with_reducible apply kept_foldl; intro t x ht)
    | (with_reducible apply kept_foldl_snd; intro t x ht)
    | split
    | simp only [kept_mk]
    | (with_reducible refine kept_snd (by assumption) ?_)
    | (with_reducible refine kept_snd2 (by assumption) ?_)
    | dsimp -iota only
    | dsimp only
    | decide
    | intro t l w ht
    | intro t l ht
    | intro t ht

theorem barWakeRow_kept {s0 : State} (s : State) (r : RowId) (h0 : Kept s0 s) : Kept s0 (barWakeRow s r) := by
  unfold barWakeRow
  try dsimp -iota only
  repeat' first
    | with_reducible assumption
    | with_reducible apply wake_kept
    | with_reducible refine modRow_kept ?_ _ _ ?_
    | with_reducible apply kept_ite
    | (with_reducible apply kept_foldl; intro t x ht)
    | (with_reducible apply kept_foldl_snd; intro t x ht)
    | split
    | simp only [kept_mk]
    | (with_reducible refine kept_snd (by assumption) ?_)
    | (with_reducible refine kept_snd2 (by assumption) ?_)
    | dsimp -iota only
    | dsimp only
    | decide
    | (intro w hw; (try dsimp only); (repeat' split); all_goals first | with_reducible assumption | with_reducible exact rowOk_congr hw rfl rfl rfl rfl rfl rfl | (obtain ⟨h1, h2, h3, h4, h5⟩ := hw; refine ⟨?_, ?_, ?_, ?_, ?_⟩ <;> (try dsimp only) <;> first | with_reducible assumption | with_reducible exact even_mask _ | with_reducible exact even_256 _ | with_reducible exact flags_mask _ | with_reducible exact flags_or _ h5 | with_reducible exact .inl rfl | (simp; done)))
    | intro t l w ht
    | intro t l ht
    | intro t ht

theorem barWake_kept {s0 : State} (s : State) (core : Nat) (b : Nat) (h0 : Kept s0 s) : Kept s0 (barWake s core b) := by
  unfold barWake
  try dsimp -iota only
  repeat' first
    | with_reducible assumption
    | with_reducible apply barWakeRow_kept
    | with_reducible apply kept_ite
    | (with_reducible apply kept_foldl; intro t x ht)
    | (with_reducible apply kept_foldl_snd; intro t x ht)
    | split
    | simp only [kept_mk]
    | (with_reducible refine kept_snd (by assumption) ?_)
    | (with_reducible refine kept_snd2 (by assumption) ?_)
    | dsimp -iota only
    | dsimp only
    | decide
    | intro t l w ht
    | intro t l ht
    | intro t ht

theorem barSet_kept {s0 : State} (s : State) (core : Nat) (b : Nat) (v : Bar) (h0 : Kept s0 s) : Kept s0 (barSet s core b v) := by
  unfold barSet
  try dsimp -iota only
  repeat' first
    | with_reducible assumption
    | with_reducible apply barWake_kept
    | with_reducible apply modCore_kept
    | with_reducible apply kept_ite
    | (with_reducible apply kept_foldl; intro t x ht)
    | (with_reducible apply kept_foldl_snd; intro t x ht)
    | split
    | simp only [kept_mk]
    | (with_reducible refine kept_snd (by assumption) ?_)
    | (with_reducible refine kept_snd2 (by assumption) ?_)
    | dsimp -iota only
    | dsimp only
    | decide
    | intro t l w ht
    | intro t l ht
    | intro t ht

theorem barReplace_kept {s0 : State} (s : State) (core : Nat) (b : Nat) (v : Bar) (h0 : Kept s0 s) : Kept s0 (barReplace s core b v) := by
  unfold barReplace
  try dsimp -iota only
  repeat' first
    | with_reducible assumption
    | with_reducible apply barSet_kept
    | with_reducible apply kept_ite
    | (with_reducible apply kept_foldl; intro t x ht)
    | (with_reducible apply kept_foldl_snd; intro t x ht)
    | split
    | simp only [kept_mk]
    | (with_reducible refine kept_snd (by assumption) ?_)
    | (with_reducible refine kept_snd2 (by assumption) ?_)
    | dsimp -iota only
    | dsimp only
    | decide
    | intro t l w ht
    | intro t l ht
    | intro t ht

theorem barWrite_kept {s0 : State} (s : State) (core : Nat) (b : Nat) (v : Word) (h0 : Kept s0 s) : Kept s0 (barWrite s core b v) := by
  unfold barWrite
  try dsimp -iota only
  repeat' first
    | with_reducible assumption
    | with_reducible apply barReplace_kept
    | with_reducible apply kept_ite
    | (with_reducible apply kept_foldl; intro t x ht)
    | (with_reducible apply kept_foldl_snd; intro t x ht)
    | split
    | simp only [kept_mk]
    | (with_reducible refine kept_snd (by assumption) ?_)
    | (with_reducible refine kept_snd2 (by assumption) ?_)
    | dsimp -iota only
    | dsimp only
    | decide
    | intro t l w ht
    | intro t l ht
    | intro t ht

theorem ctlWrite_kept {s0 : State} (s : State) (core : Nat) (off : Nat) (v : Word) (priv : Bool) (h0 : Kept s0 s) : Kept s0 (ctlWrite s core off v priv) := by
  unfold ctlWrite
  try dsimp -iota only
  repeat' first
    | with_reducible assumption
    | with_reducible apply modCore_kept
    | with_reducible apply barWrite_kept
    | with_reducible apply kept_ite
    | (with_reducible apply kept_foldl; intro t x ht)
    | (with_reducible apply kept_foldl_snd; intro t x ht)
    | split
    | simp only [kept_mk]
    | (with_reducible refine kept_snd (by assumption) ?_)
    | (with_reducible refine kept_snd2 (by assumption) ?_)
    | dsimp -iota only
    | dsimp only
    | decide
    | intro t l w ht
    | intro t l ht
    | intro t ht

theorem ctlWrites_kept {s0 : State} (s : State) (core : Nat) (off : Nat) (priv : Bool) (bs : List Byte) (arg5 : Nat) (h0 : Kept s0 s) : Kept s0 (ctlWrites s core off priv bs arg5) := by
  induction arg5 generalizing s off bs with
  | zero => exact h0
  | succ n ih => exact ih _ _ _ (ctlWrite_kept _ _ _ _ _ h0)

theorem peekForce_kept {s0 : State} (s : State) (r : RowId) (h0 : Kept s0 s) : Kept s0 (peekForce s r) := by
  unfold peekForce
  try dsimp -iota only
  repeat' first
    | with_reducible assumption
    | with_reducible apply walkForce_kept
    | with_reducible apply dirForce_kept
    | with_reducible apply kept_ite
    | (with_reducible apply kept_foldl; intro t x ht)
    | (with_reducible apply kept_foldl_snd; intro t x ht)
    | split
    | simp only [kept_mk]
    | (with_reducible refine kept_snd (by assumption) ?_)
    | (with_reducible refine kept_snd2 (by assumption) ?_)
    | dsimp -iota only
    | dsimp only
    | decide
    | intro t l w ht
    | intro t l ht
    | intro t ht

theorem ctlForce_kept {s0 : State} (s : State) (r : RowId) (v : Word) (h0 : Kept s0 s) : Kept s0 (ctlForce s r v) := by
  unfold ctlForce
  try dsimp -iota only
  repeat' first
    | with_reducible assumption
    | with_reducible apply peekForce_kept
    | with_reducible apply kept_ite
    | (with_reducible apply kept_foldl; intro t x ht)
    | (with_reducible apply kept_foldl_snd; intro t x ht)
    | split
    | simp only [kept_mk]
    | (with_reducible refine kept_snd (by assumption) ?_)
    | (with_reducible refine kept_snd2 (by assumption) ?_)
    | dsimp -iota only
    | dsimp only
    | decide
    | intro t l w ht
    | intro t l ht
    | intro t ht

theorem otherInstr_kept {s0 : State} (s : State) (t : State) (r : RowId) (h0 : Kept s0 s) (h1 : Kept s0 t) : Kept s0 (otherInstr s t r) := by
  unfold otherInstr
  try dsimp -iota only
  repeat' first
    | with_reducible assumption
    | with_reducible refine modRow_kept ?_ _ _ ?_
    | with_reducible apply kept_ite
    | (with_reducible apply kept_foldl; intro t x ht)
    | (with_reducible apply kept_foldl_snd; intro t x ht)
    | split
    | simp only [kept_mk]
    | (with_reducible refine kept_snd (by assumption) ?_)
    | (with_reducible refine kept_snd2 (by assumption) ?_)
    | dsimp -iota only
    | dsimp only
    | decide
    | (intro w hw; (try dsimp only); (repeat' split); all_goals first | with_reducible assumption | with_reducible exact rowOk_congr hw rfl rfl rfl rfl rfl rfl | (obtain ⟨h1, h2, h3, h4, h5⟩ := hw; refine ⟨?_, ?_, ?_, ?_, ?_⟩ <;> (try dsimp only) <;> first | with_reducible assumption | with_reducible exact even_mask _ | with_reducible exact even_256 _ | with_reducible exact flags_mask _ | with_reducible exact flags_or _ h5 | with_reducible exact .inl rfl | (simp; done)))
    | intro t l w ht
    | intro t l ht
    | intro t ht

theorem rowStore_kept {s0 : State} (s : State) (r : RowId) (off : Nat) (bs : List Byte) (fe : Bool) (priv : Bool) (who : Option RowId) (h0 : Kept s0 s) : Kept s0 (rowStore s r off bs fe priv who) := by
  unfold rowStore
  try dsimp -iota only
  repeat' first
    | with_reducible assumption
    | with_reducible apply ctlForce_kept
    | with_reducible apply storeCtl_kept
    | with_reducible apply otherInstr_kept
    | with_reducible apply putRowBytes_kept
    | with_reducible apply unpoison_kept
    | with_reducible apply setFulls_kept
    | with_reducible apply scratchWake_kept
    | with_reducible apply kept_ite
    | (with_reducible apply kept_foldl; intro t x ht)
    | (with_reducible apply kept_foldl_snd; intro t x ht)
    | split
    | simp only [kept_mk]
    | (with_reducible refine kept_snd (by assumption) ?_)
    | (with_reducible refine kept_snd2 (by assumption) ?_)
    | dsimp -iota only
    | dsimp only
    | decide
    | intro t l w ht
    | intro t l ht
    | intro t ht

theorem pendCtl_kept {s0 : State} (s : State) (r : RowId) (bs : List Byte) (priv : Bool) (h0 : Kept s0 s) : Kept s0 (pendCtl s r bs priv) := by
  unfold pendCtl
  try dsimp -iota only
  repeat' first
    | with_reducible assumption
    | with_reducible apply ctlForce_kept
    | with_reducible refine modRow_kept ?_ _ _ ?_
    | with_reducible apply kept_ite
    | (with_reducible apply kept_foldl; intro t x ht)
    | (with_reducible apply kept_foldl_snd; intro t x ht)
    | split
    | simp only [kept_mk]
    | (with_reducible refine kept_snd (by assumption) ?_)
    | (with_reducible refine kept_snd2 (by assumption) ?_)
    | dsimp -iota only
    | dsimp only
    | decide
    | (intro w hw; (try dsimp only); (repeat' split); all_goals first | with_reducible assumption | with_reducible exact rowOk_congr hw rfl rfl rfl rfl rfl rfl | (obtain ⟨h1, h2, h3, h4, h5⟩ := hw; refine ⟨?_, ?_, ?_, ?_, ?_⟩ <;> (try dsimp only) <;> first | with_reducible assumption | with_reducible exact even_mask _ | with_reducible exact even_256 _ | with_reducible exact flags_mask _ | with_reducible exact flags_or _ h5 | with_reducible exact .inl rfl | (simp; done)))
    | intro t l w ht
    | intro t l ht
    | intro t ht

theorem rowBits_kept {s0 : State} (s : State) (r : RowId) (off : Nat) (n : Nat) (set : Bool) (who : Option RowId) (h0 : Kept s0 s) : Kept s0 (rowBits s r off n set who) := by
  unfold rowBits
  try dsimp -iota only
  repeat' first
    | with_reducible assumption
    | with_reducible apply setFulls_kept
    | with_reducible apply setEmpties_kept
    | with_reducible apply scratchWake_kept
    | with_reducible apply kept_ite
    | (with_reducible apply kept_foldl; intro t x ht)
    | (with_reducible apply kept_foldl_snd; intro t x ht)
    | split
    | simp only [kept_mk]
    | (with_reducible refine kept_snd (by assumption) ?_)
    | (with_reducible refine kept_snd2 (by assumption) ?_)
    | dsimp -iota only
    | dsimp only
    | decide
    | intro t l w ht
    | intro t l ht
    | intro t ht

theorem rowLoad_kept {s0 : State} (s : State) (r : RowId) (off : Nat) (n : Nat) (fe : Nat) (h0 : Kept s0 s) : Kept s0 (rowLoad s r off n fe).2 := by
  unfold rowLoad
  try dsimp -iota only
  repeat' first
    | with_reducible assumption
    | with_reducible apply setEmpties_kept
    | with_reducible apply kept_ite
    | (with_reducible apply kept_foldl; intro t x ht)
    | (with_reducible apply kept_foldl_snd; intro t x ht)
    | split
    | simp only [kept_mk]
    | (with_reducible refine kept_snd (by assumption) ?_)
    | (with_reducible refine kept_snd2 (by assumption) ?_)
    | dsimp -iota only
    | dsimp only
    | decide
    | intro t l w ht
    | intro t l ht
    | intro t ht

theorem received_kept {s0 : State} (s : State) (src : Nat) (dst : Nat) (h0 : Kept s0 s) : Kept s0 (received s src dst) := by
  unfold received
  try dsimp -iota only
  repeat' first
    | with_reducible assumption
    | with_reducible apply modCore_kept
    | with_reducible apply kept_ite
    | (with_reducible apply kept_foldl; intro t x ht)
    | (with_reducible apply kept_foldl_snd; intro t x ht)
    | split
    | simp only [kept_mk]
    | (with_reducible refine kept_snd (by assumption) ?_)
    | (with_reducible refine kept_snd2 (by assumption) ?_)
    | dsimp -iota only
    | dsimp only
    | decide
    | intro t l w ht
    | intro t l ht
    | intro t ht

theorem sentMsg_kept {s0 : State} (s : State) (src : Nat) (dst : Nat) (h0 : Kept s0 s) : Kept s0 (sentMsg s src dst) := by
  unfold sentMsg
  try dsimp -iota only
  repeat' first
    | with_reducible assumption
    | with_reducible apply modCore_kept
    | with_reducible apply kept_ite
    | (with_reducible apply kept_foldl; intro t x ht)
    | (with_reducible apply kept_foldl_snd; intro t x ht)
    | split
    | simp only [kept_mk]
    | (with_reducible refine kept_snd (by assumption) ?_)
    | (with_reducible refine kept_snd2 (by assumption) ?_)
    | dsimp -iota only
    | dsimp only
    | decide
    | intro t l w ht
    | intro t l ht
    | intro t ht

theorem applyStore_kept {s0 : State} (s : State) (e : StEnt) (h0 : Kept s0 s) : Kept s0 (applyStore s e).2 := by
  unfold applyStore
  try dsimp -iota only
  repeat' first
    | with_reducible assumption
    | with_reducible apply pendCtl_kept
    | with_reducible apply received_kept
    | with_reducible apply rowStore_kept
    | with_reducible apply rowBits_kept
    | with_reducible apply ctlWrites_kept
    | with_reducible apply sysWrite_kept
    | with_reducible apply queueWrite_kept
    | with_reducible apply tagWrite_kept
    | with_reducible apply memWrite_kept
    | with_reducible apply homeWrite_kept
    | with_reducible apply kept_ite
    | (with_reducible apply kept_foldl; intro t x ht)
    | (with_reducible apply kept_foldl_snd; intro t x ht)
    | split
    | simp only [kept_mk]
    | (with_reducible refine kept_snd (by assumption) ?_)
    | (with_reducible refine kept_snd2 (by assumption) ?_)
    | dsimp -iota only
    | dsimp only
    | decide
    | intro t l w ht
    | intro t l ht
    | intro t ht

theorem performStore_kept {s0 : State} (s : State) (e : StEnt) (h0 : Kept s0 s) : Kept s0 (performStore s e).2 := by
  unfold performStore
  try dsimp -iota only
  repeat' first
    | with_reducible assumption
    | with_reducible apply logAdd_kept
    | with_reducible apply applyStore_kept
    | with_reducible apply kept_ite
    | (with_reducible apply kept_foldl; intro t x ht)
    | (with_reducible apply kept_foldl_snd; intro t x ht)
    | split
    | simp only [kept_mk]
    | (with_reducible refine kept_snd (by assumption) ?_)
    | (with_reducible refine kept_snd2 (by assumption) ?_)
    | dsimp -iota only
    | dsimp only
    | decide
    | intro t l w ht
    | intro t l ht
    | intro t ht

theorem readPart_kept {s0 : State} (s : State) (who : RowId) (priv : Bool) (fe : Nat) (nt : Bool) (p : Part) (h0 : Kept s0 s) : Kept s0 (readPart s who priv fe nt p).2 := by
  unfold readPart
  try dsimp -iota only
  repeat' first
    | with_reducible assumption
    | with_reducible apply rowLoad_kept
    | with_reducible apply cacheRead_kept
    | with_reducible apply kept_ite
    | (with_reducible apply kept_foldl; intro t x ht)
    | (with_reducible apply kept_foldl_snd; intro t x ht)
    | split
    | simp only [kept_mk]
    | (with_reducible refine kept_snd (by assumption) ?_)
    | (with_reducible refine kept_snd2 (by assumption) ?_)
    | dsimp -iota only
    | dsimp only
    | decide
    | intro t l w ht
    | intro t l ht
    | intro t ht

end Sys2Proof.Machine
end

