-- ==== Sys2Proof/Laws/KeptLsu.lean ====
section
/-! SUPPORT. The operations of Machine/Lsu.lean keep canonical memory and legal control blocks (Kept.lean). -/

namespace Sys2Proof.Machine

set_option linter.all false

theorem sigSet_kept {s0 : State} (s : State) (r : RowId) (i : Nat) (h0 : Kept s0 s) : Kept s0 (sigSet s r i) := by
  unfold sigSet
  try dsimp -iota only
  repeat' first
    | with_reducible assumption
    | with_reducible apply memSet_kept
    | with_reducible apply kept_ite
    | (with_reducible apply kept_foldl; intro t x ht)
    | (with_reducible apply kept_foldl_snd; intro t x ht)
    | split
    | simp only [kept_mk]
    | (with_reducible refine kept_snd (by assumption) ?_)
    | (with_reducible refine kept_snd2 (by assumption) ?_)
    | dsimp -iota only
    | dsimp only
    | decide
    | intro t l w ht
    | intro t l ht
    | intro t ht

theorem sigInsert_kept {s0 : State} (s : State) (r : RowId) (l : Nat) (h0 : Kept s0 s) : Kept s0 (sigInsert s r l) := by
  unfold sigInsert
  try dsimp -iota only
  repeat' first
    | with_reducible assumption
    | with_reducible apply sigSet_kept
    | with_reducible apply kept_ite
    | (with_reducible apply kept_foldl; intro t x ht)
    | (with_reducible apply kept_foldl_snd; intro t x ht)
    | split
    | simp only [kept_mk]
    | (with_reducible refine kept_snd (by assumption) ?_)
    | (with_reducible refine kept_snd2 (by assumption) ?_)
    | dsimp -iota only
    | dsimp only
    | decide
    | intro t l w ht
    | intro t l ht
    | intro t ht

theorem sigParts_kept {s0 : State} (s : State) (r : RowId) (arg2 : List Part) (h0 : Kept s0 s) : Kept s0 (sigParts s r arg2) := by
  induction arg2 generalizing s with
  | nil => first | assumption | (unfold sigParts; assumption) | exact fun _ h => h
  | cons x xs ih =>
    unfold sigParts
    try dsimp -iota only
    repeat' first
      | with_reducible assumption
      | with_reducible apply ih
      | with_reducible apply sigInsert_kept
      | with_reducible apply kept_ite
      | (with_reducible apply kept_foldl; intro t x ht)
      | (with_reducible apply kept_foldl_snd; intro t x ht)
      | split
      | simp only [kept_mk]
      | (with_reducible refine kept_snd (by assumption) ?_)
      | (with_reducible refine kept_snd2 (by assumption) ?_)
      | dsimp -iota only
      | dsimp only
      | decide
      | intro t l w ht
      | intro t l ht
      | intro t ht

theorem sentPart_kept {s0 : State} (s : State) (core : Nat) (p : Part) (h0 : Kept s0 s) : Kept s0 (sentPart s core p) := by
  unfold sentPart
  try dsimp -iota only
  repeat' first
    | with_reducible assumption
    | with_reducible apply sentMsg_kept
    | with_reducible apply kept_ite
    | (with_reducible apply kept_foldl; intro t x ht)
    | (with_reducible apply kept_foldl_snd; intro t x ht)
    | split
    | simp only [kept_mk]
    | (with_reducible refine kept_snd (by assumption) ?_)
    | (with_reducible refine kept_snd2 (by assumption) ?_)
    | dsimp -iota only
    | dsimp only
    | decide
    | intro t l w ht
    | intro t l ht
    | intro t ht

theorem enterFifo_kept {s0 : State} (s : State) (r : RowId) (priv : Bool) (kind : StKind) (nt : Bool) (p : Part) (bs : List Byte) (h0 : Kept s0 s) : Kept s0 (enterFifo s r priv kind nt p bs) := by
  unfold enterFifo
  try dsimp -iota only
  repeat' first
    | with_reducible assumption
    | with_reducible apply fresh_kept
    | with_reducible apply sentPart_kept
    | with_reducible apply bump_kept
    | with_reducible apply modCore_kept
    | with_reducible apply kept_ite
    | (with_reducible apply kept_foldl; intro t x ht)
    | (with_reducible apply kept_foldl_snd; intro t x ht)
    | split
    | simp only [kept_mk]
    | (with_reducible refine kept_snd (by assumption) ?_)
    | (with_reducible refine kept_snd2 (by assumption) ?_)
    | dsimp -iota only
    | dsimp only
    | decide
    | intro t l w ht
    | intro t l ht
    | intro t ht

theorem enterParts_kept {s0 : State} (s : State) (r : RowId) (priv : Bool) (kind : StKind) (nt : Bool) (bs : List Byte) (arg6 : List Part) (h0 : Kept s0 s) : Kept s0 (enterParts s r priv kind nt bs arg6) := by
  induction arg6 generalizing s with
  | nil => first | assumption | (unfold enterParts; assumption) | exact fun _ h => h
  | cons x xs ih =>
    unfold enterParts
    try dsimp -iota only
    repeat' first
      | with_reducible assumption
      | with_reducible apply ih
      | with_reducible apply enterFifo_kept
      | with_reducible apply kept_ite
      | (with_reducible apply kept_foldl; intro t x ht)
      | (with_reducible apply kept_foldl_snd; intro t x ht)
      | split
      | simp only [kept_mk]
      | (with_reducible refine kept_snd (by assumption) ?_)
      | (with_reducible refine kept_snd2 (by assumption) ?_)
      | dsimp -iota only
      | dsimp only
      | decide
      | intro t l w ht
      | intro t l ht
      | intro t ht

theorem fifoStep_kept {s0 : State} (s : State) (core : Nat) (h0 : Kept s0 s) : Kept s0 (fifoStep s core) := by
  unfold fifoStep
  try dsimp -iota only
  repeat' first
    | with_reducible assumption
    | with_reducible apply modCore_kept
    | with_reducible apply performStore_kept
    | with_reducible apply guestUpdate_kept
    | with_reducible apply kept_ite
    | (with_reducible apply kept_foldl; intro t x ht)
    | (with_reducible apply kept_foldl_snd; intro t x ht)
    | split
    | simp only [kept_mk]
    | (with_reducible refine kept_snd (by assumption) ?_)
    | (with_reducible refine kept_snd2 (by assumption) ?_)
    | dsimp -iota only
    | dsimp only
    | decide
    | intro t l w ht
    | intro t l ht
    | intro t ht

theorem flightStep_kept {s0 : State} (s : State) (i : Nat) (h0 : Kept s0 s) : Kept s0 (flightStep s i) := by
  unfold flightStep
  try dsimp -iota only
  repeat' first
    | with_reducible assumption
    | with_reducible apply performStore_kept
    | with_reducible apply kept_ite
    | (with_reducible apply kept_foldl; intro t x ht)
    | (with_reducible apply kept_foldl_snd; intro t x ht)
    | split
    | simp only [kept_mk]
    | (with_reducible refine kept_snd (by assumption) ?_)
    | (with_reducible refine kept_snd2 (by assumption) ?_)
    | dsimp -iota only
    | dsimp only
    | decide
    | intro t l w ht
    | intro t l ht
    | intro t ht

theorem askLog_kept {s0 : State} (s : State) (who : Asker) (p : Part) (amo : Option (Nat × Word × RMode)) (core : Nat) (x : Nat) (h0 : Kept s0 s) : Kept s0 (askLog s who p amo core x).2 := by
  unfold askLog
  try dsimp -iota only
  repeat' first
    | with_reducible assumption
    | with_reducible apply logAdd_kept
    | with_reducible apply kept_ite
    | (with_reducible apply kept_foldl; intro t x ht)
    | (with_reducible apply kept_foldl_snd; intro t x ht)
    | split
    | simp only [kept_mk]
    | (with_reducible refine kept_snd (by assumption) ?_)
    | (with_reducible refine kept_snd2 (by assumption) ?_)
    | dsimp -iota only
    | dsimp only
    | decide
    | intro t l w ht
    | intro t l ht
    | intro t ht

theorem keepAnswer_kept {s0 : State} (s : State) (a : Answer) (h0 : Kept s0 s) : Kept s0 (keepAnswer s a) := by
  unfold keepAnswer
  try dsimp -iota only
  repeat' first
    | with_reducible assumption
    | with_reducible apply kept_ite
    | (with_reducible apply kept_foldl; intro t x ht)
    | (with_reducible apply kept_foldl_snd; intro t x ht)
    | split
    | simp only [kept_mk]
    | (with_reducible refine kept_snd (by assumption) ?_)
    | (with_reducible refine kept_snd2 (by assumption) ?_)
    | dsimp -iota only
    | dsimp only
    | decide
    | intro t l w ht
    | intro t l ht
    | intro t ht

theorem dropAnswers_kept {s0 : State} (s : State) (who : Asker) (h0 : Kept s0 s) : Kept s0 (dropAnswers s who) := by
  unfold dropAnswers
  try dsimp -iota only
  repeat' first
    | with_reducible assumption
    | with_reducible apply kept_ite
    | (with_reducible apply kept_foldl; intro t x ht)
    | (with_reducible apply kept_foldl_snd; intro t x ht)
    | split
    | simp only [kept_mk]
    | (with_reducible refine kept_snd (by assumption) ?_)
    | (with_reducible refine kept_snd2 (by assumption) ?_)
    | dsimp -iota only
    | dsimp only
    | decide
    | intro t l w ht
    | intro t l ht
    | intro t ht

theorem sentOnce_kept {s0 : State} (s : State) (who : Asker) (p : Part) (h0 : Kept s0 s) : Kept s0 (sentOnce s who p) := by
  unfold sentOnce
  try dsimp -iota only
  repeat' first
    | with_reducible assumption
    | with_reducible apply sentPart_kept
    | with_reducible apply kept_ite
    | (with_reducible apply kept_foldl; intro t x ht)
    | (with_reducible apply kept_foldl_snd; intro t x ht)
    | split
    | simp only [kept_mk]
    | (with_reducible refine kept_snd (by assumption) ?_)
    | (with_reducible refine kept_snd2 (by assumption) ?_)
    | dsimp -iota only
    | dsimp only
    | decide
    | intro t l w ht
    | intro t l ht
    | intro t ht

theorem askFirst_state {s0 s : State} {who : Asker} {amo : Option (Nat × Word × RMode)} {home : Bool} {p : Part}
    {x : Rd} {fl : FFlags} {t : State} (e : askFirst s who amo home p = some (x, fl, t)) (h0 : Kept s0 s) : Kept s0 t := by
  unfold askFirst at e
  split at e
  · simp only [Option.some.injEq, Prod.mk.injEq] at e; exact e.2.2 ▸ h0
  · split at e
    · rename_i c y _
      have ha := askLog_kept s who p amo c y h0
      split at e <;> simp only [Option.some.injEq, Prod.mk.injEq] at e
      · exact e.2.2 ▸ h0
      · rw [← e.2.2]; split
        · exact sentOnce_kept _ _ _ ha
        · exact ha
    · obtain ⟨h, _, e⟩ := Option.map_eq_some_iff.1 e
      simp only [Prod.mk.injEq] at e
      rw [← e.2.2, kept_mk]; exact h0

theorem askRead_kept {s0 : State} (s : State) (who : Asker) (priv : Bool) (fe : Nat) (nt : Bool) (p : Part) (h0 : Kept s0 s) : Kept s0 (askRead s who priv fe nt p).2 := by
  unfold askRead
  try dsimp -iota only
  repeat' first
    | with_reducible assumption
    | (with_reducible exact askFirst_state (by assumption) h0)
    | with_reducible apply readPart_kept
    | with_reducible apply kept_ite
    | (with_reducible apply kept_foldl; intro t x ht)
    | (with_reducible apply kept_foldl_snd; intro t x ht)
    | split
    | simp only [kept_mk]
    | (with_reducible refine kept_snd (by assumption) ?_)
    | (with_reducible refine kept_snd2 (by assumption) ?_)
    | dsimp -iota only
    | dsimp only
    | decide
    | intro t l w ht
    | intro t l ht
    | intro t ht

theorem readParts_kept {s0 : State} (s : State) (r : RowId) (priv : Bool) (fe : Nat) (nt : Bool) (arg5 : List Part) (h0 : Kept s0 s) : Kept s0 (readParts s r priv fe nt arg5).2 := by
  induction arg5 generalizing s with
  | nil => first | assumption | (unfold readParts; assumption) | exact fun _ h => h
  | cons x xs ih =>
    unfold readParts
    try dsimp -iota only
    repeat' first
      | with_reducible assumption
      | with_reducible apply ih
      | with_reducible apply askRead_kept
      | with_reducible apply bump_kept
      | with_reducible apply kept_ite
      | (with_reducible apply kept_foldl; intro t x ht)
      | (with_reducible apply kept_foldl_snd; intro t x ht)
      | split
      | simp only [kept_mk]
      | (with_reducible refine kept_snd (by assumption) ?_)
      | (with_reducible refine kept_snd2 (by assumption) ?_)
      | dsimp -iota only
      | dsimp only
      | decide
      | intro t l w ht
      | intro t l ht
      | intro t ht

theorem issueReq_kept {s0 : State} (s : State) (r : RowId) (priv : Bool) (kind : ReqKind) (ps : List Part) (put : Put) (words : List Nat) (h0 : Kept s0 s) : Kept s0 (issueReq s r priv kind ps put words) := by
  unfold issueReq
  try dsimp -iota only
  repeat' first
    | with_reducible assumption
    | with_reducible apply fresh_kept
    | with_reducible apply setEmpties_kept
    | with_reducible apply bump_kept
    | with_reducible apply kept_ite
    | (with_reducible apply kept_foldl; intro t x ht)
    | (with_reducible apply kept_foldl_snd; intro t x ht)
    | split
    | simp only [kept_mk]
    | (with_reducible refine kept_snd (by assumption) ?_)
    | (with_reducible refine kept_snd2 (by assumption) ?_)
    | dsimp -iota only
    | dsimp only
    | decide
    | intro t l w ht
    | intro t l ht
    | intro t ht

theorem modReq_kept {s0 : State} (s : State) (id : Nat) (f : Req → Req) (h0 : Kept s0 s) : Kept s0 (modReq s id f) := by
  unfold modReq
  try dsimp -iota only
  repeat' first
    | with_reducible assumption
    | with_reducible apply kept_ite
    | (with_reducible apply kept_foldl; intro t x ht)
    | (with_reducible apply kept_foldl_snd; intro t x ht)
    | split
    | simp only [kept_mk]
    | (with_reducible refine kept_snd (by assumption) ?_)
    | (with_reducible refine kept_snd2 (by assumption) ?_)
    | dsimp -iota only
    | dsimp only
    | decide
    | intro t l w ht
    | intro t l ht
    | intro t ht

theorem settle_kept {s0 : State} (s : State) (id : Nat) (h0 : Kept s0 s) : Kept s0 (settle s id) := by
  unfold settle
  try dsimp -iota only
  repeat' first
    | with_reducible assumption
    | with_reducible apply kept_ite
    | (with_reducible apply kept_foldl; intro t x ht)
    | (with_reducible apply kept_foldl_snd; intro t x ht)
    | split
    | simp only [kept_mk]
    | (with_reducible refine kept_snd (by assumption) ?_)
    | (with_reducible refine kept_snd2 (by assumption) ?_)
    | dsimp -iota only
    | dsimp only
    | decide
    | intro t l w ht
    | intro t l ht
    | intro t ht

theorem replyDo_kept {s0 : State} (s : State) (r : RowId) (x : Reply) (h0 : Kept s0 s) : Kept s0 (replyDo s r x) := by
  unfold replyDo
  try dsimp -iota only
  repeat' first
    | with_reducible assumption
    | with_reducible apply orFlags_kept
    | with_reducible refine modRow_kept ?_ _ _ ?_
    | with_reducible apply kept_ite
    | (with_reducible apply kept_foldl; intro t x ht)
    | (with_reducible apply kept_foldl_snd; intro t x ht)
    | split
    | simp only [kept_mk]
    | (with_reducible refine kept_snd (by assumption) ?_)
    | (with_reducible refine kept_snd2 (by assumption) ?_)
    | dsimp -iota only
    | dsimp only
    | decide
    | (intro w hw; (try dsimp only); (repeat' split); all_goals first | with_reducible assumption | with_reducible exact rowOk_congr hw rfl rfl rfl rfl rfl rfl | (obtain ⟨h1, h2, h3, h4, h5⟩ := hw; refine ⟨?_, ?_, ?_, ?_, ?_⟩ <;> (try dsimp only) <;> first | with_reducible assumption | with_reducible exact even_mask _ | with_reducible exact even_256 _ | with_reducible exact flags_mask _ | with_reducible exact flags_or _ h5 | with_reducible exact .inl rfl | (simp; done)))
    | intro t l w ht
    | intro t l ht
    | intro t ht

theorem reply_kept {s0 : State} (s : State) (r : RowId) (k : Nat) (x : Reply) (h0 : Kept s0 s) : Kept s0 (reply s r k x).2 := by
  unfold reply
  try dsimp -iota only
  repeat' first
    | with_reducible assumption
    | with_reducible apply logAdd_kept
    | with_reducible apply replyDo_kept
    | with_reducible apply kept_ite
    | (with_reducible apply kept_foldl; intro t x ht)
    | (with_reducible apply kept_foldl_snd; intro t x ht)
    | split
    | simp only [kept_mk]
    | (with_reducible refine kept_snd (by assumption) ?_)
    | (with_reducible refine kept_snd2 (by assumption) ?_)
    | dsimp -iota only
    | dsimp only
    | decide
    | intro t l w ht
    | intro t l ht
    | intro t ht

theorem faultRow_kept {s0 : State} (s : State) (r : RowId) (f : EngFault) (h0 : Kept s0 s) : Kept s0 (faultRow s r f) := by
  unfold faultRow
  try dsimp -iota only
  repeat' first
    | with_reducible assumption
    | with_reducible apply raise_kept
    | with_reducible apply kept_ite
    | (with_reducible apply kept_foldl; intro t x ht)
    | (with_reducible apply kept_foldl_snd; intro t x ht)
    | split
    | simp only [kept_mk]
    | (with_reducible refine kept_snd (by assumption) ?_)
    | (with_reducible refine kept_snd2 (by assumption) ?_)
    | dsimp -iota only
    | dsimp only
    | decide
    | intro t l w ht
    | intro t l ht
    | intro t ht

theorem asyncFault_kept {s0 : State} (s : State) (r : RowId) (k : Nat) (f : EngFault) (h0 : Kept s0 s) : Kept s0 (asyncFault s r k f) := by
  unfold asyncFault
  try dsimp -iota only
  repeat' first
    | with_reducible assumption
    | with_reducible apply faultRow_kept
    | with_reducible apply kept_ite
    | (with_reducible apply kept_foldl; intro t x ht)
    | (with_reducible apply kept_foldl_snd; intro t x ht)
    | split
    | simp only [kept_mk]
    | (with_reducible refine kept_snd (by assumption) ?_)
    | (with_reducible refine kept_snd2 (by assumption) ?_)
    | dsimp -iota only
    | dsimp only
    | decide
    | intro t l w ht
    | intro t l ht
    | intro t ht

theorem endAccess_kept {s0 : State} (s : State) (r : RowId) (k : Nat) (f : EngFault) (drop : State → State) (h0 : Kept s0 s) (hdrop : ∀ t, Kept s0 t → Kept s0 (drop t)) : Kept s0 (endAccess s r k f drop) := by
  unfold endAccess
  try dsimp -iota only
  repeat' first
    | with_reducible assumption
    | with_reducible apply hdrop
    | with_reducible apply faultRow_kept
    | with_reducible apply kept_ite
    | (with_reducible apply kept_foldl; intro t x ht)
    | (with_reducible apply kept_foldl_snd; intro t x ht)
    | split
    | simp only [kept_mk]
    | (with_reducible refine kept_snd (by assumption) ?_)
    | (with_reducible refine kept_snd2 (by assumption) ?_)
    | dsimp -iota only
    | dsimp only
    | decide
    | intro t l w ht
    | intro t l ht
    | intro t ht

theorem endReq_kept {s0 : State} (s : State) (q : Req) (p : Part) (acc : Nat) (cause : Nat) (h0 : Kept s0 s) : Kept s0 (endReq s q p acc cause) := by
  unfold endReq
  try dsimp -iota only
  repeat' first
    | with_reducible assumption
    | with_reducible apply endAccess_kept
    | with_reducible apply kept_ite
    | (with_reducible apply kept_foldl; intro t x ht)
    | (with_reducible apply kept_foldl_snd; intro t x ht)
    | split
    | simp only [kept_mk]
    | (with_reducible refine kept_snd (by assumption) ?_)
    | (with_reducible refine kept_snd2 (by assumption) ?_)
    | dsimp -iota only
    | dsimp only
    | decide
    | intro t l w ht
    | intro t l ht
    | intro t ht

theorem lostReq_kept {s0 : State} (s : State) (q : Req) (p : Part) (acc : Nat) (h0 : Kept s0 s) : Kept s0 (lostReq s q p acc) := by
  unfold lostReq
  try dsimp -iota only
  repeat' first
    | with_reducible assumption
    | with_reducible apply endReq_kept
    | with_reducible apply kept_ite
    | (with_reducible apply kept_foldl; intro t x ht)
    | (with_reducible apply kept_foldl_snd; intro t x ht)
    | split
    | simp only [kept_mk]
    | (with_reducible refine kept_snd (by assumption) ?_)
    | (with_reducible refine kept_snd2 (by assumption) ?_)
    | dsimp -iota only
    | dsimp only
    | decide
    | intro t l w ht
    | intro t l ht
    | intro t ht

theorem endFlight_kept {s0 : State} (s : State) (f : Flight) (cause : Nat) (h0 : Kept s0 s) : Kept s0 (endFlight s f cause) := by
  unfold endFlight
  try dsimp -iota only
  repeat' first
    | with_reducible assumption
    | with_reducible apply endAccess_kept
    | with_reducible apply kept_ite
    | (with_reducible apply kept_foldl; intro t x ht)
    | (with_reducible apply kept_foldl_snd; intro t x ht)
    | split
    | simp only [kept_mk]
    | (with_reducible refine kept_snd (by assumption) ?_)
    | (with_reducible refine kept_snd2 (by assumption) ?_)
    | dsimp -iota only
    | dsimp only
    | decide
    | intro t l w ht
    | intro t l ht
    | intro t ht

theorem coldReq_kept {s0 : State} (s : State) (q : Req) (sub : Nat) (h0 : Kept s0 s) : Kept s0 (coldReq s q sub) := by
  unfold coldReq
  try dsimp -iota only
  repeat' first
    | with_reducible assumption
    | with_reducible apply modReq_kept
    | with_reducible apply kept_ite
    | (with_reducible apply kept_foldl; intro t x ht)
    | (with_reducible apply kept_foldl_snd; intro t x ht)
    | split
    | simp only [kept_mk]
    | (with_reducible refine kept_snd (by assumption) ?_)
    | (with_reducible refine kept_snd2 (by assumption) ?_)
    | dsimp -iota only
    | dsimp only
    | decide
    | intro t l w ht
    | intro t l ht
    | intro t ht

theorem rewalkFails_kept {s0 : State} (s : State) (r : RowId) (k : Nat) (t : Trap) (h0 : Kept s0 s) : Kept s0 (rewalkFails s r k t) := by
  unfold rewalkFails
  try dsimp -iota only
  repeat' first
    | with_reducible assumption
    | with_reducible apply walkWaits_kept
    | with_reducible apply asyncFault_kept
    | with_reducible apply kept_ite
    | (with_reducible apply kept_foldl; intro t x ht)
    | (with_reducible apply kept_foldl_snd; intro t x ht)
    | split
    | simp only [kept_mk]
    | (with_reducible refine kept_snd (by assumption) ?_)
    | (with_reducible refine kept_snd2 (by assumption) ?_)
    | dsimp -iota only
    | dsimp only
    | decide
    | intro t l w ht
    | intro t l ht
    | intro t ht

theorem retryReq_kept {s0 : State} (s : State) (q : Req) (a : Acc) (h0 : Kept s0 s) : Kept s0 (retryReq s q a) := by
  unfold retryReq
  try dsimp -iota only
  repeat' first
    | with_reducible assumption
    | with_reducible apply modReq_kept
    | with_reducible apply rewalkFails_kept
    | with_reducible apply kept_ite
    | (with_reducible apply kept_foldl; intro t x ht)
    | (with_reducible apply kept_foldl_snd; intro t x ht)
    | split
    | simp only [kept_mk]
    | (with_reducible refine kept_snd (by assumption) ?_)
    | (with_reducible refine kept_snd2 (by assumption) ?_)
    | dsimp -iota only
    | dsimp only
    | decide
    | intro t l w ht
    | intro t l ht
    | intro t ht

theorem loadDo_kept {s0 : State} (s : State) (q : Req) (p : Part) (fe : Nat) (nt : Bool) (h0 : Kept s0 s) : Kept s0 (loadDo s q p fe nt) := by
  unfold loadDo
  try dsimp -iota only
  repeat' first
    | with_reducible assumption
    | with_reducible apply retryReq_kept
    | with_reducible apply lostReq_kept
    | with_reducible apply readPart_kept
    | with_reducible apply settle_kept
    | with_reducible apply modReq_kept
    | with_reducible apply asyncFault_kept
    | with_reducible apply coldReq_kept
    | with_reducible apply kept_ite
    | (with_reducible apply kept_foldl; intro t x ht)
    | (with_reducible apply kept_foldl_snd; intro t x ht)
    | split
    | simp only [kept_mk]
    | (with_reducible refine kept_snd (by assumption) ?_)
    | (with_reducible refine kept_snd2 (by assumption) ?_)
    | dsimp -iota only
    | dsimp only
    | decide
    | intro t l w ht
    | intro t l ht
    | intro t ht

theorem logReq_kept {s0 : State} (s : State) (q : Req) (p : Part) (core : Nat) (x : Nat) (ops : List Byte) (h0 : Kept s0 s) : Kept s0 (logReq s q p core x ops) := by
  unfold logReq
  try dsimp -iota only
  repeat' first
    | with_reducible assumption
    | with_reducible apply logAdd_kept
    | with_reducible apply modReq_kept
    | with_reducible apply kept_ite
    | (with_reducible apply kept_foldl; intro t x ht)
    | (with_reducible apply kept_foldl_snd; intro t x ht)
    | split
    | simp only [kept_mk]
    | (with_reducible refine kept_snd (by assumption) ?_)
    | (with_reducible refine kept_snd2 (by assumption) ?_)
    | dsimp -iota only
    | dsimp only
    | decide
    | intro t l w ht
    | intro t l ht
    | intro t ht

theorem loadPerform_kept {s0 : State} (s : State) (q : Req) (p : Part) (fe : Nat) (nt : Bool) (h0 : Kept s0 s) : Kept s0 (loadPerform s q p fe nt) := by
  unfold loadPerform
  try dsimp -iota only
  repeat' first
    | with_reducible assumption
    | with_reducible apply logReq_kept
    | with_reducible apply loadDo_kept
    | with_reducible apply kept_ite
    | (with_reducible apply kept_foldl; intro t x ht)
    | (with_reducible apply kept_foldl_snd; intro t x ht)
    | split
    | simp only [kept_mk]
    | (with_reducible refine kept_snd (by assumption) ?_)
    | (with_reducible refine kept_snd2 (by assumption) ?_)
    | dsimp -iota only
    | dsimp only
    | decide
    | intro t l w ht
    | intro t l ht
    | intro t ht

theorem fillOwed_kept {s0 : State} (s : State) (r : RowId) (k : Nat) (bound : Nat) (w : Nat) (v : Word) (h0 : Kept s0 s) : Kept s0 (fillOwed s r k bound w v) := by
  unfold fillOwed
  try dsimp -iota only
  repeat' first
    | with_reducible assumption
    | with_reducible apply putW_kept
    | with_reducible apply fillWord_kept
    | with_reducible apply kept_ite
    | (with_reducible apply kept_foldl; intro t x ht)
    | (with_reducible apply kept_foldl_snd; intro t x ht)
    | split
    | simp only [kept_mk]
    | (with_reducible refine kept_snd (by assumption) ?_)
    | (with_reducible refine kept_snd2 (by assumption) ?_)
    | dsimp -iota only
    | dsimp only
    | decide
    | intro t l w ht
    | intro t l ht
    | intro t ht

theorem fillWords_kept {s0 : State} (s : State) (r : RowId) (k : Nat) (bound : Nat) (skip : List Nat) (q : RowId) (w : Nat) (bs : List Byte) (h0 : Kept s0 s) : Kept s0 (fillWords s r k bound skip q w bs) := by
  unfold fillWords
  try dsimp -iota only
  repeat' first
    | with_reducible assumption
    | with_reducible apply putRowBytes_kept
    | with_reducible apply setFulls_kept
    | with_reducible apply unpoison_kept
    | with_reducible apply kept_ite
    | (with_reducible apply kept_foldl; intro t x ht)
    | (with_reducible apply kept_foldl_snd; intro t x ht)
    | split
    | simp only [kept_mk]
    | (with_reducible refine kept_snd (by assumption) ?_)
    | (with_reducible refine kept_snd2 (by assumption) ?_)
    | dsimp -iota only
    | dsimp only
    | decide
    | intro t l w ht
    | intro t l ht
    | intro t ht

theorem deliverStep_kept {s0 : State} (s : State) (q : Req) (w : Nat) (h0 : Kept s0 s) : Kept s0 (deliverStep s q w) := by
  unfold deliverStep
  try dsimp -iota only
  repeat' first
    | with_reducible assumption
    | with_reducible apply settle_kept
    | with_reducible apply modReq_kept
    | with_reducible apply logAdd_kept
    | with_reducible apply fillOwed_kept
    | with_reducible apply kept_ite
    | (with_reducible apply kept_foldl; intro t x ht)
    | (with_reducible apply kept_foldl_snd; intro t x ht)
    | split
    | simp only [kept_mk]
    | (with_reducible refine kept_snd (by assumption) ?_)
    | (with_reducible refine kept_snd2 (by assumption) ?_)
    | dsimp -iota only
    | dsimp only
    | decide
    | intro t l w ht
    | intro t l ht
    | intro t ht

theorem atomicAt_kept {s0 : State} (s : State) (who : RowId) (fn : Nat) (b : Word) (e : Word) (rm : RMode) (p : Part) (h0 : Kept s0 s) : Kept s0 (atomicAt s who fn b e rm p).2.2 := by
  unfold atomicAt
  try dsimp -iota only
  repeat' first
    | with_reducible assumption
    | with_reducible apply rowLoad_kept
    | with_reducible apply received_kept
    | with_reducible apply rowStore_kept
    | with_reducible apply memWrite_kept
    | with_reducible apply mergeCopies_kept
    | with_reducible apply homeRead_kept
    | with_reducible apply landFlights_kept
    | with_reducible apply guestUpdate_kept
    | with_reducible apply homeStore_kept
    | with_reducible apply kept_ite
    | (with_reducible apply kept_foldl; intro t x ht)
    | (with_reducible apply kept_foldl_snd; intro t x ht)
    | split
    | simp only [kept_mk]
    | (with_reducible refine kept_snd (by assumption) ?_)
    | (with_reducible refine kept_snd2 (by assumption) ?_)
    | dsimp -iota only
    | dsimp only
    | decide
    | intro t l w ht
    | intro t l ht
    | intro t ht

theorem sendAction_kept {s0 : State} (s : State) (part : Nat) (core : Nat) (p : Part) (a : Word) (h0 : Kept s0 s) : Kept s0 (sendAction s part core p a) := by
  unfold sendAction
  try dsimp -iota only
  repeat' first
    | with_reducible assumption
    | with_reducible apply kept_ite
    | (with_reducible apply kept_foldl; intro t x ht)
    | (with_reducible apply kept_foldl_snd; intro t x ht)
    | split
    | simp only [kept_mk]
    | (with_reducible refine kept_snd (by assumption) ?_)
    | (with_reducible refine kept_snd2 (by assumption) ?_)
    | dsimp -iota only
    | dsimp only
    | decide
    | intro t l w ht
    | intro t l ht
    | intro t ht

theorem readAction_kept {s0 : State} (s : State) (who : RowId) (p : Part) (h0 : Kept s0 s) : Kept s0 (readAction s who p).2 := by
  unfold readAction
  try dsimp -iota only
  repeat' first
    | with_reducible assumption
    | with_reducible apply rowLoad_kept
    | with_reducible apply homeRead_kept
    | with_reducible apply landFlights_kept
    | with_reducible apply kept_ite
    | (with_reducible apply kept_foldl; intro t x ht)
    | (with_reducible apply kept_foldl_snd; intro t x ht)
    | split
    | simp only [kept_mk]
    | (with_reducible refine kept_snd (by assumption) ?_)
    | (with_reducible refine kept_snd2 (by assumption) ?_)
    | dsimp -iota only
    | dsimp only
    | decide
    | intro t l w ht
    | intro t l ht
    | intro t ht

theorem fireAction_kept {s0 : State} (s : State) (part : Nat) (core : Nat) (p : Part) (a : Word) (h0 : Kept s0 s) : Kept s0 (fireAction s part core p a).2 := by
  unfold fireAction
  try dsimp -iota only
  repeat' first
    | with_reducible assumption
    | with_reducible apply sendAction_kept
    | with_reducible apply kept_ite
    | (with_reducible apply kept_foldl; intro t x ht)
    | (with_reducible apply kept_foldl_snd; intro t x ht)
    | split
    | simp only [kept_mk]
    | (with_reducible refine kept_snd (by assumption) ?_)
    | (with_reducible refine kept_snd2 (by assumption) ?_)
    | dsimp -iota only
    | dsimp only
    | decide
    | intro t l w ht
    | intro t l ht
    | intro t ht

theorem atomicEnd_kept {s0 : State} (s : State) (t : State) (q : Req) (p : Part) (bs : List Byte) (fl : FFlags) (act : Option Word) (h0 : Kept s0 s) (h1 : Kept s0 t) : Kept s0 (atomicEnd s t q p bs fl act) := by
  unfold atomicEnd
  try dsimp -iota only
  repeat' first
    | with_reducible assumption
    | with_reducible apply fireAction_kept
    | with_reducible apply reply_kept
    | with_reducible apply settle_kept
    | with_reducible apply modReq_kept
    | with_reducible apply logFull_kept
    | with_reducible apply kept_ite
    | (with_reducible apply kept_foldl; intro t x ht)
    | (with_reducible apply kept_foldl_snd; intro t x ht)
    | split
    | simp only [kept_mk]
    | (with_reducible refine kept_snd (by assumption) ?_)
    | (with_reducible refine kept_snd2 (by assumption) ?_)
    | dsimp -iota only
    | dsimp only
    | decide
    | intro t l w ht
    | intro t l ht
    | intro t ht

theorem atomicDo_kept {s0 : State} (s : State) (q : Req) (p : Part) (fn : Nat) (b : Word) (e : Word) (rm : RMode) (h0 : Kept s0 s) : Kept s0 (atomicDo s q p fn b e rm) := by
  unfold atomicDo
  try dsimp -iota only
  repeat' first
    | with_reducible assumption
    | with_reducible apply retryReq_kept
    | with_reducible apply lostReq_kept
    | with_reducible apply atomicAt_kept
    | with_reducible apply readAction_kept
    | with_reducible apply atomicEnd_kept
    | with_reducible apply asyncFault_kept
    | with_reducible apply coldReq_kept
    | with_reducible apply kept_ite
    | (with_reducible apply kept_foldl; intro t x ht)
    | (with_reducible apply kept_foldl_snd; intro t x ht)
    | split
    | simp only [kept_mk]
    | (with_reducible refine kept_snd (by assumption) ?_)
    | (with_reducible refine kept_snd2 (by assumption) ?_)
    | dsimp -iota only
    | dsimp only
    | decide
    | intro t l w ht
    | intro t l ht
    | intro t ht

theorem atomicPerform_kept {s0 : State} (s : State) (q : Req) (p : Part) (h0 : Kept s0 s) : Kept s0 (atomicPerform s q p) := by
  unfold atomicPerform
  try dsimp -iota only
  repeat' first
    | with_reducible assumption
    | with_reducible apply logReq_kept
    | with_reducible apply atomicDo_kept
    | with_reducible apply kept_ite
    | (with_reducible apply kept_foldl; intro t x ht)
    | (with_reducible apply kept_foldl_snd; intro t x ht)
    | split
    | simp only [kept_mk]
    | (with_reducible refine kept_snd (by assumption) ?_)
    | (with_reducible refine kept_snd2 (by assumption) ?_)
    | dsimp -iota only
    | dsimp only
    | decide
    | intro t l w ht
    | intro t l ht
    | intro t ht

theorem sendPerform_kept {s0 : State} (s : State) (q : Req) (h0 : Kept s0 s) : Kept s0 (sendPerform s q) := by
  unfold sendPerform
  try dsimp -iota only
  repeat' first
    | with_reducible assumption
    | with_reducible apply modCore_kept
    | with_reducible apply modDie_kept
    | with_reducible apply settle_kept
    | with_reducible apply modReq_kept
    | with_reducible apply kept_ite
    | (with_reducible apply kept_foldl; intro t x ht)
    | (with_reducible apply kept_foldl_snd; intro t x ht)
    | split
    | simp only [kept_mk]
    | (with_reducible refine kept_snd (by assumption) ?_)
    | (with_reducible refine kept_snd2 (by assumption) ?_)
    | dsimp -iota only
    | dsimp only
    | decide
    | intro t l w ht
    | intro t l ht
    | intro t ht

end Sys2Proof.Machine
end

