-- ==== Sys2Proof/Laws/KeptOperands.lean ====
section
/-! SUPPORT. The operations of Machine/Operands.lean keep canonical memory and legal control blocks (Kept.lean). -/

namespace Sys2Proof.Machine

set_option linter.all false

theorem setX_kept {s0 : State} (s : State) (r : RowId) (d : Reg) (v : Word) (h0 : Kept s0 s) : Kept s0 (setX s r d v) := by
  unfold setX
  try dsimp -iota only
  repeat' first
    | with_reducible assumption
    | with_reducible apply fillWord_kept
    | with_reducible apply kept_ite
    | (with_reducible apply kept_foldl; intro t x ht)
    | (with_reducible apply kept_foldl_snd; intro t x ht)
    | split
    | simp only [kept_mk]
    | (with_reducible refine kept_snd (by assumption) ?_)
    | (with_reducible refine kept_snd2 (by assumption) ?_)
    | dsimp -iota only
    | dsimp only
    | decide
    | intro t l w ht
    | intro t l ht
    | intro t ht

theorem setE_kept {s0 : State} (s : State) (r : RowId) (e : Nat) (v : Word) (h0 : Kept s0 s) : Kept s0 (setE s r e v) := by
  unfold setE
  try dsimp -iota only
  repeat' first
    | with_reducible assumption
    | with_reducible apply fillWord_kept
    | with_reducible apply kept_ite
    | (with_reducible apply kept_foldl; intro t x ht)
    | (with_reducible apply kept_foldl_snd; intro t x ht)
    | split
    | simp only [kept_mk]
    | (with_reducible refine kept_snd (by assumption) ?_)
    | (with_reducible refine kept_snd2 (by assumption) ?_)
    | dsimp -iota only
    | dsimp only
    | decide
    | intro t l w ht
    | intro t l ht
    | intro t ht

theorem setM_kept {s0 : State} (s : State) (r : RowId) (m : Nat) (v : Word) (h0 : Kept s0 s) : Kept s0 (setM s r m v) := by
  unfold setM
  try dsimp -iota only
  repeat' first
    | with_reducible assumption
    | with_reducible apply fillWord_kept
    | with_reducible apply kept_ite
    | (with_reducible apply kept_foldl; intro t x ht)
    | (with_reducible apply kept_foldl_snd; intro t x ht)
    | split
    | simp only [kept_mk]
    | (with_reducible refine kept_snd (by assumption) ?_)
    | (with_reducible refine kept_snd2 (by assumption) ?_)
    | dsimp -iota only
    | dsimp only
    | decide
    | intro t l w ht
    | intro t l ht
    | intro t ht

theorem fillBytes_kept {s0 : State} (s : State) (r : RowId) (w : Nat) (bs : List Byte) (h0 : Kept s0 s) : Kept s0 (fillBytes s r w bs) := by
  unfold fillBytes
  try dsimp -iota only
  repeat' first
    | with_reducible assumption
    | with_reducible apply setFulls_kept
    | with_reducible apply unpoison_kept
    | with_reducible apply putRowBytes_kept
    | with_reducible apply kept_ite
    | (with_reducible apply kept_foldl; intro t x ht)
    | (with_reducible apply kept_foldl_snd; intro t x ht)
    | split
    | simp only [kept_mk]
    | (with_reducible refine kept_snd (by assumption) ?_)
    | (with_reducible refine kept_snd2 (by assumption) ?_)
    | dsimp -iota only
    | dsimp only
    | decide
    | intro t l w ht
    | intro t l ht
    | intro t ht

theorem setV_kept {s0 : State} (s : State) (r : RowId) (v : Nat) (bs : List Byte) (h0 : Kept s0 s) : Kept s0 (setV s r v bs) := by
  unfold setV
  try dsimp -iota only
  repeat' first
    | with_reducible assumption
    | with_reducible apply fillBytes_kept
    | with_reducible apply kept_ite
    | (with_reducible apply kept_foldl; intro t x ht)
    | (with_reducible apply kept_foldl_snd; intro t x ht)
    | split
    | simp only [kept_mk]
    | (with_reducible refine kept_snd (by assumption) ?_)
    | (with_reducible refine kept_snd2 (by assumption) ?_)
    | dsimp -iota only
    | dsimp only
    | decide
    | intro t l w ht
    | intro t l ht
    | intro t ht

theorem gate_kept {s0 : State} (s : State) (r : RowId) (k : Nat) (xs : List Src) (body : State) (h0 : Kept s0 s) (h1 : Kept s0 body) : Kept s0 (gate s r k xs body) := by
  unfold gate
  try dsimp -iota only
  repeat' first
    | with_reducible assumption
    | with_reducible apply raise_kept
    | with_reducible apply block_kept
    | with_reducible apply kept_ite
    | (with_reducible apply kept_foldl; intro t x ht)
    | (with_reducible apply kept_foldl_snd; intro t x ht)
    | split
    | simp only [kept_mk]
    | (with_reducible refine kept_snd (by assumption) ?_)
    | (with_reducible refine kept_snd2 (by assumption) ?_)
    | dsimp -iota only
    | dsimp only
    | decide
    | intro t l w ht
    | intro t l ht
    | intro t ht

theorem soundGate_kept {s0 : State} (s : State) (r : RowId) (k : Nat) (w : Nat) (body : State) (h0 : Kept s0 s) (h1 : Kept s0 body) : Kept s0 (soundGate s r k w body) := by
  unfold soundGate
  try dsimp -iota only
  repeat' first
    | with_reducible assumption
    | with_reducible apply raise_kept
    | with_reducible apply kept_ite
    | (with_reducible apply kept_foldl; intro t x ht)
    | (with_reducible apply kept_foldl_snd; intro t x ht)
    | split
    | simp only [kept_mk]
    | (with_reducible refine kept_snd (by assumption) ?_)
    | (with_reducible refine kept_snd2 (by assumption) ?_)
    | dsimp -iota only
    | dsimp only
    | decide
    | intro t l w ht
    | intro t l ht
    | intro t ht

theorem holdGate_kept {s0 : State} (s : State) (r : RowId) (body : State) (h0 : Kept s0 s) (h1 : Kept s0 body) : Kept s0 (holdGate s r body) := by
  unfold holdGate
  try dsimp -iota only
  repeat' first
    | with_reducible assumption
    | with_reducible apply block_kept
    | with_reducible apply kept_ite
    | (with_reducible apply kept_foldl; intro t x ht)
    | (with_reducible apply kept_foldl_snd; intro t x ht)
    | split
    | simp only [kept_mk]
    | (with_reducible refine kept_snd (by assumption) ?_)
    | (with_reducible refine kept_snd2 (by assumption) ?_)
    | dsimp -iota only
    | dsimp only
    | decide
    | intro t l w ht
    | intro t l ht
    | intro t ht

theorem ill_kept {s0 : State} (s : State) (r : RowId) (h0 : Kept s0 s) : Kept s0 (ill s r) := by
  unfold ill
  try dsimp -iota only
  repeat' first
    | with_reducible assumption
    | with_reducible apply raise_kept
    | with_reducible apply kept_ite
    | (with_reducible apply kept_foldl; intro t x ht)
    | (with_reducible apply kept_foldl_snd; intro t x ht)
    | split
    | simp only [kept_mk]
    | (with_reducible refine kept_snd (by assumption) ?_)
    | (with_reducible refine kept_snd2 (by assumption) ?_)
    | dsimp -iota only
    | dsimp only
    | decide
    | intro t l w ht
    | intro t l ht
    | intro t ht

theorem privGate_kept {s0 : State} (s : State) (r : RowId) (body : State) (h0 : Kept s0 s) (h1 : Kept s0 body) : Kept s0 (privGate s r body) := by
  unfold privGate
  try dsimp -iota only
  repeat' first
    | with_reducible assumption
    | with_reducible apply raise_kept
    | with_reducible apply kept_ite
    | (with_reducible apply kept_foldl; intro t x ht)
    | (with_reducible apply kept_foldl_snd; intro t x ht)
    | split
    | simp only [kept_mk]
    | (with_reducible refine kept_snd (by assumption) ?_)
    | (with_reducible refine kept_snd2 (by assumption) ?_)
    | dsimp -iota only
    | dsimp only
    | decide
    | intro t l w ht
    | intro t l ht
    | intro t ht

theorem toStep_kept {s0 : State} (s : State) (r : RowId) (k : Nat) (h0 : Kept s0 s) : Kept s0 (toStep s r k) := by
  unfold toStep
  try dsimp -iota only
  repeat' first
    | with_reducible assumption
    | with_reducible refine modRow_kept ?_ _ _ ?_
    | with_reducible apply kept_ite
    | (with_reducible apply kept_foldl; intro t x ht)
    | (with_reducible apply kept_foldl_snd; intro t x ht)
    | split
    | simp only [kept_mk]
    | (with_reducible refine kept_snd (by assumption) ?_)
    | (with_reducible refine kept_snd2 (by assumption) ?_)
    | dsimp -iota only
    | dsimp only
    | decide
    | (intro w hw; (try dsimp only); (repeat' split); all_goals first | with_reducible assumption | with_reducible exact rowOk_congr hw rfl rfl rfl rfl rfl rfl | (obtain ⟨h1, h2, h3, h4, h5⟩ := hw; refine ⟨?_, ?_, ?_, ?_, ?_⟩ <;> (try dsimp only) <;> first | with_reducible assumption | with_reducible exact even_mask _ | with_reducible exact even_256 _ | with_reducible exact flags_mask _ | with_reducible exact flags_or _ h5 | with_reducible exact .inl rfl | (simp; done)))
    | intro t l w ht
    | intro t l ht
    | intro t ht

theorem retX_kept {s0 : State} (s : State) (r : RowId) (d : Reg) (v : Word) (n : Nat) (h0 : Kept s0 s) : Kept s0 (retX s r d v n) := by
  unfold retX
  try dsimp -iota only
  repeat' first
    | with_reducible assumption
    | with_reducible apply retire_kept
    | with_reducible apply setX_kept
    | with_reducible apply kept_ite
    | (with_reducible apply kept_foldl; intro t x ht)
    | (with_reducible apply kept_foldl_snd; intro t x ht)
    | split
    | simp only [kept_mk]
    | (with_reducible refine kept_snd (by assumption) ?_)
    | (with_reducible refine kept_snd2 (by assumption) ?_)
    | dsimp -iota only
    | dsimp only
    | decide
    | intro t l w ht
    | intro t l ht
    | intro t ht

theorem retXF_kept {s0 : State} (s : State) (r : RowId) (d : Reg) (v : Word) (fl : FFlags) (n : Nat) (h0 : Kept s0 s) : Kept s0 (retXF s r d v fl n) := by
  unfold retXF
  try dsimp -iota only
  repeat' first
    | with_reducible assumption
    | with_reducible apply retire_kept
    | with_reducible apply orFlags_kept
    | with_reducible apply setX_kept
    | with_reducible apply kept_ite
    | (with_reducible apply kept_foldl; intro t x ht)
    | (with_reducible apply kept_foldl_snd; intro t x ht)
    | split
    | simp only [kept_mk]
    | (with_reducible refine kept_snd (by assumption) ?_)
    | (with_reducible refine kept_snd2 (by assumption) ?_)
    | dsimp -iota only
    | dsimp only
    | decide
    | intro t l w ht
    | intro t l ht
    | intro t ht

theorem retV_kept {s0 : State} (s : State) (r : RowId) (ty : Nat) (mk : Nat) (d : Nat) (f : Nat → FRes) (n : Nat) (h0 : Kept s0 s) : Kept s0 (retV s r ty mk d f n) := by
  unfold retV
  try dsimp -iota only
  repeat' first
    | with_reducible assumption
    | with_reducible apply retire_kept
    | with_reducible apply orFlags_kept
    | with_reducible apply setV_kept
    | with_reducible apply kept_ite
    | (with_reducible apply kept_foldl; intro t x ht)
    | (with_reducible apply kept_foldl_snd; intro t x ht)
    | split
    | simp only [kept_mk]
    | (with_reducible refine kept_snd (by assumption) ?_)
    | (with_reducible refine kept_snd2 (by assumption) ?_)
    | dsimp -iota only
    | dsimp only
    | decide
    | intro t l w ht
    | intro t l ht
    | intro t ht

end Sys2Proof.Machine
end

