-- ==== Sys2Proof/Laws/KeptScalar.lean ====
section
/-! SUPPORT. The operations of Machine/Scalar.lean keep canonical memory and legal control blocks (Kept.lean). -/

namespace Sys2Proof.Machine

set_option linter.all false

theorem alu2_kept {s0 : State} (s : State) (sz : Bool) (tb : Bool) (ta : Bool) (b : Reg) (a : Reg) (d : Reg) (f : (n x y : Nat) → Nat) (h0 : Kept s0 s) : Kept s0 (alu2 s sz tb ta b a d f) := by
  unfold alu2
  try dsimp -iota only
  repeat' first
    | with_reducible assumption
    | with_reducible apply gate_kept
    | with_reducible apply retX_kept
    | with_reducible apply kept_ite
    | (with_reducible apply kept_foldl; intro t x ht)
    | (with_reducible apply kept_foldl_snd; intro t x ht)
    | split
    | simp only [kept_mk]
    | (with_reducible refine kept_snd (by assumption) ?_)
    | (with_reducible refine kept_snd2 (by assumption) ?_)
    | dsimp -iota only
    | dsimp only
    | decide
    | intro t l w ht
    | intro t l ht
    | intro t ht

theorem alu1_kept {s0 : State} (s : State) (sz : Bool) (ta : Bool) (a : Reg) (d : Reg) (f : (n x : Nat) → Nat) (h0 : Kept s0 s) : Kept s0 (alu1 s sz ta a d f) := by
  unfold alu1
  try dsimp -iota only
  repeat' first
    | with_reducible assumption
    | with_reducible apply gate_kept
    | with_reducible apply retX_kept
    | with_reducible apply kept_ite
    | (with_reducible apply kept_foldl; intro t x ht)
    | (with_reducible apply kept_foldl_snd; intro t x ht)
    | split
    | simp only [kept_mk]
    | (with_reducible refine kept_snd (by assumption) ?_)
    | (with_reducible refine kept_snd2 (by assumption) ?_)
    | dsimp -iota only
    | dsimp only
    | decide
    | intro t l w ht
    | intro t l ht
    | intro t ht

theorem aluImm_kept {s0 : State} (s : State) (ta : Bool) (a : Reg) (d : Reg) (f : Word → Word) (h0 : Kept s0 s) : Kept s0 (aluImm s ta a d f) := by
  unfold aluImm
  try dsimp -iota only
  repeat' first
    | with_reducible assumption
    | with_reducible apply gate_kept
    | with_reducible apply retX_kept
    | with_reducible apply kept_ite
    | (with_reducible apply kept_foldl; intro t x ht)
    | (with_reducible apply kept_foldl_snd; intro t x ht)
    | split
    | simp only [kept_mk]
    | (with_reducible refine kept_snd (by assumption) ?_)
    | (with_reducible refine kept_snd2 (by assumption) ?_)
    | dsimp -iota only
    | dsimp only
    | decide
    | intro t l w ht
    | intro t l ht
    | intro t ht

theorem execAluAdd_kept {s0 : State} (sz : Bool) (tb : Bool) (ta : Bool) (b : Reg) (a : Reg) (d : Reg) (s : State) (h0 : Kept s0 s) : KeptO s0 (execAluAdd sz tb ta b a d s) := by
  unfold execAluAdd
  try dsimp -iota only
  repeat' first
    | with_reducible assumption
    | with_reducible apply alu2_kept
    | with_reducible apply keptO_next
    | with_reducible apply kept_ite
    | (with_reducible apply kept_foldl; intro t x ht)
    | (with_reducible apply kept_foldl_snd; intro t x ht)
    | split
    | simp only [kept_mk]
    | (with_reducible refine kept_snd (by assumption) ?_)
    | (with_reducible refine kept_snd2 (by assumption) ?_)
    | dsimp -iota only
    | dsimp only
    | decide
    | intro t l w ht
    | intro t l ht
    | intro t ht

theorem execAluSub_kept {s0 : State} (sz : Bool) (tb : Bool) (ta : Bool) (b : Reg) (a : Reg) (d : Reg) (s : State) (h0 : Kept s0 s) : KeptO s0 (execAluSub sz tb ta b a d s) := by
  unfold execAluSub
  try dsimp -iota only
  repeat' first
    | with_reducible assumption
    | with_reducible apply alu2_kept
    | with_reducible apply keptO_next
    | with_reducible apply kept_ite
    | (with_reducible apply kept_foldl; intro t x ht)
    | (with_reducible apply kept_foldl_snd; intro t x ht)
    | split
    | simp only [kept_mk]
    | (with_reducible refine kept_snd (by assumption) ?_)
    | (with_reducible refine kept_snd2 (by assumption) ?_)
    | dsimp -iota only
    | dsimp only
    | decide
    | intro t l w ht
    | intro t l ht
    | intro t ht

theorem execAluMul_kept {s0 : State} (sz : Bool) (tb : Bool) (ta : Bool) (b : Reg) (a : Reg) (d : Reg) (s : State) (h0 : Kept s0 s) : KeptO s0 (execAluMul sz tb ta b a d s) := by
  unfold execAluMul
  try dsimp -iota only
  repeat' first
    | with_reducible assumption
    | with_reducible apply alu2_kept
    | with_reducible apply keptO_next
    | with_reducible apply kept_ite
    | (with_reducible apply kept_foldl; intro t x ht)
    | (with_reducible apply kept_foldl_snd; intro t x ht)
    | split
    | simp only [kept_mk]
    | (with_reducible refine kept_snd (by assumption) ?_)
    | (with_reducible refine kept_snd2 (by assumption) ?_)
    | dsimp -iota only
    | dsimp only
    | decide
    | intro t l w ht
    | intro t l ht
    | intro t ht

theorem execAluMulh_kept {s0 : State} (sz : Bool) (tb : Bool) (ta : Bool) (b : Reg) (a : Reg) (d : Reg) (s : State) (h0 : Kept s0 s) : KeptO s0 (execAluMulh sz tb ta b a d s) := by
  unfold execAluMulh
  try dsimp -iota only
  repeat' first
    | with_reducible assumption
    | with_reducible apply alu2_kept
    | with_reducible apply keptO_next
    | with_reducible apply kept_ite
    | (with_reducible apply kept_foldl; intro t x ht)
    | (with_reducible apply kept_foldl_snd; intro t x ht)
    | split
    | simp only [kept_mk]
    | (with_reducible refine kept_snd (by assumption) ?_)
    | (with_reducible refine kept_snd2 (by assumption) ?_)
    | dsimp -iota only
    | dsimp only
    | decide
    | intro t l w ht
    | intro t l ht
    | intro t ht

theorem execAluMulhu_kept {s0 : State} (sz : Bool) (tb : Bool) (ta : Bool) (b : Reg) (a : Reg) (d : Reg) (s : State) (h0 : Kept s0 s) : KeptO s0 (execAluMulhu sz tb ta b a d s) := by
  unfold execAluMulhu
  try dsimp -iota only
  repeat' first
    | with_reducible assumption
    | with_reducible apply alu2_kept
    | with_reducible apply keptO_next
    | with_reducible apply kept_ite
    | (with_reducible apply kept_foldl; intro t x ht)
    | (with_reducible apply kept_foldl_snd; intro t x ht)
    | split
    | simp only [kept_mk]
    | (with_reducible refine kept_snd (by assumption) ?_)
    | (with_reducible refine kept_snd2 (by assumption) ?_)
    | dsimp -iota only
    | dsimp only
    | decide
    | intro t l w ht
    | intro t l ht
    | intro t ht

theorem execAluDiv_kept {s0 : State} (sz : Bool) (tb : Bool) (ta : Bool) (b : Reg) (a : Reg) (d : Reg) (s : State) (h0 : Kept s0 s) : KeptO s0 (execAluDiv sz tb ta b a d s) := by
  unfold execAluDiv
  try dsimp -iota only
  repeat' first
    | with_reducible assumption
    | with_reducible apply alu2_kept
    | with_reducible apply keptO_next
    | with_reducible apply kept_ite
    | (with_reducible apply kept_foldl; intro t x ht)
    | (with_reducible apply kept_foldl_snd; intro t x ht)
    | split
    | simp only [kept_mk]
    | (with_reducible refine kept_snd (by assumption) ?_)
    | (with_reducible refine kept_snd2 (by assumption) ?_)
    | dsimp -iota only
    | dsimp only
    | decide
    | intro t l w ht
    | intro t l ht
    | intro t ht

theorem execAluDivu_kept {s0 : State} (sz : Bool) (tb : Bool) (ta : Bool) (b : Reg) (a : Reg) (d : Reg) (s : State) (h0 : Kept s0 s) : KeptO s0 (execAluDivu sz tb ta b a d s) := by
  unfold execAluDivu
  try dsimp -iota only
  repeat' first
    | with_reducible assumption
    | with_reducible apply alu2_kept
    | with_reducible apply keptO_next
    | with_reducible apply kept_ite
    | (with_reducible apply kept_foldl; intro t x ht)
    | (with_reducible apply kept_foldl_snd; intro t x ht)
    | split
    | simp only [kept_mk]
    | (with_reducible refine kept_snd (by assumption) ?_)
    | (with_reducible refine kept_snd2 (by assumption) ?_)
    | dsimp -iota only
    | dsimp only
    | decide
    | intro t l w ht
    | intro t l ht
    | intro t ht

theorem execAluRem_kept {s0 : State} (sz : Bool) (tb : Bool) (ta : Bool) (b : Reg) (a : Reg) (d : Reg) (s : State) (h0 : Kept s0 s) : KeptO s0 (execAluRem sz tb ta b a d s) := by
  unfold execAluRem
  try dsimp -iota only
  repeat' first
    | with_reducible assumption
    | with_reducible apply alu2_kept
    | with_reducible apply keptO_next
    | with_reducible apply kept_ite
    | (with_reducible apply kept_foldl; intro t x ht)
    | (with_reducible apply kept_foldl_snd; intro t x ht)
    | split
    | simp only [kept_mk]
    | (with_reducible refine kept_snd (by assumption) ?_)
    | (with_reducible refine kept_snd2 (by assumption) ?_)
    | dsimp -iota only
    | dsimp only
    | decide
    | intro t l w ht
    | intro t l ht
    | intro t ht

theorem execAluRemu_kept {s0 : State} (sz : Bool) (tb : Bool) (ta : Bool) (b : Reg) (a : Reg) (d : Reg) (s : State) (h0 : Kept s0 s) : KeptO s0 (execAluRemu sz tb ta b a d s) := by
  unfold execAluRemu
  try dsimp -iota only
  repeat' first
    | with_reducible assumption
    | with_reducible apply alu2_kept
    | with_reducible apply keptO_next
    | with_reducible apply kept_ite
    | (with_reducible apply kept_foldl; intro t x ht)
    | (with_reducible apply kept_foldl_snd; intro t x ht)
    | split
    | simp only [kept_mk]
    | (with_reducible refine kept_snd (by assumption) ?_)
    | (with_reducible refine kept_snd2 (by assumption) ?_)
    | dsimp -iota only
    | dsimp only
    | decide
    | intro t l w ht
    | intro t l ht
    | intro t ht

theorem execAluAnd_kept {s0 : State} (sz : Bool) (tb : Bool) (ta : Bool) (b : Reg) (a : Reg) (d : Reg) (s : State) (h0 : Kept s0 s) : KeptO s0 (execAluAnd sz tb ta b a d s) := by
  unfold execAluAnd
  try dsimp -iota only
  repeat' first
    | with_reducible assumption
    | with_reducible apply alu2_kept
    | with_reducible apply keptO_next
    | with_reducible apply kept_ite
    | (with_reducible apply kept_foldl; intro t x ht)
    | (with_reducible apply kept_foldl_snd; intro t x ht)
    | split
    | simp only [kept_mk]
    | (with_reducible refine kept_snd (by assumption) ?_)
    | (with_reducible refine kept_snd2 (by assumption) ?_)
    | dsimp -iota only
    | dsimp only
    | decide
    | intro t l w ht
    | intro t l ht
    | intro t ht

theorem execAluOr_kept {s0 : State} (sz : Bool) (tb : Bool) (ta : Bool) (b : Reg) (a : Reg) (d : Reg) (s : State) (h0 : Kept s0 s) : KeptO s0 (execAluOr sz tb ta b a d s) := by
  unfold execAluOr
  try dsimp -iota only
  repeat' first
    | with_reducible assumption
    | with_reducible apply alu2_kept
    | with_reducible apply keptO_next
    | with_reducible apply kept_ite
    | (with_reducible apply kept_foldl; intro t x ht)
    | (with_reducible apply kept_foldl_snd; intro t x ht)
    | split
    | simp only [kept_mk]
    | (with_reducible refine kept_snd (by assumption) ?_)
    | (with_reducible refine kept_snd2 (by assumption) ?_)
    | dsimp -iota only
    | dsimp only
    | decide
    | intro t l w ht
    | intro t l ht
    | intro t ht

theorem execAluXor_kept {s0 : State} (sz : Bool) (tb : Bool) (ta : Bool) (b : Reg) (a : Reg) (d : Reg) (s : State) (h0 : Kept s0 s) : KeptO s0 (execAluXor sz tb ta b a d s) := by
  unfold execAluXor
  try dsimp -iota only
  repeat' first
    | with_reducible assumption
    | with_reducible apply alu2_kept
    | with_reducible apply keptO_next
    | with_reducible apply kept_ite
    | (with_reducible apply kept_foldl; intro t x ht)
    | (with_reducible apply kept_foldl_snd; intro t x ht)
    | split
    | simp only [kept_mk]
    | (with_reducible refine kept_snd (by assumption) ?_)
    | (with_reducible refine kept_snd2 (by assumption) ?_)
    | dsimp -iota only
    | dsimp only
    | decide
    | intro t l w ht
    | intro t l ht
    | intro t ht

theorem execAluAndn_kept {s0 : State} (sz : Bool) (tb : Bool) (ta : Bool) (b : Reg) (a : Reg) (d : Reg) (s : State) (h0 : Kept s0 s) : KeptO s0 (execAluAndn sz tb ta b a d s) := by
  unfold execAluAndn
  try dsimp -iota only
  repeat' first
    | with_reducible assumption
    | with_reducible apply alu2_kept
    | with_reducible apply keptO_next
    | with_reducible apply kept_ite
    | (with_reducible apply kept_foldl; intro t x ht)
    | (with_reducible apply kept_foldl_snd; intro t x ht)
    | split
    | simp only [kept_mk]
    | (with_reducible refine kept_snd (by assumption) ?_)
    | (with_reducible refine kept_snd2 (by assumption) ?_)
    | dsimp -iota only
    | dsimp only
    | decide
    | intro t l w ht
    | intro t l ht
    | intro t ht

theorem execAluShl_kept {s0 : State} (sz : Bool) (tb : Bool) (ta : Bool) (b : Reg) (a : Reg) (d : Reg) (s : State) (h0 : Kept s0 s) : KeptO s0 (execAluShl sz tb ta b a d s) := by
  unfold execAluShl
  try dsimp -iota only
  repeat' first
    | with_reducible assumption
    | with_reducible apply alu2_kept
    | with_reducible apply keptO_next
    | with_reducible apply kept_ite
    | (with_reducible apply kept_foldl; intro t x ht)
    | (with_reducible apply kept_foldl_snd; intro t x ht)
    | split
    | simp only [kept_mk]
    | (with_reducible refine kept_snd (by assumption) ?_)
    | (with_reducible refine kept_snd2 (by assumption) ?_)
    | dsimp -iota only
    | dsimp only
    | decide
    | intro t l w ht
    | intro t l ht
    | intro t ht

theorem execAluShr_kept {s0 : State} (sz : Bool) (tb : Bool) (ta : Bool) (b : Reg) (a : Reg) (d : Reg) (s : State) (h0 : Kept s0 s) : KeptO s0 (execAluShr sz tb ta b a d s) := by
  unfold execAluShr
  try dsimp -iota only
  repeat' first
    | with_reducible assumption
    | with_reducible apply alu2_kept
    | with_reducible apply keptO_next
    | with_reducible apply kept_ite
    | (with_reducible apply kept_foldl; intro t x ht)
    | (with_reducible apply kept_foldl_snd; intro t x ht)
    | split
    | simp only [kept_mk]
    | (with_reducible refine kept_snd (by assumption) ?_)
    | (with_reducible refine kept_snd2 (by assumption) ?_)
    | dsimp -iota only
    | dsimp only
    | decide
    | intro t l w ht
    | intro t l ht
    | intro t ht

theorem execAluSra_kept {s0 : State} (sz : Bool) (tb : Bool) (ta : Bool) (b : Reg) (a : Reg) (d : Reg) (s : State) (h0 : Kept s0 s) : KeptO s0 (execAluSra sz tb ta b a d s) := by
  unfold execAluSra
  try dsimp -iota only
  repeat' first
    | with_reducible assumption
    | with_reducible apply alu2_kept
    | with_reducible apply keptO_next
    | with_reducible apply kept_ite
    | (with_reducible apply kept_foldl; intro t x ht)
    | (with_reducible apply kept_foldl_snd; intro t x ht)
    | split
    | simp only [kept_mk]
    | (with_reducible refine kept_snd (by assumption) ?_)
    | (with_reducible refine kept_snd2 (by assumption) ?_)
    | dsimp -iota only
    | dsimp only
    | decide
    | intro t l w ht
    | intro t l ht
    | intro t ht

theorem execAluMin_kept {s0 : State} (sz : Bool) (tb : Bool) (ta : Bool) (b : Reg) (a : Reg) (d : Reg) (s : State) (h0 : Kept s0 s) : KeptO s0 (execAluMin sz tb ta b a d s) := by
  unfold execAluMin
  try dsimp -iota only
  repeat' first
    | with_reducible assumption
    | with_reducible apply alu2_kept
    | with_reducible apply keptO_next
    | with_reducible apply kept_ite
    | (with_reducible apply kept_foldl; intro t x ht)
    | (with_reducible apply kept_foldl_snd; intro t x ht)
    | split
    | simp only [kept_mk]
    | (with_reducible refine kept_snd (by assumption) ?_)
    | (with_reducible refine kept_snd2 (by assumption) ?_)
    | dsimp -iota only
    | dsimp only
    | decide
    | intro t l w ht
    | intro t l ht
    | intro t ht

theorem execAluMax_kept {s0 : State} (sz : Bool) (tb : Bool) (ta : Bool) (b : Reg) (a : Reg) (d : Reg) (s : State) (h0 : Kept s0 s) : KeptO s0 (execAluMax sz tb ta b a d s) := by
  unfold execAluMax
  try dsimp -iota only
  repeat' first
    | with_reducible assumption
    | with_reducible apply alu2_kept
    | with_reducible apply keptO_next
    | with_reducible apply kept_ite
    | (with_reducible apply kept_foldl; intro t x ht)
    | (with_reducible apply kept_foldl_snd; intro t x ht)
    | split
    | simp only [kept_mk]
    | (with_reducible refine kept_snd (by assumption) ?_)
    | (with_reducible refine kept_snd2 (by assumption) ?_)
    | dsimp -iota only
    | dsimp only
    | decide
    | intro t l w ht
    | intro t l ht
    | intro t ht

theorem execAluMinu_kept {s0 : State} (sz : Bool) (tb : Bool) (ta : Bool) (b : Reg) (a : Reg) (d : Reg) (s : State) (h0 : Kept s0 s) : KeptO s0 (execAluMinu sz tb ta b a d s) := by
  unfold execAluMinu
  try dsimp -iota only
  repeat' first
    | with_reducible assumption
    | with_reducible apply alu2_kept
    | with_reducible apply keptO_next
    | with_reducible apply kept_ite
    | (with_reducible apply kept_foldl; intro t x ht)
    | (with_reducible apply kept_foldl_snd; intro t x ht)
    | split
    | simp only [kept_mk]
    | (with_reducible refine kept_snd (by assumption) ?_)
    | (with_reducible refine kept_snd2 (by assumption) ?_)
    | dsimp -iota only
    | dsimp only
    | decide
    | intro t l w ht
    | intro t l ht
    | intro t ht

theorem execAluMaxu_kept {s0 : State} (sz : Bool) (tb : Bool) (ta : Bool) (b : Reg) (a : Reg) (d : Reg) (s : State) (h0 : Kept s0 s) : KeptO s0 (execAluMaxu sz tb ta b a d s) := by
  unfold execAluMaxu
  try dsimp -iota only
  repeat' first
    | with_reducible assumption
    | with_reducible apply alu2_kept
    | with_reducible apply keptO_next
    | with_reducible apply kept_ite
    | (with_reducible apply kept_foldl; intro t x ht)
    | (with_reducible apply kept_foldl_snd; intro t x ht)
    | split
    | simp only [kept_mk]
    | (with_reducible refine kept_snd (by assumption) ?_)
    | (with_reducible refine kept_snd2 (by assumption) ?_)
    | dsimp -iota only
    | dsimp only
    | decide
    | intro t l w ht
    | intro t l ht
    | intro t ht

theorem execAluRot_kept {s0 : State} (sz : Bool) (tb : Bool) (ta : Bool) (b : Reg) (a : Reg) (d : Reg) (s : State) (h0 : Kept s0 s) : KeptO s0 (execAluRot sz tb ta b a d s) := by
  unfold execAluRot
  try dsimp -iota only
  repeat' first
    | with_reducible assumption
    | with_reducible apply alu2_kept
    | with_reducible apply keptO_next
    | with_reducible apply kept_ite
    | (with_reducible apply kept_foldl; intro t x ht)
    | (with_reducible apply kept_foldl_snd; intro t x ht)
    | split
    | simp only [kept_mk]
    | (with_reducible refine kept_snd (by assumption) ?_)
    | (with_reducible refine kept_snd2 (by assumption) ?_)
    | dsimp -iota only
    | dsimp only
    | decide
    | intro t l w ht
    | intro t l ht
    | intro t ht

theorem execAluClz_kept {s0 : State} (sz : Bool) (_tb : Bool) (ta : Bool) (a : Reg) (d : Reg) (s : State) (h0 : Kept s0 s) : KeptO s0 (execAluClz sz _tb ta a d s) := by
  unfold execAluClz
  try dsimp -iota only
  repeat' first
    | with_reducible assumption
    | with_reducible apply alu1_kept
    | with_reducible apply keptO_next
    | with_reducible apply kept_ite
    | (with_reducible apply kept_foldl; intro t x ht)
    | (with_reducible apply kept_foldl_snd; intro t x ht)
    | split
    | simp only [kept_mk]
    | (with_reducible refine kept_snd (by assumption) ?_)
    | (with_reducible refine kept_snd2 (by assumption) ?_)
    | dsimp -iota only
    | dsimp only
    | decide
    | intro t l w ht
    | intro t l ht
    | intro t ht

theorem execAluCtz_kept {s0 : State} (sz : Bool) (_tb : Bool) (ta : Bool) (a : Reg) (d : Reg) (s : State) (h0 : Kept s0 s) : KeptO s0 (execAluCtz sz _tb ta a d s) := by
  unfold execAluCtz
  try dsimp -iota only
  repeat' first
    | with_reducible assumption
    | with_reducible apply alu1_kept
    | with_reducible apply keptO_next
    | with_reducible apply kept_ite
    | (with_reducible apply kept_foldl; intro t x ht)
    | (with_reducible apply kept_foldl_snd; intro t x ht)
    | split
    | simp only [kept_mk]
    | (with_reducible refine kept_snd (by assumption) ?_)
    | (with_reducible refine kept_snd2 (by assumption) ?_)
    | dsimp -iota only
    | dsimp only
    | decide
    | intro t l w ht
    | intro t l ht
    | intro t ht

theorem execAluPopc_kept {s0 : State} (sz : Bool) (_tb : Bool) (ta : Bool) (a : Reg) (d : Reg) (s : State) (h0 : Kept s0 s) : KeptO s0 (execAluPopc sz _tb ta a d s) := by
  unfold execAluPopc
  try dsimp -iota only
  repeat' first
    | with_reducible assumption
    | with_reducible apply alu1_kept
    | with_reducible apply keptO_next
    | with_reducible apply kept_ite
    | (with_reducible apply kept_foldl; intro t x ht)
    | (with_reducible apply kept_foldl_snd; intro t x ht)
    | split
    | simp only [kept_mk]
    | (with_reducible refine kept_snd (by assumption) ?_)
    | (with_reducible refine kept_snd2 (by assumption) ?_)
    | dsimp -iota only
    | dsimp only
    | decide
    | intro t l w ht
    | intro t l ht
    | intro t ht

theorem execAluEq_kept {s0 : State} (sz : Bool) (tb : Bool) (ta : Bool) (b : Reg) (a : Reg) (d : Reg) (s : State) (h0 : Kept s0 s) : KeptO s0 (execAluEq sz tb ta b a d s) := by
  unfold execAluEq
  try dsimp -iota only
  repeat' first
    | with_reducible assumption
    | with_reducible apply alu2_kept
    | with_reducible apply keptO_next
    | with_reducible apply kept_ite
    | (with_reducible apply kept_foldl; intro t x ht)
    | (with_reducible apply kept_foldl_snd; intro t x ht)
    | split
    | simp only [kept_mk]
    | (with_reducible refine kept_snd (by assumption) ?_)
    | (with_reducible refine kept_snd2 (by assumption) ?_)
    | dsimp -iota only
    | dsimp only
    | decide
    | intro t l w ht
    | intro t l ht
    | intro t ht

theorem execAluNe_kept {s0 : State} (sz : Bool) (tb : Bool) (ta : Bool) (b : Reg) (a : Reg) (d : Reg) (s : State) (h0 : Kept s0 s) : KeptO s0 (execAluNe sz tb ta b a d s) := by
  unfold execAluNe
  try dsimp -iota only
  repeat' first
    | with_reducible assumption
    | with_reducible apply alu2_kept
    | with_reducible apply keptO_next
    | with_reducible apply kept_ite
    | (with_reducible apply kept_foldl; intro t x ht)
    | (with_reducible apply kept_foldl_snd; intro t x ht)
    | split
    | simp only [kept_mk]
    | (with_reducible refine kept_snd (by assumption) ?_)
    | (with_reducible refine kept_snd2 (by assumption) ?_)
    | dsimp -iota only
    | dsimp only
    | decide
    | intro t l w ht
    | intro t l ht
    | intro t ht

theorem execAluLt_kept {s0 : State} (sz : Bool) (tb : Bool) (ta : Bool) (b : Reg) (a : Reg) (d : Reg) (s : State) (h0 : Kept s0 s) : KeptO s0 (execAluLt sz tb ta b a d s) := by
  unfold execAluLt
  try dsimp -iota only
  repeat' first
    | with_reducible assumption
    | with_reducible apply alu2_kept
    | with_reducible apply keptO_next
    | with_reducible apply kept_ite
    | (with_reducible apply kept_foldl; intro t x ht)
    | (with_reducible apply kept_foldl_snd; intro t x ht)
    | split
    | simp only [kept_mk]
    | (with_reducible refine kept_snd (by assumption) ?_)
    | (with_reducible refine kept_snd2 (by assumption) ?_)
    | dsimp -iota only
    | dsimp only
    | decide
    | intro t l w ht
    | intro t l ht
    | intro t ht

theorem execAluLtu_kept {s0 : State} (sz : Bool) (tb : Bool) (ta : Bool) (b : Reg) (a : Reg) (d : Reg) (s : State) (h0 : Kept s0 s) : KeptO s0 (execAluLtu sz tb ta b a d s) := by
  unfold execAluLtu
  try dsimp -iota only
  repeat' first
    | with_reducible assumption
    | with_reducible apply alu2_kept
    | with_reducible apply keptO_next
    | with_reducible apply kept_ite
    | (with_reducible apply kept_foldl; intro t x ht)
    | (with_reducible apply kept_foldl_snd; intro t x ht)
    | split
    | simp only [kept_mk]
    | (with_reducible refine kept_snd (by assumption) ?_)
    | (with_reducible refine kept_snd2 (by assumption) ?_)
    | dsimp -iota only
    | dsimp only
    | decide
    | intro t l w ht
    | intro t l ht
    | intro t ht

theorem execAluLe_kept {s0 : State} (sz : Bool) (tb : Bool) (ta : Bool) (b : Reg) (a : Reg) (d : Reg) (s : State) (h0 : Kept s0 s) : KeptO s0 (execAluLe sz tb ta b a d s) := by
  unfold execAluLe
  try dsimp -iota only
  repeat' first
    | with_reducible assumption
    | with_reducible apply alu2_kept
    | with_reducible apply keptO_next
    | with_reducible apply kept_ite
    | (with_reducible apply kept_foldl; intro t x ht)
    | (with_reducible apply kept_foldl_snd; intro t x ht)
    | split
    | simp only [kept_mk]
    | (with_reducible refine kept_snd (by assumption) ?_)
    | (with_reducible refine kept_snd2 (by assumption) ?_)
    | dsimp -iota only
    | dsimp only
    | decide
    | intro t l w ht
    | intro t l ht
    | intro t ht

theorem execAluLeu_kept {s0 : State} (sz : Bool) (tb : Bool) (ta : Bool) (b : Reg) (a : Reg) (d : Reg) (s : State) (h0 : Kept s0 s) : KeptO s0 (execAluLeu sz tb ta b a d s) := by
  unfold execAluLeu
  try dsimp -iota only
  repeat' first
    | with_reducible assumption
    | with_reducible apply alu2_kept
    | with_reducible apply keptO_next
    | with_reducible apply kept_ite
    | (with_reducible apply kept_foldl; intro t x ht)
    | (with_reducible apply kept_foldl_snd; intro t x ht)
    | split
    | simp only [kept_mk]
    | (with_reducible refine kept_snd (by assumption) ?_)
    | (with_reducible refine kept_snd2 (by assumption) ?_)
    | dsimp -iota only
    | dsimp only
    | decide
    | intro t l w ht
    | intro t l ht
    | intro t ht

theorem execAluSel_kept {s0 : State} (sz : Bool) (tb : Bool) (ta : Bool) (b : Reg) (a : Reg) (d : Reg) (s : State) (h0 : Kept s0 s) : KeptO s0 (execAluSel sz tb ta b a d s) := by
  unfold execAluSel
  try dsimp -iota only
  repeat' first
    | with_reducible assumption
    | with_reducible apply gate_kept
    | with_reducible apply retX_kept
    | with_reducible apply keptO_next
    | with_reducible apply kept_ite
    | (with_reducible apply kept_foldl; intro t x ht)
    | (with_reducible apply kept_foldl_snd; intro t x ht)
    | split
    | simp only [kept_mk]
    | (with_reducible refine kept_snd (by assumption) ?_)
    | (with_reducible refine kept_snd2 (by assumption) ?_)
    | dsimp -iota only
    | dsimp only
    | decide
    | intro t l w ht
    | intro t l ht
    | intro t ht

theorem execAluExt_kept {s0 : State} (sz : Bool) (tb : Bool) (ta : Bool) (b : Reg) (a : Reg) (d : Reg) (s : State) (h0 : Kept s0 s) : KeptO s0 (execAluExt sz tb ta b a d s) := by
  unfold execAluExt
  try dsimp -iota only
  repeat' first
    | with_reducible assumption
    | with_reducible apply gate_kept
    | with_reducible apply retX_kept
    | with_reducible apply keptO_next
    | with_reducible apply kept_ite
    | (with_reducible apply kept_foldl; intro t x ht)
    | (with_reducible apply kept_foldl_snd; intro t x ht)
    | split
    | simp only [kept_mk]
    | (with_reducible refine kept_snd (by assumption) ?_)
    | (with_reducible refine kept_snd2 (by assumption) ?_)
    | dsimp -iota only
    | dsimp only
    | decide
    | intro t l w ht
    | intro t l ht
    | intro t ht

theorem execAlui_kept {s0 : State} (imm : BitVec 15) (ta : Bool) (a : Reg) (d : Reg) (s : State) (h0 : Kept s0 s) : KeptO s0 (execAlui imm ta a d s) := by
  unfold execAlui
  try dsimp -iota only
  repeat' first
    | with_reducible assumption
    | with_reducible apply aluImm_kept
    | with_reducible apply keptO_next
    | with_reducible apply kept_ite
    | (with_reducible apply kept_foldl; intro t x ht)
    | (with_reducible apply kept_foldl_snd; intro t x ht)
    | split
    | simp only [kept_mk]
    | (with_reducible refine kept_snd (by assumption) ?_)
    | (with_reducible refine kept_snd2 (by assumption) ?_)
    | dsimp -iota only
    | dsimp only
    | decide
    | intro t l w ht
    | intro t l ht
    | intro t ht

theorem execAndi_kept {s0 : State} (imm : BitVec 15) (ta : Bool) (a : Reg) (d : Reg) (s : State) (h0 : Kept s0 s) : KeptO s0 (execAndi imm ta a d s) := by
  unfold execAndi
  try dsimp -iota only
  repeat' first
    | with_reducible assumption
    | with_reducible apply aluImm_kept
    | with_reducible apply keptO_next
    | with_reducible apply kept_ite
    | (with_reducible apply kept_foldl; intro t x ht)
    | (with_reducible apply kept_foldl_snd; intro t x ht)
    | split
    | simp only [kept_mk]
    | (with_reducible refine kept_snd (by assumption) ?_)
    | (with_reducible refine kept_snd2 (by assumption) ?_)
    | dsimp -iota only
    | dsimp only
    | decide
    | intro t l w ht
    | intro t l ht
    | intro t ht

theorem execOri_kept {s0 : State} (imm : BitVec 15) (ta : Bool) (a : Reg) (d : Reg) (s : State) (h0 : Kept s0 s) : KeptO s0 (execOri imm ta a d s) := by
  unfold execOri
  try dsimp -iota only
  repeat' first
    | with_reducible assumption
    | with_reducible apply aluImm_kept
    | with_reducible apply keptO_next
    | with_reducible apply kept_ite
    | (with_reducible apply kept_foldl; intro t x ht)
    | (with_reducible apply kept_foldl_snd; intro t x ht)
    | split
    | simp only [kept_mk]
    | (with_reducible refine kept_snd (by assumption) ?_)
    | (with_reducible refine kept_snd2 (by assumption) ?_)
    | dsimp -iota only
    | dsimp only
    | decide
    | intro t l w ht
    | intro t l ht
    | intro t ht

theorem execXori_kept {s0 : State} (imm : BitVec 15) (ta : Bool) (a : Reg) (d : Reg) (s : State) (h0 : Kept s0 s) : KeptO s0 (execXori imm ta a d s) := by
  unfold execXori
  try dsimp -iota only
  repeat' first
    | with_reducible assumption
    | with_reducible apply aluImm_kept
    | with_reducible apply keptO_next
    | with_reducible apply kept_ite
    | (with_reducible apply kept_foldl; intro t x ht)
    | (with_reducible apply kept_foldl_snd; intro t x ht)
    | split
    | simp only [kept_mk]
    | (with_reducible refine kept_snd (by assumption) ?_)
    | (with_reducible refine kept_snd2 (by assumption) ?_)
    | dsimp -iota only
    | dsimp only
    | decide
    | intro t l w ht
    | intro t l ht
    | intro t ht

theorem execShiShl_kept {s0 : State} (sz : Bool) (amt : BitVec 6) (ta : Bool) (a : Reg) (d : Reg) (s : State) (h0 : Kept s0 s) : KeptO s0 (execShiShl sz amt ta a d s) := by
  unfold execShiShl
  try dsimp -iota only
  repeat' first
    | with_reducible assumption
    | with_reducible apply alu1_kept
    | with_reducible apply keptO_next
    | with_reducible apply kept_ite
    | (with_reducible apply kept_foldl; intro t x ht)
    | (with_reducible apply kept_foldl_snd; intro t x ht)
    | split
    | simp only [kept_mk]
    | (with_reducible refine kept_snd (by assumption) ?_)
    | (with_reducible refine kept_snd2 (by assumption) ?_)
    | dsimp -iota only
    | dsimp only
    | decide
    | intro t l w ht
    | intro t l ht
    | intro t ht

theorem execShiShr_kept {s0 : State} (sz : Bool) (amt : BitVec 6) (ta : Bool) (a : Reg) (d : Reg) (s : State) (h0 : Kept s0 s) : KeptO s0 (execShiShr sz amt ta a d s) := by
  unfold execShiShr
  try dsimp -iota only
  repeat' first
    | with_reducible assumption
    | with_reducible apply alu1_kept
    | with_reducible apply keptO_next
    | with_reducible apply kept_ite
    | (with_reducible apply kept_foldl; intro t x ht)
    | (with_reducible apply kept_foldl_snd; intro t x ht)
    | split
    | simp only [kept_mk]
    | (with_reducible refine kept_snd (by assumption) ?_)
    | (with_reducible refine kept_snd2 (by assumption) ?_)
    | dsimp -iota only
    | dsimp only
    | decide
    | intro t l w ht
    | intro t l ht
    | intro t ht

theorem execShiSra_kept {s0 : State} (sz : Bool) (amt : BitVec 6) (ta : Bool) (a : Reg) (d : Reg) (s : State) (h0 : Kept s0 s) : KeptO s0 (execShiSra sz amt ta a d s) := by
  unfold execShiSra
  try dsimp -iota only
  repeat' first
    | with_reducible assumption
    | with_reducible apply alu1_kept
    | with_reducible apply keptO_next
    | with_reducible apply kept_ite
    | (with_reducible apply kept_foldl; intro t x ht)
    | (with_reducible apply kept_foldl_snd; intro t x ht)
    | split
    | simp only [kept_mk]
    | (with_reducible refine kept_snd (by assumption) ?_)
    | (with_reducible refine kept_snd2 (by assumption) ?_)
    | dsimp -iota only
    | dsimp only
    | decide
    | intro t l w ht
    | intro t l ht
    | intro t ht

theorem execShiRot_kept {s0 : State} (sz : Bool) (amt : BitVec 6) (ta : Bool) (a : Reg) (d : Reg) (s : State) (h0 : Kept s0 s) : KeptO s0 (execShiRot sz amt ta a d s) := by
  unfold execShiRot
  try dsimp -iota only
  repeat' first
    | with_reducible assumption
    | with_reducible apply alu1_kept
    | with_reducible apply keptO_next
    | with_reducible apply kept_ite
    | (with_reducible apply kept_foldl; intro t x ht)
    | (with_reducible apply kept_foldl_snd; intro t x ht)
    | split
    | simp only [kept_mk]
    | (with_reducible refine kept_snd (by assumption) ?_)
    | (with_reducible refine kept_snd2 (by assumption) ?_)
    | dsimp -iota only
    | dsimp only
    | decide
    | intro t l w ht
    | intro t l ht
    | intro t ht

theorem cmpImm_kept {s0 : State} (s : State) (imm : BitVec 12) (ta : Bool) (a : Reg) (d : Reg) (f : Word → Word → Bool) (h0 : Kept s0 s) : Kept s0 (cmpImm s imm ta a d f) := by
  unfold cmpImm
  try dsimp -iota only
  repeat' first
    | with_reducible assumption
    | with_reducible apply aluImm_kept
    | with_reducible apply kept_ite
    | (with_reducible apply kept_foldl; intro t x ht)
    | (with_reducible apply kept_foldl_snd; intro t x ht)
    | split
    | simp only [kept_mk]
    | (with_reducible refine kept_snd (by assumption) ?_)
    | (with_reducible refine kept_snd2 (by assumption) ?_)
    | dsimp -iota only
    | dsimp only
    | decide
    | intro t l w ht
    | intro t l ht
    | intro t ht

theorem execCmpiEq_kept {s0 : State} (imm : BitVec 12) (ta : Bool) (a : Reg) (d : Reg) (s : State) (h0 : Kept s0 s) : KeptO s0 (execCmpiEq imm ta a d s) := by
  unfold execCmpiEq
  try dsimp -iota only
  repeat' first
    | with_reducible assumption
    | with_reducible apply cmpImm_kept
    | with_reducible apply keptO_next
    | with_reducible apply kept_ite
    | (with_reducible apply kept_foldl; intro t x ht)
    | (with_reducible apply kept_foldl_snd; intro t x ht)
    | split
    | simp only [kept_mk]
    | (with_reducible refine kept_snd (by assumption) ?_)
    | (with_reducible refine kept_snd2 (by assumption) ?_)
    | dsimp -iota only
    | dsimp only
    | decide
    | intro t l w ht
    | intro t l ht
    | intro t ht

theorem execCmpiNe_kept {s0 : State} (imm : BitVec 12) (ta : Bool) (a : Reg) (d : Reg) (s : State) (h0 : Kept s0 s) : KeptO s0 (execCmpiNe imm ta a d s) := by
  unfold execCmpiNe
  try dsimp -iota only
  repeat' first
    | with_reducible assumption
    | with_reducible apply cmpImm_kept
    | with_reducible apply keptO_next
    | with_reducible apply kept_ite
    | (with_reducible apply kept_foldl; intro t x ht)
    | (with_reducible apply kept_foldl_snd; intro t x ht)
    | split
    | simp only [kept_mk]
    | (with_reducible refine kept_snd (by assumption) ?_)
    | (with_reducible refine kept_snd2 (by assumption) ?_)
    | dsimp -iota only
    | dsimp only
    | decide
    | intro t l w ht
    | intro t l ht
    | intro t ht

theorem execCmpiLt_kept {s0 : State} (imm : BitVec 12) (ta : Bool) (a : Reg) (d : Reg) (s : State) (h0 : Kept s0 s) : KeptO s0 (execCmpiLt imm ta a d s) := by
  unfold execCmpiLt
  try dsimp -iota only
  repeat' first
    | with_reducible assumption
    | with_reducible apply cmpImm_kept
    | with_reducible apply keptO_next
    | with_reducible apply kept_ite
    | (with_reducible apply kept_foldl; intro t x ht)
    | (with_reducible apply kept_foldl_snd; intro t x ht)
    | split
    | simp only [kept_mk]
    | (with_reducible refine kept_snd (by assumption) ?_)
    | (with_reducible refine kept_snd2 (by assumption) ?_)
    | dsimp -iota only
    | dsimp only
    | decide
    | intro t l w ht
    | intro t l ht
    | intro t ht

theorem execCmpiLtu_kept {s0 : State} (imm : BitVec 12) (ta : Bool) (a : Reg) (d : Reg) (s : State) (h0 : Kept s0 s) : KeptO s0 (execCmpiLtu imm ta a d s) := by
  unfold execCmpiLtu
  try dsimp -iota only
  repeat' first
    | with_reducible assumption
    | with_reducible apply cmpImm_kept
    | with_reducible apply keptO_next
    | with_reducible apply kept_ite
    | (with_reducible apply kept_foldl; intro t x ht)
    | (with_reducible apply kept_foldl_snd; intro t x ht)
    | split
    | simp only [kept_mk]
    | (with_reducible refine kept_snd (by assumption) ?_)
    | (with_reducible refine kept_snd2 (by assumption) ?_)
    | dsimp -iota only
    | dsimp only
    | decide
    | intro t l w ht
    | intro t l ht
    | intro t ht

theorem execCmpiLe_kept {s0 : State} (imm : BitVec 12) (ta : Bool) (a : Reg) (d : Reg) (s : State) (h0 : Kept s0 s) : KeptO s0 (execCmpiLe imm ta a d s) := by
  unfold execCmpiLe
  try dsimp -iota only
  repeat' first
    | with_reducible assumption
    | with_reducible apply cmpImm_kept
    | with_reducible apply keptO_next
    | with_reducible apply kept_ite
    | (with_reducible apply kept_foldl; intro t x ht)
    | (with_reducible apply kept_foldl_snd; intro t x ht)
    | split
    | simp only [kept_mk]
    | (with_reducible refine kept_snd (by assumption) ?_)
    | (with_reducible refine kept_snd2 (by assumption) ?_)
    | dsimp -iota only
    | dsimp only
    | decide
    | intro t l w ht
    | intro t l ht
    | intro t ht

theorem execCmpiLeu_kept {s0 : State} (imm : BitVec 12) (ta : Bool) (a : Reg) (d : Reg) (s : State) (h0 : Kept s0 s) : KeptO s0 (execCmpiLeu imm ta a d s) := by
  unfold execCmpiLeu
  try dsimp -iota only
  repeat' first
    | with_reducible assumption
    | with_reducible apply cmpImm_kept
    | with_reducible apply keptO_next
    | with_reducible apply kept_ite
    | (with_reducible apply kept_foldl; intro t x ht)
    | (with_reducible apply kept_foldl_snd; intro t x ht)
    | split
    | simp only [kept_mk]
    | (with_reducible refine kept_snd (by assumption) ?_)
    | (with_reducible refine kept_snd2 (by assumption) ?_)
    | dsimp -iota only
    | dsimp only
    | decide
    | intro t l w ht
    | intro t l ht
    | intro t ht

theorem execCmpiGt_kept {s0 : State} (imm : BitVec 12) (ta : Bool) (a : Reg) (d : Reg) (s : State) (h0 : Kept s0 s) : KeptO s0 (execCmpiGt imm ta a d s) := by
  unfold execCmpiGt
  try dsimp -iota only
  repeat' first
    | with_reducible assumption
    | with_reducible apply cmpImm_kept
    | with_reducible apply keptO_next
    | with_reducible apply kept_ite
    | (with_reducible apply kept_foldl; intro t x ht)
    | (with_reducible apply kept_foldl_snd; intro t x ht)
    | split
    | simp only [kept_mk]
    | (with_reducible refine kept_snd (by assumption) ?_)
    | (with_reducible refine kept_snd2 (by assumption) ?_)
    | dsimp -iota only
    | dsimp only
    | decide
    | intro t l w ht
    | intro t l ht
    | intro t ht

theorem execCmpiGtu_kept {s0 : State} (imm : BitVec 12) (ta : Bool) (a : Reg) (d : Reg) (s : State) (h0 : Kept s0 s) : KeptO s0 (execCmpiGtu imm ta a d s) := by
  unfold execCmpiGtu
  try dsimp -iota only
  repeat' first
    | with_reducible assumption
    | with_reducible apply cmpImm_kept
    | with_reducible apply keptO_next
    | with_reducible apply kept_ite
    | (with_reducible apply kept_foldl; intro t x ht)
    | (with_reducible apply kept_foldl_snd; intro t x ht)
    | split
    | simp only [kept_mk]
    | (with_reducible refine kept_snd (by assumption) ?_)
    | (with_reducible refine kept_snd2 (by assumption) ?_)
    | dsimp -iota only
    | dsimp only
    | decide
    | intro t l w ht
    | intro t l ht
    | intro t ht

theorem execLdi_kept {s0 : State} (imm : BitVec 21) (d : Reg) (s : State) (h0 : Kept s0 s) : KeptO s0 (execLdi imm d s) := by
  unfold execLdi
  try dsimp -iota only
  repeat' first
    | with_reducible assumption
    | with_reducible apply retX_kept
    | with_reducible apply keptO_next
    | with_reducible apply kept_ite
    | (with_reducible apply kept_foldl; intro t x ht)
    | (with_reducible apply kept_foldl_snd; intro t x ht)
    | split
    | simp only [kept_mk]
    | (with_reducible refine kept_snd (by assumption) ?_)
    | (with_reducible refine kept_snd2 (by assumption) ?_)
    | dsimp -iota only
    | dsimp only
    | decide
    | intro t l w ht
    | intro t l ht
    | intro t ht

theorem execLdx_kept {s0 : State} (imm : BitVec 21) (d : Reg) (s : State) (h0 : Kept s0 s) : KeptO s0 (execLdx imm d s) := by
  unfold execLdx
  try dsimp -iota only
  repeat' first
    | with_reducible assumption
    | with_reducible apply gate_kept
    | with_reducible apply retX_kept
    | with_reducible apply keptO_next
    | with_reducible apply kept_ite
    | (with_reducible apply kept_foldl; intro t x ht)
    | (with_reducible apply kept_foldl_snd; intro t x ht)
    | split
    | simp only [kept_mk]
    | (with_reducible refine kept_snd (by assumption) ?_)
    | (with_reducible refine kept_snd2 (by assumption) ?_)
    | dsimp -iota only
    | dsimp only
    | decide
    | intro t l w ht
    | intro t l ht
    | intro t ht

theorem extWrite_kept {s0 : State} (s : State) (k : Nat) (imm : BitVec 21) (e : BitVec 3) (h0 : Kept s0 s) : Kept s0 (extWrite s k imm e) := by
  unfold extWrite
  try dsimp -iota only
  repeat' first
    | with_reducible assumption
    | with_reducible apply retire_kept
    | with_reducible apply setE_kept
    | with_reducible apply kept_ite
    | (with_reducible apply kept_foldl; intro t x ht)
    | (with_reducible apply kept_foldl_snd; intro t x ht)
    | split
    | simp only [kept_mk]
    | (with_reducible refine kept_snd (by assumption) ?_)
    | (with_reducible refine kept_snd2 (by assumption) ?_)
    | dsimp -iota only
    | dsimp only
    | decide
    | intro t l w ht
    | intro t l ht
    | intro t ht

theorem execExtC0_kept {s0 : State} (imm : BitVec 21) (e : BitVec 3) (s : State) (h0 : Kept s0 s) : KeptO s0 (execExtC0 imm e s) := by
  unfold execExtC0
  try dsimp -iota only
  repeat' first
    | with_reducible assumption
    | with_reducible apply extWrite_kept
    | with_reducible apply keptO_next
    | with_reducible apply kept_ite
    | (with_reducible apply kept_foldl; intro t x ht)
    | (with_reducible apply kept_foldl_snd; intro t x ht)
    | split
    | simp only [kept_mk]
    | (with_reducible refine kept_snd (by assumption) ?_)
    | (with_reducible refine kept_snd2 (by assumption) ?_)
    | dsimp -iota only
    | dsimp only
    | decide
    | intro t l w ht
    | intro t l ht
    | intro t ht

theorem execExtC1_kept {s0 : State} (imm : BitVec 21) (e : BitVec 3) (s : State) (h0 : Kept s0 s) : KeptO s0 (execExtC1 imm e s) := by
  unfold execExtC1
  try dsimp -iota only
  repeat' first
    | with_reducible assumption
    | with_reducible apply extWrite_kept
    | with_reducible apply keptO_next
    | with_reducible apply kept_ite
    | (with_reducible apply kept_foldl; intro t x ht)
    | (with_reducible apply kept_foldl_snd; intro t x ht)
    | split
    | simp only [kept_mk]
    | (with_reducible refine kept_snd (by assumption) ?_)
    | (with_reducible refine kept_snd2 (by assumption) ?_)
    | dsimp -iota only
    | dsimp only
    | decide
    | intro t l w ht
    | intro t l ht
    | intro t ht

theorem execExtC2_kept {s0 : State} (imm : BitVec 21) (e : BitVec 3) (s : State) (h0 : Kept s0 s) : KeptO s0 (execExtC2 imm e s) := by
  unfold execExtC2
  try dsimp -iota only
  repeat' first
    | with_reducible assumption
    | with_reducible apply extWrite_kept
    | with_reducible apply keptO_next
    | with_reducible apply kept_ite
    | (with_reducible apply kept_foldl; intro t x ht)
    | (with_reducible apply kept_foldl_snd; intro t x ht)
    | split
    | simp only [kept_mk]
    | (with_reducible refine kept_snd (by assumption) ?_)
    | (with_reducible refine kept_snd2 (by assumption) ?_)
    | dsimp -iota only
    | dsimp only
    | decide
    | intro t l w ht
    | intro t l ht
    | intro t ht

theorem execExtX_kept {s0 : State} (x : Reg) (e : BitVec 3) (s : State) (h0 : Kept s0 s) : KeptO s0 (execExtX x e s) := by
  unfold execExtX
  try dsimp -iota only
  repeat' first
    | with_reducible assumption
    | with_reducible apply gate_kept
    | with_reducible apply retire_kept
    | with_reducible apply setE_kept
    | with_reducible apply keptO_next
    | with_reducible apply kept_ite
    | (with_reducible apply kept_foldl; intro t x ht)
    | (with_reducible apply kept_foldl_snd; intro t x ht)
    | split
    | simp only [kept_mk]
    | (with_reducible refine kept_snd (by assumption) ?_)
    | (with_reducible refine kept_snd2 (by assumption) ?_)
    | dsimp -iota only
    | dsimp only
    | decide
    | intro t l w ht
    | intro t l ht
    | intro t ht

theorem execBr_kept {s0 : State} (imm : BitVec 21) (d : Reg) (s : State) (h0 : Kept s0 s) : KeptO s0 (execBr imm d s) := by
  unfold execBr
  try dsimp -iota only
  repeat' first
    | with_reducible assumption
    | with_reducible apply retireTo_kept
    | with_reducible apply setX_kept
    | with_reducible apply keptO_next
    | with_reducible apply kept_ite
    | (with_reducible apply kept_foldl; intro t x ht)
    | (with_reducible apply kept_foldl_snd; intro t x ht)
    | split
    | simp only [kept_mk]
    | (with_reducible refine kept_snd (by assumption) ?_)
    | (with_reducible refine kept_snd2 (by assumption) ?_)
    | dsimp -iota only
    | dsimp only
    | decide
    | intro t l w ht
    | intro t l ht
    | intro t ht

theorem branch_kept {s0 : State} (s : State) (imm : BitVec 12) (ta : Bool) (b : Reg) (a : Reg) (f : Word → Word → Bool) (h0 : Kept s0 s) : Kept s0 (branch s imm ta b a f) := by
  unfold branch
  try dsimp -iota only
  repeat' first
    | with_reducible assumption
    | with_reducible apply gate_kept
    | with_reducible apply retireTo_kept
    | with_reducible apply retire_kept
    | with_reducible apply kept_ite
    | (with_reducible apply kept_foldl; intro t x ht)
    | (with_reducible apply kept_foldl_snd; intro t x ht)
    | split
    | simp only [kept_mk]
    | (with_reducible refine kept_snd (by assumption) ?_)
    | (with_reducible refine kept_snd2 (by assumption) ?_)
    | dsimp -iota only
    | dsimp only
    | decide
    | intro t l w ht
    | intro t l ht
    | intro t ht

theorem execBcEq_kept {s0 : State} (imm : BitVec 12) (ta : Bool) (b : Reg) (a : Reg) (s : State) (h0 : Kept s0 s) : KeptO s0 (execBcEq imm ta b a s) := by
  unfold execBcEq
  try dsimp -iota only
  repeat' first
    | with_reducible assumption
    | with_reducible apply branch_kept
    | with_reducible apply keptO_next
    | with_reducible apply kept_ite
    | (with_reducible apply kept_foldl; intro t x ht)
    | (with_reducible apply kept_foldl_snd; intro t x ht)
    | split
    | simp only [kept_mk]
    | (with_reducible refine kept_snd (by assumption) ?_)
    | (with_reducible refine kept_snd2 (by assumption) ?_)
    | dsimp -iota only
    | dsimp only
    | decide
    | intro t l w ht
    | intro t l ht
    | intro t ht

theorem execBcNe_kept {s0 : State} (imm : BitVec 12) (ta : Bool) (b : Reg) (a : Reg) (s : State) (h0 : Kept s0 s) : KeptO s0 (execBcNe imm ta b a s) := by
  unfold execBcNe
  try dsimp -iota only
  repeat' first
    | with_reducible assumption
    | with_reducible apply branch_kept
    | with_reducible apply keptO_next
    | with_reducible apply kept_ite
    | (with_reducible apply kept_foldl; intro t x ht)
    | (with_reducible apply kept_foldl_snd; intro t x ht)
    | split
    | simp only [kept_mk]
    | (with_reducible refine kept_snd (by assumption) ?_)
    | (with_reducible refine kept_snd2 (by assumption) ?_)
    | dsimp -iota only
    | dsimp only
    | decide
    | intro t l w ht
    | intro t l ht
    | intro t ht

theorem execBcLt_kept {s0 : State} (imm : BitVec 12) (ta : Bool) (b : Reg) (a : Reg) (s : State) (h0 : Kept s0 s) : KeptO s0 (execBcLt imm ta b a s) := by
  unfold execBcLt
  try dsimp -iota only
  repeat' first
    | with_reducible assumption
    | with_reducible apply branch_kept
    | with_reducible apply keptO_next
    | with_reducible apply kept_ite
    | (with_reducible apply kept_foldl; intro t x ht)
    | (with_reducible apply kept_foldl_snd; intro t x ht)
    | split
    | simp only [kept_mk]
    | (with_reducible refine kept_snd (by assumption) ?_)
    | (with_reducible refine kept_snd2 (by assumption) ?_)
    | dsimp -iota only
    | dsimp only
    | decide
    | intro t l w ht
    | intro t l ht
    | intro t ht

theorem execBcLtu_kept {s0 : State} (imm : BitVec 12) (ta : Bool) (b : Reg) (a : Reg) (s : State) (h0 : Kept s0 s) : KeptO s0 (execBcLtu imm ta b a s) := by
  unfold execBcLtu
  try dsimp -iota only
  repeat' first
    | with_reducible assumption
    | with_reducible apply branch_kept
    | with_reducible apply keptO_next
    | with_reducible apply kept_ite
    | (with_reducible apply kept_foldl; intro t x ht)
    | (with_reducible apply kept_foldl_snd; intro t x ht)
    | split
    | simp only [kept_mk]
    | (with_reducible refine kept_snd (by assumption) ?_)
    | (with_reducible refine kept_snd2 (by assumption) ?_)
    | dsimp -iota only
    | dsimp only
    | decide
    | intro t l w ht
    | intro t l ht
    | intro t ht

theorem execBcGe_kept {s0 : State} (imm : BitVec 12) (ta : Bool) (b : Reg) (a : Reg) (s : State) (h0 : Kept s0 s) : KeptO s0 (execBcGe imm ta b a s) := by
  unfold execBcGe
  try dsimp -iota only
  repeat' first
    | with_reducible assumption
    | with_reducible apply branch_kept
    | with_reducible apply keptO_next
    | with_reducible apply kept_ite
    | (with_reducible apply kept_foldl; intro t x ht)
    | (with_reducible apply kept_foldl_snd; intro t x ht)
    | split
    | simp only [kept_mk]
    | (with_reducible refine kept_snd (by assumption) ?_)
    | (with_reducible refine kept_snd2 (by assumption) ?_)
    | dsimp -iota only
    | dsimp only
    | decide
    | intro t l w ht
    | intro t l ht
    | intro t ht

theorem execBcGeu_kept {s0 : State} (imm : BitVec 12) (ta : Bool) (b : Reg) (a : Reg) (s : State) (h0 : Kept s0 s) : KeptO s0 (execBcGeu imm ta b a s) := by
  unfold execBcGeu
  try dsimp -iota only
  repeat' first
    | with_reducible assumption
    | with_reducible apply branch_kept
    | with_reducible apply keptO_next
    | with_reducible apply kept_ite
    | (with_reducible apply kept_foldl; intro t x ht)
    | (with_reducible apply kept_foldl_snd; intro t x ht)
    | split
    | simp only [kept_mk]
    | (with_reducible refine kept_snd (by assumption) ?_)
    | (with_reducible refine kept_snd2 (by assumption) ?_)
    | dsimp -iota only
    | dsimp only
    | decide
    | intro t l w ht
    | intro t l ht
    | intro t ht

theorem jump_kept {s0 : State} (s : State) (imm : BitVec 14) (ta : Bool) (a : Reg) (d : Reg) (h0 : Kept s0 s) : Kept s0 (jump s imm ta a d) := by
  unfold jump
  try dsimp -iota only
  repeat' first
    | with_reducible assumption
    | with_reducible apply gate_kept
    | with_reducible apply retireTo_kept
    | with_reducible apply setX_kept
    | with_reducible apply kept_ite
    | (with_reducible apply kept_foldl; intro t x ht)
    | (with_reducible apply kept_foldl_snd; intro t x ht)
    | split
    | simp only [kept_mk]
    | (with_reducible refine kept_snd (by assumption) ?_)
    | (with_reducible refine kept_snd2 (by assumption) ?_)
    | dsimp -iota only
    | dsimp only
    | decide
    | intro t l w ht
    | intro t l ht
    | intro t ht

theorem execJmp_kept {s0 : State} (imm : BitVec 14) (ta : Bool) (a : Reg) (d : Reg) (s : State) (h0 : Kept s0 s) : KeptO s0 (execJmp imm ta a d s) := by
  unfold execJmp
  try dsimp -iota only
  repeat' first
    | with_reducible assumption
    | with_reducible apply jump_kept
    | with_reducible apply keptO_next
    | with_reducible apply kept_ite
    | (with_reducible apply kept_foldl; intro t x ht)
    | (with_reducible apply kept_foldl_snd; intro t x ht)
    | split
    | simp only [kept_mk]
    | (with_reducible refine kept_snd (by assumption) ?_)
    | (with_reducible refine kept_snd2 (by assumption) ?_)
    | dsimp -iota only
    | dsimp only
    | decide
    | intro t l w ht
    | intro t l ht
    | intro t ht

theorem execJmpRet_kept {s0 : State} (imm : BitVec 14) (ta : Bool) (a : Reg) (d : Reg) (s : State) (h0 : Kept s0 s) : KeptO s0 (execJmpRet imm ta a d s) := by
  unfold execJmpRet
  try dsimp -iota only
  repeat' first
    | with_reducible assumption
    | with_reducible apply jump_kept
    | with_reducible apply keptO_next
    | with_reducible apply kept_ite
    | (with_reducible apply kept_foldl; intro t x ht)
    | (with_reducible apply kept_foldl_snd; intro t x ht)
    | split
    | simp only [kept_mk]
    | (with_reducible refine kept_snd (by assumption) ?_)
    | (with_reducible refine kept_snd2 (by assumption) ?_)
    | dsimp -iota only
    | dsimp only
    | decide
    | intro t l w ht
    | intro t l ht
    | intro t ht

theorem fpu2_kept {s0 : State} (s : State) (md : Bool) (fmt : Bool) (tb : Bool) (ta : Bool) (b : Reg) (a : Reg) (d : Reg) (f : Fmt → RMode → Nat → Nat → FRes) (h0 : Kept s0 s) : Kept s0 (fpu2 s md fmt tb ta b a d f) := by
  unfold fpu2
  try dsimp -iota only
  repeat' first
    | with_reducible assumption
    | with_reducible apply gate_kept
    | with_reducible apply retXF_kept
    | with_reducible apply kept_ite
    | (with_reducible apply kept_foldl; intro t x ht)
    | (with_reducible apply kept_foldl_snd; intro t x ht)
    | split
    | simp only [kept_mk]
    | (with_reducible refine kept_snd (by assumption) ?_)
    | (with_reducible refine kept_snd2 (by assumption) ?_)
    | dsimp -iota only
    | dsimp only
    | decide
    | intro t l w ht
    | intro t l ht
    | intro t ht

theorem fpu1_kept {s0 : State} (s : State) (md : Bool) (fmt : Bool) (ta : Bool) (a : Reg) (d : Reg) (f : Fmt → RMode → Nat → FRes) (h0 : Kept s0 s) : Kept s0 (fpu1 s md fmt ta a d f) := by
  unfold fpu1
  try dsimp -iota only
  repeat' first
    | with_reducible assumption
    | with_reducible apply gate_kept
    | with_reducible apply retXF_kept
    | with_reducible apply kept_ite
    | (with_reducible apply kept_foldl; intro t x ht)
    | (with_reducible apply kept_foldl_snd; intro t x ht)
    | split
    | simp only [kept_mk]
    | (with_reducible refine kept_snd (by assumption) ?_)
    | (with_reducible refine kept_snd2 (by assumption) ?_)
    | dsimp -iota only
    | dsimp only
    | decide
    | intro t l w ht
    | intro t l ht
    | intro t ht

theorem fpuCmp_kept {s0 : State} (s : State) (fmt : Bool) (tb : Bool) (ta : Bool) (b : Reg) (a : Reg) (d : Reg) (c : FCond) (h0 : Kept s0 s) : Kept s0 (fpuCmp s fmt tb ta b a d c) := by
  unfold fpuCmp
  try dsimp -iota only
  repeat' first
    | with_reducible assumption
    | with_reducible apply gate_kept
    | with_reducible apply retXF_kept
    | with_reducible apply kept_ite
    | (with_reducible apply kept_foldl; intro t x ht)
    | (with_reducible apply kept_foldl_snd; intro t x ht)
    | split
    | simp only [kept_mk]
    | (with_reducible refine kept_snd (by assumption) ?_)
    | (with_reducible refine kept_snd2 (by assumption) ?_)
    | dsimp -iota only
    | dsimp only
    | decide
    | intro t l w ht
    | intro t l ht
    | intro t ht

theorem execFpuAdd_kept {s0 : State} (fmt : Bool) (tb : Bool) (ta : Bool) (b : Reg) (a : Reg) (d : Reg) (s : State) (h0 : Kept s0 s) : KeptO s0 (execFpuAdd fmt tb ta b a d s) := by
  unfold execFpuAdd
  try dsimp -iota only
  repeat' first
    | with_reducible assumption
    | with_reducible apply fpu2_kept
    | with_reducible apply keptO_next
    | with_reducible apply kept_ite
    | (with_reducible apply kept_foldl; intro t x ht)
    | (with_reducible apply kept_foldl_snd; intro t x ht)
    | split
    | simp only [kept_mk]
    | (with_reducible refine kept_snd (by assumption) ?_)
    | (with_reducible refine kept_snd2 (by assumption) ?_)
    | dsimp -iota only
    | dsimp only
    | decide
    | intro t l w ht
    | intro t l ht
    | intro t ht

theorem execFpuSub_kept {s0 : State} (fmt : Bool) (tb : Bool) (ta : Bool) (b : Reg) (a : Reg) (d : Reg) (s : State) (h0 : Kept s0 s) : KeptO s0 (execFpuSub fmt tb ta b a d s) := by
  unfold execFpuSub
  try dsimp -iota only
  repeat' first
    | with_reducible assumption
    | with_reducible apply fpu2_kept
    | with_reducible apply keptO_next
    | with_reducible apply kept_ite
    | (with_reducible apply kept_foldl; intro t x ht)
    | (with_reducible apply kept_foldl_snd; intro t x ht)
    | split
    | simp only [kept_mk]
    | (with_reducible refine kept_snd (by assumption) ?_)
    | (with_reducible refine kept_snd2 (by assumption) ?_)
    | dsimp -iota only
    | dsimp only
    | decide
    | intro t l w ht
    | intro t l ht
    | intro t ht

theorem execFpuMul_kept {s0 : State} (fmt : Bool) (tb : Bool) (ta : Bool) (b : Reg) (a : Reg) (d : Reg) (s : State) (h0 : Kept s0 s) : KeptO s0 (execFpuMul fmt tb ta b a d s) := by
  unfold execFpuMul
  try dsimp -iota only
  repeat' first
    | with_reducible assumption
    | with_reducible apply fpu2_kept
    | with_reducible apply keptO_next
    | with_reducible apply kept_ite
    | (with_reducible apply kept_foldl; intro t x ht)
    | (with_reducible apply kept_foldl_snd; intro t x ht)
    | split
    | simp only [kept_mk]
    | (with_reducible refine kept_snd (by assumption) ?_)
    | (with_reducible refine kept_snd2 (by assumption) ?_)
    | dsimp -iota only
    | dsimp only
    | decide
    | intro t l w ht
    | intro t l ht
    | intro t ht

theorem execFpuDiv_kept {s0 : State} (fmt : Bool) (tb : Bool) (ta : Bool) (b : Reg) (a : Reg) (d : Reg) (s : State) (h0 : Kept s0 s) : KeptO s0 (execFpuDiv fmt tb ta b a d s) := by
  unfold execFpuDiv
  try dsimp -iota only
  repeat' first
    | with_reducible assumption
    | with_reducible apply fpu2_kept
    | with_reducible apply keptO_next
    | with_reducible apply kept_ite
    | (with_reducible apply kept_foldl; intro t x ht)
    | (with_reducible apply kept_foldl_snd; intro t x ht)
    | split
    | simp only [kept_mk]
    | (with_reducible refine kept_snd (by assumption) ?_)
    | (with_reducible refine kept_snd2 (by assumption) ?_)
    | dsimp -iota only
    | dsimp only
    | decide
    | intro t l w ht
    | intro t l ht
    | intro t ht

theorem execFpuSqrt_kept {s0 : State} (fmt : Bool) (_tb : Bool) (ta : Bool) (a : Reg) (d : Reg) (s : State) (h0 : Kept s0 s) : KeptO s0 (execFpuSqrt fmt _tb ta a d s) := by
  unfold execFpuSqrt
  try dsimp -iota only
  repeat' first
    | with_reducible assumption
    | with_reducible apply fpu1_kept
    | with_reducible apply keptO_next
    | with_reducible apply kept_ite
    | (with_reducible apply kept_foldl; intro t x ht)
    | (with_reducible apply kept_foldl_snd; intro t x ht)
    | split
    | simp only [kept_mk]
    | (with_reducible refine kept_snd (by assumption) ?_)
    | (with_reducible refine kept_snd2 (by assumption) ?_)
    | dsimp -iota only
    | dsimp only
    | decide
    | intro t l w ht
    | intro t l ht
    | intro t ht

theorem execFpuMin_kept {s0 : State} (fmt : Bool) (tb : Bool) (ta : Bool) (b : Reg) (a : Reg) (d : Reg) (s : State) (h0 : Kept s0 s) : KeptO s0 (execFpuMin fmt tb ta b a d s) := by
  unfold execFpuMin
  try dsimp -iota only
  repeat' first
    | with_reducible assumption
    | with_reducible apply fpu2_kept
    | with_reducible apply keptO_next
    | with_reducible apply kept_ite
    | (with_reducible apply kept_foldl; intro t x ht)
    | (with_reducible apply kept_foldl_snd; intro t x ht)
    | split
    | simp only [kept_mk]
    | (with_reducible refine kept_snd (by assumption) ?_)
    | (with_reducible refine kept_snd2 (by assumption) ?_)
    | dsimp -iota only
    | dsimp only
    | decide
    | intro t l w ht
    | intro t l ht
    | intro t ht

theorem execFpuMax_kept {s0 : State} (fmt : Bool) (tb : Bool) (ta : Bool) (b : Reg) (a : Reg) (d : Reg) (s : State) (h0 : Kept s0 s) : KeptO s0 (execFpuMax fmt tb ta b a d s) := by
  unfold execFpuMax
  try dsimp -iota only
  repeat' first
    | with_reducible assumption
    | with_reducible apply fpu2_kept
    | with_reducible apply keptO_next
    | with_reducible apply kept_ite
    | (with_reducible apply kept_foldl; intro t x ht)
    | (with_reducible apply kept_foldl_snd; intro t x ht)
    | split
    | simp only [kept_mk]
    | (with_reducible refine kept_snd (by assumption) ?_)
    | (with_reducible refine kept_snd2 (by assumption) ?_)
    | dsimp -iota only
    | dsimp only
    | decide
    | intro t l w ht
    | intro t l ht
    | intro t ht

theorem execFpuFma_kept {s0 : State} (fmt : Bool) (tb : Bool) (ta : Bool) (b : Reg) (a : Reg) (d : Reg) (s : State) (h0 : Kept s0 s) : KeptO s0 (execFpuFma fmt tb ta b a d s) := by
  unfold execFpuFma
  try dsimp -iota only
  repeat' first
    | with_reducible assumption
    | with_reducible apply gate_kept
    | with_reducible apply retXF_kept
    | with_reducible apply keptO_next
    | with_reducible apply kept_ite
    | (with_reducible apply kept_foldl; intro t x ht)
    | (with_reducible apply kept_foldl_snd; intro t x ht)
    | split
    | simp only [kept_mk]
    | (with_reducible refine kept_snd (by assumption) ?_)
    | (with_reducible refine kept_snd2 (by assumption) ?_)
    | dsimp -iota only
    | dsimp only
    | decide
    | intro t l w ht
    | intro t l ht
    | intro t ht

theorem execFpuRnd_kept {s0 : State} (fmt : Bool) (_tb : Bool) (ta : Bool) (a : Reg) (d : Reg) (s : State) (h0 : Kept s0 s) : KeptO s0 (execFpuRnd fmt _tb ta a d s) := by
  unfold execFpuRnd
  try dsimp -iota only
  repeat' first
    | with_reducible assumption
    | with_reducible apply fpu1_kept
    | with_reducible apply keptO_next
    | with_reducible apply kept_ite
    | (with_reducible apply kept_foldl; intro t x ht)
    | (with_reducible apply kept_foldl_snd; intro t x ht)
    | split
    | simp only [kept_mk]
    | (with_reducible refine kept_snd (by assumption) ?_)
    | (with_reducible refine kept_snd2 (by assumption) ?_)
    | dsimp -iota only
    | dsimp only
    | decide
    | intro t l w ht
    | intro t l ht
    | intro t ht

theorem execFpuEq_kept {s0 : State} (fmt : Bool) (tb : Bool) (ta : Bool) (b : Reg) (a : Reg) (d : Reg) (s : State) (h0 : Kept s0 s) : KeptO s0 (execFpuEq fmt tb ta b a d s) := by
  unfold execFpuEq
  try dsimp -iota only
  repeat' first
    | with_reducible assumption
    | with_reducible apply fpuCmp_kept
    | with_reducible apply keptO_next
    | with_reducible apply kept_ite
    | (with_reducible apply kept_foldl; intro t x ht)
    | (with_reducible apply kept_foldl_snd; intro t x ht)
    | split
    | simp only [kept_mk]
    | (with_reducible refine kept_snd (by assumption) ?_)
    | (with_reducible refine kept_snd2 (by assumption) ?_)
    | dsimp -iota only
    | dsimp only
    | decide
    | intro t l w ht
    | intro t l ht
    | intro t ht

theorem execFpuLt_kept {s0 : State} (fmt : Bool) (tb : Bool) (ta : Bool) (b : Reg) (a : Reg) (d : Reg) (s : State) (h0 : Kept s0 s) : KeptO s0 (execFpuLt fmt tb ta b a d s) := by
  unfold execFpuLt
  try dsimp -iota only
  repeat' first
    | with_reducible assumption
    | with_reducible apply fpuCmp_kept
    | with_reducible apply keptO_next
    | with_reducible apply kept_ite
    | (with_reducible apply kept_foldl; intro t x ht)
    | (with_reducible apply kept_foldl_snd; intro t x ht)
    | split
    | simp only [kept_mk]
    | (with_reducible refine kept_snd (by assumption) ?_)
    | (with_reducible refine kept_snd2 (by assumption) ?_)
    | dsimp -iota only
    | dsimp only
    | decide
    | intro t l w ht
    | intro t l ht
    | intro t ht

theorem execFpuLe_kept {s0 : State} (fmt : Bool) (tb : Bool) (ta : Bool) (b : Reg) (a : Reg) (d : Reg) (s : State) (h0 : Kept s0 s) : KeptO s0 (execFpuLe fmt tb ta b a d s) := by
  unfold execFpuLe
  try dsimp -iota only
  repeat' first
    | with_reducible assumption
    | with_reducible apply fpuCmp_kept
    | with_reducible apply keptO_next
    | with_reducible apply kept_ite
    | (with_reducible apply kept_foldl; intro t x ht)
    | (with_reducible apply kept_foldl_snd; intro t x ht)
    | split
    | simp only [kept_mk]
    | (with_reducible refine kept_snd (by assumption) ?_)
    | (with_reducible refine kept_snd2 (by assumption) ?_)
    | dsimp -iota only
    | dsimp only
    | decide
    | intro t l w ht
    | intro t l ht
    | intro t ht

theorem execFpuCls_kept {s0 : State} (fmt : Bool) (_tb : Bool) (ta : Bool) (a : Reg) (d : Reg) (s : State) (h0 : Kept s0 s) : KeptO s0 (execFpuCls fmt _tb ta a d s) := by
  unfold execFpuCls
  try dsimp -iota only
  repeat' first
    | with_reducible assumption
    | with_reducible apply fpu1_kept
    | with_reducible apply keptO_next
    | with_reducible apply kept_ite
    | (with_reducible apply kept_foldl; intro t x ht)
    | (with_reducible apply kept_foldl_snd; intro t x ht)
    | split
    | simp only [kept_mk]
    | (with_reducible refine kept_snd (by assumption) ?_)
    | (with_reducible refine kept_snd2 (by assumption) ?_)
    | dsimp -iota only
    | dsimp only
    | decide
    | intro t l w ht
    | intro t l ht
    | intro t ht

theorem execFpuSgnj_kept {s0 : State} (fmt : Bool) (tb : Bool) (ta : Bool) (b : Reg) (a : Reg) (d : Reg) (s : State) (h0 : Kept s0 s) : KeptO s0 (execFpuSgnj fmt tb ta b a d s) := by
  unfold execFpuSgnj
  try dsimp -iota only
  repeat' first
    | with_reducible assumption
    | with_reducible apply fpu2_kept
    | with_reducible apply keptO_next
    | with_reducible apply kept_ite
    | (with_reducible apply kept_foldl; intro t x ht)
    | (with_reducible apply kept_foldl_snd; intro t x ht)
    | split
    | simp only [kept_mk]
    | (with_reducible refine kept_snd (by assumption) ?_)
    | (with_reducible refine kept_snd2 (by assumption) ?_)
    | dsimp -iota only
    | dsimp only
    | decide
    | intro t l w ht
    | intro t l ht
    | intro t ht

theorem execFpuAbs_kept {s0 : State} (fmt : Bool) (_tb : Bool) (ta : Bool) (a : Reg) (d : Reg) (s : State) (h0 : Kept s0 s) : KeptO s0 (execFpuAbs fmt _tb ta a d s) := by
  unfold execFpuAbs
  try dsimp -iota only
  repeat' first
    | with_reducible assumption
    | with_reducible apply fpu1_kept
    | with_reducible apply keptO_next
    | with_reducible apply kept_ite
    | (with_reducible apply kept_foldl; intro t x ht)
    | (with_reducible apply kept_foldl_snd; intro t x ht)
    | split
    | simp only [kept_mk]
    | (with_reducible refine kept_snd (by assumption) ?_)
    | (with_reducible refine kept_snd2 (by assumption) ?_)
    | dsimp -iota only
    | dsimp only
    | decide
    | intro t l w ht
    | intro t l ht
    | intro t ht

theorem execFpuCvt_kept {s0 : State} (conv : BitVec 3) (fmt : Bool) (_tb : Bool) (ta : Bool) (a : Reg) (d : Reg) (s : State) (h0 : Kept s0 s) : KeptO s0 (execFpuCvt conv fmt _tb ta a d s) := by
  unfold execFpuCvt
  try dsimp -iota only
  repeat' first
    | with_reducible assumption
    | with_reducible apply gate_kept
    | with_reducible apply retXF_kept
    | with_reducible apply keptO_next
    | with_reducible apply kept_ite
    | (with_reducible apply kept_foldl; intro t x ht)
    | (with_reducible apply kept_foldl_snd; intro t x ht)
    | split
    | simp only [kept_mk]
    | (with_reducible refine kept_snd (by assumption) ?_)
    | (with_reducible refine kept_snd2 (by assumption) ?_)
    | dsimp -iota only
    | dsimp only
    | decide
    | intro t l w ht
    | intro t l ht
    | intro t ht

end Sys2Proof.Machine
end

