-- ==== Sys2Proof/Laws/KeptVector.lean ====
section
/-! SUPPORT. The operations of Machine/Vector.lean keep canonical memory and legal control blocks (Kept.lean). -/

namespace Sys2Proof.Machine

set_option linter.all false

theorem valu2_kept {s0 : State} (s : State) (ty : BitVec 3) (t : Bool) (mk : BitVec 3) (b : Reg) (a : Reg) (d : Reg) (f : (n x y : Nat) → Nat) (h0 : Kept s0 s) : Kept s0 (valu2 s ty t mk b a d f) := by
  unfold valu2
  try dsimp -iota only
  repeat' first
    | with_reducible assumption
    | with_reducible apply gate_kept
    | with_reducible apply retV_kept
    | with_reducible apply kept_ite
    | (with_reducible apply kept_foldl; intro t x ht)
    | (with_reducible apply kept_foldl_snd; intro t x ht)
    | split
    | simp only [kept_mk]
    | (with_reducible refine kept_snd (by assumption) ?_)
    | (with_reducible refine kept_snd2 (by assumption) ?_)
    | dsimp -iota only
    | dsimp only
    | decide
    | intro t l w ht
    | intro t l ht
    | intro t ht

theorem execValuAdd_kept {s0 : State} (ty : BitVec 3) (t : Bool) (mk : BitVec 3) (b : Reg) (a : Reg) (d : Reg) (s : State) (h0 : Kept s0 s) : KeptO s0 (execValuAdd ty t mk b a d s) := by
  unfold execValuAdd
  try dsimp -iota only
  repeat' first
    | with_reducible assumption
    | with_reducible apply valu2_kept
    | with_reducible apply keptO_next
    | with_reducible apply kept_ite
    | (with_reducible apply kept_foldl; intro t x ht)
    | (with_reducible apply kept_foldl_snd; intro t x ht)
    | split
    | simp only [kept_mk]
    | (with_reducible refine kept_snd (by assumption) ?_)
    | (with_reducible refine kept_snd2 (by assumption) ?_)
    | dsimp -iota only
    | dsimp only
    | decide
    | intro t l w ht
    | intro t l ht
    | intro t ht

theorem execValuSub_kept {s0 : State} (ty : BitVec 3) (t : Bool) (mk : BitVec 3) (b : Reg) (a : Reg) (d : Reg) (s : State) (h0 : Kept s0 s) : KeptO s0 (execValuSub ty t mk b a d s) := by
  unfold execValuSub
  try dsimp -iota only
  repeat' first
    | with_reducible assumption
    | with_reducible apply valu2_kept
    | with_reducible apply keptO_next
    | with_reducible apply kept_ite
    | (with_reducible apply kept_foldl; intro t x ht)
    | (with_reducible apply kept_foldl_snd; intro t x ht)
    | split
    | simp only [kept_mk]
    | (with_reducible refine kept_snd (by assumption) ?_)
    | (with_reducible refine kept_snd2 (by assumption) ?_)
    | dsimp -iota only
    | dsimp only
    | decide
    | intro t l w ht
    | intro t l ht
    | intro t ht

theorem execValuMul_kept {s0 : State} (ty : BitVec 3) (t : Bool) (mk : BitVec 3) (b : Reg) (a : Reg) (d : Reg) (s : State) (h0 : Kept s0 s) : KeptO s0 (execValuMul ty t mk b a d s) := by
  unfold execValuMul
  try dsimp -iota only
  repeat' first
    | with_reducible assumption
    | with_reducible apply valu2_kept
    | with_reducible apply keptO_next
    | with_reducible apply kept_ite
    | (with_reducible apply kept_foldl; intro t x ht)
    | (with_reducible apply kept_foldl_snd; intro t x ht)
    | split
    | simp only [kept_mk]
    | (with_reducible refine kept_snd (by assumption) ?_)
    | (with_reducible refine kept_snd2 (by assumption) ?_)
    | dsimp -iota only
    | dsimp only
    | decide
    | intro t l w ht
    | intro t l ht
    | intro t ht

theorem execValuMulh_kept {s0 : State} (ty : BitVec 3) (t : Bool) (mk : BitVec 3) (b : Reg) (a : Reg) (d : Reg) (s : State) (h0 : Kept s0 s) : KeptO s0 (execValuMulh ty t mk b a d s) := by
  unfold execValuMulh
  try dsimp -iota only
  repeat' first
    | with_reducible assumption
    | with_reducible apply valu2_kept
    | with_reducible apply keptO_next
    | with_reducible apply kept_ite
    | (with_reducible apply kept_foldl; intro t x ht)
    | (with_reducible apply kept_foldl_snd; intro t x ht)
    | split
    | simp only [kept_mk]
    | (with_reducible refine kept_snd (by assumption) ?_)
    | (with_reducible refine kept_snd2 (by assumption) ?_)
    | dsimp -iota only
    | dsimp only
    | decide
    | intro t l w ht
    | intro t l ht
    | intro t ht

theorem execValuAnd_kept {s0 : State} (ty : BitVec 3) (t : Bool) (mk : BitVec 3) (b : Reg) (a : Reg) (d : Reg) (s : State) (h0 : Kept s0 s) : KeptO s0 (execValuAnd ty t mk b a d s) := by
  unfold execValuAnd
  try dsimp -iota only
  repeat' first
    | with_reducible assumption
    | with_reducible apply valu2_kept
    | with_reducible apply keptO_next
    | with_reducible apply kept_ite
    | (with_reducible apply kept_foldl; intro t x ht)
    | (with_reducible apply kept_foldl_snd; intro t x ht)
    | split
    | simp only [kept_mk]
    | (with_reducible refine kept_snd (by assumption) ?_)
    | (with_reducible refine kept_snd2 (by assumption) ?_)
    | dsimp -iota only
    | dsimp only
    | decide
    | intro t l w ht
    | intro t l ht
    | intro t ht

theorem execValuOr_kept {s0 : State} (ty : BitVec 3) (t : Bool) (mk : BitVec 3) (b : Reg) (a : Reg) (d : Reg) (s : State) (h0 : Kept s0 s) : KeptO s0 (execValuOr ty t mk b a d s) := by
  unfold execValuOr
  try dsimp -iota only
  repeat' first
    | with_reducible assumption
    | with_reducible apply valu2_kept
    | with_reducible apply keptO_next
    | with_reducible apply kept_ite
    | (with_reducible apply kept_foldl; intro t x ht)
    | (with_reducible apply kept_foldl_snd; intro t x ht)
    | split
    | simp only [kept_mk]
    | (with_reducible refine kept_snd (by assumption) ?_)
    | (with_reducible refine kept_snd2 (by assumption) ?_)
    | dsimp -iota only
    | dsimp only
    | decide
    | intro t l w ht
    | intro t l ht
    | intro t ht

theorem execValuXor_kept {s0 : State} (ty : BitVec 3) (t : Bool) (mk : BitVec 3) (b : Reg) (a : Reg) (d : Reg) (s : State) (h0 : Kept s0 s) : KeptO s0 (execValuXor ty t mk b a d s) := by
  unfold execValuXor
  try dsimp -iota only
  repeat' first
    | with_reducible assumption
    | with_reducible apply valu2_kept
    | with_reducible apply keptO_next
    | with_reducible apply kept_ite
    | (with_reducible apply kept_foldl; intro t x ht)
    | (with_reducible apply kept_foldl_snd; intro t x ht)
    | split
    | simp only [kept_mk]
    | (with_reducible refine kept_snd (by assumption) ?_)
    | (with_reducible refine kept_snd2 (by assumption) ?_)
    | dsimp -iota only
    | dsimp only
    | decide
    | intro t l w ht
    | intro t l ht
    | intro t ht

theorem execValuShl_kept {s0 : State} (ty : BitVec 3) (t : Bool) (mk : BitVec 3) (b : Reg) (a : Reg) (d : Reg) (s : State) (h0 : Kept s0 s) : KeptO s0 (execValuShl ty t mk b a d s) := by
  unfold execValuShl
  try dsimp -iota only
  repeat' first
    | with_reducible assumption
    | with_reducible apply valu2_kept
    | with_reducible apply keptO_next
    | with_reducible apply kept_ite
    | (with_reducible apply kept_foldl; intro t x ht)
    | (with_reducible apply kept_foldl_snd; intro t x ht)
    | split
    | simp only [kept_mk]
    | (with_reducible refine kept_snd (by assumption) ?_)
    | (with_reducible refine kept_snd2 (by assumption) ?_)
    | dsimp -iota only
    | dsimp only
    | decide
    | intro t l w ht
    | intro t l ht
    | intro t ht

theorem execValuShr_kept {s0 : State} (ty : BitVec 3) (t : Bool) (mk : BitVec 3) (b : Reg) (a : Reg) (d : Reg) (s : State) (h0 : Kept s0 s) : KeptO s0 (execValuShr ty t mk b a d s) := by
  unfold execValuShr
  try dsimp -iota only
  repeat' first
    | with_reducible assumption
    | with_reducible apply valu2_kept
    | with_reducible apply keptO_next
    | with_reducible apply kept_ite
    | (with_reducible apply kept_foldl; intro t x ht)
    | (with_reducible apply kept_foldl_snd; intro t x ht)
    | split
    | simp only [kept_mk]
    | (with_reducible refine kept_snd (by assumption) ?_)
    | (with_reducible refine kept_snd2 (by assumption) ?_)
    | dsimp -iota only
    | dsimp only
    | decide
    | intro t l w ht
    | intro t l ht
    | intro t ht

theorem execValuSra_kept {s0 : State} (ty : BitVec 3) (t : Bool) (mk : BitVec 3) (b : Reg) (a : Reg) (d : Reg) (s : State) (h0 : Kept s0 s) : KeptO s0 (execValuSra ty t mk b a d s) := by
  unfold execValuSra
  try dsimp -iota only
  repeat' first
    | with_reducible assumption
    | with_reducible apply valu2_kept
    | with_reducible apply keptO_next
    | with_reducible apply kept_ite
    | (with_reducible apply kept_foldl; intro t x ht)
    | (with_reducible apply kept_foldl_snd; intro t x ht)
    | split
    | simp only [kept_mk]
    | (with_reducible refine kept_snd (by assumption) ?_)
    | (with_reducible refine kept_snd2 (by assumption) ?_)
    | dsimp -iota only
    | dsimp only
    | decide
    | intro t l w ht
    | intro t l ht
    | intro t ht

theorem execValuMin_kept {s0 : State} (ty : BitVec 3) (t : Bool) (mk : BitVec 3) (b : Reg) (a : Reg) (d : Reg) (s : State) (h0 : Kept s0 s) : KeptO s0 (execValuMin ty t mk b a d s) := by
  unfold execValuMin
  try dsimp -iota only
  repeat' first
    | with_reducible assumption
    | with_reducible apply valu2_kept
    | with_reducible apply keptO_next
    | with_reducible apply kept_ite
    | (with_reducible apply kept_foldl; intro t x ht)
    | (with_reducible apply kept_foldl_snd; intro t x ht)
    | split
    | simp only [kept_mk]
    | (with_reducible refine kept_snd (by assumption) ?_)
    | (with_reducible refine kept_snd2 (by assumption) ?_)
    | dsimp -iota only
    | dsimp only
    | decide
    | intro t l w ht
    | intro t l ht
    | intro t ht

theorem execValuMax_kept {s0 : State} (ty : BitVec 3) (t : Bool) (mk : BitVec 3) (b : Reg) (a : Reg) (d : Reg) (s : State) (h0 : Kept s0 s) : KeptO s0 (execValuMax ty t mk b a d s) := by
  unfold execValuMax
  try dsimp -iota only
  repeat' first
    | with_reducible assumption
    | with_reducible apply valu2_kept
    | with_reducible apply keptO_next
    | with_reducible apply kept_ite
    | (with_reducible apply kept_foldl; intro t x ht)
    | (with_reducible apply kept_foldl_snd; intro t x ht)
    | split
    | simp only [kept_mk]
    | (with_reducible refine kept_snd (by assumption) ?_)
    | (with_reducible refine kept_snd2 (by assumption) ?_)
    | dsimp -iota only
    | dsimp only
    | decide
    | intro t l w ht
    | intro t l ht
    | intro t ht

theorem execValuMinu_kept {s0 : State} (ty : BitVec 3) (t : Bool) (mk : BitVec 3) (b : Reg) (a : Reg) (d : Reg) (s : State) (h0 : Kept s0 s) : KeptO s0 (execValuMinu ty t mk b a d s) := by
  unfold execValuMinu
  try dsimp -iota only
  repeat' first
    | with_reducible assumption
    | with_reducible apply valu2_kept
    | with_reducible apply keptO_next
    | with_reducible apply kept_ite
    | (with_reducible apply kept_foldl; intro t x ht)
    | (with_reducible apply kept_foldl_snd; intro t x ht)
    | split
    | simp only [kept_mk]
    | (with_reducible refine kept_snd (by assumption) ?_)
    | (with_reducible refine kept_snd2 (by assumption) ?_)
    | dsimp -iota only
    | dsimp only
    | decide
    | intro t l w ht
    | intro t l ht
    | intro t ht

theorem execValuMaxu_kept {s0 : State} (ty : BitVec 3) (t : Bool) (mk : BitVec 3) (b : Reg) (a : Reg) (d : Reg) (s : State) (h0 : Kept s0 s) : KeptO s0 (execValuMaxu ty t mk b a d s) := by
  unfold execValuMaxu
  try dsimp -iota only
  repeat' first
    | with_reducible assumption
    | with_reducible apply valu2_kept
    | with_reducible apply keptO_next
    | with_reducible apply kept_ite
    | (with_reducible apply kept_foldl; intro t x ht)
    | (with_reducible apply kept_foldl_snd; intro t x ht)
    | split
    | simp only [kept_mk]
    | (with_reducible refine kept_snd (by assumption) ?_)
    | (with_reducible refine kept_snd2 (by assumption) ?_)
    | dsimp -iota only
    | dsimp only
    | decide
    | intro t l w ht
    | intro t l ht
    | intro t ht

theorem vecCmp_kept {s0 : State} (s : State) (ty : BitVec 3) (t : Bool) (mk : BitVec 3) (b : Reg) (a : Reg) (m : BitVec 3) (f : Nat → Nat → Bool × FFlags) (h0 : Kept s0 s) : Kept s0 (vecCmp s ty t mk b a m f) := by
  unfold vecCmp
  try dsimp -iota only
  repeat' first
    | with_reducible assumption
    | with_reducible apply gate_kept
    | with_reducible apply retire_kept
    | with_reducible apply orFlags_kept
    | with_reducible apply setM_kept
    | with_reducible apply kept_ite
    | (with_reducible apply kept_foldl; intro t x ht)
    | (with_reducible apply kept_foldl_snd; intro t x ht)
    | split
    | simp only [kept_mk]
    | (with_reducible refine kept_snd (by assumption) ?_)
    | (with_reducible refine kept_snd2 (by assumption) ?_)
    | dsimp -iota only
    | dsimp only
    | decide
    | intro t l w ht
    | intro t l ht
    | intro t ht

theorem execValuCmp_kept {s0 : State} (ty : BitVec 3) (t : Bool) (mk : BitVec 3) (b : Reg) (a : Reg) (cond : BitVec 2) (m : BitVec 3) (s : State) (h0 : Kept s0 s) : KeptO s0 (execValuCmp ty t mk b a cond m s) := by
  unfold execValuCmp
  try dsimp -iota only
  repeat' first
    | with_reducible assumption
    | with_reducible apply vecCmp_kept
    | with_reducible apply keptO_next
    | with_reducible apply kept_ite
    | (with_reducible apply kept_foldl; intro t x ht)
    | (with_reducible apply kept_foldl_snd; intro t x ht)
    | split
    | simp only [kept_mk]
    | (with_reducible refine kept_snd (by assumption) ?_)
    | (with_reducible refine kept_snd2 (by assumption) ?_)
    | dsimp -iota only
    | dsimp only
    | decide
    | intro t l w ht
    | intro t l ht
    | intro t ht

theorem execValuSel_kept {s0 : State} (ty : BitVec 3) (t : Bool) (mk : BitVec 3) (b : Reg) (a : Reg) (d : Reg) (s : State) (h0 : Kept s0 s) : KeptO s0 (execValuSel ty t mk b a d s) := by
  unfold execValuSel
  try dsimp -iota only
  repeat' first
    | with_reducible assumption
    | with_reducible apply gate_kept
    | with_reducible apply retV_kept
    | with_reducible apply keptO_next
    | with_reducible apply kept_ite
    | (with_reducible apply kept_foldl; intro t x ht)
    | (with_reducible apply kept_foldl_snd; intro t x ht)
    | split
    | simp only [kept_mk]
    | (with_reducible refine kept_snd (by assumption) ?_)
    | (with_reducible refine kept_snd2 (by assumption) ?_)
    | dsimp -iota only
    | dsimp only
    | decide
    | intro t l w ht
    | intro t l ht
    | intro t ht

theorem vfp2_kept {s0 : State} (s : State) (md : Bool) (ty : BitVec 3) (t : Bool) (mk : BitVec 3) (b : Reg) (a : Reg) (d : Reg) (f : Fmt → RMode → Nat → Nat → FRes) (h0 : Kept s0 s) : Kept s0 (vfp2 s md ty t mk b a d f) := by
  unfold vfp2
  try dsimp -iota only
  repeat' first
    | with_reducible assumption
    | with_reducible apply gate_kept
    | with_reducible apply retV_kept
    | with_reducible apply kept_ite
    | (with_reducible apply kept_foldl; intro t x ht)
    | (with_reducible apply kept_foldl_snd; intro t x ht)
    | split
    | simp only [kept_mk]
    | (with_reducible refine kept_snd (by assumption) ?_)
    | (with_reducible refine kept_snd2 (by assumption) ?_)
    | dsimp -iota only
    | dsimp only
    | decide
    | intro t l w ht
    | intro t l ht
    | intro t ht

theorem vfp1_kept {s0 : State} (s : State) (md : Bool) (ty : BitVec 3) (t : Bool) (mk : BitVec 3) (a : Reg) (d : Reg) (f : Fmt → RMode → Nat → FRes) (h0 : Kept s0 s) : Kept s0 (vfp1 s md ty t mk a d f) := by
  unfold vfp1
  try dsimp -iota only
  repeat' first
    | with_reducible assumption
    | with_reducible apply gate_kept
    | with_reducible apply retV_kept
    | with_reducible apply kept_ite
    | (with_reducible apply kept_foldl; intro t x ht)
    | (with_reducible apply kept_foldl_snd; intro t x ht)
    | split
    | simp only [kept_mk]
    | (with_reducible refine kept_snd (by assumption) ?_)
    | (with_reducible refine kept_snd2 (by assumption) ?_)
    | dsimp -iota only
    | dsimp only
    | decide
    | intro t l w ht
    | intro t l ht
    | intro t ht

theorem execVfpAdd_kept {s0 : State} (ty : BitVec 3) (t : Bool) (mk : BitVec 3) (b : Reg) (a : Reg) (d : Reg) (s : State) (h0 : Kept s0 s) : KeptO s0 (execVfpAdd ty t mk b a d s) := by
  unfold execVfpAdd
  try dsimp -iota only
  repeat' first
    | with_reducible assumption
    | with_reducible apply vfp2_kept
    | with_reducible apply keptO_next
    | with_reducible apply kept_ite
    | (with_reducible apply kept_foldl; intro t x ht)
    | (with_reducible apply kept_foldl_snd; intro t x ht)
    | split
    | simp only [kept_mk]
    | (with_reducible refine kept_snd (by assumption) ?_)
    | (with_reducible refine kept_snd2 (by assumption) ?_)
    | dsimp -iota only
    | dsimp only
    | decide
    | intro t l w ht
    | intro t l ht
    | intro t ht

theorem execVfpSub_kept {s0 : State} (ty : BitVec 3) (t : Bool) (mk : BitVec 3) (b : Reg) (a : Reg) (d : Reg) (s : State) (h0 : Kept s0 s) : KeptO s0 (execVfpSub ty t mk b a d s) := by
  unfold execVfpSub
  try dsimp -iota only
  repeat' first
    | with_reducible assumption
    | with_reducible apply vfp2_kept
    | with_reducible apply keptO_next
    | with_reducible apply kept_ite
    | (with_reducible apply kept_foldl; intro t x ht)
    | (with_reducible apply kept_foldl_snd; intro t x ht)
    | split
    | simp only [kept_mk]
    | (with_reducible refine kept_snd (by assumption) ?_)
    | (with_reducible refine kept_snd2 (by assumption) ?_)
    | dsimp -iota only
    | dsimp only
    | decide
    | intro t l w ht
    | intro t l ht
    | intro t ht

theorem execVfpMul_kept {s0 : State} (ty : BitVec 3) (t : Bool) (mk : BitVec 3) (b : Reg) (a : Reg) (d : Reg) (s : State) (h0 : Kept s0 s) : KeptO s0 (execVfpMul ty t mk b a d s) := by
  unfold execVfpMul
  try dsimp -iota only
  repeat' first
    | with_reducible assumption
    | with_reducible apply vfp2_kept
    | with_reducible apply keptO_next
    | with_reducible apply kept_ite
    | (with_reducible apply kept_foldl; intro t x ht)
    | (with_reducible apply kept_foldl_snd; intro t x ht)
    | split
    | simp only [kept_mk]
    | (with_reducible refine kept_snd (by assumption) ?_)
    | (with_reducible refine kept_snd2 (by assumption) ?_)
    | dsimp -iota only
    | dsimp only
    | decide
    | intro t l w ht
    | intro t l ht
    | intro t ht

theorem execVfpDiv_kept {s0 : State} (ty : BitVec 3) (t : Bool) (mk : BitVec 3) (b : Reg) (a : Reg) (d : Reg) (s : State) (h0 : Kept s0 s) : KeptO s0 (execVfpDiv ty t mk b a d s) := by
  unfold execVfpDiv
  try dsimp -iota only
  repeat' first
    | with_reducible assumption
    | with_reducible apply vfp2_kept
    | with_reducible apply keptO_next
    | with_reducible apply kept_ite
    | (with_reducible apply kept_foldl; intro t x ht)
    | (with_reducible apply kept_foldl_snd; intro t x ht)
    | split
    | simp only [kept_mk]
    | (with_reducible refine kept_snd (by assumption) ?_)
    | (with_reducible refine kept_snd2 (by assumption) ?_)
    | dsimp -iota only
    | dsimp only
    | decide
    | intro t l w ht
    | intro t l ht
    | intro t ht

theorem execVfpMin_kept {s0 : State} (ty : BitVec 3) (t : Bool) (mk : BitVec 3) (b : Reg) (a : Reg) (d : Reg) (s : State) (h0 : Kept s0 s) : KeptO s0 (execVfpMin ty t mk b a d s) := by
  unfold execVfpMin
  try dsimp -iota only
  repeat' first
    | with_reducible assumption
    | with_reducible apply vfp2_kept
    | with_reducible apply keptO_next
    | with_reducible apply kept_ite
    | (with_reducible apply kept_foldl; intro t x ht)
    | (with_reducible apply kept_foldl_snd; intro t x ht)
    | split
    | simp only [kept_mk]
    | (with_reducible refine kept_snd (by assumption) ?_)
    | (with_reducible refine kept_snd2 (by assumption) ?_)
    | dsimp -iota only
    | dsimp only
    | decide
    | intro t l w ht
    | intro t l ht
    | intro t ht

theorem execVfpMax_kept {s0 : State} (ty : BitVec 3) (t : Bool) (mk : BitVec 3) (b : Reg) (a : Reg) (d : Reg) (s : State) (h0 : Kept s0 s) : KeptO s0 (execVfpMax ty t mk b a d s) := by
  unfold execVfpMax
  try dsimp -iota only
  repeat' first
    | with_reducible assumption
    | with_reducible apply vfp2_kept
    | with_reducible apply keptO_next
    | with_reducible apply kept_ite
    | (with_reducible apply kept_foldl; intro t x ht)
    | (with_reducible apply kept_foldl_snd; intro t x ht)
    | split
    | simp only [kept_mk]
    | (with_reducible refine kept_snd (by assumption) ?_)
    | (with_reducible refine kept_snd2 (by assumption) ?_)
    | dsimp -iota only
    | dsimp only
    | decide
    | intro t l w ht
    | intro t l ht
    | intro t ht

theorem execVfpScale_kept {s0 : State} (ty : BitVec 3) (t : Bool) (mk : BitVec 3) (b : Reg) (a : Reg) (d : Reg) (s : State) (h0 : Kept s0 s) : KeptO s0 (execVfpScale ty t mk b a d s) := by
  unfold execVfpScale
  try dsimp -iota only
  repeat' first
    | with_reducible assumption
    | with_reducible apply vfp2_kept
    | with_reducible apply keptO_next
    | with_reducible apply kept_ite
    | (with_reducible apply kept_foldl; intro t x ht)
    | (with_reducible apply kept_foldl_snd; intro t x ht)
    | split
    | simp only [kept_mk]
    | (with_reducible refine kept_snd (by assumption) ?_)
    | (with_reducible refine kept_snd2 (by assumption) ?_)
    | dsimp -iota only
    | dsimp only
    | decide
    | intro t l w ht
    | intro t l ht
    | intro t ht

theorem execVfpRnd_kept {s0 : State} (ty : BitVec 3) (t : Bool) (mk : BitVec 3) (a : Reg) (d : Reg) (s : State) (h0 : Kept s0 s) : KeptO s0 (execVfpRnd ty t mk a d s) := by
  unfold execVfpRnd
  try dsimp -iota only
  repeat' first
    | with_reducible assumption
    | with_reducible apply vfp1_kept
    | with_reducible apply keptO_next
    | with_reducible apply kept_ite
    | (with_reducible apply kept_foldl; intro t x ht)
    | (with_reducible apply kept_foldl_snd; intro t x ht)
    | split
    | simp only [kept_mk]
    | (with_reducible refine kept_snd (by assumption) ?_)
    | (with_reducible refine kept_snd2 (by assumption) ?_)
    | dsimp -iota only
    | dsimp only
    | decide
    | intro t l w ht
    | intro t l ht
    | intro t ht

theorem execVfpExp2f_kept {s0 : State} (ty : BitVec 3) (t : Bool) (mk : BitVec 3) (a : Reg) (d : Reg) (s : State) (h0 : Kept s0 s) : KeptO s0 (execVfpExp2f ty t mk a d s) := by
  unfold execVfpExp2f
  try dsimp -iota only
  repeat' first
    | with_reducible assumption
    | with_reducible apply vfp1_kept
    | with_reducible apply keptO_next
    | with_reducible apply kept_ite
    | (with_reducible apply kept_foldl; intro t x ht)
    | (with_reducible apply kept_foldl_snd; intro t x ht)
    | split
    | simp only [kept_mk]
    | (with_reducible refine kept_snd (by assumption) ?_)
    | (with_reducible refine kept_snd2 (by assumption) ?_)
    | dsimp -iota only
    | dsimp only
    | decide
    | intro t l w ht
    | intro t l ht
    | intro t ht

theorem execVfpGetexp_kept {s0 : State} (ty : BitVec 3) (t : Bool) (mk : BitVec 3) (a : Reg) (d : Reg) (s : State) (h0 : Kept s0 s) : KeptO s0 (execVfpGetexp ty t mk a d s) := by
  unfold execVfpGetexp
  try dsimp -iota only
  repeat' first
    | with_reducible assumption
    | with_reducible apply vfp1_kept
    | with_reducible apply keptO_next
    | with_reducible apply kept_ite
    | (with_reducible apply kept_foldl; intro t x ht)
    | (with_reducible apply kept_foldl_snd; intro t x ht)
    | split
    | simp only [kept_mk]
    | (with_reducible refine kept_snd (by assumption) ?_)
    | (with_reducible refine kept_snd2 (by assumption) ?_)
    | dsimp -iota only
    | dsimp only
    | decide
    | intro t l w ht
    | intro t l ht
    | intro t ht

theorem execVfpRcp_kept {s0 : State} (ty : BitVec 3) (t : Bool) (mk : BitVec 3) (a : Reg) (d : Reg) (s : State) (h0 : Kept s0 s) : KeptO s0 (execVfpRcp ty t mk a d s) := by
  unfold execVfpRcp
  try dsimp -iota only
  repeat' first
    | with_reducible assumption
    | with_reducible apply vfp1_kept
    | with_reducible apply keptO_next
    | with_reducible apply kept_ite
    | (with_reducible apply kept_foldl; intro t x ht)
    | (with_reducible apply kept_foldl_snd; intro t x ht)
    | split
    | simp only [kept_mk]
    | (with_reducible refine kept_snd (by assumption) ?_)
    | (with_reducible refine kept_snd2 (by assumption) ?_)
    | dsimp -iota only
    | dsimp only
    | decide
    | intro t l w ht
    | intro t l ht
    | intro t ht

theorem execVfpRsq_kept {s0 : State} (ty : BitVec 3) (t : Bool) (mk : BitVec 3) (a : Reg) (d : Reg) (s : State) (h0 : Kept s0 s) : KeptO s0 (execVfpRsq ty t mk a d s) := by
  unfold execVfpRsq
  try dsimp -iota only
  repeat' first
    | with_reducible assumption
    | with_reducible apply vfp1_kept
    | with_reducible apply keptO_next
    | with_reducible apply kept_ite
    | (with_reducible apply kept_foldl; intro t x ht)
    | (with_reducible apply kept_foldl_snd; intro t x ht)
    | split
    | simp only [kept_mk]
    | (with_reducible refine kept_snd (by assumption) ?_)
    | (with_reducible refine kept_snd2 (by assumption) ?_)
    | dsimp -iota only
    | dsimp only
    | decide
    | intro t l w ht
    | intro t l ht
    | intro t ht

theorem execVfpSqrt_kept {s0 : State} (ty : BitVec 3) (t : Bool) (mk : BitVec 3) (a : Reg) (d : Reg) (s : State) (h0 : Kept s0 s) : KeptO s0 (execVfpSqrt ty t mk a d s) := by
  unfold execVfpSqrt
  try dsimp -iota only
  repeat' first
    | with_reducible assumption
    | with_reducible apply vfp1_kept
    | with_reducible apply keptO_next
    | with_reducible apply kept_ite
    | (with_reducible apply kept_foldl; intro t x ht)
    | (with_reducible apply kept_foldl_snd; intro t x ht)
    | split
    | simp only [kept_mk]
    | (with_reducible refine kept_snd (by assumption) ?_)
    | (with_reducible refine kept_snd2 (by assumption) ?_)
    | dsimp -iota only
    | dsimp only
    | decide
    | intro t l w ht
    | intro t l ht
    | intro t ht

theorem execVfpCls_kept {s0 : State} (ty : BitVec 3) (t : Bool) (mk : BitVec 3) (a : Reg) (d : Reg) (s : State) (h0 : Kept s0 s) : KeptO s0 (execVfpCls ty t mk a d s) := by
  unfold execVfpCls
  try dsimp -iota only
  repeat' first
    | with_reducible assumption
    | with_reducible apply vfp1_kept
    | with_reducible apply keptO_next
    | with_reducible apply kept_ite
    | (with_reducible apply kept_foldl; intro t x ht)
    | (with_reducible apply kept_foldl_snd; intro t x ht)
    | split
    | simp only [kept_mk]
    | (with_reducible refine kept_snd (by assumption) ?_)
    | (with_reducible refine kept_snd2 (by assumption) ?_)
    | dsimp -iota only
    | dsimp only
    | decide
    | intro t l w ht
    | intro t l ht
    | intro t ht

theorem execVfpCvt_kept {s0 : State} (ty : BitVec 3) (t : Bool) (mk : BitVec 3) (sty : BitVec 3) (a : Reg) (d : Reg) (s : State) (h0 : Kept s0 s) : KeptO s0 (execVfpCvt ty t mk sty a d s) := by
  unfold execVfpCvt
  try dsimp -iota only
  repeat' first
    | with_reducible assumption
    | with_reducible apply gate_kept
    | with_reducible apply retire_kept
    | with_reducible apply orFlags_kept
    | with_reducible apply setV_kept
    | with_reducible apply keptO_next
    | with_reducible apply kept_ite
    | (with_reducible apply kept_foldl; intro t x ht)
    | (with_reducible apply kept_foldl_snd; intro t x ht)
    | split
    | simp only [kept_mk]
    | (with_reducible refine kept_snd (by assumption) ?_)
    | (with_reducible refine kept_snd2 (by assumption) ?_)
    | dsimp -iota only
    | dsimp only
    | decide
    | intro t l w ht
    | intro t l ht
    | intro t ht

theorem execVfpCmp_kept {s0 : State} (ty : BitVec 3) (t : Bool) (mk : BitVec 3) (b : Reg) (a : Reg) (cond : BitVec 2) (m : BitVec 3) (s : State) (h0 : Kept s0 s) : KeptO s0 (execVfpCmp ty t mk b a cond m s) := by
  unfold execVfpCmp
  try dsimp -iota only
  repeat' first
    | with_reducible assumption
    | with_reducible apply vecCmp_kept
    | with_reducible apply keptO_next
    | with_reducible apply kept_ite
    | (with_reducible apply kept_foldl; intro t x ht)
    | (with_reducible apply kept_foldl_snd; intro t x ht)
    | split
    | simp only [kept_mk]
    | (with_reducible refine kept_snd (by assumption) ?_)
    | (with_reducible refine kept_snd2 (by assumption) ?_)
    | dsimp -iota only
    | dsimp only
    | decide
    | intro t l w ht
    | intro t l ht
    | intro t ht

theorem vfma_kept {s0 : State} (s : State) (ty : BitVec 2) (mk : BitVec 2) (c : Reg) (b : Reg) (a : Reg) (d : Reg) (np : Bool) (nc : Bool) (h0 : Kept s0 s) : Kept s0 (vfma s ty mk c b a d np nc) := by
  unfold vfma
  try dsimp -iota only
  repeat' first
    | with_reducible assumption
    | with_reducible apply gate_kept
    | with_reducible apply retV_kept
    | with_reducible apply kept_ite
    | (with_reducible apply kept_foldl; intro t x ht)
    | (with_reducible apply kept_foldl_snd; intro t x ht)
    | split
    | simp only [kept_mk]
    | (with_reducible refine kept_snd (by assumption) ?_)
    | (with_reducible refine kept_snd2 (by assumption) ?_)
    | dsimp -iota only
    | dsimp only
    | decide
    | intro t l w ht
    | intro t l ht
    | intro t ht

theorem execVfmaFma_kept {s0 : State} (ty : BitVec 2) (mk : BitVec 2) (c : Reg) (b : Reg) (a : Reg) (d : Reg) (s : State) (h0 : Kept s0 s) : KeptO s0 (execVfmaFma ty mk c b a d s) := by
  unfold execVfmaFma
  try dsimp -iota only
  repeat' first
    | with_reducible assumption
    | with_reducible apply vfma_kept
    | with_reducible apply keptO_next
    | with_reducible apply kept_ite
    | (with_reducible apply kept_foldl; intro t x ht)
    | (with_reducible apply kept_foldl_snd; intro t x ht)
    | split
    | simp only [kept_mk]
    | (with_reducible refine kept_snd (by assumption) ?_)
    | (with_reducible refine kept_snd2 (by assumption) ?_)
    | dsimp -iota only
    | dsimp only
    | decide
    | intro t l w ht
    | intro t l ht
    | intro t ht

theorem execVfmaFms_kept {s0 : State} (ty : BitVec 2) (mk : BitVec 2) (c : Reg) (b : Reg) (a : Reg) (d : Reg) (s : State) (h0 : Kept s0 s) : KeptO s0 (execVfmaFms ty mk c b a d s) := by
  unfold execVfmaFms
  try dsimp -iota only
  repeat' first
    | with_reducible assumption
    | with_reducible apply vfma_kept
    | with_reducible apply keptO_next
    | with_reducible apply kept_ite
    | (with_reducible apply kept_foldl; intro t x ht)
    | (with_reducible apply kept_foldl_snd; intro t x ht)
    | split
    | simp only [kept_mk]
    | (with_reducible refine kept_snd (by assumption) ?_)
    | (with_reducible refine kept_snd2 (by assumption) ?_)
    | dsimp -iota only
    | dsimp only
    | decide
    | intro t l w ht
    | intro t l ht
    | intro t ht

theorem execVfmaFnma_kept {s0 : State} (ty : BitVec 2) (mk : BitVec 2) (c : Reg) (b : Reg) (a : Reg) (d : Reg) (s : State) (h0 : Kept s0 s) : KeptO s0 (execVfmaFnma ty mk c b a d s) := by
  unfold execVfmaFnma
  try dsimp -iota only
  repeat' first
    | with_reducible assumption
    | with_reducible apply vfma_kept
    | with_reducible apply keptO_next
    | with_reducible apply kept_ite
    | (with_reducible apply kept_foldl; intro t x ht)
    | (with_reducible apply kept_foldl_snd; intro t x ht)
    | split
    | simp only [kept_mk]
    | (with_reducible refine kept_snd (by assumption) ?_)
    | (with_reducible refine kept_snd2 (by assumption) ?_)
    | dsimp -iota only
    | dsimp only
    | decide
    | intro t l w ht
    | intro t l ht
    | intro t ht

theorem execVfmaFnms_kept {s0 : State} (ty : BitVec 2) (mk : BitVec 2) (c : Reg) (b : Reg) (a : Reg) (d : Reg) (s : State) (h0 : Kept s0 s) : KeptO s0 (execVfmaFnms ty mk c b a d s) := by
  unfold execVfmaFnms
  try dsimp -iota only
  repeat' first
    | with_reducible assumption
    | with_reducible apply vfma_kept
    | with_reducible apply keptO_next
    | with_reducible apply kept_ite
    | (with_reducible apply kept_foldl; intro t x ht)
    | (with_reducible apply kept_foldl_snd; intro t x ht)
    | split
    | simp only [kept_mk]
    | (with_reducible refine kept_snd (by assumption) ?_)
    | (with_reducible refine kept_snd2 (by assumption) ?_)
    | dsimp -iota only
    | dsimp only
    | decide
    | intro t l w ht
    | intro t l ht
    | intro t ht

theorem mask2_kept {s0 : State} (s : State) (tb : Bool) (ta : Bool) (b : Reg) (a : Reg) (d : Reg) (f : Word → Word → Word) (h0 : Kept s0 s) : Kept s0 (mask2 s tb ta b a d f) := by
  unfold mask2
  try dsimp -iota only
  repeat' first
    | with_reducible assumption
    | with_reducible apply gate_kept
    | with_reducible apply retire_kept
    | with_reducible apply setM_kept
    | with_reducible apply kept_ite
    | (with_reducible apply kept_foldl; intro t x ht)
    | (with_reducible apply kept_foldl_snd; intro t x ht)
    | split
    | simp only [kept_mk]
    | (with_reducible refine kept_snd (by assumption) ?_)
    | (with_reducible refine kept_snd2 (by assumption) ?_)
    | dsimp -iota only
    | dsimp only
    | decide
    | intro t l w ht
    | intro t l ht
    | intro t ht

theorem execMaskAnd_kept {s0 : State} (tb : Bool) (ta : Bool) (b : Reg) (a : Reg) (d : Reg) (s : State) (h0 : Kept s0 s) : KeptO s0 (execMaskAnd tb ta b a d s) := by
  unfold execMaskAnd
  try dsimp -iota only
  repeat' first
    | with_reducible assumption
    | with_reducible apply mask2_kept
    | with_reducible apply keptO_next
    | with_reducible apply kept_ite
    | (with_reducible apply kept_foldl; intro t x ht)
    | (with_reducible apply kept_foldl_snd; intro t x ht)
    | split
    | simp only [kept_mk]
    | (with_reducible refine kept_snd (by assumption) ?_)
    | (with_reducible refine kept_snd2 (by assumption) ?_)
    | dsimp -iota only
    | dsimp only
    | decide
    | intro t l w ht
    | intro t l ht
    | intro t ht

theorem execMaskOr_kept {s0 : State} (tb : Bool) (ta : Bool) (b : Reg) (a : Reg) (d : Reg) (s : State) (h0 : Kept s0 s) : KeptO s0 (execMaskOr tb ta b a d s) := by
  unfold execMaskOr
  try dsimp -iota only
  repeat' first
    | with_reducible assumption
    | with_reducible apply mask2_kept
    | with_reducible apply keptO_next
    | with_reducible apply kept_ite
    | (with_reducible apply kept_foldl; intro t x ht)
    | (with_reducible apply kept_foldl_snd; intro t x ht)
    | split
    | simp only [kept_mk]
    | (with_reducible refine kept_snd (by assumption) ?_)
    | (with_reducible refine kept_snd2 (by assumption) ?_)
    | dsimp -iota only
    | dsimp only
    | decide
    | intro t l w ht
    | intro t l ht
    | intro t ht

theorem execMaskXor_kept {s0 : State} (tb : Bool) (ta : Bool) (b : Reg) (a : Reg) (d : Reg) (s : State) (h0 : Kept s0 s) : KeptO s0 (execMaskXor tb ta b a d s) := by
  unfold execMaskXor
  try dsimp -iota only
  repeat' first
    | with_reducible assumption
    | with_reducible apply mask2_kept
    | with_reducible apply keptO_next
    | with_reducible apply kept_ite
    | (with_reducible apply kept_foldl; intro t x ht)
    | (with_reducible apply kept_foldl_snd; intro t x ht)
    | split
    | simp only [kept_mk]
    | (with_reducible refine kept_snd (by assumption) ?_)
    | (with_reducible refine kept_snd2 (by assumption) ?_)
    | dsimp -iota only
    | dsimp only
    | decide
    | intro t l w ht
    | intro t l ht
    | intro t ht

theorem execMaskAndn_kept {s0 : State} (tb : Bool) (ta : Bool) (b : Reg) (a : Reg) (d : Reg) (s : State) (h0 : Kept s0 s) : KeptO s0 (execMaskAndn tb ta b a d s) := by
  unfold execMaskAndn
  try dsimp -iota only
  repeat' first
    | with_reducible assumption
    | with_reducible apply mask2_kept
    | with_reducible apply keptO_next
    | with_reducible apply kept_ite
    | (with_reducible apply kept_foldl; intro t x ht)
    | (with_reducible apply kept_foldl_snd; intro t x ht)
    | split
    | simp only [kept_mk]
    | (with_reducible refine kept_snd (by assumption) ?_)
    | (with_reducible refine kept_snd2 (by assumption) ?_)
    | dsimp -iota only
    | dsimp only
    | decide
    | intro t l w ht
    | intro t l ht
    | intro t ht

theorem execMaskNot_kept {s0 : State} (_tb : Bool) (ta : Bool) (a : Reg) (d : Reg) (s : State) (h0 : Kept s0 s) : KeptO s0 (execMaskNot _tb ta a d s) := by
  unfold execMaskNot
  try dsimp -iota only
  repeat' first
    | with_reducible assumption
    | with_reducible apply gate_kept
    | with_reducible apply retire_kept
    | with_reducible apply setM_kept
    | with_reducible apply keptO_next
    | with_reducible apply kept_ite
    | (with_reducible apply kept_foldl; intro t x ht)
    | (with_reducible apply kept_foldl_snd; intro t x ht)
    | split
    | simp only [kept_mk]
    | (with_reducible refine kept_snd (by assumption) ?_)
    | (with_reducible refine kept_snd2 (by assumption) ?_)
    | dsimp -iota only
    | dsimp only
    | decide
    | intro t l w ht
    | intro t l ht
    | intro t ht

theorem execMaskPop_kept {s0 : State} (_tb : Bool) (ta : Bool) (a : Reg) (d : Reg) (s : State) (h0 : Kept s0 s) : KeptO s0 (execMaskPop _tb ta a d s) := by
  unfold execMaskPop
  try dsimp -iota only
  repeat' first
    | with_reducible assumption
    | with_reducible apply gate_kept
    | with_reducible apply retX_kept
    | with_reducible apply keptO_next
    | with_reducible apply kept_ite
    | (with_reducible apply kept_foldl; intro t x ht)
    | (with_reducible apply kept_foldl_snd; intro t x ht)
    | split
    | simp only [kept_mk]
    | (with_reducible refine kept_snd (by assumption) ?_)
    | (with_reducible refine kept_snd2 (by assumption) ?_)
    | dsimp -iota only
    | dsimp only
    | decide
    | intro t l w ht
    | intro t l ht
    | intro t ht

theorem execMaskFirst_kept {s0 : State} (_tb : Bool) (ta : Bool) (a : Reg) (d : Reg) (s : State) (h0 : Kept s0 s) : KeptO s0 (execMaskFirst _tb ta a d s) := by
  unfold execMaskFirst
  try dsimp -iota only
  repeat' first
    | with_reducible assumption
    | with_reducible apply gate_kept
    | with_reducible apply retX_kept
    | with_reducible apply keptO_next
    | with_reducible apply kept_ite
    | (with_reducible apply kept_foldl; intro t x ht)
    | (with_reducible apply kept_foldl_snd; intro t x ht)
    | split
    | simp only [kept_mk]
    | (with_reducible refine kept_snd (by assumption) ?_)
    | (with_reducible refine kept_snd2 (by assumption) ?_)
    | dsimp -iota only
    | dsimp only
    | decide
    | intro t l w ht
    | intro t l ht
    | intro t ht

theorem execMaskFromx_kept {s0 : State} (_tb : Bool) (ta : Bool) (a : Reg) (d : Reg) (s : State) (h0 : Kept s0 s) : KeptO s0 (execMaskFromx _tb ta a d s) := by
  unfold execMaskFromx
  try dsimp -iota only
  repeat' first
    | with_reducible assumption
    | with_reducible apply gate_kept
    | with_reducible apply retire_kept
    | with_reducible apply setM_kept
    | with_reducible apply keptO_next
    | with_reducible apply kept_ite
    | (with_reducible apply kept_foldl; intro t x ht)
    | (with_reducible apply kept_foldl_snd; intro t x ht)
    | split
    | simp only [kept_mk]
    | (with_reducible refine kept_snd (by assumption) ?_)
    | (with_reducible refine kept_snd2 (by assumption) ?_)
    | dsimp -iota only
    | dsimp only
    | decide
    | intro t l w ht
    | intro t l ht
    | intro t ht

theorem execMaskTox_kept {s0 : State} (_tb : Bool) (ta : Bool) (a : Reg) (d : Reg) (s : State) (h0 : Kept s0 s) : KeptO s0 (execMaskTox _tb ta a d s) := by
  unfold execMaskTox
  try dsimp -iota only
  repeat' first
    | with_reducible assumption
    | with_reducible apply gate_kept
    | with_reducible apply retX_kept
    | with_reducible apply keptO_next
    | with_reducible apply kept_ite
    | (with_reducible apply kept_foldl; intro t x ht)
    | (with_reducible apply kept_foldl_snd; intro t x ht)
    | split
    | simp only [kept_mk]
    | (with_reducible refine kept_snd (by assumption) ?_)
    | (with_reducible refine kept_snd2 (by assumption) ?_)
    | dsimp -iota only
    | dsimp only
    | decide
    | intro t l w ht
    | intro t l ht
    | intro t ht

theorem execMaskAll_kept {s0 : State} (_tb : Bool) (_ta : Bool) (d : Reg) (s : State) (h0 : Kept s0 s) : KeptO s0 (execMaskAll _tb _ta d s) := by
  unfold execMaskAll
  try dsimp -iota only
  repeat' first
    | with_reducible assumption
    | with_reducible apply retire_kept
    | with_reducible apply setM_kept
    | with_reducible apply keptO_next
    | with_reducible apply kept_ite
    | (with_reducible apply kept_foldl; intro t x ht)
    | (with_reducible apply kept_foldl_snd; intro t x ht)
    | split
    | simp only [kept_mk]
    | (with_reducible refine kept_snd (by assumption) ?_)
    | (with_reducible refine kept_snd2 (by assumption) ?_)
    | dsimp -iota only
    | dsimp only
    | decide
    | intro t l w ht
    | intro t l ht
    | intro t ht

theorem execMaskLanes_kept {s0 : State} (_tb : Bool) (ta : Bool) (a : Reg) (d : Reg) (s : State) (h0 : Kept s0 s) : KeptO s0 (execMaskLanes _tb ta a d s) := by
  unfold execMaskLanes
  try dsimp -iota only
  repeat' first
    | with_reducible assumption
    | with_reducible apply gate_kept
    | with_reducible apply retire_kept
    | with_reducible apply setM_kept
    | with_reducible apply keptO_next
    | with_reducible apply kept_ite
    | (with_reducible apply kept_foldl; intro t x ht)
    | (with_reducible apply kept_foldl_snd; intro t x ht)
    | split
    | simp only [kept_mk]
    | (with_reducible refine kept_snd (by assumption) ?_)
    | (with_reducible refine kept_snd2 (by assumption) ?_)
    | dsimp -iota only
    | dsimp only
    | decide
    | intro t l w ht
    | intro t l ht
    | intro t ht

theorem vxf1_kept {s0 : State} (s : State) (ty : BitVec 3) (t : Bool) (mk : BitVec 3) (a : Reg) (d : Reg) (f : (n x : Nat) → Nat) (h0 : Kept s0 s) : Kept s0 (vxf1 s ty t mk a d f) := by
  unfold vxf1
  try dsimp -iota only
  repeat' first
    | with_reducible assumption
    | with_reducible apply gate_kept
    | with_reducible apply retV_kept
    | with_reducible apply kept_ite
    | (with_reducible apply kept_foldl; intro t x ht)
    | (with_reducible apply kept_foldl_snd; intro t x ht)
    | split
    | simp only [kept_mk]
    | (with_reducible refine kept_snd (by assumption) ?_)
    | (with_reducible refine kept_snd2 (by assumption) ?_)
    | dsimp -iota only
    | dsimp only
    | decide
    | intro t l w ht
    | intro t l ht
    | intro t ht

theorem execVxfBcast_kept {s0 : State} (ty : BitVec 3) (t : Bool) (mk : BitVec 3) (a : Reg) (d : Reg) (s : State) (h0 : Kept s0 s) : KeptO s0 (execVxfBcast ty t mk a d s) := by
  unfold execVxfBcast
  try dsimp -iota only
  repeat' first
    | with_reducible assumption
    | with_reducible apply gate_kept
    | with_reducible apply retV_kept
    | with_reducible apply keptO_next
    | with_reducible apply kept_ite
    | (with_reducible apply kept_foldl; intro t x ht)
    | (with_reducible apply kept_foldl_snd; intro t x ht)
    | split
    | simp only [kept_mk]
    | (with_reducible refine kept_snd (by assumption) ?_)
    | (with_reducible refine kept_snd2 (by assumption) ?_)
    | dsimp -iota only
    | dsimp only
    | decide
    | intro t l w ht
    | intro t l ht
    | intro t ht

theorem execVxfExt_kept {s0 : State} (ty : BitVec 3) (t : Bool) (b : Reg) (a : Reg) (d : Reg) (s : State) (h0 : Kept s0 s) : KeptO s0 (execVxfExt ty t b a d s) := by
  unfold execVxfExt
  try dsimp -iota only
  repeat' first
    | with_reducible assumption
    | with_reducible apply gate_kept
    | with_reducible apply retX_kept
    | with_reducible apply keptO_next
    | with_reducible apply kept_ite
    | (with_reducible apply kept_foldl; intro t x ht)
    | (with_reducible apply kept_foldl_snd; intro t x ht)
    | split
    | simp only [kept_mk]
    | (with_reducible refine kept_snd (by assumption) ?_)
    | (with_reducible refine kept_snd2 (by assumption) ?_)
    | dsimp -iota only
    | dsimp only
    | decide
    | intro t l w ht
    | intro t l ht
    | intro t ht

theorem execVxfIns_kept {s0 : State} (ty : BitVec 3) (t : Bool) (b : Reg) (a : Reg) (d : Reg) (s : State) (h0 : Kept s0 s) : KeptO s0 (execVxfIns ty t b a d s) := by
  unfold execVxfIns
  try dsimp -iota only
  repeat' first
    | with_reducible assumption
    | with_reducible apply gate_kept
    | with_reducible apply retire_kept
    | with_reducible apply setV_kept
    | with_reducible apply keptO_next
    | with_reducible apply kept_ite
    | (with_reducible apply kept_foldl; intro t x ht)
    | (with_reducible apply kept_foldl_snd; intro t x ht)
    | split
    | simp only [kept_mk]
    | (with_reducible refine kept_snd (by assumption) ?_)
    | (with_reducible refine kept_snd2 (by assumption) ?_)
    | dsimp -iota only
    | dsimp only
    | decide
    | intro t l w ht
    | intro t l ht
    | intro t ht

theorem execVxfPerm_kept {s0 : State} (ty : BitVec 3) (t : Bool) (mk : BitVec 3) (b : Reg) (a : Reg) (d : Reg) (s : State) (h0 : Kept s0 s) : KeptO s0 (execVxfPerm ty t mk b a d s) := by
  unfold execVxfPerm
  try dsimp -iota only
  repeat' first
    | with_reducible assumption
    | with_reducible apply gate_kept
    | with_reducible apply retV_kept
    | with_reducible apply keptO_next
    | with_reducible apply kept_ite
    | (with_reducible apply kept_foldl; intro t x ht)
    | (with_reducible apply kept_foldl_snd; intro t x ht)
    | split
    | simp only [kept_mk]
    | (with_reducible refine kept_snd (by assumption) ?_)
    | (with_reducible refine kept_snd2 (by assumption) ?_)
    | dsimp -iota only
    | dsimp only
    | decide
    | intro t l w ht
    | intro t l ht
    | intro t ht

theorem vxfRed_kept {s0 : State} (s : State) (md : Bool) (ty : BitVec 3) (t : Bool) (mk : BitVec 3) (a : Reg) (d : Reg) (ident : Nat) (f : Nat → Nat → FRes) (h0 : Kept s0 s) : Kept s0 (vxfRed s md ty t mk a d ident f) := by
  unfold vxfRed
  try dsimp -iota only
  repeat' first
    | with_reducible assumption
    | with_reducible apply gate_kept
    | with_reducible apply retXF_kept
    | with_reducible apply kept_ite
    | (with_reducible apply kept_foldl; intro t x ht)
    | (with_reducible apply kept_foldl_snd; intro t x ht)
    | split
    | simp only [kept_mk]
    | (with_reducible refine kept_snd (by assumption) ?_)
    | (with_reducible refine kept_snd2 (by assumption) ?_)
    | dsimp -iota only
    | dsimp only
    | decide
    | intro t l w ht
    | intro t l ht
    | intro t ht

theorem execVxfRedAdd_kept {s0 : State} (ty : BitVec 3) (t : Bool) (mk : BitVec 3) (a : Reg) (d : Reg) (s : State) (h0 : Kept s0 s) : KeptO s0 (execVxfRedAdd ty t mk a d s) := by
  unfold execVxfRedAdd
  try dsimp -iota only
  repeat' first
    | with_reducible assumption
    | with_reducible apply vxfRed_kept
    | with_reducible apply keptO_next
    | with_reducible apply kept_ite
    | (with_reducible apply kept_foldl; intro t x ht)
    | (with_reducible apply kept_foldl_snd; intro t x ht)
    | split
    | simp only [kept_mk]
    | (with_reducible refine kept_snd (by assumption) ?_)
    | (with_reducible refine kept_snd2 (by assumption) ?_)
    | dsimp -iota only
    | dsimp only
    | decide
    | intro t l w ht
    | intro t l ht
    | intro t ht

theorem execVxfRedMin_kept {s0 : State} (ty : BitVec 3) (t : Bool) (mk : BitVec 3) (a : Reg) (d : Reg) (s : State) (h0 : Kept s0 s) : KeptO s0 (execVxfRedMin ty t mk a d s) := by
  unfold execVxfRedMin
  try dsimp -iota only
  repeat' first
    | with_reducible assumption
    | with_reducible apply vxfRed_kept
    | with_reducible apply keptO_next
    | with_reducible apply kept_ite
    | (with_reducible apply kept_foldl; intro t x ht)
    | (with_reducible apply kept_foldl_snd; intro t x ht)
    | split
    | simp only [kept_mk]
    | (with_reducible refine kept_snd (by assumption) ?_)
    | (with_reducible refine kept_snd2 (by assumption) ?_)
    | dsimp -iota only
    | dsimp only
    | decide
    | intro t l w ht
    | intro t l ht
    | intro t ht

theorem execVxfRedMax_kept {s0 : State} (ty : BitVec 3) (t : Bool) (mk : BitVec 3) (a : Reg) (d : Reg) (s : State) (h0 : Kept s0 s) : KeptO s0 (execVxfRedMax ty t mk a d s) := by
  unfold execVxfRedMax
  try dsimp -iota only
  repeat' first
    | with_reducible assumption
    | with_reducible apply vxfRed_kept
    | with_reducible apply keptO_next
    | with_reducible apply kept_ite
    | (with_reducible apply kept_foldl; intro t x ht)
    | (with_reducible apply kept_foldl_snd; intro t x ht)
    | split
    | simp only [kept_mk]
    | (with_reducible refine kept_snd (by assumption) ?_)
    | (with_reducible refine kept_snd2 (by assumption) ?_)
    | dsimp -iota only
    | dsimp only
    | decide
    | intro t l w ht
    | intro t l ht
    | intro t ht

theorem execVxfIota_kept {s0 : State} (ty : BitVec 3) (t : Bool) (mk : BitVec 3) (d : Reg) (s : State) (h0 : Kept s0 s) : KeptO s0 (execVxfIota ty t mk d s) := by
  unfold execVxfIota
  try dsimp -iota only
  repeat' first
    | with_reducible assumption
    | with_reducible apply gate_kept
    | with_reducible apply retV_kept
    | with_reducible apply keptO_next
    | with_reducible apply kept_ite
    | (with_reducible apply kept_foldl; intro t x ht)
    | (with_reducible apply kept_foldl_snd; intro t x ht)
    | split
    | simp only [kept_mk]
    | (with_reducible refine kept_snd (by assumption) ?_)
    | (with_reducible refine kept_snd2 (by assumption) ?_)
    | dsimp -iota only
    | dsimp only
    | decide
    | intro t l w ht
    | intro t l ht
    | intro t ht

theorem execVxfAbs_kept {s0 : State} (ty : BitVec 3) (t : Bool) (mk : BitVec 3) (a : Reg) (d : Reg) (s : State) (h0 : Kept s0 s) : KeptO s0 (execVxfAbs ty t mk a d s) := by
  unfold execVxfAbs
  try dsimp -iota only
  repeat' first
    | with_reducible assumption
    | with_reducible apply vxf1_kept
    | with_reducible apply keptO_next
    | with_reducible apply kept_ite
    | (with_reducible apply kept_foldl; intro t x ht)
    | (with_reducible apply kept_foldl_snd; intro t x ht)
    | split
    | simp only [kept_mk]
    | (with_reducible refine kept_snd (by assumption) ?_)
    | (with_reducible refine kept_snd2 (by assumption) ?_)
    | dsimp -iota only
    | dsimp only
    | decide
    | intro t l w ht
    | intro t l ht
    | intro t ht

theorem execVxfNeg_kept {s0 : State} (ty : BitVec 3) (t : Bool) (mk : BitVec 3) (a : Reg) (d : Reg) (s : State) (h0 : Kept s0 s) : KeptO s0 (execVxfNeg ty t mk a d s) := by
  unfold execVxfNeg
  try dsimp -iota only
  repeat' first
    | with_reducible assumption
    | with_reducible apply vxf1_kept
    | with_reducible apply keptO_next
    | with_reducible apply kept_ite
    | (with_reducible apply kept_foldl; intro t x ht)
    | (with_reducible apply kept_foldl_snd; intro t x ht)
    | split
    | simp only [kept_mk]
    | (with_reducible refine kept_snd (by assumption) ?_)
    | (with_reducible refine kept_snd2 (by assumption) ?_)
    | dsimp -iota only
    | dsimp only
    | decide
    | intro t l w ht
    | intro t l ht
    | intro t ht

theorem execVxfSgnj_kept {s0 : State} (ty : BitVec 3) (t : Bool) (mk : BitVec 3) (b : Reg) (a : Reg) (d : Reg) (s : State) (h0 : Kept s0 s) : KeptO s0 (execVxfSgnj ty t mk b a d s) := by
  unfold execVxfSgnj
  try dsimp -iota only
  repeat' first
    | with_reducible assumption
    | with_reducible apply valu2_kept
    | with_reducible apply keptO_next
    | with_reducible apply kept_ite
    | (with_reducible apply kept_foldl; intro t x ht)
    | (with_reducible apply kept_foldl_snd; intro t x ht)
    | split
    | simp only [kept_mk]
    | (with_reducible refine kept_snd (by assumption) ?_)
    | (with_reducible refine kept_snd2 (by assumption) ?_)
    | dsimp -iota only
    | dsimp only
    | decide
    | intro t l w ht
    | intro t l ht
    | intro t ht

theorem execVxfShfdn_kept {s0 : State} (ty : BitVec 3) (t : Bool) (mk : BitVec 3) (b : Reg) (a : Reg) (d : Reg) (s : State) (h0 : Kept s0 s) : KeptO s0 (execVxfShfdn ty t mk b a d s) := by
  unfold execVxfShfdn
  try dsimp -iota only
  repeat' first
    | with_reducible assumption
    | with_reducible apply gate_kept
    | with_reducible apply retV_kept
    | with_reducible apply keptO_next
    | with_reducible apply kept_ite
    | (with_reducible apply kept_foldl; intro t x ht)
    | (with_reducible apply kept_foldl_snd; intro t x ht)
    | split
    | simp only [kept_mk]
    | (with_reducible refine kept_snd (by assumption) ?_)
    | (with_reducible refine kept_snd2 (by assumption) ?_)
    | dsimp -iota only
    | dsimp only
    | decide
    | intro t l w ht
    | intro t l ht
    | intro t ht

end Sys2Proof.Machine
end

