-- ==== Sys2Proof/Laws/KeptMemory.lean ====
section
/-! SUPPORT. The operations of Machine/Memory.lean keep canonical memory and legal control blocks (Kept.lean). -/

namespace Sys2Proof.Machine

set_option linter.all false

theorem putNow_kept {s0 : State} (s : State) (r : RowId) (put : Put) (buf : SMap Byte) (arg4 : List Nat) (h0 : Kept s0 s) : Kept s0 (putNow s r put buf arg4) := by
  induction arg4 generalizing s with
  | nil => first | assumption | (unfold putNow; assumption) | exact fun _ h => h
  | cons x xs ih =>
    unfold putNow
    try dsimp -iota only
    repeat' first
      | with_reducible assumption
      | with_reducible apply ih
      | with_reducible apply fillWord_kept
      | with_reducible apply kept_ite
      | (with_reducible apply kept_foldl; intro t x ht)
      | (with_reducible apply kept_foldl_snd; intro t x ht)
      | split
      | simp only [kept_mk]
      | (with_reducible refine kept_snd (by assumption) ?_)
      | (with_reducible refine kept_snd2 (by assumption) ?_)
      | dsimp -iota only
      | dsimp only
      | decide
      | intro t l w ht
      | intro t l ht
      | intro t ht

theorem ownLoad_kept {s0 : State} (s : State) (r : RowId) (ps : List Part) (fe : Nat) (put : Put) (words : List Nat) (len : Nat) (h0 : Kept s0 s) : Kept s0 (ownLoad s r ps fe put words len) := by
  unfold ownLoad
  try dsimp -iota only
  repeat' first
    | with_reducible assumption
    | with_reducible apply block_kept
    | with_reducible apply readParts_kept
    | with_reducible apply retire_kept
    | with_reducible apply putNow_kept
    | with_reducible apply raise_kept
    | with_reducible apply kept_ite
    | (with_reducible apply kept_foldl; intro t x ht)
    | (with_reducible apply kept_foldl_snd; intro t x ht)
    | split
    | simp only [kept_mk]
    | (with_reducible refine kept_snd (by assumption) ?_)
    | (with_reducible refine kept_snd2 (by assumption) ?_)
    | dsimp -iota only
    | dsimp only
    | decide
    | intro t l w ht
    | intro t l ht
    | intro t ht

theorem load_kept {s0 : State} (s : State) (r : RowId) (p : Word) (n : Nat) (mo : Nat) (vec : Bool) (put : Put) (words : List Nat) (len : Nat) (h0 : Kept s0 s) : Kept s0 (load s r p n mo vec put words len) := by
  unfold load
  try dsimp -iota only
  repeat' first
    | with_reducible assumption
    | with_reducible apply raise_kept
    | with_reducible apply ownLoad_kept
    | with_reducible apply retire_kept
    | with_reducible apply issueReq_kept
    | with_reducible apply kept_ite
    | (with_reducible apply kept_foldl; intro t x ht)
    | (with_reducible apply kept_foldl_snd; intro t x ht)
    | split
    | simp only [kept_mk]
    | (with_reducible refine kept_snd (by assumption) ?_)
    | (with_reducible refine kept_snd2 (by assumption) ?_)
    | dsimp -iota only
    | dsimp only
    | decide
    | intro t l w ht
    | intro t l ht
    | intro t ht

theorem execLd_kept {s0 : State} (off : BitVec 10) (mo : BitVec 2) (sz : BitVec 3) (ta : Bool) (a : Reg) (d : Reg) (s : State) (h0 : Kept s0 s) : KeptO s0 (execLd off mo sz ta a d s) := by
  unfold execLd
  try dsimp -iota only
  repeat' first
    | with_reducible assumption
    | with_reducible apply holdGate_kept
    | with_reducible apply gate_kept
    | with_reducible apply load_kept
    | with_reducible apply keptO_next
    | with_reducible apply kept_ite
    | (with_reducible apply kept_foldl; intro t x ht)
    | (with_reducible apply kept_foldl_snd; intro t x ht)
    | split
    | simp only [kept_mk]
    | (with_reducible refine kept_snd (by assumption) ?_)
    | (with_reducible refine kept_snd2 (by assumption) ?_)
    | dsimp -iota only
    | dsimp only
    | decide
    | intro t l w ht
    | intro t l ht
    | intro t ht

theorem execVld_kept {s0 : State} (off : BitVec 10) (mo : BitVec 2) (sz : BitVec 3) (ta : Bool) (a : Reg) (d : Reg) (s : State) (h0 : Kept s0 s) : KeptO s0 (execVld off mo sz ta a d s) := by
  unfold execVld
  try dsimp -iota only
  repeat' first
    | with_reducible assumption
    | with_reducible apply load_kept
    | with_reducible apply holdGate_kept
    | with_reducible apply gate_kept
    | with_reducible apply fillBytes_kept
    | with_reducible apply keptO_next
    | with_reducible apply kept_ite
    | (with_reducible apply kept_foldl; intro t x ht)
    | (with_reducible apply kept_foldl_snd; intro t x ht)
    | split
    | simp only [kept_mk]
    | (with_reducible refine kept_snd (by assumption) ?_)
    | (with_reducible refine kept_snd2 (by assumption) ?_)
    | dsimp -iota only
    | dsimp only
    | decide
    | intro t l w ht
    | intro t l ht
    | intro t ht

theorem stall_kept {s0 : State} (s : State) (r : RowId) (h0 : Kept s0 s) : Kept s0 (stall s r) := by
  unfold stall
  try dsimp -iota only
  repeat' first
    | with_reducible assumption
    | with_reducible refine modRow_kept ?_ _ _ ?_
    | with_reducible apply kept_ite
    | (with_reducible apply kept_foldl; intro t x ht)
    | (with_reducible apply kept_foldl_snd; intro t x ht)
    | split
    | simp only [kept_mk]
    | (with_reducible refine kept_snd (by assumption) ?_)
    | (with_reducible refine kept_snd2 (by assumption) ?_)
    | dsimp -iota only
    | dsimp only
    | decide
    | (intro w hw; (try dsimp only); (repeat' split); all_goals first | with_reducible assumption | with_reducible exact rowOk_congr hw rfl rfl rfl rfl rfl rfl | (obtain ⟨h1, h2, h3, h4, h5⟩ := hw; refine ⟨?_, ?_, ?_, ?_, ?_⟩ <;> (try dsimp only) <;> first | with_reducible assumption | with_reducible exact even_mask _ | with_reducible exact even_256 _ | with_reducible exact flags_mask _ | with_reducible exact flags_or _ h5 | with_reducible exact .inl rfl | (simp; done)))
    | intro t l w ht
    | intro t l ht
    | intro t ht

theorem store_kept {s0 : State} (s : State) (r : RowId) (p : Word) (bs : List Byte) (mo : Nat) (vec : Bool) (len : Nat) (h0 : Kept s0 s) : Kept s0 (store s r p bs mo vec len) := by
  unfold store
  try dsimp -iota only
  repeat' first
    | with_reducible assumption
    | with_reducible apply raise_kept
    | with_reducible apply stall_kept
    | with_reducible apply retire_kept
    | with_reducible apply sigParts_kept
    | with_reducible apply enterParts_kept
    | with_reducible apply kept_ite
    | (with_reducible apply kept_foldl; intro t x ht)
    | (with_reducible apply kept_foldl_snd; intro t x ht)
    | split
    | simp only [kept_mk]
    | (with_reducible refine kept_snd (by assumption) ?_)
    | (with_reducible refine kept_snd2 (by assumption) ?_)
    | dsimp -iota only
    | dsimp only
    | decide
    | intro t l w ht
    | intro t l ht
    | intro t ht

theorem execSt_kept {s0 : State} (off : BitVec 10) (mo : BitVec 2) (sz : BitVec 3) (ta : Bool) (a : Reg) (d : Reg) (s : State) (h0 : Kept s0 s) : KeptO s0 (execSt off mo sz ta a d s) := by
  unfold execSt
  try dsimp -iota only
  repeat' first
    | with_reducible assumption
    | with_reducible apply holdGate_kept
    | with_reducible apply gate_kept
    | with_reducible apply store_kept
    | with_reducible apply keptO_next
    | with_reducible apply kept_ite
    | (with_reducible apply kept_foldl; intro t x ht)
    | (with_reducible apply kept_foldl_snd; intro t x ht)
    | split
    | simp only [kept_mk]
    | (with_reducible refine kept_snd (by assumption) ?_)
    | (with_reducible refine kept_snd2 (by assumption) ?_)
    | dsimp -iota only
    | dsimp only
    | decide
    | intro t l w ht
    | intro t l ht
    | intro t ht

theorem execVst_kept {s0 : State} (off : BitVec 10) (mo : BitVec 2) (sz : BitVec 3) (ta : Bool) (a : Reg) (d : Reg) (s : State) (h0 : Kept s0 s) : KeptO s0 (execVst off mo sz ta a d s) := by
  unfold execVst
  try dsimp -iota only
  repeat' first
    | with_reducible assumption
    | with_reducible apply holdGate_kept
    | with_reducible apply gate_kept
    | with_reducible apply store_kept
    | with_reducible apply keptO_next
    | with_reducible apply kept_ite
    | (with_reducible apply kept_foldl; intro t x ht)
    | (with_reducible apply kept_foldl_snd; intro t x ht)
    | split
    | simp only [kept_mk]
    | (with_reducible refine kept_snd (by assumption) ?_)
    | (with_reducible refine kept_snd2 (by assumption) ?_)
    | dsimp -iota only
    | dsimp only
    | decide
    | intro t l w ht
    | intro t l ht
    | intro t ht

theorem gather_kept {s0 : State} (s : State) (strided : Bool) (ty : Nat) (t : Nat) (mk : Nat) (b : Reg) (a : Reg) (d : Reg) (h0 : Kept s0 s) : Kept s0 (gather s strided ty t mk b a d) := by
  unfold gather
  try dsimp -iota only
  repeat' first
    | with_reducible assumption
    | with_reducible apply raise_kept
    | with_reducible apply retire_kept
    | with_reducible apply issueReq_kept
    | with_reducible apply load_kept
    | with_reducible apply holdGate_kept
    | with_reducible apply gate_kept
    | with_reducible apply kept_ite
    | (with_reducible apply kept_foldl; intro t x ht)
    | (with_reducible apply kept_foldl_snd; intro t x ht)
    | split
    | simp only [kept_mk]
    | (with_reducible refine kept_snd (by assumption) ?_)
    | (with_reducible refine kept_snd2 (by assumption) ?_)
    | dsimp -iota only
    | dsimp only
    | decide
    | intro t l w ht
    | intro t l ht
    | intro t ht

theorem enterLanes_kept {s0 : State} (s : State) (r : RowId) (v : Nat → List Byte) (arg3 : List (Nat × Part)) (h0 : Kept s0 s) : Kept s0 (enterLanes s r v arg3) := by
  induction arg3 generalizing s with
  | nil => first | assumption | (unfold enterLanes; assumption) | exact fun _ h => h
  | cons x xs ih =>
    unfold enterLanes
    try dsimp -iota only
    repeat' first
      | with_reducible assumption
      | with_reducible apply ih
      | with_reducible apply enterFifo_kept
      | with_reducible apply kept_ite
      | (with_reducible apply kept_foldl; intro t x ht)
      | (with_reducible apply kept_foldl_snd; intro t x ht)
      | split
      | simp only [kept_mk]
      | (with_reducible refine kept_snd (by assumption) ?_)
      | (with_reducible refine kept_snd2 (by assumption) ?_)
      | dsimp -iota only
      | dsimp only
      | decide
      | intro t l w ht
      | intro t l ht
      | intro t ht

theorem scatter_kept {s0 : State} (s : State) (strided : Bool) (ty : Nat) (t : Nat) (mk : Nat) (b : Reg) (a : Reg) (d : Reg) (h0 : Kept s0 s) : Kept s0 (scatter s strided ty t mk b a d) := by
  unfold scatter
  try dsimp -iota only
  repeat' first
    | with_reducible assumption
    | with_reducible apply raise_kept
    | with_reducible apply toStep_kept
    | with_reducible apply sigParts_kept
    | with_reducible apply enterLanes_kept
    | with_reducible apply retire_kept
    | with_reducible apply holdGate_kept
    | with_reducible apply gate_kept
    | with_reducible apply kept_ite
    | (with_reducible apply kept_foldl; intro t x ht)
    | (with_reducible apply kept_foldl_snd; intro t x ht)
    | split
    | simp only [kept_mk]
    | (with_reducible refine kept_snd (by assumption) ?_)
    | (with_reducible refine kept_snd2 (by assumption) ?_)
    | dsimp -iota only
    | dsimp only
    | decide
    | intro t l w ht
    | intro t l ht
    | intro t ht

theorem execVmemGather_kept {s0 : State} (ty : BitVec 3) (t : Bool) (mk : BitVec 3) (b : Reg) (a : Reg) (d : Reg) (s : State) (h0 : Kept s0 s) : KeptO s0 (execVmemGather ty t mk b a d s) := by
  unfold execVmemGather
  try dsimp -iota only
  repeat' first
    | with_reducible assumption
    | with_reducible apply gather_kept
    | with_reducible apply keptO_next
    | with_reducible apply kept_ite
    | (with_reducible apply kept_foldl; intro t x ht)
    | (with_reducible apply kept_foldl_snd; intro t x ht)
    | split
    | simp only [kept_mk]
    | (with_reducible refine kept_snd (by assumption) ?_)
    | (with_reducible refine kept_snd2 (by assumption) ?_)
    | dsimp -iota only
    | dsimp only
    | decide
    | intro t l w ht
    | intro t l ht
    | intro t ht

theorem execVmemLds_kept {s0 : State} (ty : BitVec 3) (t : Bool) (mk : BitVec 3) (b : Reg) (a : Reg) (d : Reg) (s : State) (h0 : Kept s0 s) : KeptO s0 (execVmemLds ty t mk b a d s) := by
  unfold execVmemLds
  try dsimp -iota only
  repeat' first
    | with_reducible assumption
    | with_reducible apply gather_kept
    | with_reducible apply keptO_next
    | with_reducible apply kept_ite
    | (with_reducible apply kept_foldl; intro t x ht)
    | (with_reducible apply kept_foldl_snd; intro t x ht)
    | split
    | simp only [kept_mk]
    | (with_reducible refine kept_snd (by assumption) ?_)
    | (with_reducible refine kept_snd2 (by assumption) ?_)
    | dsimp -iota only
    | dsimp only
    | decide
    | intro t l w ht
    | intro t l ht
    | intro t ht

theorem execVmemScatter_kept {s0 : State} (ty : BitVec 3) (t : Bool) (mk : BitVec 3) (b : Reg) (a : Reg) (d : Reg) (s : State) (h0 : Kept s0 s) : KeptO s0 (execVmemScatter ty t mk b a d s) := by
  unfold execVmemScatter
  try dsimp -iota only
  repeat' first
    | with_reducible assumption
    | with_reducible apply scatter_kept
    | with_reducible apply keptO_next
    | with_reducible apply kept_ite
    | (with_reducible apply kept_foldl; intro t x ht)
    | (with_reducible apply kept_foldl_snd; intro t x ht)
    | split
    | simp only [kept_mk]
    | (with_reducible refine kept_snd (by assumption) ?_)
    | (with_reducible refine kept_snd2 (by assumption) ?_)
    | dsimp -iota only
    | dsimp only
    | decide
    | intro t l w ht
    | intro t l ht
    | intro t ht

theorem execVmemSts_kept {s0 : State} (ty : BitVec 3) (t : Bool) (mk : BitVec 3) (b : Reg) (a : Reg) (d : Reg) (s : State) (h0 : Kept s0 s) : KeptO s0 (execVmemSts ty t mk b a d s) := by
  unfold execVmemSts
  try dsimp -iota only
  repeat' first
    | with_reducible assumption
    | with_reducible apply scatter_kept
    | with_reducible apply keptO_next
    | with_reducible apply kept_ite
    | (with_reducible apply kept_foldl; intro t x ht)
    | (with_reducible apply kept_foldl_snd; intro t x ht)
    | split
    | simp only [kept_mk]
    | (with_reducible refine kept_snd (by assumption) ?_)
    | (with_reducible refine kept_snd2 (by assumption) ?_)
    | dsimp -iota only
    | dsimp only
    | decide
    | intro t l w ht
    | intro t l ht
    | intro t ht

theorem redLane_kept {s0 : State} (s : State) (r : RowId) (op : Nat) (w : Nat) (p : Part) (v : Nat) (h0 : Kept s0 s) : Kept s0 (redLane s r op w p v).2 := by
  unfold redLane
  try dsimp -iota only
  repeat' first
    | with_reducible assumption
    | with_reducible apply issueReq_kept
    | with_reducible apply sentPart_kept
    | with_reducible apply redUpdate_kept
    | with_reducible apply kept_ite
    | (with_reducible apply kept_foldl; intro t x ht)
    | (with_reducible apply kept_foldl_snd; intro t x ht)
    | split
    | simp only [kept_mk]
    | (with_reducible refine kept_snd (by assumption) ?_)
    | (with_reducible refine kept_snd2 (by assumption) ?_)
    | dsimp -iota only
    | dsimp only
    | decide
    | intro t l w ht
    | intro t l ht
    | intro t ht

theorem redLanes_kept {s0 : State} (s : State) (r : RowId) (op : Nat) (w : Nat) (v : Nat → Nat) (arg5 : List (Nat × Part)) (h0 : Kept s0 s) : Kept s0 (redLanes s r op w v arg5).2 := by
  induction arg5 generalizing s with
  | nil => first | assumption | (unfold redLanes; assumption) | exact fun _ h => h
  | cons x xs ih =>
    unfold redLanes
    try dsimp -iota only
    repeat' first
      | with_reducible assumption
      | with_reducible apply ih
      | with_reducible apply redLane_kept
      | with_reducible apply kept_ite
      | (with_reducible apply kept_foldl; intro t x ht)
      | (with_reducible apply kept_foldl_snd; intro t x ht)
      | split
      | simp only [kept_mk]
      | (with_reducible refine kept_snd (by assumption) ?_)
      | (with_reducible refine kept_snd2 (by assumption) ?_)
      | dsimp -iota only
      | dsimp only
      | decide
      | intro t l w ht
      | intro t l ht
      | intro t ht

theorem scatred_kept {s0 : State} (s : State) (op : Nat) (ty : Nat) (t : Nat) (mk : Nat) (b : Reg) (a : Reg) (d : Reg) (h0 : Kept s0 s) : Kept s0 (scatred s op ty t mk b a d) := by
  unfold scatred
  try dsimp -iota only
  repeat' first
    | with_reducible assumption
    | with_reducible apply redLanes_kept
    | with_reducible apply raise_kept
    | with_reducible apply retire_kept
    | with_reducible apply orFlags_kept
    | with_reducible apply sigParts_kept
    | with_reducible apply holdGate_kept
    | with_reducible apply gate_kept
    | with_reducible apply kept_ite
    | (with_reducible apply kept_foldl; intro t x ht)
    | (with_reducible apply kept_foldl_snd; intro t x ht)
    | split
    | simp only [kept_mk]
    | (with_reducible refine kept_snd (by assumption) ?_)
    | (with_reducible refine kept_snd2 (by assumption) ?_)
    | dsimp -iota only
    | dsimp only
    | decide
    | intro t l w ht
    | intro t l ht
    | intro t ht

theorem execVmemScatredAdd_kept {s0 : State} (ty : BitVec 3) (t : Bool) (mk : BitVec 3) (b : Reg) (a : Reg) (d : Reg) (s : State) (h0 : Kept s0 s) : KeptO s0 (execVmemScatredAdd ty t mk b a d s) := by
  unfold execVmemScatredAdd
  try dsimp -iota only
  repeat' first
    | with_reducible assumption
    | with_reducible apply scatred_kept
    | with_reducible apply keptO_next
    | with_reducible apply kept_ite
    | (with_reducible apply kept_foldl; intro t x ht)
    | (with_reducible apply kept_foldl_snd; intro t x ht)
    | split
    | simp only [kept_mk]
    | (with_reducible refine kept_snd (by assumption) ?_)
    | (with_reducible refine kept_snd2 (by assumption) ?_)
    | dsimp -iota only
    | dsimp only
    | decide
    | intro t l w ht
    | intro t l ht
    | intro t ht

theorem execVmemScatredFadd_kept {s0 : State} (ty : BitVec 3) (t : Bool) (mk : BitVec 3) (b : Reg) (a : Reg) (d : Reg) (s : State) (h0 : Kept s0 s) : KeptO s0 (execVmemScatredFadd ty t mk b a d s) := by
  unfold execVmemScatredFadd
  try dsimp -iota only
  repeat' first
    | with_reducible assumption
    | with_reducible apply scatred_kept
    | with_reducible apply keptO_next
    | with_reducible apply kept_ite
    | (with_reducible apply kept_foldl; intro t x ht)
    | (with_reducible apply kept_foldl_snd; intro t x ht)
    | split
    | simp only [kept_mk]
    | (with_reducible refine kept_snd (by assumption) ?_)
    | (with_reducible refine kept_snd2 (by assumption) ?_)
    | dsimp -iota only
    | dsimp only
    | decide
    | intro t l w ht
    | intro t l ht
    | intro t ht

theorem execVmemScatredMin_kept {s0 : State} (ty : BitVec 3) (t : Bool) (mk : BitVec 3) (b : Reg) (a : Reg) (d : Reg) (s : State) (h0 : Kept s0 s) : KeptO s0 (execVmemScatredMin ty t mk b a d s) := by
  unfold execVmemScatredMin
  try dsimp -iota only
  repeat' first
    | with_reducible assumption
    | with_reducible apply scatred_kept
    | with_reducible apply keptO_next
    | with_reducible apply kept_ite
    | (with_reducible apply kept_foldl; intro t x ht)
    | (with_reducible apply kept_foldl_snd; intro t x ht)
    | split
    | simp only [kept_mk]
    | (with_reducible refine kept_snd (by assumption) ?_)
    | (with_reducible refine kept_snd2 (by assumption) ?_)
    | dsimp -iota only
    | dsimp only
    | decide
    | intro t l w ht
    | intro t l ht
    | intro t ht

theorem execVmemScatredMax_kept {s0 : State} (ty : BitVec 3) (t : Bool) (mk : BitVec 3) (b : Reg) (a : Reg) (d : Reg) (s : State) (h0 : Kept s0 s) : KeptO s0 (execVmemScatredMax ty t mk b a d s) := by
  unfold execVmemScatredMax
  try dsimp -iota only
  repeat' first
    | with_reducible assumption
    | with_reducible apply scatred_kept
    | with_reducible apply keptO_next
    | with_reducible apply kept_ite
    | (with_reducible apply kept_foldl; intro t x ht)
    | (with_reducible apply kept_foldl_snd; intro t x ht)
    | split
    | simp only [kept_mk]
    | (with_reducible refine kept_snd (by assumption) ?_)
    | (with_reducible refine kept_snd2 (by assumption) ?_)
    | dsimp -iota only
    | dsimp only
    | decide
    | intro t l w ht
    | intro t l ht
    | intro t ht

theorem execVmemScatredMinu_kept {s0 : State} (ty : BitVec 3) (t : Bool) (mk : BitVec 3) (b : Reg) (a : Reg) (d : Reg) (s : State) (h0 : Kept s0 s) : KeptO s0 (execVmemScatredMinu ty t mk b a d s) := by
  unfold execVmemScatredMinu
  try dsimp -iota only
  repeat' first
    | with_reducible assumption
    | with_reducible apply scatred_kept
    | with_reducible apply keptO_next
    | with_reducible apply kept_ite
    | (with_reducible apply kept_foldl; intro t x ht)
    | (with_reducible apply kept_foldl_snd; intro t x ht)
    | split
    | simp only [kept_mk]
    | (with_reducible refine kept_snd (by assumption) ?_)
    | (with_reducible refine kept_snd2 (by assumption) ?_)
    | dsimp -iota only
    | dsimp only
    | decide
    | intro t l w ht
    | intro t l ht
    | intro t ht

theorem execVmemScatredMaxu_kept {s0 : State} (ty : BitVec 3) (t : Bool) (mk : BitVec 3) (b : Reg) (a : Reg) (d : Reg) (s : State) (h0 : Kept s0 s) : KeptO s0 (execVmemScatredMaxu ty t mk b a d s) := by
  unfold execVmemScatredMaxu
  try dsimp -iota only
  repeat' first
    | with_reducible assumption
    | with_reducible apply scatred_kept
    | with_reducible apply keptO_next
    | with_reducible apply kept_ite
    | (with_reducible apply kept_foldl; intro t x ht)
    | (with_reducible apply kept_foldl_snd; intro t x ht)
    | split
    | simp only [kept_mk]
    | (with_reducible refine kept_snd (by assumption) ?_)
    | (with_reducible refine kept_snd2 (by assumption) ?_)
    | dsimp -iota only
    | dsimp only
    | decide
    | intro t l w ht
    | intro t l ht
    | intro t ht

theorem execVmemScatredOr_kept {s0 : State} (ty : BitVec 3) (t : Bool) (mk : BitVec 3) (b : Reg) (a : Reg) (d : Reg) (s : State) (h0 : Kept s0 s) : KeptO s0 (execVmemScatredOr ty t mk b a d s) := by
  unfold execVmemScatredOr
  try dsimp -iota only
  repeat' first
    | with_reducible assumption
    | with_reducible apply scatred_kept
    | with_reducible apply keptO_next
    | with_reducible apply kept_ite
    | (with_reducible apply kept_foldl; intro t x ht)
    | (with_reducible apply kept_foldl_snd; intro t x ht)
    | split
    | simp only [kept_mk]
    | (with_reducible refine kept_snd (by assumption) ?_)
    | (with_reducible refine kept_snd2 (by assumption) ?_)
    | dsimp -iota only
    | dsimp only
    | decide
    | intro t l w ht
    | intro t l ht
    | intro t ht

theorem sentParts_kept {s0 : State} (s : State) (core : Nat) (ps : List Part) (h0 : Kept s0 s) : Kept s0 (sentParts s core ps) := by
  unfold sentParts
  try dsimp -iota only
  repeat' first
    | with_reducible assumption
    | with_reducible apply sentPart_kept
    | with_reducible apply kept_ite
    | (with_reducible apply kept_foldl; intro t x ht)
    | (with_reducible apply kept_foldl_snd; intro t x ht)
    | split
    | simp only [kept_mk]
    | (with_reducible refine kept_snd (by assumption) ?_)
    | (with_reducible refine kept_snd2 (by assumption) ?_)
    | dsimp -iota only
    | dsimp only
    | decide
    | intro t l w ht
    | intro t l ht
    | intro t ht

theorem amo_kept {s0 : State} (s : State) (fn : Nat) (post : Bool) (scope : Nat) (sz : Bool) (tb : Bool) (ta : Bool) (b : Reg) (a : Reg) (d : Reg) (h0 : Kept s0 s) : Kept s0 (amo s fn post scope sz tb ta b a d) := by
  unfold amo
  try dsimp -iota only
  repeat' first
    | with_reducible assumption
    | with_reducible apply raise_kept
    | with_reducible apply block_kept
    | with_reducible apply issueReq_kept
    | with_reducible apply sentParts_kept
    | with_reducible apply retire_kept
    | with_reducible apply sigParts_kept
    | with_reducible apply holdGate_kept
    | with_reducible apply gate_kept
    | with_reducible apply kept_ite
    | (with_reducible apply kept_foldl; intro t x ht)
    | (with_reducible apply kept_foldl_snd; intro t x ht)
    | split
    | simp only [kept_mk]
    | (with_reducible refine kept_snd (by assumption) ?_)
    | (with_reducible refine kept_snd2 (by assumption) ?_)
    | dsimp -iota only
    | dsimp only
    | decide
    | intro t l w ht
    | intro t l ht
    | intro t ht

theorem execAmoAdd_kept {s0 : State} (post : Bool) (scope : BitVec 2) (sz : Bool) (tb : Bool) (ta : Bool) (b : Reg) (a : Reg) (d : Reg) (s : State) (h0 : Kept s0 s) : KeptO s0 (execAmoAdd post scope sz tb ta b a d s) := by
  unfold execAmoAdd
  try dsimp -iota only
  repeat' first
    | with_reducible assumption
    | with_reducible apply amo_kept
    | with_reducible apply keptO_next
    | with_reducible apply kept_ite
    | (with_reducible apply kept_foldl; intro t x ht)
    | (with_reducible apply kept_foldl_snd; intro t x ht)
    | split
    | simp only [kept_mk]
    | (with_reducible refine kept_snd (by assumption) ?_)
    | (with_reducible refine kept_snd2 (by assumption) ?_)
    | dsimp -iota only
    | dsimp only
    | decide
    | intro t l w ht
    | intro t l ht
    | intro t ht

theorem execAmoAnd_kept {s0 : State} (post : Bool) (scope : BitVec 2) (sz : Bool) (tb : Bool) (ta : Bool) (b : Reg) (a : Reg) (d : Reg) (s : State) (h0 : Kept s0 s) : KeptO s0 (execAmoAnd post scope sz tb ta b a d s) := by
  unfold execAmoAnd
  try dsimp -iota only
  repeat' first
    | with_reducible assumption
    | with_reducible apply amo_kept
    | with_reducible apply keptO_next
    | with_reducible apply kept_ite
    | (with_reducible apply kept_foldl; intro t x ht)
    | (with_reducible apply kept_foldl_snd; intro t x ht)
    | split
    | simp only [kept_mk]
    | (with_reducible refine kept_snd (by assumption) ?_)
    | (with_reducible refine kept_snd2 (by assumption) ?_)
    | dsimp -iota only
    | dsimp only
    | decide
    | intro t l w ht
    | intro t l ht
    | intro t ht

theorem execAmoOr_kept {s0 : State} (post : Bool) (scope : BitVec 2) (sz : Bool) (tb : Bool) (ta : Bool) (b : Reg) (a : Reg) (d : Reg) (s : State) (h0 : Kept s0 s) : KeptO s0 (execAmoOr post scope sz tb ta b a d s) := by
  unfold execAmoOr
  try dsimp -iota only
  repeat' first
    | with_reducible assumption
    | with_reducible apply amo_kept
    | with_reducible apply keptO_next
    | with_reducible apply kept_ite
    | (with_reducible apply kept_foldl; intro t x ht)
    | (with_reducible apply kept_foldl_snd; intro t x ht)
    | split
    | simp only [kept_mk]
    | (with_reducible refine kept_snd (by assumption) ?_)
    | (with_reducible refine kept_snd2 (by assumption) ?_)
    | dsimp -iota only
    | dsimp only
    | decide
    | intro t l w ht
    | intro t l ht
    | intro t ht

theorem execAmoXor_kept {s0 : State} (post : Bool) (scope : BitVec 2) (sz : Bool) (tb : Bool) (ta : Bool) (b : Reg) (a : Reg) (d : Reg) (s : State) (h0 : Kept s0 s) : KeptO s0 (execAmoXor post scope sz tb ta b a d s) := by
  unfold execAmoXor
  try dsimp -iota only
  repeat' first
    | with_reducible assumption
    | with_reducible apply amo_kept
    | with_reducible apply keptO_next
    | with_reducible apply kept_ite
    | (with_reducible apply kept_foldl; intro t x ht)
    | (with_reducible apply kept_foldl_snd; intro t x ht)
    | split
    | simp only [kept_mk]
    | (with_reducible refine kept_snd (by assumption) ?_)
    | (with_reducible refine kept_snd2 (by assumption) ?_)
    | dsimp -iota only
    | dsimp only
    | decide
    | intro t l w ht
    | intro t l ht
    | intro t ht

theorem execAmoMin_kept {s0 : State} (post : Bool) (scope : BitVec 2) (sz : Bool) (tb : Bool) (ta : Bool) (b : Reg) (a : Reg) (d : Reg) (s : State) (h0 : Kept s0 s) : KeptO s0 (execAmoMin post scope sz tb ta b a d s) := by
  unfold execAmoMin
  try dsimp -iota only
  repeat' first
    | with_reducible assumption
    | with_reducible apply amo_kept
    | with_reducible apply keptO_next
    | with_reducible apply kept_ite
    | (with_reducible apply kept_foldl; intro t x ht)
    | (with_reducible apply kept_foldl_snd; intro t x ht)
    | split
    | simp only [kept_mk]
    | (with_reducible refine kept_snd (by assumption) ?_)
    | (with_reducible refine kept_snd2 (by assumption) ?_)
    | dsimp -iota only
    | dsimp only
    | decide
    | intro t l w ht
    | intro t l ht
    | intro t ht

theorem execAmoMax_kept {s0 : State} (post : Bool) (scope : BitVec 2) (sz : Bool) (tb : Bool) (ta : Bool) (b : Reg) (a : Reg) (d : Reg) (s : State) (h0 : Kept s0 s) : KeptO s0 (execAmoMax post scope sz tb ta b a d s) := by
  unfold execAmoMax
  try dsimp -iota only
  repeat' first
    | with_reducible assumption
    | with_reducible apply amo_kept
    | with_reducible apply keptO_next
    | with_reducible apply kept_ite
    | (with_reducible apply kept_foldl; intro t x ht)
    | (with_reducible apply kept_foldl_snd; intro t x ht)
    | split
    | simp only [kept_mk]
    | (with_reducible refine kept_snd (by assumption) ?_)
    | (with_reducible refine kept_snd2 (by assumption) ?_)
    | dsimp -iota only
    | dsimp only
    | decide
    | intro t l w ht
    | intro t l ht
    | intro t ht

theorem execAmoMinu_kept {s0 : State} (post : Bool) (scope : BitVec 2) (sz : Bool) (tb : Bool) (ta : Bool) (b : Reg) (a : Reg) (d : Reg) (s : State) (h0 : Kept s0 s) : KeptO s0 (execAmoMinu post scope sz tb ta b a d s) := by
  unfold execAmoMinu
  try dsimp -iota only
  repeat' first
    | with_reducible assumption
    | with_reducible apply amo_kept
    | with_reducible apply keptO_next
    | with_reducible apply kept_ite
    | (with_reducible apply kept_foldl; intro t x ht)
    | (with_reducible apply kept_foldl_snd; intro t x ht)
    | split
    | simp only [kept_mk]
    | (with_reducible refine kept_snd (by assumption) ?_)
    | (with_reducible refine kept_snd2 (by assumption) ?_)
    | dsimp -iota only
    | dsimp only
    | decide
    | intro t l w ht
    | intro t l ht
    | intro t ht

theorem execAmoMaxu_kept {s0 : State} (post : Bool) (scope : BitVec 2) (sz : Bool) (tb : Bool) (ta : Bool) (b : Reg) (a : Reg) (d : Reg) (s : State) (h0 : Kept s0 s) : KeptO s0 (execAmoMaxu post scope sz tb ta b a d s) := by
  unfold execAmoMaxu
  try dsimp -iota only
  repeat' first
    | with_reducible assumption
    | with_reducible apply amo_kept
    | with_reducible apply keptO_next
    | with_reducible apply kept_ite
    | (with_reducible apply kept_foldl; intro t x ht)
    | (with_reducible apply kept_foldl_snd; intro t x ht)
    | split
    | simp only [kept_mk]
    | (with_reducible refine kept_snd (by assumption) ?_)
    | (with_reducible refine kept_snd2 (by assumption) ?_)
    | dsimp -iota only
    | dsimp only
    | decide
    | intro t l w ht
    | intro t l ht
    | intro t ht

theorem execAmoSwap_kept {s0 : State} (post : Bool) (scope : BitVec 2) (sz : Bool) (tb : Bool) (ta : Bool) (b : Reg) (a : Reg) (d : Reg) (s : State) (h0 : Kept s0 s) : KeptO s0 (execAmoSwap post scope sz tb ta b a d s) := by
  unfold execAmoSwap
  try dsimp -iota only
  repeat' first
    | with_reducible assumption
    | with_reducible apply amo_kept
    | with_reducible apply keptO_next
    | with_reducible apply kept_ite
    | (with_reducible apply kept_foldl; intro t x ht)
    | (with_reducible apply kept_foldl_snd; intro t x ht)
    | split
    | simp only [kept_mk]
    | (with_reducible refine kept_snd (by assumption) ?_)
    | (with_reducible refine kept_snd2 (by assumption) ?_)
    | dsimp -iota only
    | dsimp only
    | decide
    | intro t l w ht
    | intro t l ht
    | intro t ht

theorem execAmoCas_kept {s0 : State} (post : Bool) (scope : BitVec 2) (sz : Bool) (tb : Bool) (ta : Bool) (b : Reg) (a : Reg) (d : Reg) (s : State) (h0 : Kept s0 s) : KeptO s0 (execAmoCas post scope sz tb ta b a d s) := by
  unfold execAmoCas
  try dsimp -iota only
  repeat' first
    | with_reducible assumption
    | with_reducible apply amo_kept
    | with_reducible apply keptO_next
    | with_reducible apply kept_ite
    | (with_reducible apply kept_foldl; intro t x ht)
    | (with_reducible apply kept_foldl_snd; intro t x ht)
    | split
    | simp only [kept_mk]
    | (with_reducible refine kept_snd (by assumption) ?_)
    | (with_reducible refine kept_snd2 (by assumption) ?_)
    | dsimp -iota only
    | dsimp only
    | decide
    | intro t l w ht
    | intro t l ht
    | intro t ht

theorem execAmoFadd_kept {s0 : State} (post : Bool) (scope : BitVec 2) (sz : Bool) (tb : Bool) (ta : Bool) (b : Reg) (a : Reg) (d : Reg) (s : State) (h0 : Kept s0 s) : KeptO s0 (execAmoFadd post scope sz tb ta b a d s) := by
  unfold execAmoFadd
  try dsimp -iota only
  repeat' first
    | with_reducible assumption
    | with_reducible apply amo_kept
    | with_reducible apply keptO_next
    | with_reducible apply kept_ite
    | (with_reducible apply kept_foldl; intro t x ht)
    | (with_reducible apply kept_foldl_snd; intro t x ht)
    | split
    | simp only [kept_mk]
    | (with_reducible refine kept_snd (by assumption) ?_)
    | (with_reducible refine kept_snd2 (by assumption) ?_)
    | dsimp -iota only
    | dsimp only
    | decide
    | intro t l w ht
    | intro t l ht
    | intro t ht

theorem fireIssue_kept {s0 : State} (s : State) (r : RowId) (p : Word) (ps : List Part) (scope : Nat) (put : Put) (words : List Nat) (k : Nat) (h0 : Kept s0 s) : Kept s0 (fireIssue s r p ps scope put words k) := by
  unfold fireIssue
  try dsimp -iota only
  repeat' first
    | with_reducible assumption
    | with_reducible apply block_kept
    | with_reducible apply issueReq_kept
    | with_reducible apply sentParts_kept
    | with_reducible refine modRow_kept ?_ _ _ ?_
    | with_reducible apply sigParts_kept
    | with_reducible apply kept_ite
    | (with_reducible apply kept_foldl; intro t x ht)
    | (with_reducible apply kept_foldl_snd; intro t x ht)
    | split
    | simp only [kept_mk]
    | (with_reducible refine kept_snd (by assumption) ?_)
    | (with_reducible refine kept_snd2 (by assumption) ?_)
    | dsimp -iota only
    | dsimp only
    | decide
    | (intro w hw; (try dsimp only); (repeat' split); all_goals first | with_reducible assumption | with_reducible exact rowOk_congr hw rfl rfl rfl rfl rfl rfl | (obtain ⟨h1, h2, h3, h4, h5⟩ := hw; refine ⟨?_, ?_, ?_, ?_, ?_⟩ <;> (try dsimp only) <;> first | with_reducible assumption | with_reducible exact even_mask _ | with_reducible exact even_256 _ | with_reducible exact flags_mask _ | with_reducible exact flags_or _ h5 | with_reducible exact .inl rfl | (simp; done)))
    | intro t l w ht
    | intro t l ht
    | intro t ht

theorem fireRefuse_kept {s0 : State} (s : State) (r : RowId) (p : Word) (k : Nat) (h0 : Kept s0 s) : Kept s0 (fireRefuse s r p k) := by
  unfold fireRefuse
  try dsimp -iota only
  repeat' first
    | with_reducible assumption
    | with_reducible refine modRow_kept ?_ _ _ ?_
    | with_reducible apply raise_kept
    | with_reducible apply kept_ite
    | (with_reducible apply kept_foldl; intro t x ht)
    | (with_reducible apply kept_foldl_snd; intro t x ht)
    | split
    | simp only [kept_mk]
    | (with_reducible refine kept_snd (by assumption) ?_)
    | (with_reducible refine kept_snd2 (by assumption) ?_)
    | dsimp -iota only
    | dsimp only
    | decide
    | (intro w hw; (try dsimp only); (repeat' split); all_goals first | with_reducible assumption | with_reducible exact rowOk_congr hw rfl rfl rfl rfl rfl rfl | (obtain ⟨h1, h2, h3, h4, h5⟩ := hw; refine ⟨?_, ?_, ?_, ?_, ?_⟩ <;> (try dsimp only) <;> first | with_reducible assumption | with_reducible exact even_mask _ | with_reducible exact even_256 _ | with_reducible exact flags_mask _ | with_reducible exact flags_or _ h5 | with_reducible exact .inl rfl | (simp; done)))
    | intro t l w ht
    | intro t l ht
    | intro t ht

theorem fireRetry_kept {s0 : State} (s : State) (r : RowId) (p : Word) (k : Nat) (go : State → State) (h0 : Kept s0 s) (hgo : ∀ t, Kept s0 t → Kept s0 (go t)) : Kept s0 (fireRetry s r p k go) := by
  unfold fireRetry
  try dsimp -iota only
  repeat' first
    | with_reducible assumption
    | with_reducible apply hgo
    | with_reducible apply raise_kept
    | with_reducible apply readAction_kept
    | with_reducible apply fireAction_kept
    | with_reducible apply bump_kept
    | with_reducible apply fireRefuse_kept
    | with_reducible apply kept_ite
    | (with_reducible apply kept_foldl; intro t x ht)
    | (with_reducible apply kept_foldl_snd; intro t x ht)
    | split
    | simp only [kept_mk]
    | (with_reducible refine kept_snd (by assumption) ?_)
    | (with_reducible refine kept_snd2 (by assumption) ?_)
    | dsimp -iota only
    | dsimp only
    | decide
    | intro t l w ht
    | intro t l ht
    | intro t ht

theorem fireAwait_kept {s0 : State} (s : State) (r : RowId) (p : Word) (k : Nat) (go : State → State) (h0 : Kept s0 s) (hgo : ∀ t, Kept s0 t → Kept s0 (go t)) : Kept s0 (fireAwait s r p k go) := by
  unfold fireAwait
  try dsimp -iota only
  repeat' first
    | with_reducible assumption
    | with_reducible apply hgo
    | with_reducible apply fireRefuse_kept
    | with_reducible apply fireRetry_kept
    | with_reducible apply kept_ite
    | (with_reducible apply kept_foldl; intro t x ht)
    | (with_reducible apply kept_foldl_snd; intro t x ht)
    | split
    | simp only [kept_mk]
    | (with_reducible refine kept_snd (by assumption) ?_)
    | (with_reducible refine kept_snd2 (by assumption) ?_)
    | dsimp -iota only
    | dsimp only
    | decide
    | intro t l w ht
    | intro t l ht
    | intro t ht

theorem execAmoDecFire_kept {s0 : State} (scope : BitVec 2) (_tb : Bool) (ta : Bool) (a : Reg) (d : Reg) (s : State) (h0 : Kept s0 s) : KeptO s0 (execAmoDecFire scope _tb ta a d s) := by
  unfold execAmoDecFire
  try dsimp -iota only
  repeat' first
    | with_reducible assumption
    | with_reducible apply holdGate_kept
    | with_reducible apply gate_kept
    | with_reducible apply raise_kept
    | with_reducible apply fireIssue_kept
    | with_reducible apply block_kept
    | with_reducible apply fireAwait_kept
    | with_reducible apply retire_kept
    | with_reducible apply keptO_next
    | with_reducible apply kept_ite
    | (with_reducible apply kept_foldl; intro t x ht)
    | (with_reducible apply kept_foldl_snd; intro t x ht)
    | split
    | simp only [kept_mk]
    | (with_reducible refine kept_snd (by assumption) ?_)
    | (with_reducible refine kept_snd2 (by assumption) ?_)
    | dsimp -iota only
    | dsimp only
    | decide
    | intro t l w ht
    | intro t l ht
    | intro t ht

end Sys2Proof.Machine
end

