-- ==== Sys2Proof/Laws/KeptSync.lean ====
section
/-! SUPPORT. The operations of Machine/Sync.lean keep canonical memory and legal control blocks (Kept.lean). -/

namespace Sys2Proof.Machine

set_option linter.all false

theorem refetch_kept {s0 : State} (s : State) (core : Nat) (h0 : Kept s0 s) : Kept s0 (refetch s core) := by
  unfold refetch
  try dsimp -iota only
  repeat' first
    | with_reducible assumption
    | with_reducible apply kept_ite
    | (with_reducible apply kept_foldl; intro t x ht)
    | (with_reducible apply kept_foldl_snd; intro t x ht)
    | split
    | simp only [kept_mk]
    | (with_reducible refine kept_snd (by assumption) ?_)
    | (with_reducible refine kept_snd2 (by assumption) ?_)
    | dsimp -iota only
    | dsimp only
    | decide
    | intro t l w ht
    | intro t l ht
    | intro t ht

theorem fence_kept {s0 : State} (s : State) (cond : Bool) (h0 : Kept s0 s) : Kept s0 (fence s cond) := by
  unfold fence
  try dsimp -iota only
  repeat' first
    | with_reducible assumption
    | with_reducible apply holdGate_kept
    | with_reducible apply retire_kept
    | with_reducible apply refetch_kept
    | with_reducible apply kept_ite
    | (with_reducible apply kept_foldl; intro t x ht)
    | (with_reducible apply kept_foldl_snd; intro t x ht)
    | split
    | simp only [kept_mk]
    | (with_reducible refine kept_snd (by assumption) ?_)
    | (with_reducible refine kept_snd2 (by assumption) ?_)
    | dsimp -iota only
    | dsimp only
    | decide
    | intro t l w ht
    | intro t l ht
    | intro t ht

theorem execSyncFenceDie_kept {s0 : State} (_tb : Bool) (_ta : Bool) (s : State) (h0 : Kept s0 s) : KeptO s0 (execSyncFenceDie _tb _ta s) := by
  unfold execSyncFenceDie
  try dsimp -iota only
  repeat' first
    | with_reducible assumption
    | with_reducible apply fence_kept
    | with_reducible apply keptO_next
    | with_reducible apply kept_ite
    | (with_reducible apply kept_foldl; intro t x ht)
    | (with_reducible apply kept_foldl_snd; intro t x ht)
    | split
    | simp only [kept_mk]
    | (with_reducible refine kept_snd (by assumption) ?_)
    | (with_reducible refine kept_snd2 (by assumption) ?_)
    | dsimp -iota only
    | dsimp only
    | decide
    | intro t l w ht
    | intro t l ht
    | intro t ht

theorem execSyncFenceDev_kept {s0 : State} (_tb : Bool) (_ta : Bool) (s : State) (h0 : Kept s0 s) : KeptO s0 (execSyncFenceDev _tb _ta s) := by
  unfold execSyncFenceDev
  try dsimp -iota only
  repeat' first
    | with_reducible assumption
    | with_reducible apply fence_kept
    | with_reducible apply keptO_next
    | with_reducible apply kept_ite
    | (with_reducible apply kept_foldl; intro t x ht)
    | (with_reducible apply kept_foldl_snd; intro t x ht)
    | split
    | simp only [kept_mk]
    | (with_reducible refine kept_snd (by assumption) ?_)
    | (with_reducible refine kept_snd2 (by assumption) ?_)
    | dsimp -iota only
    | dsimp only
    | decide
    | intro t l w ht
    | intro t l ht
    | intro t ht

theorem execSyncFenceSys_kept {s0 : State} (_tb : Bool) (_ta : Bool) (s : State) (h0 : Kept s0 s) : KeptO s0 (execSyncFenceSys _tb _ta s) := by
  unfold execSyncFenceSys
  try dsimp -iota only
  repeat' first
    | with_reducible assumption
    | with_reducible apply fence_kept
    | with_reducible apply keptO_next
    | with_reducible apply kept_ite
    | (with_reducible apply kept_foldl; intro t x ht)
    | (with_reducible apply kept_foldl_snd; intro t x ht)
    | split
    | simp only [kept_mk]
    | (with_reducible refine kept_snd (by assumption) ?_)
    | (with_reducible refine kept_snd2 (by assumption) ?_)
    | dsimp -iota only
    | dsimp only
    | decide
    | intro t l w ht
    | intro t l ht
    | intro t ht

theorem execSyncFenceCp_kept {s0 : State} (_tb : Bool) (_ta : Bool) (s : State) (h0 : Kept s0 s) : KeptO s0 (execSyncFenceCp _tb _ta s) := by
  unfold execSyncFenceCp
  try dsimp -iota only
  repeat' first
    | with_reducible assumption
    | with_reducible apply fence_kept
    | with_reducible apply keptO_next
    | with_reducible apply kept_ite
    | (with_reducible apply kept_foldl; intro t x ht)
    | (with_reducible apply kept_foldl_snd; intro t x ht)
    | split
    | simp only [kept_mk]
    | (with_reducible refine kept_snd (by assumption) ?_)
    | (with_reducible refine kept_snd2 (by assumption) ?_)
    | dsimp -iota only
    | dsimp only
    | decide
    | intro t l w ht
    | intro t l ht
    | intro t ht

theorem execSyncFenceU_kept {s0 : State} (_tb : Bool) (_ta : Bool) (s : State) (h0 : Kept s0 s) : KeptO s0 (execSyncFenceU _tb _ta s) := by
  unfold execSyncFenceU
  try dsimp -iota only
  repeat' first
    | with_reducible assumption
    | with_reducible apply holdGate_kept
    | with_reducible apply retire_kept
    | with_reducible apply mergeCore_kept
    | with_reducible apply keptO_next
    | with_reducible apply kept_ite
    | (with_reducible apply kept_foldl; intro t x ht)
    | (with_reducible apply kept_foldl_snd; intro t x ht)
    | split
    | simp only [kept_mk]
    | (with_reducible refine kept_snd (by assumption) ?_)
    | (with_reducible refine kept_snd2 (by assumption) ?_)
    | dsimp -iota only
    | dsimp only
    | decide
    | intro t l w ht
    | intro t l ht
    | intro t ht

theorem dateNow_kept {s0 : State} (s : State) (h0 : Kept s0 s) : Kept s0 (dateNow s).2 := by
  unfold dateNow
  try dsimp -iota only
  repeat' first
    | with_reducible assumption
    | with_reducible apply modPkg_kept
    | with_reducible apply kept_ite
    | (with_reducible apply kept_foldl; intro t x ht)
    | (with_reducible apply kept_foldl_snd; intro t x ht)
    | split
    | simp only [kept_mk]
    | (with_reducible refine kept_snd (by assumption) ?_)
    | (with_reducible refine kept_snd2 (by assumption) ?_)
    | dsimp -iota only
    | dsimp only
    | decide
    | intro t l w ht
    | intro t l ht
    | intro t ht

theorem objectPart_kept {s0 : State} (s : State) (die : Nat) (p : Part) (h0 : Kept s0 s) : Kept s0 (objectPart s die p).2 := by
  unfold objectPart
  try dsimp -iota only
  repeat' first
    | with_reducible assumption
    | with_reducible apply homeRead_kept
    | with_reducible apply landFlights_kept
    | with_reducible apply kept_ite
    | (with_reducible apply kept_foldl; intro t x ht)
    | (with_reducible apply kept_foldl_snd; intro t x ht)
    | split
    | simp only [kept_mk]
    | (with_reducible refine kept_snd (by assumption) ?_)
    | (with_reducible refine kept_snd2 (by assumption) ?_)
    | dsimp -iota only
    | dsimp only
    | decide
    | intro t l w ht
    | intro t l ht
    | intro t ht

theorem readObject_kept {s0 : State} (s : State) (die : Nat) (arg2 : List Part) (h0 : Kept s0 s) : Kept s0 (readObject s die arg2).2 := by
  induction arg2 generalizing s with
  | nil => first | assumption | (unfold readObject; assumption) | exact fun _ h => h
  | cons x xs ih =>
    unfold readObject
    try dsimp -iota only
    repeat' first
      | with_reducible assumption
      | with_reducible apply ih
      | with_reducible apply objectPart_kept
      | with_reducible apply kept_ite
      | (with_reducible apply kept_foldl; intro t x ht)
      | (with_reducible apply kept_foldl_snd; intro t x ht)
      | split
      | simp only [kept_mk]
      | (with_reducible refine kept_snd (by assumption) ?_)
      | (with_reducible refine kept_snd2 (by assumption) ?_)
      | dsimp -iota only
      | dsimp only
      | decide
      | intro t l w ht
      | intro t l ht
      | intro t ht

theorem writeObject_kept {s0 : State} (s : State) (die : Nat) (bs : List Byte) (arg3 : List Part) (h0 : Kept s0 s) : Kept s0 (writeObject s die bs arg3) := by
  induction arg3 generalizing s bs with
  | nil => first | assumption | (unfold writeObject; assumption) | exact fun _ h => h
  | cons x xs ih =>
    unfold writeObject
    try dsimp -iota only
    repeat' first
      | with_reducible assumption
      | with_reducible apply ih
      | with_reducible apply homeStore_kept
      | with_reducible apply kept_ite
      | (with_reducible apply kept_foldl; intro t x ht)
      | (with_reducible apply kept_foldl_snd; intro t x ht)
      | split
      | simp only [kept_mk]
      | (with_reducible refine kept_snd (by assumption) ?_)
      | (with_reducible refine kept_snd2 (by assumption) ?_)
      | dsimp -iota only
      | dsimp only
      | decide
      | intro t l w ht
      | intro t l ht
      | intro t ht

theorem sigGate_kept {s0 : State} (s : State) (r : RowId) (body : State) (h0 : Kept s0 s) (h1 : Kept s0 body) : Kept s0 (sigGate s r body) := by
  unfold sigGate
  try dsimp -iota only
  repeat' first
    | with_reducible assumption
    | with_reducible apply raise_kept
    | with_reducible apply kept_ite
    | (with_reducible apply kept_foldl; intro t x ht)
    | (with_reducible apply kept_foldl_snd; intro t x ht)
    | split
    | simp only [kept_mk]
    | (with_reducible refine kept_snd (by assumption) ?_)
    | (with_reducible refine kept_snd2 (by assumption) ?_)
    | dsimp -iota only
    | dsimp only
    | decide
    | intro t l w ht
    | intro t l ht
    | intro t ht

theorem relDate_kept {s0 : State} (s : State) (r : RowId) (v : Word) (ps : List Part) (h0 : Kept s0 s) : Kept s0 (relDate s r v ps) := by
  unfold relDate
  try dsimp -iota only
  repeat' first
    | with_reducible assumption
    | with_reducible apply dateNow_kept
    | with_reducible apply fresh_kept
    | with_reducible refine modRow_kept ?_ _ _ ?_
    | with_reducible apply putRowBytes_kept
    | with_reducible apply kept_ite
    | (with_reducible apply kept_foldl; intro t x ht)
    | (with_reducible apply kept_foldl_snd; intro t x ht)
    | split
    | simp only [kept_mk]
    | (with_reducible refine kept_snd (by assumption) ?_)
    | (with_reducible refine kept_snd2 (by assumption) ?_)
    | dsimp -iota only
    | dsimp only
    | decide
    | (intro w hw; (try dsimp only); (repeat' split); all_goals first | with_reducible assumption | with_reducible exact rowOk_congr hw rfl rfl rfl rfl rfl rfl | (obtain ⟨h1, h2, h3, h4, h5⟩ := hw; refine ⟨?_, ?_, ?_, ?_, ?_⟩ <;> (try dsimp only) <;> first | with_reducible assumption | with_reducible exact even_mask _ | with_reducible exact even_256 _ | with_reducible exact flags_mask _ | with_reducible exact flags_or _ h5 | with_reducible exact .inl rfl | (simp; done)))
    | intro t l w ht
    | intro t l ht
    | intro t ht

theorem relUndo_kept {s0 : State} (s : State) (r : RowId) (x : Rel) (h0 : Kept s0 s) : Kept s0 (relUndo s r x) := by
  unfold relUndo
  try dsimp -iota only
  repeat' first
    | with_reducible assumption
    | with_reducible refine modRow_kept ?_ _ _ ?_
    | with_reducible apply putRowBytes_kept
    | with_reducible apply kept_ite
    | (with_reducible apply kept_foldl; intro t x ht)
    | (with_reducible apply kept_foldl_snd; intro t x ht)
    | split
    | simp only [kept_mk]
    | (with_reducible refine kept_snd (by assumption) ?_)
    | (with_reducible refine kept_snd2 (by assumption) ?_)
    | dsimp -iota only
    | dsimp only
    | decide
    | (intro w hw; (try dsimp only); (repeat' split); all_goals first | with_reducible assumption | with_reducible exact rowOk_congr hw rfl rfl rfl rfl rfl rfl | (obtain ⟨h1, h2, h3, h4, h5⟩ := hw; refine ⟨?_, ?_, ?_, ?_, ?_⟩ <;> (try dsimp only) <;> first | with_reducible assumption | with_reducible exact even_mask _ | with_reducible exact even_256 _ | with_reducible exact flags_mask _ | with_reducible exact flags_or _ h5 | with_reducible exact .inl rfl | (simp; done)))
    | intro t l w ht
    | intro t l ht
    | intro t ht

theorem relWrite_kept {s0 : State} (s : State) (r : RowId) (x : Rel) (h0 : Kept s0 s) : Kept s0 (relWrite s r x) := by
  unfold relWrite
  try dsimp -iota only
  repeat' first
    | with_reducible assumption
    | with_reducible refine modRow_kept ?_ _ _ ?_
    | with_reducible apply raise_kept
    | with_reducible apply relUndo_kept
    | with_reducible apply retire_kept
    | with_reducible apply bump_kept
    | with_reducible apply writeObject_kept
    | with_reducible apply kept_ite
    | (with_reducible apply kept_foldl; intro t x ht)
    | (with_reducible apply kept_foldl_snd; intro t x ht)
    | split
    | simp only [kept_mk]
    | (with_reducible refine kept_snd (by assumption) ?_)
    | (with_reducible refine kept_snd2 (by assumption) ?_)
    | dsimp -iota only
    | dsimp only
    | decide
    | (intro w hw; (try dsimp only); (repeat' split); all_goals first | with_reducible assumption | with_reducible exact rowOk_congr hw rfl rfl rfl rfl rfl rfl | (obtain ⟨h1, h2, h3, h4, h5⟩ := hw; refine ⟨?_, ?_, ?_, ?_, ?_⟩ <;> (try dsimp only) <;> first | with_reducible assumption | with_reducible exact even_mask _ | with_reducible exact even_256 _ | with_reducible exact flags_mask _ | with_reducible exact flags_or _ h5 | with_reducible exact .inl rfl | (simp; done)))
    | intro t l w ht
    | intro t l ht
    | intro t ht

theorem execSyncRel_kept {s0 : State} (tb : Bool) (ta : Bool) (b : Reg) (a : Reg) (s : State) (h0 : Kept s0 s) : KeptO s0 (execSyncRel tb ta b a s) := by
  unfold execSyncRel
  try dsimp -iota only
  repeat' first
    | with_reducible assumption
    | with_reducible apply relWrite_kept
    | with_reducible apply holdGate_kept
    | with_reducible apply gate_kept
    | with_reducible apply raise_kept
    | with_reducible apply sigGate_kept
    | with_reducible apply mergeCore_kept
    | with_reducible apply relDate_kept
    | with_reducible apply keptO_next
    | with_reducible apply kept_ite
    | (with_reducible apply kept_foldl; intro t x ht)
    | (with_reducible apply kept_foldl_snd; intro t x ht)
    | split
    | simp only [kept_mk]
    | (with_reducible refine kept_snd (by assumption) ?_)
    | (with_reducible refine kept_snd2 (by assumption) ?_)
    | dsimp -iota only
    | dsimp only
    | decide
    | intro t l w ht
    | intro t l ht
    | intro t ht

theorem acqStep1_kept {s0 : State} (s : State) (r : RowId) (d : Reg) (o : List Byte) (h0 : Kept s0 s) : Kept s0 (acqStep1 s r d o) := by
  unfold acqStep1
  try dsimp -iota only
  repeat' first
    | with_reducible assumption
    | with_reducible apply setX_kept
    | with_reducible apply retire_kept
    | with_reducible apply sigGate_kept
    | with_reducible apply fresh_kept
    | with_reducible refine modRow_kept ?_ _ _ ?_
    | with_reducible apply putRowBytes_kept
    | with_reducible apply kept_ite
    | (with_reducible apply kept_foldl; intro t x ht)
    | (with_reducible apply kept_foldl_snd; intro t x ht)
    | split
    | simp only [kept_mk]
    | (with_reducible refine kept_snd (by assumption) ?_)
    | (with_reducible refine kept_snd2 (by assumption) ?_)
    | dsimp -iota only
    | dsimp only
    | decide
    | (intro w hw; (try dsimp only); (repeat' split); all_goals first | with_reducible assumption | with_reducible exact rowOk_congr hw rfl rfl rfl rfl rfl rfl | (obtain ⟨h1, h2, h3, h4, h5⟩ := hw; refine ⟨?_, ?_, ?_, ?_, ?_⟩ <;> (try dsimp only) <;> first | with_reducible assumption | with_reducible exact even_mask _ | with_reducible exact even_256 _ | with_reducible exact flags_mask _ | with_reducible exact flags_or _ h5 | with_reducible exact .inl rfl | (simp; done)))
    | intro t l w ht
    | intro t l ht
    | intro t ht

theorem execSyncAcq_kept {s0 : State} (_tb : Bool) (ta : Bool) (a : Reg) (d : Reg) (s : State) (h0 : Kept s0 s) : KeptO s0 (execSyncAcq _tb ta a d s) := by
  unfold execSyncAcq
  try dsimp -iota only
  repeat' first
    | with_reducible assumption
    | with_reducible apply holdGate_kept
    | with_reducible apply gate_kept
    | with_reducible apply raise_kept
    | with_reducible apply readObject_kept
    | with_reducible apply acqStep1_kept
    | with_reducible apply bump_kept
    | with_reducible apply retire_kept
    | with_reducible apply refetch_kept
    | with_reducible apply keptO_next
    | with_reducible apply kept_ite
    | (with_reducible apply kept_foldl; intro t x ht)
    | (with_reducible apply kept_foldl_snd; intro t x ht)
    | split
    | simp only [kept_mk]
    | (with_reducible refine kept_snd (by assumption) ?_)
    | (with_reducible refine kept_snd2 (by assumption) ?_)
    | dsimp -iota only
    | dsimp only
    | decide
    | intro t l w ht
    | intro t l ht
    | intro t ht

theorem sliceDrop_kept {s0 : State} (s : State) (slice : Nat) (p : Line → Bool) (h0 : Kept s0 s) : Kept s0 (sliceDrop s slice p).2 := by
  unfold sliceDrop
  try dsimp -iota only
  repeat' first
    | with_reducible assumption
    | with_reducible apply kept_ite
    | (with_reducible apply kept_foldl; intro t x ht)
    | (with_reducible apply kept_foldl_snd; intro t x ht)
    | split
    | simp only [kept_mk]
    | (with_reducible refine kept_snd (by assumption) ?_)
    | (with_reducible refine kept_snd2 (by assumption) ?_)
    | dsimp -iota only
    | dsimp only
    | decide
    | intro t l w ht
    | intro t l ht
    | intro t ht

theorem passDone_kept {s0 : State} (s : State) (id : Nat) (die : Nat) (slice : Nat) (h0 : Kept s0 s) : Kept s0 (passDone s id die slice) := by
  unfold passDone
  try dsimp -iota only
  repeat' first
    | with_reducible assumption
    | with_reducible apply kept_ite
    | (with_reducible apply kept_foldl; intro t x ht)
    | (with_reducible apply kept_foldl_snd; intro t x ht)
    | split
    | simp only [kept_mk]
    | (with_reducible refine kept_snd (by assumption) ?_)
    | (with_reducible refine kept_snd2 (by assumption) ?_)
    | dsimp -iota only
    | dsimp only
    | decide
    | intro t l w ht
    | intro t l ht
    | intro t ht

theorem countAcq_kept {s0 : State} (s : State) (die : Nat) (n : Nat) (h0 : Kept s0 s) : Kept s0 (countAcq s die n) := by
  unfold countAcq
  try dsimp -iota only
  repeat' first
    | with_reducible assumption
    | with_reducible apply modDie_kept
    | with_reducible apply kept_ite
    | (with_reducible apply kept_foldl; intro t x ht)
    | (with_reducible apply kept_foldl_snd; intro t x ht)
    | split
    | simp only [kept_mk]
    | (with_reducible refine kept_snd (by assumption) ?_)
    | (with_reducible refine kept_snd2 (by assumption) ?_)
    | dsimp -iota only
    | dsimp only
    | decide
    | intro t l w ht
    | intro t l ht
    | intro t ht

theorem passOwn_kept {s0 : State} (s : State) (id : Nat) (slice : Nat) (h0 : Kept s0 s) : Kept s0 (passOwn s id slice) := by
  unfold passOwn
  try dsimp -iota only
  repeat' first
    | with_reducible assumption
    | with_reducible apply sliceDrop_kept
    | with_reducible apply passDone_kept
    | with_reducible apply countAcq_kept
    | with_reducible apply kept_ite
    | (with_reducible apply kept_foldl; intro t x ht)
    | (with_reducible apply kept_foldl_snd; intro t x ht)
    | split
    | simp only [kept_mk]
    | (with_reducible refine kept_snd (by assumption) ?_)
    | (with_reducible refine kept_snd2 (by assumption) ?_)
    | dsimp -iota only
    | dsimp only
    | decide
    | intro t l w ht
    | intro t l ht
    | intro t ht

theorem passOther_kept {s0 : State} (s : State) (id : Nat) (slice : Nat) (h0 : Kept s0 s) : Kept s0 (passOther s id slice) := by
  unfold passOther
  try dsimp -iota only
  repeat' first
    | with_reducible assumption
    | with_reducible apply sliceDrop_kept
    | with_reducible apply passDone_kept
    | with_reducible apply countAcq_kept
    | with_reducible apply kept_ite
    | (with_reducible apply kept_foldl; intro t x ht)
    | (with_reducible apply kept_foldl_snd; intro t x ht)
    | split
    | simp only [kept_mk]
    | (with_reducible refine kept_snd (by assumption) ?_)
    | (with_reducible refine kept_snd2 (by assumption) ?_)
    | dsimp -iota only
    | dsimp only
    | decide
    | intro t l w ht
    | intro t l ht
    | intro t ht

theorem frostStep_kept {s0 : State} (s : State) (slice : Nat) (h0 : Kept s0 s) : Kept s0 (frostStep s slice) := by
  unfold frostStep
  try dsimp -iota only
  repeat' first
    | with_reducible assumption
    | with_reducible apply sliceDrop_kept
    | with_reducible apply modPkg_kept
    | with_reducible apply modDie_kept
    | with_reducible apply kept_ite
    | (with_reducible apply kept_foldl; intro t x ht)
    | (with_reducible apply kept_foldl_snd; intro t x ht)
    | split
    | simp only [kept_mk]
    | (with_reducible refine kept_snd (by assumption) ?_)
    | (with_reducible refine kept_snd2 (by assumption) ?_)
    | dsimp -iota only
    | dsimp only
    | decide
    | intro t l w ht
    | intro t l ht
    | intro t ht

theorem dateStep_kept {s0 : State} (s : State) (slice : Nat) (date : Nat) (h0 : Kept s0 s) : Kept s0 (dateStep s slice date) := by
  unfold dateStep
  try dsimp -iota only
  repeat' first
    | with_reducible assumption
    | with_reducible apply modPkg_kept
    | with_reducible apply kept_ite
    | (with_reducible apply kept_foldl; intro t x ht)
    | (with_reducible apply kept_foldl_snd; intro t x ht)
    | split
    | simp only [kept_mk]
    | (with_reducible refine kept_snd (by assumption) ?_)
    | (with_reducible refine kept_snd2 (by assumption) ?_)
    | dsimp -iota only
    | dsimp only
    | decide
    | intro t l w ht
    | intro t l ht
    | intro t ht

theorem lagStep_kept {s0 : State} (s : State) (slice : Nat) (h0 : Kept s0 s) : Kept s0 (lagStep s slice) := by
  unfold lagStep
  try dsimp -iota only
  repeat' first
    | with_reducible assumption
    | with_reducible apply modPkg_kept
    | with_reducible apply kept_ite
    | (with_reducible apply kept_foldl; intro t x ht)
    | (with_reducible apply kept_foldl_snd; intro t x ht)
    | split
    | simp only [kept_mk]
    | (with_reducible refine kept_snd (by assumption) ?_)
    | (with_reducible refine kept_snd2 (by assumption) ?_)
    | dsimp -iota only
    | dsimp only
    | decide
    | intro t l w ht
    | intro t l ht
    | intro t ht

theorem maintain_kept {s0 : State} (s : State) (m : Maint) (ps : List Part) (h0 : Kept s0 s) : Kept s0 (maintain s m ps) := by
  unfold maintain
  try dsimp -iota only
  repeat' first
    | with_reducible assumption
    | with_reducible apply cleanWhere_kept
    | with_reducible apply dropWhere_kept
    | with_reducible apply flushWhere_kept
    | with_reducible apply kept_ite
    | (with_reducible apply kept_foldl; intro t x ht)
    | (with_reducible apply kept_foldl_snd; intro t x ht)
    | split
    | simp only [kept_mk]
    | (with_reducible refine kept_snd (by assumption) ?_)
    | (with_reducible refine kept_snd2 (by assumption) ?_)
    | dsimp -iota only
    | dsimp only
    | decide
    | intro t l w ht
    | intro t l ht
    | intro t ht

theorem rangeOp_kept {s0 : State} (s : State) (m : Maint) (tb : Bool) (ta : Bool) (b : Reg) (a : Reg) (h0 : Kept s0 s) : Kept s0 (rangeOp s m tb ta b a) := by
  unfold rangeOp
  try dsimp -iota only
  repeat' first
    | with_reducible assumption
    | with_reducible apply retire_kept
    | with_reducible apply raise_kept
    | with_reducible apply toStep_kept
    | with_reducible apply mergeWhere_kept
    | with_reducible apply bump_kept
    | with_reducible apply maintain_kept
    | with_reducible apply holdGate_kept
    | with_reducible apply gate_kept
    | with_reducible apply kept_ite
    | (with_reducible apply kept_foldl; intro t x ht)
    | (with_reducible apply kept_foldl_snd; intro t x ht)
    | split
    | simp only [kept_mk]
    | (with_reducible refine kept_snd (by assumption) ?_)
    | (with_reducible refine kept_snd2 (by assumption) ?_)
    | dsimp -iota only
    | dsimp only
    | decide
    | intro t l w ht
    | intro t l ht
    | intro t ht

theorem execSyncClnRange_kept {s0 : State} (tb : Bool) (ta : Bool) (b : Reg) (a : Reg) (s : State) (h0 : Kept s0 s) : KeptO s0 (execSyncClnRange tb ta b a s) := by
  unfold execSyncClnRange
  try dsimp -iota only
  repeat' first
    | with_reducible assumption
    | with_reducible apply rangeOp_kept
    | with_reducible apply keptO_next
    | with_reducible apply kept_ite
    | (with_reducible apply kept_foldl; intro t x ht)
    | (with_reducible apply kept_foldl_snd; intro t x ht)
    | split
    | simp only [kept_mk]
    | (with_reducible refine kept_snd (by assumption) ?_)
    | (with_reducible refine kept_snd2 (by assumption) ?_)
    | dsimp -iota only
    | dsimp only
    | decide
    | intro t l w ht
    | intro t l ht
    | intro t ht

theorem execSyncInvRange_kept {s0 : State} (tb : Bool) (ta : Bool) (b : Reg) (a : Reg) (s : State) (h0 : Kept s0 s) : KeptO s0 (execSyncInvRange tb ta b a s) := by
  unfold execSyncInvRange
  try dsimp -iota only
  repeat' first
    | with_reducible assumption
    | with_reducible apply rangeOp_kept
    | with_reducible apply keptO_next
    | with_reducible apply kept_ite
    | (with_reducible apply kept_foldl; intro t x ht)
    | (with_reducible apply kept_foldl_snd; intro t x ht)
    | split
    | simp only [kept_mk]
    | (with_reducible refine kept_snd (by assumption) ?_)
    | (with_reducible refine kept_snd2 (by assumption) ?_)
    | dsimp -iota only
    | dsimp only
    | decide
    | intro t l w ht
    | intro t l ht
    | intro t ht

theorem execSyncFlnRange_kept {s0 : State} (tb : Bool) (ta : Bool) (b : Reg) (a : Reg) (s : State) (h0 : Kept s0 s) : KeptO s0 (execSyncFlnRange tb ta b a s) := by
  unfold execSyncFlnRange
  try dsimp -iota only
  repeat' first
    | with_reducible assumption
    | with_reducible apply rangeOp_kept
    | with_reducible apply keptO_next
    | with_reducible apply kept_ite
    | (with_reducible apply kept_foldl; intro t x ht)
    | (with_reducible apply kept_foldl_snd; intro t x ht)
    | split
    | simp only [kept_mk]
    | (with_reducible refine kept_snd (by assumption) ?_)
    | (with_reducible refine kept_snd2 (by assumption) ?_)
    | dsimp -iota only
    | dsimp only
    | decide
    | intro t l w ht
    | intro t l ht
    | intro t ht

theorem feRange_kept {s0 : State} (s : State) (set : Bool) (tb : Bool) (ta : Bool) (b : Reg) (a : Reg) (h0 : Kept s0 s) : Kept s0 (feRange s set tb ta b a) := by
  unfold feRange
  try dsimp -iota only
  repeat' first
    | with_reducible assumption
    | with_reducible apply raise_kept
    | with_reducible apply stall_kept
    | with_reducible apply retire_kept
    | with_reducible apply enterParts_kept
    | with_reducible apply holdGate_kept
    | with_reducible apply gate_kept
    | with_reducible apply kept_ite
    | (with_reducible apply kept_foldl; intro t x ht)
    | (with_reducible apply kept_foldl_snd; intro t x ht)
    | split
    | simp only [kept_mk]
    | (with_reducible refine kept_snd (by assumption) ?_)
    | (with_reducible refine kept_snd2 (by assumption) ?_)
    | dsimp -iota only
    | dsimp only
    | decide
    | intro t l w ht
    | intro t l ht
    | intro t ht

theorem execSyncFeClr_kept {s0 : State} (tb : Bool) (ta : Bool) (b : Reg) (a : Reg) (s : State) (h0 : Kept s0 s) : KeptO s0 (execSyncFeClr tb ta b a s) := by
  unfold execSyncFeClr
  try dsimp -iota only
  repeat' first
    | with_reducible assumption
    | with_reducible apply feRange_kept
    | with_reducible apply keptO_next
    | with_reducible apply kept_ite
    | (with_reducible apply kept_foldl; intro t x ht)
    | (with_reducible apply kept_foldl_snd; intro t x ht)
    | split
    | simp only [kept_mk]
    | (with_reducible refine kept_snd (by assumption) ?_)
    | (with_reducible refine kept_snd2 (by assumption) ?_)
    | dsimp -iota only
    | dsimp only
    | decide
    | intro t l w ht
    | intro t l ht
    | intro t ht

theorem execSyncFeSet_kept {s0 : State} (tb : Bool) (ta : Bool) (b : Reg) (a : Reg) (s : State) (h0 : Kept s0 s) : KeptO s0 (execSyncFeSet tb ta b a s) := by
  unfold execSyncFeSet
  try dsimp -iota only
  repeat' first
    | with_reducible assumption
    | with_reducible apply feRange_kept
    | with_reducible apply keptO_next
    | with_reducible apply kept_ite
    | (with_reducible apply kept_foldl; intro t x ht)
    | (with_reducible apply kept_foldl_snd; intro t x ht)
    | split
    | simp only [kept_mk]
    | (with_reducible refine kept_snd (by assumption) ?_)
    | (with_reducible refine kept_snd2 (by assumption) ?_)
    | dsimp -iota only
    | dsimp only
    | decide
    | intro t l w ht
    | intro t l ht
    | intro t ht

end Sys2Proof.Machine
end

