-- ==== Sys2Proof/Laws/KeptRows.lean ====
section
/-! SUPPORT. The operations of Machine/Rows.lean keep canonical memory and legal control blocks (Kept.lean). -/

namespace Sys2Proof.Machine

set_option linter.all false

theorem yieldRow_kept {s0 : State} (s : State) (n : Nat) (h0 : Kept s0 s) : Kept s0 (yieldRow s n) := by
  unfold yieldRow
  try dsimp -iota only
  repeat' first
    | with_reducible assumption
    | with_reducible apply retire_kept
    | with_reducible apply closeRow_kept
    | with_reducible apply kept_ite
    | (with_reducible apply kept_foldl; intro t x ht)
    | (with_reducible apply kept_foldl_snd; intro t x ht)
    | split
    | simp only [kept_mk]
    | (with_reducible refine kept_snd (by assumption) ?_)
    | (with_reducible refine kept_snd2 (by assumption) ?_)
    | dsimp -iota only
    | dsimp only
    | decide
    | intro t l w ht
    | intro t l ht
    | intro t ht

theorem execRowYield_kept {s0 : State} (_tb : Bool) (_ta : Bool) (s : State) (h0 : Kept s0 s) : KeptO s0 (execRowYield _tb _ta s) := by
  unfold execRowYield
  try dsimp -iota only
  repeat' first
    | with_reducible assumption
    | with_reducible apply yieldRow_kept
    | with_reducible apply keptO_next
    | with_reducible apply kept_ite
    | (with_reducible apply kept_foldl; intro t x ht)
    | (with_reducible apply kept_foldl_snd; intro t x ht)
    | split
    | simp only [kept_mk]
    | (with_reducible refine kept_snd (by assumption) ?_)
    | (with_reducible refine kept_snd2 (by assumption) ?_)
    | dsimp -iota only
    | dsimp only
    | decide
    | intro t l w ht
    | intro t l ht
    | intro t ht

theorem execRowWait_kept {s0 : State} (_tb : Bool) (ta : Bool) (a : Reg) (s : State) (h0 : Kept s0 s) : KeptO s0 (execRowWait _tb ta a s) := by
  unfold execRowWait
  try dsimp -iota only
  repeat' first
    | with_reducible assumption
    | with_reducible apply gate_kept
    | with_reducible apply soundGate_kept
    | with_reducible apply waitFor_kept
    | with_reducible apply retire_kept
    | with_reducible apply keptO_next
    | with_reducible apply kept_ite
    | (with_reducible apply kept_foldl; intro t x ht)
    | (with_reducible apply kept_foldl_snd; intro t x ht)
    | split
    | simp only [kept_mk]
    | (with_reducible refine kept_snd (by assumption) ?_)
    | (with_reducible refine kept_snd2 (by assumption) ?_)
    | dsimp -iota only
    | dsimp only
    | decide
    | intro t l w ht
    | intro t l ht
    | intro t ht

theorem execRowStop_kept {s0 : State} (_tb : Bool) (_ta : Bool) (s : State) (h0 : Kept s0 s) : KeptO s0 (execRowStop _tb _ta s) := by
  unfold execRowStop
  try dsimp -iota only
  repeat' first
    | with_reducible assumption
    | with_reducible apply makeStopped_kept
    | with_reducible apply retire_kept
    | with_reducible apply keptO_next
    | with_reducible apply kept_ite
    | (with_reducible apply kept_foldl; intro t x ht)
    | (with_reducible apply kept_foldl_snd; intro t x ht)
    | split
    | simp only [kept_mk]
    | (with_reducible refine kept_snd (by assumption) ?_)
    | (with_reducible refine kept_snd2 (by assumption) ?_)
    | dsimp -iota only
    | dsimp only
    | decide
    | intro t l w ht
    | intro t l ht
    | intro t ht

theorem execRowRowid_kept {s0 : State} (_tb : Bool) (_ta : Bool) (d : Reg) (s : State) (h0 : Kept s0 s) : KeptO s0 (execRowRowid _tb _ta d s) := by
  unfold execRowRowid
  try dsimp -iota only
  repeat' first
    | with_reducible assumption
    | with_reducible apply retX_kept
    | with_reducible apply keptO_next
    | with_reducible apply kept_ite
    | (with_reducible apply kept_foldl; intro t x ht)
    | (with_reducible apply kept_foldl_snd; intro t x ht)
    | split
    | simp only [kept_mk]
    | (with_reducible refine kept_snd (by assumption) ?_)
    | (with_reducible refine kept_snd2 (by assumption) ?_)
    | dsimp -iota only
    | dsimp only
    | decide
    | intro t l w ht
    | intro t l ht
    | intro t ht

theorem execRowBudget_kept {s0 : State} (_tb : Bool) (ta : Bool) (a : Reg) (d : Reg) (s : State) (h0 : Kept s0 s) : KeptO s0 (execRowBudget _tb ta a d s) := by
  unfold execRowBudget
  try dsimp -iota only
  repeat' first
    | with_reducible assumption
    | with_reducible apply gate_kept
    | with_reducible apply soundGate_kept
    | with_reducible apply retX_kept
    | with_reducible refine modRow_kept ?_ _ _ ?_
    | with_reducible apply keptO_next
    | with_reducible apply kept_ite
    | (with_reducible apply kept_foldl; intro t x ht)
    | (with_reducible apply kept_foldl_snd; intro t x ht)
    | split
    | simp only [kept_mk]
    | (with_reducible refine kept_snd (by assumption) ?_)
    | (with_reducible refine kept_snd2 (by assumption) ?_)
    | dsimp -iota only
    | dsimp only
    | decide
    | (intro w hw; (try dsimp only); (repeat' split); all_goals first | with_reducible assumption | with_reducible exact rowOk_congr hw rfl rfl rfl rfl rfl rfl | (obtain ⟨h1, h2, h3, h4, h5⟩ := hw; refine ⟨?_, ?_, ?_, ?_, ?_⟩ <;> (try dsimp only) <;> first | with_reducible assumption | with_reducible exact even_mask _ | with_reducible exact even_256 _ | with_reducible exact flags_mask _ | with_reducible exact flags_or _ h5 | with_reducible exact .inl rfl | (simp; done)))
    | intro t l w ht
    | intro t l ht
    | intro t ht

theorem sendIssue_kept {s0 : State} (s : State) (r : RowId) (ws : List Word) (d : Reg) (h0 : Kept s0 s) : Kept s0 (sendIssue s r ws d) := by
  unfold sendIssue
  try dsimp -iota only
  repeat' first
    | with_reducible assumption
    | with_reducible apply fence_kept
    | with_reducible apply retire_kept
    | with_reducible apply issueReq_kept
    | with_reducible apply kept_ite
    | (with_reducible apply kept_foldl; intro t x ht)
    | (with_reducible apply kept_foldl_snd; intro t x ht)
    | split
    | simp only [kept_mk]
    | (with_reducible refine kept_snd (by assumption) ?_)
    | (with_reducible refine kept_snd2 (by assumption) ?_)
    | dsimp -iota only
    | dsimp only
    | decide
    | intro t l w ht
    | intro t l ht
    | intro t ht

theorem execRowSend_kept {s0 : State} (_tb : Bool) (ta : Bool) (a : Reg) (d : Reg) (s : State) (h0 : Kept s0 s) : KeptO s0 (execRowSend _tb ta a d s) := by
  unfold execRowSend
  try dsimp -iota only
  repeat' first
    | with_reducible assumption
    | with_reducible apply gate_kept
    | with_reducible apply raise_kept
    | with_reducible apply readParts_kept
    | with_reducible apply sendIssue_kept
    | with_reducible apply dropAnswers_kept
    | with_reducible apply retX_kept
    | with_reducible apply keptO_next
    | with_reducible apply kept_ite
    | (with_reducible apply kept_foldl; intro t x ht)
    | (with_reducible apply kept_foldl_snd; intro t x ht)
    | split
    | simp only [kept_mk]
    | (with_reducible refine kept_snd (by assumption) ?_)
    | (with_reducible refine kept_snd2 (by assumption) ?_)
    | dsimp -iota only
    | dsimp only
    | decide
    | intro t l w ht
    | intro t l ht
    | intro t ht

theorem execRowSpawn_kept {s0 : State} (tb : Bool) (ta : Bool) (b : Reg) (a : Reg) (d : Reg) (s : State) (h0 : Kept s0 s) : KeptO s0 (execRowSpawn tb ta b a d s) := by
  unfold execRowSpawn
  try dsimp -iota only
  repeat' first
    | with_reducible assumption
    | with_reducible apply gate_kept
    | with_reducible apply sendIssue_kept
    | with_reducible apply retX_kept
    | with_reducible apply keptO_next
    | with_reducible apply kept_ite
    | (with_reducible apply kept_foldl; intro t x ht)
    | (with_reducible apply kept_foldl_snd; intro t x ht)
    | split
    | simp only [kept_mk]
    | (with_reducible refine kept_snd (by assumption) ?_)
    | (with_reducible refine kept_snd2 (by assumption) ?_)
    | dsimp -iota only
    | dsimp only
    | decide
    | intro t l w ht
    | intro t l ht
    | intro t ht

theorem doneEnd_kept {s0 : State} (s : State) (r : RowId) (h0 : Kept s0 s) : Kept s0 (doneEnd s r) := by
  unfold doneEnd
  try dsimp -iota only
  repeat' first
    | with_reducible assumption
    | with_reducible apply makeStopped_kept
    | with_reducible apply retire_kept
    | with_reducible refine modRow_kept ?_ _ _ ?_
    | with_reducible apply kept_ite
    | (with_reducible apply kept_foldl; intro t x ht)
    | (with_reducible apply kept_foldl_snd; intro t x ht)
    | split
    | simp only [kept_mk]
    | (with_reducible refine kept_snd (by assumption) ?_)
    | (with_reducible refine kept_snd2 (by assumption) ?_)
    | dsimp -iota only
    | dsimp only
    | decide
    | (intro w hw; (try dsimp only); (repeat' split); all_goals first | with_reducible assumption | with_reducible exact rowOk_congr hw rfl rfl rfl rfl rfl rfl | (obtain ⟨h1, h2, h3, h4, h5⟩ := hw; refine ⟨?_, ?_, ?_, ?_, ?_⟩ <;> (try dsimp only) <;> first | with_reducible assumption | with_reducible exact even_mask _ | with_reducible exact even_256 _ | with_reducible exact flags_mask _ | with_reducible exact flags_or _ h5 | with_reducible exact .inl rfl | (simp; done)))
    | intro t l w ht
    | intro t l ht
    | intro t ht

theorem execRowDone_kept {s0 : State} (_tb : Bool) (_ta : Bool) (s : State) (h0 : Kept s0 s) : KeptO s0 (execRowDone _tb _ta s) := by
  unfold execRowDone
  try dsimp -iota only
  repeat' first
    | with_reducible assumption
    | with_reducible refine modRow_kept ?_ _ _ ?_
    | with_reducible apply raise_kept
    | with_reducible apply ill_kept
    | with_reducible apply doneEnd_kept
    | with_reducible apply fireIssue_kept
    | with_reducible apply fireAwait_kept
    | with_reducible apply keptO_next
    | with_reducible apply kept_ite
    | (with_reducible apply kept_foldl; intro t x ht)
    | (with_reducible apply kept_foldl_snd; intro t x ht)
    | split
    | simp only [kept_mk]
    | (with_reducible refine kept_snd (by assumption) ?_)
    | (with_reducible refine kept_snd2 (by assumption) ?_)
    | dsimp -iota only
    | dsimp only
    | decide
    | (intro w hw; (try dsimp only); (repeat' split); all_goals first | with_reducible assumption | with_reducible exact rowOk_congr hw rfl rfl rfl rfl rfl rfl | (obtain ⟨h1, h2, h3, h4, h5⟩ := hw; refine ⟨?_, ?_, ?_, ?_, ?_⟩ <;> (try dsimp only) <;> first | with_reducible assumption | with_reducible exact even_mask _ | with_reducible exact even_256 _ | with_reducible exact flags_mask _ | with_reducible exact flags_or _ h5 | with_reducible exact .inl rfl | (simp; done)))
    | intro t l w ht
    | intro t l ht
    | intro t ht

theorem execRowBarInit_kept {s0 : State} (tb : Bool) (ta : Bool) (b : Reg) (a : Reg) (s : State) (h0 : Kept s0 s) : KeptO s0 (execRowBarInit tb ta b a s) := by
  unfold execRowBarInit
  try dsimp -iota only
  repeat' first
    | with_reducible assumption
    | with_reducible apply gate_kept
    | with_reducible apply ill_kept
    | with_reducible apply raise_kept
    | with_reducible apply retire_kept
    | with_reducible apply barReplace_kept
    | with_reducible apply keptO_next
    | with_reducible apply kept_ite
    | (with_reducible apply kept_foldl; intro t x ht)
    | (with_reducible apply kept_foldl_snd; intro t x ht)
    | split
    | simp only [kept_mk]
    | (with_reducible refine kept_snd (by assumption) ?_)
    | (with_reducible refine kept_snd2 (by assumption) ?_)
    | dsimp -iota only
    | dsimp only
    | decide
    | intro t l w ht
    | intro t l ht
    | intro t ht

theorem arrive_kept {s0 : State} (s : State) (core : Nat) (k : Nat) (h0 : Kept s0 s) : Kept s0 (arrive s core k).2 := by
  unfold arrive
  try dsimp -iota only
  repeat' first
    | with_reducible assumption
    | with_reducible apply barSet_kept
    | with_reducible apply kept_ite
    | (with_reducible apply kept_foldl; intro t x ht)
    | (with_reducible apply kept_foldl_snd; intro t x ht)
    | split
    | simp only [kept_mk]
    | (with_reducible refine kept_snd (by assumption) ?_)
    | (with_reducible refine kept_snd2 (by assumption) ?_)
    | dsimp -iota only
    | dsimp only
    | decide
    | intro t l w ht
    | intro t l ht
    | intro t ht

theorem noteArrival_kept {s0 : State} (s : State) (who : RowId) (core : Nat) (k : Nat) (h0 : Kept s0 s) : Kept s0 (noteArrival s who core k) := by
  unfold noteArrival
  try dsimp -iota only
  repeat' first
    | with_reducible assumption
    | with_reducible apply kept_ite
    | (with_reducible apply kept_foldl; intro t x ht)
    | (with_reducible apply kept_foldl_snd; intro t x ht)
    | split
    | simp only [kept_mk]
    | (with_reducible refine kept_snd (by assumption) ?_)
    | (with_reducible refine kept_snd2 (by assumption) ?_)
    | dsimp -iota only
    | dsimp only
    | decide
    | intro t l w ht
    | intro t l ht
    | intro t ht

theorem moveRate_kept {s0 : State} (s : State) (a : Nat) (b : Nat) (h0 : Kept s0 s) : Kept s0 (moveRate s a b) := by
  unfold moveRate
  try dsimp -iota only
  repeat' first
    | with_reducible assumption
    | with_reducible apply modCl_kept
    | with_reducible apply kept_ite
    | (with_reducible apply kept_foldl; intro t x ht)
    | (with_reducible apply kept_foldl_snd; intro t x ht)
    | split
    | simp only [kept_mk]
    | (with_reducible refine kept_snd (by assumption) ?_)
    | (with_reducible refine kept_snd2 (by assumption) ?_)
    | dsimp -iota only
    | dsimp only
    | decide
    | intro t l w ht
    | intro t l ht
    | intro t ht

theorem steerPhase_kept {s0 : State} (s : State) (core : Nat) (k : Nat) (cl : Nat) (h0 : Kept s0 s) : Kept s0 (steerPhase s core k cl) := by
  unfold steerPhase
  try dsimp -iota only
  repeat' first
    | with_reducible assumption
    | with_reducible apply moveRate_kept
    | with_reducible apply kept_ite
    | (with_reducible apply kept_foldl; intro t x ht)
    | (with_reducible apply kept_foldl_snd; intro t x ht)
    | split
    | simp only [kept_mk]
    | (with_reducible refine kept_snd (by assumption) ?_)
    | (with_reducible refine kept_snd2 (by assumption) ?_)
    | dsimp -iota only
    | dsimp only
    | decide
    | intro t l w ht
    | intro t l ht
    | intro t ht

theorem arriveBy_kept {s0 : State} (s : State) (who : RowId) (core : Nat) (k : Nat) (h0 : Kept s0 s) : Kept s0 (arriveBy s who core k).2 := by
  unfold arriveBy
  try dsimp -iota only
  repeat' first
    | with_reducible assumption
    | with_reducible apply arrive_kept
    | with_reducible apply noteArrival_kept
    | with_reducible apply steerPhase_kept
    | with_reducible apply kept_ite
    | (with_reducible apply kept_foldl; intro t x ht)
    | (with_reducible apply kept_foldl_snd; intro t x ht)
    | split
    | simp only [kept_mk]
    | (with_reducible refine kept_snd (by assumption) ?_)
    | (with_reducible refine kept_snd2 (by assumption) ?_)
    | dsimp -iota only
    | dsimp only
    | decide
    | intro t l w ht
    | intro t l ht
    | intro t ht

theorem execRowBarArrive_kept {s0 : State} (_tb : Bool) (ta : Bool) (a : Reg) (d : Reg) (s : State) (h0 : Kept s0 s) : KeptO s0 (execRowBarArrive _tb ta a d s) := by
  unfold execRowBarArrive
  try dsimp -iota only
  repeat' first
    | with_reducible assumption
    | with_reducible apply gate_kept
    | with_reducible apply raise_kept
    | with_reducible apply sentMsg_kept
    | with_reducible apply retire_kept
    | with_reducible apply issueReq_kept
    | with_reducible apply arrive_kept
    | with_reducible apply keptO_next
    | with_reducible apply kept_ite
    | (with_reducible apply kept_foldl; intro t x ht)
    | (with_reducible apply kept_foldl_snd; intro t x ht)
    | split
    | simp only [kept_mk]
    | (with_reducible refine kept_snd (by assumption) ?_)
    | (with_reducible refine kept_snd2 (by assumption) ?_)
    | dsimp -iota only
    | dsimp only
    | decide
    | intro t l w ht
    | intro t l ht
    | intro t ht

theorem execRowBarWait_kept {s0 : State} (tb : Bool) (ta : Bool) (b : Reg) (a : Reg) (s : State) (h0 : Kept s0 s) : KeptO s0 (execRowBarWait tb ta b a s) := by
  unfold execRowBarWait
  try dsimp -iota only
  repeat' first
    | with_reducible assumption
    | with_reducible apply gate_kept
    | with_reducible apply raise_kept
    | with_reducible apply waitFor_kept
    | with_reducible apply retire_kept
    | with_reducible apply keptO_next
    | with_reducible apply kept_ite
    | (with_reducible apply kept_foldl; intro t x ht)
    | (with_reducible apply kept_foldl_snd; intro t x ht)
    | split
    | simp only [kept_mk]
    | (with_reducible refine kept_snd (by assumption) ?_)
    | (with_reducible refine kept_snd2 (by assumption) ?_)
    | dsimp -iota only
    | dsimp only
    | decide
    | intro t l w ht
    | intro t l ht
    | intro t ht

theorem execRowBarSync_kept {s0 : State} (_tb : Bool) (ta : Bool) (a : Reg) (d : Reg) (s : State) (h0 : Kept s0 s) : KeptO s0 (execRowBarSync _tb ta a d s) := by
  unfold execRowBarSync
  try dsimp -iota only
  repeat' first
    | with_reducible assumption
    | with_reducible apply gate_kept
    | with_reducible apply raise_kept
    | with_reducible apply arriveBy_kept
    | with_reducible refine modRow_kept ?_ _ _ ?_
    | with_reducible apply setX_kept
    | with_reducible apply soundGate_kept
    | with_reducible apply waitFor_kept
    | with_reducible apply retire_kept
    | with_reducible apply keptO_next
    | with_reducible apply kept_ite
    | (with_reducible apply kept_foldl; intro t x ht)
    | (with_reducible apply kept_foldl_snd; intro t x ht)
    | split
    | simp only [kept_mk]
    | (with_reducible refine kept_snd (by assumption) ?_)
    | (with_reducible refine kept_snd2 (by assumption) ?_)
    | dsimp -iota only
    | dsimp only
    | decide
    | (intro w hw; (try dsimp only); (repeat' split); all_goals first | with_reducible assumption | with_reducible exact rowOk_congr hw rfl rfl rfl rfl rfl rfl | (obtain ⟨h1, h2, h3, h4, h5⟩ := hw; refine ⟨?_, ?_, ?_, ?_, ?_⟩ <;> (try dsimp only) <;> first | with_reducible assumption | with_reducible exact even_mask _ | with_reducible exact even_256 _ | with_reducible exact flags_mask _ | with_reducible exact flags_or _ h5 | with_reducible exact .inl rfl | (simp; done)))
    | intro t l w ht
    | intro t l ht
    | intro t ht

theorem modDq_kept {s0 : State} (s : State) (core : Nat) (f : Deque → Deque) (h0 : Kept s0 s) : Kept s0 (modDq s core f) := by
  unfold modDq
  try dsimp -iota only
  repeat' first
    | with_reducible assumption
    | with_reducible apply modCore_kept
    | with_reducible apply kept_ite
    | (with_reducible apply kept_foldl; intro t x ht)
    | (with_reducible apply kept_foldl_snd; intro t x ht)
    | split
    | simp only [kept_mk]
    | (with_reducible refine kept_snd (by assumption) ?_)
    | (with_reducible refine kept_snd2 (by assumption) ?_)
    | dsimp -iota only
    | dsimp only
    | decide
    | intro t l w ht
    | intro t l ht
    | intro t ht

theorem execRowDqPush_kept {s0 : State} (tb : Bool) (ta : Bool) (b : Reg) (a : Reg) (d : Reg) (s : State) (h0 : Kept s0 s) : KeptO s0 (execRowDqPush tb ta b a d s) := by
  unfold execRowDqPush
  try dsimp -iota only
  repeat' first
    | with_reducible assumption
    | with_reducible apply gate_kept
    | with_reducible apply retX_kept
    | with_reducible apply modDq_kept
    | with_reducible apply keptO_next
    | with_reducible apply kept_ite
    | (with_reducible apply kept_foldl; intro t x ht)
    | (with_reducible apply kept_foldl_snd; intro t x ht)
    | split
    | simp only [kept_mk]
    | (with_reducible refine kept_snd (by assumption) ?_)
    | (with_reducible refine kept_snd2 (by assumption) ?_)
    | dsimp -iota only
    | dsimp only
    | decide
    | intro t l w ht
    | intro t l ht
    | intro t ht

theorem givePair_kept {s0 : State} (s : State) (r : RowId) (dp : BitVec 4) (hi : Nat) (lo : Nat) (src : Nat) (core : Nat) (tag : Nat) (h0 : Kept s0 s) : Kept s0 (givePair s r dp hi lo src core tag) := by
  unfold givePair
  try dsimp -iota only
  repeat' first
    | with_reducible assumption
    | with_reducible apply retire_kept
    | with_reducible apply setX_kept
    | with_reducible apply kept_ite
    | (with_reducible apply kept_foldl; intro t x ht)
    | (with_reducible apply kept_foldl_snd; intro t x ht)
    | split
    | simp only [kept_mk]
    | (with_reducible refine kept_snd (by assumption) ?_)
    | (with_reducible refine kept_snd2 (by assumption) ?_)
    | dsimp -iota only
    | dsimp only
    | decide
    | intro t l w ht
    | intro t l ht
    | intro t ht

theorem stealStep_kept {s0 : State} (s : State) (r : RowId) (dp : BitVec 4) (j : Nat) (h0 : Kept s0 s) : Kept s0 (stealStep s r dp j) := by
  unfold stealStep
  try dsimp -iota only
  repeat' first
    | with_reducible assumption
    | with_reducible apply modDq_kept
    | with_reducible apply givePair_kept
    | with_reducible apply toStep_kept
    | with_reducible apply kept_ite
    | (with_reducible apply kept_foldl; intro t x ht)
    | (with_reducible apply kept_foldl_snd; intro t x ht)
    | split
    | simp only [kept_mk]
    | (with_reducible refine kept_snd (by assumption) ?_)
    | (with_reducible refine kept_snd2 (by assumption) ?_)
    | dsimp -iota only
    | dsimp only
    | decide
    | intro t l w ht
    | intro t l ht
    | intro t ht

theorem execRowDqPop_kept {s0 : State} (_tb : Bool) (_ta : Bool) (dp : BitVec 4) (s : State) (h0 : Kept s0 s) : KeptO s0 (execRowDqPop _tb _ta dp s) := by
  unfold execRowDqPop
  try dsimp -iota only
  repeat' first
    | with_reducible assumption
    | with_reducible apply stealStep_kept
    | with_reducible apply givePair_kept
    | with_reducible apply modDq_kept
    | with_reducible apply keptO_next
    | with_reducible apply kept_ite
    | (with_reducible apply kept_foldl; intro t x ht)
    | (with_reducible apply kept_foldl_snd; intro t x ht)
    | split
    | simp only [kept_mk]
    | (with_reducible refine kept_snd (by assumption) ?_)
    | (with_reducible refine kept_snd2 (by assumption) ?_)
    | dsimp -iota only
    | dsimp only
    | decide
    | intro t l w ht
    | intro t l ht
    | intro t ht

theorem execRowDqSplit_kept {s0 : State} (tb : Bool) (ta : Bool) (b : Reg) (a : Reg) (d : Reg) (s : State) (h0 : Kept s0 s) : KeptO s0 (execRowDqSplit tb ta b a d s) := by
  unfold execRowDqSplit
  try dsimp -iota only
  repeat' first
    | with_reducible assumption
    | with_reducible apply gate_kept
    | with_reducible apply retX_kept
    | with_reducible apply modDq_kept
    | with_reducible apply keptO_next
    | with_reducible apply kept_ite
    | (with_reducible apply kept_foldl; intro t x ht)
    | (with_reducible apply kept_foldl_snd; intro t x ht)
    | split
    | simp only [kept_mk]
    | (with_reducible refine kept_snd (by assumption) ?_)
    | (with_reducible refine kept_snd2 (by assumption) ?_)
    | dsimp -iota only
    | dsimp only
    | decide
    | intro t l w ht
    | intro t l ht
    | intro t ht

theorem execRowDqSteal_kept {s0 : State} (_tb : Bool) (_ta : Bool) (dp : BitVec 4) (s : State) (h0 : Kept s0 s) : KeptO s0 (execRowDqSteal _tb _ta dp s) := by
  unfold execRowDqSteal
  try dsimp -iota only
  repeat' first
    | with_reducible assumption
    | with_reducible apply stealStep_kept
    | with_reducible apply keptO_next
    | with_reducible apply kept_ite
    | (with_reducible apply kept_foldl; intro t x ht)
    | (with_reducible apply kept_foldl_snd; intro t x ht)
    | split
    | simp only [kept_mk]
    | (with_reducible refine kept_snd (by assumption) ?_)
    | (with_reducible refine kept_snd2 (by assumption) ?_)
    | dsimp -iota only
    | dsimp only
    | decide
    | intro t l w ht
    | intro t l ht
    | intro t ht

theorem execRowDqLen_kept {s0 : State} (_tb : Bool) (_ta : Bool) (d : Reg) (s : State) (h0 : Kept s0 s) : KeptO s0 (execRowDqLen _tb _ta d s) := by
  unfold execRowDqLen
  try dsimp -iota only
  repeat' first
    | with_reducible assumption
    | with_reducible apply retX_kept
    | with_reducible apply keptO_next
    | with_reducible apply kept_ite
    | (with_reducible apply kept_foldl; intro t x ht)
    | (with_reducible apply kept_foldl_snd; intro t x ht)
    | split
    | simp only [kept_mk]
    | (with_reducible refine kept_snd (by assumption) ?_)
    | (with_reducible refine kept_snd2 (by assumption) ?_)
    | dsimp -iota only
    | dsimp only
    | decide
    | intro t l w ht
    | intro t l ht
    | intro t ht

end Sys2Proof.Machine
end

