-- ==== Sys2Proof/Laws/KeptCopy.lean ====
section
/-! SUPPORT. The operations of Machine/Copy.lean keep canonical memory and legal control blocks (Kept.lean). -/

namespace Sys2Proof.Machine

set_option linter.all false

theorem markEmpty_kept {s0 : State} (s : State) (r : RowId) (p : Part) (n : Nat) (h0 : Kept s0 s) : Kept s0 (markEmpty s r p n).2 := by
  unfold markEmpty
  try dsimp -iota only
  repeat' first
    | with_reducible assumption
    | with_reducible apply logAdd_kept
    | with_reducible apply store_kept
    | with_reducible refine modRow_kept ?_ _ _ ?_
    | with_reducible apply setEmpties_kept
    | with_reducible apply kept_ite
    | (with_reducible apply kept_foldl; intro t x ht)
    | (with_reducible apply kept_foldl_snd; intro t x ht)
    | split
    | simp only [kept_mk]
    | (with_reducible refine kept_snd (by assumption) ?_)
    | (with_reducible refine kept_snd2 (by assumption) ?_)
    | dsimp -iota only
    | dsimp only
    | decide
    | (intro w hw; (try dsimp only); (repeat' split); all_goals first | with_reducible assumption | with_reducible exact rowOk_congr hw rfl rfl rfl rfl rfl rfl | (obtain ⟨h1, h2, h3, h4, h5⟩ := hw; refine ⟨?_, ?_, ?_, ?_, ?_⟩ <;> (try dsimp only) <;> first | with_reducible assumption | with_reducible exact even_mask _ | with_reducible exact even_256 _ | with_reducible exact flags_mask _ | with_reducible exact flags_or _ h5 | with_reducible exact .inl rfl | (simp; done)))
    | intro t l w ht
    | intro t l ht
    | intro t ht

theorem execEngineCpLin_kept {s0 : State} (tb : Bool) (ta : Bool) (b : Reg) (a : Reg) (d : Reg) (s : State) (h0 : Kept s0 s) : KeptO s0 (execEngineCpLin tb ta b a d s) := by
  unfold execEngineCpLin
  try dsimp -iota only
  repeat' first
    | with_reducible assumption
    | with_reducible apply holdGate_kept
    | with_reducible apply gate_kept
    | with_reducible apply ill_kept
    | with_reducible apply retire_kept
    | with_reducible apply raise_kept
    | with_reducible apply toStep_kept
    | with_reducible apply markEmpty_kept
    | with_reducible apply fresh_kept
    | with_reducible apply modCl_kept
    | with_reducible apply keptO_next
    | with_reducible apply kept_ite
    | (with_reducible apply kept_foldl; intro t x ht)
    | (with_reducible apply kept_foldl_snd; intro t x ht)
    | split
    | simp only [kept_mk]
    | (with_reducible refine kept_snd (by assumption) ?_)
    | (with_reducible refine kept_snd2 (by assumption) ?_)
    | dsimp -iota only
    | dsimp only
    | decide
    | intro t l w ht
    | intro t l ht
    | intro t ht

theorem execEngineCpDist_kept {s0 : State} (ex : BitVec 3) (tb : Bool) (ta : Bool) (b : Reg) (a : Reg) (d : Reg) (s : State) (h0 : Kept s0 s) : KeptO s0 (execEngineCpDist ex tb ta b a d s) := by
  unfold execEngineCpDist
  try dsimp -iota only
  repeat' first
    | with_reducible assumption
    | with_reducible apply holdGate_kept
    | with_reducible apply gate_kept
    | with_reducible apply ill_kept
    | with_reducible apply raise_kept
    | with_reducible apply retire_kept
    | with_reducible apply toStep_kept
    | with_reducible apply markEmpty_kept
    | with_reducible apply fresh_kept
    | with_reducible apply modDie_kept
    | with_reducible apply keptO_next
    | with_reducible apply kept_ite
    | (with_reducible apply kept_foldl; intro t x ht)
    | (with_reducible apply kept_foldl_snd; intro t x ht)
    | split
    | simp only [kept_mk]
    | (with_reducible refine kept_snd (by assumption) ?_)
    | (with_reducible refine kept_snd2 (by assumption) ?_)
    | dsimp -iota only
    | dsimp only
    | decide
    | intro t l w ht
    | intro t l ht
    | intro t ht

theorem execEngineCpStat_kept {s0 : State} (_tb : Bool) (_ta : Bool) (d : Reg) (s : State) (h0 : Kept s0 s) : KeptO s0 (execEngineCpStat _tb _ta d s) := by
  unfold execEngineCpStat
  try dsimp -iota only
  repeat' first
    | with_reducible assumption
    | with_reducible apply holdGate_kept
    | with_reducible apply retX_kept
    | with_reducible apply keptO_next
    | with_reducible apply kept_ite
    | (with_reducible apply kept_foldl; intro t x ht)
    | (with_reducible apply kept_foldl_snd; intro t x ht)
    | split
    | simp only [kept_mk]
    | (with_reducible refine kept_snd (by assumption) ?_)
    | (with_reducible refine kept_snd2 (by assumption) ?_)
    | dsimp -iota only
    | dsimp only
    | decide
    | intro t l w ht
    | intro t l ht
    | intro t ht

theorem engineWrite_kept {s0 : State} (s : State) (r : RowId) (k : Nat) (id : Nat) (priv : Bool) (skip : List Nat) (p : Part) (bs : List Byte) (h0 : Kept s0 s) : Kept s0 (engineWrite s r k id priv skip p bs).2 := by
  unfold engineWrite
  try dsimp -iota only
  repeat' first
    | with_reducible assumption
    | with_reducible apply logAdd_kept
    | with_reducible apply fillWords_kept
    | with_reducible apply ctlWrites_kept
    | with_reducible apply memWrite_kept
    | with_reducible apply tagWrite_kept
    | with_reducible apply homeWrite_kept
    | with_reducible apply landFlights_kept
    | with_reducible apply sigInsert_kept
    | with_reducible apply guestUpdate_kept
    | with_reducible apply kept_ite
    | (with_reducible apply kept_foldl; intro t x ht)
    | (with_reducible apply kept_foldl_snd; intro t x ht)
    | split
    | simp only [kept_mk]
    | (with_reducible refine kept_snd (by assumption) ?_)
    | (with_reducible refine kept_snd2 (by assumption) ?_)
    | dsimp -iota only
    | dsimp only
    | decide
    | intro t l w ht
    | intro t l ht
    | intro t ht

theorem engineRead_kept {s0 : State} (s : State) (r : RowId) (priv : Bool) (p : Part) (h0 : Kept s0 s) : Kept s0 (engineRead s r priv p).2 := by
  unfold engineRead
  try dsimp -iota only
  repeat' first
    | with_reducible assumption
    | with_reducible apply readPart_kept
    | with_reducible apply kept_ite
    | (with_reducible apply kept_foldl; intro t x ht)
    | (with_reducible apply kept_foldl_snd; intro t x ht)
    | split
    | simp only [kept_mk]
    | (with_reducible refine kept_snd (by assumption) ?_)
    | (with_reducible refine kept_snd2 (by assumption) ?_)
    | dsimp -iota only
    | dsimp only
    | decide
    | intro t l w ht
    | intro t l ht
    | intro t ht

theorem logRead_kept {s0 : State} (s : State) (core : Nat) (x : Nat) (id : Nat) (off : Nat) (h0 : Kept s0 s) : Kept s0 (logRead s core x id off) := by
  unfold logRead
  try dsimp -iota only
  repeat' first
    | with_reducible assumption
    | with_reducible apply logAdd_kept
    | with_reducible apply kept_ite
    | (with_reducible apply kept_foldl; intro t x ht)
    | (with_reducible apply kept_foldl_snd; intro t x ht)
    | split
    | simp only [kept_mk]
    | (with_reducible refine kept_snd (by assumption) ?_)
    | (with_reducible refine kept_snd2 (by assumption) ?_)
    | dsimp -iota only
    | dsimp only
    | decide
    | intro t l w ht
    | intro t l ht
    | intro t ht

theorem lostPiece_kept {s0 : State} (s : State) (r : RowId) (k : Nat) (p : Part) (acc : Nat) (drop : State → State) (h0 : Kept s0 s) (hdrop : ∀ t, Kept s0 t → Kept s0 (drop t)) : Kept s0 (lostPiece s r k p acc drop) := by
  unfold lostPiece
  try dsimp -iota only
  repeat' first
    | with_reducible assumption
    | with_reducible apply hdrop
    | with_reducible apply endAccess_kept
    | with_reducible apply kept_ite
    | (with_reducible apply kept_foldl; intro t x ht)
    | (with_reducible apply kept_foldl_snd; intro t x ht)
    | split
    | simp only [kept_mk]
    | (with_reducible refine kept_snd (by assumption) ?_)
    | (with_reducible refine kept_snd2 (by assumption) ?_)
    | dsimp -iota only
    | dsimp only
    | decide
    | intro t l w ht
    | intro t l ht
    | intro t ht

theorem copyAgain_kept {s0 : State} (s : State) (cl : Nat) (i : Nat) (x : CopyPiece) (h0 : Kept s0 s) : Kept s0 (copyAgain s cl i x) := by
  unfold copyAgain
  try dsimp -iota only
  repeat' first
    | with_reducible assumption
    | with_reducible apply rewalkFails_kept
    | with_reducible apply modCl_kept
    | with_reducible apply kept_ite
    | (with_reducible apply kept_foldl; intro t x ht)
    | (with_reducible apply kept_foldl_snd; intro t x ht)
    | split
    | simp only [kept_mk]
    | (with_reducible refine kept_snd (by assumption) ?_)
    | (with_reducible refine kept_snd2 (by assumption) ?_)
    | dsimp -iota only
    | dsimp only
    | decide
    | intro t l w ht
    | intro t l ht
    | intro t ht

theorem distAgain_kept {s0 : State} (s : State) (die : Nat) (i : Nat) (x : DistPiece) (h0 : Kept s0 s) : Kept s0 (distAgain s die i x) := by
  unfold distAgain
  try dsimp -iota only
  repeat' first
    | with_reducible assumption
    | with_reducible apply rewalkFails_kept
    | with_reducible apply modDie_kept
    | with_reducible apply kept_ite
    | (with_reducible apply kept_foldl; intro t x ht)
    | (with_reducible apply kept_foldl_snd; intro t x ht)
    | split
    | simp only [kept_mk]
    | (with_reducible refine kept_snd (by assumption) ?_)
    | (with_reducible refine kept_snd2 (by assumption) ?_)
    | dsimp -iota only
    | dsimp only
    | decide
    | intro t l w ht
    | intro t l ht
    | intro t ht

theorem copyRead_kept {s0 : State} (s : State) (cl : Nat) (i : Nat) (x : CopyPiece) (o : Nat) (n : Nat) (now : Bool) (h0 : Kept s0 s) : Kept s0 (copyRead s cl i x o n now) := by
  unfold copyRead
  try dsimp -iota only
  repeat' first
    | with_reducible assumption
    | with_reducible apply copyAgain_kept
    | with_reducible apply lostPiece_kept
    | with_reducible apply modCl_kept
    | with_reducible apply logRead_kept
    | with_reducible apply engineRead_kept
    | with_reducible apply bump_kept
    | with_reducible apply asyncFault_kept
    | with_reducible apply kept_ite
    | (with_reducible apply kept_foldl; intro t x ht)
    | (with_reducible apply kept_foldl_snd; intro t x ht)
    | split
    | simp only [kept_mk]
    | (with_reducible refine kept_snd (by assumption) ?_)
    | (with_reducible refine kept_snd2 (by assumption) ?_)
    | dsimp -iota only
    | dsimp only
    | decide
    | intro t l w ht
    | intro t l ht
    | intro t ht

theorem copyWrite_kept {s0 : State} (s : State) (cl : Nat) (i : Nat) (x : CopyPiece) (off : Nat) (len : Nat) (h0 : Kept s0 s) : Kept s0 (copyWrite s cl i x off len) := by
  unfold copyWrite
  try dsimp -iota only
  repeat' first
    | with_reducible assumption
    | with_reducible apply modCl_kept
    | with_reducible apply copyAgain_kept
    | with_reducible apply lostPiece_kept
    | with_reducible apply engineWrite_kept
    | with_reducible apply bump_kept
    | with_reducible apply kept_ite
    | (with_reducible apply kept_foldl; intro t x ht)
    | (with_reducible apply kept_foldl_snd; intro t x ht)
    | split
    | simp only [kept_mk]
    | (with_reducible refine kept_snd (by assumption) ?_)
    | (with_reducible refine kept_snd2 (by assumption) ?_)
    | dsimp -iota only
    | dsimp only
    | decide
    | intro t l w ht
    | intro t l ht
    | intro t ht

theorem copyStep_kept {s0 : State} (s : State) (cl : Nat) (i : Nat) (k : Nat) (h0 : Kept s0 s) : Kept s0 (copyStep s cl i k) := by
  unfold copyStep
  try dsimp -iota only
  repeat' first
    | with_reducible assumption
    | with_reducible apply copyRead_kept
    | with_reducible apply copyWrite_kept
    | with_reducible apply kept_ite
    | (with_reducible apply kept_foldl; intro t x ht)
    | (with_reducible apply kept_foldl_snd; intro t x ht)
    | split
    | simp only [kept_mk]
    | (with_reducible refine kept_snd (by assumption) ?_)
    | (with_reducible refine kept_snd2 (by assumption) ?_)
    | dsimp -iota only
    | dsimp only
    | decide
    | intro t l w ht
    | intro t l ht
    | intro t ht

theorem distStep_kept {s0 : State} (s : State) (die : Nat) (i : Nat) (k : Nat) (now : Bool) (h0 : Kept s0 s) : Kept s0 (distStep s die i k now) := by
  unfold distStep
  try dsimp -iota only
  repeat' first
    | with_reducible assumption
    | with_reducible apply modDie_kept
    | with_reducible apply bump_kept
    | with_reducible apply distAgain_kept
    | with_reducible apply lostPiece_kept
    | with_reducible apply logRead_kept
    | with_reducible apply engineRead_kept
    | with_reducible apply sigInsert_kept
    | with_reducible apply noteStore_kept
    | with_reducible apply gddrWrite_kept
    | with_reducible apply dirForce_kept
    | with_reducible apply asyncFault_kept
    | with_reducible apply engineWrite_kept
    | with_reducible apply kept_ite
    | (with_reducible apply kept_foldl; intro t x ht)
    | (with_reducible apply kept_foldl_snd; intro t x ht)
    | split
    | simp only [kept_mk]
    | (with_reducible refine kept_snd (by assumption) ?_)
    | (with_reducible refine kept_snd2 (by assumption) ?_)
    | dsimp -iota only
    | dsimp only
    | decide
    | intro t l w ht
    | intro t l ht
    | intro t ht

end Sys2Proof.Machine
end

