-- ==== Sys2Proof/Laws/KeptMatrix.lean ====
section
/-! SUPPORT. The operations of Machine/Matrix.lean keep canonical memory and legal control blocks (Kept.lean). -/

namespace Sys2Proof.Machine

set_option linter.all false

theorem engParts_kept {s0 : State} (s : State) (who : Asker) (acc : Nat) (va : Word) (arg4 : List Part) (h0 : Kept s0 s) : Kept s0 (engParts s who acc va arg4).2 := by
  induction arg4 generalizing s with
  | nil => first | assumption | (unfold engParts; assumption) | exact fun _ h => h
  | cons x xs ih =>
    unfold engParts
    try dsimp -iota only
    repeat' first
      | with_reducible assumption
      | with_reducible apply ih
      | with_reducible apply askRead_kept
      | with_reducible apply bump_kept
      | with_reducible apply fault_kept
      | with_reducible apply kept_ite
      | (with_reducible apply kept_foldl; intro t x ht)
      | (with_reducible apply kept_foldl_snd; intro t x ht)
      | split
      | simp only [kept_mk]
      | (with_reducible refine kept_snd (by assumption) ?_)
      | (with_reducible refine kept_snd2 (by assumption) ?_)
      | dsimp -iota only
      | dsimp only
      | decide
      | intro t l w ht
      | intro t l ht
      | intro t ht

theorem modMx_kept {s0 : State} (s : State) (core : Nat) (f : MxSeq → MxSeq) (h0 : Kept s0 s) : Kept s0 (modMx s core f) := by
  unfold modMx
  try dsimp -iota only
  repeat' first
    | with_reducible assumption
    | with_reducible apply modCore_kept
    | with_reducible apply kept_ite
    | (with_reducible apply kept_foldl; intro t x ht)
    | (with_reducible apply kept_foldl_snd; intro t x ht)
    | split
    | simp only [kept_mk]
    | (with_reducible refine kept_snd (by assumption) ?_)
    | (with_reducible refine kept_snd2 (by assumption) ?_)
    | dsimp -iota only
    | dsimp only
    | decide
    | intro t l w ht
    | intro t l ht
    | intro t ht

theorem engRead_kept {s0 : State} (s : State) (core : Nat) (base : Word) (va : Word) (n : Nat) (h0 : Kept s0 s) : Kept s0 (engRead s core base va n).2 := by
  unfold engRead
  try dsimp -iota only
  repeat' first
    | with_reducible assumption
    | with_reducible apply walkWaits_kept
    | with_reducible apply fault_kept
    | with_reducible apply engParts_kept
    | with_reducible apply dropAnswers_kept
    | with_reducible apply kept_ite
    | (with_reducible apply kept_foldl; intro t x ht)
    | (with_reducible apply kept_foldl_snd; intro t x ht)
    | split
    | simp only [kept_mk]
    | (with_reducible refine kept_snd (by assumption) ?_)
    | (with_reducible refine kept_snd2 (by assumption) ?_)
    | dsimp -iota only
    | dsimp only
    | decide
    | intro t l w ht
    | intro t l ht
    | intro t ht

theorem holdMx_kept {s0 : State} (s : State) (core : Nat) (f : EngFault) (h0 : Kept s0 s) : Kept s0 (holdMx s core f) := by
  unfold holdMx
  try dsimp -iota only
  repeat' first
    | with_reducible assumption
    | with_reducible apply modMx_kept
    | with_reducible apply statusFill_kept
    | with_reducible apply kept_ite
    | (with_reducible apply kept_foldl; intro t x ht)
    | (with_reducible apply kept_foldl_snd; intro t x ht)
    | split
    | simp only [kept_mk]
    | (with_reducible refine kept_snd (by assumption) ?_)
    | (with_reducible refine kept_snd2 (by assumption) ?_)
    | dsimp -iota only
    | dsimp only
    | decide
    | intro t l w ht
    | intro t l ht
    | intro t ht

theorem advance_kept {s0 : State} (s : State) (core : Nat) (h0 : Kept s0 s) : Kept s0 (advance s core) := by
  unfold advance
  try dsimp -iota only
  repeat' first
    | with_reducible assumption
    | with_reducible apply modMx_kept
    | with_reducible apply kept_ite
    | (with_reducible apply kept_foldl; intro t x ht)
    | (with_reducible apply kept_foldl_snd; intro t x ht)
    | split
    | simp only [kept_mk]
    | (with_reducible refine kept_snd (by assumption) ?_)
    | (with_reducible refine kept_snd2 (by assumption) ?_)
    | dsimp -iota only
    | dsimp only
    | decide
    | intro t l w ht
    | intro t l ht
    | intro t ht

theorem stickMx_kept {s0 : State} (s : State) (core : Nat) (h0 : Kept s0 s) : Kept s0 (stickMx s core) := by
  unfold stickMx
  try dsimp -iota only
  repeat' first
    | with_reducible assumption
    | with_reducible apply modMx_kept
    | with_reducible apply kept_ite
    | (with_reducible apply kept_foldl; intro t x ht)
    | (with_reducible apply kept_foldl_snd; intro t x ht)
    | split
    | simp only [kept_mk]
    | (with_reducible refine kept_snd (by assumption) ?_)
    | (with_reducible refine kept_snd2 (by assumption) ?_)
    | dsimp -iota only
    | dsimp only
    | decide
    | intro t l w ht
    | intro t l ht
    | intro t ht

theorem readHdr_kept {s0 : State} (s : State) (core : Nat) (h0 : Kept s0 s) : Kept s0 (readHdr s core).2 := by
  unfold readHdr
  try dsimp -iota only
  repeat' first
    | with_reducible assumption
    | with_reducible apply engRead_kept
    | with_reducible apply fault_kept
    | with_reducible apply kept_ite
    | (with_reducible apply kept_foldl; intro t x ht)
    | (with_reducible apply kept_foldl_snd; intro t x ht)
    | split
    | simp only [kept_mk]
    | (with_reducible refine kept_snd (by assumption) ?_)
    | (with_reducible refine kept_snd2 (by assumption) ?_)
    | dsimp -iota only
    | dsimp only
    | decide
    | intro t l w ht
    | intro t l ht
    | intro t ht

theorem readStep_kept {s0 : State} (s : State) (core : Nat) (nstep : Nat) (i : Nat) (h0 : Kept s0 s) : Kept s0 (readStep s core nstep i).2 := by
  unfold readStep
  try dsimp -iota only
  repeat' first
    | with_reducible assumption
    | with_reducible apply engRead_kept
    | with_reducible apply fault_kept
    | with_reducible apply kept_ite
    | (with_reducible apply kept_foldl; intro t x ht)
    | (with_reducible apply kept_foldl_snd; intro t x ht)
    | split
    | simp only [kept_mk]
    | (with_reducible refine kept_snd (by assumption) ?_)
    | (with_reducible refine kept_snd2 (by assumption) ?_)
    | dsimp -iota only
    | dsimp only
    | decide
    | intro t l w ht
    | intro t l ht
    | intro t ht

theorem reachStep_kept {s0 : State} (s : State) (core : Nat) (h0 : Kept s0 s) : Kept s0 (reachStep s core).2 := by
  unfold reachStep
  try dsimp -iota only
  repeat' first
    | with_reducible assumption
    | with_reducible apply readStep_kept
    | with_reducible apply modMx_kept
    | with_reducible apply kept_ite
    | (with_reducible apply kept_foldl; intro t x ht)
    | (with_reducible apply kept_foldl_snd; intro t x ht)
    | split
    | simp only [kept_mk]
    | (with_reducible refine kept_snd (by assumption) ?_)
    | (with_reducible refine kept_snd2 (by assumption) ?_)
    | dsimp -iota only
    | dsimp only
    | decide
    | intro t l w ht
    | intro t l ht
    | intro t ht

theorem atStep_kept {s0 : State} (s : State) (core : Nat) (kind : Nat) (act : State → Word → Word → State) (h0 : Kept s0 s) (hact : ∀ t a1 a2, Kept s0 t → Kept s0 (act t a1 a2)) : Kept s0 (atStep s core kind act) := by
  unfold atStep
  try dsimp -iota only
  repeat' first
    | with_reducible assumption
    | with_reducible apply hact
    | with_reducible apply reachStep_kept
    | with_reducible apply endGang_kept
    | with_reducible apply stickMx_kept
    | with_reducible apply fault_kept
    | with_reducible apply holdMx_kept
    | with_reducible apply kept_ite
    | (with_reducible apply kept_foldl; intro t x ht)
    | (with_reducible apply kept_foldl_snd; intro t x ht)
    | split
    | simp only [kept_mk]
    | (with_reducible refine kept_snd (by assumption) ?_)
    | (with_reducible refine kept_snd2 (by assumption) ?_)
    | dsimp -iota only
    | dsimp only
    | decide
    | intro t l w ht
    | intro t l ht
    | intro t ht

theorem execEngineMxGang_kept {s0 : State} (_tb : Bool) (ta : Bool) (a : Reg) (d : Reg) (s : State) (h0 : Kept s0 s) : KeptO s0 (execEngineMxGang _tb ta a d s) := by
  unfold execEngineMxGang
  try dsimp -iota only
  repeat' first
    | with_reducible assumption
    | with_reducible refine modRow_kept ?_ _ _ ?_
    | with_reducible apply setEmpty_kept
    | with_reducible apply modMx_kept
    | with_reducible apply block_kept
    | with_reducible apply soundGate_kept
    | with_reducible apply raise_kept
    | with_reducible apply retX_kept
    | with_reducible apply retire_kept
    | with_reducible apply holdGate_kept
    | with_reducible apply gate_kept
    | with_reducible apply fresh_kept
    | with_reducible apply stopEmber_kept
    | with_reducible apply keptO_next
    | with_reducible apply kept_ite
    | (with_reducible apply kept_foldl; intro t x ht)
    | (with_reducible apply kept_foldl_snd; intro t x ht)
    | split
    | simp only [kept_mk]
    | (with_reducible refine kept_snd (by assumption) ?_)
    | (with_reducible refine kept_snd2 (by assumption) ?_)
    | dsimp -iota only
    | dsimp only
    | decide
    | (intro w hw; (try dsimp only); (repeat' split); all_goals first | with_reducible assumption | with_reducible exact rowOk_congr hw rfl rfl rfl rfl rfl rfl | (obtain ⟨h1, h2, h3, h4, h5⟩ := hw; refine ⟨?_, ?_, ?_, ?_, ?_⟩ <;> (try dsimp only) <;> first | with_reducible assumption | with_reducible exact even_mask _ | with_reducible exact even_256 _ | with_reducible exact flags_mask _ | with_reducible exact flags_or _ h5 | with_reducible exact .inl rfl | (simp; done)))
    | intro t l w ht
    | intro t l ht
    | intro t ht

theorem execEngineMxStat_kept {s0 : State} (_tb : Bool) (_ta : Bool) (d : Reg) (s : State) (h0 : Kept s0 s) : KeptO s0 (execEngineMxStat _tb _ta d s) := by
  unfold execEngineMxStat
  try dsimp -iota only
  repeat' first
    | with_reducible assumption
    | with_reducible apply holdGate_kept
    | with_reducible apply retX_kept
    | with_reducible apply keptO_next
    | with_reducible apply kept_ite
    | (with_reducible apply kept_foldl; intro t x ht)
    | (with_reducible apply kept_foldl_snd; intro t x ht)
    | split
    | simp only [kept_mk]
    | (with_reducible refine kept_snd (by assumption) ?_)
    | (with_reducible refine kept_snd2 (by assumption) ?_)
    | dsimp -iota only
    | dsimp only
    | decide
    | intro t l w ht
    | intro t l ht
    | intro t ht

theorem execEngineMxAbort_kept {s0 : State} (_tb : Bool) (_ta : Bool) (d : Reg) (s : State) (h0 : Kept s0 s) : KeptO s0 (execEngineMxAbort _tb _ta d s) := by
  unfold execEngineMxAbort
  try dsimp -iota only
  repeat' first
    | with_reducible assumption
    | with_reducible apply holdGate_kept
    | with_reducible apply retX_kept
    | with_reducible apply endGang_kept
    | with_reducible apply keptO_next
    | with_reducible apply kept_ite
    | (with_reducible apply kept_foldl; intro t x ht)
    | (with_reducible apply kept_foldl_snd; intro t x ht)
    | split
    | simp only [kept_mk]
    | (with_reducible refine kept_snd (by assumption) ?_)
    | (with_reducible refine kept_snd2 (by assumption) ?_)
    | dsimp -iota only
    | dsimp only
    | decide
    | intro t l w ht
    | intro t l ht
    | intro t ht

theorem execGangBarrier_kept {s0 : State} (cl : Nat) (s : State) (h0 : Kept s0 s) : KeptO s0 (execGangBarrier cl s) := by
  unfold execGangBarrier
  try dsimp -iota only
  repeat' first
    | with_reducible assumption
    | with_reducible apply modMx_kept
    | with_reducible apply endGang_kept
    | with_reducible apply keptO_next
    | with_reducible apply kept_ite
    | (with_reducible apply kept_foldl; intro t x ht)
    | (with_reducible apply kept_foldl_snd; intro t x ht)
    | split
    | simp only [kept_mk]
    | (with_reducible refine kept_snd (by assumption) ?_)
    | (with_reducible refine kept_snd2 (by assumption) ?_)
    | dsimp -iota only
    | dsimp only
    | decide
    | intro t l w ht
    | intro t l ht
    | intro t ht

theorem orBadBlk_kept {s0 : State} (s : State) (core : Nat) (b : Bool) (h0 : Kept s0 s) : Kept s0 (orBadBlk s core b) := by
  unfold orBadBlk
  try dsimp -iota only
  repeat' first
    | with_reducible assumption
    | with_reducible apply modCore_kept
    | with_reducible apply kept_ite
    | (with_reducible apply kept_foldl; intro t x ht)
    | (with_reducible apply kept_foldl_snd; intro t x ht)
    | split
    | simp only [kept_mk]
    | (with_reducible refine kept_snd (by assumption) ?_)
    | (with_reducible refine kept_snd2 (by assumption) ?_)
    | dsimp -iota only
    | dsimp only
    | decide
    | intro t l w ht
    | intro t l ht
    | intro t ht

theorem tileRow_kept {s0 : State} (s : State) (core : Nat) (fmt : Nat) (bs : List Byte) (h0 : Kept s0 s) : Kept s0 (tileRow s core fmt bs) := by
  unfold tileRow
  try dsimp -iota only
  repeat' first
    | with_reducible assumption
    | with_reducible apply modMx_kept
    | with_reducible apply kept_ite
    | (with_reducible apply kept_foldl; intro t x ht)
    | (with_reducible apply kept_foldl_snd; intro t x ht)
    | split
    | simp only [kept_mk]
    | (with_reducible refine kept_snd (by assumption) ?_)
    | (with_reducible refine kept_snd2 (by assumption) ?_)
    | dsimp -iota only
    | dsimp only
    | decide
    | intro t l w ht
    | intro t l ht
    | intro t ht

theorem tileRead_kept {s0 : State} (s : State) (core : Nat) (fmt : Nat) (w0 : Word) (w1 : Word) (p : Part) (done : State → Latch → State) (h0 : Kept s0 s) (hdone : ∀ t a1, Kept s0 t → Kept s0 (done t a1)) : Kept s0 (tileRead s core fmt w0 w1 p done) := by
  unfold tileRead
  try dsimp -iota only
  repeat' first
    | with_reducible assumption
    | with_reducible apply hdone
    | with_reducible apply engParts_kept
    | with_reducible apply fault_kept
    | with_reducible apply holdMx_kept
    | with_reducible apply stickMx_kept
    | with_reducible apply modMx_kept
    | with_reducible apply dropAnswers_kept
    | with_reducible apply tileRow_kept
    | with_reducible apply orBadBlk_kept
    | with_reducible apply kept_ite
    | (with_reducible apply kept_foldl; intro t x ht)
    | (with_reducible apply kept_foldl_snd; intro t x ht)
    | split
    | simp only [kept_mk]
    | (with_reducible refine kept_snd (by assumption) ?_)
    | (with_reducible refine kept_snd2 (by assumption) ?_)
    | dsimp -iota only
    | dsimp only
    | decide
    | intro t l w ht
    | intro t l ht
    | intro t ht

theorem tileStep_kept {s0 : State} (s : State) (core : Nat) (w0 : Word) (w1 : Word) (done : State → Latch → State) (h0 : Kept s0 s) (hdone : ∀ t a1, Kept s0 t → Kept s0 (done t a1)) : Kept s0 (tileStep s core w0 w1 done) := by
  unfold tileStep
  try dsimp -iota only
  repeat' first
    | with_reducible assumption
    | with_reducible apply hdone
    | with_reducible apply tileRead_kept
    | with_reducible apply stickMx_kept
    | with_reducible apply walkWaits_kept
    | with_reducible apply holdMx_kept
    | with_reducible apply endGang_kept
    | with_reducible apply fresh_kept
    | with_reducible apply modMx_kept
    | with_reducible apply kept_ite
    | (with_reducible apply kept_foldl; intro t x ht)
    | (with_reducible apply kept_foldl_snd; intro t x ht)
    | split
    | simp only [kept_mk]
    | (with_reducible refine kept_snd (by assumption) ?_)
    | (with_reducible refine kept_snd2 (by assumption) ?_)
    | dsimp -iota only
    | dsimp only
    | decide
    | intro t l w ht
    | intro t l ht
    | intro t ht

theorem scanLoad_kept {s0 : State} (s : State) (core : Nat) (nstep : Nat) (fuel : Nat) (i : Nat) (skip : Bool) (h0 : Kept s0 s) : Kept s0 (scanLoad s core nstep fuel i skip).2 := by
  induction fuel generalizing s i skip with
  | zero => first | assumption | (unfold scanLoad; assumption) | exact fun _ h => h
  | succ n ih =>
    unfold scanLoad
    try dsimp -iota only
    repeat' first
      | with_reducible assumption
      | with_reducible apply ih
      | with_reducible apply readStep_kept
      | with_reducible apply fault_kept
      | with_reducible apply kept_ite
      | (with_reducible apply kept_foldl; intro t x ht)
      | (with_reducible apply kept_foldl_snd; intro t x ht)
      | split
      | simp only [kept_mk]
      | (with_reducible refine kept_snd (by assumption) ?_)
      | (with_reducible refine kept_snd2 (by assumption) ?_)
      | dsimp -iota only
      | dsimp only
      | decide
      | intro t l w ht
      | intro t l ht
      | intro t ht

theorem askPermit_kept {s0 : State} (s : State) (cl : Nat) (est : Nat) (h0 : Kept s0 s) : Kept s0 (askPermit s cl est) := by
  unfold askPermit
  try dsimp -iota only
  repeat' first
    | with_reducible assumption
    | with_reducible apply modMx_kept
    | with_reducible apply fresh_kept
    | with_reducible apply modCl_kept
    | with_reducible apply kept_ite
    | (with_reducible apply kept_foldl; intro t x ht)
    | (with_reducible apply kept_foldl_snd; intro t x ht)
    | split
    | simp only [kept_mk]
    | (with_reducible refine kept_snd (by assumption) ?_)
    | (with_reducible refine kept_snd2 (by assumption) ?_)
    | dsimp -iota only
    | dsimp only
    | decide
    | intro t l w ht
    | intro t l ht
    | intro t ht

theorem prefetchScan_kept {s0 : State} (s : State) (cl : Nat) (h0 : Kept s0 s) : Kept s0 (prefetchScan s cl) := by
  unfold prefetchScan
  try dsimp -iota only
  repeat' first
    | with_reducible assumption
    | with_reducible apply readHdr_kept
    | with_reducible apply fault_kept
    | with_reducible apply holdMx_kept
    | with_reducible apply scanLoad_kept
    | with_reducible apply modMx_kept
    | with_reducible apply askPermit_kept
    | with_reducible apply kept_ite
    | (with_reducible apply kept_foldl; intro t x ht)
    | (with_reducible apply kept_foldl_snd; intro t x ht)
    | split
    | simp only [kept_mk]
    | (with_reducible refine kept_snd (by assumption) ?_)
    | (with_reducible refine kept_snd2 (by assumption) ?_)
    | dsimp -iota only
    | dsimp only
    | decide
    | intro t l w ht
    | intro t l ht
    | intro t ht

theorem execPrefetch_kept {s0 : State} (cl : Nat) (s : State) (h0 : Kept s0 s) : KeptO s0 (execPrefetch cl s) := by
  unfold execPrefetch
  try dsimp -iota only
  repeat' first
    | with_reducible assumption
    | with_reducible apply tileStep_kept
    | with_reducible apply askPermit_kept
    | with_reducible apply modMx_kept
    | with_reducible apply prefetchScan_kept
    | with_reducible apply keptO_next
    | with_reducible apply kept_ite
    | (with_reducible apply kept_foldl; intro t x ht)
    | (with_reducible apply kept_foldl_snd; intro t x ht)
    | split
    | simp only [kept_mk]
    | (with_reducible refine kept_snd (by assumption) ?_)
    | (with_reducible refine kept_snd2 (by assumption) ?_)
    | dsimp -iota only
    | dsimp only
    | decide
    | intro t l w ht
    | intro t l ht
    | intro t ht

theorem execPermitGrant_kept {s0 : State} (cl : Nat) (s : State) (h0 : Kept s0 s) : KeptO s0 (execPermitGrant cl s) := by
  unfold execPermitGrant
  try dsimp -iota only
  repeat' first
    | with_reducible assumption
    | with_reducible apply grantPermit_kept
    | with_reducible apply modCore_kept
    | with_reducible apply modCl_kept
    | with_reducible apply modMx_kept
    | with_reducible apply keptO_next
    | with_reducible apply kept_ite
    | (with_reducible apply kept_foldl; intro t x ht)
    | (with_reducible apply kept_foldl_snd; intro t x ht)
    | split
    | simp only [kept_mk]
    | (with_reducible refine kept_snd (by assumption) ?_)
    | (with_reducible refine kept_snd2 (by assumption) ?_)
    | dsimp -iota only
    | dsimp only
    | decide
    | intro t l w ht
    | intro t l ht
    | intro t ht

theorem execLoadB_kept {s0 : State} (core : Nat) (s : State) (h0 : Kept s0 s) : KeptO s0 (execLoadB core s) := by
  unfold execLoadB
  try dsimp -iota only
  repeat' first
    | with_reducible assumption
    | with_reducible apply atStep_kept
    | with_reducible apply advance_kept
    | with_reducible apply modCore_kept
    | with_reducible apply tileStep_kept
    | with_reducible apply keptO_next
    | with_reducible apply kept_ite
    | (with_reducible apply kept_foldl; intro t x ht)
    | (with_reducible apply kept_foldl_snd; intro t x ht)
    | split
    | simp only [kept_mk]
    | (with_reducible refine kept_snd (by assumption) ?_)
    | (with_reducible refine kept_snd2 (by assumption) ?_)
    | dsimp -iota only
    | dsimp only
    | decide
    | intro t l w ht
    | intro t l ht
    | intro t ht

theorem aPart_kept {s0 : State} (s : State) (core : Nat) (rsa : Nat) (need : Nat) (h0 : Kept s0 s) : Kept s0 (aPart s core rsa need) := by
  unfold aPart
  try dsimp -iota only
  repeat' first
    | with_reducible assumption
    | with_reducible apply stickMx_kept
    | with_reducible apply endGang_kept
    | with_reducible apply modMx_kept
    | with_reducible apply kept_ite
    | (with_reducible apply kept_foldl; intro t x ht)
    | (with_reducible apply kept_foldl_snd; intro t x ht)
    | split
    | simp only [kept_mk]
    | (with_reducible refine kept_snd (by assumption) ?_)
    | (with_reducible refine kept_snd2 (by assumption) ?_)
    | dsimp -iota only
    | dsimp only
    | decide
    | intro t l w ht
    | intro t l ht
    | intro t ht

theorem execMac_kept {s0 : State} (core : Nat) (s : State) (h0 : Kept s0 s) : KeptO s0 (execMac core s) := by
  unfold execMac
  try dsimp -iota only
  repeat' first
    | with_reducible assumption
    | with_reducible apply atStep_kept
    | with_reducible apply advance_kept
    | with_reducible apply modMx_kept
    | with_reducible apply endGang_kept
    | with_reducible apply aPart_kept
    | with_reducible apply orBadBlk_kept
    | with_reducible apply orMx_kept
    | with_reducible apply modCore_kept
    | with_reducible apply keptO_next
    | with_reducible apply kept_ite
    | (with_reducible apply kept_foldl; intro t x ht)
    | (with_reducible apply kept_foldl_snd; intro t x ht)
    | split
    | simp only [kept_mk]
    | (with_reducible refine kept_snd (by assumption) ?_)
    | (with_reducible refine kept_snd2 (by assumption) ?_)
    | dsimp -iota only
    | dsimp only
    | decide
    | intro t l w ht
    | intro t l ht
    | intro t ht

theorem reachRing_kept {s0 : State} (s : State) (core : Nat) (h0 : Kept s0 s) : Kept s0 (reachRing s core) := by
  unfold reachRing
  try dsimp -iota only
  repeat' first
    | with_reducible assumption
    | with_reducible apply reachStep_kept
    | with_reducible apply endGang_kept
    | with_reducible apply fault_kept
    | with_reducible apply holdMx_kept
    | with_reducible apply kept_ite
    | (with_reducible apply kept_foldl; intro t x ht)
    | (with_reducible apply kept_foldl_snd; intro t x ht)
    | split
    | simp only [kept_mk]
    | (with_reducible refine kept_snd (by assumption) ?_)
    | (with_reducible refine kept_snd2 (by assumption) ?_)
    | dsimp -iota only
    | dsimp only
    | decide
    | intro t l w ht
    | intro t l ht
    | intro t ht

theorem ringMove_kept {s0 : State} (s : State) (cl : Nat) (h0 : Kept s0 s) : Kept s0 (ringMove s cl) := by
  unfold ringMove
  try dsimp -iota only
  repeat' first
    | with_reducible assumption
    | with_reducible apply modCore_kept
    | with_reducible apply kept_ite
    | (with_reducible apply kept_foldl; intro t x ht)
    | (with_reducible apply kept_foldl_snd; intro t x ht)
    | split
    | simp only [kept_mk]
    | (with_reducible refine kept_snd (by assumption) ?_)
    | (with_reducible refine kept_snd2 (by assumption) ?_)
    | dsimp -iota only
    | dsimp only
    | decide
    | intro t l w ht
    | intro t l ht
    | intro t ht

theorem execRotate_kept {s0 : State} (cl : Nat) (s : State) (h0 : Kept s0 s) : KeptO s0 (execRotate cl s) := by
  unfold execRotate
  try dsimp -iota only
  repeat' first
    | with_reducible assumption
    | with_reducible apply reachRing_kept
    | with_reducible apply modCl_kept
    | with_reducible apply advance_kept
    | with_reducible apply ringMove_kept
    | with_reducible apply keptO_next
    | with_reducible apply kept_ite
    | (with_reducible apply kept_foldl; intro t x ht)
    | (with_reducible apply kept_foldl_snd; intro t x ht)
    | split
    | simp only [kept_mk]
    | (with_reducible refine kept_snd (by assumption) ?_)
    | (with_reducible refine kept_snd2 (by assumption) ?_)
    | dsimp -iota only
    | dsimp only
    | decide
    | intro t l w ht
    | intro t l ht
    | intro t ht

theorem drainBegin_kept {s0 : State} (s : State) (core : Nat) (w0 : Word) (w1 : Word) (h0 : Kept s0 s) : Kept s0 (drainBegin s core w0 w1) := by
  unfold drainBegin
  try dsimp -iota only
  repeat' first
    | with_reducible assumption
    | with_reducible apply stickMx_kept
    | with_reducible apply walkWaits_kept
    | with_reducible apply holdMx_kept
    | with_reducible apply endGang_kept
    | with_reducible apply advance_kept
    | with_reducible apply fresh_kept
    | with_reducible apply modMx_kept
    | with_reducible apply bump_kept
    | with_reducible apply setEmpty_kept
    | with_reducible apply kept_ite
    | (with_reducible apply kept_foldl; intro t x ht)
    | (with_reducible apply kept_foldl_snd; intro t x ht)
    | split
    | simp only [kept_mk]
    | (with_reducible refine kept_snd (by assumption) ?_)
    | (with_reducible refine kept_snd2 (by assumption) ?_)
    | dsimp -iota only
    | dsimp only
    | decide
    | intro t l w ht
    | intro t l ht
    | intro t ht

theorem drainWrite_kept {s0 : State} (s : State) (core : Nat) (bs : List Byte) (arg3 : List Part) (h0 : Kept s0 s) : Kept s0 (drainWrite s core bs arg3) := by
  induction arg3 generalizing s with
  | nil => first | assumption | (unfold drainWrite; assumption) | exact fun _ h => h
  | cons x xs ih =>
    unfold drainWrite
    try dsimp -iota only
    repeat' first
      | with_reducible assumption
      | with_reducible apply ih
      | with_reducible apply setFulls_kept
      | with_reducible apply unpoison_kept
      | with_reducible apply putRowBytes_kept
      | with_reducible apply kept_ite
      | (with_reducible apply kept_foldl; intro t x ht)
      | (with_reducible apply kept_foldl_snd; intro t x ht)
      | split
      | simp only [kept_mk]
      | (with_reducible refine kept_snd (by assumption) ?_)
      | (with_reducible refine kept_snd2 (by assumption) ?_)
      | dsimp -iota only
      | dsimp only
      | decide
      | intro t l w ht
      | intro t l ht
      | intro t ht

theorem execDrain_kept {s0 : State} (core : Nat) (s : State) (h0 : Kept s0 s) : KeptO s0 (execDrain core s) := by
  unfold execDrain
  try dsimp -iota only
  repeat' first
    | with_reducible assumption
    | with_reducible apply atStep_kept
    | with_reducible apply stickMx_kept
    | with_reducible apply drainBegin_kept
    | with_reducible apply endGang_kept
    | with_reducible apply modMx_kept
    | with_reducible apply orMx_kept
    | with_reducible apply drainWrite_kept
    | with_reducible apply advance_kept
    | with_reducible apply keptO_next
    | with_reducible apply kept_ite
    | (with_reducible apply kept_foldl; intro t x ht)
    | (with_reducible apply kept_foldl_snd; intro t x ht)
    | split
    | simp only [kept_mk]
    | (with_reducible refine kept_snd (by assumption) ?_)
    | (with_reducible refine kept_snd2 (by assumption) ?_)
    | dsimp -iota only
    | dsimp only
    | decide
    | intro t l w ht
    | intro t l ht
    | intro t ht

theorem execGroup_kept {s0 : State} (core : Nat) (s : State) (h0 : Kept s0 s) : KeptO s0 (execGroup core s) := by
  unfold execGroup
  try dsimp -iota only
  repeat' first
    | with_reducible assumption
    | with_reducible apply reachStep_kept
    | with_reducible apply advance_kept
    | with_reducible apply modMx_kept
    | with_reducible apply endGang_kept
    | with_reducible apply stickMx_kept
    | with_reducible apply fault_kept
    | with_reducible apply holdMx_kept
    | with_reducible apply keptO_next
    | with_reducible apply kept_ite
    | (with_reducible apply kept_foldl; intro t x ht)
    | (with_reducible apply kept_foldl_snd; intro t x ht)
    | split
    | simp only [kept_mk]
    | (with_reducible refine kept_snd (by assumption) ?_)
    | (with_reducible refine kept_snd2 (by assumption) ?_)
    | dsimp -iota only
    | dsimp only
    | decide
    | intro t l w ht
    | intro t l ht
    | intro t ht

theorem execEndStep_kept {s0 : State} (core : Nat) (s : State) (h0 : Kept s0 s) : KeptO s0 (execEndStep core s) := by
  unfold execEndStep
  try dsimp -iota only
  repeat' first
    | with_reducible assumption
    | with_reducible apply atStep_kept
    | with_reducible apply modMx_kept
    | with_reducible apply endGang_kept
    | with_reducible apply keptO_next
    | with_reducible apply kept_ite
    | (with_reducible apply kept_foldl; intro t x ht)
    | (with_reducible apply kept_foldl_snd; intro t x ht)
    | split
    | simp only [kept_mk]
    | (with_reducible refine kept_snd (by assumption) ?_)
    | (with_reducible refine kept_snd2 (by assumption) ?_)
    | dsimp -iota only
    | dsimp only
    | decide
    | intro t l w ht
    | intro t l ht
    | intro t ht

theorem execRingWatchdog_kept {s0 : State} (cl : Nat) (n : Nat) (s : State) (h0 : Kept s0 s) : KeptO s0 (execRingWatchdog cl n s) := by
  unfold execRingWatchdog
  try dsimp -iota only
  repeat' first
    | with_reducible assumption
    | with_reducible apply endGang_kept
    | with_reducible apply modCl_kept
    | with_reducible apply keptO_next
    | with_reducible apply kept_ite
    | (with_reducible apply kept_foldl; intro t x ht)
    | (with_reducible apply kept_foldl_snd; intro t x ht)
    | split
    | simp only [kept_mk]
    | (with_reducible refine kept_snd (by assumption) ?_)
    | (with_reducible refine kept_snd2 (by assumption) ?_)
    | dsimp -iota only
    | dsimp only
    | decide
    | intro t l w ht
    | intro t l ht
    | intro t ht

end Sys2Proof.Machine
end

