-- ==== Sys2Proof/Laws/KeptEdge.lean ====
section
/-! SUPPORT. The operations of Machine/Edge.lean keep canonical memory and legal control blocks (Kept.lean). -/

namespace Sys2Proof.Machine

set_option linter.all false

/-- Work of an edge engine that keeps it, from every state that has it. -/
abbrev KeptM {α : Type} (s0 : State) (m : EngM α) : Prop := ∀ s, Kept s0 s → Kept s0 (m s).2



theorem keptM_pure {α : Type} {s0 : State} (a : α) : KeptM s0 (pure a : EngM α) := fun _ h => h

theorem keptM_throw {α : Type} {s0 : State} (e : Stop) : KeptM s0 (throw e : EngM α) := fun _ h => h

theorem keptM_bind {α β : Type} {s0 : State} {m : EngM α} {f : α → EngM β} (hm : KeptM s0 m)
    (hf : ∀ a, KeptM s0 (f a)) : KeptM s0 (m >>= f) := by
  intro s h
  have h1 := hm s h
  have e : (m >>= f) s = (match (m s).1 with | .ok a => f a (m s).2 | .error e => (.error e, (m s).2)) := by
    simp only [bind, ExceptT.bind, ExceptT.mk, StateT.bind, ExceptT.bindCont]
    rcases hms : m s with ⟨x | x, t⟩ <;> rfl
  rw [e]
  split
  · exact hf _ _ h1
  · exact h1

theorem keptM_ite {α : Type} {s0 : State} {c : Prop} [Decidable c] {a b : EngM α} (ha : KeptM s0 a) (hb : KeptM s0 b) :
    KeptM s0 (if c then a else b) := by
  split <;> assumption

theorem keptM_ofGot {α : Type} {s0 : State} {f : State → Got α × State} (hf : ∀ s, Kept s0 s → Kept s0 (f s).2) :
    KeptM s0 (ofGot f) := by
  intro s h
  have h1 := hf s h
  unfold ofGot
  split <;> rename_i e <;> rw [e] at h1 <;> exact h1

theorem keptM_act {s0 : State} {f : State → State} (hf : ∀ s, Kept s0 s → Kept s0 (f s)) : KeptM s0 (act f) := hf

theorem modEdge_kept {s0 : State} (s : State) (core : Nat) (f : EdgeEng → EdgeEng) (h0 : Kept s0 s) : Kept s0 (modEdge s core f) := by
  unfold modEdge
  try dsimp -iota only
  repeat' first
    | with_reducible assumption
    | with_reducible apply modCore_kept
    | with_reducible apply kept_ite
    | (with_reducible apply kept_foldl; intro t x ht)
    | (with_reducible apply kept_foldl_snd; intro t x ht)
    | split
    | simp only [kept_mk]
    | (with_reducible refine kept_snd (by assumption) ?_)
    | (with_reducible refine kept_snd2 (by assumption) ?_)
    | dsimp -iota only
    | dsimp only
    | decide
    | intro t l w ht
    | intro t l ht
    | intro t ht

theorem asks_kept {s0 : State} {α : Type} (f : State → α) : KeptM s0 (asks f) := by
  unfold asks
  repeat' first
    | with_reducible assumption
    | with_reducible_and_instances exact keptM_pure _
    | with_reducible_and_instances exact keptM_throw _
    | with_reducible refine keptM_bind ?_ fun a => ?_
    | (with_reducible apply keptM_ofGot; intro s hs)
    | (with_reducible apply keptM_act; intro s hs)
    | (with_reducible apply keptM_ite)
    | with_reducible exact keptM_unit
    | (with_reducible apply keptM_forIn; intro a)
    | with_reducible apply kept_ite
    | (with_reducible apply kept_foldl; intro t x ht)
    | (with_reducible apply kept_foldl_snd; intro t x ht)
    | split
    | simp only [kept_mk]
    | (with_reducible refine kept_snd (by assumption) ?_)
    | (with_reducible refine kept_snd2 (by assumption) ?_)
    | dsimp -iota only
    | dsimp only
    | decide
    | intro t l w ht
    | intro t l ht
    | intro t ht

theorem homePart_kept {s0 : State} (s : State) (who : Asker) (p : Part) (h0 : Kept s0 s) : Kept s0 (homePart s who p).2 := by
  unfold homePart
  try dsimp -iota only
  repeat' first
    | with_reducible assumption
    | (with_reducible exact askFirst_state (by assumption) h0)
    | with_reducible apply rowLoad_kept
    | with_reducible apply homeRead_kept
    | with_reducible apply landFlights_kept
    | with_reducible apply kept_ite
    | (with_reducible apply kept_foldl; intro t x ht)
    | (with_reducible apply kept_foldl_snd; intro t x ht)
    | split
    | simp only [kept_mk]
    | (with_reducible refine kept_snd (by assumption) ?_)
    | (with_reducible refine kept_snd2 (by assumption) ?_)
    | dsimp -iota only
    | dsimp only
    | decide
    | intro t l w ht
    | intro t l ht
    | intro t ht

theorem homeParts_kept {s0 : State} (s : State) (who : Asker) (va : Word) (arg3 : List Part) (h0 : Kept s0 s) : Kept s0 (homeParts s who va arg3).2 := by
  induction arg3 generalizing s with
  | nil => first | assumption | (unfold homeParts; assumption) | exact fun _ h => h
  | cons x xs ih =>
    unfold homeParts
    try dsimp -iota only
    repeat' first
      | with_reducible assumption
      | with_reducible apply ih
      | with_reducible apply homePart_kept
      | with_reducible apply fault_kept
      | with_reducible apply kept_ite
      | (with_reducible apply kept_foldl; intro t x ht)
      | (with_reducible apply kept_foldl_snd; intro t x ht)
      | split
      | simp only [kept_mk]
      | (with_reducible refine kept_snd (by assumption) ?_)
      | (with_reducible refine kept_snd2 (by assumption) ?_)
      | dsimp -iota only
      | dsimp only
      | decide
      | intro t l w ht
      | intro t l ht
      | intro t ht

theorem eCheck_kept {s0 : State} (core : Nat) (a : Acc) (base : Word) (off : Nat) (n : Nat) : KeptM s0 (eCheck core a base off n) := by
  unfold eCheck
  repeat' first
    | with_reducible assumption
    | with_reducible apply walkWaits_kept
    | with_reducible apply fault_kept
    | with_reducible apply bump_kept
    | with_reducible_and_instances exact keptM_pure _
    | with_reducible_and_instances exact keptM_throw _
    | with_reducible refine keptM_bind ?_ fun a => ?_
    | (with_reducible apply keptM_ofGot; intro s hs)
    | (with_reducible apply keptM_act; intro s hs)
    | (with_reducible apply keptM_ite)
    | with_reducible exact keptM_unit
    | (with_reducible apply keptM_forIn; intro a)
    | with_reducible apply kept_ite
    | (with_reducible apply kept_foldl; intro t x ht)
    | (with_reducible apply kept_foldl_snd; intro t x ht)
    | split
    | simp only [kept_mk]
    | (with_reducible refine kept_snd (by assumption) ?_)
    | (with_reducible refine kept_snd2 (by assumption) ?_)
    | dsimp -iota only
    | dsimp only
    | decide
    | intro t l w ht
    | intro t l ht
    | intro t ht

theorem eGraph_kept {s0 : State} (core : Nat) (base : Word) (off : Nat) (n : Nat) : KeptM s0 (eGraph core base off n) := by
  unfold eGraph
  repeat' first
    | with_reducible assumption
    | with_reducible apply eCheck_kept
    | with_reducible apply engParts_kept
    | with_reducible_and_instances exact keptM_pure _
    | with_reducible_and_instances exact keptM_throw _
    | with_reducible refine keptM_bind ?_ fun a => ?_
    | (with_reducible apply keptM_ofGot; intro s hs)
    | (with_reducible apply keptM_act; intro s hs)
    | (with_reducible apply keptM_ite)
    | with_reducible exact keptM_unit
    | (with_reducible apply keptM_forIn; intro a)
    | with_reducible apply kept_ite
    | (with_reducible apply kept_foldl; intro t x ht)
    | (with_reducible apply kept_foldl_snd; intro t x ht)
    | split
    | simp only [kept_mk]
    | (with_reducible refine kept_snd (by assumption) ?_)
    | (with_reducible refine kept_snd2 (by assumption) ?_)
    | dsimp -iota only
    | dsimp only
    | decide
    | intro t l w ht
    | intro t l ht
    | intro t ht

theorem eHome_kept {s0 : State} (core : Nat) (base : Word) (off : Nat) (n : Nat) : KeptM s0 (eHome core base off n) := by
  unfold eHome
  repeat' first
    | with_reducible assumption
    | with_reducible apply eCheck_kept
    | with_reducible apply homeParts_kept
    | with_reducible_and_instances exact keptM_pure _
    | with_reducible_and_instances exact keptM_throw _
    | with_reducible refine keptM_bind ?_ fun a => ?_
    | (with_reducible apply keptM_ofGot; intro s hs)
    | (with_reducible apply keptM_act; intro s hs)
    | (with_reducible apply keptM_ite)
    | with_reducible exact keptM_unit
    | (with_reducible apply keptM_forIn; intro a)
    | with_reducible apply kept_ite
    | (with_reducible apply kept_foldl; intro t x ht)
    | (with_reducible apply kept_foldl_snd; intro t x ht)
    | split
    | simp only [kept_mk]
    | (with_reducible refine kept_snd (by assumption) ?_)
    | (with_reducible refine kept_snd2 (by assumption) ?_)
    | dsimp -iota only
    | dsimp only
    | decide
    | intro t l w ht
    | intro t l ht
    | intro t ht

theorem whole_kept {s0 : State} (m : EngM Unit) (hm : KeptM s0 m) : KeptM s0 (whole m) := by
  unfold whole
  repeat' first
    | with_reducible assumption
    | with_reducible apply hm
    | with_reducible_and_instances exact keptM_pure _
    | with_reducible_and_instances exact keptM_throw _
    | with_reducible refine keptM_bind ?_ fun a => ?_
    | (with_reducible apply keptM_ofGot; intro s hs)
    | (with_reducible apply keptM_act; intro s hs)
    | (with_reducible apply keptM_ite)
    | with_reducible exact keptM_unit
    | (with_reducible apply keptM_forIn; intro a)
    | with_reducible apply kept_ite
    | (with_reducible apply kept_foldl; intro t x ht)
    | (with_reducible apply kept_foldl_snd; intro t x ht)
    | split
    | simp only [kept_mk]
    | (with_reducible refine kept_snd (by assumption) ?_)
    | (with_reducible refine kept_snd2 (by assumption) ?_)
    | dsimp -iota only
    | dsimp only
    | decide
    | intro t l w ht
    | intro t l ht
    | intro t ht

theorem noteLines_kept {s0 : State} (s : State) (core : Nat) (ps : List Part) (h0 : Kept s0 s) : Kept s0 (noteLines s core ps) := by
  unfold noteLines
  try dsimp -iota only
  repeat' first
    | with_reducible assumption
    | with_reducible apply sigParts_kept
    | with_reducible apply modEdge_kept
    | with_reducible apply kept_ite
    | (with_reducible apply kept_foldl; intro t x ht)
    | (with_reducible apply kept_foldl_snd; intro t x ht)
    | split
    | simp only [kept_mk]
    | (with_reducible refine kept_snd (by assumption) ?_)
    | (with_reducible refine kept_snd2 (by assumption) ?_)
    | dsimp -iota only
    | dsimp only
    | decide
    | intro t l w ht
    | intro t l ht
    | intro t ht

theorem edgePut_kept {s0 : State} (s : State) (r : RowId) (p : Part) (b : List Byte) (h0 : Kept s0 s) : Kept s0 (edgePut s r p b).2 := by
  unfold edgePut
  try dsimp -iota only
  repeat' first
    | with_reducible assumption
    | with_reducible apply logAdd_kept
    | with_reducible apply store_kept
    | with_reducible apply sentPart_kept
    | with_reducible apply rowStore_kept
    | with_reducible apply received_kept
    | with_reducible apply sentMsg_kept
    | with_reducible apply memWrite_kept
    | with_reducible apply homeOnly_kept
    | with_reducible apply kept_ite
    | (with_reducible apply kept_foldl; intro t x ht)
    | (with_reducible apply kept_foldl_snd; intro t x ht)
    | split
    | simp only [kept_mk]
    | (with_reducible refine kept_snd (by assumption) ?_)
    | (with_reducible refine kept_snd2 (by assumption) ?_)
    | dsimp -iota only
    | dsimp only
    | decide
    | intro t l w ht
    | intro t l ht
    | intro t ht

theorem homeSave_kept {s0 : State} (s : State) (r : RowId) (bs : List Byte) (arg3 : List Part) (h0 : Kept s0 s) : Kept s0 (homeSave s r bs arg3).2 := by
  induction arg3 generalizing s bs with
  | nil => first | assumption | (unfold homeSave; assumption) | exact fun _ h => h
  | cons x xs ih =>
    unfold homeSave
    try dsimp -iota only
    repeat' first
      | with_reducible assumption
      | with_reducible apply ih
      | with_reducible apply edgePut_kept
      | with_reducible apply kept_ite
      | (with_reducible apply kept_foldl; intro t x ht)
      | (with_reducible apply kept_foldl_snd; intro t x ht)
      | split
      | simp only [kept_mk]
      | (with_reducible refine kept_snd (by assumption) ?_)
      | (with_reducible refine kept_snd2 (by assumption) ?_)
      | dsimp -iota only
      | dsimp only
      | decide
      | intro t l w ht
      | intro t l ht
      | intro t ht

theorem eSave_kept {s0 : State} (core : Nat) (ps : List Part) (bs : List Byte) : KeptM s0 (eSave core ps bs) := by
  unfold eSave
  repeat' first
    | with_reducible assumption
    | with_reducible apply fault_kept
    | with_reducible apply homeSave_kept
    | with_reducible apply noteLines_kept
    | with_reducible_and_instances exact keptM_pure _
    | with_reducible_and_instances exact keptM_throw _
    | with_reducible refine keptM_bind ?_ fun a => ?_
    | (with_reducible apply keptM_ofGot; intro s hs)
    | (with_reducible apply keptM_act; intro s hs)
    | (with_reducible apply keptM_ite)
    | with_reducible exact keptM_unit
    | (with_reducible apply keptM_forIn; intro a)
    | with_reducible apply kept_ite
    | (with_reducible apply kept_foldl; intro t x ht)
    | (with_reducible apply kept_foldl_snd; intro t x ht)
    | split
    | simp only [kept_mk]
    | (with_reducible refine kept_snd (by assumption) ?_)
    | (with_reducible refine kept_snd2 (by assumption) ?_)
    | dsimp -iota only
    | dsimp only
    | decide
    | intro t l w ht
    | intro t l ht
    | intro t ht

theorem eU32_kept {s0 : State} (core : Nat) (base : Word) (i : Nat) : KeptM s0 (eU32 core base i) := by
  unfold eU32
  repeat' first
    | with_reducible assumption
    | with_reducible apply eGraph_kept
    | with_reducible_and_instances exact keptM_pure _
    | with_reducible_and_instances exact keptM_throw _
    | with_reducible refine keptM_bind ?_ fun a => ?_
    | (with_reducible apply keptM_ofGot; intro s hs)
    | (with_reducible apply keptM_act; intro s hs)
    | (with_reducible apply keptM_ite)
    | with_reducible exact keptM_unit
    | (with_reducible apply keptM_forIn; intro a)
    | with_reducible apply kept_ite
    | (with_reducible apply kept_foldl; intro t x ht)
    | (with_reducible apply kept_foldl_snd; intro t x ht)
    | split
    | simp only [kept_mk]
    | (with_reducible refine kept_snd (by assumption) ?_)
    | (with_reducible refine kept_snd2 (by assumption) ?_)
    | dsimp -iota only
    | dsimp only
    | decide
    | intro t l w ht
    | intro t l ht
    | intro t ht

theorem eBit_kept {s0 : State} (core : Nat) (base : Word) (v : Nat) : KeptM s0 (eBit core base v) := by
  unfold eBit
  repeat' first
    | with_reducible assumption
    | with_reducible apply eHome_kept
    | with_reducible_and_instances exact keptM_pure _
    | with_reducible_and_instances exact keptM_throw _
    | with_reducible refine keptM_bind ?_ fun a => ?_
    | (with_reducible apply keptM_ofGot; intro s hs)
    | (with_reducible apply keptM_act; intro s hs)
    | (with_reducible apply keptM_ite)
    | with_reducible exact keptM_unit
    | (with_reducible apply keptM_forIn; intro a)
    | with_reducible apply kept_ite
    | (with_reducible apply kept_foldl; intro t x ht)
    | (with_reducible apply kept_foldl_snd; intro t x ht)
    | split
    | simp only [kept_mk]
    | (with_reducible refine kept_snd (by assumption) ?_)
    | (with_reducible refine kept_snd2 (by assumption) ?_)
    | dsimp -iota only
    | dsimp only
    | decide
    | intro t l w ht
    | intro t l ht
    | intro t ht

theorem ePair_kept {s0 : State} (core : Nat) (base : Word) (v : Nat) : KeptM s0 (ePair core base v) := by
  unfold ePair
  repeat' first
    | with_reducible assumption
    | with_reducible apply eGraph_kept
    | with_reducible_and_instances exact keptM_pure _
    | with_reducible_and_instances exact keptM_throw _
    | with_reducible refine keptM_bind ?_ fun a => ?_
    | (with_reducible apply keptM_ofGot; intro s hs)
    | (with_reducible apply keptM_act; intro s hs)
    | (with_reducible apply keptM_ite)
    | with_reducible exact keptM_unit
    | (with_reducible apply keptM_forIn; intro a)
    | with_reducible apply kept_ite
    | (with_reducible apply kept_foldl; intro t x ht)
    | (with_reducible apply kept_foldl_snd; intro t x ht)
    | split
    | simp only [kept_mk]
    | (with_reducible refine kept_snd (by assumption) ?_)
    | (with_reducible refine kept_snd2 (by assumption) ?_)
    | dsimp -iota only
    | dsimp only
    | decide
    | intro t l w ht
    | intro t l ht
    | intro t ht

theorem eDegrees_kept {s0 : State} (core : Nat) (off : Word) (map : Word) (want : Bool) (n : Nat) (v : Nat) : KeptM s0 (eDegrees core off map want n v) := by
  induction n generalizing v with
  | zero => first | assumption | (unfold eDegrees; assumption) | exact fun _ h => h
  | succ n ih =>
    unfold eDegrees
    repeat' first
      | with_reducible assumption
      | with_reducible apply ih
      | with_reducible apply eBit_kept
      | with_reducible apply ePair_kept
      | with_reducible_and_instances exact keptM_pure _
      | with_reducible_and_instances exact keptM_throw _
      | with_reducible refine keptM_bind ?_ fun a => ?_
      | (with_reducible apply keptM_ofGot; intro s hs)
      | (with_reducible apply keptM_act; intro s hs)
      | (with_reducible apply keptM_ite)
      | with_reducible exact keptM_unit
      | (with_reducible apply keptM_forIn; intro a)
      | with_reducible apply kept_ite
      | (with_reducible apply kept_foldl; intro t x ht)
      | (with_reducible apply kept_foldl_snd; intro t x ht)
      | split
      | simp only [kept_mk]
      | (with_reducible refine kept_snd (by assumption) ?_)
      | (with_reducible refine kept_snd2 (by assumption) ?_)
      | dsimp -iota only
      | dsimp only
      | decide
      | intro t l w ht
      | intro t l ht
      | intro t ht

theorem holdEdge_kept {s0 : State} (s : State) (core : Nat) (f : EngFault) (h0 : Kept s0 s) : Kept s0 (holdEdge s core f) := by
  unfold holdEdge
  try dsimp -iota only
  repeat' first
    | with_reducible assumption
    | with_reducible apply modEdge_kept
    | with_reducible apply statusFill_kept
    | with_reducible apply kept_ite
    | (with_reducible apply kept_foldl; intro t x ht)
    | (with_reducible apply kept_foldl_snd; intro t x ht)
    | split
    | simp only [kept_mk]
    | (with_reducible refine kept_snd (by assumption) ?_)
    | (with_reducible refine kept_snd2 (by assumption) ?_)
    | dsimp -iota only
    | dsimp only
    | decide
    | intro t l w ht
    | intro t l ht
    | intro t ht

theorem unhold_kept {s0 : State} (s : State) (core : Nat) (h0 : Kept s0 s) : Kept s0 (unhold s core) := by
  unfold unhold
  try dsimp -iota only
  repeat' first
    | with_reducible assumption
    | with_reducible apply modEdge_kept
    | with_reducible apply kept_ite
    | (with_reducible apply kept_foldl; intro t x ht)
    | (with_reducible apply kept_foldl_snd; intro t x ht)
    | split
    | simp only [kept_mk]
    | (with_reducible refine kept_snd (by assumption) ?_)
    | (with_reducible refine kept_snd2 (by assumption) ?_)
    | dsimp -iota only
    | dsimp only
    | decide
    | intro t l w ht
    | intro t l ht
    | intro t ht

theorem finishRun_kept {s0 : State} (s1 : State) (cs : List Nat) (asid : Nat) (status : Nat) (h0 : Kept s0 s1) : Kept s0 (finishRun s1 cs asid status) := by
  unfold finishRun
  try dsimp -iota only
  repeat' first
    | with_reducible assumption
    | with_reducible apply sigInsert_kept
    | with_reducible apply flushWhere_kept
    | with_reducible apply statusFill_kept
    | with_reducible apply modCl_kept
    | with_reducible apply modEdge_kept
    | with_reducible apply kept_ite
    | (with_reducible apply kept_foldl; intro t x ht)
    | (with_reducible apply kept_foldl_snd; intro t x ht)
    | split
    | simp only [kept_mk]
    | (with_reducible refine kept_snd (by assumption) ?_)
    | (with_reducible refine kept_snd2 (by assumption) ?_)
    | dsimp -iota only
    | dsimp only
    | decide
    | intro t l w ht
    | intro t l ht
    | intro t ht

theorem endRunOn_kept {s0 : State} (s : State) (cs : List Nat) (asid : Nat) (status : Nat) (h0 : Kept s0 s) : Kept s0 (endRunOn s cs asid status) := by
  unfold endRunOn
  try dsimp -iota only
  repeat' first
    | with_reducible assumption
    | with_reducible apply finishRun_kept
    | with_reducible apply mergeCores_kept
    | with_reducible apply kept_ite
    | (with_reducible apply kept_foldl; intro t x ht)
    | (with_reducible apply kept_foldl_snd; intro t x ht)
    | split
    | simp only [kept_mk]
    | (with_reducible refine kept_snd (by assumption) ?_)
    | (with_reducible refine kept_snd2 (by assumption) ?_)
    | dsimp -iota only
    | dsimp only
    | decide
    | intro t l w ht
    | intro t l ht
    | intro t ht

theorem endRun_kept {s0 : State} (s : State) (core : Nat) (status : Nat) (h0 : Kept s0 s) : Kept s0 (endRun s core status) := by
  unfold endRun
  try dsimp -iota only
  repeat' first
    | with_reducible assumption
    | with_reducible apply endRunOn_kept
    | with_reducible apply kept_ite
    | (with_reducible apply kept_foldl; intro t x ht)
    | (with_reducible apply kept_foldl_snd; intro t x ht)
    | split
    | simp only [kept_mk]
    | (with_reducible refine kept_snd (by assumption) ?_)
    | (with_reducible refine kept_snd2 (by assumption) ?_)
    | dsimp -iota only
    | dsimp only
    | decide
    | intro t l w ht
    | intro t l ht
    | intro t ht

theorem engDo_kept {s0 : State} (s : State) (core : Nat) (m : EngM Unit) (h0 : Kept s0 s) (hm : KeptM s0 m) : Kept s0 (engDo s core m) := by
  unfold engDo
  try dsimp -iota only
  repeat' first
    | with_reducible assumption
    | with_reducible apply hm
    | exact h2 _ h0
    | with_reducible apply unhold_kept
    | with_reducible apply dropAnswers_kept
    | with_reducible apply fault_kept
    | with_reducible apply holdEdge_kept
    | with_reducible apply endRun_kept
    | with_reducible apply kept_ite
    | (with_reducible apply kept_foldl; intro t x ht)
    | (with_reducible apply kept_foldl_snd; intro t x ht)
    | split
    | simp only [kept_mk]
    | (with_reducible refine kept_snd (by assumption) ?_)
    | (with_reducible refine kept_snd2 (by assumption) ?_)
    | dsimp -iota only
    | dsimp only
    | decide
    | intro t l w ht
    | intro t l ht
    | intro t ht

theorem execEngineEdgeRun_kept {s0 : State} (ta : Bool) (a : Reg) (d : Reg) (s : State) (h0 : Kept s0 s) : KeptO s0 (execEngineEdgeRun ta a d s) := by
  unfold execEngineEdgeRun
  try dsimp -iota only
  repeat' first
    | with_reducible assumption
    | with_reducible refine modRow_kept ?_ _ _ ?_
    | with_reducible apply setEmpty_kept
    | with_reducible apply modEdge_kept
    | with_reducible apply block_kept
    | with_reducible apply soundGate_kept
    | with_reducible apply retireTo_kept
    | with_reducible apply raise_kept
    | with_reducible apply retire_kept
    | with_reducible apply holdGate_kept
    | with_reducible apply gate_kept
    | with_reducible apply retX_kept
    | with_reducible apply homeParts_kept
    | with_reducible apply fault_kept
    | with_reducible apply bump_kept
    | with_reducible apply dropAnswers_kept
    | with_reducible apply fresh_kept
    | with_reducible apply keptO_next
    | with_reducible apply kept_ite
    | (with_reducible apply kept_foldl; intro t x ht)
    | (with_reducible apply kept_foldl_snd; intro t x ht)
    | split
    | simp only [kept_mk]
    | (with_reducible refine kept_snd (by assumption) ?_)
    | (with_reducible refine kept_snd2 (by assumption) ?_)
    | dsimp -iota only
    | dsimp only
    | decide
    | (intro w hw; (try dsimp only); (repeat' split); all_goals first | with_reducible assumption | with_reducible exact rowOk_congr hw rfl rfl rfl rfl rfl rfl | (obtain ⟨h1, h2, h3, h4, h5⟩ := hw; refine ⟨?_, ?_, ?_, ?_, ?_⟩ <;> (try dsimp only) <;> first | with_reducible assumption | with_reducible exact even_mask _ | with_reducible exact even_256 _ | with_reducible exact flags_mask _ | with_reducible exact flags_or _ h5 | with_reducible exact .inl rfl | (simp; done)))
    | intro t l w ht
    | intro t l ht
    | intro t ht

theorem execEngineEdgeRet_kept {s0 : State} (_ta : Bool) (s : State) (h0 : Kept s0 s) : KeptO s0 (execEngineEdgeRet _ta s) := by
  unfold execEngineEdgeRet
  try dsimp -iota only
  repeat' first
    | with_reducible assumption
    | with_reducible apply ill_kept
    | with_reducible apply holdGate_kept
    | with_reducible apply gate_kept
    | with_reducible apply soundGate_kept
    | with_reducible apply modEdge_kept
    | with_reducible apply fresh_kept
    | with_reducible refine modRow_kept ?_ _ _ ?_
    | with_reducible apply retireTo_kept
    | with_reducible apply setEmpty_kept
    | with_reducible apply keptO_next
    | with_reducible apply kept_ite
    | (with_reducible apply kept_foldl; intro t x ht)
    | (with_reducible apply kept_foldl_snd; intro t x ht)
    | split
    | simp only [kept_mk]
    | (with_reducible refine kept_snd (by assumption) ?_)
    | (with_reducible refine kept_snd2 (by assumption) ?_)
    | dsimp -iota only
    | dsimp only
    | decide
    | (intro w hw; (try dsimp only); (repeat' split); all_goals first | with_reducible assumption | with_reducible exact rowOk_congr hw rfl rfl rfl rfl rfl rfl | (obtain ⟨h1, h2, h3, h4, h5⟩ := hw; refine ⟨?_, ?_, ?_, ?_, ?_⟩ <;> (try dsimp only) <;> first | with_reducible assumption | with_reducible exact even_mask _ | with_reducible exact even_256 _ | with_reducible exact flags_mask _ | with_reducible exact flags_or _ h5 | with_reducible exact .inl rfl | (simp; done)))
    | intro t l w ht
    | intro t l ht
    | intro t ht

theorem execEngineEdgeStat_kept {s0 : State} (_ta : Bool) (dp : BitVec 4) (s : State) (h0 : Kept s0 s) : KeptO s0 (execEngineEdgeStat _ta dp s) := by
  unfold execEngineEdgeStat
  try dsimp -iota only
  repeat' first
    | with_reducible assumption
    | with_reducible apply holdGate_kept
    | with_reducible apply retX_kept
    | with_reducible apply setX_kept
    | with_reducible apply keptO_next
    | with_reducible apply kept_ite
    | (with_reducible apply kept_foldl; intro t x ht)
    | (with_reducible apply kept_foldl_snd; intro t x ht)
    | split
    | simp only [kept_mk]
    | (with_reducible refine kept_snd (by assumption) ?_)
    | (with_reducible refine kept_snd2 (by assumption) ?_)
    | dsimp -iota only
    | dsimp only
    | decide
    | intro t l w ht
    | intro t l ht
    | intro t ht

theorem noteFl_kept {s0 : State} (s : State) (core : Nat) (fl : FFlags) (h0 : Kept s0 s) : Kept s0 (noteFl s core fl) := by
  unfold noteFl
  try dsimp -iota only
  repeat' first
    | with_reducible assumption
    | with_reducible apply modEdge_kept
    | with_reducible apply kept_ite
    | (with_reducible apply kept_foldl; intro t x ht)
    | (with_reducible apply kept_foldl_snd; intro t x ht)
    | split
    | simp only [kept_mk]
    | (with_reducible refine kept_snd (by assumption) ?_)
    | (with_reducible refine kept_snd2 (by assumption) ?_)
    | dsimp -iota only
    | dsimp only
    | decide
    | intro t l w ht
    | intro t l ht
    | intro t ht

theorem edgeFlags_kept {s0 : State} (s : State) (core : Nat) (fl : FFlags) (h0 : Kept s0 s) : Kept s0 (edgeFlags s core fl) := by
  unfold edgeFlags
  try dsimp -iota only
  repeat' first
    | with_reducible assumption
    | with_reducible apply noteFl_kept
    | with_reducible apply orFlags_kept
    | with_reducible apply kept_ite
    | (with_reducible apply kept_foldl; intro t x ht)
    | (with_reducible apply kept_foldl_snd; intro t x ht)
    | split
    | simp only [kept_mk]
    | (with_reducible refine kept_snd (by assumption) ?_)
    | (with_reducible refine kept_snd2 (by assumption) ?_)
    | dsimp -iota only
    | dsimp only
    | decide
    | intro t l w ht
    | intro t l ht
    | intro t ht

theorem eAtomic_kept {s0 : State} (core : Nat) (fn : Nat) (v : Word) (ps : List Part) : KeptM s0 (eAtomic core fn v ps) := by
  unfold eAtomic
  repeat' first
    | with_reducible assumption
    | exact askFirst_state (by assumption) (by assumption)
    | with_reducible apply atomicAt_kept
    | with_reducible apply keepAnswer_kept
    | with_reducible apply sentOnce_kept
    | with_reducible apply noteLines_kept
    | with_reducible apply edgeFlags_kept
    | with_reducible apply fault_kept
    | with_reducible_and_instances exact keptM_pure _
    | with_reducible_and_instances exact keptM_throw _
    | with_reducible refine keptM_bind ?_ fun a => ?_
    | (with_reducible apply keptM_ofGot; intro s hs)
    | (with_reducible apply keptM_act; intro s hs)
    | (with_reducible apply keptM_ite)
    | with_reducible exact keptM_unit
    | (with_reducible apply keptM_forIn; intro a)
    | with_reducible apply kept_ite
    | (with_reducible apply kept_foldl; intro t x ht)
    | (with_reducible apply kept_foldl_snd; intro t x ht)
    | split
    | simp only [kept_mk]
    | (with_reducible refine kept_snd (by assumption) ?_)
    | (with_reducible refine kept_snd2 (by assumption) ?_)
    | dsimp -iota only
    | dsimp only
    | decide
    | intro t l w ht
    | intro t l ht
    | intro t ht

theorem eSwap_kept {s0 : State} (core : Nat) (v : Word) (ps : List Part) : KeptM s0 (eSwap core v ps) := by
  unfold eSwap
  repeat' first
    | with_reducible assumption
    | with_reducible apply eAtomic_kept
    | with_reducible_and_instances exact keptM_pure _
    | with_reducible_and_instances exact keptM_throw _
    | with_reducible refine keptM_bind ?_ fun a => ?_
    | (with_reducible apply keptM_ofGot; intro s hs)
    | (with_reducible apply keptM_act; intro s hs)
    | (with_reducible apply keptM_ite)
    | with_reducible exact keptM_unit
    | (with_reducible apply keptM_forIn; intro a)
    | with_reducible apply kept_ite
    | (with_reducible apply kept_foldl; intro t x ht)
    | (with_reducible apply kept_foldl_snd; intro t x ht)
    | split
    | simp only [kept_mk]
    | (with_reducible refine kept_snd (by assumption) ?_)
    | (with_reducible refine kept_snd2 (by assumption) ?_)
    | dsimp -iota only
    | dsimp only
    | decide
    | intro t l w ht
    | intro t l ht
    | intro t ht

theorem eTake_kept {s0 : State} (core : Nat) (n : Nat) (ps : List Part) : KeptM s0 (eTake core n ps) := by
  unfold eTake
  repeat' first
    | with_reducible assumption
    | with_reducible apply eAtomic_kept
    | with_reducible_and_instances exact keptM_pure _
    | with_reducible_and_instances exact keptM_throw _
    | with_reducible refine keptM_bind ?_ fun a => ?_
    | (with_reducible apply keptM_ofGot; intro s hs)
    | (with_reducible apply keptM_act; intro s hs)
    | (with_reducible apply keptM_ite)
    | with_reducible exact keptM_unit
    | (with_reducible apply keptM_forIn; intro a)
    | with_reducible apply kept_ite
    | (with_reducible apply kept_foldl; intro t x ht)
    | (with_reducible apply kept_foldl_snd; intro t x ht)
    | split
    | simp only [kept_mk]
    | (with_reducible refine kept_snd (by assumption) ?_)
    | (with_reducible refine kept_snd2 (by assumption) ?_)
    | dsimp -iota only
    | dsimp only
    | decide
    | intro t l w ht
    | intro t l ht
    | intro t ht

theorem eCnt0_kept {s0 : State} (core : Nat) (desc : Word) : KeptM s0 (eCnt0 core desc) := by
  unfold eCnt0
  repeat' first
    | with_reducible assumption
    | with_reducible apply eHome_kept
    | with_reducible_and_instances exact keptM_pure _
    | with_reducible_and_instances exact keptM_throw _
    | with_reducible refine keptM_bind ?_ fun a => ?_
    | (with_reducible apply keptM_ofGot; intro s hs)
    | (with_reducible apply keptM_act; intro s hs)
    | (with_reducible apply keptM_ite)
    | with_reducible exact keptM_unit
    | (with_reducible apply keptM_forIn; intro a)
    | with_reducible apply kept_ite
    | (with_reducible apply kept_foldl; intro t x ht)
    | (with_reducible apply kept_foldl_snd; intro t x ht)
    | split
    | simp only [kept_mk]
    | (with_reducible refine kept_snd (by assumption) ?_)
    | (with_reducible refine kept_snd2 (by assumption) ?_)
    | dsimp -iota only
    | dsimp only
    | decide
    | intro t l w ht
    | intro t l ht
    | intro t ht

theorem startPhase_kept {s0 : State} (s : State) (ws : List Word) (pull : Bool) (mid : Bool) (h0 : Kept s0 s) : Kept s0 (startPhase s ws pull mid) := by
  unfold startPhase
  try dsimp -iota only
  repeat' first
    | with_reducible assumption
    | with_reducible apply modCore_kept
    | with_reducible apply modEdge_kept
    | with_reducible apply kept_ite
    | (with_reducible apply kept_foldl; intro t x ht)
    | (with_reducible apply kept_foldl_snd; intro t x ht)
    | split
    | simp only [kept_mk]
    | (with_reducible refine kept_snd (by assumption) ?_)
    | (with_reducible refine kept_snd2 (by assumption) ?_)
    | dsimp -iota only
    | dsimp only
    | decide
    | intro t l w ht
    | intro t l ht
    | intro t ht

theorem noteCnt1_kept {s0 : State} (s : State) (ws : List Word) (v : Word) (h0 : Kept s0 s) : Kept s0 (noteCnt1 s ws v) := by
  unfold noteCnt1
  try dsimp -iota only
  repeat' first
    | with_reducible assumption
    | with_reducible apply modEdge_kept
    | with_reducible apply kept_ite
    | (with_reducible apply kept_foldl; intro t x ht)
    | (with_reducible apply kept_foldl_snd; intro t x ht)
    | split
    | simp only [kept_mk]
    | (with_reducible refine kept_snd (by assumption) ?_)
    | (with_reducible refine kept_snd2 (by assumption) ?_)
    | dsimp -iota only
    | dsimp only
    | decide
    | intro t l w ht
    | intro t l ht
    | intro t ht

theorem eClear_kept {s0 : State} (core : Nat) (ws : List Word) (base : Word) (ps : List Part) : KeptM s0 (eClear core ws base ps) := by
  unfold eClear
  repeat' first
    | with_reducible assumption
    | with_reducible apply eHome_kept
    | with_reducible apply eSave_kept
    | with_reducible_and_instances exact keptM_pure _
    | with_reducible_and_instances exact keptM_throw _
    | with_reducible refine keptM_bind ?_ fun a => ?_
    | (with_reducible apply keptM_ofGot; intro s hs)
    | (with_reducible apply keptM_act; intro s hs)
    | (with_reducible apply keptM_ite)
    | with_reducible exact keptM_unit
    | (with_reducible apply keptM_forIn; intro a)
    | with_reducible apply kept_ite
    | (with_reducible apply kept_foldl; intro t x ht)
    | (with_reducible apply kept_foldl_snd; intro t x ht)
    | split
    | simp only [kept_mk]
    | (with_reducible refine kept_snd (by assumption) ?_)
    | (with_reducible refine kept_snd2 (by assumption) ?_)
    | dsimp -iota only
    | dsimp only
    | decide
    | intro t l w ht
    | intro t l ht
    | intro t ht

theorem runBegin_kept {s0 : State} (s : State) (ws : List Word) (h0 : Kept s0 s) : Kept s0 (runBegin s ws) := by
  unfold runBegin
  try dsimp -iota only
  repeat' first
    | with_reducible assumption
    | with_reducible apply modEdge_kept
    | with_reducible apply kept_ite
    | (with_reducible apply kept_foldl; intro t x ht)
    | (with_reducible apply kept_foldl_snd; intro t x ht)
    | split
    | simp only [kept_mk]
    | (with_reducible refine kept_snd (by assumption) ?_)
    | (with_reducible refine kept_snd2 (by assumption) ?_)
    | dsimp -iota only
    | dsimp only
    | decide
    | intro t l w ht
    | intro t l ht
    | intro t ht

theorem prepareRun_kept {s0 : State} (core : Nat) (ws : List Word) (desc : Word) : KeptM s0 (prepareRun core ws desc) := by
  unfold prepareRun
  repeat' first
    | with_reducible assumption
    | with_reducible apply eCheck_kept
    | with_reducible apply eClear_kept
    | with_reducible apply eDegrees_kept
    | with_reducible apply eSwap_kept
    | with_reducible apply startPhase_kept
    | with_reducible apply noteCnt1_kept
    | with_reducible apply runBegin_kept
    | with_reducible_and_instances exact keptM_pure _
    | with_reducible_and_instances exact keptM_throw _
    | with_reducible refine keptM_bind ?_ fun a => ?_
    | (with_reducible apply keptM_ofGot; intro s hs)
    | (with_reducible apply keptM_act; intro s hs)
    | (with_reducible apply keptM_ite)
    | with_reducible exact keptM_unit
    | (with_reducible apply keptM_forIn; intro a)
    | with_reducible apply kept_ite
    | (with_reducible apply kept_foldl; intro t x ht)
    | (with_reducible apply kept_foldl_snd; intro t x ht)
    | split
    | simp only [kept_mk]
    | (with_reducible refine kept_snd (by assumption) ?_)
    | (with_reducible refine kept_snd2 (by assumption) ?_)
    | dsimp -iota only
    | dsimp only
    | decide
    | intro t l w ht
    | intro t l ht
    | intro t ht

theorem execEdgeRunStart_kept {s0 : State} (core : Nat) (s : State) (h0 : Kept s0 s) : KeptO s0 (execEdgeRunStart core s) := by
  unfold execEdgeRunStart
  try dsimp -iota only
  repeat' first
    | with_reducible assumption
    | with_reducible apply modEdge_kept
    | with_reducible apply finishRun_kept
    | with_reducible apply engDo_kept
    | with_reducible apply prepareRun_kept
    | with_reducible apply keptO_next
    | with_reducible apply kept_ite
    | (with_reducible apply kept_foldl; intro t x ht)
    | (with_reducible apply kept_foldl_snd; intro t x ht)
    | split
    | simp only [kept_mk]
    | (with_reducible refine kept_snd (by assumption) ?_)
    | (with_reducible refine kept_snd2 (by assumption) ?_)
    | dsimp -iota only
    | dsimp only
    | decide
    | intro t l w ht
    | intro t l ht
    | intro t ht

theorem stealChunk_kept {s0 : State} (s : State) (core : Nat) (tag : Nat) (arg3 : List Nat) (h0 : Kept s0 s) : Kept s0 (stealChunk s core tag arg3).2 := by
  induction arg3 generalizing s with
  | nil => first | assumption | (unfold stealChunk; assumption) | exact fun _ h => h
  | cons x xs ih =>
    unfold stealChunk
    try dsimp -iota only
    repeat' first
      | with_reducible assumption
      | with_reducible apply ih
      | with_reducible apply modCore_kept
      | with_reducible apply kept_ite
      | (with_reducible apply kept_foldl; intro t x ht)
      | (with_reducible apply kept_foldl_snd; intro t x ht)
      | split
      | simp only [kept_mk]
      | (with_reducible refine kept_snd (by assumption) ?_)
      | (with_reducible refine kept_snd2 (by assumption) ?_)
      | dsimp -iota only
      | dsimp only
      | decide
      | intro t l w ht
      | intro t l ht
      | intro t ht

theorem nextChunk_kept {s0 : State} (s : State) (core : Nat) (tag : Nat) (cs : List Nat) (h0 : Kept s0 s) : Kept s0 (nextChunk s core tag cs).2 := by
  unfold nextChunk
  try dsimp -iota only
  repeat' first
    | with_reducible assumption
    | with_reducible apply modCore_kept
    | with_reducible apply stealChunk_kept
    | with_reducible apply kept_ite
    | (with_reducible apply kept_foldl; intro t x ht)
    | (with_reducible apply kept_foldl_snd; intro t x ht)
    | split
    | simp only [kept_mk]
    | (with_reducible refine kept_snd (by assumption) ?_)
    | (with_reducible refine kept_snd2 (by assumption) ?_)
    | dsimp -iota only
    | dsimp only
    | decide
    | intro t l w ht
    | intro t l ht
    | intro t ht

theorem eTest_kept {s0 : State} (core : Nat) (e : EdgeEng) : KeptM s0 (eTest core e) := by
  unfold eTest
  repeat' first
    | with_reducible assumption
    | with_reducible apply eCnt0_kept
    | with_reducible_and_instances exact keptM_pure _
    | with_reducible_and_instances exact keptM_throw _
    | with_reducible refine keptM_bind ?_ fun a => ?_
    | (with_reducible apply keptM_ofGot; intro s hs)
    | (with_reducible apply keptM_act; intro s hs)
    | (with_reducible apply keptM_ite)
    | with_reducible exact keptM_unit
    | (with_reducible apply keptM_forIn; intro a)
    | with_reducible apply kept_ite
    | (with_reducible apply kept_foldl; intro t x ht)
    | (with_reducible apply kept_foldl_snd; intro t x ht)
    | split
    | simp only [kept_mk]
    | (with_reducible refine kept_snd (by assumption) ?_)
    | (with_reducible refine kept_snd2 (by assumption) ?_)
    | dsimp -iota only
    | dsimp only
    | decide
    | intro t l w ht
    | intro t l ht
    | intro t ht

theorem eTakeMfr_kept {s0 : State} (core : Nat) (e : EdgeEng) (n : Nat) : KeptM s0 (eTakeMfr core e n) := by
  unfold eTakeMfr
  repeat' first
    | with_reducible assumption
    | with_reducible apply eCheck_kept
    | with_reducible apply eTake_kept
    | with_reducible_and_instances exact keptM_pure _
    | with_reducible_and_instances exact keptM_throw _
    | with_reducible refine keptM_bind ?_ fun a => ?_
    | (with_reducible apply keptM_ofGot; intro s hs)
    | (with_reducible apply keptM_act; intro s hs)
    | (with_reducible apply keptM_ite)
    | with_reducible exact keptM_unit
    | (with_reducible apply keptM_forIn; intro a)
    | with_reducible apply kept_ite
    | (with_reducible apply kept_foldl; intro t x ht)
    | (with_reducible apply kept_foldl_snd; intro t x ht)
    | split
    | simp only [kept_mk]
    | (with_reducible refine kept_snd (by assumption) ?_)
    | (with_reducible refine kept_snd2 (by assumption) ?_)
    | dsimp -iota only
    | dsimp only
    | decide
    | intro t l w ht
    | intro t l ht
    | intro t ht

theorem takeChunk_kept {s0 : State} (core : Nat) (e : EdgeEng) (c : Nat) : KeptM s0 (takeChunk core e c) := by
  unfold takeChunk
  repeat' first
    | with_reducible assumption
    | with_reducible apply eTest_kept
    | with_reducible apply modEdge_kept
    | with_reducible apply eDegrees_kept
    | with_reducible apply eTakeMfr_kept
    | with_reducible apply nextChunk_kept
    | with_reducible apply fresh_kept
    | with_reducible apply modCl_kept
    | with_reducible_and_instances exact keptM_pure _
    | with_reducible_and_instances exact keptM_throw _
    | with_reducible refine keptM_bind ?_ fun a => ?_
    | (with_reducible apply keptM_ofGot; intro s hs)
    | (with_reducible apply keptM_act; intro s hs)
    | (with_reducible apply keptM_ite)
    | with_reducible exact keptM_unit
    | (with_reducible apply keptM_forIn; intro a)
    | with_reducible apply kept_ite
    | (with_reducible apply kept_foldl; intro t x ht)
    | (with_reducible apply kept_foldl_snd; intro t x ht)
    | split
    | simp only [kept_mk]
    | (with_reducible refine kept_snd (by assumption) ?_)
    | (with_reducible refine kept_snd2 (by assumption) ?_)
    | dsimp -iota only
    | dsimp only
    | decide
    | intro t l w ht
    | intro t l ht
    | intro t ht

theorem execChunkTake_kept {s0 : State} (core : Nat) (s : State) (h0 : Kept s0 s) : KeptO s0 (execChunkTake core s) := by
  unfold execChunkTake
  try dsimp -iota only
  repeat' first
    | with_reducible assumption
    | with_reducible apply nextChunk_kept
    | with_reducible apply engDo_kept
    | with_reducible apply takeChunk_kept
    | with_reducible apply keptO_next
    | with_reducible apply kept_ite
    | (with_reducible apply kept_foldl; intro t x ht)
    | (with_reducible apply kept_foldl_snd; intro t x ht)
    | split
    | simp only [kept_mk]
    | (with_reducible refine kept_snd (by assumption) ?_)
    | (with_reducible refine kept_snd2 (by assumption) ?_)
    | dsimp -iota only
    | dsimp only
    | decide
    | intro t l w ht
    | intro t l ht
    | intro t ht

theorem eLanes_kept {s0 : State} (core : Nat) (ws : List Word) (pull : Bool) (stop : Nat) (fuel : Nat) (n : Nat) (v : Nat) (ed : Option Nat) (fresh : Bool) : KeptM s0 (eLanes core ws pull stop fuel n v ed fresh) := by
  induction fuel generalizing n v ed fresh with
  | zero => first | assumption | (unfold eLanes; assumption) | exact fun _ h => h
  | succ n ih =>
    unfold eLanes
    repeat' first
      | with_reducible assumption
      | with_reducible apply ih
      | with_reducible apply fresh_kept
      | with_reducible apply eBit_kept
      | with_reducible apply ePair_kept
      | with_reducible apply eU32_kept
      | with_reducible_and_instances exact keptM_pure _
      | with_reducible_and_instances exact keptM_throw _
      | with_reducible refine keptM_bind ?_ fun a => ?_
      | (with_reducible apply keptM_ofGot; intro s hs)
      | (with_reducible apply keptM_act; intro s hs)
      | (with_reducible apply keptM_ite)
      | with_reducible exact keptM_unit
      | (with_reducible apply keptM_forIn; intro a)
      | with_reducible apply kept_ite
      | (with_reducible apply kept_foldl; intro t x ht)
      | (with_reducible apply kept_foldl_snd; intro t x ht)
      | split
      | simp only [kept_mk]
      | (with_reducible refine kept_snd (by assumption) ?_)
      | (with_reducible refine kept_snd2 (by assumption) ?_)
      | dsimp -iota only
      | dsimp only
      | decide
      | intro t l w ht
      | intro t l ht
      | intro t ht

theorem eValue_kept {s0 : State} (core : Nat) (base : Word) (v : Nat) : KeptM s0 (eValue core base v) := by
  unfold eValue
  repeat' first
    | with_reducible assumption
    | with_reducible apply eHome_kept
    | with_reducible_and_instances exact keptM_pure _
    | with_reducible_and_instances exact keptM_throw _
    | with_reducible refine keptM_bind ?_ fun a => ?_
    | (with_reducible apply keptM_ofGot; intro s hs)
    | (with_reducible apply keptM_act; intro s hs)
    | (with_reducible apply keptM_ite)
    | with_reducible exact keptM_unit
    | (with_reducible apply keptM_forIn; intro a)
    | with_reducible apply kept_ite
    | (with_reducible apply kept_foldl; intro t x ht)
    | (with_reducible apply kept_foldl_snd; intro t x ht)
    | split
    | simp only [kept_mk]
    | (with_reducible refine kept_snd (by assumption) ?_)
    | (with_reducible refine kept_snd2 (by assumption) ?_)
    | dsimp -iota only
    | dsimp only
    | decide
    | intro t l w ht
    | intro t l ht
    | intro t ht

theorem eLaneVals_kept {s0 : State} (core : Nat) (ws : List Word) (arg2 : List Lane) : KeptM s0 (eLaneVals core ws arg2) := by
  induction arg2 with
  | nil => first | assumption | (unfold eLaneVals; assumption) | exact fun _ h => h
  | cons x xs ih =>
    unfold eLaneVals
    repeat' first
      | with_reducible assumption
      | with_reducible apply ih
      | with_reducible apply eValue_kept
      | with_reducible_and_instances exact keptM_pure _
      | with_reducible_and_instances exact keptM_throw _
      | with_reducible refine keptM_bind ?_ fun a => ?_
      | (with_reducible apply keptM_ofGot; intro s hs)
      | (with_reducible apply keptM_act; intro s hs)
      | (with_reducible apply keptM_ite)
      | with_reducible exact keptM_unit
      | (with_reducible apply keptM_forIn; intro a)
      | with_reducible apply kept_ite
      | (with_reducible apply kept_foldl; intro t x ht)
      | (with_reducible apply kept_foldl_snd; intro t x ht)
      | split
      | simp only [kept_mk]
      | (with_reducible refine kept_snd (by assumption) ?_)
      | (with_reducible refine kept_snd2 (by assumption) ?_)
      | dsimp -iota only
      | dsimp only
      | decide
      | intro t l w ht
      | intro t l ht
      | intro t ht

theorem formBatch_kept {s0 : State} (core : Nat) (e : EdgeEng) (c : Nat) (n : Nat) : KeptM s0 (formBatch core e c n) := by
  unfold formBatch
  repeat' first
    | with_reducible assumption
    | with_reducible apply eLanes_kept
    | with_reducible apply eLaneVals_kept
    | with_reducible apply asks_kept
    | with_reducible apply modEdge_kept
    | with_reducible apply setV_kept
    | with_reducible apply setM_kept
    | with_reducible apply statusFill_kept
    | with_reducible_and_instances exact keptM_pure _
    | with_reducible_and_instances exact keptM_throw _
    | with_reducible refine keptM_bind ?_ fun a => ?_
    | (with_reducible apply keptM_ofGot; intro s hs)
    | (with_reducible apply keptM_act; intro s hs)
    | (with_reducible apply keptM_ite)
    | with_reducible exact keptM_unit
    | (with_reducible apply keptM_forIn; intro a)
    | with_reducible apply kept_ite
    | (with_reducible apply kept_foldl; intro t x ht)
    | (with_reducible apply kept_foldl_snd; intro t x ht)
    | split
    | simp only [kept_mk]
    | (with_reducible refine kept_snd (by assumption) ?_)
    | (with_reducible refine kept_snd2 (by assumption) ?_)
    | dsimp -iota only
    | dsimp only
    | decide
    | intro t l w ht
    | intro t l ht
    | intro t ht

theorem execBatch_kept {s0 : State} (core : Nat) (n : Nat) (s : State) (h0 : Kept s0 s) : KeptO s0 (execBatch core n s) := by
  unfold execBatch
  try dsimp -iota only
  repeat' first
    | with_reducible assumption
    | with_reducible apply engDo_kept
    | with_reducible apply formBatch_kept
    | with_reducible apply keptO_next
    | with_reducible apply kept_ite
    | (with_reducible apply kept_foldl; intro t x ht)
    | (with_reducible apply kept_foldl_snd; intro t x ht)
    | split
    | simp only [kept_mk]
    | (with_reducible refine kept_snd (by assumption) ?_)
    | (with_reducible refine kept_snd2 (by assumption) ?_)
    | dsimp -iota only
    | dsimp only
    | decide
    | intro t l w ht
    | intro t l ht
    | intro t ht

theorem eSetBit_kept {s0 : State} (core : Nat) (map : Word) (off : Word) (d : Nat) (count : Nat → EngM Unit) (hcount : ∀ a0, KeptM s0 (count a0)) : KeptM s0 (eSetBit core map off d count) := by
  unfold eSetBit
  repeat' first
    | with_reducible assumption
    | with_reducible apply hcount
    | with_reducible apply eCheck_kept
    | with_reducible apply asks_kept
    | with_reducible apply eBit_kept
    | with_reducible apply ePair_kept
    | with_reducible apply whole_kept
    | with_reducible apply eAtomic_kept
    | with_reducible_and_instances exact keptM_pure _
    | with_reducible_and_instances exact keptM_throw _
    | with_reducible refine keptM_bind ?_ fun a => ?_
    | (with_reducible apply keptM_ofGot; intro s hs)
    | (with_reducible apply keptM_act; intro s hs)
    | (with_reducible apply keptM_ite)
    | with_reducible exact keptM_unit
    | (with_reducible apply keptM_forIn; intro a)
    | with_reducible apply kept_ite
    | (with_reducible apply kept_foldl; intro t x ht)
    | (with_reducible apply kept_foldl_snd; intro t x ht)
    | split
    | simp only [kept_mk]
    | (with_reducible refine kept_snd (by assumption) ?_)
    | (with_reducible refine kept_snd2 (by assumption) ?_)
    | dsimp -iota only
    | dsimp only
    | decide
    | intro t l w ht
    | intro t l ht
    | intro t ht

theorem eMode_kept {s0 : State} (core : Nat) (fn : Nat) : KeptM s0 (eMode core fn) := by
  unfold eMode
  repeat' first
    | with_reducible assumption
    | with_reducible apply fault_kept
    | with_reducible_and_instances exact keptM_pure _
    | with_reducible_and_instances exact keptM_throw _
    | with_reducible refine keptM_bind ?_ fun a => ?_
    | (with_reducible apply keptM_ofGot; intro s hs)
    | (with_reducible apply keptM_act; intro s hs)
    | (with_reducible apply keptM_ite)
    | with_reducible exact keptM_unit
    | (with_reducible apply keptM_forIn; intro a)
    | with_reducible apply kept_ite
    | (with_reducible apply kept_foldl; intro t x ht)
    | (with_reducible apply kept_foldl_snd; intro t x ht)
    | split
    | simp only [kept_mk]
    | (with_reducible refine kept_snd (by assumption) ?_)
    | (with_reducible refine kept_snd2 (by assumption) ?_)
    | dsimp -iota only
    | dsimp only
    | decide
    | intro t l w ht
    | intro t l ht
    | intro t ht

theorem applyAct_kept {s0 : State} (core : Nat) (e : EdgeEng) (arg2 : EdgeAct) : KeptM s0 (applyAct core e arg2) := by
  unfold applyAct
  repeat' first
    | with_reducible assumption
    | (with_reducible_and_instances refine keptM_bind ?_ fun a => ?_)
    | (exact (keptM_bind (eAtomic_kept _ _ _ _) fun _ => keptM_pure _) _ (by assumption))
    | (with_reducible apply eSetBit_kept; intro n)
    | with_reducible apply eCheck_kept
    | with_reducible apply eMode_kept
    | with_reducible apply eAtomic_kept
    | with_reducible apply redUpdate_kept
    | with_reducible apply noteLines_kept
    | with_reducible apply noteFl_kept
    | with_reducible apply eValue_kept
    | with_reducible apply eSave_kept
    | with_reducible apply eSetBit_kept
    | with_reducible apply modEdge_kept
    | with_reducible apply eTake_kept
    | with_reducible_and_instances exact keptM_pure _
    | with_reducible_and_instances exact keptM_throw _
    | with_reducible refine keptM_bind ?_ fun a => ?_
    | (with_reducible apply keptM_ofGot; intro s hs)
    | (with_reducible apply keptM_act; intro s hs)
    | (with_reducible apply keptM_ite)
    | with_reducible exact keptM_unit
    | (with_reducible apply keptM_forIn; intro a)
    | with_reducible apply kept_ite
    | (with_reducible apply kept_foldl; intro t x ht)
    | (with_reducible apply kept_foldl_snd; intro t x ht)
    | split
    | simp only [kept_mk]
    | (with_reducible refine kept_snd (by assumption) ?_)
    | (with_reducible refine kept_snd2 (by assumption) ?_)
    | dsimp -iota only
    | dsimp only
    | decide
    | intro t l w ht
    | intro t l ht
    | intro t ht

theorem execBatchApply_kept {s0 : State} (core : Nat) (s : State) (h0 : Kept s0 s) : KeptO s0 (execBatchApply core s) := by
  unfold execBatchApply
  try dsimp -iota only
  repeat' first
    | with_reducible assumption
    | refine keptM_bind (applyAct_kept _ _ _) (fun _ => keptM_act fun t ht => ?_)
    | with_reducible apply modEdge_kept
    | with_reducible apply orFlags_kept
    | with_reducible apply engDo_kept
    | with_reducible apply applyAct_kept
    | with_reducible apply keptO_next
    | with_reducible apply kept_ite
    | (with_reducible apply kept_foldl; intro t x ht)
    | (with_reducible apply kept_foldl_snd; intro t x ht)
    | split
    | simp only [kept_mk]
    | (with_reducible refine kept_snd (by assumption) ?_)
    | (with_reducible refine kept_snd2 (by assumption) ?_)
    | dsimp -iota only
    | dsimp only
    | decide
    | intro t l w ht
    | intro t l ht
    | intro t ht

theorem levelTurn_kept {s0 : State} (s : State) (core : Nat) (e : EdgeEng) (pull : Bool) (h0 : Kept s0 s) : Kept s0 (levelTurn s core e pull) := by
  unfold levelTurn
  try dsimp -iota only
  repeat' first
    | with_reducible assumption
    | with_reducible apply modEdge_kept
    | with_reducible apply noteCnt1_kept
    | with_reducible apply endRun_kept
    | with_reducible apply startPhase_kept
    | with_reducible apply kept_ite
    | (with_reducible apply kept_foldl; intro t x ht)
    | (with_reducible apply kept_foldl_snd; intro t x ht)
    | split
    | simp only [kept_mk]
    | (with_reducible refine kept_snd (by assumption) ?_)
    | (with_reducible refine kept_snd2 (by assumption) ?_)
    | dsimp -iota only
    | dsimp only
    | decide
    | intro t l w ht
    | intro t l ht
    | intro t ht

theorem endLevel_kept {s0 : State} (core : Nat) (e : EdgeEng) : KeptM s0 (endLevel core e) := by
  unfold endLevel
  repeat' first
    | with_reducible assumption
    | with_reducible apply mergeCores_kept
    | with_reducible apply eCheck_kept
    | with_reducible apply eSave_kept
    | with_reducible apply eClear_kept
    | with_reducible apply eCnt0_kept
    | with_reducible apply eSwap_kept
    | with_reducible apply levelTurn_kept
    | with_reducible_and_instances exact keptM_pure _
    | with_reducible_and_instances exact keptM_throw _
    | with_reducible refine keptM_bind ?_ fun a => ?_
    | (with_reducible apply keptM_ofGot; intro s hs)
    | (with_reducible apply keptM_act; intro s hs)
    | (with_reducible apply keptM_ite)
    | with_reducible exact keptM_unit
    | (with_reducible apply keptM_forIn; intro a)
    | with_reducible apply kept_ite
    | (with_reducible apply kept_foldl; intro t x ht)
    | (with_reducible apply kept_foldl_snd; intro t x ht)
    | split
    | simp only [kept_mk]
    | (with_reducible refine kept_snd (by assumption) ?_)
    | (with_reducible refine kept_snd2 (by assumption) ?_)
    | dsimp -iota only
    | dsimp only
    | decide
    | intro t l w ht
    | intro t l ht
    | intro t ht

theorem execLevelEnd_kept {s0 : State} (core : Nat) (s : State) (h0 : Kept s0 s) : KeptO s0 (execLevelEnd core s) := by
  unfold execLevelEnd
  try dsimp -iota only
  repeat' first
    | with_reducible assumption
    | with_reducible apply endRun_kept
    | with_reducible apply engDo_kept
    | with_reducible apply endLevel_kept
    | with_reducible apply modEdge_kept
    | with_reducible apply keptO_next
    | with_reducible apply kept_ite
    | (with_reducible apply kept_foldl; intro t x ht)
    | (with_reducible apply kept_foldl_snd; intro t x ht)
    | split
    | simp only [kept_mk]
    | (with_reducible refine kept_snd (by assumption) ?_)
    | (with_reducible refine kept_snd2 (by assumption) ?_)
    | dsimp -iota only
    | dsimp only
    | decide
    | intro t l w ht
    | intro t l ht
    | intro t ht

theorem dropPush_kept {s0 : State} (s : State) (core : Nat) (h0 : Kept s0 s) : Kept s0 (dropPush s core) := by
  unfold dropPush
  try dsimp -iota only
  repeat' first
    | with_reducible assumption
    | with_reducible apply modCore_kept
    | with_reducible apply kept_ite
    | (with_reducible apply kept_foldl; intro t x ht)
    | (with_reducible apply kept_foldl_snd; intro t x ht)
    | split
    | simp only [kept_mk]
    | (with_reducible refine kept_snd (by assumption) ?_)
    | (with_reducible refine kept_snd2 (by assumption) ?_)
    | dsimp -iota only
    | dsimp only
    | decide
    | intro t l w ht
    | intro t l ht
    | intro t ht

theorem midSwitch_kept {s0 : State} (core : Nat) (e : EdgeEng) : KeptM s0 (midSwitch core e) := by
  unfold midSwitch
  repeat' first
    | with_reducible assumption
    | with_reducible apply dropPush_kept
    | with_reducible apply mergeCores_kept
    | with_reducible apply eCheck_kept
    | with_reducible apply eSwap_kept
    | with_reducible apply startPhase_kept
    | with_reducible apply noteCnt1_kept
    | with_reducible_and_instances exact keptM_pure _
    | with_reducible_and_instances exact keptM_throw _
    | with_reducible refine keptM_bind ?_ fun a => ?_
    | (with_reducible apply keptM_ofGot; intro s hs)
    | (with_reducible apply keptM_act; intro s hs)
    | (with_reducible apply keptM_ite)
    | with_reducible exact keptM_unit
    | (with_reducible apply keptM_forIn; intro a)
    | with_reducible apply kept_ite
    | (with_reducible apply kept_foldl; intro t x ht)
    | (with_reducible apply kept_foldl_snd; intro t x ht)
    | split
    | simp only [kept_mk]
    | (with_reducible refine kept_snd (by assumption) ?_)
    | (with_reducible refine kept_snd2 (by assumption) ?_)
    | dsimp -iota only
    | dsimp only
    | decide
    | intro t l w ht
    | intro t l ht
    | intro t ht

theorem execMidLevelSwitch_kept {s0 : State} (core : Nat) (s : State) (h0 : Kept s0 s) : KeptO s0 (execMidLevelSwitch core s) := by
  unfold execMidLevelSwitch
  try dsimp -iota only
  repeat' first
    | with_reducible assumption
    | with_reducible apply engDo_kept
    | with_reducible apply midSwitch_kept
    | with_reducible apply keptO_next
    | with_reducible apply kept_ite
    | (with_reducible apply kept_foldl; intro t x ht)
    | (with_reducible apply kept_foldl_snd; intro t x ht)
    | split
    | simp only [kept_mk]
    | (with_reducible refine kept_snd (by assumption) ?_)
    | (with_reducible refine kept_snd2 (by assumption) ?_)
    | dsimp -iota only
    | dsimp only
    | decide
    | intro t l w ht
    | intro t l ht
    | intro t ht

end Sys2Proof.Machine
end

