-- ==== Sys2Proof/Laws/KeptSystem.lean ====
section
/-! SUPPORT. The operations of Machine/System.lean keep canonical memory and legal control blocks (Kept.lean). -/

namespace Sys2Proof.Machine

set_option linter.all false

theorem execSysNop_kept {s0 : State} (s : State) (h0 : Kept s0 s) : KeptO s0 (execSysNop s) := by
  unfold execSysNop
  try dsimp -iota only
  repeat' first
    | with_reducible assumption
    | with_reducible apply retire_kept
    | with_reducible apply keptO_next
    | with_reducible apply kept_ite
    | (with_reducible apply kept_foldl; intro t x ht)
    | (with_reducible apply kept_foldl_snd; intro t x ht)
    | split
    | simp only [kept_mk]
    | (with_reducible refine kept_snd (by assumption) ?_)
    | (with_reducible refine kept_snd2 (by assumption) ?_)
    | dsimp -iota only
    | dsimp only
    | decide
    | intro t l w ht
    | intro t l ht
    | intro t ht

theorem execSysTrap_kept {s0 : State} (code : BitVec 12) (s : State) (h0 : Kept s0 s) : KeptO s0 (execSysTrap code s) := by
  unfold execSysTrap
  try dsimp -iota only
  repeat' first
    | with_reducible assumption
    | with_reducible apply raise_kept
    | with_reducible apply keptO_next
    | with_reducible apply kept_ite
    | (with_reducible apply kept_foldl; intro t x ht)
    | (with_reducible apply kept_foldl_snd; intro t x ht)
    | split
    | simp only [kept_mk]
    | (with_reducible refine kept_snd (by assumption) ?_)
    | (with_reducible refine kept_snd2 (by assumption) ?_)
    | dsimp -iota only
    | dsimp only
    | decide
    | intro t l w ht
    | intro t l ht
    | intro t ht

theorem execSysBkpt_kept {s0 : State} (code : BitVec 12) (s : State) (h0 : Kept s0 s) : KeptO s0 (execSysBkpt code s) := by
  unfold execSysBkpt
  try dsimp -iota only
  repeat' first
    | with_reducible assumption
    | with_reducible apply raise_kept
    | with_reducible apply keptO_next
    | with_reducible apply kept_ite
    | (with_reducible apply kept_foldl; intro t x ht)
    | (with_reducible apply kept_foldl_snd; intro t x ht)
    | split
    | simp only [kept_mk]
    | (with_reducible refine kept_snd (by assumption) ?_)
    | (with_reducible refine kept_snd2 (by assumption) ?_)
    | dsimp -iota only
    | dsimp only
    | decide
    | intro t l w ht
    | intro t l ht
    | intro t ht

theorem execSysUret_kept {s0 : State} (s : State) (h0 : Kept s0 s) : KeptO s0 (execSysUret s) := by
  unfold execSysUret
  try dsimp -iota only
  repeat' first
    | with_reducible assumption
    | with_reducible apply makeStopped_kept
    | with_reducible apply modCore_kept
    | with_reducible apply retire_kept
    | with_reducible apply ill_kept
    | with_reducible apply keptO_next
    | with_reducible apply kept_ite
    | (with_reducible apply kept_foldl; intro t x ht)
    | (with_reducible apply kept_foldl_snd; intro t x ht)
    | split
    | simp only [kept_mk]
    | (with_reducible refine kept_snd (by assumption) ?_)
    | (with_reducible refine kept_snd2 (by assumption) ?_)
    | dsimp -iota only
    | dsimp only
    | decide
    | intro t l w ht
    | intro t l ht
    | intro t ht

theorem execSysHalt_kept {s0 : State} (s : State) (h0 : Kept s0 s) : KeptO s0 (execSysHalt s) := by
  unfold execSysHalt
  try dsimp -iota only
  repeat' first
    | with_reducible assumption
    | with_reducible apply privGate_kept
    | with_reducible refine modRow_kept ?_ _ _ ?_
    | with_reducible apply makeStopped_kept
    | with_reducible apply retire_kept
    | with_reducible apply keptO_next
    | with_reducible apply kept_ite
    | (with_reducible apply kept_foldl; intro t x ht)
    | (with_reducible apply kept_foldl_snd; intro t x ht)
    | split
    | simp only [kept_mk]
    | (with_reducible refine kept_snd (by assumption) ?_)
    | (with_reducible refine kept_snd2 (by assumption) ?_)
    | dsimp -iota only
    | dsimp only
    | decide
    | (intro w hw; (try dsimp only); (repeat' split); all_goals first | with_reducible assumption | with_reducible exact rowOk_congr hw rfl rfl rfl rfl rfl rfl | (obtain ⟨h1, h2, h3, h4, h5⟩ := hw; refine ⟨?_, ?_, ?_, ?_, ?_⟩ <;> (try dsimp only) <;> first | with_reducible assumption | with_reducible exact even_mask _ | with_reducible exact even_256 _ | with_reducible exact flags_mask _ | with_reducible exact flags_or _ h5 | with_reducible exact .inl rfl | (simp; done)))
    | intro t l w ht
    | intro t l ht
    | intro t ht

theorem execSysSysr_kept {s0 : State} (num : BitVec 12) (d : Reg) (s : State) (h0 : Kept s0 s) : KeptO s0 (execSysSysr num d s) := by
  unfold execSysSysr
  try dsimp -iota only
  repeat' first
    | with_reducible assumption
    | with_reducible apply retX_kept
    | with_reducible apply keptO_next
    | with_reducible apply kept_ite
    | (with_reducible apply kept_foldl; intro t x ht)
    | (with_reducible apply kept_foldl_snd; intro t x ht)
    | split
    | simp only [kept_mk]
    | (with_reducible refine kept_snd (by assumption) ?_)
    | (with_reducible refine kept_snd2 (by assumption) ?_)
    | dsimp -iota only
    | dsimp only
    | decide
    | intro t l w ht
    | intro t l ht
    | intro t ht

theorem execSysSysw_kept {s0 : State} (num : BitVec 12) (d : Reg) (s : State) (h0 : Kept s0 s) : KeptO s0 (execSysSysw num d s) := by
  unfold execSysSysw
  try dsimp -iota only
  repeat' first
    | with_reducible assumption
    | with_reducible apply gate_kept
    | with_reducible apply sysWrite_kept
    | with_reducible apply retire_kept
    | with_reducible apply keptO_next
    | with_reducible apply kept_ite
    | (with_reducible apply kept_foldl; intro t x ht)
    | (with_reducible apply kept_foldl_snd; intro t x ht)
    | split
    | simp only [kept_mk]
    | (with_reducible refine kept_snd (by assumption) ?_)
    | (with_reducible refine kept_snd2 (by assumption) ?_)
    | dsimp -iota only
    | dsimp only
    | decide
    | intro t l w ht
    | intro t l ht
    | intro t ht

theorem shootFlush_kept {s0 : State} (s : State) (x : Shoot) (h0 : Kept s0 s) : Kept s0 (shootFlush s x) := by
  unfold shootFlush
  try dsimp -iota only
  repeat' first
    | with_reducible assumption
    | with_reducible apply flushWhere_kept
    | with_reducible apply kept_ite
    | (with_reducible apply kept_foldl; intro t x ht)
    | (with_reducible apply kept_foldl_snd; intro t x ht)
    | split
    | simp only [kept_mk]
    | (with_reducible refine kept_snd (by assumption) ?_)
    | (with_reducible refine kept_snd2 (by assumption) ?_)
    | dsimp -iota only
    | dsimp only
    | decide
    | intro t l w ht
    | intro t l ht
    | intro t ht

theorem shootStart_kept {s0 : State} (s : State) (r : RowId) (x : Shoot) (h0 : Kept s0 s) : Kept s0 (shootStart s r x) := by
  unfold shootStart
  try dsimp -iota only
  repeat' first
    | with_reducible assumption
    | with_reducible apply shootFlush_kept
    | with_reducible apply mergeCores_kept
    | with_reducible apply kept_ite
    | (with_reducible apply kept_foldl; intro t x ht)
    | (with_reducible apply kept_foldl_snd; intro t x ht)
    | split
    | simp only [kept_mk]
    | (with_reducible refine kept_snd (by assumption) ?_)
    | (with_reducible refine kept_snd2 (by assumption) ?_)
    | dsimp -iota only
    | dsimp only
    | decide
    | intro t l w ht
    | intro t l ht
    | intro t ht

theorem shootEnd_kept {s0 : State} (s : State) (x : Shoot) (h0 : Kept s0 s) : Kept s0 (shootEnd s x) := by
  unfold shootEnd
  try dsimp -iota only
  repeat' first
    | with_reducible assumption
    | with_reducible apply shootFlush_kept
    | with_reducible apply kept_ite
    | (with_reducible apply kept_foldl; intro t x ht)
    | (with_reducible apply kept_foldl_snd; intro t x ht)
    | split
    | simp only [kept_mk]
    | (with_reducible refine kept_snd (by assumption) ?_)
    | (with_reducible refine kept_snd2 (by assumption) ?_)
    | dsimp -iota only
    | dsimp only
    | decide
    | intro t l w ht
    | intro t l ht
    | intro t ht

theorem execSysShoot_kept {s0 : State} (dp : BitVec 4) (s : State) (h0 : Kept s0 s) : KeptO s0 (execSysShoot dp s) := by
  unfold execSysShoot
  try dsimp -iota only
  repeat' first
    | with_reducible assumption
    | with_reducible apply privGate_kept
    | with_reducible apply gate_kept
    | with_reducible apply ill_kept
    | with_reducible apply raise_kept
    | with_reducible refine modRow_kept ?_ _ _ ?_
    | with_reducible apply shootStart_kept
    | with_reducible apply retire_kept
    | with_reducible apply shootEnd_kept
    | with_reducible apply keptO_next
    | with_reducible apply kept_ite
    | (with_reducible apply kept_foldl; intro t x ht)
    | (with_reducible apply kept_foldl_snd; intro t x ht)
    | split
    | simp only [kept_mk]
    | (with_reducible refine kept_snd (by assumption) ?_)
    | (with_reducible refine kept_snd2 (by assumption) ?_)
    | dsimp -iota only
    | dsimp only
    | decide
    | (intro w hw; (try dsimp only); (repeat' split); all_goals first | with_reducible assumption | with_reducible exact rowOk_congr hw rfl rfl rfl rfl rfl rfl | (obtain ⟨h1, h2, h3, h4, h5⟩ := hw; refine ⟨?_, ?_, ?_, ?_, ?_⟩ <;> (try dsimp only) <;> first | with_reducible assumption | with_reducible exact even_mask _ | with_reducible exact even_256 _ | with_reducible exact flags_mask _ | with_reducible exact flags_or _ h5 | with_reducible exact .inl rfl | (simp; done)))
    | intro t l w ht
    | intro t l ht
    | intro t ht

theorem retStatus_kept {s0 : State} (s : State) (r : RowId) (d : Reg) (v : Nat) (h0 : Kept s0 s) : Kept s0 (retStatus s r d v) := by
  unfold retStatus
  try dsimp -iota only
  repeat' first
    | with_reducible assumption
    | with_reducible apply retX_kept
    | with_reducible apply kept_ite
    | (with_reducible apply kept_foldl; intro t x ht)
    | (with_reducible apply kept_foldl_snd; intro t x ht)
    | split
    | simp only [kept_mk]
    | (with_reducible refine kept_snd (by assumption) ?_)
    | (with_reducible refine kept_snd2 (by assumption) ?_)
    | dsimp -iota only
    | dsimp only
    | decide
    | intro t l w ht
    | intro t l ht
    | intro t ht

theorem beginWait_kept {s0 : State} (s : State) (r : RowId) (p : Nat) (f : Partn → Partn) (h0 : Kept s0 s) : Kept s0 (beginWait s r p f) := by
  unfold beginWait
  try dsimp -iota only
  repeat' first
    | with_reducible assumption
    | with_reducible refine modRow_kept ?_ _ _ ?_
    | with_reducible apply modPart_kept
    | with_reducible apply kept_ite
    | (with_reducible apply kept_foldl; intro t x ht)
    | (with_reducible apply kept_foldl_snd; intro t x ht)
    | split
    | simp only [kept_mk]
    | (with_reducible refine kept_snd (by assumption) ?_)
    | (with_reducible refine kept_snd2 (by assumption) ?_)
    | dsimp -iota only
    | dsimp only
    | decide
    | (intro w hw; (try dsimp only); (repeat' split); all_goals first | with_reducible assumption | with_reducible exact rowOk_congr hw rfl rfl rfl rfl rfl rfl | (obtain ⟨h1, h2, h3, h4, h5⟩ := hw; refine ⟨?_, ?_, ?_, ?_, ?_⟩ <;> (try dsimp only) <;> first | with_reducible assumption | with_reducible exact even_mask _ | with_reducible exact even_256 _ | with_reducible exact flags_mask _ | with_reducible exact flags_or _ h5 | with_reducible exact .inl rfl | (simp; done)))
    | intro t l w ht
    | intro t l ht
    | intro t ht

theorem execSysGang_kept {s0 : State} (d : Reg) (s : State) (h0 : Kept s0 s) : KeptO s0 (execSysGang d s) := by
  unfold execSysGang
  try dsimp -iota only
  repeat' first
    | with_reducible assumption
    | with_reducible apply privGate_kept
    | with_reducible apply gate_kept
    | with_reducible apply retStatus_kept
    | with_reducible apply beginWait_kept
    | with_reducible apply keptO_next
    | with_reducible apply kept_ite
    | (with_reducible apply kept_foldl; intro t x ht)
    | (with_reducible apply kept_foldl_snd; intro t x ht)
    | split
    | simp only [kept_mk]
    | (with_reducible refine kept_snd (by assumption) ?_)
    | (with_reducible refine kept_snd2 (by assumption) ?_)
    | dsimp -iota only
    | dsimp only
    | decide
    | intro t l w ht
    | intro t l ht
    | intro t ht

theorem execSysSwap_kept {s0 : State} (d : Reg) (s : State) (h0 : Kept s0 s) : KeptO s0 (execSysSwap d s) := by
  unfold execSysSwap
  try dsimp -iota only
  repeat' first
    | with_reducible assumption
    | with_reducible apply privGate_kept
    | with_reducible apply gate_kept
    | with_reducible apply retStatus_kept
    | with_reducible apply beginWait_kept
    | with_reducible apply keptO_next
    | with_reducible apply kept_ite
    | (with_reducible apply kept_foldl; intro t x ht)
    | (with_reducible apply kept_foldl_snd; intro t x ht)
    | split
    | simp only [kept_mk]
    | (with_reducible refine kept_snd (by assumption) ?_)
    | (with_reducible refine kept_snd2 (by assumption) ?_)
    | dsimp -iota only
    | dsimp only
    | decide
    | intro t l w ht
    | intro t l ht
    | intro t ht

theorem half2_kept {s0 : State} (s : State) (a : Reg) (d : Reg) (f : Word → Word → Word) (h0 : Kept s0 s) : Kept s0 (half2 s a d f) := by
  unfold half2
  try dsimp -iota only
  repeat' first
    | with_reducible assumption
    | with_reducible apply gate_kept
    | with_reducible apply retX_kept
    | with_reducible apply kept_ite
    | (with_reducible apply kept_foldl; intro t x ht)
    | (with_reducible apply kept_foldl_snd; intro t x ht)
    | split
    | simp only [kept_mk]
    | (with_reducible refine kept_snd (by assumption) ?_)
    | (with_reducible refine kept_snd2 (by assumption) ?_)
    | dsimp -iota only
    | dsimp only
    | decide
    | intro t l w ht
    | intro t l ht
    | intro t ht

theorem half1_kept {s0 : State} (s : State) (d : Reg) (f : Word → Word) (h0 : Kept s0 s) : Kept s0 (half1 s d f) := by
  unfold half1
  try dsimp -iota only
  repeat' first
    | with_reducible assumption
    | with_reducible apply gate_kept
    | with_reducible apply retX_kept
    | with_reducible apply kept_ite
    | (with_reducible apply kept_foldl; intro t x ht)
    | (with_reducible apply kept_foldl_snd; intro t x ht)
    | split
    | simp only [kept_mk]
    | (with_reducible refine kept_snd (by assumption) ?_)
    | (with_reducible refine kept_snd2 (by assumption) ?_)
    | dsimp -iota only
    | dsimp only
    | decide
    | intro t l w ht
    | intro t l ht
    | intro t ht

theorem execHMov_kept {s0 : State} (a : Reg) (d : Reg) (s : State) (h0 : Kept s0 s) : KeptO s0 (execHMov a d s) := by
  unfold execHMov
  try dsimp -iota only
  repeat' first
    | with_reducible assumption
    | with_reducible apply gate_kept
    | with_reducible apply retX_kept
    | with_reducible apply keptO_next
    | with_reducible apply kept_ite
    | (with_reducible apply kept_foldl; intro t x ht)
    | (with_reducible apply kept_foldl_snd; intro t x ht)
    | split
    | simp only [kept_mk]
    | (with_reducible refine kept_snd (by assumption) ?_)
    | (with_reducible refine kept_snd2 (by assumption) ?_)
    | dsimp -iota only
    | dsimp only
    | decide
    | intro t l w ht
    | intro t l ht
    | intro t ht

theorem execHAdd_kept {s0 : State} (a : Reg) (d : Reg) (s : State) (h0 : Kept s0 s) : KeptO s0 (execHAdd a d s) := by
  unfold execHAdd
  try dsimp -iota only
  repeat' first
    | with_reducible assumption
    | with_reducible apply half2_kept
    | with_reducible apply keptO_next
    | with_reducible apply kept_ite
    | (with_reducible apply kept_foldl; intro t x ht)
    | (with_reducible apply kept_foldl_snd; intro t x ht)
    | split
    | simp only [kept_mk]
    | (with_reducible refine kept_snd (by assumption) ?_)
    | (with_reducible refine kept_snd2 (by assumption) ?_)
    | dsimp -iota only
    | dsimp only
    | decide
    | intro t l w ht
    | intro t l ht
    | intro t ht

theorem execHSub_kept {s0 : State} (a : Reg) (d : Reg) (s : State) (h0 : Kept s0 s) : KeptO s0 (execHSub a d s) := by
  unfold execHSub
  try dsimp -iota only
  repeat' first
    | with_reducible assumption
    | with_reducible apply half2_kept
    | with_reducible apply keptO_next
    | with_reducible apply kept_ite
    | (with_reducible apply kept_foldl; intro t x ht)
    | (with_reducible apply kept_foldl_snd; intro t x ht)
    | split
    | simp only [kept_mk]
    | (with_reducible refine kept_snd (by assumption) ?_)
    | (with_reducible refine kept_snd2 (by assumption) ?_)
    | dsimp -iota only
    | dsimp only
    | decide
    | intro t l w ht
    | intro t l ht
    | intro t ht

theorem execHAnd_kept {s0 : State} (a : Reg) (d : Reg) (s : State) (h0 : Kept s0 s) : KeptO s0 (execHAnd a d s) := by
  unfold execHAnd
  try dsimp -iota only
  repeat' first
    | with_reducible assumption
    | with_reducible apply half2_kept
    | with_reducible apply keptO_next
    | with_reducible apply kept_ite
    | (with_reducible apply kept_foldl; intro t x ht)
    | (with_reducible apply kept_foldl_snd; intro t x ht)
    | split
    | simp only [kept_mk]
    | (with_reducible refine kept_snd (by assumption) ?_)
    | (with_reducible refine kept_snd2 (by assumption) ?_)
    | dsimp -iota only
    | dsimp only
    | decide
    | intro t l w ht
    | intro t l ht
    | intro t ht

theorem execHOr_kept {s0 : State} (a : Reg) (d : Reg) (s : State) (h0 : Kept s0 s) : KeptO s0 (execHOr a d s) := by
  unfold execHOr
  try dsimp -iota only
  repeat' first
    | with_reducible assumption
    | with_reducible apply half2_kept
    | with_reducible apply keptO_next
    | with_reducible apply kept_ite
    | (with_reducible apply kept_foldl; intro t x ht)
    | (with_reducible apply kept_foldl_snd; intro t x ht)
    | split
    | simp only [kept_mk]
    | (with_reducible refine kept_snd (by assumption) ?_)
    | (with_reducible refine kept_snd2 (by assumption) ?_)
    | dsimp -iota only
    | dsimp only
    | decide
    | intro t l w ht
    | intro t l ht
    | intro t ht

theorem execHXor_kept {s0 : State} (a : Reg) (d : Reg) (s : State) (h0 : Kept s0 s) : KeptO s0 (execHXor a d s) := by
  unfold execHXor
  try dsimp -iota only
  repeat' first
    | with_reducible assumption
    | with_reducible apply half2_kept
    | with_reducible apply keptO_next
    | with_reducible apply kept_ite
    | (with_reducible apply kept_foldl; intro t x ht)
    | (with_reducible apply kept_foldl_snd; intro t x ht)
    | split
    | simp only [kept_mk]
    | (with_reducible refine kept_snd (by assumption) ?_)
    | (with_reducible refine kept_snd2 (by assumption) ?_)
    | dsimp -iota only
    | dsimp only
    | decide
    | intro t l w ht
    | intro t l ht
    | intro t ht

theorem execHLt_kept {s0 : State} (a : Reg) (d : Reg) (s : State) (h0 : Kept s0 s) : KeptO s0 (execHLt a d s) := by
  unfold execHLt
  try dsimp -iota only
  repeat' first
    | with_reducible assumption
    | with_reducible apply half2_kept
    | with_reducible apply keptO_next
    | with_reducible apply kept_ite
    | (with_reducible apply kept_foldl; intro t x ht)
    | (with_reducible apply kept_foldl_snd; intro t x ht)
    | split
    | simp only [kept_mk]
    | (with_reducible refine kept_snd (by assumption) ?_)
    | (with_reducible refine kept_snd2 (by assumption) ?_)
    | dsimp -iota only
    | dsimp only
    | decide
    | intro t l w ht
    | intro t l ht
    | intro t ht

theorem execHAddi5_kept {s0 : State} (imm : BitVec 5) (d : Reg) (s : State) (h0 : Kept s0 s) : KeptO s0 (execHAddi5 imm d s) := by
  unfold execHAddi5
  try dsimp -iota only
  repeat' first
    | with_reducible assumption
    | with_reducible apply half1_kept
    | with_reducible apply keptO_next
    | with_reducible apply kept_ite
    | (with_reducible apply kept_foldl; intro t x ht)
    | (with_reducible apply kept_foldl_snd; intro t x ht)
    | split
    | simp only [kept_mk]
    | (with_reducible refine kept_snd (by assumption) ?_)
    | (with_reducible refine kept_snd2 (by assumption) ?_)
    | dsimp -iota only
    | dsimp only
    | decide
    | intro t l w ht
    | intro t l ht
    | intro t ht

theorem execHShli_kept {s0 : State} (imm : BitVec 5) (d : Reg) (s : State) (h0 : Kept s0 s) : KeptO s0 (execHShli imm d s) := by
  unfold execHShli
  try dsimp -iota only
  repeat' first
    | with_reducible assumption
    | with_reducible apply half1_kept
    | with_reducible apply keptO_next
    | with_reducible apply kept_ite
    | (with_reducible apply kept_foldl; intro t x ht)
    | (with_reducible apply kept_foldl_snd; intro t x ht)
    | split
    | simp only [kept_mk]
    | (with_reducible refine kept_snd (by assumption) ?_)
    | (with_reducible refine kept_snd2 (by assumption) ?_)
    | dsimp -iota only
    | dsimp only
    | decide
    | intro t l w ht
    | intro t l ht
    | intro t ht

theorem execHShri_kept {s0 : State} (imm : BitVec 5) (d : Reg) (s : State) (h0 : Kept s0 s) : KeptO s0 (execHShri imm d s) := by
  unfold execHShri
  try dsimp -iota only
  repeat' first
    | with_reducible assumption
    | with_reducible apply half1_kept
    | with_reducible apply keptO_next
    | with_reducible apply kept_ite
    | (with_reducible apply kept_foldl; intro t x ht)
    | (with_reducible apply kept_foldl_snd; intro t x ht)
    | split
    | simp only [kept_mk]
    | (with_reducible refine kept_snd (by assumption) ?_)
    | (with_reducible refine kept_snd2 (by assumption) ?_)
    | dsimp -iota only
    | dsimp only
    | decide
    | intro t l w ht
    | intro t l ht
    | intro t ht

theorem execHLdi5_kept {s0 : State} (imm : BitVec 5) (d : Reg) (s : State) (h0 : Kept s0 s) : KeptO s0 (execHLdi5 imm d s) := by
  unfold execHLdi5
  try dsimp -iota only
  repeat' first
    | with_reducible assumption
    | with_reducible apply retX_kept
    | with_reducible apply keptO_next
    | with_reducible apply kept_ite
    | (with_reducible apply kept_foldl; intro t x ht)
    | (with_reducible apply kept_foldl_snd; intro t x ht)
    | split
    | simp only [kept_mk]
    | (with_reducible refine kept_snd (by assumption) ?_)
    | (with_reducible refine kept_snd2 (by assumption) ?_)
    | dsimp -iota only
    | dsimp only
    | decide
    | intro t l w ht
    | intro t l ht
    | intro t ht

theorem halfLoad_kept {s0 : State} (s : State) (n : Nat) (a : Reg) (d : Reg) (h0 : Kept s0 s) : Kept s0 (halfLoad s n a d) := by
  unfold halfLoad
  try dsimp -iota only
  repeat' first
    | with_reducible assumption
    | with_reducible apply holdGate_kept
    | with_reducible apply gate_kept
    | with_reducible apply load_kept
    | with_reducible apply kept_ite
    | (with_reducible apply kept_foldl; intro t x ht)
    | (with_reducible apply kept_foldl_snd; intro t x ht)
    | split
    | simp only [kept_mk]
    | (with_reducible refine kept_snd (by assumption) ?_)
    | (with_reducible refine kept_snd2 (by assumption) ?_)
    | dsimp -iota only
    | dsimp only
    | decide
    | intro t l w ht
    | intro t l ht
    | intro t ht

theorem halfStore_kept {s0 : State} (s : State) (n : Nat) (a : Reg) (d : Reg) (h0 : Kept s0 s) : Kept s0 (halfStore s n a d) := by
  unfold halfStore
  try dsimp -iota only
  repeat' first
    | with_reducible assumption
    | with_reducible apply holdGate_kept
    | with_reducible apply gate_kept
    | with_reducible apply store_kept
    | with_reducible apply kept_ite
    | (with_reducible apply kept_foldl; intro t x ht)
    | (with_reducible apply kept_foldl_snd; intro t x ht)
    | split
    | simp only [kept_mk]
    | (with_reducible refine kept_snd (by assumption) ?_)
    | (with_reducible refine kept_snd2 (by assumption) ?_)
    | dsimp -iota only
    | dsimp only
    | decide
    | intro t l w ht
    | intro t l ht
    | intro t ht

theorem execHLd64_kept {s0 : State} (a : Reg) (d : Reg) (s : State) (h0 : Kept s0 s) : KeptO s0 (execHLd64 a d s) := by
  unfold execHLd64
  try dsimp -iota only
  repeat' first
    | with_reducible assumption
    | with_reducible apply halfLoad_kept
    | with_reducible apply keptO_next
    | with_reducible apply kept_ite
    | (with_reducible apply kept_foldl; intro t x ht)
    | (with_reducible apply kept_foldl_snd; intro t x ht)
    | split
    | simp only [kept_mk]
    | (with_reducible refine kept_snd (by assumption) ?_)
    | (with_reducible refine kept_snd2 (by assumption) ?_)
    | dsimp -iota only
    | dsimp only
    | decide
    | intro t l w ht
    | intro t l ht
    | intro t ht

theorem execHLd32_kept {s0 : State} (a : Reg) (d : Reg) (s : State) (h0 : Kept s0 s) : KeptO s0 (execHLd32 a d s) := by
  unfold execHLd32
  try dsimp -iota only
  repeat' first
    | with_reducible assumption
    | with_reducible apply halfLoad_kept
    | with_reducible apply keptO_next
    | with_reducible apply kept_ite
    | (with_reducible apply kept_foldl; intro t x ht)
    | (with_reducible apply kept_foldl_snd; intro t x ht)
    | split
    | simp only [kept_mk]
    | (with_reducible refine kept_snd (by assumption) ?_)
    | (with_reducible refine kept_snd2 (by assumption) ?_)
    | dsimp -iota only
    | dsimp only
    | decide
    | intro t l w ht
    | intro t l ht
    | intro t ht

theorem execHSt64_kept {s0 : State} (a : Reg) (d : Reg) (s : State) (h0 : Kept s0 s) : KeptO s0 (execHSt64 a d s) := by
  unfold execHSt64
  try dsimp -iota only
  repeat' first
    | with_reducible assumption
    | with_reducible apply halfStore_kept
    | with_reducible apply keptO_next
    | with_reducible apply kept_ite
    | (with_reducible apply kept_foldl; intro t x ht)
    | (with_reducible apply kept_foldl_snd; intro t x ht)
    | split
    | simp only [kept_mk]
    | (with_reducible refine kept_snd (by assumption) ?_)
    | (with_reducible refine kept_snd2 (by assumption) ?_)
    | dsimp -iota only
    | dsimp only
    | decide
    | intro t l w ht
    | intro t l ht
    | intro t ht

theorem execHSt32_kept {s0 : State} (a : Reg) (d : Reg) (s : State) (h0 : Kept s0 s) : KeptO s0 (execHSt32 a d s) := by
  unfold execHSt32
  try dsimp -iota only
  repeat' first
    | with_reducible assumption
    | with_reducible apply halfStore_kept
    | with_reducible apply keptO_next
    | with_reducible apply kept_ite
    | (with_reducible apply kept_foldl; intro t x ht)
    | (with_reducible apply kept_foldl_snd; intro t x ht)
    | split
    | simp only [kept_mk]
    | (with_reducible refine kept_snd (by assumption) ?_)
    | (with_reducible refine kept_snd2 (by assumption) ?_)
    | dsimp -iota only
    | dsimp only
    | decide
    | intro t l w ht
    | intro t l ht
    | intro t ht

theorem halfBranch_kept {s0 : State} (s : State) (imm : BitVec 5) (d : Reg) (f : Word → Bool) (h0 : Kept s0 s) : Kept s0 (halfBranch s imm d f) := by
  unfold halfBranch
  try dsimp -iota only
  repeat' first
    | with_reducible assumption
    | with_reducible apply gate_kept
    | with_reducible apply retireTo_kept
    | with_reducible apply retire_kept
    | with_reducible apply kept_ite
    | (with_reducible apply kept_foldl; intro t x ht)
    | (with_reducible apply kept_foldl_snd; intro t x ht)
    | split
    | simp only [kept_mk]
    | (with_reducible refine kept_snd (by assumption) ?_)
    | (with_reducible refine kept_snd2 (by assumption) ?_)
    | dsimp -iota only
    | dsimp only
    | decide
    | intro t l w ht
    | intro t l ht
    | intro t ht

theorem execHBeqz_kept {s0 : State} (imm : BitVec 5) (d : Reg) (s : State) (h0 : Kept s0 s) : KeptO s0 (execHBeqz imm d s) := by
  unfold execHBeqz
  try dsimp -iota only
  repeat' first
    | with_reducible assumption
    | with_reducible apply halfBranch_kept
    | with_reducible apply keptO_next
    | with_reducible apply kept_ite
    | (with_reducible apply kept_foldl; intro t x ht)
    | (with_reducible apply kept_foldl_snd; intro t x ht)
    | split
    | simp only [kept_mk]
    | (with_reducible refine kept_snd (by assumption) ?_)
    | (with_reducible refine kept_snd2 (by assumption) ?_)
    | dsimp -iota only
    | dsimp only
    | decide
    | intro t l w ht
    | intro t l ht
    | intro t ht

theorem execHBnez_kept {s0 : State} (imm : BitVec 5) (d : Reg) (s : State) (h0 : Kept s0 s) : KeptO s0 (execHBnez imm d s) := by
  unfold execHBnez
  try dsimp -iota only
  repeat' first
    | with_reducible assumption
    | with_reducible apply halfBranch_kept
    | with_reducible apply keptO_next
    | with_reducible apply kept_ite
    | (with_reducible apply kept_foldl; intro t x ht)
    | (with_reducible apply kept_foldl_snd; intro t x ht)
    | split
    | simp only [kept_mk]
    | (with_reducible refine kept_snd (by assumption) ?_)
    | (with_reducible refine kept_snd2 (by assumption) ?_)
    | dsimp -iota only
    | dsimp only
    | decide
    | intro t l w ht
    | intro t l ht
    | intro t ht

theorem halfVec_kept {s0 : State} (s : State) (a : BitVec 4) (d : BitVec 4) (f : Fmt → RMode → Nat → Nat → FRes) (h0 : Kept s0 s) : Kept s0 (halfVec s a d f) := by
  unfold halfVec
  try dsimp -iota only
  repeat' first
    | with_reducible assumption
    | with_reducible apply gate_kept
    | with_reducible apply retV_kept
    | with_reducible apply kept_ite
    | (with_reducible apply kept_foldl; intro t x ht)
    | (with_reducible apply kept_foldl_snd; intro t x ht)
    | split
    | simp only [kept_mk]
    | (with_reducible refine kept_snd (by assumption) ?_)
    | (with_reducible refine kept_snd2 (by assumption) ?_)
    | dsimp -iota only
    | dsimp only
    | decide
    | intro t l w ht
    | intro t l ht
    | intro t ht

theorem execHVfaddF32_kept {s0 : State} (_i14 : Bool) (a : BitVec 4) (_i9 : Bool) (d : BitVec 4) (s : State) (h0 : Kept s0 s) : KeptO s0 (execHVfaddF32 _i14 a _i9 d s) := by
  unfold execHVfaddF32
  try dsimp -iota only
  repeat' first
    | with_reducible assumption
    | with_reducible apply halfVec_kept
    | with_reducible apply keptO_next
    | with_reducible apply kept_ite
    | (with_reducible apply kept_foldl; intro t x ht)
    | (with_reducible apply kept_foldl_snd; intro t x ht)
    | split
    | simp only [kept_mk]
    | (with_reducible refine kept_snd (by assumption) ?_)
    | (with_reducible refine kept_snd2 (by assumption) ?_)
    | dsimp -iota only
    | dsimp only
    | decide
    | intro t l w ht
    | intro t l ht
    | intro t ht

theorem execHVfmulF32_kept {s0 : State} (_i14 : Bool) (a : BitVec 4) (_i9 : Bool) (d : BitVec 4) (s : State) (h0 : Kept s0 s) : KeptO s0 (execHVfmulF32 _i14 a _i9 d s) := by
  unfold execHVfmulF32
  try dsimp -iota only
  repeat' first
    | with_reducible assumption
    | with_reducible apply halfVec_kept
    | with_reducible apply keptO_next
    | with_reducible apply kept_ite
    | (with_reducible apply kept_foldl; intro t x ht)
    | (with_reducible apply kept_foldl_snd; intro t x ht)
    | split
    | simp only [kept_mk]
    | (with_reducible refine kept_snd (by assumption) ?_)
    | (with_reducible refine kept_snd2 (by assumption) ?_)
    | dsimp -iota only
    | dsimp only
    | decide
    | intro t l w ht
    | intro t l ht
    | intro t ht

theorem execHNop_kept {s0 : State} (s : State) (h0 : Kept s0 s) : KeptO s0 (execHNop s) := by
  unfold execHNop
  try dsimp -iota only
  repeat' first
    | with_reducible assumption
    | with_reducible apply retire_kept
    | with_reducible apply keptO_next
    | with_reducible apply kept_ite
    | (with_reducible apply kept_foldl; intro t x ht)
    | (with_reducible apply kept_foldl_snd; intro t x ht)
    | split
    | simp only [kept_mk]
    | (with_reducible refine kept_snd (by assumption) ?_)
    | (with_reducible refine kept_snd2 (by assumption) ?_)
    | dsimp -iota only
    | dsimp only
    | decide
    | intro t l w ht
    | intro t l ht
    | intro t ht

theorem execHYield_kept {s0 : State} (s : State) (h0 : Kept s0 s) : KeptO s0 (execHYield s) := by
  unfold execHYield
  try dsimp -iota only
  repeat' first
    | with_reducible assumption
    | with_reducible apply yieldRow_kept
    | with_reducible apply keptO_next
    | with_reducible apply kept_ite
    | (with_reducible apply kept_foldl; intro t x ht)
    | (with_reducible apply kept_foldl_snd; intro t x ht)
    | split
    | simp only [kept_mk]
    | (with_reducible refine kept_snd (by assumption) ?_)
    | (with_reducible refine kept_snd2 (by assumption) ?_)
    | dsimp -iota only
    | dsimp only
    | decide
    | intro t l w ht
    | intro t l ht
    | intro t ht

theorem execHRet_kept {s0 : State} (s : State) (h0 : Kept s0 s) : KeptO s0 (execHRet s) := by
  unfold execHRet
  try dsimp -iota only
  repeat' first
    | with_reducible assumption
    | with_reducible apply gate_kept
    | with_reducible apply retireTo_kept
    | with_reducible apply keptO_next
    | with_reducible apply kept_ite
    | (with_reducible apply kept_foldl; intro t x ht)
    | (with_reducible apply kept_foldl_snd; intro t x ht)
    | split
    | simp only [kept_mk]
    | (with_reducible refine kept_snd (by assumption) ?_)
    | (with_reducible refine kept_snd2 (by assumption) ?_)
    | dsimp -iota only
    | dsimp only
    | decide
    | intro t l w ht
    | intro t l ht
    | intro t ht

end Sys2Proof.Machine
end

