-- ==== Sys2Proof/Laws/KeptSched.lean ====
section
/-! SUPPORT. The operations of Machine/Sched.lean keep canonical memory and legal control blocks (Kept.lean). -/

namespace Sys2Proof.Machine

set_option linter.all false

theorem atBoundary_kept {s0 : State} (s : State) (r : RowId) (f : State → State) (h0 : Kept s0 s) (hf : ∀ t, Kept s0 t → Kept s0 (f t)) : KeptO s0 (atBoundary s r f) := by
  unfold atBoundary
  try dsimp -iota only
  repeat' first
    | with_reducible assumption
    | with_reducible apply hf
    | with_reducible apply keptO_next
    | with_reducible apply kept_ite
    | (with_reducible apply kept_foldl; intro t x ht)
    | (with_reducible apply kept_foldl_snd; intro t x ht)
    | split
    | simp only [kept_mk]
    | (with_reducible refine kept_snd (by assumption) ?_)
    | (with_reducible refine kept_snd2 (by assumption) ?_)
    | dsimp -iota only
    | dsimp only
    | decide
    | intro t l w ht
    | intro t l ht
    | intro t ht

theorem execCtlNone_kept {s0 : State} (r : RowId) (v : Word) (priv : Bool) (s : State) (h0 : Kept s0 s) : KeptO s0 (execCtlNone r v priv s) := by
  unfold execCtlNone
  try dsimp -iota only
  repeat' first
    | with_reducible assumption
    | with_reducible apply atBoundary_kept
    | with_reducible apply storeCtl_kept
    | with_reducible apply keptO_next
    | with_reducible apply kept_ite
    | (with_reducible apply kept_foldl; intro t x ht)
    | (with_reducible apply kept_foldl_snd; intro t x ht)
    | split
    | simp only [kept_mk]
    | (with_reducible refine kept_snd (by assumption) ?_)
    | (with_reducible refine kept_snd2 (by assumption) ?_)
    | dsimp -iota only
    | dsimp only
    | decide
    | intro t l w ht
    | intro t l ht
    | intro t ht

theorem execKindle_kept {s0 : State} (r : RowId) (s : State) (h0 : Kept s0 s) : KeptO s0 (execKindle r s) := by
  unfold execKindle
  try dsimp -iota only
  repeat' first
    | with_reducible assumption
    | with_reducible apply atBoundary_kept
    | with_reducible apply cmdKindle_kept
    | with_reducible apply keptO_next
    | with_reducible apply kept_ite
    | (with_reducible apply kept_foldl; intro t x ht)
    | (with_reducible apply kept_foldl_snd; intro t x ht)
    | split
    | simp only [kept_mk]
    | (with_reducible refine kept_snd (by assumption) ?_)
    | (with_reducible refine kept_snd2 (by assumption) ?_)
    | dsimp -iota only
    | dsimp only
    | decide
    | intro t l w ht
    | intro t l ht
    | intro t ht

theorem execStop_kept {s0 : State} (r : RowId) (s : State) (h0 : Kept s0 s) : KeptO s0 (execStop r s) := by
  unfold execStop
  try dsimp -iota only
  repeat' first
    | with_reducible assumption
    | with_reducible apply atBoundary_kept
    | with_reducible apply cmdStop_kept
    | with_reducible apply keptO_next
    | with_reducible apply kept_ite
    | (with_reducible apply kept_foldl; intro t x ht)
    | (with_reducible apply kept_foldl_snd; intro t x ht)
    | split
    | simp only [kept_mk]
    | (with_reducible refine kept_snd (by assumption) ?_)
    | (with_reducible refine kept_snd2 (by assumption) ?_)
    | dsimp -iota only
    | dsimp only
    | decide
    | intro t l w ht
    | intro t l ht
    | intro t ht

theorem execRedirect_kept {s0 : State} (r : RowId) (s : State) (h0 : Kept s0 s) : KeptO s0 (execRedirect r s) := by
  unfold execRedirect
  try dsimp -iota only
  repeat' first
    | with_reducible assumption
    | with_reducible apply atBoundary_kept
    | with_reducible apply cmdRedirect_kept
    | with_reducible apply keptO_next
    | with_reducible apply kept_ite
    | (with_reducible apply kept_foldl; intro t x ht)
    | (with_reducible apply kept_foldl_snd; intro t x ht)
    | split
    | simp only [kept_mk]
    | (with_reducible refine kept_snd (by assumption) ?_)
    | (with_reducible refine kept_snd2 (by assumption) ?_)
    | dsimp -iota only
    | dsimp only
    | decide
    | intro t l w ht
    | intro t l ht
    | intro t ht

theorem execStepOne_kept {s0 : State} (r : RowId) (s : State) (h0 : Kept s0 s) : KeptO s0 (execStepOne r s) := by
  unfold execStepOne
  try dsimp -iota only
  repeat' first
    | with_reducible assumption
    | with_reducible apply atBoundary_kept
    | with_reducible apply cmdStep_kept
    | with_reducible apply keptO_next
    | with_reducible apply kept_ite
    | (with_reducible apply kept_foldl; intro t x ht)
    | (with_reducible apply kept_foldl_snd; intro t x ht)
    | split
    | simp only [kept_mk]
    | (with_reducible refine kept_snd (by assumption) ?_)
    | (with_reducible refine kept_snd2 (by assumption) ?_)
    | dsimp -iota only
    | dsimp only
    | decide
    | intro t l w ht
    | intro t l ht
    | intro t ht

theorem execResume_kept {s0 : State} (r : RowId) (s : State) (h0 : Kept s0 s) : KeptO s0 (execResume r s) := by
  unfold execResume
  try dsimp -iota only
  repeat' first
    | with_reducible assumption
    | with_reducible apply atBoundary_kept
    | with_reducible apply cmdResume_kept
    | with_reducible apply keptO_next
    | with_reducible apply kept_ite
    | (with_reducible apply kept_foldl; intro t x ht)
    | (with_reducible apply kept_foldl_snd; intro t x ht)
    | split
    | simp only [kept_mk]
    | (with_reducible refine kept_snd (by assumption) ?_)
    | (with_reducible refine kept_snd2 (by assumption) ?_)
    | dsimp -iota only
    | dsimp only
    | decide
    | intro t l w ht
    | intro t l ht
    | intro t ht

theorem execSkip_kept {s0 : State} (r : RowId) (s : State) (h0 : Kept s0 s) : KeptO s0 (execSkip r s) := by
  unfold execSkip
  try dsimp -iota only
  repeat' first
    | with_reducible assumption
    | with_reducible apply atBoundary_kept
    | with_reducible apply cmdSkip_kept
    | with_reducible apply peekForce_kept
    | with_reducible apply keptO_next
    | with_reducible apply kept_ite
    | (with_reducible apply kept_foldl; intro t x ht)
    | (with_reducible apply kept_foldl_snd; intro t x ht)
    | split
    | simp only [kept_mk]
    | (with_reducible refine kept_snd (by assumption) ?_)
    | (with_reducible refine kept_snd2 (by assumption) ?_)
    | dsimp -iota only
    | dsimp only
    | decide
    | intro t l w ht
    | intro t l ht
    | intro t ht

theorem modSlot_kept {s0 : State} (s : State) (core : Nat) (bank : Nat) (k : Nat) (f : Slot → Slot) (h0 : Kept s0 s) : Kept s0 (modSlot s core bank k f) := by
  unfold modSlot
  try dsimp -iota only
  repeat' first
    | with_reducible assumption
    | with_reducible apply modBank_kept
    | with_reducible apply kept_ite
    | (with_reducible apply kept_foldl; intro t x ht)
    | (with_reducible apply kept_foldl_snd; intro t x ht)
    | split
    | simp only [kept_mk]
    | (with_reducible refine kept_snd (by assumption) ?_)
    | (with_reducible refine kept_snd2 (by assumption) ?_)
    | dsimp -iota only
    | dsimp only
    | decide
    | intro t l w ht
    | intro t l ht
    | intro t ht

theorem execSelection_kept {s0 : State} (core : Nat) (bank : Nat) (s : State) (h0 : Kept s0 s) : KeptO s0 (execSelection core bank s) := by
  unfold execSelection
  try dsimp -iota only
  repeat' first
    | with_reducible assumption
    | with_reducible apply modBank_kept
    | with_reducible apply modSlot_kept
    | with_reducible apply keptO_next
    | with_reducible apply kept_ite
    | (with_reducible apply kept_foldl; intro t x ht)
    | (with_reducible apply kept_foldl_snd; intro t x ht)
    | split
    | simp only [kept_mk]
    | (with_reducible refine kept_snd (by assumption) ?_)
    | (with_reducible refine kept_snd2 (by assumption) ?_)
    | dsimp -iota only
    | dsimp only
    | decide
    | intro t l w ht
    | intro t l ht
    | intro t ht

theorem preempt_kept {s0 : State} (s : State) (core : Nat) (bank : Nat) (h0 : Kept s0 s) : Kept s0 (preempt s core bank) := by
  unfold preempt
  try dsimp -iota only
  repeat' first
    | with_reducible assumption
    | with_reducible apply closeRow_kept
    | with_reducible apply kept_ite
    | (with_reducible apply kept_foldl; intro t x ht)
    | (with_reducible apply kept_foldl_snd; intro t x ht)
    | split
    | simp only [kept_mk]
    | (with_reducible refine kept_snd (by assumption) ?_)
    | (with_reducible refine kept_snd2 (by assumption) ?_)
    | dsimp -iota only
    | dsimp only
    | decide
    | intro t l w ht
    | intro t l ht
    | intro t ht

theorem execOpeningComplete_kept {s0 : State} (core : Nat) (bank : Nat) (s : State) (h0 : Kept s0 s) : KeptO s0 (execOpeningComplete core bank s) := by
  unfold execOpeningComplete
  try dsimp -iota only
  repeat' first
    | with_reducible assumption
    | with_reducible apply modSlot_kept
    | with_reducible apply bump_kept
    | with_reducible apply preempt_kept
    | with_reducible apply modBank_kept
    | with_reducible apply keptO_next
    | with_reducible apply kept_ite
    | (with_reducible apply kept_foldl; intro t x ht)
    | (with_reducible apply kept_foldl_snd; intro t x ht)
    | split
    | simp only [kept_mk]
    | (with_reducible refine kept_snd (by assumption) ?_)
    | (with_reducible refine kept_snd2 (by assumption) ?_)
    | dsimp -iota only
    | dsimp only
    | decide
    | intro t l w ht
    | intro t l ht
    | intro t ht

theorem closeDone_kept {s0 : State} (s : State) (core : Nat) (bank : Nat) (k : Nat) (h0 : Kept s0 s) : Kept s0 (closeDone s core bank k) := by
  unfold closeDone
  try dsimp -iota only
  repeat' first
    | with_reducible assumption
    | with_reducible apply modBank_kept
    | with_reducible apply joinReady_kept
    | with_reducible apply kept_ite
    | (with_reducible apply kept_foldl; intro t x ht)
    | (with_reducible apply kept_foldl_snd; intro t x ht)
    | split
    | simp only [kept_mk]
    | (with_reducible refine kept_snd (by assumption) ?_)
    | (with_reducible refine kept_snd2 (by assumption) ?_)
    | dsimp -iota only
    | dsimp only
    | decide
    | intro t l w ht
    | intro t l ht
    | intro t ht

theorem execClosingComplete_kept {s0 : State} (core : Nat) (bank : Nat) (s : State) (h0 : Kept s0 s) : KeptO s0 (execClosingComplete core bank s) := by
  unfold execClosingComplete
  try dsimp -iota only
  repeat' first
    | with_reducible assumption
    | with_reducible apply freeWord_kept
    | with_reducible apply closeDone_kept
    | with_reducible apply keptO_next
    | with_reducible apply kept_ite
    | (with_reducible apply kept_foldl; intro t x ht)
    | (with_reducible apply kept_foldl_snd; intro t x ht)
    | split
    | simp only [kept_mk]
    | (with_reducible refine kept_snd (by assumption) ?_)
    | (with_reducible refine kept_snd2 (by assumption) ?_)
    | dsimp -iota only
    | dsimp only
    | decide
    | intro t l w ht
    | intro t l ht
    | intro t ht

theorem quantumEvent_kept {s0 : State} (s : State) (core : Nat) (bank : Nat) (k : Nat) (h0 : Kept s0 s) : Kept s0 (quantumEvent s core bank k) := by
  unfold quantumEvent
  try dsimp -iota only
  repeat' first
    | with_reducible assumption
    | with_reducible apply modBank_kept
    | with_reducible apply kept_ite
    | (with_reducible apply kept_foldl; intro t x ht)
    | (with_reducible apply kept_foldl_snd; intro t x ht)
    | split
    | simp only [kept_mk]
    | (with_reducible refine kept_snd (by assumption) ?_)
    | (with_reducible refine kept_snd2 (by assumption) ?_)
    | dsimp -iota only
    | dsimp only
    | decide
    | intro t l w ht
    | intro t l ht
    | intro t ht

theorem quantumCycles_kept {s0 : State} (s : State) (core : Nat) (bank : Nat) (k : Nat) (n : Nat) (h0 : Kept s0 s) : Kept s0 (quantumCycles s core bank k n) := by
  unfold quantumCycles
  try dsimp -iota only
  repeat' first
    | with_reducible assumption
    | with_reducible apply modBank_kept
    | with_reducible apply quantumEvent_kept
    | with_reducible apply kept_ite
    | (with_reducible apply kept_foldl; intro t x ht)
    | (with_reducible apply kept_foldl_snd; intro t x ht)
    | split
    | simp only [kept_mk]
    | (with_reducible refine kept_snd (by assumption) ?_)
    | (with_reducible refine kept_snd2 (by assumption) ?_)
    | dsimp -iota only
    | dsimp only
    | decide
    | intro t l w ht
    | intro t l ht
    | intro t ht

theorem expire_kept {s0 : State} (s : State) (core : Nat) (bank : Nat) (h0 : Kept s0 s) : Kept s0 (expire s core bank) := by
  unfold expire
  try dsimp -iota only
  repeat' first
    | with_reducible assumption
    | with_reducible apply closeRow_kept
    | with_reducible apply modBank_kept
    | with_reducible apply kept_ite
    | (with_reducible apply kept_foldl; intro t x ht)
    | (with_reducible apply kept_foldl_snd; intro t x ht)
    | split
    | simp only [kept_mk]
    | (with_reducible refine kept_snd (by assumption) ?_)
    | (with_reducible refine kept_snd2 (by assumption) ?_)
    | dsimp -iota only
    | dsimp only
    | decide
    | intro t l w ht
    | intro t l ht
    | intro t ht

theorem execQuantumExpiry_kept {s0 : State} (core : Nat) (bank : Nat) (s : State) (h0 : Kept s0 s) : KeptO s0 (execQuantumExpiry core bank s) := by
  unfold execQuantumExpiry
  try dsimp -iota only
  repeat' first
    | with_reducible assumption
    | with_reducible apply expire_kept
    | with_reducible apply keptO_next
    | with_reducible apply kept_ite
    | (with_reducible apply kept_foldl; intro t x ht)
    | (with_reducible apply kept_foldl_snd; intro t x ht)
    | split
    | simp only [kept_mk]
    | (with_reducible refine kept_snd (by assumption) ?_)
    | (with_reducible refine kept_snd2 (by assumption) ?_)
    | dsimp -iota only
    | dsimp only
    | decide
    | intro t l w ht
    | intro t l ht
    | intro t ht

theorem charge_kept {s0 : State} (s : State) (core : Nat) (bank : Nat) (n : Nat) (h0 : Kept s0 s) : Kept s0 (charge s core bank n) := by
  unfold charge
  try dsimp -iota only
  repeat' first
    | with_reducible assumption
    | with_reducible apply bump_kept
    | with_reducible apply quantumCycles_kept
    | with_reducible refine modRow_kept ?_ _ _ ?_
    | with_reducible apply kept_ite
    | (with_reducible apply kept_foldl; intro t x ht)
    | (with_reducible apply kept_foldl_snd; intro t x ht)
    | split
    | simp only [kept_mk]
    | (with_reducible refine kept_snd (by assumption) ?_)
    | (with_reducible refine kept_snd2 (by assumption) ?_)
    | dsimp -iota only
    | dsimp only
    | decide
    | (intro w hw; (try dsimp only); (repeat' split); all_goals first | with_reducible assumption | with_reducible exact rowOk_congr hw rfl rfl rfl rfl rfl rfl | (obtain ⟨h1, h2, h3, h4, h5⟩ := hw; refine ⟨?_, ?_, ?_, ?_, ?_⟩ <;> (try dsimp only) <;> first | with_reducible assumption | with_reducible exact even_mask _ | with_reducible exact even_256 _ | with_reducible exact flags_mask _ | with_reducible exact flags_or _ h5 | with_reducible exact .inl rfl | (simp; done)))
    | intro t l w ht
    | intro t l ht
    | intro t ht

theorem budgetTrap_kept {s0 : State} (s : State) (r : RowId) (h0 : Kept s0 s) : Kept s0 (budgetTrap s r) := by
  unfold budgetTrap
  try dsimp -iota only
  repeat' first
    | with_reducible assumption
    | with_reducible apply raise_kept
    | with_reducible apply kept_ite
    | (with_reducible apply kept_foldl; intro t x ht)
    | (with_reducible apply kept_foldl_snd; intro t x ht)
    | split
    | simp only [kept_mk]
    | (with_reducible refine kept_snd (by assumption) ?_)
    | (with_reducible refine kept_snd2 (by assumption) ?_)
    | dsimp -iota only
    | dsimp only
    | decide
    | intro t l w ht
    | intro t l ht
    | intro t ht

theorem execBudget_kept {s0 : State} (core : Nat) (bank : Nat) (n : Nat) (s : State) (h0 : Kept s0 s) : KeptO s0 (execBudget core bank n s) := by
  unfold execBudget
  try dsimp -iota only
  repeat' first
    | with_reducible assumption
    | with_reducible apply charge_kept
    | with_reducible apply budgetTrap_kept
    | with_reducible apply expire_kept
    | with_reducible apply keptO_next
    | with_reducible apply kept_ite
    | (with_reducible apply kept_foldl; intro t x ht)
    | (with_reducible apply kept_foldl_snd; intro t x ht)
    | split
    | simp only [kept_mk]
    | (with_reducible refine kept_snd (by assumption) ?_)
    | (with_reducible refine kept_snd2 (by assumption) ?_)
    | dsimp -iota only
    | dsimp only
    | decide
    | intro t l w ht
    | intro t l ht
    | intro t ht

theorem execInboxEntry_kept {s0 : State} (i : Nat) (s : State) (h0 : Kept s0 s) : KeptO s0 (execInboxEntry i s) := by
  unfold execInboxEntry
  try dsimp -iota only
  repeat' first
    | with_reducible assumption
    | with_reducible apply modDie_kept
    | with_reducible apply keptO_next
    | with_reducible apply kept_ite
    | (with_reducible apply kept_foldl; intro t x ht)
    | (with_reducible apply kept_foldl_snd; intro t x ht)
    | split
    | simp only [kept_mk]
    | (with_reducible refine kept_snd (by assumption) ?_)
    | (with_reducible refine kept_snd2 (by assumption) ?_)
    | dsimp -iota only
    | dsimp only
    | decide
    | intro t l w ht
    | intro t l ht
    | intro t ht

theorem execStokerBind_kept {s0 : State} (die : Nat) (i : Nat) (s : State) (h0 : Kept s0 s) : KeptO s0 (execStokerBind die i s) := by
  unfold execStokerBind
  try dsimp -iota only
  repeat' first
    | with_reducible assumption
    | with_reducible apply modDie_kept
    | with_reducible apply keptO_next
    | with_reducible apply kept_ite
    | (with_reducible apply kept_foldl; intro t x ht)
    | (with_reducible apply kept_foldl_snd; intro t x ht)
    | split
    | simp only [kept_mk]
    | (with_reducible refine kept_snd (by assumption) ?_)
    | (with_reducible refine kept_snd2 (by assumption) ?_)
    | dsimp -iota only
    | dsimp only
    | decide
    | intro t l w ht
    | intro t l ht
    | intro t ht

theorem enterRunq_kept {s0 : State} (s : State) (core : Nat) (p : Packet) (h0 : Kept s0 s) : Kept s0 (enterRunq s core p) := by
  unfold enterRunq
  try dsimp -iota only
  repeat' first
    | with_reducible assumption
    | with_reducible apply modCore_kept
    | with_reducible apply kept_ite
    | (with_reducible apply kept_foldl; intro t x ht)
    | (with_reducible apply kept_foldl_snd; intro t x ht)
    | split
    | simp only [kept_mk]
    | (with_reducible refine kept_snd (by assumption) ?_)
    | (with_reducible refine kept_snd2 (by assumption) ?_)
    | dsimp -iota only
    | dsimp only
    | decide
    | intro t l w ht
    | intro t l ht
    | intro t ht

theorem receivedPkt_kept {s0 : State} (s : State) (core : Nat) (p : Packet) (h0 : Kept s0 s) : Kept s0 (receivedPkt s core p) := by
  unfold receivedPkt
  try dsimp -iota only
  repeat' first
    | with_reducible assumption
    | with_reducible apply modCore_kept
    | with_reducible apply received_kept
    | with_reducible apply kept_ite
    | (with_reducible apply kept_foldl; intro t x ht)
    | (with_reducible apply kept_foldl_snd; intro t x ht)
    | split
    | simp only [kept_mk]
    | (with_reducible refine kept_snd (by assumption) ?_)
    | (with_reducible refine kept_snd2 (by assumption) ?_)
    | dsimp -iota only
    | dsimp only
    | decide
    | intro t l w ht
    | intro t l ht
    | intro t ht

theorem orphan_kept {s0 : State} (s : State) (die : Nat) (seq : Nat) (kind : Nat) (num : Nat) (task : Word) (va : Word) (h0 : Kept s0 s) : Kept s0 (orphan s die seq kind num task va) := by
  unfold orphan
  try dsimp -iota only
  repeat' first
    | with_reducible assumption
    | with_reducible apply kept_ite
    | (with_reducible apply kept_foldl; intro t x ht)
    | (with_reducible apply kept_foldl_snd; intro t x ht)
    | split
    | simp only [kept_mk]
    | (with_reducible refine kept_snd (by assumption) ?_)
    | (with_reducible refine kept_snd2 (by assumption) ?_)
    | dsimp -iota only
    | dsimp only
    | decide
    | intro t l w ht
    | intro t l ht
    | intro t ht

theorem orphanPacket_kept {s0 : State} (s : State) (die : Nat) (kind : Nat) (num : Nat) (p : Packet) (h0 : Kept s0 s) : Kept s0 (orphanPacket s die kind num p) := by
  unfold orphanPacket
  try dsimp -iota only
  repeat' first
    | with_reducible assumption
    | with_reducible apply orphan_kept
    | with_reducible apply kept_ite
    | (with_reducible apply kept_foldl; intro t x ht)
    | (with_reducible apply kept_foldl_snd; intro t x ht)
    | split
    | simp only [kept_mk]
    | (with_reducible refine kept_snd (by assumption) ?_)
    | (with_reducible refine kept_snd2 (by assumption) ?_)
    | dsimp -iota only
    | dsimp only
    | decide
    | intro t l w ht
    | intro t l ht
    | intro t ht

theorem execRunQueueEntry_kept {s0 : State} (die : Nat) (i : Nat) (s : State) (h0 : Kept s0 s) : KeptO s0 (execRunQueueEntry die i s) := by
  unfold execRunQueueEntry
  try dsimp -iota only
  repeat' first
    | with_reducible assumption
    | with_reducible apply modDie_kept
    | with_reducible apply orphanPacket_kept
    | with_reducible apply logAdd_kept
    | with_reducible apply enterRunq_kept
    | with_reducible apply receivedPkt_kept
    | with_reducible apply keptO_next
    | with_reducible apply kept_ite
    | (with_reducible apply kept_foldl; intro t x ht)
    | (with_reducible apply kept_foldl_snd; intro t x ht)
    | split
    | simp only [kept_mk]
    | (with_reducible refine kept_snd (by assumption) ?_)
    | (with_reducible refine kept_snd2 (by assumption) ?_)
    | dsimp -iota only
    | dsimp only
    | decide
    | intro t l w ht
    | intro t l ht
    | intro t ht

theorem popRunq_kept {s0 : State} (s : State) (core : Nat) (i : Nat) (c : Nat) (h0 : Kept s0 s) : Kept s0 (popRunq s core i c) := by
  unfold popRunq
  try dsimp -iota only
  repeat' first
    | with_reducible assumption
    | with_reducible apply modCore_kept
    | with_reducible apply kept_ite
    | (with_reducible apply kept_foldl; intro t x ht)
    | (with_reducible apply kept_foldl_snd; intro t x ht)
    | split
    | simp only [kept_mk]
    | (with_reducible refine kept_snd (by assumption) ?_)
    | (with_reducible refine kept_snd2 (by assumption) ?_)
    | dsimp -iota only
    | dsimp only
    | decide
    | intro t l w ht
    | intro t l ht
    | intro t ht

theorem startTask_kept {s0 : State} (s : State) (r : RowId) (p : Packet) (ch : Chan) (h0 : Kept s0 s) : Kept s0 (startTask s r p ch) := by
  unfold startTask
  try dsimp -iota only
  repeat' first
    | with_reducible assumption
    | with_reducible refine modRow_kept ?_ _ _ ?_
    | with_reducible apply orphan_kept
    | with_reducible apply kept_ite
    | (with_reducible apply kept_foldl; intro t x ht)
    | (with_reducible apply kept_foldl_snd; intro t x ht)
    | split
    | simp only [kept_mk]
    | (with_reducible refine kept_snd (by assumption) ?_)
    | (with_reducible refine kept_snd2 (by assumption) ?_)
    | dsimp -iota only
    | dsimp only
    | decide
    | (intro w hw; (try dsimp only); (repeat' split); all_goals first | with_reducible assumption | with_reducible exact rowOk_congr hw rfl rfl rfl rfl rfl rfl | (obtain ⟨h1, h2, h3, h4, h5⟩ := hw; refine ⟨?_, ?_, ?_, ?_, ?_⟩ <;> (try dsimp only) <;> first | with_reducible assumption | with_reducible exact even_mask _ | with_reducible exact even_256 _ | with_reducible exact flags_mask _ | with_reducible exact flags_or _ h5 | with_reducible exact .inl rfl | (simp; done)))
    | intro t l w ht
    | intro t l ht
    | intro t ht

theorem execDispatch_kept {s0 : State} (core : Nat) (s : State) (h0 : Kept s0 s) : KeptO s0 (execDispatch core s) := by
  unfold execDispatch
  try dsimp -iota only
  repeat' first
    | with_reducible assumption
    | with_reducible apply popRunq_kept
    | with_reducible apply fillBytes_kept
    | with_reducible apply setX_kept
    | with_reducible apply makeReady_kept
    | with_reducible apply startTask_kept
    | with_reducible apply keptO_next
    | with_reducible apply kept_ite
    | (with_reducible apply kept_foldl; intro t x ht)
    | (with_reducible apply kept_foldl_snd; intro t x ht)
    | split
    | simp only [kept_mk]
    | (with_reducible refine kept_snd (by assumption) ?_)
    | (with_reducible refine kept_snd2 (by assumption) ?_)
    | dsimp -iota only
    | dsimp only
    | decide
    | intro t l w ht
    | intro t l ht
    | intro t ht

theorem execHostQueueWrite_kept {s0 : State} (die : Nat) (s : State) (h0 : Kept s0 s) : KeptO s0 (execHostQueueWrite die s) := by
  unfold execHostQueueWrite
  try dsimp -iota only
  repeat' first
    | with_reducible assumption
    | with_reducible apply hqWrite_kept
    | with_reducible apply popRunq_kept
    | with_reducible apply keptO_next
    | with_reducible apply kept_ite
    | (with_reducible apply kept_foldl; intro t x ht)
    | (with_reducible apply kept_foldl_snd; intro t x ht)
    | split
    | simp only [kept_mk]
    | (with_reducible refine kept_snd (by assumption) ?_)
    | (with_reducible refine kept_snd2 (by assumption) ?_)
    | dsimp -iota only
    | dsimp only
    | decide
    | intro t l w ht
    | intro t l ht
    | intro t ht

theorem execUpcallDelivery_kept {s0 : State} (core : Nat) (s : State) (h0 : Kept s0 s) : KeptO s0 (execUpcallDelivery core s) := by
  unfold execUpcallDelivery
  try dsimp -iota only
  repeat' first
    | with_reducible assumption
    | with_reducible apply modCore_kept
    | with_reducible apply fillBytes_kept
    | with_reducible apply nextRec_kept
    | with_reducible apply setX_kept
    | with_reducible refine modRow_kept ?_ _ _ ?_
    | with_reducible apply orphan_kept
    | with_reducible apply makeReady_kept
    | with_reducible apply keptO_next
    | with_reducible apply kept_ite
    | (with_reducible apply kept_foldl; intro t x ht)
    | (with_reducible apply kept_foldl_snd; intro t x ht)
    | split
    | simp only [kept_mk]
    | (with_reducible refine kept_snd (by assumption) ?_)
    | (with_reducible refine kept_snd2 (by assumption) ?_)
    | dsimp -iota only
    | dsimp only
    | decide
    | (intro w hw; (try dsimp only); (repeat' split); all_goals first | with_reducible assumption | with_reducible exact rowOk_congr hw rfl rfl rfl rfl rfl rfl | (obtain ⟨h1, h2, h3, h4, h5⟩ := hw; refine ⟨?_, ?_, ?_, ?_, ?_⟩ <;> (try dsimp only) <;> first | with_reducible assumption | with_reducible exact even_mask _ | with_reducible exact even_256 _ | with_reducible exact flags_mask _ | with_reducible exact flags_or _ h5 | with_reducible exact .inl rfl | (simp; done)))
    | intro t l w ht
    | intro t l ht
    | intro t ht

theorem arrivalReply_kept {s0 : State} (s : State) (id : Nat) (res : Nat) (h0 : Kept s0 s) : Kept s0 (arrivalReply s id res) := by
  unfold arrivalReply
  try dsimp -iota only
  repeat' first
    | with_reducible assumption
    | with_reducible apply settle_kept
    | with_reducible apply modReq_kept
    | with_reducible apply kept_ite
    | (with_reducible apply kept_foldl; intro t x ht)
    | (with_reducible apply kept_foldl_snd; intro t x ht)
    | split
    | simp only [kept_mk]
    | (with_reducible refine kept_snd (by assumption) ?_)
    | (with_reducible refine kept_snd2 (by assumption) ?_)
    | dsimp -iota only
    | dsimp only
    | decide
    | intro t l w ht
    | intro t l ht
    | intro t ht

theorem arrivalDo_kept {s0 : State} (s : State) (q : Req) (core : Nat) (bar : Nat) (h0 : Kept s0 s) : Kept s0 (arrivalDo s q core bar) := by
  unfold arrivalDo
  try dsimp -iota only
  repeat' first
    | with_reducible assumption
    | with_reducible apply arriveBy_kept
    | with_reducible apply received_kept
    | with_reducible apply arrivalReply_kept
    | with_reducible apply kept_ite
    | (with_reducible apply kept_foldl; intro t x ht)
    | (with_reducible apply kept_foldl_snd; intro t x ht)
    | split
    | simp only [kept_mk]
    | (with_reducible refine kept_snd (by assumption) ?_)
    | (with_reducible refine kept_snd2 (by assumption) ?_)
    | dsimp -iota only
    | dsimp only
    | decide
    | intro t l w ht
    | intro t l ht
    | intro t ht

theorem arrivalStep_kept {s0 : State} (s : State) (q : Req) (core : Nat) (bar : Nat) (h0 : Kept s0 s) : Kept s0 (arrivalStep s q core bar) := by
  unfold arrivalStep
  try dsimp -iota only
  repeat' first
    | with_reducible assumption
    | with_reducible apply logAdd_kept
    | with_reducible apply arrivalReply_kept
    | with_reducible apply arrivalDo_kept
    | with_reducible apply kept_ite
    | (with_reducible apply kept_foldl; intro t x ht)
    | (with_reducible apply kept_foldl_snd; intro t x ht)
    | split
    | simp only [kept_mk]
    | (with_reducible refine kept_snd (by assumption) ?_)
    | (with_reducible refine kept_snd2 (by assumption) ?_)
    | dsimp -iota only
    | dsimp only
    | decide
    | intro t l w ht
    | intro t l ht
    | intro t ht

theorem execBarrierArrival_kept {s0 : State} (i : Nat) (s : State) (h0 : Kept s0 s) : KeptO s0 (execBarrierArrival i s) := by
  unfold execBarrierArrival
  try dsimp -iota only
  repeat' first
    | with_reducible assumption
    | with_reducible apply arrive_kept
    | with_reducible apply arrivalStep_kept
    | with_reducible apply keptO_next
    | with_reducible apply kept_ite
    | (with_reducible apply kept_foldl; intro t x ht)
    | (with_reducible apply kept_foldl_snd; intro t x ht)
    | split
    | simp only [kept_mk]
    | (with_reducible refine kept_snd (by assumption) ?_)
    | (with_reducible refine kept_snd2 (by assumption) ?_)
    | dsimp -iota only
    | dsimp only
    | decide
    | intro t l w ht
    | intro t l ht
    | intro t ht

theorem execBstateWrite_kept {s0 : State} (core : Nat) (b : Nat) (v : Word) (s : State) (h0 : Kept s0 s) : KeptO s0 (execBstateWrite core b v s) := by
  unfold execBstateWrite
  try dsimp -iota only
  repeat' first
    | with_reducible assumption
    | with_reducible apply barWrite_kept
    | with_reducible apply keptO_next
    | with_reducible apply kept_ite
    | (with_reducible apply kept_foldl; intro t x ht)
    | (with_reducible apply kept_foldl_snd; intro t x ht)
    | split
    | simp only [kept_mk]
    | (with_reducible refine kept_snd (by assumption) ?_)
    | (with_reducible refine kept_snd2 (by assumption) ?_)
    | dsimp -iota only
    | dsimp only
    | decide
    | intro t l w ht
    | intro t l ht
    | intro t ht

theorem execDequeClear_kept {s0 : State} (core : Nat) (s : State) (h0 : Kept s0 s) : KeptO s0 (execDequeClear core s) := by
  unfold execDequeClear
  try dsimp -iota only
  repeat' first
    | with_reducible assumption
    | with_reducible apply modDq_kept
    | with_reducible apply keptO_next
    | with_reducible apply kept_ite
    | (with_reducible apply kept_foldl; intro t x ht)
    | (with_reducible apply kept_foldl_snd; intro t x ht)
    | split
    | simp only [kept_mk]
    | (with_reducible refine kept_snd (by assumption) ?_)
    | (with_reducible refine kept_snd2 (by assumption) ?_)
    | dsimp -iota only
    | dsimp only
    | decide
    | intro t l w ht
    | intro t l ht
    | intro t ht

end Sys2Proof.Machine
end

