-- ==== Sys2Proof/Laws/KeptOutside.lean ====
section
/-! SUPPORT. The operations of Machine/Outside.lean keep canonical memory and legal control blocks (Kept.lean). -/

namespace Sys2Proof.Machine

set_option linter.all false

theorem answer_kept {s0 : State} (s : State) (bs : Option (List Byte)) (h0 : Kept s0 s) : Kept s0 (answer s bs) := by
  unfold answer
  try dsimp -iota only
  repeat' first
    | with_reducible assumption
    | with_reducible apply kept_ite
    | (with_reducible apply kept_foldl; intro t x ht)
    | (with_reducible apply kept_foldl_snd; intro t x ht)
    | split
    | simp only [kept_mk]
    | (with_reducible refine kept_snd (by assumption) ?_)
    | (with_reducible refine kept_snd2 (by assumption) ?_)
    | dsimp -iota only
    | dsimp only
    | decide
    | intro t l w ht
    | intro t l ht
    | intro t ht

theorem outWritePiece_kept {s0 : State} (s : State) (p : Path) (pa : Nat) (bs : List Byte) (fe : Bool) (h0 : Kept s0 s) : Kept s0 (outWritePiece s p pa bs fe) := by
  unfold outWritePiece
  try dsimp -iota only
  repeat' first
    | with_reducible assumption
    | with_reducible apply rowStore_kept
    | with_reducible apply ctlWrites_kept
    | with_reducible apply outsideWrite_kept
    | with_reducible apply kept_ite
    | (with_reducible apply kept_foldl; intro t x ht)
    | (with_reducible apply kept_foldl_snd; intro t x ht)
    | split
    | simp only [kept_mk]
    | (with_reducible refine kept_snd (by assumption) ?_)
    | (with_reducible refine kept_snd2 (by assumption) ?_)
    | dsimp -iota only
    | dsimp only
    | decide
    | intro t l w ht
    | intro t l ht
    | intro t ht

theorem logPieces_kept {s0 : State} (s : State) (p : Path) (core : Nat) (k : Nat) (bs : List Byte) (fe : Bool) (arg6 : List (Nat × Nat × Nat)) (h0 : Kept s0 s) : Kept s0 (logPieces s p core k bs fe arg6).2 := by
  induction arg6 generalizing s with
  | nil => first | assumption | (unfold logPieces; assumption) | exact fun _ h => h
  | cons x xs ih =>
    unfold logPieces
    try dsimp -iota only
    repeat' first
      | with_reducible assumption
      | with_reducible apply ih
      | with_reducible apply logAdd_kept
      | with_reducible apply store_kept
      | with_reducible apply kept_ite
      | (with_reducible apply kept_foldl; intro t x ht)
      | (with_reducible apply kept_foldl_snd; intro t x ht)
      | split
      | simp only [kept_mk]
      | (with_reducible refine kept_snd (by assumption) ?_)
      | (with_reducible refine kept_snd2 (by assumption) ?_)
      | dsimp -iota only
      | dsimp only
      | decide
      | intro t l w ht
      | intro t l ht
      | intro t ht

theorem outWrite_kept {s0 : State} (s : State) (p : Path) (pa : Nat) (bs : List Byte) (fe : Bool) (h0 : Kept s0 s) : Kept s0 (outWrite s p pa bs fe) := by
  unfold outWrite
  try dsimp -iota only
  repeat' first
    | with_reducible assumption
    | with_reducible apply logPieces_kept
    | with_reducible apply answer_kept
    | with_reducible apply logFull_kept
    | with_reducible apply outWritePiece_kept
    | with_reducible apply kept_ite
    | (with_reducible apply kept_foldl; intro t x ht)
    | (with_reducible apply kept_foldl_snd; intro t x ht)
    | split
    | simp only [kept_mk]
    | (with_reducible refine kept_snd (by assumption) ?_)
    | (with_reducible refine kept_snd2 (by assumption) ?_)
    | dsimp -iota only
    | dsimp only
    | decide
    | intro t l w ht
    | intro t l ht
    | intro t ht

theorem outReads_kept {s0 : State} (s : State) (fe : Nat) (arg2 : List (Nat × Nat × Nat)) (h0 : Kept s0 s) : Kept s0 (outReads s fe arg2).2 := by
  induction arg2 generalizing s with
  | nil => first | assumption | (unfold outReads; assumption) | exact fun _ h => h
  | cons x xs ih =>
    unfold outReads
    try dsimp -iota only
    repeat' first
      | with_reducible assumption
      | with_reducible apply ih
      | with_reducible apply rowLoad_kept
      | with_reducible apply outsideRead_kept
      | with_reducible apply kept_ite
      | (with_reducible apply kept_foldl; intro t x ht)
      | (with_reducible apply kept_foldl_snd; intro t x ht)
      | split
      | simp only [kept_mk]
      | (with_reducible refine kept_snd (by assumption) ?_)
      | (with_reducible refine kept_snd2 (by assumption) ?_)
      | dsimp -iota only
      | dsimp only
      | decide
      | intro t l w ht
      | intro t l ht
      | intro t ht

theorem outAction_kept {s0 : State} (s : State) (pa : Nat) (h0 : Kept s0 s) : Kept s0 (outAction s pa).2 := by
  unfold outAction
  try dsimp -iota only
  repeat' first
    | with_reducible assumption
    | with_reducible apply rowLoad_kept
    | with_reducible apply outsideRead_kept
    | with_reducible apply kept_ite
    | (with_reducible apply kept_foldl; intro t x ht)
    | (with_reducible apply kept_foldl_snd; intro t x ht)
    | split
    | simp only [kept_mk]
    | (with_reducible refine kept_snd (by assumption) ?_)
    | (with_reducible refine kept_snd2 (by assumption) ?_)
    | dsimp -iota only
    | dsimp only
    | decide
    | intro t l w ht
    | intro t l ht
    | intro t ht

theorem outFire_kept {s0 : State} (s : State) (q : OutReq) (a : Word) (h0 : Kept s0 s) : Kept s0 (outFire s q a).2 := by
  unfold outFire
  try dsimp -iota only
  repeat' first
    | with_reducible assumption
    | with_reducible apply kept_ite
    | (with_reducible apply kept_foldl; intro t x ht)
    | (with_reducible apply kept_foldl_snd; intro t x ht)
    | split
    | simp only [kept_mk]
    | (with_reducible refine kept_snd (by assumption) ?_)
    | (with_reducible refine kept_snd2 (by assumption) ?_)
    | dsimp -iota only
    | dsimp only
    | decide
    | intro t l w ht
    | intro t l ht
    | intro t ht

theorem outSend_kept {s0 : State} (s : State) (q : OutReq) (bs : List Byte) (h0 : Kept s0 s) : Kept s0 (outSend s q bs) := by
  unfold outSend
  try dsimp -iota only
  repeat' first
    | with_reducible assumption
    | with_reducible apply outAction_kept
    | with_reducible apply outFire_kept
    | with_reducible apply answer_kept
    | with_reducible apply kept_ite
    | (with_reducible apply kept_foldl; intro t x ht)
    | (with_reducible apply kept_foldl_snd; intro t x ht)
    | split
    | simp only [kept_mk]
    | (with_reducible refine kept_snd (by assumption) ?_)
    | (with_reducible refine kept_snd2 (by assumption) ?_)
    | dsimp -iota only
    | dsimp only
    | decide
    | intro t l w ht
    | intro t l ht
    | intro t ht

theorem outAmoEnd_kept {s0 : State} (s : State) (q : OutReq) (fn : Nat) (b : Word) (e : Word) (bs : List Byte) (put : State → List Byte → State) (h0 : Kept s0 s) (hput : ∀ t a1, Kept s0 t → Kept s0 (put t a1)) : Kept s0 (outAmoEnd s q fn b e bs put) := by
  unfold outAmoEnd
  try dsimp -iota only
  repeat' first
    | with_reducible assumption
    | with_reducible apply hput
    | with_reducible apply outAction_kept
    | with_reducible apply outSend_kept
    | with_reducible apply answer_kept
    | with_reducible apply kept_ite
    | (with_reducible apply kept_foldl; intro t x ht)
    | (with_reducible apply kept_foldl_snd; intro t x ht)
    | split
    | simp only [kept_mk]
    | (with_reducible refine kept_snd (by assumption) ?_)
    | (with_reducible refine kept_snd2 (by assumption) ?_)
    | dsimp -iota only
    | dsimp only
    | decide
    | intro t l w ht
    | intro t l ht
    | intro t ht

theorem outAmo_kept {s0 : State} (s : State) (q : OutReq) (fn : Nat) (b : Word) (e : Word) (h0 : Kept s0 s) : Kept s0 (outAmo s q fn b e).2 := by
  unfold outAmo
  try dsimp -iota only
  repeat' first
    | with_reducible assumption
    | with_reducible apply rowLoad_kept
    | with_reducible apply outAmoEnd_kept
    | with_reducible apply rowStore_kept
    | with_reducible apply answer_kept
    | with_reducible apply flushWhere_kept
    | with_reducible apply mergeLine_kept
    | with_reducible apply outsideWrite_kept
    | with_reducible apply kept_ite
    | (with_reducible apply kept_foldl; intro t x ht)
    | (with_reducible apply kept_foldl_snd; intro t x ht)
    | split
    | simp only [kept_mk]
    | (with_reducible refine kept_snd (by assumption) ?_)
    | (with_reducible refine kept_snd2 (by assumption) ?_)
    | dsimp -iota only
    | dsimp only
    | decide
    | intro t l w ht
    | intro t l ht
    | intro t ht

theorem outDo_kept {s0 : State} (s : State) (q : OutReq) (h0 : Kept s0 s) : Kept s0 (outDo s q).2 := by
  unfold outDo
  try dsimp -iota only
  repeat' first
    | with_reducible assumption
    | with_reducible apply outSend_kept
    | with_reducible apply outAmo_kept
    | with_reducible apply outReads_kept
    | with_reducible apply answer_kept
    | with_reducible apply kept_ite
    | (with_reducible apply kept_foldl; intro t x ht)
    | (with_reducible apply kept_foldl_snd; intro t x ht)
    | split
    | simp only [kept_mk]
    | (with_reducible refine kept_snd (by assumption) ?_)
    | (with_reducible refine kept_snd2 (by assumption) ?_)
    | dsimp -iota only
    | dsimp only
    | decide
    | intro t l w ht
    | intro t l ht
    | intro t ht

theorem outReq_kept {s0 : State} (s : State) (p : Path) (pa : Nat) (n : Nat) (amo : Option (Nat × Word × Word)) (fe : Nat) (rm : RMode) (h0 : Kept s0 s) : Kept s0 (outReq s p pa n amo fe rm) := by
  unfold outReq
  try dsimp -iota only
  repeat' first
    | with_reducible assumption
    | with_reducible apply amo_kept
    | with_reducible apply logAdd_kept
    | with_reducible apply outDo_kept
    | with_reducible apply kept_ite
    | (with_reducible apply kept_foldl; intro t x ht)
    | (with_reducible apply kept_foldl_snd; intro t x ht)
    | split
    | simp only [kept_mk]
    | (with_reducible refine kept_snd (by assumption) ?_)
    | (with_reducible refine kept_snd2 (by assumption) ?_)
    | dsimp -iota only
    | dsimp only
    | decide
    | intro t l w ht
    | intro t l ht
    | intro t ht

theorem outWaitAt_kept {s0 : State} (s : State) (i : Nat) (h0 : Kept s0 s) : Kept s0 (outWaitAt s i) := by
  unfold outWaitAt
  try dsimp -iota only
  repeat' first
    | with_reducible assumption
    | with_reducible apply outDo_kept
    | with_reducible apply kept_ite
    | (with_reducible apply kept_foldl; intro t x ht)
    | (with_reducible apply kept_foldl_snd; intro t x ht)
    | split
    | simp only [kept_mk]
    | (with_reducible refine kept_snd (by assumption) ?_)
    | (with_reducible refine kept_snd2 (by assumption) ?_)
    | dsimp -iota only
    | dsimp only
    | decide
    | intro t l w ht
    | intro t l ht
    | intro t ht

theorem execOutsideAccess_kept {s0 : State} (who : Agent) (pa : Nat) (op : OutOp) (s : State) (h0 : Kept s0 s) : KeptO s0 (execOutsideAccess who pa op s) := by
  unfold execOutsideAccess
  try dsimp -iota only
  repeat' first
    | with_reducible assumption
    | with_reducible apply answer_kept
    | with_reducible apply outReq_kept
    | with_reducible apply outWrite_kept
    | with_reducible apply keptO_next
    | with_reducible apply kept_ite
    | (with_reducible apply kept_foldl; intro t x ht)
    | (with_reducible apply kept_foldl_snd; intro t x ht)
    | split
    | simp only [kept_mk]
    | (with_reducible refine kept_snd (by assumption) ?_)
    | (with_reducible refine kept_snd2 (by assumption) ?_)
    | dsimp -iota only
    | dsimp only
    | decide
    | intro t l w ht
    | intro t l ht
    | intro t ht

theorem slotRead_kept {s0 : State} (s : State) (x : InQ) (n : Nat) (off : Nat) (h0 : Kept s0 s) : Kept s0 (slotRead s x n off).2 := by
  induction n generalizing s off with
  | zero => first | assumption | (unfold slotRead; assumption) | exact fun _ h => h
  | succ n ih =>
    unfold slotRead
    try dsimp -iota only
    repeat' first
      | with_reducible assumption
      | with_reducible apply ih
      | with_reducible apply homeRead_kept
      | with_reducible apply kept_ite
      | (with_reducible apply kept_foldl; intro t x ht)
      | (with_reducible apply kept_foldl_snd; intro t x ht)
      | split
      | simp only [kept_mk]
      | (with_reducible refine kept_snd (by assumption) ?_)
      | (with_reducible refine kept_snd2 (by assumption) ?_)
      | dsimp -iota only
      | dsimp only
      | decide
      | intro t l w ht
      | intro t l ht
      | intro t ht

theorem execTail_kept {s0 : State} (q : Nat) (v : Word) (s : State) (h0 : Kept s0 s) : KeptO s0 (execTail q v s) := by
  unfold execTail
  try dsimp -iota only
  repeat' first
    | with_reducible assumption
    | with_reducible apply tailWrite_kept
    | with_reducible apply keptO_next
    | with_reducible apply kept_ite
    | (with_reducible apply kept_foldl; intro t x ht)
    | (with_reducible apply kept_foldl_snd; intro t x ht)
    | split
    | simp only [kept_mk]
    | (with_reducible refine kept_snd (by assumption) ?_)
    | (with_reducible refine kept_snd2 (by assumption) ?_)
    | dsimp -iota only
    | dsimp only
    | decide
    | intro t l w ht
    | intro t l ht
    | intro t ht

theorem execNotifyWordStore_kept {s0 : State} (q : Nat) (v : Word) (s : State) (h0 : Kept s0 s) : KeptO s0 (execNotifyWordStore q v s) := by
  unfold execNotifyWordStore
  try dsimp -iota only
  repeat' first
    | with_reducible assumption
    | with_reducible apply outsideWrite_kept
    | with_reducible apply keptO_next
    | with_reducible apply kept_ite
    | (with_reducible apply kept_foldl; intro t x ht)
    | (with_reducible apply kept_foldl_snd; intro t x ht)
    | split
    | simp only [kept_mk]
    | (with_reducible refine kept_snd (by assumption) ?_)
    | (with_reducible refine kept_snd2 (by assumption) ?_)
    | dsimp -iota only
    | dsimp only
    | decide
    | intro t l w ht
    | intro t l ht
    | intro t ht

theorem execInboxControlWrite_kept {s0 : State} (q : Nat) (off : Nat) (v : Word) (s : State) (h0 : Kept s0 s) : KeptO s0 (execInboxControlWrite q off v s) := by
  unfold execInboxControlWrite
  try dsimp -iota only
  repeat' first
    | with_reducible assumption
    | with_reducible apply controlWrite_kept
    | with_reducible apply keptO_next
    | with_reducible apply kept_ite
    | (with_reducible apply kept_foldl; intro t x ht)
    | (with_reducible apply kept_foldl_snd; intro t x ht)
    | split
    | simp only [kept_mk]
    | (with_reducible refine kept_snd (by assumption) ?_)
    | (with_reducible refine kept_snd2 (by assumption) ?_)
    | dsimp -iota only
    | dsimp only
    | decide
    | intro t l w ht
    | intro t l ht
    | intro t ht

theorem qEnter_kept {s0 : State} (s : State) (q : Nat) (x : InQ) (pkt : Packet) (h0 : Kept s0 s) : Kept s0 (qEnter s q x pkt) := by
  unfold qEnter
  try dsimp -iota only
  repeat' first
    | with_reducible assumption
    | with_reducible apply modQ_kept
    | with_reducible apply modDie_kept
    | with_reducible apply kept_ite
    | (with_reducible apply kept_foldl; intro t x ht)
    | (with_reducible apply kept_foldl_snd; intro t x ht)
    | split
    | simp only [kept_mk]
    | (with_reducible refine kept_snd (by assumption) ?_)
    | (with_reducible refine kept_snd2 (by assumption) ?_)
    | dsimp -iota only
    | dsimp only
    | decide
    | intro t l w ht
    | intro t l ht
    | intro t ht

theorem execAdmission_kept {s0 : State} (q : Nat) (late : Bool) (s : State) (h0 : Kept s0 s) : KeptO s0 (execAdmission q late s) := by
  unfold execAdmission
  try dsimp -iota only
  repeat' first
    | with_reducible assumption
    | with_reducible apply qEnter_kept
    | with_reducible apply slotRead_kept
    | with_reducible apply modQ_kept
    | with_reducible apply keptO_next
    | with_reducible apply kept_ite
    | (with_reducible apply kept_foldl; intro t x ht)
    | (with_reducible apply kept_foldl_snd; intro t x ht)
    | split
    | simp only [kept_mk]
    | (with_reducible refine kept_snd (by assumption) ?_)
    | (with_reducible refine kept_snd2 (by assumption) ?_)
    | dsimp -iota only
    | dsimp only
    | decide
    | intro t l w ht
    | intro t l ht
    | intro t ht

theorem bar0Write_kept {s0 : State} (s : State) (p : Path) (off : Nat) (bs : List Byte) (h0 : Kept s0 s) : Kept s0 (bar0Write s p off bs) := by
  unfold bar0Write
  try dsimp -iota only
  repeat' first
    | with_reducible assumption
    | with_reducible apply sysWrite_kept
    | with_reducible apply queueWrite_kept
    | with_reducible apply kept_ite
    | (with_reducible apply kept_foldl; intro t x ht)
    | (with_reducible apply kept_foldl_snd; intro t x ht)
    | split
    | simp only [kept_mk]
    | (with_reducible refine kept_snd (by assumption) ?_)
    | (with_reducible refine kept_snd2 (by assumption) ?_)
    | dsimp -iota only
    | dsimp only
    | decide
    | intro t l w ht
    | intro t l ht
    | intro t ht

theorem execHostWrite_kept {s0 : State} (link : Nat) (bar : HostBar) (off : Nat) (bytes : List Byte) (s : State) (h0 : Kept s0 s) : KeptO s0 (execHostWrite link bar off bytes s) := by
  unfold execHostWrite
  try dsimp -iota only
  repeat' first
    | with_reducible assumption
    | with_reducible apply answer_kept
    | with_reducible apply bar0Write_kept
    | with_reducible apply outWrite_kept
    | with_reducible apply keptO_next
    | with_reducible apply kept_ite
    | (with_reducible apply kept_foldl; intro t x ht)
    | (with_reducible apply kept_foldl_snd; intro t x ht)
    | split
    | simp only [kept_mk]
    | (with_reducible refine kept_snd (by assumption) ?_)
    | (with_reducible refine kept_snd2 (by assumption) ?_)
    | dsimp -iota only
    | dsimp only
    | decide
    | intro t l w ht
    | intro t l ht
    | intro t ht

theorem dirEnter_kept {s0 : State} (s : State) (pa : Nat) (h0 : Kept s0 s) : Kept s0 (dirEnter s pa) := by
  unfold dirEnter
  try dsimp -iota only
  repeat' first
    | with_reducible assumption
    | with_reducible apply modDie_kept
    | with_reducible apply kept_ite
    | (with_reducible apply kept_foldl; intro t x ht)
    | (with_reducible apply kept_foldl_snd; intro t x ht)
    | split
    | simp only [kept_mk]
    | (with_reducible refine kept_snd (by assumption) ?_)
    | (with_reducible refine kept_snd2 (by assumption) ?_)
    | dsimp -iota only
    | dsimp only
    | decide
    | intro t l w ht
    | intro t l ht
    | intro t ht

theorem execHostRead_kept {s0 : State} (link : Nat) (bar : HostBar) (off : Nat) (n : Nat) (s : State) (h0 : Kept s0 s) : KeptO s0 (execHostRead link bar off n s) := by
  unfold execHostRead
  try dsimp -iota only
  repeat' first
    | with_reducible assumption
    | with_reducible apply answer_kept
    | with_reducible apply outReq_kept
    | with_reducible apply dirEnter_kept
    | with_reducible apply keptO_next
    | with_reducible apply kept_ite
    | (with_reducible apply kept_foldl; intro t x ht)
    | (with_reducible apply kept_foldl_snd; intro t x ht)
    | split
    | simp only [kept_mk]
    | (with_reducible refine kept_snd (by assumption) ?_)
    | (with_reducible refine kept_snd2 (by assumption) ?_)
    | dsimp -iota only
    | dsimp only
    | decide
    | intro t l w ht
    | intro t l ht
    | intro t ht

theorem execCxlSnoop_kept {s0 : State} (die : Nat) (pa : Nat) (inval : Bool) (s : State) (h0 : Kept s0 s) : KeptO s0 (execCxlSnoop die pa inval s) := by
  unfold execCxlSnoop
  try dsimp -iota only
  repeat' first
    | with_reducible assumption
    | with_reducible apply flushWhere_kept
    | with_reducible apply cleanWhere_kept
    | with_reducible apply keptO_next
    | with_reducible apply kept_ite
    | (with_reducible apply kept_foldl; intro t x ht)
    | (with_reducible apply kept_foldl_snd; intro t x ht)
    | split
    | simp only [kept_mk]
    | (with_reducible refine kept_snd (by assumption) ?_)
    | (with_reducible refine kept_snd2 (by assumption) ?_)
    | dsimp -iota only
    | dsimp only
    | decide
    | intro t l w ht
    | intro t l ht
    | intro t ht

theorem execDirectoryMerge_kept {s0 : State} (die : Nat) (i : Nat) (s : State) (h0 : Kept s0 s) : KeptO s0 (execDirectoryMerge die i s) := by
  unfold execDirectoryMerge
  try dsimp -iota only
  repeat' first
    | with_reducible assumption
    | with_reducible apply modDie_kept
    | with_reducible apply keptO_next
    | with_reducible apply kept_ite
    | (with_reducible apply kept_foldl; intro t x ht)
    | (with_reducible apply kept_foldl_snd; intro t x ht)
    | split
    | simp only [kept_mk]
    | (with_reducible refine kept_snd (by assumption) ?_)
    | (with_reducible refine kept_snd2 (by assumption) ?_)
    | dsimp -iota only
    | dsimp only
    | decide
    | intro t l w ht
    | intro t l ht
    | intro t ht

theorem execBackInvalidateCompletion_kept {s0 : State} (die : Nat) (i : Nat) (s : State) (h0 : Kept s0 s) : KeptO s0 (execBackInvalidateCompletion die i s) := by
  unfold execBackInvalidateCompletion
  try dsimp -iota only
  repeat' first
    | with_reducible assumption
    | with_reducible apply modDie_kept
    | with_reducible apply keptO_next
    | with_reducible apply kept_ite
    | (with_reducible apply kept_foldl; intro t x ht)
    | (with_reducible apply kept_foldl_snd; intro t x ht)
    | split
    | simp only [kept_mk]
    | (with_reducible refine kept_snd (by assumption) ?_)
    | (with_reducible refine kept_snd2 (by assumption) ?_)
    | dsimp -iota only
    | dsimp only
    | decide
    | intro t l w ht
    | intro t l ht
    | intro t ht

theorem peerForce_kept {s0 : State} (s : State) (pa : Nat) (n : Nat) (h0 : Kept s0 s) : Kept s0 (peerForce s pa n) := by
  unfold peerForce
  try dsimp -iota only
  repeat' first
    | with_reducible assumption
    | with_reducible apply dirForce_kept
    | with_reducible apply kept_ite
    | (with_reducible apply kept_foldl; intro t x ht)
    | (with_reducible apply kept_foldl_snd; intro t x ht)
    | split
    | simp only [kept_mk]
    | (with_reducible refine kept_snd (by assumption) ?_)
    | (with_reducible refine kept_snd2 (by assumption) ?_)
    | dsimp -iota only
    | dsimp only
    | decide
    | intro t l w ht
    | intro t l ht
    | intro t ht

theorem execPeerAccess_kept {s0 : State} (port : Nat) (pa : Nat) (op : PeerOp) (s : State) (h0 : Kept s0 s) : KeptO s0 (execPeerAccess port pa op s) := by
  unfold execPeerAccess
  try dsimp -iota only
  repeat' first
    | with_reducible assumption
    | with_reducible apply load_kept
    | with_reducible apply outReq_kept
    | with_reducible apply peerForce_kept
    | with_reducible apply answer_kept
    | with_reducible apply store_kept
    | with_reducible apply outWrite_kept
    | with_reducible apply notify_kept
    | with_reducible apply modDie_kept
    | with_reducible apply keptO_next
    | with_reducible apply kept_ite
    | (with_reducible apply kept_foldl; intro t x ht)
    | (with_reducible apply kept_foldl_snd; intro t x ht)
    | split
    | simp only [kept_mk]
    | (with_reducible refine kept_snd (by assumption) ?_)
    | (with_reducible refine kept_snd2 (by assumption) ?_)
    | dsimp -iota only
    | dsimp only
    | decide
    | intro t l w ht
    | intro t l ht
    | intro t ht

end Sys2Proof.Machine
end

