-- ==== Sys2Proof/Laws/KeptStart.lean ====
section
/-! SUPPORT. The operations of Machine/Start.lean keep canonical memory and legal control blocks (Kept.lean). -/

namespace Sys2Proof.Machine

set_option linter.all false

theorem imageWords_kept {s0 : State} (s : State) (r : RowId) (w : Nat) (arg3 : List Word) (h0 : Kept s0 s) : Kept s0 (imageWords s r w arg3) := by
  induction arg3 generalizing s w with
  | nil => first | assumption | (unfold imageWords; assumption) | exact fun _ h => h
  | cons x xs ih =>
    unfold imageWords
    try dsimp -iota only
    repeat' first
      | with_reducible assumption
      | with_reducible apply ih
      | with_reducible apply rowStore_kept
      | with_reducible apply kept_ite
      | (with_reducible apply kept_foldl; intro t x ht)
      | (with_reducible apply kept_foldl_snd; intro t x ht)
      | split
      | simp only [kept_mk]
      | (with_reducible refine kept_snd (by assumption) ?_)
      | (with_reducible refine kept_snd2 (by assumption) ?_)
      | dsimp -iota only
      | dsimp only
      | decide
      | intro t l w ht
      | intro t l ht
      | intro t ht

theorem imageRow_kept {s0 : State} (s : State) (x : StartRow) (h0 : Kept s0 s) : Kept s0 (imageRow s x) := by
  unfold imageRow
  try dsimp -iota only
  repeat' first
    | with_reducible assumption
    | with_reducible apply imageWords_kept
    | with_reducible apply rowStore_kept
    | with_reducible apply setEmpties_kept
    | with_reducible apply kept_ite
    | (with_reducible apply kept_foldl; intro t x ht)
    | (with_reducible apply kept_foldl_snd; intro t x ht)
    | split
    | simp only [kept_mk]
    | (with_reducible refine kept_snd (by assumption) ?_)
    | (with_reducible refine kept_snd2 (by assumption) ?_)
    | dsimp -iota only
    | dsimp only
    | decide
    | intro t l w ht
    | intro t l ht
    | intro t ht

theorem imageChan_kept {s0 : State} (s : State) (x : StartChan) (h0 : Kept s0 s) : Kept s0 (imageChan s x) := by
  unfold imageChan
  try dsimp -iota only
  repeat' first
    | with_reducible assumption
    | with_reducible apply ctlWrite_kept
    | with_reducible apply kept_ite
    | (with_reducible apply kept_foldl; intro t x ht)
    | (with_reducible apply kept_foldl_snd; intro t x ht)
    | split
    | simp only [kept_mk]
    | (with_reducible refine kept_snd (by assumption) ?_)
    | (with_reducible refine kept_snd2 (by assumption) ?_)
    | dsimp -iota only
    | dsimp only
    | decide
    | intro t l w ht
    | intro t l ht
    | intro t ht

theorem imageSection_kept {s0 : State} (s : State) (x : Nat × List Byte) (h0 : Kept s0 s) : Kept s0 (imageSection s x) := by
  unfold imageSection
  try dsimp -iota only
  repeat' first
    | with_reducible assumption
    | with_reducible apply gddrWrite_kept
    | with_reducible apply kept_ite
    | (with_reducible apply kept_foldl; intro t x ht)
    | (with_reducible apply kept_foldl_snd; intro t x ht)
    | split
    | simp only [kept_mk]
    | (with_reducible refine kept_snd (by assumption) ?_)
    | (with_reducible refine kept_snd2 (by assumption) ?_)
    | dsimp -iota only
    | dsimp only
    | decide
    | intro t l w ht
    | intro t l ht
    | intro t ht

theorem loadImage_kept {s0 : State} (s : State) (h0 : Kept s0 s) : Kept s0 (loadImage s) := by
  unfold loadImage
  try dsimp -iota only
  repeat' first
    | with_reducible assumption
    | with_reducible apply imageChan_kept
    | with_reducible apply imageRow_kept
    | with_reducible apply imageSection_kept
    | with_reducible apply cmdKindle_kept
    | with_reducible apply kept_ite
    | (with_reducible apply kept_foldl; intro t x ht)
    | (with_reducible apply kept_foldl_snd; intro t x ht)
    | split
    | simp only [kept_mk]
    | (with_reducible refine kept_snd (by assumption) ?_)
    | (with_reducible refine kept_snd2 (by assumption) ?_)
    | dsimp -iota only
    | dsimp only
    | decide
    | intro t l w ht
    | intro t l ht
    | intro t ht

theorem startBegin_kept {s0 : State} (s : State) (h0 : Kept s0 s) : Kept s0 (startBegin s) := by
  unfold startBegin
  try dsimp -iota only
  repeat' first
    | with_reducible assumption
    | with_reducible apply modPart_kept
    | with_reducible apply modCl_kept
    | with_reducible apply loadImage_kept
    | with_reducible apply kept_ite
    | (with_reducible apply kept_foldl; intro t x ht)
    | (with_reducible apply kept_foldl_snd; intro t x ht)
    | split
    | simp only [kept_mk]
    | (with_reducible refine kept_snd (by assumption) ?_)
    | (with_reducible refine kept_snd2 (by assumption) ?_)
    | dsimp -iota only
    | dsimp only
    | decide
    | intro t l w ht
    | intro t l ht
    | intro t ht

theorem clearStart_kept {s0 : State} (s : State) (h0 : Kept s0 s) : Kept s0 (clearStart s) := by
  refine ⟨fun h => ?_, fun _ => ⟨fun _ => rowOk_default, fun _ _ => rowOk_default⟩⟩
  exact smWf_filter 0 _ _ (smWf_smGive 0 _ _ _ _ (h0.1 h))

theorem clearRows_kept {s0 : State} (s : State) (h0 : Kept s0 s) : Kept s0 (clearRows s) := by
  unfold clearRows
  try dsimp -iota only
  repeat' first
    | with_reducible assumption
    | exact filter_kept (by assumption) _ rfl (.inr rfl) (.inl rfl)
    | with_reducible apply modCore_kept
    | with_reducible apply kept_ite
    | (with_reducible apply kept_foldl; intro t x ht)
    | (with_reducible apply kept_foldl_snd; intro t x ht)
    | split
    | simp only [kept_mk]
    | (with_reducible refine kept_snd (by assumption) ?_)
    | (with_reducible refine kept_snd2 (by assumption) ?_)
    | dsimp -iota only
    | dsimp only
    | decide
    | intro t l w ht
    | intro t l ht
    | intro t ht

theorem stageDone_kept {s0 : State} (s : State) (a : Nat) (st : Nat) (h0 : Kept s0 s) : Kept s0 (stageDone s a st) := by
  unfold stageDone
  try dsimp -iota only
  repeat' first
    | with_reducible assumption
    | exact filter_kept h0 _ rfl (.inl rfl) (.inl rfl)
    | with_reducible apply modPkg_kept
    | with_reducible apply clearRows_kept
    | with_reducible apply startBegin_kept
    | with_reducible apply clearStart_kept
    | with_reducible apply kept_ite
    | (with_reducible apply kept_foldl; intro t x ht)
    | (with_reducible apply kept_foldl_snd; intro t x ht)
    | split
    | simp only [kept_mk]
    | (with_reducible refine kept_snd (by assumption) ?_)
    | (with_reducible refine kept_snd2 (by assumption) ?_)
    | dsimp -iota only
    | dsimp only
    | decide
    | intro t l w ht
    | intro t l ht
    | intro t ht

theorem stageFails_kept {s0 : State} (s : State) (b : Boot) (cause : Nat) (h0 : Kept s0 s) : Kept s0 (stageFails s b cause) := by
  unfold stageFails
  refine attemptFails_kept _ _ _ ?_
  split
  · exact clearStart_kept s h0
  · exact h0

theorem stageStep_kept {s0 : State} (s : State) (res : StageResult) (h0 : Kept s0 s) : Kept s0 (stageStep s res) := by
  unfold stageStep
  try dsimp -iota only
  repeat' first
    | with_reducible assumption
    | with_reducible apply stageFails_kept
    | with_reducible apply stageDone_kept
    | with_reducible apply kept_ite
    | (with_reducible apply kept_foldl; intro t x ht)
    | (with_reducible apply kept_foldl_snd; intro t x ht)
    | split
    | simp only [kept_mk]
    | (with_reducible refine kept_snd (by assumption) ?_)
    | (with_reducible refine kept_snd2 (by assumption) ?_)
    | dsimp -iota only
    | dsimp only
    | decide
    | intro t l w ht
    | intro t l ht
    | intro t ht

theorem stageLate_kept {s0 : State} (s : State) (h0 : Kept s0 s) : Kept s0 (stageLate s) := by
  unfold stageLate
  try dsimp -iota only
  repeat' first
    | with_reducible assumption
    | with_reducible apply stageFails_kept
    | with_reducible apply kept_ite
    | (with_reducible apply kept_foldl; intro t x ht)
    | (with_reducible apply kept_foldl_snd; intro t x ht)
    | split
    | simp only [kept_mk]
    | (with_reducible refine kept_snd (by assumption) ?_)
    | (with_reducible refine kept_snd2 (by assumption) ?_)
    | dsimp -iota only
    | dsimp only
    | decide
    | intro t l w ht
    | intro t l ht
    | intro t ht

end Sys2Proof.Machine
end

