-- ==== Sys2Proof/Laws/KeptEvents.lean ====
section
/-! SUPPORT. The operations of Machine/Events.lean keep canonical memory and legal control blocks (Kept.lean). -/

namespace Sys2Proof.Machine

set_option linter.all false

/-- Memory and rows exchanged with a shadow's. -/
theorem exchange_kept {s0 s t : State} (h : Kept s0 s) (core lo hi l2 h2 : Nat) (away : ShadowCore)
    (hm : t.mem = smGive 0 s.mem lo hi (smGet {} s.shadow core).bytes)
    (hr : t.rows = smGive {} s.rows l2 h2 (smGet {} s.shadow core).rows)
    (ha : away.rows = smTake s.rows l2 h2) (hs : t.shadow = smSet {} s.shadow core away) : Kept s0 t := by
  refine ⟨fun h0 => ?_, fun h0 => ?_⟩
  · simp only [Memory.wf, hm]; exact smWf_smGive 0 s.mem lo hi _ (h.1 h0)
  · obtain ⟨g1, g2⟩ := h.2 h0
    refine ⟨fun k => ?_, fun c k => ?_⟩
    · rw [hr, smGet_smGive]; split
      · exact g2 core _
      · exact g1 k
    · rw [hs, smGet_smSet]; split
      · rw [ha, smGet_smTake]; split
        · exact g1 _
        · exact rowOk_default
      · exact g2 c k

/-- A core's shadow is replaced by one whose rows are legal. -/
theorem shadowLegal_kept {s0 s t : State} (h : Kept s0 s) (core : Nat) (x : ShadowCore)
    (hs : t.shadow = smSet {} s.shadow core x) (hm : t.mem = s.mem) (hr : t.rows = s.rows)
    (hx : RowsOk s0 → ∀ k, RowOk (smGet {} x.rows k)) : Kept s0 t := by
  refine ⟨fun h0 => ?_, fun h0 => ⟨fun k => ?_, fun c k => ?_⟩⟩
  · simp only [Memory.wf, hm]; exact h.1 h0
  · rw [hr]; exact (h.2 h0).1 k
  · rw [hs, smGet_smSet]; split
    · exact hx h0 k
    · exact (h.2 h0).2 c k

theorem shadowRows_kept {s0 s t : State} (h : Kept s0 s) (core : Nat) (x : ShadowCore)
    (hs : t.shadow = smSet {} s.shadow core x) (hm : t.mem = s.mem) (hr : t.rows = s.rows)
    (hx : x.rows = (smGet {} s.shadow core).rows) : Kept s0 t :=
  shadowLegal_kept h core x hs hm hr fun h0 k => hx ▸ (h.2 h0).2 core k

theorem execStorePerform_kept {s0 : State} (core : Nat) (s : State) (h0 : Kept s0 s) : KeptO s0 (execStorePerform core s) := by
  unfold execStorePerform
  try dsimp -iota only
  repeat' first
    | with_reducible assumption
    | with_reducible apply fifoStep_kept
    | with_reducible apply keptO_next
    | with_reducible apply kept_ite
    | (with_reducible apply kept_foldl; intro t x ht)
    | (with_reducible apply kept_foldl_snd; intro t x ht)
    | split
    | simp only [kept_mk]
    | (with_reducible refine kept_snd (by assumption) ?_)
    | (with_reducible refine kept_snd2 (by assumption) ?_)
    | dsimp -iota only
    | dsimp only
    | decide
    | intro t l w ht
    | intro t l ht
    | intro t ht

theorem execPerformanceAtTarget_kept {s0 : State} (i : Nat) (s : State) (h0 : Kept s0 s) : KeptO s0 (execPerformanceAtTarget i s) := by
  unfold execPerformanceAtTarget
  try dsimp -iota only
  repeat' first
    | with_reducible assumption
    | with_reducible apply endFlight_kept
    | with_reducible apply flightStep_kept
    | with_reducible apply keptO_next
    | with_reducible apply kept_ite
    | (with_reducible apply kept_foldl; intro t x ht)
    | (with_reducible apply kept_foldl_snd; intro t x ht)
    | split
    | simp only [kept_mk]
    | (with_reducible refine kept_snd (by assumption) ?_)
    | (with_reducible refine kept_snd2 (by assumption) ?_)
    | dsimp -iota only
    | dsimp only
    | decide
    | intro t l w ht
    | intro t l ht
    | intro t ht

theorem execFill_kept {s0 : State} (id : Nat) (k : FillStep) (s : State) (h0 : Kept s0 s) : KeptO s0 (execFill id k s) := by
  unfold execFill
  try dsimp -iota only
  repeat' first
    | with_reducible assumption
    | with_reducible apply deliver_kept
    | with_reducible apply deliverStep_kept
    | with_reducible apply load_kept
    | with_reducible apply loadPerform_kept
    | with_reducible apply sendPerform_kept
    | with_reducible apply keptO_next
    | with_reducible apply kept_ite
    | (with_reducible apply kept_foldl; intro t x ht)
    | (with_reducible apply kept_foldl_snd; intro t x ht)
    | split
    | simp only [kept_mk]
    | (with_reducible refine kept_snd (by assumption) ?_)
    | (with_reducible refine kept_snd2 (by assumption) ?_)
    | dsimp -iota only
    | dsimp only
    | decide
    | intro t l w ht
    | intro t l ht
    | intro t ht

theorem execRemoteFePerform_kept {s0 : State} (id : Nat) (s : State) (h0 : Kept s0 s) : KeptO s0 (execRemoteFePerform id s) := by
  unfold execRemoteFePerform
  try dsimp -iota only
  repeat' first
    | with_reducible assumption
    | with_reducible apply load_kept
    | with_reducible apply loadPerform_kept
    | with_reducible apply keptO_next
    | with_reducible apply kept_ite
    | (with_reducible apply kept_foldl; intro t x ht)
    | (with_reducible apply kept_foldl_snd; intro t x ht)
    | split
    | simp only [kept_mk]
    | (with_reducible refine kept_snd (by assumption) ?_)
    | (with_reducible refine kept_snd2 (by assumption) ?_)
    | dsimp -iota only
    | dsimp only
    | decide
    | intro t l w ht
    | intro t l ht
    | intro t ht

theorem execAtomicPerform_kept {s0 : State} (id : Nat) (s : State) (h0 : Kept s0 s) : KeptO s0 (execAtomicPerform id s) := by
  unfold execAtomicPerform
  try dsimp -iota only
  repeat' first
    | with_reducible assumption
    | with_reducible apply atomicPerform_kept
    | with_reducible apply keptO_next
    | with_reducible apply kept_ite
    | (with_reducible apply kept_foldl; intro t x ht)
    | (with_reducible apply kept_foldl_snd; intro t x ht)
    | split
    | simp only [kept_mk]
    | (with_reducible refine kept_snd (by assumption) ?_)
    | (with_reducible refine kept_snd2 (by assumption) ?_)
    | dsimp -iota only
    | dsimp only
    | decide
    | intro t l w ht
    | intro t l ht
    | intro t ht

theorem execCopyPiece_kept {s0 : State} (cluster : Nat) (i : Nat) (k : Nat) (s : State) (h0 : Kept s0 s) : KeptO s0 (execCopyPiece cluster i k s) := by
  unfold execCopyPiece
  try dsimp -iota only
  repeat' first
    | with_reducible assumption
    | with_reducible apply copyStep_kept
    | with_reducible apply keptO_next
    | with_reducible apply kept_ite
    | (with_reducible apply kept_foldl; intro t x ht)
    | (with_reducible apply kept_foldl_snd; intro t x ht)
    | split
    | simp only [kept_mk]
    | (with_reducible refine kept_snd (by assumption) ?_)
    | (with_reducible refine kept_snd2 (by assumption) ?_)
    | dsimp -iota only
    | dsimp only
    | decide
    | intro t l w ht
    | intro t l ht
    | intro t ht

theorem execDistributorBlock_kept {s0 : State} (die : Nat) (i : Nat) (k : Nat) (s : State) (h0 : Kept s0 s) : KeptO s0 (execDistributorBlock die i k s) := by
  unfold execDistributorBlock
  try dsimp -iota only
  repeat' first
    | with_reducible assumption
    | with_reducible apply distStep_kept
    | with_reducible apply keptO_next
    | with_reducible apply kept_ite
    | (with_reducible apply kept_foldl; intro t x ht)
    | (with_reducible apply kept_foldl_snd; intro t x ht)
    | split
    | simp only [kept_mk]
    | (with_reducible refine kept_snd (by assumption) ?_)
    | (with_reducible refine kept_snd2 (by assumption) ?_)
    | dsimp -iota only
    | dsimp only
    | decide
    | intro t l w ht
    | intro t l ht
    | intro t ht

theorem execDateBroadcast_kept {s0 : State} (slice : Nat) (date : Nat) (s : State) (h0 : Kept s0 s) : KeptO s0 (execDateBroadcast slice date s) := by
  unfold execDateBroadcast
  try dsimp -iota only
  repeat' first
    | with_reducible assumption
    | with_reducible apply dateStep_kept
    | with_reducible apply keptO_next
    | with_reducible apply kept_ite
    | (with_reducible apply kept_foldl; intro t x ht)
    | (with_reducible apply kept_foldl_snd; intro t x ht)
    | split
    | simp only [kept_mk]
    | (with_reducible refine kept_snd (by assumption) ?_)
    | (with_reducible refine kept_snd2 (by assumption) ?_)
    | dsimp -iota only
    | dsimp only
    | decide
    | intro t l w ht
    | intro t l ht
    | intro t ht

theorem execAcquirePassOwn_kept {s0 : State} (id : Nat) (slice : Nat) (s : State) (h0 : Kept s0 s) : KeptO s0 (execAcquirePassOwn id slice s) := by
  unfold execAcquirePassOwn
  try dsimp -iota only
  repeat' first
    | with_reducible assumption
    | with_reducible apply passOwn_kept
    | with_reducible apply keptO_next
    | with_reducible apply kept_ite
    | (with_reducible apply kept_foldl; intro t x ht)
    | (with_reducible apply kept_foldl_snd; intro t x ht)
    | split
    | simp only [kept_mk]
    | (with_reducible refine kept_snd (by assumption) ?_)
    | (with_reducible refine kept_snd2 (by assumption) ?_)
    | dsimp -iota only
    | dsimp only
    | decide
    | intro t l w ht
    | intro t l ht
    | intro t ht

theorem execAcquirePassOther_kept {s0 : State} (id : Nat) (slice : Nat) (s : State) (h0 : Kept s0 s) : KeptO s0 (execAcquirePassOther id slice s) := by
  unfold execAcquirePassOther
  try dsimp -iota only
  repeat' first
    | with_reducible assumption
    | with_reducible apply passOther_kept
    | with_reducible apply keptO_next
    | with_reducible apply kept_ite
    | (with_reducible apply kept_foldl; intro t x ht)
    | (with_reducible apply kept_foldl_snd; intro t x ht)
    | split
    | simp only [kept_mk]
    | (with_reducible refine kept_snd (by assumption) ?_)
    | (with_reducible refine kept_snd2 (by assumption) ?_)
    | dsimp -iota only
    | dsimp only
    | decide
    | intro t l w ht
    | intro t l ht
    | intro t ht

theorem execFrostSweep_kept {s0 : State} (slice : Nat) (s : State) (h0 : Kept s0 s) : KeptO s0 (execFrostSweep slice s) := by
  unfold execFrostSweep
  try dsimp -iota only
  repeat' first
    | with_reducible assumption
    | with_reducible apply frostStep_kept
    | with_reducible apply keptO_next
    | with_reducible apply kept_ite
    | (with_reducible apply kept_foldl; intro t x ht)
    | (with_reducible apply kept_foldl_snd; intro t x ht)
    | split
    | simp only [kept_mk]
    | (with_reducible refine kept_snd (by assumption) ?_)
    | (with_reducible refine kept_snd2 (by assumption) ?_)
    | dsimp -iota only
    | dsimp only
    | decide
    | intro t l w ht
    | intro t l ht
    | intro t ht

theorem execFlueRequest_kept {s0 : State} (i : Nat) (hop : Option Nat) (s : State) (h0 : Kept s0 s) : KeptO s0 (execFlueRequest i hop s) := by
  unfold execFlueRequest
  try dsimp -iota only
  repeat' first
    | with_reducible assumption
    | with_reducible apply flueStep_kept
    | with_reducible apply keptO_next
    | with_reducible apply kept_ite
    | (with_reducible apply kept_foldl; intro t x ht)
    | (with_reducible apply kept_foldl_snd; intro t x ht)
    | split
    | simp only [kept_mk]
    | (with_reducible refine kept_snd (by assumption) ?_)
    | (with_reducible refine kept_snd2 (by assumption) ?_)
    | dsimp -iota only
    | dsimp only
    | decide
    | intro t l w ht
    | intro t l ht
    | intro t ht

theorem execFlueRecord_kept {s0 : State} (die : Nat) (_i : Nat) (s : State) (h0 : Kept s0 s) : KeptO s0 (execFlueRecord die _i s) := by
  unfold execFlueRecord
  try dsimp -iota only
  repeat' first
    | with_reducible assumption
    | with_reducible apply flueSend_kept
    | with_reducible apply keptO_next
    | with_reducible apply kept_ite
    | (with_reducible apply kept_foldl; intro t x ht)
    | (with_reducible apply kept_foldl_snd; intro t x ht)
    | split
    | simp only [kept_mk]
    | (with_reducible refine kept_snd (by assumption) ?_)
    | (with_reducible refine kept_snd2 (by assumption) ?_)
    | dsimp -iota only
    | dsimp only
    | decide
    | intro t l w ht
    | intro t l ht
    | intro t ht

theorem execFlueres_kept {s0 : State} (v : Word) (s : State) (h0 : Kept s0 s) : KeptO s0 (execFlueres v s) := by
  unfold execFlueres
  try dsimp -iota only
  repeat' first
    | with_reducible assumption
    | with_reducible apply flueBroadcast_kept
    | with_reducible apply keptO_next
    | with_reducible apply kept_ite
    | (with_reducible apply kept_foldl; intro t x ht)
    | (with_reducible apply kept_foldl_snd; intro t x ht)
    | split
    | simp only [kept_mk]
    | (with_reducible refine kept_snd (by assumption) ?_)
    | (with_reducible refine kept_snd2 (by assumption) ?_)
    | dsimp -iota only
    | dsimp only
    | decide
    | intro t l w ht
    | intro t l ht
    | intro t ht

theorem resolveAt_kept {s0 : State} (s : State) (x : FlueRes) (core : Nat) (h0 : Kept s0 s) : Kept s0 (resolveAt s x core).2 := by
  unfold resolveAt
  try dsimp -iota only
  repeat' first
    | with_reducible assumption
    | with_reducible apply logAdd_kept
    | with_reducible apply resolveCore_kept
    | with_reducible apply kept_ite
    | (with_reducible apply kept_foldl; intro t x ht)
    | (with_reducible apply kept_foldl_snd; intro t x ht)
    | split
    | simp only [kept_mk]
    | (with_reducible refine kept_snd (by assumption) ?_)
    | (with_reducible refine kept_snd2 (by assumption) ?_)
    | dsimp -iota only
    | dsimp only
    | decide
    | intro t l w ht
    | intro t l ht
    | intro t ht

theorem execFlueResolution_kept {s0 : State} (i : Nat) (core : Nat) (s : State) (h0 : Kept s0 s) : KeptO s0 (execFlueResolution i core s) := by
  unfold execFlueResolution
  try dsimp -iota only
  repeat' first
    | with_reducible assumption
    | with_reducible apply resolveAt_kept
    | with_reducible apply keptO_next
    | with_reducible apply kept_ite
    | (with_reducible apply kept_foldl; intro t x ht)
    | (with_reducible apply kept_foldl_snd; intro t x ht)
    | split
    | simp only [kept_mk]
    | (with_reducible refine kept_snd (by assumption) ?_)
    | (with_reducible refine kept_snd2 (by assumption) ?_)
    | dsimp -iota only
    | dsimp only
    | decide
    | intro t l w ht
    | intro t l ht
    | intro t ht

theorem haltUnits_kept {s0 : State} (s : State) (core : Nat) (h0 : Kept s0 s) : Kept s0 (haltUnits s core) := by
  unfold haltUnits
  try dsimp -iota only
  repeat' first
    | with_reducible assumption
    | with_reducible apply endGang_kept
    | with_reducible apply mergeCore_kept
    | with_reducible apply endRun_kept
    | with_reducible apply modCl_kept
    | with_reducible apply kept_ite
    | (with_reducible apply kept_foldl; intro t x ht)
    | (with_reducible apply kept_foldl_snd; intro t x ht)
    | split
    | simp only [kept_mk]
    | (with_reducible refine kept_snd (by assumption) ?_)
    | (with_reducible refine kept_snd2 (by assumption) ?_)
    | dsimp -iota only
    | dsimp only
    | decide
    | intro t l w ht
    | intro t l ht
    | intro t ht

theorem takeHalt_kept {s0 : State} (s : State) (part : Nat) (core : Nat) (h0 : Kept s0 s) : Kept s0 (takeHalt s part core) := by
  unfold takeHalt
  try dsimp -iota only
  repeat' first
    | with_reducible assumption
    | with_reducible apply modPart_kept
    | with_reducible apply haltUnits_kept
    | with_reducible apply makeStopped_kept
    | with_reducible apply kept_ite
    | (with_reducible apply kept_foldl; intro t x ht)
    | (with_reducible apply kept_foldl_snd; intro t x ht)
    | split
    | simp only [kept_mk]
    | (with_reducible refine kept_snd (by assumption) ?_)
    | (with_reducible refine kept_snd2 (by assumption) ?_)
    | dsimp -iota only
    | dsimp only
    | decide
    | intro t l w ht
    | intro t l ht
    | intro t ht

theorem haltBytes_kept {s0 : State} (s : State) (core : Nat) (h0 : Kept s0 s) : Kept s0 (haltBytes s core).2 := by
  unfold haltBytes
  try dsimp -iota only
  repeat' first
    | with_reducible assumption
    | with_reducible apply freeWord_kept
    | with_reducible apply kept_ite
    | (with_reducible apply kept_foldl; intro t x ht)
    | (with_reducible apply kept_foldl_snd; intro t x ht)
    | split
    | simp only [kept_mk]
    | (with_reducible refine kept_snd (by assumption) ?_)
    | (with_reducible refine kept_snd2 (by assumption) ?_)
    | dsimp -iota only
    | dsimp only
    | decide
    | intro t l w ht
    | intro t l ht
    | intro t ht

theorem finishHalt_kept {s0 : State} (s : State) (part : Nat) (core : Nat) (h0 : Kept s0 s) : Kept s0 (finishHalt s part core) := by
  unfold finishHalt
  try dsimp -iota only
  repeat' first
    | with_reducible assumption
    | with_reducible apply mergeCore_kept
    | with_reducible apply haltBytes_kept
    | with_reducible apply homeStore_kept
    | with_reducible apply modPart_kept
    | with_reducible apply kept_ite
    | (with_reducible apply kept_foldl; intro t x ht)
    | (with_reducible apply kept_foldl_snd; intro t x ht)
    | split
    | simp only [kept_mk]
    | (with_reducible refine kept_snd (by assumption) ?_)
    | (with_reducible refine kept_snd2 (by assumption) ?_)
    | dsimp -iota only
    | dsimp only
    | decide
    | intro t l w ht
    | intro t l ht
    | intro t ht

theorem execHalt_kept {s0 : State} (core : Nat) (s : State) (h0 : Kept s0 s) : KeptO s0 (execHalt core s) := by
  unfold execHalt
  try dsimp -iota only
  repeat' first
    | with_reducible assumption
    | with_reducible apply finishHalt_kept
    | with_reducible apply takeHalt_kept
    | with_reducible apply keptO_next
    | with_reducible apply kept_ite
    | (with_reducible apply kept_foldl; intro t x ht)
    | (with_reducible apply kept_foldl_snd; intro t x ht)
    | split
    | simp only [kept_mk]
    | (with_reducible refine kept_snd (by assumption) ?_)
    | (with_reducible refine kept_snd2 (by assumption) ?_)
    | dsimp -iota only
    | dsimp only
    | decide
    | intro t l w ht
    | intro t l ht
    | intro t ht

theorem execHaltReport_kept {s0 : State} (part : Nat) (s : State) (h0 : Kept s0 s) : KeptO s0 (execHaltReport part s) := by
  unfold execHaltReport
  try dsimp -iota only
  repeat' first
    | with_reducible assumption
    | with_reducible apply modPart_kept
    | with_reducible apply keptO_next
    | with_reducible apply kept_ite
    | (with_reducible apply kept_foldl; intro t x ht)
    | (with_reducible apply kept_foldl_snd; intro t x ht)
    | split
    | simp only [kept_mk]
    | (with_reducible refine kept_snd (by assumption) ?_)
    | (with_reducible refine kept_snd2 (by assumption) ?_)
    | dsimp -iota only
    | dsimp only
    | decide
    | intro t l w ht
    | intro t l ht
    | intro t ht

theorem releaseRow_kept {s0 : State} (s : State) (r : RowId) (h0 : Kept s0 s) : Kept s0 (releaseRow s r) := by
  unfold releaseRow
  try dsimp -iota only
  repeat' first
    | with_reducible assumption
    | with_reducible apply makeReady_kept
    | with_reducible apply joinReady_kept
    | with_reducible refine modRow_kept ?_ _ _ ?_
    | with_reducible apply kept_ite
    | (with_reducible apply kept_foldl; intro t x ht)
    | (with_reducible apply kept_foldl_snd; intro t x ht)
    | split
    | simp only [kept_mk]
    | (with_reducible refine kept_snd (by assumption) ?_)
    | (with_reducible refine kept_snd2 (by assumption) ?_)
    | dsimp -iota only
    | dsimp only
    | decide
    | (intro w hw; (try dsimp only); (repeat' split); all_goals first | with_reducible assumption | with_reducible exact rowOk_congr hw rfl rfl rfl rfl rfl rfl | (obtain ⟨h1, h2, h3, h4, h5⟩ := hw; refine ⟨?_, ?_, ?_, ?_, ?_⟩ <;> (try dsimp only) <;> first | with_reducible assumption | with_reducible exact even_mask _ | with_reducible exact even_256 _ | with_reducible exact flags_mask _ | with_reducible exact flags_or _ h5 | with_reducible exact .inl rfl | (simp; done)))
    | intro t l w ht
    | intro t l ht
    | intro t ht

theorem execGangRelease_kept {s0 : State} (part : Nat) (s : State) (h0 : Kept s0 s) : KeptO s0 (execGangRelease part s) := by
  unfold execGangRelease
  try dsimp -iota only
  repeat' first
    | with_reducible assumption
    | with_reducible apply modPart_kept
    | with_reducible apply releaseRow_kept
    | with_reducible apply keptO_next
    | with_reducible apply kept_ite
    | (with_reducible apply kept_foldl; intro t x ht)
    | (with_reducible apply kept_foldl_snd; intro t x ht)
    | split
    | simp only [kept_mk]
    | (with_reducible refine kept_snd (by assumption) ?_)
    | (with_reducible refine kept_snd2 (by assumption) ?_)
    | dsimp -iota only
    | dsimp only
    | decide
    | intro t l w ht
    | intro t l ht
    | intro t ht

theorem swapCore_kept {s0 : State} (s : State) (core : Nat) (h0 : Kept s0 s) : Kept s0 (swapCore s core) := by
  unfold swapCore
  dsimp only
  refine freeAcc_kept _ _ (modCore_kept ?_ _ _)
  exact exchange_kept h0 core _ _ _ _ _ rfl rfl rfl rfl

theorem swapBind_kept {s0 : State} (s : State) (cl : Nat) (h0 : Kept s0 s) : Kept s0 (swapBind s cl) := by
  unfold swapBind
  try dsimp -iota only
  repeat' first
    | with_reducible assumption
    | with_reducible apply modCl_kept
    | with_reducible apply kept_ite
    | (with_reducible apply kept_foldl; intro t x ht)
    | (with_reducible apply kept_foldl_snd; intro t x ht)
    | split
    | simp only [kept_mk]
    | (with_reducible refine kept_snd (by assumption) ?_)
    | (with_reducible refine kept_snd2 (by assumption) ?_)
    | dsimp -iota only
    | dsimp only
    | decide
    | intro t l w ht
    | intro t l ht
    | intro t ht

theorem parkCore_kept {s0 : State} (s : State) (core : Nat) (h0 : Kept s0 s) : Kept s0 (parkCore s core) := by
  unfold parkCore
  try dsimp -iota only
  repeat' first
    | with_reducible assumption
    | with_reducible apply modBank_kept
    | with_reducible apply haltUnits_kept
    | with_reducible apply kept_ite
    | (with_reducible apply kept_foldl; intro t x ht)
    | (with_reducible apply kept_foldl_snd; intro t x ht)
    | split
    | simp only [kept_mk]
    | (with_reducible refine kept_snd (by assumption) ?_)
    | (with_reducible refine kept_snd2 (by assumption) ?_)
    | dsimp -iota only
    | dsimp only
    | decide
    | intro t l w ht
    | intro t l ht
    | intro t ht

theorem rejoin_kept {s0 : State} (s : State) (cl : Nat) (h0 : Kept s0 s) : Kept s0 (rejoin s cl) := by
  unfold rejoin
  try dsimp -iota only
  repeat' first
    | with_reducible assumption
    | with_reducible apply joinReady_kept
    | with_reducible apply kept_ite
    | (with_reducible apply kept_foldl; intro t x ht)
    | (with_reducible apply kept_foldl_snd; intro t x ht)
    | split
    | simp only [kept_mk]
    | (with_reducible refine kept_snd (by assumption) ?_)
    | (with_reducible refine kept_snd2 (by assumption) ?_)
    | dsimp -iota only
    | dsimp only
    | decide
    | intro t l w ht
    | intro t l ht
    | intro t ht

theorem swapCluster_kept {s0 : State} (s : State) (cl : Nat) (h0 : Kept s0 s) : Kept s0 (swapCluster s cl) := by
  unfold swapCluster
  try dsimp -iota only
  repeat' first
    | with_reducible assumption
    | with_reducible apply parkCore_kept
    | with_reducible apply swapBind_kept
    | with_reducible apply swapCore_kept
    | with_reducible apply modPart_kept
    | with_reducible apply rejoin_kept
    | with_reducible apply kept_ite
    | (with_reducible apply kept_foldl; intro t x ht)
    | (with_reducible apply kept_foldl_snd; intro t x ht)
    | split
    | simp only [kept_mk]
    | (with_reducible refine kept_snd (by assumption) ?_)
    | (with_reducible refine kept_snd2 (by assumption) ?_)
    | dsimp -iota only
    | dsimp only
    | decide
    | intro t l w ht
    | intro t l ht
    | intro t ht

theorem execSwapExchange_kept {s0 : State} (part : Nat) (s : State) (h0 : Kept s0 s) : KeptO s0 (execSwapExchange part s) := by
  unfold execSwapExchange
  try dsimp -iota only
  repeat' first
    | with_reducible assumption
    | with_reducible apply modPart_kept
    | with_reducible apply swapCluster_kept
    | with_reducible apply keptO_next
    | with_reducible apply kept_ite
    | (with_reducible apply kept_foldl; intro t x ht)
    | (with_reducible apply kept_foldl_snd; intro t x ht)
    | split
    | simp only [kept_mk]
    | (with_reducible refine kept_snd (by assumption) ?_)
    | (with_reducible refine kept_snd2 (by assumption) ?_)
    | dsimp -iota only
    | dsimp only
    | decide
    | intro t l w ht
    | intro t l ht
    | intro t ht

theorem logNext_kept {s0 : State} (s : State) (part : Nat) (h0 : Kept s0 s) : Kept s0 ((logNext s part).getD s) := by
  unfold logNext
  dsimp only
  repeat' first
    | exact h0
    | exact fifoStep_kept _ _ h0
    | exact flightStep_kept _ _ h0
    | exact loadPerform_kept _ _ _ _ _ h0
    | exact atomicPerform_kept _ _ _ h0
    | exact arrivalStep_kept _ _ _ _ h0
    | exact deliverStep_kept _ _ _ h0
    | split

theorem execArrivalLog_kept {s0 : State} (part : Nat) (s : State) (h0 : Kept s0 s) : KeptO s0 (execArrivalLog part s) := by
  unfold execArrivalLog
  try dsimp -iota only
  repeat' first
    | with_reducible assumption
    | exact logNext_kept _ _ (by assumption)
    | with_reducible apply logNext_kept
    | with_reducible apply keptO_next
    | with_reducible apply kept_ite
    | (with_reducible apply kept_foldl; intro t x ht)
    | (with_reducible apply kept_foldl_snd; intro t x ht)
    | split
    | simp only [kept_mk]
    | (with_reducible refine kept_snd (by assumption) ?_)
    | (with_reducible refine kept_snd2 (by assumption) ?_)
    | dsimp -iota only
    | dsimp only
    | decide
    | intro t l w ht
    | intro t l ht
    | intro t ht

theorem replayReq_kept {s0 : State} (s : State) (q : Req) (p : Part) (h0 : Kept s0 s) : Kept s0 (replayReq s q p) := by
  unfold replayReq
  try dsimp -iota only
  repeat' first
    | with_reducible assumption
    | with_reducible apply load_kept
    | with_reducible apply loadDo_kept
    | with_reducible apply atomicDo_kept
    | with_reducible apply settle_kept
    | with_reducible apply modReq_kept
    | with_reducible apply kept_ite
    | (with_reducible apply kept_foldl; intro t x ht)
    | (with_reducible apply kept_foldl_snd; intro t x ht)
    | split
    | simp only [kept_mk]
    | (with_reducible refine kept_snd (by assumption) ?_)
    | (with_reducible refine kept_snd2 (by assumption) ?_)
    | dsimp -iota only
    | dsimp only
    | decide
    | intro t l w ht
    | intro t l ht
    | intro t ht

theorem replayRead_kept {s0 : State} (s : State) (id : Nat) (off : Nat) (h0 : Kept s0 s) : Kept s0 (replayRead s id off) := by
  unfold replayRead
  try dsimp -iota only
  repeat' first
    | with_reducible assumption
    | with_reducible apply copyRead_kept
    | with_reducible apply distStep_kept
    | with_reducible apply kept_ite
    | (with_reducible apply kept_foldl; intro t x ht)
    | (with_reducible apply kept_foldl_snd; intro t x ht)
    | split
    | simp only [kept_mk]
    | (with_reducible refine kept_snd (by assumption) ?_)
    | (with_reducible refine kept_snd2 (by assumption) ?_)
    | dsimp -iota only
    | dsimp only
    | decide
    | intro t l w ht
    | intro t l ht
    | intro t ht

theorem replayPacket_kept {s0 : State} (s : State) (n : Nat) (p : Packet) (h0 : Kept s0 s) : Kept s0 (replayPacket s n p) := by
  unfold replayPacket
  try dsimp -iota only
  repeat' first
    | with_reducible assumption
    | with_reducible apply orphanPacket_kept
    | with_reducible apply enterRunq_kept
    | with_reducible apply receivedPkt_kept
    | with_reducible apply modDie_kept
    | with_reducible apply kept_ite
    | (with_reducible apply kept_foldl; intro t x ht)
    | (with_reducible apply kept_foldl_snd; intro t x ht)
    | split
    | simp only [kept_mk]
    | (with_reducible refine kept_snd (by assumption) ?_)
    | (with_reducible refine kept_snd2 (by assumption) ?_)
    | dsimp -iota only
    | dsimp only
    | decide
    | intro t l w ht
    | intro t l ht
    | intro t ht

theorem replayAsk_kept {s0 : State} (s : State) (who : Asker) (p : Part) (amo : Option (Nat × Word × RMode)) (h0 : Kept s0 s) : Kept s0 (replayAsk s who p amo) := by
  unfold replayAsk
  try dsimp -iota only
  repeat' first
    | with_reducible assumption
    | with_reducible apply amo_kept
    | with_reducible apply atomicAt_kept
    | with_reducible apply readPart_kept
    | with_reducible apply keepAnswer_kept
    | with_reducible apply kept_ite
    | (with_reducible apply kept_foldl; intro t x ht)
    | (with_reducible apply kept_foldl_snd; intro t x ht)
    | split
    | simp only [kept_mk]
    | (with_reducible refine kept_snd (by assumption) ?_)
    | (with_reducible refine kept_snd2 (by assumption) ?_)
    | dsimp -iota only
    | dsimp only
    | decide
    | intro t l w ht
    | intro t l ht
    | intro t ht

theorem replay_kept {s0 : State} (s : State) (e : Logged) (h0 : Kept s0 s) : Kept s0 (replay s e).2 := by
  unfold replay
  try dsimp -iota only
  repeat' first
    | with_reducible assumption
    | with_reducible apply store_kept
    | with_reducible apply applyStore_kept
    | with_reducible apply replayReq_kept
    | with_reducible apply fillOwed_kept
    | with_reducible apply replayPacket_kept
    | with_reducible apply arriveBy_kept
    | with_reducible apply received_kept
    | with_reducible apply fillWords_kept
    | with_reducible apply ctlWrites_kept
    | with_reducible apply replayRead_kept
    | with_reducible apply amo_kept
    | with_reducible apply replayAsk_kept
    | with_reducible apply reply_kept
    | with_reducible apply replyDo_kept
    | with_reducible apply outDo_kept
    | with_reducible apply resolveCore_kept
    | with_reducible apply kept_ite
    | (with_reducible apply kept_foldl; intro t x ht)
    | (with_reducible apply kept_foldl_snd; intro t x ht)
    | split
    | simp only [kept_mk]
    | (with_reducible refine kept_snd (by assumption) ?_)
    | (with_reducible refine kept_snd2 (by assumption) ?_)
    | dsimp -iota only
    | dsimp only
    | decide
    | intro t l w ht
    | intro t l ht
    | intro t ht

theorem execLogReplay_kept {s0 : State} (part : Nat) (s : State) (h0 : Kept s0 s) : KeptO s0 (execLogReplay part s) := by
  unfold execLogReplay
  try dsimp -iota only
  repeat' first
    | with_reducible assumption
    | with_reducible apply replay_kept
    | with_reducible apply modPart_kept
    | with_reducible apply keptO_next
    | with_reducible apply kept_ite
    | (with_reducible apply kept_foldl; intro t x ht)
    | (with_reducible apply kept_foldl_snd; intro t x ht)
    | split
    | simp only [kept_mk]
    | (with_reducible refine kept_snd (by assumption) ?_)
    | (with_reducible refine kept_snd2 (by assumption) ?_)
    | dsimp -iota only
    | dsimp only
    | decide
    | intro t l w ht
    | intro t l ht
    | intro t ht

theorem execSyClk_kept {s0 : State} (cl : Nat) (v : Word) (priv : Bool) (s : State) (h0 : Kept s0 s) : KeptO s0 (execSyClk cl v priv s) := by
  unfold execSyClk
  try dsimp -iota only
  repeat' first
    | with_reducible assumption
    | with_reducible apply clkWrite_kept
    | with_reducible apply keptO_next
    | with_reducible apply kept_ite
    | (with_reducible apply kept_foldl; intro t x ht)
    | (with_reducible apply kept_foldl_snd; intro t x ht)
    | split
    | simp only [kept_mk]
    | (with_reducible refine kept_snd (by assumption) ?_)
    | (with_reducible refine kept_snd2 (by assumption) ?_)
    | dsimp -iota only
    | dsimp only
    | decide
    | intro t l w ht
    | intro t l ht
    | intro t ht

theorem execClockTransition_kept {s0 : State} (cl : Nat) (s : State) (h0 : Kept s0 s) : KeptO s0 (execClockTransition cl s) := by
  unfold execClockTransition
  try dsimp -iota only
  repeat' first
    | with_reducible assumption
    | with_reducible apply clkDone_kept
    | with_reducible apply keptO_next
    | with_reducible apply kept_ite
    | (with_reducible apply kept_foldl; intro t x ht)
    | (with_reducible apply kept_foldl_snd; intro t x ht)
    | split
    | simp only [kept_mk]
    | (with_reducible refine kept_snd (by assumption) ?_)
    | (with_reducible refine kept_snd2 (by assumption) ?_)
    | dsimp -iota only
    | dsimp only
    | decide
    | intro t l w ht
    | intro t l ht
    | intro t ht

theorem execSyCbudget_kept {s0 : State} (cl : Nat) (v : Word) (priv : Bool) (s : State) (h0 : Kept s0 s) : KeptO s0 (execSyCbudget cl v priv s) := by
  unfold execSyCbudget
  try dsimp -iota only
  repeat' first
    | with_reducible assumption
    | with_reducible apply budgetWrite_kept
    | with_reducible apply keptO_next
    | with_reducible apply kept_ite
    | (with_reducible apply kept_foldl; intro t x ht)
    | (with_reducible apply kept_foldl_snd; intro t x ht)
    | split
    | simp only [kept_mk]
    | (with_reducible refine kept_snd (by assumption) ?_)
    | (with_reducible refine kept_snd2 (by assumption) ?_)
    | dsimp -iota only
    | dsimp only
    | decide
    | intro t l w ht
    | intro t l ht
    | intro t ht

theorem execRefill_kept {s0 : State} (cl : Nat) (s : State) (h0 : Kept s0 s) : KeptO s0 (execRefill cl s) := by
  unfold execRefill
  try dsimp -iota only
  repeat' first
    | with_reducible assumption
    | with_reducible apply refillAt_kept
    | with_reducible apply keptO_next
    | with_reducible apply kept_ite
    | (with_reducible apply kept_foldl; intro t x ht)
    | (with_reducible apply kept_foldl_snd; intro t x ht)
    | split
    | simp only [kept_mk]
    | (with_reducible refine kept_snd (by assumption) ?_)
    | (with_reducible refine kept_snd2 (by assumption) ?_)
    | dsimp -iota only
    | dsimp only
    | decide
    | intro t l w ht
    | intro t l ht
    | intro t ht

theorem execDamperWindow_kept {s0 : State} (w : DamperReading) (s : State) (h0 : Kept s0 s) : KeptO s0 (execDamperWindow w s) := by
  unfold execDamperWindow
  try dsimp -iota only
  repeat' first
    | with_reducible assumption
    | with_reducible apply damperStep_kept
    | with_reducible apply keptO_next
    | with_reducible apply kept_ite
    | (with_reducible apply kept_foldl; intro t x ht)
    | (with_reducible apply kept_foldl_snd; intro t x ht)
    | split
    | simp only [kept_mk]
    | (with_reducible refine kept_snd (by assumption) ?_)
    | (with_reducible refine kept_snd2 (by assumption) ?_)
    | dsimp -iota only
    | dsimp only
    | decide
    | intro t l w ht
    | intro t l ht
    | intro t ht

theorem execSySlope_kept {s0 : State} (v : Word) (priv : Bool) (s : State) (h0 : Kept s0 s) : KeptO s0 (execSySlope v priv s) := by
  unfold execSySlope
  try dsimp -iota only
  repeat' first
    | with_reducible assumption
    | with_reducible apply slopeWrite_kept
    | with_reducible apply keptO_next
    | with_reducible apply kept_ite
    | (with_reducible apply kept_foldl; intro t x ht)
    | (with_reducible apply kept_foldl_snd; intro t x ht)
    | split
    | simp only [kept_mk]
    | (with_reducible refine kept_snd (by assumption) ?_)
    | (with_reducible refine kept_snd2 (by assumption) ?_)
    | dsimp -iota only
    | dsimp only
    | decide
    | intro t l w ht
    | intro t l ht
    | intro t ht

theorem execCapMessage_kept {s0 : State} (v : Word) (priv : Bool) (s : State) (h0 : Kept s0 s) : KeptO s0 (execCapMessage v priv s) := by
  unfold execCapMessage
  try dsimp -iota only
  repeat' first
    | with_reducible assumption
    | with_reducible apply capWrite_kept
    | with_reducible apply keptO_next
    | with_reducible apply kept_ite
    | (with_reducible apply kept_foldl; intro t x ht)
    | (with_reducible apply kept_foldl_snd; intro t x ht)
    | split
    | simp only [kept_mk]
    | (with_reducible refine kept_snd (by assumption) ?_)
    | (with_reducible refine kept_snd2 (by assumption) ?_)
    | dsimp -iota only
    | dsimp only
    | decide
    | intro t l w ht
    | intro t l ht
    | intro t ht

theorem execLeaseExpiry_kept {s0 : State} (s : State) (h0 : Kept s0 s) : KeptO s0 (execLeaseExpiry s) := by
  unfold execLeaseExpiry
  try dsimp -iota only
  repeat' first
    | with_reducible assumption
    | with_reducible apply leaseEnd_kept
    | with_reducible apply keptO_next
    | with_reducible apply kept_ite
    | (with_reducible apply kept_foldl; intro t x ht)
    | (with_reducible apply kept_foldl_snd; intro t x ht)
    | split
    | simp only [kept_mk]
    | (with_reducible refine kept_snd (by assumption) ?_)
    | (with_reducible refine kept_snd2 (by assumption) ?_)
    | dsimp -iota only
    | dsimp only
    | decide
    | intro t l w ht
    | intro t l ht
    | intro t ht

theorem execThawSend_kept {s0 : State} (v : Word) (priv : Bool) (s : State) (h0 : Kept s0 s) : KeptO s0 (execThawSend v priv s) := by
  unfold execThawSend
  try dsimp -iota only
  repeat' first
    | with_reducible assumption
    | with_reducible apply thawWrite_kept
    | with_reducible apply keptO_next
    | with_reducible apply kept_ite
    | (with_reducible apply kept_foldl; intro t x ht)
    | (with_reducible apply kept_foldl_snd; intro t x ht)
    | split
    | simp only [kept_mk]
    | (with_reducible refine kept_snd (by assumption) ?_)
    | (with_reducible refine kept_snd2 (by assumption) ?_)
    | dsimp -iota only
    | dsimp only
    | decide
    | intro t l w ht
    | intro t l ht
    | intro t ht

theorem execThawMessage_kept {s0 : State} (img : List Byte) (s : State) (h0 : Kept s0 s) : KeptO s0 (execThawMessage img s) := by
  unfold execThawMessage
  try dsimp -iota only
  repeat' first
    | with_reducible assumption
    | with_reducible apply thawReceive_kept
    | with_reducible apply keptO_next
    | with_reducible apply kept_ite
    | (with_reducible apply kept_foldl; intro t x ht)
    | (with_reducible apply kept_foldl_snd; intro t x ht)
    | split
    | simp only [kept_mk]
    | (with_reducible refine kept_snd (by assumption) ?_)
    | (with_reducible refine kept_snd2 (by assumption) ?_)
    | dsimp -iota only
    | dsimp only
    | decide
    | intro t l w ht
    | intro t l ht
    | intro t ht

theorem execThawHoldEnd_kept {s0 : State} (s : State) (h0 : Kept s0 s) : KeptO s0 (execThawHoldEnd s) := by
  unfold execThawHoldEnd
  try dsimp -iota only
  repeat' first
    | with_reducible assumption
    | with_reducible apply thawEnd_kept
    | with_reducible apply keptO_next
    | with_reducible apply kept_ite
    | (with_reducible apply kept_foldl; intro t x ht)
    | (with_reducible apply kept_foldl_snd; intro t x ht)
    | split
    | simp only [kept_mk]
    | (with_reducible refine kept_snd (by assumption) ?_)
    | (with_reducible refine kept_snd2 (by assumption) ?_)
    | dsimp -iota only
    | dsimp only
    | decide
    | intro t l w ht
    | intro t l ht
    | intro t ht

theorem execTemperatureSensor_kept {s0 : State} (cl : Nat) (hot : Bool) (s : State) (h0 : Kept s0 s) : KeptO s0 (execTemperatureSensor cl hot s) := by
  unfold execTemperatureSensor
  try dsimp -iota only
  repeat' first
    | with_reducible assumption
    | with_reducible apply modCl_kept
    | with_reducible apply keptO_next
    | with_reducible apply kept_ite
    | (with_reducible apply kept_foldl; intro t x ht)
    | (with_reducible apply kept_foldl_snd; intro t x ht)
    | split
    | simp only [kept_mk]
    | (with_reducible refine kept_snd (by assumption) ?_)
    | (with_reducible refine kept_snd2 (by assumption) ?_)
    | dsimp -iota only
    | dsimp only
    | decide
    | intro t l w ht
    | intro t l ht
    | intro t ht

theorem execSyClbind_kept {s0 : State} (cl : Nat) (v : Word) (priv : Bool) (s : State) (h0 : Kept s0 s) : KeptO s0 (execSyClbind cl v priv s) := by
  unfold execSyClbind
  try dsimp -iota only
  repeat' first
    | with_reducible assumption
    | with_reducible apply bindWrite_kept
    | with_reducible apply keptO_next
    | with_reducible apply kept_ite
    | (with_reducible apply kept_foldl; intro t x ht)
    | (with_reducible apply kept_foldl_snd; intro t x ht)
    | split
    | simp only [kept_mk]
    | (with_reducible refine kept_snd (by assumption) ?_)
    | (with_reducible refine kept_snd2 (by assumption) ?_)
    | dsimp -iota only
    | dsimp only
    | decide
    | intro t l w ht
    | intro t l ht
    | intro t ht

theorem execSySerr_kept {s0 : State} (k : Nat) (v : Word) (_priv : Bool) (s : State) (h0 : Kept s0 s) : KeptO s0 (execSySerr k v _priv s) := by
  unfold execSySerr
  try dsimp -iota only
  repeat' first
    | with_reducible assumption
    | with_reducible apply serrWrite_kept
    | with_reducible apply keptO_next
    | with_reducible apply kept_ite
    | (with_reducible apply kept_foldl; intro t x ht)
    | (with_reducible apply kept_foldl_snd; intro t x ht)
    | split
    | simp only [kept_mk]
    | (with_reducible refine kept_snd (by assumption) ?_)
    | (with_reducible refine kept_snd2 (by assumption) ?_)
    | dsimp -iota only
    | dsimp only
    | decide
    | intro t l w ht
    | intro t l ht
    | intro t ht

theorem execSysregWrite_kept {s0 : State} (num : Nat) (v : Word) (priv : Bool) (core : Nat) (s : State) (h0 : Kept s0 s) : KeptO s0 (execSysregWrite num v priv core s) := by
  unfold execSysregWrite
  try dsimp -iota only
  repeat' first
    | with_reducible assumption
    | with_reducible apply plainSysWrite_kept
    | with_reducible apply keptO_next
    | with_reducible apply kept_ite
    | (with_reducible apply kept_foldl; intro t x ht)
    | (with_reducible apply kept_foldl_snd; intro t x ht)
    | split
    | simp only [kept_mk]
    | (with_reducible refine kept_snd (by assumption) ?_)
    | (with_reducible refine kept_snd2 (by assumption) ?_)
    | dsimp -iota only
    | dsimp only
    | decide
    | intro t l w ht
    | intro t l ht
    | intro t ht

theorem execIllegalInstruction_kept {s0 : State} (_w : BitVec 32) (s : State) (h0 : Kept s0 s) : KeptO s0 (execIllegalInstruction _w s) := by
  unfold execIllegalInstruction
  try dsimp -iota only
  repeat' first
    | with_reducible assumption
    | with_reducible apply ill_kept
    | with_reducible apply keptO_next
    | with_reducible apply kept_ite
    | (with_reducible apply kept_foldl; intro t x ht)
    | (with_reducible apply kept_foldl_snd; intro t x ht)
    | split
    | simp only [kept_mk]
    | (with_reducible refine kept_snd (by assumption) ?_)
    | (with_reducible refine kept_snd2 (by assumption) ?_)
    | dsimp -iota only
    | dsimp only
    | decide
    | intro t l w ht
    | intro t l ht
    | intro t ht

theorem execPowerOn_kept {s0 : State} (s : State) (h0 : Kept s0 s) : KeptO s0 (execPowerOn s) := by
  unfold execPowerOn
  apply keptO_next
  exact filter_kept h0 _ rfl (.inr rfl) (.inr rfl)

theorem execPerst_kept {s0 : State} (s : State) (h0 : Kept s0 s) : KeptO s0 (execPerst s) := by
  unfold execPerst
  try dsimp -iota only
  repeat' first
    | with_reducible assumption
    | with_reducible apply packageReset_kept
    | with_reducible apply keptO_next
    | with_reducible apply kept_ite
    | (with_reducible apply kept_foldl; intro t x ht)
    | (with_reducible apply kept_foldl_snd; intro t x ht)
    | split
    | simp only [kept_mk]
    | (with_reducible refine kept_snd (by assumption) ?_)
    | (with_reducible refine kept_snd2 (by assumption) ?_)
    | dsimp -iota only
    | dsimp only
    | decide
    | intro t l w ht
    | intro t l ht
    | intro t ht

theorem execSyReset_kept {s0 : State} (v : Word) (priv : Bool) (s : State) (h0 : Kept s0 s) : KeptO s0 (execSyReset v priv s) := by
  unfold execSyReset
  try dsimp -iota only
  repeat' first
    | with_reducible assumption
    | with_reducible apply resetWrite_kept
    | with_reducible apply keptO_next
    | with_reducible apply kept_ite
    | (with_reducible apply kept_foldl; intro t x ht)
    | (with_reducible apply kept_foldl_snd; intro t x ht)
    | split
    | simp only [kept_mk]
    | (with_reducible refine kept_snd (by assumption) ?_)
    | (with_reducible refine kept_snd2 (by assumption) ?_)
    | dsimp -iota only
    | dsimp only
    | decide
    | intro t l w ht
    | intro t l ht
    | intro t ht

theorem execStartStage_kept {s0 : State} (res : StageResult) (s : State) (h0 : Kept s0 s) : KeptO s0 (execStartStage res s) := by
  unfold execStartStage
  try dsimp -iota only
  repeat' first
    | with_reducible assumption
    | with_reducible apply stageStep_kept
    | with_reducible apply keptO_next
    | with_reducible apply kept_ite
    | (with_reducible apply kept_foldl; intro t x ht)
    | (with_reducible apply kept_foldl_snd; intro t x ht)
    | split
    | simp only [kept_mk]
    | (with_reducible refine kept_snd (by assumption) ?_)
    | (with_reducible refine kept_snd2 (by assumption) ?_)
    | dsimp -iota only
    | dsimp only
    | decide
    | intro t l w ht
    | intro t l ht
    | intro t ht

theorem execStageTimeLimit_kept {s0 : State} (s : State) (h0 : Kept s0 s) : KeptO s0 (execStageTimeLimit s) := by
  unfold execStageTimeLimit
  try dsimp -iota only
  repeat' first
    | with_reducible assumption
    | with_reducible apply stageLate_kept
    | with_reducible apply keptO_next
    | with_reducible apply kept_ite
    | (with_reducible apply kept_foldl; intro t x ht)
    | (with_reducible apply kept_foldl_snd; intro t x ht)
    | split
    | simp only [kept_mk]
    | (with_reducible refine kept_snd (by assumption) ?_)
    | (with_reducible refine kept_snd2 (by assumption) ?_)
    | dsimp -iota only
    | dsimp only
    | decide
    | intro t l w ht
    | intro t l ht
    | intro t ht

theorem countErr_kept {s0 : State} (s : State) (die : Nat) (k : Nat) (corrected : Bool) (u : Nat) (h0 : Kept s0 s) : Kept s0 (countErr s die k corrected u) := by
  unfold countErr
  try dsimp -iota only
  repeat' first
    | with_reducible assumption
    | with_reducible apply modDie_kept
    | with_reducible apply kept_ite
    | (with_reducible apply kept_foldl; intro t x ht)
    | (with_reducible apply kept_foldl_snd; intro t x ht)
    | split
    | simp only [kept_mk]
    | (with_reducible refine kept_snd (by assumption) ?_)
    | (with_reducible refine kept_snd2 (by assumption) ?_)
    | dsimp -iota only
    | dsimp only
    | decide
    | intro t l w ht
    | intro t l ht
    | intro t ht

theorem poisonWords_kept {s0 : State} (s : State) (ks : List Nat) (h0 : Kept s0 s) : Kept s0 (poisonWords s ks) := by
  unfold poisonWords
  try dsimp -iota only
  repeat' first
    | with_reducible assumption
    | with_reducible apply kept_ite
    | (with_reducible apply kept_foldl; intro t x ht)
    | (with_reducible apply kept_foldl_snd; intro t x ht)
    | split
    | simp only [kept_mk]
    | (with_reducible refine kept_snd (by assumption) ?_)
    | (with_reducible refine kept_snd2 (by assumption) ?_)
    | dsimp -iota only
    | dsimp only
    | decide
    | intro t l w ht
    | intro t l ht
    | intro t ht

theorem lineError_kept {s0 : State} (s : State) (i : Nat) (h0 : Kept s0 s) : Kept s0 (lineError s i) := by
  unfold lineError
  try dsimp -iota only
  repeat' first
    | with_reducible assumption
    | with_reducible apply poisonWords_kept
    | with_reducible apply kept_ite
    | (with_reducible apply kept_foldl; intro t x ht)
    | (with_reducible apply kept_foldl_snd; intro t x ht)
    | split
    | simp only [kept_mk]
    | (with_reducible refine kept_snd (by assumption) ?_)
    | (with_reducible refine kept_snd2 (by assumption) ?_)
    | dsimp -iota only
    | dsimp only
    | decide
    | intro t l w ht
    | intro t l ht
    | intro t ht

theorem accHit_kept {s0 : State} (s : State) (core : Nat) (h0 : Kept s0 s) : Kept s0 (accHit s core) := by
  unfold accHit
  try dsimp -iota only
  repeat' first
    | with_reducible assumption
    | with_reducible apply freeWord_kept
    | with_reducible apply modCore_kept
    | with_reducible apply endGang_kept
    | with_reducible apply kept_ite
    | (with_reducible apply kept_foldl; intro t x ht)
    | (with_reducible apply kept_foldl_snd; intro t x ht)
    | split
    | simp only [kept_mk]
    | (with_reducible refine kept_snd (by assumption) ?_)
    | (with_reducible refine kept_snd2 (by assumption) ?_)
    | dsimp -iota only
    | dsimp only
    | decide
    | intro t l w ht
    | intro t l ht
    | intro t ht

theorem execSoftError_kept {s0 : State} (site : ErrSite) (corrected : Bool) (s : State) (h0 : Kept s0 s) : KeptO s0 (execSoftError site corrected s) := by
  unfold execSoftError
  try dsimp -iota only
  repeat' first
    | with_reducible assumption
    | with_reducible apply countErr_kept
    | with_reducible apply poisonWords_kept
    | with_reducible apply lineError_kept
    | with_reducible apply accHit_kept
    | with_reducible apply keptO_next
    | with_reducible apply kept_ite
    | (with_reducible apply kept_foldl; intro t x ht)
    | (with_reducible apply kept_foldl_snd; intro t x ht)
    | split
    | simp only [kept_mk]
    | (with_reducible refine kept_snd (by assumption) ?_)
    | (with_reducible refine kept_snd2 (by assumption) ?_)
    | exact shadowRows_kept (by assumption) _ _ rfl rfl rfl rfl
    | dsimp -iota only
    | dsimp only
    | decide
    | intro t l w ht
    | intro t l ht
    | intro t ht

theorem execScrub_kept {s0 : State} (die : Nat) (k : Nat) (hit : ScrubHit) (s : State) (h0 : Kept s0 s) : KeptO s0 (execScrub die k hit s) := by
  unfold execScrub
  try dsimp -iota only
  repeat' first
    | with_reducible assumption
    | with_reducible apply countErr_kept
    | with_reducible apply keptO_next
    | with_reducible apply kept_ite
    | (with_reducible apply kept_foldl; intro t x ht)
    | (with_reducible apply kept_foldl_snd; intro t x ht)
    | split
    | simp only [kept_mk]
    | (with_reducible refine kept_snd (by assumption) ?_)
    | (with_reducible refine kept_snd2 (by assumption) ?_)
    | dsimp -iota only
    | dsimp only
    | decide
    | intro t l w ht
    | intro t l ht
    | intro t ht

theorem orphanRow_kept {s0 : State} (s : State) (kind : Nat) (num : Nat) (r : RowId) (h0 : Kept s0 s) : Kept s0 (orphanRow s kind num r) := by
  unfold orphanRow
  try dsimp -iota only
  repeat' first
    | with_reducible assumption
    | with_reducible apply leave_kept
    | with_reducible refine modRow_kept ?_ _ _ ?_
    | with_reducible apply orphan_kept
    | with_reducible apply kept_ite
    | (with_reducible apply kept_foldl; intro t x ht)
    | (with_reducible apply kept_foldl_snd; intro t x ht)
    | split
    | simp only [kept_mk]
    | (with_reducible refine kept_snd (by assumption) ?_)
    | (with_reducible refine kept_snd2 (by assumption) ?_)
    | dsimp -iota only
    | dsimp only
    | decide
    | (intro w hw; (try dsimp only); (repeat' split); all_goals first | with_reducible assumption | with_reducible exact rowOk_congr hw rfl rfl rfl rfl rfl rfl | (obtain ⟨h1, h2, h3, h4, h5⟩ := hw; refine ⟨?_, ?_, ?_, ?_, ?_⟩ <;> (try dsimp only) <;> first | with_reducible assumption | with_reducible exact even_mask _ | with_reducible exact even_256 _ | with_reducible exact flags_mask _ | with_reducible exact flags_or _ h5 | with_reducible exact .inl rfl | (simp; done)))
    | intro t l w ht
    | intro t l ht
    | intro t ht

theorem orphanShadow_kept {s0 : State} (s : State) (kind : Nat) (num : Nat) (core : Nat) (h0 : Kept s0 s) : Kept s0 (orphanShadow s kind num core) := by
  unfold orphanShadow
  dsimp only
  generalize hs2 : List.foldl _ (List.foldl _ s _) _ = s2
  have h2 : Kept s0 s2 := by
    subst hs2
    exact kept_foldl _ (fun t q ht => orphanPacket_kept _ _ _ _ _ ht) _ _
      (kept_foldl _ (fun t w ht => orphan_kept _ _ _ _ _ _ _ ht) _ _ h0)
  split
  · exact h2
  · exact shadowLegal_kept h2 core _ rfl rfl rfl fun h k =>
      smGet_map {} RowOk (fun w => { w with orphan := w.orphan || (w.task.getLsbD 7 && !w.orphan) }) rowOk_default
        (fun w hw => rowOk_congr hw rfl rfl rfl rfl rfl rfl) _ _ ((h0.2 h).2 core k)

theorem orphanCore_kept {s0 : State} (s : State) (kind : Nat) (num : Nat) (core : Nat) (h0 : Kept s0 s) : Kept s0 (orphanCore s kind num core) := by
  unfold orphanCore
  try dsimp -iota only
  repeat' first
    | with_reducible assumption
    | with_reducible apply orphanShadow_kept
    | with_reducible apply modCore_kept
    | with_reducible apply orphanRow_kept
    | with_reducible apply orphanPacket_kept
    | with_reducible apply modDie_kept
    | with_reducible apply kept_ite
    | (with_reducible apply kept_foldl; intro t x ht)
    | (with_reducible apply kept_foldl_snd; intro t x ht)
    | split
    | simp only [kept_mk]
    | (with_reducible refine kept_snd (by assumption) ?_)
    | (with_reducible refine kept_snd2 (by assumption) ?_)
    | dsimp -iota only
    | dsimp only
    | decide
    | intro t l w ht
    | intro t l ht
    | intro t ht

theorem loseOf_kept {s0 : State} (s : State) (k : PartKind) (n : Nat) (x : RowId × Nat) (h0 : Kept s0 s) : Kept s0 (loseOf s k n x) := by
  unfold loseOf
  try dsimp -iota only
  repeat' first
    | with_reducible assumption
    | with_reducible apply modCore_kept
    | with_reducible apply modCl_kept
    | with_reducible apply modDie_kept
    | with_reducible apply kept_ite
    | (with_reducible apply kept_foldl; intro t x ht)
    | (with_reducible apply kept_foldl_snd; intro t x ht)
    | split
    | simp only [kept_mk]
    | (with_reducible refine kept_snd (by assumption) ?_)
    | (with_reducible refine kept_snd2 (by assumption) ?_)
    | dsimp -iota only
    | dsimp only
    | decide
    | intro t l w ht
    | intro t l ht
    | intro t ht

theorem orphanAt_kept {s0 : State} (s : State) (kind : Nat) (num : Nat) (x : RowId × Nat) (h0 : Kept s0 s) : Kept s0 (orphanAt s kind num x) := by
  unfold orphanAt
  dsimp -iota only
  split
  · exact orphanRow_kept _ _ _ _ h0
  · split
    · exact h0
    · rename_i w hw
      have hk := orphan_kept s (noticeDie s (dieOf x.1.core)) (Wbits w.task 63 32) kind num w.task (rowVaIn s x.2 x.1) h0
      split
      · refine shadowLegal_kept hk x.1.core _ rfl rfl rfl fun hr k => ?_
        dsimp only
        rw [smGet_smSet]
        split
        · unfold shadowRow at hw
          dsimp only at hw
          split at hw
          · injection hw with hw
            exact rowOk_congr (hw ▸ (h0.2 hr).2 x.1.core x.1.row) rfl rfl rfl rfl rfl rfl
          · cases hw
        · exact (hk.2 hr).2 x.1.core k
      · exact h0

theorem execPartFailure_kept {s0 : State} (k : PartKind) (n : Nat) (s : State) (h0 : Kept s0 s) : KeptO s0 (execPartFailure k n s) := by
  unfold execPartFailure
  try dsimp -iota only
  repeat' first
    | with_reducible assumption
    | with_reducible apply orphanCore_kept
    | with_reducible apply orphanAt_kept
    | with_reducible apply loseOf_kept
    | with_reducible apply keptO_next
    | with_reducible apply kept_ite
    | (with_reducible apply kept_foldl; intro t x ht)
    | (with_reducible apply kept_foldl_snd; intro t x ht)
    | split
    | simp only [kept_mk]
    | (with_reducible refine kept_snd (by assumption) ?_)
    | (with_reducible refine kept_snd2 (by assumption) ?_)
    | dsimp -iota only
    | dsimp only
    | decide
    | intro t l w ht
    | intro t l ht
    | intro t ht

theorem loseAccesses_kept {s0 : State} (s : State) (lost : Part → Bool) (h0 : Kept s0 s) : Kept s0 (loseAccesses s lost) := by
  unfold loseAccesses
  try dsimp -iota only
  repeat' first
    | with_reducible assumption
    | with_reducible apply lostReq_kept
    | with_reducible apply endFlight_kept
    | with_reducible apply kept_ite
    | (with_reducible apply kept_foldl; intro t x ht)
    | (with_reducible apply kept_foldl_snd; intro t x ht)
    | split
    | simp only [kept_mk]
    | (with_reducible refine kept_snd (by assumption) ?_)
    | (with_reducible refine kept_snd2 (by assumption) ?_)
    | dsimp -iota only
    | dsimp only
    | decide
    | intro t l w ht
    | intro t l ht
    | intro t ht

theorem peerRefuseAt_kept {s0 : State} (s : State) (id : Nat) (hole : Bool) (h0 : Kept s0 s) : Kept s0 (peerRefuseAt s id hole) := by
  unfold peerRefuseAt
  try dsimp -iota only
  repeat' first
    | with_reducible assumption
    | with_reducible apply endReq_kept
    | with_reducible apply endFlight_kept
    | with_reducible apply modCl_kept
    | with_reducible apply endAccess_kept
    | with_reducible apply kept_ite
    | (with_reducible apply kept_foldl; intro t x ht)
    | (with_reducible apply kept_foldl_snd; intro t x ht)
    | split
    | simp only [kept_mk]
    | (with_reducible refine kept_snd (by assumption) ?_)
    | (with_reducible refine kept_snd2 (by assumption) ?_)
    | dsimp -iota only
    | dsimp only
    | decide
    | intro t l w ht
    | intro t l ht
    | intro t ht

theorem execRouteFailure_kept {s0 : State} (peer : Nat) (s : State) (h0 : Kept s0 s) : KeptO s0 (execRouteFailure peer s) := by
  unfold execRouteFailure
  try dsimp -iota only
  repeat' first
    | with_reducible assumption
    | with_reducible apply modPkg_kept
    | with_reducible apply loseAccesses_kept
    | with_reducible apply keptO_next
    | with_reducible apply kept_ite
    | (with_reducible apply kept_foldl; intro t x ht)
    | (with_reducible apply kept_foldl_snd; intro t x ht)
    | split
    | simp only [kept_mk]
    | (with_reducible refine kept_snd (by assumption) ?_)
    | (with_reducible refine kept_snd2 (by assumption) ?_)
    | dsimp -iota only
    | dsimp only
    | decide
    | intro t l w ht
    | intro t l ht
    | intro t ht

theorem execDieFailure_kept {s0 : State} (die : Nat) (s : State) (h0 : Kept s0 s) : KeptO s0 (execDieFailure die s) := by
  unfold execDieFailure
  try dsimp -iota only
  repeat' first
    | with_reducible assumption
    | with_reducible apply dropWhere_kept
    | with_reducible apply modDie_kept
    | with_reducible apply orphanCore_kept
    | with_reducible apply orphanPacket_kept
    | with_reducible apply modCl_kept
    | with_reducible apply loseAccesses_kept
    | with_reducible apply keptO_next
    | with_reducible apply kept_ite
    | (with_reducible apply kept_foldl; intro t x ht)
    | (with_reducible apply kept_foldl_snd; intro t x ht)
    | split
    | simp only [kept_mk]
    | (with_reducible refine kept_snd (by assumption) ?_)
    | (with_reducible refine kept_snd2 (by assumption) ?_)
    | dsimp -iota only
    | dsimp only
    | decide
    | intro t l w ht
    | intro t l ht
    | intro t ht

end Sys2Proof.Machine
end

