-- ==== Sys2Proof/Laws/KeptFetch.lean ====
section
/-! SUPPORT. The operations of Machine/Fetch.lean keep canonical memory and legal control blocks (Kept.lean). -/

namespace Sys2Proof.Machine

set_option linter.all false

theorem fetchParts_kept {s0 : State} (s : State) (r : RowId) (priv : Bool) (arg3 : List Part) (h0 : Kept s0 s) : Kept s0 (fetchParts s r priv arg3).2 := by
  induction arg3 generalizing s with
  | nil => first | assumption | (unfold fetchParts; assumption) | exact fun _ h => h
  | cons x xs ih =>
    unfold fetchParts
    try dsimp -iota only
    repeat' first
      | with_reducible assumption
      | with_reducible apply ih
      | with_reducible apply readPart_kept
      | with_reducible apply bump_kept
      | with_reducible apply kept_ite
      | (with_reducible apply kept_foldl; intro t x ht)
      | (with_reducible apply kept_foldl_snd; intro t x ht)
      | split
      | simp only [kept_mk]
      | (with_reducible refine kept_snd (by assumption) ?_)
      | (with_reducible refine kept_snd2 (by assumption) ?_)
      | dsimp -iota only
      | dsimp only
      | decide
      | intro t l w ht
      | intro t l ht
      | intro t ht

theorem fetchN_kept {s0 : State} (s : State) (r : RowId) (n : Nat) (len : Nat) (h0 : Kept s0 s) : Kept s0 (fetchN s r n len).2 := by
  unfold fetchN
  try dsimp -iota only
  repeat' first
    | with_reducible assumption
    | with_reducible apply walkWaits_kept
    | with_reducible apply fetchParts_kept
    | with_reducible apply kept_ite
    | (with_reducible apply kept_foldl; intro t x ht)
    | (with_reducible apply kept_foldl_snd; intro t x ht)
    | split
    | simp only [kept_mk]
    | (with_reducible refine kept_snd (by assumption) ?_)
    | (with_reducible refine kept_snd2 (by assumption) ?_)
    | dsimp -iota only
    | dsimp only
    | decide
    | intro t l w ht
    | intro t l ht
    | intro t ht

theorem fetch_kept {s0 : State} (s : State) (r : RowId) (h0 : Kept s0 s) : Kept s0 (fetch s r).2 := by
  unfold fetch
  try dsimp -iota only
  repeat' first
    | with_reducible assumption
    | with_reducible apply fetchN_kept
    | with_reducible apply kept_ite
    | (with_reducible apply kept_foldl; intro t x ht)
    | (with_reducible apply kept_foldl_snd; intro t x ht)
    | split
    | simp only [kept_mk]
    | (with_reducible refine kept_snd (by assumption) ?_)
    | (with_reducible refine kept_snd2 (by assumption) ?_)
    | dsimp -iota only
    | dsimp only
    | decide
    | intro t l w ht
    | intro t l ht
    | intro t ht

theorem startIssue_kept {s0 : State} (s : State) (r : RowId) (h0 : Kept s0 s) : Kept s0 (startIssue s r) := by
  unfold startIssue
  try dsimp -iota only
  repeat' first
    | with_reducible assumption
    | with_reducible apply charge_kept
    | with_reducible apply kept_ite
    | (with_reducible apply kept_foldl; intro t x ht)
    | (with_reducible apply kept_foldl_snd; intro t x ht)
    | split
    | simp only [kept_mk]
    | (with_reducible refine kept_snd (by assumption) ?_)
    | (with_reducible refine kept_snd2 (by assumption) ?_)
    | dsimp -iota only
    | dsimp only
    | decide
    | intro t l w ht
    | intro t l ht
    | intro t ht

theorem markIssued_kept {s0 : State} (s : State) (r : RowId) (h0 : Kept s0 s) : Kept s0 (markIssued s r) := by
  unfold markIssued
  try dsimp -iota only
  repeat' first
    | with_reducible assumption
    | with_reducible apply modBank_kept
    | with_reducible apply kept_ite
    | (with_reducible apply kept_foldl; intro t x ht)
    | (with_reducible apply kept_foldl_snd; intro t x ht)
    | split
    | simp only [kept_mk]
    | (with_reducible refine kept_snd (by assumption) ?_)
    | (with_reducible refine kept_snd2 (by assumption) ?_)
    | dsimp -iota only
    | dsimp only
    | decide
    | intro t l w ht
    | intro t l ht
    | intro t ht

theorem afterExec_kept {s0 : State} (s : State) (r : RowId) (o : Host.Outcome State Fault Refusal) (ho : KeptO s0 o) :
    KeptO s0 (afterExec s r o) := by
  unfold afterExec
  split
  · exact keptO_next (kept_ite (markIssued_kept _ _ (ho _ rfl)) (ho _ rfl))
  · exact ho

theorem yieldPosition_kept {s0 : State} (s : State) (core : Nat) (bank : Nat) (h0 : Kept s0 s) : Kept s0 (yieldPosition s core bank) := by
  unfold yieldPosition
  try dsimp -iota only
  repeat' first
    | with_reducible assumption
    | with_reducible apply expire_kept
    | with_reducible apply preempt_kept
    | with_reducible apply kept_ite
    | (with_reducible apply kept_foldl; intro t x ht)
    | (with_reducible apply kept_foldl_snd; intro t x ht)
    | split
    | simp only [kept_mk]
    | (with_reducible refine kept_snd (by assumption) ?_)
    | (with_reducible refine kept_snd2 (by assumption) ?_)
    | dsimp -iota only
    | dsimp only
    | decide
    | intro t l w ht
    | intro t l ht
    | intro t ht

theorem issue_kept {s0 : State} (s : State) (r : RowId) (h0 : Kept s0 s) : Kept s0 (issue s r).2 := by
  unfold issue
  try dsimp -iota only
  repeat' first
    | with_reducible assumption
    | with_reducible apply yieldPosition_kept
    | with_reducible apply budgetTrap_kept
    | with_reducible apply relWrite_kept
    | with_reducible apply startIssue_kept
    | with_reducible apply fetch_kept
    | with_reducible apply raise_kept
    | with_reducible refine modRow_kept ?_ _ _ ?_
    | with_reducible apply kept_ite
    | (with_reducible apply kept_foldl; intro t x ht)
    | (with_reducible apply kept_foldl_snd; intro t x ht)
    | split
    | simp only [kept_mk]
    | (with_reducible refine kept_snd (by assumption) ?_)
    | (with_reducible refine kept_snd2 (by assumption) ?_)
    | dsimp -iota only
    | dsimp only
    | decide
    | (intro w hw; (try dsimp only); (repeat' split); all_goals first | with_reducible assumption | with_reducible exact rowOk_congr hw rfl rfl rfl rfl rfl rfl | (obtain ⟨h1, h2, h3, h4, h5⟩ := hw; refine ⟨?_, ?_, ?_, ?_, ?_⟩ <;> (try dsimp only) <;> first | with_reducible assumption | with_reducible exact even_mask _ | with_reducible exact even_256 _ | with_reducible exact flags_mask _ | with_reducible exact flags_or _ h5 | with_reducible exact .inl rfl | (simp; done)))
    | intro t l w ht
    | intro t l ht
    | intro t ht

theorem cacheTransAt_kept {s0 : State} (s : State) (die : Nat) (slice : Nat) (asid : Nat) (vpn : Nat) (h0 : Kept s0 s) : Kept s0 (cacheTransAt s die slice asid vpn) := by
  unfold cacheTransAt
  try dsimp -iota only
  repeat' first
    | with_reducible assumption
    | with_reducible apply dirStart_kept
    | with_reducible apply kept_ite
    | (with_reducible apply kept_foldl; intro t x ht)
    | (with_reducible apply kept_foldl_snd; intro t x ht)
    | split
    | simp only [kept_mk]
    | (with_reducible refine kept_snd (by assumption) ?_)
    | (with_reducible refine kept_snd2 (by assumption) ?_)
    | dsimp -iota only
    | dsimp only
    | decide
    | intro t l w ht
    | intro t l ht
    | intro t ht

theorem prefetchAt_kept {s0 : State} (s : State) (core : Nat) (pc : Word) (h0 : Kept s0 s) : Kept s0 (prefetchAt s core pc) := by
  unfold prefetchAt
  try dsimp -iota only
  repeat' first
    | with_reducible assumption
    | with_reducible apply walkWaits_kept
    | with_reducible apply fetchParts_kept
    | with_reducible apply kept_ite
    | (with_reducible apply kept_foldl; intro t x ht)
    | (with_reducible apply kept_foldl_snd; intro t x ht)
    | split
    | simp only [kept_mk]
    | (with_reducible refine kept_snd (by assumption) ?_)
    | (with_reducible refine kept_snd2 (by assumption) ?_)
    | dsimp -iota only
    | dsimp only
    | decide
    | intro t l w ht
    | intro t l ht
    | intro t ht

theorem outsideAt_kept {s0 : State} (s : State) (pa : Nat) (bs : List Byte) (h0 : Kept s0 s) : Kept s0 (outsideAt s pa bs) := by
  unfold outsideAt
  try dsimp -iota only
  repeat' first
    | with_reducible assumption
    | with_reducible apply memWrite_kept
    | with_reducible apply kept_ite
    | (with_reducible apply kept_foldl; intro t x ht)
    | (with_reducible apply kept_foldl_snd; intro t x ht)
    | split
    | simp only [kept_mk]
    | (with_reducible refine kept_snd (by assumption) ?_)
    | (with_reducible refine kept_snd2 (by assumption) ?_)
    | dsimp -iota only
    | dsimp only
    | decide
    | intro t l w ht
    | intro t l ht
    | intro t ht

theorem envTurn_kept {s0 : State} (s : State) (arg1 : Turn) (h0 : Kept s0 s) : Kept s0 (envTurn s arg1) := by
  unfold envTurn
  try dsimp -iota only
  repeat' first
    | with_reducible assumption
    | with_reducible apply evictAt_kept
    | with_reducible apply cacheTransAt_kept
    | with_reducible apply prefetchAt_kept
    | with_reducible apply compressAt_kept
    | with_reducible apply lagStep_kept
    | with_reducible apply outsideAt_kept
    | with_reducible apply outWaitAt_kept
    | with_reducible apply peerRefuseAt_kept
    | with_reducible apply modDie_kept
    | with_reducible apply kept_ite
    | (with_reducible apply kept_foldl; intro t x ht)
    | (with_reducible apply kept_foldl_snd; intro t x ht)
    | split
    | simp only [kept_mk]
    | (with_reducible refine kept_snd (by assumption) ?_)
    | (with_reducible refine kept_snd2 (by assumption) ?_)
    | dsimp -iota only
    | dsimp only
    | decide
    | intro t l w ht
    | intro t l ht
    | intro t ht

end Sys2Proof.Machine
end

