-- ==== Sys2Proof/Laws/PerInstr.lean ====
section
/-!
SUPPORT. Statements made for every instruction, one lemma per constructor; the lemmas about fields and bytes that they
rest on come first.
-/

namespace Sys2Proof.Laws

/-! ## Fields of concatenations -/

theorem ext_low {n m : Nat} (x : BitVec n) (y : BitVec m) (s l : Nat) (h : s + l ≤ m) :
    (x ++ y).extractLsb' s l = y.extractLsb' s l := by
  apply BitVec.eq_of_getLsbD_eq
  intro i hi
  have : s + i < m := by omega
  simp [BitVec.getLsbD_append, this]

theorem ext_high {n m : Nat} (x : BitVec n) (y : BitVec m) (s l : Nat) (h : m ≤ s) :
    (x ++ y).extractLsb' s l = x.extractLsb' (s - m) l := by
  apply BitVec.eq_of_getLsbD_eq
  intro i hi
  have h1 : ¬ s + i < m := by omega
  have h2 : s + i - m = s - m + i := by omega
  simp [BitVec.getLsbD_append, h1, h2]

theorem ext_self {n : Nat} (x : BitVec n) : x.extractLsb' 0 n = x := by
  apply BitVec.eq_of_getLsbD_eq
  intro i hi
  simp [hi]

theorem bit_low {n m : Nat} (x : BitVec n) (y : BitVec m) (s : Nat) (h : s < m) :
    (x ++ y).getLsbD s = y.getLsbD s := by
  simp [BitVec.getLsbD_append, h]

theorem bit_high {n m : Nat} (x : BitVec n) (y : BitVec m) (s : Nat) (h : m ≤ s) :
    (x ++ y).getLsbD s = x.getLsbD (s - m) := by
  have : ¬ s < m := by omega
  simp [BitVec.getLsbD_append, this]

theorem bit_self (b : Bool) : (BitVec.ofBool b).getLsbD 0 = b := by cases b <;> rfl

/-! ## Fields of the formats (R149, R151) -/

theorem wa_op (q : BitVec 5) (fn : BitVec 4) (tb : Bool) (ta : Bool) (b : BitVec 5) (a : BitVec 5) (d : BitVec 5) (op : BitVec 5) : (wa q fn tb ta b a d op).extractLsb' 1 5 = op := by
  unfold wa
  rw [ext_high, ext_low]
  · exact ext_self _
  all_goals decide

theorem wa_d (q : BitVec 5) (fn : BitVec 4) (tb : Bool) (ta : Bool) (b : BitVec 5) (a : BitVec 5) (d : BitVec 5) (op : BitVec 5) : (wa q fn tb ta b a d op).extractLsb' 6 5 = d := by
  unfold wa
  rw [ext_high, ext_high, ext_low]
  · exact ext_self _
  all_goals decide

theorem wa_a (q : BitVec 5) (fn : BitVec 4) (tb : Bool) (ta : Bool) (b : BitVec 5) (a : BitVec 5) (d : BitVec 5) (op : BitVec 5) : (wa q fn tb ta b a d op).extractLsb' 11 5 = a := by
  unfold wa
  rw [ext_high, ext_high, ext_high, ext_low]
  · exact ext_self _
  all_goals decide

theorem wa_b (q : BitVec 5) (fn : BitVec 4) (tb : Bool) (ta : Bool) (b : BitVec 5) (a : BitVec 5) (d : BitVec 5) (op : BitVec 5) : (wa q fn tb ta b a d op).extractLsb' 16 5 = b := by
  unfold wa
  rw [ext_high, ext_high, ext_high, ext_high, ext_low]
  · exact ext_self _
  all_goals decide

theorem wa_ta (q : BitVec 5) (fn : BitVec 4) (tb : Bool) (ta : Bool) (b : BitVec 5) (a : BitVec 5) (d : BitVec 5) (op : BitVec 5) : (wa q fn tb ta b a d op).getLsbD 21 = ta := by
  unfold wa
  rw [bit_high, bit_high, bit_high, bit_high, bit_high, bit_low]
  · exact bit_self _
  all_goals decide

theorem wa_tb (q : BitVec 5) (fn : BitVec 4) (tb : Bool) (ta : Bool) (b : BitVec 5) (a : BitVec 5) (d : BitVec 5) (op : BitVec 5) : (wa q fn tb ta b a d op).getLsbD 22 = tb := by
  unfold wa
  rw [bit_high, bit_high, bit_high, bit_high, bit_high, bit_high, bit_low]
  · exact bit_self _
  all_goals decide

theorem wa_fn (q : BitVec 5) (fn : BitVec 4) (tb : Bool) (ta : Bool) (b : BitVec 5) (a : BitVec 5) (d : BitVec 5) (op : BitVec 5) : (wa q fn tb ta b a d op).extractLsb' 23 4 = fn := by
  unfold wa
  rw [ext_high, ext_high, ext_high, ext_high, ext_high, ext_high, ext_high, ext_low]
  · exact ext_self _
  all_goals decide

theorem wa_q (q : BitVec 5) (fn : BitVec 4) (tb : Bool) (ta : Bool) (b : BitVec 5) (a : BitVec 5) (d : BitVec 5) (op : BitVec 5) : (wa q fn tb ta b a d op).extractLsb' 27 5 = q := by
  unfold wa
  rw [ext_high, ext_high, ext_high, ext_high, ext_high, ext_high, ext_high, ext_high]
  · exact ext_self _
  all_goals decide

theorem wa_one (q : BitVec 5) (fn : BitVec 4) (tb : Bool) (ta : Bool) (b : BitVec 5) (a : BitVec 5) (d : BitVec 5) (op : BitVec 5) : (wa q fn tb ta b a d op).getLsbD 0 = true := by
  unfold wa
  rw [bit_low]
  · rfl
  decide

theorem wi_op (i : BitVec 15) (ta : Bool) (a : BitVec 5) (d : BitVec 5) (op : BitVec 5) : (wi i ta a d op).extractLsb' 1 5 = op := by
  unfold wi
  rw [ext_high, ext_low]
  · exact ext_self _
  all_goals decide

theorem wi_d (i : BitVec 15) (ta : Bool) (a : BitVec 5) (d : BitVec 5) (op : BitVec 5) : (wi i ta a d op).extractLsb' 6 5 = d := by
  unfold wi
  rw [ext_high, ext_high, ext_low]
  · exact ext_self _
  all_goals decide

theorem wi_a (i : BitVec 15) (ta : Bool) (a : BitVec 5) (d : BitVec 5) (op : BitVec 5) : (wi i ta a d op).extractLsb' 11 5 = a := by
  unfold wi
  rw [ext_high, ext_high, ext_high, ext_low]
  · exact ext_self _
  all_goals decide

theorem wi_ta (i : BitVec 15) (ta : Bool) (a : BitVec 5) (d : BitVec 5) (op : BitVec 5) : (wi i ta a d op).getLsbD 16 = ta := by
  unfold wi
  rw [bit_high, bit_high, bit_high, bit_high, bit_low]
  · exact bit_self _
  all_goals decide

theorem wi_i (i : BitVec 15) (ta : Bool) (a : BitVec 5) (d : BitVec 5) (op : BitVec 5) : (wi i ta a d op).extractLsb' 17 15 = i := by
  unfold wi
  rw [ext_high, ext_high, ext_high, ext_high, ext_high]
  · exact ext_self _
  all_goals decide

theorem wi_one (i : BitVec 15) (ta : Bool) (a : BitVec 5) (d : BitVec 5) (op : BitVec 5) : (wi i ta a d op).getLsbD 0 = true := by
  unfold wi
  rw [bit_low]
  · rfl
  decide

theorem wl_op (i : BitVec 21) (d : BitVec 5) (op : BitVec 5) : (wl i d op).extractLsb' 1 5 = op := by
  unfold wl
  rw [ext_high, ext_low]
  · exact ext_self _
  all_goals decide

theorem wl_d (i : BitVec 21) (d : BitVec 5) (op : BitVec 5) : (wl i d op).extractLsb' 6 5 = d := by
  unfold wl
  rw [ext_high, ext_high, ext_low]
  · exact ext_self _
  all_goals decide

theorem wl_i (i : BitVec 21) (d : BitVec 5) (op : BitVec 5) : (wl i d op).extractLsb' 11 21 = i := by
  unfold wl
  rw [ext_high, ext_high, ext_high]
  · exact ext_self _
  all_goals decide

theorem wl_one (i : BitVec 21) (d : BitVec 5) (op : BitVec 5) : (wl i d op).getLsbD 0 = true := by
  unfold wl
  rw [bit_low]
  · rfl
  decide

theorem wc_op (i : BitVec 12) (ta : Bool) (c : BitVec 3) (b : BitVec 5) (a : BitVec 5) (op : BitVec 5) : (wc i ta c b a op).extractLsb' 1 5 = op := by
  unfold wc
  rw [ext_high, ext_low]
  · exact ext_self _
  all_goals decide

theorem wc_a (i : BitVec 12) (ta : Bool) (c : BitVec 3) (b : BitVec 5) (a : BitVec 5) (op : BitVec 5) : (wc i ta c b a op).extractLsb' 6 5 = a := by
  unfold wc
  rw [ext_high, ext_high, ext_low]
  · exact ext_self _
  all_goals decide

theorem wc_b (i : BitVec 12) (ta : Bool) (c : BitVec 3) (b : BitVec 5) (a : BitVec 5) (op : BitVec 5) : (wc i ta c b a op).extractLsb' 11 5 = b := by
  unfold wc
  rw [ext_high, ext_high, ext_high, ext_low]
  · exact ext_self _
  all_goals decide

theorem wc_c (i : BitVec 12) (ta : Bool) (c : BitVec 3) (b : BitVec 5) (a : BitVec 5) (op : BitVec 5) : (wc i ta c b a op).extractLsb' 16 3 = c := by
  unfold wc
  rw [ext_high, ext_high, ext_high, ext_high, ext_low]
  · exact ext_self _
  all_goals decide

theorem wc_ta (i : BitVec 12) (ta : Bool) (c : BitVec 3) (b : BitVec 5) (a : BitVec 5) (op : BitVec 5) : (wc i ta c b a op).getLsbD 19 = ta := by
  unfold wc
  rw [bit_high, bit_high, bit_high, bit_high, bit_high, bit_low]
  · exact bit_self _
  all_goals decide

theorem wc_i (i : BitVec 12) (ta : Bool) (c : BitVec 3) (b : BitVec 5) (a : BitVec 5) (op : BitVec 5) : (wc i ta c b a op).extractLsb' 20 12 = i := by
  unfold wc
  rw [ext_high, ext_high, ext_high, ext_high, ext_high, ext_high]
  · exact ext_self _
  all_goals decide

theorem wc_one (i : BitVec 12) (ta : Bool) (c : BitVec 3) (b : BitVec 5) (a : BitVec 5) (op : BitVec 5) : (wc i ta c b a op).getLsbD 0 = true := by
  unfold wc
  rw [bit_low]
  · rfl
  decide

theorem wv_op (ty : BitVec 3) (fn : BitVec 4) (t : Bool) (mk : BitVec 3) (b : BitVec 5) (a : BitVec 5) (d : BitVec 5) (op : BitVec 5) : (wv ty fn t mk b a d op).extractLsb' 1 5 = op := by
  unfold wv
  rw [ext_high, ext_low]
  · exact ext_self _
  all_goals decide

theorem wv_d (ty : BitVec 3) (fn : BitVec 4) (t : Bool) (mk : BitVec 3) (b : BitVec 5) (a : BitVec 5) (d : BitVec 5) (op : BitVec 5) : (wv ty fn t mk b a d op).extractLsb' 6 5 = d := by
  unfold wv
  rw [ext_high, ext_high, ext_low]
  · exact ext_self _
  all_goals decide

theorem wv_a (ty : BitVec 3) (fn : BitVec 4) (t : Bool) (mk : BitVec 3) (b : BitVec 5) (a : BitVec 5) (d : BitVec 5) (op : BitVec 5) : (wv ty fn t mk b a d op).extractLsb' 11 5 = a := by
  unfold wv
  rw [ext_high, ext_high, ext_high, ext_low]
  · exact ext_self _
  all_goals decide

theorem wv_b (ty : BitVec 3) (fn : BitVec 4) (t : Bool) (mk : BitVec 3) (b : BitVec 5) (a : BitVec 5) (d : BitVec 5) (op : BitVec 5) : (wv ty fn t mk b a d op).extractLsb' 16 5 = b := by
  unfold wv
  rw [ext_high, ext_high, ext_high, ext_high, ext_low]
  · exact ext_self _
  all_goals decide

theorem wv_mk (ty : BitVec 3) (fn : BitVec 4) (t : Bool) (mk : BitVec 3) (b : BitVec 5) (a : BitVec 5) (d : BitVec 5) (op : BitVec 5) : (wv ty fn t mk b a d op).extractLsb' 21 3 = mk := by
  unfold wv
  rw [ext_high, ext_high, ext_high, ext_high, ext_high, ext_low]
  · exact ext_self _
  all_goals decide

theorem wv_t (ty : BitVec 3) (fn : BitVec 4) (t : Bool) (mk : BitVec 3) (b : BitVec 5) (a : BitVec 5) (d : BitVec 5) (op : BitVec 5) : (wv ty fn t mk b a d op).getLsbD 24 = t := by
  unfold wv
  rw [bit_high, bit_high, bit_high, bit_high, bit_high, bit_high, bit_low]
  · exact bit_self _
  all_goals decide

theorem wv_fn (ty : BitVec 3) (fn : BitVec 4) (t : Bool) (mk : BitVec 3) (b : BitVec 5) (a : BitVec 5) (d : BitVec 5) (op : BitVec 5) : (wv ty fn t mk b a d op).extractLsb' 25 4 = fn := by
  unfold wv
  rw [ext_high, ext_high, ext_high, ext_high, ext_high, ext_high, ext_high, ext_low]
  · exact ext_self _
  all_goals decide

theorem wv_ty (ty : BitVec 3) (fn : BitVec 4) (t : Bool) (mk : BitVec 3) (b : BitVec 5) (a : BitVec 5) (d : BitVec 5) (op : BitVec 5) : (wv ty fn t mk b a d op).extractLsb' 29 3 = ty := by
  unfold wv
  rw [ext_high, ext_high, ext_high, ext_high, ext_high, ext_high, ext_high, ext_high]
  · exact ext_self _
  all_goals decide

theorem wv_one (ty : BitVec 3) (fn : BitVec 4) (t : Bool) (mk : BitVec 3) (b : BitVec 5) (a : BitVec 5) (d : BitVec 5) (op : BitVec 5) : (wv ty fn t mk b a d op).getLsbD 0 = true := by
  unfold wv
  rw [bit_low]
  · rfl
  decide

theorem wfm_op (ty : BitVec 2) (mk : BitVec 2) (va : BitVec 2) (c : BitVec 5) (b : BitVec 5) (a : BitVec 5) (d : BitVec 5) (op : BitVec 5) : (wfm ty mk va c b a d op).extractLsb' 1 5 = op := by
  unfold wfm
  rw [ext_high, ext_low]
  · exact ext_self _
  all_goals decide

theorem wfm_d (ty : BitVec 2) (mk : BitVec 2) (va : BitVec 2) (c : BitVec 5) (b : BitVec 5) (a : BitVec 5) (d : BitVec 5) (op : BitVec 5) : (wfm ty mk va c b a d op).extractLsb' 6 5 = d := by
  unfold wfm
  rw [ext_high, ext_high, ext_low]
  · exact ext_self _
  all_goals decide

theorem wfm_a (ty : BitVec 2) (mk : BitVec 2) (va : BitVec 2) (c : BitVec 5) (b : BitVec 5) (a : BitVec 5) (d : BitVec 5) (op : BitVec 5) : (wfm ty mk va c b a d op).extractLsb' 11 5 = a := by
  unfold wfm
  rw [ext_high, ext_high, ext_high, ext_low]
  · exact ext_self _
  all_goals decide

theorem wfm_b (ty : BitVec 2) (mk : BitVec 2) (va : BitVec 2) (c : BitVec 5) (b : BitVec 5) (a : BitVec 5) (d : BitVec 5) (op : BitVec 5) : (wfm ty mk va c b a d op).extractLsb' 16 5 = b := by
  unfold wfm
  rw [ext_high, ext_high, ext_high, ext_high, ext_low]
  · exact ext_self _
  all_goals decide

theorem wfm_c (ty : BitVec 2) (mk : BitVec 2) (va : BitVec 2) (c : BitVec 5) (b : BitVec 5) (a : BitVec 5) (d : BitVec 5) (op : BitVec 5) : (wfm ty mk va c b a d op).extractLsb' 21 5 = c := by
  unfold wfm
  rw [ext_high, ext_high, ext_high, ext_high, ext_high, ext_low]
  · exact ext_self _
  all_goals decide

theorem wfm_va (ty : BitVec 2) (mk : BitVec 2) (va : BitVec 2) (c : BitVec 5) (b : BitVec 5) (a : BitVec 5) (d : BitVec 5) (op : BitVec 5) : (wfm ty mk va c b a d op).extractLsb' 26 2 = va := by
  unfold wfm
  rw [ext_high, ext_high, ext_high, ext_high, ext_high, ext_high, ext_low]
  · exact ext_self _
  all_goals decide

theorem wfm_mk (ty : BitVec 2) (mk : BitVec 2) (va : BitVec 2) (c : BitVec 5) (b : BitVec 5) (a : BitVec 5) (d : BitVec 5) (op : BitVec 5) : (wfm ty mk va c b a d op).extractLsb' 28 2 = mk := by
  unfold wfm
  rw [ext_high, ext_high, ext_high, ext_high, ext_high, ext_high, ext_high, ext_low]
  · exact ext_self _
  all_goals decide

theorem wfm_ty (ty : BitVec 2) (mk : BitVec 2) (va : BitVec 2) (c : BitVec 5) (b : BitVec 5) (a : BitVec 5) (d : BitVec 5) (op : BitVec 5) : (wfm ty mk va c b a d op).extractLsb' 30 2 = ty := by
  unfold wfm
  rw [ext_high, ext_high, ext_high, ext_high, ext_high, ext_high, ext_high, ext_high]
  · exact ext_self _
  all_goals decide

theorem wfm_one (ty : BitVec 2) (mk : BitVec 2) (va : BitVec 2) (c : BitVec 5) (b : BitVec 5) (a : BitVec 5) (d : BitVec 5) (op : BitVec 5) : (wfm ty mk va c b a d op).getLsbD 0 = true := by
  unfold wfm
  rw [bit_low]
  · rfl
  decide

theorem wm_op (o : BitVec 10) (mo : BitVec 2) (sz : BitVec 3) (ta : Bool) (a : BitVec 5) (d : BitVec 5) (op : BitVec 5) : (wm o mo sz ta a d op).extractLsb' 1 5 = op := by
  unfold wm
  rw [ext_high, ext_low]
  · exact ext_self _
  all_goals decide

theorem wm_d (o : BitVec 10) (mo : BitVec 2) (sz : BitVec 3) (ta : Bool) (a : BitVec 5) (d : BitVec 5) (op : BitVec 5) : (wm o mo sz ta a d op).extractLsb' 6 5 = d := by
  unfold wm
  rw [ext_high, ext_high, ext_low]
  · exact ext_self _
  all_goals decide

theorem wm_a (o : BitVec 10) (mo : BitVec 2) (sz : BitVec 3) (ta : Bool) (a : BitVec 5) (d : BitVec 5) (op : BitVec 5) : (wm o mo sz ta a d op).extractLsb' 11 5 = a := by
  unfold wm
  rw [ext_high, ext_high, ext_high, ext_low]
  · exact ext_self _
  all_goals decide

theorem wm_ta (o : BitVec 10) (mo : BitVec 2) (sz : BitVec 3) (ta : Bool) (a : BitVec 5) (d : BitVec 5) (op : BitVec 5) : (wm o mo sz ta a d op).getLsbD 16 = ta := by
  unfold wm
  rw [bit_high, bit_high, bit_high, bit_high, bit_low]
  · exact bit_self _
  all_goals decide

theorem wm_sz (o : BitVec 10) (mo : BitVec 2) (sz : BitVec 3) (ta : Bool) (a : BitVec 5) (d : BitVec 5) (op : BitVec 5) : (wm o mo sz ta a d op).extractLsb' 17 3 = sz := by
  unfold wm
  rw [ext_high, ext_high, ext_high, ext_high, ext_high, ext_low]
  · exact ext_self _
  all_goals decide

theorem wm_mo (o : BitVec 10) (mo : BitVec 2) (sz : BitVec 3) (ta : Bool) (a : BitVec 5) (d : BitVec 5) (op : BitVec 5) : (wm o mo sz ta a d op).extractLsb' 20 2 = mo := by
  unfold wm
  rw [ext_high, ext_high, ext_high, ext_high, ext_high, ext_high, ext_low]
  · exact ext_self _
  all_goals decide

theorem wm_o (o : BitVec 10) (mo : BitVec 2) (sz : BitVec 3) (ta : Bool) (a : BitVec 5) (d : BitVec 5) (op : BitVec 5) : (wm o mo sz ta a d op).extractLsb' 22 10 = o := by
  unfold wm
  rw [ext_high, ext_high, ext_high, ext_high, ext_high, ext_high, ext_high]
  · exact ext_self _
  all_goals decide

theorem wm_one (o : BitVec 10) (mo : BitVec 2) (sz : BitVec 3) (ta : Bool) (a : BitVec 5) (d : BitVec 5) (op : BitVec 5) : (wm o mo sz ta a d op).getLsbD 0 = true := by
  unfold wm
  rw [bit_low]
  · rfl
  decide

theorem ws_op (z : BitVec 4) (f : BitVec 12) (fn : BitVec 5) (d : BitVec 5) (op : BitVec 5) : (ws z f fn d op).extractLsb' 1 5 = op := by
  unfold ws
  rw [ext_high, ext_low]
  · exact ext_self _
  all_goals decide

theorem ws_d (z : BitVec 4) (f : BitVec 12) (fn : BitVec 5) (d : BitVec 5) (op : BitVec 5) : (ws z f fn d op).extractLsb' 6 5 = d := by
  unfold ws
  rw [ext_high, ext_high, ext_low]
  · exact ext_self _
  all_goals decide

theorem ws_fn (z : BitVec 4) (f : BitVec 12) (fn : BitVec 5) (d : BitVec 5) (op : BitVec 5) : (ws z f fn d op).extractLsb' 11 5 = fn := by
  unfold ws
  rw [ext_high, ext_high, ext_high, ext_low]
  · exact ext_self _
  all_goals decide

theorem ws_f (z : BitVec 4) (f : BitVec 12) (fn : BitVec 5) (d : BitVec 5) (op : BitVec 5) : (ws z f fn d op).extractLsb' 16 12 = f := by
  unfold ws
  rw [ext_high, ext_high, ext_high, ext_high, ext_low]
  · exact ext_self _
  all_goals decide

theorem ws_z (z : BitVec 4) (f : BitVec 12) (fn : BitVec 5) (d : BitVec 5) (op : BitVec 5) : (ws z f fn d op).extractLsb' 28 4 = z := by
  unfold ws
  rw [ext_high, ext_high, ext_high, ext_high, ext_high]
  · exact ext_self _
  all_goals decide

theorem ws_one (z : BitVec 4) (f : BitVec 12) (fn : BitVec 5) (d : BitVec 5) (op : BitVec 5) : (ws z f fn d op).getLsbD 0 = true := by
  unfold ws
  rw [bit_low]
  · rfl
  decide

theorem wa_fD (q : BitVec 5) (fn : BitVec 4) (tb : Bool) (ta : Bool) (b : BitVec 5) (a : BitVec 5) (d : BitVec 5) (op : BitVec 5) : fD (wa q fn tb ta b a d op) = d := wa_d ..

theorem wa_fA (q : BitVec 5) (fn : BitVec 4) (tb : Bool) (ta : Bool) (b : BitVec 5) (a : BitVec 5) (d : BitVec 5) (op : BitVec 5) : fA (wa q fn tb ta b a d op) = a := wa_a ..

theorem wa_fB (q : BitVec 5) (fn : BitVec 4) (tb : Bool) (ta : Bool) (b : BitVec 5) (a : BitVec 5) (d : BitVec 5) (op : BitVec 5) : fB (wa q fn tb ta b a d op) = b := wa_b ..

theorem wi_fD (i : BitVec 15) (ta : Bool) (a : BitVec 5) (d : BitVec 5) (op : BitVec 5) : fD (wi i ta a d op) = d := wi_d ..

theorem wi_fA (i : BitVec 15) (ta : Bool) (a : BitVec 5) (d : BitVec 5) (op : BitVec 5) : fA (wi i ta a d op) = a := wi_a ..

theorem wl_fD (i : BitVec 21) (d : BitVec 5) (op : BitVec 5) : fD (wl i d op) = d := wl_d ..

theorem wc_fD (i : BitVec 12) (ta : Bool) (c : BitVec 3) (b : BitVec 5) (a : BitVec 5) (op : BitVec 5) : fD (wc i ta c b a op) = a := wc_a ..

theorem wc_fA (i : BitVec 12) (ta : Bool) (c : BitVec 3) (b : BitVec 5) (a : BitVec 5) (op : BitVec 5) : fA (wc i ta c b a op) = b := wc_b ..

theorem wv_fD (ty : BitVec 3) (fn : BitVec 4) (t : Bool) (mk : BitVec 3) (b : BitVec 5) (a : BitVec 5) (d : BitVec 5) (op : BitVec 5) : fD (wv ty fn t mk b a d op) = d := wv_d ..

theorem wv_fA (ty : BitVec 3) (fn : BitVec 4) (t : Bool) (mk : BitVec 3) (b : BitVec 5) (a : BitVec 5) (d : BitVec 5) (op : BitVec 5) : fA (wv ty fn t mk b a d op) = a := wv_a ..

theorem wv_fB (ty : BitVec 3) (fn : BitVec 4) (t : Bool) (mk : BitVec 3) (b : BitVec 5) (a : BitVec 5) (d : BitVec 5) (op : BitVec 5) : fB (wv ty fn t mk b a d op) = b := wv_b ..

theorem wfm_fD (ty : BitVec 2) (mk : BitVec 2) (va : BitVec 2) (c : BitVec 5) (b : BitVec 5) (a : BitVec 5) (d : BitVec 5) (op : BitVec 5) : fD (wfm ty mk va c b a d op) = d := wfm_d ..

theorem wfm_fA (ty : BitVec 2) (mk : BitVec 2) (va : BitVec 2) (c : BitVec 5) (b : BitVec 5) (a : BitVec 5) (d : BitVec 5) (op : BitVec 5) : fA (wfm ty mk va c b a d op) = a := wfm_a ..

theorem wfm_fB (ty : BitVec 2) (mk : BitVec 2) (va : BitVec 2) (c : BitVec 5) (b : BitVec 5) (a : BitVec 5) (d : BitVec 5) (op : BitVec 5) : fB (wfm ty mk va c b a d op) = b := wfm_b ..

theorem wfm_fC (ty : BitVec 2) (mk : BitVec 2) (va : BitVec 2) (c : BitVec 5) (b : BitVec 5) (a : BitVec 5) (d : BitVec 5) (op : BitVec 5) : fC (wfm ty mk va c b a d op) = c := wfm_c ..

theorem wm_fD (o : BitVec 10) (mo : BitVec 2) (sz : BitVec 3) (ta : Bool) (a : BitVec 5) (d : BitVec 5) (op : BitVec 5) : fD (wm o mo sz ta a d op) = d := wm_d ..

theorem wm_fA (o : BitVec 10) (mo : BitVec 2) (sz : BitVec 3) (ta : Bool) (a : BitVec 5) (d : BitVec 5) (op : BitVec 5) : fA (wm o mo sz ta a d op) = a := wm_a ..

theorem ws_fD (z : BitVec 4) (f : BitVec 12) (fn : BitVec 5) (d : BitVec 5) (op : BitVec 5) : fD (ws z f fn d op) = d := ws_d ..

theorem ws_fA (z : BitVec 4) (f : BitVec 12) (fn : BitVec 5) (d : BitVec 5) (op : BitVec 5) : fA (ws z f fn d op) = fn := ws_fn ..

theorem wa_q_31_1 (q : BitVec 5) (fn : BitVec 4) (tb : Bool) (ta : Bool) (b : BitVec 5) (a : BitVec 5) (d : BitVec 5) (op : BitVec 5) : (wa q fn tb ta b a d op).extractLsb' 31 1 = q.extractLsb' 4 1 := by
  unfold wa
  rw [ext_high, ext_high, ext_high, ext_high, ext_high, ext_high, ext_high, ext_high]
  all_goals decide

theorem wa_q_27_0 (q : BitVec 5) (fn : BitVec 4) (tb : Bool) (ta : Bool) (b : BitVec 5) (a : BitVec 5) (d : BitVec 5) (op : BitVec 5) : (wa q fn tb ta b a d op).getLsbD 27 = q.getLsbD 0 := by
  unfold wa
  rw [bit_high, bit_high, bit_high, bit_high, bit_high, bit_high, bit_high, bit_high]
  all_goals decide

theorem wa_q_28_3 (q : BitVec 5) (fn : BitVec 4) (tb : Bool) (ta : Bool) (b : BitVec 5) (a : BitVec 5) (d : BitVec 5) (op : BitVec 5) : (wa q fn tb ta b a d op).extractLsb' 28 3 = q.extractLsb' 1 3 := by
  unfold wa
  rw [ext_high, ext_high, ext_high, ext_high, ext_high, ext_high, ext_high, ext_high]
  all_goals decide

theorem wa_q_28_2 (q : BitVec 5) (fn : BitVec 4) (tb : Bool) (ta : Bool) (b : BitVec 5) (a : BitVec 5) (d : BitVec 5) (op : BitVec 5) : (wa q fn tb ta b a d op).extractLsb' 28 2 = q.extractLsb' 1 2 := by
  unfold wa
  rw [ext_high, ext_high, ext_high, ext_high, ext_high, ext_high, ext_high, ext_high]
  all_goals decide

theorem wa_q_30_0 (q : BitVec 5) (fn : BitVec 4) (tb : Bool) (ta : Bool) (b : BitVec 5) (a : BitVec 5) (d : BitVec 5) (op : BitVec 5) : (wa q fn tb ta b a d op).getLsbD 30 = q.getLsbD 3 := by
  unfold wa
  rw [bit_high, bit_high, bit_high, bit_high, bit_high, bit_high, bit_high, bit_high]
  all_goals decide

theorem wa_q_27_3 (q : BitVec 5) (fn : BitVec 4) (tb : Bool) (ta : Bool) (b : BitVec 5) (a : BitVec 5) (d : BitVec 5) (op : BitVec 5) : (wa q fn tb ta b a d op).extractLsb' 27 3 = q.extractLsb' 0 3 := by
  unfold wa
  rw [ext_high, ext_high, ext_high, ext_high, ext_high, ext_high, ext_high, ext_high]
  all_goals decide

theorem wa_d_7_4 (q : BitVec 5) (fn : BitVec 4) (tb : Bool) (ta : Bool) (b : BitVec 5) (a : BitVec 5) (d : BitVec 5) (op : BitVec 5) : (wa q fn tb ta b a d op).extractLsb' 7 4 = d.extractLsb' 1 4 := by
  unfold wa
  rw [ext_high, ext_high, ext_low]
  all_goals decide

theorem wi_i_17_2 (i : BitVec 15) (ta : Bool) (a : BitVec 5) (d : BitVec 5) (op : BitVec 5) : (wi i ta a d op).extractLsb' 17 2 = i.extractLsb' 0 2 := by
  unfold wi
  rw [ext_high, ext_high, ext_high, ext_high, ext_high]
  all_goals decide

theorem wi_i_17_3 (i : BitVec 15) (ta : Bool) (a : BitVec 5) (d : BitVec 5) (op : BitVec 5) : (wi i ta a d op).extractLsb' 17 3 = i.extractLsb' 0 3 := by
  unfold wi
  rw [ext_high, ext_high, ext_high, ext_high, ext_high]
  all_goals decide

theorem wi_i_19_6 (i : BitVec 15) (ta : Bool) (a : BitVec 5) (d : BitVec 5) (op : BitVec 5) : (wi i ta a d op).extractLsb' 19 6 = i.extractLsb' 2 6 := by
  unfold wi
  rw [ext_high, ext_high, ext_high, ext_high, ext_high]
  all_goals decide

theorem wi_i_25_0 (i : BitVec 15) (ta : Bool) (a : BitVec 5) (d : BitVec 5) (op : BitVec 5) : (wi i ta a d op).getLsbD 25 = i.getLsbD 8 := by
  unfold wi
  rw [bit_high, bit_high, bit_high, bit_high, bit_high]
  all_goals decide

theorem wi_i_20_12 (i : BitVec 15) (ta : Bool) (a : BitVec 5) (d : BitVec 5) (op : BitVec 5) : (wi i ta a d op).extractLsb' 20 12 = i.extractLsb' 3 12 := by
  unfold wi
  rw [ext_high, ext_high, ext_high, ext_high, ext_high]
  all_goals decide

theorem wi_i_17_1 (i : BitVec 15) (ta : Bool) (a : BitVec 5) (d : BitVec 5) (op : BitVec 5) : (wi i ta a d op).extractLsb' 17 1 = i.extractLsb' 0 1 := by
  unfold wi
  rw [ext_high, ext_high, ext_high, ext_high, ext_high]
  all_goals decide

theorem wi_i_18_14 (i : BitVec 15) (ta : Bool) (a : BitVec 5) (d : BitVec 5) (op : BitVec 5) : (wi i ta a d op).extractLsb' 18 14 = i.extractLsb' 1 14 := by
  unfold wi
  rw [ext_high, ext_high, ext_high, ext_high, ext_high]
  all_goals decide

theorem wl_d_9_2 (i : BitVec 21) (d : BitVec 5) (op : BitVec 5) : (wl i d op).extractLsb' 9 2 = d.extractLsb' 3 2 := by
  unfold wl
  rw [ext_high, ext_high, ext_low]
  all_goals decide

theorem wl_d_6_3 (i : BitVec 21) (d : BitVec 5) (op : BitVec 5) : (wl i d op).extractLsb' 6 3 = d.extractLsb' 0 3 := by
  unfold wl
  rw [ext_high, ext_high, ext_low]
  all_goals decide

theorem wl_i_11_5 (i : BitVec 21) (d : BitVec 5) (op : BitVec 5) : (wl i d op).extractLsb' 11 5 = i.extractLsb' 0 5 := by
  unfold wl
  rw [ext_high, ext_high, ext_high]
  all_goals decide

theorem wv_d_9_2 (ty : BitVec 3) (fn : BitVec 4) (t : Bool) (mk : BitVec 3) (b : BitVec 5) (a : BitVec 5) (d : BitVec 5) (op : BitVec 5) : (wv ty fn t mk b a d op).extractLsb' 9 2 = d.extractLsb' 3 2 := by
  unfold wv
  rw [ext_high, ext_high, ext_low]
  all_goals decide

theorem wv_d_6_3 (ty : BitVec 3) (fn : BitVec 4) (t : Bool) (mk : BitVec 3) (b : BitVec 5) (a : BitVec 5) (d : BitVec 5) (op : BitVec 5) : (wv ty fn t mk b a d op).extractLsb' 6 3 = d.extractLsb' 0 3 := by
  unfold wv
  rw [ext_high, ext_high, ext_low]
  all_goals decide

theorem wv_b_16_3 (ty : BitVec 3) (fn : BitVec 4) (t : Bool) (mk : BitVec 3) (b : BitVec 5) (a : BitVec 5) (d : BitVec 5) (op : BitVec 5) : (wv ty fn t mk b a d op).extractLsb' 16 3 = b.extractLsb' 0 3 := by
  unfold wv
  rw [ext_high, ext_high, ext_high, ext_high, ext_low]
  all_goals decide

theorem ws_d_7_4 (z : BitVec 4) (f : BitVec 12) (fn : BitVec 5) (d : BitVec 5) (op : BitVec 5) : (ws z f fn d op).extractLsb' 7 4 = d.extractLsb' 1 4 := by
  unfold ws
  rw [ext_high, ext_high, ext_low]
  all_goals decide

theorem wl_fA (i : BitVec 21) (d op : BitVec 5) : fA (wl i d op) = i.extractLsb' 0 5 := wl_i_11_5 ..

theorem h16_key (k : Bool) (a d : BitVec 5) (op : BitVec 4) :
    (h16 k a d op).extractLsb' 15 1 = bit k ∧ (h16 k a d op).extractLsb' 1 4 = op := by
  unfold h16
  refine ⟨?_, ?_⟩
  · rw [ext_high, ext_high, ext_high, ext_high]
    · exact ext_self _
    all_goals decide
  · rw [ext_high, ext_low]
    · exact ext_self _
    all_goals decide

theorem h16_a (k : Bool) (a d : BitVec 5) (op : BitVec 4) : (h16 k a d op).extractLsb' 10 5 = a := by
  unfold h16
  rw [ext_high, ext_high, ext_high, ext_low]
  · exact ext_self _
  all_goals decide

theorem h16_d (k : Bool) (a d : BitVec 5) (op : BitVec 4) : (h16 k a d op).extractLsb' 5 5 = d := by
  unfold h16
  rw [ext_high, ext_high, ext_low]
  · exact ext_self _
  all_goals decide

theorem h16_v (k x y : Bool) (a d : BitVec 4) (op : BitVec 4) :
    (h16 k (bit x ++ a) (bit y ++ d) op).getLsbD 14 = x ∧ (h16 k (bit x ++ a) (bit y ++ d) op).extractLsb' 10 4 = a ∧
    (h16 k (bit x ++ a) (bit y ++ d) op).getLsbD 9 = y ∧ (h16 k (bit x ++ a) (bit y ++ d) op).extractLsb' 5 4 = d := by
  unfold h16
  refine ⟨?_, ?_, ?_, ?_⟩
  · rw [bit_high, bit_high, bit_high, bit_low, bit_high]
    · exact bit_self _
    all_goals decide
  · rw [ext_high, ext_high, ext_high, ext_low, ext_low]
    · exact ext_self _
    all_goals decide
  · rw [bit_high, bit_high, bit_low, bit_high]
    · exact bit_self _
    all_goals decide
  · rw [ext_high, ext_high, ext_low, ext_low]
    · exact ext_self _
    all_goals decide

theorem h16_zero (k : Bool) (a d : BitVec 5) (op : BitVec 4) : (h16 k a d op).getLsbD 0 = false := by
  unfold h16
  rw [bit_low]
  · rfl
  decide

/-! ## Fields made of parts -/

theorem part_conv (x : BitVec 3) (b : Bool) : (0#1 ++ x ++ bit b : BitVec 5).extractLsb' 1 3 = x := by
  revert x b
  decide

theorem part_convb (x : BitVec 3) (b : Bool) : (0#1 ++ x ++ bit b : BitVec 5).getLsbD 0 = b := by
  revert x b
  decide

theorem part_post (p s : Bool) (x : BitVec 2) : (0#1 ++ bit p ++ x ++ bit s : BitVec 5).getLsbD 3 = p := by
  revert p s x
  decide

theorem part_scope (p s : Bool) (x : BitVec 2) : (0#1 ++ bit p ++ x ++ bit s : BitVec 5).extractLsb' 1 2 = x := by
  revert p s x
  decide

theorem part_size (p s : Bool) (x : BitVec 2) : (0#1 ++ bit p ++ x ++ bit s : BitVec 5).getLsbD 0 = s := by
  revert p s x
  decide

theorem part_scope1 (x : BitVec 2) : (0#2 ++ x ++ 1#1 : BitVec 5).extractLsb' 1 2 = x := by
  revert x
  decide

theorem part_e (x : BitVec 3) : (0#2 ++ x : BitVec 5).extractLsb' 0 3 = x := by
  revert x
  decide

theorem part_dp (x : BitVec 4) : (x ++ 0#1 : BitVec 5).extractLsb' 1 4 = x := by
  revert x
  decide

theorem part_cond (c : BitVec 2) (m : BitVec 3) : (c ++ m : BitVec 5).extractLsb' 3 2 = c := by
  revert c m
  decide

theorem part_m (c : BitVec 2) (m : BitVec 3) : (c ++ m : BitVec 5).extractLsb' 0 3 = m := by
  revert c m
  decide

theorem part_fmt (b : Bool) : (0#4 ++ bit b : BitVec 5).getLsbD 0 = b ∧ (8#4 ++ bit b : BitVec 5).getLsbD 0 = b := by
  revert b
  decide

theorem part_alu (b : Bool) : (0#4 ++ bit b : BitVec 5).extractLsb' 4 1 = 0#1 ∧ (8#4 ++ bit b : BitVec 5).extractLsb' 4 1 = 1#1 := by
  revert b
  decide

theorem part_fn3 (x : BitVec 12) (c : BitVec 3) : (x ++ c : BitVec 15).extractLsb' 0 3 = c := by
  rw [ext_low]
  · exact ext_self _
  all_goals decide

theorem part_imm12 (x : BitVec 12) (c : BitVec 3) : (x ++ c : BitVec 15).extractLsb' 3 12 = x := by
  rw [ext_high]
  · exact ext_self _
  all_goals decide

theorem part_fn1 (x : BitVec 14) (c : BitVec 1) : (x ++ c : BitVec 15).extractLsb' 0 1 = c := by
  rw [ext_low]
  · exact ext_self _
  all_goals decide

theorem part_imm14 (x : BitVec 14) (c : BitVec 1) : (x ++ c : BitVec 15).extractLsb' 1 14 = x := by
  rw [ext_high]
  · exact ext_self _
  all_goals decide

theorem part_fn2 (s : Bool) (x : BitVec 6) (c : BitVec 2) : (0#6 ++ bit s ++ x ++ c : BitVec 15).extractLsb' 0 2 = c := by
  rw [ext_low]
  · exact ext_self _
  all_goals decide

theorem part_amt (s : Bool) (x : BitVec 6) (c : BitVec 2) : (0#6 ++ bit s ++ x ++ c : BitVec 15).extractLsb' 2 6 = x := by
  rw [ext_high, ext_low]
  · exact ext_self _
  all_goals decide

theorem part_sz (s : Bool) (x : BitVec 6) (c : BitVec 2) : (0#6 ++ bit s ++ x ++ c : BitVec 15).getLsbD 8 = s := by
  rw [bit_high, bit_high, bit_low]
  · exact bit_self _
  all_goals decide

theorem part_x (x : BitVec 5) : (0#16 ++ x : BitVec 21).extractLsb' 0 5 = x := by
  rw [ext_low]
  · exact ext_self _
  all_goals decide

/-! ## Bytes of a word (R3, R147) -/

theorem leNat_leBytes (n v : Nat) : leNat (leBytes n v) = v % 256 ^ n := by
  induction n generalizing v with
  | zero => simp [leBytes, leNat, Nat.mod_one]
  | succ n ih =>
    have h8 : (2 : Nat) ^ 8 = 256 := by decide
    rw [leBytes, leNat, ih, BitVec.toNat_ofNat, h8, Nat.pow_succ', Nat.mod_mul]

namespace RoundTrip

/-- Decoding the bytes of a well-formed instruction word gives the instruction back, and the bytes that follow. -/
def Statement (i : Instr) : Prop :=
  i.hasWord = true → i.wf = true → ∀ rest, decode (encode i ++ rest) = some (i, rest)

/-- A 32-bit word whose fields give back its instruction. -/
theorem of32 (i : Instr) (h1 : i.word.getLsbD 0 = true) (h : raw32 i.word = some i) : Statement i := by
  intro _ hw rest
  have hd : decode32 i.word = some i := by simp [decode32, h, hw]
  have hn := leNat_leBytes 4 i.word.toNat
  have hlt := i.word.isLt
  rw [Nat.mod_eq_of_lt (by omega)] at hn
  have hb : (BitVec.ofNat 8 i.word.toNat).getLsbD 0 = true := by
    rw [BitVec.getLsbD_ofNat]; simpa [BitVec.getLsbD] using h1
  simp only [leBytes] at hn
  simp only [encode, Instr.size, h1, if_true, leBytes, List.cons_append, List.nil_append, decode, hb, hn]
  rw [BitVec.ofNat_toNat, BitVec.setWidth_eq, hd]
  rfl

/-- A 16-bit word whose fields give back its instruction. -/
theorem of16 (i : Instr) (k : Bool) (a d : BitVec 5) (op : BitVec 4) (hi : i.word = (h16 k a d op).setWidth 32)
    (h : raw16 (h16 k a d op) = some i) : Statement i := by
  intro _ hw rest
  have h0 := h16_zero k a d op
  generalize h16 k a d op = x at hi h h0
  have hd : decode16 x = some i := by simp [decode16, h, hw, hi]
  have hn := leNat_leBytes 2 x.toNat
  have hlt := x.isLt
  rw [Nat.mod_eq_of_lt (by omega)] at hn
  have hz : i.word.toNat = x.toNat := by rw [hi, BitVec.toNat_setWidth]; omega
  have h1 : i.word.getLsbD 0 = false := by rw [hi, BitVec.getLsbD_setWidth, h0]; rfl
  have hb : (BitVec.ofNat 8 x.toNat).getLsbD 0 = false := by
    rw [BitVec.getLsbD_ofNat]; simpa [BitVec.getLsbD] using h0
  simp only [leBytes] at hn
  simp only [encode, Instr.size, h1, hz, Bool.false_eq_true, if_false, leBytes, List.cons_append, List.nil_append, decode, hb, hn]
  rw [BitVec.ofNat_toNat, BitVec.setWidth_eq, hd]
  rfl

/-- A step of the device has no word. -/
theorem of0 (i : Instr) (h : i.word = 0) : Statement i := by
  intro hw; simp [Instr.hasWord, h] at hw

theorem of_rawAlu (w : BitVec 32) (h : w.extractLsb' 1 5 = 0x01#5) : raw32 w = rawAlu w := by unfold raw32; rw [h]; rfl

theorem of_rawShi (w : BitVec 32) (h : w.extractLsb' 1 5 = 0x06#5) : raw32 w = rawShi w := by unfold raw32; rw [h]; rfl

theorem of_rawCmpi (w : BitVec 32) (h : w.extractLsb' 1 5 = 0x07#5) : raw32 w = rawCmpi w := by unfold raw32; rw [h]; rfl

theorem of_rawExt (w : BitVec 32) (h : w.extractLsb' 1 5 = 0x0A#5) : raw32 w = rawExt w := by unfold raw32; rw [h]; rfl

theorem of_rawBc (w : BitVec 32) (h : w.extractLsb' 1 5 = 0x0C#5) : raw32 w = rawBc w := by unfold raw32; rw [h]; rfl

theorem of_rawJmp (w : BitVec 32) (h : w.extractLsb' 1 5 = 0x0D#5) : raw32 w = rawJmp w := by unfold raw32; rw [h]; rfl

theorem of_rawVmem (w : BitVec 32) (h : w.extractLsb' 1 5 = 0x12#5) : raw32 w = rawVmem w := by unfold raw32; rw [h]; rfl

theorem of_rawAmo (w : BitVec 32) (h : w.extractLsb' 1 5 = 0x13#5) : raw32 w = rawAmo w := by unfold raw32; rw [h]; rfl

theorem of_rawSync (w : BitVec 32) (h : w.extractLsb' 1 5 = 0x14#5) : raw32 w = rawSync w := by unfold raw32; rw [h]; rfl

theorem of_rawValu (w : BitVec 32) (h : w.extractLsb' 1 5 = 0x15#5) : raw32 w = rawValu w := by unfold raw32; rw [h]; rfl

theorem of_rawVfp (w : BitVec 32) (h : w.extractLsb' 1 5 = 0x16#5) : raw32 w = rawVfp w := by unfold raw32; rw [h]; rfl

theorem of_rawVfma (w : BitVec 32) (h : w.extractLsb' 1 5 = 0x17#5) : raw32 w = rawVfma w := by unfold raw32; rw [h]; rfl

theorem of_rawMask (w : BitVec 32) (h : w.extractLsb' 1 5 = 0x18#5) : raw32 w = rawMask w := by unfold raw32; rw [h]; rfl

theorem of_rawFpu (w : BitVec 32) (h : w.extractLsb' 1 5 = 0x19#5) : raw32 w = rawFpu w := by unfold raw32; rw [h]; rfl

theorem of_rawRow (w : BitVec 32) (h : w.extractLsb' 1 5 = 0x1A#5) : raw32 w = rawRow w := by unfold raw32; rw [h]; rfl

theorem of_rawEngine (w : BitVec 32) (h : w.extractLsb' 1 5 = 0x1B#5) : raw32 w = rawEngine w := by unfold raw32; rw [h]; rfl

theorem of_rawSys (w : BitVec 32) (h : w.extractLsb' 1 5 = 0x1C#5) : raw32 w = rawSys w := by unfold raw32; rw [h]; rfl

theorem of_rawVxf (w : BitVec 32) (h : w.extractLsb' 1 5 = 0x1D#5) : raw32 w = rawVxf w := by unfold raw32; rw [h]; rfl

theorem aluAdd (sz tb ta : Bool) (b a d : Reg) : Statement (.aluAdd sz tb ta b a d) := by
  refine of32 _ (wa_one ..) ?_
  show raw32 (wa (0#4 ++ bit sz) 0#4 tb ta b a d 0x01#5) = _
  rw [of_rawAlu _ (wa_op ..)]
  unfold rawAlu
  rw [wa_q_31_1, (part_alu sz).1, wa_fn, wa_q_27_0, (part_fmt sz).1, wa_tb, wa_ta, wa_fB, wa_fA, wa_fD]
  rfl

theorem aluSub (sz tb ta : Bool) (b a d : Reg) : Statement (.aluSub sz tb ta b a d) := by
  refine of32 _ (wa_one ..) ?_
  show raw32 (wa (0#4 ++ bit sz) 1#4 tb ta b a d 0x01#5) = _
  rw [of_rawAlu _ (wa_op ..)]
  unfold rawAlu
  rw [wa_q_31_1, (part_alu sz).1, wa_fn, wa_q_27_0, (part_fmt sz).1, wa_tb, wa_ta, wa_fB, wa_fA, wa_fD]
  rfl

theorem aluMul (sz tb ta : Bool) (b a d : Reg) : Statement (.aluMul sz tb ta b a d) := by
  refine of32 _ (wa_one ..) ?_
  show raw32 (wa (0#4 ++ bit sz) 2#4 tb ta b a d 0x01#5) = _
  rw [of_rawAlu _ (wa_op ..)]
  unfold rawAlu
  rw [wa_q_31_1, (part_alu sz).1, wa_fn, wa_q_27_0, (part_fmt sz).1, wa_tb, wa_ta, wa_fB, wa_fA, wa_fD]
  rfl

theorem aluMulh (sz tb ta : Bool) (b a d : Reg) : Statement (.aluMulh sz tb ta b a d) := by
  refine of32 _ (wa_one ..) ?_
  show raw32 (wa (0#4 ++ bit sz) 3#4 tb ta b a d 0x01#5) = _
  rw [of_rawAlu _ (wa_op ..)]
  unfold rawAlu
  rw [wa_q_31_1, (part_alu sz).1, wa_fn, wa_q_27_0, (part_fmt sz).1, wa_tb, wa_ta, wa_fB, wa_fA, wa_fD]
  rfl

theorem aluMulhu (sz tb ta : Bool) (b a d : Reg) : Statement (.aluMulhu sz tb ta b a d) := by
  refine of32 _ (wa_one ..) ?_
  show raw32 (wa (0#4 ++ bit sz) 4#4 tb ta b a d 0x01#5) = _
  rw [of_rawAlu _ (wa_op ..)]
  unfold rawAlu
  rw [wa_q_31_1, (part_alu sz).1, wa_fn, wa_q_27_0, (part_fmt sz).1, wa_tb, wa_ta, wa_fB, wa_fA, wa_fD]
  rfl

theorem aluDiv (sz tb ta : Bool) (b a d : Reg) : Statement (.aluDiv sz tb ta b a d) := by
  refine of32 _ (wa_one ..) ?_
  show raw32 (wa (0#4 ++ bit sz) 5#4 tb ta b a d 0x01#5) = _
  rw [of_rawAlu _ (wa_op ..)]
  unfold rawAlu
  rw [wa_q_31_1, (part_alu sz).1, wa_fn, wa_q_27_0, (part_fmt sz).1, wa_tb, wa_ta, wa_fB, wa_fA, wa_fD]
  rfl

theorem aluDivu (sz tb ta : Bool) (b a d : Reg) : Statement (.aluDivu sz tb ta b a d) := by
  refine of32 _ (wa_one ..) ?_
  show raw32 (wa (0#4 ++ bit sz) 6#4 tb ta b a d 0x01#5) = _
  rw [of_rawAlu _ (wa_op ..)]
  unfold rawAlu
  rw [wa_q_31_1, (part_alu sz).1, wa_fn, wa_q_27_0, (part_fmt sz).1, wa_tb, wa_ta, wa_fB, wa_fA, wa_fD]
  rfl

theorem aluRem (sz tb ta : Bool) (b a d : Reg) : Statement (.aluRem sz tb ta b a d) := by
  refine of32 _ (wa_one ..) ?_
  show raw32 (wa (0#4 ++ bit sz) 7#4 tb ta b a d 0x01#5) = _
  rw [of_rawAlu _ (wa_op ..)]
  unfold rawAlu
  rw [wa_q_31_1, (part_alu sz).1, wa_fn, wa_q_27_0, (part_fmt sz).1, wa_tb, wa_ta, wa_fB, wa_fA, wa_fD]
  rfl

theorem aluRemu (sz tb ta : Bool) (b a d : Reg) : Statement (.aluRemu sz tb ta b a d) := by
  refine of32 _ (wa_one ..) ?_
  show raw32 (wa (0#4 ++ bit sz) 8#4 tb ta b a d 0x01#5) = _
  rw [of_rawAlu _ (wa_op ..)]
  unfold rawAlu
  rw [wa_q_31_1, (part_alu sz).1, wa_fn, wa_q_27_0, (part_fmt sz).1, wa_tb, wa_ta, wa_fB, wa_fA, wa_fD]
  rfl

theorem aluAnd (sz tb ta : Bool) (b a d : Reg) : Statement (.aluAnd sz tb ta b a d) := by
  refine of32 _ (wa_one ..) ?_
  show raw32 (wa (0#4 ++ bit sz) 9#4 tb ta b a d 0x01#5) = _
  rw [of_rawAlu _ (wa_op ..)]
  unfold rawAlu
  rw [wa_q_31_1, (part_alu sz).1, wa_fn, wa_q_27_0, (part_fmt sz).1, wa_tb, wa_ta, wa_fB, wa_fA, wa_fD]
  rfl

theorem aluOr (sz tb ta : Bool) (b a d : Reg) : Statement (.aluOr sz tb ta b a d) := by
  refine of32 _ (wa_one ..) ?_
  show raw32 (wa (0#4 ++ bit sz) 10#4 tb ta b a d 0x01#5) = _
  rw [of_rawAlu _ (wa_op ..)]
  unfold rawAlu
  rw [wa_q_31_1, (part_alu sz).1, wa_fn, wa_q_27_0, (part_fmt sz).1, wa_tb, wa_ta, wa_fB, wa_fA, wa_fD]
  rfl

theorem aluXor (sz tb ta : Bool) (b a d : Reg) : Statement (.aluXor sz tb ta b a d) := by
  refine of32 _ (wa_one ..) ?_
  show raw32 (wa (0#4 ++ bit sz) 11#4 tb ta b a d 0x01#5) = _
  rw [of_rawAlu _ (wa_op ..)]
  unfold rawAlu
  rw [wa_q_31_1, (part_alu sz).1, wa_fn, wa_q_27_0, (part_fmt sz).1, wa_tb, wa_ta, wa_fB, wa_fA, wa_fD]
  rfl

theorem aluAndn (sz tb ta : Bool) (b a d : Reg) : Statement (.aluAndn sz tb ta b a d) := by
  refine of32 _ (wa_one ..) ?_
  show raw32 (wa (0#4 ++ bit sz) 12#4 tb ta b a d 0x01#5) = _
  rw [of_rawAlu _ (wa_op ..)]
  unfold rawAlu
  rw [wa_q_31_1, (part_alu sz).1, wa_fn, wa_q_27_0, (part_fmt sz).1, wa_tb, wa_ta, wa_fB, wa_fA, wa_fD]
  rfl

theorem aluShl (sz tb ta : Bool) (b a d : Reg) : Statement (.aluShl sz tb ta b a d) := by
  refine of32 _ (wa_one ..) ?_
  show raw32 (wa (0#4 ++ bit sz) 13#4 tb ta b a d 0x01#5) = _
  rw [of_rawAlu _ (wa_op ..)]
  unfold rawAlu
  rw [wa_q_31_1, (part_alu sz).1, wa_fn, wa_q_27_0, (part_fmt sz).1, wa_tb, wa_ta, wa_fB, wa_fA, wa_fD]
  rfl

theorem aluShr (sz tb ta : Bool) (b a d : Reg) : Statement (.aluShr sz tb ta b a d) := by
  refine of32 _ (wa_one ..) ?_
  show raw32 (wa (0#4 ++ bit sz) 14#4 tb ta b a d 0x01#5) = _
  rw [of_rawAlu _ (wa_op ..)]
  unfold rawAlu
  rw [wa_q_31_1, (part_alu sz).1, wa_fn, wa_q_27_0, (part_fmt sz).1, wa_tb, wa_ta, wa_fB, wa_fA, wa_fD]
  rfl

theorem aluSra (sz tb ta : Bool) (b a d : Reg) : Statement (.aluSra sz tb ta b a d) := by
  refine of32 _ (wa_one ..) ?_
  show raw32 (wa (0#4 ++ bit sz) 15#4 tb ta b a d 0x01#5) = _
  rw [of_rawAlu _ (wa_op ..)]
  unfold rawAlu
  rw [wa_q_31_1, (part_alu sz).1, wa_fn, wa_q_27_0, (part_fmt sz).1, wa_tb, wa_ta, wa_fB, wa_fA, wa_fD]
  rfl

theorem aluMin (sz tb ta : Bool) (b a d : Reg) : Statement (.aluMin sz tb ta b a d) := by
  refine of32 _ (wa_one ..) ?_
  show raw32 (wa (8#4 ++ bit sz) 0#4 tb ta b a d 0x01#5) = _
  rw [of_rawAlu _ (wa_op ..)]
  unfold rawAlu
  rw [wa_q_31_1, (part_alu sz).2, wa_fn, wa_q_27_0, (part_fmt sz).2, wa_tb, wa_ta, wa_fB, wa_fA, wa_fD]
  rfl

theorem aluMax (sz tb ta : Bool) (b a d : Reg) : Statement (.aluMax sz tb ta b a d) := by
  refine of32 _ (wa_one ..) ?_
  show raw32 (wa (8#4 ++ bit sz) 1#4 tb ta b a d 0x01#5) = _
  rw [of_rawAlu _ (wa_op ..)]
  unfold rawAlu
  rw [wa_q_31_1, (part_alu sz).2, wa_fn, wa_q_27_0, (part_fmt sz).2, wa_tb, wa_ta, wa_fB, wa_fA, wa_fD]
  rfl

theorem aluMinu (sz tb ta : Bool) (b a d : Reg) : Statement (.aluMinu sz tb ta b a d) := by
  refine of32 _ (wa_one ..) ?_
  show raw32 (wa (8#4 ++ bit sz) 2#4 tb ta b a d 0x01#5) = _
  rw [of_rawAlu _ (wa_op ..)]
  unfold rawAlu
  rw [wa_q_31_1, (part_alu sz).2, wa_fn, wa_q_27_0, (part_fmt sz).2, wa_tb, wa_ta, wa_fB, wa_fA, wa_fD]
  rfl

theorem aluMaxu (sz tb ta : Bool) (b a d : Reg) : Statement (.aluMaxu sz tb ta b a d) := by
  refine of32 _ (wa_one ..) ?_
  show raw32 (wa (8#4 ++ bit sz) 3#4 tb ta b a d 0x01#5) = _
  rw [of_rawAlu _ (wa_op ..)]
  unfold rawAlu
  rw [wa_q_31_1, (part_alu sz).2, wa_fn, wa_q_27_0, (part_fmt sz).2, wa_tb, wa_ta, wa_fB, wa_fA, wa_fD]
  rfl

theorem aluRot (sz tb ta : Bool) (b a d : Reg) : Statement (.aluRot sz tb ta b a d) := by
  refine of32 _ (wa_one ..) ?_
  show raw32 (wa (8#4 ++ bit sz) 4#4 tb ta b a d 0x01#5) = _
  rw [of_rawAlu _ (wa_op ..)]
  unfold rawAlu
  rw [wa_q_31_1, (part_alu sz).2, wa_fn, wa_q_27_0, (part_fmt sz).2, wa_tb, wa_ta, wa_fB, wa_fA, wa_fD]
  rfl

theorem aluClz (sz tb ta : Bool) (a d : Reg) : Statement (.aluClz sz tb ta a d) := by
  refine of32 _ (wa_one ..) ?_
  show raw32 (wa (8#4 ++ bit sz) 5#4 tb ta 0#5 a d 0x01#5) = _
  rw [of_rawAlu _ (wa_op ..)]
  unfold rawAlu
  rw [wa_q_31_1, (part_alu sz).2, wa_fn, wa_q_27_0, (part_fmt sz).2, wa_tb, wa_ta, wa_fA, wa_fD]
  rfl

theorem aluCtz (sz tb ta : Bool) (a d : Reg) : Statement (.aluCtz sz tb ta a d) := by
  refine of32 _ (wa_one ..) ?_
  show raw32 (wa (8#4 ++ bit sz) 6#4 tb ta 0#5 a d 0x01#5) = _
  rw [of_rawAlu _ (wa_op ..)]
  unfold rawAlu
  rw [wa_q_31_1, (part_alu sz).2, wa_fn, wa_q_27_0, (part_fmt sz).2, wa_tb, wa_ta, wa_fA, wa_fD]
  rfl

theorem aluPopc (sz tb ta : Bool) (a d : Reg) : Statement (.aluPopc sz tb ta a d) := by
  refine of32 _ (wa_one ..) ?_
  show raw32 (wa (8#4 ++ bit sz) 7#4 tb ta 0#5 a d 0x01#5) = _
  rw [of_rawAlu _ (wa_op ..)]
  unfold rawAlu
  rw [wa_q_31_1, (part_alu sz).2, wa_fn, wa_q_27_0, (part_fmt sz).2, wa_tb, wa_ta, wa_fA, wa_fD]
  rfl

theorem aluEq (sz tb ta : Bool) (b a d : Reg) : Statement (.aluEq sz tb ta b a d) := by
  refine of32 _ (wa_one ..) ?_
  show raw32 (wa (8#4 ++ bit sz) 8#4 tb ta b a d 0x01#5) = _
  rw [of_rawAlu _ (wa_op ..)]
  unfold rawAlu
  rw [wa_q_31_1, (part_alu sz).2, wa_fn, wa_q_27_0, (part_fmt sz).2, wa_tb, wa_ta, wa_fB, wa_fA, wa_fD]
  rfl

theorem aluNe (sz tb ta : Bool) (b a d : Reg) : Statement (.aluNe sz tb ta b a d) := by
  refine of32 _ (wa_one ..) ?_
  show raw32 (wa (8#4 ++ bit sz) 9#4 tb ta b a d 0x01#5) = _
  rw [of_rawAlu _ (wa_op ..)]
  unfold rawAlu
  rw [wa_q_31_1, (part_alu sz).2, wa_fn, wa_q_27_0, (part_fmt sz).2, wa_tb, wa_ta, wa_fB, wa_fA, wa_fD]
  rfl

theorem aluLt (sz tb ta : Bool) (b a d : Reg) : Statement (.aluLt sz tb ta b a d) := by
  refine of32 _ (wa_one ..) ?_
  show raw32 (wa (8#4 ++ bit sz) 10#4 tb ta b a d 0x01#5) = _
  rw [of_rawAlu _ (wa_op ..)]
  unfold rawAlu
  rw [wa_q_31_1, (part_alu sz).2, wa_fn, wa_q_27_0, (part_fmt sz).2, wa_tb, wa_ta, wa_fB, wa_fA, wa_fD]
  rfl

theorem aluLtu (sz tb ta : Bool) (b a d : Reg) : Statement (.aluLtu sz tb ta b a d) := by
  refine of32 _ (wa_one ..) ?_
  show raw32 (wa (8#4 ++ bit sz) 11#4 tb ta b a d 0x01#5) = _
  rw [of_rawAlu _ (wa_op ..)]
  unfold rawAlu
  rw [wa_q_31_1, (part_alu sz).2, wa_fn, wa_q_27_0, (part_fmt sz).2, wa_tb, wa_ta, wa_fB, wa_fA, wa_fD]
  rfl

theorem aluLe (sz tb ta : Bool) (b a d : Reg) : Statement (.aluLe sz tb ta b a d) := by
  refine of32 _ (wa_one ..) ?_
  show raw32 (wa (8#4 ++ bit sz) 12#4 tb ta b a d 0x01#5) = _
  rw [of_rawAlu _ (wa_op ..)]
  unfold rawAlu
  rw [wa_q_31_1, (part_alu sz).2, wa_fn, wa_q_27_0, (part_fmt sz).2, wa_tb, wa_ta, wa_fB, wa_fA, wa_fD]
  rfl

theorem aluLeu (sz tb ta : Bool) (b a d : Reg) : Statement (.aluLeu sz tb ta b a d) := by
  refine of32 _ (wa_one ..) ?_
  show raw32 (wa (8#4 ++ bit sz) 13#4 tb ta b a d 0x01#5) = _
  rw [of_rawAlu _ (wa_op ..)]
  unfold rawAlu
  rw [wa_q_31_1, (part_alu sz).2, wa_fn, wa_q_27_0, (part_fmt sz).2, wa_tb, wa_ta, wa_fB, wa_fA, wa_fD]
  rfl

theorem aluSel (sz tb ta : Bool) (b a d : Reg) : Statement (.aluSel sz tb ta b a d) := by
  refine of32 _ (wa_one ..) ?_
  show raw32 (wa (8#4 ++ bit sz) 14#4 tb ta b a d 0x01#5) = _
  rw [of_rawAlu _ (wa_op ..)]
  unfold rawAlu
  rw [wa_q_31_1, (part_alu sz).2, wa_fn, wa_q_27_0, (part_fmt sz).2, wa_tb, wa_ta, wa_fB, wa_fA, wa_fD]
  rfl

theorem aluExt (sz tb ta : Bool) (b a d : Reg) : Statement (.aluExt sz tb ta b a d) := by
  refine of32 _ (wa_one ..) ?_
  show raw32 (wa (8#4 ++ bit sz) 15#4 tb ta b a d 0x01#5) = _
  rw [of_rawAlu _ (wa_op ..)]
  unfold rawAlu
  rw [wa_q_31_1, (part_alu sz).2, wa_fn, wa_q_27_0, (part_fmt sz).2, wa_tb, wa_ta, wa_fB, wa_fA, wa_fD]
  rfl

theorem alui (imm : BitVec 15) (ta : Bool) (a d : Reg) : Statement (.alui imm ta a d) := by
  refine of32 _ (wi_one ..) ?_
  show raw32 (wi imm ta a d 0x02#5) = _
  unfold raw32
  rw [wi_op, wi_i, wi_ta, wi_fA, wi_fD]
  rfl

theorem andi (imm : BitVec 15) (ta : Bool) (a d : Reg) : Statement (.andi imm ta a d) := by
  refine of32 _ (wi_one ..) ?_
  show raw32 (wi imm ta a d 0x03#5) = _
  unfold raw32
  rw [wi_op, wi_i, wi_ta, wi_fA, wi_fD]
  rfl

theorem ori (imm : BitVec 15) (ta : Bool) (a d : Reg) : Statement (.ori imm ta a d) := by
  refine of32 _ (wi_one ..) ?_
  show raw32 (wi imm ta a d 0x04#5) = _
  unfold raw32
  rw [wi_op, wi_i, wi_ta, wi_fA, wi_fD]
  rfl

theorem xori (imm : BitVec 15) (ta : Bool) (a d : Reg) : Statement (.xori imm ta a d) := by
  refine of32 _ (wi_one ..) ?_
  show raw32 (wi imm ta a d 0x05#5) = _
  unfold raw32
  rw [wi_op, wi_i, wi_ta, wi_fA, wi_fD]
  rfl

theorem shiShl (sz : Bool) (amt : BitVec 6) (ta : Bool) (a d : Reg) : Statement (.shiShl sz amt ta a d) := by
  refine of32 _ (wi_one ..) ?_
  show raw32 (wi (0#6 ++ bit sz ++ amt ++ 0#2) ta a d 0x06#5) = _
  rw [of_rawShi _ (wi_op ..)]
  unfold rawShi
  rw [wi_i_17_2, part_fn2, wi_i_25_0, part_sz, wi_i_19_6, part_amt, wi_ta, wi_fA, wi_fD]
  rfl

theorem shiShr (sz : Bool) (amt : BitVec 6) (ta : Bool) (a d : Reg) : Statement (.shiShr sz amt ta a d) := by
  refine of32 _ (wi_one ..) ?_
  show raw32 (wi (0#6 ++ bit sz ++ amt ++ 1#2) ta a d 0x06#5) = _
  rw [of_rawShi _ (wi_op ..)]
  unfold rawShi
  rw [wi_i_17_2, part_fn2, wi_i_25_0, part_sz, wi_i_19_6, part_amt, wi_ta, wi_fA, wi_fD]
  rfl

theorem shiSra (sz : Bool) (amt : BitVec 6) (ta : Bool) (a d : Reg) : Statement (.shiSra sz amt ta a d) := by
  refine of32 _ (wi_one ..) ?_
  show raw32 (wi (0#6 ++ bit sz ++ amt ++ 2#2) ta a d 0x06#5) = _
  rw [of_rawShi _ (wi_op ..)]
  unfold rawShi
  rw [wi_i_17_2, part_fn2, wi_i_25_0, part_sz, wi_i_19_6, part_amt, wi_ta, wi_fA, wi_fD]
  rfl

theorem shiRot (sz : Bool) (amt : BitVec 6) (ta : Bool) (a d : Reg) : Statement (.shiRot sz amt ta a d) := by
  refine of32 _ (wi_one ..) ?_
  show raw32 (wi (0#6 ++ bit sz ++ amt ++ 3#2) ta a d 0x06#5) = _
  rw [of_rawShi _ (wi_op ..)]
  unfold rawShi
  rw [wi_i_17_2, part_fn2, wi_i_25_0, part_sz, wi_i_19_6, part_amt, wi_ta, wi_fA, wi_fD]
  rfl

theorem cmpiEq (imm : BitVec 12) (ta : Bool) (a d : Reg) : Statement (.cmpiEq imm ta a d) := by
  refine of32 _ (wi_one ..) ?_
  show raw32 (wi (imm ++ 0#3) ta a d 0x07#5) = _
  rw [of_rawCmpi _ (wi_op ..)]
  unfold rawCmpi
  rw [wi_i_17_3, part_fn3, wi_i_20_12, part_imm12, wi_ta, wi_fA, wi_fD]
  rfl

theorem cmpiNe (imm : BitVec 12) (ta : Bool) (a d : Reg) : Statement (.cmpiNe imm ta a d) := by
  refine of32 _ (wi_one ..) ?_
  show raw32 (wi (imm ++ 1#3) ta a d 0x07#5) = _
  rw [of_rawCmpi _ (wi_op ..)]
  unfold rawCmpi
  rw [wi_i_17_3, part_fn3, wi_i_20_12, part_imm12, wi_ta, wi_fA, wi_fD]
  rfl

theorem cmpiLt (imm : BitVec 12) (ta : Bool) (a d : Reg) : Statement (.cmpiLt imm ta a d) := by
  refine of32 _ (wi_one ..) ?_
  show raw32 (wi (imm ++ 2#3) ta a d 0x07#5) = _
  rw [of_rawCmpi _ (wi_op ..)]
  unfold rawCmpi
  rw [wi_i_17_3, part_fn3, wi_i_20_12, part_imm12, wi_ta, wi_fA, wi_fD]
  rfl

theorem cmpiLtu (imm : BitVec 12) (ta : Bool) (a d : Reg) : Statement (.cmpiLtu imm ta a d) := by
  refine of32 _ (wi_one ..) ?_
  show raw32 (wi (imm ++ 3#3) ta a d 0x07#5) = _
  rw [of_rawCmpi _ (wi_op ..)]
  unfold rawCmpi
  rw [wi_i_17_3, part_fn3, wi_i_20_12, part_imm12, wi_ta, wi_fA, wi_fD]
  rfl

theorem cmpiLe (imm : BitVec 12) (ta : Bool) (a d : Reg) : Statement (.cmpiLe imm ta a d) := by
  refine of32 _ (wi_one ..) ?_
  show raw32 (wi (imm ++ 4#3) ta a d 0x07#5) = _
  rw [of_rawCmpi _ (wi_op ..)]
  unfold rawCmpi
  rw [wi_i_17_3, part_fn3, wi_i_20_12, part_imm12, wi_ta, wi_fA, wi_fD]
  rfl

theorem cmpiLeu (imm : BitVec 12) (ta : Bool) (a d : Reg) : Statement (.cmpiLeu imm ta a d) := by
  refine of32 _ (wi_one ..) ?_
  show raw32 (wi (imm ++ 5#3) ta a d 0x07#5) = _
  rw [of_rawCmpi _ (wi_op ..)]
  unfold rawCmpi
  rw [wi_i_17_3, part_fn3, wi_i_20_12, part_imm12, wi_ta, wi_fA, wi_fD]
  rfl

theorem cmpiGt (imm : BitVec 12) (ta : Bool) (a d : Reg) : Statement (.cmpiGt imm ta a d) := by
  refine of32 _ (wi_one ..) ?_
  show raw32 (wi (imm ++ 6#3) ta a d 0x07#5) = _
  rw [of_rawCmpi _ (wi_op ..)]
  unfold rawCmpi
  rw [wi_i_17_3, part_fn3, wi_i_20_12, part_imm12, wi_ta, wi_fA, wi_fD]
  rfl

theorem cmpiGtu (imm : BitVec 12) (ta : Bool) (a d : Reg) : Statement (.cmpiGtu imm ta a d) := by
  refine of32 _ (wi_one ..) ?_
  show raw32 (wi (imm ++ 7#3) ta a d 0x07#5) = _
  rw [of_rawCmpi _ (wi_op ..)]
  unfold rawCmpi
  rw [wi_i_17_3, part_fn3, wi_i_20_12, part_imm12, wi_ta, wi_fA, wi_fD]
  rfl

theorem ldi (imm : BitVec 21) (d : Reg) : Statement (.ldi imm d) := by
  refine of32 _ (wl_one ..) ?_
  show raw32 (wl imm d 0x08#5) = _
  unfold raw32
  rw [wl_op, wl_i, wl_fD]
  rfl

theorem ldx (imm : BitVec 21) (d : Reg) : Statement (.ldx imm d) := by
  refine of32 _ (wl_one ..) ?_
  show raw32 (wl imm d 0x09#5) = _
  unfold raw32
  rw [wl_op, wl_i, wl_fD]
  rfl

theorem extC0 (imm : BitVec 21) (e : BitVec 3) : Statement (.extC0 imm e) := by
  refine of32 _ (wl_one ..) ?_
  show raw32 (wl imm (0#2 ++ e) 0x0A#5) = _
  rw [of_rawExt _ (wl_op ..)]
  unfold rawExt
  rw [wl_d_9_2, part_cond, wl_i, wl_d_6_3, part_m]
  rfl

theorem extC1 (imm : BitVec 21) (e : BitVec 3) : Statement (.extC1 imm e) := by
  refine of32 _ (wl_one ..) ?_
  show raw32 (wl imm (1#2 ++ e) 0x0A#5) = _
  rw [of_rawExt _ (wl_op ..)]
  unfold rawExt
  rw [wl_d_9_2, part_cond, wl_i, wl_d_6_3, part_m]
  rfl

theorem extC2 (imm : BitVec 21) (e : BitVec 3) : Statement (.extC2 imm e) := by
  refine of32 _ (wl_one ..) ?_
  show raw32 (wl imm (2#2 ++ e) 0x0A#5) = _
  rw [of_rawExt _ (wl_op ..)]
  unfold rawExt
  rw [wl_d_9_2, part_cond, wl_i, wl_d_6_3, part_m]
  rfl

theorem extX (x : Reg) (e : BitVec 3) : Statement (.extX x e) := by
  refine of32 _ (wl_one ..) ?_
  show raw32 (wl (0#16 ++ x) (3#2 ++ e) 0x0A#5) = _
  rw [of_rawExt _ (wl_op ..)]
  unfold rawExt
  rw [wl_d_9_2, part_cond, wl_fA, part_x, wl_d_6_3, part_m]
  rfl

theorem br (imm : BitVec 21) (d : Reg) : Statement (.br imm d) := by
  refine of32 _ (wl_one ..) ?_
  show raw32 (wl imm d 0x0B#5) = _
  unfold raw32
  rw [wl_op, wl_i, wl_fD]
  rfl

theorem bcEq (imm : BitVec 12) (ta : Bool) (b a : Reg) : Statement (.bcEq imm ta b a) := by
  refine of32 _ (wc_one ..) ?_
  show raw32 (wc imm ta 0#3 b a 0x0C#5) = _
  rw [of_rawBc _ (wc_op ..)]
  unfold rawBc
  rw [wc_c, wc_i, wc_ta, wc_fA, wc_fD]
  rfl

theorem bcNe (imm : BitVec 12) (ta : Bool) (b a : Reg) : Statement (.bcNe imm ta b a) := by
  refine of32 _ (wc_one ..) ?_
  show raw32 (wc imm ta 1#3 b a 0x0C#5) = _
  rw [of_rawBc _ (wc_op ..)]
  unfold rawBc
  rw [wc_c, wc_i, wc_ta, wc_fA, wc_fD]
  rfl

theorem bcLt (imm : BitVec 12) (ta : Bool) (b a : Reg) : Statement (.bcLt imm ta b a) := by
  refine of32 _ (wc_one ..) ?_
  show raw32 (wc imm ta 2#3 b a 0x0C#5) = _
  rw [of_rawBc _ (wc_op ..)]
  unfold rawBc
  rw [wc_c, wc_i, wc_ta, wc_fA, wc_fD]
  rfl

theorem bcLtu (imm : BitVec 12) (ta : Bool) (b a : Reg) : Statement (.bcLtu imm ta b a) := by
  refine of32 _ (wc_one ..) ?_
  show raw32 (wc imm ta 3#3 b a 0x0C#5) = _
  rw [of_rawBc _ (wc_op ..)]
  unfold rawBc
  rw [wc_c, wc_i, wc_ta, wc_fA, wc_fD]
  rfl

theorem bcGe (imm : BitVec 12) (ta : Bool) (b a : Reg) : Statement (.bcGe imm ta b a) := by
  refine of32 _ (wc_one ..) ?_
  show raw32 (wc imm ta 4#3 b a 0x0C#5) = _
  rw [of_rawBc _ (wc_op ..)]
  unfold rawBc
  rw [wc_c, wc_i, wc_ta, wc_fA, wc_fD]
  rfl

theorem bcGeu (imm : BitVec 12) (ta : Bool) (b a : Reg) : Statement (.bcGeu imm ta b a) := by
  refine of32 _ (wc_one ..) ?_
  show raw32 (wc imm ta 5#3 b a 0x0C#5) = _
  rw [of_rawBc _ (wc_op ..)]
  unfold rawBc
  rw [wc_c, wc_i, wc_ta, wc_fA, wc_fD]
  rfl

theorem jmp (imm : BitVec 14) (ta : Bool) (a d : Reg) : Statement (.jmp imm ta a d) := by
  refine of32 _ (wi_one ..) ?_
  show raw32 (wi (imm ++ 0#1) ta a d 0x0D#5) = _
  rw [of_rawJmp _ (wi_op ..)]
  unfold rawJmp
  rw [wi_i_17_1, part_fn1, wi_i_18_14, part_imm14, wi_ta, wi_fA, wi_fD]
  rfl

theorem jmpRet (imm : BitVec 14) (ta : Bool) (a d : Reg) : Statement (.jmpRet imm ta a d) := by
  refine of32 _ (wi_one ..) ?_
  show raw32 (wi (imm ++ 1#1) ta a d 0x0D#5) = _
  rw [of_rawJmp _ (wi_op ..)]
  unfold rawJmp
  rw [wi_i_17_1, part_fn1, wi_i_18_14, part_imm14, wi_ta, wi_fA, wi_fD]
  rfl

theorem ld (off : BitVec 10) (mo : BitVec 2) (sz : BitVec 3) (ta : Bool) (a d : Reg) : Statement (.ld off mo sz ta a d) := by
  refine of32 _ (wm_one ..) ?_
  show raw32 (wm off mo sz ta a d 0x0E#5) = _
  unfold raw32
  rw [wm_op, wm_o, wm_mo, wm_sz, wm_ta, wm_fA, wm_fD]
  rfl

theorem st (off : BitVec 10) (mo : BitVec 2) (sz : BitVec 3) (ta : Bool) (a d : Reg) : Statement (.st off mo sz ta a d) := by
  refine of32 _ (wm_one ..) ?_
  show raw32 (wm off mo sz ta a d 0x0F#5) = _
  unfold raw32
  rw [wm_op, wm_o, wm_mo, wm_sz, wm_ta, wm_fA, wm_fD]
  rfl

theorem vld (off : BitVec 10) (mo : BitVec 2) (sz : BitVec 3) (ta : Bool) (a d : Reg) : Statement (.vld off mo sz ta a d) := by
  refine of32 _ (wm_one ..) ?_
  show raw32 (wm off mo sz ta a d 0x10#5) = _
  unfold raw32
  rw [wm_op, wm_o, wm_mo, wm_sz, wm_ta, wm_fA, wm_fD]
  rfl

theorem vst (off : BitVec 10) (mo : BitVec 2) (sz : BitVec 3) (ta : Bool) (a d : Reg) : Statement (.vst off mo sz ta a d) := by
  refine of32 _ (wm_one ..) ?_
  show raw32 (wm off mo sz ta a d 0x11#5) = _
  unfold raw32
  rw [wm_op, wm_o, wm_mo, wm_sz, wm_ta, wm_fA, wm_fD]
  rfl

theorem vmemGather (ty : BitVec 3) (t : Bool) (mk : BitVec 3) (b a d : Reg) : Statement (.vmemGather ty t mk b a d) := by
  refine of32 _ (wv_one ..) ?_
  show raw32 (wv ty 0#4 t mk b a d 0x12#5) = _
  rw [of_rawVmem _ (wv_op ..)]
  unfold rawVmem
  rw [wv_fn, wv_ty, wv_t, wv_mk, wv_fB, wv_fA, wv_fD]
  rfl

theorem vmemScatter (ty : BitVec 3) (t : Bool) (mk : BitVec 3) (b a d : Reg) : Statement (.vmemScatter ty t mk b a d) := by
  refine of32 _ (wv_one ..) ?_
  show raw32 (wv ty 1#4 t mk b a d 0x12#5) = _
  rw [of_rawVmem _ (wv_op ..)]
  unfold rawVmem
  rw [wv_fn, wv_ty, wv_t, wv_mk, wv_fB, wv_fA, wv_fD]
  rfl

theorem vmemLds (ty : BitVec 3) (t : Bool) (mk : BitVec 3) (b a d : Reg) : Statement (.vmemLds ty t mk b a d) := by
  refine of32 _ (wv_one ..) ?_
  show raw32 (wv ty 2#4 t mk b a d 0x12#5) = _
  rw [of_rawVmem _ (wv_op ..)]
  unfold rawVmem
  rw [wv_fn, wv_ty, wv_t, wv_mk, wv_fB, wv_fA, wv_fD]
  rfl

theorem vmemSts (ty : BitVec 3) (t : Bool) (mk : BitVec 3) (b a d : Reg) : Statement (.vmemSts ty t mk b a d) := by
  refine of32 _ (wv_one ..) ?_
  show raw32 (wv ty 3#4 t mk b a d 0x12#5) = _
  rw [of_rawVmem _ (wv_op ..)]
  unfold rawVmem
  rw [wv_fn, wv_ty, wv_t, wv_mk, wv_fB, wv_fA, wv_fD]
  rfl

theorem vmemScatredAdd (ty : BitVec 3) (t : Bool) (mk : BitVec 3) (b a d : Reg) : Statement (.vmemScatredAdd ty t mk b a d) := by
  refine of32 _ (wv_one ..) ?_
  show raw32 (wv ty 8#4 t mk b a d 0x12#5) = _
  rw [of_rawVmem _ (wv_op ..)]
  unfold rawVmem
  rw [wv_fn, wv_ty, wv_t, wv_mk, wv_fB, wv_fA, wv_fD]
  rfl

theorem vmemScatredFadd (ty : BitVec 3) (t : Bool) (mk : BitVec 3) (b a d : Reg) : Statement (.vmemScatredFadd ty t mk b a d) := by
  refine of32 _ (wv_one ..) ?_
  show raw32 (wv ty 9#4 t mk b a d 0x12#5) = _
  rw [of_rawVmem _ (wv_op ..)]
  unfold rawVmem
  rw [wv_fn, wv_ty, wv_t, wv_mk, wv_fB, wv_fA, wv_fD]
  rfl

theorem vmemScatredMin (ty : BitVec 3) (t : Bool) (mk : BitVec 3) (b a d : Reg) : Statement (.vmemScatredMin ty t mk b a d) := by
  refine of32 _ (wv_one ..) ?_
  show raw32 (wv ty 10#4 t mk b a d 0x12#5) = _
  rw [of_rawVmem _ (wv_op ..)]
  unfold rawVmem
  rw [wv_fn, wv_ty, wv_t, wv_mk, wv_fB, wv_fA, wv_fD]
  rfl

theorem vmemScatredMax (ty : BitVec 3) (t : Bool) (mk : BitVec 3) (b a d : Reg) : Statement (.vmemScatredMax ty t mk b a d) := by
  refine of32 _ (wv_one ..) ?_
  show raw32 (wv ty 11#4 t mk b a d 0x12#5) = _
  rw [of_rawVmem _ (wv_op ..)]
  unfold rawVmem
  rw [wv_fn, wv_ty, wv_t, wv_mk, wv_fB, wv_fA, wv_fD]
  rfl

theorem vmemScatredMinu (ty : BitVec 3) (t : Bool) (mk : BitVec 3) (b a d : Reg) : Statement (.vmemScatredMinu ty t mk b a d) := by
  refine of32 _ (wv_one ..) ?_
  show raw32 (wv ty 12#4 t mk b a d 0x12#5) = _
  rw [of_rawVmem _ (wv_op ..)]
  unfold rawVmem
  rw [wv_fn, wv_ty, wv_t, wv_mk, wv_fB, wv_fA, wv_fD]
  rfl

theorem vmemScatredMaxu (ty : BitVec 3) (t : Bool) (mk : BitVec 3) (b a d : Reg) : Statement (.vmemScatredMaxu ty t mk b a d) := by
  refine of32 _ (wv_one ..) ?_
  show raw32 (wv ty 13#4 t mk b a d 0x12#5) = _
  rw [of_rawVmem _ (wv_op ..)]
  unfold rawVmem
  rw [wv_fn, wv_ty, wv_t, wv_mk, wv_fB, wv_fA, wv_fD]
  rfl

theorem vmemScatredOr (ty : BitVec 3) (t : Bool) (mk : BitVec 3) (b a d : Reg) : Statement (.vmemScatredOr ty t mk b a d) := by
  refine of32 _ (wv_one ..) ?_
  show raw32 (wv ty 14#4 t mk b a d 0x12#5) = _
  rw [of_rawVmem _ (wv_op ..)]
  unfold rawVmem
  rw [wv_fn, wv_ty, wv_t, wv_mk, wv_fB, wv_fA, wv_fD]
  rfl

theorem amoAdd (post : Bool) (scope : BitVec 2) (sz tb ta : Bool) (b a d : Reg) : Statement (.amoAdd post scope sz tb ta b a d) := by
  refine of32 _ (wa_one ..) ?_
  show raw32 (wa (0#1 ++ bit post ++ scope ++ bit sz) 0#4 tb ta b a d 0x13#5) = _
  rw [of_rawAmo _ (wa_op ..)]
  unfold rawAmo
  rw [wa_fn, wa_q_30_0, part_post, wa_q_28_2, part_scope, wa_q_27_0, part_size, wa_tb, wa_ta, wa_fB, wa_fA, wa_fD]
  rfl

theorem amoAnd (post : Bool) (scope : BitVec 2) (sz tb ta : Bool) (b a d : Reg) : Statement (.amoAnd post scope sz tb ta b a d) := by
  refine of32 _ (wa_one ..) ?_
  show raw32 (wa (0#1 ++ bit post ++ scope ++ bit sz) 1#4 tb ta b a d 0x13#5) = _
  rw [of_rawAmo _ (wa_op ..)]
  unfold rawAmo
  rw [wa_fn, wa_q_30_0, part_post, wa_q_28_2, part_scope, wa_q_27_0, part_size, wa_tb, wa_ta, wa_fB, wa_fA, wa_fD]
  rfl

theorem amoOr (post : Bool) (scope : BitVec 2) (sz tb ta : Bool) (b a d : Reg) : Statement (.amoOr post scope sz tb ta b a d) := by
  refine of32 _ (wa_one ..) ?_
  show raw32 (wa (0#1 ++ bit post ++ scope ++ bit sz) 2#4 tb ta b a d 0x13#5) = _
  rw [of_rawAmo _ (wa_op ..)]
  unfold rawAmo
  rw [wa_fn, wa_q_30_0, part_post, wa_q_28_2, part_scope, wa_q_27_0, part_size, wa_tb, wa_ta, wa_fB, wa_fA, wa_fD]
  rfl

theorem amoXor (post : Bool) (scope : BitVec 2) (sz tb ta : Bool) (b a d : Reg) : Statement (.amoXor post scope sz tb ta b a d) := by
  refine of32 _ (wa_one ..) ?_
  show raw32 (wa (0#1 ++ bit post ++ scope ++ bit sz) 3#4 tb ta b a d 0x13#5) = _
  rw [of_rawAmo _ (wa_op ..)]
  unfold rawAmo
  rw [wa_fn, wa_q_30_0, part_post, wa_q_28_2, part_scope, wa_q_27_0, part_size, wa_tb, wa_ta, wa_fB, wa_fA, wa_fD]
  rfl

theorem amoMin (post : Bool) (scope : BitVec 2) (sz tb ta : Bool) (b a d : Reg) : Statement (.amoMin post scope sz tb ta b a d) := by
  refine of32 _ (wa_one ..) ?_
  show raw32 (wa (0#1 ++ bit post ++ scope ++ bit sz) 4#4 tb ta b a d 0x13#5) = _
  rw [of_rawAmo _ (wa_op ..)]
  unfold rawAmo
  rw [wa_fn, wa_q_30_0, part_post, wa_q_28_2, part_scope, wa_q_27_0, part_size, wa_tb, wa_ta, wa_fB, wa_fA, wa_fD]
  rfl

theorem amoMax (post : Bool) (scope : BitVec 2) (sz tb ta : Bool) (b a d : Reg) : Statement (.amoMax post scope sz tb ta b a d) := by
  refine of32 _ (wa_one ..) ?_
  show raw32 (wa (0#1 ++ bit post ++ scope ++ bit sz) 5#4 tb ta b a d 0x13#5) = _
  rw [of_rawAmo _ (wa_op ..)]
  unfold rawAmo
  rw [wa_fn, wa_q_30_0, part_post, wa_q_28_2, part_scope, wa_q_27_0, part_size, wa_tb, wa_ta, wa_fB, wa_fA, wa_fD]
  rfl

theorem amoMinu (post : Bool) (scope : BitVec 2) (sz tb ta : Bool) (b a d : Reg) : Statement (.amoMinu post scope sz tb ta b a d) := by
  refine of32 _ (wa_one ..) ?_
  show raw32 (wa (0#1 ++ bit post ++ scope ++ bit sz) 6#4 tb ta b a d 0x13#5) = _
  rw [of_rawAmo _ (wa_op ..)]
  unfold rawAmo
  rw [wa_fn, wa_q_30_0, part_post, wa_q_28_2, part_scope, wa_q_27_0, part_size, wa_tb, wa_ta, wa_fB, wa_fA, wa_fD]
  rfl

theorem amoMaxu (post : Bool) (scope : BitVec 2) (sz tb ta : Bool) (b a d : Reg) : Statement (.amoMaxu post scope sz tb ta b a d) := by
  refine of32 _ (wa_one ..) ?_
  show raw32 (wa (0#1 ++ bit post ++ scope ++ bit sz) 7#4 tb ta b a d 0x13#5) = _
  rw [of_rawAmo _ (wa_op ..)]
  unfold rawAmo
  rw [wa_fn, wa_q_30_0, part_post, wa_q_28_2, part_scope, wa_q_27_0, part_size, wa_tb, wa_ta, wa_fB, wa_fA, wa_fD]
  rfl

theorem amoSwap (post : Bool) (scope : BitVec 2) (sz tb ta : Bool) (b a d : Reg) : Statement (.amoSwap post scope sz tb ta b a d) := by
  refine of32 _ (wa_one ..) ?_
  show raw32 (wa (0#1 ++ bit post ++ scope ++ bit sz) 8#4 tb ta b a d 0x13#5) = _
  rw [of_rawAmo _ (wa_op ..)]
  unfold rawAmo
  rw [wa_fn, wa_q_30_0, part_post, wa_q_28_2, part_scope, wa_q_27_0, part_size, wa_tb, wa_ta, wa_fB, wa_fA, wa_fD]
  rfl

theorem amoCas (post : Bool) (scope : BitVec 2) (sz tb ta : Bool) (b a d : Reg) : Statement (.amoCas post scope sz tb ta b a d) := by
  refine of32 _ (wa_one ..) ?_
  show raw32 (wa (0#1 ++ bit post ++ scope ++ bit sz) 9#4 tb ta b a d 0x13#5) = _
  rw [of_rawAmo _ (wa_op ..)]
  unfold rawAmo
  rw [wa_fn, wa_q_30_0, part_post, wa_q_28_2, part_scope, wa_q_27_0, part_size, wa_tb, wa_ta, wa_fB, wa_fA, wa_fD]
  rfl

theorem amoDecFire (scope : BitVec 2) (tb ta : Bool) (a d : Reg) : Statement (.amoDecFire scope tb ta a d) := by
  refine of32 _ (wa_one ..) ?_
  show raw32 (wa (0#2 ++ scope ++ 1#1) 10#4 tb ta 0#5 a d 0x13#5) = _
  rw [of_rawAmo _ (wa_op ..)]
  unfold rawAmo
  rw [wa_fn, wa_q_28_2, part_scope1, wa_tb, wa_ta, wa_fA, wa_fD]
  rfl

theorem amoFadd (post : Bool) (scope : BitVec 2) (sz tb ta : Bool) (b a d : Reg) : Statement (.amoFadd post scope sz tb ta b a d) := by
  refine of32 _ (wa_one ..) ?_
  show raw32 (wa (0#1 ++ bit post ++ scope ++ bit sz) 11#4 tb ta b a d 0x13#5) = _
  rw [of_rawAmo _ (wa_op ..)]
  unfold rawAmo
  rw [wa_fn, wa_q_30_0, part_post, wa_q_28_2, part_scope, wa_q_27_0, part_size, wa_tb, wa_ta, wa_fB, wa_fA, wa_fD]
  rfl

theorem syncFenceDie (tb ta : Bool) : Statement (.syncFenceDie tb ta) := by
  refine of32 _ (wa_one ..) ?_
  show raw32 (wa 0#5 0#4 tb ta 0#5 0#5 0#5 0x14#5) = _
  rw [of_rawSync _ (wa_op ..)]
  unfold rawSync
  rw [wa_fn, wa_tb, wa_ta]
  rfl

theorem syncFenceDev (tb ta : Bool) : Statement (.syncFenceDev tb ta) := by
  refine of32 _ (wa_one ..) ?_
  show raw32 (wa 0#5 1#4 tb ta 0#5 0#5 0#5 0x14#5) = _
  rw [of_rawSync _ (wa_op ..)]
  unfold rawSync
  rw [wa_fn, wa_tb, wa_ta]
  rfl

theorem syncFenceSys (tb ta : Bool) : Statement (.syncFenceSys tb ta) := by
  refine of32 _ (wa_one ..) ?_
  show raw32 (wa 0#5 2#4 tb ta 0#5 0#5 0#5 0x14#5) = _
  rw [of_rawSync _ (wa_op ..)]
  unfold rawSync
  rw [wa_fn, wa_tb, wa_ta]
  rfl

theorem syncFenceCp (tb ta : Bool) : Statement (.syncFenceCp tb ta) := by
  refine of32 _ (wa_one ..) ?_
  show raw32 (wa 0#5 3#4 tb ta 0#5 0#5 0#5 0x14#5) = _
  rw [of_rawSync _ (wa_op ..)]
  unfold rawSync
  rw [wa_fn, wa_tb, wa_ta]
  rfl

theorem syncFenceU (tb ta : Bool) : Statement (.syncFenceU tb ta) := by
  refine of32 _ (wa_one ..) ?_
  show raw32 (wa 0#5 4#4 tb ta 0#5 0#5 0#5 0x14#5) = _
  rw [of_rawSync _ (wa_op ..)]
  unfold rawSync
  rw [wa_fn, wa_tb, wa_ta]
  rfl

theorem syncRel (tb ta : Bool) (b a : Reg) : Statement (.syncRel tb ta b a) := by
  refine of32 _ (wa_one ..) ?_
  show raw32 (wa 0#5 5#4 tb ta b a 0#5 0x14#5) = _
  rw [of_rawSync _ (wa_op ..)]
  unfold rawSync
  rw [wa_fn, wa_tb, wa_ta, wa_fB, wa_fA]
  rfl

theorem syncAcq (tb ta : Bool) (a d : Reg) : Statement (.syncAcq tb ta a d) := by
  refine of32 _ (wa_one ..) ?_
  show raw32 (wa 0#5 6#4 tb ta 0#5 a d 0x14#5) = _
  rw [of_rawSync _ (wa_op ..)]
  unfold rawSync
  rw [wa_fn, wa_tb, wa_ta, wa_fA, wa_fD]
  rfl

theorem syncClnRange (tb ta : Bool) (b a : Reg) : Statement (.syncClnRange tb ta b a) := by
  refine of32 _ (wa_one ..) ?_
  show raw32 (wa 0#5 7#4 tb ta b a 0#5 0x14#5) = _
  rw [of_rawSync _ (wa_op ..)]
  unfold rawSync
  rw [wa_fn, wa_tb, wa_ta, wa_fB, wa_fA]
  rfl

theorem syncInvRange (tb ta : Bool) (b a : Reg) : Statement (.syncInvRange tb ta b a) := by
  refine of32 _ (wa_one ..) ?_
  show raw32 (wa 0#5 8#4 tb ta b a 0#5 0x14#5) = _
  rw [of_rawSync _ (wa_op ..)]
  unfold rawSync
  rw [wa_fn, wa_tb, wa_ta, wa_fB, wa_fA]
  rfl

theorem syncFlnRange (tb ta : Bool) (b a : Reg) : Statement (.syncFlnRange tb ta b a) := by
  refine of32 _ (wa_one ..) ?_
  show raw32 (wa 0#5 9#4 tb ta b a 0#5 0x14#5) = _
  rw [of_rawSync _ (wa_op ..)]
  unfold rawSync
  rw [wa_fn, wa_tb, wa_ta, wa_fB, wa_fA]
  rfl

theorem syncFeClr (tb ta : Bool) (b a : Reg) : Statement (.syncFeClr tb ta b a) := by
  refine of32 _ (wa_one ..) ?_
  show raw32 (wa 0#5 10#4 tb ta b a 0#5 0x14#5) = _
  rw [of_rawSync _ (wa_op ..)]
  unfold rawSync
  rw [wa_fn, wa_tb, wa_ta, wa_fB, wa_fA]
  rfl

theorem syncFeSet (tb ta : Bool) (b a : Reg) : Statement (.syncFeSet tb ta b a) := by
  refine of32 _ (wa_one ..) ?_
  show raw32 (wa 0#5 11#4 tb ta b a 0#5 0x14#5) = _
  rw [of_rawSync _ (wa_op ..)]
  unfold rawSync
  rw [wa_fn, wa_tb, wa_ta, wa_fB, wa_fA]
  rfl

theorem valuAdd (ty : BitVec 3) (t : Bool) (mk : BitVec 3) (b a d : Reg) : Statement (.valuAdd ty t mk b a d) := by
  refine of32 _ (wv_one ..) ?_
  show raw32 (wv ty 0#4 t mk b a d 0x15#5) = _
  rw [of_rawValu _ (wv_op ..)]
  unfold rawValu
  rw [wv_fn, wv_ty, wv_t, wv_mk, wv_fB, wv_fA, wv_fD]
  rfl

theorem valuSub (ty : BitVec 3) (t : Bool) (mk : BitVec 3) (b a d : Reg) : Statement (.valuSub ty t mk b a d) := by
  refine of32 _ (wv_one ..) ?_
  show raw32 (wv ty 1#4 t mk b a d 0x15#5) = _
  rw [of_rawValu _ (wv_op ..)]
  unfold rawValu
  rw [wv_fn, wv_ty, wv_t, wv_mk, wv_fB, wv_fA, wv_fD]
  rfl

theorem valuMul (ty : BitVec 3) (t : Bool) (mk : BitVec 3) (b a d : Reg) : Statement (.valuMul ty t mk b a d) := by
  refine of32 _ (wv_one ..) ?_
  show raw32 (wv ty 2#4 t mk b a d 0x15#5) = _
  rw [of_rawValu _ (wv_op ..)]
  unfold rawValu
  rw [wv_fn, wv_ty, wv_t, wv_mk, wv_fB, wv_fA, wv_fD]
  rfl

theorem valuMulh (ty : BitVec 3) (t : Bool) (mk : BitVec 3) (b a d : Reg) : Statement (.valuMulh ty t mk b a d) := by
  refine of32 _ (wv_one ..) ?_
  show raw32 (wv ty 3#4 t mk b a d 0x15#5) = _
  rw [of_rawValu _ (wv_op ..)]
  unfold rawValu
  rw [wv_fn, wv_ty, wv_t, wv_mk, wv_fB, wv_fA, wv_fD]
  rfl

theorem valuAnd (ty : BitVec 3) (t : Bool) (mk : BitVec 3) (b a d : Reg) : Statement (.valuAnd ty t mk b a d) := by
  refine of32 _ (wv_one ..) ?_
  show raw32 (wv ty 4#4 t mk b a d 0x15#5) = _
  rw [of_rawValu _ (wv_op ..)]
  unfold rawValu
  rw [wv_fn, wv_ty, wv_t, wv_mk, wv_fB, wv_fA, wv_fD]
  rfl

theorem valuOr (ty : BitVec 3) (t : Bool) (mk : BitVec 3) (b a d : Reg) : Statement (.valuOr ty t mk b a d) := by
  refine of32 _ (wv_one ..) ?_
  show raw32 (wv ty 5#4 t mk b a d 0x15#5) = _
  rw [of_rawValu _ (wv_op ..)]
  unfold rawValu
  rw [wv_fn, wv_ty, wv_t, wv_mk, wv_fB, wv_fA, wv_fD]
  rfl

theorem valuXor (ty : BitVec 3) (t : Bool) (mk : BitVec 3) (b a d : Reg) : Statement (.valuXor ty t mk b a d) := by
  refine of32 _ (wv_one ..) ?_
  show raw32 (wv ty 6#4 t mk b a d 0x15#5) = _
  rw [of_rawValu _ (wv_op ..)]
  unfold rawValu
  rw [wv_fn, wv_ty, wv_t, wv_mk, wv_fB, wv_fA, wv_fD]
  rfl

theorem valuShl (ty : BitVec 3) (t : Bool) (mk : BitVec 3) (b a d : Reg) : Statement (.valuShl ty t mk b a d) := by
  refine of32 _ (wv_one ..) ?_
  show raw32 (wv ty 7#4 t mk b a d 0x15#5) = _
  rw [of_rawValu _ (wv_op ..)]
  unfold rawValu
  rw [wv_fn, wv_ty, wv_t, wv_mk, wv_fB, wv_fA, wv_fD]
  rfl

theorem valuShr (ty : BitVec 3) (t : Bool) (mk : BitVec 3) (b a d : Reg) : Statement (.valuShr ty t mk b a d) := by
  refine of32 _ (wv_one ..) ?_
  show raw32 (wv ty 8#4 t mk b a d 0x15#5) = _
  rw [of_rawValu _ (wv_op ..)]
  unfold rawValu
  rw [wv_fn, wv_ty, wv_t, wv_mk, wv_fB, wv_fA, wv_fD]
  rfl

theorem valuSra (ty : BitVec 3) (t : Bool) (mk : BitVec 3) (b a d : Reg) : Statement (.valuSra ty t mk b a d) := by
  refine of32 _ (wv_one ..) ?_
  show raw32 (wv ty 9#4 t mk b a d 0x15#5) = _
  rw [of_rawValu _ (wv_op ..)]
  unfold rawValu
  rw [wv_fn, wv_ty, wv_t, wv_mk, wv_fB, wv_fA, wv_fD]
  rfl

theorem valuMin (ty : BitVec 3) (t : Bool) (mk : BitVec 3) (b a d : Reg) : Statement (.valuMin ty t mk b a d) := by
  refine of32 _ (wv_one ..) ?_
  show raw32 (wv ty 10#4 t mk b a d 0x15#5) = _
  rw [of_rawValu _ (wv_op ..)]
  unfold rawValu
  rw [wv_fn, wv_ty, wv_t, wv_mk, wv_fB, wv_fA, wv_fD]
  rfl

theorem valuMax (ty : BitVec 3) (t : Bool) (mk : BitVec 3) (b a d : Reg) : Statement (.valuMax ty t mk b a d) := by
  refine of32 _ (wv_one ..) ?_
  show raw32 (wv ty 11#4 t mk b a d 0x15#5) = _
  rw [of_rawValu _ (wv_op ..)]
  unfold rawValu
  rw [wv_fn, wv_ty, wv_t, wv_mk, wv_fB, wv_fA, wv_fD]
  rfl

theorem valuMinu (ty : BitVec 3) (t : Bool) (mk : BitVec 3) (b a d : Reg) : Statement (.valuMinu ty t mk b a d) := by
  refine of32 _ (wv_one ..) ?_
  show raw32 (wv ty 12#4 t mk b a d 0x15#5) = _
  rw [of_rawValu _ (wv_op ..)]
  unfold rawValu
  rw [wv_fn, wv_ty, wv_t, wv_mk, wv_fB, wv_fA, wv_fD]
  rfl

theorem valuMaxu (ty : BitVec 3) (t : Bool) (mk : BitVec 3) (b a d : Reg) : Statement (.valuMaxu ty t mk b a d) := by
  refine of32 _ (wv_one ..) ?_
  show raw32 (wv ty 13#4 t mk b a d 0x15#5) = _
  rw [of_rawValu _ (wv_op ..)]
  unfold rawValu
  rw [wv_fn, wv_ty, wv_t, wv_mk, wv_fB, wv_fA, wv_fD]
  rfl

theorem valuCmp (ty : BitVec 3) (t : Bool) (mk : BitVec 3) (b a : Reg) (cond : BitVec 2) (m : BitVec 3) : Statement (.valuCmp ty t mk b a cond m) := by
  refine of32 _ (wv_one ..) ?_
  show raw32 (wv ty 14#4 t mk b a (cond ++ m) 0x15#5) = _
  rw [of_rawValu _ (wv_op ..)]
  unfold rawValu
  rw [wv_fn, wv_ty, wv_t, wv_mk, wv_fB, wv_fA, wv_d_9_2, part_cond, wv_d_6_3, part_m]
  rfl

theorem valuSel (ty : BitVec 3) (t : Bool) (mk : BitVec 3) (b a d : Reg) : Statement (.valuSel ty t mk b a d) := by
  refine of32 _ (wv_one ..) ?_
  show raw32 (wv ty 15#4 t mk b a d 0x15#5) = _
  rw [of_rawValu _ (wv_op ..)]
  unfold rawValu
  rw [wv_fn, wv_ty, wv_t, wv_mk, wv_fB, wv_fA, wv_fD]
  rfl

theorem vfpAdd (ty : BitVec 3) (t : Bool) (mk : BitVec 3) (b a d : Reg) : Statement (.vfpAdd ty t mk b a d) := by
  refine of32 _ (wv_one ..) ?_
  show raw32 (wv ty 0#4 t mk b a d 0x16#5) = _
  rw [of_rawVfp _ (wv_op ..)]
  unfold rawVfp
  rw [wv_fn, wv_ty, wv_t, wv_mk, wv_fB, wv_fA, wv_fD]
  rfl

theorem vfpSub (ty : BitVec 3) (t : Bool) (mk : BitVec 3) (b a d : Reg) : Statement (.vfpSub ty t mk b a d) := by
  refine of32 _ (wv_one ..) ?_
  show raw32 (wv ty 1#4 t mk b a d 0x16#5) = _
  rw [of_rawVfp _ (wv_op ..)]
  unfold rawVfp
  rw [wv_fn, wv_ty, wv_t, wv_mk, wv_fB, wv_fA, wv_fD]
  rfl

theorem vfpMul (ty : BitVec 3) (t : Bool) (mk : BitVec 3) (b a d : Reg) : Statement (.vfpMul ty t mk b a d) := by
  refine of32 _ (wv_one ..) ?_
  show raw32 (wv ty 2#4 t mk b a d 0x16#5) = _
  rw [of_rawVfp _ (wv_op ..)]
  unfold rawVfp
  rw [wv_fn, wv_ty, wv_t, wv_mk, wv_fB, wv_fA, wv_fD]
  rfl

theorem vfpDiv (ty : BitVec 3) (t : Bool) (mk : BitVec 3) (b a d : Reg) : Statement (.vfpDiv ty t mk b a d) := by
  refine of32 _ (wv_one ..) ?_
  show raw32 (wv ty 3#4 t mk b a d 0x16#5) = _
  rw [of_rawVfp _ (wv_op ..)]
  unfold rawVfp
  rw [wv_fn, wv_ty, wv_t, wv_mk, wv_fB, wv_fA, wv_fD]
  rfl

theorem vfpMin (ty : BitVec 3) (t : Bool) (mk : BitVec 3) (b a d : Reg) : Statement (.vfpMin ty t mk b a d) := by
  refine of32 _ (wv_one ..) ?_
  show raw32 (wv ty 4#4 t mk b a d 0x16#5) = _
  rw [of_rawVfp _ (wv_op ..)]
  unfold rawVfp
  rw [wv_fn, wv_ty, wv_t, wv_mk, wv_fB, wv_fA, wv_fD]
  rfl

theorem vfpMax (ty : BitVec 3) (t : Bool) (mk : BitVec 3) (b a d : Reg) : Statement (.vfpMax ty t mk b a d) := by
  refine of32 _ (wv_one ..) ?_
  show raw32 (wv ty 5#4 t mk b a d 0x16#5) = _
  rw [of_rawVfp _ (wv_op ..)]
  unfold rawVfp
  rw [wv_fn, wv_ty, wv_t, wv_mk, wv_fB, wv_fA, wv_fD]
  rfl

theorem vfpRnd (ty : BitVec 3) (t : Bool) (mk : BitVec 3) (a d : Reg) : Statement (.vfpRnd ty t mk a d) := by
  refine of32 _ (wv_one ..) ?_
  show raw32 (wv ty 6#4 t mk 0#5 a d 0x16#5) = _
  rw [of_rawVfp _ (wv_op ..)]
  unfold rawVfp
  rw [wv_fn, wv_ty, wv_t, wv_mk, wv_fA, wv_fD]
  rfl

theorem vfpExp2f (ty : BitVec 3) (t : Bool) (mk : BitVec 3) (a d : Reg) : Statement (.vfpExp2f ty t mk a d) := by
  refine of32 _ (wv_one ..) ?_
  show raw32 (wv ty 7#4 t mk 0#5 a d 0x16#5) = _
  rw [of_rawVfp _ (wv_op ..)]
  unfold rawVfp
  rw [wv_fn, wv_ty, wv_t, wv_mk, wv_fA, wv_fD]
  rfl

theorem vfpScale (ty : BitVec 3) (t : Bool) (mk : BitVec 3) (b a d : Reg) : Statement (.vfpScale ty t mk b a d) := by
  refine of32 _ (wv_one ..) ?_
  show raw32 (wv ty 8#4 t mk b a d 0x16#5) = _
  rw [of_rawVfp _ (wv_op ..)]
  unfold rawVfp
  rw [wv_fn, wv_ty, wv_t, wv_mk, wv_fB, wv_fA, wv_fD]
  rfl

theorem vfpGetexp (ty : BitVec 3) (t : Bool) (mk : BitVec 3) (a d : Reg) : Statement (.vfpGetexp ty t mk a d) := by
  refine of32 _ (wv_one ..) ?_
  show raw32 (wv ty 9#4 t mk 0#5 a d 0x16#5) = _
  rw [of_rawVfp _ (wv_op ..)]
  unfold rawVfp
  rw [wv_fn, wv_ty, wv_t, wv_mk, wv_fA, wv_fD]
  rfl

theorem vfpRcp (ty : BitVec 3) (t : Bool) (mk : BitVec 3) (a d : Reg) : Statement (.vfpRcp ty t mk a d) := by
  refine of32 _ (wv_one ..) ?_
  show raw32 (wv ty 10#4 t mk 0#5 a d 0x16#5) = _
  rw [of_rawVfp _ (wv_op ..)]
  unfold rawVfp
  rw [wv_fn, wv_ty, wv_t, wv_mk, wv_fA, wv_fD]
  rfl

theorem vfpRsq (ty : BitVec 3) (t : Bool) (mk : BitVec 3) (a d : Reg) : Statement (.vfpRsq ty t mk a d) := by
  refine of32 _ (wv_one ..) ?_
  show raw32 (wv ty 11#4 t mk 0#5 a d 0x16#5) = _
  rw [of_rawVfp _ (wv_op ..)]
  unfold rawVfp
  rw [wv_fn, wv_ty, wv_t, wv_mk, wv_fA, wv_fD]
  rfl

theorem vfpSqrt (ty : BitVec 3) (t : Bool) (mk : BitVec 3) (a d : Reg) : Statement (.vfpSqrt ty t mk a d) := by
  refine of32 _ (wv_one ..) ?_
  show raw32 (wv ty 12#4 t mk 0#5 a d 0x16#5) = _
  rw [of_rawVfp _ (wv_op ..)]
  unfold rawVfp
  rw [wv_fn, wv_ty, wv_t, wv_mk, wv_fA, wv_fD]
  rfl

theorem vfpCvt (ty : BitVec 3) (t : Bool) (mk sty : BitVec 3) (a d : Reg) : Statement (.vfpCvt ty t mk sty a d) := by
  refine of32 _ (wv_one ..) ?_
  show raw32 (wv ty 13#4 t mk (0#2 ++ sty) a d 0x16#5) = _
  rw [of_rawVfp _ (wv_op ..)]
  unfold rawVfp
  rw [wv_fn, wv_ty, wv_t, wv_mk, wv_b_16_3, part_e, wv_fA, wv_fD]
  rfl

theorem vfpCmp (ty : BitVec 3) (t : Bool) (mk : BitVec 3) (b a : Reg) (cond : BitVec 2) (m : BitVec 3) : Statement (.vfpCmp ty t mk b a cond m) := by
  refine of32 _ (wv_one ..) ?_
  show raw32 (wv ty 14#4 t mk b a (cond ++ m) 0x16#5) = _
  rw [of_rawVfp _ (wv_op ..)]
  unfold rawVfp
  rw [wv_fn, wv_ty, wv_t, wv_mk, wv_fB, wv_fA, wv_d_9_2, part_cond, wv_d_6_3, part_m]
  rfl

theorem vfpCls (ty : BitVec 3) (t : Bool) (mk : BitVec 3) (a d : Reg) : Statement (.vfpCls ty t mk a d) := by
  refine of32 _ (wv_one ..) ?_
  show raw32 (wv ty 15#4 t mk 0#5 a d 0x16#5) = _
  rw [of_rawVfp _ (wv_op ..)]
  unfold rawVfp
  rw [wv_fn, wv_ty, wv_t, wv_mk, wv_fA, wv_fD]
  rfl

theorem vfmaFma (ty mk : BitVec 2) (c b a d : Reg) : Statement (.vfmaFma ty mk c b a d) := by
  refine of32 _ (wfm_one ..) ?_
  show raw32 (wfm ty mk 0#2 c b a d 0x17#5) = _
  rw [of_rawVfma _ (wfm_op ..)]
  unfold rawVfma
  rw [wfm_va, wfm_ty, wfm_mk, wfm_fC, wfm_fB, wfm_fA, wfm_fD]
  rfl

theorem vfmaFms (ty mk : BitVec 2) (c b a d : Reg) : Statement (.vfmaFms ty mk c b a d) := by
  refine of32 _ (wfm_one ..) ?_
  show raw32 (wfm ty mk 1#2 c b a d 0x17#5) = _
  rw [of_rawVfma _ (wfm_op ..)]
  unfold rawVfma
  rw [wfm_va, wfm_ty, wfm_mk, wfm_fC, wfm_fB, wfm_fA, wfm_fD]
  rfl

theorem vfmaFnma (ty mk : BitVec 2) (c b a d : Reg) : Statement (.vfmaFnma ty mk c b a d) := by
  refine of32 _ (wfm_one ..) ?_
  show raw32 (wfm ty mk 2#2 c b a d 0x17#5) = _
  rw [of_rawVfma _ (wfm_op ..)]
  unfold rawVfma
  rw [wfm_va, wfm_ty, wfm_mk, wfm_fC, wfm_fB, wfm_fA, wfm_fD]
  rfl

theorem vfmaFnms (ty mk : BitVec 2) (c b a d : Reg) : Statement (.vfmaFnms ty mk c b a d) := by
  refine of32 _ (wfm_one ..) ?_
  show raw32 (wfm ty mk 3#2 c b a d 0x17#5) = _
  rw [of_rawVfma _ (wfm_op ..)]
  unfold rawVfma
  rw [wfm_va, wfm_ty, wfm_mk, wfm_fC, wfm_fB, wfm_fA, wfm_fD]
  rfl

theorem maskAnd (tb ta : Bool) (b a d : Reg) : Statement (.maskAnd tb ta b a d) := by
  refine of32 _ (wa_one ..) ?_
  show raw32 (wa 0#5 0#4 tb ta b a d 0x18#5) = _
  rw [of_rawMask _ (wa_op ..)]
  unfold rawMask
  rw [wa_fn, wa_tb, wa_ta, wa_fB, wa_fA, wa_fD]
  rfl

theorem maskOr (tb ta : Bool) (b a d : Reg) : Statement (.maskOr tb ta b a d) := by
  refine of32 _ (wa_one ..) ?_
  show raw32 (wa 0#5 1#4 tb ta b a d 0x18#5) = _
  rw [of_rawMask _ (wa_op ..)]
  unfold rawMask
  rw [wa_fn, wa_tb, wa_ta, wa_fB, wa_fA, wa_fD]
  rfl

theorem maskXor (tb ta : Bool) (b a d : Reg) : Statement (.maskXor tb ta b a d) := by
  refine of32 _ (wa_one ..) ?_
  show raw32 (wa 0#5 2#4 tb ta b a d 0x18#5) = _
  rw [of_rawMask _ (wa_op ..)]
  unfold rawMask
  rw [wa_fn, wa_tb, wa_ta, wa_fB, wa_fA, wa_fD]
  rfl

theorem maskAndn (tb ta : Bool) (b a d : Reg) : Statement (.maskAndn tb ta b a d) := by
  refine of32 _ (wa_one ..) ?_
  show raw32 (wa 0#5 3#4 tb ta b a d 0x18#5) = _
  rw [of_rawMask _ (wa_op ..)]
  unfold rawMask
  rw [wa_fn, wa_tb, wa_ta, wa_fB, wa_fA, wa_fD]
  rfl

theorem maskNot (tb ta : Bool) (a d : Reg) : Statement (.maskNot tb ta a d) := by
  refine of32 _ (wa_one ..) ?_
  show raw32 (wa 0#5 4#4 tb ta 0#5 a d 0x18#5) = _
  rw [of_rawMask _ (wa_op ..)]
  unfold rawMask
  rw [wa_fn, wa_tb, wa_ta, wa_fA, wa_fD]
  rfl

theorem maskPop (tb ta : Bool) (a d : Reg) : Statement (.maskPop tb ta a d) := by
  refine of32 _ (wa_one ..) ?_
  show raw32 (wa 0#5 5#4 tb ta 0#5 a d 0x18#5) = _
  rw [of_rawMask _ (wa_op ..)]
  unfold rawMask
  rw [wa_fn, wa_tb, wa_ta, wa_fA, wa_fD]
  rfl

theorem maskFirst (tb ta : Bool) (a d : Reg) : Statement (.maskFirst tb ta a d) := by
  refine of32 _ (wa_one ..) ?_
  show raw32 (wa 0#5 6#4 tb ta 0#5 a d 0x18#5) = _
  rw [of_rawMask _ (wa_op ..)]
  unfold rawMask
  rw [wa_fn, wa_tb, wa_ta, wa_fA, wa_fD]
  rfl

theorem maskFromx (tb ta : Bool) (a d : Reg) : Statement (.maskFromx tb ta a d) := by
  refine of32 _ (wa_one ..) ?_
  show raw32 (wa 0#5 7#4 tb ta 0#5 a d 0x18#5) = _
  rw [of_rawMask _ (wa_op ..)]
  unfold rawMask
  rw [wa_fn, wa_tb, wa_ta, wa_fA, wa_fD]
  rfl

theorem maskTox (tb ta : Bool) (a d : Reg) : Statement (.maskTox tb ta a d) := by
  refine of32 _ (wa_one ..) ?_
  show raw32 (wa 0#5 8#4 tb ta 0#5 a d 0x18#5) = _
  rw [of_rawMask _ (wa_op ..)]
  unfold rawMask
  rw [wa_fn, wa_tb, wa_ta, wa_fA, wa_fD]
  rfl

theorem maskAll (tb ta : Bool) (d : Reg) : Statement (.maskAll tb ta d) := by
  refine of32 _ (wa_one ..) ?_
  show raw32 (wa 0#5 9#4 tb ta 0#5 0#5 d 0x18#5) = _
  rw [of_rawMask _ (wa_op ..)]
  unfold rawMask
  rw [wa_fn, wa_tb, wa_ta, wa_fD]
  rfl

theorem maskLanes (tb ta : Bool) (a d : Reg) : Statement (.maskLanes tb ta a d) := by
  refine of32 _ (wa_one ..) ?_
  show raw32 (wa 0#5 10#4 tb ta 0#5 a d 0x18#5) = _
  rw [of_rawMask _ (wa_op ..)]
  unfold rawMask
  rw [wa_fn, wa_tb, wa_ta, wa_fA, wa_fD]
  rfl

theorem fpuAdd (fmt tb ta : Bool) (b a d : Reg) : Statement (.fpuAdd fmt tb ta b a d) := by
  refine of32 _ (wa_one ..) ?_
  show raw32 (wa (0#4 ++ bit fmt) 0#4 tb ta b a d 0x19#5) = _
  rw [of_rawFpu _ (wa_op ..)]
  unfold rawFpu
  rw [wa_fn, wa_q_27_0, (part_fmt fmt).1, wa_tb, wa_ta, wa_fB, wa_fA, wa_fD]
  rfl

theorem fpuSub (fmt tb ta : Bool) (b a d : Reg) : Statement (.fpuSub fmt tb ta b a d) := by
  refine of32 _ (wa_one ..) ?_
  show raw32 (wa (0#4 ++ bit fmt) 1#4 tb ta b a d 0x19#5) = _
  rw [of_rawFpu _ (wa_op ..)]
  unfold rawFpu
  rw [wa_fn, wa_q_27_0, (part_fmt fmt).1, wa_tb, wa_ta, wa_fB, wa_fA, wa_fD]
  rfl

theorem fpuMul (fmt tb ta : Bool) (b a d : Reg) : Statement (.fpuMul fmt tb ta b a d) := by
  refine of32 _ (wa_one ..) ?_
  show raw32 (wa (0#4 ++ bit fmt) 2#4 tb ta b a d 0x19#5) = _
  rw [of_rawFpu _ (wa_op ..)]
  unfold rawFpu
  rw [wa_fn, wa_q_27_0, (part_fmt fmt).1, wa_tb, wa_ta, wa_fB, wa_fA, wa_fD]
  rfl

theorem fpuDiv (fmt tb ta : Bool) (b a d : Reg) : Statement (.fpuDiv fmt tb ta b a d) := by
  refine of32 _ (wa_one ..) ?_
  show raw32 (wa (0#4 ++ bit fmt) 3#4 tb ta b a d 0x19#5) = _
  rw [of_rawFpu _ (wa_op ..)]
  unfold rawFpu
  rw [wa_fn, wa_q_27_0, (part_fmt fmt).1, wa_tb, wa_ta, wa_fB, wa_fA, wa_fD]
  rfl

theorem fpuSqrt (fmt tb ta : Bool) (a d : Reg) : Statement (.fpuSqrt fmt tb ta a d) := by
  refine of32 _ (wa_one ..) ?_
  show raw32 (wa (0#4 ++ bit fmt) 4#4 tb ta 0#5 a d 0x19#5) = _
  rw [of_rawFpu _ (wa_op ..)]
  unfold rawFpu
  rw [wa_fn, wa_q_27_0, (part_fmt fmt).1, wa_tb, wa_ta, wa_fA, wa_fD]
  rfl

theorem fpuMin (fmt tb ta : Bool) (b a d : Reg) : Statement (.fpuMin fmt tb ta b a d) := by
  refine of32 _ (wa_one ..) ?_
  show raw32 (wa (0#4 ++ bit fmt) 5#4 tb ta b a d 0x19#5) = _
  rw [of_rawFpu _ (wa_op ..)]
  unfold rawFpu
  rw [wa_fn, wa_q_27_0, (part_fmt fmt).1, wa_tb, wa_ta, wa_fB, wa_fA, wa_fD]
  rfl

theorem fpuMax (fmt tb ta : Bool) (b a d : Reg) : Statement (.fpuMax fmt tb ta b a d) := by
  refine of32 _ (wa_one ..) ?_
  show raw32 (wa (0#4 ++ bit fmt) 6#4 tb ta b a d 0x19#5) = _
  rw [of_rawFpu _ (wa_op ..)]
  unfold rawFpu
  rw [wa_fn, wa_q_27_0, (part_fmt fmt).1, wa_tb, wa_ta, wa_fB, wa_fA, wa_fD]
  rfl

theorem fpuFma (fmt tb ta : Bool) (b a d : Reg) : Statement (.fpuFma fmt tb ta b a d) := by
  refine of32 _ (wa_one ..) ?_
  show raw32 (wa (0#4 ++ bit fmt) 7#4 tb ta b a d 0x19#5) = _
  rw [of_rawFpu _ (wa_op ..)]
  unfold rawFpu
  rw [wa_fn, wa_q_27_0, (part_fmt fmt).1, wa_tb, wa_ta, wa_fB, wa_fA, wa_fD]
  rfl

theorem fpuRnd (fmt tb ta : Bool) (a d : Reg) : Statement (.fpuRnd fmt tb ta a d) := by
  refine of32 _ (wa_one ..) ?_
  show raw32 (wa (0#4 ++ bit fmt) 8#4 tb ta 0#5 a d 0x19#5) = _
  rw [of_rawFpu _ (wa_op ..)]
  unfold rawFpu
  rw [wa_fn, wa_q_27_0, (part_fmt fmt).1, wa_tb, wa_ta, wa_fA, wa_fD]
  rfl

theorem fpuCvt (conv : BitVec 3) (fmt tb ta : Bool) (a d : Reg) : Statement (.fpuCvt conv fmt tb ta a d) := by
  refine of32 _ (wa_one ..) ?_
  show raw32 (wa (0#1 ++ conv ++ bit fmt) 9#4 tb ta 0#5 a d 0x19#5) = _
  rw [of_rawFpu _ (wa_op ..)]
  unfold rawFpu
  rw [wa_fn, wa_q_28_3, part_conv, wa_q_27_0, part_convb, wa_tb, wa_ta, wa_fA, wa_fD]
  rfl

theorem fpuEq (fmt tb ta : Bool) (b a d : Reg) : Statement (.fpuEq fmt tb ta b a d) := by
  refine of32 _ (wa_one ..) ?_
  show raw32 (wa (0#4 ++ bit fmt) 10#4 tb ta b a d 0x19#5) = _
  rw [of_rawFpu _ (wa_op ..)]
  unfold rawFpu
  rw [wa_fn, wa_q_27_0, (part_fmt fmt).1, wa_tb, wa_ta, wa_fB, wa_fA, wa_fD]
  rfl

theorem fpuLt (fmt tb ta : Bool) (b a d : Reg) : Statement (.fpuLt fmt tb ta b a d) := by
  refine of32 _ (wa_one ..) ?_
  show raw32 (wa (0#4 ++ bit fmt) 11#4 tb ta b a d 0x19#5) = _
  rw [of_rawFpu _ (wa_op ..)]
  unfold rawFpu
  rw [wa_fn, wa_q_27_0, (part_fmt fmt).1, wa_tb, wa_ta, wa_fB, wa_fA, wa_fD]
  rfl

theorem fpuLe (fmt tb ta : Bool) (b a d : Reg) : Statement (.fpuLe fmt tb ta b a d) := by
  refine of32 _ (wa_one ..) ?_
  show raw32 (wa (0#4 ++ bit fmt) 12#4 tb ta b a d 0x19#5) = _
  rw [of_rawFpu _ (wa_op ..)]
  unfold rawFpu
  rw [wa_fn, wa_q_27_0, (part_fmt fmt).1, wa_tb, wa_ta, wa_fB, wa_fA, wa_fD]
  rfl

theorem fpuCls (fmt tb ta : Bool) (a d : Reg) : Statement (.fpuCls fmt tb ta a d) := by
  refine of32 _ (wa_one ..) ?_
  show raw32 (wa (0#4 ++ bit fmt) 13#4 tb ta 0#5 a d 0x19#5) = _
  rw [of_rawFpu _ (wa_op ..)]
  unfold rawFpu
  rw [wa_fn, wa_q_27_0, (part_fmt fmt).1, wa_tb, wa_ta, wa_fA, wa_fD]
  rfl

theorem fpuSgnj (fmt tb ta : Bool) (b a d : Reg) : Statement (.fpuSgnj fmt tb ta b a d) := by
  refine of32 _ (wa_one ..) ?_
  show raw32 (wa (0#4 ++ bit fmt) 14#4 tb ta b a d 0x19#5) = _
  rw [of_rawFpu _ (wa_op ..)]
  unfold rawFpu
  rw [wa_fn, wa_q_27_0, (part_fmt fmt).1, wa_tb, wa_ta, wa_fB, wa_fA, wa_fD]
  rfl

theorem fpuAbs (fmt tb ta : Bool) (a d : Reg) : Statement (.fpuAbs fmt tb ta a d) := by
  refine of32 _ (wa_one ..) ?_
  show raw32 (wa (0#4 ++ bit fmt) 15#4 tb ta 0#5 a d 0x19#5) = _
  rw [of_rawFpu _ (wa_op ..)]
  unfold rawFpu
  rw [wa_fn, wa_q_27_0, (part_fmt fmt).1, wa_tb, wa_ta, wa_fA, wa_fD]
  rfl

theorem rowYield (tb ta : Bool) : Statement (.rowYield tb ta) := by
  refine of32 _ (wa_one ..) ?_
  show raw32 (wa 0#5 0#4 tb ta 0#5 0#5 0#5 0x1A#5) = _
  rw [of_rawRow _ (wa_op ..)]
  unfold rawRow
  rw [wa_q_31_1, wa_fn, wa_tb, wa_ta]
  rfl

theorem rowWait (tb ta : Bool) (a : Reg) : Statement (.rowWait tb ta a) := by
  refine of32 _ (wa_one ..) ?_
  show raw32 (wa 0#5 1#4 tb ta 0#5 a 0#5 0x1A#5) = _
  rw [of_rawRow _ (wa_op ..)]
  unfold rawRow
  rw [wa_q_31_1, wa_fn, wa_tb, wa_ta, wa_fA]
  rfl

theorem rowStop (tb ta : Bool) : Statement (.rowStop tb ta) := by
  refine of32 _ (wa_one ..) ?_
  show raw32 (wa 0#5 2#4 tb ta 0#5 0#5 0#5 0x1A#5) = _
  rw [of_rawRow _ (wa_op ..)]
  unfold rawRow
  rw [wa_q_31_1, wa_fn, wa_tb, wa_ta]
  rfl

theorem rowRowid (tb ta : Bool) (d : Reg) : Statement (.rowRowid tb ta d) := by
  refine of32 _ (wa_one ..) ?_
  show raw32 (wa 0#5 3#4 tb ta 0#5 0#5 d 0x1A#5) = _
  rw [of_rawRow _ (wa_op ..)]
  unfold rawRow
  rw [wa_q_31_1, wa_fn, wa_tb, wa_ta, wa_fD]
  rfl

theorem rowSend (tb ta : Bool) (a d : Reg) : Statement (.rowSend tb ta a d) := by
  refine of32 _ (wa_one ..) ?_
  show raw32 (wa 0#5 4#4 tb ta 0#5 a d 0x1A#5) = _
  rw [of_rawRow _ (wa_op ..)]
  unfold rawRow
  rw [wa_q_31_1, wa_fn, wa_tb, wa_ta, wa_fA, wa_fD]
  rfl

theorem rowSpawn (tb ta : Bool) (b a d : Reg) : Statement (.rowSpawn tb ta b a d) := by
  refine of32 _ (wa_one ..) ?_
  show raw32 (wa 0#5 5#4 tb ta b a d 0x1A#5) = _
  rw [of_rawRow _ (wa_op ..)]
  unfold rawRow
  rw [wa_q_31_1, wa_fn, wa_tb, wa_ta, wa_fB, wa_fA, wa_fD]
  rfl

theorem rowDone (tb ta : Bool) : Statement (.rowDone tb ta) := by
  refine of32 _ (wa_one ..) ?_
  show raw32 (wa 0#5 6#4 tb ta 0#5 0#5 0#5 0x1A#5) = _
  rw [of_rawRow _ (wa_op ..)]
  unfold rawRow
  rw [wa_q_31_1, wa_fn, wa_tb, wa_ta]
  rfl

theorem rowBudget (tb ta : Bool) (a d : Reg) : Statement (.rowBudget tb ta a d) := by
  refine of32 _ (wa_one ..) ?_
  show raw32 (wa 0#5 7#4 tb ta 0#5 a d 0x1A#5) = _
  rw [of_rawRow _ (wa_op ..)]
  unfold rawRow
  rw [wa_q_31_1, wa_fn, wa_tb, wa_ta, wa_fA, wa_fD]
  rfl

theorem rowBarInit (tb ta : Bool) (b a : Reg) : Statement (.rowBarInit tb ta b a) := by
  refine of32 _ (wa_one ..) ?_
  show raw32 (wa 16#5 0#4 tb ta b a 0#5 0x1A#5) = _
  rw [of_rawRow _ (wa_op ..)]
  unfold rawRow
  rw [wa_q_31_1, wa_fn, wa_tb, wa_ta, wa_fB, wa_fA]
  rfl

theorem rowBarArrive (tb ta : Bool) (a d : Reg) : Statement (.rowBarArrive tb ta a d) := by
  refine of32 _ (wa_one ..) ?_
  show raw32 (wa 16#5 1#4 tb ta 0#5 a d 0x1A#5) = _
  rw [of_rawRow _ (wa_op ..)]
  unfold rawRow
  rw [wa_q_31_1, wa_fn, wa_tb, wa_ta, wa_fA, wa_fD]
  rfl

theorem rowBarWait (tb ta : Bool) (b a : Reg) : Statement (.rowBarWait tb ta b a) := by
  refine of32 _ (wa_one ..) ?_
  show raw32 (wa 16#5 2#4 tb ta b a 0#5 0x1A#5) = _
  rw [of_rawRow _ (wa_op ..)]
  unfold rawRow
  rw [wa_q_31_1, wa_fn, wa_tb, wa_ta, wa_fB, wa_fA]
  rfl

theorem rowBarSync (tb ta : Bool) (a d : Reg) : Statement (.rowBarSync tb ta a d) := by
  refine of32 _ (wa_one ..) ?_
  show raw32 (wa 16#5 3#4 tb ta 0#5 a d 0x1A#5) = _
  rw [of_rawRow _ (wa_op ..)]
  unfold rawRow
  rw [wa_q_31_1, wa_fn, wa_tb, wa_ta, wa_fA, wa_fD]
  rfl

theorem rowDqPush (tb ta : Bool) (b a d : Reg) : Statement (.rowDqPush tb ta b a d) := by
  refine of32 _ (wa_one ..) ?_
  show raw32 (wa 16#5 4#4 tb ta b a d 0x1A#5) = _
  rw [of_rawRow _ (wa_op ..)]
  unfold rawRow
  rw [wa_q_31_1, wa_fn, wa_tb, wa_ta, wa_fB, wa_fA, wa_fD]
  rfl

theorem rowDqPop (tb ta : Bool) (dp : BitVec 4) : Statement (.rowDqPop tb ta dp) := by
  refine of32 _ (wa_one ..) ?_
  show raw32 (wa 16#5 5#4 tb ta 0#5 0#5 (dp ++ 0#1) 0x1A#5) = _
  rw [of_rawRow _ (wa_op ..)]
  unfold rawRow
  rw [wa_q_31_1, wa_fn, wa_tb, wa_ta, wa_d_7_4, part_dp]
  rfl

theorem rowDqSplit (tb ta : Bool) (b a d : Reg) : Statement (.rowDqSplit tb ta b a d) := by
  refine of32 _ (wa_one ..) ?_
  show raw32 (wa 16#5 6#4 tb ta b a d 0x1A#5) = _
  rw [of_rawRow _ (wa_op ..)]
  unfold rawRow
  rw [wa_q_31_1, wa_fn, wa_tb, wa_ta, wa_fB, wa_fA, wa_fD]
  rfl

theorem rowDqSteal (tb ta : Bool) (dp : BitVec 4) : Statement (.rowDqSteal tb ta dp) := by
  refine of32 _ (wa_one ..) ?_
  show raw32 (wa 16#5 7#4 tb ta 0#5 0#5 (dp ++ 0#1) 0x1A#5) = _
  rw [of_rawRow _ (wa_op ..)]
  unfold rawRow
  rw [wa_q_31_1, wa_fn, wa_tb, wa_ta, wa_d_7_4, part_dp]
  rfl

theorem rowDqLen (tb ta : Bool) (d : Reg) : Statement (.rowDqLen tb ta d) := by
  refine of32 _ (wa_one ..) ?_
  show raw32 (wa 16#5 8#4 tb ta 0#5 0#5 d 0x1A#5) = _
  rw [of_rawRow _ (wa_op ..)]
  unfold rawRow
  rw [wa_q_31_1, wa_fn, wa_tb, wa_ta, wa_fD]
  rfl

theorem engineCpLin (tb ta : Bool) (b a d : Reg) : Statement (.engineCpLin tb ta b a d) := by
  refine of32 _ (wa_one ..) ?_
  show raw32 (wa 0#5 0#4 tb ta b a d 0x1B#5) = _
  rw [of_rawEngine _ (wa_op ..)]
  unfold rawEngine
  rw [wa_fn, wa_tb, wa_ta, wa_fB, wa_fA, wa_fD]
  rfl

theorem engineCpDist (e : BitVec 3) (tb ta : Bool) (b a d : Reg) : Statement (.engineCpDist e tb ta b a d) := by
  refine of32 _ (wa_one ..) ?_
  show raw32 (wa (0#2 ++ e) 1#4 tb ta b a d 0x1B#5) = _
  rw [of_rawEngine _ (wa_op ..)]
  unfold rawEngine
  rw [wa_fn, wa_q_27_3, part_e, wa_tb, wa_ta, wa_fB, wa_fA, wa_fD]
  rfl

theorem engineCpStat (tb ta : Bool) (d : Reg) : Statement (.engineCpStat tb ta d) := by
  refine of32 _ (wa_one ..) ?_
  show raw32 (wa 0#5 2#4 tb ta 0#5 0#5 d 0x1B#5) = _
  rw [of_rawEngine _ (wa_op ..)]
  unfold rawEngine
  rw [wa_fn, wa_tb, wa_ta, wa_fD]
  rfl

theorem engineMxGang (tb ta : Bool) (a d : Reg) : Statement (.engineMxGang tb ta a d) := by
  refine of32 _ (wa_one ..) ?_
  show raw32 (wa 0#5 3#4 tb ta 0#5 a d 0x1B#5) = _
  rw [of_rawEngine _ (wa_op ..)]
  unfold rawEngine
  rw [wa_fn, wa_tb, wa_ta, wa_fA, wa_fD]
  rfl

theorem engineMxStat (tb ta : Bool) (d : Reg) : Statement (.engineMxStat tb ta d) := by
  refine of32 _ (wa_one ..) ?_
  show raw32 (wa 0#5 4#4 tb ta 0#5 0#5 d 0x1B#5) = _
  rw [of_rawEngine _ (wa_op ..)]
  unfold rawEngine
  rw [wa_fn, wa_tb, wa_ta, wa_fD]
  rfl

theorem engineMxAbort (tb ta : Bool) (d : Reg) : Statement (.engineMxAbort tb ta d) := by
  refine of32 _ (wa_one ..) ?_
  show raw32 (wa 0#5 5#4 tb ta 0#5 0#5 d 0x1B#5) = _
  rw [of_rawEngine _ (wa_op ..)]
  unfold rawEngine
  rw [wa_fn, wa_tb, wa_ta, wa_fD]
  rfl

theorem engineEdgeRun (ta : Bool) (a d : Reg) : Statement (.engineEdgeRun ta a d) := by
  refine of32 _ (wa_one ..) ?_
  show raw32 (wa 0#5 6#4 false ta 0#5 a d 0x1B#5) = _
  rw [of_rawEngine _ (wa_op ..)]
  unfold rawEngine
  rw [wa_fn, wa_ta, wa_fA, wa_fD]
  rfl

theorem engineEdgeRet (ta : Bool) : Statement (.engineEdgeRet ta) := by
  refine of32 _ (wa_one ..) ?_
  show raw32 (wa 0#5 7#4 false ta 0#5 0#5 0#5 0x1B#5) = _
  rw [of_rawEngine _ (wa_op ..)]
  unfold rawEngine
  rw [wa_fn, wa_ta]
  rfl

theorem engineEdgeStat (ta : Bool) (dp : BitVec 4) : Statement (.engineEdgeStat ta dp) := by
  refine of32 _ (wa_one ..) ?_
  show raw32 (wa 0#5 8#4 false ta 0#5 0#5 (dp ++ 0#1) 0x1B#5) = _
  rw [of_rawEngine _ (wa_op ..)]
  unfold rawEngine
  rw [wa_fn, wa_ta, wa_d_7_4, part_dp]
  rfl

theorem sysNop : Statement (.sysNop) := by
  refine of32 _ (ws_one ..) ?_
  show raw32 (ws 0#4 0#12 0#5 0#5 0x1C#5) = _
  rw [of_rawSys _ (ws_op ..)]
  unfold rawSys
  rw [ws_fn]
  rfl

theorem sysTrap (code : BitVec 12) : Statement (.sysTrap code) := by
  refine of32 _ (ws_one ..) ?_
  show raw32 (ws 0#4 code 1#5 0#5 0x1C#5) = _
  rw [of_rawSys _ (ws_op ..)]
  unfold rawSys
  rw [ws_fn, ws_f]
  rfl

theorem sysBkpt (code : BitVec 12) : Statement (.sysBkpt code) := by
  refine of32 _ (ws_one ..) ?_
  show raw32 (ws 0#4 code 2#5 0#5 0x1C#5) = _
  rw [of_rawSys _ (ws_op ..)]
  unfold rawSys
  rw [ws_fn, ws_f]
  rfl

theorem sysUret : Statement (.sysUret) := by
  refine of32 _ (ws_one ..) ?_
  show raw32 (ws 0#4 0#12 3#5 0#5 0x1C#5) = _
  rw [of_rawSys _ (ws_op ..)]
  unfold rawSys
  rw [ws_fn]
  rfl

theorem sysHalt : Statement (.sysHalt) := by
  refine of32 _ (ws_one ..) ?_
  show raw32 (ws 0#4 0#12 4#5 0#5 0x1C#5) = _
  rw [of_rawSys _ (ws_op ..)]
  unfold rawSys
  rw [ws_fn]
  rfl

theorem sysSysr (num : BitVec 12) (d : Reg) : Statement (.sysSysr num d) := by
  refine of32 _ (ws_one ..) ?_
  show raw32 (ws 0#4 num 5#5 d 0x1C#5) = _
  rw [of_rawSys _ (ws_op ..)]
  unfold rawSys
  rw [ws_fn, ws_f, ws_fD]
  rfl

theorem sysSysw (num : BitVec 12) (d : Reg) : Statement (.sysSysw num d) := by
  refine of32 _ (ws_one ..) ?_
  show raw32 (ws 0#4 num 6#5 d 0x1C#5) = _
  rw [of_rawSys _ (ws_op ..)]
  unfold rawSys
  rw [ws_fn, ws_f, ws_fD]
  rfl

theorem sysShoot (dp : BitVec 4) : Statement (.sysShoot dp) := by
  refine of32 _ (ws_one ..) ?_
  show raw32 (ws 0#4 0#12 7#5 (dp ++ 0#1) 0x1C#5) = _
  rw [of_rawSys _ (ws_op ..)]
  unfold rawSys
  rw [ws_fn, ws_d_7_4, part_dp]
  rfl

theorem sysGang (d : Reg) : Statement (.sysGang d) := by
  refine of32 _ (ws_one ..) ?_
  show raw32 (ws 0#4 0#12 8#5 d 0x1C#5) = _
  rw [of_rawSys _ (ws_op ..)]
  unfold rawSys
  rw [ws_fn, ws_fD]
  rfl

theorem sysSwap (d : Reg) : Statement (.sysSwap d) := by
  refine of32 _ (ws_one ..) ?_
  show raw32 (ws 0#4 0#12 9#5 d 0x1C#5) = _
  rw [of_rawSys _ (ws_op ..)]
  unfold rawSys
  rw [ws_fn, ws_fD]
  rfl

theorem vxfBcast (ty : BitVec 3) (t : Bool) (mk : BitVec 3) (a d : Reg) : Statement (.vxfBcast ty t mk a d) := by
  refine of32 _ (wv_one ..) ?_
  show raw32 (wv ty 0#4 t mk 0#5 a d 0x1D#5) = _
  rw [of_rawVxf _ (wv_op ..)]
  unfold rawVxf
  rw [wv_fn, wv_ty, wv_t, wv_mk, wv_fA, wv_fD]
  rfl

theorem vxfExt (ty : BitVec 3) (t : Bool) (b a d : Reg) : Statement (.vxfExt ty t b a d) := by
  refine of32 _ (wv_one ..) ?_
  show raw32 (wv ty 1#4 t 0#3 b a d 0x1D#5) = _
  rw [of_rawVxf _ (wv_op ..)]
  unfold rawVxf
  rw [wv_fn, wv_ty, wv_t, wv_fB, wv_fA, wv_fD]
  rfl

theorem vxfIns (ty : BitVec 3) (t : Bool) (b a d : Reg) : Statement (.vxfIns ty t b a d) := by
  refine of32 _ (wv_one ..) ?_
  show raw32 (wv ty 2#4 t 0#3 b a d 0x1D#5) = _
  rw [of_rawVxf _ (wv_op ..)]
  unfold rawVxf
  rw [wv_fn, wv_ty, wv_t, wv_fB, wv_fA, wv_fD]
  rfl

theorem vxfPerm (ty : BitVec 3) (t : Bool) (mk : BitVec 3) (b a d : Reg) : Statement (.vxfPerm ty t mk b a d) := by
  refine of32 _ (wv_one ..) ?_
  show raw32 (wv ty 3#4 t mk b a d 0x1D#5) = _
  rw [of_rawVxf _ (wv_op ..)]
  unfold rawVxf
  rw [wv_fn, wv_ty, wv_t, wv_mk, wv_fB, wv_fA, wv_fD]
  rfl

theorem vxfRedAdd (ty : BitVec 3) (t : Bool) (mk : BitVec 3) (a d : Reg) : Statement (.vxfRedAdd ty t mk a d) := by
  refine of32 _ (wv_one ..) ?_
  show raw32 (wv ty 4#4 t mk 0#5 a d 0x1D#5) = _
  rw [of_rawVxf _ (wv_op ..)]
  unfold rawVxf
  rw [wv_fn, wv_ty, wv_t, wv_mk, wv_fA, wv_fD]
  rfl

theorem vxfRedMin (ty : BitVec 3) (t : Bool) (mk : BitVec 3) (a d : Reg) : Statement (.vxfRedMin ty t mk a d) := by
  refine of32 _ (wv_one ..) ?_
  show raw32 (wv ty 5#4 t mk 0#5 a d 0x1D#5) = _
  rw [of_rawVxf _ (wv_op ..)]
  unfold rawVxf
  rw [wv_fn, wv_ty, wv_t, wv_mk, wv_fA, wv_fD]
  rfl

theorem vxfRedMax (ty : BitVec 3) (t : Bool) (mk : BitVec 3) (a d : Reg) : Statement (.vxfRedMax ty t mk a d) := by
  refine of32 _ (wv_one ..) ?_
  show raw32 (wv ty 6#4 t mk 0#5 a d 0x1D#5) = _
  rw [of_rawVxf _ (wv_op ..)]
  unfold rawVxf
  rw [wv_fn, wv_ty, wv_t, wv_mk, wv_fA, wv_fD]
  rfl

theorem vxfIota (ty : BitVec 3) (t : Bool) (mk : BitVec 3) (d : Reg) : Statement (.vxfIota ty t mk d) := by
  refine of32 _ (wv_one ..) ?_
  show raw32 (wv ty 7#4 t mk 0#5 0#5 d 0x1D#5) = _
  rw [of_rawVxf _ (wv_op ..)]
  unfold rawVxf
  rw [wv_fn, wv_ty, wv_t, wv_mk, wv_fD]
  rfl

theorem vxfAbs (ty : BitVec 3) (t : Bool) (mk : BitVec 3) (a d : Reg) : Statement (.vxfAbs ty t mk a d) := by
  refine of32 _ (wv_one ..) ?_
  show raw32 (wv ty 8#4 t mk 0#5 a d 0x1D#5) = _
  rw [of_rawVxf _ (wv_op ..)]
  unfold rawVxf
  rw [wv_fn, wv_ty, wv_t, wv_mk, wv_fA, wv_fD]
  rfl

theorem vxfNeg (ty : BitVec 3) (t : Bool) (mk : BitVec 3) (a d : Reg) : Statement (.vxfNeg ty t mk a d) := by
  refine of32 _ (wv_one ..) ?_
  show raw32 (wv ty 9#4 t mk 0#5 a d 0x1D#5) = _
  rw [of_rawVxf _ (wv_op ..)]
  unfold rawVxf
  rw [wv_fn, wv_ty, wv_t, wv_mk, wv_fA, wv_fD]
  rfl

theorem vxfSgnj (ty : BitVec 3) (t : Bool) (mk : BitVec 3) (b a d : Reg) : Statement (.vxfSgnj ty t mk b a d) := by
  refine of32 _ (wv_one ..) ?_
  show raw32 (wv ty 10#4 t mk b a d 0x1D#5) = _
  rw [of_rawVxf _ (wv_op ..)]
  unfold rawVxf
  rw [wv_fn, wv_ty, wv_t, wv_mk, wv_fB, wv_fA, wv_fD]
  rfl

theorem vxfShfdn (ty : BitVec 3) (t : Bool) (mk : BitVec 3) (b a d : Reg) : Statement (.vxfShfdn ty t mk b a d) := by
  refine of32 _ (wv_one ..) ?_
  show raw32 (wv ty 11#4 t mk b a d 0x1D#5) = _
  rw [of_rawVxf _ (wv_op ..)]
  unfold rawVxf
  rw [wv_fn, wv_ty, wv_t, wv_mk, wv_fB, wv_fA, wv_fD]
  rfl

theorem hMov (a d : Reg) : Statement (.hMov a d) := by
  refine of16 _ false a d 1#4 rfl ?_
  unfold raw16
  rw [(h16_key ..).1, (h16_key ..).2, h16_a, h16_d]
  rfl

theorem hAdd (a d : Reg) : Statement (.hAdd a d) := by
  refine of16 _ false a d 2#4 rfl ?_
  unfold raw16
  rw [(h16_key ..).1, (h16_key ..).2, h16_a, h16_d]
  rfl

theorem hAddi5 (imm : BitVec 5) (d : Reg) : Statement (.hAddi5 imm d) := by
  refine of16 _ false imm d 3#4 rfl ?_
  unfold raw16
  rw [(h16_key ..).1, (h16_key ..).2, h16_a, h16_d]
  rfl

theorem hSub (a d : Reg) : Statement (.hSub a d) := by
  refine of16 _ false a d 4#4 rfl ?_
  unfold raw16
  rw [(h16_key ..).1, (h16_key ..).2, h16_a, h16_d]
  rfl

theorem hAnd (a d : Reg) : Statement (.hAnd a d) := by
  refine of16 _ false a d 5#4 rfl ?_
  unfold raw16
  rw [(h16_key ..).1, (h16_key ..).2, h16_a, h16_d]
  rfl

theorem hOr (a d : Reg) : Statement (.hOr a d) := by
  refine of16 _ false a d 6#4 rfl ?_
  unfold raw16
  rw [(h16_key ..).1, (h16_key ..).2, h16_a, h16_d]
  rfl

theorem hXor (a d : Reg) : Statement (.hXor a d) := by
  refine of16 _ true a d 6#4 rfl ?_
  unfold raw16
  rw [(h16_key ..).1, (h16_key ..).2, h16_a, h16_d]
  rfl

theorem hShli (imm : BitVec 5) (d : Reg) : Statement (.hShli imm d) := by
  refine of16 _ false imm d 7#4 rfl ?_
  unfold raw16
  rw [(h16_key ..).1, (h16_key ..).2, h16_a, h16_d]
  rfl

theorem hShri (imm : BitVec 5) (d : Reg) : Statement (.hShri imm d) := by
  refine of16 _ true imm d 7#4 rfl ?_
  unfold raw16
  rw [(h16_key ..).1, (h16_key ..).2, h16_a, h16_d]
  rfl

theorem hLd64 (a d : Reg) : Statement (.hLd64 a d) := by
  refine of16 _ false a d 8#4 rfl ?_
  unfold raw16
  rw [(h16_key ..).1, (h16_key ..).2, h16_a, h16_d]
  rfl

theorem hLd32 (a d : Reg) : Statement (.hLd32 a d) := by
  refine of16 _ true a d 8#4 rfl ?_
  unfold raw16
  rw [(h16_key ..).1, (h16_key ..).2, h16_a, h16_d]
  rfl

theorem hSt64 (a d : Reg) : Statement (.hSt64 a d) := by
  refine of16 _ false a d 9#4 rfl ?_
  unfold raw16
  rw [(h16_key ..).1, (h16_key ..).2, h16_a, h16_d]
  rfl

theorem hSt32 (a d : Reg) : Statement (.hSt32 a d) := by
  refine of16 _ true a d 9#4 rfl ?_
  unfold raw16
  rw [(h16_key ..).1, (h16_key ..).2, h16_a, h16_d]
  rfl

theorem hBeqz (imm : BitVec 5) (d : Reg) : Statement (.hBeqz imm d) := by
  refine of16 _ false imm d 10#4 rfl ?_
  unfold raw16
  rw [(h16_key ..).1, (h16_key ..).2, h16_a, h16_d]
  rfl

theorem hBnez (imm : BitVec 5) (d : Reg) : Statement (.hBnez imm d) := by
  refine of16 _ true imm d 10#4 rfl ?_
  unfold raw16
  rw [(h16_key ..).1, (h16_key ..).2, h16_a, h16_d]
  rfl

theorem hLt (a d : Reg) : Statement (.hLt a d) := by
  refine of16 _ false a d 11#4 rfl ?_
  unfold raw16
  rw [(h16_key ..).1, (h16_key ..).2, h16_a, h16_d]
  rfl

theorem hLdi5 (imm : BitVec 5) (d : Reg) : Statement (.hLdi5 imm d) := by
  refine of16 _ false imm d 12#4 rfl ?_
  unfold raw16
  rw [(h16_key ..).1, (h16_key ..).2, h16_a, h16_d]
  rfl

theorem hVfaddF32 (ign14 : Bool) (a : BitVec 4) (ign9 : Bool) (d : BitVec 4) : Statement (.hVfaddF32 ign14 a ign9 d) := by
  refine of16 _ false (bit ign14 ++ a) (bit ign9 ++ d) 13#4 rfl ?_
  unfold raw16
  rw [(h16_key ..).1, (h16_key ..).2, (h16_v ..).1, (h16_v ..).2.1, (h16_v ..).2.2.1, (h16_v ..).2.2.2]
  rfl

theorem hVfmulF32 (ign14 : Bool) (a : BitVec 4) (ign9 : Bool) (d : BitVec 4) : Statement (.hVfmulF32 ign14 a ign9 d) := by
  refine of16 _ true (bit ign14 ++ a) (bit ign9 ++ d) 13#4 rfl ?_
  unfold raw16
  rw [(h16_key ..).1, (h16_key ..).2, (h16_v ..).1, (h16_v ..).2.1, (h16_v ..).2.2.1, (h16_v ..).2.2.2]
  rfl

theorem hNop : Statement (.hNop) := by
  refine of16 _ false 0#5 0#5 14#4 rfl ?_
  unfold raw16
  rw [(h16_key ..).1, (h16_key ..).2, h16_d]
  rfl

theorem hYield : Statement (.hYield) := by
  refine of16 _ false 0#5 1#5 14#4 rfl ?_
  unfold raw16
  rw [(h16_key ..).1, (h16_key ..).2, h16_d]
  rfl

theorem hRet : Statement (.hRet) := by
  refine of16 _ false 0#5 2#5 14#4 rfl ?_
  unfold raw16
  rw [(h16_key ..).1, (h16_key ..).2, h16_d]
  rfl

theorem illegalInstruction (w : BitVec 32) : Statement (.illegalInstruction w) := of0 _ rfl

theorem startStage (res : StageResult) : Statement (.startStage res) := of0 _ rfl

theorem storePerform (core : Nat) : Statement (.storePerform core) := of0 _ rfl

theorem fill (id : Nat) (k : FillStep) : Statement (.fill id k) := of0 _ rfl

theorem atomicPerform (id : Nat) : Statement (.atomicPerform id) := of0 _ rfl

theorem dispatch (core : Nat) : Statement (.dispatch core) := of0 _ rfl

theorem selection (core bank : Nat) : Statement (.selection core bank) := of0 _ rfl

theorem openingComplete (core bank : Nat) : Statement (.openingComplete core bank) := of0 _ rfl

theorem closingComplete (core bank : Nat) : Statement (.closingComplete core bank) := of0 _ rfl

theorem upcallDelivery (core : Nat) : Statement (.upcallDelivery core) := of0 _ rfl

theorem ctlNone (r : RowId) (v : Word) (priv : Bool) : Statement (.ctlNone r v priv) := of0 _ rfl

theorem kindle (r : RowId) : Statement (.kindle r) := of0 _ rfl

theorem stop (r : RowId) : Statement (.stop r) := of0 _ rfl

theorem redirect (r : RowId) : Statement (.redirect r) := of0 _ rfl

theorem stepOne (r : RowId) : Statement (.stepOne r) := of0 _ rfl

theorem resume (r : RowId) : Statement (.resume r) := of0 _ rfl

theorem skip (r : RowId) : Statement (.skip r) := of0 _ rfl

theorem outsideAccess (who : Agent) (pa : Nat) (op : OutOp) : Statement (.outsideAccess who pa op) := of0 _ rfl

theorem remoteFePerform (id : Nat) : Statement (.remoteFePerform id) := of0 _ rfl

theorem dateBroadcast (slice date : Nat) : Statement (.dateBroadcast slice date) := of0 _ rfl

theorem acquirePassOwn (id slice : Nat) : Statement (.acquirePassOwn id slice) := of0 _ rfl

theorem acquirePassOther (id slice : Nat) : Statement (.acquirePassOther id slice) := of0 _ rfl

theorem frostSweep (slice : Nat) : Statement (.frostSweep slice) := of0 _ rfl

theorem inboxEntry (i : Nat) : Statement (.inboxEntry i) := of0 _ rfl

theorem stokerBind (die i : Nat) : Statement (.stokerBind die i) := of0 _ rfl

theorem runQueueEntry (die i : Nat) : Statement (.runQueueEntry die i) := of0 _ rfl

theorem hostQueueWrite (die : Nat) : Statement (.hostQueueWrite die) := of0 _ rfl

theorem quantumExpiry (core bank : Nat) : Statement (.quantumExpiry core bank) := of0 _ rfl

theorem budget (core bank n : Nat) : Statement (.budget core bank n) := of0 _ rfl

theorem flueRequest (i : Nat) (hop : Option Nat) : Statement (.flueRequest i hop) := of0 _ rfl

theorem flueRecord (die i : Nat) : Statement (.flueRecord die i) := of0 _ rfl

theorem flueres (v : Word) : Statement (.flueres v) := of0 _ rfl

theorem flueResolution (i core : Nat) : Statement (.flueResolution i core) := of0 _ rfl

theorem halt (core : Nat) : Statement (.halt core) := of0 _ rfl

theorem haltReport (part : Nat) : Statement (.haltReport part) := of0 _ rfl

theorem gangRelease (part : Nat) : Statement (.gangRelease part) := of0 _ rfl

theorem swapExchange (part : Nat) : Statement (.swapExchange part) := of0 _ rfl

theorem arrivalLog (part : Nat) : Statement (.arrivalLog part) := of0 _ rfl

theorem logReplay (part : Nat) : Statement (.logReplay part) := of0 _ rfl

theorem copyPiece (cluster i part : Nat) : Statement (.copyPiece cluster i part) := of0 _ rfl

theorem distributorBlock (die i part : Nat) : Statement (.distributorBlock die i part) := of0 _ rfl

theorem gangBarrier (cl : Nat) : Statement (.gangBarrier cl) := of0 _ rfl

theorem prefetch (cl : Nat) : Statement (.prefetch cl) := of0 _ rfl

theorem permitGrant (cl : Nat) : Statement (.permitGrant cl) := of0 _ rfl

theorem loadB (core : Nat) : Statement (.loadB core) := of0 _ rfl

theorem mac (core : Nat) : Statement (.mac core) := of0 _ rfl

theorem rotate (cl : Nat) : Statement (.rotate cl) := of0 _ rfl

theorem drain (core : Nat) : Statement (.drain core) := of0 _ rfl

theorem group (core : Nat) : Statement (.group core) := of0 _ rfl

theorem endStep (core : Nat) : Statement (.endStep core) := of0 _ rfl

theorem ringWatchdog (cl n : Nat) : Statement (.ringWatchdog cl n) := of0 _ rfl

theorem edgeRunStart (core : Nat) : Statement (.edgeRunStart core) := of0 _ rfl

theorem chunkTake (core : Nat) : Statement (.chunkTake core) := of0 _ rfl

theorem batch (core n : Nat) : Statement (.batch core n) := of0 _ rfl

theorem batchApply (core : Nat) : Statement (.batchApply core) := of0 _ rfl

theorem levelEnd (core : Nat) : Statement (.levelEnd core) := of0 _ rfl

theorem midLevelSwitch (core : Nat) : Statement (.midLevelSwitch core) := of0 _ rfl

theorem barrierArrival (i : Nat) : Statement (.barrierArrival i) := of0 _ rfl

theorem syClk (cl : Nat) (v : Word) (priv : Bool) : Statement (.syClk cl v priv) := of0 _ rfl

theorem clockTransition (cl : Nat) : Statement (.clockTransition cl) := of0 _ rfl

theorem syCbudget (cl : Nat) (v : Word) (priv : Bool) : Statement (.syCbudget cl v priv) := of0 _ rfl

theorem refill (cl : Nat) : Statement (.refill cl) := of0 _ rfl

theorem damperWindow (w : DamperReading) : Statement (.damperWindow w) := of0 _ rfl

theorem sySlope (v : Word) (priv : Bool) : Statement (.sySlope v priv) := of0 _ rfl

theorem capMessage (v : Word) (priv : Bool) : Statement (.capMessage v priv) := of0 _ rfl

theorem leaseExpiry : Statement (.leaseExpiry) := of0 _ rfl

theorem thawSend (v : Word) (priv : Bool) : Statement (.thawSend v priv) := of0 _ rfl

theorem thawMessage (img : List Byte) : Statement (.thawMessage img) := of0 _ rfl

theorem thawHoldEnd : Statement (.thawHoldEnd) := of0 _ rfl

theorem tail (q : Nat) (v : Word) : Statement (.tail q v) := of0 _ rfl

theorem notifyWordStore (q : Nat) (v : Word) : Statement (.notifyWordStore q v) := of0 _ rfl

theorem inboxControlWrite (q off : Nat) (v : Word) : Statement (.inboxControlWrite q off v) := of0 _ rfl

theorem admission (q : Nat) (late : Bool) : Statement (.admission q late) := of0 _ rfl

theorem hostWrite (link : Nat) (bar : HostBar) (off : Nat) (bytes : List Byte) : Statement (.hostWrite link bar off bytes) := of0 _ rfl

theorem hostRead (link : Nat) (bar : HostBar) (off n : Nat) : Statement (.hostRead link bar off n) := of0 _ rfl

theorem cxlSnoop (die pa : Nat) (inval : Bool) : Statement (.cxlSnoop die pa inval) := of0 _ rfl

theorem directoryMerge (die i : Nat) : Statement (.directoryMerge die i) := of0 _ rfl

theorem peerAccess (port pa : Nat) (op : PeerOp) : Statement (.peerAccess port pa op) := of0 _ rfl

theorem routeFailure (peer : Nat) : Statement (.routeFailure peer) := of0 _ rfl

theorem partFailure (k : PartKind) (n : Nat) : Statement (.partFailure k n) := of0 _ rfl

theorem dieFailure (die : Nat) : Statement (.dieFailure die) := of0 _ rfl

theorem powerOn : Statement (.powerOn) := of0 _ rfl

theorem perst : Statement (.perst) := of0 _ rfl

theorem syReset (v : Word) (priv : Bool) : Statement (.syReset v priv) := of0 _ rfl

theorem stageTimeLimit : Statement (.stageTimeLimit) := of0 _ rfl

theorem scrub (die : Nat) (k : Nat) (hit : ScrubHit) : Statement (.scrub die k hit) := of0 _ rfl

theorem sySerr (k : Nat) (v : Word) (priv : Bool) : Statement (.sySerr k v priv) := of0 _ rfl

theorem dequeClear (core : Nat) : Statement (.dequeClear core) := of0 _ rfl

theorem bstateWrite (core b : Nat) (v : Word) : Statement (.bstateWrite core b v) := of0 _ rfl

theorem syClbind (cl : Nat) (v : Word) (priv : Bool) : Statement (.syClbind cl v priv) := of0 _ rfl

theorem sysregWrite (num : Nat) (v : Word) (priv : Bool) (core : Nat) : Statement (.sysregWrite num v priv core) := of0 _ rfl

theorem softError (site : ErrSite) (corrected : Bool) : Statement (.softError site corrected) := of0 _ rfl

theorem temperatureSensor (cl : Nat) (hot : Bool) : Statement (.temperatureSensor cl hot) := of0 _ rfl

theorem backInvalidateCompletion (die i : Nat) : Statement (.backInvalidateCompletion die i) := of0 _ rfl

theorem performanceAtTarget (i : Nat) : Statement (.performanceAtTarget i) := of0 _ rfl

end RoundTrip

end Sys2Proof.Laws
end

