-- ==== Sys2Proof/Laws/Traps.lean ====
section
/-!
SUPPORT. Leaving the READY rows, blocking, and taking an exception: one lemma for everything each does (R52, R133,
R338-R343).
-/

namespace Sys2Proof.Machine

theorem getBank_modBank (s : State) (core b c k : Nat) (f : Bank → Bank) :
    getBank (modBank s core b f) c k = if c = core ∧ k = b then f (getBank s core b) else getBank s c k := by
  unfold getBank modBank
  rw [getCore_modCore]
  by_cases hc : c = core
  · subst hc
    rw [if_pos rfl]
    simp only [smGet_smSet, true_and]
  · rw [if_neg hc, if_neg (fun h => hc h.1)]

theorem modBank_rest (s : State) (core b : Nat) (f : Bank → Bank) :
    modBank s core b f = { s with cores := (modBank s core b f).cores } := rfl

theorem getCore_modBank (s : State) (core b c : Nat) (f : Bank → Bank) :
    getCore (modBank s core b f) c = { getCore s c with banks := (getCore (modBank s core b f) c).banks } := by
  unfold modBank
  rw [getCore_modCore]
  split
  · subst_vars; rfl
  · rfl

theorem leave_rest (s : State) (r : RowId) : leave s r = { s with cores := (leave s r).cores } := by
  unfold leave closeRow
  split <;> rfl

theorem getRow_leave (s : State) (r q : RowId) : getRow (leave s r) q = getRow s q :=
  (congrArg (fun x => getRow x q) (leave_rest s r)).trans rfl

theorem getCore_leave (s : State) (r : RowId) (c : Nat) :
    getCore (leave s r) c = { getCore s c with banks := (getCore (leave s r) c).banks } := by
  unfold leave closeRow
  have h := getCore_modBank s r.core (r.row % 4) c fun b => { b with ready := smErase b.ready r.row }
  split
  · exact h
  · rw [getCore_modBank, leaveReady, h]

theorem slot_setSlot (b : Bank) (k : Nat) (v : Slot) : (b.setSlot k v).slot k = v := by
  unfold Bank.setSlot Bank.slot; split <;> rfl

theorem slot_setSlot_other (b : Bank) (k j : Nat) (v : Slot) (h : (k = 0) ≠ (j = 0)) : (b.setSlot k v).slot j = b.slot j := by
  unfold Bank.setSlot Bank.slot; split <;> split <;> simp_all

theorem ready_setSlot (b : Bank) (k : Nat) (v : Slot) : (b.setSlot k v).ready = b.ready := by
  unfold Bank.setSlot; split <;> rfl

/-- A row that leaves is not in the READY set. -/
theorem leave_ready (s : State) (r : RowId) : smGet none (getBank (leave s r) r.core (r.row % 4)).ready r.row = none := by
  unfold leave closeRow leaveReady
  split
  · rw [getBank_modBank, if_pos ⟨rfl, rfl⟩]; simp
  · rw [getBank_modBank, if_pos ⟨rfl, rfl⟩, getBank_modBank, if_pos ⟨rfl, rfl⟩]
    dsimp only
    split
    · split <;> simp [ready_setSlot]
    · simp [ready_setSlot]
    · simp [ready_setSlot]
    · simp

/-- A row that leaves from the running position has its slot closing. -/
theorem leave_closing (s : State) (r : RowId) (k : Nat) (hk : k < 2) (h : slotOf s r = some k)
    (hr : ((getBank s r.core (r.row % 4)).slot k).st = .running) :
    ((getBank (leave s r) r.core (r.row % 4)).slot k).st = .closing := by
  have hs : slotOf (leaveReady s r) r = some k := by
    rw [← h]
    have e : getBank (leaveReady s r) r.core (r.row % 4) =
        { getBank s r.core (r.row % 4) with ready := smErase (getBank s r.core (r.row % 4)).ready r.row } := by
      unfold leaveReady; rw [getBank_modBank, if_pos (And.intro rfl rfl)]
    unfold slotOf
    rw [e]
  unfold leave closeRow
  rw [hs]
  dsimp only
  rw [getBank_modBank, if_pos ⟨rfl, rfl⟩]
  have hb : (getBank (leaveReady s r) r.core (r.row % 4)).slot k = (getBank s r.core (r.row % 4)).slot k := by
    unfold leaveReady; rw [getBank_modBank, if_pos ⟨rfl, rfl⟩]; rfl
  rw [hb, hr]
  dsimp only
  rcases (show k = 0 ∨ k = 1 by omega) with rfl | rfl
  · split <;> simp [Bank.setSlot, Bank.slot]
  · split <;> simp [Bank.setSlot, Bank.slot]

/-! ## Taking an exception -/

/-- What delivering a record to the supervisor queue does (R340, R342). -/
theorem sendSupervisor_eq (s : State) (core : Nat) (rec : List Word) : sendSupervisor s core rec =
    if s.pkg.supq.getLsbD 15 then
      modCore { s with held := s.held ++ [⟨dieOf core, ⟨wNat (2 ^ 32 * (getCore s core).recSeq +
        2 ^ 16 * Wbits s.pkg.supq 14 6 + 2 ^ 8 * Wbits s.pkg.supq 5 0 + 2) :: 0 :: rec ++ [0, 0], 0,
        some (Wbits s.pkg.supq 14 6), none, 0, true, false, none⟩⟩] } core fun c => { c with recSeq := (c.recSeq + 1) % 2 ^ 32 }
    else s := by
  unfold sendSupervisor
  by_cases h : s.pkg.supq.getLsbD 15
  · have h1 : qEn s.pkg.supq = true := h
    rw [if_pos h]
    simp only [h1, if_true]
    have e : header (getCore s core).recSeq (qCore s.pkg.supq) (qChan s.pkg.supq) 0 2 =
        wNat (2 ^ 32 * (getCore s core).recSeq + 2 ^ 16 * Wbits s.pkg.supq 14 6 + 2 ^ 8 * Wbits s.pkg.supq 5 0 + 2) := by
      have h1 : Wbits s.pkg.supq 14 6 < 2 ^ 9 := by unfold Wbits bitsOf; exact Nat.mod_lt _ (by decide)
      have h2 : Wbits s.pkg.supq 5 0 < 2 ^ 6 := by unfold Wbits bitsOf; exact Nat.mod_lt _ (by decide)
      unfold header qCore qChan
      rw [Nat.mod_eq_of_lt h1, Nat.mod_eq_of_lt h2]
      apply BitVec.eq_of_toNat_eq
      simp only [wNat, BitVec.toNat_ofNat]
      omega
    rw [e]; rfl
  · have h1 : qEn s.pkg.supq = false := by simpa [qEn] using h
    rw [if_neg h]
    simp [h1]

/-- The first part of an exception: the control block written and the row closed. -/
def raiseRow (s : State) (r : RowId) (t : Trap) (k : Nat) : State :=
  leave (modRow s r fun w =>
    { w with st := .faulted, why := 4, waitw := 0, fva := t.fva, fcause := t.word, rstep := k, stepping := false,
             due := w.due && t.cause != cBUDGET, await := none, stalled := false }) r

theorem getRow_raiseRow (s : State) (r q : RowId) (t : Trap) (k : Nat) : getRow (raiseRow s r t k) q =
    if rkey q = rkey r then
      { getRow s r with
        st := .faulted, why := 4, waitw := 0, fva := t.fva, fcause := t.word, rstep := k, stepping := false,
        due := (getRow s r).due && t.cause != cBUDGET, await := none, stalled := false }
    else getRow s q := by
  unfold raiseRow; rw [getRow_leave, getRow_modRow]

theorem deliver_rows (s : State) (r : RowId) (c : Nat) : (deliver s r c).rows = s.rows := by
  unfold deliver
  by_cases h : toSupervisor s r c = true
  · rw [if_pos h, sendSupervisor_eq]
    by_cases h2 : s.pkg.supq.getLsbD 15 = true
    · rw [if_pos h2, modCore_rows]
    · rw [if_neg h2]
  · rw [if_neg h]; unfold queueFault; rw [modCore_rows]

/-- A check that fails takes its fault. -/
@[simp] theorem raise_taken {t : Trap} (h : t.waits = false) (s : State) (r : RowId) (k : Nat) :
    raise s r t k = fault s r t k := by
  unfold raise; rw [if_neg (by simp [h])]

/-- A check that waits changes no row: the back-invalidation it waits for begins. -/
@[simp] theorem raise_waits {t : Trap} (h : t.waits = true) (s : State) (r : RowId) (k : Nat) :
    raise s r t k = walkWaits s t := by
  unfold raise; rw [if_pos h]

/-- An exception of a row with no command pending is its row part, the request up the Flue, and the delivery. -/
theorem fault_eq {s : State} {r : RowId} (hp : (getRow s r).pend = []) (t : Trap) (k : Nat) : fault s r t k =
    if t.cause = cMEMERR ∧ t.sub = 1 then
      (if t.flue then sendFlue (raiseRow s r t k) r t else raiseRow s r t k)
    else deliver (if t.flue then sendFlue (raiseRow s r t k) r t else raiseRow s r t k) r t.cause := by
  have h0 : (getRow (raiseRow s r t k) r).pend = [] := by rw [getRow_raiseRow, if_pos rfl]; exact hp
  have h1 : (getRow (if t.flue then sendFlue (raiseRow s r t k) r t else raiseRow s r t k) r).pend = [] := by
    split <;> exact h0
  refine actPend_nil _ _ ?_
  change (getRow (if t.cause = cMEMERR ∧ t.sub = 1 then
      (if t.flue then sendFlue (raiseRow s r t k) r t else raiseRow s r t k)
    else deliver (if t.flue then sendFlue (raiseRow s r t k) r t else raiseRow s r t k) r t.cause) r).pend = []
  split
  · exact h1
  · unfold getRow at h1 ⊢; rw [deliver_rows]; exact h1

/-- What an exception leaves alone. -/
theorem fault_rest {s : State} {r : RowId} (hp : (getRow s r).pend = []) (t : Trap) (k : Nat) : fault s r t k =
    { s with rows := (fault s r t k).rows, cores := (fault s r t k).cores, held := (fault s r t k).held,
             flueReqs := (fault s r t k).flueReqs } := by
  have h1 : raiseRow s r t k = { s with rows := (raiseRow s r t k).rows, cores := (raiseRow s r t k).cores } := by
    unfold raiseRow; rw [leave_rest]; rfl
  have h2 : ∀ u : State, sendFlue u r t = { u with flueReqs := (sendFlue u r t).flueReqs } := fun _ => rfl
  have h3 : ∀ u : State, ∀ c, deliver u r c = { u with cores := (deliver u r c).cores, held := (deliver u r c).held } := by
    intro u c
    unfold deliver
    split
    · rw [sendSupervisor_eq]; split <;> rfl
    · rfl
  rw [fault_eq hp]
  split
  · split
    · rw [h2, h1]
    · rw [h1]
  · split
    · rw [h3, h2, h1]
    · rw [h3, h1]

theorem fault_rows {s : State} {r : RowId} (hp : (getRow s r).pend = []) (t : Trap) (k : Nat) : (fault s r t k).rows = (raiseRow s r t k).rows := by
  rw [fault_eq hp]
  split
  · by_cases h : t.flue = true
    · rw [if_pos h]; rfl
    · rw [if_neg h]
  · rw [deliver_rows]
    by_cases h : t.flue = true
    · rw [if_pos h]; rfl
    · rw [if_neg h]

/-- Every control block after an exception. -/
theorem getRow_fault {s : State} {r : RowId} (hp : (getRow s r).pend = []) (q : RowId) (t : Trap) (k : Nat) :
    getRow (fault s r t k) q = getRow (raiseRow s r t k) q := by
  unfold getRow; rw [fault_rows hp]

/-- The cores after a delivery: banks as before. -/
theorem getCore_deliver (s : State) (r : RowId) (c n : Nat) : getCore (deliver s r c) n =
    { getCore s n with faultq := (getCore (deliver s r c) n).faultq, recSeq := (getCore (deliver s r c) n).recSeq } := by
  unfold deliver
  by_cases h : toSupervisor s r c = true
  · rw [if_pos h, sendSupervisor_eq]
    by_cases h2 : s.pkg.supq.getLsbD 15 = true
    · rw [if_pos h2]
      generalize hu : ({ s with held := _ } : State) = u
      have hg : getCore u n = getCore s n := by rw [← hu]; rfl
      rw [getCore_modCore, ← hg]
      by_cases hn : n = r.core
      · rw [if_pos hn, hn]
      · rw [if_neg hn]
    · rw [if_neg h2]
  · rw [if_neg h]; unfold queueFault
    rw [getCore_modCore]
    by_cases hn : n = r.core
    · subst hn
      rw [if_pos rfl]
      by_cases h3 : r.row ∈ (getCore s r.core).faultq
      · simp only [h3, List.contains_iff_mem, if_true]
      · simp only [h3, List.contains_iff_mem, if_false]
    · rw [if_neg hn]

theorem getCore_fault {s : State} {r : RowId} (hp : (getRow s r).pend = []) (t : Trap) (k n : Nat) : getCore (fault s r t k) n =
    { getCore (raiseRow s r t k) n with faultq := (getCore (fault s r t k) n).faultq,
                                        recSeq := (getCore (fault s r t k) n).recSeq } := by
  rw [fault_eq hp]
  generalize raiseRow s r t k = u
  have hc : ∀ u : State, getCore (sendFlue u r t) n = getCore u n := fun _ => rfl
  by_cases h : t.flue = true
  · rw [if_pos h]
    split
    · rw [hc]
    · rw [getCore_deliver, hc]
  · rw [if_neg h]
    split
    · rfl
    · rw [getCore_deliver]

end Sys2Proof.Machine
end

