-- ==== Sys2Proof/Tests/Slice0.lean ====
section
/-!
SUPPORT. Tests. Words written from the encoding tables of the spec (R149-R157) decode to what they stand for; an ill-formed term for
each check; the worked example of the spec; states and operands that meet the hypotheses of the statements. Expected values are
the spec's or worked out by hand from its rules.
-/

namespace Sys2Proof.Tests

set_option Elab.async false

open Sys2Proof.Machine Sys2Proof.Claims

/-! ## Words (R149-R157) -/

/-- Format WA: Q, FN, TB, TA, B, A, D, OP. -/
def wa (q fn tb ta b a d op : Nat) : Nat :=
  2 ^ 27 * q + 2 ^ 23 * fn + 2 ^ 22 * tb + 2 ^ 21 * ta + 2 ^ 16 * b + 2 ^ 11 * a + 2 ^ 6 * d + 2 * op + 1
/-- Format WI: I15, TA, A, D, OP. -/
def wi (imm ta a d op : Nat) : Nat := 2 ^ 17 * imm + 2 ^ 16 * ta + 2 ^ 11 * a + 2 ^ 6 * d + 2 * op + 1
/-- Format WL: I21, D, OP. -/
def wl (imm d op : Nat) : Nat := 2 ^ 11 * imm + 2 ^ 6 * d + 2 * op + 1
/-- Format WC: I12, TA, C, B, A, OP. -/
def wc (imm ta c b a op : Nat) : Nat := 2 ^ 20 * imm + 2 ^ 19 * ta + 2 ^ 16 * c + 2 ^ 11 * b + 2 ^ 6 * a + 2 * op + 1
/-- Format WV: TY, FN, T, MK, B, A, D, OP. -/
def wv (ty fn t mk b a d op : Nat) : Nat :=
  2 ^ 29 * ty + 2 ^ 25 * fn + 2 ^ 24 * t + 2 ^ 21 * mk + 2 ^ 16 * b + 2 ^ 11 * a + 2 ^ 6 * d + 2 * op + 1
/-- Format WF: TY2, MK, variant, C, B, A, D, OP. -/
def wf (ty mk v c b a d op : Nat) : Nat :=
  2 ^ 30 * ty + 2 ^ 28 * mk + 2 ^ 26 * v + 2 ^ 21 * c + 2 ^ 16 * b + 2 ^ 11 * a + 2 ^ 6 * d + 2 * op + 1
/-- Format WM: O10, MO, SZ, TA, A, D, OP. -/
def wm (off mo sz ta a d op : Nat) : Nat :=
  2 ^ 22 * off + 2 ^ 20 * mo + 2 ^ 17 * sz + 2 ^ 16 * ta + 2 ^ 11 * a + 2 ^ 6 * d + 2 * op + 1
/-- Format WS: F12, A, D, OP. -/
def ws (f a d op : Nat) : Nat := 2 ^ 16 * f + 2 ^ 11 * a + 2 ^ 6 * d + 2 * op + 1
/-- The 16-bit format: K, A, D, OP16. -/
def wh (k a d op : Nat) : Nat := 2 ^ 15 * k + 2 ^ 10 * a + 2 ^ 5 * d + 2 * op

/-- The words of a row of R155, by function number, decode to the instructions of the row. -/
def row32 (w : Nat → Nat) (is : List Instr) : Bool :=
  is.zipIdx.all fun (i, k) => decodeTableWord 32 (w k) == some i && i.wf && encode i == leBytes 4 (w k)

theorem test_decode_alu0 : row32 (fun k => wa 1 k 0 1 4 3 5 0x01)
    [.aluAdd true false true 4 3 5, .aluSub true false true 4 3 5, .aluMul true false true 4 3 5, .aluMulh true false true 4 3 5,
      .aluMulhu true false true 4 3 5, .aluDiv true false true 4 3 5, .aluDivu true false true 4 3 5, .aluRem true false true 4 3 5,
      .aluRemu true false true 4 3 5, .aluAnd true false true 4 3 5, .aluOr true false true 4 3 5, .aluXor true false true 4 3 5,
      .aluAndn true false true 4 3 5, .aluShl true false true 4 3 5, .aluShr true false true 4 3 5,
      .aluSra true false true 4 3 5] = true := by decide +kernel

theorem test_decode_alu1 : row32 (fun k => wa 0x10 k 1 0 (if 5 ≤ k ∧ k ≤ 7 then 0 else 9) 31 30 0x01)
    [.aluMin false true false 9 31 30, .aluMax false true false 9 31 30, .aluMinu false true false 9 31 30,
      .aluMaxu false true false 9 31 30, .aluRot false true false 9 31 30, .aluClz false true false 31 30,
      .aluCtz false true false 31 30, .aluPopc false true false 31 30, .aluEq false true false 9 31 30,
      .aluNe false true false 9 31 30, .aluLt false true false 9 31 30, .aluLtu false true false 9 31 30,
      .aluLe false true false 9 31 30, .aluLeu false true false 9 31 30, .aluSel false true false 9 31 30,
      .aluExt false true false 9 31 30] = true := by decide +kernel

theorem test_decode_immediates :
    row32 (fun k => wi 0x4001 1 6 7 (k + 2)) [.alui 0x4001 true 6 7, .andi 0x4001 true 6 7, .ori 0x4001 true 6 7,
      .xori 0x4001 true 6 7] ∧
    row32 (fun k => wi (0x100 + 4 * 63 + k) 0 6 7 0x06) [.shiShl true 63 false 6 7, .shiShr true 63 false 6 7,
      .shiSra true 63 false 6 7, .shiRot true 63 false 6 7] ∧
    row32 (fun k => wi (8 * 0x801 + k) 0 6 7 0x07) [.cmpiEq 0x801 false 6 7, .cmpiNe 0x801 false 6 7, .cmpiLt 0x801 false 6 7,
      .cmpiLtu 0x801 false 6 7, .cmpiLe 0x801 false 6 7, .cmpiLeu 0x801 false 6 7, .cmpiGt 0x801 false 6 7,
      .cmpiGtu 0x801 false 6 7] := by decide +kernel

theorem test_decode_constants_and_branches :
    row32 (fun k => wl 0x100002 7 (k + 8)) [.ldi 0x100002 7, .ldx 0x100002 7] ∧
    row32 (fun k => wl (if k = 3 then 17 else 0x1FFFFF) (8 * k + 5) 0x0A)
      [.extC0 0x1FFFFF 5, .extC1 0x1FFFFF 5, .extC2 0x1FFFFF 5, .extX 17 5] ∧
    row32 (fun _ => wl 0x100002 1 0x0B) [.br 0x100002 1] ∧
    row32 (fun k => wc 0xFFE 1 k 7 6 0x0C) [.bcEq 0xFFE true 7 6, .bcNe 0xFFE true 7 6, .bcLt 0xFFE true 7 6,
      .bcLtu 0xFFE true 7 6, .bcGe 0xFFE true 7 6, .bcGeu 0xFFE true 7 6] ∧
    row32 (fun k => wi (2 * 0x2001 + k) 0 1 2 0x0D) [.jmp 0x2001 false 1 2, .jmpRet 0x2001 false 1 2] := by decide +kernel

theorem test_decode_loads_and_stores :
    row32 (fun k => wm 0x3FF 3 k 1 8 4 0x0E) [.ld 0x3FF 3 0 true 8 4, .ld 0x3FF 3 1 true 8 4, .ld 0x3FF 3 2 true 8 4,
      .ld 0x3FF 3 3 true 8 4, .ld 0x3FF 3 4 true 8 4, .ld 0x3FF 3 5 true 8 4, .ld 0x3FF 3 6 true 8 4,
      .ld 0x3FF 3 7 true 8 4] ∧
    row32 (fun k => wm 1 2 k 0 8 4 0x0F) [.st 1 2 0 false 8 4, .st 1 2 1 false 8 4, .st 1 2 2 false 8 4, .st 1 2 3 false 8 4,
      .st 1 2 4 false 8 4] ∧
    row32 (fun k => wm 1 1 k 0 8 15 0x10) [.vld 1 1 0 false 8 15, .vld 1 1 1 false 8 15, .vld 1 1 2 false 8 15] ∧
    row32 (fun k => wm 1 1 k 0 8 15 0x11) [.vst 1 1 0 false 8 15, .vst 1 1 1 false 8 15, .vst 1 1 2 false 8 15] := by
  decide +kernel

theorem test_decode_vmem :
    row32 (fun k => wv 6 k 1 7 15 30 14 0x12) [.vmemGather 6 true 7 15 30 14, .vmemScatter 6 true 7 15 30 14,
      .vmemLds 6 true 7 15 30 14, .vmemSts 6 true 7 15 30 14] ∧
    row32 (fun k => wv (if k = 1 then 3 else 2) (k + 8) 0 0 1 30 2 0x12) [.vmemScatredAdd 2 false 0 1 30 2,
      .vmemScatredFadd 3 false 0 1 30 2, .vmemScatredMin 2 false 0 1 30 2, .vmemScatredMax 2 false 0 1 30 2,
      .vmemScatredMinu 2 false 0 1 30 2, .vmemScatredMaxu 2 false 0 1 30 2, .vmemScatredOr 2 false 0 1 30 2] := by
  decide +kernel

theorem test_decode_amo : row32 (fun k => if k = 10 then wa 5 k 0 1 0 3 5 0x13 else wa 5 k 0 1 4 3 5 0x13)
    [.amoAdd false 2 true false true 4 3 5, .amoAnd false 2 true false true 4 3 5, .amoOr false 2 true false true 4 3 5,
      .amoXor false 2 true false true 4 3 5, .amoMin false 2 true false true 4 3 5, .amoMax false 2 true false true 4 3 5,
      .amoMinu false 2 true false true 4 3 5, .amoMaxu false 2 true false true 4 3 5, .amoSwap false 2 true false true 4 3 5,
      .amoCas false 2 true false true 4 3 5, .amoDecFire 2 false true 3 5, .amoFadd false 2 true false true 4 3 5] = true ∧
    decodeTableWord 32 (wa 8 8 0 0 4 3 0 0x13) = some (.amoSwap true 0 false false false 4 3 0) := by decide +kernel

theorem test_decode_sync : row32 (fun k => if k < 5 then wa 0 k 0 0 0 0 0 0x14 else if k = 6 then wa 0 k 0 1 0 8 9 0x14
      else wa 0 k 0 1 9 8 0 0x14)
    [.syncFenceDie false false, .syncFenceDev false false, .syncFenceSys false false, .syncFenceCp false false,
      .syncFenceU false false, .syncRel false true 9 8, .syncAcq false true 8 9, .syncClnRange false true 9 8,
      .syncInvRange false true 9 8, .syncFlnRange false true 9 8, .syncFeClr false true 9 8,
      .syncFeSet false true 9 8] = true := by decide +kernel

theorem test_decode_valu : row32 (fun k => wv 2 k 1 3 2 1 (if k = 14 then 8 * 3 + 5 else 15) 0x15)
    [.valuAdd 2 true 3 2 1 15, .valuSub 2 true 3 2 1 15, .valuMul 2 true 3 2 1 15, .valuMulh 2 true 3 2 1 15,
      .valuAnd 2 true 3 2 1 15, .valuOr 2 true 3 2 1 15, .valuXor 2 true 3 2 1 15, .valuShl 2 true 3 2 1 15,
      .valuShr 2 true 3 2 1 15, .valuSra 2 true 3 2 1 15, .valuMin 2 true 3 2 1 15, .valuMax 2 true 3 2 1 15,
      .valuMinu 2 true 3 2 1 15, .valuMaxu 2 true 3 2 1 15, .valuCmp 2 true 3 2 1 3 5, .valuSel 2 true 3 2 1 15] = true := by
  decide +kernel

theorem test_decode_vfp : row32 (fun k => let one := k = 6 ∨ k = 7 ∨ 9 ≤ k ∧ k ≤ 12 ∨ k = 15
      wv 6 k 0 0 (if one then 0 else if k = 13 then 1 else 2) 1 (if k = 14 then 8 * 2 + 7 else 15) 0x16)
    [.vfpAdd 6 false 0 2 1 15, .vfpSub 6 false 0 2 1 15, .vfpMul 6 false 0 2 1 15, .vfpDiv 6 false 0 2 1 15,
      .vfpMin 6 false 0 2 1 15, .vfpMax 6 false 0 2 1 15, .vfpRnd 6 false 0 1 15, .vfpExp2f 6 false 0 1 15,
      .vfpScale 6 false 0 2 1 15, .vfpGetexp 6 false 0 1 15, .vfpRcp 6 false 0 1 15, .vfpRsq 6 false 0 1 15,
      .vfpSqrt 6 false 0 1 15, .vfpCvt 6 false 0 1 1 15, .vfpCmp 6 false 0 2 1 2 7, .vfpCls 6 false 0 1 15] = true := by
  decide +kernel

theorem test_decode_vfma_and_mask :
    row32 (fun k => wf 3 2 k 11 10 9 8 0x17) [.vfmaFma 3 2 11 10 9 8, .vfmaFms 3 2 11 10 9 8, .vfmaFnma 3 2 11 10 9 8,
      .vfmaFnms 3 2 11 10 9 8] ∧
    row32 (fun k => wa 0 k 1 0 (if k < 4 then 6 else 0) (if k = 9 then 0 else 5) 4 0x18) [.maskAnd true false 6 5 4,
      .maskOr true false 6 5 4, .maskXor true false 6 5 4, .maskAndn true false 6 5 4, .maskNot true false 5 4,
      .maskPop true false 5 4, .maskFirst true false 5 4, .maskFromx true false 5 4, .maskTox true false 5 4,
      .maskAll true false 4, .maskLanes true false 5 4] := by decide +kernel

theorem test_decode_fpu : row32 (fun k => wa (if k = 9 then 9 else 1) k 1 0 (if k ∈ [4, 8, 9, 13, 15] then 0 else 6) 5 4 0x19)
    [.fpuAdd true true false 6 5 4, .fpuSub true true false 6 5 4, .fpuMul true true false 6 5 4, .fpuDiv true true false 6 5 4,
      .fpuSqrt true true false 5 4, .fpuMin true true false 6 5 4, .fpuMax true true false 6 5 4, .fpuFma true true false 6 5 4,
      .fpuRnd true true false 5 4, .fpuCvt 4 true true false 5 4, .fpuEq true true false 6 5 4, .fpuLt true true false 6 5 4,
      .fpuLe true true false 6 5 4, .fpuCls true true false 5 4, .fpuSgnj true true false 6 5 4,
      .fpuAbs true true false 5 4] = true := by decide +kernel

theorem test_decode_row0 : row32 (fun k => wa 0 k 0 1 (if k = 5 then 6 else 0) (if k ∈ [0, 2, 3, 6] then 0 else 5)
      (if k ∈ [0, 1, 2, 6] then 0 else 4) 0x1A)
    [.rowYield false true, .rowWait false true 5, .rowStop false true, .rowRowid false true 4, .rowSend false true 5 4,
      .rowSpawn false true 6 5 4, .rowDone false true, .rowBudget false true 5 4] = true := by decide +kernel

theorem test_decode_row1 : row32 (fun k => wa 0x10 k 0 1 (if k ∈ [0, 2, 4, 6] then 6 else 0) (if k ∈ [5, 7, 8] then 0 else 5)
      (if k = 0 ∨ k = 2 then 0 else 4) 0x1A)
    [.rowBarInit false true 6 5, .rowBarArrive false true 5 4, .rowBarWait false true 6 5, .rowBarSync false true 5 4,
      .rowDqPush false true 6 5 4, .rowDqPop false true 2, .rowDqSplit false true 6 5 4, .rowDqSteal false true 2,
      .rowDqLen false true 4] = true := by decide +kernel

theorem test_decode_engine : row32 (fun k => wa (if k = 1 then 7 else 0) k 0 1 (if k < 2 then 6 else 0)
      (if k ∈ [0, 1, 3, 6] then 5 else 0) (if k = 7 then 0 else 4) 0x1B)
    [.engineCpLin false true 6 5 4, .engineCpDist 7 false true 6 5 4, .engineCpStat false true 4, .engineMxGang false true 5 4,
      .engineMxStat false true 4, .engineMxAbort false true 4, .engineEdgeRun true 5 4, .engineEdgeRet true,
      .engineEdgeStat true 2] = true := by decide +kernel

theorem test_decode_sys : row32 (fun k => ws (if k ∈ [1, 2, 5, 6] then 0x100 else 0) k (if k < 5 then 0 else 6) 0x1C)
    [.sysNop, .sysTrap 0x100, .sysBkpt 0x100, .sysUret, .sysHalt, .sysSysr 0x100 6, .sysSysw 0x100 6, .sysShoot 3, .sysGang 6,
      .sysSwap 6] = true := by decide +kernel

theorem test_decode_vxf : row32 (fun k => wv 5 k 1 (if k = 1 ∨ k = 2 then 0 else 2) (if k ∈ [1, 2, 3, 10, 11] then 3 else 0)
      (if k = 7 then 0 else 2) 1 0x1D)
    [.vxfBcast 5 true 2 2 1, .vxfExt 5 true 3 2 1, .vxfIns 5 true 3 2 1, .vxfPerm 5 true 2 3 2 1, .vxfRedAdd 5 true 2 2 1,
      .vxfRedMin 5 true 2 2 1, .vxfRedMax 5 true 2 2 1, .vxfIota 5 true 2 1, .vxfAbs 5 true 2 2 1, .vxfNeg 5 true 2 2 1,
      .vxfSgnj 5 true 2 3 2 1, .vxfShfdn 5 true 2 3 2 1] = true := by decide +kernel

theorem test_decode_halfwords : ([(wh 0 31 1 1, .hMov 31 1), (wh 0 31 1 2, .hAdd 31 1), (wh 0 31 1 3, .hAddi5 31 1),
    (wh 0 31 1 4, .hSub 31 1), (wh 0 31 1 5, .hAnd 31 1), (wh 0 31 1 6, .hOr 31 1), (wh 1 31 1 6, .hXor 31 1),
    (wh 0 31 1 7, .hShli 31 1), (wh 1 31 1 7, .hShri 31 1), (wh 0 31 1 8, .hLd64 31 1), (wh 1 31 1 8, .hLd32 31 1),
    (wh 0 31 1 9, .hSt64 31 1), (wh 1 31 1 9, .hSt32 31 1), (wh 0 31 1 10, .hBeqz 31 1), (wh 1 31 1 10, .hBnez 31 1),
    (wh 0 31 1 11, .hLt 31 1), (wh 0 31 1 12, .hLdi5 31 1), (wh 0 15 1 13, .hVfaddF32 false 15 false 1),
    (wh 1 15 1 13, .hVfmulF32 false 15 false 1), (wh 0 0 0 14, .hNop), (wh 0 0 1 14, .hYield),
    (wh 0 0 2 14, .hRet), (wh 0 31 17 13, .hVfaddF32 true 15 true 1)] : List (Nat × Instr)).all (fun x => decodeTableWord 16 x.1 == some x.2) = true := by decide +kernel

/-! ## Words that are no instruction (R152, R155-R158): one for each check, and the ill-formed term it would stand for -/

theorem test_refused_words : [0x00000001, 0x0000003D, 0x0000003F,           -- majors 0x00, 0x1E, 0x1F
    wa 2 0 0 0 4 3 5 0x01, wa 0x10 5 0 0 1 3 5 0x01,                        -- ALU: Q[3:1], B of clz
    wi (4 * 32) 0 6 7 0x06, wi 0x300 0 6 7 0x06, wl 0x2001 (8 * 3) 0x0A,   -- SHI: amount 32 in w, [14:9]; EXT x: I21[20:5]
    wc 0 0 6 2 1 0x0C, wm 0 0 7 0 8 3 0x0E, wm 0 1 6 0 8 0 0x0E,           -- BC: C; ld.q: odd D; ld.fe: X0
    wm 0 0 5 0 8 3 0x0F, wm 0 3 3 0 8 3 0x0F, wm 0 0 4 0 8 3 0x0F,         -- ST: SZ, MO, odd D
    wm 0 0 3 0 8 3 0x10, wm 0 0 0 0 8 16 0x10, wm 0 3 0 0 8 3 0x11,        -- VLD: SZ, V16; VST: MO
    wv 7 0 0 0 1 2 3 0x12, wv 0 4 0 0 1 2 3 0x12, wv 1 8 0 0 1 2 3 0x12,   -- VMEM: TY, FN; scatred: TY
    wa 6 0 0 0 4 3 5 0x13, wa 8 0 0 0 4 3 5 0x13, wa 0 0 0 0 4 3 0 0x13,   -- AMO: scope 3; post with D; D = 0 without post
    wa 0x10 0 0 0 4 3 5 0x13, wa 0 12 0 0 4 3 5 0x13, wa 0 10 0 0 0 3 0 0x13,
    wa 1 0 0 0 0 0 0 0x14, wa 0 0 0 0 1 0 0 0x14, wa 0 12 0 0 0 0 0 0x14,  -- SYNC: Q, unused B, FN
    wv 3 0 0 0 2 1 0 0x15, wv 0 15 0 0 2 1 0 0x15, wv 0 0 0 0 16 1 0 0x15, -- VALU: TY; sel unmasked; V16
    wv 0 0 0 0 2 1 0 0x16, wv 6 13 0 0 7 1 0 0x16, wv 6 13 0 0 8 1 0 0x16, -- VFP: TY; cvt: source 7, B[4:3]
    wf 0 0 0 16 1 1 1 0x17, wa 0 0 0 0 8 1 1 0x18, wa 0 11 0 0 0 1 1 0x18, -- VFMA: V16; MASK: M8, FN
    wa 10 9 0 0 0 5 4 0x19, wa 2 0 0 0 6 5 4 0x19, wa 0x10 0 0 0 6 5 4 0x19, -- FPU: CONV 5, Q[3:1], Q[4]
    wa 1 0 0 0 0 0 0 0x1A, wa 0 8 0 0 0 0 0 0x1A, wa 0x10 5 0 0 0 0 3 0x1A, wa 0x10 3 0 0 0 5 0 0x1A,
    wa 1 0 0 0 6 5 4 0x1B, wa 8 1 0 0 6 5 4 0x1B, wa 0 3 0 0 0 5 0 0x1B, wa 0 8 0 0 0 0 3 0x1B,
    ws 0 10 0 0x1C, ws 1 0 0 0x1C, ws 0xFFF 5 6 0x1C, ws 0 7 5 0x1C, 2 ^ 28 + ws 0 0 0 0x1C, -- SYS: A, F12, unassigned number, odd pair, [31:28]
    wv 7 0 0 0 0 2 1 0x1D, wv 0 12 0 0 0 2 1 0x1D, wv 0 0 0 0 0 2 16 0x1D].all
      (fun w => decodeTableWord 32 w == none) = true ∧
    [0, wh 1 0 1 1, wh 0 0 3 14, wh 0 1 0 14, wh 1 0 0 14, wh 0 0 0 15].all
      (fun w => decodeTableWord 16 w == none) = true := by decide +kernel

theorem test_ill_formed_terms : ([.shiShl false 32 false 6 7, .ld 0 0 7 false 8 3, .ld 0 1 6 false 8 0, .st 0 0 5 false 8 3,
    .st 0 3 3 false 8 3, .st 0 0 4 false 8 3, .vld 0 0 3 false 8 3, .vld 0 0 0 false 8 16, .vst 0 3 0 false 8 3,
    .vmemGather 7 false 0 1 2 3, .vmemGather 0 false 0 16 2 3, .vmemScatredAdd 1 false 0 1 2 3, .vmemScatredFadd 4 false 0 1 2 3,
    .amoAdd false 3 false false false 4 3 5, .amoAdd true 0 false false false 4 3 5, .amoAdd false 0 false false false 4 3 0,
    .amoDecFire 0 false false 3 0, .valuAdd 3 false 0 2 1 0, .valuAdd 0 false 0 16 1 0, .valuSel 0 false 0 2 1 0,
    .vfpAdd 2 false 0 2 1 0, .vfpAdd 7 false 0 2 1 0, .vfpCvt 6 false 0 7 1 0, .vfpCvt 0 false 0 2 1 0, .vfmaFma 0 0 16 1 1 1,
    .maskAnd false false 8 1 1, .maskAll false false 8, .fpuCvt 5 false false false 5 4, .rowBarSync false false 5 0,
    .rowDqPop false false 0, .engineMxGang false false 5 0, .engineEdgeRun false 5 0, .engineEdgeStat false 0, .sysSysr 0xFFF 6,
    .sysShoot 0, .vxfBcast 7 false 0 2 1, .vxfBcast 0 false 0 2 16] : List Instr).all (fun i => !i.wf) = true := by decide +kernel

/-! ## Results (one step on a small state) -/

/-- Row 0 of core 0 about to run its instruction at `codePa`, everything else as at reset: identity translation, privileged. -/
def st : State := placeCode State.reset []

/-- `s` with X registers set. -/
def regs (s : State) (l : List (Reg × Word)) : State := l.foldl (fun t p => setX t t.cur p.1 p.2) s

/-- What `P` says of the next state of `i`; false when there is none. -/
def after? (s : State) (i : Instr) (P : State → Bool) : Bool :=
  match exec i s with
  | .next t => P t
  | _ => false

/-- X[d] after `i`, PC having gone on by `n`. -/
def givesX (s : State) (i : Instr) (d : Reg) (v : Word) (n : Nat) : Bool :=
  after? s i fun t => getX t t.cur d == v && (getRow t t.cur).pc == wNat (codePa + n) && (getRow t t.cur).retired == 1

/-- X3 = -7, X4 = 2, X5 = 0. -/
def stA : State := regs st [(3, -7), (4, 2)]

theorem test_alu_div : givesX stA (.aluDiv true false false 4 3 6) 6 (-3) 4 = true := by decide +kernel
theorem test_alu_div_by_zero : givesX stA (.aluDiv true false false 5 3 6) 6 (-1) 4 = true := by decide +kernel
theorem test_alu_rem : givesX stA (.aluRem true false false 4 3 6) 6 (-1) 4 = true := by decide +kernel
theorem test_alu_rem_by_zero_w : givesX stA (.aluRemu false false false 5 3 6) 6 (-7) 4 = true := by decide +kernel
theorem test_alu_divu_w : givesX stA (.aluDivu false false false 4 3 6) 6 0x7FFFFFFC 4 = true := by decide +kernel
theorem test_alu_add_w_wraps : givesX (regs st [(3, 0x7FFFFFFF), (4, 1)]) (.aluAdd false false false 4 3 3) 3
    0xFFFFFFFF80000000 4 = true := by decide +kernel
theorem test_alu_mulhu : givesX stA (.aluMulhu true false false 4 3 6) 6 1 4 = true := by decide +kernel
theorem test_alu_mulh : givesX stA (.aluMulh true false false 4 3 6) 6 (-1) 4 = true := by decide +kernel
theorem test_alu_sra_amount_mod_32 : givesX (regs stA [(4, 33)]) (.aluSra false false false 4 3 6) 6 (-4) 4 = true := by
  decide +kernel
theorem test_alu_rot : givesX (regs st [(3, 1), (4, 1)]) (.aluRot true false false 4 3 6) 6 0x8000000000000000 4 = true := by
  decide +kernel
theorem test_alu_x0 : givesX stA (.aluAdd true false false 4 3 0) 0 0 4 = true := by decide +kernel
theorem test_alu_sel_reads_d : givesX (regs stA [(6, 0x100000000)]) (.aluSel false false false 4 3 6) 6 (-7) 4 = true := by
  decide +kernel
theorem test_alu_ext : givesX (regs st [(3, 0xABCD), (4, 0x0704)]) (.aluExt true false false 4 3 6) 6 0xBC 4 = true := by
  decide +kernel
theorem test_clz_of_zero_w : givesX st (.aluClz false false false 5 6) 6 32 4 = true := by decide +kernel
theorem test_alui_sign : givesX st (.alui 0x7FFF false 5 6) 6 (-1) 4 = true := by decide +kernel
theorem test_ldx : givesX (regs st [(6, 0x12345)]) (.ldx 0x100000 6) 6 0xFFFFFE0000012345 4 = true := by decide +kernel
theorem test_bc_not_taken : after? stA (.bcLtu 0xFFF false 4 3) (fun t => (getRow t t.cur).pc == wNat (codePa + 4)) = true := by
  decide +kernel
theorem test_bc_taken_back : after? stA (.bcLt 0xFFF false 4 3) (fun t => (getRow t t.cur).pc == wNat (codePa - 2)) = true := by
  decide +kernel
theorem test_jmp_through_its_link : after? (regs st [(1, 0x2000)]) (.jmp 1 false 1 1) (fun t =>
    (getRow t t.cur).pc == 0x2002 && getX t t.cur 1 == wNat (codePa + 4)) = true := by decide +kernel
theorem test_half_branch : after? st (.hBeqz 0x1F 5) (fun t => (getRow t t.cur).pc == wNat (codePa - 2)) = true := by
  decide +kernel

/-- 1.0 and 3.0 in f32, the pattern of 1/3 rounded to nearest even and inexact (bit 4 of the flags is NX). -/
theorem test_fpu_div : givesX (regs st [(3, 0x3F800000), (4, 0x40400000)]) (.fpuDiv false false false 4 3 6) 6 0x3EAAAAAB 4 = true := by
  decide +kernel
theorem test_fpu_div_by_zero : givesX (regs st [(3, 0x3F800000)]) (.fpuDiv false false false 5 3 6) 6 0x7F800000 4 = true := by
  decide +kernel
theorem test_fpu_sqrt_2 : givesX (regs st [(3, 0x4000000000000000)]) (.fpuSqrt true false false 3 6) 6 0x3FF6A09E667F3BCD 4 = true := by
  decide +kernel
/-- `fpu.cls` of a signalling NaN: a class of its own, and NV (bit 4 of FLAGS). -/
theorem test_fpu_cls_snan : after? (regs st [(3, 0x7F800001)]) (.fpuCls false false false 3 6) (fun t =>
    getX t t.cur 6 == wNat (fclass f32 0x7F800001) && (getRow t t.cur).flags.getLsbD 4) = true := by decide +kernel
theorem test_fpu_cvt_if : givesX (regs st [(3, -1)]) (.fpuCvt 3 false false false 3 6) 6 0xBF800000 4 = true := by decide +kernel
theorem test_fpu_cvt_fu_of_minus_one : givesX (regs st [(3, 0xBF800000)]) (.fpuCvt 2 false false false 3 6) 6 0 4 = true := by
  decide +kernel

/-- The block of the worked example of CX8 (BASE 12, K 1), 28 bytes. -/
def cx8Block : List Byte :=
  [0x1C, 0x62, 0xB5, 0x70] ++ List.replicate 14 0x00 ++ [0x8E, 0x58, 0xAA, 0xAA, 0xAA, 0xAA, 0xAA, 0xAA, 0x00, 0xA8]

/-- Its elements as E5M3 numbers: 1.625, -0.171875, 8, 0.46875 and 28 times 0.125 (R187). -/
theorem test_cx8_worked_example : cx8Bytes cx8Block = 28 ∧
    cx8Decode cx8Block = ([15 * 8 + 5, 256 + 12 * 8 + 3, 18 * 8, 13 * 8 + 7] ++ List.replicate 28 (12 * 8), false) ∧
    cx8Decode (cx8Encode (cx8Decode cx8Block).1) = cx8Decode cx8Block := by decide +kernel

theorem test_matrix_and_edge_example_words : decodeTableWord 32 0x01805177 = some (.engineMxGang false false 10 5) ∧
    decodeTableWord 32 0x020001B7 = some (.engineMxStat false false 6) ∧
    decodeTableWord 32 0x028001F7 = some (.engineMxAbort false false 7) ∧
    decodeTableWord 32 0x03005177 = some (.engineEdgeRun false 10 5) ∧
    decodeTableWord 32 0x03800037 = some (.engineEdgeRet false) ∧
    decodeTableWord 32 0x040001B7 = some (.engineEdgeStat false 3) := by decide +kernel

/-- The first instruction after a placement runs: `alui X2, X0, 5`. -/
theorem test_step_runs_placed_word : (match step (State.reset.withFetchWord 32 (wi 5 0 0 2 0x02)) with
    | .next t => getX t ⟨0, 0⟩ 2 == 5 && (getRow t ⟨0, 0⟩).pc == wNat (codePa + 4)
    | _ => false) = true := by decide +kernel

/-- A step of the reset package with nothing placed is the first stage of the start (R389). -/
theorem test_step_from_reset : (match step State.reset with
    | .next t => t.pkg.boot == some ⟨1, 2, 0⟩
    | _ => false) = true := by decide +kernel

theorem test_trap_saves_pc : after? st (.sysTrap 0x123) (fun t => let w := getRow t t.cur
    w.st == .faulted && w.why == 4 && w.pc == wNat codePa && w.fva == wNat codePa && w.fcause == 0x123000A) = true := by
  decide +kernel
theorem test_privileged_in_user_row : after? (modRow st st.cur fun w => { w with priv := false }) .sysHalt
    (fun t => (getRow t t.cur).st == .faulted && Wbits (getRow t t.cur).fcause 7 0 == 6) = true := by decide +kernel

/-! ## States and operands that meet the hypotheses of the statements -/

/-- `st` with its row unprivileged. -/
def stU : State := modRow st st.cur fun w => { w with priv := false }
/-- `st` with word `w` of the row empty. -/
def stE (w : Nat) : State := setEmpty st st.cur w
/-- `st` with word `w` of the row poisoned. -/
def stP (w : Nat) : State := { st with poison := [rowWord st.cur w] }

/-- AluResults, ImmediateAndConstantResults, BranchResults, FpuResults, ValuResults, VfpResults, MaskResults, VxfResults,
HalfwordResults: every source that their instructions name is full and sound. -/
theorem meets_register_sources : Can st [srcX 31 true, srcX 0 false, srcXX 30 true, srcE 7 true, srcM 7 false, srcV 15 true] ∧
    Can st (maskedSrcs 15 7 true [srcV 1 true, srcV 15 true, srcX 2 true]) ∧
    Can st (maskedSrcs 15 0 false [srcV 1 false, srcV 2 false, srcV 3 false] ++ modeSrc true) ∧ (4#3).toNat ≤ 4 ∧
    Can st ([srcX 31 true, srcX 0 false] ++ modeSrc true) ∧ Can st (maskedSrcs 15 7 true [srcV 1 true, srcV 15 true] ++ modeSrc true) := by decide +kernel

/-- TrapsAndPrivilege. -/
theorem meets_TrapsAndPrivilege : Going st ∧ Going stU ∧ (getRow stU stU.cur).priv = false := by decide +kernel

/-- SourcesBlockOrTrap: the lowest empty word, with and without its trap bit; a poisoned word. -/
theorem meets_SourcesBlockOrTrap : Going (stE 34) ∧ Going (stP 34) ∧
    plainSrcs (.aluAdd true false true 3 2 5) = some [srcX 2 true, srcX 3 false] ∧
    firstEmpty (stE 34) st.cur [srcX 2 true, srcX 3 false] = some (34, true) ∧
    firstEmpty (stE 35) st.cur [srcX 2 true, srcX 3 false] = some (35, false) ∧
    firstEmpty (setEmpty (stE 81) st.cur 80) st.cur [srcV 0 false] = some (80, false) ∧
    firstEmpty (stP 34) st.cur [srcX 2 true] = none ∧ firstPoison (stP 34) st.cur [srcX 2 true] = some 34 ∧
    plainSrcs (.fpuAdd true true false 3 2 5) = some ([srcX 2 false, srcX 3 true] ++ modeSrc true) ∧
    firstPoison (stP 3) st.cur ([srcX 2 true] ++ modeSrc true) = some 3 := by decide +kernel

/-- RowsStop: a row under STEP; the serving row and another; a halt that may end and one that waits for a store. -/
def stServing : State := modCore (modPart st 0 fun p => { p with upcall := 0 }) 0 fun c => { c with serving := true }
/-- A store of the row to die 0 that stands in its FIFO. -/
def anEntry (pa : Nat) (k : StKind) : StEnt := ⟨0, ⟨0, 0⟩, 0, true, ⟨wNat pa, pa, 8, 0, 0, 0, true, false, 1, 0⟩, k, false, List.replicate 8 7, []⟩
/-- `st` with the entry in the FIFO. -/
def stFifo (pa : Nat) (k : StKind) : State :=
  { (modCore st 0 fun c => { c with fifo := [anEntry pa k] }) with nextId := 1 }

theorem meets_RowsStop : (getRow (modRow st st.cur fun w => { w with stepping := true }) st.cur).stepping = true ∧
    plainSrcs .sysNop = some [] ∧ ready st st.cur [] = true ∧ Going stServing ∧
    partOf stServing 0 = some 0 ∧ Wbits (getPart stServing 0).upcall 7 0 = stServing.cur.row ∧
    (getCore stServing 0).serving = true ∧ (getCore st 0).serving = false ∧ (getRow st st.cur).priv = true ∧
    sysDone st st.cur 0 st.nextId = true ∧ Going (stFifo 0x200000 .plain) ∧
    sysDone (stFifo 0x200000 .plain) ⟨0, 0⟩ 0 1 = false := by decide +kernel

/-- SystemRegisters: the first and the last register of each kind, a privileged and an unprivileged writer, a foreign partition. -/
theorem meets_SystemRegisters : Can st [srcX 3 false] ∧ storeOrder st st.cur 0 st.nextId = true ∧ (getRow stU stU.cur).priv = false ∧
    Can stU [srcX 3 false] ∧ storeOrder stU stU.cur 0 stU.nextId = true ∧ remoteBefore st st.cur = false ∧
    partOf stU 0 = some 0 ∧ (0 : Nat) ≠ 63 := by decide +kernel

/-- The numbers at the ends of the ranges of registers, with the bits they keep. -/
def registers : List (Nat × Nat) :=
  [(0x140, 0xFFFFFFFFFFFFC003), (0x17F, 0xFFFFFFFFFFFFC003), (0x180, 0xFFFFFFFFFF000000), (0x1BF, 0xFFFFFFFFFF000000),
      (0x200, 0xFF), (0x201, 0xFFF0000000000003), (0x202, 0xFFF0000000000003), (0x204, 0xFFFFF), (0x206, 0xFFFFF),
      (0x205, 0xFFFFFFFFFFFFF000), (0x207, 0xFFFFFFFFFFFFF000), (0x210, 0xFFF0000000000003), (0x21F, 0xFFF0000000000003),
      (0x220, 0xFF), (0x221, 0x1FFFF), (0x500, 2 ^ 64 - 1), (0x57F, 2 ^ 64 - 1), (0x580, 0x000FFFFFFFFFC000),
      (0x5BF, 0x000FFFFFFFFFC000), (0x5C0, 0xFFFF), (0x5C1, 0xFFFF)]

theorem meets_RegisterMask : (∀ p ∈ registers, RegisterMask p.1 p.2) ∧ ∀ p ∈ registers, sysAssigned p.1 = true := by
  refine ⟨?_, by decide +kernel⟩
  simp [registers, RegisterMask]

/-- Does a check pass with parts of which `f` holds? -/
def okWith (r : Except Trap (List Part)) (f : List Part → Bool) : Bool :=
  match r with
  | .ok ps => f ps
  | .error _ => false
/-- Has a read answered with bytes? -/
def readOk : Rd → Bool
  | .ok _ => true
  | _ => false
/-- Does a check wait (R371)? -/
def waits? (r : Except Trap (List Part)) : Bool :=
  match r with
  | .ok _ => false
  | .error t => t.waits
/-- `s` with its partition's tables at 0, in lines that the host may hold. -/
def walking (s : State) : State := modDie (modPart s 0 fun p => { p with root := 1 }) 0 fun d => { d with dir := [(0, 0x10000)] }
/-- Does a check fail? -/
def fails (r : Except Trap (List Part)) : Bool := !okWith r fun _ => true

/-- X8 points to device memory, X9 to the words of X1 and X2 of the row itself, X10 past a 256-byte boundary; V1 holds lane numbers. -/
def stM : State := regs st [(8, 0x200000), (9, 0x4000000000108), (10, 0x200001)]
/-- Eight bytes at `pa`. -/
def aPart (pa : Nat) : Part := ⟨wNat pa, pa, 8, 0, 0, 0, true, false, 1, 0⟩
/-- A request of the row for `k`, with one part at `pa` to do and word `w` to fill. -/
def aReq (k : ReqKind) (pa w : Nat) : Req :=
  ⟨0, ⟨0, 0⟩, true, 0, k, [⟨wNat pa, pa, 8, 0, 0, 0, true, false, 1, 0⟩], [], .x (w - 32) 8 true, [w], 0, false, false⟩
/-- `s` with that request outstanding, its word empty. -/
def withReq (s : State) (k : ReqKind) (pa w : Nat) : State := { setEmpty s s.cur w with reqs := [aReq k pa w], nextId := 1 }
/-- A full FIFO. -/
def stFull : State := modCore stM 0 fun c => { c with fifo := List.replicate 32 (anEntry 0x200000 .plain) }

/-- RemoteLoadsIssue: every size and mode of a load, at the ends of the offset. -/
theorem meets_RemoteLoadsIssue : Issues stM [srcX 8 true] ∧
    (∀ sz : BitVec 3, ∀ mo : BitVec 2, okWith (check stM (ctxOf stM stM.cur) { rd := true, scalar := true }
      (ea stM 8 0x200 (loadSize sz).1) (loadSize sz).1 (feMode mo != 0 && (ea stM 8 0x200 (loadSize sz).1).toNat % min (loadSize sz).1 16 != 0))
      (fun ps => !ownRow stM stM.cur ps) = true) ∧
    (∀ sz < 5, okWith (check stM (ctxOf stM stM.cur) { rd := true } (ea stM 8 0x1FF (128 / 2 ^ sz)) (128 / 2 ^ sz) false)
      (fun ps => !ownRow stM stM.cur ps) = true) ∧
    (∀ n ∈ [8, 4], okWith (check stM (ctxOf stM stM.cur) { rd := true, scalar := true } 0x200000 n false)
      (fun ps => !ownRow stM stM.cur ps) = true) := by decide +kernel

/-- OwnRowAccesses: a load of X1, an `fe` load of it full and empty, with and without an older remote load; a pair; a vector load. -/
theorem meets_OwnRowAccesses : Issues stM [srcX 9 false] ∧ memSrcs (.ld 0 1 6 false 9 5) = some [srcX 9 false] ∧
    accessOf stM (.ld 0 1 6 false 9 5) = some ({ rd := true, scalar := true }, 0x4000000000108, 8, false) ∧
    accessOf stM (.hLd64 9 5) = some ({ rd := true, scalar := true }, 0x4000000000108, 8, false) ∧
    okWith (check stM (ctxOf stM stM.cur) { rd := true, scalar := true } 0x4000000000108 8 false) (fun ps =>
      ownRow stM stM.cur ps && emptyOf stM stM.cur (ownWords stM ps) == [] &&
      emptyOf (setEmpty stM stM.cur 33) stM.cur (ownWords stM ps) == [33] &&
      readOk (readParts stM stM.cur true 1 false ps).1) = true ∧
    okWith (check stM (ctxOf stM stM.cur) { rd := true, scalar := true } 0x4000000000110 16 false) (fun ps =>
      ownRow stM stM.cur ps && readOk (readParts stM stM.cur true 0 false ps).1) = true ∧
    okWith (check stM (ctxOf stM stM.cur) { rd := true } 0x4000000000280 128 false) (fun ps =>
      ownRow stM stM.cur ps && readOk (readParts stM stM.cur true 0 false ps).1) = true ∧
    remoteBefore stM stM.cur = false ∧ ownBefore stM stM.cur 0 stM.nextId (aPart 0x4000000000108) = false ∧
    ownBefore { stM with reqs := [{ aReq (.atomic 0 1 0 .rne true 0) 0x4000000000108 40 with words := [] }], nextId := 1 } stM.cur 0 1
      (aPart 0x4000000000108) = true ∧
    Issues (withReq stM (.load 0 false) 0x200000 40) [srcX 9 false] ∧
    remoteBefore (withReq stM (.load 0 false) 0x200000 40) stM.cur = true := by decide +kernel

/-- LoadsSeeOwnStores: a byte that the row's entry holds, and one that it does not; a byte of X0. -/
theorem meets_LoadsSeeOwnStores : fifoOf (stFifo 0x200000 .plain) ⟨0, 0⟩ 0 1 = [] ++ anEntry 0x200000 .plain :: [] ∧
    canonPa (stFifo 0x200000 .plain) 0x200000 = 0x200000 ∧
    forward (stFifo 0x200000 .plain) ⟨0, 0⟩ 0 1 ⟨0x200007, 0x200007, 2, 0, 0, 0, true, false, 1, 0⟩ [0, 0] = [7, 0] ∧
    region st (rowPa ⟨0, 0⟩ 0x107) = .row ⟨0, 0⟩ 0 0x107 ∧ canonPa st (rowPa ⟨0, 0⟩ 0x107) = rowPa ⟨0, 0⟩ 0x107 := by decide +kernel

/-- StoresQueueOrStall: stores of every size, maintenance of 8 and of 128 bytes, with room and without; a bank in which a row runs. -/
theorem meets_StoresQueueOrStall : Issues stM [srcX 3 true, srcX 8 true] ∧ Issues stM [srcXX 4 true, srcX 8 true] ∧
    Issues stM [srcV 15 true, srcX 8 true] ∧ room stM = 32 ∧ room stFull = 0 ∧ (getBank stFull 0 0).runSlot = some 0 ∧ (getRow stFull stM.cur).rel = none ∧ Issues stFull [srcX 3 true, srcX 8 true] ∧
    (∀ n ∈ [1, 2, 4, 8, 16, 32, 64, 128], okWith (check stM (ctxOf stM stM.cur)
      { wr := true, code := 1, scalar := decide (n ≤ 16) } 0x200000 n false)
      (fun ps => decide (ps.length ≤ room stM) && decide (room stFull < ps.length)) = true) ∧
    accessOf stFull (.st 0 0 3 true 8 3) = some ({ wr := true, code := 1, scalar := true }, 0x200000, 8, false) ∧
    memSrcs (.st 0 0 3 true 8 3) = some [srcX 3 true, srcX 8 true] ∧
    (∀ n ∈ [8, 128], n % 8 = 0 ∧ 8 ≤ n ∧ n ≤ 128 ∧ 0x4000000000280 % 0x1000 + n ≤ 0x1000 ∧
      okWith (check stM (ctxOf stM stM.cur) { wr := true, code := 1, bits := true } 0x4000000000280 n false)
        (fun ps => decide (ps.length ≤ room stM)) = true) := by decide +kernel

/-- IndexedAccesses: all lanes at one address, no active lane, and a later group of a scatter. -/
theorem meets_IndexedAccesses : Issues stM (vmemSources false true true 7 1 8 2 ++ modeSrc true) ∧ Issues stM (vmemSources true true true 0 8 8 2) ∧
    Issues stM (vmemSources false false true 7 1 8 2) ∧ lanesOf stM 1 7 = [] ∧ (lanesOf stM 1 0).length = 64 ∧ 16 ≤ room stM ∧
    (∀ w ∈ [2, 4, 8], okWith (check stM (ctxOf stM stM.cur) (laneAcc stM 8 { wr := true, code := 1 }) (laneVa stM w false 8 1 3) w
      (laneMisaligned stM w false 8 1)) (fun _ => true) = true ∧ okWith (check stM (ctxOf stM stM.cur) (laneAcc stM 8 { rd := true })
      (laneVa stM w true 8 5 3) w (laneMisaligned stM w true 8 5)) (fun _ => true) = true) := by decide +kernel

/-- A line of updates at 0x200000: element 0 of i32 additions. -/
def stRed : State := modCore stM 0 fun c => { c with red := [⟨0, 0x4000, 0x200000, 0, true, false, 8, 4, [(0, some 5)]⟩] }
/-- The part of element `k` of it. -/
def redPart (k : Nat) : Part := ⟨wNat (0x200000 + 4 * k), 0x200000 + 4 * k, 4, 0, 0, 0, true, false, 1, 0⟩

/-- UpdateOnlyCopies: the element held, another one of its line, and a line not held. -/
theorem meets_UpdateOnlyCopies : Issues stM (vmemSources false true true 0 1 8 2 ++ modeSrc true) ∧
    okWith (check stM (ctxOf stM stM.cur) (laneAcc stM 8 { rd := true, wr := true, code := 3 }) (laneVa stM 4 false 8 1 0) 4
      (laneMisaligned stM 4 false 8 1)) (fun ps => ps.length == 1) = true ∧
    redFind (getCore stRed 0) 0 (Wbits (redPart 0).va 55 7) = some 0 ∧
    (getCore stRed 0).red[0]?.map (fun x => (x.op, x.sz, smGet none x.elems 0, smGet none x.elems 1)) = some (8, 4, some 5, none) ∧
    redFind (getCore stM 0) 0 (Wbits (redPart 0).va 55 7) = none ∧ (getCore stM 0).red.length < 32 ∧
    (redUpdate stRed 0 none 8 4 .rne (redPart 0) 7).1 = 0 ∧
    ((getCore (redUpdate stRed 0 none 8 4 .rne (redPart 0) 7).2 0).red.map (·.elems)) = [[(0, some 12)]] := by decide +kernel

/-- Atomics: every scope; posted and not; on a word and a doubleword of a row; on the row itself, its word full and empty. -/
theorem meets_Atomics : Issues stM ([srcX 8 true, srcX 3 true] ++ [srcE 0 true]) ∧ Issues stM ([srcX 8 true, srcX 3 true] ++ modeSrc true) ∧ Issues stM [srcX 8 true, srcX 3 true] ∧
    (∀ n ∈ [4, 8], okWith (check stM (ctxOf stM stM.cur) { rd := true, wr := true, code := 3, scalar := true, atomic := true }
      0x200000 n false) (fun _ => true) = true) ∧ (∀ k < 3, scopeDone stM stM.cur 0 k stM.nextId = true) ∧
    region stM 0x4000000001108 = .row ⟨0, 1⟩ 0 0x108 ∧ region stM 0x4000000001FF8 = .row ⟨0, 1⟩ 0 0xFF8 ∧
    okWith (check stM (ctxOf stM stM.cur) { rd := true, wr := true, code := 3, scalar := true, atomic := true } 0x4000000000108 8 false)
      (fun ps => ownRow stM stM.cur ps && emptyOf stM stM.cur (ownWords stM ps) == [] &&
        emptyOf (setEmpty stM stM.cur 33) stM.cur (ownWords stM ps) == [33]) = true ∧
    rowBusy stM ⟨0, 1⟩ (some stM.cur) = false ∧ rowWords 0x108 4 = [33] ∧ rowWords 0xFF8 8 = [511] ∧
    isEmpty stM ⟨0, 1⟩ 33 = false ∧ isPoison stM ⟨0, 1⟩ 511 = false := by decide +kernel

/-- DecrementAndFire: its issue, on the row itself with its word full and empty too, and its end with a status of each kind at hand. -/
def stFired (k : Word) : State := modRow stM stM.cur fun w => { w with rstep := 2, work := k }
theorem meets_DecrementAndFire : (getRow stM stM.cur).rstep < 2 ∧ Issues stM [srcX 8 true] ∧
    scopeDone stM stM.cur 0 0 stM.nextId = true ∧ okWith (check stM (ctxOf stM stM.cur)
      { rd := true, wr := true, code := 3, scalar := true, atomic := true } 0x200000 8 false) (fun _ => true) = true ∧
    okWith (check stM (ctxOf stM stM.cur) { rd := true, wr := true, code := 3, scalar := true, atomic := true } 0x4000000000110 8 false)
      (fun ps => ownRow stM stM.cur ps && emptyOf stM stM.cur (ownWords stM ps) == [] &&
        emptyOf (setEmpty stM stM.cur 34) stM.cur (ownWords stM ps) == [34]) = true ∧
    ∀ k ∈ [2, 3], Going (stFired (wNat k)) ∧ (getRow (stFired (wNat k)) stM.cur).rstep = 2 ∧
      isEmpty (stFired (wNat k)) stM.cur (xw 5) = false ∧ (getRow (stFired (wNat k)) stM.cur).work.toNat % 4 = k := by decide +kernel

/-- MemoryInstructionsMayStop: an earlier `fe` load that has still to fill X8; an empty and a poisoned source; a hole, a misaligned
atomic, a walk that waits. -/
theorem meets_MemoryInstructionsMayStop : Going (withReq stM (.load 1 false) 0x200000 40) ∧
    holdWord (withReq stM (.load 1 false) 0x200000 40) stM.cur = some 40 ∧ memSrcs (.hLd64 8 5) = some [srcX 8 false] ∧
    holdWord (stE 40) st.cur = none ∧ (getRow (stE 40) st.cur).rstep = 0 ∧ firstEmpty (stE 40) st.cur [srcX 8 true] = some (40, true) ∧
    firstEmpty (stP 40) st.cur [srcX 8 false] = none ∧ firstPoison (stP 40) st.cur [srcX 8 false] = some 40 ∧
    Issues (regs stM [(8, 0x3000000000)]) [srcX 8 false] ∧
    accessOf (regs stM [(8, 0x3000000000)]) (.hLd64 8 5) = some ({ rd := true, scalar := true }, 0x3000000000, 8, false) ∧
    fails (check stM (ctxOf stM stM.cur) { rd := true, scalar := true } 0x3000000000 8 false) = true ∧ (getRow stM stM.cur).rel = none ∧
    waits? (check stM (ctxOf stM stM.cur) { rd := true, scalar := true } 0x200000 8 false) = false ∧
    waits? (check (walking stM) (ctxOf (walking stM) stM.cur) { rd := true, scalar := true } 0x200000 8 false) = true ∧
    Issues stM [srcX 10 false, srcX 3 false] ∧ accessOf stM (.amoAdd false 0 true false false 3 10 5) =
      some ({ rd := true, wr := true, code := 3, scalar := true, atomic := true }, 0x200001, 8, true) := by decide +kernel

/-- FencesWaitByScope: with nothing to wait for, and with a store in the FIFO and a copy under way. -/
def stBusy : State := modCl (stFifo 0x200000 .plain) 0 fun c => { c with
  copyq := [⟨1, ⟨0, 0⟩, true, 0, ⟨0, 0, 8, 0, 0, 0, true, false, 1, 0⟩, ⟨16, 16, 8, 0, 0, 0, true, false, 1, 0⟩, 8, [(0, 8)], [], false, [], [], []⟩] }
theorem meets_FencesWaitByScope : Issues st [] ∧ dieDone st st.cur 0 st.nextId = true ∧ devDone st st.cur 0 st.nextId = true ∧
    sysDone st st.cur 0 st.nextId = true ∧ cpDone st st.cur = true ∧ (getCore st 0).red.length ≤ 33 ∧ Issues stBusy [] ∧
    dieDone stBusy st.cur 0 1 = false ∧ devDone stBusy st.cur 0 1 = false ∧ sysDone stBusy st.cur 0 1 = false ∧
    cpDone stBusy st.cur = false ∧ fifoOf stBusy st.cur 0 1 ≠ [] := by decide +kernel

/-- ReleasesWriteObjects: a release that may be dated, one that waits for its own store, one that is dated, its home there, failed, and a
peer that refuses; dates at the end of their range. -/
def stDated (pa : Nat) : State := modRow stM stM.cur fun w =>
  { w with stalled := true, rel := some ⟨5, List.replicate 256 0, [⟨wNat pa, pa, 256, 0, 0, 0, true, false, 1, 0⟩], List.replicate 128 0, 0⟩ }
theorem meets_ReleasesWriteObjects : Issues stM [srcX 8 true, srcX 3 false] ∧
    ((getDie stM 0).failed && dieOf stM.cur.core == 1) = false ∧
    okWith (check stM (ctxOf stM stM.cur) { wr := true, code := 1, obj := true } 0x200000 256 false) (fun ps =>
      scopeDone (mergeCore stM 0 (some stM.cur)) stM.cur 0 (if outOfPackage stM ps then 2 else 1) stM.nextId &&
        dateOk (mergeCore stM 0 (some stM.cur))) = true ∧
    (∀ w < 32, isPoison stM stM.cur w = false) ∧ (getRow stM stM.cur).rel = none ∧
    (∀ pa ∈ [0x200000, 0xC030000000000], let s := stDated pa;
      (getRow s s.cur).st = .ready ∧ (getRow s s.cur).stepping = false ∧ (getRow s s.cur).pend = [] ∧ (getRow s s.cur).rel.isSome = true ∧
      lostFail s pa = false ∧ peerSays s 0 (aPart pa) true = none ∧
      peerSays { s with peerNo := some true } 0 (aPart pa) true = if pa = 0x200000 then none else some true) ∧
    lostFail (modDie (stDated 0x200000) 0 fun d => { d with failed := true }) 0x200000 = true ∧
    scopeDone (stFifo 0x300000 .plain) st.cur 0 1 1 = false ∧ nextDate (2 ^ 32 - 1) = 1 ∧ nextDate 0 = 1 ∧
    (getRow st st.cur).sfloor < 2 ^ 32 ∧ (319 : Nat) < 320 := by decide +kernel

/-- Acquires: an object never released; one with date 5, acquired at date 5 (own identity) and at date 0 (a date that is ahead); a
store of the row to the object; step 2 with its pass under way and over. -/
def stObj (now : Nat) : State := modPkg (gddrWrite stM 0x200008 [5]) fun q => { q with date := now }
theorem meets_Acquires : Issues stM [srcX 8 true] ∧ (getRow stM stM.cur).rstep < 2 ∧ ((getDie stM 0).failed && dieOf stM.cur.core == 1) = false ∧
    (∀ w < 32, isPoison (setX stM stM.cur 5 0) stM.cur w = false) ∧
    okWith (check stM (ctxOf stM stM.cur) { rd := true, obj := true } 0x200000 256 false) (fun ps =>
      !acqWait stM stM.cur ps && acqWait (stFifo 0x200000 .plain) stM.cur ps &&
      match (readObject stM 0 ps).1 with
        | .ok o => leNat ((o.drop 8).take 4) == 0
        | _ => false) = true ∧
    okWith (check (stObj 5) (ctxOf (stObj 5) stM.cur) { rd := true, obj := true } 0x200000 256 false) (fun ps =>
      match (readObject (stObj 5) 0 ps).1 with
        | .ok o => leNat ((o.drop 8).take 4) == 5 && identKind (stObj 5) (leNat ((o.drop 16).take 4)) 5 == none &&
          identKind (stObj 0) (leNat ((o.drop 16).take 4)) 5 == some 0xFFFFFFFF
        | _ => false) = true ∧
    2 ≤ (getRow (modRow st st.cur fun w => { w with rstep := 2, work := 1 }) st.cur).rstep ∧
    (1 : Word) ≠ 2 := by decide +kernel

/-- RangesReachEveryCopy: no bytes; two pages, at the first and at the last step; a line that is held. -/
theorem meets_RangesReachEveryCopy : Issues (regs stM [(3, 0x1001)]) [srcX 8 true, srcX 3 true] ∧ (getX stM stM.cur 3).toNat = 0 ∧
    canonFail 0x200000 0x1001 = none ∧ rangePage 0x200000 0x1001 0 = (0, 0x1000) ∧ rangePage 0x200000 0x1001 1 = (0x1000, 1) ∧
    (∀ n ∈ [0x1000, 1], okWith (check stM (ctxOf stM stM.cur) { wr := true, code := 1, maint := true } 0x200000 n false)
      (fun ps => pageStoresDone stM stM.cur ps) = true) ∧
    okWith (check stM (ctxOf stM stM.cur) { rd := true, maint := true } 0x201000 1 false) (fun _ => true) = true ∧
    region stM 0x200000 = .gddr ∧ region stM 0x8000000000000 = .host := by decide +kernel

/-- RowInstructions: with and without a rival; the scratch word equal and not. -/
def stRival : State := modRow (modBank st 0 0 fun b => { b with slot1 := ⟨.opn, 4, false, 0, false, 0, 1, 1⟩ }) ⟨0, 4⟩ fun w => { w with st := .ready }
theorem meets_RowInstructions : Going st ∧ rivalReady st st.cur = false ∧ Going stRival ∧ rivalReady stRival st.cur = true ∧
    slotOf stRival st.cur = some 0 ∧ ((getBank stRival 0 0).slot 0).st = .running ∧ ((getBank stRival 0 0).slot 1).st = .opn ∧
    ready st st.cur [srcX 3 true] = true ∧ isPoison st st.cur 12 = false ∧ (getRow st st.cur).scratch0 = getX st st.cur 3 ∧
    (getRow stA st.cur).scratch0 ≠ getX stA st.cur 3 ∧ partOf st 0 = some 0 := by decide +kernel

/-- PacketsAreSent: a packet to any core of the partition, one to core 0, and an ill-formed one, spawned and sent. -/
theorem meets_PacketsAreSent : Can stM [srcX 3 true, srcX 4 true] ∧ remoteBefore stM stM.cur = false ∧
    wellFormed stM (partOf stM 0) [0x1FF0000, 0, 0, 0] = true ∧ wellFormed stM (partOf stM 0) [0, 0, 0, 0] = true ∧
    Wbits (0x1FF0000 : Word) 2 0 = 0 ∧ Wbits (0x1FF0000 : Word) 5 3 = 0 ∧
    wellFormed stM (partOf stM 0) [0x400080, 0, 0, 0] = false ∧
    okWith (check stM (ctxOf stM stM.cur) { rd := true, scalar := true } 0x4000000000A80 8 false) (fun ps =>
      (readParts stM stM.cur true 0 false ps).1 == .ok (List.replicate 8 0)) = true ∧
    okWith (check stM (ctxOf stM stM.cur) { rd := true } 0x4000000000A80 32 false) (fun ps =>
      (readParts stM stM.cur true 0 false ps).1 == .ok (List.replicate 32 0)) = true ∧
    wordsOf (List.replicate 32 0) 4 = [0, 0, 0, 0] ∧
    Wbits (0x1FF0000 : Word) 24 16 = 0x1FF ∧ Wbits (0 : Word) 24 16 / 160 = stM.cur.core / 160 := by decide +kernel

/-- TasksComplete: a row that runs no task; one with a single handle, before and after its decrement and at its end. -/
def stTask (k : Nat) : State := modRow (fillWord (fillWord st st.cur 0x150 8) st.cur 0x152 0x200000) st.cur fun w =>
  { w with task := 0x80, rstep := k, work := if k = 2 then 2 else 0 }
theorem meets_TasksComplete : Going st ∧ isPoison st st.cur 0x150 = false ∧ (getRow st st.cur).task.getLsbD 7 = false ∧
    (∀ k < 4, Going (stTask k) ∧ isPoison (stTask k) st.cur 0x150 = false ∧ isPoison (stTask k) st.cur 0x152 = false ∧
      (getRow (stTask k) st.cur).task.getLsbD 7 = true ∧ Wbits (getW (stTask k) st.cur 0x150) 5 3 = 1 ∧
      getW (stTask k) st.cur 0x152 = 0x200000) ∧ scopeDone (stTask 0) st.cur 0 1 0 = true ∧
    okWith (check (stTask 0) (ctxOf (stTask 0) st.cur) { rd := true, wr := true, code := 3, scalar := true, atomic := true } 0x200000 8
      false) (fun _ => true) = true ∧ (getRow (stTask 2) st.cur).work.toNat % 4 = 2 := by decide +kernel

/-- Barriers: BSTATE of barriers 0 and 255 of the own core, counts at their limits, a valid barrier and an invalid one, a waiting row. -/
def stBar (b : Bar) : State := modCore (regs st [(8, 0x4000000801000), (9, 0x4000000801FF0), (3, 1)]) 0 fun c =>
  { c with bars := [(0, b)] }
/-- A core and barrier that a check answers. -/
def barIs (r : Except Trap (Nat × Nat × List Part)) (core k : Nat) : Bool :=
  match r with
  | .ok (c, j, _) => c == core && j == k
  | .error _ => false
theorem meets_Barriers : (∀ ph, let s := stBar ⟨true, ph, 0, 2⟩
      Can s [srcX 8 true, srcX 3 true] ∧ storeOrder s s.cur 0 s.nextId = true ∧
      barIs (barCheck s s.cur { wr := true, code := 1 } true (getX s s.cur 8)) 0 0 = true ∧
      barIs (barCheck s s.cur { rd := true, wr := true, code := 3 } true (getX s s.cur 9)) 0 255 = true ∧
      barIs (barCheck s s.cur { rd := true, wr := true, code := 3 } false 0x4000001801000) 1 0 = true ∧
      (smGet {} (getCore s 0).bars 0 : Bar).valid = true ∧ (smGet {} (getCore s 0).bars 0 : Bar).ph = ph) ∧
    (getX (stBar {}) st.cur 3).getLsbD 0 = true ∧ (smGet {} (getCore st 0).bars 0 : Bar).valid = false ∧
    storeOrder (stFifo 0x200000 .plain) st.cur 0 1 = false ∧ (1 : Nat) ≤ 65535 ∧ (65535 : Nat) < 65536 := by decide +kernel

/-- DequeInstructions: an empty, a partly full and a full deque; a victim next to the core and the last one. -/
def stDq (b t : Nat) : State := modCore (regs st [(3, 0x400000002), (4, 0x200000002)]) 0 fun c =>
  { c with dq := { c.dq with bottom := b, top := t } }
theorem meets_DequeInstructions : (∀ n ∈ [0, 1, 64], let s := stDq n 0
      Going s ∧ ready s s.cur [srcX 3 true, srcX 4 true] = true ∧ (getCore s 0).dq.count = n ∧ storeOrder s s.cur 0 s.nextId = true ∧
      (getRow s s.cur).rstep = 0) ∧ Wbits (getX (stDq 0 0) st.cur 3) 31 0 + 1 < Wbits (getX (stDq 0 0) st.cur 3) 63 32 ∧
    Wbits (getX (stDq 0 0) st.cur 4) 63 32 ≤ Wbits (getX (stDq 0 0) st.cur 4) 31 0 ∧ (getCore (stDq 0 0) 0).dq.popsteal = false ∧
    victim 0 1 = 1 ∧ victim 0 159 = 159 ∧ partOf st 1 = partOf st 0 := by decide +kernel

/-- CopiesAreHandedOver: lengths 0, 64 and 2^32; a copy from device memory to a row, with room in the engine and without, at a boundary
of the row and not, with a shootdown pending and not; a destination in a row and one in a control page that are no multiple of 8; a
distribution in, a pattern that is not valid, a block with a later piece that lies in a row. -/
def stC : State := regs stM [(11, 0x4000000001200), (12, 64), (13, 0x100000000)]
def stPat : State := setE stC st.cur 3 0x400000
/-- Page 0x10000 of the context lies in device memory, the next one in row 1 of core 0. -/
def stPaged : State := { (modPart stC 0 fun p => { p with root := 1 }) with
  tlb := (List.range 160).flatMap fun k => [⟨0, k, 0, 0x10000, 0x20005F, 3⟩, ⟨0, k, 0, 0x10001, 0x400000000105F, 3⟩] }
/-- A shootdown of context 0 that waits for a store of the row. -/
def shooting (s : State) : State :=
  { (modCore s 0 fun c => { c with fifo := [anEntry 0x200000 .plain] }) with nextId := 2, shoots := [⟨0, true, 0, 1, 1⟩] }
/-- A piece of 16 bytes from row 1 to row 2, with one chunk of 16 bytes to move. -/
def rowSpan (k n : Nat) : Part := ⟨wNat (rowPa ⟨0, k⟩ 0x200), rowPa ⟨0, k⟩ 0x200, n, 0, 0, 0, true, false, 1, 0⟩
def aPiece (after : List Nat) : CopyPiece := ⟨1, ⟨0, 0⟩, true, 0, rowSpan 1 16, rowSpan 2 16, 16, [(0, 16)], after, false, [], [(0, 16)], []⟩
theorem meets_CopiesAreHandedOver : Issues stC [srcX 11 true, srcX 8 true, srcX 12 true] ∧ (getX stC st.cur 5).toNat = 0 ∧
    2 ^ 32 ≤ (getX stC st.cur 13).toNat ∧ (getX stC st.cur 12).toNat = 64 ∧ cutStart 0x200000 0x4000000001200 0 = 0 ∧
    64 ≤ cutStart 0x200000 0x4000000001200 1 ∧
    (barTarget stC st.cur 0x4000000001204 matches some (.row _ _ _)) = true ∧ (barTarget stC st.cur 0x4000000001200 matches some (.row _ _ _)) = true ∧
    (barTarget stC st.cur 0x4000000801004 matches some (.ctl _ _)) = true ∧ shootPending stC 0 = false ∧ shootPending (shooting stC) 0 = true ∧
    Issues (shooting stC) [srcX 11 true, srcX 8 true, srcX 12 true] ∧ (markEmpty stC st.cur (rowSpan 1 64) 64).1 = true ∧
    (markEmpty (modRow stC ⟨0, 1⟩ fun w => { w with stalled := true }) st.cur (rowSpan 1 64) 64).1 = false ∧
    64 ≤ (getCl (modCl stC 0 fun c => { c with copyq := List.replicate 64 (aPiece []) }) 0).copyq.length ∧
    okWith (check stC (ctxOf stC st.cur) { rd := true, engine := true, ctlOk := true } 0x200000 64 false) (fun _ => true) = true ∧
    okWith (check stC (ctxOf stC st.cur) { wr := true, code := 1, engine := true, ctlOk := true } 0x4000000001200 64 false)
      (fun _ => true) = true ∧ (getCl stC 0).copyq.length < 64 ∧
    Issues stPat [srcX 11 true, srcX 8 true, srcX 12 true, srcE 3 true] ∧ patternOk (getE stPat st.cur 3) = true ∧
    patternOk (getE stPat st.cur 2) = false ∧
    blockFail stPat st.cur 0x400000 0x200000 0x4000000001200 0 0 = none ∧ (pieceAt 0x400001 0x10000FC0 0x4000000001200 1 0 0) = (0, 0) ∧
    blockFail stPaged st.cur 0x400001 0x10000FC0 0x4000000001200 0 0 = some ⟨4, cPERM, 0, 0, 0x10001000, 0⟩ ∧
    patternOk 0x400001 = true ∧ okWith (check stPaged (ctxOf stPaged st.cur) { rd := true, engine := true, dist := true } 0x10000FC0 64 false)
      (fun _ => true) = true ∧
    okWith (check stPat (ctxOf stPat st.cur) { rd := true, engine := true, dist := true } 0x200000 64 false) (fun _ => true) = true ∧
    okWith (check stPat (ctxOf stPat st.cur) { wr := true, code := 1, engine := true, distRow := true } 0x4000000001200 64 false)
      (fun _ => true) = true := by decide +kernel

/-- EngineInstructions: the engines idle and at work, joined and held, a row at step 2 with its status, the body of a batch. -/
def stMx (x : MxSeq) : State := modRow (modCore stM 0 fun c => { c with mx := x }) st.cur fun w => { w with rstep := 2 }
def stEdge (x : EdgeEng) : State := modCore stM 0 fun c => { c with edge := x }
theorem meets_EngineInstructions : Going stM ∧ Issues stM [srcX 8 true] ∧ (getRow stM st.cur).rstep ≠ 2 ∧
    (getX stM st.cur 10).toNat % 64 ≠ 0 ∧ (getX stM st.cur 10).toNat % 128 ≠ 0 ∧
    okWith (check stM (ctxOf stM st.cur) { rd := true } 0x200000 32 false) (fun _ => true) = true ∧
    dieDone stM st.cur 0 stM.nextId = true ∧ (getMx stM 0).st = .idle ∧ dieDone (stFifo 0x200000 .plain) st.cur 0 1 = false ∧
    (getMx (stMx { st := .running }) 0).st ≠ .idle ∧ Going (stMx { st := .running }) ∧
    (getRow (stMx { st := .running }) st.cur).rstep = 2 ∧ isEmpty (stMx {}) st.cur (xw 5) = false ∧
    getX (stMx {}) st.cur 5 ≠ 8 ∧ ¬ ((getMx (stMx {}) 0).st = .held) ∧ (getMx (stMx { st := .held, held := some ⟨5, 0, 0, 0⟩ }) 0).held ≠ none ∧
    okWith (check stM (ctxOf stM st.cur) { rd := true, wr := true, code := 3, engine := true } 0x200000 128 false) (fun ps =>
      match homeParts stM (rowAsker stM st.cur) 0x200000 ps with
        | (.ok bs, _) => bs.length == 128 && !descOk stM 0 (List.replicate 16 0)
        | _ => false) = true ∧ devDone stM st.cur 0 stM.nextId = true ∧ (getEdge stM 0).st = .idle ∧
    (getEdge (stEdge { st := .running }) 0).st ≠ .idle ∧
    descOk stM 0 [0x100000001, 0x200, 0, 4, 4, 0, 4, 4, 0, 4, 4, 8, 8, 8, 0, 0] = true ∧
    (getEdge (stEdge { st := .body }) 0).st = .body ∧ (getEdge (stEdge { st := .body }) 0).row = 0 ∧
    Issues (stEdge { st := .body }) [srcV 3 false, srcM 2 false, srcM 3 false] ∧ holdWord stM st.cur = none ∧
    gangIdle stM 0 = true ∧ gangIdle (stMx { st := .running }) 0 = false := by decide +kernel

/-- PrivilegedOperations: malformed words; ranges of one page, and of all; partitions without clusters, the own one, and another
one, running, stopping, stopped, releasing and swapping. -/
def stGang (f : Partn → Partn) (k : Nat) : State :=
  modRow (modPart (modCl (regs st [(4, 0x1000), (5, 1), (6, 2), (7, 1), (8, 0x101), (9, 0x300)]) 1 fun c =>
    { c with valid := true, part := 1 }) 1 f) st.cur fun w => { w with rstep := k }
theorem meets_PrivilegedOperations : (∀ k ∈ [0, 2], let s := stGang id k
      Going s ∧ (getRow s st.cur).priv = true ∧ (getRow s st.cur).rstep = k ∧ ready s st.cur [srcXX 4 false] = true ∧
      ready s st.cur [srcX 7 false] = true) ∧
    Wbits (0x1000 : Word) 11 1 = 0 ∧ Wbits (1 : Word) 51 40 = 0 ∧ Wbits (1 : Word) 39 0 ≠ 0 ∧
    canonFail (0x1000 &&& ~~~0xFFF#64) (0x1000 * 1) = none ∧ Wbits (2 : Word) 11 1 ≠ 0 ∧ (1 : Word).getLsbD 0 = true ∧
    (∀ d ∈ [true, false], let s : State := { (if d then stGang id 2 else shooting (stGang id 2)) with shoots := [⟨0, true, 0, 1, 1⟩] };
      let z := modRow s s.cur fun w => { w with work := 2 };
      (z.shoots.find? fun k => k.id == (getRow z z.cur).work.toNat - 1) = some ⟨0, true, 0, 1, 1⟩ ∧ shootDone z ⟨0, true, 0, 1, 1⟩ = d) ∧
    boundClusters (stGang id 0) 1 = [1] ∧ boundClusters (stGang id 0) 2 = [] ∧ shadowClusters (stGang id 0) 2 = [] ∧
    partOf (stGang id 0) 0 = some 0 ∧ boundClusters (stGang id 0) 0 = [0] ∧
    swapClusters (stGang id 0) 1 = none ∧ swapClusters (stGang (fun x => { x with stopped := true }) 0) 1 = some [1] ∧
    (getPart (stGang (fun x => { x with stopping := true }) 2) 1).stopped = false ∧ Wbits (0x101 : Word) 9 8 = 1 ∧
    Wbits (0x300 : Word) 9 8 = 3 ∧ Wbits (1 : Word) 9 8 = 0 ∧
    (getPart (stGang (fun x => { x with releasing := true }) 2) 1).releasing = true ∧
    (getPart (stGang (fun x => { x with swapping := true }) 2) 1).swapping = true := by decide +kernel

/-! ### Steps of the package -/

/-- StoresArePerformed: a store of each kind to another row of its die, one to the other die, one that waits for a load, and one on
its way. -/
def stFly : State := { st with flights := [⟨0, anEntry 0x4000000001200 .plain⟩] }
theorem meets_StoresArePerformed : (∀ k ∈ [StKind.plain, .feSet, .bitsSet, .bitsClr], let s := stFifo 0x4000000001108 k
      (getCore s 0).fifo = [anEntry 0x4000000001108 k] ∧ entReady s (anEntry 0x4000000001108 k) = true) ∧
    region st 0x4000000001108 = .row ⟨0, 1⟩ 0 0x108 ∧ 0x108 + (anEntry 0 .plain).bytes.length ≤ 0x1000 ∧
    aimedAsid st 0 0 = none ∧ rowBusy st ⟨0, 1⟩ (some ⟨0, 0⟩) = false ∧ stFly.flights.take 0 = [] ∧
    entReady (withReq st (.load 0 false) 0x200000 40) { anEntry 0x4000000001108 .plain with after := [0] } = false ∧
    region st 0x40000A0001200 = .row ⟨160, 1⟩ 0 0x200 ∧ dieOf 160 ≠ dieOf 0 ∧
    stFly.flights[0]? = some ⟨0, anEntry 0x4000000001200 .plain⟩ ∧ (getDie stFly 0).failed = false := by decide +kernel

/-- RequestsArePerformed: a word that no engine owes the row; a load of device memory, the delivery of its word, an `fe` load of another row with its word full and empty,
an atomic. -/
def aBuf : Req := { aReq (.load 0 false) 0x200000 40 with todo := [], buf := (List.range 8).map fun k => (k, 1) }
def stBuf : State := { setEmpty st st.cur 40 with reqs := [aBuf], nextId := 1 }
def stBuf2 : State := { stBuf with reqs := [aBuf, { aBuf with id := 1, buf := [] }], nextId := 2 }
theorem meets_RequestsArePerformed : (reqById stBuf 0 = some aBuf ∧ 40 ∈ aBuf.words ∧
      (aBuf.put.bytesOf 40).all (fun x => aBuf.buf.any fun y => y.1 == x.1) = true ∧
      fillBehind stBuf st.cur 0 0 st.cur 40 = false ∧ owed stBuf st.cur 0 0 st.cur 40 = false ∧ aimedPart stBuf 0 0 = false ∧
      reqById stBuf2 0 = some aBuf ∧ owed stBuf2 st.cur 0 0 st.cur 40 = true ∧ fillBehind stBuf2 st.cur 0 1 st.cur 40 = true ∧
      aBuf.cold = false) ∧
    (reqById (withReq st (.load 0 false) 0x200000 40) 0 = some (aReq (.load 0 false) 0x200000 40) ∧
      loadsBefore (withReq st (.load 0 false) 0x200000 40) st.cur 0 0 (aPart 0x200000) = false ∧
      ownBefore (withReq st (.load 0 false) 0x200000 40) st.cur 0 0 (aPart 0x200000) = false ∧ partCore st (aPart 0x200000) = none ∧
      lostFail st 0x200000 = false ∧ readOk (readPart (withReq st (.load 0 false) 0x200000 40) st.cur true 0 false (aPart 0x200000)).1 = true) ∧
    (reqById (withReq st (.load 1 false) 0x4000000001110 40) 0 = some (aReq (.load 1 false) 0x4000000001110 40) ∧
      (aReq (.load 1 false) 0x4000000001110 40).todo = [aPart 0x4000000001110] ∧
      loadsBefore (withReq st (.load 1 false) 0x4000000001110 40) st.cur 0 0 (aPart 0x4000000001110) = false ∧
      ownBefore (withReq st (.load 1 false) 0x4000000001110 40) st.cur 0 0 (aPart 0x4000000001110) = false ∧
      region st 0x4000000001110 = .row ⟨0, 1⟩ 0 0x110 ∧ isEmpty st ⟨0, 1⟩ 34 = false ∧ isEmpty (setEmpty st ⟨0, 1⟩ 34) ⟨0, 1⟩ 34 = true ∧
      aimedAsid st 0 0 = none ∧ (getDie st 0).failed = false ∧ rowBusy st ⟨0, 1⟩ (some st.cur) = false ∧ isPoison st ⟨0, 1⟩ 34 = false ∧
      rowWords 0x110 8 = [34]) ∧
    (reqById (withReq st (.atomic 0 1 0 .rne false 0) 0x200000 40) 0 = some (aReq (.atomic 0 1 0 .rne false 0) 0x200000 40) ∧
      loadsDone (withReq st (.atomic 0 1 0 .rne false 0) 0x200000 40) st.cur 0 0 = true ∧
      (let q := aReq (.atomic 0 1 0 .rne false 0) 0x200000 40;
        q.cold = false ∧ q.atBank = false ∧ atomicBehind (withReq st q.kind 0x200000 40) q (aPart 0x200000) false 0 = false ∧
        atomicBehind { stFly with nextId := 2 } { q with id := 1 } (aPart 0x4000000001200) false 0 = true ∧
        atomicBehind (withReq st (.load 0 false) 0x200000 40) { q with id := 1 } (aPart 0x200000) false 0 = true) ∧
      readOk (atomicAt st st.cur 0 1 0 .rne (aPart 0x200000)).1 = true) := by decide +kernel

/-- R234, the two loads into one register: the fill of the first leaves the word empty, the fill of the second sets it full. -/
theorem test_fill_order : (match execFill 0 (.deliver 40) stBuf2 with
    | .next t => isEmpty t st.cur 40 && getW t st.cur 40 == 0x0101010101010101
    | _ => false) = true := by decide +kernel

/-- R245: a `cas` that fails writes nothing, so it leaves no dirty line; one that succeeds does. -/
theorem test_cas_writes : (let f := fun e => (atomicAt st st.cur 9 1 e .rne (aPart 0x200000)).2.2.l2.any (·.dirty)
    (f 7, f 0)) = (false, true) := by decide +kernel

/-- CopiesMove: a chunk from a row to a row that may move, one whose row has an older store, one in a control page; a distributed one. -/
def stCopy (after : List Nat) : State := modCl (stFifo 0x200000 .plain) 0 fun c => { c with copyq := [aPiece after] }
/-- Its one part read. -/
def readPiece : CopyPiece := { aPiece [] with unread := [], got := [(0, List.replicate 16 1)] }
def stDist (after : List Nat) : State := modDie (stFifo 0x200000 .plain) 0 fun d =>
  { d with distq := [⟨1, ⟨0, 0⟩, true, 0, false, ⟨0x200000, 0x200000, 16, 0, 0, 0, true, false, 1, 0⟩, rowSpan 1 16, 16, [(0, 16)], after, false, []⟩] }
def moved? (x : Bool × State) : Bool := x.1
theorem meets_CopiesMove : (getCl (stCopy []) 0).copyq[0]?.map (fun x => x.todo[0]?) = some (some (0, 16)) ∧
    (aPiece []).unread.find? (overlaps 0 16) = some (0, 16) ∧ readPiece.unread.find? (overlaps 0 16) = none ∧
    (List.range 16).map (gotByte readPiece.got) = List.replicate 16 1 ∧
    olderLeft (stCopy []) st.cur [] = true ∧ olderLeft (stCopy [0]) st.cur [0] = false ∧
    readOk (engineRead (stCopy []) st.cur true (subPart (rowSpan 1 16) 0 16)).1 = true ∧
    moved? (engineWrite (stCopy []) st.cur 0 1 true [] (subPart (rowSpan 2 16) 0 16) (List.replicate 16 1)) = true ∧
    moved? (engineWrite (stCopy []) st.cur 0 1 true [rowWord ⟨0, 2⟩ 0x41] (subPart (rowSpan 2 16) 0 16) (List.replicate 16 1)) = true ∧
    pieceBehind (stCopy []) st.cur 0 1 (subPart (rowSpan 2 16) 0 16) = false ∧ rowBusy (stCopy []) ⟨0, 2⟩ none = false ∧
    pieceBehind (withReq st (.load 0 false) 0x200000 40) st.cur 0 1 (aPart (rowPa ⟨0, 0⟩ 0x140)) = true ∧ (aPiece []).cold = false ∧
    region st (rowPa ⟨0, 2⟩ 0x200) = .row ⟨0, 2⟩ 0 0x200 ∧ onPage st (subPart (rowSpan 1 16) 0 16) = false ∧ onPage st (aPart 0x4000000801010) = true ∧ lostFail (stCopy []) (rowPa ⟨0, 1⟩ 0x200) = false ∧
    aimedPartOf (stCopy []) (subPart (rowSpan 1 16) 0 16) = none ∧ (getDie (stDist []) 0).distq[0]?.map (fun x => x.todo[0]?) = some (some (0, 16)) ∧
    olderLeft (stDist [0]) st.cur [0] = false ∧ olderLeft (stDist []) st.cur [] = true ∧ lostFail (stDist []) 0x200000 = false ∧
    readOk (gddrRead (stDist []) 0x200000 16) = true ∧
    moved? (engineWrite (dirForce (stDist []) 0x200000) st.cur 0 1 true [] (subPart (rowSpan 1 16) 0 16) (List.replicate 16 1)) = true := by decide +kernel

/-- Source parts of 11, 16 and 5 bytes give their bytes to destination parts of 16 (R98). -/
theorem test_copyParts : chunks 16 0x105 32 6 0 = [(0, 11), (11, 16), (27, 5)] ∧
    (chunks 16 0x105 32 6 0).filter (overlaps 16 16) = [(11, 16), (27, 5)] ∧ gotByte [(0, [1, 2]), (2, [3])] 2 = 3 := by decide

/-- CommandsAct: a row in each state, with PRI, at rest and in a gang-stopped partition; the last row of the last core. -/
def inState (f : Row → Row) : State := modRow st ⟨0, 1⟩ f
theorem meets_CommandsAct : corePresent st 319 = true ∧ (255 : Nat) < 256 ∧ (getRow st ⟨0, 1⟩).stalled = false ∧
    (getRow st ⟨0, 1⟩).st = .stopped ∧ coreHalted st 0 = false ∧
    coreHalted (modPart st 0 fun p => { p with stopped := true }) 0 = true ∧
    (getRow (inState fun w => { w with st := .faulted, why := 4 }) ⟨0, 1⟩).st = .faulted ∧
    (getRow (inState fun w => { w with st := .waiting, why := 5, waitw := 40 }) ⟨0, 1⟩).st = .waiting ∧
    (getRow (inState fun w => { w with st := .faulted, why := 4 }) ⟨0, 1⟩).marked = [] ∧
    (getRow (inState fun w => { w with st := .faulted, why := 4 }) ⟨0, 1⟩).rstep ≠ 2 := by decide +kernel

/-- BanksSchedule: two READY rows of two classes, one of them held by a Thaw; slots in each state, also both opening and both closing;
the quantum at 255 and 256; a budget that is spent and one that is not. -/
def aSlot (st : SlotSt) (row : Nat) (issued : Bool) (cls : Nat) : Slot := ⟨st, row, issued, 3, false, 2, cls, cls⟩
/-- Bank 1 of core 0 with rows 5 (class 1, READY in state), 1 and 9, the two in the READY set, and two slots. -/
def stBank (a b : Slot) (q due : Nat) : State :=
  modRow (modRow (modBank st 0 1 fun x => { x with slot0 := a, slot1 := b, quantum := q, due := due, ready := [(1, some 7), (9, some 3)], classes := [(9, 2)] })
    ⟨0, 9⟩ fun w => { w with pri := 2 }) ⟨0, 5⟩ fun w => { w with st := .ready, why := 0, pri := 1, budget := 10 }
def bank1 (s : State) : Bank := getBank s 0 1
theorem meets_BanksSchedule : (∀ a ∈ [SlotSt.empty, .opening, .opn], let s := stBank (aSlot a 5 false 1) (aSlot .running 13 true 1) 0 1;
      pickRow s 0 (bank1 s) = some (9, 3) ∧ (bank1 s).slot0.st = a ∧ (bank1 s).slot1.st = .running ∧ (bank1 s).due ≠ 0 ∧
      classOf s 0 5 < classOf s 0 9 ∧ (getRow s ⟨0, 5⟩).st = .ready ∧ (getRow s ⟨0, 5⟩).orphan = false) ∧
    classOf (stBank {} {} 0 1) 0 1 ≤ classOf (stBank {} {} 0 1) 0 5 ∧
    pickRow (modRow (stBank (aSlot .opn 5 false 1) (aSlot .running 13 true 1) 0 1) ⟨0, 9⟩ fun w => { w with pri := 0 }) 0
      (bank1 (stBank {} {} 0 1)) = some (9, 3) ∧
    (∀ b ∈ [aSlot .opening 13 false 1, aSlot .running 13 true 1, aSlot .running 13 true 0, aSlot .opn 13 false 1, {}],
      let s := stBank (aSlot .opening 5 false 1) b 0 0;
      (bank1 s).slot0.st = .opening ∧ ((bank1 s).slot1.st ≠ .opening ∨ (bank1 s).slot0.seq ≤ (bank1 s).slot1.seq) ∧
      (bank1 s).slot0.quit = false ∧ (bank1 s).slot1 = b ∧ (getRow s ⟨0, 13⟩).stalled = false) ∧ 13 % 4 = 1 ∧
    (aSlot .opening 5 false 1).cls ≤ (aSlot .running 13 true 1).cls ∧ (aSlot .running 13 true 0).cls < (aSlot .opening 5 false 1).cls ∧
    (getRow (stBank {} {} 0 1) ⟨0, 1⟩).st ≠ .ready ∧ ({ aSlot .opening 5 false 1 with quit := true } : Slot).quit = true ∧
    (∀ b ∈ [aSlot .closing 13 false 1, aSlot .running 13 true 1], ∀ x ∈ [false, true],
      let s := stBank (aSlot .closing 5 x 1) b 0 0;
      (bank1 s).slot0.st = .closing ∧ (bank1 s).slot1 = b ∧ (bank1 s).slot0.issued = x ∧ (bank1 s).slot0.row % 4 = 1 ∧
      (bank1 s).slot1.row ≠ (bank1 s).slot0.row ∧ smGet none (bank1 s).ready 5 = none) ∧
    (∀ q ∈ [255, 256], let s := stBank (aSlot .running 5 true 1) {} q 0;
      (bank1 s).quantum = q ∧ (bank1 s).slot0.st = .running ∧ (getRow s ⟨0, 5⟩).stalled = false ∧ (getRow s ⟨0, 5⟩).pend = [] ∧
      rivalReady s ⟨0, 5⟩ = true ∧ rivalReady (quantumEvent s 0 1 0) ⟨0, 5⟩ = true ∧ stepCycles s 0 1 9 = min 9 (256 - q) ∧ (getRow s ⟨0, 5⟩).due = false ∧ 9 < (getRow s ⟨0, 5⟩).budget.toNat ∧
      (getRow s ⟨0, 5⟩).budget.toNat ≤ 10) ∧
    (let s := stBank {} (aSlot .running 5 true 1) 256 0; (bank1 s).runSlot = some 1 ∧ rivalReady s ⟨0, 5⟩ = true) ∧
    rivalReady (modBank (stBank (aSlot .running 5 true 1) {} 256 0) 0 1 fun b => { b with classes := [] }) ⟨0, 5⟩ = false := by decide +kernel

/-- A packet for channel 3 of partition 0, of 32 bytes, from row's core `from`. -/
def packetFrom (sender core : Option Nat) : Packet := ⟨[0x300, 0x200000, 0, 0], 0, core, sender, 0, false, false, none⟩
def aPacket (core : Option Nat) : Packet := packetFrom none core
/-- Channel 3 valid, with rows 0-63. -/
def stChan : State := modCore st 0 fun c => { c with chans := [(3, { cfg := 4, entry := 0x400001, pool0 := 0xFFFFFFFFFFFFFFFF })] }
def stBox (ps : List Packet) : State := modDie stChan 0 fun d => { d with inbox := ps }

/-- PacketsTravel: a held packet first of its inbox, with room and without; one to bind, behind another of its source and not; one
bound, from a core and from none, behind another and not, replayed and not, at a core with room and at one without. -/
theorem meets_PacketsTravel : (let s : State := { stChan with held := [⟨0, aPacket none⟩] }
      s.held[0]? = some ⟨0, aPacket none⟩ ∧ heldPart s ⟨0, aPacket none⟩ = some 0 ∧ s.held.take 0 = [] ∧ inboxCount s 0 0 < 2048) ∧
    2048 ≤ inboxCount (modDie st 0 fun d => { d with inbox := List.replicate 2048 (aPacket none) }) 0 0 ∧
    (let s := stBox [aPacket none, aPacket none];
      (getDie s 0).inbox[0]? = some (aPacket none) ∧ (getDie s 0).inbox[1]? = some (aPacket none) ∧ stokerChoice s 0 (aPacket none) = some 0 ∧
      (getDie s 0).inbox.take 0 = [] ∧ (getDie s 0).inbox.take 1 = [aPacket none]) ∧
    (∀ x ∈ [none, some 7], let s := stBox [packetFrom x (some 0), aPacket (some 0)];
      (getDie s 0).inbox[0]? = some (packetFrom x (some 0)) ∧ (getDie s 0).inbox[1]? = some (aPacket (some 0)) ∧
      (getDie s 0).inbox.take 1 = [packetFrom x (some 0)] ∧ (getCore s 0).failed = false ∧ withheld s (clOf 0) = false ∧
      aimedPart s 0 0 = false ∧ (getCore s 0).runq.length < 32) ∧
    withheld (modCl st 0 fun c => { c with hot := true }) (clOf 0) = true ∧ ({ aPacket none with replayed := true } : Packet).replayed = true ∧
    32 ≤ (getCore (modCore st 0 fun c => { c with runq := List.replicate 32 (aPacket none) }) 0).runq.length := by decide +kernel

/-- A packet of the channel in the run queue of core 0; the host ring of the die, of 16 slots at bus address 0x1000 times `b`. -/
def stRunq (hq : Word) (b : Nat) : State :=
  modDie (modCore stChan 0 fun c => { c with runq := [aPacket (some 0)] }) 0 fun d => { d with hostq := hq, hostqb := wNat (0x1000 * b) }
/-- A fault of row 2 that waits for row 1, the upcall row, whose entry is 0x1000. -/
def stUp (x : RStat) : State := modPart (modRow (modCore st 0 fun c => { c with faultq := [2] }) ⟨0, 2⟩ fun w => { w with st := x }) 0 fun p =>
  { p with upcall := 0x1001 }

/-- TasksAndUpcallsStart: a packet for a row, one for the host ring, within and past the range that rows can reach, and one at the
ring's gate; a fault in the queue and one that is gone. -/
theorem meets_TasksAndUpcallsStart : nextPacket (stRunq 0 0) 0 = some (0, aPacket (some 0)) ∧ isHostq (stRunq 0 0) 0 3 = false ∧
    freeRow (stRunq 0 0) 0 (chanOf (stRunq 0 0) 0 3) = some 1 ∧ (aPacket none).words.length = 4 * (Wbits 0x300#64 2 0 + 1) ∧
    (∀ b ∈ [0, 2 ^ 38 - 1, 2 ^ 38], let s := stRunq 0x48003 b;
      Wbits (getDie s 0).hostq 14 6 = 0 ∧ nextPacket s 0 = some (0, aPacket (some 0)) ∧ isHostq s 0 3 = true ∧
      Wbits (getDie s 0).hostqb 11 0 = 0 ∧ s.l2 = []) ∧ (aPacket none).words.length ≤ 32 ∧ dieOf 0 = 0 ∧
    (∀ x ∈ [RStat.faulted, .ready], (getCore (stUp x) 0).faultq = 2 :: [] ∧ partOf (stUp x) 0 = some 0 ∧
      (getCore (stUp x) 0).serving = false ∧ (getRow (stUp x) ⟨0, 1⟩).st = .stopped ∧ isOpen (stUp x) ⟨0, 1⟩ = false ∧
      coreHalted (stUp x) 0 = false ∧ Wbits (getPart (stUp x) 0).upcall 63 8 ≠ 0 ∧ (getRow (stUp x) ⟨0, 2⟩).st = x) := by decide +kernel

/-- PageFaultsAreResolved: a request that finds its entry, one that finds room, one that finds none, at the root and below it; the root
with the manager's queue off, on at a core, on at the host ring with room and without; a resolution at a core, with no upcall due. -/
def aFlue (router page : Nat) : FlueReq := ⟨0, router, 0, 0, 0, page, false, false⟩
def anEnt (page : Nat) (sent : Bool) : FlueEnt := ⟨0, 0, 0, page, false, false, [0], sent⟩
def stFlue (n mmq : Nat) : State := { (modPkg st fun q => { q with mmq := wNat mmq }) with
  flueReqs := [aFlue 0 0], flue := (List.range n).map fun k => anEnt k false, flueRes := [⟨0, 7, false, [0]⟩] }
theorem meets_PageFaultsAreResolved : (stFlue 1 0).flueReqs[0]? = some (aFlue 0 0) ∧ anEnt 0 false ∈ (stFlue 1 0).flue ∧
    ((stFlue 0 0).flue.filter fun e => e.die == 0 && e.router == 0).length < 16 ∧ (aFlue 5 0).router ≠ 0 ∧
    16 ≤ ((stFlue 17 0).flue.filter fun e => e.die == 0 && e.router == 0 && e.page != 0).length ∧
    (stFlue 1 0).flue = [] ++ anEnt 0 false :: [] ∧ (stFlue 1 0).pkg.mmq.getLsbD 15 = false ∧
    (stFlue 1 0x8003).pkg.mmq.getLsbD 15 = true ∧ Wbits (stFlue 1 0x8003).pkg.mmq 14 6 ≠ 0x1FF ∧
    (stFlue 1 0xFFC0).pkg.mmq.getLsbD 15 = true ∧ Wbits (stFlue 1 0xFFC0).pkg.mmq 14 6 = 0x1FF ∧
    hqRoom (stFlue 1 0xFFC0) 0 = false ∧ hqRoom (modDie (stFlue 1 0xFFC0) 0 fun d => { d with hostq := 0x48003 }) 0 = true ∧
    (stFlue 1 0).flueRes[0]? = some ⟨0, 7, false, [0]⟩ ∧ aimedAsid (stFlue 1 0) 0 0 = none ∧ asidOf (stFlue 1 0) 0 = 0 ∧
    upcallDue (stFlue 1 0) 0 = false ∧ toSupervisor (stFlue 1 0) ⟨0, 1⟩ 2 = false ∧ toSupervisor (stFlue 1 0) ⟨0, 0⟩ 2 = true ∧
    toSupervisor (stFlue 1 0) ⟨0, 1⟩ 12 = true ∧ Wbits (0x8003 : Word) 14 6 ≠ 0x1FF ∧
    (modPkg st fun q => { q with supq := 0x8003 }).pkg.supq.getLsbD 15 = true := by decide +kernel

/-- PartitionsStopAndSwap: a stop asked for, taken, finished by every core; a release; a swap, to the shadow and back; a log that takes a
store and one that cannot; a fill of a word to replay. -/
def stPart (f : Partn → Partn) : State := modPart st 0 f
/-- Partition 1 swapped out of cluster 0, its log at 0x300000, with `n` times 64 KiB, and a store of core 0 aimed at it. -/
def stAway (n : Nat) : State :=
  modCl (modPart (modCore st 0 fun c => { c with fifo := [⟨0, ⟨0, 0⟩, 0, true,
      ⟨wNat (rowPa ⟨0, 1⟩ 0x200), rowPa ⟨0, 1⟩ 0x200, 8, 0, 5, 0, true, false, 1, 0⟩, .plain, false, List.replicate 8 1, []⟩] }) 1 fun p =>
    { p with root := 0x50000000000003, arrlog := wNat (0x300000 + n) }) 0 fun c => { c with svalid := true, spart := 1 }
/-- Partition 1, gang-stopped on cluster 1 or, when `away`, in its shadow, is to be swapped. -/
def stSwap (away : Bool) : State := modPart (modCl st 1 fun c => { c with valid := !away, part := if away then 0 else 1, svalid := away, spart := 1 }) 1
  fun p => { p with stopped := true, swapping := true }
theorem meets_PartitionsStopAndSwap : partOf st 0 = some 0 ∧ (getPart st 0).stopping = false ∧
    (getPart (stPart fun p => { p with stopping := true }) 0).stopping = true ∧ (getPart (stPart fun p => { p with stopping := true }) 0).taken = [] ∧
    coreDrained st 0 0 = true ∧ coreDrained (stFifo 0x200000 .plain) 0 0 = false ∧ boundCores st 0 = List.range 8 ∧
    (getPart (stPart fun p => { p with stopping := true, halted := List.range 8 }) 0).halted = boundCores st 0 ∧
    (getPart (stPart fun p => { p with releasing := true }) 0).log = [] ∧ (getRow (inState fun w => { w with st := .faulted }) ⟨0, 1⟩).st = .faulted ∧
    (let s := stSwap false; (getPart s 1).swapping = true ∧ (getPart s 1).stopped = true ∧ (getPart s 1).releasing = false ∧
      boundClusters s 1 = [1] ∧ shadowClusters s 1 = [] ∧ (getCl s 1).svalid = false) ∧
    (let s := stSwap true; boundClusters s 1 = [] ∧ shadowClusters s 1 = [1] ∧ (getCl s 1).valid = false ∧ (getRow s ⟨8, 255⟩).stalled = false) ∧
    (let s := modCl (stSwap true) 1 fun c => { c with valid := true, part := 2 };
      (getPart s 1).swapping = true ∧ (getPart s 1).releasing = false ∧ boundClusters s 1 = [] ∧ shadowClusters s 1 = [1] ∧
      (getPart s 2).stopped = false ∧ (List.range' 8 8).all (coreDrained s 2) = true ∧
      coreDrained (modCore s 8 fun c => { c with fifo := [{ anEntry 0x200000 .plain with row := ⟨8, 0⟩, owner := 2 }] }) 2 8 = false) ∧ st.shadow = [] ∧
    (∀ n ∈ [0, 1], let s := stAway n;
      (getCore s 0).fifo.map (entReady s) = [true] ∧ (getCore s 0).fifo.map (fun e => aimedPartOf s e.part) = [some (0, 1)] ∧
      (getCore s 0).fifo.map (fun e => localStore s 0 e.part) = [true] ∧ s.cores.map (·.1) = [0] ∧
      (getCore s 0).fifo.map (fun e => logFits s 1 (.store e)) = [n == 1]) ∧
    (getPart (stPart fun p => { p with log := [.fill ⟨0, 1⟩ 40 9 (List.range 8)] }) 0).log = .fill ⟨0, 1⟩ 40 9 (List.range 8) :: [] ∧
    owed st ⟨0, 1⟩ 0 0 ⟨0, 1⟩ 40 = false ∧ boundClusters st 0 ≠ [] := by decide +kernel

/-- DamperSteps: targets 9, 10, 25 and 26, a clock that moves and one that does not, a waiting target; permits that BAL covers and not;
cap messages ahead by 1, by 2^31 - 1 and by 2^31; a lease that runs and one that is over; a hold in its last window and before; moves
of RATE that are made and not. -/
def stClk (k : Clk) : State := modCl st 0 fun c => { c with clk := k }
def stPermit (u : Nat) (c : Option Nat) : State := modCl st 0 fun x => { x with reqs := [⟨u, 0, c, 1, 0⟩], bud := { x.bud with bal := 5 } }
theorem meets_DamperSteps : Wbits (9 : Word) 7 0 < 10 ∧ 25 < Wbits (26 : Word) 7 0 ∧ 10 ≤ Wbits (10 : Word) 7 0 ∧
    Wbits (25 : Word) 7 0 ≤ 25 ∧ (getCl (stClk { busy := true }) 0).clk.busy = true ∧ (getCl st 0).clk.busy = false ∧
    min 25 (getCl st 0).clk.fmax ≠ (getCl st 0).clk.freq ∧ (getCl (stClk { busy := true }) 0).clk.pend = none ∧
    (getCl (stClk { busy := true, pend := some 20 }) 0).clk.pend = some 20 ∧ min 20 25 ≠ (getCl st 0).clk.freq ∧
    firstPermit (getCl (stPermit 5 none) 0).reqs = some ⟨5, 0, none, 1, 0⟩ ∧
    ((min 5 (getCl st 0).bud.cap : Nat) : Int) ≤ (getCl (stPermit 5 none) 0).bud.bal ∧
    (getCl (stPermit 6 none) 0).bud.bal < ((min 6 (getCl st 0).bud.cap : Nat) : Int) ∧
    firstPermit (getCl (stPermit 5 (some 3)) 0).reqs = some ⟨5, 0, some 3, 1, 0⟩ ∧
    (∀ p ∈ [((1 : Nat), true), (2 ^ 31 - 1, true), (2 ^ 31, false), (0, false)],
      decide (1 ≤ (2 ^ 32 + p.1 - Wbits st.pkg.capmsg 63 32) % 2 ^ 32 ∧ (2 ^ 32 + p.1 - Wbits st.pkg.capmsg 63 32) % 2 ^ 32 < 2 ^ 31) = p.2) ∧
    Wbits (0x10000 : Word) 31 16 ≠ 0 ∧ st.pkg.capOn = false ∧ (modPkg st fun q => { q with capOn := true }).pkg.capOn = true ∧
    (modPkg st fun q => { q with capOn := true }).pkg.lease = 0 ∧ (modPkg st fun q => { q with lease := 1 }).pkg.lease ≠ 0 ∧
    (∀ n ∈ [10, 11], (modPkg st fun q => { q with thawHold := some n }).pkg.thawHold = some n) ∧ st.pkg.thawHold = none ∧
    ((thawImage st 0 0).1.map List.length = some 272 ∧ (thawImage { st with poison := [33] } 0 0).1 = none) ∧
    thawPeers (modPkg st fun q => { q with flroute := [(3, 0x10000)] }) 0x100 = [3] ∧
    ((getCl st 0).bud.rate = 16 ∧ (getCl st 0).bud.crate + 2 * ((getCl st 0).bud.crate / 8) ≤ 2 * (getCl st 0).bud.rate ∧
      2 * ((getCl st 1).bud.rate + (getCl st 0).bud.crate / 8) ≤ 3 * (getCl st 1).bud.crate) ∧
    (1 ≤ (2 ^ 32 + 1 - st.pkg.thawSeq) % 2 ^ 32 ∧ (2 ^ 32 + 1 - st.pkg.thawSeq) % 2 ^ 32 < 2 ^ 31) ∧
    (0x100 : Word).getLsbD 8 = true ∧ Wbits (0 : Word) 7 0 = st.pkg.devidx.toNat % 256 ∧ Wbits (1 : Word) 7 0 ≠ st.pkg.devidx.toNat % 256 := by
  decide +kernel

/-- The table of R384: with Lo at 1,497.5 W, 500 W and FLOOR and a load of 300 W, the Ember load that it gives; Lo falls by 2.5 W. -/
theorem test_ember_table : ([149750, 125000, 50000, 40000].map fun lo =>
    (damperStep (modPkg st fun q => { q with lo := lo }) ⟨300, 256, []⟩).pkg.ember) = [119750, 95000, 20000, 0] ∧
    (damperStep (modPkg st fun q => { q with lo := 149750 }) ⟨300, 256, []⟩).pkg.lo = 149500 := by decide +kernel

/-- InboxQueues: queue 255 with its ring of 16 slots at 0x400000, of each kind, enabled and not, at work and idle; a LAP of the pass and of
another one; a malformed header, and a sound one with room; a packet read before that waits for room. -/
def aQueue (en nkind : Bool) (cur : Option Nat) : InQ :=
  { logn := 4, en := en, nkind := nkind, qbase := 0x400000, naddr := 0x500000, cur := cur }
/-- The header `h` at the head of the ring. -/
def stQueue (x : InQ) (h : Nat) : State := modPkg (gddrWrite st 0x400000 (leBytes 8 h)) fun q => { q with queues := [(255, x)] }
def slotHeader (s : State) (x : InQ) : Nat := leNat ((slotRead s x 1 0).1.take 8)
theorem meets_InboxQueues : (smGet {} (stQueue (aQueue true false none) 0).pkg.queues 255 : InQ) = aQueue true false none ∧
    (aQueue true true none).nkind = true ∧ (aQueue false false none).en = false ∧ (aQueue true false (some 1)).cur ≠ none ∧
    (aQueue true false (some 1)).pend = [] ∧
    region st 0x500000 = .gddr ∧ ((stQueue (aQueue true true none) 0).pkg.queues.filter fun e => e.2.en && e.2.nkind &&
      e.2.naddr.toNat / 8 == 0x500000 / 8) = [(255, aQueue true true none)] ∧
    slotHeader (stQueue (aQueue true false (some 1)) 0) (aQueue true false (some 1)) = 0 ∧
    slotHeader (stQueue (aQueue true false (some 1)) 0x40) (aQueue true false (some 1)) = 0x40 ∧
    slotHeader (stQueue (aQueue true false (some 1)) 0xC0) (aQueue true false (some 1)) = 0xC0 ∧
    Wbits (0 : Word) 6 6 ≠ 1 ∧ Wbits (0x40 : Word) 6 6 = 1 ∧ Wbits (0xC0 : Word) 6 6 = 1 ∧
    (aQueue true false (some 1)).head / 2 ^ 4 % 2 = 0 ∧ wellFormed st (some 0) [0x40, 0, 0, 0] = true ∧
    wellFormed st (some 0) [0xC0, 0, 0, 0] = false ∧ inboxCount st (pktDie st 0 0 0) 0 < 2048 ∧
    ({ aQueue true false (some 1) with tries := 64 } : InQ).tries = 64 ∧
    (∀ n ∈ [0, 2048], let s := modDie (stQueue { aQueue true false (some 1) with ready := some (aPacket none) } 0) 0 fun d =>
        { d with inbox := List.replicate n (aPacket none) };
      (smGet {} s.pkg.queues 255 : InQ).ready = some (aPacket none) ∧ (smGet {} s.pkg.queues 255 : InQ).pend = [] ∧
      inboxCount s (pktDie s 0 0 0) 0 = n) := by decide +kernel

/-- HostAccesses: paths with EN = 0 and 1 and both privileges, links up and down, every BAR at the ends of its ranges, a region of the
directory with and without its sibling; a row of a swapped-out partition whose log has room. -/
def stPath (v : Word) : State := modDie st 0 fun d => { d with hostpath := v, cxl := true }
theorem meets_HostAccesses : region st (rowPa ⟨0, 1⟩ 0x108) = .row ⟨0, 1⟩ 0 0x108 ∧ (agentPath (stPath 0) (.host 0)).en = false ∧
    (agentPath (stPath 1) (.host 0)).en = true ∧ (agentPath (stPath 1) (.host 0)).priv = false ∧ (agentPath (stPath 3) (.host 0)).priv = true ∧
    (getRow (inState fun w => { w with priv := true }) ⟨0, 1⟩).priv = true ∧ (getRow st ⟨0, 1⟩).priv = false ∧
    agentUp (stPath 0) (.host 0) = true ∧ agentUp State.reset (.host 0) = false ∧ lostFail st (rowPa ⟨0, 1⟩ 0x108) = false ∧
    (getRow (inState fun w => { w with stalled := true }) ⟨0, 1⟩).stalled = true ∧ onePart (rowPa ⟨0, 1⟩ 0x108) 8 ∧ onePart 0x200000 16 ∧
    (let s := modDie (stAway 1) 0 fun d => { d with hostpath := 0x50000000000001 };
      let p := agentPath s (.host 0);
      p.en = true ∧ p.asid = 5 ∧ aimedAsid s 0 p.asid = some 1 ∧ privAt s p.asid ⟨0, 1⟩ = false ∧
      logFits s 1 (.store (outEntry p (rowPa ⟨0, 1⟩ 0x108) (List.replicate 8 1) false)) = true ∧
      logFits s 1 (.outside ⟨p.asid, p.priv, p.core, rowPa ⟨0, 1⟩ 0x108, 8, none, 0, .rne⟩) = true) ∧
    ¬ onePart 0x200001 16 ∧ ((atomicAt st st.cur 8 1 0 .rne (aPart 0x200000)).2.2.l2.any fun l => l.pl == 0x200000 / 128 && l.die == 0 && l.dirty) = true ∧
    aimedAsid st 0 0 = none ∧ isPoison st ⟨0, 1⟩ 33 = false ∧ st.pkg.boot = none ∧ (getDie st 0).failed = false ∧
    st.pkg.minimal = false ∧ (getDie (stPath 1) 0).cxl = true ∧ lostFail st 0x2FFFFFFFF0 = false ∧ region st 0x2FFFFFFFF0 = .gddr ∧ 0x2FFFFFFFF0 + 16 ≤ 0x3000000000 ∧
    (0x200000 / 8) ∉ st.poison ∧ (getDie st 0).dir.length < 16384 ∧ region st (rowBase + 0x1108) = .row ⟨0, 1⟩ 0 0x108 ∧
    sysAssigned 0x100 = true ∧ sysAssigned 0x5F7 = true ∧ State.reset.pkg.boot ≠ none ∧
    (getDie (modDie st 0 fun d => { d with dir := [(0, 128), (128, 128), (0x10000, 0x10000)] }) 0).dir[0]? = some (0, 128) ∧
    (128, 128) ∈ (getDie (modDie st 0 fun d => { d with dir := [(0, 128), (128, 128)] }) 0).dir := by decide +kernel

/-- PeersAccess: a port off and on, memory, an atomic on a line that no one holds, a cell at 1, its ACTION sound and not, words of a row
full and empty, packets sound and malformed, an inbox that is full. -/
def stPort (v : Word) : State := modPkg st fun q => { q with flport := [(15, v)] }
theorem meets_PeersAccess : (portPathOf (stPort 0) 15).en = false ∧ (portPathOf (stPort 1) 15).en = true ∧ st.pkg.boot = none ∧
    region (stPort 1) 0x200000 = .gddr ∧ onePart 0x200000 16 ∧ (0x200000 / 8) ∉ st.poison ∧ 0x200000 % 8 = 0 ∧ st.l2 = [] ∧
    (getCore st 0).red = [] ∧ asidPart (stPort 1) (portPathOf (stPort 1) 15).asid = some 0 ∧
    leNat (memRead (stPort 1) 0x200000 8) = 0 ∧ leNat (memRead (stPort 1) 0x200000 8) ≠ 1 ∧ lostFail (stPort 1) 0x200000 = false ∧
    (wellFormed (stPort 1) (some 0) [0x1FF0000, 0, 0, 0] && 4 * (Wbits (0x1FF0000 : Word) 2 0 + 1) == 4) = true ∧
    st.pkg.minimal = false ∧ leNat (memRead (gddrWrite (stPort 1) 0x200000 [1]) 0x200000 8) = 1 ∧ 0x200000 % 16 = 0 ∧
    actionOk (stPort 1) (some 0) 0x40 = true ∧ actionOk (stPort 1) (some 0) 0x8000 = false ∧
    region (stPort 1) (rowPa ⟨0, 1⟩ 0x108) = .row ⟨0, 1⟩ 0 0x108 ∧ aimedAsid (stPort 1) 0 0 = none ∧
    (getRow (stPort 1) ⟨0, 1⟩).stalled = false ∧ (getRow (stPort 1) ⟨0, 1⟩).priv = false ∧ onePart (rowPa ⟨0, 1⟩ 0x108) 8 ∧
    isEmpty (stPort 1) ⟨0, 1⟩ 33 = false ∧ isEmpty (setEmpty (stPort 1) ⟨0, 1⟩ 33) ⟨0, 1⟩ 33 = true ∧
    wellFormed (stPort 1) (some 0) [0x80, 0, 0, 0] = false ∧ inboxCount st 1 0 < 2048 := by decide +kernel

/-! ### Engines: almanacs, tiles, graphs and descriptors lie in row 1 of core 0 -/

/-- Pointer of byte `off` of row 1. -/
def row1 (off : Nat) : Word := wNat (rowPa ⟨0, 1⟩ off)
/-- `st` with words of row 1 from word 64 on. -/
def stData (ws : List Word) : State := ws.zipIdx.foldl (fun s x => fillWord s ⟨0, 1⟩ (64 + x.2) x.1) st
/-- `s` with every place of cluster 0 as `f` says. -/
def places (s : State) (f : Nat → MxSeq) : State := (List.range 8).foldl (fun t n => modCore t n fun c => { c with mx := f n }) s
/-- A LOAD_B of one row of BF16 of 256 bytes from offset 0x400 for place 0, and an END, after a header of two steps and one MAC. -/
def anAlmanac : State := stData [0x100000002, 0, 0, 0, 0x1000101, row1 0x400, 15, 0]
def stepIs (x : StepGot) (w0 w1 : Word) : Bool :=
  match x with
  | .step a b => a == w0 && b == w1
  | _ => false
def stepBad? (x : StepGot) : Bool :=
  match x with
  | .bad => true
  | _ => false
def gotOk {α : Type} : Got α → Bool
  | .ok _ => true
  | _ => false

/-- MatrixSteps, beginnings: eight places joined with one pointer and with two, one not joined; the prefetch of an almanac with a tile. -/
theorem meets_GangsBegin : (∀ n < 8, (getMx (places st fun _ => { st := .joining }) n).st = .joining ∧
      (getMx (places st fun _ => { st := .joining }) n).almanac = 0) ∧
    (getMx (places st fun k => { st := .joining, almanac := wNat (64 * k) }) 7).almanac ≠ 0 ∧ (getMx st 0).st ≠ .joining ∧
    (let s := places anAlmanac fun _ => { st := .prefetch, almanac := row1 0x200 };
      (getMx s 0).active .prefetch = true ∧ (∀ n < 8, (getMx s n).cur = none) ∧ gotOk (readHdr s 0).1 = true ∧
      stepIs (readStep s 0 2 0).1 0x1000101 (row1 0x400) = true ∧ stepIs (readStep s 0 2 1).1 15 0 = true ∧
      stepBad? (readStep s 0 2 2).1 = true) := by decide +kernel

/-- MatrixSteps, tiles: the first and the last part of the last row and of a row before it, in the prefetch and at LOAD_B; a fault of the
check and one of the read, a source outside a core aperture, a shootdown pending. -/
def atLoad (st' : MxSt) (w0 w1 : Word) (part : List Byte) : State :=
  places anAlmanac fun n => { st := st', almanac := row1 0x200, hdr := some (2, 1), fmt := if part = [] then 0 else 1,
                              cur := if n = 0 then some (w0, w1) else none, part := if n = 0 then part else [] }
theorem meets_TilesLoad : (∀ st' ∈ [MxSt.prefetch, .running], ∀ w0 ∈ [(0x1000101 : Nat), 0x10001000101], ∀ k ∈ [0, 240],
      let s := atLoad st' (wNat w0) (row1 0x400) (List.replicate k 0);
      let va := row1 0x400 + wNat k;
      (getMx s 0).active st' = true ∧ (∀ n < 8, n ≠ 0 → (getMx s n).cur = none) ∧ (getMx s 0).gm ≠ 0 ∧ Wbits (wNat w0) 6 4 = 0 % 8 ∧
      (getMx s 0).tile = none ∧ (getMx s 0).cur = some (wNat w0, row1 0x400) ∧ Wbits (wNat w0) 3 0 = 1 ∧ shootPending s (asidOf s 0) = false ∧
      okWith (check s (ctxOf s (mxRow s 0)) { rd := true, engine := true, mtag := some (Wbits (row1 0x400) 59 56) } va 1 false) (fun _ => true) = true ∧
      (if k = 0 then tileFmt s 0 (wNat w0) (row1 0x400) = some 1 else (getMx s 0).fmt = 1) ∧ tileOut s 0 (wNat w0) va = false ∧
      Wbits (wNat w0) 46 40 < ktOf 1 ∧ Wbits (wNat w0) 46 40 = (if w0 = 0x1000101 then 0 else 1) ∧ rowNeed 1 128 [] = 256 ∧
      (let cs := (tileSegs (getMx s 0) 1 (wNat w0) (row1 0x400) (Wbits va 55 12)).map fun x =>
          check s (ctxOf s (mxRow s 0)) { rd := true, engine := true, mtag := some (Wbits (row1 0x400) 59 56) } x.1 x.2 false;
        let p := pagePart (spanOf ((okParts cs).headD []) 1) va (256 - k);
        let s0 := modMx s 0 fun m => { m with page := some (spanOf ((okParts cs).headD []) 1) };
        trapsOf cs = [] ∧ (getMx s 0).page = none ∧ (getMx s0 0).page.isSome = true ∧
        gotOk (engParts s0 (mxAsker s0 0) 0 va [p]).1 = true ∧ getMx (engParts s0 (mxAsker s0 0) 0 va [p]).2 0 = getMx s0 0)) ∧
    (laneFault (trapsOf ((tileSegs {} 1 (0x1000101 + 2 ^ 40) 0x2FFFFFFF80 (Wbits (0x2FFFFFFF80 : Word) 55 12 + 1)).map fun x =>
      check st (ctxOf st (mxRow st 0)) { rd := true, engine := true } x.1 x.2 false))).isSome = true ∧
    fails (check st (ctxOf st (mxRow st 0)) { rd := true, engine := true } 0x3000000000 1 false) = true ∧
    waits? (check (walking st) (ctxOf (walking st) (mxRow st 0)) { rd := true, engine := true } 0x200000 1 false) = true ∧
    ((engRead (walking st) 0 0x200000 0x200000 8).1 matches .wait) = true ∧
    (let s := atLoad .running 0x1000101 (row1 0x400) [];
      gotOk (engParts { s with poison := [rowWord ⟨0, 1⟩ 128] } (mxAsker s 0) 0 (row1 0x400)
        [{ aPart (rowPa ⟨0, 1⟩ 0x400) with n := 16 }]).1 = false) ∧
    tileOut st 0 0x1000001 0x200000 = true ∧ shootPending (shooting st) (asidOf (shooting st) 0) = true := by decide +kernel

/-- A place of a running gang that stands at the step `w0`, `w1`. -/
def atKind (w0 w1 : Word) (f : MxSeq → MxSeq) : State :=
  places st fun n => f { st := .running, hdr := some (4, 2), cur := if n = 0 then some (w0, w1) else none }
def stands (s : State) (kind : Nat) (w0 w1 : Word) : Bool :=
  (getMx s 0).active .running && stepIs (reachStep s 0).1 w0 w1 && Wbits w0 3 0 == kind && ((getMx s 0).gm != 0 || kind == 5 || kind == 15)
/-- A MAC of BF16 rows, a DRAIN of 32 columns as f32 into row 1, a GROUP of 0 and of 512 rows. -/
def macW : Word := 0x1000000000 + 2
def drainW : Word := wNat (2 ^ 32 * 128 + 2 ^ 18 * 32 + 4)
theorem meets_PlacesStep : (getMx st 0).active .running = false ∧
    (let s := places anAlmanac fun _ => { st := .running, almanac := row1 0x200, hdr := some (2, 1), step := 2 };
      (getMx s 0).active .running = true ∧ stepBad? (reachStep s 0).1 = true) ∧
    (let s := places anAlmanac fun _ => { st := .running, almanac := 0x3000000000, hdr := some (2, 1), d := 5 };
      ((reachStep s 0).1 matches .fault _) = true ∧ (getMx s 0).d ≠ 0 ∧ (getMx s 0).d < 32) ∧
    (let s := modRow (places anAlmanac fun _ => { st := .running, almanac := row1 0x200, hdr := some (2, 1) }) ⟨0, 1⟩ fun w =>
        { w with stalled := true };
      (getMx s 0).active .running = true ∧ ((reachStep s 0).1 matches .wait) = true) ∧
    stands (atKind 0x1000111 0 id) 1 0x1000111 0 = true ∧ Wbits (0x1000111 : Word) 6 4 ≠ 0 ∧
    stands (atKind 0x1000101 0 fun m => { m with tile := some (0, ⟨1, 1, 0, 0, []⟩) }) 1 0x1000101 0 = true ∧
    stands (atKind macW 0 id) 2 macW 0 = true ∧ (getCore (atKind macW 0 id) 0).latch = none ∧ (getMx (atKind macW 0 id) 0).macs < 2 ∧
    stands (atKind macW 0 fun m => { m with macs := 2 }) 2 macW 0 = true ∧ Wbits macW 38 36 = 1 ∧ pairOk 1 1 = true ∧ pairOk 1 6 = false ∧
    (let s := modCore (atKind macW 0 id) 0 fun c => { c with latch := some ⟨1, 1, 0, 0, List.replicate 128 0⟩ };
      stands s 2 macW 0 = true ∧ (getCore s 0).latch.isSome = true ∧ 64 * (0 % 8) < (getMx s 0).gm ∧ rowNeed 1 1 [] = 2 ∧
      (getRow s ⟨0, 0⟩).stalled = false ∧ rsaPoison s 0 0 2 = false ∧ rsaPoison { s with poison := [rowWord ⟨0, 0⟩ 0] } 0 0 2 = true ∧
      accError (getCore s 0) 0 128 = false ∧ accError (getCore (modCore s 0 fun c => { c with accBad := [127] }) 0) 0 128 = true ∧
      accError (getCore (modCore s 0 fun c => { c with accBad := [128] }) 0) 0 128 = false) ∧
    stands (atKind 0x2000005 0 id) 5 0x2000005 0 = true ∧ stands (atKind 5 0 id) 5 5 0 = true ∧
    stands (atKind 15 0 id) 15 15 0 = true ∧ (∃ n < 8, n ≠ 0 ∧ (getMx (atKind 15 0 id) n).st ≠ .finishing) ∧
    (∀ n < 8, n ≠ 0 → (getMx (places (atKind 15 0 id) fun n => { st := if n = 0 then .running else .finishing }) n).st = .finishing) ∧
    (getMx (atKind 3 0 fun m => { m with gm := 0 }) 0).gm = 0 := by decide +kernel

/-- MatrixSteps, drains: a target in the own aperture, marked and then written; one in device memory. -/
def drainAt (p : Word) (n : Nat) (f : MxSeq → MxSeq) : State := atKind drainW p fun m => f { m with gm := n }
theorem meets_Drains : stands (drainAt (row1 0x200) 1 id) 4 drainW (row1 0x200) = true ∧
    drainRowSize 0 32 = 128 ∧ okWith (drainParts (drainAt (row1 0x200) 1 id) 0 drainW (row1 0x200) 0)
      (fun ps => ps.all fun p => region st p.pa matches .row ⟨0, 1⟩ _ _) = true ∧
    okWith (drainParts (drainAt 0x200000 1 id) 0 drainW 0x200000 0)
      (fun ps => ps.any fun p => region st p.pa == .gddr) = true ∧
    (getMx (drainAt (row1 0x200) 1 fun m => { m with tgt := [[aPart (rowPa ⟨0, 1⟩ 0x200)]] }) 0).tgt = [aPart (rowPa ⟨0, 1⟩ 0x200)] :: [] ∧
    (laneFault (trapsOf [drainParts (drainAt 0x3000000000 1 id) 0 drainW 0x3000000000 0])).map (·.waits) = some false ∧
    (laneFault (trapsOf [drainParts (walking (drainAt 0x200000 1 id)) 0 drainW 0x200000 0])).map (·.waits) = some true ∧
    (let s := drainAt (row1 0x200) 1 id;
      engineBusy s (aPart (rowPa ⟨0, 1⟩ 0x200)) = false ∧ engineBusy (modRow s ⟨0, 1⟩ fun w => { w with stalled := true }) (aPart (rowPa ⟨0, 1⟩ 0x200)) = true ∧
      pieceBehind s (mxRow s 0) (partIx s 0) (getMx s 0).since (aPart (rowPa ⟨0, 1⟩ 0x200)) = false ∧
      owed s (mxRow s 0) (partIx s 0) (getMx s 0).born ⟨0, 1⟩ 64 = false) ∧
    0x108 ≤ 0x200 ∧ 0x200 + (aPart 0).n ≤ 0x1000 := by decide +kernel

/-- MatrixSteps, the ring: eight places at one ROTATE, one at another; the watchdog off, not counting, counting, at its end. -/
theorem meets_TheRingTurns : (∀ n < 8, atRotate (getMx (places st fun _ => { st := .running, cur := some (3, 0), step := 2 }) n) = true) ∧
    (atRotate (getMx (places st fun n => { st := .running, cur := some (3, 0), step := n }) 7) = true) ∧
    (getMx (places st fun n => { st := .running, cur := some (3, 0), step := n }) 7).step ≠
      (getMx (places st fun n => { st := .running, cur := some (3, 0), step := n }) 0).step ∧
    (getMx (places st fun _ => { st := .permit }) 3).st ∈ [MxSt.held, .joining, .prefetch, .permit] ∧
    (getMx (places st fun _ => { st := .running, stuck := true }) 3).stuck = true ∧ (getCl st 0).dog + (2 ^ 22 - 1) < 2 ^ 22 ∧
    2 ^ 22 ≤ (getCl st 0).dog + 2 ^ 22 ∧ (∀ n < 8, (getMx st n).active .running = false) := by decide +kernel

/-- A graph of two vertices and one edge from 0 to 1: offsets and neighbours, values, the frontier {0}, two empty maps; then the
descriptor of a run on core 0 with chunks of one vertex. -/
def aDesc : List Word := [0x100000002, 0x200, 0, row1 0x200, row1 0x210, 0, row1 0x220, row1 0x230, 0, row1 0x240, row1 0x250, row1 0x260,
  row1 0x268, row1 0x270, 0, 0]
def aGraph : State := stData ([0x100000000, 1, 1, 0, 0, 1, 0, 0, 0, 0, 0, 0, 1, 0, 0, 0] ++ List.replicate 16 0 ++ aDesc)
/-- The edge engine of core 0 on that run. -/
def onEdge (f : EdgeEng → EdgeEng) : State := modCore aGraph 0 fun c =>
  { c with edge := f { st := .running, d := 5, desc := row1 0x300, words := aDesc } }
def eng (s : State) : EdgeEng := getEdge s 0
def okM {α : Type} (x : Except Stop α × State) : Bool :=
  match x.1 with
  | .ok _ => true
  | .error _ => false
def faultM {α : Type} (x : Except Stop α × State) : Bool :=
  match x.1 with
  | .error (.fault _) => true
  | _ => false
/-- A chunk of the run in the engine's own deque. -/
def withChunk (s : State) : State := modCore s 0 fun c => { c with dq := { ents := [(0, ⟨1, 0, 0xED00⟩)], bottom := 1 } }

/-- EdgeSteps, beginnings: a core that leads its run, joined and starting; a descriptor that can be prepared, and one whose counters lie
in a hole. -/
theorem meets_EdgeStarts : runCores aDesc = [0] ∧ dCore0 aDesc = 0 ∧ aDesc ≠ [] ∧ descOk aGraph 0 aDesc = true ∧
    (eng (onEdge fun e => { e with st := .joining })).st = .joining ∧ (eng (onEdge fun e => { e with st := .starting })).active .starting = true ∧
    okM (prepareRun 0 aDesc (row1 0x300) (onEdge fun e => { e with st := .starting })) = true ∧
    faultM (prepareRun 0 aDesc 0x3000000000 (onEdge fun e => { e with st := .starting })) = true := by decide +kernel

/-- EdgeSteps, chunks: no chunk left; one in the own deque, taken in push with its edge and in pull without; the test for pull. -/
theorem meets_EdgeChunks : (eng (onEdge id)).free = true ∧ (eng (onEdge id)).ending = none ∧ (nextChunk (onEdge id) 0 0xED00 [0]).1 = none ∧
    (nextChunk (withChunk (onEdge id)) 0 0xED00 [0]).1 = some 0 ∧ (getCore (withChunk (onEdge id)) 0).dq.count ≠ 0 ∧
    ((eTest 0 (eng (onEdge id)) (onEdge id)).1 matches .ok false) = true ∧
    ((eDegrees 0 (row1 0x200) (row1 0x260) true 1 0 (onEdge id)).1 matches .ok (1, 1)) = true ∧
    okM (eTakeMfr 0 (eng (onEdge id)) 1 (onEdge id)) = true ∧
    ((eDegrees 0 (row1 0x220) (row1 0x270) false 1 1 (onEdge id)).1 matches .ok (1, 1)) = true ∧
    ((eTest 0 (eng (onEdge id)) (fillWord (onEdge id) ⟨0, 1⟩ (64 + 46) 0x500000001)).1 matches .ok _) = true := by decide +kernel

/-- EdgeSteps, batches: the lane of the edge, no lane, a value that cannot be read; a returned batch with an access to do and with none. -/
def inChunk (c : Nat) (ws : List Word) : State := onEdge fun e => { e with words := ws, chunk := some c, granted := true, vert := c }
theorem meets_EdgeBatches : (eng (inChunk 0 aDesc)).active .running = true ∧ (eng (inChunk 0 aDesc)).res = none ∧
    okM (formBatch 0 (eng (inChunk 0 aDesc)) 0 32 (inChunk 0 aDesc)) = true ∧
    ((eLanes 0 aDesc false 1 (2 ^ 34) 32 0 none true (inChunk 0 aDesc)).1 matches .ok ([_], 1, none)) = true ∧
    ((eLanes 0 aDesc false 2 (2 ^ 34) 1 1 none true (inChunk 1 aDesc)).1 matches .ok ([], _, _)) = true ∧
    faultM (formBatch 0 (eng (inChunk 0 (aDesc.set 9 0x3000000000))) 0 32 (inChunk 0 (aDesc.set 9 0x3000000000))) = true ∧
    ((pushActs [7] 1 0 [(0, 1)]) matches [.red 1 7, .nxt 1]) = true ∧
    okM (applyAct 0 (eng (inChunk 0 aDesc)) (.red 1 7) (inChunk 0 aDesc)) = true ∧
    ((eCheck 0 accRmw 0x200000 (4 * 1) 4 (inChunk 0 (aDesc.set 10 0x200000))).1 matches .ok [_]) = true ∧ inAperture st (aPart 0x200004) = false ∧ isPoison (inChunk 0 aDesc) (edgeRow (inChunk 0 aDesc) 0) 3 = false ∧ (inChunk 0 aDesc).answers = [] ∧
    batchBehind (inChunk 0 aDesc) 0 = false ∧ batchBehind { withReq (inChunk 0 aDesc) (.load 0 false) 0x200000 (vw 0) with nextId := 1 } 0 = true ∧
    ((ePair 0 (row1 0x200) 1 (inChunk 0 aDesc)).1 matches .ok (1, 1)) = true ∧ okM (eCheck 0 accAmo (row1 0x268) 0 8 (inChunk 0 aDesc)) = true ∧
    okM (eAtomic 0 2 2 [aPart (rowPa ⟨0, 1⟩ 0x268)] (inChunk 0 aDesc)) = true ∧
    ((eBit 0 (row1 0x268) 1 (inChunk 0 aDesc)).1 matches .ok false) = true := by decide +kernel

/-- EdgeSteps, levels: a run to end; every engine finished; the leader's work with and without a next frontier, and with a counter in a
hole; a switch. -/
theorem meets_EdgeLevels : endingOf (onEdge fun e => { e with ending := some 5 }) aDesc = some 5 ∧ endingOf (onEdge id) aDesc = none ∧
    (eng (onEdge id)).free = true ∧ (getCore (onEdge id) 0).dq.count = 0 ∧ (eng (onEdge id)).switch = false ∧
    (eng (onEdge fun e => { e with st := .levelEnd })).active .levelEnd = true ∧
    okM (endLevel 0 (eng (onEdge fun e => { e with st := .levelEnd, nf1 := 1 })) (onEdge fun e => { e with st := .levelEnd, nf1 := 1 })) = true ∧
    okM (endLevel 0 (eng (onEdge fun e => { e with st := .levelEnd })) (onEdge fun e => { e with st := .levelEnd })) = true ∧
    faultM (endLevel 0 (eng (onEdge fun e => { e with desc := 0x3000000000 })) (onEdge id)) = true ∧
    okM (midSwitch 0 (eng (onEdge fun e => { e with switch := true })) (onEdge fun e => { e with switch := true })) = true ∧
    faultM (midSwitch 0 (eng (onEdge fun e => { e with desc := 0x3000000000 })) (onEdge id)) = true := by decide +kernel

/-! ### Dates, errors, start, words -/

/-- A pass of its own identity with date 3 and floor 0 at die 0, one for host lines, a Frost pass. -/
def stPass (now : Nat) (lag : SMap (Option Nat)) (done : List Nat) : State :=
  { (modPkg st fun q => { q with date := now, lag := lag, frost := some ⟨64, done⟩ }) with
    passes := [⟨0, ⟨0, 0⟩, 0, 0, true, 3, 0, List.replicate 128 0, 0, done⟩, ⟨1, ⟨0, 0⟩, 0, 0, false, 0, 0, [], 0xFFFFFFFF, done⟩], nextId := 2 }

/-- DatesAndPasses: a slice that trails, moved on and too far; passes that wait, that act, that are done; an arrival first in its row and
one that is not. -/
theorem meets_DatesAndPasses : smGet none (stPass 5 [(0, some 2)] []).pkg.lag 0 = some 2 ∧ smGet none st.pkg.lag 0 = none ∧
    (2 ^ 32 + 5 - 2) % 2 ^ 32 = 3 ∧ (2 ^ 32 + 6 - 2) % 2 ^ 32 = 4 ∧ sliceDate (stPass 5 [(0, some 2)] []) 0 = 2 ∧
    ((stPass 5 [] []).passes.find? fun y => y.id == 0 && y.own).isSome = true ∧
    2 ^ 31 ≤ (2 ^ 32 + sliceDate (stPass 5 [(0, some 2)] []) 0 - 3) % 2 ^ 32 ∧ (2 ^ 32 + sliceDate (stPass 5 [] []) 0 - 3) % 2 ^ 32 < 2 ^ 31 ∧
    (0 / 160 = 0) ∧ ([] : List Nat).contains 0 = false ∧ [0].contains 0 = true ∧
    ((stPass 5 [] []).passes.find? fun y => y.id == 1 && !y.own && y.die == 0 / 160).isSome = true ∧
    (stPass 64 [] []).pkg.frost = some ⟨64, []⟩ ∧ (2 ^ 32 + sliceDate (stPass 64 [] []) 319 - 64) % 2 ^ 32 < 2 ^ 31 ∧
    2 ^ 31 ≤ (2 ^ 32 + sliceDate (stPass 5 [] []) 319 - 64) % 2 ^ 32 ∧
    ((withReq st (.arrive 0 1) 0x4000000801010 40).reqs.find? fun x => x.id == 0) = some (aReq (.arrive 0 1) 0x4000000801010 40) ∧
    storeOrder (withReq st (.arrive 0 1) 0x4000000801010 40) st.cur 0 0 = true ∧ dieOf 0 = dieOf st.cur.core ∧ aimedPart st 0 0 = false ∧
    (let q := { aReq (.arrive 0 1) 0x4000000801010 40 with part := 1 };
      let s : State := { setEmpty (stAway 1) st.cur 40 with reqs := [q] };
      aimedPart s 0 q.part = true ∧ storeOrder s q.row q.part q.id = true ∧ logBefore s q.row q.part q.id q.part = false ∧ logFits s q.part (.arrival q.row 0 1) = true) := by
  decide +kernel

/-- ErrorsAndFailures: every site of an error; a row of a task, resident and with a place in a gang and a request to die 1; a peer with a
route and one without, a request to each. -/
def stLost (pa : Nat) : State := { (modCore (modRow (stPort 0) ⟨0, 1⟩ fun w => { w with st := .waiting, why := 5, waitw := 40, task := 0x80 }) 0
    fun c => { c with mx := { st := .joining, row := 1 }, runq := [aPacket (some 0)] }) with
  reqs := [{ aReq (.load 0 false) pa 40 with row := ⟨0, 1⟩ }],
  pkg := { st.pkg with flroute := [(3, 0x10000)] } }
/-- The same request of a row whose partition is swapped out of cluster 0. -/
def stGone : State := { modCl (stLost 0x201000) 0 fun c => { c with svalid := true, spart := 1 } with
  reqs := [{ aReq (.load 0 false) 0x201000 40 with row := ⟨0, 1⟩, part := 1 }], shadow := [(0, { rows := [(1, { task := 0x80 })] })] }
def lostPart (s : State) (x : Nat) (p : Part) : Bool :=
  match region s p.pa with
  | .peerMem i => i == x
  | _ => false
theorem meets_ErrorsAndFailures : corePresent st 319 = true ∧ region st 0x200000 = .gddr ∧ (511 : Nat) < 512 ∧ (5 : Nat) < 6 ∧
    (let s := stLost 0x201000;
      corePresent s 0 = true ∧ ⟨0, 1⟩ ∈ liveRows s 0 ∧ ⟨0, 1⟩ ∈ gangMates s 0 ∧ (∀ r ∈ gangMates s 0, r.row < 256) ∧ (getRow s ⟨0, 1⟩).task.getLsbD 7 = true ∧
      (getRow s ⟨0, 1⟩).orphan = false ∧ (getCore s 0).runq = [aPacket (some 0)] ∧ (getDie (stBox [aPacket (some 0)]) 0).inbox = [aPacket (some 0)] ∧
      (⟨0, 1⟩, 0) ∈ dependents s .gddr 18 ∧ runsTask s (⟨0, 1⟩, 0) = true ∧ (∀ y ∈ dependents s .gddr 18, y.1.row < 256) ∧ routed s 3 = true ∧ routed s 4 = false ∧
      homeDie s 0x201000 = some 1 ∧ homeDie s 0x200000 = some 0 ∧
      (s.reqs.filter fun x => rkey x.row == rkey ⟨0, 1⟩ && x.todo.any fun y => homeDie s y.pa == some 1) =
        [{ aReq (.load 0 false) 0x201000 40 with row := ⟨0, 1⟩ }] ∧ s.flights = [] ∧ (getDie s 1).failed = false ∧
      (aReq (.load 0 false) 0x201000 40).todo.find? (fun y => homeDie s y.pa == some 1) = some (aPart 0x201000) ∧
      dieOf 0 ≠ 1 ∧ (getRow s ⟨0, 1⟩).st = .waiting ∧ (getRow s ⟨0, 1⟩).why = 5 ∧ (getRow s ⟨0, 1⟩).rel = none ∧ (getRow s ⟨0, 1⟩).pend = [] ∧ aimedPart s 0 0 = false) ∧
    (let pa := 0xC000000000000 + 3 * 2 ^ 40;
      let s := stLost pa;
      (⟨0, 1⟩, 1) ∈ dependents stGone .gddr 18 ∧ partOf stGone 0 ≠ some 1 ∧ shadowRow stGone ⟨0, 1⟩ 1 = some { task := 0x80 } ∧
      (s.reqs.filter fun x => rkey x.row == rkey ⟨0, 1⟩ && x.todo.any (lostPart s 3)) = [{ aReq (.load 0 false) pa 40 with row := ⟨0, 1⟩ }] ∧
      (aReq (.load 0 false) pa 40).todo.find? (lostPart s 3) = some (aPart pa)) := by decide +kernel

/-- StartAndReset: the first stage, the zeroing stages, the last, and the attempts; a key that resets and one that does not. -/
theorem meets_StartAndReset : State.reset.pkg.boot = some ⟨1, 1, 0⟩ ∧ st.pkg.boot = none ∧ (319 : Nat) < 320 ∧
    (modPkg State.reset fun q => { q with boot := some ⟨4, 2, 7⟩ }).pkg.boot = some ⟨4, 2, 7⟩ ∧ (getPart State.reset 0).stopped = false ∧
    (getPart State.reset 0).taken = [] ∧ State.reset.rows = [] ∧ (∀ k ∈ [1, 3, 4, 5, 6], ∀ a ∈ [1, 3, 4], (modPkg State.reset fun q => { q with boot := some ⟨a, k, 0⟩ }).pkg.boot = some ⟨a, k, 0⟩) ∧
    (0xA501 : Word).getLsbD 0 = true ∧ Wbits (0xA501 : Word) 15 8 = 0xA5 ∧ Wbits (0x5A01 : Word) 15 8 ≠ 0xA5 := by decide +kernel

/-- DeviceRegisters: the last core; a cluster that may be bound and one that may not; registers of every kind. -/
theorem meets_DeviceRegisters : corePresent st 319 = true ∧ (39 : Nat) < 40 ∧ bindOk st 39 (some 0) = true ∧ bindOk st 39 none = true ∧
    bindOk st 0 (some 0) = false ∧ (getCl st 39).valid = (0 : Word).getLsbD 8 ∧ (getCl st 39).part = Wbits (0 : Word) 5 0 ∧
    (getCl st 39).valid ≠ (0x100 : Word).getLsbD 8 ∧ (getCore st 312).red = [] ∧
    (getCore st 312).red.length ≤ 32 ∧ sysAssigned 0x383 = true ∧ sysAssigned 0x101 = true ∧ sysAssigned 0x102 = true ∧
    sysAssigned 0x5F7 = true := by decide +kernel

/-- DecodeAndEncodeAgree: an instruction with a word, and one that decodes from four bytes. -/
theorem meets_DecodeAndEncodeAgree : (Instr.aluAdd false false false 4 3 5).hasWord = true ∧ (Instr.aluAdd false false false 4 3 5).wf = true ∧
    decode (leBytes 4 0x00041943) = some (.aluAdd false false false 4 3 5, []) := by decide +kernel

/-- StepRunsDecodedInstruction: bytes of a 32-bit and of a 16-bit instruction and of none at PC; a row that may not run, one that gives the
position up, one with a trap due; a PC in a hole and one whose line the host may hold; a device step. -/
def fetched (s : State) : Option (List Byte) :=
  match (fetch (startIssue (yieldPosition { s with agenda := [] } 0 0) ⟨0, 0⟩) ⟨0, 0⟩).1 with
  | .got bs => some bs
  | _ => none
/-- Row 0 about to run a word at `pc`. -/
def atPc (pc : Nat) : State := modRow (State.reset.withFetchWord 32 0) ⟨0, 0⟩ fun w => { w with pc := wNat pc }
theorem meets_StepRunsDecodedInstruction : (∀ w ∈ [wi 5 0 0 2 0x02, wh 0 31 1 1, 0x01], let s := State.reset.withFetchWord 32 w;
      nextTurn s = .run ⟨0, 0⟩ ∧ canRun { s with agenda := [] } ⟨0, 0⟩ = true ∧
      inPosition (yieldPosition { s with agenda := [] } 0 0) ⟨0, 0⟩ = true ∧ (getRow s ⟨0, 0⟩).due = false ∧
      fetched s = some (leBytes (if w % 2 = 1 then 4 else 2) w)) ∧
    decode (leBytes 4 (wi 5 0 0 2 0x02)) = some (.alui 5 false 0 2, []) ∧ decode (leBytes 4 0x01) = none ∧
    canRun (modRow st ⟨0, 0⟩ fun w => { w with st := .stopped }) ⟨0, 0⟩ = false ∧
    (let s := modBank stRival 0 0 fun b => { b with quantum := 256 };
      canRun s ⟨0, 0⟩ = true ∧ inPosition (yieldPosition s 0 0) ⟨0, 0⟩ = false) ∧
    (getRow (stDated 0x200000) ⟨0, 0⟩).rel.isSome = true ∧ (getRow st ⟨0, 0⟩).rel = none ∧
    (getRow (modRow st ⟨0, 0⟩ fun w => { w with due := true }) ⟨0, 0⟩).due = true ∧ (getRow st ⟨0, 0⟩).stalled = false ∧
    ((fetch (startIssue { atPc 0x3000000000 with agenda := [] } ⟨0, 0⟩) ⟨0, 0⟩).1 matches .bad _ 2) = true ∧
    ((fetch (startIssue (modDie { atPc 0x200000 with agenda := [] } 0 fun d => { d with inval := [(0x200000, 128)] }) ⟨0, 0⟩) ⟨0, 0⟩).1 matches
      .wait) = true ∧
    okWith (check st (ctxOf st st.cur) { ex := true, code := 2 } (wNat codePa) 4 false) (fun ps => ps.length == 1 &&
      ps.all fun p => fetchHeld st 0 p == none) = true ∧
    nextTurn { st with agenda := [.dev (.selection 0 0)] } = .dev (.selection 0 0) ∧ ofRow (.selection 0 0) = false := by decide +kernel

/-- StepKeepsMemoryForm and StepKeepsControlBlocks: the reset package has both, and steps. -/
theorem meets_invariants : Memory.wf State.reset = true ∧ Memory.wf st = true ∧
    (step State.reset matches .next _) = true ∧ (step st matches .next _) = true := by decide +kernel
theorem meets_RowsOk : RowsOk { rows := [(0, { st := .ready, pc := 0x100000 })] } :=
  ⟨fun k => by simp only [smGet]; split <;> simp [RowOk], fun c k => by simp [smGet, RowOk]⟩

end Sys2Proof.Tests
end

-- ==== Proofs of 01_address_spaces ====
namespace Sys2Proof.Proofs
open Sys2Proof.Machine Sys2Proof.Claims

/-! ## What stops a memory instruction (O21) -/

theorem holdGate_block {s : State} {r : RowId} {w : Nat} (h : holdWord s r = some w) (body : State) :
    holdGate s r body = block s r w := by
  unfold holdGate; rw [h]

/-- A row that blocks waits for the word, and counts as stalled no longer. -/
theorem getRow_block {s : State} {r : RowId} (hp : (getRow s r).pend = []) (w : Nat) : getRow (block s r w) r =
    { getRow s r with st := .waiting, why := 5, waitw := w, stalled := false } := by
  unfold block
  rw [actPend_nil]
  · simp [bump, getRow_leave]
  · simpa [bump, getRow_leave] using hp

/-- A row whose store found the FIFO full is tried again, while an older load of word 33 is in flight. -/
def heldStalledStore : State :=
  { rows := [(0, { st := .ready, stalled := true })]
    empt := [rowWord ⟨0, 0⟩ 33]
    nextId := 1
    reqs := [⟨0, ⟨0, 0⟩, false, 0, .load 1 false, [⟨0, 0x200000, 8, 0, 0, 0, false, false, 1, 0⟩], [], .x 1 8 false, [33], 0,
      false, false⟩] }

/-- Refutes O21: a stalled row that comes to wait on its hold is stalled no longer, where the claim leaves the rest of its control
block, and so `stalled`, as it was. -/
theorem not_memoryInstructionsMayStop : ¬ Obligations.MemoryInstructionsMayStop := by
  unfold Obligations.MemoryInstructionsMayStop
  rintro ⟨⟨hold, -⟩, -⟩
  have hw : holdWord heldStalledStore heldStalledStore.cur = some 33 := by decide
  obtain ⟨t, he, hp⟩ := hold heldStalledStore (.st 0 0 3 false 8 3) [srcX 3 false, srcX 8 false] 33 (by decide) rfl rfl hw
  have ht : t = block heldStalledStore heldStalledStore.cur 33 := by
    have hb : Host.Outcome.next (holdGate heldStalledStore heldStalledStore.cur _) = .next t := he
    rw [holdGate_block hw] at hb
    injection hb with h
    exact h.symm
  have hr := congrArg Row.stalled hp.row
  rw [ht, getRow_block rfl] at hr
  exact absurd hr (by decide)

/-! ## Copies handed over (O32) -/

/-- Row 0 of core 0 distributes one block of 64 bytes into words 64 to 71 of row 0 of cluster 1, whose partition 1 is swapped out.
Partition 1's log ring lies at virtual 0x301000 on die 1; the line of die 0's memory that holds the root of its table is the host's. -/
def loggedTarget : State :=
  [(33, 0x201000), (34, 64), (35, 0x4000008000200), (64, 0x400000)].foldl (fun s x => putW s s.cur x.1 x.2)
    { mem := [(0x304000, 0x01), (0x304001, 0x80), (0x304002, 0x30), (0x308000, 0x5F), (0x308001, 0x01)]
      rows := [(0, { st := .ready, priv := true })]
      clusters := [(0, { valid := true }), (1, { svalid := true, spart := 1 })]
      parts := [(0, { root := 3 }), (1, { root := 0x304001, arrlog := 0x301001 })]
      dies := [(0, { cxl := true, dir := [(0x304000, 128)] })] }

/-- The four parts of 16 bytes of a block's side that starts at `va`, identity-mapped at `pa` by a bypass. -/
def blockParts (va : Word) (pa : Nat) : List Part :=
  (List.range 4).map fun k => ⟨va + wNat (16 * k), pa + 16 * k, 16, 16 * k, 0, 0, true, false, 1, 0⟩

/-- Marking the target words empty logs the arrivals, and the walk to the log ring takes the table's line back from the host. -/
theorem loggedTarget_forces : (match exec (.engineCpDist 0 false false 2 1 3) loggedTarget with
    | .next u => (getDie u 0).dir
    | _ => [(0x304000, 128)]) = [] := by decide +kernel

/-- Refutes O32: a piece of `engine.cp.dist` whose target words are a swapped-out partition's is handed to the distributor of die 1,
but the arrivals' log changes die 0 too: its host line of the log ring's table is given up, where the claim leaves every die but the
memory's as it was. -/
theorem not_copiesAreHandedOver : ¬ Obligations.CopiesAreHandedOver := by
  unfold Obligations.CopiesAreHandedOver
  rintro ⟨-, dist⟩
  have moves := (dist loggedTarget 0 false false 2 1 3 (by decide +kernel)).2 (by decide +kernel) (by decide +kernel)
    (by decide +kernel) (by decide +kernel) (by decide +kernel)
  have checked := moves.2 (by decide +kernel) (blockParts 0x201000 0x201000) (blockParts 0x4000008000200 0x4000008000200)
    (by decide +kernel) (by decide +kernel)
  have noShoot := (checked.2 (by decide +kernel)).2 (by decide +kernel)
  obtain ⟨t, piece, he, -, -, -, -, -, -, -, -, -, -, hdies, -⟩ := noShoot.2 (by decide +kernel)
  have hdir : (getDie t 0).dir = (getDie loggedTarget 0).dir := congrArg Die.dir (hdies 0 (by decide +kernel))
  have hf := loggedTarget_forces
  rw [he] at hf
  change (getDie t 0).dir = [] at hf
  rw [hf] at hdir
  exact absurd hdir (by decide)

/-! ## System registers (O12) -/

/-! ### What a read gives -/

/-- The system registers of the partitions' records: SY.ROOT, SY.ROWVA, SY.UPCALL, SY.ARRLOG, SY.HALTBASE (R212). -/
abbrev PartReg (n : Nat) : Prop := 0x140 ≤ n ∧ n < 0x1C0 ∨ 0x500 ≤ n ∧ n < 0x5C0

/-- The registers of the two dies' host paths (R212). -/
abbrev DieReg (n : Nat) : Prop := n = 0x201 ∨ n = 0x202 ∨ n = 0x204 ∨ n = 0x205 ∨ n = 0x206 ∨ n = 0x207

/-- The package's registers that hold what is written: device index, ports, routes, queues (R212). -/
abbrev PkgReg (n : Nat) : Prop :=
  n = 0x200 ∨ 0x210 ≤ n ∧ n < 0x220 ∨ n = 0x220 ∨ n = 0x221 ∨ n = 0x5C0 ∨ n = 0x5C1

/-- The field of a partition's record that the block `j` of 64 registers shows. -/
def partField (q : Partn) (j : Nat) : Word :=
  if j = 5 then q.root else if j = 6 then q.rowva else if j = 20 then q.upcall else if j = 21 then q.arrlog
  else if j = 22 then q.haltbase else 0

/-- The field of the package record that register `n` of `PkgReg` shows. -/
def pkgField (q : Pkg) (n : Nat) : Word :=
  if n = 0x200 then q.devidx else if 0x210 ≤ n ∧ n < 0x220 then smGet 0 q.flport (n - 0x210) else if n = 0x220 then q.flridx
  else if n = 0x221 then smGet 0 q.flroute q.flridx.toNat else if n = 0x5C0 then q.supq else if n = 0x5C1 then q.mmq
  else 0

/-- The die that register `n` of `DieReg` belongs to. -/
def dieNo (n : Nat) : Nat := if n < 0x204 then n - 0x201 else (n - 0x204) / 2

/-- Which of its die's three fields register `n` of `DieReg` shows. -/
def dieKind (n : Nat) : Nat := if n < 0x204 then 2 else n % 2

/-- A die's fields by kind: its host queue's size and base, and its host path. -/
def dieField (d : Die) (j : Nat) : Word := if j = 0 then d.hostq else if j = 1 then d.hostqb else if j = 2 then d.hostpath else 0

section read
variable (s : State) (core : Nat) {n : Nat}

theorem sysRead_root (priv : Bool) (h : 0x140 ≤ n ∧ n < 0x180) :
    sysRead s core priv n = if mayRead s core priv (n - 0x140) then (getPart s (n - 0x140)).root else 0 := by
  simp (disch := omega) only [sysRead, if_pos, if_neg]

theorem sysRead_rowva (priv : Bool) (h : 0x180 ≤ n ∧ n < 0x1C0) :
    sysRead s core priv n = if mayRead s core priv (n - 0x180) then (getPart s (n - 0x180)).rowva else 0 := by
  simp (disch := omega) only [sysRead, if_pos, if_neg]

theorem sysRead_upcall (h : 0x500 ≤ n ∧ n < 0x540) : sysRead s core true n = (getPart s (n - 0x500)).upcall := by
  simp (disch := omega) only [sysRead, if_pos, if_neg]

theorem sysRead_arrlog (h : 0x540 ≤ n ∧ n < 0x580) : sysRead s core true n = (getPart s (n - 0x540)).arrlog := by
  simp (disch := omega) only [sysRead, if_pos, if_neg]

theorem sysRead_haltbase (h : 0x580 ≤ n ∧ n < 0x5C0) : sysRead s core true n = (getPart s (n - 0x580)).haltbase := by
  simp (disch := omega) only [sysRead, if_pos, if_neg]

theorem sysRead_part (h : PartReg n) : sysRead s core true n = partField (getPart s (n % 64)) (n / 64) := by
  obtain h | h | h | h | h : 0x140 ≤ n ∧ n < 0x180 ∨ 0x180 ≤ n ∧ n < 0x1C0 ∨ 0x500 ≤ n ∧ n < 0x540 ∨
    0x540 ≤ n ∧ n < 0x580 ∨ 0x580 ≤ n ∧ n < 0x5C0 := by omega
  · rw [sysRead_root s core true h, show n / 64 = 5 by omega, show n - 0x140 = n % 64 by omega]; rfl
  · rw [sysRead_rowva s core true h, show n / 64 = 6 by omega, show n - 0x180 = n % 64 by omega]; rfl
  · rw [sysRead_upcall s core h, show n / 64 = 20 by omega, show n - 0x500 = n % 64 by omega]; rfl
  · rw [sysRead_arrlog s core h, show n / 64 = 21 by omega, show n - 0x540 = n % 64 by omega]; rfl
  · rw [sysRead_haltbase s core h, show n / 64 = 22 by omega, show n - 0x580 = n % 64 by omega]; rfl

theorem sysRead_die (h : DieReg n) : sysRead s core true n = dieField (getDie s (dieNo n)) (dieKind n) := by
  rcases h with rfl | rfl | rfl | rfl | rfl | rfl <;> rfl

theorem sysRead_pkg (h : PkgReg n) : sysRead s core true n = pkgField s.pkg n := by
  rcases h with rfl | h | rfl | rfl | rfl | rfl
  case inr.inl => simp (disch := omega) only [sysRead, pkgField, if_pos, if_neg]
  all_goals rfl

/-- A register outside the partitions' records does not show a change of one. -/
theorem sysRead_modPart (h : ¬ PartReg n) (p : Nat) (f : Partn → Partn) :
    sysRead (modPart s p f) core true n = sysRead s core true n := by
  have h5 : ¬ (0x140 ≤ n ∧ n < 0x180) := by omega
  have h6 : ¬ (0x180 ≤ n ∧ n < 0x1C0) := by omega
  have h20 : ¬ (0x500 ≤ n ∧ n < 0x540) := by omega
  have h21 : ¬ (0x540 ≤ n ∧ n < 0x580) := by omega
  have h22 : ¬ (0x580 ≤ n ∧ n < 0x5C0) := by omega
  simp only [sysRead, if_neg h5, if_neg h6, if_neg h20, if_neg h21, if_neg h22,
    getDie_modPart, getCore_modPart, getCl_modPart, modPart_pkg, l2fill, modPart_l2]

/-- A register outside the host paths does not show a change of one. -/
theorem sysRead_modDie (h : ¬ DieReg n) (i : Nat) {f : Die → Die}
    (hf : ∀ d, f d = { d with hostpath := (f d).hostpath, hostq := (f d).hostq, hostqb := (f d).hostqb }) :
    sysRead (modDie s i f) core true n = sysRead s core true n := by
  have hd : ∀ j, (getDie (modDie s i f) j).frost = (getDie s j).frost ∧ (getDie (modDie s i f) j).acq = (getDie s j).acq ∧
      (getDie (modDie s i f) j).serr = (getDie s j).serr := by
    intro j
    rw [getDie_modDie]
    split
    · rename_i h; subst h; rw [hf]; exact ⟨rfl, rfl, rfl⟩
    · exact ⟨rfl, rfl, rfl⟩
  obtain ⟨h1, h2, h3⟩ := hd (dieOf core)
  obtain ⟨g1, g2, g4, g5, g6, g7⟩ : n ≠ 0x201 ∧ n ≠ 0x202 ∧ n ≠ 0x204 ∧ n ≠ 0x205 ∧ n ≠ 0x206 ∧ n ≠ 0x207 := by omega
  simp only [sysRead, if_neg g1, if_neg g2, if_neg g4, if_neg g5, if_neg g6, if_neg g7, h1, h2, h3,
    getPart_modDie, getCore_modDie, getCl_modDie, modDie_pkg, l2fill, modDie_l2, mayRead, Bool.true_or]

/-- A register that is none of these fields of the package does not show a change of them. -/
theorem sysRead_modPkg (h : ¬ PkgReg n) {f : Pkg → Pkg}
    (hf : ∀ q, f q = { q with
      devidx := (f q).devidx, flport := (f q).flport, flridx := (f q).flridx, flroute := (f q).flroute
      peerLost := (f q).peerLost, supq := (f q).supq, mmq := (f q).mmq }) :
    sysRead (modPkg s f) core true n = sysRead s core true n := by
  obtain ⟨g0, g1, g2, g3, g4, g5⟩ :
    n ≠ 0x200 ∧ ¬ (0x210 ≤ n ∧ n < 0x220) ∧ n ≠ 0x220 ∧ n ≠ 0x221 ∧ n ≠ 0x5C0 ∧ n ≠ 0x5C1 := by omega
  have h1 : (f s.pkg).date = s.pkg.date := by rw [hf]
  have h2 : (f s.pkg).slopeFloor = s.pkg.slopeFloor := by rw [hf]
  have h3 : (f s.pkg).slopeDown = s.pkg.slopeDown := by rw [hf]
  have h4 : (f s.pkg).slopeUp = s.pkg.slopeUp := by rw [hf]
  have h5 : (f s.pkg).capmsg = s.pkg.capmsg := by rw [hf]
  have h6 : (f s.pkg).safecap = s.pkg.safecap := by rw [hf]
  have h7 : (f s.pkg).bootcause = s.pkg.bootcause := by rw [hf]
  have h8 : pstatWord (f s.pkg) = pstatWord s.pkg := by rw [hf]; rfl
  have h9 : thawWord (f s.pkg) = thawWord s.pkg := by rw [hf]; rfl
  have hp : (modPkg s f).pkg = f s.pkg := rfl
  simp only [sysRead, if_neg g0, if_neg g1, if_neg g2, if_neg g3, if_neg g4, if_neg g5, hp, h1, h2, h3, h4, h5, h6, h7, h8, h9,
    getPart_modPkg, getDie_modPkg, getCore_modPkg, getCl_modPkg, l2fill, modPkg_l2, mayRead, Bool.true_or]
end read

/-! ### Writes -/

/-- In `t` register `n` reads `v`, every other register but the route that a new route index selects reads as in `s`, and
nothing but the records of partitions, dies and package has changed. -/
structure RegisterHolds (s t : State) (core n : Nat) (v : Word) : Prop where
  here : sysRead t core true n = v
  others : ∀ k, k ≠ n → ¬ (n = 0x220 ∧ k = 0x221) → sysRead t core true k = sysRead s core true k
  rest : t = { s with dies := t.dies, parts := t.parts, pkg := t.pkg }

section write
variable (s : State) (core : Nat) {n : Nat} {v : Word}

theorem modPart_holds (hn : PartReg n) {f : Partn → Partn} (hv : ∀ q, partField (f q) (n / 64) = v)
    (ho : ∀ q, ∀ j ≠ n / 64, partField (f q) j = partField q j) : RegisterHolds s (modPart s (n % 64) f) core n v where
  here := by rw [sysRead_part _ _ hn, getPart_modPart_self, hv]
  others k hk _ := by
    by_cases hp : PartReg k
    · rw [sysRead_part _ _ hp, sysRead_part _ _ hp, getPart_modPart]
      split
      · rename_i e
        rw [ho _ _ (by omega), e]
      · rfl
    · exact sysRead_modPart s core hp _ f
  rest := rfl

theorem dieReg_ext {n k : Nat} (hn : DieReg n) (hk : DieReg k) (h : dieNo k = dieNo n) (h' : dieKind k = dieKind n) : k = n := by
  unfold dieNo at h
  unfold dieKind at h'
  split_ifs at h h' <;> omega

theorem modDie_holds (hn : DieReg n) {f : Die → Die}
    (hf : ∀ d, f d = { d with hostpath := (f d).hostpath, hostq := (f d).hostq, hostqb := (f d).hostqb })
    (hv : ∀ d, dieField (f d) (dieKind n) = v) (ho : ∀ d, ∀ j ≠ dieKind n, dieField (f d) j = dieField d j) :
    RegisterHolds s (modDie s (dieNo n) f) core n v where
  here := by rw [sysRead_die _ _ hn, getDie_modDie_self, hv]
  others k hk _ := by
    by_cases hp : DieReg k
    · rw [sysRead_die _ _ hp, sysRead_die _ _ hp, getDie_modDie]
      split
      · rename_i e
        rw [ho _ _ (fun h => hk (dieReg_ext hn hp e h)), e]
      · rfl
    · exact sysRead_modDie s core hp _ hf
  rest := rfl

theorem modPkg_holds (hn : PkgReg n) {f : Pkg → Pkg}
    (hf : ∀ q, f q = { q with
      devidx := (f q).devidx, flport := (f q).flport, flridx := (f q).flridx, flroute := (f q).flroute
      peerLost := (f q).peerLost, supq := (f q).supq, mmq := (f q).mmq })
    (hv : ∀ q, pkgField (f q) n = v)
    (ho : ∀ q k, k ≠ n → ¬ (n = 0x220 ∧ k = 0x221) → pkgField (f q) k = pkgField q k) :
    RegisterHolds s (modPkg s f) core n v where
  here := by rw [sysRead_pkg _ _ hn]; exact hv _
  others k hk hr := by
    by_cases hp : PkgReg k
    · rw [sysRead_pkg _ _ hp, sysRead_pkg _ _ hp]; exact ho _ k hk hr
    · exact sysRead_modPkg s core hp hf
  rest := rfl
end write

section write
variable (s : State) (core : Nat) {n : Nat} (v : Word)

/-- The registers that keep what is written have no rule of their own. -/
theorem sysWrite_plain (priv : Bool) (h : PartReg n ∨ DieReg n ∨ PkgReg n) :
    sysWrite s core priv n v = plainSysWrite s core priv n v := by
  have h1 : ¬ (0x300 ≤ n ∧ n < 0x328) ∧ ¬ (0x340 ≤ n ∧ n < 0x368) ∧ n ≠ 0x380 ∧ n ≠ 0x381 ∧ n ≠ 0x386 ∧ n ≠ 0x401 ∧
    ¬ (0x410 ≤ n ∧ n < 0x416) ∧ n ≠ 0x5C2 ∧ ¬ (0x5D0 ≤ n ∧ n < 0x5F8) := by omega
  obtain ⟨h1, h2, h3, h4, h5, h6, h7, h8, h9⟩ := h1
  simp only [sysWrite, if_neg h1, if_neg h2, if_neg h3, if_neg h4, if_neg h5, if_neg h6, if_neg h7, if_neg h8, if_neg h9]

/-- Without privilege only SY.ACQ and the matrix engine's flags can be written (R211). -/
theorem plainSysWrite_unprivileged (h : n ≠ 0x101) (h' : n ≠ 0x102) : plainSysWrite s core false n v = s := by
  simp [plainSysWrite, h, h']

theorem plainSysWrite_root (h : 0x140 ≤ n ∧ n < 0x180) : plainSysWrite s core true n v =
    modPart s (n - 0x140) fun p => { p with root := keep v 0xFFFFFFFFFFFFC003 } := by
  simp (disch := omega) only [plainSysWrite, if_pos, if_neg, Bool.not_true, Bool.false_eq_true, if_false]

theorem plainSysWrite_rowva (h : 0x180 ≤ n ∧ n < 0x1C0) : plainSysWrite s core true n v =
    modPart s (n - 0x180) fun p => { p with rowva := keep v 0xFFFFFFFFFF000000 } := by
  simp (disch := omega) only [plainSysWrite, if_pos, if_neg, Bool.not_true, Bool.false_eq_true, if_false]

theorem plainSysWrite_upcall (h : 0x500 ≤ n ∧ n < 0x540) : plainSysWrite s core true n v =
    modPart s (n - 0x500) fun p => { p with upcall := v } := by
  simp (disch := omega) only [plainSysWrite, if_pos, if_neg, Bool.not_true, Bool.false_eq_true, if_false]

theorem plainSysWrite_arrlog (h : 0x540 ≤ n ∧ n < 0x580) : plainSysWrite s core true n v =
    modPart s (n - 0x540) fun p => { p with arrlog := v } := by
  simp (disch := omega) only [plainSysWrite, if_pos, if_neg, Bool.not_true, Bool.false_eq_true, if_false]

theorem plainSysWrite_haltbase (h : 0x580 ≤ n ∧ n < 0x5C0) : plainSysWrite s core true n v =
    modPart s (n - 0x580) fun p => { p with haltbase := keep v 0x000FFFFFFFFFC000 } := by
  simp (disch := omega) only [plainSysWrite, if_pos, if_neg, Bool.not_true, Bool.false_eq_true, if_false]

theorem plainSysWrite_hostpath (h : n = 0x201 ∨ n = 0x202) : plainSysWrite s core true n v =
    modDie s (dieNo n) fun d => { d with hostpath := keep v 0xFFF0000000000003 } := by rcases h with rfl | rfl <;> rfl

theorem plainSysWrite_hostq (h : n = 0x204 ∨ n = 0x206) : plainSysWrite s core true n v =
    modDie s (dieNo n) fun d => { d with hostq := keep v 0xFFFFF } := by rcases h with rfl | rfl <;> rfl

theorem plainSysWrite_hostqb (h : n = 0x205 ∨ n = 0x207) : plainSysWrite s core true n v =
    modDie s (dieNo n) fun d => { d with hostqb := keep v 0xFFFFFFFFFFFFF000 } := by rcases h with rfl | rfl <;> rfl

theorem plainSysWrite_flport (h : 0x210 ≤ n ∧ n < 0x220) : plainSysWrite s core true n v =
    modPkg s fun q => { q with flport := smSet 0 q.flport (n - 0x210) (keep v 0xFFF0000000000003) } := by
  simp (disch := omega) only [plainSysWrite, if_pos, if_neg, Bool.not_true, Bool.false_eq_true, if_false]

theorem plainSysWrite_devidx : plainSysWrite s core true 0x200 v = modPkg s fun q => { q with devidx := keep v 0xFF } := rfl

theorem plainSysWrite_flridx : plainSysWrite s core true 0x220 v = modPkg s fun q => { q with flridx := keep v 0xFF } := rfl

theorem plainSysWrite_flroute : plainSysWrite s core true 0x221 v = modPkg s fun q => { q with
    flroute := smSet 0 q.flroute q.flridx.toNat (keep v 0x1FFFF),
    peerLost := q.peerLost.filter fun i => i ≠ q.flridx.toNat } := rfl

theorem plainSysWrite_supq : plainSysWrite s core true 0x5C0 v = modPkg s fun q => { q with supq := keep v 0xFFFF } := rfl

theorem plainSysWrite_mmq : plainSysWrite s core true 0x5C1 v = modPkg s fun q => { q with mmq := keep v 0xFFFF } := rfl

/-- A mask of all ones keeps the whole word. -/
theorem and_wNat_allOnes : v &&& wNat (2 ^ 64 - 1) = v := BitVec.and_allOnes

/-- The bits that a partition's register keeps. -/
abbrev PartMask (n mask : Nat) : Prop :=
  (0x140 ≤ n ∧ n < 0x180) ∧ mask = 0xFFFFFFFFFFFFC003 ∨ (0x180 ≤ n ∧ n < 0x1C0) ∧ mask = 0xFFFFFFFFFF000000 ∨
  (0x500 ≤ n ∧ n < 0x540) ∧ mask = 2 ^ 64 - 1 ∨ (0x540 ≤ n ∧ n < 0x580) ∧ mask = 2 ^ 64 - 1 ∨
  (0x580 ≤ n ∧ n < 0x5C0) ∧ mask = 0x000FFFFFFFFFC000

/-- The bits that a host path's register keeps. -/
abbrev DieMask (n mask : Nat) : Prop :=
  (n = 0x201 ∨ n = 0x202) ∧ mask = 0xFFF0000000000003 ∨ (n = 0x204 ∨ n = 0x206) ∧ mask = 0xFFFFF ∨
  (n = 0x205 ∨ n = 0x207) ∧ mask = 0xFFFFFFFFFFFFF000

/-- The bits that a register of the package keeps. -/
abbrev PkgMask (n mask : Nat) : Prop :=
  n = 0x200 ∧ mask = 0xFF ∨ (0x210 ≤ n ∧ n < 0x220) ∧ mask = 0xFFF0000000000003 ∨ n = 0x220 ∧ mask = 0xFF ∨
  n = 0x221 ∧ mask = 0x1FFFF ∨ n = 0x5C0 ∧ mask = 0xFFFF ∨ n = 0x5C1 ∧ mask = 0xFFFF

theorem registerMask_cases {mask : Nat} (h : RegisterMask n mask) : PartMask n mask ∨ DieMask n mask ∨ PkgMask n mask := by
  rcases h with h | h | h | h | h | h | h | h | h | h | h | h
  · exact .inl (.inl ⟨⟨h.1, h.2.1⟩, h.2.2⟩)
  · exact .inl (.inr (.inl ⟨⟨h.1, h.2.1⟩, h.2.2⟩))
  · exact .inr (.inr (.inl h))
  · exact .inr (.inl (.inl h))
  · exact .inr (.inl (.inr (.inl h)))
  · exact .inr (.inl (.inr (.inr h)))
  · exact .inr (.inr (.inr (.inl ⟨⟨h.1, h.2.1⟩, h.2.2⟩)))
  · exact .inr (.inr (.inr (.inr (.inl h))))
  · exact .inr (.inr (.inr (.inr (.inr (.inl h)))))
  · exact .inl (by omega)
  · exact .inl (.inr (.inr (.inr (.inr ⟨⟨h.1, h.2.1⟩, h.2.2⟩))))
  · exact .inr (.inr (by omega))

theorem registerMask_reg {mask : Nat} (h : RegisterMask n mask) : PartReg n ∨ DieReg n ∨ PkgReg n := by
  rcases registerMask_cases h with h | h | h
  · exact .inl (by omega)
  · exact .inr (.inl (by omega))
  · exact .inr (.inr (by omega))

theorem writePart_holds {mask : Nat} (hm : PartMask n mask) :
    RegisterHolds s (plainSysWrite s core true n v) core n (v &&& wNat mask) := by
  obtain ⟨h, rfl⟩ | ⟨h, rfl⟩ | ⟨h, rfl⟩ | ⟨h, rfl⟩ | ⟨h, rfl⟩ := hm
  case' inl =>
    rw [plainSysWrite_root s core v h, show n - 0x140 = n % 64 by omega]
    have hb : n / 64 = 5 := by omega
  case' inr.inl =>
    rw [plainSysWrite_rowva s core v h, show n - 0x180 = n % 64 by omega]
    have hb : n / 64 = 6 := by omega
  case' inr.inr.inl =>
    rw [plainSysWrite_upcall s core v h, and_wNat_allOnes, show n - 0x500 = n % 64 by omega]
    have hb : n / 64 = 20 := by omega
  case' inr.inr.inr.inl =>
    rw [plainSysWrite_arrlog s core v h, and_wNat_allOnes, show n - 0x540 = n % 64 by omega]
    have hb : n / 64 = 21 := by omega
  case' inr.inr.inr.inr =>
    rw [plainSysWrite_haltbase s core v h, show n - 0x580 = n % 64 by omega]
    have hb : n / 64 = 22 := by omega
  all_goals
    refine modPart_holds s core (by omega) (fun q => by rw [hb]; rfl) fun q j hj => ?_
    rw [hb] at hj
    simp only [partField, if_neg hj]

theorem writeDie_holds {mask : Nat} (hm : DieMask n mask) :
    RegisterHolds s (plainSysWrite s core true n v) core n (v &&& wNat mask) := by
  obtain ⟨h, rfl⟩ | ⟨h, rfl⟩ | ⟨h, rfl⟩ := hm
  case' inl =>
    rw [plainSysWrite_hostpath _ _ _ h]
    have hk : dieKind n = 2 := by rcases h with rfl | rfl <;> rfl
  case' inr.inl =>
    rw [plainSysWrite_hostq _ _ _ h]
    have hk : dieKind n = 0 := by rcases h with rfl | rfl <;> rfl
  case' inr.inr =>
    rw [plainSysWrite_hostqb _ _ _ h]
    have hk : dieKind n = 1 := by rcases h with rfl | rfl <;> rfl
  all_goals
    refine modDie_holds s core (by omega) (fun d => rfl) (fun d => by rw [hk]; rfl) fun d j hj => ?_
    rw [hk] at hj
    simp only [dieField, if_neg hj]

theorem writePkg_holds {mask : Nat} (hm : PkgMask n mask) :
    RegisterHolds s (plainSysWrite s core true n v) core n (v &&& wNat mask) := by
  obtain ⟨rfl, rfl⟩ | ⟨h, rfl⟩ | ⟨rfl, rfl⟩ | ⟨rfl, rfl⟩ | ⟨rfl, rfl⟩ | ⟨rfl, rfl⟩ := hm
  case inr.inl =>
    rw [plainSysWrite_flport _ _ _ h]
    refine modPkg_holds s core (by omega) (fun q => rfl) (fun q => ?_) fun q k hk _ => ?_
    · have h0 : n ≠ 0x200 := by omega
      simp only [pkgField, if_neg h0, if_pos h, smGet_smSet, if_true]
      rfl
    · by_cases hk' : 0x210 ≤ k ∧ k < 0x220
      · simp (disch := omega) only [pkgField, if_neg, if_pos, smGet_smSet]
      · simp only [pkgField, if_neg hk']
  case inr.inr.inl =>
    rw [plainSysWrite_flridx]
    exact modPkg_holds s core (by omega) (fun q => rfl) (fun q => rfl) fun q k hk hr => by
      simp only [pkgField, if_neg hk, if_neg fun h => hr ⟨rfl, h⟩]
  case inr.inr.inr.inl =>
    rw [plainSysWrite_flroute]
    exact modPkg_holds s core (by omega) (fun q => rfl) (fun q => by simp [pkgField, keep]) fun q k hk _ => by
      simp only [pkgField, if_neg hk]
  case' inl => rw [plainSysWrite_devidx]
  case' inr.inr.inr.inr.inl => rw [plainSysWrite_supq]
  case' inr.inr.inr.inr.inr => rw [plainSysWrite_mmq]
  all_goals exact modPkg_holds s core (by omega) (fun q => rfl) (fun q => rfl) fun q k hk _ => by simp only [pkgField, if_neg hk]

/-- Each register of R212 that holds what is written holds it in the bits it keeps, and no other register shows the write. -/
theorem sysWrite_holds {mask : Nat} (hm : RegisterMask n mask) :
    RegisterHolds s (sysWrite s core true n v) core n (v &&& wNat mask) := by
  rw [sysWrite_plain s core v true (registerMask_reg hm)]
  obtain hm | hm | hm := registerMask_cases hm
  · exact writePart_holds s core v hm
  · exact writeDie_holds s core v hm
  · exact writePkg_holds s core v hm
end write
/-! ### The instructions -/

/-- Of rows and cores a system register shows only the reading core's MXFLAGS. -/
theorem sysRead_rows_cores {s t : State} {core : Nat} (h : t = { s with rows := t.rows, cores := t.cores })
    (hm : (getCore t core).mxflags = (getCore s core).mxflags) (k : Nat) : sysRead t core true k = sysRead s core true k := by
  generalize t.rows = R at h
  generalize t.cores = C at h
  subst h
  simp only [sysRead, hm]
  rfl

theorem getCore_bump_mxflags (s : State) (c k n core : Nat) : (getCore (bump s c k n) core).mxflags = (getCore s core).mxflags := by
  unfold bump
  rw [getCore_modCore]
  split
  · rename_i h; subst h; rfl
  · rfl

theorem RegisterHolds.getRow {s t : State} {core n : Nat} {v : Word} (h : RegisterHolds s t core n v) (q : RowId) :
    getRow t q = getRow s q := by
  rw [h.rest]; rfl

/-- Retirement is not seen in a system register. -/
theorem sysRead_retireTo {s : State} {r : RowId} (next : Word) (hs : (getRow s r).stepping = false) (hp : (getRow s r).pend = [])
    (core k : Nat) : sysRead (retireTo s r next) core true k = sysRead s core true k := by
  have e : retireTo s r next = { s with rows := (retireTo s r next).rows, cores := (bump s r.core 1 1).cores } :=
    retireTo_rest s r 0 next hs hp
  have hc : ∀ c, getCore (retireTo s r next) c = getCore (bump s r.core 1 1) c := fun c =>
    (congrArg (fun x => getCore x c) e).trans rfl
  refine sysRead_rows_cores ?_ ?_ k
  · rw [← (congrArg State.cores e).trans rfl] at e
    exact e
  · rw [hc, getCore_bump_mxflags]

/-- A row without privilege reads 0 from SY.ROOT and SY.ROWVA of a partition not its own (R212). -/
theorem sysRead_foreign {s : State} {core p : Nat} (hp : p < 64) (h : partOf s core ≠ some p) :
    sysRead s core false (0x140 + p) = 0 ∧ sysRead s core false (0x180 + p) = 0 := by
  have hm : mayRead s core false p = false := by simp [mayRead, h]
  rw [sysRead_root s core false (by omega), sysRead_rowva s core false (by omega), Nat.add_sub_cancel_left,
    Nat.add_sub_cancel_left, hm]
  exact ⟨rfl, rfl⟩

/-- A write whose turn it is acts at once and retires (R211). -/
theorem execSysSysw_eq {s : State} {num : BitVec 12} {d : Reg} {mask : Nat} (hc : Can s [srcX d false])
    (ho : storeOrder s s.cur (partIx s s.cur.core) s.nextId = true) (hf : flightsOf s s.cur (partIx s s.cur.core) s.nextId = [])
    (hm : RegisterMask num.toNat mask) : exec (.sysSysw num d) s =
      .next (retire (sysWrite s s.cur.core (getRow s s.cur).priv num.toNat (getX s s.cur d)) s.cur 4) := by
  obtain ⟨h1, h2⟩ : num.toNat ≠ 0x5C2 ∧ num.toNat ≠ 0x401 := by
    have hn := registerMask_reg hm
    omega
  show execSysSysw num d s = _
  simp only [execSysSysw, gate_ready hc.2]
  simp [ho, hf, h1, h2, resets]

theorem execSysSysr_eq {s : State} (num : BitVec 12) (d : Reg) (hr : remoteBefore s s.cur = false) : exec (.sysSysr num d) s =
    .next (if sysBehind s s.cur num.toNat then s
      else retX s s.cur d (sysRead s s.cur.core (getRow s s.cur).priv num.toNat) 4) := by
  show execSysSysr num d s = _
  simp only [execSysSysr, hr, Bool.false_or]

theorem systemRegisterWrites : SystemRegisterWrites := by
  intro s num d mask hc ho hf hm
  have he := execSysSysw_eq hc ho hf hm
  obtain ⟨-, hst, hpe⟩ := hc.1
  refine ⟨fun hpriv => ?_, fun hpriv => ?_⟩
  · rw [hpriv] at he
    have hw := sysWrite_holds s s.cur.core (getX s s.cur d) hm
    generalize sysWrite s s.cur.core true num.toNat (getX s s.cur d) = u at he hw
    have hrow := hw.getRow
    rw [← hrow] at hst hpe
    refine ⟨_, he, ?_, ?_, ?_, fun k hk hr => ?_⟩
    · exact (sysRead_retireTo _ hst hpe _ _).trans hw.here
    · refine (retireTo_getRow u s.cur s.cur 0 _ hst hpe).trans ?_
      rw [if_pos rfl, hrow]; rfl
    · exact (retireTo_mem u s.cur 0 _ hst hpe).trans ((congrArg State.mem hw.rest).trans rfl)
    · exact (sysRead_retireTo _ hst hpe _ _).trans (hw.others k hk hr)
  · have hn := registerMask_reg hm
    rw [hpriv, sysWrite_plain _ _ _ _ hn, plainSysWrite_unprivileged _ _ _ (by omega) (by omega)] at he
    exact ⟨_, he, retire_done0 hc.1 (Wrote.refl s) 4⟩

theorem systemRegisterReads : SystemRegisterReads := by
  intro s d hg hr
  have reads : ∀ num : BitVec 12, sysBehind s s.cur num.toNat = false →
      WritesX s (.sysSysr num d) d (sysRead s s.cur.core (getRow s s.cur).priv num.toNat) 0 (after s 4) := by
    intro num hb
    have he := execSysSysr_eq num d hr
    rw [hb, if_neg Bool.false_ne_true] at he
    exact ⟨_, he, retX_done s hg d _ 4⟩
  refine ⟨fun num hb => ?_, reads, reads 0, reads 1, fun p hp hpriv hpart => ?_⟩
  · rw [execSysSysr_eq num d hr, if_pos hb]
  · obtain ⟨h0, h1⟩ := sysRead_foreign hp hpart
    have e0 : (BitVec.ofNat 12 (0x140 + p)).toNat = 0x140 + p := by rw [BitVec.toNat_ofNat, Nat.mod_eq_of_lt (by omega)]
    have e1 : (BitVec.ofNat 12 (0x180 + p)).toNat = 0x180 + p := by rw [BitVec.toNat_ofNat, Nat.mod_eq_of_lt (by omega)]
    have r0 := reads (BitVec.ofNat 12 (0x140 + p))
    have r1 := reads (BitVec.ofNat 12 (0x180 + p))
    rw [e0, hpriv, h0] at r0
    rw [e1, hpriv, h1] at r1
    exact ⟨r0, r1⟩

/-- Settles O12, by the registers that hold what is written: of a partition, of a die's host path, of the package. -/
theorem systemRegisters : Obligations.SystemRegisters := ⟨systemRegisterWrites, systemRegisterReads⟩

/-! ## Pieces of a copy (O37) -/

/-! ### Words that an engine fills -/

/-- A wake changes control blocks and cores only. -/
theorem wake_rest (s : State) (r : RowId) : wake s r = { s with rows := (wake s r).rows, cores := (wake s r).cores } := by
  unfold wake makeReady joinReady
  split
  · rfl
  · split <;> rfl

theorem setFull_mem (s : State) (r : RowId) (w : Nat) : (setFull s r w).mem = s.mem := by
  unfold setFull
  dsimp only
  split
  · exact (congrArg State.mem (wake_rest _ r)).trans rfl
  · rfl

theorem setFull_empt (s : State) (r : RowId) (w : Nat) : (setFull s r w).empt = s.empt.filter fun k => k ≠ rowWord r w := by
  unfold setFull
  dsimp only
  split
  · exact (congrArg State.empt (wake_rest _ r)).trans rfl
  · rfl

theorem setFulls_mem (s : State) (r : RowId) (ws : List Nat) : (setFulls s r ws).mem = s.mem := by
  induction ws generalizing s with
  | nil => rfl
  | cons w ws ih => rw [setFulls, ih, setFull_mem]

theorem mem_setFulls_empt (s : State) (r : RowId) (ws : List Nat) (k : Nat) :
    k ∈ (setFulls s r ws).empt ↔ k ∈ s.empt ∧ ∀ w ∈ ws, k ≠ rowWord r w := by
  induction ws generalizing s with
  | nil => simp [setFulls]
  | cons w ws ih => rw [setFulls, ih, setFull_empt]; simp [and_assoc]

/-- The words `ws` of row `q` written with the bytes that stand for them in `bs`, whose first is byte 0 of word `w`. -/
def putWords (s : State) (q : RowId) (w : Nat) (bs : List Byte) (ws : List Nat) : State :=
  ws.foldl (fun t v => putRowBytes t q (8 * v) ((bs.drop (8 * (v - w))).take 8)) s

/-- The `n` words of row `q` from `w` on but for those of `skip`. -/
def unskipped (skip : List Nat) (q : RowId) (w n : Nat) : List Nat :=
  (List.range' w n).filter fun v => !skip.contains (rowWord q v)

theorem mem_unskipped {skip : List Nat} {q : RowId} {w n v : Nat} :
    v ∈ unskipped skip q w n ↔ (w ≤ v ∧ v < w + n) ∧ rowWord q v ∉ skip := by
  simp [unskipped, List.mem_range'_1]

theorem fillWords_eq (s : State) (r : RowId) (k id : Nat) (skip : List Nat) (q : RowId) (w : Nat) (bs : List Byte) :
    fillWords s r k id skip q w bs =
      setFulls (unpoison (putWords s q w bs (unskipped skip q w (bs.length / 8)))
        ((unskipped skip q w (bs.length / 8)).map (rowWord q))) q
        ((unskipped skip q w (bs.length / 8)).filter fun v => !owed s r k id q v) := rfl

theorem putWords_empt (s : State) (q : RowId) (w : Nat) (bs : List Byte) (ws : List Nat) (hw : ∀ v ∈ ws, 33 ≤ v) :
    (putWords s q w bs ws).empt = s.empt := by
  induction ws generalizing s with
  | nil => rfl
  | cons v ws ih =>
    have hv := hw v List.mem_cons_self
    refine (ih (putRowBytes s q (8 * v) ((bs.drop (8 * (v - w))).take 8)) fun x hx => hw x (List.mem_cons_of_mem v hx)).trans ?_
    rw [putRowBytes_rest s q _ (8 * v) (by omega)]

/-- One word written from its eight bytes, above X0. -/
theorem memByte_putWord (s : State) (q : RowId) {w v : Nat} {bs : List Byte} (hv : 33 ≤ v) (hw : w ≤ v)
    (hb : 8 * (v - w) + 8 ≤ bs.length) (a : Nat) :
    memByte (putRowBytes s q (8 * v) ((bs.drop (8 * (v - w))).take 8)) a =
      if a / 8 = rowWord q v then bs.getD (a - rowPa q (8 * w)) 0 else memByte s a := by
  have hlen : ((bs.drop (8 * (v - w))).take 8).length = 8 := by simp; omega
  rw [memByte_putRowBytes _ _ _ _ (by omega), hlen]
  have e1 := rowPa_mul q v
  have e2 : rowPa q (8 * v) = rowPa q (8 * w) + 8 * (v - w) := by simp only [rowPa]; omega
  have e3 : rowPa q 0x108 ≤ rowPa q (8 * v) := by simp only [rowPa]; omega
  by_cases h : a / 8 = rowWord q v
  · rw [if_pos h, if_pos (by omega)]
    simp only [List.getD_eq_getElem?_getD]
    rw [List.getElem?_take_of_lt (by omega), List.getElem?_drop]
    congr 2
    omega
  · rw [if_neg h, if_neg (by omega)]

theorem memByte_putWords (s : State) (q : RowId) (w : Nat) (bs : List Byte) (ws : List Nat)
    (hw : ∀ v ∈ ws, 33 ≤ v ∧ w ≤ v ∧ 8 * (v - w) + 8 ≤ bs.length) (a : Nat) :
    memByte (putWords s q w bs ws) a =
      if ∃ v ∈ ws, a / 8 = rowWord q v then bs.getD (a - rowPa q (8 * w)) 0 else memByte s a := by
  induction ws generalizing s with
  | nil => simp [putWords]
  | cons v ws ih =>
    obtain ⟨h1, h2, h3⟩ := hw v List.mem_cons_self
    refine (ih (putRowBytes s q (8 * v) ((bs.drop (8 * (v - w))).take 8)) fun x hx => hw x (List.mem_cons_of_mem v hx)).trans ?_
    rw [memByte_putWord s q h1 h2 h3]
    by_cases h : ∃ x ∈ ws, a / 8 = rowWord q x
    · rw [if_pos h, if_pos (by obtain ⟨x, hx, e⟩ := h; exact ⟨x, List.mem_cons_of_mem v hx, e⟩)]
    · simp [h]

section fillWords
variable (s : State) (r : RowId) (k id : Nat) (skip : List Nat) (q : RowId) {w : Nat} (bs : List Byte)

/-- What an engine writes to a row from byte 0 of word `w` on: the bytes of the words that are not to be skipped. -/
theorem memByte_fillWords (hw : 33 ≤ w) (a : Nat) : memByte (fillWords s r k id skip q w bs) a =
    if ∃ v ∈ unskipped skip q w (bs.length / 8), a / 8 = rowWord q v then bs.getD (a - rowPa q (8 * w)) 0 else memByte s a := by
  have hm : memByte (fillWords s r k id skip q w bs) a = memByte (putWords s q w bs (unskipped skip q w (bs.length / 8))) a := by
    unfold memByte
    rw [fillWords_eq, setFulls_mem]
    rfl
  rw [hm, memByte_putWords]
  intro v hv
  obtain ⟨hv, -⟩ := mem_unskipped.mp hv
  omega

/-- A word that is written becomes full unless a later producer owes it; a word that is skipped stays as it was. -/
theorem mem_fillWords_empt (hw : 33 ≤ w) (v : Nat) : rowWord q v ∈ (fillWords s r k id skip q w bs).empt ↔
    rowWord q v ∈ s.empt ∧ (v ∈ unskipped skip q w (bs.length / 8) → owed s r k id q v = true) := by
  have he : (putWords s q w bs (unskipped skip q w (bs.length / 8))).empt = s.empt := by
    refine putWords_empt s q w bs _ fun v hv => ?_
    obtain ⟨hv, -⟩ := mem_unskipped.mp hv
    omega
  rw [fillWords_eq, mem_setFulls_empt]
  simp only [unpoison, he, ne_eq, rowWord_inj, List.mem_filter, Bool.not_eq_true']
  refine and_congr_right fun _ => ⟨fun h hv => ?_, fun h x hx e => ?_⟩
  · by_contra ho
    exact h v ⟨hv, by simpa using ho⟩ rfl
  · subst e
    exact absurd (h hx.1) (by simp [hx.2])
end fillWords

theorem isEmpty_iff {s : State} {q : RowId} {v : Nat} (hv : 33 ≤ v) : isEmpty s q v = true ↔ rowWord q v ∈ s.empt := by
  have : 32 < v := by omega
  simp [isEmpty, this]

section engineWrite
variable {s : State} {r q : RowId} {k id win off : Nat} {priv : Bool} {skip : List Nat} {p : Part} {bs : List Byte}

/-- A part in a row, at a boundary and behind no older producer, is filled. -/
theorem engineWrite_row (hb : pieceBehind s r k id p = false) (ha : aimedPartOf s p = none) (hr : region s p.pa = .row q win off)
    (hq : rowBusy s q none = false) :
    engineWrite s r k id priv skip p bs = (true, fillWords s r k id skip q (off / 8) bs) := by
  simp [engineWrite, hb, ha, hr, hq]

theorem engineWrite_behind (hb : pieceBehind s r k id p = true) : engineWrite s r k id priv skip p bs = (false, s) := by
  simp [engineWrite, hb]
end engineWrite

/-- The effect of an engine's write on the words of a row that its part covers, and on no other byte. -/
theorem fillWords_row (s : State) (r q : RowId) (k id off : Nat) (skip : List Nat) (bs : List Byte) (ho : 0x108 ≤ off)
    (h8 : off % 8 = 0) (hb : bs.length % 8 = 0) :
    (∀ a, (a < rowPa q off ∨ rowPa q off + bs.length ≤ a) → memByte (fillWords s r k id skip q (off / 8) bs) a = memByte s a) ∧
    ∀ w, off / 8 ≤ w → w < (off + bs.length) / 8 →
      (rowWord q w ∉ skip →
        isEmpty (fillWords s r k id skip q (off / 8) bs) q w = (isEmpty s q w && owed s r k id q w) ∧
        ∀ j < 8, memByte (fillWords s r k id skip q (off / 8) bs) (rowPa q (8 * w + j)) = bs.getD (8 * w + j - off) 0) ∧
      (rowWord q w ∈ skip →
        isEmpty (fillWords s r k id skip q (off / 8) bs) q w = isEmpty s q w ∧
        ∀ j < 8, memByte (fillWords s r k id skip q (off / 8) bs) (rowPa q (8 * w + j)) = memByte s (rowPa q (8 * w + j))) := by
  have e8 : 8 * (off / 8) = off := by omega
  have empties := mem_fillWords_empt s r k id skip q bs (w := off / 8) (by omega)
  have bytes := memByte_fillWords s r k id skip q bs (w := off / 8) (by omega)
  rw [e8] at bytes
  generalize fillWords s r k id skip q (off / 8) bs = t at *
  have word : ∀ w j, j < 8 → ((∃ v ∈ unskipped skip q (off / 8) (bs.length / 8), rowPa q (8 * w + j) / 8 = rowWord q v) ↔
      w ∈ unskipped skip q (off / 8) (bs.length / 8)) := by
    intro w j hj
    simp [rowPa_div q w j hj, rowWord_inj]
  refine ⟨fun a ha => ?_, fun w hw hw' => ?_⟩
  · rw [bytes, if_neg]
    rintro ⟨v, hv, e⟩
    have hp : rowPa q (8 * v) = rowPa q off + (8 * v - off) := by
      obtain ⟨hv, -⟩ := mem_unskipped.mp hv
      simp only [rowPa]; omega
    have := rowPa_mul q v
    obtain ⟨hv, -⟩ := mem_unskipped.mp hv
    omega
  · have h33 : 33 ≤ w := by omega
    refine ⟨fun hs => ⟨?_, fun j hj => ?_⟩, fun hs => ⟨?_, fun j hj => ?_⟩⟩
    · have hm : w ∈ unskipped skip q (off / 8) (bs.length / 8) := mem_unskipped.mpr ⟨by omega, hs⟩
      rw [Bool.eq_iff_iff, isEmpty_iff h33, empties, Bool.and_eq_true, isEmpty_iff h33]
      simp [hm]
    · have hm : w ∈ unskipped skip q (off / 8) (bs.length / 8) := mem_unskipped.mpr ⟨by omega, hs⟩
      rw [bytes, if_pos ((word w j hj).mpr hm)]
      congr 1
      simp only [rowPa]; omega
    · have hm : w ∉ unskipped skip q (off / 8) (bs.length / 8) := fun h => (mem_unskipped.mp h).2 hs
      rw [Bool.eq_iff_iff, isEmpty_iff h33, empties, isEmpty_iff h33]
      simp [hm]
    · have hm : w ∉ unskipped skip q (off / 8) (bs.length / 8) := fun h => (mem_unskipped.mp h).2 hs
      rw [bytes, if_neg (mt (word w j hj).mp hm)]

/-! ### The steps of a piece -/

section copyStep
variable {s : State} {cl i k off len : Nat} {x : CopyPiece}

/-- While the row's older stores have not left, or a control page's earlier parts have not moved, a piece waits. -/
theorem copyStep_waits (hx : (getCl s cl).copyq[i]? = some x) (hk : x.todo[k]? = some (off, len))
    (hw : olderLeft s x.row x.after = false ∨
      (k ≠ 0 ∧ (onPage s (subPart x.src off len) = true ∨ onPage s (subPart x.dst off len) = true))) :
    exec (.copyPiece cl i k) s = .next s := by
  show Host.Outcome.next (copyStep s cl i k) = _
  have hc : (!olderLeft s x.row x.after ||
      (decide (k ≠ 0) && (onPage s (subPart x.src off len) || onPage s (subPart x.dst off len)))) = true := by
    rcases hw with h | ⟨h0, h | h⟩ <;> simp [*]
  simp only [copyStep, hx, hk, hc, if_true]

/-- A piece whose turn it is is not held back. -/
theorem copyStep_free (ho : olderLeft s x.row x.after = true)
    (hp : k = 0 ∨ (onPage s (subPart x.src off len) = false ∧ onPage s (subPart x.dst off len) = false)) :
    (!olderLeft s x.row x.after ||
      (decide (k ≠ 0) && (onPage s (subPart x.src off len) || onPage s (subPart x.dst off len)))) = false := by
  rcases hp with h | ⟨h1, h2⟩ <;> simp [*]

theorem copyStep_reads {o n : Nat} (hx : (getCl s cl).copyq[i]? = some x) (hk : x.todo[k]? = some (off, len))
    (ho : olderLeft s x.row x.after = true)
    (hp : k = 0 ∨ (onPage s (subPart x.src off len) = false ∧ onPage s (subPart x.dst off len) = false))
    (hu : x.unread.find? (overlaps off len) = some (o, n)) :
    exec (.copyPiece cl i k) s = .next (copyRead s cl i x o n false) := by
  show Host.Outcome.next (copyStep s cl i k) = _
  simp only [copyStep, hx, hk, copyStep_free ho hp, hu, Bool.false_eq_true, if_false]

theorem copyStep_writes (hx : (getCl s cl).copyq[i]? = some x) (hk : x.todo[k]? = some (off, len))
    (ho : olderLeft s x.row x.after = true)
    (hp : k = 0 ∨ (onPage s (subPart x.src off len) = false ∧ onPage s (subPart x.dst off len) = false))
    (hu : x.unread.find? (overlaps off len) = none) :
    exec (.copyPiece cl i k) s = .next (copyWrite s cl i x off len) := by
  show Host.Outcome.next (copyStep s cl i k) = _
  simp only [copyStep, hx, hk, copyStep_free ho hp, hu, Bool.false_eq_true, if_false]

theorem copyRead_ok {o n : Nat} {bs : List Byte} {t : State} (hc : x.cold = false) (hl : lostFail s (x.src.pa + o) = false)
    (ha : aimedPartOf s (subPart x.src o n) = none) (hr : engineRead s x.row x.priv (subPart x.src o n) = (.ok bs, t)) :
    copyRead s cl i x o n false = bump (modCl t cl fun c => { c with copyq := modNth (fun y =>
      { y with unread := x.unread.filter fun z => z.1 ≠ o, got := x.got ++ [(o, bs)] }) c.copyq i }) x.row.core 4 1 := by
  have hl' : lostFail s (subPart x.src o n).pa = false := hl
  simp only [copyRead, hc, hl', ha, hr, Bool.false_eq_true, if_false]

theorem copyWrite_ok {u : State} (hc : x.cold = false) (hl : lostFail s (x.dst.pa + off) = false)
    (hw : engineWrite s x.row x.part x.id x.priv x.skip (subPart x.dst off len)
      ((List.range len).map fun j => gotByte x.got (off + j)) = (true, u)) :
    copyWrite s cl i x off len = bump (bump (modCl u cl fun c =>
      { c with copyq := if (x.todo.filter fun y => y.1 ≠ off).isEmpty then dropNth c.copyq i
          else modNth (fun y => { y with todo := x.todo.filter fun y => y.1 ≠ off }) c.copyq i }) x.row.core 7 len) x.row.core 4 1 := by
  have hl' : lostFail s (subPart x.dst off len).pa = false := hl
  simp only [copyWrite, hc, hl', hw, Bool.false_eq_true, if_false, if_true]
end copyStep

section distStep
variable {s : State} {die i k : Nat} {x : DistPiece}

theorem distStep_waits (hx : (getDie s die).distq[i]? = some x) (ho : olderLeft s x.row x.after = false) :
    exec (.distributorBlock die i k) s = .next s := by
  show Host.Outcome.next (distStep s die i k false) = _
  cases hk : x.todo[k]? with
  | none => simp only [distStep, hx, hk]
  | some y => simp only [distStep, hx, hk, ho, Bool.not_false, if_true]

/-- A block's part that goes from memory to a row. -/
theorem distStep_in {off len : Nat} {bs : List Byte} {u : State} (hx : (getDie s die).distq[i]? = some x)
    (hk : x.todo[k]? = some (off, len)) (ho : x.out = false) (hc : x.cold = false) (hs : olderLeft s x.row x.after = true)
    (hm : lostFail s (x.mem.pa + off) = false) (hv : lostFail s (x.rs.pa + off) = false)
    (hr : gddrRead s (x.mem.pa + off) len = .ok bs)
    (hw : engineWrite (dirForce s (x.mem.pa + off)) x.row x.part x.id x.priv x.skip (subPart x.rs off len) bs = (true, u)) :
    exec (.distributorBlock die i k) s = .next (bump (modDie u die fun d =>
      { d with distq := if (x.todo.filter fun y => y.1 ≠ off).isEmpty then dropNth d.distq i
          else modNth (fun y => { y with todo := x.todo.filter fun y => y.1 ≠ off }) d.distq i })
      ((partCore s (subPart x.rs off len)).getD 0) 8 len) := by
  have hm' : lostFail s (subPart x.mem off len).pa = false := hm
  have hv' : lostFail s (subPart x.rs off len).pa = false := hv
  have hr' : gddrRead s (subPart x.mem off len).pa len = .ok bs := hr
  have hw' : engineWrite (dirForce s (subPart x.mem off len).pa) x.row x.part x.id x.priv x.skip (subPart x.rs off len) bs =
      (true, u) := hw
  show Host.Outcome.next (distStep s die i k false) = _
  simp only [distStep, hx, hk, ho, hc, hs, hm', hv', hr', hw', Bool.not_true, Bool.false_eq_true, if_false, if_true]
end distStep

/-- Settles O37: a piece's step is unfolded once for each thing it can do, and an engine's fill once for the words it covers. -/
theorem copiesMove : Obligations.CopiesMove := by
  unfold Obligations.CopiesMove
  refine ⟨fun s cl i k off len x hx hk ho hp hc => ⟨fun o n bs t hu hl ha hr => ?_, fun u hu hl hw => ?_⟩,
    fun s cl i k off len x hx hk hw => copyStep_waits hx hk hw, fun s r k id priv skip p bs hb => engineWrite_behind hb,
    fun s r q k id win off priv skip p bs hb ha hr hq h0 _ h8 hl => ?_, fun s die i k x hx ho => distStep_waits hx ho,
    fun s die i k off len x bs u hx hk ho hc hs hm hv hr hw => ?_⟩
  · refine ⟨_, copyStep_reads hx hk ho hp hu, ?_⟩
    rw [copyRead_ok hc hl ha hr]
    exact ⟨rfl, rfl, rfl, by simp only [bump, getCl_modCore, getCl_modCl_self]⟩
  · refine ⟨_, copyStep_writes hx hk ho hp hu, ?_⟩
    rw [copyWrite_ok hc hl hw]
    refine ⟨by simp only [bump, getCl_modCore, getCl_modCl_self, List.isEmpty_iff], ?_, rfl, rfl, rfl⟩
    rw [stats_bump, stats_bump]
    simp
  · exact ⟨_, engineWrite_row hb ha hr hq, fillWords_row s r q k id off skip bs h0 h8 hl⟩
  · refine ⟨_, distStep_in hx hk ho hc hs hm hv hr hw, ?_, rfl, rfl, rfl⟩
    simp only [bump, getDie_modCore, getDie_modDie_self, List.isEmpty_iff]

end Sys2Proof.Proofs

-- ==== Proofs of 02_rows_as_memory ====
namespace Sys2Proof.Proofs
open Sys2Proof.Machine Sys2Proof.Claims

/-- Every instruction and every device step keeps canonical memory and legal control blocks. -/
theorem exec_kept {s0 s : State} (h : Kept s0 s) : ∀ i : Instr, KeptO s0 (exec i s)
  | .aluAdd sz tb ta b a d => execAluAdd_kept sz tb ta b a d s h
  | .aluSub sz tb ta b a d => execAluSub_kept sz tb ta b a d s h
  | .aluMul sz tb ta b a d => execAluMul_kept sz tb ta b a d s h
  | .aluMulh sz tb ta b a d => execAluMulh_kept sz tb ta b a d s h
  | .aluMulhu sz tb ta b a d => execAluMulhu_kept sz tb ta b a d s h
  | .aluDiv sz tb ta b a d => execAluDiv_kept sz tb ta b a d s h
  | .aluDivu sz tb ta b a d => execAluDivu_kept sz tb ta b a d s h
  | .aluRem sz tb ta b a d => execAluRem_kept sz tb ta b a d s h
  | .aluRemu sz tb ta b a d => execAluRemu_kept sz tb ta b a d s h
  | .aluAnd sz tb ta b a d => execAluAnd_kept sz tb ta b a d s h
  | .aluOr sz tb ta b a d => execAluOr_kept sz tb ta b a d s h
  | .aluXor sz tb ta b a d => execAluXor_kept sz tb ta b a d s h
  | .aluAndn sz tb ta b a d => execAluAndn_kept sz tb ta b a d s h
  | .aluShl sz tb ta b a d => execAluShl_kept sz tb ta b a d s h
  | .aluShr sz tb ta b a d => execAluShr_kept sz tb ta b a d s h
  | .aluSra sz tb ta b a d => execAluSra_kept sz tb ta b a d s h
  | .aluMin sz tb ta b a d => execAluMin_kept sz tb ta b a d s h
  | .aluMax sz tb ta b a d => execAluMax_kept sz tb ta b a d s h
  | .aluMinu sz tb ta b a d => execAluMinu_kept sz tb ta b a d s h
  | .aluMaxu sz tb ta b a d => execAluMaxu_kept sz tb ta b a d s h
  | .aluRot sz tb ta b a d => execAluRot_kept sz tb ta b a d s h
  | .aluClz sz tb ta a d => execAluClz_kept sz tb ta a d s h
  | .aluCtz sz tb ta a d => execAluCtz_kept sz tb ta a d s h
  | .aluPopc sz tb ta a d => execAluPopc_kept sz tb ta a d s h
  | .aluEq sz tb ta b a d => execAluEq_kept sz tb ta b a d s h
  | .aluNe sz tb ta b a d => execAluNe_kept sz tb ta b a d s h
  | .aluLt sz tb ta b a d => execAluLt_kept sz tb ta b a d s h
  | .aluLtu sz tb ta b a d => execAluLtu_kept sz tb ta b a d s h
  | .aluLe sz tb ta b a d => execAluLe_kept sz tb ta b a d s h
  | .aluLeu sz tb ta b a d => execAluLeu_kept sz tb ta b a d s h
  | .aluSel sz tb ta b a d => execAluSel_kept sz tb ta b a d s h
  | .aluExt sz tb ta b a d => execAluExt_kept sz tb ta b a d s h
  | .alui imm ta a d => execAlui_kept imm ta a d s h
  | .andi imm ta a d => execAndi_kept imm ta a d s h
  | .ori imm ta a d => execOri_kept imm ta a d s h
  | .xori imm ta a d => execXori_kept imm ta a d s h
  | .shiShl sz amt ta a d => execShiShl_kept sz amt ta a d s h
  | .shiShr sz amt ta a d => execShiShr_kept sz amt ta a d s h
  | .shiSra sz amt ta a d => execShiSra_kept sz amt ta a d s h
  | .shiRot sz amt ta a d => execShiRot_kept sz amt ta a d s h
  | .cmpiEq imm ta a d => execCmpiEq_kept imm ta a d s h
  | .cmpiNe imm ta a d => execCmpiNe_kept imm ta a d s h
  | .cmpiLt imm ta a d => execCmpiLt_kept imm ta a d s h
  | .cmpiLtu imm ta a d => execCmpiLtu_kept imm ta a d s h
  | .cmpiLe imm ta a d => execCmpiLe_kept imm ta a d s h
  | .cmpiLeu imm ta a d => execCmpiLeu_kept imm ta a d s h
  | .cmpiGt imm ta a d => execCmpiGt_kept imm ta a d s h
  | .cmpiGtu imm ta a d => execCmpiGtu_kept imm ta a d s h
  | .ldi imm d => execLdi_kept imm d s h
  | .ldx imm d => execLdx_kept imm d s h
  | .extC0 imm e => execExtC0_kept imm e s h
  | .extC1 imm e => execExtC1_kept imm e s h
  | .extC2 imm e => execExtC2_kept imm e s h
  | .extX x e => execExtX_kept x e s h
  | .br imm d => execBr_kept imm d s h
  | .bcEq imm ta b a => execBcEq_kept imm ta b a s h
  | .bcNe imm ta b a => execBcNe_kept imm ta b a s h
  | .bcLt imm ta b a => execBcLt_kept imm ta b a s h
  | .bcLtu imm ta b a => execBcLtu_kept imm ta b a s h
  | .bcGe imm ta b a => execBcGe_kept imm ta b a s h
  | .bcGeu imm ta b a => execBcGeu_kept imm ta b a s h
  | .jmp imm ta a d => execJmp_kept imm ta a d s h
  | .jmpRet imm ta a d => execJmpRet_kept imm ta a d s h
  | .ld off mo sz ta a d => execLd_kept off mo sz ta a d s h
  | .st off mo sz ta a d => execSt_kept off mo sz ta a d s h
  | .vld off mo sz ta a d => execVld_kept off mo sz ta a d s h
  | .vst off mo sz ta a d => execVst_kept off mo sz ta a d s h
  | .vmemGather ty t mk b a d => execVmemGather_kept ty t mk b a d s h
  | .vmemScatter ty t mk b a d => execVmemScatter_kept ty t mk b a d s h
  | .vmemLds ty t mk b a d => execVmemLds_kept ty t mk b a d s h
  | .vmemSts ty t mk b a d => execVmemSts_kept ty t mk b a d s h
  | .vmemScatredAdd ty t mk b a d => execVmemScatredAdd_kept ty t mk b a d s h
  | .vmemScatredFadd ty t mk b a d => execVmemScatredFadd_kept ty t mk b a d s h
  | .vmemScatredMin ty t mk b a d => execVmemScatredMin_kept ty t mk b a d s h
  | .vmemScatredMax ty t mk b a d => execVmemScatredMax_kept ty t mk b a d s h
  | .vmemScatredMinu ty t mk b a d => execVmemScatredMinu_kept ty t mk b a d s h
  | .vmemScatredMaxu ty t mk b a d => execVmemScatredMaxu_kept ty t mk b a d s h
  | .vmemScatredOr ty t mk b a d => execVmemScatredOr_kept ty t mk b a d s h
  | .amoAdd post scope sz tb ta b a d => execAmoAdd_kept post scope sz tb ta b a d s h
  | .amoAnd post scope sz tb ta b a d => execAmoAnd_kept post scope sz tb ta b a d s h
  | .amoOr post scope sz tb ta b a d => execAmoOr_kept post scope sz tb ta b a d s h
  | .amoXor post scope sz tb ta b a d => execAmoXor_kept post scope sz tb ta b a d s h
  | .amoMin post scope sz tb ta b a d => execAmoMin_kept post scope sz tb ta b a d s h
  | .amoMax post scope sz tb ta b a d => execAmoMax_kept post scope sz tb ta b a d s h
  | .amoMinu post scope sz tb ta b a d => execAmoMinu_kept post scope sz tb ta b a d s h
  | .amoMaxu post scope sz tb ta b a d => execAmoMaxu_kept post scope sz tb ta b a d s h
  | .amoSwap post scope sz tb ta b a d => execAmoSwap_kept post scope sz tb ta b a d s h
  | .amoCas post scope sz tb ta b a d => execAmoCas_kept post scope sz tb ta b a d s h
  | .amoDecFire scope tb ta a d => execAmoDecFire_kept scope tb ta a d s h
  | .amoFadd post scope sz tb ta b a d => execAmoFadd_kept post scope sz tb ta b a d s h
  | .syncFenceDie tb ta => execSyncFenceDie_kept tb ta s h
  | .syncFenceDev tb ta => execSyncFenceDev_kept tb ta s h
  | .syncFenceSys tb ta => execSyncFenceSys_kept tb ta s h
  | .syncFenceCp tb ta => execSyncFenceCp_kept tb ta s h
  | .syncFenceU tb ta => execSyncFenceU_kept tb ta s h
  | .syncRel tb ta b a => execSyncRel_kept tb ta b a s h
  | .syncAcq tb ta a d => execSyncAcq_kept tb ta a d s h
  | .syncClnRange tb ta b a => execSyncClnRange_kept tb ta b a s h
  | .syncInvRange tb ta b a => execSyncInvRange_kept tb ta b a s h
  | .syncFlnRange tb ta b a => execSyncFlnRange_kept tb ta b a s h
  | .syncFeClr tb ta b a => execSyncFeClr_kept tb ta b a s h
  | .syncFeSet tb ta b a => execSyncFeSet_kept tb ta b a s h
  | .valuAdd ty t mk b a d => execValuAdd_kept ty t mk b a d s h
  | .valuSub ty t mk b a d => execValuSub_kept ty t mk b a d s h
  | .valuMul ty t mk b a d => execValuMul_kept ty t mk b a d s h
  | .valuMulh ty t mk b a d => execValuMulh_kept ty t mk b a d s h
  | .valuAnd ty t mk b a d => execValuAnd_kept ty t mk b a d s h
  | .valuOr ty t mk b a d => execValuOr_kept ty t mk b a d s h
  | .valuXor ty t mk b a d => execValuXor_kept ty t mk b a d s h
  | .valuShl ty t mk b a d => execValuShl_kept ty t mk b a d s h
  | .valuShr ty t mk b a d => execValuShr_kept ty t mk b a d s h
  | .valuSra ty t mk b a d => execValuSra_kept ty t mk b a d s h
  | .valuMin ty t mk b a d => execValuMin_kept ty t mk b a d s h
  | .valuMax ty t mk b a d => execValuMax_kept ty t mk b a d s h
  | .valuMinu ty t mk b a d => execValuMinu_kept ty t mk b a d s h
  | .valuMaxu ty t mk b a d => execValuMaxu_kept ty t mk b a d s h
  | .valuCmp ty t mk b a cond m => execValuCmp_kept ty t mk b a cond m s h
  | .valuSel ty t mk b a d => execValuSel_kept ty t mk b a d s h
  | .vfpAdd ty t mk b a d => execVfpAdd_kept ty t mk b a d s h
  | .vfpSub ty t mk b a d => execVfpSub_kept ty t mk b a d s h
  | .vfpMul ty t mk b a d => execVfpMul_kept ty t mk b a d s h
  | .vfpDiv ty t mk b a d => execVfpDiv_kept ty t mk b a d s h
  | .vfpMin ty t mk b a d => execVfpMin_kept ty t mk b a d s h
  | .vfpMax ty t mk b a d => execVfpMax_kept ty t mk b a d s h
  | .vfpRnd ty t mk a d => execVfpRnd_kept ty t mk a d s h
  | .vfpExp2f ty t mk a d => execVfpExp2f_kept ty t mk a d s h
  | .vfpScale ty t mk b a d => execVfpScale_kept ty t mk b a d s h
  | .vfpGetexp ty t mk a d => execVfpGetexp_kept ty t mk a d s h
  | .vfpRcp ty t mk a d => execVfpRcp_kept ty t mk a d s h
  | .vfpRsq ty t mk a d => execVfpRsq_kept ty t mk a d s h
  | .vfpSqrt ty t mk a d => execVfpSqrt_kept ty t mk a d s h
  | .vfpCvt ty t mk sty a d => execVfpCvt_kept ty t mk sty a d s h
  | .vfpCmp ty t mk b a cond m => execVfpCmp_kept ty t mk b a cond m s h
  | .vfpCls ty t mk a d => execVfpCls_kept ty t mk a d s h
  | .vfmaFma ty mk c b a d => execVfmaFma_kept ty mk c b a d s h
  | .vfmaFms ty mk c b a d => execVfmaFms_kept ty mk c b a d s h
  | .vfmaFnma ty mk c b a d => execVfmaFnma_kept ty mk c b a d s h
  | .vfmaFnms ty mk c b a d => execVfmaFnms_kept ty mk c b a d s h
  | .maskAnd tb ta b a d => execMaskAnd_kept tb ta b a d s h
  | .maskOr tb ta b a d => execMaskOr_kept tb ta b a d s h
  | .maskXor tb ta b a d => execMaskXor_kept tb ta b a d s h
  | .maskAndn tb ta b a d => execMaskAndn_kept tb ta b a d s h
  | .maskNot tb ta a d => execMaskNot_kept tb ta a d s h
  | .maskPop tb ta a d => execMaskPop_kept tb ta a d s h
  | .maskFirst tb ta a d => execMaskFirst_kept tb ta a d s h
  | .maskFromx tb ta a d => execMaskFromx_kept tb ta a d s h
  | .maskTox tb ta a d => execMaskTox_kept tb ta a d s h
  | .maskAll tb ta d => execMaskAll_kept tb ta d s h
  | .maskLanes tb ta a d => execMaskLanes_kept tb ta a d s h
  | .fpuAdd fmt tb ta b a d => execFpuAdd_kept fmt tb ta b a d s h
  | .fpuSub fmt tb ta b a d => execFpuSub_kept fmt tb ta b a d s h
  | .fpuMul fmt tb ta b a d => execFpuMul_kept fmt tb ta b a d s h
  | .fpuDiv fmt tb ta b a d => execFpuDiv_kept fmt tb ta b a d s h
  | .fpuSqrt fmt tb ta a d => execFpuSqrt_kept fmt tb ta a d s h
  | .fpuMin fmt tb ta b a d => execFpuMin_kept fmt tb ta b a d s h
  | .fpuMax fmt tb ta b a d => execFpuMax_kept fmt tb ta b a d s h
  | .fpuFma fmt tb ta b a d => execFpuFma_kept fmt tb ta b a d s h
  | .fpuRnd fmt tb ta a d => execFpuRnd_kept fmt tb ta a d s h
  | .fpuCvt conv fmt tb ta a d => execFpuCvt_kept conv fmt tb ta a d s h
  | .fpuEq fmt tb ta b a d => execFpuEq_kept fmt tb ta b a d s h
  | .fpuLt fmt tb ta b a d => execFpuLt_kept fmt tb ta b a d s h
  | .fpuLe fmt tb ta b a d => execFpuLe_kept fmt tb ta b a d s h
  | .fpuCls fmt tb ta a d => execFpuCls_kept fmt tb ta a d s h
  | .fpuSgnj fmt tb ta b a d => execFpuSgnj_kept fmt tb ta b a d s h
  | .fpuAbs fmt tb ta a d => execFpuAbs_kept fmt tb ta a d s h
  | .rowYield tb ta => execRowYield_kept tb ta s h
  | .rowWait tb ta a => execRowWait_kept tb ta a s h
  | .rowStop tb ta => execRowStop_kept tb ta s h
  | .rowRowid tb ta d => execRowRowid_kept tb ta d s h
  | .rowSend tb ta a d => execRowSend_kept tb ta a d s h
  | .rowSpawn tb ta b a d => execRowSpawn_kept tb ta b a d s h
  | .rowDone tb ta => execRowDone_kept tb ta s h
  | .rowBudget tb ta a d => execRowBudget_kept tb ta a d s h
  | .rowBarInit tb ta b a => execRowBarInit_kept tb ta b a s h
  | .rowBarArrive tb ta a d => execRowBarArrive_kept tb ta a d s h
  | .rowBarWait tb ta b a => execRowBarWait_kept tb ta b a s h
  | .rowBarSync tb ta a d => execRowBarSync_kept tb ta a d s h
  | .rowDqPush tb ta b a d => execRowDqPush_kept tb ta b a d s h
  | .rowDqPop tb ta dp => execRowDqPop_kept tb ta dp s h
  | .rowDqSplit tb ta b a d => execRowDqSplit_kept tb ta b a d s h
  | .rowDqSteal tb ta dp => execRowDqSteal_kept tb ta dp s h
  | .rowDqLen tb ta d => execRowDqLen_kept tb ta d s h
  | .engineCpLin tb ta b a d => execEngineCpLin_kept tb ta b a d s h
  | .engineCpDist e tb ta b a d => execEngineCpDist_kept e tb ta b a d s h
  | .engineCpStat tb ta d => execEngineCpStat_kept tb ta d s h
  | .engineMxGang tb ta a d => execEngineMxGang_kept tb ta a d s h
  | .engineMxStat tb ta d => execEngineMxStat_kept tb ta d s h
  | .engineMxAbort tb ta d => execEngineMxAbort_kept tb ta d s h
  | .engineEdgeRun ta a d => execEngineEdgeRun_kept ta a d s h
  | .engineEdgeRet ta => execEngineEdgeRet_kept ta s h
  | .engineEdgeStat ta dp => execEngineEdgeStat_kept ta dp s h
  | .sysNop => execSysNop_kept s h
  | .sysTrap code => execSysTrap_kept code s h
  | .sysBkpt code => execSysBkpt_kept code s h
  | .sysUret => execSysUret_kept s h
  | .sysHalt => execSysHalt_kept s h
  | .sysSysr num d => execSysSysr_kept num d s h
  | .sysSysw num d => execSysSysw_kept num d s h
  | .sysShoot dp => execSysShoot_kept dp s h
  | .sysGang d => execSysGang_kept d s h
  | .sysSwap d => execSysSwap_kept d s h
  | .vxfBcast ty t mk a d => execVxfBcast_kept ty t mk a d s h
  | .vxfExt ty t b a d => execVxfExt_kept ty t b a d s h
  | .vxfIns ty t b a d => execVxfIns_kept ty t b a d s h
  | .vxfPerm ty t mk b a d => execVxfPerm_kept ty t mk b a d s h
  | .vxfRedAdd ty t mk a d => execVxfRedAdd_kept ty t mk a d s h
  | .vxfRedMin ty t mk a d => execVxfRedMin_kept ty t mk a d s h
  | .vxfRedMax ty t mk a d => execVxfRedMax_kept ty t mk a d s h
  | .vxfIota ty t mk d => execVxfIota_kept ty t mk d s h
  | .vxfAbs ty t mk a d => execVxfAbs_kept ty t mk a d s h
  | .vxfNeg ty t mk a d => execVxfNeg_kept ty t mk a d s h
  | .vxfSgnj ty t mk b a d => execVxfSgnj_kept ty t mk b a d s h
  | .vxfShfdn ty t mk b a d => execVxfShfdn_kept ty t mk b a d s h
  | .hMov a d => execHMov_kept a d s h
  | .hAdd a d => execHAdd_kept a d s h
  | .hAddi5 imm d => execHAddi5_kept imm d s h
  | .hSub a d => execHSub_kept a d s h
  | .hAnd a d => execHAnd_kept a d s h
  | .hOr a d => execHOr_kept a d s h
  | .hXor a d => execHXor_kept a d s h
  | .hShli imm d => execHShli_kept imm d s h
  | .hShri imm d => execHShri_kept imm d s h
  | .hLd64 a d => execHLd64_kept a d s h
  | .hLd32 a d => execHLd32_kept a d s h
  | .hSt64 a d => execHSt64_kept a d s h
  | .hSt32 a d => execHSt32_kept a d s h
  | .hBeqz imm d => execHBeqz_kept imm d s h
  | .hBnez imm d => execHBnez_kept imm d s h
  | .hLt a d => execHLt_kept a d s h
  | .hLdi5 imm d => execHLdi5_kept imm d s h
  | .hVfaddF32 ign14 a ign9 d => execHVfaddF32_kept ign14 a ign9 d s h
  | .hVfmulF32 ign14 a ign9 d => execHVfmulF32_kept ign14 a ign9 d s h
  | .hNop => execHNop_kept s h
  | .hYield => execHYield_kept s h
  | .hRet => execHRet_kept s h
  | .illegalInstruction w => execIllegalInstruction_kept w s h
  | .startStage res => execStartStage_kept res s h
  | .storePerform core => execStorePerform_kept core s h
  | .fill id k => execFill_kept id k s h
  | .atomicPerform id => execAtomicPerform_kept id s h
  | .dispatch core => execDispatch_kept core s h
  | .selection core bank => execSelection_kept core bank s h
  | .openingComplete core bank => execOpeningComplete_kept core bank s h
  | .closingComplete core bank => execClosingComplete_kept core bank s h
  | .upcallDelivery core => execUpcallDelivery_kept core s h
  | .ctlNone r v priv => execCtlNone_kept r v priv s h
  | .kindle r => execKindle_kept r s h
  | .stop r => execStop_kept r s h
  | .redirect r => execRedirect_kept r s h
  | .stepOne r => execStepOne_kept r s h
  | .resume r => execResume_kept r s h
  | .skip r => execSkip_kept r s h
  | .outsideAccess who pa op => execOutsideAccess_kept who pa op s h
  | .remoteFePerform id => execRemoteFePerform_kept id s h
  | .dateBroadcast slice date => execDateBroadcast_kept slice date s h
  | .acquirePassOwn id slice => execAcquirePassOwn_kept id slice s h
  | .acquirePassOther id slice => execAcquirePassOther_kept id slice s h
  | .frostSweep slice => execFrostSweep_kept slice s h
  | .inboxEntry i0 => execInboxEntry_kept i0 s h
  | .stokerBind die i0 => execStokerBind_kept die i0 s h
  | .runQueueEntry die i0 => execRunQueueEntry_kept die i0 s h
  | .hostQueueWrite die => execHostQueueWrite_kept die s h
  | .quantumExpiry core bank => execQuantumExpiry_kept core bank s h
  | .budget core bank n => execBudget_kept core bank n s h
  | .flueRequest i0 hop => execFlueRequest_kept i0 hop s h
  | .flueRecord die i0 => execFlueRecord_kept die i0 s h
  | .flueres v => execFlueres_kept v s h
  | .flueResolution i0 core => execFlueResolution_kept i0 core s h
  | .halt core => execHalt_kept core s h
  | .haltReport part => execHaltReport_kept part s h
  | .gangRelease part => execGangRelease_kept part s h
  | .swapExchange part => execSwapExchange_kept part s h
  | .arrivalLog part => execArrivalLog_kept part s h
  | .logReplay part => execLogReplay_kept part s h
  | .copyPiece cluster i0 part => execCopyPiece_kept cluster i0 part s h
  | .distributorBlock die i0 part => execDistributorBlock_kept die i0 part s h
  | .gangBarrier cl => execGangBarrier_kept cl s h
  | .prefetch cl => execPrefetch_kept cl s h
  | .permitGrant cl => execPermitGrant_kept cl s h
  | .loadB core => execLoadB_kept core s h
  | .mac core => execMac_kept core s h
  | .rotate cl => execRotate_kept cl s h
  | .drain core => execDrain_kept core s h
  | .group core => execGroup_kept core s h
  | .endStep core => execEndStep_kept core s h
  | .ringWatchdog cl n => execRingWatchdog_kept cl n s h
  | .edgeRunStart core => execEdgeRunStart_kept core s h
  | .chunkTake core => execChunkTake_kept core s h
  | .batch core n => execBatch_kept core n s h
  | .batchApply core => execBatchApply_kept core s h
  | .levelEnd core => execLevelEnd_kept core s h
  | .midLevelSwitch core => execMidLevelSwitch_kept core s h
  | .barrierArrival i0 => execBarrierArrival_kept i0 s h
  | .syClk cl v priv => execSyClk_kept cl v priv s h
  | .clockTransition cl => execClockTransition_kept cl s h
  | .syCbudget cl v priv => execSyCbudget_kept cl v priv s h
  | .refill cl => execRefill_kept cl s h
  | .damperWindow w => execDamperWindow_kept w s h
  | .sySlope v priv => execSySlope_kept v priv s h
  | .capMessage v priv => execCapMessage_kept v priv s h
  | .leaseExpiry => execLeaseExpiry_kept s h
  | .thawSend v priv => execThawSend_kept v priv s h
  | .thawMessage img => execThawMessage_kept img s h
  | .thawHoldEnd => execThawHoldEnd_kept s h
  | .tail q v => execTail_kept q v s h
  | .notifyWordStore q v => execNotifyWordStore_kept q v s h
  | .inboxControlWrite q off v => execInboxControlWrite_kept q off v s h
  | .admission q late => execAdmission_kept q late s h
  | .hostWrite link bar off bytes => execHostWrite_kept link bar off bytes s h
  | .hostRead link bar off n => execHostRead_kept link bar off n s h
  | .cxlSnoop die pa inval => execCxlSnoop_kept die pa inval s h
  | .directoryMerge die i0 => execDirectoryMerge_kept die i0 s h
  | .peerAccess port pa op => execPeerAccess_kept port pa op s h
  | .routeFailure peer => execRouteFailure_kept peer s h
  | .partFailure k n => execPartFailure_kept k n s h
  | .dieFailure die => execDieFailure_kept die s h
  | .powerOn => execPowerOn_kept s h
  | .perst => execPerst_kept s h
  | .syReset v priv => execSyReset_kept v priv s h
  | .stageTimeLimit => execStageTimeLimit_kept s h
  | .scrub die k unc => execScrub_kept die k unc s h
  | .sySerr k v priv => execSySerr_kept k v priv s h
  | .dequeClear core => execDequeClear_kept core s h
  | .bstateWrite core b v => execBstateWrite_kept core b v s h
  | .syClbind cl v priv => execSyClbind_kept cl v priv s h
  | .sysregWrite num v priv core => execSysregWrite_kept num v priv core s h
  | .softError site corrected => execSoftError_kept site corrected s h
  | .temperatureSensor cl hot => execTemperatureSensor_kept cl hot s h
  | .backInvalidateCompletion die i0 => execBackInvalidateCompletion_kept die i0 s h
  | .performanceAtTarget i0 => execPerformanceAtTarget_kept i0 s h

/-- A row's turn keeps them: what stands before the instruction, the instruction, and the mark of its slot. -/
theorem runRow_kept {s0 s : State} (h : Kept s0 s) (r : RowId) : KeptO s0 (runRow s r) := by
  have hi := issue_kept s r h
  unfold runRow
  split
  next t e => exact keptO_next (kept_snd e hi)
  next i t e => exact afterExec_kept t r _ (exec_kept (kept_snd e hi) i)

/-- A step of the package keeps them, whatever its turn is. -/
theorem step_kept (s : State) : KeptO s (step s) := by
  have h : Kept s { s with agenda := s.agenda.drop 1 } := kept_congr rfl rfl rfl (kept_refl s)
  unfold step
  dsimp only
  split
  case h_1 r _ => exact runRow_kept h r
  case h_2 i _ =>
    split
    · exact keptO_next h
    · exact exec_kept h i
  case h_3 => exact keptO_next (envTurn_kept _ _ h)

/-- Settles O59: every operation of the machine keeps control blocks legal, and so does a step, whatever its turn. -/
theorem stepKeepsControlBlocks : Obligations.StepKeepsControlBlocks :=
  fun s t e => (step_kept s t e).2

/-! ## The package at reset (O60) -/

theorem getRow_reset (r : RowId) : getRow State.reset r = {} := rfl

theorem rowsOk_reset : RowsOk State.reset := ⟨fun _ => rowOk_default, fun _ _ => rowOk_default⟩

/-- Above its control block a row reads zero: memory holds no byte at reset. -/
theorem getW_reset (r : RowId) {w : Nat} (hw : 16 ≤ w) : getW State.reset r w = 0 := by
  have hb : ∀ k, rowByte State.reset r (8 * w + k) = 0 := fun k => by
    rw [rowByte_high _ _ _ (by omega)]
    exact ite_self _
  have hz : rowBytes State.reset r (8 * w) 8 = List.replicate 8 0 :=
    List.ext_getElem (by simp [rowBytes_length]) fun k h _ => by
      rw [rowBytes_getElem _ _ _ _ _ h, hb, List.getElem_replicate]
  rw [getW, hz]
  rfl

/-- Settles O60: every record is its default at reset, and memory is empty. -/
theorem resetState : Obligations.ResetState := by
  unfold Obligations.ResetState
  refine ⟨rfl, rowsOk_reset, fun r => ?_, rfl, rfl, rfl, rfl, rfl, rfl, fun c => ⟨rfl, rfl⟩⟩
  rw [getRow_reset]
  exact ⟨rfl, rfl, rfl, fun d => getW_reset r (by unfold xw; omega), fun w => Bool.and_false _⟩

/-! ## A row's own stores (O16) -/

theorem isX0_iff (s : State) (pa : Nat) :
    isX0 s pa = true ↔ ∃ q win off, region s pa = .row q win off ∧ 0x100 ≤ off ∧ off < 0x108 := by
  unfold isX0
  split
  next q win off e => simp [e]
  next h => simpa using fun q win off e => absurd e (h q win off)

/-- No entry that holds the byte gives none. -/
theorem fwdByte_none {s : State} {pa : Nat} : ∀ {es : List StEnt},
    (∀ e ∈ es, ¬ (canonPa s e.part.pa ≤ pa ∧ pa < canonPa s e.part.pa + e.bytes.length)) → fwdByte s pa es = none
  | [], _ => rfl
  | e :: es, h => by
    rw [fwdByte, fwdByte_none fun f hf => h f (List.mem_cons_of_mem e hf)]
    exact if_neg (h e List.mem_cons_self)

/-- The youngest entry that holds the byte gives it, whatever the older ones hold. -/
theorem fwdByte_youngest {s : State} {pa : Nat} {e : StEnt} {younger : List StEnt}
    (he : canonPa s e.part.pa ≤ pa ∧ pa < canonPa s e.part.pa + e.bytes.length)
    (hy : ∀ f ∈ younger, ¬ (canonPa s f.part.pa ≤ pa ∧ pa < canonPa s f.part.pa + f.bytes.length)) :
    ∀ older : List StEnt, fwdByte s pa (older ++ e :: younger) = some (e.bytes.getD (pa - canonPa s e.part.pa) 0)
  | [] => by
    rw [List.nil_append, fwdByte, fwdByte_none hy]
    exact if_pos he
  | f :: older => by rw [List.cons_append, fwdByte, fwdByte_youngest he hy older]

theorem forward_length (s : State) (r : RowId) (k bound : Nat) (p : Part) (bs : List Byte) :
    (forward s r k bound p bs).length = bs.length := by
  simp [forward]

theorem forward_getD (s : State) (r : RowId) (part bound : Nat) (p : Part) {bs : List Byte} {k : Nat} (hk : k < bs.length) :
    (forward s r part bound p bs).getD k 0 = if isX0 s (canonPa s p.pa + k) then bs.getD k 0
      else (fwdByte s (canonPa s p.pa + k) (fifoOf s r part bound)).getD (bs.getD k 0) := by
  simp [forward, hk]

/-- Settles O16: byte by byte, forwarding looks the byte up in the row's older entries, the youngest first. -/
theorem loadsSeeOwnStores : Obligations.LoadsSeeOwnStores := by
  unfold Obligations.LoadsSeeOwnStores
  rintro s r part bound p bs
  refine ⟨forward_length .., ?_⟩
  rintro k hk _ rfl
  rw [forward_getD s r part bound p hk]
  refine ⟨fun hz => if_pos ((isX0_iff ..).mpr hz), fun older e younger hes he hy hz => ?_, fun hn => ?_⟩
  · rw [if_neg (mt (isX0_iff ..).mp hz), hes, fwdByte_youngest he hy older]
    rfl
  · rw [fwdByte_none hn]
    exact ite_self _

/-! ## Blocking on an empty word (O11, O15) -/

/-- A row that blocks is stalled no longer, where `Blocks` leaves the rest of its control block, and so `stalled`, as it was. -/
theorem not_blocks_of_stalled {s : State} {i : Instr} {w : Nat} (hp : (getRow s s.cur).pend = [])
    (hs : (getRow s s.cur).stalled = true) (hi : exec i s = .next (block s s.cur w)) : ¬ Blocks s i w := by
  rintro ⟨t, ht, hr⟩
  rw [hi] at ht
  injection ht with ht
  have h := congrArg Row.stalled hr.row
  rw [← ht, getRow_block hp] at h
  exact Bool.false_ne_true (h.trans hs)

/-- A row whose store found the FIFO full stands on an instruction that reads X1, which is empty. -/
def stalledOnEmpty : State :=
  { rows := [(0, { st := .ready, stalled := true })], empt := [rowWord ⟨0, 0⟩ 33] }

theorem stalledOnEmpty_source : firstEmpty stalledOnEmpty stalledOnEmpty.cur [srcX 1 false] = some (33, false) := by decide

theorem stalledOnEmpty_blocks :
    exec (.alui 0 false 1 2) stalledOnEmpty = .next (block stalledOnEmpty stalledOnEmpty.cur 33) := by
  show Host.Outcome.next (aluImm stalledOnEmpty false 1 2 _) = _
  rw [aluImm, gate_block stalledOnEmpty_source]

/-- Refutes O11: the claim says nothing of `stalled`, so a stalled row that blocks on an empty source would have to stay stalled. -/
theorem not_sourcesBlockOrTrap : ¬ Obligations.SourcesBlockOrTrap := by
  unfold Obligations.SourcesBlockOrTrap
  rintro ⟨blocks, -⟩
  exact not_blocks_of_stalled rfl (by decide) stalledOnEmpty_blocks
    (blocks stalledOnEmpty (.alui 0 false 1 2) [srcX 1 false] (by decide) rfl 33 false stalledOnEmpty_source)

/-- A row whose store found the FIFO full stands on an `fe` load, through X9, of its own X1, which is empty. -/
def stalledOnLoad : State :=
  putW { rows := [(0, { st := .ready, stalled := true, priv := true })], clusters := [(0, { valid := true })], parts := [(0, { root := 3 })],
         empt := [rowWord ⟨0, 0⟩ 33] } ⟨0, 0⟩ 41 0x4000000000108

/-- Its access: the eight bytes of X1. -/
def ownX1 : List Part := [⟨0x4000000000108, 0x4000000000108, 8, 0, 0, 0, true, false, 1, 0⟩]

theorem stalledOnLoad_check :
    check stalledOnLoad (ctxOf stalledOnLoad stalledOnLoad.cur) { rd := true, scalar := true } 0x4000000000108 8 false = .ok ownX1 := by
  decide +kernel

theorem stalledOnLoad_issues : Issues stalledOnLoad [srcX 9 false] := by decide +kernel

theorem stalledOnLoad_own : ownRow stalledOnLoad stalledOnLoad.cur ownX1 = true := by decide +kernel

theorem stalledOnLoad_empty : emptyOf stalledOnLoad stalledOnLoad.cur (ownWords stalledOnLoad ownX1) = [33] := by decide +kernel

theorem stalledOnLoad_free : (remoteBefore stalledOnLoad stalledOnLoad.cur ||
    ownX1.any (ownBefore stalledOnLoad stalledOnLoad.cur (partIx stalledOnLoad stalledOnLoad.cur.core) stalledOnLoad.nextId)) = false := by
  decide +kernel

theorem holdGate_none {s : State} {r : RowId} (h : holdWord s r = none) (body : State) : holdGate s r body = body := by
  unfold holdGate; rw [h]

/-- A load of the row itself in mode `fe` or `fe.take` blocks on the lowest empty word it touches (R236). -/
theorem ownLoad_blocks {s : State} {r : RowId} {ps : List Part} {fe w : Nat} {ws : List Nat}
    (hf : (remoteBefore s r || ps.any (ownBefore s r (partIx s r.core) s.nextId)) = false) (h0 : fe ≠ 0)
    (he : emptyOf s r (ownWords s ps) = w :: ws) (put : Put) (words : List Nat) (len : Nat) :
    ownLoad s r ps fe put words len = block s r w := by
  simp only [ownLoad, hf, h0, he, Bool.false_eq_true, if_false]

/-- A load whose parts all lie in the row itself goes the way of own-row loads. -/
theorem load_own {s : State} {r : RowId} {p : Word} {n mo fe : Nat} {vec : Bool} {ps : List Part}
    (hfe : fe = if mo = 1 then 1 else if mo = 2 then 2 else 0)
    (hc : check s (ctxOf s r) { rd := true, scalar := !vec } p n (fe != 0 && p.toNat % min n 16 != 0) = .ok ps)
    (ho : ownRow s r ps = true) (put : Put) (words : List Nat) (len : Nat) :
    load s r p n mo vec put words len = ownLoad s r ps fe put words len := by
  subst hfe
  simp only [load, accLoad, hc, ho, if_true]

theorem stalledOnLoad_blocks :
    exec (.ld 0 1 6 false 9 5) stalledOnLoad = .next (block stalledOnLoad stalledOnLoad.cur 33) := by
  have hp : wmPtr stalledOnLoad stalledOnLoad.cur 9 0 8 = 0x4000000000108 := by decide +kernel
  show Host.Outcome.next (holdGate _ _ (gate _ _ 0 [srcX 9 false]
    (load stalledOnLoad stalledOnLoad.cur (wmPtr stalledOnLoad stalledOnLoad.cur 9 0 8) 8 1 false (.x 5 8 false) [xw 5] 4))) = _
  rw [holdGate_none stalledOnLoad_issues.2, gate_ready stalledOnLoad_issues.1.2, hp,
    load_own (fe := 1) rfl stalledOnLoad_check stalledOnLoad_own,
    ownLoad_blocks stalledOnLoad_free (by decide) stalledOnLoad_empty]

/-- Refutes O15: a stalled row whose `fe` load of an empty word of its own blocks would have to stay stalled. -/
theorem not_ownRowAccesses : ¬ Obligations.OwnRowAccesses := by
  unfold Obligations.OwnRowAccesses
  rintro ⟨loads, -⟩
  have h := loads stalledOnLoad (.ld 0 1 6 false 9 5) 8 1 4 { rd := true, scalar := true } 0x4000000000108 false ownX1
    ⟨_, rfl, stalledOnLoad_issues⟩ (by decide +kernel) stalledOnLoad_check stalledOnLoad_own 9 5 (loaded 8 false) false
    (.inr (.inr ⟨0, 1, 6, false, rfl, rfl, rfl, rfl, rfl⟩))
  obtain ⟨blocks, -⟩ := h.2 stalledOnLoad_free
  exact not_blocks_of_stalled (by decide +kernel) (by decide +kernel) stalledOnLoad_blocks (blocks 33 [] (by decide) stalledOnLoad_empty)

/-! ## Leaving the running rows (O13) -/

/-- A row that leaves is closed, whatever has changed before beside its bank. -/
theorem closed_leave {s u : State} (hb : getBank u s.cur.core (s.cur.row % 4) = getBank s s.cur.core (s.cur.row % 4)) :
    Closed s (leave u s.cur) where
  ready := leave_ready u s.cur
  closing k hk hs hr := by
    refine leave_closing u s.cur k hk ?_ (by rw [hb]; exact hr)
    unfold slotOf at hs ⊢
    rw [hb]
    exact hs

/-- Control block of a row that has been stopped with reason `y`. -/
def stoppedRow (w : Row) (y : Nat) : Row :=
  { w with st := .stopped, why := y, waitw := 0, await := none, stepping := false, stalled := false }

theorem getRow_makeStopped (s : State) (r q : RowId) (y : Nat) :
    getRow (makeStopped s r y) q = if rkey q = rkey r then stoppedRow (getRow s r) y else getRow s q := by
  unfold makeStopped
  rw [getRow_leave, getRow_modRow]
  rfl

theorem makeStopped_rest (s : State) (r : RowId) (y : Nat) :
    makeStopped s r y = { s with rows := (makeStopped s r y).rows, cores := (makeStopped s r y).cores } := by
  unfold makeStopped
  rw [leave_rest]
  rfl

theorem getCore_makeStopped (s : State) (r : RowId) (y c : Nat) :
    getCore (makeStopped s r y) c = { getCore s c with banks := (getCore (makeStopped s r y) c).banks } := by
  unfold makeStopped
  exact getCore_leave _ r c

theorem closed_makeStopped {s u : State} (y : Nat)
    (hb : getBank u s.cur.core (s.cur.row % 4) = getBank s s.cur.core (s.cur.row % 4)) : Closed s (makeStopped u s.cur y) :=
  closed_leave hb

/-- `u` is `s` but for the control block of row `s.cur` and counters. -/
structure Counted (s u : State) : Prop where
  rows : OtherRows s u s.cur
  cores : CountersOnly s u
  rest : u = { s with rows := u.rows, cores := u.cores }

theorem Counted.bank {s u : State} (h : Counted s u) (c b : Nat) : getBank u c b = getBank s c b := by
  unfold getBank
  rw [h.cores c]

/-- A row stopped after its instruction is parked with the control block that the instruction left, stopped. -/
theorem Counted.parked {s u : State} (h : Counted s u) (y : Nat) :
    Parked s (makeStopped u s.cur y) (stoppedRow (getRow u s.cur) y) where
  row := by rw [getRow_makeStopped, if_pos rfl]
  rows q hq := by rw [getRow_makeStopped, if_neg hq, h.rows q hq]
  closed := closed_makeStopped y (h.bank _ _)
  cores c := by rw [getCore_makeStopped, h.cores c]
  rest := (makeStopped_rest u s.cur y).trans (congrArg (fun x : State =>
    { x with rows := (makeStopped u s.cur y).rows, cores := (makeStopped u s.cur y).cores }) h.rest)

theorem counted_bump (s : State) (c k n : Nat) : Counted s (bump s c k n) where
  rows _ _ := rfl
  cores m := by
    unfold bump
    rw [getCore_modCore]
    split
    · subst_vars; rfl
    · rfl
  rest := rfl

theorem Counted.modRow {s u : State} (h : Counted s u) (f : Row → Row) : Counted s (modRow u s.cur f) where
  rows q hq := by rw [getRow_modRow, if_neg hq, h.rows q hq]
  cores := h.cores
  rest := congrArg (fun x : State => { x with rows := (Machine.modRow u s.cur f).rows, cores := u.cores }) h.rest

theorem counted_retire {s : State} (hg : Going s) (n : Nat) : Counted s (retire s s.cur n) := by
  obtain ⟨-, hs, hp⟩ := hg
  unfold retire
  rw [retireTo_eq s s.cur _ hs hp]
  exact (counted_bump s s.cur.core 1 1).modRow fun w => retiredRow w 0 ((getRow s s.cur).pc + wNat n)

theorem getRow_retire {s : State} (hg : Going s) (n : Nat) :
    getRow (retire s s.cur n) s.cur = retiredRow (getRow s s.cur) 0 (after s n) :=
  (retire_done0 hg (Wrote.refl s) n).row

/-! ### Taking an exception -/

theorem closed_congr {s t u : State} (hb : getBank t s.cur.core (s.cur.row % 4) = getBank u s.cur.core (s.cur.row % 4))
    (h : Closed s u) : Closed s t where
  ready := by rw [hb]; exact h.ready
  closing k hk hs hr := by rw [hb]; exact h.closing k hk hs hr

theorem trap_word (x : Trap) : x.word =
    wNat (2 ^ 16 * x.code + 2 ^ 11 * x.sub + (if x.flue then 2 ^ 10 else 0) + 2 ^ 8 * x.acc + x.cause) := by
  unfold Trap.word
  cases x.flue <;> rfl

/-- The row part of an exception and, for a page fault, the request up the Flue: what is left to do is the delivery. -/
def raisedUndelivered (s : State) (r : RowId) (x : Trap) (k : Nat) : State :=
  if x.flue then sendFlue (raiseRow s r x k) r x else raiseRow s r x k

/-- The requests up the Flue that an exception adds (R343). -/
def flueOf (s : State) (r : RowId) (x : Trap) : List FlueReq :=
  if x.flue then
    [{ die := dieOf r.core, router := r.core % 160, port := r.core, core := r.core, asid := asidOf s r.core,
       page := Wbits x.fva 55 12, write := x.acc == 1 || x.acc == 3, memerr := x.cause == 12 }] else []

theorem raiseRow_rest (s : State) (r : RowId) (x : Trap) (k : Nat) :
    raiseRow s r x k = { s with rows := (raiseRow s r x k).rows, cores := (raiseRow s r x k).cores } := by
  unfold raiseRow
  rw [leave_rest]
  rfl

theorem raisedUndelivered_eq (s : State) (r : RowId) (x : Trap) (k : Nat) : raisedUndelivered s r x k =
    { s with rows := (raiseRow s r x k).rows, cores := (raiseRow s r x k).cores, flueReqs := s.flueReqs ++ flueOf s r x } := by
  have h := raiseRow_rest s r x k
  unfold raisedUndelivered flueOf
  split
  · exact congrArg (fun y : State => sendFlue y r x) h
  · simpa using h

section raised
variable (s : State) (x : Trap) (k : Nat)

theorem getRow_undelivered (q : RowId) : getRow (raisedUndelivered s s.cur x k) q =
    if rkey q = rkey s.cur then faultedRow (getRow s s.cur) x k else getRow s q := by
  have h : getRow (raisedUndelivered s s.cur x k) q = getRow (raiseRow s s.cur x k) q := by rw [raisedUndelivered_eq]; rfl
  rw [h, getRow_raiseRow, faultedRow, trap_word]
  rfl

theorem getCore_undelivered (c : Nat) : getCore (raisedUndelivered s s.cur x k) c =
    { getCore s c with banks := (getCore (raiseRow s s.cur x k) c).banks } := by
  rw [raisedUndelivered_eq]
  exact getCore_leave _ s.cur c

theorem toSupervisor_undelivered : toSupervisor (raisedUndelivered s s.cur x k) s.cur x.cause = supervised s x := by
  unfold toSupervisor supervised
  rw [getCore_undelivered, getRow_undelivered, if_pos rfl, raisedUndelivered_eq]
  rfl

theorem record_undelivered : faultRecord (raisedUndelivered s s.cur x k) s.cur =
    [(faultedRow (getRow s s.cur) x k).fcause, x.fva, rowVa s s.cur, (getRow s s.cur).pc, wNat k, (getRow s s.cur).task,
      wNat (getCore s s.cur.core).recSeq, 0] := by
  unfold faultRecord
  rw [getRow_undelivered, if_pos rfl, getCore_undelivered, raisedUndelivered_eq]
  rfl

/-- The record that a fault sends to the supervisor queue is a packet held by the row's die (R340, R342). -/
theorem deliver_held : (deliver (raisedUndelivered s s.cur x k) s.cur x.cause).held = s.held ++
    if supervised s x = true ∧ s.pkg.supq.getLsbD 15 = true then [⟨dieOf s.cur.core, recordPacket s (faultedRow (getRow s s.cur) x k)⟩]
    else [] := by
  have hq : (raisedUndelivered s s.cur x k).pkg = s.pkg := by rw [raisedUndelivered_eq]
  have hh : (raisedUndelivered s s.cur x k).held = s.held := by rw [raisedUndelivered_eq]
  have hr : (getCore (raisedUndelivered s s.cur x k) s.cur.core).recSeq = (getCore s s.cur.core).recSeq := by rw [getCore_undelivered]
  unfold deliver
  rw [toSupervisor_undelivered, sendSupervisor_eq, hq, hr, record_undelivered]
  by_cases h : supervised s x = true
  · by_cases h2 : s.pkg.supq.getLsbD 15 = true
    · rw [if_pos h, if_pos h2, if_pos ⟨h, h2⟩, modCore_held, hh]
      rfl
    · rw [if_pos h, if_neg h2, if_neg fun h => h2 h.2, hh, List.append_nil]
  · rw [if_neg h, if_neg fun h' => h h'.1, queueFault, modCore_held, hh, List.append_nil]

/-- A fault that does not go to the supervisor queues its row for an upcall, once (R341). -/
theorem deliver_faultq : (getCore (deliver (raisedUndelivered s s.cur x k) s.cur x.cause) s.cur.core).faultq =
    if supervised s x ∨ s.cur.row ∈ (getCore s s.cur.core).faultq then (getCore s s.cur.core).faultq
    else (getCore s s.cur.core).faultq ++ [s.cur.row] := by
  have hf : (getCore (raisedUndelivered s s.cur x k) s.cur.core).faultq = (getCore s s.cur.core).faultq := by rw [getCore_undelivered]
  unfold deliver
  rw [toSupervisor_undelivered, sendSupervisor_eq]
  by_cases h : supervised s x = true
  · rw [if_pos h, if_pos (show supervised s x = true ∨ _ from .inl h), ← hf]
    by_cases h2 : (raisedUndelivered s s.cur x k).pkg.supq.getLsbD 15 = true
    · rw [if_pos h2, getCore_modCore_self]; rfl
    · rw [if_neg h2]
  · rw [if_neg h, queueFault, getCore_modCore_self, hf]
    by_cases h2 : s.cur.row ∈ (getCore s s.cur.core).faultq
    · rw [if_pos (List.contains_iff_mem.mpr h2), if_pos (.inr h2), hf]
    · rw [if_neg (mt List.contains_iff_mem.mp h2), if_neg fun h' => h'.elim h h2]

theorem deliver_flueReqs (u : State) (r : RowId) (c : Nat) : (deliver u r c).flueReqs = u.flueReqs := by
  unfold deliver
  rw [sendSupervisor_eq]
  split
  · split <;> rfl
  · rfl
end raised

/-- An exception of a row with no command pending does what the rules say, and nothing else (R133, R338-R343, R347). -/
theorem raised_fault {s : State} (hp : (getRow s s.cur).pend = []) (x : Trap) (k : Nat) : Raised s (fault s s.cur x k) x k where
  row := by
    rw [getRow_fault hp, getRow_raiseRow, if_pos rfl, faultedRow, trap_word]
    rfl
  rows q hq := by rw [getRow_fault hp, getRow_raiseRow, if_neg hq]
  closed := closed_congr (u := raiseRow s s.cur x k) (by unfold getBank; rw [getCore_fault hp]) (closed_leave rfl)
  held := by
    rw [fault_eq hp]
    change (if x.cause = 12 ∧ x.sub = 1 then raisedUndelivered s s.cur x k
      else deliver (raisedUndelivered s s.cur x k) s.cur x.cause).held = _
    by_cases h : x.cause = 12 ∧ x.sub = 1
    · rw [if_pos h, if_pos (.inl h), raisedUndelivered_eq, List.append_nil]
    · rw [if_neg h, deliver_held]
      simp only [h, false_or]
      cases supervised s x <;> cases s.pkg.supq.getLsbD 15 <;> rfl
  queue := by
    rw [fault_eq hp]
    change (getCore (if x.cause = 12 ∧ x.sub = 1 then raisedUndelivered s s.cur x k
      else deliver (raisedUndelivered s s.cur x k) s.cur x.cause) s.cur.core).faultq = _
    by_cases h : x.cause = 12 ∧ x.sub = 1
    · rw [if_pos h, if_pos (.inl h), getCore_undelivered]
    · rw [if_neg h, deliver_faultq]
      simp only [h, false_or]
  flue := by
    rw [fault_eq hp]
    change (if x.cause = 12 ∧ x.sub = 1 then raisedUndelivered s s.cur x k
      else deliver (raisedUndelivered s s.cur x k) s.cur x.cause).flueReqs = _
    have h : (raisedUndelivered s s.cur x k).flueReqs = s.flueReqs ++ flueOf s s.cur x := by rw [raisedUndelivered_eq]
    split
    · exact h
    · rw [deliver_flueReqs]; exact h
  cores c := by
    rw [getCore_fault hp]
    have h : getCore (raiseRow s s.cur x k) c = { getCore s c with banks := (getCore (raiseRow s s.cur x k) c).banks } :=
      getCore_leave _ s.cur c
    rw [h]
  rest := fault_rest hp x k

/-- An instruction that raises a fault which no walk waits for takes the exception. -/
theorem raised_raise {s : State} (hg : Going s) {x : Trap} (hx : x.waits = false) (k : Nat) : Raised s (raise s s.cur x k) x k := by
  rw [raise_taken hx]
  exact raised_fault hg.2.2 x k

/-! ### The instructions that stop a row -/

theorem parked_modRow {s t : State} {w : Row} (h : Parked s t w) (f : Row → Row) : Parked s (modRow t s.cur f) (f w) where
  row := by rw [getRow_modRow_self, h.row]
  rows q hq := by rw [getRow_modRow, if_neg hq, h.rows q hq]
  closed := closed_congr (u := t) rfl h.closed
  cores := h.cores
  rest := congrArg (fun x : State => { x with rows := (modRow t s.cur f).rows }) h.rest

/-- What an instruction does to a core beside its counters and banks comes before or after alike. -/
theorem Counted.serving {s u : State} (h : Counted s u) (n : Nat) (b : Bool) :
    Counted (modCore s n fun c => { c with serving := b }) (modCore u n fun c => { c with serving := b }) where
  rows := h.rows
  cores c := by
    rw [getCore_modCore, getCore_modCore]
    split
    · rw [h.cores n]
    · exact h.cores c
  rest := congrArg (fun x : State => { x with cores := (modCore u n fun c => { c with serving := b }).cores }) h.rest

theorem stoppedRow_retired {w : Row} (h : w.stepping = false) (next : Word) (y : Nat) : stoppedRow (retiredRow w 0 next) y =
    { retiredRow w 0 next with st := .stopped, why := y, waitw := 0, await := none } := by
  simp [stoppedRow, retiredRow, h]

/-- A row that retires its instruction and stops. -/
theorem parked_retire {s : State} (hg : Going s) (n y : Nat) : Parked s (makeStopped (retire s s.cur n) s.cur y)
    { retiredRow (getRow s s.cur) 0 (after s n) with st := .stopped, why := y, waitw := 0, await := none } := by
  have h := (counted_retire hg n).parked y
  rwa [getRow_retire hg, stoppedRow_retired hg.2.1] at h

/-- The same where the row's core ends its upcall. -/
theorem parked_retire_serving {s : State} (hg : Going s) (n y : Nat) :
    Parked (modCore s s.cur.core fun c => { c with serving := false })
      (makeStopped (modCore (retire s s.cur n) s.cur.core fun c => { c with serving := false }) s.cur y)
      { retiredRow (getRow s s.cur) 0 (after s n) with st := .stopped, why := y, waitw := 0, await := none } := by
  have h := ((counted_retire hg n).serving s.cur.core false).parked y
  have hr : getRow (modCore (retire s s.cur n) s.cur.core fun c => { c with serving := false })
      (modCore s s.cur.core fun c => { c with serving := false }).cur = retiredRow (getRow s s.cur) 0 (after s n) := getRow_retire hg n
  rwa [hr, stoppedRow_retired hg.2.1] at h

theorem stoppingInstructions : StoppingInstructions := by
  intro s hg
  refine ⟨fun tb ta => ⟨_, rfl, parked_retire hg 4 3⟩, fun hp hd =>
    ⟨_, ?_, parked_modRow (parked_retire hg 4 3) fun w => { w with halted := true }⟩,
    fun hp hd => ?_, fun p hp hu hs => ⟨_, ?_, parked_retire_serving hg 4 3⟩, fun hs => ⟨_, ?_, raised_raise hg rfl 0⟩⟩
  · show Host.Outcome.next (privGate s s.cur _) = _
    rw [privGate, if_pos hp, if_pos hd]
  · show Host.Outcome.next (privGate s s.cur _) = _
    rw [privGate, if_pos hp, if_neg (by simp [hd])]
  · have h : isUpcallRow s s.cur = true := by simp [isUpcallRow, hp, hu]
    show Host.Outcome.next (if _ then _ else _) = _
    rw [if_pos (by rw [hs, h]; rfl)]
  · show Host.Outcome.next (if _ then _ else _) = _
    rw [if_neg (by simp [hs])]
    rfl

/-! ### Register instructions -/

/-- `u` is `s` but for memory, full/empty bits, poison and FLAGS of row `s.cur`. -/
structure Written (s u : State) : Prop where
  row : ∃ fl, getRow u s.cur = { getRow s s.cur with flags := fl }
  rest : u = { s with mem := u.mem, empt := u.empt, poison := u.poison, rows := u.rows }

theorem Written.refl (s : State) : Written s s := ⟨⟨_, rfl⟩, rfl⟩

theorem written_fillBytes {s : State} (hs : (getRow s s.cur).st ≠ .waiting) {w : Nat} (hw : 16 ≤ w) (bs : List Byte) :
    Written s (fillBytes s s.cur w bs) := by
  have hput := putRowBytes_rest s s.cur bs (8 * w) (by omega)
  have hrow : getRow (unpoison (putRowBytes s s.cur (8 * w) bs) ((List.range' w (bs.length / 8)).map (rowWord s.cur))) s.cur =
      getRow s s.cur := (congrArg (fun x => getRow x s.cur) hput).trans rfl
  unfold fillBytes
  rw [setFulls_eq _ _ _ (by rw [hrow]; exact hs), hput]
  exact ⟨⟨_, rfl⟩, rfl⟩

theorem Written.orFlags {s u : State} (h : Written s u) (fl : FFlags) : Written s (orFlags u s.cur fl) := by
  unfold Machine.orFlags
  split
  · exact h
  · obtain ⟨⟨f, hf⟩, hr⟩ := h
    refine ⟨⟨f ||| fl.setWidth 64, ?_⟩,
      congrArg (fun x : State => modRow x s.cur fun w => { w with flags := w.flags ||| fl.setWidth 64 }) hr⟩
    rw [getRow_modRow_self, hf]

/-- `b` retires the instruction of row `s.cur` after writes of its registers. -/
def Retires (s b : State) : Prop := ∃ u next, Written s u ∧ b = retireTo u s.cur next

section retires
variable {s : State} (hs : (getRow s s.cur).st ≠ .waiting)
include hs

theorem setX_written (d : Reg) (v : Word) : Written s (setX s s.cur d v) := by
  unfold setX
  rw [fillWord_eq]
  exact written_fillBytes hs (by unfold xw; omega) _

theorem setE_written (e : Nat) (v : Word) : Written s (setE s s.cur e v) := by
  unfold setE
  rw [fillWord_eq]
  exact written_fillBytes hs (by unfold ew; omega) _

theorem setM_written (m : Nat) (v : Word) : Written s (setM s s.cur m v) := by
  unfold setM
  rw [fillWord_eq]
  exact written_fillBytes hs (by unfold mw; omega) _

theorem setV_written (v : Nat) (bs : List Byte) : Written s (setV s s.cur v bs) :=
  written_fillBytes hs (by unfold vw; omega) bs

theorem retX_retires (d : Reg) (v : Word) (n : Nat) : Retires s (retX s s.cur d v n) := ⟨_, _, setX_written hs d v, rfl⟩

theorem retXF_retires (d : Reg) (v : Word) (fl : FFlags) (n : Nat) : Retires s (retXF s s.cur d v fl n) :=
  ⟨_, _, (setX_written hs d v).orFlags fl, rfl⟩

theorem retE_retires (e : Nat) (v : Word) (n : Nat) : Retires s (retire (setE s s.cur e v) s.cur n) :=
  ⟨_, _, setE_written hs e v, rfl⟩

theorem retM_retires (m : Nat) (v : Word) (n : Nat) : Retires s (retire (setM s s.cur m v) s.cur n) :=
  ⟨_, _, setM_written hs m v, rfl⟩

theorem retMF_retires (m : Nat) (v : Word) (fl : FFlags) (n : Nat) :
    Retires s (retire (orFlags (setM s s.cur m v) s.cur fl) s.cur n) := ⟨_, _, (setM_written hs m v).orFlags fl, rfl⟩

theorem retV_retires (ty mk d : Nat) (f : Nat → FRes) (n : Nat) : Retires s (retV s s.cur ty mk d f n) :=
  ⟨_, _, (setV_written hs d _).orFlags _, rfl⟩
end retires

/-- Register instruction `i` examines the sources `xs` and then retires after writes of registers. -/
def Plain (s : State) (i : Instr) (xs : List Src) : Prop :=
  ∃ body, exec i s = .next (gate s s.cur 0 xs body) ∧ ((getRow s s.cur).st ≠ .waiting → Retires s body)

section forms
variable {s : State} {i : Instr}

theorem alu2_plain {sz tb ta b a d f} (h : exec i s = .next (alu2 s sz tb ta b a d f)) : Plain s i [srcX a ta, srcX b tb] :=
  ⟨_, h, fun hs => retX_retires hs _ _ _⟩

theorem alu1_plain {sz ta a d f} (h : exec i s = .next (alu1 s sz ta a d f)) : Plain s i [srcX a ta] :=
  ⟨_, h, fun hs => retX_retires hs _ _ _⟩

theorem aluImm_plain {ta a d f} (h : exec i s = .next (aluImm s ta a d f)) : Plain s i [srcX a ta] :=
  ⟨_, h, fun hs => retX_retires hs _ _ _⟩

theorem fpu2_plain {md fmt tb ta b a d f} (h : exec i s = .next (fpu2 s md fmt tb ta b a d f)) :
    Plain s i ([srcX a ta, srcX b tb] ++ srcRm md) :=
  ⟨_, h, fun hs => retXF_retires hs _ _ _ _⟩

theorem fpu1_plain {md fmt ta a d f} (h : exec i s = .next (fpu1 s md fmt ta a d f)) : Plain s i ([srcX a ta] ++ srcRm md) :=
  ⟨_, h, fun hs => retXF_retires hs _ _ _ _⟩

theorem fpuCmp_plain {fmt tb ta b a d c} (h : exec i s = .next (fpuCmp s fmt tb ta b a d c)) :
    Plain s i [srcX a ta, srcX b tb] :=
  ⟨_, h, fun hs => retXF_retires hs _ _ _ _⟩

theorem branch_plain {imm ta b a f} (h : exec i s = .next (branch s imm ta b a f)) : Plain s i [srcX a ta, srcX b ta] := by
  refine ⟨_, h, fun _ => ?_⟩
  split
  · exact ⟨_, _, Written.refl s, rfl⟩
  · exact ⟨_, _, Written.refl s, rfl⟩

theorem halfBranch_plain {imm d f} (h : exec i s = .next (halfBranch s imm d f)) : Plain s i [srcX d false] := by
  refine ⟨_, h, fun _ => ?_⟩
  split
  · exact ⟨_, _, Written.refl s, rfl⟩
  · exact ⟨_, _, Written.refl s, rfl⟩

theorem jump_plain {imm ta a d} (h : exec i s = .next (jump s imm ta a d)) : Plain s i [srcX a ta] :=
  ⟨_, h, fun hs => ⟨_, _, setX_written hs _ _, rfl⟩⟩

theorem extWrite_plain {k imm e} (h : exec i s = .next (extWrite s k imm e)) : Plain s i [] :=
  ⟨_, h, fun hs => retE_retires hs _ _ _⟩

theorem valu2_plain {ty t mk b a d f} (h : exec i s = .next (valu2 s ty t mk b a d f)) :
    Plain s i (vecSrcs d.toNat mk.toNat t [srcV a.toNat t, srcV b.toNat t]) :=
  ⟨_, h, fun hs => retV_retires hs _ _ _ _ _⟩

theorem vecCmp_plain {ty t mk b a m f} (h : exec i s = .next (vecCmp s ty t mk b a m f)) :
    Plain s i ([srcV a.toNat t, srcV b.toNat t] ++ srcMk mk.toNat t) :=
  ⟨_, h, fun hs => retMF_retires hs _ _ _ _⟩

theorem vfp2_plain {md ty t mk b a d f} (h : exec i s = .next (vfp2 s md ty t mk b a d f)) :
    Plain s i (vecSrcs d.toNat mk.toNat t [srcV a.toNat t, srcV b.toNat t] ++ srcRm md) :=
  ⟨_, h, fun hs => retV_retires hs _ _ _ _ _⟩

theorem vfp1_plain {md ty t mk a d f} (h : exec i s = .next (vfp1 s md ty t mk a d f)) :
    Plain s i (vecSrcs d.toNat mk.toNat t [srcV a.toNat t] ++ srcRm md) :=
  ⟨_, h, fun hs => retV_retires hs _ _ _ _ _⟩

theorem vfma_plain {ty mk c b a d np nc} (h : exec i s = .next (vfma s ty mk c b a d np nc)) :
    Plain s i (vecSrcs d.toNat mk.toNat false [srcV a.toNat false, srcV b.toNat false, srcV c.toNat false] ++ srcRm true) :=
  ⟨_, h, fun hs => retV_retires hs _ _ _ _ _⟩

theorem mask2_plain {tb ta b a d f} (h : exec i s = .next (mask2 s tb ta b a d f)) :
    Plain s i [srcM a.toNat ta, srcM b.toNat tb] :=
  ⟨_, h, fun hs => retM_retires hs _ _ _⟩

theorem vxf1_plain {ty t mk a d f} (h : exec i s = .next (vxf1 s ty t mk a d f)) :
    Plain s i (vecSrcs d.toNat mk.toNat t [srcV a.toNat t]) :=
  ⟨_, h, fun hs => retV_retires hs _ _ _ _ _⟩

theorem vxfRed_plain {md ty t mk a d ident f} (h : exec i s = .next (vxfRed s md ty t mk a d ident f)) :
    Plain s i ([srcV a.toNat t] ++ srcMk mk.toNat t ++ srcRm md) :=
  ⟨_, h, fun hs => retXF_retires hs _ _ _ _⟩

/-- Without a rounding, FLAGS is no source. -/
theorem append_srcRm_false (xs : List Src) : xs ++ srcRm false = xs := List.append_nil xs

theorem vfp2_plain_exact {ty t mk b a d f} (h : exec i s = .next (vfp2 s false ty t mk b a d f)) :
    Plain s i (vecSrcs d.toNat mk.toNat t [srcV a.toNat t, srcV b.toNat t]) :=
  by simpa only [append_srcRm_false] using vfp2_plain h

theorem vfp1_plain_exact {ty t mk a d f} (h : exec i s = .next (vfp1 s false ty t mk a d f)) :
    Plain s i (vecSrcs d.toNat mk.toNat t [srcV a.toNat t]) :=
  by simpa only [append_srcRm_false] using vfp1_plain h

theorem vxfRed_plain_exact {ty t mk a d ident f} (h : exec i s = .next (vxfRed s false ty t mk a d ident f)) :
    Plain s i ([srcV a.toNat t] ++ srcMk mk.toNat t) :=
  by simpa only [append_srcRm_false] using vxfRed_plain h
end forms

/-- The mask of a masked instruction as the claims write it. -/
theorem srcMk_eq (mk : BitVec 3) (t : Bool) : srcMk mk.toNat t = if mk = 0 then [] else [srcM mk.toNat t] := by
  simp [srcMk, ← BitVec.toNat_inj]

theorem cvtRounds_eq (ty sty : BitVec 3) : cvtRounds ty.toNat sty.toNat =
    !decide (3 ≤ ty.toNat ∧ 3 ≤ sty.toNat ∧ (ty = sty ∨ laneBytes sty.toNat < laneBytes ty.toNat)) := by
  revert ty sty
  decide

theorem fpuCvt_rounds (k : BitVec 3) : (k != 0) = (k.toNat != 0) := by
  revert k
  decide

theorem vfpCvt_plain (s : State) (ty : BitVec 3) (t : Bool) (mk sty : BitVec 3) (a d : Reg) :
    Plain s (.vfpCvt ty t mk sty a d) (vecSrcs d.toNat mk.toNat t [srcV a.toNat t] ++ srcRm (cvtRounds ty.toNat sty.toNat)) :=
  ⟨_, rfl, fun hs => ⟨_, _, (setV_written hs _ _).orFlags _, rfl⟩⟩

/-- Every register instruction examines its sources and then retires after writes of registers. -/
theorem plain_of_plainSrcs (s : State) {i : Instr} {xs : List Src} (h : plainSrcs i = some xs) : Plain s i xs := by
  cases i
  case aluAdd | aluSub | aluMul | aluMulh | aluMulhu | aluDiv | aluDivu | aluRem | aluRemu | aluAnd | aluOr | aluXor | aluAndn
      | aluShl | aluShr | aluSra | aluMin | aluMax | aluMinu | aluMaxu | aluRot | aluEq | aluNe | aluLt | aluLtu | aluLe | aluLeu =>
    cases h
    exact alu2_plain rfl
  case aluClz | aluCtz | aluPopc | shiShl | shiShr | shiSra | shiRot =>
    cases h
    exact alu1_plain rfl
  case alui | andi | ori | xori | cmpiEq | cmpiNe | cmpiLt | cmpiLtu | cmpiLe | cmpiLeu | cmpiGt | cmpiGtu =>
    cases h
    exact aluImm_plain rfl
  case aluSel | aluExt | ldx =>
    cases h
    exact ⟨_, rfl, fun hs => retX_retires hs _ _ _⟩
  case ldi =>
    cases h
    exact ⟨_, rfl, fun hs => retX_retires hs _ _ _⟩
  case hLdi5 =>
    cases h
    exact ⟨_, rfl, fun hs => retX_retires hs _ _ _⟩
  case extC0 | extC1 | extC2 =>
    cases h
    exact extWrite_plain rfl
  case extX =>
    cases h
    exact ⟨_, rfl, fun hs => retE_retires hs _ _ _⟩
  case br =>
    cases h
    exact ⟨_, rfl, fun hs => ⟨_, _, setX_written hs _ _, rfl⟩⟩
  case bcEq | bcNe | bcLt | bcLtu | bcGe | bcGeu =>
    cases h
    exact branch_plain rfl
  case jmp | jmpRet =>
    cases h
    exact jump_plain rfl
  case fpuAdd | fpuSub | fpuMul | fpuDiv =>
    cases h
    exact fpu2_plain (md := true) rfl
  case fpuMin | fpuMax | fpuSgnj =>
    cases h
    exact fpu2_plain (md := false) rfl
  case fpuSqrt | fpuRnd =>
    cases h
    exact fpu1_plain (md := true) rfl
  case fpuCls | fpuAbs =>
    cases h
    exact fpu1_plain (md := false) rfl
  case fpuEq | fpuLt | fpuLe =>
    cases h
    exact fpuCmp_plain rfl
  case fpuFma =>
    cases h
    exact ⟨_, rfl, fun hs => retXF_retires hs _ _ _ _⟩
  case fpuCvt =>
    cases h
    rw [← fpuCvt_rounds]
    exact ⟨_, rfl, fun hs => retXF_retires hs _ _ _ _⟩
  case valuAdd | valuSub | valuMul | valuMulh | valuAnd | valuOr | valuXor | valuShl | valuShr | valuSra | valuMin | valuMax
      | valuMinu | valuMaxu | vxfSgnj =>
    cases h
    exact valu2_plain rfl
  case valuCmp | vfpCmp =>
    cases h
    rw [← srcMk_eq]
    exact vecCmp_plain rfl
  case valuSel =>
    cases h
    rw [← srcMk_eq]
    exact ⟨_, rfl, fun hs => retV_retires hs _ _ _ _ _⟩
  case vfpAdd | vfpSub | vfpMul | vfpDiv | vfpScale =>
    cases h
    exact vfp2_plain (md := true) rfl
  case vfpMin | vfpMax =>
    cases h
    exact vfp2_plain_exact rfl
  case vfpRnd | vfpRcp | vfpRsq | vfpSqrt =>
    cases h
    exact vfp1_plain (md := true) rfl
  case vfpExp2f | vfpGetexp | vfpCls =>
    cases h
    exact vfp1_plain_exact rfl
  case vfpCvt =>
    cases h
    exact cvtRounds_eq _ _ ▸ vfpCvt_plain ..
  case vfmaFma | vfmaFms | vfmaFnma | vfmaFnms =>
    cases h
    exact vfma_plain rfl
  case maskAnd | maskOr | maskXor | maskAndn =>
    cases h
    exact mask2_plain rfl
  case maskNot | maskFromx | maskLanes | maskAll =>
    cases h
    exact ⟨_, rfl, fun hs => retM_retires hs _ _ _⟩
  case maskPop | maskFirst | maskTox | vxfExt =>
    cases h
    exact ⟨_, rfl, fun hs => retX_retires hs _ _ _⟩
  case vxfBcast | vxfPerm | vxfShfdn | vxfIota =>
    cases h
    exact ⟨_, rfl, fun hs => retV_retires hs _ _ _ _ _⟩
  case vxfIns =>
    cases h
    exact ⟨_, rfl, fun hs => ⟨_, _, setV_written hs _ _, rfl⟩⟩
  case vxfAbs | vxfNeg =>
    cases h
    exact vxf1_plain rfl
  case vxfRedAdd =>
    cases h
    rw [← srcMk_eq]
    exact vxfRed_plain rfl
  case vxfRedMin | vxfRedMax =>
    cases h
    rw [← srcMk_eq]
    exact vxfRed_plain_exact rfl
  case sysNop | hNop =>
    cases h
    exact ⟨_, rfl, fun _ => ⟨_, _, Written.refl s, rfl⟩⟩
  case hMov | hAdd | hSub | hAnd | hOr | hXor | hLt | hAddi5 | hShli | hShri =>
    cases h
    exact ⟨_, rfl, fun hs => retX_retires hs _ _ _⟩
  case hBeqz | hBnez =>
    cases h
    exact halfBranch_plain rfl
  case hVfaddF32 | hVfmulF32 =>
    cases h
    exact ⟨_, rfl, fun hs => retV_retires hs _ _ _ _ _⟩
  case hRet =>
    cases h
    exact ⟨_, rfl, fun _ => ⟨_, _, Written.refl s, rfl⟩⟩
  all_goals cases h

/-- A READY row under STEP stops when it retires (R48, R133). -/
theorem retireTo_stepping {u : State} {r : RowId} (next : Word) (hst : (getRow u r).st = .ready)
    (hs : (getRow u r).stepping = true) (hp : (getRow u r).pend = []) :
    retireTo u r next = makeStopped (bump (modRow u r fun w => retiredRow w 0 next) r.core 1 1) r 2 := by
  have e : (fun w : Row => retiredRow w 0 next) = fun w => { w with
      pc := next &&& ~~~1#64, rstep := 0, retired := w.retired + 1, marked := [], fetchLen := none, work := 0,
      stalled := false } := by funext w; simp [retiredRow]
  unfold retireTo
  rw [← e]
  have h1 : getRow (bump (modRow u r fun w => retiredRow w 0 next) r.core 1 1) r = retiredRow (getRow u r) 0 next := by
    simp [bump]
  dsimp only
  rw [h1, if_pos (show (retiredRow (getRow u r) 0 next).stepping = true from hs),
    if_pos (show (retiredRow (getRow u r) 0 next).st = .ready from hst)]
  refine actPend_nil _ _ ?_
  rw [getRow_makeStopped, if_pos rfl, h1]
  exact hp

theorem stepStopsAfterOne : StepStopsAfterOne := by
  intro s i xs hst hs hp hi hr
  obtain ⟨body, hexec, hbody⟩ := plain_of_plainSrcs s hi
  obtain ⟨u, next, ⟨⟨fl, hrow⟩, hrest⟩, rfl⟩ := hbody (by rw [hst]; nofun)
  have hb (c b : Nat) : getBank (bump (modRow u s.cur fun w => retiredRow w 0 next) s.cur.core 1 1) c b = getBank s c b := by
    have hu : getBank u c b = getBank s c b := by rw [hrest]; rfl
    exact ((counted_bump (modRow u s.cur _) s.cur.core 1 1).bank c b).trans hu
  have ht := retireTo_stepping (u := u) (r := s.cur) next (by rw [hrow]; exact hst) (by rw [hrow]; exact hs)
    (by rw [hrow]; exact hp)
  refine ⟨_, by rw [hexec, gate_ready hr], ?_, ?_⟩
  · rw [ht]
    exact closed_makeStopped 2 (hb _ _)
  · have hw : getRow (retireTo u s.cur next) s.cur = stoppedRow (retiredRow (getRow u s.cur) 0 next) 2 := by
      rw [ht, getRow_makeStopped, if_pos rfl]
      simp [bump]
    rw [hw, hrow]
    exact ⟨rfl, rfl, rfl, rfl⟩

/-- Settles O13: every register instruction is its sources' gate before writes of registers that retire (`plain_of_plainSrcs`),
so a row under STEP stops there; the four instructions that stop a row do so after the same retirement. -/
theorem rowsStop : Obligations.RowsStop := ⟨stepStopsAfterOne, stoppingInstructions⟩

/-! ## The turn of a row (O56) -/

/-- R330: a row has issued when it has retired, gone on to another step, or dated a release. -/
theorem hasIssued_iff (v t : State) (r : RowId) : hasIssued v t r = true ↔
    (getRow t r).retired ≠ (getRow v r).retired ∨ (getRow t r).rstep ≠ (getRow v r).rstep ∨
      ((getRow t r).rel ≠ none ∧ (getRow v r).rel = none) := by
  simp [hasIssued, relDated, or_assoc, Option.isSome_iff_ne_none]

theorem markIssued_rest (t : State) (r : RowId) : markIssued t r = { t with cores := (markIssued t r).cores } := by
  unfold markIssued
  cases slotOf t r <;> rfl

theorem getCore_markIssued (t : State) (r : RowId) (c : Nat) :
    getCore (markIssued t r) c = { getCore t c with banks := (getCore (markIssued t r) c).banks } := by
  unfold markIssued
  cases slotOf t r with
  | none => rfl
  | some k => exact getCore_modBank ..

section issue
variable {s : State} {r : RowId}

theorem issue_cannot (h : canRun s r = false) : issue s r = (none, s) := by
  simp [issue, h]

theorem issue_yields (h : canRun s r = true) (hp : inPosition (yieldPosition s r.core (r.row % 4)) r = false) :
    issue s r = (none, yieldPosition s r.core (r.row % 4)) := by
  simp [issue, h, hp]

theorem issue_budget (h : canRun s r = true) (hp : inPosition (yieldPosition s r.core (r.row % 4)) r = true)
    (hd : (getRow s r).due = true) (hs : (getRow s r).stalled = false) :
    issue s r = (none, budgetTrap (yieldPosition s r.core (r.row % 4)) r) := by
  simp [issue, h, hp, hd, hs]

theorem notDue_iff (w : Row) : (w.due && !w.stalled) = false ↔ w.due = false ∨ w.stalled = true := by
  cases w.due <;> cases w.stalled <;> decide

theorem issue_release (h : canRun s r = true) (hp : inPosition (yieldPosition s r.core (r.row % 4)) r = true)
    (hd : (getRow s r).due = false ∨ (getRow s r).stalled = true) {x : Rel} (hx : (getRow s r).rel = some x) :
    issue s r = (none, relWrite (startIssue (yieldPosition s r.core (r.row % 4)) r) r x) := by
  simp [issue, h, hp, (notDue_iff _).mpr hd, hx]

section fetched
variable (h : canRun s r = true) (hp : inPosition (yieldPosition s r.core (r.row % 4)) r = true)
  (hd : (getRow s r).due = false ∨ (getRow s r).stalled = true) (hx : (getRow s r).rel = none)
include h hp hd hx

theorem issue_wait {u : State} (hf : fetch (startIssue (yieldPosition s r.core (r.row % 4)) r) r = (.wait, u)) :
    issue s r = (none, u) := by
  simp [issue, h, hp, (notDue_iff _).mpr hd, hx, hf]

theorem issue_bad {x : Trap} {len : Nat} {u : State}
    (hf : fetch (startIssue (yieldPosition s r.core (r.row % 4)) r) r = (.bad x len, u)) :
    issue s r = (none, raise (modRow u r fun w => { w with fetchLen := some len }) r x (getRow s r).rstep) := by
  simp [issue, h, hp, (notDue_iff _).mpr hd, hx, hf]

theorem issue_got {bs : List Byte} {u : State}
    (hf : fetch (startIssue (yieldPosition s r.core (r.row % 4)) r) r = (.got bs, u)) :
    issue s r = (some (decoded bs).1, modRow u r fun w => { w with fetchLen := some (decoded bs).2 }) := by
  simp [issue, h, hp, (notDue_iff _).mpr hd, hx, hf]
end fetched
end issue

theorem step_run {s : State} {r : RowId} (h : nextTurn s = .run r) : step s = runRow { s with agenda := s.agenda.drop 1 } r := by
  simp [step, h]

/-- A turn that executes nothing ends with what came before execution. -/
theorem runRow_none {s t : State} {r : RowId} (h : issue s r = (none, t)) : runRow s r = .next t := by
  simp [runRow, h]

/-- A turn that executes an instruction marks the slot of a row that has issued. -/
theorem runRow_some {s v t : State} {r : RowId} {i : Instr} (h : issue s r = (some i, v)) (he : exec i v = .next t) :
    runRow s r = .next (if (getRow t r).retired ≠ (getRow v r).retired ∨ (getRow t r).rstep ≠ (getRow v r).rstep ∨
      ((getRow t r).rel ≠ none ∧ (getRow v r).rel = none) then markIssued t r else t) := by
  simp only [runRow, h, he, afterExec, hasIssued_iff]

/-! ### The fetch (R108, R147, R148) -/

/-- One part of code that the fetch unit does not hold is read at its slice. -/
theorem fetchParts_one {s t : State} {r : RowId} {priv : Bool} {p : Part} {bs : List Byte} (hh : fetchHeld s r.core p = none)
    (hr : readPart (bump s r.core 4 1) r priv 0 false p = (.ok bs, t)) : fetchParts s r priv [p] = (.ok bs, t) := by
  simp [fetchParts, hh, hr]

theorem fetchN_one {s t : State} {r : RowId} {n len : Nat} {p : Part} {bs : List Byte}
    (hc : check s (ctxOf s r) { ex := true, code := 2 } (getRow s r).pc n false = .ok [p]) (hh : fetchHeld s r.core p = none)
    (hr : readPart (bump s r.core 4 1) r (getRow s r).priv 0 false p = (.ok bs, t)) : fetchN s r n len = (.got bs, t) := by
  simp only [fetchN, hc, fetchParts_one hh hr]

/-- Settles O56: `issue` answers one case for each condition before an instruction, and `fetch` reads the first halfword, then
the whole of a 32-bit instruction. -/
theorem stepRunsDecodedInstruction : Obligations.StepRunsDecodedInstruction := by
  refine ⟨fun s r hn => ?_, fun s t u r b0 b1 b2 b3 p p' hc hh hr => ?_, fun s i hn hi => by simp [step, hn, hi]⟩
  · rw [step_run hn]
    refine ⟨fun h => runRow_none (issue_cannot h), fun h => ⟨fun hp => runRow_none (issue_yields h hp), fun hp => ?_⟩,
      fun t => ⟨markIssued_rest t r, getCore_markIssued t r⟩⟩
    refine ⟨fun hd hs => runRow_none (issue_budget h hp hd hs), fun x hd hx => runRow_none (issue_release h hp hd hx),
      fun hd hx => ⟨fun u hf => runRow_none (issue_wait h hp hd hx hf),
        fun x len u hf => runRow_none (issue_bad h hp hd hx hf), fun bs u hf => ?_⟩⟩
    have hi := issue_got h hp hd hx hf
    refine ⟨fun i rest t hdec he => runRow_some ?_ he,
      fun hdec => runRow_some (i := .illegalInstruction (BitVec.ofNat 32 (leNat bs))) ?_ rfl⟩
    · simpa [decoded, hdec] using hi
    · simpa [decoded, hdec] using hi
  · have h2 := fetchN_one (len := 2) hc hh hr
    refine ⟨fun hb => ?_, fun hb hrow hc' hh' hr' => ?_⟩
    · unfold fetch
      rw [h2]
      exact if_neg (Bool.not_eq_true _ ▸ hb)
    · rw [← hrow] at hc' hr'
      unfold fetch
      rw [h2]
      exact (if_pos hb).trans (fetchN_one hc' hh' hr')

/-! ## Requests (O14) -/

theorem setEmpties_rest (s : State) (r : RowId) (ws : List Nat) : setEmpties s r ws = { s with empt := (setEmpties s r ws).empt } := by
  induction ws generalizing s with
  | nil => rfl
  | cons w ws ih =>
    have h : setEmpty s r w = { s with empt := (setEmpty s r w).empt } := by unfold setEmpty; split <;> rfl
    exact (ih (setEmpty s r w)).trans (congrArg (fun x : State => { x with empt := (setEmpties s r (w :: ws)).empt }) h)

/-- Words set empty: those above X0 (R51). -/
theorem mem_setEmpties (s : State) (r : RowId) (ws : List Nat) (k : Nat) :
    k ∈ (setEmpties s r ws).empt ↔ k ∈ s.empt ∨ ∃ w ∈ ws, 32 < w ∧ k = rowWord r w := by
  induction ws generalizing s with
  | nil => simp [setEmpties]
  | cons w ws ih =>
    rw [setEmpties, ih]
    unfold setEmpty
    split
    · simp [*]; tauto
    · simp [*]

theorem mem_markable {ws : List Nat} {w : Nat} : w ∈ markable ws ↔ w ∈ ws ∧ w ≠ 32 := by
  simp [markable]

section issueReq
variable (s : State) (kind : ReqKind) (ps : List Part) (put : Put) (words : List Nat)

/-- Row `s.cur` as it issues its next request. -/
def requested : State := issueReq s s.cur (getRow s s.cur).priv kind ps put words

theorem requested_eq : requested s kind ps put words =
    let t := setEmpties (fresh s).2 s.cur (markable words)
    { s with nextId := s.nextId + 1, empt := t.empt, cores := (bump s s.cur.core 4 (sliceReqs kind ps)).cores,
             reqs := s.reqs ++ [newReq s kind ps put (markable words)] } :=
  congrArg (fun x : State =>
    { bump x s.cur.core 4 (sliceReqs kind ps) with reqs := x.reqs ++ [newReq s kind ps put (markable words)] })
    (setEmpties_rest (fresh s).2 s.cur (markable words))

theorem getRow_requested (q : RowId) : getRow (requested s kind ps put words) q = getRow s q := by
  rw [requested_eq]; rfl

theorem mem_requested (k : Nat) : k ∈ (requested s kind ps put words).empt ↔
    k ∈ s.empt ∨ ∃ w ∈ markable words, 32 < w ∧ k = rowWord s.cur w := by
  rw [requested_eq]
  exact mem_setEmpties ..

theorem getCore_requested (c : Nat) : getCore (requested s kind ps put words) c =
    getCore (bump s s.cur.core 4 (sliceReqs kind ps)) c := by
  rw [requested_eq]; rfl

theorem wNat_sliceReqs : wNat (sliceReqs kind ps) = requests (newReq s kind ps put (markable words)) := by
  cases kind <;> rfl

end issueReq

theorem getCore_bump_other {s : State} {c m : Nat} (h : m ≠ c) (k n : Nat) : getCore (bump s c k n) m = getCore s m := by
  unfold bump
  rw [getCore_modCore, if_neg h]

/-- A request whose instruction retires is issued, and nothing else has changed (R54, R81, R233). -/
theorem issued_retire {s : State} (hg : Going s) (kind : ReqKind) (ps : List Part) (put : Put) {words : List Nat}
    (hw : ∀ w ∈ words, 32 ≤ w) (len : Nat) :
    Issued s (retire (requested s kind ps put words) s.cur len) (newReq s kind ps put (markable words)) [] 0
      (retiredRow (getRow s s.cur) 0 (after s len)) := by
  have heq := requested_eq s kind ps put words
  have hrow := getRow_requested s kind ps put words
  have hcore := getCore_requested s kind ps put words
  generalize hu : requested s kind ps put words = u at *
  have hcur : u.cur = s.cur := by rw [heq]
  have hgu : Going u := by rw [Going, hcur, hrow]; exact hg
  have ht : retire u s.cur len = bump (modRow u s.cur fun w => retiredRow w 0 (after s len)) s.cur.core 1 1 := by
    unfold retire
    rw [retireTo_eq _ _ _ (by rw [hrow]; exact hg.2.1) (by rw [hrow]; exact hg.2.2), hrow]
    rfl
  rw [ht]
  exact {
    reqs := by rw [heq]; rfl
    nextId := by rw [heq]; rfl
    row := by rw [bump, getRow_modCore, getRow_modRow_self, hrow]
    rows := fun r hr => by rw [bump, getRow_modCore, getRow_modRow, if_neg hr, hrow]
    empties := fun k => by
      show k ∈ u.empt ↔ _
      rw [← hu, mem_requested]
      refine or_congr_right (exists_congr fun w => and_congr_right fun hm => ?_)
      obtain ⟨h1, h2⟩ := mem_markable.mp hm
      exact and_iff_right (by have := hw w h1; omega)
    signed := ⟨fun a _ => by rw [heq]; rfl, fun i _ => by rw [heq]; simp [bump, memByte]⟩
    others := fun c hc => by
      rw [getCore_bump_other hc, getCore_modRow, hcore, getCore_bump_other hc]
    core := by
      rw [(counted_bump _ _ _ _).cores]
      rw [getCore_modRow, hcore, (counted_bump s _ _ _).cores]
      simp
    stats := fun k => by
      rw [stats_bump]
      rw [getCore_modRow, hcore, stats_bump, wNat_sliceReqs s kind ps put words]
      by_cases h1 : k = 1
      · simp [h1, retiredRow, wNat]
      · simp [h1]
    rest := by rw [heq]; rfl }

/-! ### The loads -/

/-- A load that is not to the row itself in every part goes the way of requests. -/
theorem load_remote {s : State} {p : Word} {n mo fe : Nat} {vec : Bool} {ps : List Part}
    (hfe : fe = if mo = 1 then 1 else if mo = 2 then 2 else 0)
    (hc : check s (ctxOf s s.cur) { rd := true, scalar := !vec } p n (fe != 0 && p.toNat % min n 16 != 0) = .ok ps)
    (ho : ownRow s s.cur ps = false) (put : Put) (words : List Nat) (len : Nat) :
    load s s.cur p n mo vec put words len = retire (requested s (.load fe (mo == 3)) ps put words) s.cur len := by
  subst hfe
  simp only [load, accLoad, hc, ho, Bool.false_eq_true, if_false]
  rfl

theorem feMode_eq (mo : BitVec 2) : feMode mo = if mo.toNat = 1 then 1 else if mo.toNat = 2 then 2 else 0 := by
  revert mo
  decide

theorem mode3_eq (mo : BitVec 2) : (mo.toNat == 3) = (mo == 3) := by
  revert mo
  decide

theorem sizeOf_eq (sz : BitVec 3) : Machine.sizeOf sz.toNat = loadSize sz := by
  revert sz
  decide

/-- R235: the effective address of a load. -/
theorem wmPtr_eq (s : State) (a : Reg) (off : BitVec 10) (n : Nat) : wmPtr s s.cur a off n = ea s a off n := by
  unfold wmPtr ea
  rw [signExt_eq off (by omega) (by omega)]

/-- What `ld` does once nothing holds it and its source is full and sound. -/
theorem exec_ld {s : State} {ta : Bool} {a : Reg} (hi : Issues s [srcX a ta]) (off : BitVec 10) (mo : BitVec 2) (sz : BitVec 3)
    (d : Reg) : exec (.ld off mo sz ta a d) s = .next (load s s.cur (ea s a off (loadSize sz).1) (loadSize sz).1 mo.toNat false
      (if (loadSize sz).1 = 16 then .pair d.toNat else .x d.toNat (loadSize sz).1 (loadSize sz).2)
      (if (loadSize sz).1 = 16 then [xw d, xw d + 1] else [xw d]) 4) := by
  show execLd off mo sz ta a d s = _
  rw [execLd, sizeOf_eq]
  obtain ⟨n, sg⟩ := loadSize sz
  dsimp only
  rw [holdGate_none hi.2, gate_ready hi.1.2, wmPtr_eq]

theorem xw_ge (d : Reg) : 32 ≤ xw d := by unfold xw; omega

theorem ld_issues (s : State) (off : BitVec 10) (mo : BitVec 2) (sz : BitVec 3) (ta : Bool) (a d : Reg) (hi : Issues s [srcX a ta]) :
    let n := (loadSize sz).1
    let p := ea s a off n
    ∀ ps, check s (ctxOf s s.cur) { rd := true, scalar := true } p n (feMode mo != 0 && p.toNat % min n 16 != 0) = .ok ps →
      ownRow s s.cur ps = false →
      ∃ t, exec (.ld off mo sz ta a d) s = .next t ∧
        IssuesLoad s t (feMode mo) (mo == 3) ps (if n = 16 then .pair d.toNat else .x d.toNat n (loadSize sz).2)
          (markable (if n = 16 then [xw d, xw d + 1] else [xw d])) (after s 4) := by
  intro n p ps hc ho
  refine ⟨_, ?_, issued_retire hi.1.1 (.load (feMode mo) (mo == 3)) ps
    (if n = 16 then .pair d.toNat else .x d.toNat n (loadSize sz).2) (words := if n = 16 then [xw d, xw d + 1] else [xw d]) ?_ 4⟩
  · rw [exec_ld hi, load_remote (vec := false) (feMode_eq mo) hc ho, mode3_eq]
  · have := xw_ge d
    split <;> simp <;> omega

theorem half_issues (s : State) (a d : Reg) (hi : Issues s [srcX a false]) (n : Nat) (ps : List Part)
    (hc : check s (ctxOf s s.cur) { rd := true, scalar := true } (getX s s.cur a) n false = .ok ps) (ho : ownRow s s.cur ps = false) :
    ∃ t, halfLoad s n a d = t ∧ IssuesLoad s t 0 false ps (.x d.toNat n true) (markable [xw d]) (after s 2) := by
  refine ⟨_, ?_, issued_retire hi.1.1 (.load 0 false) ps (.x d.toNat n true) (words := [xw d]) ?_ 2⟩
  · unfold halfLoad
    rw [holdGate_none hi.2, gate_ready hi.1.2, load_remote (fe := 0) (vec := false) rfl hc ho]
    rfl
  · have := xw_ge d
    simpa

/-- What the load of `vld` does, before the rest of V[d] becomes zero. -/
def vldLoad (s : State) (off : BitVec 10) (mo : BitVec 2) (sz : BitVec 3) (a d : Reg) : State :=
  load s s.cur (ea s a off (vecBytes sz.toNat)) (vecBytes sz.toNat) mo.toNat true (.v d.toNat)
    (List.range' (vw d.toNat) (vecBytes sz.toNat / 8)) 4

/-- What `vld` does once nothing holds it, its source is full and sound, and its load has retired. -/
theorem exec_vld {s : State} {ta : Bool} {a : Reg} (hi : Issues s [srcX a ta]) (off : BitVec 10) (mo : BitVec 2) (sz : BitVec 3)
    (d : Reg) (hpc : (getRow (vldLoad s off mo sz a d) s.cur).pc ≠ (getRow s s.cur).pc) :
    exec (.vld off mo sz ta a d) s = .next (fillBytes (vldLoad s off mo sz a d) s.cur (vw d.toNat + vecBytes sz.toNat / 8)
      (List.replicate (128 - vecBytes sz.toNat) 0)) := by
  show execVld off mo sz ta a d s = _
  unfold vldLoad at hpc ⊢
  unfold execVld
  dsimp only
  rw [holdGate_none hi.2, gate_ready hi.1.2, wmPtr_eq, if_pos (bne_iff_ne.mpr hpc)]

/-- PC changes when an instruction retires. -/
theorem after_ne (s : State) : after s 4 &&& ~~~1#64 ≠ (getRow s s.cur).pc := by
  unfold after wNat
  generalize (getRow s s.cur).pc = x
  intro h
  have h0 : x.getLsbD 0 = false := by rw [← h]; simp
  have h1 : (x + BitVec.ofNat 64 4) &&& ~~~1#64 = x + BitVec.ofNat 64 4 := by
    refine BitVec.eq_of_getLsbD_eq fun i hi => ?_
    cases i with
    | zero =>
      have h2 : x.toNat % 2 = 0 := by simpa [BitVec.getLsbD, Nat.testBit] using h0
      simp [BitVec.getLsbD, Nat.testBit]
      omega
    | succ i =>
      have h2 : (1#64).getLsbD (i + 1) = false := by rw [BitVec.getLsbD_one]; simp
      rw [BitVec.getLsbD_and, BitVec.getLsbD_not, h2]
      simp only [hi, decide_true, Bool.not_false, Bool.and_true]
  rw [h1] at h
  have := congrArg BitVec.toNat h
  simp only [BitVec.toNat_add, BitVec.toNat_ofNat] at this
  omega

/-- Byte `k` of V[v], as it lies in memory. -/
theorem getV_getD (s : State) (r : RowId) (v k : Nat) (hk : k < 128) : (getV s r v).getD k 0 = rowByte s r (8 * vw v + k) := by
  rw [List.getD_eq_getElem _ _ (by rw [getV_length]; exact hk)]
  exact rowBytes_getElem ..

theorem zeroesTail_fillBytes {u : State} (hs : (getRow u u.cur).st ≠ .waiting) (d n : Nat) (hn : 8 ∣ n) (hle : n ≤ 128) :
    ZeroesTail u (fillBytes u u.cur (vw d + n / 8) (List.replicate (128 - n) 0)) d n := by
  constructor
  · have h := wrote_fillBytes (Wrote.refl u) hs (vw d + n / 8) ((128 - n) / 8) (by unfold vw; omega)
      (List.replicate (128 - n) 0) (by simp; omega)
    rwa [List.append_nil] at h
  · intro j hj
    have h := rowBytes_fillBytes u u.cur hs (vw d + n / 8) (by unfold vw; omega) (List.replicate (128 - n) 0)
    rw [List.length_replicate] at h
    have hlen := rowBytes_length (fillBytes u u.cur (vw d + n / 8) (List.replicate (128 - n) 0)) u.cur (8 * (vw d + n / 8)) (128 - n)
    rw [getV_getD _ _ _ _ (by omega), show 8 * vw d + (n + j) = 8 * (vw d + n / 8) + j by omega,
      ← rowBytes_getElem _ _ _ (128 - n) j (by omega)]
    exact (List.getElem_of_eq h _).trans (List.getElem_replicate _)

theorem markable_vec (d n : Nat) : markable (List.range' (vw d) n) = List.range' (vw d) n := by
  refine List.filter_eq_self.mpr fun w hw => ?_
  rw [List.mem_range'_1] at hw
  have : w ≠ 32 := by unfold vw at hw; omega
  simpa

theorem vecBytes_dvd {sz : BitVec 3} (h : sz.toNat ≤ 4) : 8 ∣ vecBytes sz.toNat ∧ vecBytes sz.toNat ≤ 128 := by
  revert sz
  decide

theorem vld_issues (s : State) (off : BitVec 10) (mo : BitVec 2) (sz : BitVec 3) (ta : Bool) (a d : Reg) (hi : Issues s [srcX a ta])
    (hsz : sz.toNat ≤ 4) :
    let n := 128 / 2 ^ sz.toNat
    let p := ea s a off n
    ∀ ps, check s (ctxOf s s.cur) { rd := true } p n (feMode mo != 0 && p.toNat % min n 16 != 0) = .ok ps →
      ownRow s s.cur ps = false →
      ∃ u t, exec (.vld off mo sz ta a d) s = .next t ∧ ZeroesTail u t d.toNat n ∧
        IssuesLoad s u (feMode mo) (mo == 3) ps (.v d.toNat) (List.range' (vw d.toNat) (n / 8)) (after s 4) := by
  intro n p ps hc ho
  have h := issued_retire hi.1.1 (.load (feMode mo) (mo == 3)) ps (.v d.toNat) (words := List.range' (vw d.toNat) (n / 8))
    (fun w hw => by rw [List.mem_range'_1] at hw; unfold vw at hw; omega) 4
  have hv : vldLoad s off mo sz a d = retire (requested s (.load (feMode mo) (mo == 3)) ps (.v d.toNat)
      (List.range' (vw d.toNat) (n / 8))) s.cur 4 := by
    have h := load_remote (vec := true) (feMode_eq mo) hc ho (.v d.toNat) (List.range' (vw d.toNat) (n / 8)) 4
    rwa [mode3_eq] at h
  rw [← hv, markable_vec] at h
  have hcur : (vldLoad s off mo sz a d).cur = s.cur := by rw [h.rest]
  have hpc : (getRow (vldLoad s off mo sz a d) s.cur).pc ≠ (getRow s s.cur).pc := by
    rw [h.row]; exact after_ne s
  have hz := zeroesTail_fillBytes (u := vldLoad s off mo sz a d) (by rw [hcur, h.row]; exact hi.1.1.1 ▸ nofun) d.toNat n
    (vecBytes_dvd hsz).1 (vecBytes_dvd hsz).2
  rw [hcur] at hz
  exact ⟨_, _, exec_vld hi off mo sz d hpc, hz, h⟩

/-- Settles O14: a load whose check passes and which is not to the row itself in every part issues one request and retires. -/
theorem remoteLoadsIssue : Obligations.RemoteLoadsIssue := by
  refine ⟨ld_issues, vld_issues, fun s a d hi n ps hc ho hn => ?_⟩
  obtain ⟨t, ht, h⟩ := half_issues s a d hi n ps hc ho
  refine ⟨t, ?_, h⟩
  rcases hn with rfl | rfl
  · exact congrArg Host.Outcome.next ht
  · exact congrArg Host.Outcome.next ht

/-! ## The commands of CTL (O38) -/

/-- `t` is `s` but for the control block of row `r`, which is `x`, as far as control blocks and memory go. -/
structure Sets (s t : State) (r : RowId) (x : Row) : Prop where
  row : getRow t r = x
  rows : OtherRows s t r
  mem : t.mem = s.mem

theorem Sets.refl (s : State) (r : RowId) : Sets s s r (getRow s r) := ⟨rfl, fun _ _ => rfl, rfl⟩

section sets
variable {s t : State} {r : RowId} {x : Row} (h : Sets s t r x)
include h

theorem Sets.modRow (f : Row → Row) : Sets s (modRow t r f) r (f x) where
  row := by rw [getRow_modRow_self, h.row]
  rows q hq := by rw [getRow_modRow, if_neg hq, h.rows q hq]
  mem := h.mem

/-- What leaves control blocks and memory as they are does not matter here. -/
theorem Sets.congr {u : State} (hr : u.rows = t.rows) (hm : u.mem = t.mem) : Sets s u r x where
  row := by rw [← h.row]; unfold getRow; rw [hr]
  rows q hq := by rw [← h.rows q hq]; unfold getRow; rw [hr]
  mem := hm.trans h.mem

theorem Sets.joinReady : Sets s (joinReady t r) r x := by
  refine h.congr ?_ ?_
  · unfold Machine.joinReady; split <;> rfl
  · unfold Machine.joinReady; split <;> rfl

theorem Sets.leave : Sets s (leave t r) r x :=
  h.congr (by rw [leave_rest]) (by rw [leave_rest])

/-- A row that goes READY (R133). -/
theorem Sets.makeReady : Sets s (makeReady t r) r { x with st := .ready, why := 0, waitw := 0, await := none } :=
  (h.modRow fun w => { w with st := .ready, why := 0, waitw := 0, await := none }).joinReady

theorem Sets.makeStopped (why : Nat) : Sets s (makeStopped t r why) r
    { x with st := .stopped, why := why, waitw := 0, await := none, stepping := false, stalled := false } :=
  (h.modRow fun w => { w with st := .stopped, why := why, waitw := 0, await := none, stepping := false, stalled := false }).leave

theorem Sets.wake_ready (hh : coreHalted t r.core = false) :
    Sets s (wake t r) r { x with st := .ready, why := 0, waitw := 0, await := none } := by
  unfold wake
  rw [if_neg (by rw [hh]; decide)]
  exact h.makeReady

theorem Sets.wake_halted (hh : coreHalted t r.core = true) : Sets s (wake t r) r { x with resolved := true } := by
  unfold wake
  rw [if_pos hh]
  exact h.modRow fun w => { w with resolved := true }

theorem Sets.unraise : Sets s (unraise t r) r x := by
  refine h.congr ?_ ?_
  · unfold Machine.unraise; split <;> rfl
  · unfold Machine.unraise; split <;> rfl

theorem Sets.cmdDone : Sets s (cmdDone t r) r { x with cmderr := false, orphan := false } :=
  h.modRow fun w => { w with cmderr := false, orphan := false }

theorem Sets.cmdIgnored : Sets s (cmdIgnored t r) r { x with cmderr := true } := h.modRow fun w => { w with cmderr := true }

theorem Sets.step {i : Instr} (he : exec i s = .next t) : Step s i fun t => getRow t r = x ∧ OtherRows s t r ∧ t.mem = s.mem :=
  ⟨t, he, h.row, h.rows, h.mem⟩
end sets

/-! ### The length of the instruction that SKIP passes -/

/-- Two states differ in their dies alone. -/
def OnlyDies (s t : State) : Prop := t = { s with dies := t.dies }

theorem OnlyDies.trans {s t u : State} (h : OnlyDies s t) (h' : OnlyDies t u) : OnlyDies s u :=
  Eq.trans h' (congrArg (fun x : State => { x with dies := u.dies }) h)

theorem dirForce_onlyDies (s : State) (pa : Nat) : OnlyDies s (dirForce s pa) := by
  unfold OnlyDies dirForce
  dsimp only
  split <;> rfl

theorem walkForce_onlyDies (s : State) (part : Option Nat) (vpn fuel : Nat) : OnlyDies s (walkForce s part vpn fuel) := by
  induction fuel generalizing s with
  | zero => exact rfl
  | succ fuel ih =>
    unfold walkForce
    split
    · exact (dirForce_onlyDies s _).trans (ih _)
    · exact rfl

/-- Before SKIP reads the length, the host gives up lines, and nothing else changes (R371). -/
theorem peekForce_onlyDies (s : State) (r : RowId) : OnlyDies s (peekForce s r) := by
  unfold peekForce
  dsimp only
  split
  · split
    · exact (walkForce_onlyDies ..).trans (dirForce_onlyDies ..)
    · exact walkForce_onlyDies ..
  · exact rfl

theorem OnlyDies.sets {s t : State} (h : OnlyDies s t) (r : RowId) : Sets s t r (getRow s r) :=
  (Sets.refl s r).congr (by rw [h]) (by rw [h])

theorem OnlyDies.coreHalted {s t : State} (h : OnlyDies s t) (c : Nat) : coreHalted t c = coreHalted s c := by
  rw [h]; rfl

/-! ### The commands -/

/-- At a row's boundary its command is applied. -/
theorem atBoundary_row {s : State} {r : RowId} (hc : corePresent s r.core = true) (hr : r.row < 256)
    (hs : (getRow s r).stalled = false) (f : State → State) : atBoundary s r f = .next (f s) := by
  simp [atBoundary, rowBusy, hc, hr, hs]

section commands
variable {s : State} {r : RowId}

theorem sets_cmdKindle (hw : (getRow s r).st = .stopped) (hh : coreHalted s r.core = false) : Sets s (cmdKindle s r) r
    { getRow s r with cmderr := false, orphan := false, st := .ready, why := 0, waitw := 0, await := none } := by
  unfold cmdKindle
  rw [if_pos ⟨hw, hh⟩]
  exact (Sets.refl s r).cmdDone.makeReady

theorem sets_cmdStep (hw : (getRow s r).st = .stopped) (hh : coreHalted s r.core = false) : Sets s (cmdStep s r) r
    { getRow s r with cmderr := false, orphan := false, st := .ready, why := 0, waitw := 0, await := none, stepping := true } := by
  unfold cmdStep
  rw [if_pos ⟨hw, hh⟩]
  exact ((Sets.refl s r).cmdDone.modRow fun w => { w with stepping := true }).makeReady

theorem sets_cmdResume (hw : (getRow s r).st = .faulted) (hh : coreHalted s r.core = false) : Sets s (cmdResume s r) r
    { getRow s r with cmderr := false, orphan := false, st := .ready, why := 0, waitw := 0, await := none } := by
  unfold cmdResume
  rw [if_pos ⟨hw, hh⟩]
  exact (Sets.refl s r).cmdDone.makeReady

/-- KINDLE, STEP, RESUME and SKIP are ignored outside the state they need, and in a gang-stopped partition. -/
theorem not_runs {x : RStat} (h : (getRow s r).st ≠ x ∨ coreHalted s r.core = true) :
    ¬ ((getRow s r).st = x ∧ coreHalted s r.core = false) := by
  rintro ⟨h1, h2⟩
  rcases h with h | h
  · exact h h1
  · rw [h2] at h; cases h

theorem sets_cmdSkip (hw : (getRow s r).st = .faulted) (hh : coreHalted s r.core = false) (hm : (getRow s r).marked = [])
    (hk : (getRow s r).rstep ≠ 2) (len : Nat) : Sets s (cmdSkip (peekForce s r) r len) r
      { getRow s r with cmderr := false, orphan := false, st := .ready, why := 0, waitw := 0, await := none,
                        pc := ((getRow s r).pc + wNat ((getRow s r).fetchLen.getD len)) &&& ~~~1#64, rstep := 0, marked := [],
                        fetchLen := none, work := 0 } := by
  have h := (peekForce_onlyDies s r).sets r
  have hs : skipEngines (peekForce s r) r = peekForce s r := by
    unfold skipEngines
    dsimp only
    rw [h.row, if_pos hk]
  unfold cmdSkip
  dsimp only
  rw [h.row, (peekForce_onlyDies s r).coreHalted, if_pos ⟨hw, hh⟩, hs, hm]
  exact (h.cmdDone.modRow fun w => { w with
    pc := (w.pc + wNat ((getRow s r).fetchLen.getD len)) &&& ~~~1#64, rstep := 0, marked := [], fetchLen := none, work := 0 }).makeReady

theorem ignored_cmdSkip (h : (getRow s r).st ≠ .faulted ∨ coreHalted s r.core = true) (len : Nat) :
    Sets s (cmdSkip (peekForce s r) r len) r { getRow s r with cmderr := true } := by
  have hs := (peekForce_onlyDies s r).sets r
  unfold cmdSkip
  dsimp only
  rw [hs.row, (peekForce_onlyDies s r).coreHalted, if_neg (not_runs h)]
  exact hs.cmdIgnored

theorem sets_cmdStop (hw : (getRow s r).st ≠ .stopped) (hs : (getRow s r).stalled = false) : Sets s (cmdStop s r) r
    { getRow s r with cmderr := false, orphan := false, st := .stopped, why := 1, waitw := 0, await := none, stepping := false } := by
  have h := (Sets.refl s r).cmdDone.unraise.makeStopped 1
  have he : cmdStop s r = makeStopped (unraise (cmdDone s r) r) r 1 := by
    unfold cmdStop
    dsimp only
    split
    · exact absurd ‹_› hw
    · rfl
  rw [he]
  simpa [hs] using h

theorem sets_cmdStop_stopped (hw : (getRow s r).st = .stopped) : Sets s (cmdStop s r) r
    { getRow s r with cmderr := false, orphan := false, waitw := 0 } := by
  unfold cmdStop
  rw [hw]
  exact (Sets.refl s r).cmdDone.unraise.modRow fun w => { w with waitw := 0 }

/-- The row as REDIRECT leaves it before it runs on (R48). -/
def redirected (w : Row) : Row :=
  { w with cmderr := false, orphan := false, pc := w.npc, rstep := 0, waitw := 0, marked := [], fetchLen := none, work := 0 }

theorem sets_redirected (s : State) (r : RowId) : Sets s (modRow (cmdDone s r) r fun w =>
    { w with pc := w.npc, rstep := 0, waitw := 0, marked := [], fetchLen := none, work := 0 }) r (redirected (getRow s r)) :=
  (Sets.refl s r).cmdDone.modRow fun w =>
    { w with pc := w.npc, rstep := 0, waitw := 0, marked := [], fetchLen := none, work := 0 }

theorem sets_cmdRedirect (hw : (getRow s r).st = .waiting) (hh : coreHalted s r.core = false) : Sets s (cmdRedirect s r) r
    { redirected (getRow s r) with st := .ready, why := 0, await := none } := by
  unfold cmdRedirect
  rw [hw]
  exact (sets_redirected s r).wake_ready hh

theorem sets_cmdRedirect_halted (hw : (getRow s r).st = .waiting) (hh : coreHalted s r.core = true) : Sets s (cmdRedirect s r) r
    { redirected (getRow s r) with resolved := true } := by
  unfold cmdRedirect
  rw [hw]
  exact (sets_redirected s r).wake_halted hh

theorem sets_cmdRedirect_running (hw : (getRow s r).st ≠ .waiting) : Sets s (cmdRedirect s r) r (redirected (getRow s r)) := by
  have he : cmdRedirect s r = joinReady (modRow (cmdDone s r) r fun w =>
      { w with pc := w.npc, rstep := 0, waitw := 0, marked := [], fetchLen := none, work := 0 }) r := by
    unfold cmdRedirect
    dsimp only
    split
    · exact absurd ‹_› hw
    · rfl
  rw [he]
  exact (sets_redirected s r).joinReady

/-- A bit of a word whose three lowest bits, the command of CTL, have been cleared. -/
theorem testBit_noCmd (v : Word) (k : Nat) : (v &&& ~~~7#64).toNat.testBit k = (v.toNat.testBit k && decide (3 ≤ k)) := by
  have h7 : (7#64).getLsbD k = decide (k < 3) := Nat.testBit_two_pow_sub_one 3 k
  show (v &&& ~~~7#64).getLsbD k = (v.getLsbD k && _)
  rw [BitVec.getLsbD_and, BitVec.getLsbD_not, h7]
  by_cases hk : k < 64
  · rw [decide_eq_true hk, Bool.true_and, ← decide_not]
    simp
  · rw [BitVec.getLsbD_of_ge v k (by omega)]
    rfl

theorem Wbits_noCmd {v : Word} {hi lo : Nat} (h : 3 ≤ lo) : Wbits (v &&& ~~~7#64) hi lo = Wbits v hi lo := by
  unfold Wbits bitsOf
  refine Nat.eq_of_testBit_eq fun k => ?_
  simp only [Nat.testBit_mod_two_pow, Nat.testBit_div_two_pow, testBit_noCmd]
  simp [show 3 ≤ k + lo by omega]

/-- A store without a command (R47). -/
theorem sets_storeCtl (v : Word) (priv : Bool) (len : Nat) : Sets s (storeCtl s r (v &&& ~~~7#64) priv len) r
    { getRow s r with autores := v.getLsbD 10, pri := Wbits v 7 6, priv := if priv then v.getLsbD 9 else (getRow s r).priv } := by
  have h0 : Wbits (v &&& ~~~7#64) 2 0 = 0 := by
    unfold Wbits bitsOf
    refine Nat.eq_of_testBit_eq fun k => ?_
    simp only [Nat.testBit_mod_two_pow, Nat.testBit_div_two_pow, testBit_noCmd]
    simp
    omega
  have hbit (k : Nat) (hk : 3 ≤ k) : (v &&& ~~~7#64).getLsbD k = v.getLsbD k := by
    exact (testBit_noCmd v k).trans (by rw [decide_eq_true hk, Bool.and_true]; rfl)
  have h := (Sets.refl s r).modRow fun w =>
    { w with autores := v.getLsbD 10, pri := Wbits v 7 6, priv := if priv then v.getLsbD 9 else w.priv }
  unfold storeCtl
  dsimp only
  rw [h0, hbit 10 (by omega), hbit 9 (by omega), Wbits_noCmd (by omega)]
  exact h
end commands

/-- Settles O38: each command, applied at the boundary, sets the row's control block and nothing else that the rule names. -/
theorem commandsAct : Obligations.CommandsAct := by
  intro s r hc hr hs
  have he (f : State → State) := atBoundary_row hc hr hs f
  refine ⟨fun hw hh => ⟨(sets_cmdKindle hw hh).step (he (cmdKindle · r)), (sets_cmdStep hw hh).step (he (cmdStep · r))⟩,
    fun h => ⟨?_, ?_⟩, fun hw hh => (sets_cmdResume hw hh).step (he (cmdResume · r)),
    fun h => ⟨?_, (ignored_cmdSkip h (peekLen (peekForce s r) r)).step
      (he fun t => cmdSkip (peekForce t r) r (peekLen (peekForce t r) r))⟩,
    fun hw hh hm hk => (sets_cmdSkip hw hh hm hk _).step (he fun t => cmdSkip (peekForce t r) r (peekLen (peekForce t r) r)),
    fun hw => (sets_cmdStop hw hs).step (he (cmdStop · r)), fun hw => (sets_cmdStop_stopped hw).step (he (cmdStop · r)),
    fun hw hh => (sets_cmdRedirect hw hh).step (he (cmdRedirect · r)),
    fun hw hh => (sets_cmdRedirect_halted hw hh).step (he (cmdRedirect · r)),
    fun hw => (sets_cmdRedirect_running hw).step (he (cmdRedirect · r)),
    fun v priv => (sets_storeCtl v priv 4).step (he fun t => storeCtl t r (v &&& ~~~7#64) priv 4)⟩
  · refine (Sets.refl s r).cmdIgnored.step ((he (cmdKindle · r)).trans ?_)
    rw [cmdKindle, if_neg (not_runs h)]
  · refine (Sets.refl s r).cmdIgnored.step ((he (cmdStep · r)).trans ?_)
    rw [cmdStep, if_neg (not_runs h)]
  · refine (Sets.refl s r).cmdIgnored.step ((he (cmdResume · r)).trans ?_)
    rw [cmdResume, if_neg (not_runs h)]

/-! ## The bank scheduler (O39) -/

@[simp] theorem getBank_modBank_self (s : State) (core b : Nat) (f : Bank → Bank) :
    getBank (modBank s core b f) core b = f (getBank s core b) := by
  rw [getBank_modBank, if_pos ⟨rfl, rfl⟩]

@[simp] theorem getRow_modBank (s : State) (core b : Nat) (f : Bank → Bank) (r : RowId) :
    getRow (modBank s core b f) r = getRow s r := rfl

@[simp] theorem getBank_modRow (s : State) (r : RowId) (f : Row → Row) (c b : Nat) : getBank (modRow s r f) c b = getBank s c b := rfl

@[simp] theorem getBank_bump (s : State) (core k n c b : Nat) : getBank (bump s core k n) c b = getBank s c b :=
  (counted_bump s core k n).bank c b

/-- Of two READY rows the one that a selection prefers: the higher class, the older of equals (R334). -/
def better (s : State) (core : Nat) (best : Option (Nat × Nat)) (x : Nat × Nat) : Option (Nat × Nat) :=
  match best with
  | none => some x
  | some y => if classOf s core y.1 < classOf s core x.1 ∨ (classOf s core x.1 = classOf s core y.1 ∧ x.2 < y.2) then some x else best

/-- The READY rows that a selection may pick (R388). -/
def pickable (s : State) (core : Nat) (b : Bank) : List (Nat × Nat) :=
  b.ready.filterMap fun (k, a) => if s.pkg.thawHold.isSome && !(getRow s ⟨core, k⟩).priv then none else some (k, a.getD 0)

theorem pickRow_eq (s : State) (core : Nat) (b : Bank) : pickRow s core b = (pickable s core b).foldl (better s core) none := rfl

/-- `y` is no worse a choice than `x`. -/
def NoWorse (s : State) (core : Nat) (y x : Nat × Nat) : Prop :=
  classOf s core x.1 ≤ classOf s core y.1 ∧ (classOf s core x.1 = classOf s core y.1 → y.2 ≤ x.2)

theorem NoWorse.trans {s : State} {core : Nat} {x y z : Nat × Nat} (h : NoWorse s core z y) (h' : NoWorse s core y x) :
    NoWorse s core z x := by
  obtain ⟨h1, h2⟩ := h
  obtain ⟨h3, h4⟩ := h'
  refine ⟨h3.trans h1, fun e => ?_⟩
  exact (h2 (by omega)).trans (h4 (by omega))

theorem better_some {s : State} {core : Nat} {best : Option (Nat × Nat)} {x y : Nat × Nat} (h : better s core best x = some y) :
    NoWorse s core y x ∧ ∀ z, best = some z → NoWorse s core y z := by
  unfold better at h
  cases best with
  | none => cases h; exact ⟨⟨le_rfl, fun _ => le_rfl⟩, nofun⟩
  | some z =>
    dsimp only at h
    split at h
    · cases h
      refine ⟨⟨le_rfl, fun _ => le_rfl⟩, fun w hw => ?_⟩
      cases hw
      constructor <;> omega
    · cases h
      refine ⟨by constructor <;> omega, fun w hw => ?_⟩
      cases hw
      exact ⟨le_rfl, fun _ => le_rfl⟩

theorem better_isSome (s : State) (core : Nat) (best : Option (Nat × Nat)) (x : Nat × Nat) : ∃ y, better s core best x = some y := by
  unfold better
  cases best with
  | none => exact ⟨_, rfl⟩
  | some z =>
    dsimp only
    split
    · exact ⟨_, rfl⟩
    · exact ⟨_, rfl⟩

/-- The choice is no worse than any row it was made from. -/
theorem foldl_better {s : State} {core : Nat} (xs : List (Nat × Nat)) {best : Option (Nat × Nat)} {y : Nat × Nat}
    (h : xs.foldl (better s core) best = some y) :
    (∀ x ∈ xs, NoWorse s core y x) ∧ ∀ z, best = some z → NoWorse s core y z := by
  induction xs generalizing best with
  | nil =>
    refine ⟨by simp, fun z hz => ?_⟩
    have : some z = some y := hz.symm.trans h
    cases this
    exact ⟨le_rfl, fun _ => le_rfl⟩
  | cons x xs ih =>
    obtain ⟨h1, h2⟩ := ih h
    obtain ⟨m, hm⟩ := better_isSome s core best x
    obtain ⟨h3, h4⟩ := better_some hm
    refine ⟨fun z hz => ?_, fun z hz => (h2 m hm).trans (h4 z hz)⟩
    rcases List.mem_cons.mp hz with rfl | hz
    · exact (h2 m hm).trans h3
    · exact h1 z hz

theorem pickRow_best {s : State} {core : Nat} {b : Bank} {k age : Nat} (h : pickRow s core b = some (k, age))
    (x : Nat × Option Nat) (hx : x ∈ b.ready) (a : Nat) (ha : x.2 = some a)
    (hp : s.pkg.thawHold.isSome = true → (getRow s ⟨core, x.1⟩).priv = true) :
    classOf s core x.1 ≤ classOf s core k ∧ (classOf s core x.1 = classOf s core k → age ≤ a) := by
  rw [pickRow_eq] at h
  refine (foldl_better _ h).1 (x.1, a) (List.mem_filterMap.mpr ⟨x, hx, ?_⟩)
  have : ¬ (s.pkg.thawHold.isSome && !(getRow s ⟨core, x.1⟩).priv) = true := by
    simpa using hp
  simp only [ha, if_neg this, Option.getD_some]

/-! ### Selections (R334) -/

section selection
variable {s : State} {core bank k age : Nat}

theorem freeSlot_empty {b : Bank} (h : b.slot0.st = .empty) (c : Nat) : freeSlot s core b c = some 0 := by
  unfold freeSlot Bank.runSlot Bank.slot
  simp [h]

theorem freeSlot_lower {b : Bank} (h1 : b.slot1.st = .running) (h0 : b.slot0.st = .opening ∨ b.slot0.st = .opn) (c : Nat) :
    freeSlot s core b c = if b.due ≠ 0 ∧ classOf s core b.slot0.row < c then some 0 else none := by
  unfold freeSlot Bank.runSlot Bank.slot
  rcases h0 with h0 | h0
  · simp only [h0, h1]
    by_cases hd : b.due = 0 <;> by_cases hc : classOf s core b.slot0.row < c <;> simp [hd, hc, h0]
  · simp only [h0, h1]
    by_cases hd : b.due = 0 <;> by_cases hc : classOf s core b.slot0.row < c <;> simp [hd, hc, h0]

/-- A selection that finds no slot reads the classes, and uses up an event. -/
theorem selection_none (hpick : pickRow s core (getBank s core bank) = some (k, age))
    (hf : freeSlot s core (getBank s core bank) (classOf s core k) = none) : exec (.selection core bank) s =
    .next (modBank s core bank fun b => if b.due = 0 then b else { readClasses s core b with due := b.due - 1 }) := by
  show execSelection core bank s = _
  simp only [execSelection, hpick, hf]

/-- The bank after a selection of row `k`, of age `age`, for slot 0. -/
def selected (s : State) (core k age : Nat) (b : Bank) : Bank :=
  let back := goesBack s core b.slot0
  let ready := smErase b.ready k
  { readClasses s core { b with ready := if back then smPut ready b.slot0.row (some b.slot0.age) else ready } with
    nextAge := b.nextAge + 1, due := b.due - 1 + back.toNat,
    slot0 := ⟨.opening, k, false, age, false, b.nextAge, classOf s core k, classOf s core k⟩ }

theorem selection_slot0 (hpick : pickRow s core (getBank s core bank) = some (k, age))
    (hf : freeSlot s core (getBank s core bank) (classOf s core k) = some 0) :
    ∃ t, exec (.selection core bank) s = .next t ∧ getBank t core bank = selected s core k age (getBank s core bank) ∧
      t.rows = s.rows ∧ t.mem = s.mem := by
  show ∃ t, execSelection core bank s = .next t ∧ _
  unfold execSelection
  dsimp only
  rw [hpick]
  dsimp only
  rw [hf]
  refine ⟨_, rfl, ?_, rfl, rfl⟩
  simp only [modSlot, getBank_modBank_self]
  rfl

theorem goesBack_empty {x : Slot} (h : x.st = .empty) : goesBack s core x = false := by
  simp [goesBack, h]

theorem goesBack_open {x : Slot} (h : x.st = .opening ∨ x.st = .opn) (hr : (getRow s ⟨core, x.row⟩).st = .ready)
    (ho : (getRow s ⟨core, x.row⟩).orphan = false) : goesBack s core x = true := by
  rcases h with h | h <;> simp [goesBack, h, hr, ho]
end selection

/-- A slot with its class read anew at a selection. -/
theorem reread_eq (s : State) (core : Nat) (x : Slot) : x.reread (classOf s core x.row) = { x with
    cls := classOf s core x.row, keep := if x.st = .running then max x.keep (classOf s core x.row) else classOf s core x.row } := rfl

/-! ### The end of an opening (R331, R332, R337) -/

section opening
variable {s : State} {core bank : Nat} 

theorem openingSlot_zero {b : Bank} (h0 : b.slot0.st = .opening) (h : b.slot1.st ≠ .opening ∨ b.slot0.seq ≤ b.slot1.seq) :
    openingSlot b = some 0 := by
  unfold openingSlot
  by_cases h1 : b.slot1.st = .opening
  · simp [h0, h1, h.resolve_left fun h => h h1]
  · simp [h0, beq_eq_false_iff_ne.mpr h1]

section
variable (h0 : (getBank s core bank).slot0.st = .opening)
  (h : (getBank s core bank).slot1.st ≠ .opening ∨ (getBank s core bank).slot0.seq ≤ (getBank s core bank).slot1.seq)
include h0 h

/-- An opening of a row that has left READY. -/
theorem opening_quits (hq : (getRow s ⟨core, (getBank s core bank).slot0.row⟩).st ≠ .ready ∨ (getBank s core bank).slot0.quit = true) :
    exec (.openingComplete core bank) s = .next (modSlot s core bank 0 fun x => { x with st := .closing }) := by
  show execOpeningComplete core bank s = _
  unfold execOpeningComplete
  dsimp only
  rw [openingSlot_zero h0 h]
  dsimp only
  rw [if_pos]
  rcases hq with hq | hq
  · simp [Bank.slot, hq]
  · simp [Bank.slot, hq]

variable (hr : (getRow s ⟨core, (getBank s core bank).slot0.row⟩).st = .ready) (hq : (getBank s core bank).slot0.quit = false)
include hr hq

/-- An opening of a row that is READY still. -/
theorem opening_ready : exec (.openingComplete core bank) s = .next
    (if (getBank s core bank).runSlot.isSome then preempt (modSlot (bump s core 2 1) core bank 0 fun x => { x with st := .opn }) core bank
     else modBank (modSlot (bump s core 2 1) core bank 0 fun x => { x with st := .running }) core bank fun b => { b with quantum := 0 }) := by
  show execOpeningComplete core bank s = _
  unfold execOpeningComplete
  dsimp only
  rw [openingSlot_zero h0 h]
  dsimp only
  rw [if_neg]
  simp [Bank.slot, hq, hr]
end

theorem runSlot_one {b : Bank} (h0 : b.slot0.st ≠ .running) (h1 : b.slot1.st = .running) : b.runSlot = some 1 := by
  simp [Bank.runSlot, h0, h1]

theorem runSlot_none {b : Bank} (h0 : b.slot0.st ≠ .running) (h1 : b.slot1.st ≠ .running) : b.runSlot = none := by
  simp [Bank.runSlot, h0, h1]

end opening

/-! ### Closing (R332) -/

/-- A bank whose running slot `k`, of a row with control block `w`, has closed: the position passes to an OPEN row. -/
def positionLeft (w : Row) (k : Nat) (b : Bank) : Bank :=
  let c := b.setSlot k { b.slot k with st := .closing, quit := decide (w.st ≠ .ready) }
  if (b.slot (1 - k)).st = .opn then { c.setSlot (1 - k) { b.slot (1 - k) with st := .running } with quantum := 0 }
  else { c with quantum := 0 }

theorem closeRow_rest (s : State) (r : RowId) : closeRow s r = { s with cores := (closeRow s r).cores } := by
  unfold closeRow
  split <;> rfl

theorem getBank_closeRow {s : State} {r : RowId} {bank k : Nat} (hb : r.row % 4 = bank) (hk : slotOf s r = some k)
    (hst : ((getBank s r.core bank).slot k).st = .running) :
    getBank (closeRow s r) r.core bank = positionLeft (getRow s r) k (getBank s r.core bank) := by
  subst hb
  unfold closeRow positionLeft
  rw [hk]
  dsimp only
  rw [getBank_modBank_self, hst]

/-- The slots of a bank whose position has been left. -/
theorem positionLeft_slot (w : Row) {k : Nat} (hk : k < 2) (b : Bank) :
    (positionLeft w k b).slot k = { b.slot k with st := .closing, quit := decide (w.st ≠ .ready) } ∧
    (positionLeft w k b).quantum = 0 ∧
    ((b.slot (1 - k)).st = .opn → (positionLeft w k b).slot (1 - k) = { b.slot (1 - k) with st := .running }) := by
  unfold positionLeft
  rcases (show k = 0 ∨ k = 1 by omega) with rfl | rfl
  · split <;> simp_all [Bank.slot, Bank.setSlot]
  · split <;> simp_all [Bank.slot, Bank.setSlot]

section preempt
variable {s : State} {core bank : Nat}

/-- A row that opens beside a running one takes the position when its class is higher. -/
theorem preempt_slot1 (h0 : (getBank s core bank).slot0.st = .opn) (h1 : (getBank s core bank).slot1.st = .running)
    (hs : (getRow s ⟨core, (getBank s core bank).slot1.row⟩).stalled = false) : preempt s core bank =
      if (getBank s core bank).slot1.keep < (getBank s core bank).slot0.cls then closeRow s ⟨core, (getBank s core bank).slot1.row⟩
      else s := by
  unfold preempt
  dsimp only
  rw [runSlot_one (by rw [h0]; decide) h1]
  simp [Bank.slot, h0, hs]

/-- Opened beside a running row of no lower class, a row waits. -/
theorem preempt_waits (h0 : (getBank s core bank).slot0.st = .opn) (h1 : (getBank s core bank).slot1.st = .running)
    (hc : (getBank s core bank).slot0.cls ≤ (getBank s core bank).slot1.keep) : preempt s core bank = s := by
  unfold preempt
  dsimp only
  rw [runSlot_one (by rw [h0]; decide) h1]
  simp [Bank.slot, Nat.not_lt.mpr hc]
end preempt

/-! ### The end of a closing (R330, R331, R337) -/

theorem slotsKept_joinReady (s : State) (r : RowId) (core bank : Nat) :
    (getBank (joinReady s r) core bank).slot0 = (getBank s core bank).slot0 ∧
    (getBank (joinReady s r) core bank).slot1 = (getBank s core bank).slot1 := by
  unfold joinReady
  split
  · rw [getBank_modBank]
    split
    · rename_i h
      obtain ⟨rfl, rfl⟩ := h
      split <;> exact ⟨rfl, rfl⟩
    · exact ⟨rfl, rfl⟩
  · exact ⟨rfl, rfl⟩

theorem joinReady_rows (s : State) (r : RowId) : (joinReady s r).rows = s.rows := by
  unfold joinReady
  split <;> rfl

/-- A slot that has closed is empty, and the other one is as it was. -/
theorem closeDone_slots (s : State) (core bank k : Nat) :
    (getBank (closeDone s core bank k) core bank).slot0 = ((getBank s core bank).setSlot k {}).slot0 ∧
    (getBank (closeDone s core bank k) core bank).slot1 = ((getBank s core bank).setSlot k {}).slot1 ∧
    (closeDone s core bank k).rows = s.rows := by
  unfold closeDone
  dsimp only
  split
  · rw [getBank_modBank_self]
    exact ⟨rfl, rfl, rfl⟩
  · split
    · obtain ⟨h1, h2⟩ := slotsKept_joinReady (modBank s core bank fun b => { b.setSlot k {} with due := b.due + 1 })
        ⟨core, ((getBank s core bank).slot k).row⟩ core bank
      rw [h1, h2, getBank_modBank_self, joinReady_rows]
      exact ⟨rfl, rfl, rfl⟩
    · rw [getBank_modBank_self, getBank_modBank_self]
      exact ⟨rfl, rfl, rfl⟩

theorem slot_zero (b : Bank) : b.slot 0 = b.slot0 := rfl

section closed
variable {s : State} {core bank : Nat}

theorem closeDone_gone (h : (getRow s ⟨core, (getBank s core bank).slot0.row⟩).st ≠ .ready ∨
    (getRow s ⟨core, (getBank s core bank).slot0.row⟩).orphan = true) :
    (getBank (closeDone s core bank 0) core bank).ready = (getBank s core bank).ready := by
  unfold closeDone
  dsimp only
  rw [slot_zero, if_pos h, getBank_modBank_self]
  rfl

section
variable (hr : (getRow s ⟨core, (getBank s core bank).slot0.row⟩).st = .ready)
  (ho : (getRow s ⟨core, (getBank s core bank).slot0.row⟩).orphan = false)
include hr ho

theorem closeDone_rejoins (hi : (getBank s core bank).slot0.issued = false) (hq : (getBank s core bank).slot0.quit = false) :
    (getBank (closeDone s core bank 0) core bank).ready =
      smPut (getBank s core bank).ready (getBank s core bank).slot0.row (some (getBank s core bank).slot0.age) := by
  unfold closeDone
  simp [Bank.slot, hr, ho, hi, hq, Bank.setSlot]

theorem closeDone_anew (hi : (getBank s core bank).slot0.issued = true ∨ (getBank s core bank).slot0.quit = true)
    (hb : (getBank s core bank).slot0.row % 4 = bank) (hne : (getBank s core bank).slot1.row ≠ (getBank s core bank).slot0.row)
    (hn : smGet none (getBank s core bank).ready (getBank s core bank).slot0.row = none) :
    (getBank (closeDone s core bank 0) core bank).ready =
      smPut (getBank s core bank).ready (getBank s core bank).slot0.row (some (getBank s core bank).nextAge) := by
  have hiq : ((getBank s core bank).slot0.issued || (getBank s core bank).slot0.quit) = true := by simpa using hi
  have hopen : isOpen (modBank s core bank fun b => { b.setSlot 0 {} with due := b.due + 1 }) ⟨core, (getBank s core bank).slot0.row⟩ = false := by
    unfold isOpen slotOf
    rw [hb, getBank_modBank_self]
    simp [Bank.setSlot, hne]
  unfold closeDone
  dsimp only
  rw [slot_zero, if_neg (by simp [hr, ho]), if_pos hiq]
  unfold joinReady
  rw [hopen]
  simp [hr, ho, hb, Bank.setSlot, hn]
end
end closed

/-! ### Quantum and BUDGET (R45, R333) -/

/-- The row of the running slot `k` of a bank stands in no other slot. -/
structure Holds (b : Bank) (bank k : Nat) : Prop where
  lt : k < 2
  run : b.runSlot = some k
  mod : (b.slot k).row % 4 = bank
  sole : (b.slot (1 - k)).st = .empty ∨ (b.slot (1 - k)).row ≠ (b.slot k).row

theorem Holds.running {b : Bank} {bank k : Nat} (h : Holds b bank k) : (b.slot k).st = .running := by
  have hr := h.run
  unfold Bank.runSlot at hr
  split at hr
  · cases hr; assumption
  · split at hr
    · cases hr; assumption
    · cases hr

/-- Two banks agree in what stands in their slots, and in what state. -/
def SameSlots (b c : Bank) : Prop := ∀ j, (c.slot j).st = (b.slot j).st ∧ (c.slot j).row = (b.slot j).row

theorem SameSlots.runSlot {b c : Bank} (h : SameSlots b c) : c.runSlot = b.runSlot := by
  have h0 : c.slot0.st = b.slot0.st := (h 0).1
  have h1 : c.slot1.st = b.slot1.st := (h 1).1
  unfold Bank.runSlot
  rw [h0, h1]

theorem Holds.congr {b c : Bank} {bank k : Nat} (h : Holds b bank k) (hs : SameSlots b c) : Holds c bank k where
  lt := h.lt
  run := hs.runSlot.trans h.run
  mod := by rw [(hs k).2]; exact h.mod
  sole := by rw [(hs (1 - k)).1, (hs (1 - k)).2, (hs k).2]; exact h.sole

/-- The row of the position of a bank. -/
def holder (s : State) (core bank k : Nat) : RowId := ⟨core, ((getBank s core bank).slot k).row⟩

section holds
variable {s : State} {core bank k : Nat} (h : Holds (getBank s core bank) bank k)
include h

theorem Holds.slotOf : slotOf s (holder s core bank k) = some k := by
  have hr := h.running
  have hs := h.sole
  unfold Machine.slotOf holder
  rw [h.mod]
  rcases (show k = 0 ∨ k = 1 by have := h.lt; omega) with rfl | rfl
  · have hr : (getBank s core bank).slot0.st = .running := hr
    simp [Bank.slot, hr]
  · have hr : (getBank s core bank).slot1.st = .running := hr
    have hs : (getBank s core bank).slot0.st = .empty ∨ (getBank s core bank).slot0.row ≠ (getBank s core bank).slot1.row := hs
    rcases hs with hs | hs <;> simp [Bank.slot, hr, hs]

theorem expire_eq : expire s core bank =
    if (getBank s core bank).quantum < 256 ∨ (getRow s (holder s core bank k)).stalled = true then s
    else if rivalReady s (holder s core bank k) then closeRow s (holder s core bank k)
    else modBank s core bank fun b => { b with quantum := b.quantum % 256 } := by
  unfold expire
  dsimp only
  rw [h.run]
  rfl

theorem getBank_closeHolder : getBank (closeRow s (holder s core bank k)) core bank =
    positionLeft (getRow s (holder s core bank k)) k (getBank s core bank) :=
  getBank_closeRow (r := holder s core bank k) h.mod h.slotOf h.running
end holds

theorem expire_rows (s : State) (core bank : Nat) : (expire s core bank).rows = s.rows := by
  unfold expire
  dsimp only
  split
  · rfl
  · split
    · rfl
    · split
      · rw [closeRow_rest]
      · rfl

/-- A rival is READY alike in states whose bank, but for the quantum, and rows agree in what that asks for. -/
theorem rivalReady_congr {s t : State} {r : RowId} {bank q : Nat} (hm : r.row % 4 = bank)
    (hb : getBank t r.core bank = { getBank s r.core bank with quantum := q })
    (hw : ∀ q, (getRow t q).st = (getRow s q).st ∧ (getRow t q).orphan = (getRow s q).orphan) :
    rivalReady t r = rivalReady s r := by
  unfold rivalReady
  simp only [hm, hb, fun q => (hw q).1, fun q => (hw q).2]

/-- The bank at the 256th cycle of a quantum of slot `k`. -/
def eventBank (s : State) (core k : Nat) (b : Bank) : Bank :=
  let t := readClasses s core b
  { t.setSlot k { t.slot k with keep := (t.slot k).cls } with due := b.due + 1 }

theorem getBank_quantumEvent (s : State) (core bank k : Nat) :
    getBank (quantumEvent s core bank k) core bank = eventBank s core k (getBank s core bank) :=
  getBank_modBank_self ..

theorem sameSlots_event (s : State) (core k : Nat) (b : Bank) : SameSlots b (eventBank s core k b) := by
  intro j
  by_cases hk : k = 0 <;> by_cases hj : j = 0 <;>
    simp [eventBank, Bank.setSlot, Bank.slot, readClasses, Slot.reread, hk, hj]

/-- The counters of `n` cycles of a bank. -/
def tick (s : State) (core bank k n : Nat) : State :=
  let s0 := if bank = 0 then bump s core 0 n else s
  if (getRow s (holder s core bank k)).stalled && !relDated (getRow s (holder s core bank k)) then bump s0 core 3 n else s0

theorem counted_tick (s : State) (core bank k n : Nat) :
    getBank (tick s core bank k n) core bank = getBank s core bank ∧
    tick s core bank k n = { s with cores := (tick s core bank k n).cores } := by
  unfold tick
  dsimp only
  split <;> split <;> simp <;> rfl

/-- The BUDGET of a row after `n` cycles in the running position (R45). -/
def spend (n : Nat) (w : Row) : Row :=
  if w.budget.toNat = 0 then w
  else if n < w.budget.toNat then { w with budget := wNat (w.budget.toNat - n) } else { w with budget := 0, due := true }

theorem spend_state (n : Nat) (w : Row) : (spend n w).st = w.st ∧ (spend n w).orphan = w.orphan := by
  unfold spend
  split
  · exact ⟨rfl, rfl⟩
  · split <;> exact ⟨rfl, rfl⟩

theorem getRow_congr {q r : RowId} (h : rkey q = rkey r) (s : State) : getRow s q = getRow s r := by
  unfold getRow
  rw [h]

theorem charge_eq {s : State} {core bank k : Nat} (h : (getBank s core bank).runSlot = some k) (n : Nat) : charge s core bank n =
    modRow (quantumCycles (tick s core bank k n) core bank k n) (holder s core bank k) (spend n) := by
  unfold charge
  by_cases hb : bank = 0
  · subst hb
    simp only [if_true, getBank_bump]
    rw [h]
    rfl
  · simp only [if_neg hb]
    rw [h]
    simp only [tick, if_neg hb]
    rfl

theorem sameSlots_quantum (b : Bank) (q : Nat) : SameSlots b { b with quantum := q } := fun _ => ⟨rfl, rfl⟩

theorem SameSlots.trans {b c d : Bank} (h : SameSlots b c) (h' : SameSlots c d) : SameSlots b d :=
  fun j => ⟨(h' j).1.trans (h j).1, (h' j).2.trans (h j).2⟩

theorem quantumCycles_rows (s : State) (core bank k n : Nat) : (quantumCycles s core bank k n).rows = s.rows := by
  unfold quantumCycles
  dsimp only
  split <;> rfl

theorem getBank_quantumCycles_short {s : State} {core bank n : Nat}
    (h : 256 ≤ (getBank s core bank).quantum ∨ (getBank s core bank).quantum + n < 256) (k : Nat) :
    getBank (quantumCycles s core bank k n) core bank =
      { getBank s core bank with quantum := (getBank s core bank).quantum + n } := by
  unfold quantumCycles
  dsimp only
  rw [if_pos h, getBank_modBank_self]

/-- The cycles of a quantum after its 256th: a new one has begun, unless a rival is READY (R333). -/
def quantumAfter (rival : Bool) (q : Nat) : Nat := if rival then q else q % 256

/-- The 256th cycle of a quantum reads the classes, and a new quantum begins unless a rival is READY. -/
theorem getBank_quantumCycles_long {s : State} {core bank n : Nat} (hq : (getBank s core bank).quantum < 256)
    (hn : 256 ≤ (getBank s core bank).quantum + n) (k : Nat) : getBank (quantumCycles s core bank k n) core bank =
      { eventBank s core k (getBank s core bank) with
        quantum := quantumAfter (rivalReady (quantumEvent s core bank k) (holder s core bank k)) ((getBank s core bank).quantum + n) } := by
  unfold quantumCycles
  dsimp only
  rw [if_neg (by omega), getBank_modBank_self, getBank_quantumEvent]
  rfl

section charge
variable {s : State} {core bank k : Nat} (h : Holds (getBank s core bank) bank k)

include h

/-- Counters do not matter to the classes and rivals that the 256th cycle finds. -/
theorem event_tick (n : Nat) : eventBank (tick s core bank k n) core k = eventBank s core k ∧
    rivalReady (quantumEvent (tick s core bank k n) core bank k) (holder (tick s core bank k n) core bank k) =
      rivalReady (quantumEvent s core bank k) (holder s core bank k) := by
  obtain ⟨hb, hr⟩ := counted_tick s core bank k n
  have hc : eventBank (tick s core bank k n) core k = eventBank s core k := by rw [hr]; rfl
  have hh : holder (tick s core bank k n) core bank k = holder s core bank k := by unfold holder; rw [hb]
  refine ⟨hc, ?_⟩
  rw [hh]
  refine rivalReady_congr (q := (eventBank s core k (getBank s core bank)).quantum) h.mod ?_ fun q => ?_
  · rw [show (holder s core bank k).core = core from rfl, getBank_quantumEvent, getBank_quantumEvent, hc, hb]
  · have : getRow (tick s core bank k n) q = getRow s q := by rw [hr]; rfl
    exact ⟨congrArg Row.st this, congrArg Row.orphan this⟩

theorem charge_row (n : Nat) : getRow (charge s core bank n) (holder s core bank k) = spend n (getRow s (holder s core bank k)) ∧
    OtherRows s (charge s core bank n) (holder s core bank k) := by
  have hrows (q : RowId) : getRow (quantumCycles (tick s core bank k n) core bank k n) q = getRow s q := by
    unfold getRow
    rw [quantumCycles_rows, (counted_tick s core bank k n).2]
  rw [charge_eq h.run]
  refine ⟨by rw [getRow_modRow_self, hrows], fun q hq => by rw [getRow_modRow, if_neg hq, hrows]⟩

theorem charge_short {n : Nat} (hq : 256 ≤ (getBank s core bank).quantum ∨ (getBank s core bank).quantum + n < 256) :
    getBank (charge s core bank n) core bank = { getBank s core bank with quantum := (getBank s core bank).quantum + n } := by
  have hb := (counted_tick s core bank k n).1
  rw [charge_eq h.run, getBank_modRow, getBank_quantumCycles_short (by rw [hb]; exact hq), hb]

theorem charge_long {n : Nat} (hq : (getBank s core bank).quantum < 256) (hn : 256 ≤ (getBank s core bank).quantum + n) :
    getBank (charge s core bank n) core bank =
      { eventBank s core k (getBank s core bank) with
        quantum := quantumAfter (rivalReady (quantumEvent s core bank k) (holder s core bank k)) ((getBank s core bank).quantum + n) } := by
  have hb := (counted_tick s core bank k n).1
  obtain ⟨he, hr⟩ := event_tick h n
  rw [charge_eq h.run, getBank_modRow, getBank_quantumCycles_long (by rw [hb]; exact hq) (by rw [hb]; exact hn), hr, he, hb]

theorem charge_sameSlots (n : Nat) : SameSlots (getBank s core bank) (getBank (charge s core bank n) core bank) := by
  by_cases hq : 256 ≤ (getBank s core bank).quantum ∨ (getBank s core bank).quantum + n < 256
  · rw [charge_short h hq]
    exact sameSlots_quantum _ _
  · rw [charge_long h (by omega) (by omega)]
    exact (sameSlots_event s core k _).trans (sameSlots_quantum _ _)

theorem charge_holds (n : Nat) : Holds (getBank (charge s core bank n) core bank) bank k := h.congr (charge_sameSlots h n)

theorem holder_charge (n : Nat) : holder (charge s core bank n) core bank k = holder s core bank k := by
  unfold holder
  rw [(charge_sameSlots h n k).2]

/-- The rivals that the 256th cycle has found are rivals still when the position ends. -/
theorem rival_charge {n : Nat} (hq : (getBank s core bank).quantum < 256) (hn : 256 ≤ (getBank s core bank).quantum + n) :
    rivalReady (charge s core bank n) (holder s core bank k) = rivalReady (quantumEvent s core bank k) (holder s core bank k) := by
  obtain ⟨hrow, hrows⟩ := charge_row h n
  refine rivalReady_congr h.mod (q := quantumAfter (rivalReady (quantumEvent s core bank k) (holder s core bank k))
    ((getBank s core bank).quantum + n)) ?_ fun q => ?_
  · rw [show (holder s core bank k).core = core from rfl, getBank_quantumEvent, charge_long h hq hn]
  · show _ = (getRow s q).st ∧ _ = (getRow s q).orphan
    by_cases hq : rkey q = rkey (holder s core bank k)
    · rw [getRow_congr hq, getRow_congr hq, hrow]
      exact spend_state ..
    · rw [hrows q hq]
      exact ⟨rfl, rfl⟩

/-- A step of cycles: a due BUDGET trap, or the end of an expired quantum. -/
theorem budget_eq (n : Nat) : exec (.budget core bank n) s =
    let t := charge s core bank (stepCycles s core bank n)
    .next (if (getRow t (holder s core bank k)).due && !(getRow t (holder s core bank k)).stalled then budgetTrap t (holder s core bank k)
      else expire t core bank) := by
  show execBudget core bank n s = _
  unfold execBudget
  dsimp only
  rw [(charge_holds h _).run]
  dsimp only
  rw [(charge_sameSlots h _ k).2]
  rfl

theorem stepCycles_eq (n : Nat) : stepCycles s core bank n =
    if !(getRow s (holder s core bank k)).stalled && rivalReady (quantumEvent s core bank k) (holder s core bank k) then
      min n (256 - (getBank s core bank).quantum) else n := by
  unfold stepCycles
  dsimp only
  rw [h.run]
  rfl

theorem stepCycles_whole {n : Nat} (hr : rivalReady (quantumEvent s core bank k) (holder s core bank k) = false ∨
    (getRow s (holder s core bank k)).stalled = true) : stepCycles s core bank n = n := by
  rw [stepCycles_eq h]
  rcases hr with hr | hr <;> simp [hr]

theorem stepCycles_rival {n : Nat} (hr : rivalReady (quantumEvent s core bank k) (holder s core bank k) = true)
    (hs : (getRow s (holder s core bank k)).stalled = false) :
    stepCycles s core bank n = min n (256 - (getBank s core bank).quantum) := by
  rw [stepCycles_eq h]
  simp [hr, hs]

theorem stepCycles_le (n : Nat) : stepCycles s core bank n ≤ n := by
  rw [stepCycles_eq h]
  split
  · exact min_le_left ..
  · exact le_rfl

theorem stepCycles_short {n : Nat} (hn : (getBank s core bank).quantum + n < 256) : stepCycles s core bank n = n := by
  rw [stepCycles_eq h]
  split
  · omega
  · rfl
end charge

/-- Cycles that do not use BUDGET up (R45). -/
theorem spend_partial {m : Nat} {x : Row} (h : x.budget = 0 ∨ m < x.budget.toNat) :
    spend m x = { x with budget := if x.budget = 0 then 0 else x.budget - wNat m } := by
  unfold spend
  by_cases h0 : x.budget = 0
  · rw [if_pos (by rw [h0]; rfl), if_pos h0, ← h0]
  · have hm := h.resolve_left h0
    rw [if_neg (by omega), if_pos hm, if_neg h0]
    have : wNat (x.budget.toNat - m) = x.budget - wNat m := by
      have := x.budget.isLt
      apply BitVec.eq_of_toNat_eq
      simp only [wNat, BitVec.toNat_sub, BitVec.toNat_ofNat]
      omega
    rw [this]

theorem spend_all {m : Nat} {x : Row} (h0 : x.budget ≠ 0) (h : x.budget.toNat ≤ m) : spend m x = { x with budget := 0, due := true } := by
  unfold spend
  have : x.budget.toNat ≠ 0 := fun e => h0 (BitVec.eq_of_toNat_eq e)
  rw [if_neg this, if_neg (by omega)]

section budget
variable {s : State} {core bank k n : Nat} (h : Holds (getBank s core bank) bank k)
include h

/-- While BUDGET lasts, a step of cycles ends with what an expired quantum asks for. -/
theorem budget_lasts (hd : (getRow s (holder s core bank k)).due = false)
    (hm : (getRow s (holder s core bank k)).budget = 0 ∨ stepCycles s core bank n < (getRow s (holder s core bank k)).budget.toNat) :
    exec (.budget core bank n) s = .next (expire (charge s core bank (stepCycles s core bank n)) core bank) := by
  rw [budget_eq h]
  dsimp only
  rw [if_neg]
  rw [(charge_row h _).1, spend_partial hm]
  simp [hd]

theorem budget_ends (h0 : (getRow s (holder s core bank k)).budget ≠ 0)
    (hm : (getRow s (holder s core bank k)).budget.toNat ≤ stepCycles s core bank n)
    (hs : (getRow s (holder s core bank k)).stalled = false) : exec (.budget core bank n) s =
      .next (budgetTrap (charge s core bank (stepCycles s core bank n)) (holder s core bank k)) := by
  rw [budget_eq h]
  dsimp only
  rw [if_pos]
  rw [(charge_row h _).1, spend_all h0 hm]
  simp [hs]

theorem expire_charge_row (m : Nat) : getRow (expire (charge s core bank m) core bank) (holder s core bank k) =
    spend m (getRow s (holder s core bank k)) ∧ OtherRows s (expire (charge s core bank m) core bank) (holder s core bank k) := by
  have hr (q : RowId) : getRow (expire (charge s core bank m) core bank) q = getRow (charge s core bank m) q := by
    unfold getRow
    rw [expire_rows]
  obtain ⟨h1, h2⟩ := charge_row h m
  exact ⟨by rw [hr, h1], fun q hq => by rw [hr, h2 q hq]⟩

/-- A position whose quantum has not expired goes on. -/
theorem expire_charge_short {m : Nat} (hq : (getBank (charge s core bank m) core bank).quantum < 256) :
    expire (charge s core bank m) core bank = charge s core bank m := by
  rw [expire_eq (charge_holds h m), if_pos (.inl hq)]

/-- A position that has expired beside a rival ends. -/
theorem expire_charge_rival {m : Nat} (hq : (getBank s core bank).quantum < 256) (hm : (getBank s core bank).quantum + m = 256)
    (hr : rivalReady (quantumEvent s core bank k) (holder s core bank k) = true)
    (hs : (getRow s (holder s core bank k)).stalled = false) :
    ((getBank (expire (charge s core bank m) core bank) core bank).slot k).st = .closing ∧
      (getBank (expire (charge s core bank m) core bank) core bank).quantum = 0 := by
  have hc := charge_holds h m
  have hquantum : (getBank (charge s core bank m) core bank).quantum = 256 := by
    rw [charge_long h hq (by omega), hr, hm]
    rfl
  have hstall : (getRow (charge s core bank m) (holder s core bank k)).stalled = false := by
    rw [(charge_row h m).1, ← hs]
    unfold spend
    split
    · rfl
    · split <;> rfl
  have he : expire (charge s core bank m) core bank = closeRow (charge s core bank m) (holder (charge s core bank m) core bank k) := by
    rw [expire_eq hc, holder_charge h, if_neg (by simp [hquantum, hstall]), if_pos (by rw [rival_charge h hq (by omega), hr])]
  rw [he, getBank_closeHolder hc]
  obtain ⟨h1, h2, -⟩ := positionLeft_slot (getRow (charge s core bank m) (holder (charge s core bank m) core bank k)) h.lt
    (getBank (charge s core bank m) core bank)
  rw [h1, h2]
  exact ⟨rfl, rfl⟩
end budget

/-- The BUDGET trap at the row's boundary (R45, R339). -/
theorem budgetTrap_row {u : State} {r : RowId} (hp : (getRow u r).pend = []) (h0 : (getRow u r).budget = 0) :
    (getRow (budgetTrap u r) r).st = .faulted ∧ (getRow (budgetTrap u r) r).budget = 0 ∧ (getRow (budgetTrap u r) r).due = false ∧
      (getRow (budgetTrap u r) r).fcause = 8 ∧ (getRow (budgetTrap u r) r).fva = (getRow u r).pc ∧
      (getRow (budgetTrap u r) r).pc = (getRow u r).pc ∧ OtherRows u (budgetTrap u r) r := by
  have hb : budgetTrap u r = fault u r (Trap.plain cBUDGET (getRow u r).pc) (getRow u r).rstep := raise_taken rfl ..
  have hrow := getRow_fault hp r (Trap.plain cBUDGET (getRow u r).pc) (getRow u r).rstep
  rw [← hb, getRow_raiseRow, if_pos rfl] at hrow
  rw [hrow]
  refine ⟨rfl, h0, ?_, rfl, rfl, rfl, fun q hq => ?_⟩
  · exact Bool.and_false _
  · rw [hb, getRow_fault hp, getRow_raiseRow, if_neg hq]

/-! ### The statement -/

theorem step_of {s t : State} {i : Instr} {P : State → Prop} (he : exec i s = .next t) (h : P t) : Step s i P := ⟨t, he, h⟩

theorem selections (s : State) (core bank : Nat) {k age : Nat} (hpick : pickRow s core (getBank s core bank) = some (k, age)) :
    let b := getBank s core bank
    let x0 := getRow s ⟨core, b.slot0.row⟩
    let new : Slot := ⟨.opening, k, false, age, false, b.nextAge, classOf s core k, classOf s core k⟩
    let now1 := b.slot1.reread (classOf s core b.slot1.row)
    (b.slot0.st = .empty → Step s (.selection core bank) fun t =>
      (getBank t core bank).slot0 = new ∧ (getBank t core bank).slot1 = now1 ∧ (getBank t core bank).due = b.due - 1 ∧
      (getBank t core bank).ready = smErase b.ready k ∧ t.rows = s.rows ∧ t.mem = s.mem) ∧
    (b.slot1.st = .running → b.due ≠ 0 → b.slot0.st = .opening ∨ b.slot0.st = .opn → classOf s core b.slot0.row < classOf s core k →
      x0.st = .ready → x0.orphan = false → Step s (.selection core bank) fun t =>
      (getBank t core bank).slot0 = new ∧ (getBank t core bank).slot1 = now1 ∧
      (getBank t core bank).ready = smPut (smErase b.ready k) b.slot0.row (some b.slot0.age) ∧
      (getBank t core bank).due = b.due ∧ t.rows = s.rows ∧ t.mem = s.mem) ∧
    (b.slot1.st = .running → b.slot0.st = .opening ∨ b.slot0.st = .opn → classOf s core k ≤ classOf s core b.slot0.row →
      Step s (.selection core bank) fun t => (getBank t core bank).slot0.row = b.slot0.row ∧
        (getBank t core bank).slot0.st = b.slot0.st ∧ (getBank t core bank).ready = b.ready) := by
  intro b x0 new now1
  refine ⟨fun h0 => ?_, fun h1 hd h0 hc hr ho => ?_, fun h1 h0 hc => ?_⟩
  · obtain ⟨t, he, hb, hrows, hmem⟩ := selection_slot0 hpick (freeSlot_empty h0 _)
    refine step_of he ?_
    rw [hb, selected, goesBack_empty h0]
    exact ⟨rfl, rfl, rfl, rfl, hrows, hmem⟩
  · obtain ⟨t, he, hb, hrows, hmem⟩ := selection_slot0 hpick ((freeSlot_lower h1 h0 _).trans (if_pos ⟨hd, hc⟩))
    refine step_of he ?_
    rw [hb, selected, goesBack_open h0 hr ho]
    exact ⟨rfl, rfl, rfl, Nat.sub_add_cancel (Nat.pos_of_ne_zero hd), hrows, hmem⟩
  · refine step_of (selection_none hpick ((freeSlot_lower h1 h0 _).trans (if_neg fun h => absurd h.2 (by omega)))) ?_
    rw [getBank_modBank_self]
    split
    · exact ⟨rfl, rfl, rfl⟩
    · exact ⟨rfl, rfl, rfl⟩

/-- The bank's slot 0 has opened beside a running row. -/
def opened (s : State) (core bank : Nat) : State := modSlot (bump s core 2 1) core bank 0 fun x => { x with st := .opn }

theorem getBank_opened (s : State) (core bank : Nat) : getBank (opened s core bank) core bank =
    { getBank s core bank with slot0 := { (getBank s core bank).slot0 with st := .opn } } := by
  rw [opened, modSlot, getBank_modBank_self, getBank_bump]
  rfl

theorem openings (s : State) (core bank : Nat) :
    let b := getBank s core bank
    let x0 := getRow s ⟨core, b.slot0.row⟩
    b.slot0.st = .opening → b.slot1.st ≠ .opening ∨ b.slot0.seq ≤ b.slot1.seq →
      (x0.st ≠ .ready ∨ b.slot0.quit = true → Step s (.openingComplete core bank) fun t =>
        (getBank t core bank).slot0 = { b.slot0 with st := .closing } ∧ (getBank t core bank).slot1 = b.slot1 ∧ t.rows = s.rows) ∧
      (x0.st = .ready → b.slot0.quit = false →
        (b.slot1.st ≠ .running → Step s (.openingComplete core bank) fun t =>
          (getBank t core bank).slot0 = { b.slot0 with st := .running } ∧ (getBank t core bank).slot1 = b.slot1 ∧
          (getBank t core bank).quantum = 0 ∧ t.rows = s.rows) ∧
        (b.slot1.st = .running → b.slot0.cls ≤ b.slot1.keep → Step s (.openingComplete core bank) fun t =>
          (getBank t core bank).slot0 = { b.slot0 with st := .opn } ∧ (getBank t core bank).slot1 = b.slot1 ∧ t.rows = s.rows) ∧
        (b.slot1.st = .running → b.slot1.keep < b.slot0.cls → b.slot1.row % 4 = bank → b.slot0.row ≠ b.slot1.row →
          (getRow s ⟨core, b.slot1.row⟩).stalled = false → Step s (.openingComplete core bank) fun t =>
          (getBank t core bank).slot0 = { b.slot0 with st := .running } ∧ (getBank t core bank).quantum = 0 ∧
          (getBank t core bank).slot1 = { b.slot1 with
            st := .closing, quit := decide ((getRow s ⟨core, b.slot1.row⟩).st ≠ .ready) } ∧ t.rows = s.rows)) := by
  intro b x0 h0 h
  have h0' : b.slot0.st ≠ .running := by rw [h0]; decide
  have hb : getBank (opened s core bank) core bank = { b with slot0 := { b.slot0 with st := .opn } } := getBank_opened ..
  refine ⟨fun hq => step_of (opening_quits h0 h hq) ?_, fun hr hq => ?_⟩
  · rw [modSlot, getBank_modBank_self]
    exact ⟨rfl, rfl, rfl⟩
  have he := opening_ready h0 h hr hq
  refine ⟨fun h1 => ?_, fun h1 hc => ?_, fun h1 hc hm hne hs => ?_⟩
  · rw [runSlot_none h0' h1] at he
    refine step_of he ?_
    rw [if_neg (by decide), getBank_modBank_self, modSlot, getBank_modBank_self, getBank_bump]
    exact ⟨rfl, rfl, rfl, rfl⟩
  · rw [runSlot_one h0' h1] at he
    refine step_of (he.trans (congrArg Host.Outcome.next (preempt_waits (s := opened s core bank) ?_ ?_ ?_))) ?_
    · rw [hb]
    · rw [hb]; exact h1
    · rw [hb]; exact hc
    · rw [hb]
      exact ⟨rfl, rfl, rfl⟩
  · rw [runSlot_one h0' h1] at he
    have hh : Holds (getBank (opened s core bank) core bank) bank 1 := by
      rw [hb]
      exact ⟨by omega, runSlot_one (show SlotSt.opn ≠ .running by decide) h1, hm, .inr hne⟩
    have hclose := getBank_closeHolder hh
    have hp : preempt (opened s core bank) core bank = closeRow (opened s core bank) (holder (opened s core bank) core bank 1) := by
      rw [preempt_slot1 (by rw [hb]) (by rw [hb]; exact h1) (by rw [hb]; exact hs), if_pos (by rw [hb]; exact hc)]
      rfl
    refine step_of (he.trans (congrArg Host.Outcome.next hp)) ?_
    obtain ⟨hk, hq, ho⟩ := positionLeft_slot (getRow (opened s core bank) (holder (opened s core bank) core bank 1)) hh.lt
      (getBank (opened s core bank) core bank)
    rw [← hclose] at hk hq ho
    refine ⟨(ho (by rw [hb]; rfl)).trans ?_, hq, hk.trans ?_, by rw [closeRow_rest]; rfl⟩
    · rw [hb]; rfl
    · rw [holder, hb]; rfl

theorem closings_two {s : State} {core bank : Nat} (h0 : (getBank s core bank).slot0.st = .closing)
    (h1 : (getBank s core bank).slot1.st = .closing) : Step s (.closingComplete core bank) fun t => t.rows = s.rows ∧
      (((getBank t core bank).slot0 = {} ∧ (getBank t core bank).slot1 = (getBank s core bank).slot1) ∨
       ((getBank t core bank).slot1 = {} ∧ (getBank t core bank).slot0 = (getBank s core bank).slot0)) := by
  have he : exec (.closingComplete core bank) s = .next (closeDone (freeWord s).2 core bank ((freeWord s).1.toNat % 2)) := by
    show execClosingComplete core bank s = _
    unfold execClosingComplete
    dsimp only
    rw [h0, h1]
    rfl
  refine step_of he ?_
  obtain ⟨hs0, hs1, hr⟩ := closeDone_slots (freeWord s).2 core bank ((freeWord s).1.toNat % 2)
  rw [hs0, hs1, hr]
  rcases Nat.mod_two_eq_zero_or_one (freeWord s).1.toNat with hf | hf
  · rw [hf]
    exact ⟨rfl, .inl ⟨rfl, rfl⟩⟩
  · rw [hf]
    exact ⟨rfl, .inr ⟨rfl, rfl⟩⟩

theorem closing_one {s : State} {core bank : Nat} (h0 : (getBank s core bank).slot0.st = .closing)
    (h1 : (getBank s core bank).slot1.st ≠ .closing) : exec (.closingComplete core bank) s = .next (closeDone s core bank 0) := by
  show execClosingComplete core bank s = _
  unfold execClosingComplete
  dsimp only
  rw [h0, beq_eq_false_iff_ne.mpr h1]
  rfl

theorem expiries {s : State} {core bank k : Nat} (h : Holds (getBank s core bank) bank k) :
    let b := getBank s core bank
    let r : RowId := ⟨core, (b.slot k).row⟩
    let x := getRow s r
    let closed := { b.slot k with st := .closing, quit := decide (x.st ≠ .ready) }
    (b.quantum < 256 ∨ x.stalled = true → exec (.quantumExpiry core bank) s = .next s) ∧
    (256 ≤ b.quantum → x.stalled = false → Step s (.quantumExpiry core bank) fun t => t.rows = s.rows ∧
      (rivalReady s r = true → (getBank t core bank).quantum = 0 ∧ (getBank t core bank).slot k = closed ∧
        ((b.slot (1 - k)).st = .opn → (getBank t core bank).slot (1 - k) = { b.slot (1 - k) with st := .running })) ∧
      (rivalReady s r = false → (getBank t core bank).quantum = b.quantum % 256 ∧
        (getBank t core bank).slot0 = b.slot0 ∧ (getBank t core bank).slot1 = b.slot1)) := by
  intro b r x closed
  have he := expire_eq h
  refine ⟨fun hq => congrArg Host.Outcome.next (he.trans (if_pos hq)), fun hq hs => ⟨_, rfl, expire_rows .., fun hr => ?_, fun hr => ?_⟩⟩
  · have hx : ¬ (b.quantum < 256 ∨ x.stalled = true) := by rintro (h | h); exacts [absurd h (by omega), by simp [hs] at h]
    rw [he.trans ((if_neg hx).trans (if_pos hr)), getBank_closeHolder h]
    obtain ⟨h1, h2, h3⟩ := positionLeft_slot (getRow s (holder s core bank k)) h.lt (getBank s core bank)
    exact ⟨h2, h1, h3⟩
  · have hx : ¬ (b.quantum < 256 ∨ x.stalled = true) := by rintro (h | h); exacts [absurd h (by omega), by simp [hs] at h]
    have hr' : ¬ rivalReady s (holder s core bank k) = true := by rw [show rivalReady s (holder s core bank k) = false from hr]; decide
    rw [he.trans ((if_neg hx).trans (if_neg hr')), getBank_modBank_self]
    exact ⟨rfl, rfl, rfl⟩

theorem budgets {s : State} {core bank k : Nat} (h : Holds (getBank s core bank) bank k) (n : Nat) :
    let b := getBank s core bank
    let r : RowId := ⟨core, (b.slot k).row⟩
    let x := getRow s r
    let m := stepCycles s core bank n
    let rival := rivalReady (quantumEvent s core bank k) r
    (rival = false ∨ x.stalled = true → m = n) ∧ (rival = true → x.stalled = false → m = min n (256 - b.quantum)) ∧
    (x.due = false → x.budget = 0 ∨ m < x.budget.toNat → Step s (.budget core bank n) fun t =>
      getRow t r = { x with budget := if x.budget = 0 then 0 else x.budget - wNat m } ∧ OtherRows s t r ∧
      (b.quantum + n < 256 → (getBank t core bank).quantum = b.quantum + n) ∧
      (b.quantum < 256 → 256 ≤ b.quantum + n → rival = false →
        (getBank t core bank).quantum = (b.quantum + n) % 256 ∧ (getBank t core bank).runSlot = some k) ∧
      (b.quantum < 256 → 256 ≤ b.quantum + n → rival = true → x.stalled = false →
        ((getBank t core bank).slot k).st = .closing ∧ (getBank t core bank).quantum = 0)) ∧
    (x.budget ≠ 0 → x.budget.toNat ≤ m → x.stalled = false → x.pend = [] →
      Step s (.budget core bank n) fun t => (getRow t r).st = .faulted ∧ (getRow t r).budget = 0 ∧ (getRow t r).due = false ∧
        (getRow t r).fcause = 8 ∧ (getRow t r).fva = x.pc ∧ (getRow t r).pc = x.pc ∧ OtherRows s t r) := by
  intro b r x m rival
  refine ⟨stepCycles_whole h, stepCycles_rival h, fun hd hm => step_of (budget_lasts h hd hm) ?_, fun h0 hm hs hp => ?_⟩
  · obtain ⟨hrow, hrows⟩ := expire_charge_row h m
    refine ⟨hrow.trans (spend_partial hm), hrows, fun hq => ?_, fun hq hn hr => ?_, fun hq hn hr hs => ?_⟩
    · have hb := charge_short h (n := n) (.inr hq)
      rw [stepCycles_short h hq, expire_charge_short h (by rw [hb]; exact hq), hb]
    · have hb := charge_long h hq hn
      rw [show rivalReady (quantumEvent s core bank k) (holder s core bank k) = false from hr] at hb
      have hlt : (getBank (charge s core bank n) core bank).quantum < 256 := by rw [hb]; exact Nat.mod_lt _ (by decide)
      rw [stepCycles_whole h (.inl hr), expire_charge_short h hlt]
      exact ⟨by rw [hb]; rfl, (charge_holds h n).run⟩
    · refine expire_charge_rival h hq ?_ hr hs
      rw [stepCycles_rival h hr hs]
      show b.quantum + min n (256 - b.quantum) = 256
      omega
  · obtain ⟨hrow, hrows⟩ := charge_row h m
    have hrow := hrow.trans (spend_all h0 hm)
    obtain ⟨h1, h2, h3, h4, h5, h6, h7⟩ := budgetTrap_row (u := charge s core bank m) (r := holder s core bank k)
      (by rw [hrow]; exact hp) (by rw [hrow])
    rw [hrow] at h5 h6
    exact step_of (budget_ends h h0 hm hs) ⟨h1, h2, h3, h4, h5, h6, fun q hq => (h7 q hq).trans (hrows q hq)⟩

/-- Settles O39: the scheduler's steps, each read off its bank. -/
theorem banksSchedule : Obligations.BanksSchedule := by
  intro s core bank
  refine ⟨fun k age hpick => ⟨pickRow_best hpick, selections s core bank hpick⟩, openings s core bank, closings_two,
    fun h0 h1 => step_of (closing_one h0 h1) ?_, fun k hk hr hm hs => ?_⟩
  · obtain ⟨hs0, hs1, hrows⟩ := closeDone_slots s core bank 0
    exact ⟨hs0, hs1, hrows, closeDone_gone, fun hr ho => ⟨closeDone_rejoins hr ho, closeDone_anew hr ho⟩⟩
  · have h : Holds (getBank s core bank) bank k := ⟨hk, hr, hm, hs⟩
    obtain ⟨h1, h2⟩ := expiries h
    exact ⟨h1, h2, budgets h⟩

/-! ## Words set full, and the rows they wake (O35, O36) -/

/-- Cores are as before but for their banks. -/
def BanksOnly (s t : State) : Prop := ∀ c, getCore t c = { getCore s c with banks := (getCore t c).banks }

theorem BanksOnly.trans {s t u : State} (h : BanksOnly s t) (h' : BanksOnly t u) : BanksOnly s u := fun c => by
  rw [h' c, h c]

theorem BanksOnly.of_cores {s t : State} (h : t.cores = s.cores) : BanksOnly s t := fun c => by
  unfold getCore; rw [h]

theorem banksOnly_joinReady (s : State) (r : RowId) : BanksOnly s (joinReady s r) := by
  unfold joinReady
  split
  · exact fun c => getCore_modBank _ _ _ c _
  · exact fun _ => rfl

theorem banksOnly_makeReady (s : State) (r : RowId) : BanksOnly s (makeReady s r) :=
  banksOnly_joinReady (modRow s r fun w => { w with st := .ready, why := 0, waitw := 0, await := none }) r

theorem banksOnly_wake (s : State) (r : RowId) : BanksOnly s (wake s r) := by
  unfold wake
  split
  · exact fun _ => rfl
  · exact banksOnly_makeReady s r

theorem banksOnly_setFull (s : State) (r : RowId) (w : Nat) : BanksOnly s (setFull s r w) := by
  unfold setFull
  dsimp only
  split
  · exact banksOnly_wake { s with empt := s.empt.filter fun k => k ≠ rowWord r w } r
  · exact fun _ => rfl

theorem banksOnly_setFulls (s : State) (r : RowId) (ws : List Nat) : BanksOnly s (setFulls s r ws) := by
  induction ws generalizing s with
  | nil => exact fun _ => rfl
  | cons w ws ih => exact (banksOnly_setFull s r w).trans (ih _)

theorem setFull_rest (s : State) (r : RowId) (w : Nat) : setFull s r w =
    { s with empt := s.empt.filter fun k => k ≠ rowWord r w, rows := (setFull s r w).rows, cores := (setFull s r w).cores } := by
  unfold setFull
  dsimp only
  split
  · exact wake_rest ..
  · rfl

theorem setFulls_rest (s : State) (r : RowId) (ws : List Nat) : setFulls s r ws =
    { s with empt := (setFulls s r ws).empt, rows := (setFulls s r ws).rows, cores := (setFulls s r ws).cores } := by
  induction ws generalizing s with
  | nil => rfl
  | cons w ws ih =>
    exact (ih (setFull s r w)).trans (congrArg
      (fun x : State => let t := setFulls s r (w :: ws); { x with empt := t.empt, rows := t.rows, cores := t.cores })
      (setFull_rest s r w))

/-- A word that has been set full is full. -/
theorem isEmpty_setFulls {s : State} {r : RowId} {ws : List Nat} {w : Nat} (h : w ∈ ws) : isEmpty (setFulls s r ws) r w = false := by
  have : rowWord r w ∉ (setFulls s r ws).empt := fun hm => ((mem_setFulls_empt ..).mp hm).2 w h rfl
  simp [isEmpty, this]

theorem isEmpty_setEmpties {s : State} {r : RowId} {ws : List Nat} {w : Nat} (h : w ∈ ws) (hw : 32 < w) :
    isEmpty (setEmpties s r ws) r w = true := by
  have : rowWord r w ∈ (setEmpties s r ws).empt := (mem_setEmpties ..).mpr (.inr ⟨w, h, hw, rfl⟩)
  simp [isEmpty, this, hw]

/-! ### Stores at a row (R53, R238, R250) -/

theorem scratchWake_high {off : Nat} (h : 0x80 ≤ off) (s : State) (r : RowId) (n : Nat) : scratchWake s r off n = s := by
  unfold scratchWake
  dsimp only
  rw [if_neg (by omega)]

theorem putRowBytes_getRow (s : State) (r : RowId) (bs : List Byte) {off : Nat} (h : 0x80 ≤ off) (q : RowId) :
    getRow (putRowBytes s r off bs) q = getRow s q :=
  (congrArg (fun x => getRow x q) (putRowBytes_rest s r bs off h)).trans rfl

/-- The bytes and poison of a store beyond the control block. -/
def putBytes (s : State) (r : RowId) (off : Nat) (bs : List Byte) : State :=
  unpoison (putRowBytes s r off bs) (wholeKeys (rowPa r off) bs.length)

theorem putBytes_rest (s : State) (r : RowId) (bs : List Byte) {off : Nat} (h : 0x80 ≤ off) : putBytes s r off bs =
    { s with mem := (putBytes s r off bs).mem, poison := (putBytes s r off bs).poison } := by
  unfold putBytes
  rw [putRowBytes_rest s r bs off h]
  rfl

theorem rowStore_high {off : Nat} (h : 0x80 ≤ off) (s : State) (r : RowId) (bs : List Byte) (fe priv : Bool) (who : Option RowId) :
    rowStore s r off bs fe priv who =
      if fe then setFulls (putBytes s r off bs) r (rowWords off bs.length) else putBytes s r off bs := by
  have ho : otherInstr s (putRowBytes s r off bs) r = putRowBytes s r off bs := by
    unfold otherInstr
    simp [putRowBytes_getRow s r bs h]
  unfold rowStore
  dsimp only
  rw [if_neg (show ¬ off < 8 by omega), ho, scratchWake_high h, ite_self]
  rfl

theorem storedInRow_putBytes (s : State) (r : RowId) (bs : List Byte) {off : Nat} (h : 0x108 ≤ off) :
    StoredInRow s (putBytes s r off bs) r off bs := by
  have hm (a : Nat) : memByte (putBytes s r off bs) a = memByte (putRowBytes s r off bs) a := rfl
  have hx : rowPa r 0x108 ≤ rowPa r off := by unfold rowPa; omega
  constructor
  · intro k hk
    have hp : rowPa r (off + k) = rowPa r off + k := by unfold rowPa; omega
    rw [hm, memByte_putRowBytes _ _ _ _ (by omega), hp, if_pos ⟨by omega, by omega, by omega⟩, Nat.add_sub_cancel_left]
  · intro a ha
    rw [hm, memByte_putRowBytes _ _ _ _ (by omega), if_neg (by omega)]

theorem storedInRow_congr {s t u : State} {r : RowId} {off : Nat} {bs : List Byte} (h : StoredInRow s t r off bs) (hm : u.mem = t.mem) :
    StoredInRow s u r off bs := by
  obtain ⟨h1, h2⟩ := h
  unfold memByte at h1 h2
  unfold StoredInRow memByte
  rw [hm]
  exact ⟨h1, h2⟩

/-! ### The head of a FIFO, and a store on its way (R70, R88, R90) -/

theorem received_rest (s : State) (a b : Nat) : received s a b = { s with cores := (received s a b).cores } := by
  unfold received
  split <;> rfl

theorem received_fifo (s : State) (a b c : Nat) : (getCore (received s a b) c).fifo = (getCore s c).fifo := by
  unfold received
  split
  · rfl
  · rw [getCore_modCore]
    split <;> simp [*]

/-- A store entry as the bank of its row takes it. -/
def bankStore (s : State) (e : StEnt) (r : RowId) (off : Nat) : State :=
  match e.kind with
  | .plain => putBytes s r off e.bytes
  | .feSet => setFulls (putBytes s r off e.bytes) r (rowWords off e.bytes.length)
  | .bitsClr => setEmpties s r (rowWords off e.part.n)
  | .bitsSet => setFulls s r (rowWords off e.part.n)

/-- What an entry does to the row it is aimed at. -/
def BankStored (s t : State) (e : StEnt) (r : RowId) (off : Nat) : Prop :=
  (e.kind = .plain → StoredInRow s t r off e.bytes ∧ t.empt = s.empt ∧ t.rows = s.rows) ∧
  (e.kind = .feSet → StoredInRow s t r off e.bytes ∧ ∀ w ∈ rowWords off e.bytes.length, isEmpty t r w = false) ∧
  (e.kind = .bitsSet → t.mem = s.mem ∧ ∀ w ∈ rowWords off e.part.n, isEmpty t r w = false) ∧
  (e.kind = .bitsClr → t.mem = s.mem ∧ ∀ w ∈ rowWords off e.part.n, 32 < w → isEmpty t r w = true)

theorem bankStored_bankStore (s : State) (e : StEnt) (r : RowId) {off : Nat} (h : 0x108 ≤ off) :
    BankStored s (bankStore s e r off) e r off := by
  unfold BankStored bankStore
  refine ⟨fun hk => ?_, fun hk => ?_, fun hk => ?_, fun hk => ?_⟩ <;> simp only [hk]
  · have hp := putBytes_rest s r e.bytes (off := off) (by omega)
    exact ⟨storedInRow_putBytes s r e.bytes h, by rw [hp], by rw [hp]⟩
  · exact ⟨storedInRow_congr (storedInRow_putBytes s r e.bytes h) (setFulls_mem ..), fun w hw => isEmpty_setFulls hw⟩
  · exact ⟨setFulls_mem .., fun w hw => isEmpty_setFulls hw⟩
  · exact ⟨by rw [setEmpties_rest], fun w hw => isEmpty_setEmpties hw⟩

theorem bankStore_fifo (s : State) (e : StEnt) (r : RowId) {off : Nat} (h : 0x108 ≤ off) (c : Nat) :
    (getCore (bankStore s e r off) c).fifo = (getCore s c).fifo := by
  have hb : BanksOnly s (putBytes s r off e.bytes) := .of_cores (by rw [putBytes_rest s r e.bytes (by omega)])
  unfold bankStore
  split
  · rw [hb c]
  · rw [banksOnly_setFulls _ _ _ c, hb c]
  · rw [setEmpties_rest]
    rfl
  · rw [banksOnly_setFulls _ _ _ c]

theorem bankStore_flights (s : State) (e : StEnt) (r : RowId) {off : Nat} (h : 0x108 ≤ off) :
    (bankStore s e r off).flights = s.flights := by
  have hb : (putBytes s r off e.bytes).flights = s.flights := by rw [putBytes_rest s r e.bytes (by omega)]
  unfold bankStore
  split
  · exact hb
  · rw [setFulls_rest]
    exact hb
  · rw [setEmpties_rest]
  · rw [setFulls_rest]

/-- An entry aimed at a row that is resident and at a boundary is performed at the bank (R56, R90). -/
theorem performStore_row {s : State} {e : StEnt} {r : RowId} {win off : Nat} (hr : region s e.part.pa = .row r win off)
    (ha : aimedAsid s r.core e.part.asid = none) (hb : rowBusy s r (some e.row) = false) (ho : 0x108 ≤ off) :
    performStore s e = (true, bankStore (received s e.row.core r.core) e r off) := by
  have hp : performStore s e = applyStore s e := by simp [performStore, partCore, hr, ha]
  have h8 : ¬ off < 8 := by omega
  rw [hp]
  unfold applyStore bankStore
  simp only [hr, hb, h8, decide_false, Bool.and_false, Bool.false_and, Bool.false_eq_true, if_false]
  split <;> simp [*, rowStore_high (show 0x80 ≤ off by omega), rowBits, scratchWake_high (show 0x80 ≤ off by omega)]

theorem homeDie_row {s : State} {pa win off : Nat} {r : RowId} (h : region s pa = .row r win off) : homeDie s pa = some (dieOf r.core) := by
  simp [homeDie, h]

theorem lostFail_row {s : State} {pa win off : Nat} {r : RowId} (h : region s pa = .row r win off) :
    lostFail s pa = (getDie s (dieOf r.core)).failed := by
  simp [lostFail, h, homeDie]

theorem localStore_row {s : State} {p : Part} {win off : Nat} {r : RowId} (h : region s p.pa = .row r win off) (die : Nat) :
    localStore s die p = (dieOf r.core == die) := by
  simp [localStore, inPackage, h, homeDie]

theorem aimedPartOf_row {s : State} {p : Part} {win off : Nat} {r : RowId} (h : region s p.pa = .row r win off)
    (ha : aimedAsid s r.core p.asid = none) : aimedPartOf s p = none := by
  simp [aimedPartOf, partCore, h, ha]

theorem guestUpdate_row {s : State} {p : Part} {win off : Nat} {r : RowId} (h : region s p.pa = .row r win off) (die : Nat) (bs : List Byte) :
    guestUpdate s die p bs = s := by
  simp [guestUpdate, routeOf, h]

theorem fifoStep_performed {s t : State} {core : Nat} {e : StEnt} {es : List StEnt} (hf : (getCore s core).fifo = e :: es)
    (hr : entReady s e = true) (hl : localStore s (dieOf core) e.part = true) (hp : performStore s e = (true, t)) :
    fifoStep s core = modCore t core fun c => { c with fifo := c.fifo.drop 1 } := by
  simp [fifoStep, hf, hr, hl, hp]

theorem fifoStep_sent {s : State} {core : Nat} {e : StEnt} {es : List StEnt} (hf : (getCore s core).fifo = e :: es)
    (hr : entReady s e = true) (hl : localStore s (dieOf core) e.part = false) :
    fifoStep s core = modCore { guestUpdate s (dieOf core) e.part e.bytes with
      flights := (guestUpdate s (dieOf core) e.part e.bytes).flights ++ [⟨e.id, e⟩] } core fun c => { c with fifo := c.fifo.drop 1 } := by
  simp [fifoStep, hf, hr, hl]

theorem fifoStep_waits {s : State} {core : Nat} {e : StEnt} {es : List StEnt} (hf : (getCore s core).fifo = e :: es)
    (hr : entReady s e = false) : fifoStep s core = s := by
  simp [fifoStep, hf, hr]

theorem flightStep_performed {s t : State} {i : Nat} {f : Flight} (hf : s.flights[i]? = some f) (hb : flightBehind s i f = false)
    (he : entBehind s f.ent = false) (hp : performStore s f.ent = (true, t)) :
    flightStep s i = { t with flights := t.flights.filter fun g => g.id ≠ f.id } := by
  simp [flightStep, hf, hb, he, hp]

theorem flightBehind_eq_false {s : State} {i : Nat} {f : Flight}
    (h : ∀ g ∈ s.flights.take i, forwardDie s (dieOf g.ent.row.core) g.ent.part = forwardDie s (dieOf f.ent.row.core) f.ent.part →
      sameLoc s g.ent.part f.ent.part = false) : flightBehind s i f = false := by
  simpa [flightBehind] using h

/-- The head of a FIFO is performed at a row of its die. -/
theorem storePerform_row {s : State} {core : Nat} {e : StEnt} {es : List StEnt} {r : RowId} {win off : Nat}
    (hf : (getCore s core).fifo = e :: es) (he : entReady s e = true) (hr : region s e.part.pa = .row r win off) (ho : 0x108 ≤ off)
    (ha : aimedAsid s r.core e.part.asid = none) (hb : rowBusy s r (some e.row) = false) (hd : dieOf r.core = dieOf core) :
    Step s (.storePerform core) fun t => (getCore t core).fifo = es ∧ BankStored s t e r off := by
  have hl : localStore s (dieOf core) e.part = true := by rw [localStore_row hr, hd, beq_self_eq_true]
  refine ⟨_, congrArg Host.Outcome.next (fifoStep_performed hf he hl (performStore_row hr ha hb ho)), ?_, ?_⟩
  · simp [bankStore_fifo _ _ _ ho, received_fifo, hf]
  · have h := bankStored_bankStore (received s e.row.core r.core) e r ho
    rw [received_rest] at h ⊢
    exact h

theorem performanceAtTarget_row {s : State} {i : Nat} {f : Flight} {r : RowId} {win off : Nat} (hf : s.flights[i]? = some f)
    (hr : region s f.ent.part.pa = .row r win off) (hd : (getDie s (dieOf r.core)).failed = false) (hb : flightBehind s i f = false)
    (ho : 0x108 ≤ off) (ha : aimedAsid s r.core f.ent.part.asid = none) (hy : rowBusy s r (some f.ent.row) = false) :
    Step s (.performanceAtTarget i) fun t => BankStored s t f.ent r off ∧ t.flights = s.flights.filter fun g => g.id ≠ f.id := by
  have he : entBehind s f.ent = false := by simp [entBehind, aimedPartOf_row hr ha]
  have hl : lostFail s f.ent.part.pa = false := (lostFail_row hr).trans hd
  have hx : exec (.performanceAtTarget i) s = .next (flightStep s i) := by simp [exec, execPerformanceAtTarget, hf, hl]
  refine ⟨_, hx.trans (congrArg Host.Outcome.next (flightStep_performed hf hb he (performStore_row hr ha hy ho))), ?_, ?_⟩
  · have h := bankStored_bankStore (received s f.ent.row.core r.core) f.ent r ho
    rw [received_rest] at h ⊢
    exact h
  · dsimp only
    rw [bankStore_flights _ _ _ ho, received_rest]

/-- Settles O35: the head of a FIFO, by the target's die; then a store on its way. -/
theorem storesArePerformed : Obligations.StoresArePerformed := by
  unfold Obligations.StoresArePerformed
  refine ⟨?_, ?_, ?_, ?_⟩
  · intro s core e es r win off hf he hr ho _ ha hb hd
    exact storePerform_row hf he hr ho ha hb hd
  · intro s core e es hf he
    exact congrArg Host.Outcome.next (fifoStep_waits hf he)
  · intro s core e es r win off hf he hr hd
    have hl : localStore s (dieOf core) e.part = false := by simp [localStore_row hr, hd]
    refine ⟨_, congrArg Host.Outcome.next (fifoStep_sent hf he hl), ?_⟩
    rw [guestUpdate_row hr]
    exact ⟨(congrArg Core.fifo (getCore_modCore_self ..)).trans (congrArg (List.drop 1) hf), rfl, rfl⟩
  · intro s i f r win off hf hr hd hg ho _ ha hy hk
    obtain ⟨t, ht, ⟨hs, -⟩, hfl⟩ := performanceAtTarget_row hf hr hd (flightBehind_eq_false hg) ho ha hy
    exact ⟨t, ht, (hs hk).1, fun g => by simp [hfl]⟩

/-! ## A CXL read over a poisoned word (O46) -/

/-- A running package whose link 0 has trained as CXL, with EN. Die 0 holds a dirty copy of line 0 of its memory, and in that line
the word at byte 64 is poisoned. -/
def dirtyOverPoison : State :=
  { pkg := { boot := none }, dies := [(0, { hostpath := 1, cxl := true })],
    l2 := [⟨0, true, 0, 0, 0, true, none, .raw, none, List.replicate 128 0⟩], poison := [8] }

/-- Do the soft-error counters of a die stand in an answer as before? -/
def keepsCounters (s : State) (die : Nat) : Out → Bool
  | .next t => (getDie t die).serr == (getDie s die).serr
  | _ => true

/-- The write-back that the read forces meets the uncorrectable error of the old line and counts it (R347, R395). -/
theorem cxlRead_counts : keepsCounters dirtyOverPoison 0 (exec (.hostRead 0 .cxlMem 0 8) dirtyOverPoison) = false := by
  decide

/-- Refutes O46 by its clause on CXL reads: the read writes the dirty copy back, and the error that the write-back meets is counted
in the die's soft-error counters, which the clause says are as before. -/
theorem not_hostAccesses : ¬ Obligations.HostAccesses := by
  unfold Obligations.HostAccesses
  rintro ⟨-, bars, -, -⟩
  obtain ⟨-, -, -, -, cxlRead, -, -⟩ := bars dirtyOverPoison 0 .cxlMem 0
  obtain ⟨t, ht, -, hd⟩ := cxlRead (by decide) (fun _ => rfl) rfl rfl 8 (by decide) (by decide) (by decide) (by decide) (by decide)
    (by decide) (by decide)
  have h := cxlRead_counts
  rw [ht] at h
  exact absurd h (by simp [keepsCounters, show getDie t 0 = _ from hd])

/-! ## What the caches and the home can change (R62-R72; for O36 and O47)

Reads, writes and merges at the home move bytes between memory and the lines, count errors in the dies, start back-invalidations,
notify queues, and let stores in flight land. Nothing else of the state is touched. -/

/-- `t` is `s` but for memory, its poison, the lines, the dies, the package's registers, the cores and the stores in flight. -/
def L2Only (s t : State) : Prop :=
  t = { s with mem := t.mem, poison := t.poison, l2 := t.l2, dies := t.dies, pkg := t.pkg, cores := t.cores, flights := t.flights }

theorem L2Only.refl (s : State) : L2Only s s := rfl

theorem L2Only.trans {s t u : State} (h : L2Only s t) (h' : L2Only t u) : L2Only s u :=
  Eq.trans (show u = _ from h') (congrArg (fun x : State =>
    { x with mem := u.mem, poison := u.poison, l2 := u.l2, dies := u.dies, pkg := u.pkg, cores := u.cores, flights := u.flights }) h)

theorem OnlyDies.l2Only {s t : State} (h : OnlyDies s t) : L2Only s t := by
  unfold OnlyDies at h
  rw [h]
  rfl

theorem L2Only.of_eq {α : Type} {s t : State} {a : α × State} {x : α} (h : L2Only s a.2) (he : a = (x, t)) : L2Only s t := by
  subst he
  exact h

theorem L2Only.foldl {α : Type} {f : State → α → State} (h : ∀ t x, L2Only t (f t x)) (l : List α) (s : State) :
    L2Only s (l.foldl f s) := by
  induction l generalizing s with
  | nil => rfl
  | cons x xs ih => exact (h s x).trans (ih _)

section lines
variable (s : State)

theorem l2Only_memWrite (pa : Nat) (bs : List Byte) : L2Only s (memWrite s pa bs) := by
  induction bs generalizing s pa with
  | nil => rfl
  | cons b bs ih => exact L2Only.trans (show L2Only s (memSet s pa b) from rfl) (ih _ _)

theorem l2Only_gddrWrite (pa : Nat) (bs : List Byte) : L2Only s (gddrWrite s pa bs) :=
  (l2Only_memWrite s pa bs).trans rfl

theorem l2Only_meetError (pl : Nat) : L2Only s (meetError s pl) := by
  unfold meetError
  split <;> rfl

theorem l2Only_writeBack (x : Line) : L2Only s (writeBack s x) := by
  unfold writeBack
  split
  · exact ((l2Only_meetError s x.pl).trans (l2Only_memWrite _ _ _)).trans rfl
  · rfl

theorem l2Only_cleanWhere (p : Line → Bool) : L2Only s (cleanWhere s p) := by
  refine L2Only.trans (L2Only.foldl (fun t x => ?_) s.l2 s) rfl
  split
  · exact l2Only_writeBack t x
  · rfl

theorem l2Only_flushWhere (p : Line → Bool) : L2Only s (flushWhere s p) := (l2Only_cleanWhere s p).trans rfl

theorem l2Only_evictAt (i : Nat) : L2Only s (evictAt s i) := by
  unfold evictAt
  split
  · exact (l2Only_writeBack s _).trans rfl
  · rfl

theorem l2Only_makeRoom (slice need fuel : Nat) : L2Only s (makeRoom s slice need fuel) := by
  induction fuel generalizing s with
  | zero => rfl
  | succ fuel ih =>
    unfold makeRoom
    split
    · rfl
    · split
      · exact (l2Only_evictAt s _).trans (ih _)
      · rfl

theorem l2Only_install (die : Nat) (phys guest dirty : Bool) (p : Part) (data : List Byte) :
    L2Only s (install s die phys guest dirty p data) :=
  (l2Only_makeRoom s _ _ _).trans rfl

theorem l2Only_writeLine (i off : Nat) (bs : List Byte) (dirty : Bool) : L2Only s (writeLine s i off bs dirty) := by
  unfold writeLine
  split
  · rfl
  · dsimp only
    split
    · rfl
    · exact L2Only.trans (L2Only.trans (show L2Only s { s with l2 := dropNth s.l2 i } from rfl) (l2Only_makeRoom _ _ _ _)) rfl

theorem l2Only_hostCoherent (die : Nat) (wr : Bool) (p : Part) : L2Only s (hostCoherent s die wr p) := by
  unfold hostCoherent
  split
  · dsimp only
    split
    · exact l2Only_flushWhere s _
    · exact l2Only_cleanWhere s _
  · rfl

theorem l2Only_dirStart (pa : Nat) : L2Only s (dirStart s pa).2 := by
  unfold dirStart
  dsimp only
  repeat' split
  all_goals rfl

theorem l2Only_dirGuard (pa : Nat) : L2Only s (dirGuard s pa).2 := by
  unfold dirGuard
  split
  · exact l2Only_dirStart s pa
  · rfl

/-! ### Reads -/

theorem l2Only_directRead (p : Part) : L2Only s (directRead s p).2 := by
  unfold directRead
  dsimp only
  split <;> exact l2Only_flushWhere s _

theorem l2Only_cacheRead (die : Nat) (nt : Bool) (p : Part) : L2Only s (cacheRead s die nt p).2 := by
  have hg := l2Only_dirGuard s p.pa
  unfold cacheRead
  generalize dirGuard s p.pa = g at hg
  obtain ⟨go, s0⟩ := g
  dsimp only at hg ⊢
  split
  · exact hg
  refine hg.trans ?_
  split
  · exact l2Only_directRead s0 p
  · split
    · rfl
    · have hc := l2Only_hostCoherent s0 die false p
      split
      · split
        · exact hc.trans (l2Only_install _ _ _ _ _ _ _)
        · exact hc
      · exact hc
  · split
    · rfl
    · split
      · rfl
      · split
        · dsimp only
          split
          · exact l2Only_install s0 _ _ _ _ _ _
          · rfl
        · rfl

theorem l2Only_homeRead (die : Nat) (p : Part) : L2Only s (homeRead s die p).2 := by
  have hd := (dirForce_onlyDies s p.pa).l2Only
  unfold homeRead
  dsimp only
  refine hd.trans ?_
  split
  · exact l2Only_directRead _ p
  · exact l2Only_hostCoherent _ _ _ p
  · rfl
  · rfl

/-! ### Writes -/

theorem l2Only_noteStore (pa n : Nat) (rd : State → Nat → Nat) : L2Only s (noteStore s pa n rd) := by
  refine L2Only.foldl (fun t x => ?_) s.pkg.queues s
  dsimp only
  split <;> rfl

theorem l2Only_directWrite (p : Part) (bs : List Byte) : L2Only s (directWrite s p bs) := by
  unfold directWrite
  dsimp only
  split
  · exact (l2Only_flushWhere s _).trans (l2Only_gddrWrite _ _ _)
  · exact (l2Only_flushWhere s _).trans (l2Only_memWrite _ _ _)

theorem l2Only_lineWrite (d : Nat) (ph alloc : Bool) (p : Part) (bs : List Byte) : L2Only s (lineWrite s d ph alloc p bs) := by
  unfold lineWrite
  split
  · exact l2Only_writeLine s _ _ _ _
  · split
    · exact l2Only_install s _ _ _ _ _ _
    · exact l2Only_gddrWrite s _ _

theorem l2Only_homePut (die : Nat) (nt : Bool) (p : Part) (bs : List Byte) : L2Only s (homePut s die nt p bs).2 := by
  have hg := l2Only_dirGuard s p.pa
  unfold homePut
  generalize dirGuard s p.pa = g at hg
  obtain ⟨go, s0⟩ := g
  dsimp only at hg ⊢
  split
  · exact hg
  refine hg.trans ?_
  split
  · exact l2Only_directWrite s0 p bs
  · exact (l2Only_hostCoherent s0 _ _ p).trans (l2Only_lineWrite _ _ _ _ _ _)
  · exact l2Only_lineWrite s0 _ _ _ _ _
  · exact l2Only_memWrite s0 _ _

theorem l2Only_homeWrite (die : Nat) (nt : Bool) (p : Part) (bs : List Byte) : L2Only s (homeWrite s die nt p bs).2 := by
  have hp := l2Only_homePut s die nt p bs
  unfold homeWrite
  dsimp only
  split
  · exact hp.trans (l2Only_noteStore _ _ _ _)
  · exact hp

theorem l2Only_landFlights (die : Nat) (p : Part) : L2Only s (landFlights s die p) := by
  refine L2Only.foldl (fun t f => ?_) _ s
  have hf : L2Only t { t with flights := t.flights.filter fun g => g.id ≠ f.id } := rfl
  exact (hf.trans (dirForce_onlyDies _ f.ent.part.pa).l2Only).trans (l2Only_homeWrite _ _ _ _ _)

theorem l2Only_guestUpdate (die : Nat) (p : Part) (bs : List Byte) : L2Only s (guestUpdate s die p bs) := by
  unfold guestUpdate
  split
  · split
    · exact l2Only_writeLine s _ _ _ _
    · rfl
  · rfl

theorem l2Only_homeStore (die : Nat) (p : Part) (bs : List Byte) : L2Only s (homeStore s die p bs) :=
  (((l2Only_landFlights s die p).trans (dirForce_onlyDies _ p.pa).l2Only).trans (l2Only_homeWrite _ _ _ _ _)).trans
    (l2Only_guestUpdate _ _ _ _)

theorem l2Only_outsideWrite (pa : Nat) (bs : List Byte) : L2Only s (outsideWrite s pa bs) :=
  ((l2Only_flushWhere s _).trans (l2Only_gddrWrite _ _ _)).trans (l2Only_noteStore _ _ _ _)

/-! ### Merges -/

theorem l2Only_mergeElem (die : Nat) (x : RedLine) (k v : Nat) : L2Only s (mergeElem s die x k v).2 := by
  unfold mergeElem
  have hr (p : Part) := (l2Only_landFlights s die p).trans (l2Only_homeRead (landFlights s die p) die p)
  dsimp only
  split
  next heq => exact ((hr _).of_eq heq).trans (l2Only_homeStore _ _ _ _)
  next heq => exact (hr _).of_eq heq

theorem l2Only_mergeElems (die : Nat) (x : RedLine) (es : List (Nat × Option Nat)) : L2Only s (mergeElems s die x es).2 := by
  induction es generalizing s with
  | nil => rfl
  | cons e es ih =>
    obtain ⟨k, v⟩ := e
    cases v with
    | none => exact ih s
    | some n => exact (l2Only_mergeElem s die x k n).trans (ih _)

theorem l2Only_mergeOne (core i : Nat) : L2Only s (mergeOne s core i).2 := by
  unfold mergeOne
  split
  · rfl
  · next x _ =>
    have hc : L2Only s (modCore s core fun c => { c with red := dropNth c.red i }) := rfl
    exact (hc.trans (l2Only_mergeElems _ (dieOf core) x x.elems)).trans rfl

theorem l2Only_mergeMany (core : Nat) (p : RedLine → Bool) (fuel : Nat) : L2Only s (mergeMany s core p fuel).2 := by
  induction fuel generalizing s with
  | zero => rfl
  | succ fuel ih =>
    unfold mergeMany
    split
    · exact (l2Only_mergeOne s core _).trans (ih _)
    · rfl

theorem l2Only_mergeCopies (pa : Nat) (ns : List Nat) : L2Only s (mergeCopies s pa ns).2 := by
  induction ns generalizing s with
  | nil => rfl
  | cons n ns ih => exact (l2Only_mergeMany s n _ 33).trans (ih _)

end lines

/-! ## Requests in flight (O36) -/

/-! ### Finding a request again -/

theorem find?_filter_of_keep {α : Type} {p k : α → Bool} {l : List α} {a : α} (h : l.find? p = some a) (hk : k a = true) :
    (l.filter k).find? p = some a := by
  induction l with
  | nil => exact absurd h (by simp)
  | cons x xs ih =>
    by_cases hp : p x = true
    · obtain rfl : x = a := by simpa [hp] using h
      simp [List.filter_cons_of_pos hk, hp]
    · have ht := ih (by simpa [hp] using h)
      by_cases hx : k x = true
      · rw [List.filter_cons_of_pos hx]
        simpa [hp] using ht
      · rwa [List.filter_cons_of_neg hx]

theorem id_of_reqById {s : State} {id : Nat} {q : Req} (h : reqById s id = some q) : q.id = id := by
  simpa using List.find?_some h

theorem reqById_modReq {s : State} {id : Nat} {q : Req} {f : Req → Req} (h : reqById s id = some q) (hf : ∀ y, (f y).id = y.id) :
    reqById (modReq s id f) id = some (f q) := by
  have hid := id_of_reqById h
  have hp : ((fun x : Req => x.id == id) ∘ fun x => if x.id = id then f x else x) = fun x : Req => x.id == id := by
    funext x
    simp only [Function.comp_apply]
    split <;> simp [*]
  unfold reqById modReq
  rw [List.find?_map, hp, show s.reqs.find? _ = _ from h]
  simp [hid]

theorem reqById_settle {s : State} {id : Nat} {q : Req} (h : reqById s id = some q) (hw : q.words ≠ []) :
    reqById (settle s id) id = some q :=
  find?_filter_of_keep h (by simp [hw])

/-- A request that has taken a part stays while it owes words. -/
theorem reqById_taken {s u : State} {id : Nat} {q : Req} (h : reqById s id = some q) (hw : q.words ≠ []) (hu : u.reqs = s.reqs)
    (p : Part) (bs : List Byte) : reqById (settle (modReq u id fun y => y.take p bs) id) id = some (q.take p bs) := by
  have h' : reqById u id = some q := by rwa [reqById, hu]
  exact reqById_settle (reqById_modReq h' fun _ => rfl) hw

/-! ### A destination word is filled (R54, R234) -/

theorem putW_rest (s : State) (r : RowId) {w : Nat} (hw : 33 ≤ w) (v : Word) :
    putW s r w v = { s with mem := (putW s r w v).mem, poison := (putW s r w v).poison } := by
  unfold putW
  rw [putRowBytes_rest s r _ _ (by omega)]
  rfl

theorem getW_putW (s : State) (r : RowId) {w : Nat} (hw : 33 ≤ w) (v : Word) : getW (putW s r w v) r w = v := by
  have h : rowBytes (putW s r w v) r (8 * w) 8 = leBytes 8 v.toNat := by
    have hp := rowBytes_put s r (leBytes 8 v.toNat) (8 * w) (by omega)
    rw [leBytes_length] at hp
    rw [← hp]
    exact rowBytes_congr r _ _ (by omega) fun _ _ => rfl
  have := v.isLt
  apply BitVec.eq_of_toNat_eq
  rw [getW, h, leNat_leBytes, wNat, BitVec.toNat_ofNat]
  omega

theorem memByte_putW (s : State) (r : RowId) {w : Nat} (hw : 33 ≤ w) (v : Word) {a : Nat} (ha : a / 8 ≠ rowWord r w) :
    memByte (putW s r w v) a = memByte s a := by
  have hp : rowPa r (8 * w) = 8 * rowWord r w := rowPa_mul r w
  refine (memByte_putRowBytes s r (leBytes 8 v.toNat) (8 * w) (by omega) a).trans (if_neg ?_)
  rw [leBytes_length]
  omega

/-- Setting a word full leaves its row as a wake leaves it (R54, R133). -/
theorem setFull_row (s : State) (r : RowId) (w : Nat) :
    getRow (setFull s r w) r = woken (coreHalted s r.core) (getRow s r) w ∧ OtherRows s (setFull s r w) r := by
  let u : State := { s with empt := s.empt.filter fun k => k ≠ rowWord r w }
  have hu : Sets s u r (getRow s r) := (Sets.refl s r).congr rfl rfl
  by_cases hc : (getRow s r).st = .waiting ∧ (getRow s r).why = 5 ∧ (getRow s r).waitw = w
  · have hf : setFull s r w = wake u r := if_pos hc
    rw [hf, woken, if_pos hc]
    cases hh : coreHalted s r.core
    · have h := hu.wake_ready (show coreHalted u r.core = false from hh)
      exact ⟨h.row, h.rows⟩
    · have h := hu.wake_halted (show coreHalted u r.core = true from hh)
      exact ⟨h.row, h.rows⟩
  · have hf : setFull s r w = u := if_neg hc
    rw [hf, woken, if_neg hc]
    exact ⟨rfl, hu.rows⟩

theorem filled_fillWord (s : State) (r : RowId) {w : Nat} (hw : 33 ≤ w) (v : Word) : Filled s (fillWord s r w v) r w v := by
  have hp := putW_rest s r hw v
  have hm (a : Nat) : memByte (fillWord s r w v) a = memByte (putW s r w v) a := by
    unfold memByte fillWord
    rw [setFull_mem]
  have he : (fillWord s r w v).empt = s.empt.filter fun k => k ≠ rowWord r w := by
    unfold fillWord
    rw [setFull_empt, hp]
  have hx : (fillWord s r w v).poison = (putW s r w v).poison := by
    unfold fillWord
    rw [setFull_rest]
  obtain ⟨hrow, hrows⟩ := setFull_row (putW s r w v) r w
  rw [show coreHalted (putW s r w v) r.core = coreHalted s r.core from (congrArg (coreHalted · r.core) hp).trans rfl,
    show getRow (putW s r w v) r = getRow s r from (congrArg (getRow · r) hp).trans rfl] at hrow
  constructor
  · exact (getW_congr r w (by omega) fun k _ => hm _).trans (getW_putW s r hw v)
  · constructor
    · simp [isEmpty, he]
    · simp [isPoison, hx, putW, unpoison]
  · exact hrow
  · exact fun q hq => (hrows q hq).trans ((congrArg (getRow · q) hp).trans rfl)
  · exact fun a ha => (hm a).trans (memByte_putW s r hw v ha)
  · intro k hk
    simp [he, hk]
  · exact (BanksOnly.of_cores (by rw [hp])).trans (banksOnly_setFull _ r w)

/-- A request has one word less to fill, and is forgotten with its last. -/
def dropWord (s : State) (q : Req) (w : Nat) : State :=
  settle (modReq s q.id fun y => { y with words := y.words.filter fun v => v ≠ w }) q.id

/-- Later producers owe what they owed before. -/
theorem owed_dropWord (s : State) (q : Req) (w : Nat) (r : RowId) (k v : Nat) :
    owed (dropWord s q w) r k q.id r v = owed s r k q.id r v := by
  have h : ((dropWord s q w).reqs.any fun x => x.row == r && x.part == k && decide (q.id < x.id) && x.words.any fun y => r == r && y == v) =
      s.reqs.any fun x => x.row == r && x.part == k && decide (q.id < x.id) && x.words.any fun y => r == r && y == v := by
    unfold dropWord settle modReq
    rw [List.any_filter, List.any_map]
    congr 1
    funext x
    simp only [Function.comp_apply]
    split
    · next hx => simp [hx]
    · next hx => simp [hx]
  exact congrArg (fun b => b || _ || _ || _) h

theorem deliverStep_waits {s : State} {q : Req} {w : Nat} (h : fillBehind s q.row q.part q.id q.row w = true) : deliverStep s q w = s := by
  simp [deliverStep, h]

theorem deliverStep_here {s : State} {q : Req} {w : Nat} (hw : w ∈ q.words) (hb : ∀ x ∈ q.put.bytesOf w, ∃ y ∈ q.buf, y.1 = x.1)
    (ha : aimedPart s q.row.core q.part = false) (hf : fillBehind s q.row q.part q.id q.row w = false) :
    deliverStep s q w = fillOwed (dropWord s q w) q.row q.part q.id w (q.put.value w (getW s q.row w) q.buf) := by
  have hb' : ((q.put.bytesOf w).all fun x => q.buf.any fun y => y.1 == x.1) = true := by simpa using hb
  unfold deliverStep dropWord
  dsimp only
  rw [hb', hf, ha]
  simp [hw]

/-- A destination word whose bytes have arrived is filled, or keeps its bytes for a later producer. -/
theorem fill_deliver {s : State} {id : Nat} {q : Req} {w : Nat} (hq : reqById s id = some q) (hw : w ∈ q.words) (h33 : 32 < w)
    (hb : ∀ x ∈ q.put.bytesOf w, ∃ y ∈ q.buf, y.1 = x.1) (ha : aimedPart s q.row.core q.part = false)
    (hf : fillBehind s q.row q.part q.id q.row w = false) : Step s (.fill id (.deliver w)) fun t =>
      (owed s q.row q.part q.id q.row w = false → Filled s t q.row w (q.put.value w (getW s q.row w) q.buf)) ∧
      (owed s q.row q.part q.id q.row w = true → getW t q.row w = q.put.value w (getW s q.row w) q.buf ∧
        t.empt = s.empt ∧ t.rows = s.rows ∧ ∀ a, a / 8 ≠ rowWord q.row w → memByte t a = memByte s a) := by
  have hx : exec (.fill id (.deliver w)) s = .next (deliverStep s q w) := by simp [exec, execFill, hq]
  refine ⟨_, hx, ?_, ?_⟩ <;> intro ho <;> rw [deliverStep_here hw hb ha hf, fillOwed, owed_dropWord, ho]
  · obtain ⟨h1, h2, h3, h4, h5, h6, h7⟩ := filled_fillWord (dropWord s q w) q.row h33 (q.put.value w (getW s q.row w) q.buf)
    exact ⟨h1, h2, h3, h4, h5, h6, h7⟩
  · have hp := putW_rest (dropWord s q w) q.row h33 (q.put.value w (getW s q.row w) q.buf)
    exact ⟨getW_putW _ _ h33 _, (congrArg State.empt hp).trans rfl, (congrArg State.rows hp).trans rfl,
      fun a ha => memByte_putW _ _ h33 _ ha⟩

/-! ### Producers of a word (R54, R234) -/

theorem fillBehind_of_older {s : State} {r : RowId} {k bound w : Nat} {x : Req} (hx : x ∈ s.reqs) (hr : x.row = r) (hk : x.part = k)
    (hb : x.id < bound) {v : Nat} (hv : v ∈ x.words) (hw : regOf v = regOf w) : fillBehind s r k bound r w = true := by
  have h : (s.reqs.any fun q => q.row == r && q.part == k && decide (q.id < bound) && q.words.any fun v => r == r && regOf v == regOf w) =
      true := List.any_eq_true.mpr ⟨x, hx, by simpa [hr, hk, hb] using ⟨v, hv, hw⟩⟩
  simp only [fillBehind, owes, h, Bool.true_or]

theorem owed_of_later {s : State} {r : RowId} {k bound w : Nat} {x : Req} (hx : x ∈ s.reqs) (hr : x.row = r) (hk : x.part = k)
    (hb : bound < x.id) (hw : w ∈ x.words) : owed s r k bound r w = true := by
  have h : (s.reqs.any fun q => q.row == r && q.part == k && decide (bound < q.id) && q.words.any fun v => r == r && v == w) = true :=
    List.any_eq_true.mpr ⟨x, hx, by simpa [hr, hk, hb] using hw⟩
  simp only [owed, owes, h, Bool.true_or]

/-- Nothing is owed where the row has no request, and its engines have nothing in hand. -/
theorem owes_eq_false {s : State} {r : RowId} {k : Nat} (hq : ∀ x ∈ s.reqs, x.part ≠ k ∨ x.row ≠ r)
    (hc : (getCl s (clOf r.core)).copyq = []) (hd : ∀ d < 2, (getDie s d).distq = []) (hm : (getCore s r.core).mx.st = .idle)
    (he : (getCore s r.core).edge.st = .idle) (old : Nat → Bool) (hit : RowId → Nat → Bool) : owes s r k old hit = false := by
  have hany : (s.reqs.any fun q => q.row == r && q.part == k && old q.id && q.words.any (hit r)) = false := by
    refine List.any_eq_false.mpr fun x hx => ?_
    rcases hq x hx with h | h <;> simp [h]
  simp [owes, hany, hc, hd, hm, he, MxSeq.owes, EdgeEng.owes]

/-! ### Parts of loads (R98, R233, R234) -/

theorem readPart_l2Only {s : State} {who : RowId} {priv nt : Bool} {fe : Nat} {p : Part} (hp : partCore s p = none) :
    L2Only s (readPart s who priv fe nt p).2 := by
  unfold readPart
  split
  next h => simp [partCore, h] at hp
  next h => simp [partCore, h] at hp
  · rfl
  · rfl
  · rfl
  · rfl
  · exact l2Only_cacheRead s _ nt p

theorem logOf_none {s : State} {p : Part} (h : aimedPartOf s p = none) (q : Req) : logOf s q p = none := by
  simp [logOf, h]

theorem aimedPartOf_none {s : State} {p : Part} (h : partCore s p = none) : aimedPartOf s p = none := by
  simp [aimedPartOf, h]

section load
variable {s : State} {q : Req} {p : Part} (hc : q.cold = false) (hl : loadsBefore s q.row q.part q.id p = false)
  (ho : ownBefore s q.row q.part q.id p = false) (ha : aimedPartOf s p = none) (hf : lostFail s p.pa = false) (nt : Bool) (fe : Nat)
include hc hl ho ha hf

/-- What a part of a load reads is taken up, with the bytes of the row's own older stores (R70, R87). -/
theorem loadPerform_ok {bs : List Byte} {u : State} (hr : readPart s q.row q.priv fe nt p = (.ok bs, u)) :
    loadPerform s q p fe nt = settle (modReq u q.id fun y => y.take p (forward s q.row q.part q.id p bs)) q.id := by
  simp [loadPerform, hl, ho, logOf_none ha, loadDo, hc, hf, hr]

theorem loadPerform_wait {u : State} (hr : readPart s q.row q.priv fe nt p = (.wait, u)) : loadPerform s q p fe nt = u := by
  simp [loadPerform, hl, ho, logOf_none ha, loadDo, hc, hf, hr]
end load

theorem readPart_row {s : State} {who r : RowId} {win off : Nat} {p : Part} (hr : region s p.pa = .row r win off)
    (hb : rowBusy s r (some who) = false) (priv nt : Bool) (fe : Nat) : readPart s who priv fe nt p = rowLoad s r off p.n fe := by
  simp [readPart, hr, hb]

theorem sound_words {s : State} {r : RowId} {ws : List Nat} (h : ∀ w ∈ ws, isPoison s r w = false) :
    ws.filter (fun w => isPoison s r w) = [] := by
  simpa using h

theorem emptyOf_ne_nil {s : State} {r : RowId} {ws : List Nat} : emptyOf s r ws ≠ [] ↔ ∃ w ∈ ws, isEmpty s r w = true := by
  simp [emptyOf, List.filter_eq_nil_iff]

theorem rowLoad_waits {s : State} {r : RowId} {off n : Nat} (hp : ∀ w ∈ rowWords off n, isPoison s r w = false)
    (he : ∃ w ∈ rowWords off n, isEmpty s r w = true) {fe : Nat} (hfe : fe ≠ 0) : rowLoad s r off n fe = (.wait, s) := by
  simp [rowLoad, sound_words hp, hfe, emptyOf_ne_nil.mpr he]

theorem rowLoad_full {s : State} {r : RowId} {off n : Nat} (hp : ∀ w ∈ rowWords off n, isPoison s r w = false)
    (he : ∀ w ∈ rowWords off n, isEmpty s r w = false) (fe : Nat) :
    rowLoad s r off n fe = (.ok (rowBytes s r off n), if fe = 2 then setEmpties s r (rowWords off n) else s) := by
  have h : emptyOf s r (rowWords off n) = [] := by
    by_contra hn
    obtain ⟨w, hw, hx⟩ := emptyOf_ne_nil.mp hn
    simp [he w hw] at hx
  simp [rowLoad, sound_words hp, h]

theorem fill_perform {s : State} {id i fe : Nat} {q : Req} {p : Part} {nt : Bool} (hq : reqById s id = some q)
    (hk : q.kind = .load fe nt) (hp : q.todo[i]? = some p) : exec (.fill id (.perform i)) s = .next (loadPerform s q p fe nt) := by
  simp [exec, execFill, hq, hk, hp]

theorem remoteFePerform_load {s : State} {id k : Nat} {q : Req} {p : Part} {ps : List Part} {nt : Bool} (hq : reqById s id = some q)
    (hk : q.kind = .load (k + 1) nt) (hp : q.todo = p :: ps) :
    exec (.remoteFePerform id) s = .next (loadPerform s q p (k + 1) nt) := by
  simp [exec, execRemoteFePerform, hq, hk, hp]

/-! ### Atomics (R88, R245) -/

theorem atomicAt_l2Only {s : State} {who : RowId} {fn : Nat} {b e : Word} {rm : RMode} {p : Part} (hp : partCore s p = none) :
    L2Only s (atomicAt s who fn b e rm p).2.2 := by
  unfold atomicAt
  dsimp only
  split
  next h => simp [partCore, h] at hp
  · dsimp only
    split
    · rfl
    · exact l2Only_memWrite s _ _
  · have hm := l2Only_mergeCopies s p.pa (liveCores s)
    generalize mergeCopies s p.pa (liveCores s) = m at hm
    obtain ⟨fm, s0⟩ := m
    have hr := (hm.trans (l2Only_landFlights s0 (dieOf who.core) p)).trans (l2Only_homeRead _ (dieOf who.core) p)
    dsimp only
    split
    next heq =>
      dsimp only
      split
      · exact (hr.of_eq heq).trans (l2Only_guestUpdate _ _ _ _)
      · exact (hr.of_eq heq).trans (l2Only_homeStore _ _ _ _)
    · rfl

theorem L2Only.aimedPart {s t : State} (h : L2Only s t) (core k : Nat) : aimedPart t core k = aimedPart s core k := by
  unfold L2Only at h
  rw [h]
  rfl

theorem orFlags_rest (s : State) (r : RowId) (fl : FFlags) : orFlags s r fl = { s with rows := (orFlags s r fl).rows } := by
  unfold orFlags
  split <;> rfl

theorem orFlags_flags (s : State) (r : RowId) (fl : FFlags) :
    (getRow (orFlags s r fl) r).flags = (getRow s r).flags ||| fl.setWidth 64 := by
  unfold orFlags
  split
  · simp [*]
  · rw [getRow_modRow_self]

theorem orFlags_otherRows (s : State) (r : RowId) (fl : FFlags) : OtherRows s (orFlags s r fl) r := by
  unfold orFlags
  intro q hq
  split
  · rfl
  · rw [getRow_modRow, if_neg hq]

theorem atomicEnd_value {s t : State} {q : Req} {p : Part} {fn scope : Nat} {b e : Word} {rm : RMode} {posted : Bool}
    (hk : q.kind = .atomic fn b e rm posted scope) (hn : fn ≠ 10) (ha : aimedPart t q.row.core q.part = false) (bs : List Byte)
    (fl : FFlags) : atomicEnd s t q p bs fl none = settle (modReq (orFlags t q.row fl) q.id fun y => y.take p bs) q.id := by
  unfold atomicEnd
  simp only [hk, reply, ha, replyDo]
  split <;> simp [orFlags, *]

theorem atomicPerform_waits {s : State} {q : Req} {p : Part} {fn scope : Nat} {b e : Word} {rm : RMode} {posted : Bool}
    (hk : q.kind = .atomic fn b e rm posted scope) (hb : q.atBank = false) (hw : atomicBehind s q p posted scope = true) :
    atomicPerform s q p = s := by
  simp [atomicPerform, hk, hb, hw]

theorem atomicPerform_value {s u : State} {q : Req} {p : Part} {fn scope : Nat} {b e : Word} {rm : RMode} {posted : Bool}
    {bs : List Byte} {fl : FFlags} (hk : q.kind = .atomic fn b e rm posted scope) (hn : fn ≠ 10) (hc : q.cold = false)
    (hw : atomicBehind s q p posted scope = false) (hp : aimedPartOf s p = none) (hf : lostFail s p.pa = false)
    (ha : aimedPart u q.row.core q.part = false) (hr : atomicAt s q.row fn b e rm p = (.ok bs, fl, u)) :
    atomicPerform s q p = settle (modReq (orFlags u q.row fl) q.id fun y => y.take p bs) q.id := by
  simp [atomicPerform, hk, hw, logOf_none hp, atomicDo, hc, hf, hr, hn, atomicEnd_value hk hn ha]

/-- Settles O36: fills, the producers of a word, parts of loads, `fe` loads, and atomics. -/
theorem requestsArePerformed : Obligations.RequestsArePerformed := by
  unfold Obligations.RequestsArePerformed
  refine ⟨?_, ?_, ?_, ?_, ?_, ?_⟩
  · intro s id q w hq hw h33 _ hb ha
    refine ⟨fun hf => ?_, fun hf => fill_deliver hq hw h33 hb ha hf⟩
    simp [exec, execFill, hq, deliverStep_waits hf]
  · intro s r k bound w
    refine ⟨?_, ?_, ?_⟩
    · rintro ⟨x, hx, hr, hk, hb, v, hv, hw⟩
      exact fillBehind_of_older hx hr hk hb hv hw
    · rintro ⟨x, hx, hr, hk, hb, hw⟩
      exact owed_of_later hx hr hk hb hw
    · intro hq hc hd hm he
      exact ⟨owes_eq_false hq hc hd hm he _ _, owes_eq_false hq hc hd hm he _ _⟩
  · intro s id i q p nt bs u hq hk hc hp hw hl ho hpc hf hr
    have hu : u.reqs = s.reqs := by
      have h := (readPart_l2Only (nt := nt) hpc).of_eq hr
      rw [h]
    obtain rfl := id_of_reqById hq
    refine ⟨_, (fill_perform hq hk hp).trans (congrArg _ (loadPerform_ok hc hl ho (aimedPartOf_none hpc) hf nt 0 hr)), ?_, rfl⟩
    exact reqById_taken hq hw hu _ _
  · intro s id k q p ps nt r win off hq hk hc hp hw hl ho hr ha hd hb hx
    obtain rfl := id_of_reqById hq
    have hexec := remoteFePerform_load hq hk hp
    have hrow := readPart_row hr hb q.priv nt (k + 1)
    have haim := aimedPartOf_row hr ha
    have hf : lostFail s p.pa = false := (lostFail_row hr).trans hd
    constructor
    · intro he
      rw [rowLoad_waits hx he (by omega)] at hrow
      rw [hexec, loadPerform_wait hc hl ho haim hf nt _ hrow]
    · intro he
      rw [rowLoad_full hx he] at hrow
      refine ⟨_, hexec.trans (congrArg _ (loadPerform_ok hc hl ho haim hf nt _ hrow)), ?_, ?_, ?_⟩
      · refine reqById_taken hq hw ?_ _ _
        split
        · rw [setEmpties_rest]
        · rfl
      · show State.mem (ite _ _ _) = _
        split
        · rw [setEmpties_rest]
        · rfl
      · intro w hm h32
        show isEmpty (ite _ _ _) _ _ = _
        by_cases h1 : k = 1
        · rw [if_pos (by omega), isEmpty_setEmpties hm h32, decide_eq_true h1]
        · rw [if_neg (by omega), he w hm, decide_eq_false h1]
  · intro s id fn scope b e rm q p ps bs fl u hq hk hp hw hn hc hb ha hpc hf
    obtain rfl := id_of_reqById hq
    have hexec : exec (.atomicPerform q.id) s = .next (atomicPerform s q p) := by simp [exec, execAtomicPerform, hq, hp]
    refine ⟨fun hbe => by rw [hexec, atomicPerform_waits hk hb hbe], fun hbe hr => ?_⟩
    have hu : L2Only s u := by
      have h := atomicAt_l2Only (who := q.row) (fn := fn) (b := b) (e := e) (rm := rm) hpc
      rwa [hr] at h
    have hau : aimedPart u q.row.core q.part = false := (hu.aimedPart _ _).trans ha
    refine ⟨_, hexec.trans (congrArg _ (atomicPerform_value hk hn hc hbe (aimedPartOf_none hpc) hf hau hr)), ?_, ?_, ?_, ?_, ?_⟩
    · refine reqById_taken hq hw ?_ _ _
      rw [orFlags_rest, hu]
    · exact (congrArg State.mem (orFlags_rest u q.row fl)).trans rfl
    · exact (congrArg State.l2 (orFlags_rest u q.row fl)).trans rfl
    · exact orFlags_flags u q.row fl
    · exact orFlags_otherRows u q.row fl
  · intro s q p posted scope h
    simp only [atomicBehind, Bool.or_eq_true, Bool.not_eq_true', List.any_eq_true, Bool.and_eq_true]
    exact .inl (or_assoc.mpr h)

/-! ## An action read from a line that lies elsewhere (O47) -/

/-- A running package whose port 0 has EN and the ASID of partition 0. The cell at address 0 of die 0 has a well-formed ACTION in
memory. No line has its physical back-tag, but a line found by the cell's address, whose back-tag is another one, has reserved bits
set in the word after COUNT. -/
def lineElsewhere : State :=
  { pkg := { boot := none, flport := [(0, 1)] }, parts := [(0, { root := 1 })], mem := [(8, 0xC0), (9, 0x7F)],
    l2 := [⟨0, true, 0, 0, 1, false, none, .raw, none, (List.replicate 128 0).set 10 1⟩] }

theorem lineElsewhere_red (c : Nat) : (getCore lineElsewhere c).red = [] := rfl

/-- Does an answer to an outside access hold these bytes? -/
def answersWith (bs : List Byte) : Out → Bool
  | .next t => t.hostReply == some bs
  | _ => false

/-- The home finds the line by the cell's address and refuses its ACTION (R90, R246). -/
theorem fireAgain_refused : answersWith (leBytes 8 1) (exec (.peerAccess 0 0 .fireAgain) lineElsewhere) = true := by
  decide

/-- The ACTION that memory holds is well formed (R141). -/
theorem memory_action_ok :
    actionOk lineElsewhere (asidPart lineElsewhere (portPathOf lineElsewhere 0).asid) (wNat (leNat (memRead lineElsewhere 8 8))) = true := by
  decide

/-- Refutes O47 by its clause on asking for a packet again: a line that the home finds by the cell's address, with another back-tag
than its address, is no copy in the sense of the clause, and yet the home reads ACTION from it and not from memory. -/
theorem not_peersAccess : ¬ Obligations.PeersAccess := by
  unfold Obligations.PeersAccess
  intro peers
  obtain ⟨-, gddr, -, -⟩ := peers lineElsewhere 0 0 (by decide) rfl (by decide) (by decide)
  obtain ⟨-, -, -, -, cell⟩ := gddr (by decide) (by decide) (by decide)
  obtain ⟨-, again⟩ := cell (by decide) (fun c x hx => absurd (lineElsewhere_red c ▸ hx) (List.not_mem_nil)) (by decide)
  obtain ⟨t, ht, hf, -⟩ := again (by decide) (by decide)
  have h := fireAgain_refused
  unfold FiredForPeer at hf
  rw [if_pos memory_action_ok] at hf
  obtain ⟨hreply, -⟩ := hf
  rw [ht, answersWith, hreply] at h
  exact absurd h (by decide)

end Sys2Proof.Proofs

-- ==== Proofs of 03_memory_hierarchy ====
namespace Sys2Proof.Proofs
open Sys2Proof.Machine Sys2Proof.Claims

/-! ## Signatures (R116, R117) -/

theorem sigFold_lt (l k : Nat) : sigFold l k < 1024 := by
  have hb (v hi lo : Nat) (h : hi - lo + 1 ≤ 10) : bitsOf v hi lo < 2 ^ 10 :=
    lt_of_lt_of_le (Nat.mod_lt _ (by positivity)) (Nat.pow_le_pow_right (by decide) h)
  exact Nat.xor_lt_two_pow (Nat.xor_lt_two_pow (Nat.xor_lt_two_pow (hb _ _ _ (by decide)) (hb _ _ _ (by decide)))
    (Nat.xor_lt_two_pow (hb _ _ _ (by decide)) (hb _ _ _ (by decide)))) (hb _ _ _ (by decide))

theorem sigIndices_lt {l i : Nat} (h : i ∈ sigIndices l) : i < 1024 := by
  simp only [sigIndices, List.mem_cons, List.not_mem_nil, or_false] at h
  rcases h with rfl | rfl | rfl <;> exact sigFold_lt _ _

/-- Bit `i` of the signature of a row, as it lies in memory (R43). -/
def sigBit (s : State) (r : RowId) (i : Nat) : Bool := (memByte s (rowPa r (0x80 + i / 8))).getLsbD (i % 8)

theorem sigBit_sigSet (s : State) (r : RowId) (i j : Nat) : sigBit (sigSet s r j) r i = (sigBit s r i || decide (i = j)) := by
  unfold sigBit sigSet
  dsimp only
  rw [memByte_memSet]
  by_cases h : i / 8 = j / 8
  · have hp : rowPa r (0x80 + i / 8) = rowPa r (0x80 + j / 8) := by rw [h]
    have hi : i % 8 < 8 := Nat.mod_lt _ (by decide)
    rw [if_pos hp, hp, BitVec.getLsbD_or, BitVec.getLsbD_ofNat, Nat.testBit_two_pow]
    congr 1
    simp only [hi, decide_true, Bool.true_and]
    exact decide_eq_decide.mpr (by omega)
  · rw [if_neg (by unfold rowPa; omega), decide_eq_false (by rintro rfl; exact h rfl), Bool.or_false]

theorem sigSet_rest (s : State) (r : RowId) (i : Nat) : sigSet s r i = { s with mem := (sigSet s r i).mem } := rfl

/-- `t` is `s` but for the bits of `r`'s signature that `f` names, which are set. -/
structure SigAdded (s t : State) (r : RowId) (f : Nat → Bool) : Prop where
  bit : ∀ i < 1024, sigBit t r i = (sigBit s r i || f i)
  bytes : ∀ a, (a < rowPa r 0x80 ∨ rowPa r 0x100 ≤ a) → memByte t a = memByte s a
  rest : t = { s with mem := t.mem }

theorem SigAdded.refl (s : State) (r : RowId) : SigAdded s s r fun _ => false := ⟨by simp, fun _ _ => rfl, rfl⟩

theorem SigAdded.trans {s t u : State} {r : RowId} {f g : Nat → Bool} (h : SigAdded s t r f) (h' : SigAdded t u r g) :
    SigAdded s u r fun i => f i || g i where
  bit i hi := by rw [h'.bit i hi, h.bit i hi, Bool.or_assoc]
  bytes a ha := (h'.bytes a ha).trans (h.bytes a ha)
  rest := h'.rest.trans (congrArg (fun x : State => { x with mem := u.mem }) h.rest)

theorem sigAdded_sigSet (s : State) (r : RowId) {j : Nat} (hj : j < 1024) : SigAdded s (sigSet s r j) r fun i => decide (i = j) where
  bit i _ := sigBit_sigSet s r i j
  bytes a ha := by
    unfold sigSet
    dsimp only
    rw [memByte_memSet, if_neg (by unfold rowPa at *; omega)]
  rest := rfl

theorem sigAdded_foldl (s : State) (r : RowId) {js : List Nat} (hj : ∀ j ∈ js, j < 1024) :
    SigAdded s (js.foldl (fun t i => sigSet t r i) s) r fun i => decide (i ∈ js) := by
  induction js generalizing s with
  | nil => simpa using SigAdded.refl s r
  | cons j js ih =>
    have h := (sigAdded_sigSet s r (hj j List.mem_cons_self)).trans (ih (sigSet s r j) fun i hi => hj i (List.mem_cons_of_mem _ hi))
    simpa only [List.mem_cons, Bool.decide_or, List.foldl_cons] using h

/-- What the parts of an access add to a signature: the lines of those outside core apertures (R117). -/
def sigOf (s : State) (ps : List Part) (i : Nat) : Bool := ps.any fun p => !inAperture s p && decide (i ∈ sigIndices (lineL p))

theorem SigAdded.inAperture {s t : State} {r : RowId} {f : Nat → Bool} (h : SigAdded s t r f) : inAperture t = inAperture s := by
  rw [h.rest]
  rfl

theorem sigAdded_sigParts (s : State) (r : RowId) (ps : List Part) : SigAdded s (sigParts s r ps) r (sigOf s ps) := by
  induction ps generalizing s with
  | nil => exact SigAdded.refl s r
  | cons p ps ih =>
    have hp : SigAdded s (if Machine.inAperture s p then s else sigInsert s r (lineL p)) r
        fun i => !Machine.inAperture s p && decide (i ∈ sigIndices (lineL p)) := by
      split
      next h => simpa [h] using SigAdded.refl s r
      next h => simpa [h, sigInsert] using sigAdded_foldl s r fun j => sigIndices_lt (l := lineL p)
    have h := hp.trans (ih _)
    unfold sigOf at h
    rw [hp.inAperture] at h
    exact h

/-- A signature grown between `t` and `u` is one grown since `s`, where memory and apertures were those of `s`. -/
theorem SigAdded.signed {s t u v : State} {ps : List Part} (h : SigAdded t u s.cur (sigOf t ps)) (ht : t.mem = s.mem)
    (ha : Machine.inAperture t = Machine.inAperture s) (hv : v.mem = u.mem) : Signed s v ps where
  bytes a hn := by
    unfold memByte
    rw [hv, ← ht]
    exact h.bytes a hn
  bits i hi := by
    unfold memByte
    rw [hv, ← ht, ← ha]
    exact h.bit i hi

/-! ## Entries of the store FIFO (O17) -/

/-- `t` is `s` but for the entries `es` of its row, for the parts `ps`, in the core's FIFO, with the messages and requests that they
count. -/
structure Entered (s t : State) (es : List StEnt) (ps : List Part) : Prop where
  fifo : (getCore t s.cur.core).fifo = (getCore s s.cur.core).fifo ++ es
  others : ∀ c, c ≠ s.cur.core → getCore t c = getCore s c
  core : getCore t s.cur.core = { getCore s s.cur.core with
    fifo := (getCore t s.cur.core).fifo, stats := (getCore t s.cur.core).stats,
    sent := (getCore s s.cur.core).sent + messages s ps }
  stats : ∀ k, smGet 0 (getCore t s.cur.core).stats k = smGet 0 (getCore s s.cur.core).stats k +
    (if k = 4 then wNat ps.length else 0)
  rest : t = { s with cores := t.cores, nextId := s.nextId + es.length }

theorem Entered.refl (s : State) : Entered s s [] [] := ⟨by simp, fun _ _ => rfl, by simp [messages], by simp, rfl⟩

theorem messages_append (s : State) (ps qs : List Part) : messages s (ps ++ qs) = messages s ps + messages s qs := by
  simp [messages, wNat, BitVec.ofNat_add]

theorem Entered.trans {s t u : State} {es fs : List StEnt} {ps qs : List Part} (h : Entered s t es ps) (h' : Entered t u fs qs) :
    Entered s u (es ++ fs) (ps ++ qs) := by
  have hc : t.cur = s.cur := by rw [h.rest]
  have hm : messages t qs = messages s qs := by rw [h.rest]; rfl
  obtain ⟨fifo, others, core, stats, rest⟩ := h'
  rw [hc] at fifo others core stats
  refine ⟨by rw [fifo, h.fifo, List.append_assoc], fun c hn => (others c hn).trans (h.others c hn), ?_, fun k => ?_, ?_⟩
  · rw [core, h.core, hm, messages_append, BitVec.add_assoc]
  · rw [stats, h.stats, BitVec.add_assoc]
    congr 1
    split
    · simp [wNat, BitVec.ofNat_add]
    · simp
  · have hn : t.nextId + fs.length = s.nextId + (es ++ fs).length := by rw [h.rest, List.length_append, Nat.add_assoc]
    rw [hn] at rest
    exact rest.trans (congrArg (fun x : State => { x with cores := u.cores, nextId := s.nextId + (es ++ fs).length }) h.rest)

theorem sentPart_rest (s : State) (core : Nat) (p : Part) : sentPart s core p = { s with cores := (sentPart s core p).cores } := by
  unfold sentPart sentMsg
  split
  · split <;> rfl
  · rfl

theorem getCore_sentPart_other (s : State) {core c : Nat} (h : c ≠ core) (p : Part) : getCore (sentPart s core p) c = getCore s c := by
  unfold sentPart sentMsg
  split
  · split
    · rfl
    · rw [getCore_modCore, if_neg h]
  · rfl

/-- A part in another core's aperture counts one message (R351). -/
theorem getCore_sentPart (s : State) (p : Part) : getCore (sentPart s s.cur.core p) s.cur.core =
    { getCore s s.cur.core with sent := (getCore s s.cur.core).sent + messages s [p] } := by
  unfold sentPart sentMsg messages
  cases h : partCore s p with
  | none => simp [h]
  | some c =>
    by_cases hc : s.cur.core = c
    · simp [h, hc]
    · simp [h, hc, Ne.symm hc]

/-- The core's counters and messages when a part has been sent on its way to a slice (R81, R351). -/
def partSent (s : State) (p : Part) : State := sentPart (bump (fresh s).2 s.cur.core 4 1) s.cur.core p

theorem partSent_rest (s : State) (p : Part) : partSent s p = { s with cores := (partSent s p).cores, nextId := s.nextId + 1 } :=
  sentPart_rest _ _ _

theorem getCore_partSent_other (s : State) {c : Nat} (h : c ≠ s.cur.core) (p : Part) : getCore (partSent s p) c = getCore s c :=
  (getCore_sentPart_other _ h p).trans (getCore_bump_other h 4 1)

theorem getCore_partSent (s : State) (p : Part) : getCore (partSent s p) s.cur.core =
    { getCore (bump s s.cur.core 4 1) s.cur.core with sent := (getCore s s.cur.core).sent + messages s [p] } := by
  refine (getCore_sentPart (bump (fresh s).2 s.cur.core 4 1) p).trans ?_
  have h := (counted_bump s s.cur.core 4 1).cores s.cur.core
  exact congrArg (fun x : Word => { getCore (bump s s.cur.core 4 1) s.cur.core with sent := x + messages s [p] })
    (congrArg Core.sent h)

theorem enterFifo_eq (s : State) (kind : StKind) (nt : Bool) (p : Part) (bs : List Byte) :
    enterFifo s s.cur (getRow s s.cur).priv kind nt p bs = modCore (partSent s p) s.cur.core fun c =>
      { c with fifo := c.fifo ++ entries s kind nt 0 [(p, bs)] } := rfl

theorem entered_enterFifo (s : State) (kind : StKind) (nt : Bool) (p : Part) (bs : List Byte) :
    Entered s (enterFifo s s.cur (getRow s s.cur).priv kind nt p bs) (entries s kind nt 0 [(p, bs)]) [p] := by
  have hcore := getCore_partSent s p
  rw [(counted_bump s s.cur.core 4 1).cores] at hcore
  rw [enterFifo_eq]
  exact {
    fifo := by rw [getCore_modCore_self, hcore]
    others := fun c hc => by rw [getCore_modCore, if_neg hc, getCore_partSent_other s hc]
    core := by rw [getCore_modCore_self, hcore]
    stats := fun k => by
      rw [getCore_modCore_self, hcore]
      exact (stats_bump s s.cur.core 4 1 s.cur.core k).trans (by simp)
    rest := congrArg (fun x : State => { x with cores := (modCore (partSent s p) s.cur.core fun c =>
      { c with fifo := c.fifo ++ entries s kind nt 0 [(p, bs)] }).cores }) (partSent_rest s p) }

theorem entries_shift {s t : State} {cores : SMap Core} {n : Nat}
    (h : t = { s with cores := cores, nextId := s.nextId + n }) (kind : StKind) (nt : Bool) (k : Nat) (xs : List (Part × List Byte)) : entries t kind nt k xs = entries s kind nt (n + k) xs := by
  induction xs generalizing k with
  | nil => rfl
  | cons x xs ih =>
    subst h
    simp only [entries, ih, Nat.add_assoc]
    rfl

theorem entered_enterParts (s : State) (kind : StKind) (nt : Bool) (bs : List Byte) (ps : List Part) :
    Entered s (enterParts s s.cur (getRow s s.cur).priv kind nt bs ps) (entries s kind nt 0 (sliced bs ps)) ps := by
  induction ps generalizing s with
  | nil => exact Entered.refl s
  | cons p ps ih =>
    have h := entered_enterFifo s kind nt p ((bs.drop p.pos).take p.n)
    have hcur : (enterFifo s s.cur (getRow s s.cur).priv kind nt p ((bs.drop p.pos).take p.n)).cur = s.cur := by rw [h.rest]
    have hrow : getRow (enterFifo s s.cur (getRow s s.cur).priv kind nt p ((bs.drop p.pos).take p.n)) s.cur = getRow s s.cur := by
      rw [h.rest]; rfl
    have hall := ih (enterFifo s s.cur (getRow s s.cur).priv kind nt p ((bs.drop p.pos).take p.n))
    rw [hcur, hrow, entries_shift h.rest] at hall
    exact h.trans hall

/-- Entries made, signature added, flags added, and the instruction retired: it is queued, and nothing else has changed (R70, R117,
R238). -/
theorem queued_retire {s t : State} {es : List StEnt} {ps : List Part} (hg : Going s) (he : Entered s t es ps) (sig : List Part)
    (fl : FFlags) (len : Nat) : Queued s (retire (orFlags (sigParts t s.cur sig) s.cur fl) s.cur len) es ps sig
      (retiredRow (getRow s s.cur) fl (after s len)) := by
  have hs := sigAdded_sigParts t s.cur sig
  generalize sigParts t s.cur sig = u at hs
  have hut : u = { s with mem := u.mem, cores := t.cores, nextId := s.nextId + es.length } :=
    hs.rest.trans (congrArg (fun x : State => { x with mem := u.mem }) he.rest)
  have hrow (q : RowId) : getRow u q = getRow s q := by rw [hut]; rfl
  have hst : (getRow u s.cur).stepping = false := by rw [hrow]; exact hg.2.1
  have hpe : (getRow u s.cur).pend = [] := by rw [hrow]; exact hg.2.2
  have hpc : (getRow (Machine.orFlags u s.cur fl) s.cur).pc + wNat len = after s len := by
    rw [getRow_orFlags, if_pos rfl, hrow]
    rfl
  unfold retire
  rw [hpc]
  have hrows := fun q => retireTo_getRow u s.cur q fl (after s len) hst hpe
  have hr := retireTo_rest u s.cur fl (after s len) hst hpe
  generalize retireTo (Machine.orFlags u s.cur fl) s.cur (after s len) = v at hr hrows
  have hcore (c : Nat) : getCore v c = getCore (bump t s.cur.core 1 1) c := by rw [hr, hut]; rfl
  have hcount := (counted_bump t s.cur.core 1 1).cores s.cur.core
  exact {
    fifo := by rw [hcore, hcount]; exact he.fifo
    nextId := by rw [hr, hut]
    row := by rw [hrows, if_pos rfl, hrow]
    rows := fun q hq => by rw [hrows, if_neg hq, hrow]
    signed := hs.signed (by rw [he.rest]) (by rw [he.rest]; rfl) (by rw [hr])
    others := fun c hc => by rw [hcore, getCore_bump_other hc, he.others c hc]
    core := by
      rw [hcore, hcount]
      exact congrArg (fun c : Core => { c with stats := (getCore (bump t s.cur.core 1 1) s.cur.core).stats }) he.core
    stats := fun k => by
      rw [hcore, stats_bump, he.stats]
      by_cases h1 : k = 1
      · simp [h1, retiredRow, wNat]
      · simp [h1]
    rest := by rw [hr, hut] }

/-! ### The stores -/

/-- What a store does once nothing holds it and its sources are full and sound: its length and place, its mode, and whether it is a
vector store. -/
structure StoreForm where
  p : Word
  bs : List Byte
  mo : Nat
  vec : Bool

/-- The class of access of a store. -/
def StoreForm.acc (x : StoreForm) : Acc := { accStore with scalar := !x.vec }

/-- Does the store break its own alignment rule (R237)? -/
def StoreForm.bad (x : StoreForm) : Bool := x.mo == 1 && x.p.toNat % min x.bs.length 16 != 0

/-- The entries and the signature of a store for the parts `ps`, before it retires. -/
def StoreForm.entered (s : State) (x : StoreForm) (ps : List Part) : State :=
  sigParts (enterParts s s.cur (getRow s s.cur).priv (if x.mo = 1 then .feSet else .plain) (x.mo == 2) x.bs ps) s.cur ps

/-- A store whose checks pass enters its parts when there is room for all of them, else stalls (R70, R238). -/
theorem store_ok {s : State} {x : StoreForm} {ps : List Part} (hc : check s (ctxOf s s.cur) x.acc x.p x.bs.length x.bad = .ok ps)
    (len : Nat) : store s s.cur x.p x.bs x.mo x.vec len =
      if room s < ps.length then stall s s.cur else retire (x.entered s ps) s.cur len := by
  have h : check s (ctxOf s s.cur) { accStore with scalar := !x.vec } x.p x.bs.length
      (x.mo == 1 && x.p.toNat % min x.bs.length 16 != 0) = .ok ps := hc
  unfold store
  dsimp only
  rw [h]
  rfl

/-- `i` is a store of `len` bytes of code with sources `xs`. -/
def StoresAs (s : State) (i : Instr) (xs : List Src) (x : StoreForm) (len : Nat) : Prop :=
  exec i s = .next (holdGate s s.cur (gate s s.cur 0 xs (store s s.cur x.p x.bs x.mo x.vec len)))

section StoresAs
variable {s : State} {i : Instr} {xs : List Src} {x : StoreForm} {len : Nat} (h : StoresAs s i xs x len) (hi : Issues s xs)
  {ps : List Part} (hc : check s (ctxOf s s.cur) x.acc x.p x.bs.length x.bad = .ok ps)
include h hi hc

theorem StoresAs.exec_eq : exec i s = .next (if room s < ps.length then stall s s.cur else retire (x.entered s ps) s.cur len) := by
  rw [show exec i s = _ from h, holdGate_none hi.2, gate_ready hi.1.2, store_ok hc]

theorem StoresAs.queues (hr : ps.length ≤ room s) : ∃ t, exec i s = .next t ∧
    Queued s t (entries s (if x.mo = 1 then .feSet else .plain) (x.mo == 2) 0 (sliced x.bs ps)) ps ps
      (retiredRow (getRow s s.cur) 0 (after s len)) := by
  refine ⟨_, h.exec_eq hi hc, ?_⟩
  rw [if_neg (Nat.not_lt.mpr hr)]
  exact queued_retire hi.1.1 (entered_enterParts s _ _ x.bs ps) ps 0 len

theorem StoresAs.stalls (hr : room s < ps.length) : exec i s = .next (stall s s.cur) := by
  rw [h.exec_eq hi hc, if_pos hr]

end StoresAs

theorem size16_iff (sz : BitVec 3) : 2 ^ sz.toNat = 16 ↔ sz = 4 := by
  revert sz
  decide

theorem mode1_eq (mo : BitVec 2) : (mo.toNat == 1) = (mo == 1) := by
  revert mo
  decide

theorem mode2_eq (mo : BitVec 2) : (mo.toNat == 2) = (mo == 2) := by
  revert mo
  decide

theorem mode1_iff (mo : BitVec 2) : mo.toNat = 1 ↔ mo = 1 := by
  revert mo
  decide

section forms
variable (s : State) (off : BitVec 10) (mo : BitVec 2) (sz : BitVec 3) (ta : Bool) (a d : Reg)

/-- The scalar store of `st`. -/
def stForm : StoreForm where
  p := ea s a off (2 ^ sz.toNat)
  bs := leBytes (2 ^ sz.toNat)
    ((getX s s.cur d).toNat + (if 2 ^ sz.toNat = 16 then 2 ^ 64 * (getW s s.cur (xw d + 1)).toNat else 0))
  mo := mo.toNat
  vec := false

theorem st_storesAs : StoresAs s (.st off mo sz ta a d) [if 2 ^ sz.toNat = 16 then srcXX d ta else srcX d ta, srcX a ta]
    (stForm s off mo sz a d) 4 := by
  unfold StoresAs stForm
  rw [← wmPtr_eq]
  rfl

/-- The vector store of `vst`. -/
def vstForm : StoreForm where
  p := ea s a off (128 / 2 ^ sz.toNat)
  bs := (getV s s.cur d.toNat).take (128 / 2 ^ sz.toNat)
  mo := mo.toNat
  vec := true

theorem vst_storesAs : StoresAs s (.vst off mo sz ta a d) [srcV d.toNat ta, srcX a ta] (vstForm s off mo sz a d) 4 := by
  unfold StoresAs vstForm
  rw [← wmPtr_eq]
  rfl

/-- The 16-bit store of `n` bytes. -/
def halfForm (n : Nat) : StoreForm := ⟨getX s s.cur a, leBytes n (getX s s.cur d).toNat, 0, false⟩

theorem stForm_bad : (stForm s off mo sz a d).bad =
    (mo == 1 && (ea s a off (2 ^ sz.toNat)).toNat % min (2 ^ sz.toNat) 16 != 0) := by
  rw [StoreForm.bad, stForm, leBytes_length, mode1_eq]

theorem vstForm_length : (vstForm s off mo sz a d).bs.length = 128 / 2 ^ sz.toNat := by
  rw [vstForm, List.length_take, getV_length]
  exact min_eq_left (Nat.div_le_self _ _)

theorem vstForm_bad : (vstForm s off mo sz a d).bad =
    (mo == 1 && (ea s a off (128 / 2 ^ sz.toNat)).toNat % min (128 / 2 ^ sz.toNat) 16 != 0) := by
  rw [StoreForm.bad, vstForm_length, vstForm, mode1_eq]

end forms

/-- R250: full/empty maintenance of whole words in one page. -/
theorem feRange_ok {s : State} {set tb ta : Bool} {b a : Reg} (hi : Issues s [srcX a ta, srcX b tb])
    (h : ((getX s s.cur a).toNat % 8 != 0 || (getX s s.cur b).toNat % 8 != 0 || decide ((getX s s.cur b).toNat < 8) ||
      decide (128 < (getX s s.cur b).toNat) || decide (0x1000 < (getX s s.cur a).toNat % 0x1000 + (getX s s.cur b).toNat)) = false)
    {ps : List Part} (hc : check s (ctxOf s s.cur) { wr := true, code := 1, bits := true } (getX s s.cur a) (getX s s.cur b).toNat false =
      .ok ps) (hr : ps.length ≤ room s) : feRange s set tb ta b a =
    retire (enterParts s s.cur (getRow s s.cur).priv (if set then .bitsSet else .bitsClr) false [] ps) s.cur 4 := by
  unfold feRange
  dsimp only
  rw [holdGate_none hi.2, gate_ready hi.1.2, h]
  simp only [Bool.false_eq_true, if_false]
  rw [hc]
  exact if_neg (Nat.not_lt.mpr hr)

theorem storesEnterFifo : StoresEnterFifo := by
  refine ⟨?_, ?_, ?_, ?_⟩
  · intro s off mo sz ta a d n p bs hi ps hc hr
    have h := (st_storesAs s off mo sz ta a d).queues hi (by rw [stForm_bad, stForm, leBytes_length]; exact hc) hr
    simpa only [stForm, mode2_eq, mode1_iff] using h
  · intro s off mo sz ta a d n p bs hi ps hc hr
    have h := (vst_storesAs s off mo sz ta a d).queues hi (by rw [vstForm_bad, vstForm_length]; exact hc) hr
    simpa only [vstForm, mode2_eq, mode1_iff] using h
  · intro s n a d hn hi ps hc hr
    have hs : StoresAs s (if n = 8 then .hSt64 a d else .hSt32 a d) [srcX d false, srcX a false] (halfForm s a d n) 2 := by
      rcases hn with rfl | rfl <;> rfl
    exact hs.queues hi (by rw [halfForm, leBytes_length]; exact hc) hr
  · intro s set tb ta b a hi p n hp hn h8 h128 hpage ps hc hr
    have he : exec (if set then .syncFeSet tb ta b a else .syncFeClr tb ta b a) s = .next (feRange s set tb ta b a) := by
      cases set <;> rfl
    rw [feRange_ok hi (by simp [p, n] at *; omega) hc hr] at he
    exact ⟨_, he, queued_retire hi.1.1 (entered_enterParts s _ false [] ps) [] 0 4⟩

/-- The instructions whose access is of a store's class are the stores. -/
theorem storesAs_of_accessOf {s : State} {i : Instr} {acc : Acc} {p : Word} {n : Nat} {bad : Bool}
    (h : accessOf s i = some (acc, p, n, bad))
    (hacc : acc = { wr := true, code := 1, scalar := true } ∨ acc = { wr := true, code := 1 }) :
    ∃ xs x len, memSrcs i = some xs ∧ StoresAs s i xs x len ∧ (x.acc, x.p, x.bs.length, x.bad) = (acc, p, n, bad) := by
  unfold accessOf at h
  split at h
  case h_3 off mo sz ta a d =>
    refine ⟨_, _, _, ?_, st_storesAs s off mo sz ta a d, ?_⟩
    · simp only [memSrcs, size16_iff]
    · rw [stForm_bad, ← Option.some.inj h, stForm, leBytes_length]
      rfl
  case h_4 off mo sz ta a d =>
    refine ⟨_, _, _, rfl, vst_storesAs s off mo sz ta a d, ?_⟩
    rw [vstForm_bad, vstForm_length, ← Option.some.inj h]
    rfl
  case h_7 a d => exact ⟨_, halfForm s a d 8, 2, rfl, rfl, Option.some.inj h⟩
  case h_8 a d => exact ⟨_, halfForm s a d 4, 2, rfl, rfl, Option.some.inj h⟩
  case h_21 => exact nomatch h
  all_goals
    have hi := congrArg Prod.fst (Option.some.inj h)
    dsimp only at hi
    subst hi
    exact absurd hacc (by decide)

theorem fullFifoStalls : FullFifoStalls := by
  intro s i acc p n bad ps hsrc ha hacc hc hr
  obtain ⟨xs, x, len, hm, hs, hx⟩ := storesAs_of_accessOf ha hacc
  obtain ⟨ys, hy, hi⟩ := hsrc
  obtain rfl : xs = ys := Option.some.inj (hm.symm.trans hy)
  obtain ⟨rfl, rfl, rfl, rfl⟩ : x.acc = acc ∧ x.p = p ∧ x.bs.length = n ∧ x.bad = bad := by simpa using hx
  exact ⟨_, hs.stalls hi hc hr, getRow_modRow_self .., fun r hq => by rw [stall, getRow_modRow, if_neg hq], rfl⟩

theorem stats_quantumCycles (s : State) (core bank k n c : Nat) :
    (getCore (quantumCycles s core bank k n) c).stats = (getCore s c).stats := by
  have hb (t : State) (f : Bank → Bank) : (getCore (modBank t core bank f) c).stats = (getCore t c).stats := by
    unfold modBank
    rw [getCore_modCore]
    split
    · subst_vars; rfl
    · rfl
  unfold quantumCycles quantumEvent
  dsimp only
  split
  · exact hb _ _
  · exact (hb _ _).trans (hb _ _)

/-- R117: the cycles of a bank whose row stands stalled and owes no release count in the core's statistic 3. -/
theorem stats_tick (s : State) (core bank k n : Nat) : smGet 0 (getCore (tick s core bank k n) core).stats 3 =
    smGet 0 (getCore s core).stats 3 + (if (getRow s (holder s core bank k)).stalled = true ∧
      (getRow s (holder s core bank k)).rel = none then wNat n else 0) := by
  have hc : ((getRow s (holder s core bank k)).stalled && !relDated (getRow s (holder s core bank k))) = true ↔
      (getRow s (holder s core bank k)).stalled = true ∧ (getRow s (holder s core bank k)).rel = none := by
    simp [relDated]
  have h0 : smGet 0 (getCore (if bank = 0 then bump s core 0 n else s) core).stats 3 = smGet 0 (getCore s core).stats 3 := by
    split
    · rw [stats_bump, if_neg (by simp), add_zero]
    · rfl
  unfold tick
  dsimp only
  by_cases h : (getRow s (holder s core bank k)).stalled = true ∧ (getRow s (holder s core bank k)).rel = none
  · rw [if_pos h, if_pos (hc.mpr h), stats_bump, h0, if_pos ⟨rfl, rfl⟩]
  · rw [if_neg h, if_neg (mt hc.mp h), h0, add_zero]

theorem stallsCount : StallsCount := by
  intro s core bank k n hk r stat
  show smGet 0 (getCore (charge s core bank n) core).stats 3 = _
  rw [charge_eq hk, getCore_modRow, stats_quantumCycles, stats_tick]
  rfl

/-- Settles O17: the entries of a store are made one by one behind those that stand, and its signature is added bit by bit. -/
theorem storesQueueOrStall : Obligations.StoresQueueOrStall := ⟨storesEnterFifo, fullFifoStalls, stallsCount⟩

/-! ## A row while merges and updates go on around it (O19, O26) -/

/-- The row that executes is the same, and of its control block FLAGS only may differ. -/
structure FlagsOnly (s t : State) : Prop where
  cur : t.cur = s.cur
  row : getRow t s.cur = { getRow s s.cur with flags := (getRow t s.cur).flags }

theorem FlagsOnly.of_rows {s t : State} (hc : t.cur = s.cur) (hr : t.rows = s.rows) : FlagsOnly s t := by
  have h : getRow t s.cur = getRow s s.cur := by unfold getRow; rw [hr]
  exact ⟨hc, by rw [h]⟩

theorem FlagsOnly.refl (s : State) : FlagsOnly s s := .of_rows rfl rfl

theorem FlagsOnly.trans {s t u : State} (h : FlagsOnly s t) (h' : FlagsOnly t u) : FlagsOnly s u where
  cur := h'.cur.trans h.cur
  row := by
    have hrow := h'.row
    rw [h.cur] at hrow
    rw [hrow, h.row]

theorem FlagsOnly.going {s t : State} (h : FlagsOnly s t) (hg : Going s) : Going t := by
  unfold Going
  rw [h.cur, h.row]
  exact hg

theorem L2Only.flagsOnly {s t : State} (h : L2Only s t) : FlagsOnly s t := by
  unfold L2Only at h
  exact .of_rows (by rw [h]) (by rw [h])

theorem flagsOnly_orFlags (s : State) (fl : FFlags) : FlagsOnly s (Machine.orFlags s s.cur fl) where
  cur := by rw [Machine.orFlags_rest]
  row := by rw [getRow_orFlags, if_pos rfl]

theorem flagsOnly_mergeWhere (s : State) (core : Nat) (p : RedLine → Bool) (fuel : Nat) :
    FlagsOnly s (mergeWhere s core (some s.cur) p fuel) := by
  have h := (l2Only_mergeMany s core p fuel).flagsOnly
  have hf := flagsOnly_orFlags (mergeMany s core p fuel).2 (mergeMany s core p fuel).1
  rw [h.cur] at hf
  exact h.trans hf

/-! ## Ranges (O26) -/

/-- The copies that satisfy `p` are cleaned, invalidated or flushed (R79). -/
def maintainWhere (s : State) (p : Line → Bool) : Maint → State
  | .cln => cleanWhere s p
  | .inv => dropWhere s p
  | .fln => flushWhere s p

theorem l2Only_maintainWhere (s : State) (p : Line → Bool) (m : Maint) : L2Only s (maintainWhere s p m) := by
  cases m with
  | cln => exact l2Only_cleanWhere s p
  | inv => rfl
  | fln => exact l2Only_flushWhere s p

theorem l2Only_maintain (s : State) (m : Maint) (ps : List Part) : L2Only s (maintain s m ps) := by
  unfold maintain
  split
  · exact iteInduction (motive := L2Only s) (fun _ => rfl) fun _ => l2Only_maintainWhere s _ m
  · rfl

section range
variable {s : State} {m : Maint} {tb ta : Bool} {b a : Reg} (hi : Issues s [srcX a ta, srcX b tb])

/-- What a range operation asks of its page: to be read for a clean, else to be written (R249). -/
def rangeAcc (m : Maint) : Acc := { rd := m == .cln, wr := m != .cln, code := if m = .cln then 0 else 1, maint := true }

/-- The state after one page of a range, first line `l0`, last line `l1`, in parts `ps`: its reductions merged, its copies
maintained, its requests counted. -/
def pageMaintained (s : State) (m : Maint) (ps : List Part) (l0 l1 : Nat) : State :=
  bump (maintain (mergeWhere s s.cur.core (some s.cur) (fun x => x.asid == asidOf s s.cur.core &&
    decide (l0 ≤ x.line) && decide (x.line ≤ l1)) 33) m ps) s.cur.core 4 (l1 - l0 + 1)

theorem flagsOnly_pageMaintained (s : State) (m : Maint) (ps : List Part) (l0 l1 : Nat) :
    FlagsOnly s (pageMaintained s m ps l0 l1) :=
  ((flagsOnly_mergeWhere s _ _ 33).trans (l2Only_maintain _ m ps).flagsOnly).trans (.of_rows rfl rfl)

include hi

theorem rangeOp_empty (hn : getX s s.cur b = 0) : rangeOp s m tb ta b a = retire s s.cur 4 := by
  unfold rangeOp
  dsimp only
  rw [holdGate_none hi.2, gate_ready hi.1.2, if_pos (by rw [hn]; rfl)]

variable {k : Nat} (hk : k = (getRow s s.cur).rstep - 1) {off len : Nat}
  (hp : rangePage (getX s s.cur a) (getX s s.cur b).toNat k = (off, len))
  (hc : canonFail (getX s s.cur a) (getX s s.cur b).toNat = none) (ho : off < (getX s s.cur b).toNat) {ps : List Part}
  (hps : check s (ctxOf s s.cur) (rangeAcc m) (bytePtr (getX s s.cur a) off) len false = .ok ps)

include hk hp hc ho hps

theorem rangeOp_page : rangeOp s m tb ta b a = if pageStoresDone s s.cur ps = false then toStep s s.cur (k + 1) else
    let u := pageMaintained s m ps (Wbits (bytePtr (getX s s.cur a) off) 55 7) (Wbits (bytePtr (getX s s.cur a) (off + len - 1)) 55 7)
    if (getX s s.cur b).toNat ≤ off + len then retire u s.cur 4 else toStep u s.cur (k + 2) := by
  subst hk
  unfold rangeAcc at hps
  unfold rangeOp
  dsimp only
  rw [holdGate_none hi.2, gate_ready hi.1.2, if_neg (by omega), hc, hp]
  dsimp only
  rw [if_neg (by omega), hps]
  simp only [Bool.not_eq_true']
  rfl

end range

theorem rangeMaintenance : RangeMaintenance := by
  intro s m tb ta b a hi i p n k off len
  have he : exec i s = .next (rangeOp s m tb ta b a) := by cases m <;> rfl
  refine ⟨fun hn => ?_, fun hn hc ho ps hps => ?_⟩
  · have hz : getX s s.cur b = 0 := BitVec.eq_of_toNat_eq hn
    exact ⟨_, he.trans (congrArg _ (rangeOp_empty hi hz)), retire_done0 hi.1.1 (Wrote.refl s) 4⟩
  · have hpage := rangeOp_page hi (k := k) (off := off) (len := len) rfl rfl hc ho hps
    rw [hpage] at he
    refine ⟨fun hd => by rw [he, if_pos hd]; rfl, fun hd => ?_⟩
    rw [if_neg (by rw [hd]; decide)] at he
    intro asid first last u
    have hu : FlagsOnly s u := flagsOnly_pageMaintained s m ps first last
    refine ⟨_, he, fun hl => ?_, fun hl => ?_⟩
    · dsimp only
      rw [if_pos hl]
      have hd := retire_done0 (hu.going hi.1.1) (Wrote.refl u) 4
      rwa [hu.cur] at hd
    · dsimp only
      rw [if_neg (by omega)]
      exact ⟨getRow_modRow_self .., rfl, fun q hq => by rw [toStep, getRow_modRow, if_neg hq]; rfl⟩

/-! ### Copies -/

theorem memWrite_l2 (s : State) (pa : Nat) (bs : List Byte) : (memWrite s pa bs).l2 = s.l2 := by
  induction bs generalizing s pa with
  | nil => rfl
  | cons b bs ih => exact ih (memSet s pa b) (pa + 1)

theorem writeBack_l2 (s : State) (x : Line) : (writeBack s x).l2 = s.l2 := by
  unfold writeBack
  split
  · show (memWrite (meetError s x.pl) _ _).l2 = _
    rw [memWrite_l2]
    unfold meetError
    split <;> rfl
  · rfl

/-- Cleaning keeps every copy, in its place, and makes those that satisfy `p` clean (R79). -/
theorem cleanWhere_l2 (s : State) (p : Line → Bool) :
    (cleanWhere s p).l2 = s.l2.map fun x => if p x then { x with dirty := false } else x := by
  have hl (xs : List Line) (t : State) : (xs.foldl (fun t x => if p x then writeBack t x else t) t).l2 = t.l2 := by
    induction xs generalizing t with
    | nil => rfl
    | cons x xs ih =>
      rw [List.foldl_cons, ih]
      split
      · exact writeBack_l2 t x
      · rfl
  unfold cleanWhere
  dsimp only
  rw [hl]

theorem cleanWhere_clean {s : State} {p : Line → Bool} {x : Line} (hx : x ∈ (cleanWhere s p).l2) (h : p x = true) :
    x.dirty = false := by
  rw [cleanWhere_l2, List.mem_map] at hx
  obtain ⟨y, -, rfl⟩ := hx
  by_cases hy : p y = true
  · rw [if_pos hy]
  · rw [if_neg hy] at h
    exact absurd h hy

theorem mem_cleanWhere (s : State) {p : Line → Bool} (hp : ∀ x, p { x with dirty := false } = p x) {x : Line} (h : p x = false) :
    x ∈ (cleanWhere s p).l2 ↔ x ∈ s.l2 := by
  rw [cleanWhere_l2, List.mem_map]
  refine ⟨?_, fun hx => ⟨x, hx, by rw [h]; rfl⟩⟩
  rintro ⟨y, hy, rfl⟩
  by_cases hpy : p y = true
  · rw [if_pos hpy, hp, hpy] at h
    exact absurd h (by decide)
  · rwa [if_neg hpy]

theorem mem_dropWhere (s : State) (p : Line → Bool) (x : Line) : x ∈ (dropWhere s p).l2 ↔ x ∈ s.l2 ∧ p x = false := by
  simp [dropWhere]

/-- The copies of lines `p` to `q` of a context, under their virtual identity (R79). -/
def rangeHit (p q : Part) (x : Line) : Bool :=
  !x.phys && x.asid == p.asid && decide (lineL p ≤ x.line) && decide (x.line ≤ lineL q)

theorem maintain_eq {s : State} {p q : Part} (hg : p.g = false) (hr : region s p.pa = .gddr ∨ region s p.pa = .host) (m : Maint) :
    maintain s m [p, q] = maintainWhere s (rangeHit p q) m := by
  unfold maintain
  rcases hr with hr | hr
  all_goals
    simp only [List.head?_cons, List.getLast?_cons_cons, List.getLast?_singleton, hr, hg, Bool.false_eq_true, if_false]
    cases m <;> rfl

theorem maintenanceReachesEveryCopy : MaintenanceReachesEveryCopy := by
  intro s m p q hg hr hit t
  have ht : t = maintainWhere s (rangeHit p q) m := maintain_eq hg hr m
  have hd (x : Line) : rangeHit p q { x with dirty := false } = rangeHit p q x := rfl
  rw [ht]
  cases m with
  | cln => exact ⟨fun _ _ => cleanWhere_clean, fun h => absurd rfl h, fun _ h => mem_cleanWhere s hd h, nofun⟩
  | inv => exact ⟨nofun, fun _ x hx => ((mem_dropWhere s _ x).mp hx).2, fun x h => (mem_dropWhere s _ x).trans (and_iff_left h),
      fun _ => rfl⟩
  | fln => exact ⟨nofun, fun _ x hx => ((mem_dropWhere _ _ x).mp hx).2,
      fun x h => ((mem_dropWhere _ _ x).trans (and_iff_left h)).trans (mem_cleanWhere s hd h), nofun⟩

/-- Settles O26: a page of a range is merged and maintained at once, which leaves of the row's control block all but FLAGS; and
maintenance is one pass over the copies. -/
theorem rangesReachEveryCopy : Obligations.RangesReachEveryCopy := ⟨rangeMaintenance, maintenanceReachesEveryCopy⟩

/-! ## Lanes as the statements name them (R216, R240) -/

theorem laneCount_le (ty : Nat) : laneCount ty ≤ 64 := by
  unfold laneCount
  rcases laneBytes_cases ty with h | h | h <;> rw [h] <;> decide

theorem testBit_maskOf (s : State) (mk : Nat) {j : Nat} (hj : j < 64) : (maskOf s s.cur mk).testBit j = active s mk j := by
  unfold maskOf active
  by_cases h : mk = 0
  · rw [if_pos h, Nat.testBit_two_pow_sub_one, decide_eq_true hj, h]
    rfl
  · rw [if_neg h, beq_eq_false_iff_ne.mpr h]
    rfl

theorem activeLanes_eq (s : State) (ty mk : Nat) : activeLanes s s.cur ty mk = lanesOf s ty mk :=
  List.filter_congr fun _ hj => testBit_maskOf s mk ((List.mem_range.mp hj).trans_le (laneCount_le ty))

theorem wInt_laneInt (w j : Nat) (bs : List Byte) (hw : 0 < w) :
    wInt (laneInt w bs j * w) = (BitVec.ofNat (8 * w) (laneGet w bs j)).signExtend 64 * wNat w := by
  have h : laneInt w bs j = (BitVec.ofNat (8 * w) (laneGet w bs j)).toInt := by
    rw [← sInt_eq _ (by omega), BitVec.toNat_ofNat]
    unfold laneInt sInt
    rw [Nat.mod_mod]
  rw [h, wInt, BitVec.ofInt_mul, BitVec.ofInt_natCast]
  rfl

theorem laneAddr_eq (s : State) (ty : Nat) (strided : Bool) (a b : Reg) :
    laneAddr s s.cur (laneBytes ty) strided a b = laneVa s (laneBytes ty) strided a b := by
  funext j
  unfold laneAddr laneVa
  rw [wInt_laneInt _ _ _ (by rcases laneBytes_cases ty with h | h | h <;> omega)]

theorem vmemSrcs_eq (strided rd t : Bool) (mk : BitVec 3) (b a d : Reg) :
    vmemSrcs strided rd (t.toNat == 1) mk.toNat b.toNat a.toNat d.toNat = vmemSources strided rd t mk.toNat b a d := by
  cases t <;> rfl

theorem srcRm_eq (md : Bool) : srcRm md = modeSrc md := rfl

/-- When the checks of all lanes pass, each in one part, there is no fault. -/
theorem laneChecks_ok {s : State} {r : RowId} {acc : Acc} {w : Nat} {align : Bool} {addr : Nat → Word} {xs : Nat → Part} {js : List Nat}
    (h : ∀ j ∈ js, check s (ctxOf s r) acc (addr j) w align = .ok [xs j]) :
    laneChecks s r acc w align addr js = ([], js.map xs) := by
  induction js with
  | nil => rfl
  | cons j js ih =>
    unfold laneChecks
    rw [ih fun i hi => h i (List.mem_cons_of_mem j hi), h j List.mem_cons_self]
    rfl

/-! ## Update-only copies (R71, R243) -/

theorem flagsOnly_modCore (s : State) (core : Nat) (f : Core → Core) : FlagsOnly s (modCore s core f) := .of_rows rfl rfl

theorem flagsOnly_mergeAt (s : State) (core i : Nat) : FlagsOnly s (mergeAt s core i (some s.cur)) := by
  have h := (l2Only_mergeOne s core i).flagsOnly
  have hf := flagsOnly_orFlags (mergeOne s core i).2 (mergeOne s core i).1
  rw [h.cur] at hf
  exact h.trans hf

theorem flagsOnly_redRoom (s : State) (core : Nat) : FlagsOnly s (redRoom s core (some s.cur)) := by
  unfold redRoom
  split
  · exact .refl s
  · exact (flagsOnly_mergeAt s core 0).trans (flagsOnly_modCore _ _ _)

theorem flagsOnly_redUpdate (s : State) (core op sz : Nat) (rm : RMode) (p : Part) (v : Nat) :
    FlagsOnly s (redUpdate s core (some s.cur) op sz rm p v).2 := by
  unfold redUpdate
  extract_lets line s1 t s2
  have h1 : FlagsOnly s s1 := by
    unfold s1
    split
    · split
      · exact iteInduction (motive := FlagsOnly s) (fun _ => .refl s) fun _ => flagsOnly_mergeAt s core _
      · exact .refl s
    · exact .refl s
  have h2 : FlagsOnly s s2 := by
    unfold s2
    split
    · exact h1
    · have hr := flagsOnly_redRoom s1 core
      rw [h1.cur] at hr
      exact (h1.trans hr).trans (flagsOnly_modCore _ _ _)
  split
  · exact h2
  · split
    · exact h2
    · dsimp only
      exact h2.trans (flagsOnly_modCore s2 core _)

theorem flagsOnly_sentPart (s : State) (core : Nat) (p : Part) : FlagsOnly s (sentPart s core p) := by
  unfold sentPart sentMsg
  split
  · split
    · exact .refl s
    · exact flagsOnly_modCore _ _ _
  · exact .refl s

theorem flagsOnly_issueReq (s : State) (r : RowId) (priv : Bool) (kind : ReqKind) (ps : List Part) (put : Put) :
    FlagsOnly s (issueReq s r priv kind ps put []) := .of_rows rfl rfl

theorem flagsOnly_redLane (s : State) (op w : Nat) (p : Part) (v : Nat) : FlagsOnly s (redLane s s.cur op w p v).2 := by
  unfold redLane
  split
  · exact (flagsOnly_sentPart s _ p).trans (flagsOnly_issueReq _ _ _ _ _ _)
  · exact flagsOnly_redUpdate s _ op w _ p v

theorem flagsOnly_redLanes (s : State) (op w : Nat) (v : Nat → Nat) (xs : List (Nat × Part)) :
    FlagsOnly s (redLanes s s.cur op w v xs).2 := by
  induction xs generalizing s with
  | nil => exact .refl s
  | cons x xs ih =>
    have h := flagsOnly_redLane s op w x.2 (v x.1)
    have ht := ih (redLane s s.cur op w x.2 (v x.1)).2
    rw [h.cur] at ht
    exact h.trans ht

/-- R243: a reduction whose lanes all pass their checks. -/
theorem scatred_ok {s : State} {op : Nat} {ty : BitVec 3} {t : Bool} {mk : BitVec 3} {b a d : Reg}
    (hi : Issues s (vmemSources false true t mk.toNat b a d ++ modeSrc (op == 9))) {xs : Nat → Part}
    (hc : ∀ j ∈ lanesOf s ty.toNat mk.toNat, check s (ctxOf s s.cur) (laneAcc s a { rd := true, wr := true, code := 3 })
      (laneVa s (laneBytes ty.toNat) false a b j) (laneBytes ty.toNat) (laneMisaligned s (laneBytes ty.toNat) false a b) = .ok [xs j]) :
    let js := lanesOf s ty.toNat mk.toNat
    let y := redLanes s s.cur op (laneBytes ty.toNat) (fun j => lane s ty.toNat d.toNat j) (js.map fun j => (j, xs j))
    scatred s op ty.toNat t.toNat mk.toNat b a d = retire (orFlags (sigParts y.2 s.cur (js.map xs)) s.cur y.1) s.cur 4 := by
  have hz (js : List Nat) : js.zip (js.map xs) = js.map fun j => (j, xs j) := by
    induction js with
    | nil => rfl
    | cons j js ih => exact congrArg _ ih
  have hl := laneChecks_ok hc
  unfold laneAcc at hl
  unfold scatred
  dsimp only
  rw [activeLanes_eq, laneAddr_eq, vmemSrcs_eq, srcRm_eq, holdGate_none hi.2, gate_ready hi.1.2]
  unfold vmemAlign baseTag
  unfold laneMisaligned at hl
  rw [hl, ← hz]
  rfl

theorem reduction {c : BitVec 3 → Bool → BitVec 3 → Reg → Reg → Reg → Instr} {op : Nat}
    (h : ∀ s ty t mk b a d, exec (c ty t mk b a d) s = .next (scatred s op ty.toNat t.toNat mk.toNat b a d)) : Reduction c op := by
  intro s ty t mk b a d hi w js xs hc y
  have hy : FlagsOnly s y.2 := flagsOnly_redLanes s op w _ _
  have hq := queued_retire (hy.going hi.1.1) (Entered.refl y.2) (js.map xs) y.1 4
  unfold after at hq
  rw [hy.cur] at hq
  exact ⟨_, (h s ty t mk b a d).trans (congrArg _ (scatred_ok hi hc)), hq⟩

theorem updateOnlyReductions : UpdateOnlyReductions := by
  refine ⟨reduction ?_, reduction ?_, reduction ?_, reduction ?_, reduction ?_, reduction ?_, reduction ?_⟩ <;>
  exact fun _ _ _ _ _ _ _ => rfl

/-! ### One update -/

theorem smPut_smPut {α : Type} (m : SMap α) (k : Nat) (u v : α) : smPut (smPut m k u) k v = smPut m k v := by
  induction m with
  | nil => simp [smPut]
  | cons e m ih =>
    obtain ⟨j, x⟩ := e
    by_cases hj : j = k
    · simp [smPut, hj]
    · by_cases hk : k < j
      · simp [smPut, hj, hk]
      · simp [smPut, hj, hk, ih]

/-- Two changes of a core are one, when neither leaves the default record. -/
theorem modCore_modCore (s : State) (n : Nat) {f g : Core → Core} (hf : f (getCore s n) ≠ {}) (hg : g (f (getCore s n)) ≠ {}) :
    modCore (modCore s n f) n g = modCore s n fun c => g (f c) := by
  have h : smSet {} (smSet {} s.cores n (f (getCore s n))) n (g (f (getCore s n))) = smSet {} s.cores n (g (f (getCore s n))) := by
    unfold smSet
    rw [if_neg hf, if_neg hg, if_neg hg, smPut_smPut]
  have hc : getCore (modCore s n f) n = f (getCore s n) := getCore_modCore_self s n f
  calc modCore (modCore s n f) n g
    _ = { modCore s n f with cores := smSet {} (modCore s n f).cores n (g (f (getCore s n))) } := by rw [← hc]; rfl
    _ = modCore s n fun c => g (f c) := congrArg (fun m => { s with cores := m }) h

theorem findPos_append_self {α : Type} {p : α → Bool} {l : List α} (hl : findPos p l = none) {x : α} (hx : p x = true) :
    findPos p (l ++ [x]) = some l.length := by
  induction l with
  | nil => simp [findPos, hx]
  | cons y l ih =>
    unfold findPos at hl
    split at hl
    · exact nomatch hl
    · next hy => simp [findPos, hy, ih (Option.map_eq_none_iff.mp hl)]

theorem modNth_append_self {α : Type} (f : α → α) (l : List α) (x : α) : modNth f (l ++ [x]) l.length = l ++ [f x] := by
  induction l with
  | nil => rfl
  | cons y l ih => exact congrArg _ ih

theorem redUpdate_held {s : State} {core op sz i : Nat} {p : Part} {x : RedLine} (who : Option RowId) (rm : RMode) (v : Nat)
    (hi : redFind (getCore s core) p.asid (Wbits p.va 55 7) = some i) (hx : (getCore s core).red[i]? = some x) (ho : x.op = op)
    (hs : x.sz = sz) : redUpdate s core who op sz rm p v =
      let y := redCombine op sz rm (smGet none x.elems (p.pa % 128 / sz)) v
      (y.2, modCore s core fun c =>
        { c with red := modNth (fun z => { z with elems := smPut z.elems (p.pa % 128 / sz) (some y.1) }) c.red i }) := by
  unfold redUpdate
  simp only [hi, hx, ho, hs, decide_true, Bool.and_self, if_true]

theorem alignDown_eq (v n : Nat) : alignDown v n = v / n * n := by
  unfold alignDown
  have h := Nat.div_add_mod v n
  rw [Nat.mul_comm] at h
  omega

/-- R71: the line a first update makes, with no element yet. -/
def newLine (op sz : Nat) (p : Part) : RedLine :=
  ⟨p.asid, Wbits p.va 55 7, p.pa / 128 * 128, p.ca, p.g, p.tag, op, sz, []⟩

theorem redUpdate_new {s : State} {core op sz : Nat} {p : Part} (who : Option RowId) (rm : RMode) (v : Nat)
    (hn : redFind (getCore s core) p.asid (Wbits p.va 55 7) = none) (hl : (getCore s core).red.length < 32) :
    redUpdate s core who op sz rm p v = (0, modCore s core fun c => { c with
      red := c.red ++ [{ newLine op sz p with elems := [(p.pa % 128 / sz, some v)] }] }) := by
  have hfind : redFind (getCore (modCore s core fun c => { c with red := c.red ++ [newLine op sz p] }) core) p.asid (Wbits p.va 55 7) =
      some (getCore s core).red.length := by
    rw [getCore_modCore_self]
    exact findPos_append_self hn (by simp [newLine])
  have hline : (getCore (modCore s core fun c => { c with red := c.red ++ [newLine op sz p] }) core).red[(getCore s core).red.length]? =
      some (newLine op sz p) := by
    rw [getCore_modCore_self]
    exact List.getElem?_concat_length
  have hroom : redRoom s core who = s := if_pos hl
  unfold redUpdate
  simp only [hn, hroom, alignDown_eq]
  unfold newLine at hfind hline
  rw [hfind]
  dsimp only
  rw [hline]
  refine congrArg (Prod.mk 0) ((modCore_modCore s core ?_ ?_).trans (congrArg (fun c => { s with cores := smSet {} s.cores core c }) ?_))
  · exact fun h => List.append_ne_nil_of_right_ne_nil _ (List.cons_ne_nil _ _) (congrArg Core.red h)
  · intro h
    have hr := congrArg Core.red h
    rw [modNth_append_self] at hr
    exact List.append_ne_nil_of_right_ne_nil _ (List.cons_ne_nil _ _) hr
  · dsimp only
    rw [modNth_append_self]
    rfl

theorem reductionCacheCombines : ReductionCacheCombines := by
  intro s core who op sz rm p v line k
  refine ⟨fun i x hi hx ho hs => ?_, fun hn hl => redUpdate_new who rm v hn hl⟩
  have h := redUpdate_held who rm v hi hx ho hs
  exact ⟨congrArg Prod.fst h, h⟩

/-- Settles O19: lanes change the caches, the requests and, of the row, FLAGS only, so the retirement that follows is that of a row
without stores; and a first update's line is looked up again where it was just made. -/
theorem updateOnlyCopies : Obligations.UpdateOnlyCopies := ⟨updateOnlyReductions, reductionCacheCombines⟩

/-! ## A drain that takes a fault (O48) -/

/-- A DRAIN of 32 columns in FP32, its result rows 128 bytes apart (R283). -/
def drainWord : Word := wNat (4 + 2 ^ 18 * 32 + 2 ^ 32 * 128)

/-- Place 0 of cluster 0 stands at a DRAIN of one result row into row 1 of its core, in a partition whose table maps no page; its
row 0 has named X5 for the status. -/
def unmappedDrain : State :=
  { cores := [(0, { mx := { st := .running, d := 5, gm := 1, cur := some (drainWord, 0x4000000001200) } })]
    clusters := [(0, { valid := true })]
    parts := [(0, { root := 1 })] }

/-- The page fault of the target's first byte (R39). -/
def drainFault : Trap := ⟨3, cPAGE, 0, 1, 0x4000000001200, 0⟩

theorem unmappedDrain_atStep : AtStep unmappedDrain 0 4 drainWord 0x4000000001200 unmappedDrain :=
  ⟨by decide, rfl, by decide, .inl (by decide)⟩

theorem unmappedDrain_faults : laneFault (trapsOf ((List.range (min 64 ((getMx unmappedDrain 0).gm - 64 * (0 % 8)))).map
    (drainParts unmappedDrain 0 drainWord 0x4000000001200))) = some drainFault := by decide +kernel

/-- R294: the place is held and X5 receives 8, in the row's bytes of memory. -/
theorem unmappedDrain_fills : (match exec (.drain 0) unmappedDrain with
    | .next u => memByte u (rowPa ⟨0, 0⟩ (8 * 37))
    | _ => 0) = 8 := by decide +kernel

/-- Refutes O48 by its clause on a DRAIN whose check fails: the step is held and fills the row's D with 8, as R294 says and another
clause of the claim repeats, so memory is not as before. -/
theorem not_matrixSteps : ¬ Obligations.MatrixSteps := by
  unfold Obligations.MatrixSteps
  rintro ⟨-, -, places, -⟩
  obtain ⟨-, -, -, -, steps⟩ := places unmappedDrain 0 (by decide)
  obtain ⟨-, -, -, -, -, drain, -⟩ := steps drainWord 0x4000000001200 unmappedDrain
  obtain ⟨-, faults, -⟩ := drain unmappedDrain_atStep rfl
  obtain ⟨u, hu, hmem, -⟩ := faults drainFault (by decide) unmappedDrain_faults
  have h := unmappedDrain_fills
  rw [hu] at h
  dsimp only at h
  rw [memByte, hmem] at h
  exact absurd h (by decide)

end Sys2Proof.Proofs

-- ==== Proofs of 05_consistency ====
namespace Sys2Proof.Proofs
open Sys2Proof.Machine Sys2Proof.Claims

/-! ## Atomics that block on their own row (O22) -/

/-- R251: an atomic on the row itself, whose checks pass and whose order holds, blocks on the lowest empty word that it touches. -/
theorem amo_blocks {s : State} {fn scope : Nat} {post sz tb ta : Bool} {b a : Reg}
    (hi : Issues s ([srcX a ta, srcX b tb] ++ (if fn = 9 then [srcE 0 ta] else []) ++ modeSrc (fn == 11))) {ps : List Part}
    (hc : check s (ctxOf s s.cur) { rd := true, wr := true, code := 3, scalar := true, atomic := true } (getX s s.cur a)
      (if sz then 8 else 4) ((getX s s.cur a).toNat % (if sz then 8 else 4) != 0) = .ok ps)
    (ho : post || scopeDone s s.cur (partIx s s.cur.core) scope s.nextId) (hown : ownRow s s.cur ps = true) {w : Nat} {ws : List Nat}
    (he : emptyOf s s.cur (ownWords s ps) = w :: ws) (d : Reg) : amo s fn post scope sz tb ta b a d = block s s.cur w := by
  have hord : (!post && !scopeDone s s.cur (partIx s s.cur.core) scope s.nextId) = false := by
    rw [← Bool.not_or, ho]
    rfl
  have hempty : ownEmpty s s.cur ps = some w := by simp [ownEmpty, hown, he]
  unfold amo
  dsimp only
  rw [srcRm_eq, holdGate_none hi.2, gate_ready hi.1.2, hc]
  simp only [hord, hempty, Bool.false_eq_true, if_false]

/-- The atomic on `ownX1` passes the checks of R244. -/
theorem stalledOnAtomic_check : check stalledOnLoad (ctxOf stalledOnLoad stalledOnLoad.cur)
    { rd := true, wr := true, code := 3, scalar := true, atomic := true } (getX stalledOnLoad stalledOnLoad.cur 9) 8
    ((getX stalledOnLoad stalledOnLoad.cur 9).toNat % 8 != 0) = .ok ownX1 := by decide +kernel

theorem stalledOnAtomic_issues : Issues stalledOnLoad ([srcX 9 false, srcX 2 false] ++ [] ++ modeSrc false) := by decide +kernel

theorem stalledOnAtomic_ordered :
    scopeDone stalledOnLoad stalledOnLoad.cur (partIx stalledOnLoad stalledOnLoad.cur.core) 0 stalledOnLoad.nextId = true := by
  decide +kernel

/-- Refutes O22 by its clause on an atomic of the row itself: in `stalledOnLoad` an `amo.add` through X9 on the row's own X1, which
is empty, blocks, and the row, which was stalled, would have to stay so. -/
theorem not_atomics : ¬ Obligations.Atomics := by
  unfold Obligations.Atomics
  rintro ⟨⟨add, -⟩, -⟩
  have hexec : exec (.amoAdd false 0 true false false 2 9 5) stalledOnLoad = .next (block stalledOnLoad stalledOnLoad.cur 33) :=
    congrArg Host.Outcome.next (amo_blocks (fn := 0) (scope := 0) (post := false) (sz := true) stalledOnAtomic_issues
      stalledOnAtomic_check stalledOnAtomic_ordered stalledOnLoad_own stalledOnLoad_empty 5)
  obtain ⟨blocks, -⟩ := add stalledOnLoad false 0 true false false 2 9 5 stalledOnAtomic_issues ownX1 stalledOnAtomic_check
    stalledOnAtomic_ordered
  exact not_blocks_of_stalled (by decide +kernel) (by decide +kernel) hexec (blocks 33 [] stalledOnLoad_own stalledOnLoad_empty)

/-! ## Reads and writes at the home leave the cores as they are (O23)

What L2Only leaves open of the cores is closed here for all that a merge does but to free its lines. -/

theorem cores_foldl {α : Type} {f : State → α → State} (h : ∀ t x, (f t x).cores = t.cores) (l : List α) (s : State) :
    (l.foldl f s).cores = s.cores := by
  induction l generalizing s with
  | nil => rfl
  | cons x xs ih => exact (ih _).trans (h s x)

section home
variable (s : State)

@[simp] theorem memWrite_cores (pa : Nat) (bs : List Byte) : (memWrite s pa bs).cores = s.cores := by
  induction bs generalizing s pa with
  | nil => rfl
  | cons b bs ih => exact ih (memSet s pa b) (pa + 1)

@[simp] theorem unpoison_cores (ks : List Nat) : (unpoison s ks).cores = s.cores := rfl

@[simp] theorem gddrWrite_cores (pa : Nat) (bs : List Byte) : (gddrWrite s pa bs).cores = s.cores := memWrite_cores s pa bs

@[simp] theorem meetError_cores (pl : Nat) : (meetError s pl).cores = s.cores := by
  unfold meetError
  split <;> rfl

@[simp] theorem writeBack_cores (x : Line) : (writeBack s x).cores = s.cores := by
  unfold writeBack
  split <;> simp

@[simp] theorem cleanWhere_cores (p : Line → Bool) : (cleanWhere s p).cores = s.cores :=
  cores_foldl (fun t x => by split <;> simp) s.l2 s

@[simp] theorem flushWhere_cores (p : Line → Bool) : (flushWhere s p).cores = s.cores := cleanWhere_cores s p

@[simp] theorem evictAt_cores (i : Nat) : (evictAt s i).cores = s.cores := by
  unfold evictAt
  split <;> simp

@[simp] theorem makeRoom_cores (slice need fuel : Nat) : (makeRoom s slice need fuel).cores = s.cores := by
  induction fuel generalizing s with
  | zero => rfl
  | succ fuel ih =>
    unfold makeRoom
    split
    · rfl
    · split
      · rw [ih, evictAt_cores]
      · rfl

@[simp] theorem install_cores (die : Nat) (phys guest dirty : Bool) (p : Part) (data : List Byte) :
    (install s die phys guest dirty p data).cores = s.cores := makeRoom_cores s _ _ _

@[simp] theorem writeLine_cores (i off : Nat) (bs : List Byte) (dirty : Bool) : (writeLine s i off bs dirty).cores = s.cores := by
  unfold writeLine
  split
  · rfl
  · dsimp only
    split <;> simp

@[simp] theorem hostCoherent_cores (die : Nat) (wr : Bool) (p : Part) : (hostCoherent s die wr p).cores = s.cores := by
  unfold hostCoherent
  split
  · dsimp only
    split <;> simp
  · rfl

@[simp] theorem dirGuard_cores (pa : Nat) : (dirGuard s pa).2.cores = s.cores := by
  unfold dirGuard dirStart
  dsimp only
  repeat' split
  all_goals rfl

@[simp] theorem dirForce_cores (pa : Nat) : (dirForce s pa).cores = s.cores := by
  unfold dirForce
  dsimp only
  split <;> rfl

/-! ### At the home -/

@[simp] theorem directRead_cores (p : Part) : (directRead s p).2.cores = s.cores := by
  unfold directRead
  dsimp only
  split <;> exact flushWhere_cores s _

@[simp] theorem homeRead_cores (die : Nat) (p : Part) : (homeRead s die p).2.cores = s.cores := by
  unfold homeRead
  dsimp only
  split <;> simp

@[simp] theorem noteStore_cores (pa n : Nat) (rd : State → Nat → Nat) : (noteStore s pa n rd).cores = s.cores :=
  cores_foldl (fun t x => by dsimp only; split <;> rfl) s.pkg.queues s

@[simp] theorem directWrite_cores (p : Part) (bs : List Byte) : (directWrite s p bs).cores = s.cores := by
  unfold directWrite
  dsimp only
  split <;> simp

@[simp] theorem lineWrite_cores (d : Nat) (ph alloc : Bool) (p : Part) (bs : List Byte) :
    (lineWrite s d ph alloc p bs).cores = s.cores := by
  unfold lineWrite
  split
  · simp
  · split <;> simp

@[simp] theorem homePut_cores (die : Nat) (nt : Bool) (p : Part) (bs : List Byte) : (homePut s die nt p bs).2.cores = s.cores := by
  unfold homePut
  dsimp only
  split
  · simp
  · split <;> simp

@[simp] theorem homeWrite_cores (die : Nat) (nt : Bool) (p : Part) (bs : List Byte) :
    (homeWrite s die nt p bs).2.cores = s.cores := by
  unfold homeWrite
  dsimp only
  split <;> simp

@[simp] theorem landFlights_cores (die : Nat) (p : Part) : (landFlights s die p).cores = s.cores :=
  cores_foldl (fun t f => by simp [landFlight]) _ s

@[simp] theorem guestUpdate_cores (die : Nat) (p : Part) (bs : List Byte) : (guestUpdate s die p bs).cores = s.cores := by
  unfold guestUpdate
  split
  · split <;> simp
  · rfl

@[simp] theorem homeStore_cores (die : Nat) (p : Part) (bs : List Byte) : (homeStore s die p bs).cores = s.cores := by
  simp [homeStore, homeOnly]

/-! ### Merges -/

@[simp] theorem mergeElem_cores (die : Nat) (x : RedLine) (k v : Nat) : (mergeElem s die x k v).2.cores = s.cores := by
  unfold mergeElem
  dsimp only
  have hread (p : Part) : (homeRead (landFlights s die p) die p).2.cores = s.cores := by simp
  split
  next heq => exact (homeStore_cores ..).trans (by rw [← hread, heq])
  next heq => rw [← hread, heq]

@[simp] theorem mergeElems_cores (die : Nat) (x : RedLine) (es : List (Nat × Option Nat)) :
    (mergeElems s die x es).2.cores = s.cores := by
  induction es generalizing s with
  | nil => rfl
  | cons e es ih =>
    obtain ⟨k, v⟩ := e
    cases v with
    | none => exact ih s
    | some n => exact (ih _).trans (mergeElem_cores s die x k n)

end home

/-! ## The lines of a core are merged (R72, R248) -/

theorem bump_red (s : State) (core k n c : Nat) : (getCore (bump s core k n) c).red = (getCore s c).red := by
  rw [(counted_bump s core k n).cores]

/-- The oldest line is merged: it leaves the reduction cache, and no line comes. -/
theorem mergeOne_red {s : State} {core : Nat} {x : RedLine} {xs : List RedLine} (h : (getCore s core).red = x :: xs) :
    (getCore (mergeOne s core 0).2 core).red = xs := by
  have hfree : (getCore (modCore s core fun c => { c with red := dropNth c.red 0 }) core).red = xs := by
    rw [getCore_modCore_self, h]
    rfl
  unfold mergeOne
  rw [h]
  dsimp only [List.getElem?_cons_zero]
  rw [bump_red, bump_red]
  unfold getCore at hfree ⊢
  rw [mergeElems_cores]
  exact hfree

/-- A merge of every line, with fuel for all of them, leaves none. -/
theorem mergeMany_all_red {s : State} {core fuel : Nat} (h : (getCore s core).red.length ≤ fuel) :
    (getCore (mergeMany s core (fun _ => true) fuel).2 core).red = [] := by
  induction fuel generalizing s with
  | zero => exact List.eq_nil_of_length_eq_zero (Nat.le_zero.mp h)
  | succ fuel ih =>
    unfold mergeMany
    cases hred : (getCore s core).red with
    | nil => exact hred
    | cons x xs =>
      have hlen : (getCore (mergeOne s core 0).2 core).red.length ≤ fuel := by
        rw [mergeOne_red hred]
        rw [hred] at h
        exact Nat.le_of_succ_le_succ h
      exact ih hlen

theorem mergeCore_red {s : State} {core : Nat} (h : (getCore s core).red.length ≤ 33) (r : RowId) :
    (getCore (mergeCore s core (some r)) core).red = [] := by
  unfold mergeCore mergeWhere mergeFlags
  dsimp only
  rw [Machine.orFlags_rest]
  exact mergeMany_all_red h

/-! ## Fences (O23) -/

/-- A fence retires when its condition holds, and stays else (R248). -/
theorem fence_eq {s : State} (hi : Issues s []) (cond : Bool) :
    fence s cond = if cond then retire (refetch s s.cur.core) s.cur 4 else s := holdGate_none hi.2 _

/-- A fence whose condition holds is done, in the state without the core's fetched code (R108, R248). -/
theorem done_refetch {s : State} (hg : Going s) :
    Done (refetch s s.cur.core) (retire (refetch s s.cur.core) s.cur 4) [] 0 (after s 4) :=
  retire_done0 (s := refetch s s.cur.core) hg (Wrote.refl _) 4

/-- What is said of each of the four fences that wait. -/
theorem fence_waits {s : State} (hi : Issues s []) {i : Instr} {cond : Bool} (h : exec i s = .next (fence s cond)) :
    (cond = true → ∃ t, exec i s = .next t ∧ Done (refetch s s.cur.core) t [] 0 (after s 4)) ∧
    (cond = false → exec i s = .next s) := by
  rw [h, fence_eq hi]
  exact ⟨fun hc => ⟨_, by rw [hc]; rfl, done_refetch hi.1.1⟩, fun hc => by rw [hc]; rfl⟩

theorem fences : Fences := by
  intro s tb ta hi dropped fence
  refine ⟨fence_waits hi rfl, fence_waits hi rfl, fence_waits hi rfl, fence_waits hi rfl, ?_⟩
  have hm : FlagsOnly s (mergeCore s s.cur.core (some s.cur)) := flagsOnly_mergeWhere s _ _ 33
  have hd := retire_done0 (hm.going hi.1.1) (Wrote.refl _) 4
  rw [hm.cur] at hd
  refine ⟨_, congrArg Host.Outcome.next (holdGate_none hi.2 _), hd, fun hlen => ?_⟩
  rw [hd.cores]
  exact mergeCore_red hlen s.cur

/-! ### Scopes -/

theorem devDone_of_sysDone {s : State} {r : RowId} {k bound : Nat} (h : sysDone s r k bound = true) : devDone s r k bound = true := by
  simp only [sysDone, Bool.and_eq_true, List.isEmpty_iff, List.all_eq_true] at h
  obtain ⟨⟨hdie, hflights⟩, hreqs⟩ := h
  simp only [devDone, Bool.and_eq_true, List.all_eq_true, hflights]
  exact ⟨⟨hdie, nofun⟩, fun q hq => by rw [hreqs q hq, Bool.true_or]⟩

theorem dieDone_of_devDone {s : State} {r : RowId} {k bound : Nat} (h : devDone s r k bound = true) : dieDone s r k bound = true := by
  simp only [devDone, Bool.and_eq_true] at h
  exact h.1.1

/-- No entry of the row that is older than `bound` stands in the FIFO. -/
theorem dieDone_iff (s : State) (r : RowId) (k bound : Nat) :
    dieDone s r k bound = true ↔ ∀ e ∈ (getCore s r.core).fifo, e.row = r → e.owner = k → bound ≤ e.id := by
  simp only [dieDone, fifoOf, List.isEmpty_iff, List.filter_eq_nil_iff, Bool.and_eq_true, beq_iff_eq, decide_eq_true_eq, not_and,
    not_lt, and_imp]

theorem fenceScopesNest : FenceScopesNest := fun s r k bound => ⟨devDone_of_sysDone, dieDone_of_devDone, dieDone_iff s r k bound⟩

/-- Settles O23: a fence is its condition's gate before a retirement; the merge of `fence.u` takes the core's lines one by one, and
what it does at their homes brings none; and each scope's condition contains that of the scope below. -/
theorem fencesWaitByScope : Obligations.FencesWaitByScope := ⟨fences, fenceScopesNest⟩

end Sys2Proof.Proofs

-- ==== Proofs of 06_release_signatures ====
namespace Sys2Proof.Proofs
open Sys2Proof.Machine Sys2Proof.Claims

/-! ## A release whose merges change its own operand (O24) -/

/-- Row 0 of core 0, in a bypass context, holds a sync object's pointer in X8. Its core holds an update-only line over the row's own
registers X0 to X15, with 1 to add to X3: R71 admits none there and no instruction makes one, but the claim is of every state. -/
def updatesOwnX3 : State :=
  putW { rows := [(0, { st := .ready, priv := true })]
         cores := [(0, { red := [⟨0, 0, rowPa ⟨0, 0⟩ 0x100, 0, true, false, 8, 8, [(3, some 1)]⟩] })]
         clusters := [(0, { valid := true })]
         parts := [(0, { root := 3 })] } ⟨0, 0⟩ 40 0x200000

/-- The parts of the object, identity-mapped by the bypass. -/
def objectParts : List Part :=
  (List.range 16).map fun k => ⟨0x200000 + wNat (16 * k), 0x200000 + 16 * k, 16, 16 * k, 0, 0, true, false, 1, 0⟩

theorem updatesOwnX3_check : check updatesOwnX3 (ctxOf updatesOwnX3 updatesOwnX3.cur) { wr := true, code := 1, obj := true }
    (getX updatesOwnX3 updatesOwnX3.cur 8) 256 ((getX updatesOwnX3 updatesOwnX3.cur 8).toNat % 256 != 0) = .ok objectParts := by
  decide +kernel

/-- The merge adds 1 to X3, and so to the value that the claim has in the object. -/
theorem updatesOwnX3_claimed :
    let m := mergeCore updatesOwnX3 updatesOwnX3.cur.core (some updatesOwnX3.cur)
    leNat ((relObject m updatesOwnX3.cur (getX m updatesOwnX3.cur 3) (nextDate m.pkg.date)).take 8) = 1 := by decide +kernel

/-- The release dates an object with the value that X3 had before it. -/
theorem updatesOwnX3_dates : (match exec (.syncRel false false 3 8) updatesOwnX3 with
    | .next u => (getRow u updatesOwnX3.cur).rel.map fun (x : Rel) => leNat (x.obj.take 8)
    | _ => none) = some 0 := by decide +kernel

/-- Refutes O24 by its clause on the date's event: the object's value is X[b] as the instruction read it, before its core's lines were
merged, where the claim takes X[b] after. The two differ only in a state like `updatesOwnX3`, where a line lies over the row itself. -/
theorem not_releasesWriteObjects : ¬ Obligations.ReleasesWriteObjects := by
  unfold Obligations.ReleasesWriteObjects
  rintro ⟨⟨dated, -⟩, -⟩
  obtain ⟨-, goes⟩ := dated updatesOwnX3 false false 3 8 (by decide +kernel) rfl (by decide +kernel) (fun _ _ => rfl) objectParts
    updatesOwnX3_check
  obtain ⟨t, he, hrow, -⟩ := goes (by decide +kernel)
  have h := updatesOwnX3_dates
  rw [he] at h
  dsimp only at h
  rw [hrow, Option.map_some] at h
  exact absurd ((Option.some.inj h).symm.trans updatesOwnX3_claimed) (by decide)

/-! ## Acquires (O25) -/

/-- An object read whole at its home: what the read can change there. -/
theorem l2Only_readObject {s x : State} {die : Nat} {ps : List Part} {o : List Byte} (h : readObject s die ps = (.ok o, x)) :
    L2Only s x := by
  induction ps generalizing s o x with
  | nil => rw [← (Prod.mk.inj h).2]; exact .refl s
  | cons p ps ih =>
    unfold readObject at h
    split at h
    next bs t hp =>
      have hst : L2Only s t := by
        unfold objectPart at hp
        split at hp
        · exact nomatch (Prod.mk.inj hp).1
        · exact L2Only.of_eq ((l2Only_landFlights s die p).trans (l2Only_homeRead _ die p)) hp
      split at h
      next cs u hr =>
        rw [← (Prod.mk.inj h).2]
        exact hst.trans (ih hr)
      next hn => exact absurd h (hn _ _)
    next => exact nomatch (Prod.mk.inj h).1
    next hn _ => exact absurd h (hn _ _)

/-- A row whose SFLOOR and signature carry no poison goes on (R348). -/
theorem sigGate_sound {s : State} {r : RowId} (h : ∀ w, w = 10 ∨ (16 ≤ w ∧ w < 32) → isPoison s r w = false) (body : State) :
    sigGate s r body = body := by
  have hnone : sigPoison s r = none := by
    simp only [sigPoison, List.head?_eq_none_iff, List.filter_eq_nil_iff, List.mem_cons, List.mem_range'_1, Bool.not_eq_true]
    exact fun w hw => h w (by omega)
  rw [sigGate, hnone]

/-! ### Step 1 -/

section first
variable {s : State} {tb ta : Bool} {a d : Reg} (hi : Issues s [srcX a ta]) (hk : (getRow s s.cur).rstep < 2)
  (hf : ((getDie s 0).failed && dieOf s.cur.core == 1) = false) {ps : List Part}
  (hc : check s (ctxOf s s.cur) (accObj false) (getX s s.cur a) 256 ((getX s s.cur a).toNat % 256 != 0) = .ok ps)
include hi hk hf hc

/-- R87, R91: the read of the object waits for older accesses of the row. -/
theorem syncAcq_waits (hw : acqWait s s.cur ps = true) : exec (.syncAcq tb ta a d) s = .next s := by
  show execSyncAcq tb ta a d s = _
  unfold execSyncAcq
  dsimp only
  rw [if_pos hk, holdGate_none hi.2, gate_ready hi.1.2, hc]
  simp only [hf, hw, Bool.false_eq_true, if_false, if_true]

/-- R120: the object is read at its home. -/
theorem syncAcq_reads (hw : acqWait s s.cur ps = false) {o : List Byte} {x : State}
    (hr : readObject s (dieOf s.cur.core) ps = (.ok o, x)) :
    exec (.syncAcq tb ta a d) s = .next (acqStep1 (bump x s.cur.core 4 ps.length) s.cur d o) := by
  show execSyncAcq tb ta a d s = _
  unfold execSyncAcq
  dsimp only
  rw [if_pos hk, holdGate_none hi.2, gate_ready hi.1.2, hc]
  simp only [hf, hw, hr, Bool.false_eq_true, if_false]

end first

/-! ### The signature and the pass -/

/-- D has the object's value, a number is taken, and the row's signature is `sig`. -/
def signatureSet (u : State) (d : Reg) (v : Word) (sig : List Byte) : State :=
  putRowBytes (fresh (setX u u.cur d v)).2 u.cur 0x80 sig

/-- `z` is `u` but for D, which has the value, the number taken, and the row's signature, which is `sig` as far as that goes. -/
structure SignedAs (u z : State) (d : Reg) (v : Word) (sig : List Byte) : Prop where
  value : getX z u.cur d = xval d v
  bytes : ∀ k < 128, memByte z (rowPa u.cur (0x80 + k)) =
    if k < sig.length then sig.getD k 0 else memByte u (rowPa u.cur (0x80 + k))
  rest : z = { u with mem := z.mem, empt := z.empt, poison := z.poison, nextId := u.nextId + 1 }

/-- The row stands at step 2 of the pass whose number was taken in `u`. -/
def passEntered (u y : State) : State := modRow y u.cur fun w => { w with rstep := 2, work := wNat (u.nextId + 1) }

/-- `t` is `u` but for D, which has the value, the row's signature, and the row's control block, which stands at step 2 of the
pass that has just begun. -/
structure PassBegins (u t : State) (d : Reg) (v : Word) : Prop where
  value : getX t u.cur d = xval d v
  rstep : (getRow t u.cur).rstep = 2
  work : (getRow t u.cur).work = wNat (u.nextId + 1)
  nextId : t.nextId = u.nextId + 1
  others : ∀ q, rkey q ≠ rkey u.cur → getRow t q = getRow u q
  rest : t = { u with mem := t.mem, empt := t.empt, poison := t.poison, rows := t.rows, passes := t.passes, nextId := t.nextId }

@[simp] theorem memByte_passEntered (u y : State) (passes : List Pass) (a : Nat) :
    memByte (passEntered u { y with passes := passes }) a = memByte y a := rfl

theorem sfloor_passEntered (u y : State) (passes : List Pass) :
    (getRow (passEntered u { y with passes := passes }) u.cur).sfloor = (getRow y u.cur).sfloor := by
  rw [passEntered, getRow_modRow_self]
  rfl

theorem modRow_rest (s : State) (r : RowId) (f : Row → Row) : modRow s r f = { s with rows := (modRow s r f).rows } := rfl

@[simp] theorem memByte_fresh (s : State) (a : Nat) : memByte (fresh s).2 a = memByte s a := rfl

section begun
variable {u : State} (hg : Going u) (d : Reg) (v : Word) (sig : List Byte)

theorem rowPa_sig (r : RowId) (k : Nat) : rowPa r (0x80 + k) = rowPa r 0x80 + k := by simp only [rowPa]; omega

include hg

/-- Writing D changes no byte of the signature. -/
theorem memByte_setX_sig {k : Nat} (hk : k < 128) :
    memByte (setX u u.cur d v) (rowPa u.cur (0x80 + k)) = memByte u (rowPa u.cur (0x80 + k)) := by
  have hd : 16 + k / 8 ∉ [xw d] := by simp only [xw, List.mem_singleton]; omega
  have h := wrote_words_memByte (wrote_setX hg d v) (16 + k / 8) hd (k % 8) (Nat.mod_lt _ (by decide))
  rwa [show 8 * (16 + k / 8) + k % 8 = 0x80 + k by omega] at h

/-- Nor does it change poison there, or of SFLOOR. -/
theorem isPoison_setX {w : Nat} (hw : w < 32) : isPoison (setX u u.cur d v) u.cur w = isPoison u u.cur w := by
  have hd : ∀ x ∈ [xw d], rowWord u.cur w ≠ rowWord u.cur x := by
    simp only [List.mem_singleton, forall_eq, ne_eq, rowWord_inj, xw]
    omega
  have h := (wrote_setX hg d v).poisons _ hd
  unfold isPoison
  rw [Bool.eq_iff_iff, List.contains_iff_mem, List.contains_iff_mem]
  exact h

theorem memByte_signatureSet {k : Nat} (hk : k < 128) : memByte (signatureSet u d v sig) (rowPa u.cur (0x80 + k)) =
    if k < sig.length then sig.getD k 0 else memByte u (rowPa u.cur (0x80 + k)) := by
  have h100 : rowPa u.cur 0x100 = rowPa u.cur 0x80 + 128 := rowPa_sig u.cur 128
  rw [signatureSet, memByte_putRowBytes _ _ _ _ (by decide), ← memByte_setX_sig hg d v hk, rowPa_sig]
  by_cases h : k < sig.length
  · rw [if_pos h, if_pos (by omega), Nat.add_sub_cancel_left]
  · rw [if_neg h, if_neg (by omega), memByte_fresh]

theorem signatureSet_rest : signatureSet u d v sig = { u with
    mem := (signatureSet u d v sig).mem, empt := (signatureSet u d v sig).empt, poison := (signatureSet u d v sig).poison,
    nextId := u.nextId + 1 } := by
  have hset := (wrote_setX hg d v).rest
  unfold signatureSet
  generalize setX u u.cur d v = x at hset ⊢
  have hput := putRowBytes_rest (fresh x).2 u.cur sig 0x80 (by decide)
  generalize putRowBytes (fresh x).2 u.cur 0x80 sig = z at hput ⊢
  rw [hput]
  exact congrArg (fun y : State => { y with mem := z.mem, empt := x.empt, poison := x.poison, nextId := y.nextId + 1 }) hset

theorem getX_signatureSet (hs : sig.length ≤ 128) : getX (signatureSet u d v sig) u.cur d = xval d v := by
  rw [← getX_setX u u.cur (going_st hg) d v]
  refine getW_congr u.cur _ (by unfold xw; omega) fun k hk => ?_
  have hpa : rowPa u.cur 0x80 + 128 ≤ rowPa u.cur (8 * xw d + k) := by simp only [rowPa, xw]; omega
  rw [signatureSet, memByte_putRowBytes _ _ _ _ (by decide), if_neg (by omega), memByte_fresh]

theorem signedAs_signatureSet (hs : sig.length ≤ 128) : SignedAs u (signatureSet u d v sig) d v sig where
  value := getX_signatureSet hg d v sig hs
  bytes _ hk := memByte_signatureSet hg d v sig hk
  rest := signatureSet_rest hg d v sig

end begun

/-- The pass begins where, of what a set signature leaves, only the row's control block has changed. -/
theorem SignedAs.passBegins {u y z : State} {d : Reg} {v : Word} {sig : List Byte} (h : SignedAs u z d v sig)
    (hy : y = { z with rows := y.rows }) (hq : ∀ q, rkey q ≠ rkey u.cur → getRow y q = getRow u q) (passes : List Pass) :
    PassBegins u (passEntered u { y with passes := passes }) d v := by
  obtain ⟨hx, -, hrest⟩ := h
  generalize y.rows = rows at hy
  subst hy
  have hnext : z.nextId = u.nextId + 1 := by rw [hrest]
  refine ⟨?_, ?_, ?_, hnext, fun q h => ?_, ?_⟩
  · rw [← hx]
    refine getX_mem ?_ _ _
    rfl
  · rw [passEntered, getRow_modRow_self]
  · rw [passEntered, getRow_modRow_self]
  · rw [passEntered, getRow_modRow, if_neg h]
    exact hq q h
  · rw [hrest]
    rfl

theorem SignedAs.getRow {u z : State} {d : Reg} {v : Word} {sig : List Byte} (h : SignedAs u z d v sig) (q : RowId) :
    getRow z q = getRow u q := by
  unfold Machine.getRow
  rw [h.rest]

theorem SignedAs.passBegins_self {u z : State} {d : Reg} {v : Word} {sig : List Byte} (h : SignedAs u z d v sig) (passes : List Pass) :
    PassBegins u (passEntered u { z with passes := passes }) d v := h.passBegins rfl (fun q _ => h.getRow q) passes

/-! ### What step 1 answers -/

/-- The value in an object read (R110). -/
def objValue (o : List Byte) : Word := wNat (leNat (o.take 8))
/-- The date in an object read; 0 where it was never released (R110). -/
def objDate (o : List Byte) : Nat := leNat ((o.drop 8).take 4)
/-- The releaser's floor in an object read (R110). -/
def objFloor (o : List Byte) : Nat := leNat ((o.drop 12).take 4)
/-- The releaser's identity in an object read (R110). -/
def objIdent (o : List Byte) : Nat := leNat ((o.drop 16).take 4)
/-- The releaser's signature in an object read (R110). -/
def objSig (o : List Byte) : List Byte := (o.drop 128).take 128

/-- The older of two floors at date `now` (R120). -/
def olderFloor (now floor old : Nat) : Nat :=
  if (2 ^ 32 + now - floor) % 2 ^ 32 > (2 ^ 32 + now - old) % 2 ^ 32 then floor else old

/-- The row's signature after an object of its own device has been acquired: the object's added (R120). -/
def ownSig (u : State) (o : List Byte) : List Byte := List.zipWith (· ||| ·) (rowBytes u u.cur 0x80 128) (objSig o)

/-- The pass that such an acquire begins (R121). -/
def ownPass (u : State) (o : List Byte) : Pass :=
  ⟨u.nextId, u.cur, dieOf u.cur.core, asidOf u u.cur.core, true, objDate o, objFloor o, objSig o, 0, []⟩

/-- The row's signature after an object of another identity: every bit (R120). -/
def fullSig : List Byte := List.replicate 128 0xFF#8

/-- The pass that such an acquire begins on the row's die (R122). -/
def otherPass (u : State) (who : Nat) : Pass :=
  ⟨u.nextId, u.cur, dieOf u.cur.core, asidOf u u.cur.core, false, 0, 0, [], who, []⟩

/-- All passes that it begins: from die 1 one on die 0 too (R122). -/
def otherPasses (u : State) (who : Nat) : List Pass :=
  otherPass u who :: (if dieOf u.cur.core = 0 then [] else [{ otherPass u who with die := 0, asid := noAsid }])

theorem otherPasses_eq (u : State) (who : Nat) : otherPasses u who = if dieOf u.cur.core = 0 then [otherPass u who] else
    [otherPass u who, { otherPass u who with die := 0, asid := noAsid }] := by
  unfold otherPasses
  split <;> rfl

section answers
variable {u : State} (hg : Going u) {d : Reg} {o : List Byte}

/-- An object never released: D takes its value (R120). -/
theorem acqStep1_unreleased (h : objDate o = 0) : acqStep1 u u.cur d o = retX u u.cur d (objValue o) 4 := if_pos h

variable (h0 : objDate o ≠ 0) (hp : ∀ w, w = 10 ∨ (16 ≤ w ∧ w < 32) → isPoison u u.cur w = false)
include hg h0 hp

theorem acqStep1_own (h : identKind u (objIdent o) (objDate o) = none) : acqStep1 u u.cur d o =
    passEntered u { modRow (signatureSet u d (objValue o) (ownSig u o)) u.cur fun w =>
        { w with sfloor := olderFloor u.pkg.date (objFloor o) w.sfloor } with passes := u.passes ++ [ownPass u o] } := by
  have hid : (setX u u.cur d (objValue o)).nextId = u.nextId := by rw [(wrote_setX hg d (objValue o)).rest]
  have hpasses : (modRow (signatureSet u d (objValue o) (ownSig u o)) u.cur fun w =>
      { w with sfloor := olderFloor u.pkg.date (objFloor o) w.sfloor }).passes = u.passes := by
    rw [modRow_passes, signatureSet_rest hg]
  have hsig : rowBytes (fresh (setX u u.cur d (objValue o))).2 u.cur 0x80 128 = rowBytes u u.cur 0x80 128 :=
    rowBytes_congr _ _ _ (by decide) fun k hk => (memByte_fresh ..).trans (memByte_setX_sig hg d _ hk)
  rw [← hpasses, ownPass, passEntered, ← hid, ownSig, ← hsig, signatureSet]
  clear hid hpasses hsig
  unfold acqStep1
  rw [show wNat (leNat (o.take 8)) = objValue o from rfl]
  unfold fresh
  dsimp only
  rw [if_neg (by exact h0), sigGate_sound hp, show identKind u (leNat ((o.drop 16).take 4)) (leNat ((o.drop 8).take 4)) = none from h]
  generalize setX u u.cur d (objValue o) = x
  rfl

theorem acqStep1_other {who : Nat} (h : identKind u (objIdent o) (objDate o) = some who) : acqStep1 u u.cur d o =
    passEntered u { signatureSet u d (objValue o) fullSig with passes := u.passes ++ otherPasses u who } := by
  have hid : (setX u u.cur d (objValue o)).nextId = u.nextId := by rw [(wrote_setX hg d (objValue o)).rest]
  have hpasses : (signatureSet u d (objValue o) fullSig).passes = u.passes := by rw [signatureSet_rest hg]
  rw [← hpasses, otherPasses_eq, otherPass, passEntered, ← hid, signatureSet]
  clear hid hpasses
  unfold acqStep1
  rw [show wNat (leNat (o.take 8)) = objValue o from rfl]
  dsimp only
  rw [if_neg (by exact h0), sigGate_sound hp,
    show identKind u (leNat ((o.drop 16).take 4)) (leNat ((o.drop 8).take 4)) = some who from h]
  unfold fullSig
  generalize setX u u.cur d (objValue o) = x
  generalize List.replicate 128 0xFF#8 = sig
  rfl

end answers

/-! ### The acquire -/

/-- What is said of an acquire of an object that was released. -/
def BeginsAcquire (u t : State) (d : Reg) (o : List Byte) : Prop :=
  PassBegins u t d (objValue o) ∧
  (identKind u (objIdent o) (objDate o) = none →
    (getRow t u.cur).sfloor = olderFloor u.pkg.date (objFloor o) (getRow u u.cur).sfloor ∧
    (∀ k < 128, memByte t (rowPa u.cur (0x80 + k)) = memByte u (rowPa u.cur (0x80 + k)) ||| (objSig o).getD k 0) ∧
    t.passes = u.passes ++ [ownPass u o]) ∧
  ∀ who, identKind u (objIdent o) (objDate o) = some who →
    (∀ k < 128, memByte t (rowPa u.cur (0x80 + k)) = 0xFF#8) ∧ (getRow t u.cur).sfloor = (getRow u u.cur).sfloor ∧
    t.passes = u.passes ++ otherPasses u who

/-- The bytes of the two signatures together, where the object's has them all or has run out. -/
theorem ownSig_getD (u : State) (o : List Byte) {k : Nat} (hk : k < 128) :
    (if k < (ownSig u o).length then (ownSig u o).getD k 0 else memByte u (rowPa u.cur (0x80 + k))) =
      memByte u (rowPa u.cur (0x80 + k)) ||| (objSig o).getD k 0 := by
  have hlen : (ownSig u o).length = min 128 (objSig o).length := by rw [ownSig, List.length_zipWith, rowBytes_length]
  have hrow : (rowBytes u u.cur 0x80 128)[k]'(by rw [rowBytes_length]; exact hk) = memByte u (rowPa u.cur (0x80 + k)) := by
    rw [rowBytes_getElem, rowByte_high _ _ _ (by omega), if_neg (by omega)]
  by_cases h : k < (objSig o).length
  · have hz : k < (ownSig u o).length := by omega
    rw [if_pos hz, List.getD_eq_getElem _ _ hz, List.getD_eq_getElem _ _ h, ← hrow]
    exact List.getElem_zipWith
  · rw [if_neg (by omega), List.getD_eq_default _ _ (by omega)]
    exact BitVec.or_zero.symm

theorem ownSig_length (u : State) (o : List Byte) : (ownSig u o).length ≤ 128 := by
  rw [ownSig, List.length_zipWith, rowBytes_length]
  exact Nat.min_le_left ..

theorem fullSig_length : fullSig.length = 128 := by rw [fullSig, List.length_replicate]

theorem fullSig_getD {k : Nat} (hk : k < 128) : fullSig.getD k 0 = 0xFF#8 := by
  rw [List.getD_eq_getElem _ _ (by rwa [fullSig_length])]
  exact List.getElem_replicate _

theorem acqStep1_begins {u : State} (hg : Going u) {d : Reg} {o : List Byte} (h0 : objDate o ≠ 0)
    (hp : ∀ w, w = 10 ∨ (16 ≤ w ∧ w < 32) → isPoison u u.cur w = false) : BeginsAcquire u (acqStep1 u u.cur d o) d o := by
  cases hid : identKind u (objIdent o) (objDate o) with
  | none =>
    have hz := signedAs_signatureSet hg d (objValue o) (ownSig u o) (ownSig_length u o)
    rw [acqStep1_own hg h0 hp hid]
    generalize signatureSet u d (objValue o) (ownSig u o) = z at hz
    refine ⟨hz.passBegins (modRow_rest ..) (fun q hq => ?_) _, fun _ => ⟨?_, fun k hk => ?_, rfl⟩, fun who h => ?_⟩
    · rw [getRow_modRow, if_neg hq, hz.getRow]
    · rw [sfloor_passEntered, getRow_modRow_self, hz.getRow]
    · rw [memByte_passEntered, memByte_modRow, hz.bytes k hk, ownSig_getD u o hk]
    · exact nomatch hid.symm.trans h
  | some who =>
    have hz := signedAs_signatureSet hg d (objValue o) fullSig fullSig_length.le
    rw [acqStep1_other hg h0 hp hid]
    generalize signatureSet u d (objValue o) fullSig = z at hz
    refine ⟨hz.passBegins_self _, fun h => ?_, fun who' h => ⟨fun k hk => ?_, ?_, ?_⟩⟩
    · exact nomatch hid.symm.trans h
    · rw [memByte_passEntered, hz.bytes k hk, if_pos (by rwa [fullSig_length]), fullSig_getD hk]
    · rw [sfloor_passEntered, hz.getRow]
    · obtain rfl : who = who' := Option.some.inj (hid.symm.trans h)
      rfl

/-- Step 2 waits for the row's own passes, and retires when they are over (R120). -/
theorem syncAcq_second {s : State} {tb ta : Bool} {a d : Reg} (hk : 2 ≤ (getRow s s.cur).rstep) :
    exec (.syncAcq tb ta a d) s = .next (if s.passes.any fun x => wNat (x.id + 1) == (getRow s s.cur).work then s
      else retire (refetch s s.cur.core) s.cur 4) := by
  show execSyncAcq tb ta a d s = _
  unfold execSyncAcq
  dsimp only
  rw [if_neg (by omega)]
  split <;> rfl

/-- Settles O25: step 1 is the read of the object before `acqStep1`, whose signature and passes are those of the identity's kind; step 2
is a gate on the passes before a retirement. -/
theorem acquires : Obligations.Acquires := by
  intro s tb ta a d hg
  refine ⟨fun hi hk hf ps hc => ⟨syncAcq_waits hi hk hf hc, fun hw o x hr => ?_⟩, fun hk => ⟨fun hpass => ?_, fun hpass => ?_⟩⟩
  · have he := syncAcq_reads (tb := tb) (d := d) hi hk hf hc hw hr
    have hu : FlagsOnly s (bump x s.cur.core 4 ps.length) := (l2Only_readObject hr).flagsOnly.trans (.of_rows rfl rfl)
    have hgu := hu.going hg
    have hcur := hu.cur
    generalize bump x s.cur.core 4 ps.length = u at he hgu hcur
    rw [← hcur] at he ⊢
    refine ⟨fun h0 => ?_, fun h0 hp => ?_⟩
    · have h0 : objDate o = 0 := h0
      obtain ⟨hdone, hx⟩ := retX_done u hgu d (objValue o) 4
      rw [acqStep1_unreleased h0] at he
      exact ⟨_, he, hdone, hx⟩
    · have h0 : objDate o ≠ 0 := h0
      have hpu (w : Nat) (hw : w = 10 ∨ (16 ≤ w ∧ w < 32)) : isPoison u u.cur w = false := by
        rw [← hp w hw]
        exact (isPoison_setX hgu d _ (by omega)).symm
      obtain ⟨⟨hvalue, hstep, hwork, hnext, hothers, hrest⟩, hown, hother⟩ := acqStep1_begins hgu (d := d) (o := o) h0 hpu
      exact ⟨_, he, hvalue, hstep, hwork, hnext, hothers, hrest, hown, hother⟩
  · rw [syncAcq_second hk, if_pos]
    obtain ⟨p, hp, h⟩ := hpass
    exact List.any_eq_true.mpr ⟨p, hp, beq_iff_eq.mpr h⟩
  · refine ⟨_, (syncAcq_second hk).trans (congrArg Host.Outcome.next (if_neg fun h => ?_)), done_refetch hg⟩
    obtain ⟨p, hp, h⟩ := List.any_eq_true.mp h
    exact hpass p hp (beq_iff_eq.mp h)

/-! ## Dates of slices (O50) -/

theorem sliceDate_lag (s : State) (slice k : Nat) (v : Option Nat) :
    sliceDate (modPkg s fun q => { q with lag := smSet none q.lag slice v }) k =
      if k = slice then v.getD s.pkg.date else sliceDate s k := by
  simp only [sliceDate, modPkg, smGet_smSet]
  split <;> rfl

/-- A slice that does not trail has nothing to receive. -/
theorem dateStep_level {s : State} {slice date : Nat} (hl : smGet none s.pkg.lag slice = none) : dateStep s slice date = s := by
  unfold dateStep
  rw [hl]

section dates
variable {s : State} {slice date old : Nat} (hl : smGet none s.pkg.lag slice = some old)
include hl

/-- How far the date is ahead of the slice's copy, and how far the Calendar's (R114). -/
abbrev dateAhead (old date : Nat) : Nat := (2 ^ 32 + date - old) % 2 ^ 32

/-- A date that the Calendar has not issued, or that the slice has already, moves nothing. -/
theorem dateStep_stays (h : date % 2 ^ 32 = 0 ∨ dateAhead old (date % 2 ^ 32) = 0 ∨
    dateAhead old s.pkg.date < dateAhead old (date % 2 ^ 32)) : dateStep s slice date = s := by
  unfold dateStep
  rw [hl]
  exact if_pos h

theorem dateStep_moves (h0 : date % 2 ^ 32 ≠ 0) (hd : dateAhead old (date % 2 ^ 32) ≠ 0)
    (hg : dateAhead old (date % 2 ^ 32) ≤ dateAhead old s.pkg.date) : dateStep s slice date =
      let v := if dateAhead old (date % 2 ^ 32) = dateAhead old s.pkg.date then none else some (date % 2 ^ 32)
      modPkg s fun q => { q with lag := smSet none q.lag slice v } := by
  unfold dateStep
  rw [hl]
  exact if_neg (not_or.mpr ⟨h0, not_or.mpr ⟨hd, Nat.not_lt.mpr hg⟩⟩)

end dates

/-! ## Slices sweep their lines (O50) -/

/-- A slice's part of pass `id`: the lines that satisfy `gone` go and are counted, and the slice is marked done (R121-R123). -/
def sweep (s : State) (id die slice : Nat) (gone : Line → Bool) : State :=
  passDone (countAcq (sliceDrop s slice gone).2 die (sliceDrop s slice gone).1) id die slice

/-- Lines of a slice that satisfy `gone`. -/
def goneCount (s : State) (slice : Nat) (gone : Line → Bool) : Nat := s.l2.countP fun x => x.slice == slice && gone x

theorem sliceDrop_eq (s : State) (slice : Nat) (gone : Line → Bool) : sliceDrop s slice gone =
    (goneCount s slice gone, { s with l2 := s.l2.filter fun x => !(x.slice == slice && gone x) }) := by
  rw [sliceDrop, goneCount, List.countP_eq_length_filter]

theorem getDie_countAcq (s : State) (die n : Nat) :
    getDie (countAcq s die n) die = { getDie s die with acq := ((getDie s die).acq + n) % 2 ^ 32 } := getDie_modDie_self ..

/-- What a slice's part of a pass leaves: lines, passes and the count of its die. -/
def Swept (s t : State) (id die slice : Nat) (gone : Line → Bool) : Prop :=
  (t.l2 = s.l2.filter fun x => !(x.slice == slice && gone x)) ∧
  (∀ y, y ∈ t.passes ↔ ∃ x ∈ s.passes, y.done.length < 160 ∧
    y = if x.id = id ∧ x.die = slice / 160 then { x with done := insSorted x.done slice } else x) ∧
  getDie t die = { getDie s die with acq := ((getDie s die).acq + goneCount s slice gone) % 2 ^ 32 } ∧
  t = { s with l2 := t.l2, passes := t.passes, dies := t.dies }

theorem swept_sweep (s : State) (id : Nat) {die slice : Nat} (gone : Line → Bool) (hd : slice / 160 = die) :
    Swept s (sweep s id die slice gone) id die slice gone := by
  subst hd
  unfold sweep
  rw [sliceDrop_eq]
  refine ⟨rfl, fun y => ?_, getDie_countAcq _ _ _, rfl⟩
  show y ∈ (s.passes.map _).filter _ ↔ _
  simp only [List.mem_filter, List.mem_map, decide_eq_true_eq]
  constructor
  · rintro ⟨⟨x, hx, rfl⟩, hlen⟩
    exact ⟨x, hx, hlen, rfl⟩
  · rintro ⟨x, hx, hlen, rfl⟩
    exact ⟨⟨x, hx, rfl⟩, hlen⟩

/-- The lines that a pass of the own identity removes from a slice (R121). -/
def ownGone (s : State) (slice : Nat) (x : Pass) (y : Line) : Bool :=
  let lim := (2 ^ 32 + sliceDate s slice - x.floor) % 2 ^ 32
  y.stamp.isSome && !y.phys && y.asid == x.asid &&
    (decide (160 ≤ lim) || sigHit x.sig y.line || decide (lim < lineAge s slice y))

section own
variable {s : State} {id slice : Nat} {x : Pass} (hx : (s.passes.find? fun y => y.id == id && y.own) = some x)
include hx

theorem passOwn_stays (h : slice / 160 ≠ x.die ∨ x.done.contains slice = true ∨
    2 ^ 31 ≤ (2 ^ 32 + sliceDate s slice - x.date) % 2 ^ 32) : passOwn s id slice = s := by
  unfold passOwn
  rw [hx]
  exact if_pos h

theorem passOwn_sweeps (hd : slice / 160 = x.die) (hn : x.done.contains slice = false)
    (hq : (2 ^ 32 + sliceDate s slice - x.date) % 2 ^ 32 < 2 ^ 31) :
    passOwn s id slice = sweep s id x.die slice (ownGone s slice x) := by
  unfold passOwn
  rw [hx]
  exact if_neg (not_or.mpr ⟨not_not.mpr hd, not_or.mpr ⟨by rw [hn]; decide, Nat.not_le.mpr hq⟩⟩)

end own

/-- The lines that a pass for another identity removes: guest lines of the ASID homed there, and for a pass on die 0 the lines with
G = 1 of that identity (R122). -/
def otherGone (s : State) (x : Pass) (y : Line) : Bool :=
  y.stamp.isSome && (x.ident == 0xFFFFFFFF || region s (128 * y.pl) == .peerMem x.ident ||
    (!y.phys && region s (128 * y.pl) == .gddr)) && (if y.phys then x.die == 0 else y.asid == x.asid)

/-- The model's condition on a line, case by case of the line's kind and its region. -/
theorem otherGone_eq (s : State) (x : Pass) (y : Line) : otherGone s x y =
    if y.phys then x.die == 0 && homedAt s x.ident y && (x.ident == 0xFFFFFFFF || (match region s (128 * y.pl) with
      | .peerMem _ => true
      | _ => false))
    else y.asid == x.asid && homedAt s x.ident y := by
  unfold otherGone homedAt
  generalize (x.ident == 0xFFFFFFFF) = host
  generalize region s (128 * y.pl) = r
  rw [Bool.eq_iff_iff]
  cases y.phys with
  | true => cases r <;> simp <;> tauto
  | false => cases r <;> simp <;> tauto

section other
variable {s : State} {id slice : Nat} {x : Pass}
  (hx : (s.passes.find? fun y => y.id == id && !y.own && y.die == slice / 160) = some x)
include hx

theorem passOther_stays (h : x.done.contains slice = true) : passOther s id slice = s := by
  unfold passOther
  rw [hx]
  exact if_pos h

theorem passOther_sweeps (h : x.done.contains slice = false) :
    passOther s id slice = sweep s id x.die slice (otherGone s x) := by
  unfold passOther
  rw [hx]
  refine (if_neg (by rw [h]; decide)).trans ?_
  rw [funext (otherGone_eq s x)]
  rfl

theorem die_of_otherPass : slice / 160 = x.die := by
  have h := List.find?_some hx
  simp only [Bool.and_eq_true, beq_iff_eq] at h
  exact h.2.symm

end other

/-! ### The Frost pass (R124) -/

/-- The lines whose age was 64 or more when the slice's date reached the trigger (R124). -/
def frostGone (s : State) (slice : Nat) (f : Frost) (y : Line) : Bool :=
  y.stamp.isSome && decide (64 + (2 ^ 32 + sliceDate s slice - f.trigger) % 2 ^ 32 ≤ lineAge s slice y)

/-- The pass when a slice has done its part: it is over with the last of 320. -/
def frostAfter (f : Frost) (slice : Nat) : Option Frost :=
  if (insSorted f.done slice).length < 320 then some { f with done := insSorted f.done slice } else none

section frost
variable {s : State} {slice : Nat} {f : Frost} (hf : s.pkg.frost = some f)
include hf

theorem frostStep_stays (h : 320 ≤ slice ∨ f.done.contains slice = true ∨
    2 ^ 31 ≤ (2 ^ 32 + sliceDate s slice - f.trigger) % 2 ^ 32) : frostStep s slice = s := by
  unfold frostStep
  rw [hf]
  exact if_pos h

theorem frostStep_sweeps (hs : slice < 320) (hn : f.done.contains slice = false)
    (hq : (2 ^ 32 + sliceDate s slice - f.trigger) % 2 ^ 32 < 2 ^ 31) : frostStep s slice =
    modPkg (modDie { s with l2 := s.l2.filter fun x => !(x.slice == slice && frostGone s slice f x) } (slice / 160) fun d =>
      { d with frost := (d.frost + goneCount s slice (frostGone s slice f)) % 2 ^ 32 }) fun q =>
        { q with frost := frostAfter f slice } := by
  unfold frostStep
  rw [hf]
  refine (if_neg (not_or.mpr ⟨Nat.not_le.mpr hs, not_or.mpr ⟨by rw [hn]; decide, Nat.not_le.mpr hq⟩⟩)).trans ?_
  dsimp only
  rw [sliceDrop_eq]
  rfl

end frost

/-! ### Arrivals (R262, R264, R354) -/

/-- `t` is `s` but for control blocks, cores, clusters and the order of arrivals that steering notes. -/
def ArrivalOnly (s t : State) : Prop := t = { s with rows := t.rows, cores := t.cores, clusters := t.clusters, steer := t.steer }

theorem ArrivalOnly.trans {s t u : State} (h : ArrivalOnly s t) (h' : ArrivalOnly t u) : ArrivalOnly s u :=
  Eq.trans (show u = _ from h') (congrArg (fun x : State =>
    { x with rows := u.rows, cores := u.cores, clusters := u.clusters, steer := u.steer }) h)

theorem ArrivalOnly.mem {s t : State} (h : ArrivalOnly s t) : t.mem = s.mem := by
  unfold ArrivalOnly at h
  rw [h]

theorem ArrivalOnly.reqs {s t : State} (h : ArrivalOnly s t) : t.reqs = s.reqs := by
  unfold ArrivalOnly at h
  rw [h]

theorem arrivalOnly_barWakeRow (s : State) (r : RowId) : ArrivalOnly s (barWakeRow s r) := by
  unfold ArrivalOnly barWakeRow
  rw [wake_rest]
  rfl

theorem arrivalOnly_barSet (s : State) (core k : Nat) (b : Bar) : ArrivalOnly s (barSet s core k b) := by
  have hfold (l : List RowId) (t : State) : ArrivalOnly t (l.foldl barWakeRow t) := by
    induction l generalizing t with
    | nil => rfl
    | cons r l ih => exact (arrivalOnly_barWakeRow t r).trans (ih _)
  exact ArrivalOnly.trans (t := modCore s core fun c => { c with bars := smSet {} c.bars k b }) rfl (hfold _ _)

theorem arrivalOnly_arrive (s : State) (core k : Nat) : ArrivalOnly s (arrive s core k).2 := by
  unfold arrive
  dsimp only
  split
  · rfl
  · split <;> exact arrivalOnly_barSet ..

theorem arrivalOnly_noteArrival (s : State) (who : RowId) (core k : Nat) : ArrivalOnly s (noteArrival s who core k) := by
  unfold noteArrival
  dsimp only
  split <;> rfl

theorem arrivalOnly_moveRate (s : State) (a b : Nat) : ArrivalOnly s (moveRate s a b) := by
  unfold moveRate
  dsimp only
  split <;> rfl

theorem arrivalOnly_steerPhase (s : State) (core k cl : Nat) : ArrivalOnly s (steerPhase s core k cl) := by
  unfold steerPhase
  split
  · rfl
  · split
    · rfl
    · dsimp only
      exact iteInduction (motive := ArrivalOnly s) (fun _ => ArrivalOnly.trans (by rfl) (arrivalOnly_moveRate ..)) fun _ => rfl

theorem arrivalOnly_arriveBy (s : State) (who : RowId) (core k : Nat) : ArrivalOnly s (arriveBy s who core k).2 := by
  have ha := (arrivalOnly_noteArrival s who core k).trans (arrivalOnly_arrive _ core k)
  unfold arriveBy
  dsimp only
  split
  · rfl
  · dsimp only
    split
    · exact ha.trans (arrivalOnly_steerPhase ..)
    · exact ha

/-- The bytes of a log's entry go to memory; beside that and what the home changes, two free values are taken (log entry 15). -/
theorem l2Only_logBytes (s : State) (p : Nat) (data : List Byte) : L2Only (freeWord (freeWord s).2).2 (logBytes s p data) := by
  unfold logBytes
  refine L2Only.foldl (fun t k => ?_) _ _
  have hw := (walkForce_onlyDies t (some p)
    (Wbits (wNat ((0x1000 * Wbits (getPart s p).arrlog 63 12 + ((getPart s p).logTail + 16 * k) %
      (0x10000 * Wbits (getPart s p).arrlog 11 0)) % 2 ^ 64)) 55 12) 4).l2Only
  dsimp only
  split
  · split
    · exact hw.trans (l2Only_homeStore ..)
    · exact hw
  · exact hw

/-- The reply that carries `res` to the row (R262). -/
def replied (q : Req) (res : Nat) : Req :=
  { q with todo := [], logged := 0, buf := (leBytes 8 res).zipIdx.map fun (b, k) => (k, b) }

/-- A list laid out by its positions reads back. -/
theorem smGet_zipIdx {α : Type} (d : α) (l : List α) (n k : Nat) :
    smGet d ((l.zipIdx n).map fun (b, j) => (j, b)) (n + k) = l.getD k d := by
  induction l generalizing n k with
  | nil => rfl
  | cons b l ih =>
    cases k with
    | zero => simp [smGet]
    | succ k =>
      have hk := ih (n + 1) k
      rw [show n + 1 + k = n + (k + 1) by omega] at hk
      simpa [smGet] using hk

theorem replied_buf (q : Req) (res b : Nat) : smGet 0 (replied q res).buf b = (leBytes 8 res).getD b 0 := by
  have h := smGet_zipIdx (0 : Byte) (leBytes 8 res) 0 b
  rwa [Nat.zero_add] at h

/-- An arrival's answer: the request that owes the row's words has the result in hand. -/
theorem reqById_arrivalReply {s u : State} {id : Nat} {q : Req} (hq : reqById s id = some q) (hu : u.reqs = s.reqs) (res : Nat)
    (hw : q.words ≠ []) :
    ∃ x, reqById (arrivalReply u id res) id = some x ∧ x.todo = [] ∧ ∀ b < 8, smGet 0 x.buf b = (leBytes 8 res).getD b 0 := by
  have hq' : reqById u id = some q := by rwa [reqById, hu]
  exact ⟨replied q res, reqById_settle (reqById_modReq (f := fun y => replied y res) hq' fun _ => rfl) hw, rfl,
    fun b _ => replied_buf q res b⟩

/-- Are the row's earlier accesses done, so that the arrival may act (R262)? -/
def arrivalFirst (s : State) (q : Req) (core : Nat) : Bool :=
  storeOrder s q.row q.part q.id && (dieOf core == dieOf q.row.core || devDone s q.row q.part q.id)

section arrival
variable {s : State} {id core k : Nat} {q : Req}

theorem barrierArrival_eq (hk : q.kind = .arrive core k) (hq : (s.reqs.find? fun x => x.id == id) = some q) :
    exec (.barrierArrival id) s = .next (arrivalStep s q core k) := by
  show execBarrierArrival id s = _
  unfold execBarrierArrival
  rw [hq]
  dsimp only
  rw [hk]

theorem arrivalStep_waits (h : q.todo = [] ∨ arrivalFirst s q core = false) : arrivalStep s q core k = s := by
  refine if_pos ?_
  rw [Bool.or_eq_true, List.isEmpty_iff, Bool.not_eq_true']
  exact h

theorem arrivalStep_first (ht : q.todo ≠ []) (hf : arrivalFirst s q core = true) : arrivalStep s q core k =
    if aimedPart s core q.part then
      if logBefore s q.row q.part q.id q.part then s
      else if (logAdd s core q.part (.arrival q.row core k)).1 then
        arrivalReply (logAdd s core q.part (.arrival q.row core k)).2 q.id 3
      else (logAdd s core q.part (.arrival q.row core k)).2
    else arrivalDo s q core k := by
  have hgo : ¬ (q.todo.isEmpty || !arrivalFirst s q core) = true := by
    rw [hf, Bool.not_true, Bool.or_false, List.isEmpty_iff]
    exact ht
  refine (if_neg hgo).trans ?_
  cases aimedPart s core q.part <;> cases logBefore s q.row q.part q.id q.part <;> rfl

end arrival

/-- An arrival acts at its barrier once the row's earlier accesses are done, and replies (R262). -/
theorem arrivals_act {s : State} {id core k : Nat} {q : Req} (hq : reqById s id = some q) (hk : q.kind = .arrive core k)
    (ht : q.todo ≠ []) (hf : arrivalFirst s q core = true) (ha : aimedPart s core q.part = false) :
    let a := arriveBy (received s q.row.core core) q.row core k
    Step s (.barrierArrival id) fun t => (∀ c, getCore t c = getCore a.2 c) ∧ t.rows = a.2.rows ∧ t.mem = s.mem ∧
      (q.words ≠ [] → ∃ x, reqById t id = some x ∧ x.todo = [] ∧ ∀ b < 8, smGet 0 x.buf b = (leBytes 8 a.1).getD b 0) := by
  intro a
  have hrest : ArrivalOnly s a.2 := by
    have hr : ArrivalOnly s (received s q.row.core core) := by
      unfold ArrivalOnly
      rw [received_rest]
    exact hr.trans (arrivalOnly_arriveBy ..)
  have he := barrierArrival_eq hk hq
  have hdo : arrivalDo s q core k = arrivalReply a.2 q.id a.1 := rfl
  rw [arrivalStep_first ht hf, ha, if_neg Bool.false_ne_true, hdo] at he
  have hid := id_of_reqById hq
  subst hid
  clear_value a
  exact ⟨_, he, fun _ => rfl, rfl, hrest.mem, reqById_arrivalReply hq hrest.reqs _⟩

theorem logAdd_fits {s : State} {core p : Nat} {e : Logged} (h : logFits s p e = true) : logAdd s core p e =
    (true, modPart (logBytes s p e.data) p fun q =>
      { q with log := q.log ++ [e], logUsed := q.logUsed + logLen e.data.length, fullSent := false,
               logTail := (q.logTail + logLen e.data.length) % (0x10000 * Wbits q.arrlog 11 0) }) := if_pos h

/-- An entry that fits is appended; requests and control blocks stay (R354). -/
theorem logAdd_appends {s : State} {core p : Nat} {e : Logged} (h : logFits s p e = true) :
    (logAdd s core p e).1 = true ∧ (getPart (logAdd s core p e).2 p).log = (getPart s p).log ++ [e] ∧
      (logAdd s core p e).2.rows = s.rows ∧ (logAdd s core p e).2.reqs = s.reqs := by
  have hb := l2Only_logBytes s p e.data
  unfold L2Only at hb
  rw [logAdd_fits h]
  refine ⟨rfl, ?_, ?_, ?_⟩
  · dsimp only
    rw [getPart_modPart_self, hb]
    rfl
  · rw [modPart_rows, hb]
    rfl
  · rw [modPart_reqs, hb]
    rfl

/-- An arrival for a swapped-out partition goes into its log, with result 3 (R264, R354). -/
theorem arrivals_logged {s : State} {id core k : Nat} {q : Req} (hq : reqById s id = some q) (hk : q.kind = .arrive core k)
    (ht : q.todo ≠ []) (hf : arrivalFirst s q core = true) (ha : aimedPart s core q.part = true)
    (hb : logBefore s q.row q.part q.id q.part = false) (hl : logFits s q.part (.arrival q.row core k) = true) :
    Step s (.barrierArrival id) fun t => (getPart t q.part).log = (getPart s q.part).log ++ [.arrival q.row core k] ∧
      t.rows = s.rows ∧
      (q.words ≠ [] → ∃ x, reqById t id = some x ∧ x.todo = [] ∧ ∀ b < 8, smGet 0 x.buf b = (leBytes 8 3).getD b 0) := by
  obtain ⟨hok, hlog, hrows, hreqs⟩ := logAdd_appends (core := core) hl
  have he := barrierArrival_eq hk hq
  rw [arrivalStep_first ht hf, if_pos ha, if_neg (by rw [hb]; decide), if_pos hok] at he
  have hid := id_of_reqById hq
  subst hid
  exact ⟨_, he, hlog, hrows, reqById_arrivalReply hq hreqs 3⟩

/-- Settles O50: a date moves by `dateStep`'s two cases; a slice's part of each pass is a sweep of the lines that its rule names; an
arrival acts at its barrier or is logged, and its reply is in the request that owes the row's words. -/
theorem datesAndPasses : Obligations.DatesAndPasses := by
  unfold Obligations.DatesAndPasses
  intro kept count finish
  refine ⟨fun s slice date => ⟨fun hl => ?_, fun old hl => ⟨fun h => ?_, fun h0 hd hg => ?_⟩⟩,
    fun s id slice x hx => ⟨fun h => ?_, fun hd hn hq => ?_⟩, fun s id slice x hx => ⟨fun h => ?_, fun hn => ?_⟩,
    fun s slice f hf => ⟨fun h => ?_, fun hs hn hq => ?_⟩,
    fun s id core k q hq hk => ⟨fun h => ?_, arrivals_act hq hk, fun ht hf ha hb => ?_, arrivals_logged hq hk⟩⟩
  · exact congrArg Host.Outcome.next (dateStep_level hl)
  · exact congrArg Host.Outcome.next (dateStep_stays hl h)
  · refine ⟨_, congrArg Host.Outcome.next (dateStep_moves hl h0 hd hg), ?_, fun k hk => ?_, rfl⟩
    · rw [sliceDate_lag, if_pos rfl]
      split <;> rfl
    · rw [sliceDate_lag, if_neg hk]
  · exact congrArg Host.Outcome.next (passOwn_stays hx h)
  · exact ⟨_, congrArg Host.Outcome.next (passOwn_sweeps hx hd hn hq), swept_sweep s id _ hd⟩
  · exact congrArg Host.Outcome.next (passOther_stays hx h)
  · exact ⟨_, congrArg Host.Outcome.next (passOther_sweeps hx hn), swept_sweep s id _ (die_of_otherPass hx)⟩
  · exact congrArg Host.Outcome.next (frostStep_stays hf h)
  · refine ⟨_, congrArg Host.Outcome.next (frostStep_sweeps hf hs hn hq), rfl, ?_, rfl, rfl⟩
    rw [getDie_modPkg, getDie_modDie_self]
    rfl
  · exact (barrierArrival_eq hk hq).trans (congrArg Host.Outcome.next (arrivalStep_waits h))
  · refine (barrierArrival_eq hk hq).trans (congrArg Host.Outcome.next ?_)
    rw [arrivalStep_first ht hf, if_pos ha, if_pos hb]

end Sys2Proof.Proofs

-- ==== Proofs of 10_encoding ====
namespace Sys2Proof.Proofs
open Sys2Proof.Machine Sys2Proof.Claims

/-! ## Decoding and encoding (O54, O55)

### From an instruction to its bytes and back -/

/-- A well-formed instruction decodes from its own bytes: each constructor by its round trip, and the steps of the device, which have no
word, in the last case. -/
theorem roundTrip (i : Instr) : Laws.RoundTrip.Statement i := by
  cases i with
  | aluAdd => apply Laws.RoundTrip.aluAdd
  | aluSub => apply Laws.RoundTrip.aluSub
  | aluMul => apply Laws.RoundTrip.aluMul
  | aluMulh => apply Laws.RoundTrip.aluMulh
  | aluMulhu => apply Laws.RoundTrip.aluMulhu
  | aluDiv => apply Laws.RoundTrip.aluDiv
  | aluDivu => apply Laws.RoundTrip.aluDivu
  | aluRem => apply Laws.RoundTrip.aluRem
  | aluRemu => apply Laws.RoundTrip.aluRemu
  | aluAnd => apply Laws.RoundTrip.aluAnd
  | aluOr => apply Laws.RoundTrip.aluOr
  | aluXor => apply Laws.RoundTrip.aluXor
  | aluAndn => apply Laws.RoundTrip.aluAndn
  | aluShl => apply Laws.RoundTrip.aluShl
  | aluShr => apply Laws.RoundTrip.aluShr
  | aluSra => apply Laws.RoundTrip.aluSra
  | aluMin => apply Laws.RoundTrip.aluMin
  | aluMax => apply Laws.RoundTrip.aluMax
  | aluMinu => apply Laws.RoundTrip.aluMinu
  | aluMaxu => apply Laws.RoundTrip.aluMaxu
  | aluRot => apply Laws.RoundTrip.aluRot
  | aluClz => apply Laws.RoundTrip.aluClz
  | aluCtz => apply Laws.RoundTrip.aluCtz
  | aluPopc => apply Laws.RoundTrip.aluPopc
  | aluEq => apply Laws.RoundTrip.aluEq
  | aluNe => apply Laws.RoundTrip.aluNe
  | aluLt => apply Laws.RoundTrip.aluLt
  | aluLtu => apply Laws.RoundTrip.aluLtu
  | aluLe => apply Laws.RoundTrip.aluLe
  | aluLeu => apply Laws.RoundTrip.aluLeu
  | aluSel => apply Laws.RoundTrip.aluSel
  | aluExt => apply Laws.RoundTrip.aluExt
  | alui => apply Laws.RoundTrip.alui
  | andi => apply Laws.RoundTrip.andi
  | ori => apply Laws.RoundTrip.ori
  | xori => apply Laws.RoundTrip.xori
  | shiShl => apply Laws.RoundTrip.shiShl
  | shiShr => apply Laws.RoundTrip.shiShr
  | shiSra => apply Laws.RoundTrip.shiSra
  | shiRot => apply Laws.RoundTrip.shiRot
  | cmpiEq => apply Laws.RoundTrip.cmpiEq
  | cmpiNe => apply Laws.RoundTrip.cmpiNe
  | cmpiLt => apply Laws.RoundTrip.cmpiLt
  | cmpiLtu => apply Laws.RoundTrip.cmpiLtu
  | cmpiLe => apply Laws.RoundTrip.cmpiLe
  | cmpiLeu => apply Laws.RoundTrip.cmpiLeu
  | cmpiGt => apply Laws.RoundTrip.cmpiGt
  | cmpiGtu => apply Laws.RoundTrip.cmpiGtu
  | ldi => apply Laws.RoundTrip.ldi
  | ldx => apply Laws.RoundTrip.ldx
  | extC0 => apply Laws.RoundTrip.extC0
  | extC1 => apply Laws.RoundTrip.extC1
  | extC2 => apply Laws.RoundTrip.extC2
  | extX => apply Laws.RoundTrip.extX
  | br => apply Laws.RoundTrip.br
  | bcEq => apply Laws.RoundTrip.bcEq
  | bcNe => apply Laws.RoundTrip.bcNe
  | bcLt => apply Laws.RoundTrip.bcLt
  | bcLtu => apply Laws.RoundTrip.bcLtu
  | bcGe => apply Laws.RoundTrip.bcGe
  | bcGeu => apply Laws.RoundTrip.bcGeu
  | jmp => apply Laws.RoundTrip.jmp
  | jmpRet => apply Laws.RoundTrip.jmpRet
  | ld => apply Laws.RoundTrip.ld
  | st => apply Laws.RoundTrip.st
  | vld => apply Laws.RoundTrip.vld
  | vst => apply Laws.RoundTrip.vst
  | vmemGather => apply Laws.RoundTrip.vmemGather
  | vmemScatter => apply Laws.RoundTrip.vmemScatter
  | vmemLds => apply Laws.RoundTrip.vmemLds
  | vmemSts => apply Laws.RoundTrip.vmemSts
  | vmemScatredAdd => apply Laws.RoundTrip.vmemScatredAdd
  | vmemScatredFadd => apply Laws.RoundTrip.vmemScatredFadd
  | vmemScatredMin => apply Laws.RoundTrip.vmemScatredMin
  | vmemScatredMax => apply Laws.RoundTrip.vmemScatredMax
  | vmemScatredMinu => apply Laws.RoundTrip.vmemScatredMinu
  | vmemScatredMaxu => apply Laws.RoundTrip.vmemScatredMaxu
  | vmemScatredOr => apply Laws.RoundTrip.vmemScatredOr
  | amoAdd => apply Laws.RoundTrip.amoAdd
  | amoAnd => apply Laws.RoundTrip.amoAnd
  | amoOr => apply Laws.RoundTrip.amoOr
  | amoXor => apply Laws.RoundTrip.amoXor
  | amoMin => apply Laws.RoundTrip.amoMin
  | amoMax => apply Laws.RoundTrip.amoMax
  | amoMinu => apply Laws.RoundTrip.amoMinu
  | amoMaxu => apply Laws.RoundTrip.amoMaxu
  | amoSwap => apply Laws.RoundTrip.amoSwap
  | amoCas => apply Laws.RoundTrip.amoCas
  | amoDecFire => apply Laws.RoundTrip.amoDecFire
  | amoFadd => apply Laws.RoundTrip.amoFadd
  | syncFenceDie => apply Laws.RoundTrip.syncFenceDie
  | syncFenceDev => apply Laws.RoundTrip.syncFenceDev
  | syncFenceSys => apply Laws.RoundTrip.syncFenceSys
  | syncFenceCp => apply Laws.RoundTrip.syncFenceCp
  | syncFenceU => apply Laws.RoundTrip.syncFenceU
  | syncRel => apply Laws.RoundTrip.syncRel
  | syncAcq => apply Laws.RoundTrip.syncAcq
  | syncClnRange => apply Laws.RoundTrip.syncClnRange
  | syncInvRange => apply Laws.RoundTrip.syncInvRange
  | syncFlnRange => apply Laws.RoundTrip.syncFlnRange
  | syncFeClr => apply Laws.RoundTrip.syncFeClr
  | syncFeSet => apply Laws.RoundTrip.syncFeSet
  | valuAdd => apply Laws.RoundTrip.valuAdd
  | valuSub => apply Laws.RoundTrip.valuSub
  | valuMul => apply Laws.RoundTrip.valuMul
  | valuMulh => apply Laws.RoundTrip.valuMulh
  | valuAnd => apply Laws.RoundTrip.valuAnd
  | valuOr => apply Laws.RoundTrip.valuOr
  | valuXor => apply Laws.RoundTrip.valuXor
  | valuShl => apply Laws.RoundTrip.valuShl
  | valuShr => apply Laws.RoundTrip.valuShr
  | valuSra => apply Laws.RoundTrip.valuSra
  | valuMin => apply Laws.RoundTrip.valuMin
  | valuMax => apply Laws.RoundTrip.valuMax
  | valuMinu => apply Laws.RoundTrip.valuMinu
  | valuMaxu => apply Laws.RoundTrip.valuMaxu
  | valuCmp => apply Laws.RoundTrip.valuCmp
  | valuSel => apply Laws.RoundTrip.valuSel
  | vfpAdd => apply Laws.RoundTrip.vfpAdd
  | vfpSub => apply Laws.RoundTrip.vfpSub
  | vfpMul => apply Laws.RoundTrip.vfpMul
  | vfpDiv => apply Laws.RoundTrip.vfpDiv
  | vfpMin => apply Laws.RoundTrip.vfpMin
  | vfpMax => apply Laws.RoundTrip.vfpMax
  | vfpRnd => apply Laws.RoundTrip.vfpRnd
  | vfpExp2f => apply Laws.RoundTrip.vfpExp2f
  | vfpScale => apply Laws.RoundTrip.vfpScale
  | vfpGetexp => apply Laws.RoundTrip.vfpGetexp
  | vfpRcp => apply Laws.RoundTrip.vfpRcp
  | vfpRsq => apply Laws.RoundTrip.vfpRsq
  | vfpSqrt => apply Laws.RoundTrip.vfpSqrt
  | vfpCvt => apply Laws.RoundTrip.vfpCvt
  | vfpCmp => apply Laws.RoundTrip.vfpCmp
  | vfpCls => apply Laws.RoundTrip.vfpCls
  | vfmaFma => apply Laws.RoundTrip.vfmaFma
  | vfmaFms => apply Laws.RoundTrip.vfmaFms
  | vfmaFnma => apply Laws.RoundTrip.vfmaFnma
  | vfmaFnms => apply Laws.RoundTrip.vfmaFnms
  | maskAnd => apply Laws.RoundTrip.maskAnd
  | maskOr => apply Laws.RoundTrip.maskOr
  | maskXor => apply Laws.RoundTrip.maskXor
  | maskAndn => apply Laws.RoundTrip.maskAndn
  | maskNot => apply Laws.RoundTrip.maskNot
  | maskPop => apply Laws.RoundTrip.maskPop
  | maskFirst => apply Laws.RoundTrip.maskFirst
  | maskFromx => apply Laws.RoundTrip.maskFromx
  | maskTox => apply Laws.RoundTrip.maskTox
  | maskAll => apply Laws.RoundTrip.maskAll
  | maskLanes => apply Laws.RoundTrip.maskLanes
  | fpuAdd => apply Laws.RoundTrip.fpuAdd
  | fpuSub => apply Laws.RoundTrip.fpuSub
  | fpuMul => apply Laws.RoundTrip.fpuMul
  | fpuDiv => apply Laws.RoundTrip.fpuDiv
  | fpuSqrt => apply Laws.RoundTrip.fpuSqrt
  | fpuMin => apply Laws.RoundTrip.fpuMin
  | fpuMax => apply Laws.RoundTrip.fpuMax
  | fpuFma => apply Laws.RoundTrip.fpuFma
  | fpuRnd => apply Laws.RoundTrip.fpuRnd
  | fpuCvt => apply Laws.RoundTrip.fpuCvt
  | fpuEq => apply Laws.RoundTrip.fpuEq
  | fpuLt => apply Laws.RoundTrip.fpuLt
  | fpuLe => apply Laws.RoundTrip.fpuLe
  | fpuCls => apply Laws.RoundTrip.fpuCls
  | fpuSgnj => apply Laws.RoundTrip.fpuSgnj
  | fpuAbs => apply Laws.RoundTrip.fpuAbs
  | rowYield => apply Laws.RoundTrip.rowYield
  | rowWait => apply Laws.RoundTrip.rowWait
  | rowStop => apply Laws.RoundTrip.rowStop
  | rowRowid => apply Laws.RoundTrip.rowRowid
  | rowSend => apply Laws.RoundTrip.rowSend
  | rowSpawn => apply Laws.RoundTrip.rowSpawn
  | rowDone => apply Laws.RoundTrip.rowDone
  | rowBudget => apply Laws.RoundTrip.rowBudget
  | rowBarInit => apply Laws.RoundTrip.rowBarInit
  | rowBarArrive => apply Laws.RoundTrip.rowBarArrive
  | rowBarWait => apply Laws.RoundTrip.rowBarWait
  | rowBarSync => apply Laws.RoundTrip.rowBarSync
  | rowDqPush => apply Laws.RoundTrip.rowDqPush
  | rowDqPop => apply Laws.RoundTrip.rowDqPop
  | rowDqSplit => apply Laws.RoundTrip.rowDqSplit
  | rowDqSteal => apply Laws.RoundTrip.rowDqSteal
  | rowDqLen => apply Laws.RoundTrip.rowDqLen
  | engineCpLin => apply Laws.RoundTrip.engineCpLin
  | engineCpDist => apply Laws.RoundTrip.engineCpDist
  | engineCpStat => apply Laws.RoundTrip.engineCpStat
  | engineMxGang => apply Laws.RoundTrip.engineMxGang
  | engineMxStat => apply Laws.RoundTrip.engineMxStat
  | engineMxAbort => apply Laws.RoundTrip.engineMxAbort
  | engineEdgeRun => apply Laws.RoundTrip.engineEdgeRun
  | engineEdgeRet => apply Laws.RoundTrip.engineEdgeRet
  | engineEdgeStat => apply Laws.RoundTrip.engineEdgeStat
  | sysNop => apply Laws.RoundTrip.sysNop
  | sysTrap => apply Laws.RoundTrip.sysTrap
  | sysBkpt => apply Laws.RoundTrip.sysBkpt
  | sysUret => apply Laws.RoundTrip.sysUret
  | sysHalt => apply Laws.RoundTrip.sysHalt
  | sysSysr => apply Laws.RoundTrip.sysSysr
  | sysSysw => apply Laws.RoundTrip.sysSysw
  | sysShoot => apply Laws.RoundTrip.sysShoot
  | sysGang => apply Laws.RoundTrip.sysGang
  | sysSwap => apply Laws.RoundTrip.sysSwap
  | vxfBcast => apply Laws.RoundTrip.vxfBcast
  | vxfExt => apply Laws.RoundTrip.vxfExt
  | vxfIns => apply Laws.RoundTrip.vxfIns
  | vxfPerm => apply Laws.RoundTrip.vxfPerm
  | vxfRedAdd => apply Laws.RoundTrip.vxfRedAdd
  | vxfRedMin => apply Laws.RoundTrip.vxfRedMin
  | vxfRedMax => apply Laws.RoundTrip.vxfRedMax
  | vxfIota => apply Laws.RoundTrip.vxfIota
  | vxfAbs => apply Laws.RoundTrip.vxfAbs
  | vxfNeg => apply Laws.RoundTrip.vxfNeg
  | vxfSgnj => apply Laws.RoundTrip.vxfSgnj
  | vxfShfdn => apply Laws.RoundTrip.vxfShfdn
  | hMov => apply Laws.RoundTrip.hMov
  | hAdd => apply Laws.RoundTrip.hAdd
  | hAddi5 => apply Laws.RoundTrip.hAddi5
  | hSub => apply Laws.RoundTrip.hSub
  | hAnd => apply Laws.RoundTrip.hAnd
  | hOr => apply Laws.RoundTrip.hOr
  | hXor => apply Laws.RoundTrip.hXor
  | hShli => apply Laws.RoundTrip.hShli
  | hShri => apply Laws.RoundTrip.hShri
  | hLd64 => apply Laws.RoundTrip.hLd64
  | hLd32 => apply Laws.RoundTrip.hLd32
  | hSt64 => apply Laws.RoundTrip.hSt64
  | hSt32 => apply Laws.RoundTrip.hSt32
  | hBeqz => apply Laws.RoundTrip.hBeqz
  | hBnez => apply Laws.RoundTrip.hBnez
  | hLt => apply Laws.RoundTrip.hLt
  | hLdi5 => apply Laws.RoundTrip.hLdi5
  | hVfaddF32 => apply Laws.RoundTrip.hVfaddF32
  | hVfmulF32 => apply Laws.RoundTrip.hVfmulF32
  | hNop => apply Laws.RoundTrip.hNop
  | hYield => apply Laws.RoundTrip.hYield
  | hRet => apply Laws.RoundTrip.hRet
  | _ => exact Laws.RoundTrip.of0 _ rfl

/-! ### From bytes to an instruction and back -/

theorem decode32_eq_some {w : BitVec 32} {i : Instr} : decode32 w = some i ↔ raw32 w = some i ∧ i.wf = true ∧ i.word = w := by
  simp [decode32, Option.filter_eq_some_iff]

theorem decode16_eq_some {h : BitVec 16} {i : Instr} :
    decode16 h = some i ↔ raw16 h = some i ∧ i.wf = true ∧ i.word = h.setWidth 32 := by
  simp [decode16, Option.filter_eq_some_iff]

/-- R147: what decodes is four bytes or two before the rest, as bit 0 of the first says. -/
theorem decode_cases {bs rest : List Byte} {i : Instr} (h : decode bs = some (i, rest)) :
    (∃ b0 b1 b2 b3, bs = [b0, b1, b2, b3] ++ rest ∧ b0.getLsbD 0 = true ∧
      decode32 (BitVec.ofNat 32 (leNat [b0, b1, b2, b3])) = some i) ∨
    ∃ b0 b1, bs = [b0, b1] ++ rest ∧ b0.getLsbD 0 = false ∧ decode16 (BitVec.ofNat 16 (leNat [b0, b1])) = some i := by
  unfold decode at h
  split at h
  next b0 b1 tl =>
    split at h
    next hb =>
      split at h
      next b2 b3 _ =>
        obtain ⟨j, hj, he⟩ := Option.map_eq_some_iff.mp h
        cases he
        exact .inl ⟨b0, b1, b2, b3, rfl, hb, hj⟩
      next => exact nomatch h
    next hb =>
      obtain ⟨j, hj, he⟩ := Option.map_eq_some_iff.mp h
      cases he
      exact .inr ⟨b0, b1, rfl, Bool.not_eq_true _ ▸ hb, hj⟩
  next => exact nomatch h

/-- Bit 0 of the number that bytes hold is bit 0 of the first byte. -/
theorem ofNat_leNat_bit0 {n : Nat} (hn : 0 < n) (b : Byte) (bs : List Byte) :
    (BitVec.ofNat n (leNat (b :: bs))).getLsbD 0 = b.getLsbD 0 := by
  rw [BitVec.getLsbD_ofNat, decide_eq_true hn, Bool.true_and, leNat, BitVec.getLsbD, Nat.testBit_zero, Nat.testBit_zero]
  congr 1
  simp only [eq_iff_iff]
  omega

/-- A word as wide as the bytes holds their number. -/
theorem toNat_ofNat_leNat {n : Nat} {bs : List Byte} (hn : 8 * bs.length = n) : (BitVec.ofNat n (leNat bs)).toNat = leNat bs := by
  have hlt : leNat bs < 2 ^ n := by
    rw [← hn, pow_mul]
    exact leNat_lt bs
  rw [BitVec.toNat_ofNat, Nat.mod_eq_of_lt hlt]

/-- Bytes that hold an instruction's word, as many as its size, are its encoding. -/
theorem encode_eq {i : Instr} {bs : List Byte} (hw : i.word.toNat = leNat bs) (hl : bs.length = i.size) : encode i = bs := by
  rw [encode, hw, ← hl, leBytes_leNat]

theorem decode32_encode {b0 b1 b2 b3 : Byte} {i : Instr} (hb : b0.getLsbD 0 = true)
    (h : decode32 (BitVec.ofNat 32 (leNat [b0, b1, b2, b3])) = some i) :
    i.wf = true ∧ i.hasWord = true ∧ encode i = [b0, b1, b2, b3] := by
  obtain ⟨-, hwf, hword⟩ := decode32_eq_some.mp h
  have h0 : i.word.getLsbD 0 = true := by rw [hword, ofNat_leNat_bit0 (by decide), hb]
  refine ⟨hwf, ?_, encode_eq ?_ ?_⟩
  · rw [Instr.hasWord, bne_iff_ne]
    intro hz
    rw [hz] at h0
    exact nomatch h0
  · rw [hword]
    exact toNat_ofNat_leNat rfl
  · rw [Instr.size, if_pos h0]
    rfl

/-- R151, R158: the halfword of zeros is no instruction. -/
theorem decode16_zero : decode16 0 = none := by decide

theorem decode16_encode {b0 b1 : Byte} {i : Instr} (hb : b0.getLsbD 0 = false)
    (h : decode16 (BitVec.ofNat 16 (leNat [b0, b1])) = some i) :
    i.wf = true ∧ i.hasWord = true ∧ encode i = [b0, b1] := by
  obtain ⟨-, hwf, hword⟩ := decode16_eq_some.mp h
  have hnat : i.word.toNat = leNat [b0, b1] := by
    rw [hword, BitVec.toNat_setWidth_of_le (by decide)]
    exact toNat_ofNat_leNat rfl
  have h0 : i.word.getLsbD 0 = false := by
    rw [hword, BitVec.getLsbD_setWidth, ofNat_leNat_bit0 (by decide), hb]
    rfl
  refine ⟨hwf, ?_, encode_eq hnat ?_⟩
  · rw [Instr.hasWord, bne_iff_ne]
    intro hz
    rw [hz] at hnat
    rw [← hnat] at h
    exact nomatch decode16_zero.symm.trans h
  · rw [Instr.size, if_neg (by rw [h0]; decide)]
    rfl

/-- Settles O54: forwards by each constructor's round trip; backwards because the decoder accepts only an instruction that is well formed
and whose word is the one read, so its bytes are that word's. -/
theorem decodeAndEncodeAgree : Obligations.DecodeAndEncodeAgree := by
  refine ⟨fun i rest hw hwf => roundTrip i hw hwf rest, fun bs rest i h => ?_⟩
  rcases decode_cases h with ⟨b0, b1, b2, b3, rfl, hb, hd⟩ | ⟨b0, b1, rfl, hb, hd⟩
  · obtain ⟨hwf, hw, he⟩ := decode32_encode hb hd
    exact ⟨hwf, hw, by rw [he]⟩
  · obtain ⟨hwf, hw, he⟩ := decode16_encode hb hd
    exact ⟨hwf, hw, by rw [he]⟩

/-- Settles O55: the decoder evaluated on each word. -/
theorem decodesWrittenWords : Obligations.DecodesWrittenWords := by
  unfold Obligations.DecodesWrittenWords
  decide +kernel

/-! ## Sixteen-bit register forms (O9) -/

/-- Sources that are full and sound, and X[d] written: the shape of a register form with a scalar result. -/
theorem writesX_of_retX {s : State} {i : Instr} {xs : List Src} {d : Reg} {v : Word} {n : Nat} (hc : Can s xs)
    (h : exec i s = .next (gate s s.cur 0 xs (retX s s.cur d v n))) : WritesX s i d v 0 (after s n) :=
  ⟨_, by rw [h, gate_ready hc.2], retX_done s hc.1 d v n⟩

/-- A row that writes nothing and retires with PC `next`. -/
theorem onlyMoves_of_retireTo {s : State} {i : Instr} {xs : List Src} {next : Word} (hc : Can s xs)
    (h : exec i s = .next (gate s s.cur 0 xs (retireTo s s.cur next))) : OnlyMoves s i next :=
  ⟨_, by rw [h, gate_ready hc.2], done_retire0 (Wrote.refl s) hc.1 next⟩

theorem half2_result {c : Reg → Reg → Instr} {f : Word → Word → Word} (h : ∀ s a d, exec (c a d) s = .next (half2 s a d f)) :
    Half2 c f := fun s a d hc => writesX_of_retX hc (h s a d)

theorem half1_result {c : BitVec 5 → Reg → Instr} {f : Word → BitVec 5 → Word}
    (h : ∀ s imm d, exec (c imm d) s = .next (half1 s d fun x => f x imm)) : Half1 c f :=
  fun s imm d hc => writesX_of_retX hc (h s imm d)

theorem wNat_toNat_eq_flag (b : Bool) : wNat b.toNat = flag b := by cases b <;> rfl

/-- R151: an immediate of five bits is sign-extended. -/
theorem signExt_imm5 (imm : BitVec 5) : signExt 5 imm.toNat = imm.signExtend 64 := signExt_eq imm (by decide) (by decide)

theorem halfBranch_moves {s : State} {i : Instr} {imm : BitVec 5} {d : Reg} {f : Word → Bool} (hc : Can s [srcX d false])
    (h : exec i s = .next (halfBranch s imm d f)) :
    OnlyMoves s i (if f (getX s s.cur d) then (getRow s s.cur).pc + imm.signExtend 64 * 2#64 else after s 2) := by
  refine onlyMoves_of_retireTo hc ?_
  rw [h, halfBranch, signExt_imm5]
  split
  · rfl
  · rfl

/-- The flags of lanes depend on which of the listed lanes are active. -/
theorem laneFlags_congr {act act' : Nat → Bool} (f : Nat → FRes) {l : List Nat} (h : ∀ j ∈ l, act j = act' j) :
    laneFlags act f l = laneFlags act' f l := by
  induction l with
  | nil => rfl
  | cons j js ih =>
    simp only [laneFlags, h j List.mem_cons_self, ih fun k hk => h k (List.mem_cons_of_mem _ hk)]

/-- V[d] written lane by lane under a mask (R216), as the statements say it. -/
theorem writesV_of_retV {s : State} {i : Instr} {xs : List Src} {ty mk d n : Nat} {f : Nat → FRes} (hc : Can s xs)
    (h : exec i s = .next (gate s s.cur 0 xs (retV s s.cur ty mk d f n))) : WritesV s i ty mk d f (after s n) := by
  have hact : ∀ j < laneCount ty, (maskOf s s.cur mk).testBit j = active s mk j :=
    fun j hj => testBit_maskOf s mk (hj.trans_le (laneCount_le ty))
  obtain ⟨hdone, hlane⟩ := retV_done s hc.1 ty mk d f n
  rw [← List.range_eq_range', laneFlags_congr f fun j hj => hact j (List.mem_range.mp hj)] at hdone
  refine ⟨_, by rw [h, gate_ready hc.2], hdone, fun j hj => ?_⟩
  rw [← hact j hj]
  exact hlane j hj

/-- Settles O9: each form is one of the shapes above with its own operation; the next instruction stands two bytes on, and the bits that
R215 has ignored are arguments that no meaning uses. -/
theorem halfwordResults : Obligations.HalfwordResults := by
  unfold Obligations.HalfwordResults
  refine ⟨fun s a d hc => writesX_of_retX hc rfl, half2_result fun _ _ _ => rfl, half2_result fun _ _ _ => rfl,
    half2_result fun _ _ _ => rfl, half2_result fun _ _ _ => rfl, half2_result fun _ _ _ => rfl, half2_result fun s a d => ?_,
    half1_result fun s imm d => ?_, half1_result fun _ _ _ => rfl, half1_result fun _ _ _ => rfl, fun s imm d hg => ?_,
    fun s imm d hc => ⟨?_, ?_⟩, fun s _ _ a d hc => ⟨writesV_of_retV hc rfl, writesV_of_retV hc rfl⟩,
    fun s hg => ⟨⟨_, rfl, retire_done0 hg (Wrote.refl s) 2⟩, ⟨_, rfl, retire_done0 hg (Wrote.refl s) 4⟩⟩,
    fun s hc => onlyMoves_of_retireTo hc rfl⟩
  · simp only [← wNat_toNat_eq_flag]
    rfl
  · simp only [← signExt_imm5]
    rfl
  · rw [← signExt_imm5]
    exact ⟨_, rfl, retX_done s hg d _ 2⟩
  · simpa using halfBranch_moves hc (f := fun x => x == 0) rfl
  · simpa using halfBranch_moves hc (f := fun x => x != 0) rfl

end Sys2Proof.Proofs

-- ==== Proofs of 12_number_formats ====
namespace Sys2Proof.Proofs
open Sys2Proof.Machine Sys2Proof.Claims

/-! ## Scalar floating point (O4) -/

/-- Sources that are full and sound, X[d] written and flags added: the shape of an FPU instruction. -/
theorem writesX_of_retXF {s : State} {i : Instr} {xs : List Src} {d : Reg} {v : Word} {fl : FFlags} {n : Nat} (hc : Can s xs)
    (h : exec i s = .next (gate s s.cur 0 xs (retXF s s.cur d v fl n))) : WritesX s i d v fl (after s n) :=
  ⟨_, by rw [h, gate_ready hc.2], retXF_done s hc.1 d v fl n⟩

/-- The model's destructured result is the statements' pair of projections. -/
theorem fpu2_eq (s : State) (md fmt tb ta : Bool) (b a d : Reg) (f : Fmt → RMode → Nat → Nat → FRes) :
    fpu2 s md fmt tb ta b a d f =
      let y := f (fpuFmt fmt) (rmOf s s.cur) (fpuOp fmt (getX s s.cur a)) (fpuOp fmt (getX s s.cur b))
      gate s s.cur 0 ([srcX a ta, srcX b tb] ++ modeSrc md) (retXF s s.cur d (wNat y.1) y.2 4) := rfl

theorem fpu1_eq (s : State) (md fmt ta : Bool) (a d : Reg) (f : Fmt → RMode → Nat → FRes) :
    fpu1 s md fmt ta a d f =
      let y := f (fpuFmt fmt) (rmOf s s.cur) (fpuOp fmt (getX s s.cur a))
      gate s s.cur 0 ([srcX a ta] ++ modeSrc md) (retXF s s.cur d (wNat y.1) y.2 4) := rfl

theorem fpu2_result {c : Bool → Bool → Bool → Reg → Reg → Reg → Instr} {md : Bool} {f : Fmt → RMode → Nat → Nat → FRes}
    (h : ∀ s fmt tb ta b a d, exec (c fmt tb ta b a d) s = .next (fpu2 s md fmt tb ta b a d f)) : Fpu2 c md f :=
  fun s fmt tb ta b a d hc => writesX_of_retXF hc ((h s fmt tb ta b a d).trans (congrArg _ (fpu2_eq ..)))

theorem fpu1_result {c : Bool → Bool → Bool → Reg → Reg → Instr} {md : Bool} {f : Fmt → RMode → Nat → FRes}
    (h : ∀ s fmt tb ta a d, exec (c fmt tb ta a d) s = .next (fpu1 s md fmt ta a d f)) : Fpu1 c md f :=
  fun s fmt tb ta a d hc => writesX_of_retXF hc ((h s fmt tb ta a d).trans (congrArg _ (fpu1_eq ..)))

/-- R208: a comparison is a two-source instruction whose result is 1 or 0. Both sides are brought to projections of `fcmp` before they
are compared, so that no comparison unfolds the arithmetic. -/
theorem fpuCmp_eq_fpu2 (s : State) (fmt tb ta : Bool) (b a d : Reg) (k : FCond) :
    fpuCmp s fmt tb ta b a d k =
      fpu2 s false fmt tb ta b a d fun f _ x y => ((fcmp f k x y).1.toNat, (fcmp f k x y).2) := by
  rw [fpu2_eq, fpuCmp]
  dsimp only
  rfl

theorem fpuCmp_result {c : Bool → Bool → Bool → Reg → Reg → Reg → Instr} {k : FCond}
    (h : ∀ s fmt tb ta b a d, exec (c fmt tb ta b a d) s = .next (fpuCmp s fmt tb ta b a d k)) :
    Fpu2 c false fun f _ x y => ((fcmp f k x y).1.toNat, (fcmp f k x y).2) :=
  fpu2_result fun s fmt tb ta b a d => (h s fmt tb ta b a d).trans (congrArg _ (fpuCmp_eq_fpu2 ..))

theorem withSign_eq_signed (f : Fmt) (x : Nat) (sg : Bool) : withSign f x sg = signed f x sg := rfl

/-- R182, R208: classification raises NV for a signalling NaN and nothing else. -/
theorem fcls_eq (f : Fmt) (x : Nat) : fcls f x = (fclass f x, if (unpack f x).isS then flNV else 0) := by
  unfold fcls withNV
  split
  · exact congrArg _ BitVec.zero_or
  · rfl

theorem fpuCls_result : Fpu1 .fpuCls false fun f _ x => (fclass f x, if (unpack f x).isS then flNV else 0) := by
  simp only [← fcls_eq]
  exact fpu1_result fun _ _ _ _ _ _ => rfl

theorem fpuSgnj_result : Fpu2 .fpuSgnj false fun f _ x y => (signed f x (y.testBit (f.w - 1)), 0) := by
  simp only [← withSign_eq_signed]
  exact fpu2_result fun _ _ _ _ _ _ _ => rfl

theorem fpuAbs_result : Fpu1 .fpuAbs false fun f _ x => (signed f x false, 0) := by
  simp only [← withSign_eq_signed]
  exact fpu1_result fun _ _ _ _ _ _ => rfl

/-- R206: the fused multiply-add reads D, under TA, before the operands of a two-source instruction. -/
theorem fpuFma_result (s : State) (fmt tb ta : Bool) (b a d : Reg) (hc : Can s ([srcX d ta, srcX a ta, srcX b tb] ++ modeSrc true)) :
    let y := ffma (fpuFmt fmt) (rmOf s s.cur) false false (fpuOp fmt (getX s s.cur a)) (fpuOp fmt (getX s s.cur b))
      (fpuOp fmt (getX s s.cur d))
    WritesX s (.fpuFma fmt tb ta b a d) d (wNat y.1) y.2 (after s 4) := by
  refine writesX_of_retXF hc ?_
  change execFpuFma fmt tb ta b a d s = _
  rw [execFpuFma]
  dsimp only
  rfl

/-- R207: only the widening conversion, kind 0 to f64, does not read the rounding mode. -/
theorem fpuCvt_writesX {s : State} {k : BitVec 3} {fmt tb ta : Bool} {a d : Reg}
    (hc : Can s ([srcX a ta] ++ modeSrc (k.toNat != 0 || !fmt))) :
    let y := fpuConv k.toNat fmt (rmOf s s.cur) (getX s s.cur a)
    WritesX s (.fpuCvt k fmt tb ta a d) d y.1 y.2 (after s 4) := by
  have hk : (k.toNat != 0) = (k != 0) := by
    rw [Bool.eq_iff_iff, bne_iff_ne, bne_iff_ne, ne_eq, ne_eq, BitVec.toNat_eq]
    rfl
  rw [hk] at hc
  exact writesX_of_retXF hc rfl

/-- Settles O4: each form is one of the shapes above with its own operation; the fused form reads D besides, and the result of a
conversion is `fpuConv` at its kind. -/
theorem fpuResults : Obligations.FpuResults := by
  unfold Obligations.FpuResults
  refine ⟨fpu2_result fun _ _ _ _ _ _ _ => rfl, fpu2_result fun _ _ _ _ _ _ _ => rfl, fpu2_result fun _ _ _ _ _ _ _ => rfl,
    fpu2_result fun _ _ _ _ _ _ _ => rfl, fpu1_result fun _ _ _ _ _ _ => rfl, fpu2_result fun _ _ _ _ _ _ _ => rfl,
    fpu2_result fun _ _ _ _ _ _ _ => rfl, fpu1_result fun _ _ _ _ _ _ => rfl, fpuCmp_result fun _ _ _ _ _ _ _ => rfl,
    fpuCmp_result fun _ _ _ _ _ _ _ => rfl, fpuCmp_result fun _ _ _ _ _ _ _ => rfl, fpuCls_result, fpuSgnj_result, fpuAbs_result,
    fpuFma_result, fun s k fmt tb ta a d hc _ => ?_⟩
  have h := fpuCvt_writesX (tb := tb) (d := d) hc
  dsimp only [fpuConv] at h
  exact h

end Sys2Proof.Proofs

-- ==== Proofs of 14_vector_instructions ====
namespace Sys2Proof.Proofs
open Sys2Proof.Machine Sys2Proof.Claims

/-! ## Lanes as numbers and as bit vectors (R216) -/

theorem pow_256 (w : Nat) : 256 ^ w = 2 ^ (8 * w) := (pow_mul 2 8 w).symm

theorem laneBits_pos (ty : Nat) : 0 < 8 * laneBytes ty := by
  rcases laneBytes_cases ty with h | h | h <;> rw [h] <;> decide

theorem laneBits_le (ty : Nat) : 8 * laneBytes ty ≤ 64 := by
  rcases laneBytes_cases ty with h | h | h <;> rw [h] <;> decide

theorem lane_lt (s : State) (ty v j : Nat) : lane s ty v j < 2 ^ (8 * laneBytes ty) := by
  rw [← pow_256]
  exact (leNat_lt _).trans_le (Nat.pow_le_pow_right (by decide) (List.length_take_le ..))

@[simp] theorem toNat_ofNat_lane (s : State) (ty v j : Nat) :
    (BitVec.ofNat (8 * laneBytes ty) (lane s ty v j)).toNat = lane s ty v j :=
  (BitVec.toNat_ofNat ..).trans (Nat.mod_eq_of_lt (lane_lt ..))

theorem sval_eq_sInt {n : Nat} (h0 : 0 < n) (x : Nat) : sval n x = sInt n x := by
  unfold sval
  rw [← sInt_eq _ h0, BitVec.toNat_ofNat]
  unfold sInt
  rw [Nat.mod_mod]

theorem isFloat_iff (ty : BitVec 3) : isFloat ty = true ↔ 3 ≤ ty.toNat ∧ ty.toNat ≤ 6 := by
  simp only [isFloat, Bool.and_eq_true, decide_eq_true_eq]

/-- A float lane is as wide as its format (R216). -/
theorem fmtOf_w {ty : Nat} (h : 3 ≤ ty ∧ ty ≤ 6) : (fmtOf ty).w = 8 * laneBytes ty := by
  obtain ⟨h3, h6⟩ := h
  interval_cases ty <;> rfl

/-! ### Flags of lanes -/

theorem laneFlags_congr_lane (act : Nat → Bool) {f g : Nat → FRes} {l : List Nat} (h : ∀ j ∈ l, act j = true → f j = g j) :
    laneFlags act f l = laneFlags act g l := by
  induction l with
  | nil => rfl
  | cons j js ih =>
    rw [laneFlags, laneFlags, ih fun k hk => h k (List.mem_cons_of_mem _ hk)]
    split
    · rename_i ha
      rw [h j List.mem_cons_self ha]
    · rfl

theorem laneFlags_append (act : Nat → Bool) (f : Nat → FRes) (l l' : List Nat) :
    laneFlags act f (l ++ l') = laneFlags act f l ||| laneFlags act f l' := by
  induction l with
  | nil => exact BitVec.zero_or.symm
  | cons j js ih =>
    rw [List.cons_append, laneFlags, laneFlags, ih]
    split
    · exact (BitVec.or_assoc ..).symm
    · rfl

theorem laneFlags_eq_zero (act : Nat → Bool) {f : Nat → FRes} {l : List Nat} (h : ∀ j ∈ l, (f j).2 = 0) :
    laneFlags act f l = 0 := by
  induction l with
  | nil => rfl
  | cons j js ih =>
    rw [laneFlags, ih fun k hk => h k (List.mem_cons_of_mem _ hk), h j List.mem_cons_self]
    split <;> rfl

/-- Only the lanes that the type has matter. -/
theorem writesV_congr {s : State} {i : Instr} {ty mk d : Nat} {f g : Nat → FRes} {next : Word}
    (hw : WritesV s i ty mk d g next) (h : ∀ j < laneCount ty, f j = g j) : WritesV s i ty mk d f next := by
  obtain ⟨t, ht, hdone, hlane⟩ := hw
  refine ⟨t, ht, ?_, fun j hj => ?_⟩
  · rwa [laneFlags_congr_lane _ fun j hj _ => h j (List.mem_range.mp hj)]
  · rw [hlane j hj, h j hj]

/-! ## Integer vectors (O5) -/

theorem min_eq {n : Nat} (x y : BitVec n) (h0 : 0 < n) :
    (if sInt n x.toNat ≤ sInt n y.toNat then x.toNat else y.toNat) = (if x.sle y then x else y).toNat := by
  simp only [sle_eq x y h0, apply_ite BitVec.toNat]

theorem max_eq {n : Nat} (x y : BitVec n) (h0 : 0 < n) :
    (if sInt n y.toNat ≤ sInt n x.toNat then x.toNat else y.toNat) = (if x.sle y then y else x).toNat := by
  simp only [← sle_eq x y h0, apply_ite BitVec.toNat, sInt_eq _ h0]
  have hxy : x.toInt = y.toInt → x = y := BitVec.eq_of_toInt_eq
  split <;> split
  · rw [hxy (by omega)]
  · rfl
  · rfl
  · omega

theorem minu_eq {n : Nat} (x y : BitVec n) : min x.toNat y.toNat = (if x.ule y then x else y).toNat := by
  simp only [BitVec.ule_eq_decide, decide_eq_true_eq, apply_ite BitVec.toNat, Nat.min_def]

theorem maxu_eq {n : Nat} (x y : BitVec n) : max x.toNat y.toNat = (if x.ule y then y else x).toNat := by
  simp only [BitVec.ule_eq_decide, decide_eq_true_eq, apply_ite BitVec.toNat, Nat.max_def]

/-- R218: an operation on the numbers of two lanes that agrees with one on bit vectors of the lane's width. -/
theorem valu2_result {c : BitVec 3 → Bool → BitVec 3 → Reg → Reg → Reg → Instr} {F : (n x y : Nat) → Nat}
    {f : (n : Nat) → BitVec n → BitVec n → BitVec n}
    (h : ∀ s ty t mk b a d, exec (c ty t mk b a d) s = .next (valu2 s ty t mk b a d F))
    (hF : ∀ n, 0 < n → ∀ x y : BitVec n, F n x.toNat y.toNat = (f n x y).toNat) : Valu2 c f := by
  intro s ty t mk b a d hc
  simp only [← hF _ (laneBits_pos ty.toNat), toNat_ofNat_lane]
  exact writesV_of_retV hc (h ..)

/-- M[m] written and flags added: the shape of every instruction with a mask result. -/
theorem writesM_of_setM {s : State} {i : Instr} {xs : List Src} {m : Nat} {v : Word} {fl : FFlags} {bit : Nat → Bool} (hc : Can s xs)
    (h : exec i s = .next (gate s s.cur 0 xs (retire (orFlags (setM s s.cur m v) s.cur fl) s.cur 4)))
    (hbit : ∀ k < 64, v.getLsbD k = bit k) : WritesM s i m bit fl (after s 4) := by
  obtain ⟨hdone, hm⟩ := retM_done s hc.1 m v fl 4
  exact ⟨_, by rw [h, gate_ready hc.2], hdone, fun k hk => by rw [hm, hbit k hk]⟩

/-- The model's destructured comparison with projections. -/
theorem vecCmp_eq (s : State) (ty : BitVec 3) (t : Bool) (mk : BitVec 3) (b a : Reg) (m : BitVec 3) (f : Nat → Nat → Bool × FFlags) :
    vecCmp s ty t mk b a m f =
      let y := condMask (fun j => (maskOf s s.cur mk.toNat).testBit j)
        (fun j => f (lane s ty.toNat a.toNat j) (lane s ty.toNat b.toNat j)) (laneCount ty.toNat) 0
      gate s s.cur 0 ([srcV a.toNat t, srcV b.toNat t] ++ srcMk mk.toNat t)
        (retire (orFlags (setM s s.cur m.toNat (wNat y.1)) s.cur y.2) s.cur 4) := rfl

/-- R219: a comparison of lanes writes the active lanes for which it holds, and adds the flags of the active lanes. -/
theorem vecCmp_writesM {s : State} {i : Instr} {ty : BitVec 3} {t : Bool} {mk : BitVec 3} {b a : Reg} {m : BitVec 3}
    {f : Nat → Nat → Bool × FFlags} (hc : Can s ([srcV a.toNat t, srcV b.toNat t] ++ (if mk = 0 then [] else [srcM mk.toNat t])))
    (h : exec i s = .next (vecCmp s ty t mk b a m f)) :
    WritesM s i m.toNat
      (fun k => decide (k < laneCount ty.toNat) && active s mk.toNat k && (f (lane s ty.toNat a.toNat k) (lane s ty.toNat b.toNat k)).1)
      (laneFlags (active s mk.toNat) (fun k => (0, (f (lane s ty.toNat a.toNat k) (lane s ty.toNat b.toNat k)).2))
        (List.range (laneCount ty.toNat))) (after s 4) := by
  rw [← srcMk_eq] at hc
  have hact : ∀ j < 64, (maskOf s s.cur mk.toNat).testBit j = active s mk.toNat j := fun j hj => testBit_maskOf s _ hj
  rw [← laneFlags_congr _ fun j hj => hact j ((List.mem_range.mp hj).trans_le (laneCount_le _)), List.range_eq_range', ← condMask_flags]
  refine writesM_of_setM hc (h.trans (congrArg _ (vecCmp_eq ..))) fun k hk => ?_
  rw [BitVec.getLsbD_ofNat, decide_eq_true hk, Bool.true_and, (condMask_bit ..).1, hact k hk]
  simp only [Nat.zero_le, decide_true, Bool.true_and, Nat.zero_add]

theorem beq_toNat {n : Nat} (x y : BitVec n) : (x.toNat == y.toNat) = (x == y) := by
  rw [Bool.eq_iff_iff, beq_iff_eq, beq_iff_eq, BitVec.toNat_eq]

/-- R219: the conditions on numbers are those on bit vectors. -/
theorem valuCond_eq (c : Nat) {n : Nat} (x y : BitVec n) (h0 : 0 < n) :
    valuCond c n x.toNat y.toNat = (match c with | 0 => x == y | 1 => x != y | 2 => x.slt y | _ => x.ult y) :=
  match c with
  | 0 => beq_toNat x y
  | 1 => congrArg not (beq_toNat x y)
  | 2 => (Bool.decide_congr (slt_eq x y h0)).trans Bool.decide_eq_true
  | _ + 3 => rfl

theorem valuCond_lane (s : State) (c ty a b k : Nat) :
    let x := BitVec.ofNat (8 * laneBytes ty) (lane s ty a k)
    let y := BitVec.ofNat (8 * laneBytes ty) (lane s ty b k)
    valuCond c (8 * laneBytes ty) (lane s ty a k) (lane s ty b k) =
      (match c with | 0 => x == y | 1 => x != y | 2 => x.slt y | _ => x.ult y) := by
  have h := valuCond_eq c (BitVec.ofNat (8 * laneBytes ty) (lane s ty a k)) (BitVec.ofNat _ (lane s ty b k)) (laneBits_pos ty)
  rwa [toNat_ofNat_lane, toNat_ofNat_lane] at h

theorem valuCmp_result (s : State) (ty : BitVec 3) (t : Bool) (mk : BitVec 3) (b a : Reg) (cond : BitVec 2) (m : BitVec 3)
    (hc : Can s ([srcV a.toNat t, srcV b.toNat t] ++ (if mk = 0 then [] else [srcM mk.toNat t]))) :
    WritesM s (.valuCmp ty t mk b a cond m) m.toNat (fun k =>
      decide (k < laneCount ty.toNat) && active s mk.toNat k &&
        valuCond cond.toNat (8 * laneBytes ty.toNat) (lane s ty.toNat a.toNat k) (lane s ty.toNat b.toNat k)) 0 (after s 4) := by
  have h := vecCmp_writesM (i := .valuCmp ty t mk b a cond m) hc rfl
  rwa [laneFlags_eq_zero _ fun _ _ => rfl] at h

/-- R218: the selection reads its mask as a source of lanes, and writes all lanes of D. -/
theorem valuSel_result (s : State) (ty : BitVec 3) (t : Bool) (mk : BitVec 3) (b a d : Reg)
    (hc : Can s ([srcV a.toNat t, srcV b.toNat t] ++ (if mk = 0 then [] else [srcM mk.toNat t]))) :
    WritesV s (.valuSel ty t mk b a d) ty.toNat 0 d.toNat
      (fun j => (lane s ty.toNat (if active s mk.toNat j then a else b).toNat j, 0)) (after s 4) := by
  rw [← srcMk_eq] at hc
  refine writesV_congr (writesV_of_retV hc rfl) fun j hj => ?_
  rw [testBit_maskOf s _ (hj.trans_le (laneCount_le _))]
  split <;> rfl

/-- Settles O5: each operation on numbers of a lane's width is the one on bit vectors; comparison and selection read the mask as the
statements do. -/
theorem valuResults : Obligations.ValuResults := by
  unfold Obligations.ValuResults
  refine ⟨valu2_result (fun _ _ _ _ _ _ _ => rfl) fun _ _ => add_eq, valu2_result (fun _ _ _ _ _ _ _ => rfl) fun _ _ => sub_eq,
    valu2_result (fun _ _ _ _ _ _ _ => rfl) fun _ _ => mul_eq,
    valu2_result (fun _ _ _ _ _ _ _ => rfl) fun _ h0 x y => mulh_eq x y h0,
    valu2_result (fun _ _ _ _ _ _ _ => rfl) fun _ _ => and_eq, valu2_result (fun _ _ _ _ _ _ _ => rfl) fun _ _ => or_eq,
    valu2_result (fun _ _ _ _ _ _ _ => rfl) fun _ _ => xor_eq,
    valu2_result (fun _ _ _ _ _ _ _ => rfl) fun _ _ x y => shl_eq x y.toNat,
    valu2_result (fun _ _ _ _ _ _ _ => rfl) fun _ _ x y => shr_eq x y.toNat,
    valu2_result (fun _ _ _ _ _ _ _ => rfl) fun _ h0 x y => sra_eq x y.toNat h0,
    valu2_result (fun _ _ _ _ _ _ _ => rfl) fun _ h0 x y => min_eq x y h0,
    valu2_result (fun _ _ _ _ _ _ _ => rfl) fun _ h0 x y => max_eq x y h0,
    valu2_result (fun _ _ _ _ _ _ _ => rfl) fun _ _ => minu_eq, valu2_result (fun _ _ _ _ _ _ _ => rfl) fun _ _ => maxu_eq,
    fun s ty t mk b a cond m hc => ?_, valuSel_result⟩
  have h := valuCmp_result s ty t mk b a cond m hc
  simp only [valuCond_lane] at h
  exact h

/-! ## Masks (O7) -/

/-- Two masks combined bit by bit. -/
theorem mask2_result {c : Bool → Bool → Reg → Reg → Reg → Instr} {g : Word → Word → Word} {f : Bool → Bool → Bool}
    (h : ∀ s tb ta b a d, exec (c tb ta b a d) s = .next (mask2 s tb ta b a d g))
    (hg : ∀ x y : Word, ∀ k < 64, (g x y).getLsbD k = f (x.getLsbD k) (y.getLsbD k)) : Mask2 c f :=
  fun s tb ta b a d hc => writesM_of_setM hc (h s tb ta b a d) fun k hk => hg _ _ k hk

theorem popN_eq_countP (n x : Nat) : popN n x = (List.range n).countP fun k => x.testBit k := by
  induction n generalizing x with
  | zero => rfl
  | succ n ih =>
    have hsucc : (List.range n).countP ((fun k => x.testBit k) ∘ Nat.succ) = popN n (x / 2) := by
      rw [ih]
      exact List.countP_congr fun k _ => by rw [Function.comp, Nat.testBit_succ]
    rw [popN, List.range_succ_eq_map, List.countP_cons, List.countP_map, hsucc, Nat.testBit_zero]
    simp only [decide_eq_true_eq]
    split <;> omega

/-- R195, R225: the population, counted from bit 0 by halving. -/
theorem popN_eq_ones {n : Nat} (x : BitVec n) : popN n x.toNat = ones x := popN_eq_countP n x.toNat

theorem ctzN_eq_takeWhile (n x : Nat) : ctzN n x = ((List.range n).takeWhile fun k => !x.testBit k).length := by
  induction n generalizing x with
  | zero => rfl
  | succ n ih =>
    have hsucc : (fun k => !x.testBit k) ∘ Nat.succ = fun k => !(x / 2).testBit k := by
      funext k
      rw [Function.comp, Nat.testBit_succ]
    rw [ctzN, List.range_succ_eq_map, List.takeWhile_cons, Nat.testBit_zero, List.takeWhile_map, hsucc]
    by_cases hx : x % 2 = 1
    · simp only [hx, if_true, decide_true, Bool.not_true, Bool.false_eq_true, if_false, List.length_nil]
    · simp only [hx, if_false, decide_false, Bool.not_false, if_true, List.length_cons, List.length_map, ih]
      omega

/-- R195, R225: the first set bit, found from bit 0 by halving. -/
theorem ctzN_eq_trailing {n : Nat} (x : BitVec n) : ctzN n x.toNat = trailing x := ctzN_eq_takeWhile n x.toNat

/-- R225: the mask of the lanes below a number, cut at 64. -/
theorem lanesBelow_bit (n k : Nat) (hk : k < 64) : (wNat (2 ^ min n 64 - 1)).getLsbD k = decide (k < n) := by
  rw [BitVec.getLsbD_ofNat, decide_eq_true hk, Bool.true_and, Nat.testBit_two_pow_sub_one]
  exact Bool.decide_congr (by omega)

/-- R225: the instructions with one mask as source. -/
theorem mask1_results (s : State) (tb ta : Bool) (a d : Reg) (hc : Can s [srcM a.toNat ta]) :
    WritesM s (.maskNot tb ta a d) d.toNat (fun k => !(getM s s.cur a.toNat).getLsbD k) 0 (after s 4) ∧
    WritesX s (.maskPop tb ta a d) d (wNat (ones (getM s s.cur a.toNat))) 0 (after s 4) ∧
    WritesX s (.maskFirst tb ta a d) d (wNat (trailing (getM s s.cur a.toNat))) 0 (after s 4) ∧
    WritesX s (.maskTox tb ta a d) d (getM s s.cur a.toNat) 0 (after s 4) := by
  rw [← popN_eq_ones, ← ctzN_eq_trailing]
  refine ⟨writesM_of_setM hc rfl fun k hk => ?_, writesX_of_retX hc rfl, writesX_of_retX hc rfl, writesX_of_retX hc rfl⟩
  rw [BitVec.getLsbD_not, decide_eq_true hk, Bool.true_and]

/-- Settles O7: logic is bit by bit, counts are by halving, and the mask of the first lanes is a power of 2 less 1. -/
theorem maskResults : Obligations.MaskResults := by
  unfold Obligations.MaskResults
  refine ⟨mask2_result (fun _ _ _ _ _ _ => rfl) fun _ _ _ _ => BitVec.getLsbD_and,
    mask2_result (fun _ _ _ _ _ _ => rfl) fun _ _ _ _ => BitVec.getLsbD_or,
    mask2_result (fun _ _ _ _ _ _ => rfl) fun _ _ _ _ => BitVec.getLsbD_xor,
    mask2_result (fun _ _ _ _ _ _ => rfl) fun x y k hk => ?_, mask1_results,
    fun s tb ta a d hc => ⟨writesM_of_setM hc rfl fun _ _ => rfl, writesM_of_setM hc rfl fun k hk => lanesBelow_bit _ k hk⟩,
    fun s tb ta d hg => ?_⟩
  · rw [BitVec.getLsbD_and, BitVec.getLsbD_not, decide_eq_true hk, Bool.true_and]
  · refine writesM_of_setM (xs := []) ⟨hg, rfl⟩ rfl fun k hk => ?_
    rw [BitVec.getLsbD_not, decide_eq_true hk, BitVec.getLsbD_zero]
    rfl

/-! ## Float vectors (O6) -/

/-- A float operation on the lanes of two vectors. -/
theorem vfp2_result {c : BitVec 3 → Bool → BitVec 3 → Reg → Reg → Reg → Instr} {md : Bool} {f : Fmt → RMode → Nat → Nat → FRes}
    (h : ∀ s ty t mk b a d, exec (c ty t mk b a d) s = .next (vfp2 s md ty t mk b a d f)) : Vfp2 c md f :=
  fun s ty t mk b a d hc => writesV_of_retV hc (h s ty t mk b a d)

/-- A float operation on the lanes of one vector. -/
theorem vfp1_result {c : BitVec 3 → Bool → BitVec 3 → Reg → Reg → Instr} {md : Bool} {f : Fmt → RMode → Nat → FRes}
    (h : ∀ s ty t mk a d, exec (c ty t mk a d) s = .next (vfp1 s md ty t mk a d f)) : Vfp1 c md f :=
  fun s ty t mk a d hc => writesV_of_retV hc (h s ty t mk a d)

theorem vfpCls_result : Vfp1 .vfpCls false fun f _ x => (fclass f x, if (unpack f x).isS then flNV else 0) := by
  simp only [← fcls_eq]
  exact vfp1_result fun _ _ _ _ _ _ => rfl

/-- R222: the operation that also takes the type, in whose terms the free choice is made. -/
theorem vfpExp2f_result (s : State) (ty : BitVec 3) (t : Bool) (mk : BitVec 3) (a d : Reg)
    (hc : Can s (maskedSrcs d.toNat mk.toNat t [srcV a.toNat t])) :
    WritesV s (.vfpExp2f ty t mk a d) ty.toNat mk.toNat d.toNat
      (fun j => fexp2f ty.toNat (fmtOf ty.toNat) (lane s ty.toNat a.toNat j)) (after s 4) := by
  rw [← append_srcRm_false (maskedSrcs ..)] at hc
  exact writesV_of_retV hc rfl

/-- R224: all four forms read their addend beside A and B. -/
theorem vfma_result {c : BitVec 2 → BitVec 2 → Reg → Reg → Reg → Reg → Instr} {np nc : Bool}
    (h : ∀ s ty mk x b a d, exec (c ty mk x b a d) s = .next (vfma s ty mk x b a d np nc)) : Vfma c np nc :=
  fun s ty mk x b a d hc => writesV_of_retV hc (h s ty mk x b a d)

theorem vfpCmp_result (s : State) (ty : BitVec 3) (t : Bool) (mk : BitVec 3) (b a : Reg) (cond : BitVec 2) (m : BitVec 3)
    (hc : Can s ([srcV a.toNat t, srcV b.toNat t] ++ (if mk = 0 then [] else [srcM mk.toNat t]))) :
    let f := fun k => fcmp (fmtOf ty.toNat) (vfpCond cond.toNat) (lane s ty.toNat a.toNat k) (lane s ty.toNat b.toNat k)
    WritesM s (.vfpCmp ty t mk b a cond m) m.toNat
      (fun k => decide (k < laneCount ty.toNat) && active s mk.toNat k && (f k).1)
      (laneFlags (active s mk.toNat) (fun k => (0, (f k).2)) (List.range (laneCount ty.toNat))) (after s 4) :=
  vecCmp_writesM hc rfl

/-- V[d] written by lanes that any predicate selects, and retired: the words, the flags and every lane (R216). -/
theorem lanesFrom_done (s : State) (hg : Going s) (ty d : Nat) (act : Nat → Bool) (f : Nat → FRes) (n : Nat) :
    let y := lanesFrom (laneBytes ty) (getV s s.cur d) act f (laneCount ty) 0
    let t := retire (orFlags (setV s s.cur d y.1) s.cur y.2) s.cur n
    Done s t (List.range' (vw d) 16) (laneFlags act f (List.range (laneCount ty))) (after s n) ∧
      ∀ j < laneCount ty, laneAt t s.cur ty d j = if act j then (f j).1 % 256 ^ laneBytes ty else lane s ty d j := by
  have hfit : laneBytes ty * (0 + laneCount ty) ≤ (getV s s.cur d).length := by
    rw [getV_length, Nat.zero_add, lanes_bytes]
  obtain ⟨hdone, hv⟩ := retVec_done s hg d _ ((lanesFrom_length _ _ act f _ _ hfit).trans (lanes_bytes ty))
    (lanesFrom (laneBytes ty) (getV s s.cur d) act f (laneCount ty) 0).2 n
  refine ⟨?_, fun j hj => ?_⟩
  · rw [List.range_eq_range', ← lanesFrom_flags]
    exact hdone
  · rw [laneAt, hv, lanesFrom_lane _ _ _ _ _ _ _ hj hfit, Nat.zero_add]
    rfl

/-- The lanes beyond a conversion raise nothing, and those it makes raise flags where they are active. -/
theorem cvtFlags_eq {act : Nat → Bool} {f : Nat → FRes} {n k : Nat} (h : n ≤ k) :
    laneFlags (fun j => decide (n ≤ j) || act j) (fun j => if j < n then f j else pureLane 0) (List.range k) =
      laneFlags act f (List.range n) := by
  obtain ⟨m, rfl⟩ := Nat.exists_eq_add_of_le h
  rw [List.range_add, laneFlags_append]
  have hlow : ∀ j ∈ List.range n, j < n := fun _ => List.mem_range.mp
  have hacts : ∀ j ∈ List.range n, (decide (n ≤ j) || act j) = act j := fun j hj => by
    rw [decide_eq_false (by have := hlow j hj; omega), Bool.false_or]
  have hhigh : ∀ j ∈ (List.range m).map (n + ·), (if j < n then f j else pureLane 0).2 = 0 := fun j hj => by
    obtain ⟨i, -, rfl⟩ := List.mem_map.mp hj
    rw [if_neg (by omega)]
    rfl
  rw [laneFlags_congr_lane _ fun j hj _ => if_pos (hlow j hj), laneFlags_congr f hacts, laneFlags_eq_zero _ hhigh]
  exact BitVec.or_zero

/-- The model's destructured lanes with projections. -/
theorem execVfpCvt_eq (s : State) (ty : BitVec 3) (t : Bool) (mk sty : BitVec 3) (a d : Reg) :
    execVfpCvt ty t mk sty a d s =
      let n := min (laneCount ty.toNat) (laneCount sty.toNat)
      let y := lanesFrom (laneBytes ty.toNat) (getV s s.cur d.toNat)
        (fun j => decide (n ≤ j) || (maskOf s s.cur mk.toNat).testBit j)
        (fun j => if j < n then cvtLane ty.toNat sty.toNat (rmOf s s.cur) (lane s sty.toNat a.toNat j) else pureLane 0)
        (laneCount ty.toNat) 0
      .next (gate s s.cur 0 (maskedSrcs d.toNat mk.toNat t [srcV a.toNat t] ++ modeSrc (cvtRounds ty.toNat sty.toNat))
        (retire (orFlags (setV s s.cur d.toNat y.1) s.cur y.2) s.cur 4)) := rfl

/-- R221: a conversion makes the lanes that both types have, under the mask, and clears the rest. -/
theorem vfpCvt_result (s : State) (ty : BitVec 3) (t : Bool) (mk sty : BitVec 3) (a d : Reg)
    (hc : Can s (maskedSrcs d.toNat mk.toNat t [srcV a.toNat t] ++ modeSrc (cvtRounds ty.toNat sty.toNat))) :
    let n := min (laneCount ty.toNat) (laneCount sty.toNat)
    let f := fun j => cvtLane ty.toNat sty.toNat (rmOf s s.cur) (lane s sty.toNat a.toNat j)
    ∃ u, exec (.vfpCvt ty t mk sty a d) s = .next u ∧
      Done s u (List.range' (vw d.toNat) 16) (laneFlags (active s mk.toNat) f (List.range n)) (after s 4) ∧
      (∀ j < n, laneAt u s.cur ty.toNat d.toNat j =
        if active s mk.toNat j then (f j).1 % 256 ^ laneBytes ty.toNat else lane s ty.toNat d.toNat j) ∧
      ∀ j < laneCount ty.toNat, n ≤ j → laneAt u s.cur ty.toNat d.toNat j = 0 := by
  intro n f
  have hn : n ≤ laneCount ty.toNat := Nat.min_le_left ..
  have hact : ∀ j < n, (maskOf s s.cur mk.toNat).testBit j = active s mk.toNat j :=
    fun j hj => testBit_maskOf s _ ((hj.trans_le hn).trans_le (laneCount_le _))
  obtain ⟨hdone, hlane⟩ := lanesFrom_done s hc.1 ty.toNat d.toNat (fun j => decide (n ≤ j) || (maskOf s s.cur mk.toNat).testBit j)
    (fun j => if j < n then f j else pureLane 0) 4
  rw [cvtFlags_eq hn, laneFlags_congr f fun j hj => hact j (List.mem_range.mp hj)] at hdone
  refine ⟨_, ?_, hdone, fun j hj => ?_, fun j hj hnj => ?_⟩
  · exact (execVfpCvt_eq ..).trans (congrArg _ (gate_ready hc.2 _ _))
  · rw [hlane j (hj.trans_le hn), decide_eq_false (by omega), Bool.false_or, hact j hj, if_pos hj]
  · rw [hlane j hj, decide_eq_true hnj, Bool.true_or, if_pos rfl, if_neg (by omega)]
    exact Nat.zero_mod _

/-- Settles O6: each form is one of the shapes above with its own operation, on the lanes that the mask selects. -/
theorem vfpResults : Obligations.VfpResults := by
  unfold Obligations.VfpResults
  refine ⟨vfp2_result fun _ _ _ _ _ _ _ => rfl, vfp2_result fun _ _ _ _ _ _ _ => rfl, vfp2_result fun _ _ _ _ _ _ _ => rfl,
    vfp2_result fun _ _ _ _ _ _ _ => rfl, vfp2_result fun _ _ _ _ _ _ _ => rfl, vfp2_result fun _ _ _ _ _ _ _ => rfl,
    vfp2_result fun _ _ _ _ _ _ _ => rfl, vfp1_result fun _ _ _ _ _ _ => rfl, vfp1_result fun _ _ _ _ _ _ => rfl,
    vfp1_result fun _ _ _ _ _ _ => rfl, vfp1_result fun _ _ _ _ _ _ => rfl, vfp1_result fun _ _ _ _ _ _ => rfl,
    vfpCls_result, vfpExp2f_result, vfma_result fun _ _ _ _ _ _ _ => rfl, vfma_result fun _ _ _ _ _ _ _ => rfl,
    vfma_result fun _ _ _ _ _ _ _ => rfl, vfma_result fun _ _ _ _ _ _ _ => rfl, vfpCmp_result, fun s ty t mk sty a d hc => ?_⟩
  rw [← cvtRounds_eq] at hc
  exact vfpCvt_result s ty t mk sty a d hc

/-! ## Lane moves and signs (O8) -/

/-- R226: a lane as a register takes it, by the extension of its bit vector. -/
theorem laneWord_lane (s : State) (ty : BitVec 3) (v j : Nat) :
    laneWord ty (lane s ty.toNat v j) =
      if isFloat ty then wNat (lane s ty.toNat v j)
      else (BitVec.ofNat (8 * laneBytes ty.toNat) (lane s ty.toNat v j)).signExtend 64 := by
  rw [laneWord, ← signExt_eq _ (laneBits_pos _) (laneBits_le _), toNat_ofNat_lane]

/-- One lane of a vector replaced: it reads back, and every other lane is as it was. -/
theorem laneGet_patch {w i : Nat} {bs : List Byte} (v : Nat) (hi : w * i + w ≤ bs.length) (j : Nat) :
    laneGet w (patch bs (w * i) (leBytes w v)) j = if j = i then v % 256 ^ w else laneGet w bs j := by
  have htake : (bs.take (w * i)).length = w * i := List.length_take_of_le (by omega)
  unfold laneGet patch
  rw [List.append_assoc, leBytes_length]
  rcases Nat.lt_trichotomy j i with hlt | rfl | hgt
  · have hfit : w * j + w ≤ w * i := by rw [← Nat.mul_succ]; exact Nat.mul_le_mul_left w hlt
    rw [if_neg (by omega), List.drop_append_of_le_length (by omega), List.take_append_of_le_length (by rw [List.length_drop]; omega),
      List.drop_take, List.take_take, Nat.min_eq_left (by omega)]
  · rw [if_pos rfl, List.drop_left' htake, List.take_left' (leBytes_length w v), leNat_leBytes]
  · have hfit : w * i + w ≤ w * j := by rw [← Nat.mul_succ]; exact Nat.mul_le_mul_left w hgt
    have hskip : w * i + w + (w * j - (w * i + w)) = w * j := by omega
    rw [if_neg (by omega), ← List.append_assoc, List.drop_append, List.drop_of_length_le (by simpa [leBytes_length, htake] using hfit),
      List.nil_append, List.length_append, htake, leBytes_length, List.drop_drop, hskip]

theorem length_patch {d bs : List Byte} {off : Nat} (h : off + bs.length ≤ d.length) : (patch d off bs).length = d.length := by
  unfold patch
  rw [List.length_append, List.length_append, List.length_take, List.length_drop]
  omega

/-- Lane `i` of V[d] written, and retired. -/
theorem retLane_done (s : State) (hg : Going s) (ty d v n : Nat) {i : Nat} (hi : i < laneCount ty) :
    let t := retire (setV s s.cur d (patch (getV s s.cur d) (laneBytes ty * i) (leBytes (laneBytes ty) v))) s.cur n
    Done s t (List.range' (vw d) 16) 0 (after s n) ∧
      ∀ j, laneAt t s.cur ty d j = if j = i then v % 256 ^ laneBytes ty else lane s ty d j := by
  have hfit : laneBytes ty * i + laneBytes ty ≤ (getV s s.cur d).length := by
    rw [getV_length, ← lanes_bytes ty, ← Nat.mul_succ]
    exact Nat.mul_le_mul_left _ hi
  have hlen := length_patch (d := getV s s.cur d) (off := laneBytes ty * i) (bs := leBytes (laneBytes ty) v) (by rwa [leBytes_length])
  obtain ⟨hdone, hv⟩ := retVec_done s hg d _ (hlen.trans (getV_length ..)) 0 n
  exact ⟨hdone, fun j => (congrArg (laneGet _ · j) hv).trans (laneGet_patch v hfit j)⟩

theorem exec_vxfIns (s : State) (ty : BitVec 3) (t : Bool) (b a d : Reg) :
    exec (.vxfIns ty t b a d) s =
      .next (gate s s.cur 0 [srcV d.toNat t, srcX a t, srcX b t]
        (retire (setV s s.cur d.toNat (patch (getV s s.cur d.toNat)
          (laneBytes ty.toNat * ((getX s s.cur b).toNat % laneCount ty.toNat))
          (leBytes (laneBytes ty.toNat) ((getX s s.cur a).toNat % 2 ^ (8 * laneBytes ty.toNat))))) s.cur 4)) := rfl

/-- R226: an insertion keeps the other lanes of D, which it reads. -/
theorem vxfIns_result (s : State) (ty : BitVec 3) (t : Bool) (b a d : Reg) (hc : Can s [srcV d.toNat t, srcX a t, srcX b t]) :
    WritesV s (.vxfIns ty t b a d) ty.toNat 0 d.toNat (fun j =>
      if j = (getX s s.cur b).toNat % laneCount ty.toNat then ((getX s s.cur a).toNat % 256 ^ laneBytes ty.toNat, 0)
      else (lane s ty.toNat d.toNat j, 0)) (after s 4) := by
  have hpos : 0 < laneCount ty.toNat := Nat.pos_of_mul_pos_left (by rw [lanes_bytes]; decide)
  obtain ⟨hdone, hlane⟩ := retLane_done s hc.1 ty.toNat d.toNat ((getX s s.cur a).toNat % 2 ^ (8 * laneBytes ty.toNat)) 4
    (Nat.mod_lt (getX s s.cur b).toNat hpos)
  refine ⟨_, by rw [exec_vxfIns, gate_ready hc.2], ?_, fun j _ => ?_⟩
  · rw [laneFlags_eq_zero _ fun j _ => by split <;> rfl]
    exact hdone
  · refine (hlane j).trans ?_
    rw [active, beq_self_eq_true, Bool.true_or, if_pos rfl, pow_256]
    dsimp only
    split
    · rfl
    · exact (Nat.mod_eq_of_lt (lane_lt ..)).symm

/-- R226: operations on one vector without flags. -/
theorem vxf1_result {c : BitVec 3 → Bool → BitVec 3 → Reg → Reg → Instr} {F : BitVec 3 → (n x : Nat) → Nat} {f : (ty n x : Nat) → Nat}
    (h : ∀ s ty t mk a d, exec (c ty t mk a d) s = .next (vxf1 s ty t mk a d (F ty)))
    (hF : ∀ (ty : BitVec 3) (x : BitVec (8 * laneBytes ty.toNat)),
      F ty (8 * laneBytes ty.toNat) x.toNat = f ty.toNat (8 * laneBytes ty.toNat) x.toNat) : Vxf1 c f := by
  intro s ty t mk a d hc
  have hlane : ∀ j, f ty.toNat (8 * laneBytes ty.toNat) (lane s ty.toNat a.toNat j) =
      F ty (8 * laneBytes ty.toNat) (lane s ty.toNat a.toNat j) := fun j => by
    rw [← toNat_ofNat_lane, hF]
  simp only [hlane]
  exact writesV_of_retV hc (h ..)

theorem uNat_eq_pat (n : Nat) (i : Int) : uNat n i = pat n i := uNat_eq n i

/-- Negation of a number of n bits wraps. -/
theorem neg_eq_pat {n : Nat} (x : BitVec n) : (2 ^ n - x.toNat) % 2 ^ n = pat n (-sval n x.toNat) := by
  rw [pat, sval, BitVec.ofNat_toNat, BitVec.setWidth_eq, BitVec.ofInt_neg, BitVec.ofInt_toInt, BitVec.toNat_neg]

theorem vxfAbs_result : Vxf1 .vxfAbs fun ty n x =>
    if 3 ≤ ty ∧ ty ≤ 6 then signed (fmtOf ty) x false else pat n (sval n x).natAbs :=
  vxf1_result (fun _ _ _ _ _ _ => rfl) fun ty x => by
    simp only [isFloat_iff, withSign_eq_signed, uNat_eq_pat, sval_eq_sInt (laneBits_pos _)]

theorem vxfNeg_result : Vxf1 .vxfNeg fun ty n x =>
    if 3 ≤ ty ∧ ty ≤ 6 then signed (fmtOf ty) x (!x.testBit (n - 1)) else pat n (-sval n x) :=
  vxf1_result (fun _ _ _ _ _ _ => rfl) fun ty x => by
    simp only [isFloat_iff, withSign_eq_signed, neg_eq_pat]
    split
    · rename_i hty
      rw [fsign, fmtOf_w hty]
    · rfl

/-- R226: the sign of B on the magnitude of A. -/
theorem vxfSgnj_lane (ty : BitVec 3) (x y : Nat) :
    let n := 8 * laneBytes ty.toNat
    (if isFloat ty then withSign (fmtOf ty.toNat) x (fsign (fmtOf ty.toNat) y)
      else if 0 ≤ sInt n y then uNat n (sInt n x).natAbs else uNat n (-(Int.ofNat (sInt n x).natAbs))) =
    if isFloat ty then signed (fmtOf ty.toNat) x (y.testBit (n - 1))
      else pat n (if sval n y < 0 then -((sval n x).natAbs : Int) else (sval n x).natAbs) := by
  dsimp only
  by_cases hty : isFloat ty = true
  · rw [if_pos hty, if_pos hty, withSign_eq_signed, fsign, fmtOf_w ((isFloat_iff ty).mp hty)]
  · rw [if_neg hty, if_neg hty, sval_eq_sInt (laneBits_pos _), sval_eq_sInt (laneBits_pos _), uNat_eq_pat, uNat_eq_pat]
    split
    · rw [if_neg (by omega)]
    · rw [if_pos (by omega)]
      rfl

theorem vxfSgnj_result (s : State) (ty : BitVec 3) (t : Bool) (mk : BitVec 3) (b a d : Reg)
    (hc : Can s (maskedSrcs d.toNat mk.toNat t [srcV a.toNat t, srcV b.toNat t])) :
    WritesV s (.vxfSgnj ty t mk b a d) ty.toNat mk.toNat d.toNat (fun j =>
      let n := 8 * laneBytes ty.toNat
      let x := lane s ty.toNat a.toNat j
      let y := lane s ty.toNat b.toNat j
      (if isFloat ty then signed (fmtOf ty.toNat) x (y.testBit (n - 1))
       else pat n (if sval n y < 0 then -((sval n x).natAbs : Int) else (sval n x).natAbs), 0)) (after s 4) := by
  simp only [← vxfSgnj_lane]
  exact writesV_of_retV hc rfl

/-! ## Reductions (O8) -/

/-- R227: a node of the tree over more levels is two nodes combined. -/
theorem treeAt_succ (f : Nat → Nat → FRes) (x : Nat → Option Nat) (k h j : Nat) :
    treeAt f x (k + 1) h j = redComb f (treeAt f x k (2 * h) j) (treeAt f x k (2 * h) (j + h)) := rfl

/-- One level: the first half of the nodes combined with the second half. -/
theorem zipWith_treeAt (f : Nat → Nat → FRes) (x : Nat → Option Nat) (m h : Nat) :
    let ts := (List.range (2 * h)).map (treeAt f x m (2 * h))
    List.zipWith (redComb f) (ts.take h) (ts.drop h) = (List.range h).map (treeAt f x (m + 1) h) := by
  intro ts
  have hlen : ts.length = 2 * h := by rw [List.length_map, List.length_range]
  refine List.ext_getElem ?_ fun j hj hj' => ?_
  · simp only [List.length_zipWith, List.length_take, List.length_drop, List.length_map, List.length_range, hlen]
    omega
  · simp only [ts, List.getElem_zipWith, List.getElem_take, List.getElem_drop, List.getElem_map, List.getElem_range]
    rw [treeAt_succ, Nat.add_comm h j]

/-- R227: halving a level of `2 ^ k` nodes ends at the root. -/
theorem redTree_eq_treeAt (f : Nat → Nat → FRes) (x : Nat → Option Nat) {k fuel : Nat} (hk : k ≤ fuel) (m : Nat) :
    redTree f fuel ((List.range (2 ^ k)).map (treeAt f x m (2 ^ k))) = treeAt f x (m + k) 1 0 := by
  induction k generalizing fuel m with
  | zero =>
    cases fuel with
    | zero => rfl
    | succ => rw [redTree, List.length_map, List.length_range, if_pos (by decide)]; rfl
  | succ k ih =>
    obtain ⟨fuel, rfl⟩ : ∃ n, fuel = n + 1 := ⟨fuel - 1, by omega⟩
    have hhalf : ((List.range (2 ^ (k + 1))).map (treeAt f x m (2 ^ (k + 1)))).length / 2 = 2 ^ k := by
      rw [List.length_map, List.length_range, pow_succ, Nat.mul_div_cancel _ (by decide)]
    rw [redTree, hhalf, if_neg (by positivity), pow_succ', zipWith_treeAt, ih (by omega), Nat.add_right_comm, Nat.add_assoc]

/-- A vector has `2 ^ k` lanes, for a k of at most 6. -/
theorem two_pow_log2_laneCount (ty : Nat) : 2 ^ Nat.log2 (laneCount ty) = laneCount ty ∧ Nat.log2 (laneCount ty) ≤ 7 := by
  unfold laneCount
  rcases laneBytes_cases ty with h | h | h <;> rw [h] <;> decide

/-- The model's destructured reduction with projections, the lanes being the leaves of the tree. -/
theorem vxfRed_eq (s : State) (md : Bool) (ty : BitVec 3) (t : Bool) (mk : BitVec 3) (a d : Reg) (ident : Nat) (f : Nat → Nat → FRes) :
    vxfRed s md ty t mk a d ident f =
      let x := fun j => if (maskOf s s.cur mk.toNat).testBit j then some (lane s ty.toNat a.toNat j) else none
      let y := redTree f 7 ((List.range (laneCount ty.toNat)).map (treeAt f x 0 (laneCount ty.toNat)))
      gate s s.cur 0 ([srcV a.toNat t] ++ srcMk mk.toNat t ++ modeSrc md)
        (retXF s s.cur d (laneWord ty (y.1.getD ident)) y.2 4) := rfl

/-- Leaves that agree below the tree's lanes give the same tree. -/
theorem redTree_leaves_congr {f : Nat → Nat → FRes} {x x' : Nat → Option Nat} {n : Nat} (h : ∀ j < n, x j = x' j) (fuel : Nat) :
    redTree f fuel ((List.range n).map (treeAt f x 0 n)) = redTree f fuel ((List.range n).map (treeAt f x' 0 n)) := by
  refine congrArg _ (List.map_congr_left fun j hj => ?_)
  rw [treeAt, treeAt, h j (List.mem_range.mp hj)]

/-- R227: a reduction is the tree over the active lanes. -/
theorem reduce_result {c : BitVec 3 → Bool → BitVec 3 → Reg → Reg → Instr} {md : BitVec 3 → Bool}
    {f : State → BitVec 3 → Nat → Nat → FRes} {ident : BitVec 3 → Nat}
    (h : ∀ s ty t mk a d, exec (c ty t mk a d) s = .next (vxfRed s (md ty) ty t mk a d (ident ty) (f s ty))) :
    Reduce c md f ident := by
  intro s ty t mk a d hc
  rw [← srcMk_eq] at hc
  obtain ⟨hpow, hlog⟩ := two_pow_log2_laneCount ty.toNat
  have hleaf : ∀ j < laneCount ty.toNat,
      (if active s mk.toNat j then some (lane s ty.toNat a.toNat j) else none) =
        if (maskOf s s.cur mk.toNat).testBit j then some (lane s ty.toNat a.toNat j) else none := fun j hj => by
    rw [testBit_maskOf s _ (hj.trans_le (laneCount_le _))]
  have htree := redTree_eq_treeAt (f s ty)
    (fun j => if active s mk.toNat j then some (lane s ty.toNat a.toNat j) else none) hlog 0
  rw [hpow, Nat.zero_add, redTree_leaves_congr hleaf] at htree
  rw [← htree]
  exact writesX_of_retXF hc ((h s ty t mk a d).trans (congrArg _ (vxfRed_eq ..)))

theorem vxfRedAdd_result : Reduce .vxfRedAdd isFloat (fun s ty x y => if isFloat ty then fadd (fmtOf ty.toNat) (rmOf s s.cur) x y
    else ((x + y) % 256 ^ laneBytes ty.toNat, 0)) (fun _ => 0) := by
  simp only [pow_256]
  exact reduce_result fun _ _ _ _ _ _ => rfl

theorem vxfRedMin_result : Reduce .vxfRedMin (fun _ => false) (fun _ ty x y => if isFloat ty then fminmax (fmtOf ty.toNat) false x y
      else (if sval (8 * laneBytes ty.toNat) x ≤ sval (8 * laneBytes ty.toNat) y then x else y, 0))
    (fun ty => if isFloat ty then infBits (fmtOf ty.toNat) false else 2 ^ (8 * laneBytes ty.toNat - 1) - 1) := by
  simp only [sval_eq_sInt (laneBits_pos _)]
  exact reduce_result fun _ _ _ _ _ _ => rfl

theorem vxfRedMax_result : Reduce .vxfRedMax (fun _ => false) (fun _ ty x y => if isFloat ty then fminmax (fmtOf ty.toNat) true x y
      else (if sval (8 * laneBytes ty.toNat) y ≤ sval (8 * laneBytes ty.toNat) x then x else y, 0))
    (fun ty => if isFloat ty then infBits (fmtOf ty.toNat) true else 2 ^ (8 * laneBytes ty.toNat - 1)) := by
  simp only [sval_eq_sInt (laneBits_pos _)]
  exact reduce_result fun _ _ _ _ _ _ => rfl

/-- Settles O8: moves and signs are lane by lane, and a reduction is the tree that halves its lanes. -/
theorem vxfResults : Obligations.VxfResults := by
  unfold Obligations.VxfResults
  refine ⟨fun s ty t mk a d hc => ?_, fun s ty t b a d hc => ?_, vxfIns_result, fun s ty t mk b a d hc => writesV_of_retV hc rfl,
    fun s ty t mk b a d hc => ?_, fun s ty t mk d hc => writesV_of_retV hc rfl, vxfAbs_result, vxfNeg_result, vxfSgnj_result,
    vxfRedAdd_result, vxfRedMin_result, vxfRedMax_result⟩
  · rw [pow_256]
    exact writesV_of_retV hc rfl
  · dsimp only
    rw [← laneWord_lane]
    exact writesX_of_retX hc rfl
  · exact writesV_of_retV hc rfl

end Sys2Proof.Proofs

-- ==== Proofs of 15_memory_instructions ====
namespace Sys2Proof.Proofs
open Sys2Proof.Machine Sys2Proof.Claims

/-! ## An aligned element is one part (R38, R237) -/

theorem translate_page {s : State} {c : Ctx} {slice vpn : Nat} {x : Xl} (h : Machine.translate s c slice vpn = .ok x) :
    0x1000 ∣ x.page := by
  unfold Machine.translate at h
  extract_lets plain at h
  have hplain : plain = .ok x → 0x1000 ∣ x.page := fun hx => by
    unfold plain at hx
    split at hx
    · exact Except.ok.inj hx ▸ dvd_mul_right _ _
    · exact nomatch hx
  split at h
  · exact hplain h
  · dsimp only at h
    split at h
    · exact hplain h
    · split at h
      · split at h
        · exact Except.ok.inj h ▸ dvd_mul_right _ _
        · exact hplain h
      · exact hplain h

theorem translateWait_page {s : State} {c : Ctx} {slice vpn : Nat} {x : Xl} (h : translateWait s c slice vpn = .ok x) :
    0x1000 ∣ x.page := by
  unfold translateWait at h
  split at h
  · exact nomatch h
  · exact translate_page h

/-- An access that passes the checks keeps its instruction's alignment rule, and all of it is canonical and translated (R38). -/
theorem check_ok {s : State} {c : Ctx} {a : Acc} {p : Word} {n : Nat} {align : Bool} {ps : List Part}
    (h : check s c a p n align = .ok ps) :
    let pg := xlSegs s c p (canonGood p n).1 (canonGood p n).2
    align = false ∧ canonFail p n = none ∧ pageFail p a.code (cutSegs p pg) = none ∧ ps = allParts p c.asid (accTag a p) pg := by
  unfold check at h
  dsimp only at h
  split at h
  · exact nomatch h
  next hal =>
    split at h
    · exact nomatch h
    next hcanon =>
      split at h
      · exact nomatch h
      next hpage =>
        refine ⟨(Bool.or_eq_false_iff.mp (Bool.eq_false_of_not_eq_true hal)).1, hcanon, hpage, ?_⟩
        iterate 4
          split at h
          · exact nomatch h
        exact (Except.ok.inj h).symm

theorem canonGood_of_canonFail {p : Word} {n : Nat} (h : canonFail p n = none) : canonGood p n = (0, n) := by
  have hv : Wbits p 55 0 < 2 ^ 56 := Nat.mod_lt _ (by decide)
  unfold canonFail at h
  unfold canonGood
  dsimp only at h ⊢
  generalize Wbits p 55 0 = v at *
  by_cases hlt : v < 2 ^ 55
  · rw [if_pos hlt] at h
    split_ifs at h with hwrap htop hcross
    rw [not_not.mp htop]
    show (if v < 2 ^ 55 then (0, min n (2 ^ 55 - v)) else (0, 0)) = (0, n)
    rw [if_pos hlt, min_eq_left (by omega)]
  · rw [if_neg hlt] at h
    split_ifs at h with hwrap htop hcross
    rw [not_not.mp htop]
    show (2 ^ 55 - v, min n (2 ^ 56 - v)) = (0, n)
    rw [Nat.sub_eq_zero_of_le (not_lt.mp hlt), min_eq_left (by omega)]

/-- Where `n` divides `v` and `m`, the `n` places from `v` on lie in one block of `m`. -/
theorem mod_add_le {n m v : Nat} (hm : 0 < m) (hnm : n ∣ m) (hnv : n ∣ v) : v % m + n ≤ m :=
  Nat.le_of_lt_add_of_dvd (Nat.add_lt_add_right (Nat.mod_lt v hm) n) (dvd_add ((Nat.dvd_mod_iff hnm).mpr hnv) dvd_rfl) hnm

theorem segs_one {p : Word} {n : Nat} (hn : 0 < n) (h : Wbits p 55 0 % 0x1000 + n ≤ 0x1000) : segs p 0 n = [(0, n)] := by
  have hlen : min (n - 0) (0x1000 - (Wbits p 55 0 + 0) % 0x1000) = n := by omega
  unfold segs segsFrom
  rw [if_neg (by omega)]
  dsimp only
  rw [hlen, segsFrom, if_pos (by omega)]

theorem partsFrom_one {p : Word} {x : Xl} {n : Nat} (hn : 0 < n) (h : segPa p 0 x % 16 + n ≤ 16) (asid mt : Nat) :
    ∃ q, partsFrom p x asid mt 0 n (n / 16 + 2) 0 = [q] := by
  have hlen : min (n - 0) (16 - (segPa p 0 x + 0) % 16) = n := by omega
  unfold partsFrom
  rw [if_neg (by omega)]
  dsimp only
  rw [hlen, partsFrom, if_pos (by omega)]
  exact ⟨_, rfl⟩

/-- An aligned element lies in one page and in one aligned 16 bytes of it, so it is one part (R38). -/
theorem check_one_part {s : State} {c : Ctx} {a : Acc} {p : Word} {n : Nat} {align : Bool} {ps : List Part}
    (h : check s c a p n align = .ok ps) (hn : n ∣ 16) (hp : n ∣ p.toNat) : ∃ q, ps = [q] := by
  obtain ⟨-, hcanon, hpage, rfl⟩ := check_ok h
  have hpos : 0 < n := Nat.pos_of_dvd_of_pos hn (by decide)
  have hv : n ∣ Wbits p 55 0 := by
    unfold Wbits bitsOf
    rw [pow_zero, Nat.div_one]
    exact (Nat.dvd_mod_iff (hn.trans (by decide))).mpr hp
  unfold xlSegs at hpage ⊢
  rw [canonGood_of_canonFail hcanon, segs_one hpos (mod_add_le (by decide) (hn.trans (by decide)) hv)] at hpage ⊢
  simp only [List.map_cons, List.map_nil] at hpage ⊢
  unfold allParts
  generalize hx : translateWait s c _ _ = xl at hpage ⊢
  cases xl with
  | error sub => exact nomatch hpage
  | ok x =>
    have hseg : n ∣ segPa p 0 x :=
      dvd_add ((hn.trans (by decide)).trans (translateWait_page hx)) ((Nat.dvd_mod_iff (hn.trans (by decide))).mpr hv)
    obtain ⟨q, hq⟩ := partsFrom_one hpos (mod_add_le (by decide) hn hseg) c.asid (accTag a p)
    exact ⟨q, congrArg (· ++ []) hq⟩

theorem laneBytes_dvd (ty : Nat) : laneBytes ty ∣ 16 := by
  rcases laneBytes_cases ty with h | h | h <;> rw [h] <;> decide

/-- R237, R240: a lane whose base, and stride, keep the alignment rule stands aligned. -/
theorem laneVa_aligned {s : State} {w : Nat} {strided : Bool} {a b : Reg} (hw : w ∣ 16)
    (h : laneMisaligned s w strided a b = false) (j : Nat) : w ∣ (laneVa s w strided a b j).toNat := by
  have hdvd : w ∣ 2 ^ 64 := hw.trans (by decide)
  obtain ⟨ha, hb⟩ : (getX s s.cur a).toNat % w = 0 ∧ (strided = true → (getX s s.cur b).toNat % w = 0) := by
    simpa [laneMisaligned] using h
  have hmul (x y : Word) (hy : w ∣ y.toNat) : w ∣ (x * y).toNat := by
    rw [BitVec.toNat_mul, Nat.dvd_mod_iff hdvd]
    exact dvd_mul_of_dvd_right hy _
  unfold laneVa
  rw [BitVec.toNat_add, Nat.dvd_mod_iff hdvd]
  refine dvd_add (Nat.dvd_of_mod_eq_zero ha) ?_
  split
  next hs => exact hmul _ _ (Nat.dvd_of_mod_eq_zero (hb hs))
  · exact hmul _ _ (by rw [wNat, BitVec.toNat_ofNat, Nat.dvd_mod_iff hdvd])

theorem lane_one_part {s : State} {ty : Nat} {strided : Bool} {a b : Reg} {acc : Acc} {j : Nat} {ps : List Part}
    (h : check s (ctxOf s s.cur) acc (laneVa s (laneBytes ty) strided a b j) (laneBytes ty)
      (laneMisaligned s (laneBytes ty) strided a b) = .ok ps) : ∃ q, ps = [q] :=
  check_one_part h (laneBytes_dvd ty) (laneVa_aligned (laneBytes_dvd ty) (check_ok h).1 j)

/-! ## Indexed accesses (O18) -/

/-- When the checks of all lanes pass there is no fault, and their parts stand in lane order. -/
theorem laneChecks_parts {s : State} {r : RowId} {acc : Acc} {w : Nat} {align : Bool} {addr : Nat → Word} {xs : Nat → List Part}
    {js : List Nat} (h : ∀ j ∈ js, check s (ctxOf s r) acc (addr j) w align = .ok (xs j)) :
    laneChecks s r acc w align addr js = ([], js.flatMap xs) := by
  induction js with
  | nil => rfl
  | cons j js ih =>
    unfold laneChecks
    rw [ih fun i hi => h i (List.mem_cons_of_mem j hi), h j List.mem_cons_self]
    rfl

theorem mem_foldl_insSorted (ks l : List Nat) (x : Nat) : x ∈ ks.foldl insSorted l ↔ x ∈ ks ∨ x ∈ l := by
  induction ks generalizing l with
  | nil => simp
  | cons k ks ih =>
    rw [List.foldl_cons, ih, mem_insSorted, List.mem_cons]
    tauto

/-- The words of V[d] in which the lanes `js` lie, lowest first (R241). -/
def laneWords (d w : Nat) (js : List Nat) : List Nat := (js.map fun j => vw d + j * w / 8).foldl insSorted []

theorem mem_laneWords {d w : Nat} {js : List Nat} {x : Nat} : x ∈ laneWords d w js ↔ ∃ j ∈ js, x = vw d + j * w / 8 := by
  unfold laneWords
  rw [mem_foldl_insSorted]
  simp [eq_comm]

theorem le_of_mem_laneWords {d w : Nat} {js : List Nat} {x : Nat} (h : x ∈ laneWords d w js) : 80 ≤ x := by
  obtain ⟨j, -, rfl⟩ := mem_laneWords.mp h
  unfold vw
  omega

theorem markable_laneWords (d w : Nat) (js : List Nat) : markable (laneWords d w js) = laneWords d w js :=
  List.filter_eq_self.mpr fun x hx => by
    have := le_of_mem_laneWords hx
    simp
    omega

/-- R241: a gather whose lanes all pass their checks. -/
theorem gather_ok {s : State} {strided : Bool} {ty : BitVec 3} {t : Bool} {mk : BitVec 3} {b a d : Reg}
    (hi : Issues s (vmemSources strided false t mk.toNat b a d)) {xs : Nat → List Part}
    (hc : ∀ j ∈ lanesOf s ty.toNat mk.toNat, check s (ctxOf s s.cur) (laneAcc s a { rd := true })
      (laneVa s (laneBytes ty.toNat) strided a b j) (laneBytes ty.toNat) (laneMisaligned s (laneBytes ty.toNat) strided a b) =
        .ok (xs j)) :
    let w := laneBytes ty.toNat
    let js := lanesOf s ty.toNat mk.toNat
    gather s strided ty.toNat t.toNat mk.toNat b a d = if js.isEmpty then retire s s.cur 4 else
      retire (requested s (.load 0 false) (numbered w (js.flatMap xs)) (.lanes d.toNat w js) (laneWords d.toNat w js)) s.cur 4 := by
  have hl := laneChecks_parts hc
  unfold laneAcc laneMisaligned at hl
  unfold gather
  dsimp only
  rw [activeLanes_eq, laneAddr_eq, vmemSrcs_eq, holdGate_none hi.2, gate_ready hi.1.2]
  unfold vmemAlign baseTag
  rw [hl]
  rfl

theorem gather_of_exec {c : BitVec 3 → Bool → BitVec 3 → Reg → Reg → Reg → Instr} {strided : Bool}
    (h : ∀ s ty t mk b a d, exec (c ty t mk b a d) s = .next (gather s strided ty.toNat t.toNat mk.toNat b a d)) :
    Gather c strided := by
  intro s ty t mk b a d hi w js xs hc
  have he := (h s ty t mk b a d).trans (congrArg _ (gather_ok hi hc))
  refine ⟨fun hn => ?_, fun hn => ?_⟩
  · rw [if_pos (List.isEmpty_iff.mpr hn)] at he
    exact ⟨_, he, done_retire0 (Wrote.refl s) hi.1.1 (after s 4)⟩
  · rw [if_neg (mt List.isEmpty_iff.mp hn)] at he
    have hq := issued_retire hi.1.1 (.load 0 false) (numbered w (js.flatMap xs)) (.lanes d.toNat w js)
      (words := laneWords d.toNat w js) (fun x hx => by have := le_of_mem_laneWords hx; omega) 4
    rw [markable_laneWords] at hq
    exact ⟨_, _, he, fun x => mem_laneWords, hq⟩

/-- Lanes of one part each enter the FIFO in lane order (R242). -/
theorem entered_enterLanes (s : State) (v : Nat → List Byte) {xs : Nat → List Part} {js : List Nat}
    (h : ∀ j ∈ js, ∃ q, xs j = [q]) :
    Entered s (enterLanes s s.cur v (js.zip (js.flatMap xs)))
      (entries s .plain false 0 (js.flatMap fun j => (xs j).map fun p => (p, v j))) (js.flatMap xs) := by
  induction js generalizing s with
  | nil => exact Entered.refl s
  | cons j js ih =>
    obtain ⟨q, hq⟩ := h j List.mem_cons_self
    have he := entered_enterFifo s .plain false q (v j)
    have hcur : (enterFifo s s.cur (getRow s s.cur).priv .plain false q (v j)).cur = s.cur := by rw [he.rest]
    have hall := ih (enterFifo s s.cur (getRow s s.cur).priv .plain false q (v j)) fun i hi => h i (List.mem_cons_of_mem j hi)
    rw [hcur, entries_shift he.rest] at hall
    simp only [List.flatMap_cons, hq]
    exact he.trans hall

/-- Entries made, signature added, and the instruction going on to step `k`: it is queued, and nothing else has changed (R70, R117,
R242). -/
theorem queued_toStep {s t : State} {es : List StEnt} {ps : List Part} (he : Entered s t es ps) (sig : List Part) (k : Nat) :
    Queued s (toStep (sigParts t s.cur sig) s.cur k) es ps sig { getRow s s.cur with rstep := k } := by
  have hs := sigAdded_sigParts t s.cur sig
  generalize sigParts t s.cur sig = u at hs
  have hut : u = { s with mem := u.mem, cores := t.cores, nextId := s.nextId + es.length } :=
    hs.rest.trans (congrArg (fun x : State => { x with mem := u.mem }) he.rest)
  have hrow (q : RowId) : getRow u q = getRow s q := by rw [hut]; rfl
  have hcore (c : Nat) : getCore (toStep u s.cur k) c = getCore t c := by
    rw [toStep, getCore_modRow, hut]
    rfl
  exact {
    fifo := by rw [hcore, he.fifo]
    nextId := by rw [hut]; rfl
    row := by rw [toStep, getRow_modRow_self, hrow]
    rows := fun q hq => by rw [toStep, getRow_modRow, if_neg hq, hrow]
    signed := hs.signed (by rw [he.rest]) (by rw [he.rest]; rfl) rfl
    others := fun c hc => by rw [hcore, he.others c hc]
    core := by rw [hcore, he.core]
    stats := fun i => by
      rw [hcore, he.stats]
      by_cases h1 : i = 1
      · simp [h1]
      · simp [h1]
    rest := by rw [hut]; rfl }

/-- R242: a scatter whose lanes from its group on all pass their checks, with room for 16 entries. -/
theorem scatter_ok {s : State} {strided : Bool} {ty : BitVec 3} {t : Bool} {mk : BitVec 3} {b a d : Reg}
    (hi : Issues s (vmemSources strided true t mk.toNat b a d)) {k : Nat} (hk : k = (getRow s s.cur).rstep - 1) {left group : List Nat}
    (hleft : left = (lanesOf s ty.toNat mk.toNat).filter fun j => decide (16 * k ≤ j))
    (hgroup : group = left.filter fun j => decide (j < 16 * k + 16)) {xs : Nat → List Part}
    (hc : ∀ j ∈ left, check s (ctxOf s s.cur) (laneAcc s a { wr := true, code := 1 })
      (laneVa s (laneBytes ty.toNat) strided a b j) (laneBytes ty.toNat) (laneMisaligned s (laneBytes ty.toNat) strided a b) =
        .ok (xs j))
    (hr : 16 ≤ room s) :
    let u := sigParts (enterLanes s s.cur (fun j => leBytes (laneBytes ty.toNat) (lane s ty.toNat d.toNat j))
      (group.zip (group.flatMap xs))) s.cur (group.flatMap xs)
    scatter s strided ty.toNat t.toNat mk.toNat b a d =
      if laneCount ty.toNat ≤ 16 * k + 16 then retire u s.cur 4 else toStep u s.cur (k + 2) := by
  have hsub : ∀ j ∈ group, j ∈ left := fun j hj => List.mem_of_mem_filter (hgroup ▸ hj)
  have hl := laneChecks_parts hc
  have hg := laneChecks_parts (align := false) fun j hj => by
    have h := hc j (hsub j hj)
    rwa [(check_ok h).1] at h
  unfold laneAcc at hl hg
  unfold laneMisaligned at hl
  subst hk
  unfold scatter
  dsimp only
  rw [activeLanes_eq, laneAddr_eq, vmemSrcs_eq, holdGate_none hi.2, gate_ready hi.1.2, ← hleft, ← hgroup]
  unfold vmemAlign baseTag
  rw [hl, hg]
  exact if_neg (Nat.not_lt.mpr hr)

theorem scatter_of_exec {c : BitVec 3 → Bool → BitVec 3 → Reg → Reg → Reg → Instr} {strided : Bool}
    (h : ∀ s ty t mk b a d, exec (c ty t mk b a d) s = .next (scatter s strided ty.toNat t.toNat mk.toNat b a d)) :
    Scatter c strided := by
  intro s ty t mk b a d hi w k left group xs hc hr ps es
  have he := entered_enterLanes s (fun j => leBytes w (lane s ty.toNat d.toNat j)) (xs := xs) (js := group) fun j hj =>
    lane_one_part (hc j (List.mem_of_mem_filter hj))
  refine ⟨_, (h s ty t mk b a d).trans (congrArg _ (scatter_ok hi rfl rfl rfl hc hr)), ?_⟩
  split
  · exact queued_retire hi.1.1 he ps 0 4
  · exact queued_toStep he ps (k + 2)

/-- Settles O18: a gather's checked lanes go out in one request for the words where they lie; a scatter's checked lanes are one part
each, for they are aligned, and enter the FIFO in lane order. -/
theorem indexedAccesses : Obligations.IndexedAccesses :=
  ⟨gather_of_exec fun _ _ _ _ _ _ _ => rfl, gather_of_exec fun _ _ _ _ _ _ _ => rfl,
    scatter_of_exec fun _ _ _ _ _ _ _ => rfl, scatter_of_exec fun _ _ _ _ _ _ _ => rfl⟩

end Sys2Proof.Proofs
